-- ==== Sys2Proof/Word.lean ====
section
/-!
DEFINITION. The word types of the HW-TG940 and nothing else.

Bit 0 is the least significant bit of every register, field and memory word (R1, spec/00_scope.md).
-/

namespace Sys2Proof

/-- A 64-bit scalar or thread register, or a 64-bit memory word. -/
abbrev Word := BitVec 64

/-- The smallest addressable unit of global and vault memory. -/
abbrev Byte := BitVec 8

/-- A set of the thread slots 0 to 2047 of one core, thread `t` being bit `t` (R63, R132). -/
abbrev ThreadSet := BitVec 2048

end Sys2Proof
end

