-- ==== Sys2Proof/Syntax.lean ====
section
/-!
DEFINITION. The instructions and events of the HW-TG940: one constructor for every row of spec/opcode_table.json.

Of the constructors, 224 are the words of AGQ 1.0 (R24 to R41, spec/03_encoding.md). Their arguments are the fields of
the word, with the widths and the one-letter names the table gives them. The other 85, marked Event, are the events of
the part (spec/95_what_each_step_holds.md). No word encodes them; their arguments say which of the waiting things the
event concerns, or what comes from outside the part. Constructors without arguments stand last.
-/

namespace Sys2Proof

/-- One step of the HW-TG940: an instruction word, or an event. -/
inductive Instr where
  /-- R46: Scalar add of s[sa] and s[sb], modulo 2^64. -/
  | aluAdd (d : BitVec 6) (a : BitVec 6) (b : BitVec 6)
  /-- R46: Scalar subtract, modulo 2^64. -/
  | aluSub (d : BitVec 6) (a : BitVec 6) (b : BitVec 6)
  /-- R46: Scalar bitwise AND. -/
  | aluAnd (d : BitVec 6) (a : BitVec 6) (b : BitVec 6)
  /-- R46: Scalar bitwise OR. -/
  | aluOr (d : BitVec 6) (a : BitVec 6) (b : BitVec 6)
  /-- R46: Scalar bitwise XOR. -/
  | aluXor (d : BitVec 6) (a : BitVec 6) (b : BitVec 6)
  /-- R46: Scalar a AND NOT b. -/
  | aluAndn (d : BitVec 6) (a : BitVec 6) (b : BitVec 6)
  /-- R46: Scalar shift left by a 64-bit unsigned count; 0 at 64 or more. -/
  | aluShl (d : BitVec 6) (a : BitVec 6) (b : BitVec 6)
  /-- R46: Scalar logical shift right. -/
  | aluShr (d : BitVec 6) (a : BitVec 6) (b : BitVec 6)
  /-- R46: Scalar arithmetic shift right. -/
  | aluSar (d : BitVec 6) (a : BitVec 6) (b : BitVec 6)
  /-- R46: Scalar multiply, low 64 bits. -/
  | aluMul (d : BitVec 6) (a : BitVec 6) (b : BitVec 6)
  /-- R46: Scalar signed multiply, high 64 bits. -/
  | aluMulhs (d : BitVec 6) (a : BitVec 6) (b : BitVec 6)
  /-- R46: Scalar unsigned multiply, high 64 bits. -/
  | aluMulhz (d : BitVec 6) (a : BitVec 6) (b : BitVec 6)
  /-- R46: Scalar signed minimum. -/
  | aluMins (d : BitVec 6) (a : BitVec 6) (b : BitVec 6)
  /-- R46: Scalar signed maximum. -/
  | aluMaxs (d : BitVec 6) (a : BitVec 6) (b : BitVec 6)
  /-- R46: Scalar unsigned minimum. -/
  | aluMinz (d : BitVec 6) (a : BitVec 6) (b : BitVec 6)
  /-- R46: Scalar unsigned maximum. -/
  | aluMaxz (d : BitVec 6) (a : BitVec 6) (b : BitVec 6)
  /-- R46: Scalar add of a sign-extended 9-bit immediate. -/
  | aluiAddi (d : BitVec 6) (a : BitVec 6) (i : BitVec 9)
  /-- R46: Scalar subtract of an immediate. -/
  | aluiSubi (d : BitVec 6) (a : BitVec 6) (i : BitVec 9)
  /-- R46: Scalar AND with an immediate. -/
  | aluiAndi (d : BitVec 6) (a : BitVec 6) (i : BitVec 9)
  /-- R46: Scalar OR with an immediate. -/
  | aluiOri (d : BitVec 6) (a : BitVec 6) (i : BitVec 9)
  /-- R46: Scalar XOR with an immediate. -/
  | aluiXori (d : BitVec 6) (a : BitVec 6) (i : BitVec 9)
  /-- R46: Scalar AND NOT of an immediate. -/
  | aluiAndni (d : BitVec 6) (a : BitVec 6) (i : BitVec 9)
  /-- R46: Scalar shift left by an immediate 0-63. -/
  | aluiShli (d : BitVec 6) (a : BitVec 6) (i : BitVec 9)
  /-- R46: Scalar logical shift right by an immediate. -/
  | aluiShri (d : BitVec 6) (a : BitVec 6) (i : BitVec 9)
  /-- R46: Scalar arithmetic shift right by an immediate. -/
  | aluiSari (d : BitVec 6) (a : BitVec 6) (i : BitVec 9)
  /-- R46: Scalar multiply by an immediate, low half. -/
  | aluiMuli (d : BitVec 6) (a : BitVec 6) (i : BitVec 9)
  /-- R46: Scalar signed high multiply by an immediate. -/
  | aluiMulhsi (d : BitVec 6) (a : BitVec 6) (i : BitVec 9)
  /-- R46: Scalar unsigned high multiply by an immediate. -/
  | aluiMulhzi (d : BitVec 6) (a : BitVec 6) (i : BitVec 9)
  /-- R46: Scalar signed minimum with an immediate. -/
  | aluiMinsi (d : BitVec 6) (a : BitVec 6) (i : BitVec 9)
  /-- R46: Scalar signed maximum with an immediate. -/
  | aluiMaxsi (d : BitVec 6) (a : BitVec 6) (i : BitVec 9)
  /-- R46: Scalar unsigned minimum with an immediate. -/
  | aluiMinzi (d : BitVec 6) (a : BitVec 6) (i : BitVec 9)
  /-- R46: Scalar unsigned maximum with an immediate. -/
  | aluiMaxzi (d : BitVec 6) (a : BitVec 6) (i : BitVec 9)
  /-- R48: Scalar signed division truncating toward zero; never traps. -/
  | divs (d : BitVec 6) (a : BitVec 6) (b : BitVec 6)
  /-- R48: Scalar unsigned division; divide by zero gives all ones. -/
  | divz (d : BitVec 6) (a : BitVec 6) (b : BitVec 6)
  /-- R48: Scalar signed remainder. -/
  | rems (d : BitVec 6) (a : BitVec 6) (b : BitVec 6)
  /-- R48: Scalar unsigned remainder. -/
  | remz (d : BitVec 6) (a : BitVec 6) (b : BitVec 6)
  /-- R49: Scalar count of leading zeros. -/
  | alxClz (d : BitVec 6) (a : BitVec 6)
  /-- R49: Scalar population count. -/
  | alxPopc (d : BitVec 6) (a : BitVec 6)
  /-- R49: Scalar zero-extending bit-field extract. -/
  | alxBfx (d : BitVec 6) (a : BitVec 6) (b : BitVec 6)
  /-- R49: Scalar bit-field insert into sd. -/
  | alxBfi (d : BitVec 6) (a : BitVec 6) (b : BitVec 6)
  /-- R50: Scalar compare writing 1 or 0 by the md relation. -/
  | cmps (d : BitVec 6) (a : BitVec 6) (b : BitVec 6) (c : BitVec 3)
  /-- R50: Scalar register move. -/
  | alxMov (d : BitVec 6) (a : BitVec 6)
  /-- R50: Scalar conditional move when s[sa] is non-zero. -/
  | selnz (d : BitVec 6) (a : BitVec 6) (b : BitVec 6)
  /-- R51: Writes a 16-bit immediate into one halfword, zeroing the rest. -/
  | movw (h : BitVec 2) (d : BitVec 6) (i : BitVec 16)
  /-- R51: Writes a 16-bit immediate into one halfword, keeping the rest. -/
  | movwk (h : BitVec 2) (d : BitVec 6) (i : BitVec 16)
  /-- R52: Conditional branch on a scalar comparison. -/
  | brc (c : BitVec 4) (a : BitVec 6) (b : BitVec 6) (o : BitVec 9)
  /-- R53: Unconditional relative branch. -/
  | br (o : BitVec 25)
  /-- R53: Relative call writing the link to s63. -/
  | call (o : BitVec 25)
  /-- R54: Jump to the address in s[sa]. -/
  | jr (a : BitVec 6)
  /-- R54: Call to the address in s[sa], writing s63. -/
  | callr (a : BitVec 6)
  /-- R126: Masked content search of ACT against a scalar key, writing a mark. -/
  | srch (m : BitVec 3) (c : BitVec 3) (v : BitVec 7) (k : BitVec 6) (n : BitVec 6)
  /-- R126: Masked content search of LIVE against a scalar key. -/
  | srcha (m : BitVec 3) (c : BitVec 3) (v : BitVec 7) (k : BitVec 6) (n : BitVec 6)
  /-- R126: Masked search of ACT comparing two thread registers. -/
  | srchr (m : BitVec 3) (c : BitVec 3) (v : BitVec 7) (b : BitVec 7) (n : BitVec 5)
  /-- R131: Mark AND. -/
  | mand (d : BitVec 3) (a : BitVec 3) (b : BitVec 3)
  /-- R131: Mark OR. -/
  | mor (d : BitVec 3) (a : BitVec 3) (b : BitVec 3)
  /-- R131: Mark XOR. -/
  | mxor (d : BitVec 3) (a : BitVec 3) (b : BitVec 3)
  /-- R131: Mark AND NOT. -/
  | mandn (d : BitVec 3) (a : BitVec 3) (b : BitVec 3)
  /-- R131: Mark complement within LIVE. -/
  | mnot (d : BitVec 3) (a : BitVec 3)
  /-- R131: Mark copy. -/
  | mcopy (d : BitVec 3) (a : BitVec 3)
  /-- R131: Clears a mark. -/
  | mclr (d : BitVec 3)
  /-- R131: Copies ACT into a mark. -/
  | mgetact (d : BitVec 3)
  /-- R131: Counts the slots of a mark into a scalar. -/
  | cnt (a : BitVec 3) (s : BitVec 6)
  /-- R131: Lowest slot of a mark, or -1. -/
  | first (a : BitVec 3) (s : BitVec 6)
  /-- R131: Next member of a mark after s[sd], or -1. -/
  | next (a : BitVec 3) (s : BitVec 6)
  /-- R131: Picks the lowest member of a mark into a mark and a scalar. -/
  | mpick (d : BitVec 3) (a : BitVec 3) (s : BitVec 6)
  /-- R131: Adds one slot to a mark. -/
  | mset1 (d : BitVec 3) (s : BitVec 6)
  /-- R131: Removes one slot from a mark. -/
  | mclr1 (d : BitVec 3) (s : BitVec 6)
  /-- R132: Long-latency load of a 256-byte mark from memory. -/
  | mload (d : BitVec 3) (s : BitVec 6)
  /-- R132: Stores a mark as one 256-byte line. -/
  | mstore (a : BitVec 3) (s : BitVec 6)
  /-- R135: Saves ACT on the responder stack and narrows it by a mark. -/
  | push (a : BitVec 3)
  /-- R135: Sets ACT to the saved top less a mark. -/
  | else_ (a : BitVec 3)
  /-- R135: Adds ACT to a rejoin mark. -/
  | jarv (d : BitVec 3)
  /-- R135: Sets ACT from a rejoin mark and empties the mark. -/
  | join (a : BitVec 3)
  /-- R135: Sets ACT to a mark within LIVE. -/
  | setact (a : BitVec 3)
  /-- R135: Reads RSDEPTH into a scalar. -/
  | rdepth (s : BitVec 6)
  /-- R139: Long-latency read of one thread's register into a scalar. -/
  | get (d : BitVec 6) (n : BitVec 6) (b : BitVec 6) (h : BitVec 1)
  /-- R140: Writes a scalar into one thread's register. -/
  | put (d : BitVec 6) (n : BitVec 6) (b : BitVec 6) (h : BitVec 1)
  /-- R139: Long-latency read of the lowest ACT thread's register. -/
  | getf (d : BitVec 6) (n : BitVec 6) (h : BitVec 1)
  /-- R142: Acquires register blocks, parking on failure. -/
  | blkacqW (a : BitVec 6)
  /-- R142: Tries to acquire register blocks, writing success to sd. -/
  | blkacqP (d : BitVec 6) (a : BitVec 6)
  /-- R143: Releases register blocks after outstanding writes land, granting parked acquires. -/
  | blkrel (a : BitVec 6)
  /-- R143: Reads the owner of every register block. -/
  | blkq (d : BitVec 6)
  /-- R33: Opens a predicate block over the next n lane words. -/
  | pblk (m : BitVec 3) (n : BitVec 3) (p : BitVec 8)
  /-- R12: Clause header: waits on flags, then increments setA and setB counts. -/
  | clause (w : BitVec 12) (a : BitVec 4) (b : BitVec 4) (l : BitVec 5)
  /-- R57: Long-latency scalar load, plain or acquire. -/
  | lds (z : BitVec 2) (o : BitVec 1) (d : BitVec 6) (a : BitVec 6) (i : BitVec 9)
  /-- R57: Scalar store, plain or release. -/
  | sts (z : BitVec 2) (o : BitVec 1) (d : BitVec 6) (a : BitVec 6) (i : BitVec 9)
  /-- R217: Scalar atomic read-modify-write at the home slice. -/
  | atoms (p : BitVec 4) (d : BitVec 6) (a : BitVec 6) (b : BitVec 6) (z : BitVec 1) (o : BitVec 2)
  /-- R228: Checks a word at its home slice and registers a Lamproom wait if false. -/
  | waitu (c : BitVec 3) (d : BitVec 6) (a : BitVec 6) (b : BitVec 6) (w : BitVec 1) (t : BitVec 1)
  /-- R238: Applies an unindexed contribution to a Relay. -/
  | wacc (a : BitVec 6) (b : BitVec 6)
  /-- R242: Sends a sequence-indexed contribution to a Relay. -/
  | waccq (a : BitVec 6) (b : BitVec 6)
  /-- R238: Queries the aggregate of a Relay window. -/
  | wqry (d : BitVec 6) (a : BitVec 6)
  /-- R238: Configures or releases a Relay object. -/
  | wcfg (a : BitVec 6) (b : BitVec 6)
  /-- R238: Empties a Relay window keeping its configuration. -/
  | wclr (a : BitVec 6)
  /-- R238: Reads a Relay's N, FCNT and W. -/
  | wlen (d : BitVec 6) (a : BitVec 6)
  /-- R223: Scalar sequence-indexed FP reduction contribution. -/
  | redqs (f : BitVec 1) (d : BitVec 6) (a : BitVec 6) (b : BitVec 6)
  /-- R278: Parks until some tag of the mask is ready. -/
  | twaitany (a : BitVec 6)
  /-- R278: Parks until every tag of the mask is ready. -/
  | twaitall (a : BitVec 6)
  /-- R278: Returns the lowest ready tag of a mask with its fail bit. -/
  | tfirst (d : BitVec 6) (a : BitVec 6)
  /-- R279: Clears tag fail bits. -/
  | tclr (a : BitVec 6)
  /-- R278: Reads TAGRDY as an acquire. -/
  | trdy (d : BitVec 6)
  /-- R268: Hoist copy command, with optional follow-on. -/
  | hcopy (t : BitVec 6) (g : BitVec 6) (n : BitVec 1) (y : BitVec 1) (x : BitVec 1)
  /-- R268: Hoist gather command by an index list. -/
  | hgath (t : BitVec 6) (g : BitVec 6) (n : BitVec 1) (y : BitVec 1) (x : BitVec 1)
  /-- R268: Hoist scatter command by an index list. -/
  | hscat (t : BitVec 6) (g : BitVec 6) (n : BitVec 1) (y : BitVec 1) (x : BitVec 1)
  /-- R268: Hoist fill command with a 64-bit pattern. -/
  | hfill (t : BitVec 6) (g : BitVec 6) (n : BitVec 1) (x : BitVec 1)
  /-- R269: Hoist transpose into vault plane-sets, with optional follow-on. -/
  | hplane (t : BitVec 6) (g : BitVec 6) (n : BitVec 1) (y : BitVec 1) (r : BitVec 1) (f : BitVec 3)
  /-- R271: Starts a chain of hoist steps read from memory. -/
  | hchain (t : BitVec 6) (g : BitVec 6) (n : BitVec 1)
  /-- R272: Stops the crew's hoist commands on a tag after granted chunks finish. -/
  | hstop (t : BitVec 6) (n : BitVec 1)
  /-- R272: Resumes stopped hoist commands from their progress registers. -/
  | hresume (t : BitVec 6) (n : BitVec 1)
  /-- R272: Reports progress of the oldest hoist command on a tag. -/
  | hprog (t : BitVec 6) (g : BitVec 6)
  /-- R275: Posts a matrix multiply-accumulate command to the crew's ring. -/
  | mma (t : BitVec 6) (g : BitVec 6) (f : BitVec 4) (n : BitVec 1)
  /-- R276: Posts a tile-zeroing command. -/
  | mzero (t : BitVec 6) (g : BitVec 6) (n : BitVec 1)
  /-- R277: Attaches a house ring to the cluster matrix engine. -/
  | mring (g : BitVec 6)
  /-- R276: Posts a command completing after all earlier ring commands. -/
  | mfence (t : BitVec 6) (n : BitVec 1)
  /-- R259: Takes a tile's ownership token, waiting for admitted operations. -/
  | tktake (a : BitVec 6)
  /-- R259: Returns a tile token to a waiter or the engine. -/
  | tkgive (a : BitVec 6)
  /-- R281: Reports a tile token's holder and waiters. -/
  | tkqry (d : BitVec 6) (a : BitVec 6)
  /-- R206: Releases, drains and flips the live side of a publish range. -/
  | publish (a : BitVec 6)
  /-- R283: Reads the publish entry covering an address. -/
  | pubqry (d : BitVec 6) (a : BitVec 6)
  /-- R284: Writes a publish table entry from an image. -/
  | pubset (a : BitVec 6) (b : BitVec 6)
  /-- R163: Enqueues a gallery or lane record, parking on a full region. -/
  | spawn (a : BitVec 6)
  /-- R163: Enqueues a record without waiting, status in sd. -/
  | spawnNb (d : BitVec 6) (a : BitVec 6)
  /-- R163: Enqueues a gallery record in the issuer's region and priority. -/
  | spawng (a : BitVec 6)
  /-- R167: Decrements a join cell at its home slice. -/
  | joindec (a : BitVec 6)
  /-- R167: Decrements a dependency cell, releasing its waiting record at zero. -/
  | depdec (a : BitVec 6)
  /-- R163: Enqueues a seed record opening a new launch. -/
  | launch (d : BitVec 6) (a : BitVec 6)
  /-- R168: Arrives at a barrier cell and waits for its generation to change. -/
  | barc (a : BitVec 6) (b : BitVec 6)
  /-- R340: Collective reduction across group members. -/
  | cred (t : BitVec 6) (g : BitVec 6) (n : BitVec 1) (r : BitVec 1) (p : BitVec 1)
  /-- R341: Collective gather across group members. -/
  | cgath (t : BitVec 6) (g : BitVec 6) (n : BitVec 1) (r : BitVec 1) (p : BitVec 1)
  /-- R341: Collective broadcast from the root. -/
  | cbcast (t : BitVec 6) (g : BitVec 6) (n : BitVec 1) (p : BitVec 1)
  /-- R343: Reports the status of the crew's latest collective on a tag. -/
  | cstat (t : BitVec 6) (g : BitVec 6)
  /-- R310: Reads a system register into a scalar. -/
  | rdsys (d : BitVec 6) (n : BitVec 12)
  /-- R311: Writes a system register from a scalar. -/
  | wrsys (d : BitVec 6) (n : BitVec 12)
  /-- R312: Raises cause TRAP resuming at the next word. -/
  | trap (n : BitVec 12)
  /-- R312: Raises cause BKPT resuming at the breakpoint. -/
  | bkpt (n : BitVec 12)
  /-- R317: Spills the eight oldest responder-stack entries to memory. -/
  | rspill (a : BitVec 6)
  /-- R317: Refills eight responder-stack entries from memory. -/
  | rfill (a : BitVec 6)
  /-- R319: Saves, swaps or migrates a gallery or partition context. -/
  | ctxsave (a : BitVec 6)
  /-- R319: Restores a gallery image or partition context. -/
  | ctxload (a : BitVec 6)
  /-- R100: Lane integer add per sub-element. -/
  | add (w : BitVec 2) (d : BitVec 7) (a : BitVec 7) (b : BitVec 7)
  /-- R100: Lane add of a replicated immediate. -/
  | addi (w : BitVec 2) (d : BitVec 7) (a : BitVec 7) (i : BitVec 9)
  /-- R100: Lane integer subtract. -/
  | sub (w : BitVec 2) (d : BitVec 7) (a : BitVec 7) (b : BitVec 7)
  /-- R100: Lane multiply, low half. -/
  | mul (w : BitVec 2) (d : BitVec 7) (a : BitVec 7) (b : BitVec 7)
  /-- R100: Lane multiply, high half, signed or unsigned. -/
  | mulh (w : BitVec 2) (d : BitVec 7) (a : BitVec 7) (b : BitVec 7) (m : BitVec 1)
  /-- R100: Lane multiply-add into vd. -/
  | mad (w : BitVec 2) (d : BitVec 7) (a : BitVec 7) (b : BitVec 7)
  /-- R100: Lane saturating add. -/
  | addsat (w : BitVec 2) (d : BitVec 7) (a : BitVec 7) (b : BitVec 7) (m : BitVec 1)
  /-- R100: Lane saturating subtract. -/
  | subsat (w : BitVec 2) (d : BitVec 7) (a : BitVec 7) (b : BitVec 7) (m : BitVec 1)
  /-- R100: Lane minimum, signed or unsigned. -/
  | min (w : BitVec 2) (d : BitVec 7) (a : BitVec 7) (b : BitVec 7) (m : BitVec 1)
  /-- R100: Lane maximum, signed or unsigned. -/
  | max (w : BitVec 2) (d : BitVec 7) (a : BitVec 7) (b : BitVec 7) (m : BitVec 1)
  /-- R101: Lane wrapping absolute value. -/
  | abs (w : BitVec 2) (d : BitVec 7) (a : BitVec 7)
  /-- R101: Lane negate. -/
  | neg (w : BitVec 2) (d : BitVec 7) (a : BitVec 7)
  /-- R101: Lane bitwise NOT. -/
  | not (w : BitVec 2) (d : BitVec 7) (a : BitVec 7)
  /-- R101: Lane count of leading zeros. -/
  | clz (w : BitVec 2) (d : BitVec 7) (a : BitVec 7)
  /-- R101: Lane population count. -/
  | popc (w : BitVec 2) (d : BitVec 7) (a : BitVec 7)
  /-- R101: Lane bit reverse. -/
  | brev (w : BitVec 2) (d : BitVec 7) (a : BitVec 7)
  /-- R101: Lane register move. -/
  | mov (w : BitVec 2) (d : BitVec 7) (a : BitVec 7)
  /-- R102: Lane bitwise AND. -/
  | and (w : BitVec 2) (d : BitVec 7) (a : BitVec 7) (b : BitVec 7)
  /-- R102: Lane bitwise OR. -/
  | or (w : BitVec 2) (d : BitVec 7) (a : BitVec 7) (b : BitVec 7)
  /-- R102: Lane bitwise XOR. -/
  | xor (w : BitVec 2) (d : BitVec 7) (a : BitVec 7) (b : BitVec 7)
  /-- R102: Lane AND NOT. -/
  | andn (w : BitVec 2) (d : BitVec 7) (a : BitVec 7) (b : BitVec 7)
  /-- R102: Lane shift left by per-sub-element count. -/
  | shl (w : BitVec 2) (d : BitVec 7) (a : BitVec 7) (b : BitVec 7)
  /-- R102: Lane logical shift right. -/
  | shr (w : BitVec 2) (d : BitVec 7) (a : BitVec 7) (b : BitVec 7)
  /-- R102: Lane arithmetic shift right. -/
  | sar (w : BitVec 2) (d : BitVec 7) (a : BitVec 7) (b : BitVec 7)
  /-- R102: Lane shift left by an immediate. -/
  | shli (w : BitVec 2) (d : BitVec 7) (a : BitVec 7) (i : BitVec 9)
  /-- R102: Lane logical shift right by an immediate. -/
  | shri (w : BitVec 2) (d : BitVec 7) (a : BitVec 7) (i : BitVec 9)
  /-- R102: Lane arithmetic shift right by an immediate. -/
  | sari (w : BitVec 2) (d : BitVec 7) (a : BitVec 7) (i : BitVec 9)
  /-- R103: Lane move of a replicated immediate. -/
  | movi (w : BitVec 2) (d : BitVec 7) (i : BitVec 9)
  /-- R103: Broadcasts a scalar into every sub-element of vd. -/
  | bcast (w : BitVec 2) (d : BitVec 7) (s : BitVec 6)
  /-- R105: Lane signed compare writing a mask. -/
  | cmp (w : BitVec 2) (d : BitVec 7) (a : BitVec 7) (b : BitVec 7) (m : BitVec 2)
  /-- R105: Lane unsigned compare writing a mask. -/
  | cmpz (w : BitVec 2) (d : BitVec 7) (a : BitVec 7) (b : BitVec 7) (m : BitVec 2)
  /-- R118: Lane floating compare writing a mask. -/
  | fcmp (w : BitVec 2) (d : BitVec 7) (a : BitVec 7) (b : BitVec 7) (m : BitVec 2)
  /-- R106: Lane bit-field extract. -/
  | bfx (w : BitVec 2) (d : BitVec 7) (a : BitVec 7) (b : BitVec 7) (m : BitVec 1)
  /-- R106: Lane bit-field insert. -/
  | bfi (w : BitVec 2) (d : BitVec 7) (a : BitVec 7) (b : BitVec 7)
  /-- R107: Lane narrowing pack of two registers. -/
  | pack (w : BitVec 2) (d : BitVec 7) (a : BitVec 7) (b : BitVec 7) (m : BitVec 2)
  /-- R107: Lane widening unpack of one half. -/
  | unpk (w : BitVec 2) (d : BitVec 7) (a : BitVec 7) (m : BitVec 2)
  /-- R102: Lane AND with a replicated immediate. -/
  | andi (w : BitVec 2) (d : BitVec 7) (a : BitVec 7) (i : BitVec 9)
  /-- R102: Lane XOR with a replicated immediate. -/
  | xori (w : BitVec 2) (d : BitVec 7) (a : BitVec 7) (i : BitVec 9)
  /-- R116: Lane floating add, rounded once. -/
  | fadd (w : BitVec 2) (d : BitVec 7) (a : BitVec 7) (b : BitVec 7) (m : BitVec 2)
  /-- R116: Lane floating subtract. -/
  | fsub (w : BitVec 2) (d : BitVec 7) (a : BitVec 7) (b : BitVec 7) (m : BitVec 2)
  /-- R116: Lane floating multiply. -/
  | fmul (w : BitVec 2) (d : BitVec 7) (a : BitVec 7) (b : BitVec 7) (m : BitVec 2)
  /-- R116: Lane fused multiply-add into vd. -/
  | ffma (w : BitVec 2) (d : BitVec 7) (a : BitVec 7) (b : BitVec 7) (m : BitVec 2)
  /-- R117: Lane minimumNumber. -/
  | fmin (w : BitVec 2) (d : BitVec 7) (a : BitVec 7) (b : BitVec 7)
  /-- R117: Lane maximumNumber. -/
  | fmax (w : BitVec 2) (d : BitVec 7) (a : BitVec 7) (b : BitVec 7)
  /-- R119: Lane floating absolute value. -/
  | fabs (w : BitVec 2) (d : BitVec 7) (a : BitVec 7)
  /-- R119: Lane floating negate. -/
  | fneg (w : BitVec 2) (d : BitVec 7) (a : BitVec 7)
  /-- R119: SFU reciprocal, long-latency. -/
  | frcp (w : BitVec 2) (d : BitVec 7) (a : BitVec 7)
  /-- R119: SFU reciprocal square root, long-latency. -/
  | frsq (w : BitVec 2) (d : BitVec 7) (a : BitVec 7)
  /-- R119: SFU square root rounded by md, long-latency. -/
  | fsqrt (w : BitVec 2) (d : BitVec 7) (a : BitVec 7) (m : BitVec 2)
  /-- R119: SFU base-2 exponential. -/
  | fex2 (w : BitVec 2) (d : BitVec 7) (a : BitVec 7)
  /-- R119: SFU base-2 logarithm. -/
  | flg2 (w : BitVec 2) (d : BitVec 7) (a : BitVec 7)
  /-- R119: SFU sine. -/
  | fsin (w : BitVec 2) (d : BitVec 7) (a : BitVec 7)
  /-- R119: SFU cosine. -/
  | fcos (w : BitVec 2) (d : BitVec 7) (a : BitVec 7)
  /-- R119: Lane floor to integral value. -/
  | fflr (w : BitVec 2) (d : BitVec 7) (a : BitVec 7)
  /-- R119: Lane ceiling to integral value. -/
  | fceil (w : BitVec 2) (d : BitVec 7) (a : BitVec 7)
  /-- R119: Lane truncation to integral value. -/
  | ftrunc (w : BitVec 2) (d : BitVec 7) (a : BitVec 7)
  /-- R119: Lane rounding to integral value by md. -/
  | frint (w : BitVec 2) (d : BitVec 7) (a : BitVec 7) (m : BitVec 2)
  /-- R121: Lane format conversion of the low elements. -/
  | cvt (v : BitVec 7) (a : BitVec 7) (s : BitVec 3) (x : BitVec 3) (t : BitVec 1) (m : BitVec 2)
  /-- R123: Expands a quarter of an NB4 block to BF16. -/
  | qscale (b : BitVec 2) (q : BitVec 2) (d : BitVec 7) (a : BitVec 7) (v : BitVec 6)
  /-- R124: Expands two E4M3 bytes to scaled FP32. -/
  | qscale8 (b : BitVec 1) (q : BitVec 2) (d : BitVec 7) (a : BitVec 7) (v : BitVec 6)
  /-- R282: Long-latency read of accumulator tile elements into threads. -/
  | mrd (w : BitVec 1) (d : BitVec 7) (a : BitVec 7) (t : BitVec 6)
  /-- R282: Writes thread values into accumulator tile elements. -/
  | mwr (w : BitVec 1) (d : BitVec 7) (a : BitVec 7) (t : BitVec 6)
  /-- R104: Writes thread index, lane, gang or thread count. -/
  | spec (w : BitVec 2) (d : BitVec 7) (c : BitVec 2)
  /-- R110: Cross-lane shuffle within the subgroup. -/
  | shfl (w : BitVec 2) (d : BitVec 7) (a : BitVec 7) (b : BitVec 7) (m : BitVec 2)
  /-- R111: Cross-lane tree reduction within the subgroup. -/
  | redl (w : BitVec 2) (d : BitVec 7) (a : BitVec 7) (p : BitVec 7) (m : BitVec 2)
  /-- R111: Cross-lane inclusive scan within the subgroup. -/
  | scanl (w : BitVec 2) (d : BitVec 7) (a : BitVec 7) (p : BitVec 7) (m : BitVec 2)
  /-- R210: Lane global load, plain or acquire, long-latency. -/
  | ld (z : BitVec 2) (d : BitVec 7) (a : BitVec 7) (r : BitVec 1) (f : BitVec 6)
  /-- R210: Lane global store, plain or release. -/
  | st (z : BitVec 2) (d : BitVec 7) (a : BitVec 7) (r : BitVec 1) (f : BitVec 6)
  /-- R210: Lane vault load, long-latency. -/
  | ldv (z : BitVec 2) (d : BitVec 7) (a : BitVec 7) (f : BitVec 6)
  /-- R210: Lane vault store. -/
  | stv (z : BitVec 2) (d : BitVec 7) (a : BitVec 7) (f : BitVec 6)
  /-- R216: Lane atomic read-modify-write per thread. -/
  | atom (z : BitVec 1) (d : BitVec 7) (a : BitVec 7) (p : BitVec 4) (r : BitVec 2)
  /-- R222: Lane sequence-indexed FP reduction contributions. -/
  | redq (w : BitVec 1) (d : BitVec 7) (a : BitVec 7) (b : BitVec 7)
  /-- Event, R71: A long-latency result lands in one gang or scalar, merging SFU flags. -/
  | longLatencyLanding (uid : Nat) (pick : Nat)
  /-- Event, R190: A store, atomic or other write is performed at its home slice or vault. -/
  | storePerformed (uid : Nat)
  /-- Event, R388: A home slice's acknowledgement or answer reaches the crew one leg later. -/
  | sliceAnswer (uid : Nat) (pick : Nat)
  /-- Event, R231: A write held for spilled entries is performed and evaluated about 1 µs later. -/
  | filterSlowPathWrite (uid : Nat)
  /-- Event, R232: A woken resident crew becomes runnable about 250 ns after the wake. -/
  | crewWakeResume (uid : Nat)
  /-- Event, R221: A sequence-indexed contribution arrives at its home slice and is held or applied. -/
  | redqContribution (uid : Nat) (pick : Nat)
  /-- Event, R288: After the drain, state is saved and the region handler entered. -/
  | trapEntry (uid : Nat)
  /-- Event, R155: Every 4 slice cycles the distributor places one ready record. -/
  | placementDecision (part : BitVec 2)
  /-- Event, R153: A retired gallery's record completes after its work is performed, decrementing cells. -/
  | recordCompletion (gid : Nat)
  /-- Event, R247: A granted hoist chunk is performed; the next is granted or the command completes. -/
  | hoistChunkDone (core : Nat) (pick : Nat)
  /-- Event, R255: The engine admits a ring-head command whose phase matches and tile is free. -/
  | ringSlotAdmit (cluster : Nat) (entry : Nat)
  /-- Event, R256: A free slice is granted the next eligible strip pass. -/
  | stripPassGrant (cluster : Nat)
  /-- Event, R254: A strip pass's promotion writes the tile; the command may complete. -/
  | promotionEnd (cluster : Nat) (pick : Nat)
  /-- Event, R206: After the drain, the publish entry's live bit flips at the directory. -/
  | publishFlip (pick : Nat)
  /-- Event, R185: A requested ASN shootdown completes and SHOOTDONE reads 1. -/
  | shootdownDone (fn : BitVec 2)
  /-- Event, R306: A region is torn down on TEAR or a FATAL record. -/
  | teardown (part : BitVec 2) (region : BitVec 64) (asn : BitVec 16)
  /-- Event, R306: After 100 µs remaining crews are stopped and galleries retire. -/
  | teardownGraceExpiry (pick : Nat)
  /-- Event, R342: A collective fails when TMO passes without every member's data. -/
  | collTimeout (pick : Nat)
  /-- Event, R353: A peer unheard for 200 µs forces ceiling 40 and WALKHOLD. -/
  | peerSilent (peer : BitVec 8)
  /-- Event, R359: Every 32 cycles the current record advances and may start a cooldown lap. -/
  | intervalEnd (cluster : Nat)
  /-- Event, R359: Every 125 ns a cooldown lap moves to its next ballast target. -/
  | cooldownStep (cluster : Nat)
  /-- Event, R331: Firmware consumes a host queue slot once its phase matches and enqueues it. -/
  | hostQueueConsume (fn : BitVec 2) (q : BitVec 6)
  /-- Event, R383: Mailbox LOAD request loads a code object for a region. -/
  | mailboxLoad (fn : BitVec 2)
  /-- Event, R366: Mailbox TEAR request writes a region's TEAR bit. -/
  | mailboxTear (fn : BitVec 2)
  /-- Event, R366: Mailbox LIMIT request writes FWLIMIT. -/
  | mailboxLimit (fn : BitVec 2)
  /-- Event, R355: Mailbox POOL request stops placement and moves a drained cluster. -/
  | mailboxPool (fn : BitVec 2)
  /-- Event, R366: Mailbox STRICT request writes DEVMODE.STRICT. -/
  | mailboxStrict (fn : BitVec 2)
  /-- Event, R368: Mailbox ENROL request checks an owner key record and blows fuses. -/
  | mailboxEnrol (fn : BitVec 2)
  /-- Event, R370: Mailbox FUSE request writes FUSEREQ and replies at the target count. -/
  | mailboxFuse (fn : BitVec 2)
  /-- Event, R335: Mailbox ROUTE request writes a route table entry. -/
  | mailboxRoute (fn : BitVec 2)
  /-- Event, R366: An unknown mailbox OP is answered STATUS 2 with no effect. -/
  | mailboxUnknownOp (fn : BitVec 2)
  /-- Event, R372: Writing PCTL.EN moves a DOWN Drift port to DETECT. -/
  | portEn (port : BitVec 5) (on : BitVec 1)
  /-- Event, R372: No signal within 10 ms returns the port to DOWN. -/
  | detectTimeout (port : BitVec 5)
  /-- Event, R372: A retraining not UP within 10 ms leaves the port DOWN. -/
  | retrainTimeout (port : BitVec 5)
  /-- Event, R371: An HBM training run ends with DONE or FAIL, at most 50 ms. -/
  | hbmTrainingDone (k : BitVec 3) (fail : BitVec 1) (phase : BitVec 2) (spares : BitVec 4) (eyes : BitVec 16) (lanemap : BitVec 64)
  /-- Event, R21: A run-ahead BRC condition resolves; wrong-path work is undone. -/
  | branchResolution (uid : Nat)
  /-- Event, R342: A member's collective data arrives; the command may complete. -/
  | collectiveDataArrival (member : BitVec 8) (gid : BitVec 16) (seq : BitVec 64) (head : BitVec 64) (data : List (BitVec 8))
  /-- Event, R334: A Drift flit is received, FEC-corrected and CRC-checked. -/
  | flitReceive (port : BitVec 5) (flit : List (BitVec 8))
  /-- Event, R334: A negative acknowledgement makes the sender replay from the named flit. -/
  | flitNak (port : BitVec 5) (seq : BitVec 12)
  /-- Event, R345: A heartbeat with a member's lap and own limit is received. -/
  | heart (src : BitVec 8) (lap : BitVec 64) (c : BitVec 8)
  /-- Event, R347: The coordinator receives LOWER and stamps a CEIL lap. -/
  | lower (src : BitVec 8) (c : BitVec 8) (t : BitVec 64)
  /-- Event, R346: A CEIL message schedules a ceiling at lap and time T. -/
  | ceil (lap : BitVec 64) (c : BitVec 8) (t : BitVec 64) (mask : BitVec 256)
  /-- Event, R348: A received BREACH applies Min(ceiling, c) at once. -/
  | breach (src : BitVec 8) (c : BitVec 8)
  /-- Event, R349: A member answers a raise proposal with GRANT or DENY. -/
  | propose (src : BitVec 8) (lap : BitVec 64) (c : BitVec 8)
  /-- Event, R349: The coordinator records a grant; all granted sends CEIL. -/
  | grant (src : BitVec 8) (lap : BitVec 64)
  /-- Event, R349: A deny ends the proposal; the coordinator proposes again. -/
  | deny (src : BitVec 8) (lap : BitVec 64) (c : BitVec 8)
  /-- Event, R350: A JOIN reaches the coordinator, which sends VIEW including the new member. -/
  | joinMsg (src : BitVec 8) (c : BitVec 8)
  /-- Event, R350: A member announces the lap at which it leaves the group. -/
  | leave (src : BitVec 8) (lap : BitVec 64)
  /-- Event, R346: A VIEW message schedules a new membership and ceiling. -/
  | view (src : BitVec 8) (lap : BitVec 64) (c : BitVec 8) (t : BitVec 64) (mask : BitVec 256)
  /-- Event, R345: A Pacer message of type 10-255 or another GID is dropped. -/
  | unknownPacerType (src : BitVec 8) (type : BitVec 8)
  /-- Event, R359: 1 ms after a trip the sensor is rechecked and may trip again. -/
  | tripRecheck (degrees : Nat)
  /-- Event, R359: Every 10 µs the predictor samples package power and adjusts the own limit. -/
  | powerSample (watts : Nat) (degrees : Nat)
  /-- Event, R360: At boot and every 24 h firmware measures ageing and sets limits. -/
  | ageingMeasure (limit : BitVec 8) (days : BitVec 32) (slower : List (Nat × BitVec 2))
  /-- Event, R304: HBM is scrubbed every 24 h. -/
  | hbmScrub (corrected : Nat) (poisoned : List Nat)
  /-- Event, R331: A host write to a queue's KICK advances it by wrap-aware maximum. -/
  | kick (fn : BitVec 2) (q : BitVec 6) (v : BitVec 32)
  /-- Event, R332: A host write through window B, translated as a crew access. -/
  | windowBWrite (fn : BitVec 2) (off : BitVec 64) (data : List (BitVec 8))
  /-- Event, R332: A host read through window B, performed at the home slice. -/
  | windowBRead (fn : BitVec 2) (off : BitVec 64) (len : Nat)
  /-- Event, R332: PCI Express FetchAdd performed as ATOM ADD. -/
  | fetchadd (fn : BitVec 2) (off : BitVec 64) (wide : BitVec 1) (x : BitVec 64)
  /-- Event, R332: PCI Express Swap performed as ATOM XCHG. -/
  | swap (fn : BitVec 2) (off : BitVec 64) (wide : BitVec 1) (x : BitVec 64)
  /-- Event, R332: PCI Express CAS performed as ATOM CAS. -/
  | cas (fn : BitVec 2) (off : BitVec 64) (wide : BitVec 1) (cmp : BitVec 64) (x : BitVec 64)
  /-- Event, R329: Writing an ASN to SHOOT starts a shootdown. -/
  | shoot (fn : BitVec 2) (asn : BitVec 16)
  /-- Event, R366: A host write advancing a mailbox request ring's producer index. -/
  | reqkick (fn : BitVec 2) (v : BitVec 32)
  /-- Event, R370: A write above FUSECNT starts blowing counter fuses. -/
  | fusereq (v : BitVec 9)
  /-- Event, R364: Extends a measurement register with MEASIN. -/
  | measgo (die : BitVec 2) (i : BitVec 3)
  /-- Event, R364: Clearing ROMOVL removes the mask ROM overlay. -/
  | romovlClear (die : BitVec 2)
  /-- Event, R371: A TRNCTL GO write runs the selected HBM training phases. -/
  | trnctl (k : BitVec 3) (v : BitVec 64)
  /-- Event, R361: A write of the firmware limit lowers or raises the own limit. -/
  | fwlimit (die : BitVec 2) (v : BitVec 8)
  /-- Event, R361: Writing PACEEN joins the group or sends LEAVE. -/
  | paceen (die : BitVec 2) (on : BitVec 1)
  /-- Event, R372: Writing PCTL.RETRAIN sends an UP port to EQUALISE. -/
  | portRetrain (port : BitVec 5)
  /-- Event, R372: Signal on all 8 lanes moves a port to EQUALISE. -/
  | signalDetect (port : BitVec 5)
  /-- Event, R372: Transmitter settings agreed; the port moves to ALIGN. -/
  | equaliseDone (port : BitVec 5)
  /-- Event, R372: Lock held for 1,024 flits moves the port to IDENT. -/
  | alignLock (port : BitVec 5)
  /-- Event, R372: Peer id and GID exchanged; the port goes UP or DOWN. -/
  | identExchange (port : BitVec 5) (peer : BitVec 8) (gid : BitVec 16)
  /-- Event, R329: A write to a control register without behaviour of its own. -/
  | registerWrite (fn : BitVec 2) (off : BitVec 22) (v : BitVec 64)
  /-- Event, R330: A write of a host queue's ENABLE bit starts serving the queue and restarts a queue marked STOPPED. -/
  | enable (fn : BitVec 2) (q : BitVec 6) (on : BitVec 1)
  /-- Event, R366: A write of MBEN starts serving a function's mailbox and restarts one marked MBSTOP. -/
  | mben (fn : BitVec 2) (on : BitVec 1)
  /-- R54: Return to the address in s63. -/
  | ret
  /-- R135: Restores ACT from the stack top. -/
  | pop
  /-- R135: Saves ACT and sets ACT to LIVE. -/
  | pushall
  /-- R219: Full fence: waits for earlier accesses and self-invalidates. -/
  | fence
  /-- R219: Acquire fence over earlier reads. -/
  | fenceA
  /-- R219: Release fence for later writes. -/
  | fenceR
  /-- R18: Makes instruction fetch observe earlier ordered stores. -/
  | ifence
  /-- R277: Detaches the crew's ring once its commands complete. -/
  | mdetach
  /-- R169: Ends the crew, freeing blocks and tokens; the last crew retires the gallery. -/
  | exit
  /-- R313: Returns from a trap handler, restoring saved state. -/
  | rte
  /-- R315: Resets issue age and holds back the crew's next uniform grant. -/
  | yield
  /-- R315: No effect. -/
  | nop
  /-- R316: Halts the crew, or the foreman core at PRIVL 2. -/
  | halt
  /-- R108: Removes the active threads from LIVE, ACT and every saved entry. -/
  | lexit
  /-- Event, R233: Each microsecond a slice wakes expired Lamproom entries with status 1. -/
  | deadlineSweep
  /-- Event, R151: A forming lane gang launches 1 µs after its first record joined. -/
  | laneGangTimeout
  /-- Event, R299: A context save or restore completes and writes STATUS and NS. -/
  | contextSaveDone
  /-- Event, R345: Every 25 µs a member sends HEART to every member. -/
  | heartTimer
  /-- Event, R346: At time T a lap's ceiling is applied and the pace word rewritten. -/
  | lapApply
  /-- Event, R348: A sensor at 105 °C lowers the own limit at once and sends BREACH. -/
  | emergencyTrip
  /-- Event, R370: About 10 µs later one fuse blows; the last sets the counter in force. -/
  | fuseBlown
  /-- Event, R362: Release of reset starts the foreman crews from the mask ROM. -/
  | resetRelease
  /-- Event, R370: A loss of power during a fuse raise stops the blowing, so the counter in force at the next reset is FUSECNT. -/
  | lossOfPower
deriving DecidableEq, Repr

end Sys2Proof
end

