-- ==== Sys2Proof/WellFormed.lean ====
section
/-!
DEFINITION. Which instruction terms are words of AGQ 1.0: the conditions of R41 (spec/03_encoding.md) on the fields
of a word, beyond the widths the constructors carry. A word that breaks one raises ILLEGAL; a term that breaks one
does the same when it is executed.
-/

namespace Sys2Proof

/-- Why a word, or a term, is not an instruction (R41). -/
inductive Reject where
  /-- Fewer than four bytes were given. -/
  | truncated
  /-- The major cell is reserved (R36, R38). -/
  | reservedCell
  /-- A function, width, order or selector value that the maps do not assign. -/
  | selector
  /-- A field marked zero, or unused by the function, is not zero. -/
  | fieldNotZero
  /-- A mark destination of `m0`. -/
  | markZero
  /-- A register group that would pass `s63`. -/
  | groupPast63
  /-- A shift immediate outside the width (R38, R45). -/
  | shiftRange
  /-- A predicate-block pattern bit at or above the block's length (R32). -/
  | patternRange
  /-- An odd `vd` of a lane CAS (R39). -/
  | oddPair
deriving DecidableEq, Repr

/-- The numbers of the system register map (R308, spec/23_system_instructions.md). -/
def sysNumbers : List Nat :=
  [0x000, 0x001, 0x002, 0x003, 0x004, 0x005, 0x006, 0x007, 0x008,
   0x010, 0x011, 0x012, 0x013, 0x014, 0x015, 0x016,
   0x020, 0x021, 0x022, 0x023, 0x024, 0x025, 0x030, 0x031, 0x032, 0x033,
   0x040, 0x041, 0x050, 0x051, 0x052, 0x053, 0x054, 0x060, 0x061, 0x062, 0x063]

/-- Whether the term is one of the 224 words; the other terms are events, which no word encodes. -/
def Instr.isWord : Instr → Bool
  | .aluAdd _ _ _ => true
  | .aluSub _ _ _ => true
  | .aluAnd _ _ _ => true
  | .aluOr _ _ _ => true
  | .aluXor _ _ _ => true
  | .aluAndn _ _ _ => true
  | .aluShl _ _ _ => true
  | .aluShr _ _ _ => true
  | .aluSar _ _ _ => true
  | .aluMul _ _ _ => true
  | .aluMulhs _ _ _ => true
  | .aluMulhz _ _ _ => true
  | .aluMins _ _ _ => true
  | .aluMaxs _ _ _ => true
  | .aluMinz _ _ _ => true
  | .aluMaxz _ _ _ => true
  | .aluiAddi _ _ _ => true
  | .aluiSubi _ _ _ => true
  | .aluiAndi _ _ _ => true
  | .aluiOri _ _ _ => true
  | .aluiXori _ _ _ => true
  | .aluiAndni _ _ _ => true
  | .aluiShli _ _ _ => true
  | .aluiShri _ _ _ => true
  | .aluiSari _ _ _ => true
  | .aluiMuli _ _ _ => true
  | .aluiMulhsi _ _ _ => true
  | .aluiMulhzi _ _ _ => true
  | .aluiMinsi _ _ _ => true
  | .aluiMaxsi _ _ _ => true
  | .aluiMinzi _ _ _ => true
  | .aluiMaxzi _ _ _ => true
  | .divs _ _ _ => true
  | .divz _ _ _ => true
  | .rems _ _ _ => true
  | .remz _ _ _ => true
  | .alxClz _ _ => true
  | .alxPopc _ _ => true
  | .alxBfx _ _ _ => true
  | .alxBfi _ _ _ => true
  | .cmps _ _ _ _ => true
  | .alxMov _ _ => true
  | .selnz _ _ _ => true
  | .movw _ _ _ => true
  | .movwk _ _ _ => true
  | .brc _ _ _ _ => true
  | .br _ => true
  | .call _ => true
  | .jr _ => true
  | .callr _ => true
  | .ret => true
  | .srch _ _ _ _ _ => true
  | .srcha _ _ _ _ _ => true
  | .srchr _ _ _ _ _ => true
  | .mand _ _ _ => true
  | .mor _ _ _ => true
  | .mxor _ _ _ => true
  | .mandn _ _ _ => true
  | .mnot _ _ => true
  | .mcopy _ _ => true
  | .mclr _ => true
  | .mgetact _ => true
  | .cnt _ _ => true
  | .first _ _ => true
  | .next _ _ => true
  | .mpick _ _ _ => true
  | .mset1 _ _ => true
  | .mclr1 _ _ => true
  | .mload _ _ => true
  | .mstore _ _ => true
  | .push _ => true
  | .pop => true
  | .else_ _ => true
  | .jarv _ => true
  | .join _ => true
  | .setact _ => true
  | .pushall => true
  | .rdepth _ => true
  | .get _ _ _ _ => true
  | .put _ _ _ _ => true
  | .getf _ _ _ => true
  | .blkacqW _ => true
  | .blkacqP _ _ => true
  | .blkrel _ => true
  | .blkq _ => true
  | .pblk _ _ _ => true
  | .clause _ _ _ _ => true
  | .lds _ _ _ _ _ => true
  | .sts _ _ _ _ _ => true
  | .atoms _ _ _ _ _ _ => true
  | .fence => true
  | .fenceA => true
  | .fenceR => true
  | .ifence => true
  | .waitu _ _ _ _ _ _ => true
  | .wacc _ _ => true
  | .waccq _ _ => true
  | .wqry _ _ => true
  | .wcfg _ _ => true
  | .wclr _ => true
  | .wlen _ _ => true
  | .redqs _ _ _ _ => true
  | .twaitany _ => true
  | .twaitall _ => true
  | .tfirst _ _ => true
  | .tclr _ => true
  | .trdy _ => true
  | .hcopy _ _ _ _ _ => true
  | .hgath _ _ _ _ _ => true
  | .hscat _ _ _ _ _ => true
  | .hfill _ _ _ _ => true
  | .hplane _ _ _ _ _ _ => true
  | .hchain _ _ _ => true
  | .hstop _ _ => true
  | .hresume _ _ => true
  | .hprog _ _ => true
  | .mma _ _ _ _ => true
  | .mzero _ _ _ => true
  | .mring _ => true
  | .mfence _ _ => true
  | .mdetach => true
  | .tktake _ => true
  | .tkgive _ => true
  | .tkqry _ _ => true
  | .publish _ => true
  | .pubqry _ _ => true
  | .pubset _ _ => true
  | .spawn _ => true
  | .spawnNb _ _ => true
  | .spawng _ => true
  | .joindec _ => true
  | .depdec _ => true
  | .launch _ _ => true
  | .barc _ _ => true
  | .exit => true
  | .cred _ _ _ _ _ => true
  | .cgath _ _ _ _ _ => true
  | .cbcast _ _ _ _ => true
  | .cstat _ _ => true
  | .rdsys _ _ => true
  | .wrsys _ _ => true
  | .trap _ => true
  | .rte => true
  | .bkpt _ => true
  | .yield => true
  | .nop => true
  | .halt => true
  | .rspill _ => true
  | .rfill _ => true
  | .ctxsave _ => true
  | .ctxload _ => true
  | .add _ _ _ _ => true
  | .addi _ _ _ _ => true
  | .sub _ _ _ _ => true
  | .mul _ _ _ _ => true
  | .mulh _ _ _ _ _ => true
  | .mad _ _ _ _ => true
  | .addsat _ _ _ _ _ => true
  | .subsat _ _ _ _ _ => true
  | .min _ _ _ _ _ => true
  | .max _ _ _ _ _ => true
  | .abs _ _ _ => true
  | .neg _ _ _ => true
  | .not _ _ _ => true
  | .clz _ _ _ => true
  | .popc _ _ _ => true
  | .brev _ _ _ => true
  | .mov _ _ _ => true
  | .and _ _ _ _ => true
  | .or _ _ _ _ => true
  | .xor _ _ _ _ => true
  | .andn _ _ _ _ => true
  | .shl _ _ _ _ => true
  | .shr _ _ _ _ => true
  | .sar _ _ _ _ => true
  | .shli _ _ _ _ => true
  | .shri _ _ _ _ => true
  | .sari _ _ _ _ => true
  | .movi _ _ _ => true
  | .bcast _ _ _ => true
  | .cmp _ _ _ _ _ => true
  | .cmpz _ _ _ _ _ => true
  | .fcmp _ _ _ _ _ => true
  | .bfx _ _ _ _ _ => true
  | .bfi _ _ _ _ => true
  | .pack _ _ _ _ _ => true
  | .unpk _ _ _ _ => true
  | .andi _ _ _ _ => true
  | .xori _ _ _ _ => true
  | .fadd _ _ _ _ _ => true
  | .fsub _ _ _ _ _ => true
  | .fmul _ _ _ _ _ => true
  | .ffma _ _ _ _ _ => true
  | .fmin _ _ _ _ => true
  | .fmax _ _ _ _ => true
  | .fabs _ _ _ => true
  | .fneg _ _ _ => true
  | .frcp _ _ _ => true
  | .frsq _ _ _ => true
  | .fsqrt _ _ _ _ => true
  | .fex2 _ _ _ => true
  | .flg2 _ _ _ => true
  | .fsin _ _ _ => true
  | .fcos _ _ _ => true
  | .fflr _ _ _ => true
  | .fceil _ _ _ => true
  | .ftrunc _ _ _ => true
  | .frint _ _ _ _ => true
  | .cvt _ _ _ _ _ _ => true
  | .qscale _ _ _ _ _ => true
  | .qscale8 _ _ _ _ _ => true
  | .mrd _ _ _ _ => true
  | .mwr _ _ _ _ => true
  | .spec _ _ _ => true
  | .shfl _ _ _ _ _ => true
  | .redl _ _ _ _ _ => true
  | .scanl _ _ _ _ _ => true
  | .ld _ _ _ _ _ => true
  | .st _ _ _ _ _ => true
  | .ldv _ _ _ _ => true
  | .stv _ _ _ _ => true
  | .atom _ _ _ _ _ => true
  | .redq _ _ _ _ => true
  | .lexit => true
  | .branchResolution _ => false
  | .longLatencyLanding _ _ => false
  | .storePerformed _ => false
  | .sliceAnswer _ _ => false
  | .filterSlowPathWrite _ => false
  | .crewWakeResume _ => false
  | .deadlineSweep => false
  | .redqContribution _ _ => false
  | .trapEntry _ => false
  | .placementDecision _ => false
  | .recordCompletion _ => false
  | .laneGangTimeout => false
  | .hoistChunkDone _ _ => false
  | .ringSlotAdmit _ _ => false
  | .stripPassGrant _ => false
  | .promotionEnd _ _ => false
  | .publishFlip _ => false
  | .shootdownDone _ => false
  | .contextSaveDone => false
  | .teardown _ _ _ => false
  | .teardownGraceExpiry _ => false
  | .collectiveDataArrival _ _ _ _ _ => false
  | .collTimeout _ => false
  | .flitReceive _ _ => false
  | .flitNak _ _ => false
  | .heartTimer => false
  | .heart _ _ _ => false
  | .lower _ _ _ => false
  | .ceil _ _ _ _ => false
  | .breach _ _ => false
  | .propose _ _ _ => false
  | .grant _ _ => false
  | .deny _ _ _ => false
  | .joinMsg _ _ => false
  | .leave _ _ => false
  | .view _ _ _ _ _ => false
  | .unknownPacerType _ _ => false
  | .lapApply => false
  | .peerSilent _ => false
  | .emergencyTrip => false
  | .tripRecheck _ => false
  | .powerSample _ _ => false
  | .intervalEnd _ => false
  | .cooldownStep _ => false
  | .ageingMeasure _ _ _ => false
  | .hbmScrub _ _ => false
  | .kick _ _ _ => false
  | .hostQueueConsume _ _ => false
  | .windowBWrite _ _ _ => false
  | .windowBRead _ _ _ => false
  | .fetchadd _ _ _ _ => false
  | .swap _ _ _ _ => false
  | .cas _ _ _ _ _ => false
  | .shoot _ _ => false
  | .reqkick _ _ => false
  | .mailboxLoad _ => false
  | .mailboxTear _ => false
  | .mailboxLimit _ => false
  | .mailboxPool _ => false
  | .mailboxStrict _ => false
  | .mailboxEnrol _ => false
  | .mailboxFuse _ => false
  | .mailboxRoute _ => false
  | .mailboxUnknownOp _ => false
  | .fusereq _ => false
  | .fuseBlown => false
  | .measgo _ _ => false
  | .romovlClear _ => false
  | .resetRelease => false
  | .trnctl _ _ => false
  | .hbmTrainingDone _ _ _ _ _ _ => false
  | .fwlimit _ _ => false
  | .paceen _ _ => false
  | .portEn _ _ => false
  | .portRetrain _ => false
  | .signalDetect _ => false
  | .detectTimeout _ => false
  | .equaliseDone _ => false
  | .alignLock _ => false
  | .identExchange _ _ _ => false
  | .retrainTimeout _ => false
  | .registerWrite _ _ _ => false
  | .lossOfPower => false
  | .enable _ _ _ => false
  | .mben _ _ => false

/-- The first condition of R41 the term breaks, or none. -/
def Instr.defect : Instr → Option Reject
  | .aluAdd _ _ _ => none
  | .aluSub _ _ _ => none
  | .aluAnd _ _ _ => none
  | .aluOr _ _ _ => none
  | .aluXor _ _ _ => none
  | .aluAndn _ _ _ => none
  | .aluShl _ _ _ => none
  | .aluShr _ _ _ => none
  | .aluSar _ _ _ => none
  | .aluMul _ _ _ => none
  | .aluMulhs _ _ _ => none
  | .aluMulhz _ _ _ => none
  | .aluMins _ _ _ => none
  | .aluMaxs _ _ _ => none
  | .aluMinz _ _ _ => none
  | .aluMaxz _ _ _ => none
  | .aluiAddi _ _ _ => none
  | .aluiSubi _ _ _ => none
  | .aluiAndi _ _ _ => none
  | .aluiOri _ _ _ => none
  | .aluiXori _ _ _ => none
  | .aluiAndni _ _ _ => none
  | .aluiShli _ _ i => if !(i.toNat < 64) then some .shiftRange else none
  | .aluiShri _ _ i => if !(i.toNat < 64) then some .shiftRange else none
  | .aluiSari _ _ i => if !(i.toNat < 64) then some .shiftRange else none
  | .aluiMuli _ _ _ => none
  | .aluiMulhsi _ _ _ => none
  | .aluiMulhzi _ _ _ => none
  | .aluiMinsi _ _ _ => none
  | .aluiMaxsi _ _ _ => none
  | .aluiMinzi _ _ _ => none
  | .aluiMaxzi _ _ _ => none
  | .divs _ _ _ => none
  | .divz _ _ _ => none
  | .rems _ _ _ => none
  | .remz _ _ _ => none
  | .alxClz _ _ => none
  | .alxPopc _ _ => none
  | .alxBfx _ _ _ => none
  | .alxBfi _ _ _ => none
  | .cmps _ _ _ c => if !(c.toNat ≤ 5) then some .selector else none
  | .alxMov _ _ => none
  | .selnz _ _ _ => none
  | .movw _ _ _ => none
  | .movwk _ _ _ => none
  | .brc c _ b _ =>
    if 8 ≤ c.toNat then some .selector else if !((c.toNat < 6 || b.toNat == 0)) then some .fieldNotZero else none
  | .br _ => none
  | .call _ => none
  | .jr _ => none
  | .callr _ => none
  | .ret => none
  | .srch m c _ _ _ => if !(m.toNat ≠ 0) then some .markZero else if !(c.toNat ≤ 5) then some .selector else none
  | .srcha m c _ _ _ => if !(m.toNat ≠ 0) then some .markZero else if !(c.toNat ≤ 5) then some .selector else none
  | .srchr m c _ _ _ => if !(m.toNat ≠ 0) then some .markZero else if !(c.toNat ≤ 5) then some .selector else none
  | .mand d _ _ => if !(d.toNat ≠ 0) then some .markZero else none
  | .mor d _ _ => if !(d.toNat ≠ 0) then some .markZero else none
  | .mxor d _ _ => if !(d.toNat ≠ 0) then some .markZero else none
  | .mandn d _ _ => if !(d.toNat ≠ 0) then some .markZero else none
  | .mnot d _ => if !(d.toNat ≠ 0) then some .markZero else none
  | .mcopy d _ => if !(d.toNat ≠ 0) then some .markZero else none
  | .mclr d => if !(d.toNat ≠ 0) then some .markZero else none
  | .mgetact d => if !(d.toNat ≠ 0) then some .markZero else none
  | .cnt _ _ => none
  | .first _ _ => none
  | .next _ _ => none
  | .mpick d _ _ => if !(d.toNat ≠ 0) then some .markZero else none
  | .mset1 d _ => if !(d.toNat ≠ 0) then some .markZero else none
  | .mclr1 d _ => if !(d.toNat ≠ 0) then some .markZero else none
  | .mload d _ => if !(d.toNat ≠ 0) then some .markZero else none
  | .mstore _ _ => none
  | .push _ => none
  | .pop => none
  | .else_ _ => none
  | .jarv d => if !(d.toNat ≠ 0) then some .markZero else none
  | .join a => if a.toNat = 0 then some .markZero else none
  | .setact _ => none
  | .pushall => none
  | .rdepth _ => none
  | .get _ _ _ _ => none
  | .put _ _ _ _ => none
  | .getf _ _ _ => none
  | .blkacqW _ => none
  | .blkacqP _ _ => none
  | .blkrel _ => none
  | .blkq _ => none
  | .pblk _ n p => if !(p.toNat < 2 ^ (n.toNat + 1)) then some .patternRange else none
  | .clause _ a b _ => if !((a.toNat < 12 || a.toNat == 15)) then some .selector else if !((b.toNat < 12 || b.toNat == 15)) then some .selector else none
  | .lds _ _ _ _ _ => none
  | .sts _ _ _ _ _ => none
  | .atoms p _ _ b _ _ => if !(p.toNat ≤ 13) then some .selector else if !((p.toNat == 10 || b.toNat == 0)) then some .fieldNotZero else none
  | .fence => none
  | .fenceA => none
  | .fenceR => none
  | .ifence => none
  | .waitu _ _ _ b _ t => if !((t.toNat == 0 || b.toNat ≠ 63)) then some .groupPast63 else none
  | .wacc _ _ => none
  | .waccq _ b => if !(b.toNat ≤ 62) then some .groupPast63 else none
  | .wqry _ _ => none
  | .wcfg _ _ => none
  | .wclr _ => none
  | .wlen _ _ => none
  | .redqs _ _ _ _ => none
  | .twaitany _ => none
  | .twaitall _ => none
  | .tfirst _ _ => none
  | .tclr _ => none
  | .trdy _ => none
  | .hcopy t g n _ _ => if !(g.toNat ≤ 60) then some .groupPast63 else if !((n.toNat == 0 || t.toNat == 0)) then some .fieldNotZero else none
  | .hgath t g n _ _ => if !(g.toNat ≤ 60) then some .groupPast63 else if !((n.toNat == 0 || t.toNat == 0)) then some .fieldNotZero else none
  | .hscat t g n _ _ => if !(g.toNat ≤ 60) then some .groupPast63 else if !((n.toNat == 0 || t.toNat == 0)) then some .fieldNotZero else none
  | .hfill t g n _ => if !(g.toNat ≤ 60) then some .groupPast63 else if !((n.toNat == 0 || t.toNat == 0)) then some .fieldNotZero else none
  | .hplane t g n _ _ f => if !(g.toNat ≤ 60) then some .groupPast63 else if !((n.toNat == 0 || t.toNat == 0)) then some .fieldNotZero else if !(f.toNat ≤ 5) then some .selector else none
  | .hchain t g n => if !(g.toNat ≤ 60) then some .groupPast63 else if !((n.toNat == 0 || t.toNat == 0)) then some .fieldNotZero else none
  | .hstop t n => if !((n.toNat == 0 || t.toNat == 0)) then some .fieldNotZero else none
  | .hresume t n => if !((n.toNat == 0 || t.toNat == 0)) then some .fieldNotZero else none
  | .hprog _ g => if !(g.toNat ≤ 60) then some .groupPast63 else none
  | .mma t g f n => if !(g.toNat ≤ 60) then some .groupPast63 else if !((n.toNat == 0 || t.toNat == 0)) then some .fieldNotZero else if !(f.toNat ≤ 5) then some .selector else none
  | .mzero t g n => if !(g.toNat ≤ 60) then some .groupPast63 else if !((n.toNat == 0 || t.toNat == 0)) then some .fieldNotZero else none
  | .mring g => if !(g.toNat ≤ 60) then some .groupPast63 else none
  | .mfence t n => if !((n.toNat == 0 || t.toNat == 0)) then some .fieldNotZero else none
  | .mdetach => none
  | .tktake _ => none
  | .tkgive _ => none
  | .tkqry _ _ => none
  | .publish _ => none
  | .pubqry _ _ => none
  | .pubset _ _ => none
  | .spawn _ => none
  | .spawnNb _ _ => none
  | .spawng _ => none
  | .joindec _ => none
  | .depdec _ => none
  | .launch _ _ => none
  | .barc _ _ => none
  | .exit => none
  | .cred t g n _ _ => if !(g.toNat ≤ 60) then some .groupPast63 else if !((n.toNat == 0 || t.toNat == 0)) then some .fieldNotZero else none
  | .cgath t g n _ _ => if !(g.toNat ≤ 60) then some .groupPast63 else if !((n.toNat == 0 || t.toNat == 0)) then some .fieldNotZero else none
  | .cbcast t g n _ => if !(g.toNat ≤ 60) then some .groupPast63 else if !((n.toNat == 0 || t.toNat == 0)) then some .fieldNotZero else none
  | .cstat _ g => if !(g.toNat ≤ 60) then some .groupPast63 else none
  | .rdsys _ n => if !(sysNumbers.contains n.toNat) then some .selector else none
  | .wrsys _ n => if !(sysNumbers.contains n.toNat) then some .selector else none
  | .trap _ => none
  | .rte => none
  | .bkpt _ => none
  | .yield => none
  | .nop => none
  | .halt => none
  | .rspill _ => none
  | .rfill _ => none
  | .ctxsave _ => none
  | .ctxload _ => none
  | .add _ _ _ _ => none
  | .addi _ _ _ _ => none
  | .sub _ _ _ _ => none
  | .mul _ _ _ _ => none
  | .mulh _ _ _ _ _ => none
  | .mad _ _ _ _ => none
  | .addsat _ _ _ _ _ => none
  | .subsat _ _ _ _ _ => none
  | .min _ _ _ _ _ => none
  | .max _ _ _ _ _ => none
  | .abs _ _ _ => none
  | .neg _ _ _ => none
  | .not _ _ _ => none
  | .clz _ _ _ => none
  | .popc _ _ _ => none
  | .brev _ _ _ => none
  | .mov _ _ _ => none
  | .and _ _ _ _ => none
  | .or _ _ _ _ => none
  | .xor _ _ _ _ => none
  | .andn _ _ _ _ => none
  | .shl _ _ _ _ => none
  | .shr _ _ _ _ => none
  | .sar _ _ _ _ => none
  | .shli w _ _ i => if !(i.toNat < 8 * 2 ^ w.toNat) then some .shiftRange else none
  | .shri w _ _ i => if !(i.toNat < 8 * 2 ^ w.toNat) then some .shiftRange else none
  | .sari w _ _ i => if !(i.toNat < 8 * 2 ^ w.toNat) then some .shiftRange else none
  | .movi _ _ _ => none
  | .bcast _ _ _ => none
  | .cmp _ _ _ _ _ => none
  | .cmpz _ _ _ _ _ => none
  | .fcmp _ _ _ _ _ => none
  | .bfx _ _ _ _ _ => none
  | .bfi _ _ _ _ => none
  | .pack w _ _ _ m => if !(w.toNat ≠ 0) then some .selector else if !(m.toNat ≤ 2) then some .selector else none
  | .unpk w _ _ _ => if !(w.toNat ≠ 0) then some .selector else none
  | .andi _ _ _ _ => none
  | .xori _ _ _ _ => none
  | .fadd _ _ _ _ _ => none
  | .fsub _ _ _ _ _ => none
  | .fmul _ _ _ _ _ => none
  | .ffma _ _ _ _ _ => none
  | .fmin _ _ _ _ => none
  | .fmax _ _ _ _ => none
  | .fabs _ _ _ => none
  | .fneg _ _ _ => none
  | .frcp _ _ _ => none
  | .frsq _ _ _ => none
  | .fsqrt _ _ _ _ => none
  | .fex2 _ _ _ => none
  | .flg2 _ _ _ => none
  | .fsin _ _ _ => none
  | .fcos _ _ _ => none
  | .fflr _ _ _ => none
  | .fceil _ _ _ => none
  | .ftrunc _ _ _ => none
  | .frint _ _ _ _ => none
  | .cvt _ _ s x _ m => if !(s ≠ x) then some .selector else if !((x.toNat ≠ 6 || m.toNat == 0)) then some .selector else none
  | .qscale _ _ _ _ _ => none
  | .qscale8 _ _ _ _ _ => none
  | .mrd _ _ _ _ => none
  | .mwr _ _ _ _ => none
  | .spec _ _ _ => none
  | .shfl _ _ _ _ _ => none
  | .redl _ _ _ p m => if !(p.toNat ≤ 10) then some .selector else if !((p.toNat == 8 || m.toNat == 0)) then some .selector else none
  | .scanl _ _ _ p m => if !(p.toNat ≤ 10) then some .selector else if !((p.toNat == 8 || m.toNat == 0)) then some .selector else none
  | .ld _ _ _ _ _ => none
  | .st _ _ _ _ _ => none
  | .ldv _ _ _ _ => none
  | .stv _ _ _ _ => none
  | .atom _ d _ p _ => if !(p.toNat ≤ 13) then some .selector else if !((p.toNat ≠ 10 || d.toNat % 2 == 0)) then some .oddPair else none
  | .redq _ _ _ _ => none
  | .lexit => none
  | .branchResolution _ => none
  | .longLatencyLanding _ _ => none
  | .storePerformed _ => none
  | .sliceAnswer _ _ => none
  | .filterSlowPathWrite _ => none
  | .crewWakeResume _ => none
  | .deadlineSweep => none
  | .redqContribution _ _ => none
  | .trapEntry _ => none
  | .placementDecision _ => none
  | .recordCompletion _ => none
  | .laneGangTimeout => none
  | .hoistChunkDone _ _ => none
  | .ringSlotAdmit _ _ => none
  | .stripPassGrant _ => none
  | .promotionEnd _ _ => none
  | .publishFlip _ => none
  | .shootdownDone _ => none
  | .contextSaveDone => none
  | .teardown _ _ _ => none
  | .teardownGraceExpiry _ => none
  | .collectiveDataArrival _ _ _ _ _ => none
  | .collTimeout _ => none
  | .flitReceive _ _ => none
  | .flitNak _ _ => none
  | .heartTimer => none
  | .heart _ _ _ => none
  | .lower _ _ _ => none
  | .ceil _ _ _ _ => none
  | .breach _ _ => none
  | .propose _ _ _ => none
  | .grant _ _ => none
  | .deny _ _ _ => none
  | .joinMsg _ _ => none
  | .leave _ _ => none
  | .view _ _ _ _ _ => none
  | .unknownPacerType _ _ => none
  | .lapApply => none
  | .peerSilent _ => none
  | .emergencyTrip => none
  | .tripRecheck _ => none
  | .powerSample _ _ => none
  | .intervalEnd _ => none
  | .cooldownStep _ => none
  | .ageingMeasure _ _ _ => none
  | .hbmScrub _ _ => none
  | .kick _ _ _ => none
  | .hostQueueConsume _ _ => none
  | .windowBWrite _ _ _ => none
  | .windowBRead _ _ _ => none
  | .fetchadd _ _ _ _ => none
  | .swap _ _ _ _ => none
  | .cas _ _ _ _ _ => none
  | .shoot _ _ => none
  | .reqkick _ _ => none
  | .mailboxLoad _ => none
  | .mailboxTear _ => none
  | .mailboxLimit _ => none
  | .mailboxPool _ => none
  | .mailboxStrict _ => none
  | .mailboxEnrol _ => none
  | .mailboxFuse _ => none
  | .mailboxRoute _ => none
  | .mailboxUnknownOp _ => none
  | .fusereq _ => none
  | .fuseBlown => none
  | .measgo _ _ => none
  | .romovlClear _ => none
  | .resetRelease => none
  | .trnctl _ _ => none
  | .hbmTrainingDone _ _ _ _ _ _ => none
  | .fwlimit _ _ => none
  | .paceen _ _ => none
  | .portEn _ _ => none
  | .portRetrain _ => none
  | .signalDetect _ => none
  | .detectTimeout _ => none
  | .equaliseDone _ => none
  | .alignLock _ => none
  | .identExchange _ _ _ => none
  | .retrainTimeout _ => none
  | .registerWrite _ _ _ => none
  | .lossOfPower => none
  | .enable _ _ _ => none
  | .mben _ _ => none

/-- The term is an instruction word that no condition of R41 refuses, or an event. -/
abbrev WellFormed (i : Instr) : Prop := i.defect = none

end Sys2Proof
end

