-- ==== Sys2Proof/Decode.lean ====
section
/-!
DEFINITION. The decoder and the encoder of AGQ 1.0, from the formats of R26 and R28 and the maps of R36 to R40
(spec/03_encoding.md).

`decodeWord` is total: it gives the instruction of a word or the name of the condition of R41 that refuses it.
`encode` gives the word of an instruction as the sum of its fields shifted into place, and none for an event.
-/

namespace Sys2Proof

/-- The `len` bits of `w` from bit `lo` upward. -/
def fld (w : BitVec 32) (lo len : Nat) : BitVec len := BitVec.ofNat len (w.toNat / 2 ^ lo)

/-- Bits `lo` to `lo + len - 1` of `w` hold the number `v`. -/
def fixed (w : BitVec 32) (lo len v : Nat) : Bool := w.toNat / 2 ^ lo % 2 ^ len == v

/-- Go on if the condition holds, else refuse by name. -/
def need (b : Bool) (why : Reject) (k : Except Reject Instr) : Except Reject Instr :=
  if b then k else .error why

/-- Take the instruction if R41 does not refuse it. -/
def accept (i : Instr) : Except Reject Instr :=
  match i.defect with
  | none => .ok i
  | some why => .error why

/-- The cell ALU, major 0x0 of the uniform set. -/
def decodeAlu (w : BitVec 32) : Except Reject Instr :=
  match w.toNat / 2 ^ 21 % 2 ^ 4 with
  | 0 => need (fixed w 0 3 0) .fieldNotZero (accept (.aluAdd (fld w 15 6) (fld w 9 6) (fld w 3 6)))
  | 1 => need (fixed w 0 3 0) .fieldNotZero (accept (.aluSub (fld w 15 6) (fld w 9 6) (fld w 3 6)))
  | 2 => need (fixed w 0 3 0) .fieldNotZero (accept (.aluAnd (fld w 15 6) (fld w 9 6) (fld w 3 6)))
  | 3 => need (fixed w 0 3 0) .fieldNotZero (accept (.aluOr (fld w 15 6) (fld w 9 6) (fld w 3 6)))
  | 4 => need (fixed w 0 3 0) .fieldNotZero (accept (.aluXor (fld w 15 6) (fld w 9 6) (fld w 3 6)))
  | 5 => need (fixed w 0 3 0) .fieldNotZero (accept (.aluAndn (fld w 15 6) (fld w 9 6) (fld w 3 6)))
  | 6 => need (fixed w 0 3 0) .fieldNotZero (accept (.aluShl (fld w 15 6) (fld w 9 6) (fld w 3 6)))
  | 7 => need (fixed w 0 3 0) .fieldNotZero (accept (.aluShr (fld w 15 6) (fld w 9 6) (fld w 3 6)))
  | 8 => need (fixed w 0 3 0) .fieldNotZero (accept (.aluSar (fld w 15 6) (fld w 9 6) (fld w 3 6)))
  | 9 => need (fixed w 0 3 0) .fieldNotZero (accept (.aluMul (fld w 15 6) (fld w 9 6) (fld w 3 6)))
  | 10 => need (fixed w 0 3 0) .fieldNotZero (accept (.aluMulhs (fld w 15 6) (fld w 9 6) (fld w 3 6)))
  | 11 => need (fixed w 0 3 0) .fieldNotZero (accept (.aluMulhz (fld w 15 6) (fld w 9 6) (fld w 3 6)))
  | 12 => need (fixed w 0 3 0) .fieldNotZero (accept (.aluMins (fld w 15 6) (fld w 9 6) (fld w 3 6)))
  | 13 => need (fixed w 0 3 0) .fieldNotZero (accept (.aluMaxs (fld w 15 6) (fld w 9 6) (fld w 3 6)))
  | 14 => need (fixed w 0 3 0) .fieldNotZero (accept (.aluMinz (fld w 15 6) (fld w 9 6) (fld w 3 6)))
  | 15 => need (fixed w 0 3 0) .fieldNotZero (accept (.aluMaxz (fld w 15 6) (fld w 9 6) (fld w 3 6)))
  | _ => .error .selector

/-- The cell ALUI, major 0x1 of the uniform set. -/
def decodeAlui (w : BitVec 32) : Except Reject Instr :=
  match w.toNat / 2 ^ 21 % 2 ^ 4 with
  | 0 => accept (.aluiAddi (fld w 15 6) (fld w 9 6) (fld w 0 9))
  | 1 => accept (.aluiSubi (fld w 15 6) (fld w 9 6) (fld w 0 9))
  | 2 => accept (.aluiAndi (fld w 15 6) (fld w 9 6) (fld w 0 9))
  | 3 => accept (.aluiOri (fld w 15 6) (fld w 9 6) (fld w 0 9))
  | 4 => accept (.aluiXori (fld w 15 6) (fld w 9 6) (fld w 0 9))
  | 5 => accept (.aluiAndni (fld w 15 6) (fld w 9 6) (fld w 0 9))
  | 6 => accept (.aluiShli (fld w 15 6) (fld w 9 6) (fld w 0 9))
  | 7 => accept (.aluiShri (fld w 15 6) (fld w 9 6) (fld w 0 9))
  | 8 => accept (.aluiSari (fld w 15 6) (fld w 9 6) (fld w 0 9))
  | 9 => accept (.aluiMuli (fld w 15 6) (fld w 9 6) (fld w 0 9))
  | 10 => accept (.aluiMulhsi (fld w 15 6) (fld w 9 6) (fld w 0 9))
  | 11 => accept (.aluiMulhzi (fld w 15 6) (fld w 9 6) (fld w 0 9))
  | 12 => accept (.aluiMinsi (fld w 15 6) (fld w 9 6) (fld w 0 9))
  | 13 => accept (.aluiMaxsi (fld w 15 6) (fld w 9 6) (fld w 0 9))
  | 14 => accept (.aluiMinzi (fld w 15 6) (fld w 9 6) (fld w 0 9))
  | 15 => accept (.aluiMaxzi (fld w 15 6) (fld w 9 6) (fld w 0 9))
  | _ => .error .selector

/-- The cell ALX, major 0x2 of the uniform set. -/
def decodeAlx (w : BitVec 32) : Except Reject Instr :=
  match w.toNat / 2 ^ 21 % 2 ^ 4 with
  | 0 => need (fixed w 0 3 0) .fieldNotZero (accept (.divs (fld w 15 6) (fld w 9 6) (fld w 3 6)))
  | 1 => need (fixed w 0 3 0) .fieldNotZero (accept (.divz (fld w 15 6) (fld w 9 6) (fld w 3 6)))
  | 2 => need (fixed w 0 3 0) .fieldNotZero (accept (.rems (fld w 15 6) (fld w 9 6) (fld w 3 6)))
  | 3 => need (fixed w 0 3 0) .fieldNotZero (accept (.remz (fld w 15 6) (fld w 9 6) (fld w 3 6)))
  | 4 => need (fixed w 0 9 0) .fieldNotZero (accept (.alxClz (fld w 15 6) (fld w 9 6)))
  | 5 => need (fixed w 0 9 0) .fieldNotZero (accept (.alxPopc (fld w 15 6) (fld w 9 6)))
  | 6 => need (fixed w 0 3 0) .fieldNotZero (accept (.alxBfx (fld w 15 6) (fld w 9 6) (fld w 3 6)))
  | 7 => need (fixed w 0 3 0) .fieldNotZero (accept (.alxBfi (fld w 15 6) (fld w 9 6) (fld w 3 6)))
  | 8 => accept (.cmps (fld w 15 6) (fld w 9 6) (fld w 3 6) (fld w 0 3))
  | 9 => need (fixed w 0 9 0) .fieldNotZero (accept (.alxMov (fld w 15 6) (fld w 9 6)))
  | 10 => need (fixed w 0 3 0) .fieldNotZero (accept (.selnz (fld w 15 6) (fld w 9 6) (fld w 3 6)))
  | _ => .error .selector

/-- The cell MOVW, major 0x3 of the uniform set. -/
def decodeMovw (w : BitVec 32) : Except Reject Instr :=
  match w.toNat / 2 ^ 0 % 2 ^ 1 with
  | 0 => accept (.movw (fld w 23 2) (fld w 17 6) (fld w 1 16))
  | 1 => accept (.movwk (fld w 23 2) (fld w 17 6) (fld w 1 16))
  | _ => .error .selector

/-- The cell JMP, major 0x7 of the uniform set. -/
def decodeJmp (w : BitVec 32) : Except Reject Instr :=
  match w.toNat / 2 ^ 21 % 2 ^ 4 with
  | 0 => need (fixed w 0 9 0) .fieldNotZero (need (fixed w 15 6 0) .fieldNotZero (accept (.jr (fld w 9 6))))
  | 1 => need (fixed w 0 9 0) .fieldNotZero (need (fixed w 15 6 0) .fieldNotZero (accept (.callr (fld w 9 6))))
  | 2 => need (fixed w 0 21 0) .fieldNotZero (accept (.ret))
  | _ => .error .selector

/-- The cell MARK, major 0xb of the uniform set. -/
def decodeMark (w : BitVec 32) : Except Reject Instr :=
  match w.toNat / 2 ^ 21 % 2 ^ 4 with
  | 0 => need (fixed w 0 12 0) .fieldNotZero (accept (.mand (fld w 18 3) (fld w 15 3) (fld w 12 3)))
  | 1 => need (fixed w 0 12 0) .fieldNotZero (accept (.mor (fld w 18 3) (fld w 15 3) (fld w 12 3)))
  | 2 => need (fixed w 0 12 0) .fieldNotZero (accept (.mxor (fld w 18 3) (fld w 15 3) (fld w 12 3)))
  | 3 => need (fixed w 0 12 0) .fieldNotZero (accept (.mandn (fld w 18 3) (fld w 15 3) (fld w 12 3)))
  | 4 => need (fixed w 0 15 0) .fieldNotZero (accept (.mnot (fld w 18 3) (fld w 15 3)))
  | 5 => need (fixed w 0 15 0) .fieldNotZero (accept (.mcopy (fld w 18 3) (fld w 15 3)))
  | 6 => need (fixed w 0 18 0) .fieldNotZero (accept (.mclr (fld w 18 3)))
  | 7 => need (fixed w 0 18 0) .fieldNotZero (accept (.mgetact (fld w 18 3)))
  | 8 => need (fixed w 0 6 0) .fieldNotZero (need (fixed w 12 3 0) .fieldNotZero (need (fixed w 18 3 0) .fieldNotZero (accept (.cnt (fld w 15 3) (fld w 6 6)))))
  | 9 => need (fixed w 0 6 0) .fieldNotZero (need (fixed w 12 3 0) .fieldNotZero (need (fixed w 18 3 0) .fieldNotZero (accept (.first (fld w 15 3) (fld w 6 6)))))
  | 10 => need (fixed w 0 6 0) .fieldNotZero (need (fixed w 12 3 0) .fieldNotZero (need (fixed w 18 3 0) .fieldNotZero (accept (.next (fld w 15 3) (fld w 6 6)))))
  | 11 => need (fixed w 0 6 0) .fieldNotZero (need (fixed w 12 3 0) .fieldNotZero (accept (.mpick (fld w 18 3) (fld w 15 3) (fld w 6 6))))
  | 12 => need (fixed w 0 6 0) .fieldNotZero (need (fixed w 12 6 0) .fieldNotZero (accept (.mset1 (fld w 18 3) (fld w 6 6))))
  | 13 => need (fixed w 0 6 0) .fieldNotZero (need (fixed w 12 6 0) .fieldNotZero (accept (.mclr1 (fld w 18 3) (fld w 6 6))))
  | 14 =>
    match w.toNat / 2 ^ 12 % 2 ^ 3 with
    | 0 => need (fixed w 0 6 0) .fieldNotZero (need (fixed w 15 3 0) .fieldNotZero (accept (.mload (fld w 18 3) (fld w 6 6))))
    | 1 => need (fixed w 0 6 0) .fieldNotZero (need (fixed w 18 3 0) .fieldNotZero (accept (.mstore (fld w 15 3) (fld w 6 6))))
    | _ => .error .selector
  | _ => .error .selector

/-- The cell RSTK, major 0xc of the uniform set. -/
def decodeRstk (w : BitVec 32) : Except Reject Instr :=
  match w.toNat / 2 ^ 21 % 2 ^ 4 with
  | 0 => need (fixed w 0 15 0) .fieldNotZero (need (fixed w 18 3 0) .fieldNotZero (accept (.push (fld w 15 3))))
  | 1 => need (fixed w 0 21 0) .fieldNotZero (accept (.pop))
  | 2 => need (fixed w 0 15 0) .fieldNotZero (need (fixed w 18 3 0) .fieldNotZero (accept (.else_ (fld w 15 3))))
  | 3 => need (fixed w 0 18 0) .fieldNotZero (accept (.jarv (fld w 18 3)))
  | 4 => need (fixed w 0 15 0) .fieldNotZero (need (fixed w 18 3 0) .fieldNotZero (accept (.join (fld w 15 3))))
  | 5 => need (fixed w 0 15 0) .fieldNotZero (need (fixed w 18 3 0) .fieldNotZero (accept (.setact (fld w 15 3))))
  | 6 => need (fixed w 0 21 0) .fieldNotZero (accept (.pushall))
  | 7 => need (fixed w 0 6 0) .fieldNotZero (need (fixed w 12 9 0) .fieldNotZero (accept (.rdepth (fld w 6 6))))
  | _ => .error .selector

/-- The cell XFER, major 0xd of the uniform set. -/
def decodeXfer (w : BitVec 32) : Except Reject Instr :=
  match w.toNat / 2 ^ 21 % 2 ^ 4 with
  | 0 => need (fixed w 1 2 0) .fieldNotZero (accept (.get (fld w 15 6) (fld w 9 6) (fld w 3 6) (fld w 0 1)))
  | 1 => need (fixed w 1 2 0) .fieldNotZero (accept (.put (fld w 15 6) (fld w 9 6) (fld w 3 6) (fld w 0 1)))
  | 2 => need (fixed w 1 8 0) .fieldNotZero (accept (.getf (fld w 15 6) (fld w 9 6) (fld w 0 1)))
  | _ => .error .selector

/-- The cell BLK, major 0xe of the uniform set. -/
def decodeBlk (w : BitVec 32) : Except Reject Instr :=
  match w.toNat / 2 ^ 21 % 2 ^ 4 with
  | 0 => need (fixed w 0 9 0) .fieldNotZero (need (fixed w 15 6 0) .fieldNotZero (accept (.blkacqW (fld w 9 6))))
  | 1 => need (fixed w 0 9 0) .fieldNotZero (accept (.blkacqP (fld w 15 6) (fld w 9 6)))
  | 2 => need (fixed w 0 9 0) .fieldNotZero (need (fixed w 15 6 0) .fieldNotZero (accept (.blkrel (fld w 9 6))))
  | 3 => need (fixed w 0 15 0) .fieldNotZero (accept (.blkq (fld w 15 6)))
  | _ => .error .selector

/-- The cell FENCE, major 0x14 of the uniform set. -/
def decodeFence (w : BitVec 32) : Except Reject Instr :=
  match w.toNat / 2 ^ 21 % 2 ^ 4 with
  | 0 => need (fixed w 0 21 0) .fieldNotZero (accept (.fence))
  | 1 => need (fixed w 0 21 0) .fieldNotZero (accept (.fenceA))
  | 2 => need (fixed w 0 21 0) .fieldNotZero (accept (.fenceR))
  | 3 => need (fixed w 0 21 0) .fieldNotZero (accept (.ifence))
  | _ => .error .selector

/-- The cell RELAY, major 0x16 of the uniform set. -/
def decodeRelay (w : BitVec 32) : Except Reject Instr :=
  match w.toNat / 2 ^ 21 % 2 ^ 4 with
  | 0 => need (fixed w 0 3 0) .fieldNotZero (need (fixed w 15 6 0) .fieldNotZero (accept (.wacc (fld w 9 6) (fld w 3 6))))
  | 1 => need (fixed w 0 3 0) .fieldNotZero (need (fixed w 15 6 0) .fieldNotZero (accept (.waccq (fld w 9 6) (fld w 3 6))))
  | 2 => need (fixed w 0 9 0) .fieldNotZero (accept (.wqry (fld w 15 6) (fld w 9 6)))
  | 3 => need (fixed w 0 3 0) .fieldNotZero (need (fixed w 15 6 0) .fieldNotZero (accept (.wcfg (fld w 9 6) (fld w 3 6))))
  | 4 => need (fixed w 0 9 0) .fieldNotZero (need (fixed w 15 6 0) .fieldNotZero (accept (.wclr (fld w 9 6))))
  | 5 => need (fixed w 0 9 0) .fieldNotZero (accept (.wlen (fld w 15 6) (fld w 9 6)))
  | _ => .error .selector

/-- The cell TAG, major 0x18 of the uniform set. -/
def decodeTag (w : BitVec 32) : Except Reject Instr :=
  match w.toNat / 2 ^ 21 % 2 ^ 4 with
  | 0 => need (fixed w 0 9 0) .fieldNotZero (need (fixed w 15 6 0) .fieldNotZero (accept (.twaitany (fld w 9 6))))
  | 1 => need (fixed w 0 9 0) .fieldNotZero (need (fixed w 15 6 0) .fieldNotZero (accept (.twaitall (fld w 9 6))))
  | 2 => need (fixed w 0 9 0) .fieldNotZero (accept (.tfirst (fld w 15 6) (fld w 9 6)))
  | 3 => need (fixed w 0 9 0) .fieldNotZero (need (fixed w 15 6 0) .fieldNotZero (accept (.tclr (fld w 9 6))))
  | 4 => need (fixed w 0 15 0) .fieldNotZero (accept (.trdy (fld w 15 6)))
  | _ => .error .selector

/-- The cell HOIST, major 0x19 of the uniform set. -/
def decodeHoist (w : BitVec 32) : Except Reject Instr :=
  match w.toNat / 2 ^ 9 % 2 ^ 4 with
  | 0 => need (fixed w 2 6 0) .fieldNotZero (accept (.hcopy (fld w 19 6) (fld w 13 6) (fld w 8 1) (fld w 1 1) (fld w 0 1)))
  | 1 => need (fixed w 2 6 0) .fieldNotZero (accept (.hgath (fld w 19 6) (fld w 13 6) (fld w 8 1) (fld w 1 1) (fld w 0 1)))
  | 2 => need (fixed w 2 6 0) .fieldNotZero (accept (.hscat (fld w 19 6) (fld w 13 6) (fld w 8 1) (fld w 1 1) (fld w 0 1)))
  | 3 => need (fixed w 1 7 0) .fieldNotZero (accept (.hfill (fld w 19 6) (fld w 13 6) (fld w 8 1) (fld w 0 1)))
  | 4 => need (fixed w 5 3 0) .fieldNotZero (accept (.hplane (fld w 19 6) (fld w 13 6) (fld w 8 1) (fld w 4 1) (fld w 3 1) (fld w 0 3)))
  | 5 => need (fixed w 0 8 0) .fieldNotZero (accept (.hchain (fld w 19 6) (fld w 13 6) (fld w 8 1)))
  | 6 => need (fixed w 0 8 0) .fieldNotZero (need (fixed w 13 6 0) .fieldNotZero (accept (.hstop (fld w 19 6) (fld w 8 1))))
  | 7 => need (fixed w 0 8 0) .fieldNotZero (need (fixed w 13 6 0) .fieldNotZero (accept (.hresume (fld w 19 6) (fld w 8 1))))
  | 8 => need (fixed w 0 9 0) .selector (accept (.hprog (fld w 19 6) (fld w 13 6)))
  | _ => .error .selector

/-- The cell MX, major 0x1a of the uniform set. -/
def decodeMx (w : BitVec 32) : Except Reject Instr :=
  match w.toNat / 2 ^ 9 % 2 ^ 4 with
  | 0 => need (fixed w 0 8 0) .fieldNotZero (accept (.mma (fld w 19 6) (fld w 13 6) (fld w 9 4) (fld w 8 1)))
  | 1 => need (fixed w 0 8 0) .fieldNotZero (accept (.mma (fld w 19 6) (fld w 13 6) (fld w 9 4) (fld w 8 1)))
  | 2 => need (fixed w 0 8 0) .fieldNotZero (accept (.mma (fld w 19 6) (fld w 13 6) (fld w 9 4) (fld w 8 1)))
  | 3 => need (fixed w 0 8 0) .fieldNotZero (accept (.mma (fld w 19 6) (fld w 13 6) (fld w 9 4) (fld w 8 1)))
  | 4 => need (fixed w 0 8 0) .fieldNotZero (accept (.mma (fld w 19 6) (fld w 13 6) (fld w 9 4) (fld w 8 1)))
  | 5 => need (fixed w 0 8 0) .fieldNotZero (accept (.mma (fld w 19 6) (fld w 13 6) (fld w 9 4) (fld w 8 1)))
  | 6 => need (fixed w 0 8 0) .fieldNotZero (accept (.mzero (fld w 19 6) (fld w 13 6) (fld w 8 1)))
  | 7 => need (fixed w 0 9 0) .fieldNotZero (need (fixed w 19 6 0) .fieldNotZero (accept (.mring (fld w 13 6))))
  | 8 => need (fixed w 0 8 0) .fieldNotZero (need (fixed w 13 6 0) .fieldNotZero (accept (.mfence (fld w 19 6) (fld w 8 1))))
  | 9 => need (fixed w 0 9 0) .fieldNotZero (need (fixed w 13 12 0) .fieldNotZero (accept (.mdetach)))
  | _ => .error .selector

/-- The cell TOKEN, major 0x1b of the uniform set. -/
def decodeToken (w : BitVec 32) : Except Reject Instr :=
  match w.toNat / 2 ^ 21 % 2 ^ 4 with
  | 0 => need (fixed w 0 9 0) .fieldNotZero (need (fixed w 15 6 0) .fieldNotZero (accept (.tktake (fld w 9 6))))
  | 1 => need (fixed w 0 9 0) .fieldNotZero (need (fixed w 15 6 0) .fieldNotZero (accept (.tkgive (fld w 9 6))))
  | 2 => need (fixed w 0 9 0) .fieldNotZero (accept (.tkqry (fld w 15 6) (fld w 9 6)))
  | _ => .error .selector

/-- The cell PUB, major 0x1c of the uniform set. -/
def decodePub (w : BitVec 32) : Except Reject Instr :=
  match w.toNat / 2 ^ 21 % 2 ^ 4 with
  | 0 => need (fixed w 0 9 0) .fieldNotZero (need (fixed w 15 6 0) .fieldNotZero (accept (.publish (fld w 9 6))))
  | 1 => need (fixed w 0 9 0) .fieldNotZero (accept (.pubqry (fld w 15 6) (fld w 9 6)))
  | 2 => need (fixed w 0 3 0) .fieldNotZero (need (fixed w 15 6 0) .fieldNotZero (accept (.pubset (fld w 9 6) (fld w 3 6))))
  | _ => .error .selector

/-- The cell TASK, major 0x1d of the uniform set. -/
def decodeTask (w : BitVec 32) : Except Reject Instr :=
  match w.toNat / 2 ^ 21 % 2 ^ 4 with
  | 0 => need (fixed w 0 9 0) .fieldNotZero (need (fixed w 15 6 0) .fieldNotZero (accept (.spawn (fld w 9 6))))
  | 1 => need (fixed w 0 9 0) .fieldNotZero (accept (.spawnNb (fld w 15 6) (fld w 9 6)))
  | 2 => need (fixed w 0 9 0) .fieldNotZero (need (fixed w 15 6 0) .fieldNotZero (accept (.spawng (fld w 9 6))))
  | 3 => need (fixed w 0 9 0) .fieldNotZero (need (fixed w 15 6 0) .fieldNotZero (accept (.joindec (fld w 9 6))))
  | 4 => need (fixed w 0 9 0) .fieldNotZero (need (fixed w 15 6 0) .fieldNotZero (accept (.depdec (fld w 9 6))))
  | 5 => need (fixed w 0 9 0) .fieldNotZero (accept (.launch (fld w 15 6) (fld w 9 6)))
  | 6 => need (fixed w 0 3 0) .fieldNotZero (need (fixed w 15 6 0) .fieldNotZero (accept (.barc (fld w 9 6) (fld w 3 6))))
  | 7 => need (fixed w 0 21 0) .fieldNotZero (accept (.exit))
  | _ => .error .selector

/-- The cell COLL, major 0x1e of the uniform set. -/
def decodeColl (w : BitVec 32) : Except Reject Instr :=
  match w.toNat / 2 ^ 9 % 2 ^ 4 with
  | 0 => need (fixed w 2 6 0) .fieldNotZero (accept (.cred (fld w 19 6) (fld w 13 6) (fld w 8 1) (fld w 1 1) (fld w 0 1)))
  | 1 => need (fixed w 2 6 0) .fieldNotZero (accept (.cgath (fld w 19 6) (fld w 13 6) (fld w 8 1) (fld w 1 1) (fld w 0 1)))
  | 2 => need (fixed w 1 7 0) .fieldNotZero (accept (.cbcast (fld w 19 6) (fld w 13 6) (fld w 8 1) (fld w 0 1)))
  | 3 => need (fixed w 0 9 0) .fieldNotZero (accept (.cstat (fld w 19 6) (fld w 13 6)))
  | _ => .error .selector

/-- The cell SYS, major 0x1f of the uniform set. -/
def decodeSys (w : BitVec 32) : Except Reject Instr :=
  match w.toNat / 2 ^ 21 % 2 ^ 4 with
  | 0 => need (fixed w 0 3 0) .fieldNotZero (accept (.rdsys (fld w 15 6) (fld w 3 12)))
  | 1 => need (fixed w 0 3 0) .fieldNotZero (accept (.wrsys (fld w 15 6) (fld w 3 12)))
  | 2 => need (fixed w 0 3 0) .fieldNotZero (need (fixed w 15 6 0) .fieldNotZero (accept (.trap (fld w 3 12))))
  | 3 => need (fixed w 0 21 0) .fieldNotZero (accept (.rte))
  | 4 => need (fixed w 0 3 0) .fieldNotZero (need (fixed w 15 6 0) .fieldNotZero (accept (.bkpt (fld w 3 12))))
  | 5 => need (fixed w 0 21 0) .fieldNotZero (accept (.yield))
  | 6 => need (fixed w 0 21 0) .fieldNotZero (accept (.nop))
  | 7 => need (fixed w 0 21 0) .fieldNotZero (accept (.halt))
  | 8 => need (fixed w 0 9 0) .fieldNotZero (need (fixed w 15 6 0) .fieldNotZero (accept (.rspill (fld w 9 6))))
  | 9 => need (fixed w 0 9 0) .fieldNotZero (need (fixed w 15 6 0) .fieldNotZero (accept (.rfill (fld w 9 6))))
  | 10 => need (fixed w 0 9 0) .fieldNotZero (need (fixed w 15 6 0) .fieldNotZero (accept (.ctxsave (fld w 9 6))))
  | 11 => need (fixed w 0 9 0) .fieldNotZero (need (fixed w 15 6 0) .fieldNotZero (accept (.ctxload (fld w 9 6))))
  | _ => .error .selector

/-- The cell UNA, major 0xa of the lane set. -/
def decodeUna (w : BitVec 32) : Except Reject Instr :=
  match w.toNat / 2 ^ 2 % 2 ^ 7 with
  | 0 => need (fixed w 0 2 0) .fieldNotZero (accept (.abs (fld w 23 2) (fld w 16 7) (fld w 9 7)))
  | 1 => need (fixed w 0 2 0) .fieldNotZero (accept (.neg (fld w 23 2) (fld w 16 7) (fld w 9 7)))
  | 2 => need (fixed w 0 2 0) .fieldNotZero (accept (.not (fld w 23 2) (fld w 16 7) (fld w 9 7)))
  | 3 => need (fixed w 0 2 0) .fieldNotZero (accept (.clz (fld w 23 2) (fld w 16 7) (fld w 9 7)))
  | 4 => need (fixed w 0 2 0) .fieldNotZero (accept (.popc (fld w 23 2) (fld w 16 7) (fld w 9 7)))
  | 5 => need (fixed w 0 2 0) .fieldNotZero (accept (.brev (fld w 23 2) (fld w 16 7) (fld w 9 7)))
  | 6 => need (fixed w 0 2 0) .fieldNotZero (accept (.mov (fld w 23 2) (fld w 16 7) (fld w 9 7)))
  | _ => .error .selector

/-- The cell FUN, major 0x26 of the lane set. -/
def decodeFun (w : BitVec 32) : Except Reject Instr :=
  match w.toNat / 2 ^ 2 % 2 ^ 7 with
  | 0 => need (fixed w 0 2 0) .fieldNotZero (accept (.fabs (fld w 23 2) (fld w 16 7) (fld w 9 7)))
  | 1 => need (fixed w 0 2 0) .fieldNotZero (accept (.fneg (fld w 23 2) (fld w 16 7) (fld w 9 7)))
  | 2 => need (fixed w 0 2 0) .fieldNotZero (accept (.frcp (fld w 23 2) (fld w 16 7) (fld w 9 7)))
  | 3 => need (fixed w 0 2 0) .fieldNotZero (accept (.frsq (fld w 23 2) (fld w 16 7) (fld w 9 7)))
  | 4 => accept (.fsqrt (fld w 23 2) (fld w 16 7) (fld w 9 7) (fld w 0 2))
  | 5 => need (fixed w 0 2 0) .fieldNotZero (accept (.fex2 (fld w 23 2) (fld w 16 7) (fld w 9 7)))
  | 6 => need (fixed w 0 2 0) .fieldNotZero (accept (.flg2 (fld w 23 2) (fld w 16 7) (fld w 9 7)))
  | 7 => need (fixed w 0 2 0) .fieldNotZero (accept (.fsin (fld w 23 2) (fld w 16 7) (fld w 9 7)))
  | 8 => need (fixed w 0 2 0) .fieldNotZero (accept (.fcos (fld w 23 2) (fld w 16 7) (fld w 9 7)))
  | 9 => need (fixed w 0 2 0) .fieldNotZero (accept (.fflr (fld w 23 2) (fld w 16 7) (fld w 9 7)))
  | 10 => need (fixed w 0 2 0) .fieldNotZero (accept (.fceil (fld w 23 2) (fld w 16 7) (fld w 9 7)))
  | 11 => need (fixed w 0 2 0) .fieldNotZero (accept (.ftrunc (fld w 23 2) (fld w 16 7) (fld w 9 7)))
  | 12 => accept (.frint (fld w 23 2) (fld w 16 7) (fld w 9 7) (fld w 0 2))
  | _ => .error .selector

/-- The lane set, by major cell (R38). -/
def decodeLane (w : BitVec 32) : Except Reject Instr :=
  match w.toNat / 2 ^ 25 % 2 ^ 6 with
  | 0x0 => need (fixed w 0 2 0) .fieldNotZero (accept (.add (fld w 23 2) (fld w 16 7) (fld w 9 7) (fld w 2 7)))
  | 0x1 => accept (.addi (fld w 23 2) (fld w 16 7) (fld w 9 7) (fld w 0 9))
  | 0x2 => need (fixed w 0 2 0) .fieldNotZero (accept (.sub (fld w 23 2) (fld w 16 7) (fld w 9 7) (fld w 2 7)))
  | 0x3 => need (fixed w 0 2 0) .fieldNotZero (accept (.mul (fld w 23 2) (fld w 16 7) (fld w 9 7) (fld w 2 7)))
  | 0x4 => need (fixed w 1 1 0) .selector (accept (.mulh (fld w 23 2) (fld w 16 7) (fld w 9 7) (fld w 2 7) (fld w 0 1)))
  | 0x5 => need (fixed w 0 2 0) .fieldNotZero (accept (.mad (fld w 23 2) (fld w 16 7) (fld w 9 7) (fld w 2 7)))
  | 0x6 => need (fixed w 1 1 0) .selector (accept (.addsat (fld w 23 2) (fld w 16 7) (fld w 9 7) (fld w 2 7) (fld w 0 1)))
  | 0x7 => need (fixed w 1 1 0) .selector (accept (.subsat (fld w 23 2) (fld w 16 7) (fld w 9 7) (fld w 2 7) (fld w 0 1)))
  | 0x8 => need (fixed w 1 1 0) .selector (accept (.min (fld w 23 2) (fld w 16 7) (fld w 9 7) (fld w 2 7) (fld w 0 1)))
  | 0x9 => need (fixed w 1 1 0) .selector (accept (.max (fld w 23 2) (fld w 16 7) (fld w 9 7) (fld w 2 7) (fld w 0 1)))
  | 0xa => decodeUna w
  | 0xb => need (fixed w 0 2 0) .fieldNotZero (accept (.and (fld w 23 2) (fld w 16 7) (fld w 9 7) (fld w 2 7)))
  | 0xc => need (fixed w 0 2 0) .fieldNotZero (accept (.or (fld w 23 2) (fld w 16 7) (fld w 9 7) (fld w 2 7)))
  | 0xd => need (fixed w 0 2 0) .fieldNotZero (accept (.xor (fld w 23 2) (fld w 16 7) (fld w 9 7) (fld w 2 7)))
  | 0xe => need (fixed w 0 2 0) .fieldNotZero (accept (.andn (fld w 23 2) (fld w 16 7) (fld w 9 7) (fld w 2 7)))
  | 0xf => need (fixed w 0 2 0) .fieldNotZero (accept (.shl (fld w 23 2) (fld w 16 7) (fld w 9 7) (fld w 2 7)))
  | 0x10 => need (fixed w 0 2 0) .fieldNotZero (accept (.shr (fld w 23 2) (fld w 16 7) (fld w 9 7) (fld w 2 7)))
  | 0x11 => need (fixed w 0 2 0) .fieldNotZero (accept (.sar (fld w 23 2) (fld w 16 7) (fld w 9 7) (fld w 2 7)))
  | 0x12 => accept (.shli (fld w 23 2) (fld w 16 7) (fld w 9 7) (fld w 0 9))
  | 0x13 => accept (.shri (fld w 23 2) (fld w 16 7) (fld w 9 7) (fld w 0 9))
  | 0x14 => accept (.sari (fld w 23 2) (fld w 16 7) (fld w 9 7) (fld w 0 9))
  | 0x15 => need (fixed w 9 7 0) .fieldNotZero (accept (.movi (fld w 23 2) (fld w 16 7) (fld w 0 9)))
  | 0x16 => need (fixed w 0 3 0) .fieldNotZero (need (fixed w 9 7 0) .fieldNotZero (accept (.bcast (fld w 23 2) (fld w 16 7) (fld w 3 6))))
  | 0x17 => accept (.cmp (fld w 23 2) (fld w 16 7) (fld w 9 7) (fld w 2 7) (fld w 0 2))
  | 0x18 => accept (.cmpz (fld w 23 2) (fld w 16 7) (fld w 9 7) (fld w 2 7) (fld w 0 2))
  | 0x19 => accept (.fcmp (fld w 23 2) (fld w 16 7) (fld w 9 7) (fld w 2 7) (fld w 0 2))
  | 0x1a => need (fixed w 1 1 0) .selector (accept (.bfx (fld w 23 2) (fld w 16 7) (fld w 9 7) (fld w 2 7) (fld w 0 1)))
  | 0x1b => need (fixed w 0 2 0) .fieldNotZero (accept (.bfi (fld w 23 2) (fld w 16 7) (fld w 9 7) (fld w 2 7)))
  | 0x1c => accept (.pack (fld w 23 2) (fld w 16 7) (fld w 9 7) (fld w 2 7) (fld w 0 2))
  | 0x1d => need (fixed w 2 7 0) .fieldNotZero (accept (.unpk (fld w 23 2) (fld w 16 7) (fld w 9 7) (fld w 0 2)))
  | 0x1e => accept (.andi (fld w 23 2) (fld w 16 7) (fld w 9 7) (fld w 0 9))
  | 0x1f => accept (.xori (fld w 23 2) (fld w 16 7) (fld w 9 7) (fld w 0 9))
  | 0x20 => accept (.fadd (fld w 23 2) (fld w 16 7) (fld w 9 7) (fld w 2 7) (fld w 0 2))
  | 0x21 => accept (.fsub (fld w 23 2) (fld w 16 7) (fld w 9 7) (fld w 2 7) (fld w 0 2))
  | 0x22 => accept (.fmul (fld w 23 2) (fld w 16 7) (fld w 9 7) (fld w 2 7) (fld w 0 2))
  | 0x23 => accept (.ffma (fld w 23 2) (fld w 16 7) (fld w 9 7) (fld w 2 7) (fld w 0 2))
  | 0x24 => need (fixed w 0 2 0) .fieldNotZero (accept (.fmin (fld w 23 2) (fld w 16 7) (fld w 9 7) (fld w 2 7)))
  | 0x25 => need (fixed w 0 2 0) .fieldNotZero (accept (.fmax (fld w 23 2) (fld w 16 7) (fld w 9 7) (fld w 2 7)))
  | 0x26 => decodeFun w
  | 0x27 => need (fixed w 23 2 0) .selector (accept (.cvt (fld w 16 7) (fld w 9 7) (fld w 6 3) (fld w 3 3) (fld w 2 1) (fld w 0 2)))
  | 0x28 => need (fixed w 22 1 0) .selector (accept (.qscale (fld w 23 2) (fld w 20 2) (fld w 13 7) (fld w 6 7) (fld w 0 6)))
  | 0x29 => need (fixed w 23 2 0) .selector (accept (.qscale8 (fld w 22 1) (fld w 20 2) (fld w 13 7) (fld w 6 7) (fld w 0 6)))
  | 0x2b => need (fixed w 0 2 0) .selector (need (fixed w 8 1 0) .selector (need (fixed w 24 1 1) .selector (accept (.mrd (fld w 23 1) (fld w 16 7) (fld w 9 7) (fld w 2 6)))))
  | 0x2c => need (fixed w 0 2 0) .selector (need (fixed w 8 1 0) .selector (need (fixed w 24 1 1) .selector (accept (.mwr (fld w 23 1) (fld w 16 7) (fld w 9 7) (fld w 2 6)))))
  | 0x2f => need (fixed w 0 2 0) .selector (need (fixed w 4 12 0) .selector (accept (.spec (fld w 23 2) (fld w 16 7) (fld w 2 2))))
  | 0x30 => accept (.shfl (fld w 23 2) (fld w 16 7) (fld w 9 7) (fld w 2 7) (fld w 0 2))
  | 0x31 => accept (.redl (fld w 23 2) (fld w 16 7) (fld w 9 7) (fld w 2 7) (fld w 0 2))
  | 0x32 => accept (.scanl (fld w 23 2) (fld w 16 7) (fld w 9 7) (fld w 2 7) (fld w 0 2))
  | 0x38 => need (fixed w 7 2 0) .selector (accept (.ld (fld w 23 2) (fld w 16 7) (fld w 9 7) (fld w 6 1) (fld w 0 6)))
  | 0x39 => need (fixed w 6 1 0) .selector (need (fixed w 8 1 0) .selector (accept (.st (fld w 23 2) (fld w 16 7) (fld w 9 7) (fld w 7 1) (fld w 0 6))))
  | 0x3a => need (fixed w 6 3 0) .selector (accept (.ldv (fld w 23 2) (fld w 16 7) (fld w 9 7) (fld w 0 6)))
  | 0x3b => need (fixed w 6 3 0) .selector (accept (.stv (fld w 23 2) (fld w 16 7) (fld w 9 7) (fld w 0 6)))
  | 0x3c => need (fixed w 0 3 0) .selector (need (fixed w 24 1 1) .selector (accept (.atom (fld w 23 1) (fld w 16 7) (fld w 9 7) (fld w 5 4) (fld w 3 2))))
  | 0x3d => need (fixed w 0 2 0) .selector (need (fixed w 24 1 1) .selector (accept (.redq (fld w 23 1) (fld w 16 7) (fld w 9 7) (fld w 2 7))))
  | 0x3e => need (fixed w 0 25 0) .fieldNotZero (accept (.lexit))
  | _ => .error .reservedCell

/-- The uniform set, by major cell (R36). -/
def decodeUniform (w : BitVec 32) : Except Reject Instr :=
  match w.toNat / 2 ^ 25 % 2 ^ 6 with
  | 0x0 => decodeAlu w
  | 0x1 => decodeAlui w
  | 0x2 => decodeAlx w
  | 0x3 => decodeMovw w
  | 0x4 => accept (.brc (fld w 21 4) (fld w 15 6) (fld w 9 6) (fld w 0 9))
  | 0x5 => accept (.br (fld w 0 25))
  | 0x6 => accept (.call (fld w 0 25))
  | 0x7 => decodeJmp w
  | 0x8 => accept (.srch (fld w 22 3) (fld w 19 3) (fld w 12 7) (fld w 6 6) (fld w 0 6))
  | 0x9 => accept (.srcha (fld w 22 3) (fld w 19 3) (fld w 12 7) (fld w 6 6) (fld w 0 6))
  | 0xa => accept (.srchr (fld w 22 3) (fld w 19 3) (fld w 12 7) (fld w 5 7) (fld w 0 5))
  | 0xb => decodeMark w
  | 0xc => decodeRstk w
  | 0xd => decodeXfer w
  | 0xe => decodeBlk w
  | 0xf => need (fixed w 0 11 0) .fieldNotZero (accept (.pblk (fld w 22 3) (fld w 19 3) (fld w 11 8)))
  | 0x10 => accept (.clause (fld w 13 12) (fld w 9 4) (fld w 5 4) (fld w 0 5))
  | 0x11 => need (fixed w 22 1 0) .selector (accept (.lds (fld w 23 2) (fld w 21 1) (fld w 15 6) (fld w 9 6) (fld w 0 9)))
  | 0x12 => need (fixed w 21 1 0) .selector (accept (.sts (fld w 23 2) (fld w 22 1) (fld w 15 6) (fld w 9 6) (fld w 0 9)))
  | 0x13 => accept (.atoms (fld w 21 4) (fld w 15 6) (fld w 9 6) (fld w 3 6) (fld w 2 1) (fld w 0 2))
  | 0x14 => decodeFence w
  | 0x15 => need (fixed w 2 1 0) .selector (need (fixed w 24 1 0) .selector (accept (.waitu (fld w 21 3) (fld w 15 6) (fld w 9 6) (fld w 3 6) (fld w 1 1) (fld w 0 1))))
  | 0x16 => decodeRelay w
  | 0x17 => need (fixed w 0 3 0) .selector (need (fixed w 22 3 0) .selector (accept (.redqs (fld w 21 1) (fld w 15 6) (fld w 9 6) (fld w 3 6))))
  | 0x18 => decodeTag w
  | 0x19 => decodeHoist w
  | 0x1a => decodeMx w
  | 0x1b => decodeToken w
  | 0x1c => decodePub w
  | 0x1d => decodeTask w
  | 0x1e => decodeColl w
  | 0x1f => decodeSys w
  | _ => .error .reservedCell

/-- The instruction a word holds, or why it raises ILLEGAL (R24, R41). -/
def decodeWord (w : BitVec 32) : Except Reject Instr :=
  if w.toNat / 2 ^ 31 = 0 then decodeLane w else decodeUniform w

/-- The word whose four bytes stand lowest first (R1, R24). -/
def wordOfBytes (b0 b1 b2 b3 : Byte) : BitVec 32 :=
  BitVec.ofNat 32 (b0.toNat + b1.toNat * 2 ^ 8 + b2.toNat * 2 ^ 16 + b3.toNat * 2 ^ 24)

/-- The instruction at the head of some bytes, with the bytes after it. -/
def decodeBytes : List Byte → Except Reject (Instr × List Byte)
  | b0 :: b1 :: b2 :: b3 :: rest =>
    match decodeWord (wordOfBytes b0 b1 b2 b3) with
    | .ok i => .ok (i, rest)
    | .error why => .error why
  | _ => .error .truncated

/-- Byte `k` of a number, the lowest being byte 0. -/
def byteOf (w k : Nat) : Byte := BitVec.ofNat 8 (w / 2 ^ (8 * k))

/-- What the decoder reads from an instruction whose bits the opcode table numbers as `w`. -/
def decodeTableWord (nbits w : Nat) : Option Instr :=
  if nbits = 32 then
    match decodeBytes [byteOf w 0, byteOf w 1, byteOf w 2, byteOf w 3] with
    | .ok (i, _) => some i
    | .error _ => none
  else none

/-- The field `v` added at bit `lo`. -/
def put {n : Nat} (acc : Nat) (v : BitVec n) (lo : Nat) : Nat := acc + v.toNat * 2 ^ lo

/-- The word of an instruction: its fixed bits and its fields, each shifted into place; none for an event. -/
def encode : Instr → Option (BitVec 32)
  | .aluAdd d a b => some (BitVec.ofNat 32 (put (put (put 0x80000000 d 15) a 9) b 3))
  | .aluSub d a b => some (BitVec.ofNat 32 (put (put (put 0x80200000 d 15) a 9) b 3))
  | .aluAnd d a b => some (BitVec.ofNat 32 (put (put (put 0x80400000 d 15) a 9) b 3))
  | .aluOr d a b => some (BitVec.ofNat 32 (put (put (put 0x80600000 d 15) a 9) b 3))
  | .aluXor d a b => some (BitVec.ofNat 32 (put (put (put 0x80800000 d 15) a 9) b 3))
  | .aluAndn d a b => some (BitVec.ofNat 32 (put (put (put 0x80a00000 d 15) a 9) b 3))
  | .aluShl d a b => some (BitVec.ofNat 32 (put (put (put 0x80c00000 d 15) a 9) b 3))
  | .aluShr d a b => some (BitVec.ofNat 32 (put (put (put 0x80e00000 d 15) a 9) b 3))
  | .aluSar d a b => some (BitVec.ofNat 32 (put (put (put 0x81000000 d 15) a 9) b 3))
  | .aluMul d a b => some (BitVec.ofNat 32 (put (put (put 0x81200000 d 15) a 9) b 3))
  | .aluMulhs d a b => some (BitVec.ofNat 32 (put (put (put 0x81400000 d 15) a 9) b 3))
  | .aluMulhz d a b => some (BitVec.ofNat 32 (put (put (put 0x81600000 d 15) a 9) b 3))
  | .aluMins d a b => some (BitVec.ofNat 32 (put (put (put 0x81800000 d 15) a 9) b 3))
  | .aluMaxs d a b => some (BitVec.ofNat 32 (put (put (put 0x81a00000 d 15) a 9) b 3))
  | .aluMinz d a b => some (BitVec.ofNat 32 (put (put (put 0x81c00000 d 15) a 9) b 3))
  | .aluMaxz d a b => some (BitVec.ofNat 32 (put (put (put 0x81e00000 d 15) a 9) b 3))
  | .aluiAddi d a i => some (BitVec.ofNat 32 (put (put (put 0x82000000 d 15) a 9) i 0))
  | .aluiSubi d a i => some (BitVec.ofNat 32 (put (put (put 0x82200000 d 15) a 9) i 0))
  | .aluiAndi d a i => some (BitVec.ofNat 32 (put (put (put 0x82400000 d 15) a 9) i 0))
  | .aluiOri d a i => some (BitVec.ofNat 32 (put (put (put 0x82600000 d 15) a 9) i 0))
  | .aluiXori d a i => some (BitVec.ofNat 32 (put (put (put 0x82800000 d 15) a 9) i 0))
  | .aluiAndni d a i => some (BitVec.ofNat 32 (put (put (put 0x82a00000 d 15) a 9) i 0))
  | .aluiShli d a i => some (BitVec.ofNat 32 (put (put (put 0x82c00000 d 15) a 9) i 0))
  | .aluiShri d a i => some (BitVec.ofNat 32 (put (put (put 0x82e00000 d 15) a 9) i 0))
  | .aluiSari d a i => some (BitVec.ofNat 32 (put (put (put 0x83000000 d 15) a 9) i 0))
  | .aluiMuli d a i => some (BitVec.ofNat 32 (put (put (put 0x83200000 d 15) a 9) i 0))
  | .aluiMulhsi d a i => some (BitVec.ofNat 32 (put (put (put 0x83400000 d 15) a 9) i 0))
  | .aluiMulhzi d a i => some (BitVec.ofNat 32 (put (put (put 0x83600000 d 15) a 9) i 0))
  | .aluiMinsi d a i => some (BitVec.ofNat 32 (put (put (put 0x83800000 d 15) a 9) i 0))
  | .aluiMaxsi d a i => some (BitVec.ofNat 32 (put (put (put 0x83a00000 d 15) a 9) i 0))
  | .aluiMinzi d a i => some (BitVec.ofNat 32 (put (put (put 0x83c00000 d 15) a 9) i 0))
  | .aluiMaxzi d a i => some (BitVec.ofNat 32 (put (put (put 0x83e00000 d 15) a 9) i 0))
  | .divs d a b => some (BitVec.ofNat 32 (put (put (put 0x84000000 d 15) a 9) b 3))
  | .divz d a b => some (BitVec.ofNat 32 (put (put (put 0x84200000 d 15) a 9) b 3))
  | .rems d a b => some (BitVec.ofNat 32 (put (put (put 0x84400000 d 15) a 9) b 3))
  | .remz d a b => some (BitVec.ofNat 32 (put (put (put 0x84600000 d 15) a 9) b 3))
  | .alxClz d a => some (BitVec.ofNat 32 (put (put 0x84800000 d 15) a 9))
  | .alxPopc d a => some (BitVec.ofNat 32 (put (put 0x84a00000 d 15) a 9))
  | .alxBfx d a b => some (BitVec.ofNat 32 (put (put (put 0x84c00000 d 15) a 9) b 3))
  | .alxBfi d a b => some (BitVec.ofNat 32 (put (put (put 0x84e00000 d 15) a 9) b 3))
  | .cmps d a b c => some (BitVec.ofNat 32 (put (put (put (put 0x85000000 d 15) a 9) b 3) c 0))
  | .alxMov d a => some (BitVec.ofNat 32 (put (put 0x85200000 d 15) a 9))
  | .selnz d a b => some (BitVec.ofNat 32 (put (put (put 0x85400000 d 15) a 9) b 3))
  | .movw h d i => some (BitVec.ofNat 32 (put (put (put 0x86000000 h 23) d 17) i 1))
  | .movwk h d i => some (BitVec.ofNat 32 (put (put (put 0x86000001 h 23) d 17) i 1))
  | .brc c a b o => some (BitVec.ofNat 32 (put (put (put (put 0x88000000 c 21) a 15) b 9) o 0))
  | .br o => some (BitVec.ofNat 32 (put 0x8a000000 o 0))
  | .call o => some (BitVec.ofNat 32 (put 0x8c000000 o 0))
  | .jr a => some (BitVec.ofNat 32 (put 0x8e000000 a 9))
  | .callr a => some (BitVec.ofNat 32 (put 0x8e200000 a 9))
  | .ret => some (BitVec.ofNat 32 0x8e400000)
  | .srch m c v k n => some (BitVec.ofNat 32 (put (put (put (put (put 0x90000000 m 22) c 19) v 12) k 6) n 0))
  | .srcha m c v k n => some (BitVec.ofNat 32 (put (put (put (put (put 0x92000000 m 22) c 19) v 12) k 6) n 0))
  | .srchr m c v b n => some (BitVec.ofNat 32 (put (put (put (put (put 0x94000000 m 22) c 19) v 12) b 5) n 0))
  | .mand d a b => some (BitVec.ofNat 32 (put (put (put 0x96000000 d 18) a 15) b 12))
  | .mor d a b => some (BitVec.ofNat 32 (put (put (put 0x96200000 d 18) a 15) b 12))
  | .mxor d a b => some (BitVec.ofNat 32 (put (put (put 0x96400000 d 18) a 15) b 12))
  | .mandn d a b => some (BitVec.ofNat 32 (put (put (put 0x96600000 d 18) a 15) b 12))
  | .mnot d a => some (BitVec.ofNat 32 (put (put 0x96800000 d 18) a 15))
  | .mcopy d a => some (BitVec.ofNat 32 (put (put 0x96a00000 d 18) a 15))
  | .mclr d => some (BitVec.ofNat 32 (put 0x96c00000 d 18))
  | .mgetact d => some (BitVec.ofNat 32 (put 0x96e00000 d 18))
  | .cnt a s => some (BitVec.ofNat 32 (put (put 0x97000000 a 15) s 6))
  | .first a s => some (BitVec.ofNat 32 (put (put 0x97200000 a 15) s 6))
  | .next a s => some (BitVec.ofNat 32 (put (put 0x97400000 a 15) s 6))
  | .mpick d a s => some (BitVec.ofNat 32 (put (put (put 0x97600000 d 18) a 15) s 6))
  | .mset1 d s => some (BitVec.ofNat 32 (put (put 0x97800000 d 18) s 6))
  | .mclr1 d s => some (BitVec.ofNat 32 (put (put 0x97a00000 d 18) s 6))
  | .mload d s => some (BitVec.ofNat 32 (put (put 0x97c00000 d 18) s 6))
  | .mstore a s => some (BitVec.ofNat 32 (put (put 0x97c01000 a 15) s 6))
  | .push a => some (BitVec.ofNat 32 (put 0x98000000 a 15))
  | .pop => some (BitVec.ofNat 32 0x98200000)
  | .else_ a => some (BitVec.ofNat 32 (put 0x98400000 a 15))
  | .jarv d => some (BitVec.ofNat 32 (put 0x98600000 d 18))
  | .join a => some (BitVec.ofNat 32 (put 0x98800000 a 15))
  | .setact a => some (BitVec.ofNat 32 (put 0x98a00000 a 15))
  | .pushall => some (BitVec.ofNat 32 0x98c00000)
  | .rdepth s => some (BitVec.ofNat 32 (put 0x98e00000 s 6))
  | .get d n b h => some (BitVec.ofNat 32 (put (put (put (put 0x9a000000 d 15) n 9) b 3) h 0))
  | .put d n b h => some (BitVec.ofNat 32 (put (put (put (put 0x9a200000 d 15) n 9) b 3) h 0))
  | .getf d n h => some (BitVec.ofNat 32 (put (put (put 0x9a400000 d 15) n 9) h 0))
  | .blkacqW a => some (BitVec.ofNat 32 (put 0x9c000000 a 9))
  | .blkacqP d a => some (BitVec.ofNat 32 (put (put 0x9c200000 d 15) a 9))
  | .blkrel a => some (BitVec.ofNat 32 (put 0x9c400000 a 9))
  | .blkq d => some (BitVec.ofNat 32 (put 0x9c600000 d 15))
  | .pblk m n p => some (BitVec.ofNat 32 (put (put (put 0x9e000000 m 22) n 19) p 11))
  | .clause w a b l => some (BitVec.ofNat 32 (put (put (put (put 0xa0000000 w 13) a 9) b 5) l 0))
  | .lds z o d a i => some (BitVec.ofNat 32 (put (put (put (put (put 0xa2000000 z 23) o 21) d 15) a 9) i 0))
  | .sts z o d a i => some (BitVec.ofNat 32 (put (put (put (put (put 0xa4000000 z 23) o 22) d 15) a 9) i 0))
  | .atoms p d a b z o => some (BitVec.ofNat 32 (put (put (put (put (put (put 0xa6000000 p 21) d 15) a 9) b 3) z 2) o 0))
  | .fence => some (BitVec.ofNat 32 0xa8000000)
  | .fenceA => some (BitVec.ofNat 32 0xa8200000)
  | .fenceR => some (BitVec.ofNat 32 0xa8400000)
  | .ifence => some (BitVec.ofNat 32 0xa8600000)
  | .waitu c d a b w t => some (BitVec.ofNat 32 (put (put (put (put (put (put 0xaa000000 c 21) d 15) a 9) b 3) w 1) t 0))
  | .wacc a b => some (BitVec.ofNat 32 (put (put 0xac000000 a 9) b 3))
  | .waccq a b => some (BitVec.ofNat 32 (put (put 0xac200000 a 9) b 3))
  | .wqry d a => some (BitVec.ofNat 32 (put (put 0xac400000 d 15) a 9))
  | .wcfg a b => some (BitVec.ofNat 32 (put (put 0xac600000 a 9) b 3))
  | .wclr a => some (BitVec.ofNat 32 (put 0xac800000 a 9))
  | .wlen d a => some (BitVec.ofNat 32 (put (put 0xaca00000 d 15) a 9))
  | .redqs f d a b => some (BitVec.ofNat 32 (put (put (put (put 0xae000000 f 21) d 15) a 9) b 3))
  | .twaitany a => some (BitVec.ofNat 32 (put 0xb0000000 a 9))
  | .twaitall a => some (BitVec.ofNat 32 (put 0xb0200000 a 9))
  | .tfirst d a => some (BitVec.ofNat 32 (put (put 0xb0400000 d 15) a 9))
  | .tclr a => some (BitVec.ofNat 32 (put 0xb0600000 a 9))
  | .trdy d => some (BitVec.ofNat 32 (put 0xb0800000 d 15))
  | .hcopy t g n y x => some (BitVec.ofNat 32 (put (put (put (put (put 0xb2000000 t 19) g 13) n 8) y 1) x 0))
  | .hgath t g n y x => some (BitVec.ofNat 32 (put (put (put (put (put 0xb2000200 t 19) g 13) n 8) y 1) x 0))
  | .hscat t g n y x => some (BitVec.ofNat 32 (put (put (put (put (put 0xb2000400 t 19) g 13) n 8) y 1) x 0))
  | .hfill t g n x => some (BitVec.ofNat 32 (put (put (put (put 0xb2000600 t 19) g 13) n 8) x 0))
  | .hplane t g n y r f => some (BitVec.ofNat 32 (put (put (put (put (put (put 0xb2000800 t 19) g 13) n 8) y 4) r 3) f 0))
  | .hchain t g n => some (BitVec.ofNat 32 (put (put (put 0xb2000a00 t 19) g 13) n 8))
  | .hstop t n => some (BitVec.ofNat 32 (put (put 0xb2000c00 t 19) n 8))
  | .hresume t n => some (BitVec.ofNat 32 (put (put 0xb2000e00 t 19) n 8))
  | .hprog t g => some (BitVec.ofNat 32 (put (put 0xb2001000 t 19) g 13))
  | .mma t g f n => some (BitVec.ofNat 32 (put (put (put (put 0xb4000000 t 19) g 13) f 9) n 8))
  | .mzero t g n => some (BitVec.ofNat 32 (put (put (put 0xb4000c00 t 19) g 13) n 8))
  | .mring g => some (BitVec.ofNat 32 (put 0xb4000e00 g 13))
  | .mfence t n => some (BitVec.ofNat 32 (put (put 0xb4001000 t 19) n 8))
  | .mdetach => some (BitVec.ofNat 32 0xb4001200)
  | .tktake a => some (BitVec.ofNat 32 (put 0xb6000000 a 9))
  | .tkgive a => some (BitVec.ofNat 32 (put 0xb6200000 a 9))
  | .tkqry d a => some (BitVec.ofNat 32 (put (put 0xb6400000 d 15) a 9))
  | .publish a => some (BitVec.ofNat 32 (put 0xb8000000 a 9))
  | .pubqry d a => some (BitVec.ofNat 32 (put (put 0xb8200000 d 15) a 9))
  | .pubset a b => some (BitVec.ofNat 32 (put (put 0xb8400000 a 9) b 3))
  | .spawn a => some (BitVec.ofNat 32 (put 0xba000000 a 9))
  | .spawnNb d a => some (BitVec.ofNat 32 (put (put 0xba200000 d 15) a 9))
  | .spawng a => some (BitVec.ofNat 32 (put 0xba400000 a 9))
  | .joindec a => some (BitVec.ofNat 32 (put 0xba600000 a 9))
  | .depdec a => some (BitVec.ofNat 32 (put 0xba800000 a 9))
  | .launch d a => some (BitVec.ofNat 32 (put (put 0xbaa00000 d 15) a 9))
  | .barc a b => some (BitVec.ofNat 32 (put (put 0xbac00000 a 9) b 3))
  | .exit => some (BitVec.ofNat 32 0xbae00000)
  | .cred t g n r p => some (BitVec.ofNat 32 (put (put (put (put (put 0xbc000000 t 19) g 13) n 8) r 1) p 0))
  | .cgath t g n r p => some (BitVec.ofNat 32 (put (put (put (put (put 0xbc000200 t 19) g 13) n 8) r 1) p 0))
  | .cbcast t g n p => some (BitVec.ofNat 32 (put (put (put (put 0xbc000400 t 19) g 13) n 8) p 0))
  | .cstat t g => some (BitVec.ofNat 32 (put (put 0xbc000600 t 19) g 13))
  | .rdsys d n => some (BitVec.ofNat 32 (put (put 0xbe000000 d 15) n 3))
  | .wrsys d n => some (BitVec.ofNat 32 (put (put 0xbe200000 d 15) n 3))
  | .trap n => some (BitVec.ofNat 32 (put 0xbe400000 n 3))
  | .rte => some (BitVec.ofNat 32 0xbe600000)
  | .bkpt n => some (BitVec.ofNat 32 (put 0xbe800000 n 3))
  | .yield => some (BitVec.ofNat 32 0xbea00000)
  | .nop => some (BitVec.ofNat 32 0xbec00000)
  | .halt => some (BitVec.ofNat 32 0xbee00000)
  | .rspill a => some (BitVec.ofNat 32 (put 0xbf000000 a 9))
  | .rfill a => some (BitVec.ofNat 32 (put 0xbf200000 a 9))
  | .ctxsave a => some (BitVec.ofNat 32 (put 0xbf400000 a 9))
  | .ctxload a => some (BitVec.ofNat 32 (put 0xbf600000 a 9))
  | .add w d a b => some (BitVec.ofNat 32 (put (put (put (put 0x0 w 23) d 16) a 9) b 2))
  | .addi w d a i => some (BitVec.ofNat 32 (put (put (put (put 0x2000000 w 23) d 16) a 9) i 0))
  | .sub w d a b => some (BitVec.ofNat 32 (put (put (put (put 0x4000000 w 23) d 16) a 9) b 2))
  | .mul w d a b => some (BitVec.ofNat 32 (put (put (put (put 0x6000000 w 23) d 16) a 9) b 2))
  | .mulh w d a b m => some (BitVec.ofNat 32 (put (put (put (put (put 0x8000000 w 23) d 16) a 9) b 2) m 0))
  | .mad w d a b => some (BitVec.ofNat 32 (put (put (put (put 0xa000000 w 23) d 16) a 9) b 2))
  | .addsat w d a b m => some (BitVec.ofNat 32 (put (put (put (put (put 0xc000000 w 23) d 16) a 9) b 2) m 0))
  | .subsat w d a b m => some (BitVec.ofNat 32 (put (put (put (put (put 0xe000000 w 23) d 16) a 9) b 2) m 0))
  | .min w d a b m => some (BitVec.ofNat 32 (put (put (put (put (put 0x10000000 w 23) d 16) a 9) b 2) m 0))
  | .max w d a b m => some (BitVec.ofNat 32 (put (put (put (put (put 0x12000000 w 23) d 16) a 9) b 2) m 0))
  | .abs w d a => some (BitVec.ofNat 32 (put (put (put 0x14000000 w 23) d 16) a 9))
  | .neg w d a => some (BitVec.ofNat 32 (put (put (put 0x14000004 w 23) d 16) a 9))
  | .not w d a => some (BitVec.ofNat 32 (put (put (put 0x14000008 w 23) d 16) a 9))
  | .clz w d a => some (BitVec.ofNat 32 (put (put (put 0x1400000c w 23) d 16) a 9))
  | .popc w d a => some (BitVec.ofNat 32 (put (put (put 0x14000010 w 23) d 16) a 9))
  | .brev w d a => some (BitVec.ofNat 32 (put (put (put 0x14000014 w 23) d 16) a 9))
  | .mov w d a => some (BitVec.ofNat 32 (put (put (put 0x14000018 w 23) d 16) a 9))
  | .and w d a b => some (BitVec.ofNat 32 (put (put (put (put 0x16000000 w 23) d 16) a 9) b 2))
  | .or w d a b => some (BitVec.ofNat 32 (put (put (put (put 0x18000000 w 23) d 16) a 9) b 2))
  | .xor w d a b => some (BitVec.ofNat 32 (put (put (put (put 0x1a000000 w 23) d 16) a 9) b 2))
  | .andn w d a b => some (BitVec.ofNat 32 (put (put (put (put 0x1c000000 w 23) d 16) a 9) b 2))
  | .shl w d a b => some (BitVec.ofNat 32 (put (put (put (put 0x1e000000 w 23) d 16) a 9) b 2))
  | .shr w d a b => some (BitVec.ofNat 32 (put (put (put (put 0x20000000 w 23) d 16) a 9) b 2))
  | .sar w d a b => some (BitVec.ofNat 32 (put (put (put (put 0x22000000 w 23) d 16) a 9) b 2))
  | .shli w d a i => some (BitVec.ofNat 32 (put (put (put (put 0x24000000 w 23) d 16) a 9) i 0))
  | .shri w d a i => some (BitVec.ofNat 32 (put (put (put (put 0x26000000 w 23) d 16) a 9) i 0))
  | .sari w d a i => some (BitVec.ofNat 32 (put (put (put (put 0x28000000 w 23) d 16) a 9) i 0))
  | .movi w d i => some (BitVec.ofNat 32 (put (put (put 0x2a000000 w 23) d 16) i 0))
  | .bcast w d s => some (BitVec.ofNat 32 (put (put (put 0x2c000000 w 23) d 16) s 3))
  | .cmp w d a b m => some (BitVec.ofNat 32 (put (put (put (put (put 0x2e000000 w 23) d 16) a 9) b 2) m 0))
  | .cmpz w d a b m => some (BitVec.ofNat 32 (put (put (put (put (put 0x30000000 w 23) d 16) a 9) b 2) m 0))
  | .fcmp w d a b m => some (BitVec.ofNat 32 (put (put (put (put (put 0x32000000 w 23) d 16) a 9) b 2) m 0))
  | .bfx w d a b m => some (BitVec.ofNat 32 (put (put (put (put (put 0x34000000 w 23) d 16) a 9) b 2) m 0))
  | .bfi w d a b => some (BitVec.ofNat 32 (put (put (put (put 0x36000000 w 23) d 16) a 9) b 2))
  | .pack w d a b m => some (BitVec.ofNat 32 (put (put (put (put (put 0x38000000 w 23) d 16) a 9) b 2) m 0))
  | .unpk w d a m => some (BitVec.ofNat 32 (put (put (put (put 0x3a000000 w 23) d 16) a 9) m 0))
  | .andi w d a i => some (BitVec.ofNat 32 (put (put (put (put 0x3c000000 w 23) d 16) a 9) i 0))
  | .xori w d a i => some (BitVec.ofNat 32 (put (put (put (put 0x3e000000 w 23) d 16) a 9) i 0))
  | .fadd w d a b m => some (BitVec.ofNat 32 (put (put (put (put (put 0x40000000 w 23) d 16) a 9) b 2) m 0))
  | .fsub w d a b m => some (BitVec.ofNat 32 (put (put (put (put (put 0x42000000 w 23) d 16) a 9) b 2) m 0))
  | .fmul w d a b m => some (BitVec.ofNat 32 (put (put (put (put (put 0x44000000 w 23) d 16) a 9) b 2) m 0))
  | .ffma w d a b m => some (BitVec.ofNat 32 (put (put (put (put (put 0x46000000 w 23) d 16) a 9) b 2) m 0))
  | .fmin w d a b => some (BitVec.ofNat 32 (put (put (put (put 0x48000000 w 23) d 16) a 9) b 2))
  | .fmax w d a b => some (BitVec.ofNat 32 (put (put (put (put 0x4a000000 w 23) d 16) a 9) b 2))
  | .fabs w d a => some (BitVec.ofNat 32 (put (put (put 0x4c000000 w 23) d 16) a 9))
  | .fneg w d a => some (BitVec.ofNat 32 (put (put (put 0x4c000004 w 23) d 16) a 9))
  | .frcp w d a => some (BitVec.ofNat 32 (put (put (put 0x4c000008 w 23) d 16) a 9))
  | .frsq w d a => some (BitVec.ofNat 32 (put (put (put 0x4c00000c w 23) d 16) a 9))
  | .fsqrt w d a m => some (BitVec.ofNat 32 (put (put (put (put 0x4c000010 w 23) d 16) a 9) m 0))
  | .fex2 w d a => some (BitVec.ofNat 32 (put (put (put 0x4c000014 w 23) d 16) a 9))
  | .flg2 w d a => some (BitVec.ofNat 32 (put (put (put 0x4c000018 w 23) d 16) a 9))
  | .fsin w d a => some (BitVec.ofNat 32 (put (put (put 0x4c00001c w 23) d 16) a 9))
  | .fcos w d a => some (BitVec.ofNat 32 (put (put (put 0x4c000020 w 23) d 16) a 9))
  | .fflr w d a => some (BitVec.ofNat 32 (put (put (put 0x4c000024 w 23) d 16) a 9))
  | .fceil w d a => some (BitVec.ofNat 32 (put (put (put 0x4c000028 w 23) d 16) a 9))
  | .ftrunc w d a => some (BitVec.ofNat 32 (put (put (put 0x4c00002c w 23) d 16) a 9))
  | .frint w d a m => some (BitVec.ofNat 32 (put (put (put (put 0x4c000030 w 23) d 16) a 9) m 0))
  | .cvt v a s x t m => some (BitVec.ofNat 32 (put (put (put (put (put (put 0x4e000000 v 16) a 9) s 6) x 3) t 2) m 0))
  | .qscale b q d a v => some (BitVec.ofNat 32 (put (put (put (put (put 0x50000000 b 23) q 20) d 13) a 6) v 0))
  | .qscale8 b q d a v => some (BitVec.ofNat 32 (put (put (put (put (put 0x52000000 b 22) q 20) d 13) a 6) v 0))
  | .mrd w d a t => some (BitVec.ofNat 32 (put (put (put (put 0x57000000 w 23) d 16) a 9) t 2))
  | .mwr w d a t => some (BitVec.ofNat 32 (put (put (put (put 0x59000000 w 23) d 16) a 9) t 2))
  | .spec w d c => some (BitVec.ofNat 32 (put (put (put 0x5e000000 w 23) d 16) c 2))
  | .shfl w d a b m => some (BitVec.ofNat 32 (put (put (put (put (put 0x60000000 w 23) d 16) a 9) b 2) m 0))
  | .redl w d a p m => some (BitVec.ofNat 32 (put (put (put (put (put 0x62000000 w 23) d 16) a 9) p 2) m 0))
  | .scanl w d a p m => some (BitVec.ofNat 32 (put (put (put (put (put 0x64000000 w 23) d 16) a 9) p 2) m 0))
  | .ld z d a r f => some (BitVec.ofNat 32 (put (put (put (put (put 0x70000000 z 23) d 16) a 9) r 6) f 0))
  | .st z d a r f => some (BitVec.ofNat 32 (put (put (put (put (put 0x72000000 z 23) d 16) a 9) r 7) f 0))
  | .ldv z d a f => some (BitVec.ofNat 32 (put (put (put (put 0x74000000 z 23) d 16) a 9) f 0))
  | .stv z d a f => some (BitVec.ofNat 32 (put (put (put (put 0x76000000 z 23) d 16) a 9) f 0))
  | .atom z d a p r => some (BitVec.ofNat 32 (put (put (put (put (put 0x79000000 z 23) d 16) a 9) p 5) r 3))
  | .redq w d a b => some (BitVec.ofNat 32 (put (put (put (put 0x7b000000 w 23) d 16) a 9) b 2))
  | .lexit => some (BitVec.ofNat 32 0x7c000000)
  | .branchResolution _ => none
  | .longLatencyLanding _ _ => none
  | .storePerformed _ => none
  | .sliceAnswer _ _ => none
  | .filterSlowPathWrite _ => none
  | .crewWakeResume _ => none
  | .deadlineSweep => none
  | .redqContribution _ _ => none
  | .trapEntry _ => none
  | .placementDecision _ => none
  | .recordCompletion _ => none
  | .laneGangTimeout => none
  | .hoistChunkDone _ _ => none
  | .ringSlotAdmit _ _ => none
  | .stripPassGrant _ => none
  | .promotionEnd _ _ => none
  | .publishFlip _ => none
  | .shootdownDone _ => none
  | .contextSaveDone => none
  | .teardown _ _ _ => none
  | .teardownGraceExpiry _ => none
  | .collectiveDataArrival _ _ _ _ _ => none
  | .collTimeout _ => none
  | .flitReceive _ _ => none
  | .flitNak _ _ => none
  | .heartTimer => none
  | .heart _ _ _ => none
  | .lower _ _ _ => none
  | .ceil _ _ _ _ => none
  | .breach _ _ => none
  | .propose _ _ _ => none
  | .grant _ _ => none
  | .deny _ _ _ => none
  | .joinMsg _ _ => none
  | .leave _ _ => none
  | .view _ _ _ _ _ => none
  | .unknownPacerType _ _ => none
  | .lapApply => none
  | .peerSilent _ => none
  | .emergencyTrip => none
  | .tripRecheck _ => none
  | .powerSample _ _ => none
  | .intervalEnd _ => none
  | .cooldownStep _ => none
  | .ageingMeasure _ _ _ => none
  | .hbmScrub _ _ => none
  | .kick _ _ _ => none
  | .hostQueueConsume _ _ => none
  | .windowBWrite _ _ _ => none
  | .windowBRead _ _ _ => none
  | .fetchadd _ _ _ _ => none
  | .swap _ _ _ _ => none
  | .cas _ _ _ _ _ => none
  | .shoot _ _ => none
  | .reqkick _ _ => none
  | .mailboxLoad _ => none
  | .mailboxTear _ => none
  | .mailboxLimit _ => none
  | .mailboxPool _ => none
  | .mailboxStrict _ => none
  | .mailboxEnrol _ => none
  | .mailboxFuse _ => none
  | .mailboxRoute _ => none
  | .mailboxUnknownOp _ => none
  | .fusereq _ => none
  | .fuseBlown => none
  | .measgo _ _ => none
  | .romovlClear _ => none
  | .resetRelease => none
  | .trnctl _ _ => none
  | .hbmTrainingDone _ _ _ _ _ _ => none
  | .fwlimit _ _ => none
  | .paceen _ _ => none
  | .portEn _ _ => none
  | .portRetrain _ => none
  | .signalDetect _ => none
  | .detectTimeout _ => none
  | .equaliseDone _ => none
  | .alignLock _ => none
  | .identExchange _ _ _ => none
  | .retrainTimeout _ => none
  | .registerWrite _ _ _ => none
  | .lossOfPower => none
  | .enable _ _ _ => none
  | .mben _ _ => none

end Sys2Proof
end

