-- ==== Sys2Proof/Machine/Float.lean ====
section
/-!
DEFINITION. Number formats, rounding and exact arithmetic of spec/06_number_formats.md: the IEEE formats of R79 to
R83, E4M3 (R84, R85) and the NB4 elements (R86).

A finite value is a sign, a significand `m` and an exponent `e`, standing for m * 2^e. Results are formed exactly, or
exactly but for a remainder below the last bit (`sticky`), and rounded once.
-/

namespace Sys2Proof.Machine

/-- A binary format: exponent bits and trailing significand bits (R79). -/
structure FFmt where
  ebits : Nat
  mbits : Nat
deriving DecidableEq, Repr

def bf16 : FFmt := ⟨8, 7⟩
def fp16 : FFmt := ⟨5, 10⟩
def fp32 : FFmt := ⟨8, 23⟩
def fp64 : FFmt := ⟨11, 52⟩

/-- The format of a w field of a floating-point instruction (R27). -/
def fmtOf (w : BitVec 2) : FFmt :=
  if w.toNat = 0 then bf16 else if w.toNat = 1 then fp16 else if w.toNat = 2 then fp32 else fp64

/-- The width of a format in bits. -/
def FFmt.width (f : FFmt) : Nat := 1 + f.ebits + f.mbits

/-- The exponent bias. -/
def FFmt.bias (f : FFmt) : Int := 2 ^ (f.ebits - 1) - 1

/-- The least exponent of a normal value. -/
def FFmt.emin (f : FFmt) : Int := 1 - f.bias

/-- The exponent field of infinities and NaNs. -/
def FFmt.emax (f : FFmt) : Nat := 2 ^ f.ebits - 1

/-- The canonical NaN (R79, R81). -/
def FFmt.nan (f : FFmt) : Nat := f.emax * 2 ^ f.mbits + 2 ^ (f.mbits - 1)

/-- An infinity. -/
def FFmt.inf (f : FFmt) (neg : Bool) : Nat := (if neg then 2 ^ (f.ebits + f.mbits) else 0) + f.emax * 2 ^ f.mbits

/-- A zero. -/
def FFmt.zero (f : FFmt) (neg : Bool) : Nat := if neg then 2 ^ (f.ebits + f.mbits) else 0

/-- The largest finite value, with a sign. -/
def FFmt.largest (f : FFmt) (neg : Bool) : Nat := f.zero neg + f.emax * 2 ^ f.mbits - 1

/-- The value of a floating-point pattern. -/
inductive FVal where
  | nan (signalling : Bool)
  | inf (neg : Bool)
  | num (neg : Bool) (m : Nat) (e : Int)
deriving DecidableEq, Repr

/-- The value of a pattern of a format (R79, R81). -/
def FFmt.value (f : FFmt) (x : Nat) : FVal :=
  let frac := x % 2 ^ f.mbits
  let ex := x / 2 ^ f.mbits % 2 ^ f.ebits
  let neg := x / 2 ^ (f.ebits + f.mbits) % 2 == 1
  if ex = f.emax then (if frac = 0 then .inf neg else .nan (decide (frac < 2 ^ (f.mbits - 1))))
  else if ex = 0 then .num neg frac (f.emin - f.mbits)
  else .num neg (2 ^ f.mbits + frac) (f.emin - f.mbits + (ex - 1 : Nat))

/-- A result with the XSTAT flags it sets: NV 16, DZ 8, OF 4, UF 2, NX 1 (R82, R308). -/
structure FRes where
  bits  : Nat
  flags : Nat
deriving DecidableEq, Repr

def flagNV : Nat := 16
def flagDZ : Nat := 8
def flagOF : Nat := 4
def flagUF : Nat := 2
def flagNX : Nat := 1

/-- Whether a significand `n` with a remainder is rounded up: `half` compares the remainder with one half, and
`inexact` says whether there is one (R80). -/
def roundsUp (mode : BitVec 2) (neg : Bool) (n : Nat) (half : Ordering) (inexact : Bool) : Bool :=
  match mode.toNat with
  | 0 => match half with
    | .gt => true
    | .eq => n % 2 == 1
    | .lt => false
  | 1 => false
  | 2 => inexact && !neg
  | _ => inexact && neg

/-- The quotient of `m` by 2^shift rounded by a mode, and whether it was inexact. A shift of 0 or less is exact but for
the sticky remainder, which lies below half a unit. -/
def roundShift (mode : BitVec 2) (neg : Bool) (m : Nat) (sticky : Bool) (shift : Int) : Nat × Bool :=
  let m2 := 2 * m + (if sticky then 1 else 0)
  if shift ≤ 0 then
    let n := m * 2 ^ (-shift).toNat
    (n + (if roundsUp mode neg n .lt sticky then 1 else 0), sticky)
  else
    let k := shift.toNat + 1
    let n := m2 / 2 ^ k
    let r := m2 % 2 ^ k
    let inexact := r != 0
    (n + (if roundsUp mode neg n (compare (2 * r) (2 ^ k)) inexact then 1 else 0), inexact)

/-- The exponent of the leading bit of m * 2^e. -/
def topExp (m : Nat) (e : Int) : Int := e + m.log2

/-- `RoundToFormat` of (-1)^neg * m * 2^e, with a remainder below the last bit when `sticky` holds (R80). A zero
keeps its sign. -/
def FFmt.round (f : FFmt) (mode : BitVec 2) (neg : Bool) (m : Nat) (e : Int) (sticky : Bool) : FRes :=
  if m = 0 && !sticky then ⟨f.zero neg, 0⟩
  else
    let top := topExp m e
    let q := max top f.emin - f.mbits
    let (n, inexact) := roundShift mode neg m sticky (q - e)
    -- tininess after rounding: the result with an unbounded exponent lies below the least normal value
    let (n1, _) := roundShift mode neg m sticky (top - f.mbits - e)
    let tiny := decide (top < f.emin) && !(top + 1 == f.emin && n1 == 2 ^ (f.mbits + 1))
    let n' := if n = 2 ^ (f.mbits + 1) then 2 ^ f.mbits else n
    let q' := if n = 2 ^ (f.mbits + 1) then q + 1 else q
    let big := decide (2 ^ f.mbits ≤ n') && decide (f.bias < q' + f.mbits)
    if big then
      let toInf := match mode.toNat with
        | 0 => true
        | 1 => false
        | 2 => !neg
        | _ => neg
      ⟨if toInf then f.inf neg else f.largest neg, flagOF + flagNX⟩
    else
      let body := if n' < 2 ^ f.mbits then n' else ((q' + f.mbits + f.bias).toNat - 1) * 2 ^ f.mbits + n'
      ⟨f.zero neg + body, (if tiny && inexact then flagUF else 0) + (if inexact then flagNX else 0)⟩

/-- The exact sum of two finite values, as a signed significand and an exponent. -/
def addExact (na : Bool) (ma : Nat) (ea : Int) (nb : Bool) (mb : Nat) (eb : Int) : Int × Int :=
  let e := min ea eb
  let a : Int := ma * 2 ^ (ea - e).toNat
  let b : Int := mb * 2 ^ (eb - e).toNat
  ((if na then -a else a) + (if nb then -b else b), e)

/-- A signalling operand sets NV (R81). -/
def nvOf (signalling : Bool) : Nat := if signalling then flagNV else 0

/-- The value is a signalling NaN. -/
def FVal.isSig : FVal → Bool
  | .nan sig => sig
  | _ => false

/-- The value is a NaN. -/
def FVal.isNan : FVal → Bool
  | .nan _ => true
  | _ => false

/-- A NaN of a format made canonical (R81). -/
def FFmt.canon (f : FFmt) (x : Nat) : Nat := if (f.value x).isNan then f.nan else x

/-- A result as it is written: a NaN that met no operation is written as the canonical one, and sets NV if it is signalling
(R81). -/
def FFmt.written (f : FFmt) (r : FRes) : FRes :=
  match f.value r.bits with
  | .nan sig => ⟨f.nan, r.flags ||| nvOf sig⟩
  | _ => r

/-- The value with its sign changed. -/
def FVal.neg : FVal → FVal
  | .nan s => .nan s
  | .inf n => .inf (!n)
  | .num n m e => .num (!n) m e

/-- The rounded sum of two values (R80, R81, R116). -/
def FFmt.sum (f : FFmt) (mode : BitVec 2) (a b : FVal) : FRes :=
  if a.isNan || b.isNan then ⟨f.nan, nvOf (a.isSig || b.isSig)⟩
  else match a, b with
    | .inf na, .inf nb => if na = nb then ⟨f.inf na, 0⟩ else ⟨f.nan, flagNV⟩
    | .inf na, _ => ⟨f.inf na, 0⟩
    | _, .inf nb => ⟨f.inf nb, 0⟩
    | .num na ma ea, .num nb mb eb =>
      let (x, e) := addExact na ma ea nb mb eb
      if x = 0 then ⟨f.zero (if na = nb then na else mode.toNat == 3), 0⟩
      else f.round mode (decide (x < 0)) x.natAbs e false
    | _, _ => ⟨f.nan, 0⟩

/-- The exact product of two values that are not both special, or a NaN: the value and the flags. -/
def FVal.mul (a b : FVal) : FVal × Nat :=
  if a.isNan || b.isNan then (.nan false, nvOf (a.isSig || b.isSig))
  else match a, b with
    | .inf na, .inf nb => (.inf (na != nb), 0)
    | .inf na, .num nb m _ => if m = 0 then (.nan false, flagNV) else (.inf (na != nb), 0)
    | .num na m _, .inf nb => if m = 0 then (.nan false, flagNV) else (.inf (na != nb), 0)
    | .num na ma ea, .num nb mb eb => (.num (na != nb) (ma * mb) (ea + eb), 0)
    | _, _ => (.nan false, 0)

/-- A value rounded to a format (R80). -/
def FFmt.ofVal (f : FFmt) (mode : BitVec 2) : FVal → FRes
  | .nan sig => ⟨f.nan, nvOf sig⟩
  | .inf neg => ⟨f.inf neg, 0⟩
  | .num neg m e => f.round mode neg m e false

/-- FADD (R116). -/
def FFmt.add (f : FFmt) (mode : BitVec 2) (a b : Nat) : FRes := f.sum mode (f.value a) (f.value b)

/-- FSUB (R116). -/
def FFmt.sub (f : FFmt) (mode : BitVec 2) (a b : Nat) : FRes := f.sum mode (f.value a) (f.value b).neg

/-- FMUL (R116). -/
def FFmt.mul (f : FFmt) (mode : BitVec 2) (a b : Nat) : FRes :=
  let (x, fl) := (f.value a).mul (f.value b)
  let r := f.ofVal mode x
  ⟨r.bits, r.flags ||| fl⟩

/-- FFMA: a * b + d, rounded once (R116). -/
def FFmt.fma (f : FFmt) (mode : BitVec 2) (a b d : Nat) : FRes :=
  let (x, fl) := (f.value a).mul (f.value b)
  let r := f.sum mode x (f.value d)
  ⟨r.bits, r.flags ||| fl⟩

/-- The order of two values that are not NaN, -0 and +0 being equal. -/
def FVal.cmp (a b : FVal) : Ordering :=
  match a, b with
  | .inf na, .inf nb => compare (if na then 0 else 1 : Nat) (if nb then 0 else 1)
  | .inf na, _ => if na then .lt else .gt
  | _, .inf nb => if nb then .gt else .lt
  | .num na ma ea, .num nb mb eb => compare (addExact na ma ea (!nb) mb eb).1 0
  | _, _ => .eq

/-- The sign of a value that is not NaN. -/
def FVal.isNeg : FVal → Bool
  | .nan _ => false
  | .inf n => n
  | .num n _ _ => n

/-- a is less than b, with -0 less than +0 (R81). -/
def FVal.below (a b : FVal) : Bool :=
  match a.cmp b with
  | .lt => true
  | .gt => false
  | .eq => a.isNeg && !b.isNeg

/-- minimumNumber and maximumNumber of two patterns (R81, R117). -/
def FFmt.minmax (f : FFmt) (wantMax : Bool) (a b : Nat) : FRes :=
  let va := f.value a
  let vb := f.value b
  let fl := nvOf (va.isSig || vb.isSig)
  if va.isNan && vb.isNan then ⟨f.nan, fl⟩
  else if va.isNan then ⟨b, fl⟩
  else if vb.isNan then ⟨a, fl⟩
  else if vb.below va != wantMax then ⟨b, fl⟩
  else ⟨a, fl⟩

/-- FCMP: md 0 EQ, 1 NE, 2 LT, 3 LE; whether the relation holds, and the flags (R118). -/
def FFmt.rel (f : FFmt) (md : BitVec 2) (a b : Nat) : Bool × Nat :=
  let va := f.value a
  let vb := f.value b
  if va.isNan || vb.isNan then
    (md.toNat == 1, if 2 ≤ md.toNat then flagNV else nvOf (va.isSig || vb.isSig))
  else
    let o := va.cmp vb
    (match md.toNat with
     | 0 => o == .eq
     | 1 => o != .eq
     | 2 => o == .lt
     | _ => o != .gt, 0)

/-- A finite value rounded to an integer by a mode, and whether it was inexact. -/
def roundInt (mode : BitVec 2) (neg : Bool) (m : Nat) (e : Int) : Nat × Bool := roundShift mode neg m false (-e)

/-- An integral rounding that keeps the sign (R96, R119). -/
def FFmt.integral (f : FFmt) (mode : BitVec 2) (setsNX : Bool) (x : Nat) : FRes :=
  match f.value x with
  | .nan sig => ⟨f.nan, nvOf sig⟩
  | .inf neg => ⟨f.inf neg, 0⟩
  | .num neg m e =>
    let (n, inexact) := roundInt mode neg m e
    ⟨(f.round 0 neg n 0 false).bits, if setsNX && inexact then flagNX else 0⟩

/-- FABS and FNEG; a NaN gives the canonical NaN (R119). -/
def FFmt.signOp (f : FFmt) (negate : Bool) (x : Nat) : FRes :=
  match f.value x with
  | .nan sig => ⟨f.nan, nvOf sig⟩
  | _ =>
    let mag := x % 2 ^ (f.ebits + f.mbits)
    ⟨if negate && x / 2 ^ (f.ebits + f.mbits) % 2 == 0 then f.zero true + mag else mag, 0⟩

/-! ### Division and square root, exact but for a remainder -/

/-- The integer square root of `n` below 2^(k+1), bit by bit from bit `k`, above the part `r` found. -/
def isqrtFrom (n : Nat) : Nat → Nat → Nat
  | 0, r => if (r + 1) * (r + 1) ≤ n then r + 1 else r
  | k + 1, r => isqrtFrom n k (if (r + 2 ^ (k + 1)) * (r + 2 ^ (k + 1)) ≤ n then r + 2 ^ (k + 1) else r)

/-- The integer square root. -/
def isqrt (n : Nat) : Nat := isqrtFrom n (n.log2 / 2 + 1) 0

/-- The square root of m * 2^e to at least `p` bits: significand, exponent, sticky. -/
def sqrtParts (m : Nat) (e : Int) (p : Nat) : Nat × Int × Bool :=
  let odd := e % 2 != 0
  let m1 := if odd then 2 * m else m
  let e1 := if odd then e - 1 else e
  let x := m1 * 4 ^ p
  let r := isqrt x
  (r, e1 / 2 - p, r * r != x)

/-- The reciprocal of m * 2^e to at least `p` bits. -/
def rcpParts (m : Nat) (e : Int) (p : Nat) : Nat × Int × Bool :=
  let k := m.log2 + p
  (2 ^ k / m, -e - k, 2 ^ k % m != 0)

/-- The reciprocal square root of m * 2^e to at least `p` bits. -/
def rsqrtParts (m : Nat) (e : Int) (p : Nat) : Nat × Int × Bool :=
  let odd := e % 2 != 0
  let m1 := if odd then 2 * m else m
  let e1 := if odd then e - 1 else e
  let k := m1.log2 + p
  let r := isqrt (4 ^ k / m1)
  (r, -(e1 / 2) - k, r * r * m1 != 4 ^ k)

/-! ### E4M3 and NB4 (R84 to R87) -/

/-- The value of an E4M3 byte (R84). -/
def e4m3Value (x : Nat) : FVal :=
  let m := x % 8
  let e := x / 8 % 16
  let neg := x / 128 % 2 == 1
  if e = 15 && m == 7 then .nan false
  else if e = 0 then .num neg m (-9)
  else .num neg (8 + m) ((e : Int) - 10)

/-- Conversion to E4M3 (R85). -/
def toE4m3 (sat : Bool) (x : FVal) : FRes :=
  match x with
  | .nan sig => ⟨0x7F, nvOf sig⟩
  | .inf neg => ⟨if sat then (if neg then 0xFE else 0x7E) else 0x7F, flagNV⟩
  | .num neg m e =>
    if m = 0 then ⟨if neg then 0x80 else 0, 0⟩
    else
      let q := max (topExp m e) (-6) - 3
      let (n, inexact) := roundShift 0 neg m false (q - e)
      let n' := if n = 16 then 8 else n
      let q' := if n = 16 then q + 1 else q
      let sign := if neg then 128 else 0
      if decide (8 ≤ n') && (decide (5 < q') || (q' == 5 && n' == 15)) then
        ⟨if sat then sign + 0x7E else 0x7F, flagOF + flagNX⟩
      else
        let body := if n' < 8 then n' else ((q' + 10).toNat - 1) * 8 + n'
        ⟨sign + body, (if inexact && decide (n' < 8) then flagUF else 0) + (if inexact then flagNX else 0)⟩

/-- The value of an NB4 element: nibble, shared exponent, micro-exponent (R86). -/
def nb4Value (nib e mu : Nat) : FVal :=
  if e = 255 then .nan false
  else if nib % 8 = 0 then .num false 0 0
  else .num (nib / 8 % 2 == 1) (nib % 8) ((e : Int) - 127 - mu)

/-! ### Conversions (R83, R120 to R122) -/

/-- What a conversion reads: an integer or a floating-point value. -/
inductive CvtVal where
  | int (x : Int)
  | flt (x : FVal)
deriving DecidableEq, Repr

/-- The width of a conversion format by its code (R121). -/
def cvtWidth : Nat → Nat
  | 0 => 32 | 1 => 32 | 2 => 16 | 3 => 16 | 4 => 32 | 5 => 64 | 6 => 8 | _ => 64

/-- The IEEE format of a conversion code 2 to 5. -/
def cvtFmt : Nat → FFmt
  | 2 => bf16 | 3 => fp16 | 4 => fp32 | _ => fp64

/-- The value of a source element (R40, R122). -/
def cvtDecode (code x : Nat) : CvtVal :=
  match code with
  | 0 => .int (if x < 2 ^ 31 then (x : Int) else (x : Int) - 2 ^ 32)
  | 1 => .int x
  | 7 => .int (if x < 2 ^ 63 then (x : Int) else (x : Int) - 2 ^ 64)
  | 6 => .flt (e4m3Value x)
  | c => .flt ((cvtFmt c).value x)

/-- The bounds of an integer format. -/
def intBounds : Nat → Int × Int
  | 0 => (-(2 ^ 31), 2 ^ 31 - 1)
  | 1 => (0, 2 ^ 32 - 1)
  | _ => (-(2 ^ 63), 2 ^ 63 - 1)

/-- An integer brought to bounds, as a pattern of a width. -/
def clampTo (b : Int × Int) (w : Nat) (x : Int) : Nat := ((min b.2 (max b.1 x)) % 2 ^ w).toNat

/-- `Convert` of R83 and R85: destination code, rounding and saturate bit. Where a floating value goes to an integer, R83
leaves two points open, and the model chooses (DESIGN CHOICE, log 67): whether it lies out of range is judged after its
rounding, and a value that is out of range and inexact sets NV alone. -/
def convert (dst : Nat) (mode : BitVec 2) (sat : Bool) (x : CvtVal) : FRes :=
  let isInt := dst == 0 || dst == 1 || dst == 7
  match x with
  | .int x =>
    if isInt then
      ⟨if sat then clampTo (intBounds dst) (cvtWidth dst) x else (x % 2 ^ cvtWidth dst).toNat, 0⟩
    else if dst = 6 then toE4m3 sat (.num (decide (x < 0)) x.natAbs 0)
    else (cvtFmt dst).round mode (decide (x < 0)) x.natAbs 0 false
  | .flt x =>
    if isInt then
      match x with
      | .nan _ => ⟨0, flagNV⟩
      | .inf neg => ⟨clampTo (intBounds dst) (cvtWidth dst) (if neg then (intBounds dst).1 else (intBounds dst).2), flagNV⟩
      | .num neg m e =>
        let (n, inexact) := roundInt mode neg m e
        let y : Int := if neg then -(n : Int) else n
        let out := decide (y < (intBounds dst).1) || decide ((intBounds dst).2 < y)
        ⟨clampTo (intBounds dst) (cvtWidth dst) y, if out then flagNV else if inexact then flagNX else 0⟩
    else if dst = 6 then toE4m3 sat x
    else
      let f := cvtFmt dst
      let r := f.ofVal mode x
      match x with
      | .num neg _ _ => if sat && r.flags &&& flagOF != 0 then ⟨f.largest neg, r.flags⟩ else r
      | _ => r

end Sys2Proof.Machine
end

