-- ==== Sys2Proof/Config.lean ====
section
/-!
DEFINITION. What the part fixes and the manual does not give, and the free values.

Every constant here is opaque: nothing can be proved of its value. A free value that may differ from one use to
the next is a function of the counter `State.fresh` (log 4).
-/

namespace Sys2Proof.Config

/-- The mask ROM of die `die`, byte `off` (R362 names it and gives no contents; log 6). -/
opaque maskRom (die off : Nat) : Byte

/-- The foreman trap handler in the mask ROM, FTVEC at reset (R364; log 6). -/
opaque romHandler : Word

/-- The nanoseconds between two steps of the model (log 7). -/
opaque elapsedNs (fresh : Nat) : Nat

/-- The core cycles between two steps of the model (log 7). -/
opaque elapsedCycles (fresh : Nat) : Nat

/-- A choice the manual leaves open, as a number to be reduced to the choices there are (log 4). -/
opaque freePick (fresh : Nat) : Nat

/-- A byte the manual calls unspecified (log 4). -/
opaque freeByte (fresh i : Nat) : Byte

/-- The contents of an accumulator element after its tile moved away or its region was torn down (R306, R322). -/
opaque freeTile (fresh i : Nat) : BitVec 32

/-- The CRC-64 of a flit's bytes 0 to 239, as bytes 240 to 247 carry it (R333 gives no polynomial; log 17). -/
opaque flitCrc (bytes : List Byte) : BitVec 64

/-- The FEC parity bytes 248 to 255 over bytes 0 to 247 of a flit (R333 gives no code; log 17). -/
opaque flitParity (bytes : List Byte) : BitVec 64

/-- The device number fused at manufacture (R329). -/
opaque deviceNumber : Word

/-- The part number of the identity block (R329). -/
opaque partNumber : Word

/-- KEYHASH0 as fused at manufacture, the SHA-256 of Huwald's modulus (R364). -/
opaque vendorKeyHash : BitVec 256

/-- The enrolment strap sensed at reset (R364). -/
opaque enrolStrap : Bool

/-- EOLDAYS before the first ageing measurement (R308). -/
opaque eolDays : BitVec 32

/-- The loader image in the package's serial flash (spec/28_bring_up.md, the stages; log 79). -/
opaque flashLoader : List Byte

/-- The main image (log 79). -/
opaque flashMain : List Byte

/-- Where the loader begins to look for room for the text of the `n`-th code object of a region (R383; log 18). -/
opaque textBase (region : Word) (n : Nat) : Nat

/-- Where it begins to look for room for the data section (R383; log 18). -/
opaque dataBase (region : Word) (n : Nat) : Nat

/-- Where it begins to look for room for the spawn-tree cells of the launch records (R380; log 18). -/
opaque treeCells (region : Word) (n : Nat) : Nat

/-- Where it begins to look for a physical page for the page at virtual address `va` (R383; log 18). -/
opaque loadPage (asn va : Nat) : Nat

/-- Where it begins to look for a physical page for a table at a level of the walk (R383; log 18). -/
opaque loadTable (asn lvl va : Nat) : Nat

end Sys2Proof.Config
end

