-- ==== Sys2Proof/Machine/State.lean ====
section
/-!
DEFINITION. The state of the HW-TG940, as plain data, and the state right after reset.

Every piece of state the manual names is here; INVENTORY.md lists each with its rule. The crew whose word runs and
its gallery stand in the two focus fields `c` and `g`; all the other crews and galleries stand in lists (log 3).
-/

namespace Sys2Proof.Machine

/-- A map from numbers to values, as its entries in strictly rising order of key. A key that is not listed holds the
default of the map, and no listed entry holds that default, so equal maps are equal lists. -/
abbrev Sparse (α : Type) := List (Nat × α)

/-! ### Crews -/

/-- A register that a long-latency operation can mark outstanding: scalar, thread register or mark (R15, R294). -/
inductive Reg where
  | s (n : BitVec 6)
  | v (n : BitVec 7)
  | m (n : BitVec 3)
deriving DecidableEq, Repr

/-- The trap and fault causes of R294 and R338, and any other code that software has written in TRAPCAUSE (R316). -/
inductive Cause where
  | illegal | priv | rstkOvf | rstkUnf | blkFault | tokenFault | xlate | align | perm | depcntUnderflow | seqDup
  | hazard | eccUncorr | mxForm | spawnRefused | trap | bkpt | clauseForm | pblkForm | preempt | relayCfg | srchMask
  | paceSilent | collTimeout | double | ctxLost | codeRefused | collForm
  | other (code : BitVec 8)
deriving DecidableEq, Repr

/-- A trap about to be taken: its cause, TRAPPC, TRAPADDR and TRAPINFO (R288), and whether the word at TRAPPC is a
`CLAUSE` header (R293); and for a deferred ECC_UNCORR the thread and the register, which its fault records hold (R296). -/
structure TrapReq where
  cause  : Cause
  pc     : Word
  addr   : Word
  info   : Word
  header : Bool
  obj    : Word
deriving DecidableEq, Repr

/-- One count of a completion flag that has not retired: the clause that raised it, the flag, and whether it is the
clause's setB count (R12, R13). The value of flag `f` is the number of entries that name it. -/
structure FlagInc where
  clause : Nat
  flag   : Nat
  isB    : Bool
deriving DecidableEq, Repr

/-- An outstanding mark and the flag whose wait removes it (R15). -/
structure OutMark where
  reg  : Reg
  flag : Nat
deriving DecidableEq, Repr

/-- A predicate block in progress: the set read at the `PBLK`, the mark number, the words and the pattern left
(R33, R35). -/
structure Block where
  set     : ThreadSet
  mark    : BitVec 3
  left    : Nat
  pattern : BitVec 8
deriving DecidableEq, Repr

/-- What a long-latency result writes when it lands: a scalar, one gang of a thread register, or a mark (R71); or
nothing, where the word that was loaded met a parity error on its way: its thread and register, the address it was loaded
from, and the address of the instruction (R304; nothing sets it, log 63). -/
inductive LandDest where
  | scalar (reg : BitVec 6) (value : Word)
  | gang   (reg : BitVec 7) (lanes : List (Nat × Word))
  | mark   (reg : BitVec 3) (set : ThreadSet)
  | lost   (thread reg : Nat) (addr word : Word)
deriving DecidableEq, Repr

/-- A long-latency result that has not landed: its clause, what it writes, and the XSTAT flags it merges (R115). -/
structure Landing where
  clause : Nat
  dest   : LandDest
  xflags : BitVec 10
deriving DecidableEq, Repr

/-- One write at a home slice or at a vault: the slice (of a global write), the lowest physical or vault address, and
the bytes from there. -/
structure WriteAcc where
  vault : Bool
  home  : Nat
  addr  : Nat
  bytes : List Byte
deriving DecidableEq, Repr

/-- One contribution of a reduction: its clause, the address of its word, and its thread. -/
abbrev ContribKey := Nat × Word × Nat

/-- The stores of one instruction that have not been performed, in the order they are performed (R190, R193). -/
structure PStore where
  clause : Nat
  writes : List WriteAcc
  /-- The contributions that must be accepted or discarded first: of a release, and after a `FENCE.A` or a `FENCE.R`
  (R194, R219). -/
  awaits : List ContribKey
  /-- The places of writes that met a parity error on their way, with the address that the record of each gives (R304;
  nothing sets it, log 63). -/
  spoiled : List (Nat × Word)
deriving DecidableEq, Repr

/-- A sequence-indexed contribution on its way to, or not yet accepted by, its home slice (R221, R222). -/
structure Contribution where
  clause : Nat
  word   : Word
  thread : Nat
  va     : Word
  obj    : Nat
  home   : Nat
  index  : Word
  value  : Word
  f64    : Bool
  reg    : Nat
  /-- When its slice found that it lay too far ahead: such contributions are retried in this order (R221). -/
  seen   : Option Nat
  /-- A `FENCE.A`, or a `FENCE.R`, follows it in its crew's order (R219). -/
  fenceA : Bool
  fenceR : Bool
  /-- The contributions that must be accepted or discarded before it reaches its slice (R194, R219). -/
  awaits : List ContribKey
deriving DecidableEq, Repr

/-- The name of a contribution among those of its crew. -/
def Contribution.key (x : Contribution) : ContribKey := (x.clause, x.word, x.thread)

/-- A duplicate found by a `REDQ` whose other contributions are still to be answered (R224). -/
structure DupNote where
  clause : Nat
  word   : Word
  thread : Nat
  va     : Word
deriving DecidableEq, Repr

/-- The kinds of park (R74, R293). -/
inductive Park where
  /-- In `WAITU`, with the status register to write (R228). -/
  | waitu (sd : BitVec 6)
  /-- In `BARC` (R168). -/
  | barc
  /-- In `SPAWN` or `SPAWNG` on a full region (R165). -/
  | spawn
  /-- In `BLKACQ.W` (R142). -/
  | blkacq
  /-- In `TWAITANY` or `TWAITALL` (R278). -/
  | twait (all : Bool) (mask : Word)
deriving DecidableEq, Repr

/-- What a crew is doing. -/
inductive Status where
  /-- Its next word may be granted. -/
  | running
  /-- Its word holds it; it stays runnable and tries again after the next event (R74, R297). -/
  | held
  /-- It is parked and not runnable (R74). -/
  | parked (p : Park)
  /-- Its `PUBLISH` waits for the flip (R283). -/
  | flipping
  /-- Its `CTXSAVE` or `CTXLOAD` waits for the end of the move (R319). -/
  | moving
  /-- It drains before a trap is entered (R291). -/
  | draining (t : TrapReq)
  /-- It is halted (R289, R316). -/
  | halted
  /-- It has ended (R169). -/
  | exited
deriving DecidableEq, Repr

/-- How a tag's most recent collective stands (R343). -/
structure CollStat where
  id     : Nat
  tag    : BitVec 6
  status : BitVec 2
  cause  : BitVec 8
  peer   : Option (BitVec 8)
  seq    : Word
deriving DecidableEq, Repr

/-- One crew (R8, R63, R308). -/
structure Crew where
  /-- The model's own name of the crew (log 3). -/
  uid      : Nat
  /-- The model's own name of its gallery. -/
  gid      : Nat
  core     : Nat
  slot     : Nat
  att      : Nat
  pc       : Word
  base     : Vector Word 48
  pbank    : Vector Word 16
  tbank    : Vector Word 16
  bank     : Bool
  privl    : BitVec 2
  /-- The number of the open clause; every header opens a new one. -/
  clause   : Nat
  /-- Words left in the open clause, the next word included; 0 when the next word must be a `CLAUSE`. -/
  left     : Nat
  setA     : BitVec 4
  setB     : BitVec 4
  incs     : List FlagInc
  outm     : List OutMark
  blk      : Option Block
  act      : ThreadSet
  /-- Save[1], the oldest, first. -/
  stack    : List ThreadSet
  marks    : Vector ThreadSet 7
  xsub     : BitVec 6
  xstat    : BitVec 10
  fprm     : BitVec 2
  srchchk  : BitVec 1
  prio     : BitVec 3
  launchrec : Word
  argp     : Word
  cycles   : Word
  clausef  : BitVec 38
  trapcause : BitVec 8
  trappc   : Word
  trapaddr : Word
  trapinfo : Word
  /-- The outstanding marks that the last trap entry saved (OUTMARK, R291), and BLOCKMK (R292), of a crew without a
  save record; with a save record they stand in memory. -/
  outSaved : List OutMark
  blkSaved : ThreadSet
  tagcnt   : Vector (BitVec 8) 64
  tagfail  : BitVec 64
  tagcause : Vector (BitVec 8) 64
  colls    : List CollStat
  ring     : Option Word
  save     : Word
  /-- STATUS of the save record once WAKE is set (R232, R293). -/
  woken    : Option (BitVec 2)
  land     : List Landing
  stores   : List PStore
  acks     : List Nat
  redq     : List Contribution
  dups     : List DupNote
  deferred : List TrapReq
  status   : Status
  /-- Grants of the uniform and the lane pipe that went to others while this crew stayed eligible (R158). -/
  passedU  : Nat
  passedL  : Nat
  age      : Nat
  /-- Set by `YIELD`: the cycles counted since in which no other crew of the core was eligible for the uniform pipe
  (R315). -/
  yielded  : Option Nat
  /-- Scalar registers and marks that hold an uncorrectable error (R304). -/
  bad      : List Reg
  /-- Entries of the responder stack that hold an uncorrectable error: 0 for Save[1] (R304). -/
  badStack : List Nat
deriving DecidableEq, Repr

/-! ### Records and galleries -/

/-- The keys a record receives when it becomes ready, its arrival at the distributor last (R154). -/
structure ReadyKey where
  time : Nat
  core : Nat
  pos  : Nat
  seq  : Nat
deriving DecidableEq, Repr

/-- A launch record as copied at its enqueue (R147), with the fields resolved from its region path (R146). -/
structure Record where
  name    : Word
  code    : Word
  arg     : Word
  join    : Word
  tree    : Word
  threads : Nat
  blocks  : Nat
  crews   : Nat
  vgran   : Nat
  /-- The effective priority and class (R146). -/
  prio    : Nat
  cls     : Nat
  kind    : Nat
  mtok    : Nat
  region  : Word
  dep     : Word
  succ    : Word
  part    : Nat
  /-- Physical addresses of the region block and its ancestors, root last. -/
  path    : List Nat
  asn     : Nat
  share   : Nat
  fdom    : Nat
  place   : BitVec 12
  seatReg : Nat
  seatVlt : Nat
  seatGang : Nat
  ready   : Option ReadyKey
  arrival : Nat
  /-- For a resume record, the swapped-out gallery (R301). -/
  resume  : Option Nat
  /-- The 64 bytes as copied into the queue (R162). -/
  copy    : List Byte
  /-- The index of its slot in the region's task queue (R145, R187). -/
  qslot   : Option Nat
deriving DecidableEq, Repr

/-- A forming lane gang: when its first record joined, whether it has been launched into the ready queue, and its
records in the order in which they joined (R151). -/
structure Gang where
  since   : Nat
  closed  : Bool
  records : List Record
deriving DecidableEq, Repr

/-- A relocation of vault addresses after a migration (R321). -/
structure Reloc where
  old : Nat
  len : Nat
  new : Nat
deriving DecidableEq, Repr

/-- A crew waiting in `BLKACQ.W` for the blocks of a mask (R142). -/
structure BlkWait where
  uid  : Nat
  mask : BitVec 16
deriving DecidableEq, Repr

/-- One gallery (R60 to R66). -/
structure Gallery where
  /-- The model's own name of the gallery (log 3). -/
  gid    : Nat
  core   : Nat
  slot   : Nat
  nthr   : Nat
  nblk   : Nat
  vgran  : Nat
  vbase  : BitVec 32
  live   : ThreadSet
  /-- Register `r` of thread slot `t` under key `128 t + r`; an unlisted register holds 0 (R62). -/
  v      : Sparse Word
  /-- The attach slot that owns each block, or none (R65). -/
  owner  : Vector (Option (Fin 4)) 16
  blkq   : List BlkWait
  rcd    : Record
  lanes  : List Record
  reloc  : List Reloc
  /-- The address of its image while it is swapped out (R299). -/
  image  : Option Nat
  /-- The order in which galleries became resident (R300). -/
  since  : Nat
  /-- Keys of thread registers that hold an uncorrectable error (R304). -/
  bad    : List Nat
  /-- Keys of thread registers that hold a single-bit error, with the bit that stands wrong. `v` holds the corrected
  word, as every word access reads it (R72, R304). -/
  soft   : List (Nat × Nat)
  /-- The gallery takes part in a teardown; its record will not complete (R306). -/
  torn   : Bool
  /-- The crew that ended last, once every crew has ended (R73, R324). -/
  ender  : Option Nat
deriving DecidableEq, Repr

/-! ### Slices -/

/-- A Lamproom entry, resident or spilled (R229, R230). -/
structure LampEntry where
  pa       : Nat
  home     : Nat
  w32      : Bool
  cmp      : BitVec 3
  y        : Word
  deadline : Option Nat
  prio     : BitVec 3
  regno    : Nat
  uid      : Nat
  save     : Word
  region   : Word
  spilled  : Option Nat
deriving DecidableEq, Repr

/-- A contribution held at its object until its index comes (R221), with what a fault record about it names once its
crew is gone: the record of its gallery, its crew number and its save record (R225, R296). -/
structure HeldContribution where
  obj   : Nat
  index : Word
  value : Word
  f64   : Bool
  rcd   : Record
  crew  : Nat
  save  : Word
  va    : Word
  word  : Word
deriving DecidableEq, Repr

/-- A Relay object from the `WCFG` that configures it (R235, R238). Stack tops come first in `front`, and the oldest
value first in `back`. -/
structure Relay where
  blk    : Nat
  home   : Nat
  uid    : Nat
  region : Word
  part   : Nat
  /-- The physical bytes of the storage, as (start, length) runs. -/
  store  : List (Nat × Nat)
  front  : List Word
  back   : List Word
  held   : List (Word × Word)
deriving DecidableEq, Repr

/-- A spawn parked on a full region, in parking order (R165). -/
structure SpawnWait where
  uid  : Nat
  path : List Nat
deriving DecidableEq, Repr

/-! ### Engines -/

/-- The operands of a data-moving hoist command (R266, R267). -/
structure HoistOp where
  fn    : Nat
  flags : BitVec 8
  op0   : Word
  op1   : Word
  op2   : Word
  op3   : Word
deriving DecidableEq, Repr

/-- A follow-on matrix command with its reserved ring slot (R270). -/
structure Follow where
  addr : Word
  img  : List Byte
  ring : Word
  slot : Nat
  tag  : Option (BitVec 6)
deriving DecidableEq, Repr

/-- A failure of an engine command: cause, failing address, object (R245, R389). -/
structure Fail where
  cause : Cause
  addr  : Word
  obj   : Word
deriving DecidableEq, Repr

/-- A hoist command in a core's queue (R246 to R250, R261, R271). -/
structure HoistCmd where
  id      : Nat
  uid     : Nat
  core    : Nat
  tag     : Option (BitVec 6)
  op      : HoistOp
  /-- For a chain, the address of the chain and the step that runs; the step has begun when `begun` holds. -/
  chain   : Option (Word × Nat)
  begun   : Bool
  last    : Bool
  follow  : Option Follow
  /-- The follow-on image, with its address, of a step that waits for a slot and a count (R271). -/
  waits   : Option (Word × List Byte)
  /-- The progress register: the first chunk not granted (R261). -/
  next    : Nat
  total   : Nat
  /-- Chunks granted and not yet performed, each with the core whose engine it was granted to (R247). -/
  flight  : List (Nat × Nat)
  /-- Chunks granted whose bytes stand in a hoist buffer with a parity error (R304). -/
  spoiled : List Nat
  stopped : Bool
  failed  : Option Fail
deriving DecidableEq, Repr

/-- The row scales read when a command was posted, held with its ring slot (R88, R273). -/
structure Scales where
  ring : Word
  uid  : Nat
  slot : Nat
  vals : List (BitVec 32)
deriving DecidableEq, Repr

/-- A reservation entry of a cluster's matrix engine (R255). -/
structure RingEntry where
  cluster : Nat
  entry   : Nat
  ring    : Word
  uid     : Nat
  /-- The engine stopped on a broken control block (R188). -/
  broken  : Bool
deriving DecidableEq, Repr

/-- An admitted matrix command (R255 to R258, R273). -/
structure MxCmd where
  id      : Nat
  cluster : Nat
  entry   : Nat
  ring    : Word
  slotVa  : Word
  uid     : Nat
  kind    : Nat
  tag     : Option (BitVec 6)
  prio    : BitVec 3
  kb      : Nat
  acc     : Bool
  tile    : Nat
  scl     : Bool
  aaddr   : BitVec 32
  baddr   : BitVec 32
  wscale  : BitVec 32
  scales  : List (BitVec 32)
  order   : Nat
  /-- The progress register: the first pass not granted (R261). -/
  next    : Nat
  running : List Nat
  done    : List Nat
  failed  : Option Fail
deriving DecidableEq, Repr

/-- A tile whose token is not simply with the engine, or for which crews wait (R259). -/
structure Token where
  cluster : Nat
  tile    : Nat
  holder  : Option Nat
  waiting : List Nat
deriving DecidableEq, Repr

/-- An entry of a partition's publish table that is in use (R262). -/
structure PubEntry where
  part   : Nat
  idx    : Nat
  vbase  : Nat
  size   : Nat
  pbase0 : Nat
  pbase1 : Nat
  live   : Bool
  asn    : Nat
deriving DecidableEq, Repr

/-- A flip to be made, by a crew's `PUBLISH` or by a collective, with its tag and its id (R206, R342). -/
structure Flip where
  part : Nat
  idx  : Nat
  uid  : Nat
  coll : Option (Option (BitVec 6) × Nat)
deriving DecidableEq, Repr

/-- A context move in progress: the crew that asked, the block's address, and the move (R318, R319). -/
structure CtxJob where
  uid   : Nat
  block : Nat
  load  : Bool
  mode  : BitVec 2
  core  : Nat
  gslot : Nat
  dest  : Word
  start : Word
deriving DecidableEq, Repr

/-- A gallery saved in an image or in the shadow context store, with its crews and its engine work (R299). -/
structure SavedContext where
  /-- The address of the image, or none in the shadow store. -/
  image   : Option Nat
  /-- The physical address at which the image begins, by which it is found again. -/
  pa      : Nat
  /-- The physical addresses of the 4 KiB pages of the image, in their order. -/
  pages   : List Nat
  /-- The image lies in the image pool of the gallery's region (R300). -/
  pooled  : Bool
  part    : Nat
  gal     : Gallery
  crews   : List Crew
  hoist   : List HoistCmd
  mx      : List MxCmd
  tokens  : List Token
  rings   : List RingEntry
  /-- Elements of the tiles that travel, by (128 tile + i) 128 + j, and those with a parity error. -/
  tiles   : Sparse (BitVec 32)
  badTiles : List Nat
  vault   : Sparse Byte
  /-- A word of the shadow store holds an uncorrectable error (R304). -/
  lost    : Bool
deriving DecidableEq, Repr

/-- A collective command of this part (R336 to R342). -/
structure Coll where
  id      : Nat
  die     : Nat
  uid     : Nat
  tag     : Option (BitVec 6)
  fn      : Nat
  pub     : Bool
  root    : Bool
  dest    : Word
  op      : Nat
  count   : Nat
  esize   : Nat
  rootId  : BitVec 8
  desc    : Word
  gid     : BitVec 16
  seq     : Word
  members : BitVec 256
  head    : Word
  /-- The members heard from, with what they sent. -/
  got     : List (BitVec 8 × Word × List Byte)
  issued  : Word
  tmo     : Nat
deriving DecidableEq, Repr

/-- Data of a collective that arrived before this part issued it, or a failure to be repeated to a late issue
(R342). -/
structure CollNote where
  gid    : BitVec 16
  seq    : Word
  fail   : Option (Cause × BitVec 8)
  member : BitVec 8
  head   : Word
  data   : List Byte
deriving DecidableEq, Repr

/-! ### Package, host, Drift and Pacer -/

/-- A host queue (R330). -/
structure HostQueue where
  qbase   : Word
  kick    : BitVec 32
  cons    : BitVec 32
  stopped : Bool
  enable  : Bool
deriving DecidableEq, Repr

/-- A physical function: window B control, host queues, translation control and mailbox pair
(R328 to R332, R366). -/
structure HostFn where
  /-- The size of window B, as a power of two from 30 to 40 (R328). -/
  wbsize   : Nat
  wbbase   : Word
  wbasn    : BitVec 16
  wbring   : Word
  queues   : Sparse HostQueue
  reqbase  : Word
  reqkick  : BitVec 32
  rspbase  : Word
  mben     : Bool
  mbstop   : Bool
  /-- The POOL or FUSE request within which firmware waits, by its control block and its index in the ring
  (R355, R366, R370). -/
  mbwait   : Option (Nat × Nat)
  shoot    : Option (BitVec 16)
  shootdone : Bool
  /-- The last answer to a read through window B, and whether it carried a completer abort (R332). -/
  answer   : List Byte
  abort    : Bool
deriving DecidableEq, Repr

/-- A Drift port (R333, R334, R372): state 0 DOWN to 5 UP, and the replay buffer, oldest first. -/
structure Port where
  en       : Bool
  state    : BitVec 3
  peer     : BitVec 8
  retrains : BitVec 8
  sendSeq  : BitVec 12
  buffer   : List (BitVec 12 × List Byte)
  /-- The flit that was asked for again last, and how often. -/
  asked    : BitVec 12
  tries    : Nat
  recvSeq  : BitVec 12
  /-- The last acknowledgement returned: whether it was negative, and the SEQ it names. -/
  answer   : Option (Bool × BitVec 12)
  replays  : Nat
  retraining : Bool
  /-- TIMENS when the port entered DETECT, or when it began to retrain (R372). -/
  since    : Nat
deriving DecidableEq, Repr

/-- A ceiling or a view that is to be applied at its time (R346). -/
structure PaceMsg where
  lap  : Nat
  c    : BitVec 8
  t    : Nat
  mask : Option (BitVec 256)
  /-- The lap came from a granted raise (R349). -/
  raise : Bool
deriving DecidableEq, Repr

/-- A Pacer message to be sent: destination (none for every member) and payload fields (R345). -/
structure PaceOut where
  dest : Option (BitVec 8)
  type : BitVec 8
  lap  : Nat
  t    : Nat
  c    : BitVec 8
  mask : BitVec 256
deriving DecidableEq, Repr

/-- The Pacer member (R344 to R353). -/
structure Pacer where
  self     : BitVec 8
  view     : BitVec 256
  ceil     : BitVec 8
  lap      : Nat
  breach   : Bool
  walkhold : Bool
  /-- The own limits the member holds for the view (R344). -/
  limits   : Sparse (BitVec 8)
  /-- TIMENS when each member was last heard (R353). -/
  heard    : Sparse Nat
  pending  : List PaceMsg
  /-- A proposal in progress: its lap, its ceiling, and the members that have granted. -/
  proposal : Option (Nat × BitVec 8 × BitVec 256)
  /-- TIMENS when the proposal in progress was sent (R349). -/
  asked    : Nat
  /-- TIMENS when this member sent what its coordinator is to answer (R353). -/
  waiting  : Option Nat
  /-- The greatest lap that any message has named (R350). -/
  seen     : Nat
  leaving  : Option Nat
  /-- Members that announced the lap at which they leave (R350). -/
  leavers  : List (BitVec 8 × Nat)
  /-- The last lap stamped, by the coordinator. -/
  stamped  : Nat
  out      : List PaceOut
  fwlimit  : BitVec 8
  ageing   : BitVec 8
  power    : BitVec 8
  gid      : BitVec 16
  en       : Bool
  heartAt  : Nat
deriving DecidableEq, Repr

/-- The current thresholds of a partition's power block (R358, R361). -/
structure CurrentLimits where
  curhigh  : BitVec 32
  curlow   : BitVec 32
  heavy    : BitVec 16
  ballast  : BitVec 32
deriving DecidableEq, Repr

/-- The power predictor and the class registers (R354, R359, R361). -/
structure Power where
  clsprint : BitVec 8
  cltempo  : BitVec 8
  cldist   : BitVec 8
  poolmap  : BitVec 192
  /-- By partition. -/
  limits   : Vector CurrentLimits 4
  /-- The last 64 samples of package power and of the hottest sensor, newest first. -/
  samples  : List (Nat × Nat)
  sampleAt : Nat
  loweredAt : Nat
  raisedAt : Nat
  recheckAt : Option Nat
  eoldays  : BitVec 32
  eolcount : Nat
  /-- Clusters whose placement is stopped for a change of pool, with the class they go to and the physical function
  whose mailbox asked (R355, R366). -/
  moving   : List (Nat × BitVec 2 × Option (BitVec 2))
deriving DecidableEq, Repr

/-- A cluster's current record (R358, R359): the last 64 intervals, newest first, the charge of the real work of the
running one, whether throttling holds, and the cooldown lap's mean and step. -/
structure CurrentRecord where
  past     : List Nat
  now      : Nat
  throttled : Bool
  cooldown : Option (Nat × Nat)
deriving DecidableEq, Repr

/-- A memory controller's training block (R371). -/
structure Controller where
  trnctl  : Word
  trnstat : Word
  lanemap : Word
  running : Bool
  /-- TIMENS when the run began. -/
  since   : Nat
deriving DecidableEq, Repr

/-- A loaded code object (R305, R383). -/
structure CodeObject where
  addr    : Word
  region  : Word
  asn     : Nat
  part    : Nat
  secv    : Nat
  text    : Word
  textLen : Nat
  data    : Word
deriving DecidableEq, Repr

/-- A region being torn down: partition, block address, TIMENS when the grace ends (R306). -/
structure Teardown where
  part   : Nat
  region : Word
  ends   : Nat
deriving DecidableEq, Repr

/-- The boot registers of the part (R364). Those of a partition are listed by partition, those of a die by die. -/
structure Boot where
  romovl   : BitVec 4
  fready   : BitVec 4
  fstat    : Vector (BitVec 4) 4
  ftvec    : Vector Word 4
  dirbase  : Vector Word 4
  partcfg  : BitVec 2
  placed   : Bool
  fusecnt  : BitVec 9
  fuseGoal : Option (BitVec 9)
  secver   : BitVec 16
  meas     : Vector (BitVec 256) 8
  measin   : BitVec 256
  keyhash  : Vector (BitVec 256) 4
  keyset   : BitVec 4
  keyrev   : BitVec 4
  vndoff   : Bool
  /-- The images in the package's serial flash: the loader, and the main image (log 79). -/
  loader   : List Byte
  main     : List Byte
  /-- PACEWORD, the address of the pace word's line in physical memory (R351; log 16). -/
  paceword : Word
deriving DecidableEq, Repr

/-! ### The machine -/

/-- The whole part, with what has been asked of it from outside. -/
structure State where
  /-- The crew whose word runs, and its gallery. -/
  c        : Crew
  g        : Gallery
  crews    : List Crew
  gals     : List Gallery
  /-- Physical memory, one byte per address (R181). -/
  mem      : List Host.Cell
  /-- The vaults, by vault address (R173). -/
  vault    : Sparse Byte
  /-- Bound vault halves, by address bits 31:21, with their ASN (R157). -/
  halves   : Sparse Nat
  /-- Accumulator elements, by ((64 cluster + tile) 128 + i) 128 + j (R186). -/
  tiles    : Sparse (BitVec 32)
  badTiles : List Nat
  /-- Poisoned 8-byte words of memory and of the vaults, by address div 8 (R304). -/
  poison   : List Nat
  badVault : List Nat
  lamps    : List LampEntry
  /-- Filter bits set, as 65,536 slice + index (R230). -/
  filter   : List Nat
  lampSeq  : Nat
  /-- Crews whose oldest write is held at its slice for the slow path, until it is performed (R231). -/
  slow     : List Nat
  /-- Waits of `BARC` that found no room in the spill area, looked at again at each sweep (R168). -/
  sweeps   : List LampEntry
  redq     : List HeldContribution
  relays   : List Relay
  records  : List Record
  /-- The region blocks that enqueues have named and no teardown has ended, as (partition, physical address). -/
  regions  : List (Nat × Nat)
  /-- Lane gangs that are not placed yet (R151). -/
  forming  : List Gang
  spawnq   : List SpawnWait
  /-- Region blocks whose PEND has fallen outside a placement, whose parked spawns are still to be retried (R165). -/
  pendFell : List Nat
  freed    : List Nat
  arrivals : Nat
  ids      : Nat
  hoist    : List HoistCmd
  rings    : List RingEntry
  mx       : List MxCmd
  scales   : List Scales
  tokens   : List Token
  pubs     : List PubEntry
  flips    : List Flip
  ctx      : List CtxJob
  saved    : List SavedContext
  colls    : List Coll
  collNotes : List CollNote
  tears    : List Teardown
  objects  : List CodeObject
  loads    : Nat
  fns      : Vector HostFn 4
  errcnt   : Nat
  /-- Corrected errors, by row of the table of R304 (R329). -/
  corrected : Vector Nat 10
  ports    : Vector Port 18
  routes   : Sparse (BitVec 18)
  pacer    : Pacer
  power    : Power
  current  : Sparse CurrentRecord
  /-- Cores whose last lane instruction reached the heavy mark (R159). -/
  heavy    : List Nat
  ctls     : Vector Controller 8
  boot     : Boot
  strict   : BitVec 4
  timens   : Word
  sweepAt  : Nat
  /-- Outside events not yet taken, in order (log 2). -/
  inputs   : List Instr
  /-- The package core whose crew is looked at first for the next grant (log 2). -/
  turn     : Nat
  /-- The crew that holds the grant of the lane pipe in the cycle whose uniform word has just run (R70, R158). -/
  lane     : Option Nat
  /-- The next step is an event of the part itself, if one is due (log 2). -/
  bgTurn   : Bool
  /-- The counter at which free values are taken (log 4). -/
  fresh    : Nat
deriving DecidableEq, Repr

/-- What can stop the machine. No instruction word of AGQ does. -/
inductive Fault where
  /-- Raised by `step` alone: the list of outside events holds a word of the instruction set. The manual knows no
  such thing; a run from outside never makes it. Safe: the model stops where no hardware behaviour is described. -/
  | notAnEvent
deriving DecidableEq, Repr

/-- What the model declines to do. -/
inductive Refusal where
  /-- Raised by the arms of `exec` that have no meaning yet, if any. Safe: the model stops. -/
  | notModelled (mnemonic : String)
deriving DecidableEq, Repr

/-! ### Reset -/

/-- A register bank of zeros (R8). -/
def zeros (n : Nat) : Vector Word n := Vector.replicate n 0

/-- The record of a foreman gallery, which no record started: no region and ASN 0 (R362, R365; log 14). -/
def Record.foreman (die : Nat) : Record :=
  { name := 0, code := BitVec.ofNat 64 (0x2800000000 * die), arg := 0, join := 0, tree := 0, threads := 32,
    blocks := 16, crews := 1, vgran := 0, prio := 7, cls := 0, kind := 0, mtok := 0, region := 0, dep := 0,
    succ := 0, part := 0, path := [], asn := 0, share := 1, fdom := 0, place := 0, seatReg := 0, seatVlt := 0,
    seatGang := 0, ready := none, arrival := 0, resume := none, copy := [], qslot := none }

/-- The foreman crew of a die at reset: the state of R8 and R62 at PRIVL 2, with the pc of R362. -/
def Crew.foreman (die : Nat) : Crew :=
  { uid := die, gid := die, core := 96 * die, slot := 0, att := 0, pc := BitVec.ofNat 64 (0x2800000000 * die),
    base := zeros 48, pbank := zeros 16, tbank := zeros 16, bank := false, privl := 2, clause := 0, left := 0,
    setA := 15, setB := 15, incs := [], outm := [], blk := none, act := BitVec.ofNat 2048 (2 ^ 32 - 1), stack := [],
    marks := Vector.replicate 7 0, xsub := 32, xstat := 0, fprm := 0, srchchk := 0, prio := 0, launchrec := 0,
    argp := 0, cycles := 0, clausef := 0, trapcause := 0, trappc := 0, trapaddr := 0, trapinfo := 0, outSaved := [],
    blkSaved := 0, tagcnt := Vector.replicate 64 0, tagfail := 0, tagcause := Vector.replicate 64 0, colls := [],
    ring := none, save := 0, woken := none, land := [], stores := [], acks := [], redq := [], dups := [],
    deferred := [], status := .running, passedU := 0, passedL := 0, age := 0, yielded := none, bad := [],
    badStack := [] }

/-- The gallery of a foreman crew (R362 names none; log 14). -/
def Gallery.foreman (die : Nat) : Gallery :=
  { gid := die, core := 96 * die, slot := 0, nthr := 32, nblk := 16, vgran := 0, vbase := 0,
    live := BitVec.ofNat 2048 (2 ^ 32 - 1), v := [], owner := Vector.replicate 16 (some 0), blkq := [],
    rcd := Record.foreman die, lanes := [], reloc := [], image := none, since := 0, bad := [], soft := [],
    torn := false, ender := none }

/-- A physical function after reset (R330, R366; log 16). -/
def HostFn.reset : HostFn :=
  { wbsize := 40, wbbase := 0, wbasn := 0, wbring := 0, queues := [], reqbase := 0, reqkick := 0, rspbase := 0,
    mben := false, mbstop := false, mbwait := none, shoot := none, shootdone := false, answer := [], abort := false }

/-- A Drift port after reset (R372; log 16). -/
def Port.reset : Port :=
  { en := false, state := 0, peer := 0, retrains := 0, sendSeq := 0, buffer := [], asked := 0, tries := 0,
    recvSeq := 0, answer := none, replays := 0, retraining := false, since := 0 }

/-- The Pacer member after reset: a group of one at the firmware limit 40 (R308, R344, R362; log 16). -/
def Pacer.reset : Pacer :=
  { self := 0, view := 1, ceil := 40, lap := 0, breach := false, walkhold := false, limits := [(0, 40)], heard := [],
    pending := [], proposal := none, asked := 0, waiting := none, seen := 0, leaving := none, leavers := [],
    stamped := 0, out := [], fwlimit := 40, ageing := 132, power := 132, gid := 0, en := false, heartAt := 25000 }

/-- The power block after reset (R361). -/
def Power.reset : Power :=
  { clsprint := 40, cltempo := 40, cldist := 40, poolmap := BitVec.allOnes 192, 
    limits := Vector.replicate 4 { curhigh := 1800000, curlow := 1400000, heavy := 4096, ballast := 8192 },
    samples := [], sampleAt := 10000, loweredAt := 0, raisedAt := 0, recheckAt := none, eoldays := Config.eolDays,
    eolcount := 0, moving := [] }

/-- The boot registers after reset (R362, R364; log 16). -/
def Boot.reset : Boot :=
  { romovl := 15, fready := 0, fstat := Vector.replicate 4 0, ftvec := Vector.replicate 4 Config.romHandler,
    dirbase := zeros 4, partcfg := 0, placed := false, fusecnt := 0, fuseGoal := none, secver := 0,
    meas := Vector.replicate 8 0, measin := 0, keyhash := #v[Config.vendorKeyHash, 0, 0, 0], keyset := 1, keyrev := 0,
    vndoff := false, loader := Config.flashLoader, main := Config.flashMain, paceword := 0x27FFFFFF00 }

/-- The part right after the release of reset (R362). Memory lists the one byte to which the manual gives a reset
value that is not 0: CEIL of the pace word, the own limit (R351). -/
def State.reset : State :=
  { c := Crew.foreman 0, g := Gallery.foreman 0,
    crews := [Crew.foreman 1, Crew.foreman 2, Crew.foreman 3],
    gals := [Gallery.foreman 1, Gallery.foreman 2, Gallery.foreman 3],
    mem := [(0x27FFFFFF00, 40)], vault := [],
    halves := [(0, 0), (1, 0), (256, 0), (257, 0), (512, 0), (513, 0), (768, 0), (769, 0)],
    tiles := [], badTiles := [], poison := [], badVault := [],
    lamps := [], filter := [], lampSeq := 0, slow := [], sweeps := [], redq := [], relays := [], records := [],
    regions := [], forming := [], spawnq := [], pendFell := [], freed := [], arrivals := 0, ids := 4, hoist := [], rings := [], mx := [], scales := [],
    tokens := [], pubs := [], flips := [], ctx := [], saved := [], colls := [], collNotes := [], tears := [],
    objects := [], loads := 0, fns := Vector.replicate 4 HostFn.reset, errcnt := 0, corrected := Vector.replicate 10 0,
    ports := Vector.replicate 18 Port.reset, routes := [], pacer := Pacer.reset, power := Power.reset, current := [],
    heavy := [], ctls := Vector.replicate 8 { trnctl := 0, trnstat := 0, lanemap := 0, running := false, since := 0 },
    boot := Boot.reset, strict := 15, timens := 0, sweepAt := 1000, inputs := [], turn := 0, lane := none,
    bgTurn := false, fresh := 0 }

end Sys2Proof.Machine
end

