-- ==== Sys2Proof/Machine/Ops.lean ====
section
/-!
DEFINITION. The operations the meanings share: finite maps, registers, memory and its translation, the home slices,
fault records and rings, taking a trap and returning from one, and the checks a word passes before it has effect.
-/

namespace Sys2Proof.Machine

/-- The outcome of a step. -/
abbrev Out := Host.Outcome State Fault Refusal

/-! ### Finite maps -/

/-- The value at key `k`; `d` is the default. -/
def look {α : Type} (d : α) : Sparse α → Nat → α
  | [], _ => d
  | (j, x) :: m, k => if j = k then x else look d m k

/-- An entry put before the first one of a greater key. -/
def insertKey {α : Type} (k : Nat) (x : α) : Sparse α → Sparse α
  | [] => [(k, x)]
  | (j, y) :: m => if k < j then (k, x) :: (j, y) :: m else (j, y) :: insertKey k x m

/-- The map with `x` at key `k`; writing the default takes the entry out. -/
def store {α : Type} [DecidableEq α] (d : α) (m : Sparse α) (k : Nat) (x : α) : Sparse α :=
  if x = d then m.filter fun e => e.1 != k else insertKey k x (m.filter fun e => e.1 != k)

/-- Every key of the map is at least `lo`, the keys rise strictly, and no entry holds the default. -/
def tidyFrom {α : Type} [DecidableEq α] (d : α) : Nat → Sparse α → Bool
  | _, [] => true
  | lo, (j, x) :: m => decide (lo ≤ j) && !decide (x = d) && tidyFrom d (j + 1) m

/-- The canonical form of a map. -/
def tidy {α : Type} [DecidableEq α] (d : α) (m : Sparse α) : Bool := tidyFrom d 0 m

/-- The canonical form of physical memory. -/
def Memory.wf (m : List Host.Cell) : Bool := tidy 0 m

/-! ### Numbers and bytes -/

/-- Bits `lo` to `lo + len - 1` of a number. -/
def bits (x lo len : Nat) : Nat := x / 2 ^ lo % 2 ^ len

/-- The number whose bytes are given, lowest first (R1). -/
def ofBytes : List Byte → Nat
  | [] => 0
  | b :: bs => b.toNat + 2 ^ 8 * ofBytes bs

/-- The lowest `n` bytes of a number, lowest first (R1). -/
def toBytes : Nat → Nat → List Byte
  | 0, _ => []
  | n + 1, x => BitVec.ofNat 8 x :: toBytes n (x / 2 ^ 8)

/-- A number as a 64-bit word. -/
def w64 (x : Nat) : Word := BitVec.ofNat 64 x

/-- Sign extension of a field to 64 bits. -/
def sext {n : Nat} (x : BitVec n) : Word := x.signExtend 64

/-- A number read as two's complement of width `w`. -/
def signed (w x : Nat) : Int := if x < 2 ^ (w - 1) then (x : Int) else (x : Int) - 2 ^ w

/-- An exact integer brought to `w` bits by wrapping (R78). -/
def wrap (w : Nat) (x : Int) : Nat := (x % 2 ^ w).toNat

/-- Bit `i` of a number. -/
def bit (x i : Nat) : Bool := x.testBit i

/-- A truth value as a bit at position `i`. -/
def bitAt (b : Bool) (i : Nat) : Nat := if b then 2 ^ i else 0

/-! ### The crews and galleries of the part -/

/-- Every crew that is not in a saved context, the one in focus first. -/
def State.allCrews (s : State) : List Crew := s.c :: s.crews

/-- Every gallery that is not in a saved context, the one in focus first. -/
def State.allGals (s : State) : List Gallery := s.g :: s.gals

/-- The crew named `uid`, wherever it is. -/
def State.crew? (s : State) (uid : Nat) : Option Crew :=
  (s.allCrews ++ (s.saved.map (·.crews)).flatten).find? (·.uid == uid)

/-- The gallery named `gid`, wherever it is. -/
def State.gal? (s : State) (gid : Nat) : Option Gallery :=
  (s.allGals ++ s.saved.map (·.gal)).find? (·.gid == gid)

/-- The gallery of a crew. -/
def State.galOf (s : State) (uid : Nat) : Option Gallery :=
  match s.crew? uid with
  | some c => s.gal? c.gid
  | none => none

/-- A change of one crew of a list. -/
def changeCrew (uid : Nat) (f : Crew → Crew) (l : List Crew) : List Crew :=
  l.map fun c => if c.uid = uid then f c else c

/-- A change of the crew named `uid`, wherever it is. -/
def State.onCrew (s : State) (uid : Nat) (f : Crew → Crew) : State :=
  if s.c.uid = uid then { s with c := f s.c }
  else { s with
    crews := changeCrew uid f s.crews
    saved := s.saved.map fun v => { v with crews := changeCrew uid f v.crews } }

/-- A change of the gallery named `gid`, wherever it is. -/
def State.onGal (s : State) (gid : Nat) (f : Gallery → Gallery) : State :=
  if s.g.gid = gid then { s with g := f s.g }
  else { s with
    gals := s.gals.map fun g => if g.gid = gid then f g else g
    saved := s.saved.map fun v => if v.gal.gid = gid then { v with gal := f v.gal } else v }

/-- The single-bit errors of some words of a gallery's thread registers corrected in place, and counted (R72, R304). -/
def State.correct (s : State) (g : Gallery) (hit : Nat → Bool) : State :=
  { s.onGal g.gid fun h => { h with soft := h.soft.filter fun e => !hit e.1 } with
    corrected := s.corrected.set 0 (s.corrected[0] + (g.soft.filter fun e => hit e.1).length) }

/-- A change of every crew attached to the gallery named `gid`. -/
def State.onCrewsOf (s : State) (gid : Nat) (f : Crew → Crew) : State :=
  let ch (c : Crew) : Crew := if c.gid = gid then f c else c
  { s with c := ch s.c, crews := s.crews.map ch, saved := s.saved.map fun v => { v with crews := v.crews.map ch } }

/-- The state with the crew named `uid`, and its gallery, in focus; unchanged if it is not among the crews. -/
def State.focus (s : State) (uid : Nat) : State :=
  if s.c.uid = uid then s else
  match s.crews.find? (·.uid == uid) with
  | none => s
  | some c =>
    let s1 := { s with c := c, crews := s.c :: s.crews.filter (·.uid != uid) }
    if s.g.gid = c.gid then s1 else
    match s.gals.find? (·.gid == c.gid) with
    | none => s1
    | some g => { s1 with g := g, gals := s.g :: s.gals.filter (·.gid != c.gid) }

/-- A fresh name for a thing the part creates, and the counter moved on. -/
def State.newId (s : State) : Nat × State := (s.ids, { s with ids := s.ids + 1 })

/-! ### Dies, partitions, cores -/

/-- The die of a package core (R74). -/
def dieOfCore (core : Nat) : Nat := core / 96

/-- The partition of a die (R326). -/
def partOfDie (s : State) (die : Nat) : Nat :=
  if s.boot.partcfg = 0 then 0 else if s.boot.partcfg = 1 then die / 2 else die

/-- The dies of a partition, ascending (R326). -/
def partDies (s : State) (part : Nat) : List Nat := (List.range 4).filter fun d => partOfDie s d == part

/-- The partition of the crew in focus. -/
def State.part (s : State) : Nat := partOfDie s (dieOfCore s.c.core)

/-- The crew identifier (R74). -/
def crewId (c : Crew) : Nat := c.att + 4 * c.slot + 64 * c.core

/-- The address-space number of a gallery's accesses. -/
def galAsn (g : Gallery) : Nat := g.rcd.asn

/-! ### Scalar registers, marks and tags -/

/-- Scalar register `n` as the crew names it: `s0` reads 0, and `s48` to `s63` are of the selected bank (R8, R9). -/
def getS (c : Crew) (n : BitVec 6) : Word :=
  if n.toNat = 0 then 0
  else if n.toNat < 48 then c.base.getD n.toNat 0
  else if c.bank then c.tbank.getD (n.toNat - 48) 0 else c.pbank.getD (n.toNat - 48) 0

/-- A register written whole loses its uncorrectable error (R304). -/
def Crew.mendReg (c : Crew) (r : Reg) : Crew := { c with bad := c.bad.filter (· != r) }

/-- A write of a scalar register: discarded for `s0` (R8, R43). -/
def setS (c : Crew) (n : BitVec 6) (x : Word) : Crew :=
  if n.toNat = 0 then c
  else if n.toNat < 48 then { c.mendReg (.s n) with base := c.base.setIfInBounds n.toNat x }
  else if c.bank then { c.mendReg (.s n) with tbank := c.tbank.setIfInBounds (n.toNat - 48) x }
  else { c.mendReg (.s n) with pbank := c.pbank.setIfInBounds (n.toNat - 48) x }

/-- Scalar register `k` after the first of a group. -/
def getG (c : Crew) (g : BitVec 6) (k : Nat) : Word := getS c (BitVec.ofNat 6 (g.toNat + k))

/-- Mark `n`; `m0` reads as LIVE (R66). -/
def getM (c : Crew) (live : ThreadSet) (n : BitVec 3) : ThreadSet :=
  if n.toNat = 0 then live else c.marks.getD (n.toNat - 1) 0

/-- A write of mark `n`; no instruction names `m0` as a destination (R66). -/
def setM (c : Crew) (n : BitVec 3) (x : ThreadSet) : Crew :=
  if n.toNat = 0 then c else { c.mendReg (.m n) with marks := c.marks.setIfInBounds (n.toNat - 1) x }

/-- The threads of a set below `n`, ascending. -/
def members (set : ThreadSet) (n : Nat) : List Nat := (List.range n).filter fun t => set.getLsbD t

/-- The set of some threads. -/
def setOf (l : List Nat) : ThreadSet := l.foldl (fun a t => a ||| BitVec.ofNat 2048 (2 ^ t)) 0

/-- The number of threads in a set. -/
def count (set : ThreadSet) : Nat := (members set 2048).length

/-- The count of completion flag `f` (R8, R12). -/
def flagCount (c : Crew) (f : Nat) : Nat := (c.incs.filter (·.flag == f)).length

/-- The count of tag `t` (R244). -/
def tagCount (c : Crew) (t : Nat) : Nat := (c.tagcnt.getD t 0).toNat

/-- TAGRDY: bit `t` set when tag `t` has count 0 (R244). -/
def tagReady (c : Crew) : Word := w64 ((List.range 64).foldl (fun a t => a + bitAt (tagCount c t == 0) t) 0)

/-- A command that names tag `t` is issued (R244). -/
def tagUp (c : Crew) : Option (BitVec 6) → Crew
  | none => c
  | some t => { c with tagcnt := c.tagcnt.setIfInBounds t.toNat (c.tagcnt.getD t.toNat 0 + 1) }

/-- A command that names tag `t` completes, with the cause of its failure if it failed (R244, R279). -/
def tagDown (c : Crew) (t : Option (BitVec 6)) (why : Option (BitVec 8)) : Crew :=
  match t with
  | none => c
  | some t =>
    let n := c.tagcnt.getD t.toNat 0
    let c1 := { c with tagcnt := c.tagcnt.setIfInBounds t.toNat (if n = 0 then 0 else n - 1) }
    match why with
    | none => c1
    | some why =>
      if c1.tagfail.getLsbD t.toNat then c1
      else { c1 with
        tagfail := c1.tagfail ||| w64 (2 ^ t.toNat)
        tagcause := c1.tagcause.setIfInBounds t.toNat why }

/-! ### Thread registers -/

/-- Register `r` of thread slot `t` (R62). -/
def getV (g : Gallery) (t : Nat) (r : Nat) : Word := look 0 g.v (128 * t + r)

/-- A write of register `r` of thread slot `t`; it mends an error there (R304). -/
def setV (g : Gallery) (t : Nat) (r : Nat) (x : Word) : Gallery :=
  { g with
    v := store 0 g.v (128 * t + r) x, bad := g.bad.filter (· != 128 * t + r)
    soft := g.soft.filter fun e => e.1 != 128 * t + r }

/-- Writes of one register in several threads. -/
def setVs (g : Gallery) (r : Nat) (l : List (Nat × Word)) : Gallery := l.foldl (fun g p => setV g p.1 r p.2) g

/-- The active set of the crew's next lane word: ACT, or within a predicate block the set of R33. -/
def activeSet (c : Crew) : ThreadSet :=
  match c.blk with
  | none => c.act
  | some b => if b.pattern.getLsbD 0 then c.act &&& b.set else c.act &&& ~~~ b.set

/-! ### Causes -/

/-- The code of a cause (R294, R338). -/
def Cause.code : Cause → Nat
  | .illegal => 0x01 | .priv => 0x02 | .rstkOvf => 0x03 | .rstkUnf => 0x04 | .blkFault => 0x05
  | .tokenFault => 0x06 | .xlate => 0x07 | .align => 0x08 | .perm => 0x09 | .depcntUnderflow => 0x0A
  | .seqDup => 0x0B | .hazard => 0x0C | .eccUncorr => 0x0D | .mxForm => 0x0E | .spawnRefused => 0x0F
  | .trap => 0x10 | .bkpt => 0x11 | .clauseForm => 0x12 | .pblkForm => 0x13 | .preempt => 0x14
  | .relayCfg => 0x15 | .srchMask => 0x16 | .paceSilent => 0x17 | .collTimeout => 0x18 | .double => 0x19
  | .ctxLost => 0x1A | .codeRefused => 0x1B | .collForm => 0x1C | .other n => n.toNat

/-- Every cause that the manual names. -/
def Cause.all : List Cause :=
  [.illegal, .priv, .rstkOvf, .rstkUnf, .blkFault, .tokenFault, .xlate, .align, .perm, .depcntUnderflow, .seqDup,
   .hazard, .eccUncorr, .mxForm, .spawnRefused, .trap, .bkpt, .clauseForm, .pblkForm, .preempt, .relayCfg, .srchMask,
   .paceSilent, .collTimeout, .double, .ctxLost, .codeRefused, .collForm]

/-- The cause of a code; a code that names none is kept as it is. -/
def Cause.ofCode (n : Nat) : Cause := (Cause.all.find? fun c => c.code == n).getD (.other (BitVec.ofNat 8 n))

/-- A trap at the word of the crew in focus. -/
def trapHere (s : State) (cause : Cause) (addr info : Word) : TrapReq := ⟨cause, s.c.pc, addr, info, false, 0⟩

/-! ### Physical memory -/

/-- The die whose HBM holds a physical address, for an address in HBM (R181). -/
def dieOfPa (pa : Nat) : Nat := pa / 0x2800000000

/-- The physical address has HBM behind it (R181). -/
def inHbm (pa : Nat) : Bool := pa < 0xA000000000

/-- The physical address is host memory (R181). -/
def inHost (pa : Nat) : Bool := decide (0x8000000000000 ≤ pa) && decide (pa < 0x10000000000000)

/-- The address reads as the mask ROM (R362). -/
def inRom (s : State) (pa : Nat) : Bool :=
  inHbm pa && decide (pa % 0x2800000000 < 65536) && s.boot.romovl.getLsbD (dieOfPa pa)

/-- The byte at a physical address. -/
def readByte (s : State) (pa : Nat) : Byte :=
  if inRom s pa then Config.maskRom (dieOfPa pa) (pa % 0x2800000000) else look 0 s.mem pa

/-- A byte written at a physical address; under the mask ROM overlay it is dropped (R362). -/
def writeByte (s : State) (pa : Nat) (b : Byte) : State :=
  if inRom s pa then s else { s with mem := store 0 s.mem pa b }

/-- `n` bytes from a physical address upward. -/
def readBytes (s : State) (pa : Nat) : Nat → List Byte
  | 0 => []
  | n + 1 => readByte s pa :: readBytes s (pa + 1) n

/-- Bytes written from a physical address upward. -/
def writeBytes (s : State) (pa : Nat) : List Byte → State
  | [] => s
  | b :: bs => writeBytes (writeByte s pa b) (pa + 1) bs

/-- The little-endian number in `n` bytes of physical memory. -/
def readNat (s : State) (pa n : Nat) : Nat := ofBytes (readBytes s pa n)

/-- The lowest `n` bytes of a number written to physical memory, with no other effect. -/
def writeNat (s : State) (pa n x : Nat) : State := writeBytes s pa (toBytes n x)

/-! ### Home slices -/

/-- The fold of PA[51:8] in groups of `n` bits (R180, R229, R230). -/
def foldBits (n : Nat) : Nat → Nat → Nat
  | 0, _ => 0
  | k + 1, x => (x % 2 ^ n) ^^^ foldBits n k (x / 2 ^ n)

/-- The home slice of a physical address in a partition, under the page's policy (R180, R327). -/
def homeSlice (s : State) (part pa : Nat) (dieLocal : Bool) : Nat :=
  let h := foldBits 7 7 (pa / 256)
  let dies := partDies s part
  if dieLocal && !inHost pa then 32 * dieOfPa pa + h % 32
  else 32 * dies.getD (h / 32 % max 1 dies.length) 0 + h % 32

/-! ### Translation -/

/-- A physical address with its home slice. -/
structure Place where
  pa   : Nat
  home : Nat
deriving DecidableEq, Repr

/-- The permissions an access needs (R183). -/
structure Need where
  r : Bool
  w : Bool
  x : Bool
deriving DecidableEq, Repr

def needR : Need := ⟨true, false, false⟩
def needW : Need := ⟨false, true, false⟩
def needRW : Need := ⟨true, true, false⟩
def needX : Need := ⟨false, false, true⟩

/-- The bytes of a page by its SIZE field, as a power of two. R183 gives SIZE 5 to 7 no meaning; they give no page, and the
walk raises XLATE (DEDUCED, log 95). -/
def pageLog : Nat → Option Nat
  | 0 => some 12
  | 1 => some 16
  | 2 => some 21
  | 3 => some 25
  | 4 => some 29
  | _ => none

/-- The page lies in storage that the partition reaches (R181, R327). -/
def pageOk (s : State) (part base log : Nat) : Bool :=
  (decide (base + 2 ^ log ≤ 0xA000000000) && partOfDie s (dieOfPa base) == part) ||
  (decide (0x8000000000000 ≤ base) && decide (base + 2 ^ log ≤ 0x10000000000000))

/-- The leaf entry of the walk for `va`: the table at `tbl` serves the first index of the list (R183). The list holds
the low bit of the index of each level left, with the level's number. -/
def walk (s : State) (va : Nat) : List (Nat × Nat) → Nat → Option Nat
  | [], _ => none
  | (lvl, lo) :: rest, tbl =>
    let e := readNat s (tbl + 8 * bits va lo 9) 8
    if !bit e 0 || bits e 52 12 ≠ 0 || bits e 9 3 ≠ 0 then none
    else if bit e 1 then
      if lvl < 4 || (lvl == 4 && decide (bits e 6 3 < 2)) || (lvl == 5 && decide (2 ≤ bits e 6 3)) then none
      else some e
    else if bits e 2 7 ≠ 0 then none
    else walk s va rest (4096 * bits e 12 40)

/-- The levels of the walk, with the low bit of each index (R183). -/
def levels : List (Nat × Nat) := [(1, 48), (2, 39), (3, 30), (4, 21), (5, 12)]

/-- The publish entry of an address space that covers an address (R262, R263). -/
def pubAt (s : State) (part asn va : Nat) : Option PubEntry :=
  s.pubs.find? fun p => p.part == part && p.asn == asn && decide (p.vbase ≤ va) && decide (va < p.vbase + 2 ^ (21 + p.size))

/-- Translation of a virtual address (R182, R183, R327, R362), and the publish table applied to its result (R263).
`foreman` holds for an access of a foreman crew, `shadow` for a write by an engine; every other access, what the hardware
writes itself among them, takes the live side (DESIGN CHOICE, log 97). An access of a foreman crew by physical address to one
that has no backing raises XLATE, as a page table entry that names it does (DEDUCED, log 96). -/
def translate (s : State) (part asn : Nat) (foreman shadow : Bool) (need : Need) (va : Nat) : Except Cause Place :=
  if 2 ^ 57 ≤ va then .error .xlate
  else if foreman && asn == 0 && s.boot.dirbase.getD part 0 == 0 then
    if inHbm va || inHost va then .ok ⟨va, homeSlice s part va false⟩ else .error .xlate
  else
    let dir := readNat s ((s.boot.dirbase.getD part 0).toNat + 16 * asn) 8
    if !bit dir 0 then .error .xlate
    else
      match walk s va levels (4096 * bits dir 12 40) with
      | none => .error .xlate
      | some e =>
        match pageLog (bits e 6 3) with
        | none => .error .xlate
        | some log =>
          let base := 4096 * bits e 12 40
          if base % 2 ^ log ≠ 0 || !pageOk s part base log then .error .xlate
          else if (need.r && !bit e 2) || (need.w && !bit e 3) || (need.x && !bit e 4) then .error .perm
          else
            match pubAt s part asn va with
            | none => .ok ⟨base + va % 2 ^ log, homeSlice s part (base + va % 2 ^ log) (bit e 5)⟩
            | some p =>
              let pa := (if p.live != shadow then p.pbase1 else p.pbase0) + (va - p.vbase)
              if inHbm pa && partOfDie s (dieOfPa pa) != part then .error .xlate
              else .ok ⟨pa, homeSlice s part pa (bit e 5)⟩

/-- Translation for the crew in focus. -/
def crewXlate (s : State) (need : Need) (va : Nat) : Except Cause Place :=
  translate s s.part (galAsn s.g) (s.c.privl == 2) false need va

/-! ### Region blocks -/

/-- A field of `n` bytes at offset `off` of the region block of a record; 0 for a record without a region. -/
def rcbField (s : State) (r : Record) (off n : Nat) : Nat :=
  match r.path with
  | [] => 0
  | pa :: _ => readNat s (pa + off) n

/-- The records that stand for the regions now known to the part: of galleries, pending and ready records. -/
def State.regionRecords (s : State) : List Record :=
  s.allGals.map (·.rcd) ++ s.saved.map (·.gal.rcd) ++ s.records ++ (s.forming.map (·.records)).flatten

/-- A byte range at a physical address meets an area of an address space, given by its base and its bytes: page by
page, whatever mapping the access itself came through. -/
def meetsArea (s : State) (part asn base n pa len : Nat) : Bool :=
  (List.range ((base % 4096 + n + 4095) / 4096)).any fun i =>
    let lo := max base (4096 * (base / 4096 + i))
    match translate s part asn false false ⟨false, false, false⟩ lo with
    | .error _ => false
    | .ok p => decide (p.pa < pa + len) && decide (pa < p.pa + (min (4096 * (lo / 4096 + 1)) (base + n) - lo))

/-- The physical byte range meets the save pool or the image pool of a region, given by its block (R290). -/
def meetsPool (s : State) (part block pa n : Nat) : Bool :=
  meetsArea s part (readNat s (block + 0x20) 2) (readNat s (block + 0x68) 8) (8192 * readNat s (block + 0x70) 2) pa n ||
  meetsArea s part (readNat s (block + 0x20) 2) (readNat s (block + 0x78) 8) (readNat s (block + 0x80) 8) pa n

/-- The physical byte range meets the Lamproom spill area of a region, given by its block (R230). -/
def meetsSpill (s : State) (part block pa n : Nat) : Bool :=
  meetsArea s part (readNat s (block + 0x20) 2) (readNat s (block + 0x50) 8) (readNat s (block + 0x58) 8) pa n

/-- The physical byte range lies in the save pool or the image pool of a region of the partition (R290). -/
def inPools (s : State) (part pa n : Nat) : Bool := s.regions.any fun r => r.1 == part && meetsPool s part r.2 pa n

/-- The physical byte range lies in the Lamproom spill area of a region of the partition (R230). -/
def inSpill (s : State) (part pa n : Nat) : Bool := s.regions.any fun r => r.1 == part && meetsSpill s part r.2 pa n

/-- The physical byte range meets the storage of a configured Relay (R240). -/
def inRelayStore (s : State) (pa n : Nat) : Bool :=
  s.relays.any fun r => r.store.any fun p => decide (p.1 < pa + n) && decide (pa < p.1 + p.2)

/-- The physical byte range meets the control block of a configured Relay (R240). -/
def inRelayBlock (s : State) (pa n : Nat) : Bool :=
  s.relays.any fun r => decide (r.blk < pa + n) && decide (pa < r.blk + 64)

/-- The physical byte range meets the line of the pace word (R351). -/
def inPaceLine (s : State) (pa n : Nat) : Bool :=
  decide (256 * (s.boot.paceword.toNat / 256) < pa + n) && decide (pa < 256 * (s.boot.paceword.toNat / 256) + 256)

/-- The storage that the hardware owns refuses the access of a crew (R230, R240, R290, R351). -/
def ownedByHw (s : State) (pa n : Nat) (write : Bool) : Bool :=
  (s.c.privl == 0 && inPools s s.part pa n) || inSpill s s.part pa n ||
  inRelayStore s pa n || (write && (inRelayBlock s pa n || inPaceLine s pa n))

/-- The checks of one access of the crew in focus to global memory, in the order of R57: the address bits 63:57, the
alignment, translation and permission, and the storage that the hardware owns. -/
def checkGlobal (s : State) (need : Need) (va align n : Nat) : Except Cause Place :=
  if 2 ^ 57 ≤ va then .error .xlate
  else if va % align ≠ 0 then .error .align
  else
    match crewXlate s need va with
    | .error e => .error e
    | .ok p => if ownedByHw s p.pa n need.w then .error .perm else .ok p

/-! ### Vaults -/

/-- A vault address after the relocations of a gallery (R321): the latest that holds it, unless it lies in the
gallery's current granules. -/
def relocate (g : Gallery) (a : Nat) : Nat :=
  if decide (g.vbase.toNat ≤ a) && decide (a < g.vbase.toNat + 16384 * g.vgran) then a
  else
    match g.reloc.find? (fun r => decide (r.old ≤ a) && decide (a < r.old + r.len)) with
    | none => a
    | some r => r.new + (a - r.old)

/-- The control block of a partition, as vault space shows it to a foreman core of the die (R363). -/
def isControl (die privl a : Nat) : Bool :=
  privl == 2 && bits a 22 7 == 127 && !bit a 31 && bits a 29 2 == die

/-- The checks of one vault access, in the order of R174 with R327 and R363. -/
def checkVault (s : State) (part die privl asn a size : Nat) : Except Cause Unit :=
  if isControl die privl a then (if a % size ≠ 0 then .error .align else .ok ())
  else if bit a 31 || decide (95 < bits a 22 7) || partOfDie s (bits a 29 2) != part then .error .xlate
  else if a % size ≠ 0 then .error .align
  else if bits a 22 7 == 0 && decide (privl < 2) then .error .perm
  else if look 65536 s.halves (a / 2 ^ 21) ≠ asn then .error .perm
  else .ok ()

/-- A byte of the vaults. -/
def readVault (s : State) (a : Nat) : Byte := look 0 s.vault a

/-- Bytes written to the vaults. -/
def writeVault (s : State) (a : Nat) : List Byte → State
  | [] => s
  | b :: bs => writeVault { s with vault := store 0 s.vault a b } (a + 1) bs

/-- `n` bytes of the vaults. -/
def vaultBytes (s : State) (a : Nat) : Nat → List Byte
  | 0 => []
  | n + 1 => readVault s a :: vaultBytes s (a + 1) n

/-! ### The crew's own view of memory (R19) -/

/-- The byte the crew's own pending stores give an address, the youngest first. -/
def pendingByte (l : List PStore) (vault : Bool) (a : Nat) : Option Byte :=
  ((l.map (·.writes)).flatten).foldl
    (fun r w => if w.vault == vault && decide (w.addr ≤ a) && decide (a < w.addr + w.bytes.length)
      then some (w.bytes.getD (a - w.addr) 0) else r) none

/-- `n` bytes as the crew in focus reads them: its own earlier stores, else what stands in the vault or memory. Under
the mask ROM overlay the ROM stands, since a store there is dropped (R362). -/
def ownBytes (s : State) (vault : Bool) (a : Nat) : Nat → List Byte
  | 0 => []
  | n + 1 =>
    (match if !vault && inRom s a then none else pendingByte s.c.stores vault a with
     | some b => b
     | none => if vault then readVault s a else readByte s a) :: ownBytes s vault (a + 1) n

/-- The little-endian number in `n` bytes as the crew in focus reads them. -/
def ownNat (s : State) (vault : Bool) (a n : Nat) : Nat := ofBytes (ownBytes s vault a n)

/-- An uncorrectable 8-byte word lies in the range. What the mask ROM overlay hides is not read (R304, R362). -/
def poisoned (s : State) (vault : Bool) (a n : Nat) : Bool :=
  (if vault then s.badVault else s.poison).any fun w =>
    decide (8 * w < a + n) && decide (a < 8 * w + 8) && (vault || !inRom s (8 * w))

/-- A store that the crew has pending writes the whole 8-byte word, and so clears its poison (R19, R304). -/
def pendingWhole (l : List PStore) (vault : Bool) (w : Nat) : Bool :=
  (l.map (·.writes)).flatten.any fun x =>
    x.vault == vault && decide (x.addr ≤ 8 * w) && decide (8 * w + 8 ≤ x.addr + x.bytes.length)

/-- The crew in focus, reading the range, meets an uncorrectable 8-byte word that no pending store of its own has
written whole (R19, R304). -/
def ownPoisoned (s : State) (vault : Bool) (a n : Nat) : Bool :=
  (if vault then s.badVault else s.poison).any fun w =>
    decide (8 * w < a + n) && decide (a < 8 * w + 8) && (vault || !inRom s (8 * w)) && !pendingWhole s.c.stores vault w

/-! ### Waking a crew (R232, R301) -/

/-- The gallery stands in a saved context, not on a core. -/
def isSaved (s : State) (gid : Nat) : Bool := s.saved.any (·.gal.gid == gid)

/-- PKIND of the save record (R293). -/
def pkind : Status → Nat
  | .parked (.waitu _) => 1
  | .parked .barc => 2
  | .parked .spawn => 3
  | .parked .blkacq => 4
  | .parked (.twait _ _) => 5
  | _ => 0

/-- Word 0x0000 of a crew's save record (R293). -/
def saveWord0 (s : State) (c : Crew) : Nat :=
  2 ^ 63 + 2 ^ 6 * pkind c.status + bitAt (pkind c.status != 0) 5
    + bitAt (s.records.any fun r => r.resume == some c.gid) 4 + bitAt (isSaved s c.gid) 3
    + 2 * (c.woken.getD 0).toNat + bitAt c.woken.isSome 0

/-- Translation for what the hardware does in the address space of a record's region. -/
def regionXlate (s : State) (r : Record) (need : Need) (va : Nat) : Except Cause Place :=
  translate s r.part r.asn (r.path == []) false need va

/-- The place of an offset of a crew's save record; a crew without a record has none (log 20). -/
def savePlace (s : State) (g : Gallery) (save : Word) (off : Nat) : Option Nat :=
  if save = 0 then none else
  match regionXlate s g.rcd ⟨false, false, false⟩ (save.toNat + off) with
  | .error _ => none
  | .ok p => some p.pa

/-- Bytes the hardware writes at an offset of a crew's save record, without a look at the Lamproom, which is made
after it; a crew without a record has nothing written, and a byte whose page does not translate is dropped (log 20). -/
def savePut (s : State) (g : Gallery) (save : Word) (off : Nat) : List Byte → State
  | [] => s
  | b :: bs =>
    savePut (match savePlace s g save off with
      | none => s
      | some pa => writeByte s pa b) g save (off + 1) bs

/-- The 8-byte words of a save record that a write of `n` bytes covers whole lose their poison, but for those that the mask
ROM overlay hides, where the write is dropped (R304, R362). -/
def saveMend (s : State) (g : Gallery) (save : Word) (off n : Nat) : State :=
  if s.poison = [] then s else
  { s with poison := s.poison.filter fun w => inRom s (8 * w) ||
      !(List.range (n / 8)).any fun i => savePlace s g save (8 * ((off + 7) / 8) + 8 * i) == some (8 * w) &&
        decide (8 * ((off + 7) / 8) + 8 * i + 8 ≤ off + n) }

/-- `n` bytes of a crew's save record; 0 where it cannot be read. -/
def saveRead (s : State) (g : Gallery) (save : Word) (off : Nat) : Nat → List Byte
  | 0 => []
  | n + 1 =>
    (match savePlace s g save off with
     | none => 0
     | some pa => readByte s pa) :: saveRead s g save (off + 1) n

/-- `n` bytes of a save record from an offset, a multiple of 8, hold an uncorrectable word (R304). -/
def saveSpoiled (s : State) (g : Gallery) (save : Word) (off n : Nat) : Bool :=
  s.poison != [] && (List.range ((n + 7) / 8)).any fun i =>
    match savePlace s g save (off + 8 * i) with
    | none => false
    | some pa => poisoned s false pa 8

/-- The save record's word 0x0000 brought up to date, without a look at the Lamproom. -/
def putSaveQuiet (s : State) (uid : Nat) : State :=
  match s.crew? uid with
  | none => s
  | some c =>
    match s.gal? c.gid with
    | none => s
    | some g => saveMend (savePut s g c.save 0 (toBytes 8 (saveWord0 s c))) g c.save 0 8

/-! ### What a region uses (R145, R155, R290) -/

/-- The gangs of a number of threads (R157). -/
def gangs (threads : Nat) : Nat := (threads + 31) / 32

/-- The physical address of a record's region block; 0 for a record without a region. -/
def Record.block (r : Record) : Nat := r.path.headD 0

/-- The galleries resident on cores that a record started. -/
def residents (s : State) : List Gallery := s.allGals.filter fun g => g.rcd.path != []

/-- Every record of a region that is enqueued and not yet placed. -/
def unplaced (s : State) : List Record := s.records ++ (s.forming.map (·.records)).flatten

/-- A sum over a list. -/
def total {α : Type} (l : List α) (f : α → Nat) : Nat := l.foldl (fun a x => a + f x) 0

/-- The galleries resident below a region block. -/
def under (s : State) (pa : Nat) : List Gallery := (residents s).filter fun g => g.rcd.path.contains pa

def usedReg (s : State) (pa : Nat) : Nat := total (under s pa) fun g => gangs g.nthr * g.nblk
def usedVlt (s : State) (pa : Nat) : Nat := total (under s pa) (·.vgran)
def usedGal (s : State) (pa : Nat) : Nat := (under s pa).length

/-- Every gallery that has been placed and has not retired, with those that are swapped out: its tokens stay drawn
(R356). -/
def unretired (s : State) : List Gallery := residents s ++ s.saved.map (·.gal)

def usedTok (s : State) (pa : Nat) : Nat := total ((unretired s).filter fun g => g.rcd.path.contains pa) (·.rcd.mtok)
def pendOf (s : State) (pa : Nat) : Nat := ((unplaced s).filter fun r => r.path.contains pa).length

/-- Save records of a region's own pool in use: a crew keeps its record through swap and migration. -/
def usedSave (s : State) (pa : Nat) : Nat :=
  let mine (gs : List Gallery) (cs : List Crew) : Nat :=
    total (gs.filter fun g => g.rcd.block == pa && g.rcd.path != []) fun g =>
      (cs.filter fun c => c.gid == g.gid && c.save != 0).length
  mine s.allGals s.allCrews + total s.saved fun v => mine [v.gal] v.crews

/-- The bytes of a gallery image (R300). -/
def imageSize (g : Gallery) : Nat :=
  let n := 4096 + 2048 * (gangs g.nthr * g.nblk) + 16384 * g.vgran
  65536 * ((n + 65535) / 65536)

/-- The images of a region's own pool, as (address, size). -/
def imagesOf (s : State) (pa : Nat) : List (Nat × Nat) :=
  s.saved.filterMap fun v =>
    match v.image with
    | some a => if v.pooled && v.gal.rcd.block == pa && v.gal.rcd.path != [] then some (a, imageSize v.gal) else none
    | none => none

/-- A record enqueued before another. -/
def earliest : List Record → Option Record
  | [] => none
  | r :: l =>
    match earliest l with
    | none => some r
    | some q => if r.arrival ≤ q.arrival then some r else some q

/-- The region's ready record that is not placed and was enqueued first (R145). -/
def oldest (s : State) (pa : Nat) : Option Record :=
  earliest ((unplaced s).filter fun r => r.block == pa && r.path != [] && r.ready.isSome)

/-- The words of a region block that the hardware owns, as (offset, value) (R145, R290). -/
def regionWords (s : State) (pa : Nat) : List (Nat × Nat) :=
  [(0xC0, bits (usedReg s pa) 0 16 + 2 ^ 16 * bits (usedVlt s pa) 0 16 + 2 ^ 32 * bits (usedGal s pa) 0 16 +
     2 ^ 48 * bits (pendOf s pa) 0 16),
   (0xC8, bits (usedTok s pa) 0 16),
   (0xD0, match oldest s pa with
     | some r => r.name.toNat
     | none => 0),
   (0xD8, bits (usedSave s pa) 0 16 + 2 ^ 16 * bits (total (imagesOf s pa) (·.2) / 65536) 0 32)]

/-- The words of a region block that the hardware owns, brought up to date without a look at the Lamproom, which is
made after it. -/
def syncQuiet (s : State) (path : List Nat) : State :=
  path.foldl (fun s pa =>
    (regionWords s pa).foldl (fun t x => if readNat t (pa + x.1) 8 = x.2 then t else writeNat t (pa + x.1) 8 x.2) s) s

/-- A resume record for a gallery swapped out to an image, unless one is queued already, with PEND and OLDEST of its
regions (R145, R301). The manual names no releasing core or position for it; it takes 511 and 0, as what no crew
releases has (DESIGN CHOICE, log 73). -/
def enqueueResume (s : State) (gid : Nat) : State :=
  match s.saved.find? (·.gal.gid == gid) with
  | none => s
  | some v =>
    match v.image with
    | none => s
    | some img =>
      if s.records.any (fun r => r.resume == some gid) then s
      else syncQuiet { s with
        records := s.records ++ [{ v.gal.rcd with
          name := w64 img, kind := 3, arg := w64 img, dep := 0, ready := some ⟨s.timens.toNat, 511, 0, s.arrivals⟩,
          arrival := s.arrivals, resume := some gid, qslot := none }]
        arrivals := s.arrivals + 1 } v.gal.rcd.path

/-- WAKE and STATUS set in the waiter's save record, with the resume record of a swapped-out gallery (R232). The lines
written are looked at by whoever wakes (R231). -/
def wake (s : State) (uid : Nat) (status : BitVec 2) : State :=
  match s.crew? uid with
  | none => s
  | some c => putSaveQuiet (enqueueResume (s.onCrew uid fun c => { c with woken := some status }) c.gid) uid

/-! ### The Lamproom and the writes that the hardware makes (R188, R189, R231) -/

/-- The condition of a wait on a word `x` with operand `y` at its width (R227). -/
def waitHolds (cmp : BitVec 3) (w32 : Bool) (x y : Nat) : Bool :=
  let w := if w32 then 32 else 64
  let x := x % 2 ^ w
  let y := y % 2 ^ w
  match cmp.toNat with
  | 0 => x == y
  | 1 => x != y
  | 2 => decide (signed w x < signed w y)
  | 3 => decide (signed w y ≤ signed w x)
  | 4 => decide (x < y)
  | 5 => decide (y ≤ x)
  | 6 => x &&& y != 0
  | _ => x &&& y == 0

/-- The entry's condition holds of memory as it stands. -/
def lampHolds (s : State) (e : LampEntry) : Bool :=
  waitHolds e.cmp e.w32 (readNat s e.pa (if e.w32 then 4 else 8)) e.y.toNat

/-- The entry is woken before the other: higher PRIO first, then in registration order (R231). -/
def lampBefore (a b : LampEntry) : Bool := b.prio.toNat < a.prio.toNat || (a.prio == b.prio && decide (a.regno ≤ b.regno))

/-- An entry put into its place in the waking order. -/
def lampInsert (e : LampEntry) : List LampEntry → List LampEntry
  | [] => [e]
  | f :: l => if lampBefore e f then e :: f :: l else f :: lampInsert e l

/-- The slices whose spilled entries are gone clear their filters (R230). -/
def clearFilters (s : State) : State :=
  { s with filter := s.filter.filter fun f => s.lamps.any fun e => e.spilled.isSome && e.home == f / 65536 }

/-- Entries leave the Lamproom and their crews are woken with a status, in the waking order (R231, R233). -/
def wakeEntries (s : State) (hit : LampEntry → Bool) (status : BitVec 2) : State :=
  let out := (s.lamps.filter hit).foldr lampInsert []
  clearFilters (out.foldl (fun s e => wake s e.uid status) { s with lamps := s.lamps.filter fun e => !hit e })

/-- The entries of a line are evaluated after a write to it (R231). -/
def relight (s : State) (line : Nat) : State :=
  wakeEntries s (fun e => e.pa / 256 == line && lampHolds s e) 0

/-- The lines that waking the crews of some entries has written: of their save records, and of the region blocks of a
gallery that is swapped out (R189, R231). -/
def wokenLines (s : State) (l : List LampEntry) : List Nat :=
  (l.map fun e =>
    match s.crew? e.uid with
    | none => []
    | some c =>
      match s.gal? c.gid with
      | none => []
      | some g => ((savePlace s g c.save 0).map (· / 256)).toList ++
          if isSaved s c.gid then g.rcd.path.map (· / 256) else []).flatten

/-- The entries of some lines are evaluated, and those of the lines that the wakes write in turn. The first argument
bounds the lines looked at. -/
def relightLines : Nat → State → List Nat → State
  | 0, s, _ => s
  | _, s, [] => s
  | n + 1, s, line :: rest =>
    let out := s.lamps.filter fun e => e.pa / 256 == line && lampHolds s e
    let s1 := relight s line
    relightLines n s1 (rest ++ if out = [] then [] else wokenLines s1 out)

/-- A bound on the lines that are looked at after `n` lines are written: each entry is woken once, and writes the line
of its save record and one for each block of a path. -/
def lineBound (s : State) (n : Nat) : Nat :=
  n + total s.lamps fun e => 1 + ((s.galOf e.uid).map fun g => g.rcd.path.length).getD 0

/-- The entries of some lines are evaluated (R231). -/
def relightAll (s : State) (lines : List Nat) : State :=
  if s.lamps = [] then s else relightLines (lineBound s lines.length) s lines

/-- The lines that a write of `n` bytes meets. -/
def linesOf (pa n : Nat) : List Nat := (List.range ((pa + n + 255) / 256 - pa / 256)).map (pa / 256 + ·)

/-- The entries of the lines that a write of `n` bytes meets are evaluated (R231). -/
def relightRun (s : State) (pa n : Nat) : State := relightAll s (linesOf pa n)

/-- Bytes the hardware writes at an offset of a crew's save record, and the entries of their lines (R231, R293). -/
def saveWrite (s : State) (g : Gallery) (save : Word) (off : Nat) (bs : List Byte) : State :=
  let s1 := saveMend (savePut s g save off bs) g save off bs.length
  if s1.lamps = [] then s1 else
  relightAll s1 (((List.range bs.length).filterMap fun i => (savePlace s1 g save (off + i)).map (· / 256)).eraseDups)

/-- The save record's word 0x0000 brought up to date (R293). -/
def putSave0 (s : State) (uid : Nat) : State :=
  match s.crew? uid with
  | none => s
  | some c =>
    match s.gal? c.gid with
    | none => s
    | some g => saveWrite s g c.save 0 (toBytes 8 (saveWord0 s c))

/-- The words that a write covers whole lose their poison (R304). -/
def mend (l : List Nat) (a n : Nat) : List Nat := l.filter fun w => !(decide (a ≤ 8 * w) && decide (8 * w + 8 ≤ a + n))

/-- The bytes of a write, and the poison that it clears: none under the mask ROM overlay, where it is dropped (R304,
R362). -/
def putBytes (s : State) (pa : Nat) (bs : List Byte) : State :=
  writeBytes { s with poison := s.poison.filter fun w => inRom s (8 * w) || (mend [w] pa bs.length == [w]) } pa bs

/-- A write that the hardware makes itself, a ring slot or its index (R188, R189): the bytes, and the entries of its
lines. -/
def hardwareWrite (s : State) (pa : Nat) (bs : List Byte) : State := relightRun (putBytes s pa bs) pa bs.length

/-! ### Rings and fault records (R187, R188, R296) -/

/-- The control block of a house ring. -/
structure Ring where
  base : Nat
  n    : Nat
  k    : Nat
  prod : Nat
  cons : Nat
deriving DecidableEq, Repr

/-- The control block at a physical address, if it can be read and does not break R187. One that holds an uncorrectable
word cannot be used either (R304; DESIGN CHOICE, log 40). -/
def ringAt (s : State) (pa : Nat) : Option Ring :=
  if poisoned s false pa 32 then none else
  let w1 := readNat s (pa + 8) 8
  let r : Ring := ⟨readNat s pa 8, bits w1 0 5, bits w1 8 5, readNat s (pa + 16) 8, readNat s (pa + 24) 8⟩
  if bits w1 5 3 ≠ 0 || bits w1 13 3 ≠ 0 || bits w1 17 47 ≠ 0 || decide (2 ^ 32 ≤ r.prod) || decide (2 ^ 32 ≤ r.cons)
    || decide (r.n < 1) || decide (16 < r.n) || decide (r.k < 7) || decide (12 < r.k) || r.base % 2 ^ r.k ≠ 0
  then none else some r

/-- The address of slot `i` of a ring. -/
def Ring.slot (r : Ring) (i : Nat) : Nat := r.base + (i % 2 ^ r.n) * 2 ^ r.k

/-- The phase of slot `i`: bit `n` of `i`. -/
def Ring.phase (r : Ring) (i : Nat) : Bool := bit i r.n

/-- The ring is full. -/
def Ring.full (r : Ring) : Bool := (r.prod + 2 ^ 32 - r.cons) % 2 ^ 32 == 2 ^ r.n

/-- LOST set in the control block at a physical address (R188); in a word that is uncorrectable it cannot be (R304). -/
def setLost (s : State) (pa : Nat) : State :=
  if poisoned s false (pa + 8) 8 then s else hardwareWrite s (pa + 8) (toBytes 8 (readNat s (pa + 8) 8 ||| 2 ^ 16))

/-- A dropped slot or record is counted in ERRCNT (R188, R329). -/
def countError (s : State) : State := { s with errcnt := s.errcnt + 1 }

/-- LOST set in the control block of a ring that a hardware producer cannot use, where the block can be written, and the
drop counted (R188). `xl` translates an address of the ring's space. -/
def dropSlot (s : State) (xl : State → Need → Nat → Except Cause Place) (cb : Nat) : State :=
  match xl s needW cb with
  | .error _ => countError s
  | .ok p => countError (setLost s p.pa)

/-- A slot written by a hardware producer: payload, then header with its phase and byte 1, then PROD (R188). The
result tells whether the slot was written. A control block that can be written and not read is taken as a broken one is
(DESIGN CHOICE, log 40). -/
def ringPush (s : State) (xl : State → Need → Nat → Except Cause Place) (cb : Nat) (head1 : Byte)
    (payload : List Byte) : State × Bool :=
  if cb % 32 ≠ 0 then (countError s, false) else
  match xl s needRW cb with
  | .error _ => (dropSlot s xl cb, false)
  | .ok p =>
    match ringAt s p.pa with
    | none => (countError (setLost s p.pa), false)
    | some r =>
      if r.full then (setLost s p.pa, false) else
      match xl s needW (r.slot r.prod) with
      | .error _ => (countError (setLost s p.pa), false)
      | .ok q =>
        let s1 := hardwareWrite s (q.pa + 8) payload
        let s2 := hardwareWrite s1 q.pa [BitVec.ofNat 8 (bitAt (r.phase r.prod) 7), head1, 0, 0, 0, 0, 0, 0]
        (hardwareWrite s2 (p.pa + 16) (toBytes 4 (r.prod + 1)), true)

/-- The fields of a fault record that its writer gives (R296). -/
structure FaultRec where
  cause  : Cause
  detail : Nat := 0
  fatal  : Bool := false
  halted : Bool := false
  crew   : Nat := 0x7FFF
  addr   : Word := 0
  obj    : Word := 0
  pc     : Word := 0
  tag    : Option (BitVec 6) := none
  peer   : Nat := 0
  save   : Word := 0
deriving DecidableEq, Repr

/-- The 64 bytes of a fault record (R296). -/
def FaultRec.bytes (f : FaultRec) (time : Word) : List Byte :=
  toBytes 8 (f.cause.code + 2 ^ 8 * f.detail + bitAt f.fatal 16 + bitAt f.halted 17) ++ toBytes 8 f.crew ++
  toBytes 8 f.addr.toNat ++ toBytes 8 f.obj.toNat ++ toBytes 8 f.pc.toNat ++ toBytes 8 time.toNat ++
  toBytes 8 ((f.tag.getD 0).toNat + bitAt f.tag.isSome 6 + 2 ^ 8 * f.peer) ++ toBytes 8 f.save.toNat

/-- Records that are not placed are dropped. PEND of the regions on their paths falls, so that the spawns parked on one of
these are retried in the next placement decision (R165, R306). -/
def dropUnplaced (s : State) (gone : Record → Bool) : State :=
  let fell := (((unplaced s).filter gone).flatMap (·.path)).eraseDups
  { s with
    records := s.records.filter fun r => !gone r
    forming := (s.forming.map fun f => { f with records := f.records.filter fun r => !gone r }).filter fun f =>
      f.records != []
    pendFell := s.pendFell ++ fell.filter fun pa => s.spawnq.any (·.path.contains pa) }

/-- A region is torn down: steps 1 to 3 of R306, with what its blocks say of the records dropped. -/
def tearOne (s : State) (part block : Nat) : State :=
  if s.tears.any (fun t => t.part == part && t.region == w64 block) then s else
  let mine (r : Record) : Bool := r.part == part && r.path != [] && r.block == block
  let s1 : State := { dropUnplaced s fun r => mine r && r.resume == none with
    tears := s.tears ++ [⟨part, w64 block, s.timens.toNat + 100000⟩] }
  let hit (e : LampEntry) : Bool :=
    match s1.galOf e.uid with
    | none => false
    | some g => mine g.rcd
  let paths := ((s.regionRecords.filter mine).map (·.path)).flatten.eraseDups
  let s2 : State := clearFilters { s1 with
    lamps := s1.lamps.filter fun e => !hit e, sweeps := s1.sweeps.filter fun e => !hit e }
  let out := (s1.lamps ++ s1.sweeps).filter hit
  let s3 := out.foldl (fun s e =>
    match s.crew? e.uid with
    | none => s
    | some c =>
      match c.status with
      | .parked .barc => putSaveQuiet (s.onCrew e.uid fun c => { c with status := .halted }) e.uid
      | _ => wake s e.uid 2) s2
  let s4 := syncQuiet ((s3.saved.filter fun v => mine v.gal.rcd).foldl (fun s v => enqueueResume s v.gal.gid) s3) paths
  relightAll s4 (wokenLines s4 out ++ paths.map (· / 256))

/-- The fault domain of a record's region is torn down; domain 0 holds the region alone (R306). -/
def tearDomain (s : State) (r : Record) : State :=
  if r.path = [] then s
  else if r.fdom = 0 then tearOne s r.part r.block
  else (s.regionRecords.filter fun q => q.path != [] && q.part == r.part && q.fdom == r.fdom).foldl
    (fun s q => tearOne s q.part q.block) s

/-- A fault record to the fault ring of a record's region; a region without a ring has it dropped and counted, and
where there is no region there is no record. A FATAL record tears the fault domain down (R296, R306, R365). -/
def regionFault (s : State) (r : Record) (f : FaultRec) : State :=
  if r.path = [] then s else
  let ring := rcbField s r 0x48 8
  let s1 := if ring == 0 then countError s
    else (ringPush s (fun s n va => regionXlate s r n va) ring (BitVec.ofNat 8 f.cause.code) (f.bytes s.timens)).1
  if f.fatal then tearDomain s1 r else s1

/-- A fault record that concerns the crew named `uid`, to its region. -/
def crewFault (s : State) (uid : Nat) (f : FaultRec) : State :=
  match s.crew? uid with
  | none => countError s
  | some c =>
    match s.gal? c.gid with
    | none => countError s
    | some g => regionFault s g.rcd { f with crew := crewId c, save := c.save }

/-! ### Writes at a home slice (R190, R225) -/

/-- Held contributions whose index a plain store has passed are discarded, each with a fault record (R225). -/
def dropPassed (s : State) (pa n : Nat) : State :=
  let gone (h : HeldContribution) : Bool :=
    decide (h.obj < pa + n) && decide (pa < h.obj + 16) &&
    decide (2 ^ 63 ≤ (h.index.toNat + 2 ^ 64 - readNat s (h.obj + 8) 8) % 2 ^ 64)
  (s.redq.filter gone).foldl
    (fun s h => regionFault s h.rcd
      { cause := .seqDup, crew := h.crew, addr := h.va, obj := h.va, pc := h.word, save := h.save })
    { s with redq := s.redq.filter fun h => !gone h }

/-- One write registered at its home slice: the bytes, the poison it clears, and the entries of its lines. -/
def registerWrite (s : State) (pa : Nat) (bs : List Byte) : State :=
  let s1 := putBytes s pa bs
  relightRun (if s1.redq = [] then s1 else dropPassed s1 pa bs.length) pa bs.length

/-! ### Retirement (R13) -/

/-- The counts of a crew's flags that can retire do so (R13): of a clause that is over, setA without results still to
land, setB without stores, reductions or answers still to come. -/
def retire (c : Crew) : Crew :=
  { c with incs := c.incs.filter fun i =>
      (i.clause == c.clause && decide (0 < c.left)) ||
      (if i.isB then c.stores.any (·.clause == i.clause) || c.acks.contains i.clause || c.redq.any (·.clause == i.clause)
       else c.land.any (·.clause == i.clause)) }

/-! ### Sequence-indexed reductions at the home slice (R220, R221, R225) -/

/-- How the slice answers a contribution. -/
inductive Answer where
  | accepted | duplicate | tooFar | poisoned
deriving DecidableEq, Repr

/-- Held contributions of an object are applied while one has index NEXT: ACC and NEXT are written as one write of
16 bytes (R221). The first argument bounds how many are applied; the number held is enough. -/
def applyHeld : Nat → State → Nat → State
  | 0, s, _ => s
  | n + 1, s, obj =>
    let next := readNat s (obj + 8) 8
    match s.redq.find? fun h => h.obj == obj && h.index.toNat == next with
    | none => s
    | some h =>
      let s1 := { s with redq := s.redq.filter (· != h) }
      let acc := if h.f64 then (fp64.add 0 (readNat s obj 8) h.value.toNat).bits
        else (fp32.add 0 (readNat s obj 4) (h.value.toNat % 2 ^ 32)).bits
      applyHeld n (registerWrite s1 obj (toBytes 8 acc ++ toBytes 8 ((next + 1) % 2 ^ 64))) obj

/-- The answer of the home slice to a contribution (R221); an object with an uncorrectable word cannot be read (R304). -/
def answerTo (s : State) (x : Contribution) : Answer :=
  let d := (x.index.toNat + 2 ^ 64 - readNat s (x.obj + 8) 8) % 2 ^ 64
  if poisoned s false x.obj 16 then .poisoned
  else if decide (2 ^ 63 ≤ d) || s.redq.any (fun h => h.obj == x.obj && h.index == x.index) then .duplicate
  else if 64 ≤ d then .tooFar
  else .accepted

/-- One contribution of the crew in focus at its home slice, in one slice step (R221). -/
def contribute (s : State) (x : Contribution) : State × Answer :=
  match answerTo s x with
  | .accepted =>
    let s1 := { s with redq := s.redq ++ [⟨x.obj, x.index, x.value, x.f64, s.g.rcd, crewId s.c, s.c.save, x.va, x.word⟩] }
    (applyHeld s1.redq.length s1 x.obj, .accepted)
  | a => (s, a)

/-- An access of the crew in focus that is not interlocked met an uncorrectable word: the fault record at once, and the
deferred ECC_UNCORR trap with the address accessed; a crew that has exited has the record alone (R294, R296, R304). -/
def deferEccAt (s : State) (addr : Word) (thread reg : Nat) (word : Word) : State :=
  let s1 := crewFault s s.c.uid
    { cause := .eccUncorr, addr := addr, obj := w64 (thread + 2 ^ 16 * reg), pc := word }
  if s.c.status = .exited then s1
  else { s1 with c := { s1.c with deferred :=
    s1.c.deferred ++ [⟨.eccUncorr, 0, addr, w64 (2 ^ 63 + word.toNat % 2 ^ 57), true, w64 (thread + 2 ^ 16 * reg)⟩] } }

/-- The duplicates of a `REDQ` whose contributions are all answered: the deferred SEQ_DUP of its lowest thread, or a
fault record if the crew has exited (R224). One execution of the word is named by its clause and its address. -/
def settleDups (s : State) : State :=
  let open_ (d : DupNote) : Bool := s.c.redq.any fun x => x.clause == d.clause && x.word == d.word
  let ready := s.c.dups.filter fun d => !open_ d
  let first := ready.filter fun d => !ready.any fun e =>
    e.clause == d.clause && e.word == d.word && decide (e.thread < d.thread)
  let s1 : State := { s with c := { s.c with dups := s.c.dups.filter open_ } }
  first.foldl (fun (s : State) d =>
    if s.c.status = .exited then crewFault s s.c.uid { cause := .seqDup, addr := d.va, obj := d.va, pc := d.word }
    else { s with c := { s.c with deferred :=
      s.c.deferred ++ [⟨.seqDup, 0, d.va, w64 (2 ^ 63 + d.word.toNat % 2 ^ 57), true, 0⟩] } }) s1

/-- A contribution of the crew in focus that lies too far ahead waits at its slice, behind those that came before it. -/
def refuse (s : State) (x : Contribution) : State :=
  { s with ids := s.ids + 1, c := { s.c with redq := s.c.redq.map fun y => if y = x then { x with seen := some s.ids } else y } }

/-- The crew in focus takes the answer to a contribution of its own: one that lies too far ahead waits (R221). -/
def takeAnswer (x : Contribution) : State × Answer → State
  | (s1, .tooFar) => if x.seen.isSome then s1 else refuse s1 x
  | (s1, .accepted) => { s1 with c := { s1.c with redq := s1.c.redq.filter (· != x) } }
  | (s1, .duplicate) =>
    { s1 with c := { s1.c with redq := s1.c.redq.filter (· != x), dups := s1.c.dups ++ [⟨x.clause, x.word, x.thread, x.va⟩] } }
  | (s1, .poisoned) =>
    deferEccAt { s1 with c := { s1.c with redq := s1.c.redq.filter (· != x) } } x.va x.thread x.reg x.word

/-- One pending contribution of the crew in focus is offered to its slice, with what its answer means for the crew. -/
def offer (s : State) (x : Contribution) : State :=
  let s1 := settleDups (takeAnswer x (contribute s x))
  { s1 with c := retire s1.c }

/-- The slice would not answer that the contribution lies too far ahead. -/
def answerable (s : State) (x : Contribution) : Bool := answerTo s x != .tooFar

/-- The state with the crew named `uid` in focus for one operation, if it is among the crews. -/
def inFocus (s : State) (uid : Nat) (f : State → State) : State :=
  if s.allCrews.any (·.uid == uid) then (f (s.focus uid)).focus s.c.uid else s

/-- Of some contributions that wait at their slices, each with its crew, the one that came first. -/
def firstSeen : List (Nat × Contribution) → Option (Nat × Contribution)
  | [] => none
  | x :: l =>
    match firstSeen l with
    | none => some x
    | some y => if x.2.seen.getD 0 ≤ y.2.seen.getD 0 then some x else some y

/-- The contributions that wait at their slices and no longer lie too far ahead, each with its crew. -/
def unblocked (s : State) : List (Nat × Contribution) :=
  s.allCrews.flatMap fun c => (c.redq.filter fun x => x.seen.isSome && answerable s x).map fun x => (c.uid, x)

/-- At most `n` contributions that wait at their slices are answered. -/
def retrySome : Nat → State → State
  | 0, s => s
  | n + 1, s =>
    match firstSeen (unblocked s) with
    | none => s
    | some (uid, x) => retrySome n (inFocus s uid fun s => offer s x)

/-- The contributions that wait at their slices are retried, in the order in which they came there, until those that are
left lie too far ahead (R200, R221). -/
def retryPending (s : State) : State := retrySome (total s.allCrews (·.redq.length)) s

/-- A contribution waits for NEXT of an object that a write of `n` bytes meets. -/
def nextMoved (s : State) (pa n : Nat) : Bool :=
  s.allCrews.any fun c => c.redq.any fun x => x.seen.isSome && decide (x.obj + 8 < pa + n) && decide (pa < x.obj + 16)

/-- What a contribution of the crew waits for is done (R194, R219). -/
def Crew.offers (c : Crew) (x : Contribution) : Bool := x.seen.isNone && !c.redq.any fun y => x.awaits.contains y.key

/-- At most `n` pending contributions of the crew in focus reach their slices, in program order and thread order; after each
of them those that wait at their slices are retried (R200, R221). -/
def offerSome : Nat → State → State
  | 0, s => s
  | n + 1, s =>
    match s.c.redq.find? s.c.offers with
    | none => s
    | some x => offerSome n (retryPending (offer s x))

/-- Every pending contribution of the crew in focus reaches its slice. -/
def offerAll (s : State) : State := if s.c.redq = [] then s else offerSome s.c.redq.length s

/-! ### Writes performed (R190) -/

/-- One write performed at its home slice. Where it moves NEXT of an object for which contributions wait, these are retried
in the same step (R221). -/
def performGlobal (s : State) (pa : Nat) (bs : List Byte) : State :=
  let s1 := registerWrite s pa bs
  if nextMoved s1 pa bs.length then retryPending s1 else s1

/-- One write performed at its home slice or its vault (R190). -/
def performWrite (s : State) (w : WriteAcc) : State :=
  if w.vault then writeVault { s with badVault := mend s.badVault w.addr w.bytes.length } w.addr w.bytes
  else performGlobal s w.addr w.bytes

/-- A number written at its home slice by an atomic, a cell operation or the hardware. -/
def performNat (s : State) (pa n x : Nat) : State := performGlobal s pa (toBytes n x)

/-- The filter bit of a line is set, so that a write there takes the slow path (R230, R231). -/
def filtered (s : State) (w : WriteAcc) : Bool :=
  !w.vault && s.filter.contains (65536 * w.home + foldBits 16 3 (w.addr / 256))

/-- Two writes meet. -/
def WriteAcc.meets (w x : WriteAcc) : Bool :=
  w.vault == x.vault && decide (w.addr < x.addr + x.bytes.length) && decide (x.addr < w.addr + w.bytes.length)

/-- Two stores write a common byte, so that they are performed in their order (R191, R192). -/
def PStore.meets (p q : PStore) : Bool := p.writes.any fun w => q.writes.any w.meets

/-- A store waits for a contribution of its crew (R194, R219). -/
def Crew.blocks (c : Crew) (p : PStore) : Bool := c.redq.any fun x => p.awaits.contains x.key

/-- The stores of a crew that can be performed now, in program order, and those that stay: what waits for a contribution, and
what meets an earlier store that stays. The first argument holds the latter so far. -/
def splitStores (c : Crew) : List PStore → List PStore → List PStore × List PStore
  | stay, [] => ([], stay)
  | stay, p :: l =>
    if c.blocks p || stay.any p.meets then splitStores c (stay ++ [p]) l
    else
      let r := splitStores c stay l
      (p :: r.1, r.2)

/-- The stores of a crew that can be performed now. -/
def Crew.ready (c : Crew) : List PStore := (splitStores c [] c.stores).1

/-- The stores of a crew that stay pending for now. -/
def Crew.staying (c : Crew) : List PStore := (splitStores c [] c.stores).2

/-- One write of a store of the crew in focus: one that met a parity error on its way is not made, and is reported (R304). -/
def performOf (p : PStore) (s : State) (w : WriteAcc) : State :=
  match p.spoiled.find? (·.1 == w.addr) with
  | none => performWrite s w
  | some (_, va) => crewFault s s.c.uid { cause := .eccUncorr, addr := va }

/-- Every store of the crew in focus that waits for nothing is performed, in program order. -/
def performAll (s : State) : State :=
  s.c.ready.foldl (fun s p => p.writes.foldl (performOf p) s) { s with c := { s.c with stores := s.c.staying } }

/-! ### Landings and drain (R71, R291) -/

/-- A long-latency result lands in the crew and gallery in focus (R71, R115). -/
def landResult (s : State) (l : Landing) : State :=
  let c := { s.c with xstat := s.c.xstat ||| l.xflags }
  match l.dest with
  | .scalar r x => { s with c := setS c r x }
  | .mark r x => { s with c := setM c r x }
  | .gang r xs => { s with c := c, g := setVs s.g r.toNat xs }
  | .lost thread reg addr word => deferEccAt s addr thread reg word

/-- Every result of the crew in focus lands. -/
def landAll (s : State) : State :=
  (s.c.land).foldl landResult { s with c := { s.c with land := [] } }

/-- The drain of the crew in focus: results land, stores are performed and acknowledged, and contributions are answered
as far as their slices accept them (R291). -/
def drain (s : State) : State :=
  let s1 := performAll (offerAll (performAll (landAll s)))
  { s1 with c := retire { s1.c with acks := [] } }

/-- The drain of the crew in focus has ended. -/
def drained (s : State) : Bool := s.c.redq == [] && s.c.stores == []

/-! ### Taking a trap (R288 to R293) -/

/-- An address as the PC holds it: bits 1:0 and the bits above bit 56 are always 0 (R8). An address with other bits there
that comes into the PC, as from a HANDLER, a relative target or the end of memory, loses them, and the crew goes on at
what is left (DEDUCED, log 25). -/
def normPc (x : Word) : Word := (x.setWidth 57).setWidth 64 &&& ~~~ 3

/-- The bit of a register in an OUTMARK entry: scalars from bit 0, thread registers from bit 64, marks from bit 192. -/
def Reg.outBit : Reg → Nat
  | .s n => n.toNat
  | .v n => 64 + n.toNat
  | .m n => 192 + n.toNat

/-- The OUTMARK area: 32 bytes for each flag (R293). -/
def outBytes (l : List OutMark) : List Byte :=
  ((List.range 12).map fun f => toBytes 32
    ((l.filter (·.flag == f)).foldl (fun a m => a ||| 2 ^ m.reg.outBit) 0)).flatten

/-- The register of a bit of an OUTMARK entry. -/
def outReg (b : Nat) : Reg :=
  if b < 64 then .s (BitVec.ofNat 6 b) else if b < 192 then .v (BitVec.ofNat 7 (b - 64)) else .m (BitVec.ofNat 3 (b - 192))

/-- The outstanding marks an OUTMARK area holds. -/
def outMarks (bs : List Byte) : List OutMark :=
  ((List.range 12).map fun f =>
    let x := ofBytes ((bs.drop (32 * f)).take 32)
    ((List.range 200).filter (bit x)).map fun b => ⟨outReg b, f⟩).flatten

/-- The 256 bytes of a thread set: bit t mod 8 of byte t div 8 is thread t (R132). -/
def setBytes (x : ThreadSet) : List Byte := toBytes 256 x.toNat

/-- The thread set of 256 bytes. -/
def setFrom (bs : List Byte) : ThreadSet := BitVec.ofNat 2048 (ofBytes bs)

/-- Words left in the open clause for a trap at TRAPPC: the clause of the word that raised it, one word fewer when
TRAPPC is the word after it, and 0 when TRAPPC is a header (R293, R312). -/
def leftFor (c : Crew) (t : TrapReq) : Nat := if t.header then 0 else if t.pc = c.pc then c.left else c.left - 1

/-- CLAUSEF for a trap (R293). With no open clause the flags are none. -/
def clausefFor (c : Crew) (t : TrapReq) : Nat :=
  let left := leftFor c t
  let cnt (b : Bool) : Nat := (c.incs.filter fun i => i.clause == c.clause && i.isB == b).length
  (if left = 0 then 15 * 2 ^ 6 + 15 * 2 ^ 10
   else left + c.setA.toNat * 2 ^ 6 + c.setB.toNat * 2 ^ 10 + cnt false * 2 ^ 14 + cnt true * 2 ^ 18) +
  match c.blk with
  | none => 0
  | some b => 2 ^ 22 + b.mark.toNat * 2 ^ 23 + b.left * 2 ^ 26 + b.pattern.toNat * 2 ^ 30

/-- The crew in focus is halted with a fault record; a foreman core sets FSTAT to 15 (R288, R289, R316, R365). -/
def haltCrew (s : State) (f : FaultRec) : State :=
  let s1 := putSave0 { s with c := { s.c with status := .halted } } s.c.uid
  let s2 := crewFault s1 s1.c.uid { f with halted := true }
  if s.c.privl = 2 then { s2 with boot := { s2.boot with fstat := s2.boot.fstat.setIfInBounds s.part 15 } } else s2

/-- The trap area of the save record written: TRAPPC, TRAPCAUSE, TRAPADDR, TRAPINFO, CLAUSEF, the program bank, the
outstanding marks, and BLOCKMK, which is zero outside a predicate block (R292, R293). -/
def saveTrap (s : State) (t : TrapReq) : State :=
  let put (s : State) (off : Nat) (bs : List Byte) : State := saveWrite s s.g s.c.save off bs
  let s1 := put s 0x10 (toBytes 8 t.pc.toNat ++ toBytes 8 t.cause.code ++ toBytes 8 t.addr.toNat ++ toBytes 8 t.info.toNat)
  let s2 := put s1 0x30 (toBytes 8 (clausefFor s.c t))
  let s3 := put s2 0x40 (s.c.pbank.toList.map fun w => toBytes 8 w.toNat).flatten
  let s4 := put s3 0x400 (outBytes s.c.outm)
  put s4 0x1E00 (setBytes (match s.c.blk with
    | none => 0
    | some b => b.set))

/-- The handler of the crew in focus: FTVEC for a foreman crew, else HANDLER of its own region's block
(R288, R290, R365). -/
def handlerOf (s : State) : Word :=
  if s.c.privl = 2 then s.boot.ftvec.getD s.part 0 else w64 (rcbField s s.g.rcd 0x60 8)

/-- OBJ of the record of a crew that a trap halts: the thread and register of an ECC_UNCORR, which a deferred trap does
not report in TRAPINFO; else the record, cell, object or control block that TRAPADDR names (R294, R296; log 23). -/
def TrapReq.recordObj (t : TrapReq) : Word :=
  match t.cause with
  | .eccUncorr => if t.info.getLsbD 63 then t.obj else t.info
  | .spawnRefused => t.addr
  | .depcntUnderflow => t.addr
  | .seqDup => t.addr
  | .relayCfg => t.addr
  | _ => 0

/-- DETAIL of that record: the check number of a SPAWN_REFUSED (R294, R296). -/
def TrapReq.recordDetail (t : TrapReq) : Nat := if t.cause = .spawnRefused then bits t.info.toNat 0 8 else 0

/-- Trap entry after the drain, with bank select 0: steps 2 to 5 of R288. -/
def enterTrap (s : State) (t : TrapReq) : State :=
  let h := handlerOf s
  if h = 0 || h.toNat % 4 ≠ 0 then
    haltCrew s { cause := t.cause, detail := t.recordDetail, addr := t.addr, obj := t.recordObj, pc := t.pc }
  else
    let s1 := saveTrap s t
    { s1 with c := { s1.c with
        clausef := BitVec.ofNat 38 (clausefFor s.c t), trapcause := BitVec.ofNat 8 t.cause.code, trappc := t.pc,
        trapaddr := t.addr, trapinfo := t.info, outSaved := s.c.outm,
        blkSaved := (match s.c.blk with
          | none => 0
          | some b => b.set), incs := [], outm := [], blk := none, left := 0,
        setA := 15, setB := 15, privl := if s.c.privl = 2 then 2 else 1, bank := true, pc := normPc h,
        status := .running } }

/-- Taking a trap (R288, R289): with bank select 1 the crew is halted with DOUBLE; otherwise it drains and enters the
handler, and goes on draining while a contribution is not accepted (R221). -/
def takeTrap (s : State) (t : TrapReq) : State :=
  if s.c.bank then
    haltCrew s { cause := .double, detail := t.cause.code, fatal := true, addr := t.addr, pc := s.c.pc }
  else
    let s1 := drain s
    if drained s1 then enterTrap s1 t else { s1 with c := { s1.c with status := .draining t } }

/-- CLAUSEF holds values that R313 refuses: a span above 32, a flag number 12 to 14, or a block of no words, of more
than eight, or of more words than the span. A span of 0 with a block is what trap entry saves for a `CLAUSE` within a block
(R34, R293), and is not refused. -/
def clausefBad (f : Nat) : Bool :=
  decide (32 < bits f 0 6) || (decide (12 ≤ bits f 6 4) && decide (bits f 6 4 ≤ 14)) ||
  (decide (12 ≤ bits f 10 4) && decide (bits f 10 4 ≤ 14)) ||
  (bit f 22 && (bits f 26 4 == 0 || decide (8 < bits f 26 4) || (bits f 0 6 != 0 && decide (bits f 0 6 < bits f 26 4))))

/-- The count that CLAUSEF gives setB when the flag holds at most 15 (R8): where a handler has written two counts of
one flag that together exceed it, setA's count stands and setB's falls to what is left (DESIGN CHOICE, log 13). -/
def secondCount (f : Nat) : Nat :=
  if bits f 6 4 = bits f 10 4 then min (bits f 18 4) (15 - bits f 14 4) else bits f 18 4

/-- A crew with the open clause, the outstanding marks and the predicate block that CLAUSEF, OUTMARK and BLOCKMK give
(R292, R293). A span above 32, which only a save record that software has changed can hold, counts as 32 (log 13). -/
def reopen (c : Crew) (f : Nat) (outm : List OutMark) (mk : ThreadSet) : Crew :=
  let cl := c.clause + 1
  let incs (b : Bool) (flag n : Nat) : List FlagInc := List.replicate (if flag < 12 then n else 0) ⟨cl, flag, b⟩
  { c with
    outm := outm, clause := cl, left := min 32 (bits f 0 6), setA := BitVec.ofNat 4 (bits f 6 4),
    setB := BitVec.ofNat 4 (bits f 10 4),
    incs := incs false (bits f 6 4) (bits f 14 4) ++ incs true (bits f 10 4) (secondCount f)
    blk := if bit f 22 then some ⟨mk, BitVec.ofNat 3 (bits f 23 3), bits f 26 4, BitVec.ofNat 8 (bits f 30 8)⟩ else none }

/-- Words of a save record, from an offset upward. -/
def saveWords (s : State) (g : Gallery) (save : Word) (off n : Nat) : List Word :=
  (List.range n).map fun i => w64 (ofBytes (saveRead s g save (off + 8 * i) 8))

/-- A bank of scalar registers from a save record. -/
def savedBank (s : State) (g : Gallery) (save : Word) (off : Nat) : Vector Word 16 :=
  Vector.ofFn fun (i : Fin 16) => w64 (ofBytes (saveRead s g save (off + 8 * i) 8))

/-- The return of R292 and R313, after the stalls of `RTE`, from the save record, CLAUSEF and BLOCKMK. -/
def returnFromTrap (s : State) : State :=
  let c := s.c
  let own := c.save != 0
  let c1 := reopen c c.clausef.toNat
    (if own then outMarks (saveRead s s.g c.save 0x400 384) else c.outSaved)
    (if own then setFrom (saveRead s s.g c.save 0x1E00 256) else c.blkSaved)
  { s with c := retire { c1 with
      pbank := if own then savedBank s s.g c.save 0x40 else c.pbank
      privl := if c.privl = 2 then 2 else 0, bank := false, pc := normPc c.trappc } }

/-! ### How a word ends -/

/-- The rest of a predicate block after one of its words (R33). -/
def blockStep : Option Block → Option Block
  | none => none
  | some b => if b.left ≤ 1 then none else some { b with left := b.left - 1, pattern := b.pattern >>> 1 }

/-- A crew past its word: the pc moves on, the span and the block shrink, and counts that can retire do. -/
def Crew.past (c : Crew) : Crew :=
  retire { c with pc := normPc (c.pc + 4), left := c.left - 1, blk := blockStep c.blk, status := .running }

/-- The word has issued: the pc moves on, the span and the block shrink, and counts that can retire do. -/
def done (s : State) : State :=
  { s with c := s.c.past }

/-- The word, the last of its clause, has issued and transfers control (R52 to R54). A relative target at or above 2^57
wraps, as the PC holds it (DEDUCED, log 25). -/
def jump (s : State) (target : Word) : State :=
  { s with c := retire { s.c with pc := normPc target, left := s.c.left - 1, status := .running } }

/-- The word holds its crew and has taken no effect (R297). -/
def hold (s : State) : State := { s with c := { s.c with status := .held } }

/-- The crew parks at the word (R74). -/
def park (s : State) (p : Park) : State := putSave0 { s with c := { s.c with status := .parked p } } s.c.uid

/-- TRAPINFO of a data fault of a scalar access (R295): kind 0 load, 1 store, 2 both, 3 vault. -/
def scalarInfo (kind : Nat) : Word := w64 (2 ^ 12 + kind * 2 ^ 24 + 2 ^ 26)

/-- The trap of a failed scalar access (R295). -/
def scalarFault (s : State) (e : Cause) (addr : Word) (kind : Nat) : State :=
  takeTrap s (trapHere s e addr (scalarInfo kind))

/-- An uncorrectable word under a scalar access that is no load: its address, and the register in TRAPINFO[22:16]; the
kind and the count of R295 have no place there (R294, R304). -/
def scalarEcc (s : State) (addr : Word) (reg : Nat) : State :=
  takeTrap s (trapHere s .eccUncorr addr (w64 (2 ^ 16 * reg)))

/-- A scalar result written by an interlocked word, which then ends. -/
def doneS (s : State) (d : BitVec 6) (x : Word) : State := done { s with c := setS s.c d x }

/-! ### Where the accesses of a word go (R57, R210, R222, R237, R321) -/

/-- The bytes of a size field. -/
def sizeOf (z : BitVec 2) : Nat := 2 ^ z.toNat

/-- The address of a scalar access: base and scaled offset, modulo 2^64 (R57). -/
def scalarAddr (s : State) (a : BitVec 6) (i : BitVec 9) (z : BitVec 2) : Word :=
  getS s.c a + sext i * w64 (sizeOf z)

/-- The threads a lane word acts on, ascending. -/
def laneThreads (s : State) : List Nat := members (activeSet s.c) s.g.nthr

/-- Register `r` of thread `t` in the gallery in focus. -/
def reg (s : State) (t : Nat) (r : BitVec 7) : Word := getV s.g t r.toNat

/-- The address of a thread's global access (R210). -/
def laneAddr (s : State) (a : BitVec 7) (z : BitVec 2) (f : BitVec 6) (t : Nat) : Nat :=
  ((reg s t a).toNat + f.toNat * sizeOf z) % 2 ^ 64

/-- The vault address a thread presents (R210). -/
def vaultAddr (s : State) (a : BitVec 7) (z : BitVec 2) (f : BitVec 6) (t : Nat) : Nat :=
  ((reg s t a).toNat % 2 ^ 32 + f.toNat * sizeOf z) % 2 ^ 32

/-- A vault access of the crew in focus, relocated and checked; the place stands for the vault address
(R174, R321). -/
def vaultCheck (s : State) (n x : Nat) : Except Cause Place :=
  match checkVault s s.part (dieOfCore s.c.core) s.c.privl.toNat (galAsn s.g) (relocate s.g x) n with
  | .error e => .error e
  | .ok _ => .ok ⟨relocate s.g x, 0⟩

/-- The checks of an access that meets at a home slice of the part, so that a host-memory address is refused
(R222, R228). -/
def checkDevice (s : State) (need : Need) (va align n : Nat) : Except Cause Place :=
  match checkGlobal s need va align n with
  | .error e => .error e
  | .ok p => if inHost p.pa then .error .perm else .ok p

/-- The checks of a RELAY word: XLATE, ALIGN and PERM, host memory refused; the block of a configured object is open to
it (R237, R240). -/
def checkRelay (s : State) (addr : Nat) : Except Cause Place :=
  if 2 ^ 57 ≤ addr then .error .xlate
  else if addr % 64 ≠ 0 then .error .align
  else
    match crewXlate s needRW addr with
    | .error e => .error e
    | .ok p => if ownedByHw s p.pa 64 false || inPaceLine s p.pa 64 || inHost p.pa then .error .perm else .ok p

end Sys2Proof.Machine
end

