-- ==== Sys2Proof/Machine/Issue.lean ====
section
/-!
DEFINITION. What every word passes before it has effect: the checks of R42 in their order, with the register operands
of each instruction and the classes the checks ask about.
-/

namespace Sys2Proof.Machine

/-- The words of the lane set (R24). -/
def isLane : Instr → Bool
  | .aluAdd _ _ _ => false
  | .aluSub _ _ _ => false
  | .aluAnd _ _ _ => false
  | .aluOr _ _ _ => false
  | .aluXor _ _ _ => false
  | .aluAndn _ _ _ => false
  | .aluShl _ _ _ => false
  | .aluShr _ _ _ => false
  | .aluSar _ _ _ => false
  | .aluMul _ _ _ => false
  | .aluMulhs _ _ _ => false
  | .aluMulhz _ _ _ => false
  | .aluMins _ _ _ => false
  | .aluMaxs _ _ _ => false
  | .aluMinz _ _ _ => false
  | .aluMaxz _ _ _ => false
  | .aluiAddi _ _ _ => false
  | .aluiSubi _ _ _ => false
  | .aluiAndi _ _ _ => false
  | .aluiOri _ _ _ => false
  | .aluiXori _ _ _ => false
  | .aluiAndni _ _ _ => false
  | .aluiShli _ _ _ => false
  | .aluiShri _ _ _ => false
  | .aluiSari _ _ _ => false
  | .aluiMuli _ _ _ => false
  | .aluiMulhsi _ _ _ => false
  | .aluiMulhzi _ _ _ => false
  | .aluiMinsi _ _ _ => false
  | .aluiMaxsi _ _ _ => false
  | .aluiMinzi _ _ _ => false
  | .aluiMaxzi _ _ _ => false
  | .divs _ _ _ => false
  | .divz _ _ _ => false
  | .rems _ _ _ => false
  | .remz _ _ _ => false
  | .alxClz _ _ => false
  | .alxPopc _ _ => false
  | .alxBfx _ _ _ => false
  | .alxBfi _ _ _ => false
  | .cmps _ _ _ _ => false
  | .alxMov _ _ => false
  | .selnz _ _ _ => false
  | .movw _ _ _ => false
  | .movwk _ _ _ => false
  | .brc _ _ _ _ => false
  | .br _ => false
  | .call _ => false
  | .jr _ => false
  | .callr _ => false
  | .ret => false
  | .srch _ _ _ _ _ => false
  | .srcha _ _ _ _ _ => false
  | .srchr _ _ _ _ _ => false
  | .mand _ _ _ => false
  | .mor _ _ _ => false
  | .mxor _ _ _ => false
  | .mandn _ _ _ => false
  | .mnot _ _ => false
  | .mcopy _ _ => false
  | .mclr _ => false
  | .mgetact _ => false
  | .cnt _ _ => false
  | .first _ _ => false
  | .next _ _ => false
  | .mpick _ _ _ => false
  | .mset1 _ _ => false
  | .mclr1 _ _ => false
  | .mload _ _ => false
  | .mstore _ _ => false
  | .push _ => false
  | .pop => false
  | .else_ _ => false
  | .jarv _ => false
  | .join _ => false
  | .setact _ => false
  | .pushall => false
  | .rdepth _ => false
  | .get _ _ _ _ => false
  | .put _ _ _ _ => false
  | .getf _ _ _ => false
  | .blkacqW _ => false
  | .blkacqP _ _ => false
  | .blkrel _ => false
  | .blkq _ => false
  | .pblk _ _ _ => false
  | .clause _ _ _ _ => false
  | .lds _ _ _ _ _ => false
  | .sts _ _ _ _ _ => false
  | .atoms _ _ _ _ _ _ => false
  | .fence => false
  | .fenceA => false
  | .fenceR => false
  | .ifence => false
  | .waitu _ _ _ _ _ _ => false
  | .wacc _ _ => false
  | .waccq _ _ => false
  | .wqry _ _ => false
  | .wcfg _ _ => false
  | .wclr _ => false
  | .wlen _ _ => false
  | .redqs _ _ _ _ => false
  | .twaitany _ => false
  | .twaitall _ => false
  | .tfirst _ _ => false
  | .tclr _ => false
  | .trdy _ => false
  | .hcopy _ _ _ _ _ => false
  | .hgath _ _ _ _ _ => false
  | .hscat _ _ _ _ _ => false
  | .hfill _ _ _ _ => false
  | .hplane _ _ _ _ _ _ => false
  | .hchain _ _ _ => false
  | .hstop _ _ => false
  | .hresume _ _ => false
  | .hprog _ _ => false
  | .mma _ _ _ _ => false
  | .mzero _ _ _ => false
  | .mring _ => false
  | .mfence _ _ => false
  | .mdetach => false
  | .tktake _ => false
  | .tkgive _ => false
  | .tkqry _ _ => false
  | .publish _ => false
  | .pubqry _ _ => false
  | .pubset _ _ => false
  | .spawn _ => false
  | .spawnNb _ _ => false
  | .spawng _ => false
  | .joindec _ => false
  | .depdec _ => false
  | .launch _ _ => false
  | .barc _ _ => false
  | .exit => false
  | .cred _ _ _ _ _ => false
  | .cgath _ _ _ _ _ => false
  | .cbcast _ _ _ _ => false
  | .cstat _ _ => false
  | .rdsys _ _ => false
  | .wrsys _ _ => false
  | .trap _ => false
  | .rte => false
  | .bkpt _ => false
  | .yield => false
  | .nop => false
  | .halt => false
  | .rspill _ => false
  | .rfill _ => false
  | .ctxsave _ => false
  | .ctxload _ => false
  | .add _ _ _ _ => true
  | .addi _ _ _ _ => true
  | .sub _ _ _ _ => true
  | .mul _ _ _ _ => true
  | .mulh _ _ _ _ _ => true
  | .mad _ _ _ _ => true
  | .addsat _ _ _ _ _ => true
  | .subsat _ _ _ _ _ => true
  | .min _ _ _ _ _ => true
  | .max _ _ _ _ _ => true
  | .abs _ _ _ => true
  | .neg _ _ _ => true
  | .not _ _ _ => true
  | .clz _ _ _ => true
  | .popc _ _ _ => true
  | .brev _ _ _ => true
  | .mov _ _ _ => true
  | .and _ _ _ _ => true
  | .or _ _ _ _ => true
  | .xor _ _ _ _ => true
  | .andn _ _ _ _ => true
  | .shl _ _ _ _ => true
  | .shr _ _ _ _ => true
  | .sar _ _ _ _ => true
  | .shli _ _ _ _ => true
  | .shri _ _ _ _ => true
  | .sari _ _ _ _ => true
  | .movi _ _ _ => true
  | .bcast _ _ _ => true
  | .cmp _ _ _ _ _ => true
  | .cmpz _ _ _ _ _ => true
  | .fcmp _ _ _ _ _ => true
  | .bfx _ _ _ _ _ => true
  | .bfi _ _ _ _ => true
  | .pack _ _ _ _ _ => true
  | .unpk _ _ _ _ => true
  | .andi _ _ _ _ => true
  | .xori _ _ _ _ => true
  | .fadd _ _ _ _ _ => true
  | .fsub _ _ _ _ _ => true
  | .fmul _ _ _ _ _ => true
  | .ffma _ _ _ _ _ => true
  | .fmin _ _ _ _ => true
  | .fmax _ _ _ _ => true
  | .fabs _ _ _ => true
  | .fneg _ _ _ => true
  | .frcp _ _ _ => true
  | .frsq _ _ _ => true
  | .fsqrt _ _ _ _ => true
  | .fex2 _ _ _ => true
  | .flg2 _ _ _ => true
  | .fsin _ _ _ => true
  | .fcos _ _ _ => true
  | .fflr _ _ _ => true
  | .fceil _ _ _ => true
  | .ftrunc _ _ _ => true
  | .frint _ _ _ _ => true
  | .cvt _ _ _ _ _ _ => true
  | .qscale _ _ _ _ _ => true
  | .qscale8 _ _ _ _ _ => true
  | .mrd _ _ _ _ => true
  | .mwr _ _ _ _ => true
  | .spec _ _ _ => true
  | .shfl _ _ _ _ _ => true
  | .redl _ _ _ _ _ => true
  | .scanl _ _ _ _ _ => true
  | .ld _ _ _ _ _ => true
  | .st _ _ _ _ _ => true
  | .ldv _ _ _ _ => true
  | .stv _ _ _ _ => true
  | .atom _ _ _ _ _ => true
  | .redq _ _ _ _ => true
  | .lexit => true
  | .branchResolution _ => false
  | .longLatencyLanding _ _ => false
  | .storePerformed _ => false
  | .sliceAnswer _ _ => false
  | .filterSlowPathWrite _ => false
  | .crewWakeResume _ => false
  | .deadlineSweep => false
  | .redqContribution _ _ => false
  | .trapEntry _ => false
  | .placementDecision _ => false
  | .recordCompletion _ => false
  | .laneGangTimeout => false
  | .hoistChunkDone _ _ => false
  | .ringSlotAdmit _ _ => false
  | .stripPassGrant _ => false
  | .promotionEnd _ _ => false
  | .publishFlip _ => false
  | .shootdownDone _ => false
  | .contextSaveDone => false
  | .teardown _ _ _ => false
  | .teardownGraceExpiry _ => false
  | .collectiveDataArrival _ _ _ _ _ => false
  | .collTimeout _ => false
  | .flitReceive _ _ => false
  | .flitNak _ _ => false
  | .heartTimer => false
  | .heart _ _ _ => false
  | .lower _ _ _ => false
  | .ceil _ _ _ _ => false
  | .breach _ _ => false
  | .propose _ _ _ => false
  | .grant _ _ => false
  | .deny _ _ _ => false
  | .joinMsg _ _ => false
  | .leave _ _ => false
  | .view _ _ _ _ _ => false
  | .unknownPacerType _ _ => false
  | .lapApply => false
  | .peerSilent _ => false
  | .emergencyTrip => false
  | .tripRecheck _ => false
  | .powerSample _ _ => false
  | .intervalEnd _ => false
  | .cooldownStep _ => false
  | .ageingMeasure _ _ _ => false
  | .hbmScrub _ _ => false
  | .kick _ _ _ => false
  | .hostQueueConsume _ _ => false
  | .windowBWrite _ _ _ => false
  | .windowBRead _ _ _ => false
  | .fetchadd _ _ _ _ => false
  | .swap _ _ _ _ => false
  | .cas _ _ _ _ _ => false
  | .shoot _ _ => false
  | .reqkick _ _ => false
  | .mailboxLoad _ => false
  | .mailboxTear _ => false
  | .mailboxLimit _ => false
  | .mailboxPool _ => false
  | .mailboxStrict _ => false
  | .mailboxEnrol _ => false
  | .mailboxFuse _ => false
  | .mailboxRoute _ => false
  | .mailboxUnknownOp _ => false
  | .fusereq _ => false
  | .fuseBlown => false
  | .measgo _ _ => false
  | .romovlClear _ => false
  | .resetRelease => false
  | .trnctl _ _ => false
  | .hbmTrainingDone _ _ _ _ _ _ => false
  | .fwlimit _ _ => false
  | .paceen _ _ => false
  | .portEn _ _ => false
  | .portRetrain _ => false
  | .signalDetect _ => false
  | .detectTimeout _ => false
  | .equaliseDone _ => false
  | .alignLock _ => false
  | .identExchange _ _ _ => false
  | .retrainTimeout _ => false
  | .registerWrite _ _ _ => false
  | .lossOfPower => false
  | .enable _ _ _ => false
  | .mben _ _ => false

/-- The words that must stand last in their clause: branches, calls, jumps, returns, `EXIT` and `RTE`
(R16, R169, R313). -/
def isTransfer : Instr → Bool
  | .aluAdd _ _ _ => false
  | .aluSub _ _ _ => false
  | .aluAnd _ _ _ => false
  | .aluOr _ _ _ => false
  | .aluXor _ _ _ => false
  | .aluAndn _ _ _ => false
  | .aluShl _ _ _ => false
  | .aluShr _ _ _ => false
  | .aluSar _ _ _ => false
  | .aluMul _ _ _ => false
  | .aluMulhs _ _ _ => false
  | .aluMulhz _ _ _ => false
  | .aluMins _ _ _ => false
  | .aluMaxs _ _ _ => false
  | .aluMinz _ _ _ => false
  | .aluMaxz _ _ _ => false
  | .aluiAddi _ _ _ => false
  | .aluiSubi _ _ _ => false
  | .aluiAndi _ _ _ => false
  | .aluiOri _ _ _ => false
  | .aluiXori _ _ _ => false
  | .aluiAndni _ _ _ => false
  | .aluiShli _ _ _ => false
  | .aluiShri _ _ _ => false
  | .aluiSari _ _ _ => false
  | .aluiMuli _ _ _ => false
  | .aluiMulhsi _ _ _ => false
  | .aluiMulhzi _ _ _ => false
  | .aluiMinsi _ _ _ => false
  | .aluiMaxsi _ _ _ => false
  | .aluiMinzi _ _ _ => false
  | .aluiMaxzi _ _ _ => false
  | .divs _ _ _ => false
  | .divz _ _ _ => false
  | .rems _ _ _ => false
  | .remz _ _ _ => false
  | .alxClz _ _ => false
  | .alxPopc _ _ => false
  | .alxBfx _ _ _ => false
  | .alxBfi _ _ _ => false
  | .cmps _ _ _ _ => false
  | .alxMov _ _ => false
  | .selnz _ _ _ => false
  | .movw _ _ _ => false
  | .movwk _ _ _ => false
  | .brc _ _ _ _ => true
  | .br _ => true
  | .call _ => true
  | .jr _ => true
  | .callr _ => true
  | .ret => true
  | .srch _ _ _ _ _ => false
  | .srcha _ _ _ _ _ => false
  | .srchr _ _ _ _ _ => false
  | .mand _ _ _ => false
  | .mor _ _ _ => false
  | .mxor _ _ _ => false
  | .mandn _ _ _ => false
  | .mnot _ _ => false
  | .mcopy _ _ => false
  | .mclr _ => false
  | .mgetact _ => false
  | .cnt _ _ => false
  | .first _ _ => false
  | .next _ _ => false
  | .mpick _ _ _ => false
  | .mset1 _ _ => false
  | .mclr1 _ _ => false
  | .mload _ _ => false
  | .mstore _ _ => false
  | .push _ => false
  | .pop => false
  | .else_ _ => false
  | .jarv _ => false
  | .join _ => false
  | .setact _ => false
  | .pushall => false
  | .rdepth _ => false
  | .get _ _ _ _ => false
  | .put _ _ _ _ => false
  | .getf _ _ _ => false
  | .blkacqW _ => false
  | .blkacqP _ _ => false
  | .blkrel _ => false
  | .blkq _ => false
  | .pblk _ _ _ => false
  | .clause _ _ _ _ => false
  | .lds _ _ _ _ _ => false
  | .sts _ _ _ _ _ => false
  | .atoms _ _ _ _ _ _ => false
  | .fence => false
  | .fenceA => false
  | .fenceR => false
  | .ifence => false
  | .waitu _ _ _ _ _ _ => false
  | .wacc _ _ => false
  | .waccq _ _ => false
  | .wqry _ _ => false
  | .wcfg _ _ => false
  | .wclr _ => false
  | .wlen _ _ => false
  | .redqs _ _ _ _ => false
  | .twaitany _ => false
  | .twaitall _ => false
  | .tfirst _ _ => false
  | .tclr _ => false
  | .trdy _ => false
  | .hcopy _ _ _ _ _ => false
  | .hgath _ _ _ _ _ => false
  | .hscat _ _ _ _ _ => false
  | .hfill _ _ _ _ => false
  | .hplane _ _ _ _ _ _ => false
  | .hchain _ _ _ => false
  | .hstop _ _ => false
  | .hresume _ _ => false
  | .hprog _ _ => false
  | .mma _ _ _ _ => false
  | .mzero _ _ _ => false
  | .mring _ => false
  | .mfence _ _ => false
  | .mdetach => false
  | .tktake _ => false
  | .tkgive _ => false
  | .tkqry _ _ => false
  | .publish _ => false
  | .pubqry _ _ => false
  | .pubset _ _ => false
  | .spawn _ => false
  | .spawnNb _ _ => false
  | .spawng _ => false
  | .joindec _ => false
  | .depdec _ => false
  | .launch _ _ => false
  | .barc _ _ => false
  | .exit => true
  | .cred _ _ _ _ _ => false
  | .cgath _ _ _ _ _ => false
  | .cbcast _ _ _ _ => false
  | .cstat _ _ => false
  | .rdsys _ _ => false
  | .wrsys _ _ => false
  | .trap _ => false
  | .rte => true
  | .bkpt _ => false
  | .yield => false
  | .nop => false
  | .halt => false
  | .rspill _ => false
  | .rfill _ => false
  | .ctxsave _ => false
  | .ctxload _ => false
  | .add _ _ _ _ => false
  | .addi _ _ _ _ => false
  | .sub _ _ _ _ => false
  | .mul _ _ _ _ => false
  | .mulh _ _ _ _ _ => false
  | .mad _ _ _ _ => false
  | .addsat _ _ _ _ _ => false
  | .subsat _ _ _ _ _ => false
  | .min _ _ _ _ _ => false
  | .max _ _ _ _ _ => false
  | .abs _ _ _ => false
  | .neg _ _ _ => false
  | .not _ _ _ => false
  | .clz _ _ _ => false
  | .popc _ _ _ => false
  | .brev _ _ _ => false
  | .mov _ _ _ => false
  | .and _ _ _ _ => false
  | .or _ _ _ _ => false
  | .xor _ _ _ _ => false
  | .andn _ _ _ _ => false
  | .shl _ _ _ _ => false
  | .shr _ _ _ _ => false
  | .sar _ _ _ _ => false
  | .shli _ _ _ _ => false
  | .shri _ _ _ _ => false
  | .sari _ _ _ _ => false
  | .movi _ _ _ => false
  | .bcast _ _ _ => false
  | .cmp _ _ _ _ _ => false
  | .cmpz _ _ _ _ _ => false
  | .fcmp _ _ _ _ _ => false
  | .bfx _ _ _ _ _ => false
  | .bfi _ _ _ _ => false
  | .pack _ _ _ _ _ => false
  | .unpk _ _ _ _ => false
  | .andi _ _ _ _ => false
  | .xori _ _ _ _ => false
  | .fadd _ _ _ _ _ => false
  | .fsub _ _ _ _ _ => false
  | .fmul _ _ _ _ _ => false
  | .ffma _ _ _ _ _ => false
  | .fmin _ _ _ _ => false
  | .fmax _ _ _ _ => false
  | .fabs _ _ _ => false
  | .fneg _ _ _ => false
  | .frcp _ _ _ => false
  | .frsq _ _ _ => false
  | .fsqrt _ _ _ _ => false
  | .fex2 _ _ _ => false
  | .flg2 _ _ _ => false
  | .fsin _ _ _ => false
  | .fcos _ _ _ => false
  | .fflr _ _ _ => false
  | .fceil _ _ _ => false
  | .ftrunc _ _ _ => false
  | .frint _ _ _ _ => false
  | .cvt _ _ _ _ _ _ => false
  | .qscale _ _ _ _ _ => false
  | .qscale8 _ _ _ _ _ => false
  | .mrd _ _ _ _ => false
  | .mwr _ _ _ _ => false
  | .spec _ _ _ => false
  | .shfl _ _ _ _ _ => false
  | .redl _ _ _ _ _ => false
  | .scanl _ _ _ _ _ => false
  | .ld _ _ _ _ _ => false
  | .st _ _ _ _ _ => false
  | .ldv _ _ _ _ => false
  | .stv _ _ _ _ => false
  | .atom _ _ _ _ _ => false
  | .redq _ _ _ _ => false
  | .lexit => false
  | .branchResolution _ => false
  | .longLatencyLanding _ _ => false
  | .storePerformed _ => false
  | .sliceAnswer _ _ => false
  | .filterSlowPathWrite _ => false
  | .crewWakeResume _ => false
  | .deadlineSweep => false
  | .redqContribution _ _ => false
  | .trapEntry _ => false
  | .placementDecision _ => false
  | .recordCompletion _ => false
  | .laneGangTimeout => false
  | .hoistChunkDone _ _ => false
  | .ringSlotAdmit _ _ => false
  | .stripPassGrant _ => false
  | .promotionEnd _ _ => false
  | .publishFlip _ => false
  | .shootdownDone _ => false
  | .contextSaveDone => false
  | .teardown _ _ _ => false
  | .teardownGraceExpiry _ => false
  | .collectiveDataArrival _ _ _ _ _ => false
  | .collTimeout _ => false
  | .flitReceive _ _ => false
  | .flitNak _ _ => false
  | .heartTimer => false
  | .heart _ _ _ => false
  | .lower _ _ _ => false
  | .ceil _ _ _ _ => false
  | .breach _ _ => false
  | .propose _ _ _ => false
  | .grant _ _ => false
  | .deny _ _ _ => false
  | .joinMsg _ _ => false
  | .leave _ _ => false
  | .view _ _ _ _ _ => false
  | .unknownPacerType _ _ => false
  | .lapApply => false
  | .peerSilent _ => false
  | .emergencyTrip => false
  | .tripRecheck _ => false
  | .powerSample _ _ => false
  | .intervalEnd _ => false
  | .cooldownStep _ => false
  | .ageingMeasure _ _ _ => false
  | .hbmScrub _ _ => false
  | .kick _ _ _ => false
  | .hostQueueConsume _ _ => false
  | .windowBWrite _ _ _ => false
  | .windowBRead _ _ _ => false
  | .fetchadd _ _ _ _ => false
  | .swap _ _ _ _ => false
  | .cas _ _ _ _ _ => false
  | .shoot _ _ => false
  | .reqkick _ _ => false
  | .mailboxLoad _ => false
  | .mailboxTear _ => false
  | .mailboxLimit _ => false
  | .mailboxPool _ => false
  | .mailboxStrict _ => false
  | .mailboxEnrol _ => false
  | .mailboxFuse _ => false
  | .mailboxRoute _ => false
  | .mailboxUnknownOp _ => false
  | .fusereq _ => false
  | .fuseBlown => false
  | .measgo _ _ => false
  | .romovlClear _ => false
  | .resetRelease => false
  | .trnctl _ _ => false
  | .hbmTrainingDone _ _ _ _ _ _ => false
  | .fwlimit _ _ => false
  | .paceen _ _ => false
  | .portEn _ _ => false
  | .portRetrain _ => false
  | .signalDetect _ => false
  | .detectTimeout _ => false
  | .equaliseDone _ => false
  | .alignLock _ => false
  | .identExchange _ _ _ => false
  | .retrainTimeout _ => false
  | .registerWrite _ _ _ => false
  | .lossOfPower => false
  | .enable _ _ _ => false
  | .mben _ _ => false

/-- The long-latency operations (R13). -/
def isLong : Instr → Bool
  | .aluAdd _ _ _ => false
  | .aluSub _ _ _ => false
  | .aluAnd _ _ _ => false
  | .aluOr _ _ _ => false
  | .aluXor _ _ _ => false
  | .aluAndn _ _ _ => false
  | .aluShl _ _ _ => false
  | .aluShr _ _ _ => false
  | .aluSar _ _ _ => false
  | .aluMul _ _ _ => false
  | .aluMulhs _ _ _ => false
  | .aluMulhz _ _ _ => false
  | .aluMins _ _ _ => false
  | .aluMaxs _ _ _ => false
  | .aluMinz _ _ _ => false
  | .aluMaxz _ _ _ => false
  | .aluiAddi _ _ _ => false
  | .aluiSubi _ _ _ => false
  | .aluiAndi _ _ _ => false
  | .aluiOri _ _ _ => false
  | .aluiXori _ _ _ => false
  | .aluiAndni _ _ _ => false
  | .aluiShli _ _ _ => false
  | .aluiShri _ _ _ => false
  | .aluiSari _ _ _ => false
  | .aluiMuli _ _ _ => false
  | .aluiMulhsi _ _ _ => false
  | .aluiMulhzi _ _ _ => false
  | .aluiMinsi _ _ _ => false
  | .aluiMaxsi _ _ _ => false
  | .aluiMinzi _ _ _ => false
  | .aluiMaxzi _ _ _ => false
  | .divs _ _ _ => false
  | .divz _ _ _ => false
  | .rems _ _ _ => false
  | .remz _ _ _ => false
  | .alxClz _ _ => false
  | .alxPopc _ _ => false
  | .alxBfx _ _ _ => false
  | .alxBfi _ _ _ => false
  | .cmps _ _ _ _ => false
  | .alxMov _ _ => false
  | .selnz _ _ _ => false
  | .movw _ _ _ => false
  | .movwk _ _ _ => false
  | .brc _ _ _ _ => false
  | .br _ => false
  | .call _ => false
  | .jr _ => false
  | .callr _ => false
  | .ret => false
  | .srch _ _ _ _ _ => false
  | .srcha _ _ _ _ _ => false
  | .srchr _ _ _ _ _ => false
  | .mand _ _ _ => false
  | .mor _ _ _ => false
  | .mxor _ _ _ => false
  | .mandn _ _ _ => false
  | .mnot _ _ => false
  | .mcopy _ _ => false
  | .mclr _ => false
  | .mgetact _ => false
  | .cnt _ _ => false
  | .first _ _ => false
  | .next _ _ => false
  | .mpick _ _ _ => false
  | .mset1 _ _ => false
  | .mclr1 _ _ => false
  | .mload _ _ => true
  | .mstore _ _ => false
  | .push _ => false
  | .pop => false
  | .else_ _ => false
  | .jarv _ => false
  | .join _ => false
  | .setact _ => false
  | .pushall => false
  | .rdepth _ => false
  | .get _ _ _ _ => true
  | .put _ _ _ _ => false
  | .getf _ _ _ => true
  | .blkacqW _ => false
  | .blkacqP _ _ => false
  | .blkrel _ => false
  | .blkq _ => false
  | .pblk _ _ _ => false
  | .clause _ _ _ _ => false
  | .lds _ _ _ _ _ => true
  | .sts _ _ _ _ _ => false
  | .atoms _ _ _ _ _ _ => true
  | .fence => false
  | .fenceA => false
  | .fenceR => false
  | .ifence => false
  | .waitu _ _ _ _ _ _ => false
  | .wacc _ _ => false
  | .waccq _ _ => false
  | .wqry _ _ => false
  | .wcfg _ _ => false
  | .wclr _ => false
  | .wlen _ _ => false
  | .redqs _ _ _ _ => false
  | .twaitany _ => false
  | .twaitall _ => false
  | .tfirst _ _ => false
  | .tclr _ => false
  | .trdy _ => false
  | .hcopy _ _ _ _ _ => false
  | .hgath _ _ _ _ _ => false
  | .hscat _ _ _ _ _ => false
  | .hfill _ _ _ _ => false
  | .hplane _ _ _ _ _ _ => false
  | .hchain _ _ _ => false
  | .hstop _ _ => false
  | .hresume _ _ => false
  | .hprog _ _ => false
  | .mma _ _ _ _ => false
  | .mzero _ _ _ => false
  | .mring _ => false
  | .mfence _ _ => false
  | .mdetach => false
  | .tktake _ => false
  | .tkgive _ => false
  | .tkqry _ _ => false
  | .publish _ => false
  | .pubqry _ _ => false
  | .pubset _ _ => false
  | .spawn _ => false
  | .spawnNb _ _ => false
  | .spawng _ => false
  | .joindec _ => false
  | .depdec _ => false
  | .launch _ _ => false
  | .barc _ _ => false
  | .exit => false
  | .cred _ _ _ _ _ => false
  | .cgath _ _ _ _ _ => false
  | .cbcast _ _ _ _ => false
  | .cstat _ _ => false
  | .rdsys _ _ => false
  | .wrsys _ _ => false
  | .trap _ => false
  | .rte => false
  | .bkpt _ => false
  | .yield => false
  | .nop => false
  | .halt => false
  | .rspill _ => false
  | .rfill _ => false
  | .ctxsave _ => false
  | .ctxload _ => false
  | .add _ _ _ _ => false
  | .addi _ _ _ _ => false
  | .sub _ _ _ _ => false
  | .mul _ _ _ _ => false
  | .mulh _ _ _ _ _ => false
  | .mad _ _ _ _ => false
  | .addsat _ _ _ _ _ => false
  | .subsat _ _ _ _ _ => false
  | .min _ _ _ _ _ => false
  | .max _ _ _ _ _ => false
  | .abs _ _ _ => false
  | .neg _ _ _ => false
  | .not _ _ _ => false
  | .clz _ _ _ => false
  | .popc _ _ _ => false
  | .brev _ _ _ => false
  | .mov _ _ _ => false
  | .and _ _ _ _ => false
  | .or _ _ _ _ => false
  | .xor _ _ _ _ => false
  | .andn _ _ _ _ => false
  | .shl _ _ _ _ => false
  | .shr _ _ _ _ => false
  | .sar _ _ _ _ => false
  | .shli _ _ _ _ => false
  | .shri _ _ _ _ => false
  | .sari _ _ _ _ => false
  | .movi _ _ _ => false
  | .bcast _ _ _ => false
  | .cmp _ _ _ _ _ => false
  | .cmpz _ _ _ _ _ => false
  | .fcmp _ _ _ _ _ => false
  | .bfx _ _ _ _ _ => false
  | .bfi _ _ _ _ => false
  | .pack _ _ _ _ _ => false
  | .unpk _ _ _ _ => false
  | .andi _ _ _ _ => false
  | .xori _ _ _ _ => false
  | .fadd _ _ _ _ _ => false
  | .fsub _ _ _ _ _ => false
  | .fmul _ _ _ _ _ => false
  | .ffma _ _ _ _ _ => false
  | .fmin _ _ _ _ => false
  | .fmax _ _ _ _ => false
  | .fabs _ _ _ => false
  | .fneg _ _ _ => false
  | .frcp _ _ _ => true
  | .frsq _ _ _ => true
  | .fsqrt _ _ _ _ => true
  | .fex2 _ _ _ => true
  | .flg2 _ _ _ => true
  | .fsin _ _ _ => true
  | .fcos _ _ _ => true
  | .fflr _ _ _ => false
  | .fceil _ _ _ => false
  | .ftrunc _ _ _ => false
  | .frint _ _ _ _ => false
  | .cvt _ _ _ _ _ _ => false
  | .qscale _ _ _ _ _ => false
  | .qscale8 _ _ _ _ _ => false
  | .mrd _ _ _ _ => true
  | .mwr _ _ _ _ => false
  | .spec _ _ _ => false
  | .shfl _ _ _ _ _ => false
  | .redl _ _ _ _ _ => false
  | .scanl _ _ _ _ _ => false
  | .ld _ _ _ _ _ => true
  | .st _ _ _ _ _ => false
  | .ldv _ _ _ _ => true
  | .stv _ _ _ _ => false
  | .atom _ _ _ _ _ => true
  | .redq _ _ _ _ => false
  | .lexit => false
  | .branchResolution _ => false
  | .longLatencyLanding _ _ => false
  | .storePerformed _ => false
  | .sliceAnswer _ _ => false
  | .filterSlowPathWrite _ => false
  | .crewWakeResume _ => false
  | .deadlineSweep => false
  | .redqContribution _ _ => false
  | .trapEntry _ => false
  | .placementDecision _ => false
  | .recordCompletion _ => false
  | .laneGangTimeout => false
  | .hoistChunkDone _ _ => false
  | .ringSlotAdmit _ _ => false
  | .stripPassGrant _ => false
  | .promotionEnd _ _ => false
  | .publishFlip _ => false
  | .shootdownDone _ => false
  | .contextSaveDone => false
  | .teardown _ _ _ => false
  | .teardownGraceExpiry _ => false
  | .collectiveDataArrival _ _ _ _ _ => false
  | .collTimeout _ => false
  | .flitReceive _ _ => false
  | .flitNak _ _ => false
  | .heartTimer => false
  | .heart _ _ _ => false
  | .lower _ _ _ => false
  | .ceil _ _ _ _ => false
  | .breach _ _ => false
  | .propose _ _ _ => false
  | .grant _ _ => false
  | .deny _ _ _ => false
  | .joinMsg _ _ => false
  | .leave _ _ => false
  | .view _ _ _ _ _ => false
  | .unknownPacerType _ _ => false
  | .lapApply => false
  | .peerSilent _ => false
  | .emergencyTrip => false
  | .tripRecheck _ => false
  | .powerSample _ _ => false
  | .intervalEnd _ => false
  | .cooldownStep _ => false
  | .ageingMeasure _ _ _ => false
  | .hbmScrub _ _ => false
  | .kick _ _ _ => false
  | .hostQueueConsume _ _ => false
  | .windowBWrite _ _ _ => false
  | .windowBRead _ _ _ => false
  | .fetchadd _ _ _ _ => false
  | .swap _ _ _ _ => false
  | .cas _ _ _ _ _ => false
  | .shoot _ _ => false
  | .reqkick _ _ => false
  | .mailboxLoad _ => false
  | .mailboxTear _ => false
  | .mailboxLimit _ => false
  | .mailboxPool _ => false
  | .mailboxStrict _ => false
  | .mailboxEnrol _ => false
  | .mailboxFuse _ => false
  | .mailboxRoute _ => false
  | .mailboxUnknownOp _ => false
  | .fusereq _ => false
  | .fuseBlown => false
  | .measgo _ _ => false
  | .romovlClear _ => false
  | .resetRelease => false
  | .trnctl _ _ => false
  | .hbmTrainingDone _ _ _ _ _ _ => false
  | .fwlimit _ _ => false
  | .paceen _ _ => false
  | .portEn _ _ => false
  | .portRetrain _ => false
  | .signalDetect _ => false
  | .detectTimeout _ => false
  | .equaliseDone _ => false
  | .alignLock _ => false
  | .identExchange _ _ _ => false
  | .retrainTimeout _ => false
  | .registerWrite _ _ _ => false
  | .lossOfPower => false
  | .enable _ _ _ => false
  | .mben _ _ => false

/-- The registers a word reads, in the order of its fields. A `SELNZ` is taken to read its destination, which it keeps
where it selects nothing (R50; DEDUCED, log 84). -/
def readRegs : Instr → List Reg
  | .aluAdd _ a b => [.s a, .s b]
  | .aluSub _ a b => [.s a, .s b]
  | .aluAnd _ a b => [.s a, .s b]
  | .aluOr _ a b => [.s a, .s b]
  | .aluXor _ a b => [.s a, .s b]
  | .aluAndn _ a b => [.s a, .s b]
  | .aluShl _ a b => [.s a, .s b]
  | .aluShr _ a b => [.s a, .s b]
  | .aluSar _ a b => [.s a, .s b]
  | .aluMul _ a b => [.s a, .s b]
  | .aluMulhs _ a b => [.s a, .s b]
  | .aluMulhz _ a b => [.s a, .s b]
  | .aluMins _ a b => [.s a, .s b]
  | .aluMaxs _ a b => [.s a, .s b]
  | .aluMinz _ a b => [.s a, .s b]
  | .aluMaxz _ a b => [.s a, .s b]
  | .aluiAddi _ a _ => [.s a]
  | .aluiSubi _ a _ => [.s a]
  | .aluiAndi _ a _ => [.s a]
  | .aluiOri _ a _ => [.s a]
  | .aluiXori _ a _ => [.s a]
  | .aluiAndni _ a _ => [.s a]
  | .aluiShli _ a _ => [.s a]
  | .aluiShri _ a _ => [.s a]
  | .aluiSari _ a _ => [.s a]
  | .aluiMuli _ a _ => [.s a]
  | .aluiMulhsi _ a _ => [.s a]
  | .aluiMulhzi _ a _ => [.s a]
  | .aluiMinsi _ a _ => [.s a]
  | .aluiMaxsi _ a _ => [.s a]
  | .aluiMinzi _ a _ => [.s a]
  | .aluiMaxzi _ a _ => [.s a]
  | .divs _ a b => [.s a, .s b]
  | .divz _ a b => [.s a, .s b]
  | .rems _ a b => [.s a, .s b]
  | .remz _ a b => [.s a, .s b]
  | .alxClz _ a => [.s a]
  | .alxPopc _ a => [.s a]
  | .alxBfx _ a b => [.s a, .s b]
  | .alxBfi d a b => [.s d, .s a, .s b]
  | .cmps _ a b _ => [.s a, .s b]
  | .alxMov _ a => [.s a]
  | .selnz d a b => [.s d, .s a, .s b]
  | .movw _ _ _ => []
  | .movwk _ d _ => [.s d]
  | .brc _ a b _ => [.s a, .s b]
  | .br _ => []
  | .call _ => []
  | .jr a => [.s a]
  | .callr a => [.s a]
  | .ret => [.s 63]
  | .srch _ _ v k n => [.v v, .s k, .s n]
  | .srcha _ _ v k n => [.v v, .s k, .s n]
  | .srchr _ _ v b n => [.v v, .v b, .s (n.setWidth 6)]
  | .mand _ a b => [.m a, .m b]
  | .mor _ a b => [.m a, .m b]
  | .mxor _ a b => [.m a, .m b]
  | .mandn _ a b => [.m a, .m b]
  | .mnot _ a => [.m a]
  | .mcopy _ a => [.m a]
  | .mclr _ => []
  | .mgetact _ => []
  | .cnt a _ => [.m a]
  | .first a _ => [.m a]
  | .next a s => [.s s, .m a]
  | .mpick _ a _ => [.m a]
  | .mset1 d s => [.m d, .s s]
  | .mclr1 d s => [.m d, .s s]
  | .mload _ s => [.s s]
  | .mstore a s => [.m a, .s s]
  | .push a => [.m a]
  | .pop => []
  | .else_ a => [.m a]
  | .jarv d => [.m d]
  | .join a => [.m a]
  | .setact a => [.m a]
  | .pushall => []
  | .rdepth _ => []
  | .get _ n b h => [.v (n.setWidth 7 + 64 * h.setWidth 7), .s b]
  | .put d _ b _ => [.s b, .s d]
  | .getf _ n h => [.v (n.setWidth 7 + 64 * h.setWidth 7)]
  | .blkacqW a => [.s a]
  | .blkacqP _ a => [.s a]
  | .blkrel a => [.s a]
  | .blkq _ => []
  | .pblk m _ _ => [.m m]
  | .clause _ _ _ _ => []
  | .lds _ _ _ a _ => [.s a]
  | .sts _ _ d a _ => [.s d, .s a]
  | .atoms _ d a b _ _ => [.s d, .s a, .s b]
  | .fence => []
  | .fenceA => []
  | .fenceR => []
  | .ifence => []
  | .waitu _ _ a b _ t => [.s a, .s b] ++ (if t = 1 then [.s (b + 1)] else [])
  | .wacc a b => [.s a, .s b]
  | .waccq a b => [.s a, .s b, .s (b + 1)]
  | .wqry _ a => [.s a]
  | .wcfg a b => [.s a, .s b]
  | .wclr a => [.s a]
  | .wlen _ a => [.s a]
  | .redqs _ d a b => [.s d, .s a, .s b]
  | .twaitany a => [.s a]
  | .twaitall a => [.s a]
  | .tfirst _ a => [.s a]
  | .tclr a => [.s a]
  | .trdy _ => []
  | .hcopy _ g _ _ _ => [.s g, .s (g + 1), .s (g + 2), .s (g + 3)]
  | .hgath _ g _ _ _ => [.s g, .s (g + 1), .s (g + 2), .s (g + 3)]
  | .hscat _ g _ _ _ => [.s g, .s (g + 1), .s (g + 2), .s (g + 3)]
  | .hfill _ g _ _ => [.s g, .s (g + 1), .s (g + 2)]
  | .hplane _ g _ _ _ _ => [.s g, .s (g + 1), .s (g + 2), .s (g + 3)]
  | .hchain _ g _ => [.s g]
  | .hstop _ _ => []
  | .hresume _ _ => []
  | .hprog _ _ => []
  | .mma _ g _ _ => [.s g, .s (g + 1), .s (g + 2), .s (g + 3)]
  | .mzero _ g _ => [.s (g + 2)]
  | .mring g => [.s g]
  | .mfence _ _ => []
  | .mdetach => []
  | .tktake a => [.s a]
  | .tkgive a => [.s a]
  | .tkqry _ a => [.s a]
  | .publish a => [.s a]
  | .pubqry _ a => [.s a]
  | .pubset a b => [.s a, .s b]
  | .spawn a => [.s a]
  | .spawnNb _ a => [.s a]
  | .spawng a => [.s a]
  | .joindec a => [.s a]
  | .depdec a => [.s a]
  | .launch _ a => [.s a]
  | .barc a b => [.s a, .s b]
  | .exit => []
  | .cred _ g _ _ _ => [.s g, .s (g + 1), .s (g + 2), .s (g + 3)]
  | .cgath _ g _ _ _ => [.s g, .s (g + 1), .s (g + 2), .s (g + 3)]
  | .cbcast _ g _ _ => [.s g, .s (g + 1), .s (g + 2), .s (g + 3)]
  | .cstat _ _ => []
  | .rdsys _ _ => []
  | .wrsys d _ => [.s d]
  | .trap _ => []
  | .rte => []
  | .bkpt _ => []
  | .yield => []
  | .nop => []
  | .halt => []
  | .rspill a => [.s a]
  | .rfill a => [.s a]
  | .ctxsave a => [.s a]
  | .ctxload a => [.s a]
  | .add _ _ a b => [.v a, .v b]
  | .addi _ _ a _ => [.v a]
  | .sub _ _ a b => [.v a, .v b]
  | .mul _ _ a b => [.v a, .v b]
  | .mulh _ _ a b _ => [.v a, .v b]
  | .mad _ d a b => [.v d, .v a, .v b]
  | .addsat _ _ a b _ => [.v a, .v b]
  | .subsat _ _ a b _ => [.v a, .v b]
  | .min _ _ a b _ => [.v a, .v b]
  | .max _ _ a b _ => [.v a, .v b]
  | .abs _ _ a => [.v a]
  | .neg _ _ a => [.v a]
  | .not _ _ a => [.v a]
  | .clz _ _ a => [.v a]
  | .popc _ _ a => [.v a]
  | .brev _ _ a => [.v a]
  | .mov _ _ a => [.v a]
  | .and _ _ a b => [.v a, .v b]
  | .or _ _ a b => [.v a, .v b]
  | .xor _ _ a b => [.v a, .v b]
  | .andn _ _ a b => [.v a, .v b]
  | .shl _ _ a b => [.v a, .v b]
  | .shr _ _ a b => [.v a, .v b]
  | .sar _ _ a b => [.v a, .v b]
  | .shli _ _ a _ => [.v a]
  | .shri _ _ a _ => [.v a]
  | .sari _ _ a _ => [.v a]
  | .movi _ _ _ => []
  | .bcast _ _ s => [.s s]
  | .cmp _ _ a b _ => [.v a, .v b]
  | .cmpz _ _ a b _ => [.v a, .v b]
  | .fcmp _ _ a b _ => [.v a, .v b]
  | .bfx _ _ a b _ => [.v a, .v b]
  | .bfi _ d a b => [.v d, .v a, .v b]
  | .pack _ _ a b _ => [.v a, .v b]
  | .unpk _ _ a _ => [.v a]
  | .andi _ _ a _ => [.v a]
  | .xori _ _ a _ => [.v a]
  | .fadd _ _ a b _ => [.v a, .v b]
  | .fsub _ _ a b _ => [.v a, .v b]
  | .fmul _ _ a b _ => [.v a, .v b]
  | .ffma _ d a b _ => [.v d, .v a, .v b]
  | .fmin _ _ a b => [.v a, .v b]
  | .fmax _ _ a b => [.v a, .v b]
  | .fabs _ _ a => [.v a]
  | .fneg _ _ a => [.v a]
  | .frcp _ _ a => [.v a]
  | .frsq _ _ a => [.v a]
  | .fsqrt _ _ a _ => [.v a]
  | .fex2 _ _ a => [.v a]
  | .flg2 _ _ a => [.v a]
  | .fsin _ _ a => [.v a]
  | .fcos _ _ a => [.v a]
  | .fflr _ _ a => [.v a]
  | .fceil _ _ a => [.v a]
  | .ftrunc _ _ a => [.v a]
  | .frint _ _ a _ => [.v a]
  | .cvt _ a _ _ _ _ => [.v a]
  | .qscale _ _ _ a v => [.v a, .v (v.setWidth 7)]
  | .qscale8 _ _ _ a v => [.v a, .v (v.setWidth 7)]
  | .mrd _ _ a _ => [.v a]
  | .mwr _ d a _ => [.v d, .v a]
  | .spec _ _ _ => []
  | .shfl _ _ a b _ => [.v a, .v b]
  | .redl _ _ a _ _ => [.v a]
  | .scanl _ _ a _ _ => [.v a]
  | .ld _ _ a _ _ => [.v a]
  | .st _ d a _ _ => [.v d, .v a]
  | .ldv _ _ a _ => [.v a]
  | .stv _ d a _ => [.v d, .v a]
  | .atom _ d a p _ => [.v d, .v a] ++ (if p = 10 then [.v (d + 1)] else [])
  | .redq _ d a b => [.v d, .v a, .v b]
  | .lexit => []
  | .branchResolution _ => []
  | .longLatencyLanding _ _ => []
  | .storePerformed _ => []
  | .sliceAnswer _ _ => []
  | .filterSlowPathWrite _ => []
  | .crewWakeResume _ => []
  | .deadlineSweep => []
  | .redqContribution _ _ => []
  | .trapEntry _ => []
  | .placementDecision _ => []
  | .recordCompletion _ => []
  | .laneGangTimeout => []
  | .hoistChunkDone _ _ => []
  | .ringSlotAdmit _ _ => []
  | .stripPassGrant _ => []
  | .promotionEnd _ _ => []
  | .publishFlip _ => []
  | .shootdownDone _ => []
  | .contextSaveDone => []
  | .teardown _ _ _ => []
  | .teardownGraceExpiry _ => []
  | .collectiveDataArrival _ _ _ _ _ => []
  | .collTimeout _ => []
  | .flitReceive _ _ => []
  | .flitNak _ _ => []
  | .heartTimer => []
  | .heart _ _ _ => []
  | .lower _ _ _ => []
  | .ceil _ _ _ _ => []
  | .breach _ _ => []
  | .propose _ _ _ => []
  | .grant _ _ => []
  | .deny _ _ _ => []
  | .joinMsg _ _ => []
  | .leave _ _ => []
  | .view _ _ _ _ _ => []
  | .unknownPacerType _ _ => []
  | .lapApply => []
  | .peerSilent _ => []
  | .emergencyTrip => []
  | .tripRecheck _ => []
  | .powerSample _ _ => []
  | .intervalEnd _ => []
  | .cooldownStep _ => []
  | .ageingMeasure _ _ _ => []
  | .hbmScrub _ _ => []
  | .kick _ _ _ => []
  | .hostQueueConsume _ _ => []
  | .windowBWrite _ _ _ => []
  | .windowBRead _ _ _ => []
  | .fetchadd _ _ _ _ => []
  | .swap _ _ _ _ => []
  | .cas _ _ _ _ _ => []
  | .shoot _ _ => []
  | .reqkick _ _ => []
  | .mailboxLoad _ => []
  | .mailboxTear _ => []
  | .mailboxLimit _ => []
  | .mailboxPool _ => []
  | .mailboxStrict _ => []
  | .mailboxEnrol _ => []
  | .mailboxFuse _ => []
  | .mailboxRoute _ => []
  | .mailboxUnknownOp _ => []
  | .fusereq _ => []
  | .fuseBlown => []
  | .measgo _ _ => []
  | .romovlClear _ => []
  | .resetRelease => []
  | .trnctl _ _ => []
  | .hbmTrainingDone _ _ _ _ _ _ => []
  | .fwlimit _ _ => []
  | .paceen _ _ => []
  | .portEn _ _ => []
  | .portRetrain _ => []
  | .signalDetect _ => []
  | .detectTimeout _ => []
  | .equaliseDone _ => []
  | .alignLock _ => []
  | .identExchange _ _ _ => []
  | .retrainTimeout _ => []
  | .registerWrite _ _ _ => []
  | .lossOfPower => []
  | .enable _ _ _ => []
  | .mben _ _ => []

/-- The registers a word writes. -/
def writtenRegs : Instr → List Reg
  | .aluAdd d _ _ => [.s d]
  | .aluSub d _ _ => [.s d]
  | .aluAnd d _ _ => [.s d]
  | .aluOr d _ _ => [.s d]
  | .aluXor d _ _ => [.s d]
  | .aluAndn d _ _ => [.s d]
  | .aluShl d _ _ => [.s d]
  | .aluShr d _ _ => [.s d]
  | .aluSar d _ _ => [.s d]
  | .aluMul d _ _ => [.s d]
  | .aluMulhs d _ _ => [.s d]
  | .aluMulhz d _ _ => [.s d]
  | .aluMins d _ _ => [.s d]
  | .aluMaxs d _ _ => [.s d]
  | .aluMinz d _ _ => [.s d]
  | .aluMaxz d _ _ => [.s d]
  | .aluiAddi d _ _ => [.s d]
  | .aluiSubi d _ _ => [.s d]
  | .aluiAndi d _ _ => [.s d]
  | .aluiOri d _ _ => [.s d]
  | .aluiXori d _ _ => [.s d]
  | .aluiAndni d _ _ => [.s d]
  | .aluiShli d _ _ => [.s d]
  | .aluiShri d _ _ => [.s d]
  | .aluiSari d _ _ => [.s d]
  | .aluiMuli d _ _ => [.s d]
  | .aluiMulhsi d _ _ => [.s d]
  | .aluiMulhzi d _ _ => [.s d]
  | .aluiMinsi d _ _ => [.s d]
  | .aluiMaxsi d _ _ => [.s d]
  | .aluiMinzi d _ _ => [.s d]
  | .aluiMaxzi d _ _ => [.s d]
  | .divs d _ _ => [.s d]
  | .divz d _ _ => [.s d]
  | .rems d _ _ => [.s d]
  | .remz d _ _ => [.s d]
  | .alxClz d _ => [.s d]
  | .alxPopc d _ => [.s d]
  | .alxBfx d _ _ => [.s d]
  | .alxBfi d _ _ => [.s d]
  | .cmps d _ _ _ => [.s d]
  | .alxMov d _ => [.s d]
  | .selnz d _ _ => [.s d]
  | .movw _ d _ => [.s d]
  | .movwk _ d _ => [.s d]
  | .brc _ _ _ _ => []
  | .br _ => []
  | .call _ => [.s 63]
  | .jr _ => []
  | .callr _ => [.s 63]
  | .ret => []
  | .srch m _ _ _ _ => [.m m]
  | .srcha m _ _ _ _ => [.m m]
  | .srchr m _ _ _ _ => [.m m]
  | .mand d _ _ => [.m d]
  | .mor d _ _ => [.m d]
  | .mxor d _ _ => [.m d]
  | .mandn d _ _ => [.m d]
  | .mnot d _ => [.m d]
  | .mcopy d _ => [.m d]
  | .mclr d => [.m d]
  | .mgetact d => [.m d]
  | .cnt _ s => [.s s]
  | .first _ s => [.s s]
  | .next _ s => [.s s]
  | .mpick d _ ss => [.m d, .s ss]
  | .mset1 d _ => [.m d]
  | .mclr1 d _ => [.m d]
  | .mload d _ => [.m d]
  | .mstore _ _ => []
  | .push _ => []
  | .pop => []
  | .else_ _ => []
  | .jarv d => [.m d]
  | .join _ => []
  | .setact _ => []
  | .pushall => []
  | .rdepth s => [.s s]
  | .get d _ _ _ => [.s d]
  | .put _ n _ h => [.v (n.setWidth 7 + 64 * h.setWidth 7)]
  | .getf d _ _ => [.s d]
  | .blkacqW _ => []
  | .blkacqP d _ => [.s d]
  | .blkrel _ => []
  | .blkq d => [.s d]
  | .pblk _ _ _ => []
  | .clause _ _ _ _ => []
  | .lds _ _ d _ _ => [.s d]
  | .sts _ _ _ _ _ => []
  | .atoms _ d _ _ _ _ => [.s d]
  | .fence => []
  | .fenceA => []
  | .fenceR => []
  | .ifence => []
  | .waitu _ d _ _ _ _ => [.s d]
  | .wacc _ _ => []
  | .waccq _ _ => []
  | .wqry d _ => [.s d]
  | .wcfg _ _ => []
  | .wclr _ => []
  | .wlen d _ => [.s d]
  | .redqs _ _ _ _ => []
  | .twaitany _ => []
  | .twaitall _ => []
  | .tfirst d _ => [.s d]
  | .tclr _ => []
  | .trdy d => [.s d]
  | .hcopy _ _ _ _ _ => []
  | .hgath _ _ _ _ _ => []
  | .hscat _ _ _ _ _ => []
  | .hfill _ _ _ _ => []
  | .hplane _ _ _ _ _ _ => []
  | .hchain _ _ _ => []
  | .hstop _ _ => []
  | .hresume _ _ => []
  | .hprog _ g => [.s g, .s (g + 1), .s (g + 2)]
  | .mma _ _ _ _ => []
  | .mzero _ _ _ => []
  | .mring g => [.s (g + 1)]
  | .mfence _ _ => []
  | .mdetach => []
  | .tktake _ => []
  | .tkgive _ => []
  | .tkqry d _ => [.s d]
  | .publish _ => []
  | .pubqry d _ => [.s d]
  | .pubset _ _ => []
  | .spawn _ => []
  | .spawnNb d _ => [.s d]
  | .spawng _ => []
  | .joindec _ => []
  | .depdec _ => []
  | .launch d _ => [.s d]
  | .barc _ _ => []
  | .exit => []
  | .cred _ _ _ _ _ => []
  | .cgath _ _ _ _ _ => []
  | .cbcast _ _ _ _ => []
  | .cstat _ g => [.s g, .s (g + 1), .s (g + 2)]
  | .rdsys d _ => [.s d]
  | .wrsys _ _ => []
  | .trap _ => []
  | .rte => []
  | .bkpt _ => []
  | .yield => []
  | .nop => []
  | .halt => []
  | .rspill _ => []
  | .rfill _ => []
  | .ctxsave _ => []
  | .ctxload _ => []
  | .add _ d _ _ => [.v d]
  | .addi _ d _ _ => [.v d]
  | .sub _ d _ _ => [.v d]
  | .mul _ d _ _ => [.v d]
  | .mulh _ d _ _ _ => [.v d]
  | .mad _ d _ _ => [.v d]
  | .addsat _ d _ _ _ => [.v d]
  | .subsat _ d _ _ _ => [.v d]
  | .min _ d _ _ _ => [.v d]
  | .max _ d _ _ _ => [.v d]
  | .abs _ d _ => [.v d]
  | .neg _ d _ => [.v d]
  | .not _ d _ => [.v d]
  | .clz _ d _ => [.v d]
  | .popc _ d _ => [.v d]
  | .brev _ d _ => [.v d]
  | .mov _ d _ => [.v d]
  | .and _ d _ _ => [.v d]
  | .or _ d _ _ => [.v d]
  | .xor _ d _ _ => [.v d]
  | .andn _ d _ _ => [.v d]
  | .shl _ d _ _ => [.v d]
  | .shr _ d _ _ => [.v d]
  | .sar _ d _ _ => [.v d]
  | .shli _ d _ _ => [.v d]
  | .shri _ d _ _ => [.v d]
  | .sari _ d _ _ => [.v d]
  | .movi _ d _ => [.v d]
  | .bcast _ d _ => [.v d]
  | .cmp _ d _ _ _ => [.v d]
  | .cmpz _ d _ _ _ => [.v d]
  | .fcmp _ d _ _ _ => [.v d]
  | .bfx _ d _ _ _ => [.v d]
  | .bfi _ d _ _ => [.v d]
  | .pack _ d _ _ _ => [.v d]
  | .unpk _ d _ _ => [.v d]
  | .andi _ d _ _ => [.v d]
  | .xori _ d _ _ => [.v d]
  | .fadd _ d _ _ _ => [.v d]
  | .fsub _ d _ _ _ => [.v d]
  | .fmul _ d _ _ _ => [.v d]
  | .ffma _ d _ _ _ => [.v d]
  | .fmin _ d _ _ => [.v d]
  | .fmax _ d _ _ => [.v d]
  | .fabs _ d _ => [.v d]
  | .fneg _ d _ => [.v d]
  | .frcp _ d _ => [.v d]
  | .frsq _ d _ => [.v d]
  | .fsqrt _ d _ _ => [.v d]
  | .fex2 _ d _ => [.v d]
  | .flg2 _ d _ => [.v d]
  | .fsin _ d _ => [.v d]
  | .fcos _ d _ => [.v d]
  | .fflr _ d _ => [.v d]
  | .fceil _ d _ => [.v d]
  | .ftrunc _ d _ => [.v d]
  | .frint _ d _ _ => [.v d]
  | .cvt v _ _ _ _ _ => [.v v]
  | .qscale _ _ d _ _ => [.v d]
  | .qscale8 _ _ d _ _ => [.v d]
  | .mrd _ d _ _ => [.v d]
  | .mwr _ _ _ _ => []
  | .spec _ d _ => [.v d]
  | .shfl _ d _ _ _ => [.v d]
  | .redl _ d _ _ _ => [.v d]
  | .scanl _ d _ _ _ => [.v d]
  | .ld _ d _ _ _ => [.v d]
  | .st _ _ _ _ _ => []
  | .ldv _ d _ _ => [.v d]
  | .stv _ _ _ _ => []
  | .atom _ d _ _ _ => [.v d]
  | .redq _ _ _ _ => []
  | .lexit => []
  | .branchResolution _ => []
  | .longLatencyLanding _ _ => []
  | .storePerformed _ => []
  | .sliceAnswer _ _ => []
  | .filterSlowPathWrite _ => []
  | .crewWakeResume _ => []
  | .deadlineSweep => []
  | .redqContribution _ _ => []
  | .trapEntry _ => []
  | .placementDecision _ => []
  | .recordCompletion _ => []
  | .laneGangTimeout => []
  | .hoistChunkDone _ _ => []
  | .ringSlotAdmit _ _ => []
  | .stripPassGrant _ => []
  | .promotionEnd _ _ => []
  | .publishFlip _ => []
  | .shootdownDone _ => []
  | .contextSaveDone => []
  | .teardown _ _ _ => []
  | .teardownGraceExpiry _ => []
  | .collectiveDataArrival _ _ _ _ _ => []
  | .collTimeout _ => []
  | .flitReceive _ _ => []
  | .flitNak _ _ => []
  | .heartTimer => []
  | .heart _ _ _ => []
  | .lower _ _ _ => []
  | .ceil _ _ _ _ => []
  | .breach _ _ => []
  | .propose _ _ _ => []
  | .grant _ _ => []
  | .deny _ _ _ => []
  | .joinMsg _ _ => []
  | .leave _ _ => []
  | .view _ _ _ _ _ => []
  | .unknownPacerType _ _ => []
  | .lapApply => []
  | .peerSilent _ => []
  | .emergencyTrip => []
  | .tripRecheck _ => []
  | .powerSample _ _ => []
  | .intervalEnd _ => []
  | .cooldownStep _ => []
  | .ageingMeasure _ _ _ => []
  | .hbmScrub _ _ => []
  | .kick _ _ _ => []
  | .hostQueueConsume _ _ => []
  | .windowBWrite _ _ _ => []
  | .windowBRead _ _ _ => []
  | .fetchadd _ _ _ _ => []
  | .swap _ _ _ _ => []
  | .cas _ _ _ _ _ => []
  | .shoot _ _ => []
  | .reqkick _ _ => []
  | .mailboxLoad _ => []
  | .mailboxTear _ => []
  | .mailboxLimit _ => []
  | .mailboxPool _ => []
  | .mailboxStrict _ => []
  | .mailboxEnrol _ => []
  | .mailboxFuse _ => []
  | .mailboxRoute _ => []
  | .mailboxUnknownOp _ => []
  | .fusereq _ => []
  | .fuseBlown => []
  | .measgo _ _ => []
  | .romovlClear _ => []
  | .resetRelease => []
  | .trnctl _ _ => []
  | .hbmTrainingDone _ _ _ _ _ _ => []
  | .fwlimit _ _ => []
  | .paceen _ _ => []
  | .portEn _ _ => []
  | .portRetrain _ => []
  | .signalDetect _ => []
  | .detectTimeout _ => []
  | .equaliseDone _ => []
  | .alignLock _ => []
  | .identExchange _ _ _ => []
  | .retrainTimeout _ => []
  | .registerWrite _ _ _ => []
  | .lossOfPower => []
  | .enable _ _ _ => []
  | .mben _ _ => []

/-- The level needed to read a system register (R308). -/
def readLevel (n : Nat) : Nat :=
  if n = 0x014 || n = 0x050 || n = 0x051 || n = 0x052 || n = 0x053 then 1 else 0

/-- The level needed to write a system register; 3, which is never held, for one that is never written (R308). -/
def writeLevel (n : Nat) : Nat :=
  if n = 0x010 || n = 0x011 || n = 0x012 || n = 0x013 || n = 0x021 then 0
  else if n = 0x014 || n = 0x041 || n = 0x050 || n = 0x051 || n = 0x052 || n = 0x053 then 1
  else if n = 0x060 then 2 else 3

/-- The least PRIVL of a word, and the system register number its PRIV trap reports (R284, R294, R307, R308). -/
def leastPrivl (i : Instr) : Nat × Nat :=
  match i with
  | .rdsys _ n => (readLevel n.toNat, n.toNat)
  | .wrsys _ n => (writeLevel n.toNat, n.toNat)
  | .rte => (1, 0)
  | .halt => (1, 0)
  | .rspill _ => (1, 0)
  | .rfill _ => (1, 0)
  | .pubset _ _ => (1, 0)
  | .ctxsave _ => (2, 0)
  | .ctxload _ => (2, 0)
  | _ => (0, 0)

/-- The instruction is a clause header. -/
def isClause (i : Instr) : Bool :=
  match i with
  | .clause _ _ _ _ => true
  | _ => false

/-- TRAPINFO of a HAZARD: the register and its kind (R294). -/
def hazardInfo : Reg → Nat
  | .s n => n.toNat
  | .v n => n.toNat + 2 ^ 8
  | .m n => n.toNat + 2 ^ 9

/-- PBLK_FORM: a uniform word within a block, or a `PBLK` whose words run past the clause (R34). -/
def blockForm (i : Instr) (c : Crew) : Bool :=
  (c.blk.isSome && !isLane i) ||
  match i with
  | .pblk _ n _ => decide (c.left - 1 < n.toNat + 1) && decide (0 < c.left)
  | _ => false

/-- CLAUSE_FORM: a header within a span, another word where a header is due, a transfer that is not the last word, or
a long-latency operation without a setA flag (R14, R16). -/
def clauseForm (i : Instr) (c : Crew) : Bool :=
  if isClause i then decide (0 < c.left)
  else c.left == 0 || (isTransfer i && c.left != 1) || (isLong i && c.setA == 15)

/-- The operands whose outstanding marks are still there (R15). -/
def hazards (i : Instr) (c : Crew) : List Reg :=
  (readRegs i ++ writtenRegs i).filter fun r => c.outm.any (·.reg == r)

/-- The register of a HAZARD; where several operands are marked the manual does not say which is reported (log 4). -/
def hazardPick (l : List Reg) (fresh : Nat) : Reg :=
  match l with
  | [r] => r
  | l => l.getD (Config.freePick fresh % max 1 l.length) (.s 0)

/-- The thread registers among some operands. -/
def vregs (l : List Reg) : List Nat := l.filterMap fun r =>
  match r with
  | .v n => some n.toNat
  | _ => none

/-- The thread registers that raise BLK_FAULT: in a block at or above B, or written without owning the block
(R64, R65). -/
def blkFaults (g : Gallery) (att : Nat) (reads writes : List Nat) : List Nat :=
  reads.filter (fun r => decide (g.nblk ≤ r / 8)) ++
  writes.filter fun r => decide (g.nblk ≤ r / 8) || (g.owner.getD (r / 8) none).map (·.val) != some att

/-- TRAPINFO of a BLK_FAULT for register operands: the lowest of them, and its block (R294). -/
def blkInfo (l : List Nat) : Word :=
  let r := l.foldl min 127
  w64 (r + 2 ^ (8 + r / 8))

/-- The first operand word that holds an uncorrectable error: a scalar or mark of the crew, or a thread register of a
thread of the set (R304); thread and register. -/
def eccAt (s : State) (set : ThreadSet) (reads : List Reg) : Option (Nat × Nat) :=
  if s.c.bad = [] && s.g.bad = [] then none else
  let inCrew := reads.findSome? fun r =>
    if s.c.bad.contains r then
      match r with
      | .s n => some (0, n.toNat)
      | .v n => some (0, n.toNat)
      | .m n => some (0, n.toNat)
    else none
  match inCrew with
  | some x => some x
  | none => (members set s.g.nthr).findSome? fun t =>
      (vregs reads).findSome? fun r => if s.g.bad.contains (128 * t + r) then some (t, r) else none

/-- The lowest one bit of a number below 2^64. -/
def lowBit (x : Nat) : Nat := ((List.range 64).filter (bit x)).headD 64

/-- The highest one bit of a number below 2^64. -/
def highBit (x : Nat) : Nat := x.log2

/-- The mask is one unbroken run of one bits (R126). -/
def oneRun (m : Nat) : Bool := m != 0 && m == 2 ^ (highBit m + 1) - 2 ^ lowBit m

/-- The comparison `c` is an ordered one. -/
def ordered (c : BitVec 3) : Bool := decide (2 ≤ c.toNat)

/-- The thread register that an XFER word names (R138). -/
def xferReg (n : BitVec 6) (h : BitVec 1) : Nat := n.toNat + 64 * h.toNat

/-- The operands that a check of the word's own execution needs: where it reaches, and the values that its checks are
about. They are read first, and the others only where those checks pass (R42, step 6). `SHFL` reads `va` in the threads
it draws from alone (R110), where its meaning checks them. -/
def firstRegs : Instr → List Reg
  | .srch _ _ _ _ _ => []
  | .srcha _ _ _ _ _ => []
  | .srchr _ _ _ _ _ => []
  | .push _ => []
  | .else_ _ => []
  | .get _ _ _ _ => []
  | .put _ _ _ _ => []
  | .mstore _ a => [.s a]
  | .sts _ _ _ a _ => [.s a]
  | .atoms _ _ a _ _ _ => [.s a]
  | .redqs _ _ a _ => [.s a]
  | .waitu _ _ a _ _ _ => [.s a]
  | .wacc a _ => [.s a]
  | .waccq a _ => [.s a]
  | .wcfg a _ => [.s a]
  | .barc a _ => [.s a]
  | .pubset _ b => [.s b]
  | .st _ _ a _ _ => [.v a]
  | .stv _ _ a _ => [.v a]
  | .atom _ _ a _ _ => [.v a]
  | .redq _ _ a _ => [.v a]
  | .shfl _ _ _ b _ => [.v b]
  | i => readRegs i

/-- The operands read once the checks of the word's own execution have passed. -/
def lateRegs : Instr → List Reg
  | .shfl _ _ _ b _ => [.v b]
  | i => readRegs i

/-- An access fails its checks. -/
def fails (r : Except Cause Place) : Bool :=
  match r with
  | .error _ => true
  | .ok _ => false

/-- A search of a set ends at BLK_FAULT or SRCH_MASK, or has an empty set and raises nothing. The mask is looked at only
where it can be read (R42, R68, R126, R127). -/
def searchFault (s : State) (set : ThreadSet) (vs : List (BitVec 7)) (c : BitVec 3) (n : BitVec 6) : Bool :=
  set == 0 || (vs.any fun v => decide (s.g.nblk ≤ v.toNat / 8)) ||
  (ordered c && !s.c.bad.contains (.s n) && !oneRun (getS s.c n).toNat)

/-- The check of a lane access fails for some thread that takes part. -/
def laneFailing (s : State) (addr : Nat → Nat) (check : Nat → Except Cause Place) : Bool :=
  (laneThreads s).any fun t => fails (check (addr t))

/-- A check of the word's own execution fails, one that does not need the operands read last: BLK_FAULT, SRCH_MASK, the
depth of the responder stack, or an address (R42, step 6). -/
def ownFault (i : Instr) (s : State) : Bool :=
  match i with
  | .srch _ c v _ n => searchFault s s.c.act [v] c n
  | .srcha _ c v _ n => searchFault s s.g.live [v] c n
  | .srchr _ c v b n => searchFault s s.c.act [v, b] c (n.setWidth 6)
  | .push _ => decide (16 ≤ s.c.stack.length)
  | .else_ _ => s.c.stack == []
  | .get _ n _ h => decide (s.g.nblk ≤ xferReg n h / 8)
  | .put _ n _ h => blkFaults s.g s.c.att [] [xferReg n h] != []
  | .mstore _ a => fails (checkGlobal s needW (getS s.c a).toNat 256 256)
  | .sts z _ _ a o => fails (checkGlobal s needW (scalarAddr s a o z).toNat (sizeOf z) (sizeOf z))
  | .atoms _ _ a _ z _ =>
    let n := if z = 1 then 8 else 4
    fails (checkGlobal s needRW (getS s.c a).toNat n n)
  | .redqs _ _ a _ => fails (checkDevice s needRW (getS s.c a).toNat 16 16)
  | .waitu _ _ a _ w _ =>
    let n := if w = 1 then 4 else 8
    fails (checkDevice s needR (getS s.c a).toNat n n)
  | .wacc a _ => fails (checkRelay s (getS s.c a).toNat)
  | .waccq a _ => fails (checkRelay s (getS s.c a).toNat)
  | .wcfg a _ => fails (checkRelay s (getS s.c a).toNat)
  | .barc a _ => fails (checkGlobal s needRW (getS s.c a).toNat 16 16)
  | .pubset _ b => fails (checkGlobal s needR (getS s.c b).toNat 32 32)
  | .st z _ a _ f => laneFailing s (laneAddr s a z f) fun x => checkGlobal s needW x (sizeOf z) (sizeOf z)
  | .stv z _ a f => laneFailing s (vaultAddr s a z f) fun x => vaultCheck s (sizeOf z) x
  | .atom z _ a _ _ =>
    let n := if z = 1 then 8 else 4
    laneFailing s (fun t => (reg s t a).toNat) fun x => checkGlobal s needRW x n n
  | .redq _ _ a _ => laneFailing s (fun t => (reg s t a).toNat) fun x => checkDevice s needRW x 16 16
  | _ => false

/-- The uncorrectable operand that the word meets: among those its checks need, and else, where the checks pass, among
all it reads (R42, R304; which of several is reported, log 4). -/
def eccOf (i : Instr) (s : State) (set : ThreadSet) : Option (Nat × Nat) :=
  if s.c.bad = [] && s.g.bad = [] then none
  else
    match eccAt s set (firstRegs i) with
    | some x => some x
    | none => if ownFault i s then none else eccAt s set (lateRegs i)

/-- The trap of an uncorrectable operand (R294). -/
def eccTrap (s : State) (x : Nat × Nat) : TrapReq := trapHere s .eccUncorr 0 (w64 (x.1 + 2 ^ 16 * x.2))

/-- The checks of a lane word at step 6 of R42, when its active set is not empty (R68): BLK_FAULT, then ECC. -/
def laneGate (i : Instr) (s : State) : Option TrapReq :=
  if activeSet s.c = 0 then none
  else
    match blkFaults s.g s.c.att (vregs (readRegs i)) (vregs (writtenRegs i)) with
    | [] => (eccOf i s (activeSet s.c)).map (eccTrap s)
    | l => some (trapHere s .blkFault 0 (blkInfo l))

/-- The trap of a word whose form is wrong where it stands; at a header no words are left (R293). -/
def trapAt (i : Instr) (s : State) (cause : Cause) (info : Word) : TrapReq := ⟨cause, s.c.pc, 0, info, isClause i, 0⟩

/-- The scalar that holds the target of a jump, call or return to a register (R54). -/
def targetReg : Instr → Option (BitVec 6)
  | .jr a => some a
  | .callr a => some a
  | .ret => some 63
  | _ => none

/-- The trap that the target of a register jump raises at the jump itself: ALIGN, else XLATE beyond the address space
(R17, R54). It is the first of the word's checks (R42, step 1), XLATE with ALIGN, unless the register is outstanding or
holds an uncorrectable word: such a target cannot be read, and HAZARD or ECC_UNCORR answers (R15, R304; DEDUCED,
log 68). -/
def targetFault (i : Instr) (s : State) : Option TrapReq :=
  match targetReg i with
  | none => none
  | some a =>
    if s.c.outm.any (·.reg == .s a) || s.c.bad.contains (.s a) then none
    else if (getS s.c a).toNat % 4 ≠ 0 then some (trapHere s .align (getS s.c a) 0)
    else if 2 ^ 57 ≤ (getS s.c a).toNat then some (trapHere s .xlate (getS s.c a) 0)
    else none

/-- The checks of a word's form, privilege and operands, in the order of R42: ILLEGAL, PBLK_FORM, CLAUSE_FORM, PRIV,
HAZARD, and of step 6 what is common to its class. -/
def wordFault (i : Instr) (s : State) : Option TrapReq :=
  if i.defect ≠ none then some (trapAt i s .illegal (((encode i).getD 0).setWidth 64))
  else if blockForm i s.c then some (trapAt i s .pblkForm 0)
  else if clauseForm i s.c then some (trapAt i s .clauseForm 0)
  else if s.c.privl.toNat < (leastPrivl i).1 then some (trapHere s .priv 0 (w64 (leastPrivl i).2))
  else if hazards i s.c ≠ [] then
    some (trapHere s .hazard 0 (w64 (hazardInfo (hazardPick (hazards i s.c).eraseDups s.fresh))))
  else if isLane i then laneGate i s
  else (eccOf i s 0).map (eccTrap s)

/-- The trap a word raises before it has effect, by the order of R42. Fetch faults of the word itself are raised by the
fetch; that of a jump's target comes first here. -/
def gate (i : Instr) (s : State) : Option TrapReq := (targetFault i s).or (wordFault i s)

/-- A word at the crew in focus: the trap of its first failing check, or else its effect. -/
def issue (i : Instr) (s : State) (effect : State → State) : Out :=
  match gate i s with
  | some t => .next (takeTrap s t)
  | none => .next (effect s)

end Sys2Proof.Machine
end

