-- ==== Sys2Proof/Machine/Arbiter.lean ====
section
/-!
DEFINITION. Instruction fetch (R17), the charges of words (R358), the points at which a crew may be stopped (R297), and
the placing of a word where the next step fetches it. The grant itself stands in Grant.lean.
-/

namespace Sys2Proof.Machine

/-! ### Fetch (R17) -/

/-- The word at the pc of the crew in focus, or the fetch fault: XLATE or PERM with TRAPPC the address fetched. A fetch
from storage that the hardware owns raises PERM as any access of the crew does (R230, R240, R290), and one that reads an
uncorrectable word raises ECC_UNCORR (R304). -/
def fetch (s : State) : Except TrapReq (BitVec 32) :=
  match crewXlate s needX s.c.pc.toNat with
  | .error e => .error (trapHere s e s.c.pc 0)
  | .ok p =>
    if ownedByHw s p.pa 4 false then .error (trapHere s .perm s.c.pc 0)
    else if !inRom s p.pa && poisoned s false p.pa 4 then .error (trapHere s .eccUncorr s.c.pc 0)
    else .ok (BitVec.ofNat 32 (readNat s p.pa 4))

/-- The instruction the crew in focus would run next, if its word can be fetched and is one. -/
def nextInstr (s : State) : Option Instr :=
  match fetch s with
  | .error _ => none
  | .ok w =>
    match decodeWord w with
    | .ok i => some i
    | .error _ => none

/-- The next word of a crew goes to the lane pipe. -/
def laneNext (s : State) (c : Crew) : Bool :=
  match nextInstr (s.focus c.uid) with
  | some i => isLane i
  | none => false

/-! ### Charges (R358) -/

/-- The weight of a lane word (R358). -/
def weight : Instr → Nat
  | .aluAdd _ _ _ => 0
  | .aluSub _ _ _ => 0
  | .aluAnd _ _ _ => 0
  | .aluOr _ _ _ => 0
  | .aluXor _ _ _ => 0
  | .aluAndn _ _ _ => 0
  | .aluShl _ _ _ => 0
  | .aluShr _ _ _ => 0
  | .aluSar _ _ _ => 0
  | .aluMul _ _ _ => 0
  | .aluMulhs _ _ _ => 0
  | .aluMulhz _ _ _ => 0
  | .aluMins _ _ _ => 0
  | .aluMaxs _ _ _ => 0
  | .aluMinz _ _ _ => 0
  | .aluMaxz _ _ _ => 0
  | .aluiAddi _ _ _ => 0
  | .aluiSubi _ _ _ => 0
  | .aluiAndi _ _ _ => 0
  | .aluiOri _ _ _ => 0
  | .aluiXori _ _ _ => 0
  | .aluiAndni _ _ _ => 0
  | .aluiShli _ _ _ => 0
  | .aluiShri _ _ _ => 0
  | .aluiSari _ _ _ => 0
  | .aluiMuli _ _ _ => 0
  | .aluiMulhsi _ _ _ => 0
  | .aluiMulhzi _ _ _ => 0
  | .aluiMinsi _ _ _ => 0
  | .aluiMaxsi _ _ _ => 0
  | .aluiMinzi _ _ _ => 0
  | .aluiMaxzi _ _ _ => 0
  | .divs _ _ _ => 0
  | .divz _ _ _ => 0
  | .rems _ _ _ => 0
  | .remz _ _ _ => 0
  | .alxClz _ _ => 0
  | .alxPopc _ _ => 0
  | .alxBfx _ _ _ => 0
  | .alxBfi _ _ _ => 0
  | .cmps _ _ _ _ => 0
  | .alxMov _ _ => 0
  | .selnz _ _ _ => 0
  | .movw _ _ _ => 0
  | .movwk _ _ _ => 0
  | .brc _ _ _ _ => 0
  | .br _ => 0
  | .call _ => 0
  | .jr _ => 0
  | .callr _ => 0
  | .ret => 0
  | .srch _ _ _ _ _ => 0
  | .srcha _ _ _ _ _ => 0
  | .srchr _ _ _ _ _ => 0
  | .mand _ _ _ => 0
  | .mor _ _ _ => 0
  | .mxor _ _ _ => 0
  | .mandn _ _ _ => 0
  | .mnot _ _ => 0
  | .mcopy _ _ => 0
  | .mclr _ => 0
  | .mgetact _ => 0
  | .cnt _ _ => 0
  | .first _ _ => 0
  | .next _ _ => 0
  | .mpick _ _ _ => 0
  | .mset1 _ _ => 0
  | .mclr1 _ _ => 0
  | .mload _ _ => 0
  | .mstore _ _ => 0
  | .push _ => 0
  | .pop => 0
  | .else_ _ => 0
  | .jarv _ => 0
  | .join _ => 0
  | .setact _ => 0
  | .pushall => 0
  | .rdepth _ => 0
  | .get _ _ _ _ => 0
  | .put _ _ _ _ => 0
  | .getf _ _ _ => 0
  | .blkacqW _ => 0
  | .blkacqP _ _ => 0
  | .blkrel _ => 0
  | .blkq _ => 0
  | .pblk _ _ _ => 0
  | .clause _ _ _ _ => 0
  | .lds _ _ _ _ _ => 0
  | .sts _ _ _ _ _ => 0
  | .atoms _ _ _ _ _ _ => 0
  | .fence => 0
  | .fenceA => 0
  | .fenceR => 0
  | .ifence => 0
  | .waitu _ _ _ _ _ _ => 0
  | .wacc _ _ => 0
  | .waccq _ _ => 0
  | .wqry _ _ => 0
  | .wcfg _ _ => 0
  | .wclr _ => 0
  | .wlen _ _ => 0
  | .redqs _ _ _ _ => 0
  | .twaitany _ => 0
  | .twaitall _ => 0
  | .tfirst _ _ => 0
  | .tclr _ => 0
  | .trdy _ => 0
  | .hcopy _ _ _ _ _ => 0
  | .hgath _ _ _ _ _ => 0
  | .hscat _ _ _ _ _ => 0
  | .hfill _ _ _ _ => 0
  | .hplane _ _ _ _ _ _ => 0
  | .hchain _ _ _ => 0
  | .hstop _ _ => 0
  | .hresume _ _ => 0
  | .hprog _ _ => 0
  | .mma _ _ _ _ => 0
  | .mzero _ _ _ => 0
  | .mring _ => 0
  | .mfence _ _ => 0
  | .mdetach => 0
  | .tktake _ => 0
  | .tkgive _ => 0
  | .tkqry _ _ => 0
  | .publish _ => 0
  | .pubqry _ _ => 0
  | .pubset _ _ => 0
  | .spawn _ => 0
  | .spawnNb _ _ => 0
  | .spawng _ => 0
  | .joindec _ => 0
  | .depdec _ => 0
  | .launch _ _ => 0
  | .barc _ _ => 0
  | .exit => 0
  | .cred _ _ _ _ _ => 0
  | .cgath _ _ _ _ _ => 0
  | .cbcast _ _ _ _ => 0
  | .cstat _ _ => 0
  | .rdsys _ _ => 0
  | .wrsys _ _ => 0
  | .trap _ => 0
  | .rte => 0
  | .bkpt _ => 0
  | .yield => 0
  | .nop => 0
  | .halt => 0
  | .rspill _ => 0
  | .rfill _ => 0
  | .ctxsave _ => 0
  | .ctxload _ => 0
  | .add _ _ _ _ => 1
  | .addi _ _ _ _ => 1
  | .sub _ _ _ _ => 1
  | .mul w _ _ _ => if w = 3 then 3 else 2
  | .mulh w _ _ _ _ => if w = 3 then 3 else 2
  | .mad w _ _ _ => if w = 3 then 3 else 2
  | .addsat _ _ _ _ _ => 1
  | .subsat _ _ _ _ _ => 1
  | .min _ _ _ _ _ => 1
  | .max _ _ _ _ _ => 1
  | .abs _ _ _ => 1
  | .neg _ _ _ => 1
  | .not _ _ _ => 1
  | .clz _ _ _ => 1
  | .popc _ _ _ => 1
  | .brev _ _ _ => 1
  | .mov _ _ _ => 1
  | .and _ _ _ _ => 1
  | .or _ _ _ _ => 1
  | .xor _ _ _ _ => 1
  | .andn _ _ _ _ => 1
  | .shl _ _ _ _ => 1
  | .shr _ _ _ _ => 1
  | .sar _ _ _ _ => 1
  | .shli _ _ _ _ => 1
  | .shri _ _ _ _ => 1
  | .sari _ _ _ _ => 1
  | .movi _ _ _ => 1
  | .bcast _ _ _ => 1
  | .cmp _ _ _ _ _ => 1
  | .cmpz _ _ _ _ _ => 1
  | .fcmp _ _ _ _ _ => 1
  | .bfx _ _ _ _ _ => 1
  | .bfi _ _ _ _ => 1
  | .pack _ _ _ _ _ => 1
  | .unpk _ _ _ _ => 1
  | .andi _ _ _ _ => 1
  | .xori _ _ _ _ => 1
  | .fadd w _ _ _ _ => if w = 3 then 4 else 2
  | .fsub w _ _ _ _ => if w = 3 then 4 else 2
  | .fmul w _ _ _ _ => if w = 3 then 4 else 2
  | .ffma w _ _ _ _ => if w = 3 then 4 else 2
  | .fmin _ _ _ _ => 1
  | .fmax _ _ _ _ => 1
  | .fabs _ _ _ => 1
  | .fneg _ _ _ => 1
  | .frcp w _ _ => if w = 3 then 6 else 3
  | .frsq w _ _ => if w = 3 then 6 else 3
  | .fsqrt w _ _ _ => if w = 3 then 6 else 3
  | .fex2 w _ _ => if w = 3 then 6 else 3
  | .flg2 w _ _ => if w = 3 then 6 else 3
  | .fsin w _ _ => if w = 3 then 6 else 3
  | .fcos w _ _ => if w = 3 then 6 else 3
  | .fflr _ _ _ => 1
  | .fceil _ _ _ => 1
  | .ftrunc _ _ _ => 1
  | .frint _ _ _ _ => 1
  | .cvt _ _ _ _ _ _ => 1
  | .qscale _ _ _ _ _ => 1
  | .qscale8 _ _ _ _ _ => 1
  | .mrd _ _ _ _ => 2
  | .mwr _ _ _ _ => 2
  | .spec _ _ _ => 1
  | .shfl _ _ _ _ _ => 2
  | .redl _ _ _ _ _ => 2
  | .scanl _ _ _ _ _ => 2
  | .ld _ _ _ _ _ => 2
  | .st _ _ _ _ _ => 2
  | .ldv _ _ _ _ => 2
  | .stv _ _ _ _ => 2
  | .atom _ _ _ _ _ => 2
  | .redq _ _ _ _ => 2
  | .lexit => 0
  | .branchResolution _ => 0
  | .longLatencyLanding _ _ => 0
  | .storePerformed _ => 0
  | .sliceAnswer _ _ => 0
  | .filterSlowPathWrite _ => 0
  | .crewWakeResume _ => 0
  | .deadlineSweep => 0
  | .redqContribution _ _ => 0
  | .trapEntry _ => 0
  | .placementDecision _ => 0
  | .recordCompletion _ => 0
  | .laneGangTimeout => 0
  | .hoistChunkDone _ _ => 0
  | .ringSlotAdmit _ _ => 0
  | .stripPassGrant _ => 0
  | .promotionEnd _ _ => 0
  | .publishFlip _ => 0
  | .shootdownDone _ => 0
  | .contextSaveDone => 0
  | .teardown _ _ _ => 0
  | .teardownGraceExpiry _ => 0
  | .collectiveDataArrival _ _ _ _ _ => 0
  | .collTimeout _ => 0
  | .flitReceive _ _ => 0
  | .flitNak _ _ => 0
  | .heartTimer => 0
  | .heart _ _ _ => 0
  | .lower _ _ _ => 0
  | .ceil _ _ _ _ => 0
  | .breach _ _ => 0
  | .propose _ _ _ => 0
  | .grant _ _ => 0
  | .deny _ _ _ => 0
  | .joinMsg _ _ => 0
  | .leave _ _ => 0
  | .view _ _ _ _ _ => 0
  | .unknownPacerType _ _ => 0
  | .lapApply => 0
  | .peerSilent _ => 0
  | .emergencyTrip => 0
  | .tripRecheck _ => 0
  | .powerSample _ _ => 0
  | .intervalEnd _ => 0
  | .cooldownStep _ => 0
  | .ageingMeasure _ _ _ => 0
  | .hbmScrub _ _ => 0
  | .kick _ _ _ => 0
  | .hostQueueConsume _ _ => 0
  | .windowBWrite _ _ _ => 0
  | .windowBRead _ _ _ => 0
  | .fetchadd _ _ _ _ => 0
  | .swap _ _ _ _ => 0
  | .cas _ _ _ _ _ => 0
  | .shoot _ _ => 0
  | .reqkick _ _ => 0
  | .mailboxLoad _ => 0
  | .mailboxTear _ => 0
  | .mailboxLimit _ => 0
  | .mailboxPool _ => 0
  | .mailboxStrict _ => 0
  | .mailboxEnrol _ => 0
  | .mailboxFuse _ => 0
  | .mailboxRoute _ => 0
  | .mailboxUnknownOp _ => 0
  | .fusereq _ => 0
  | .fuseBlown => 0
  | .measgo _ _ => 0
  | .romovlClear _ => 0
  | .resetRelease => 0
  | .trnctl _ _ => 0
  | .hbmTrainingDone _ _ _ _ _ _ => 0
  | .fwlimit _ _ => 0
  | .paceen _ _ => 0
  | .portEn _ _ => 0
  | .portRetrain _ => 0
  | .signalDetect _ => 0
  | .detectTimeout _ => 0
  | .equaliseDone _ => 0
  | .alignLock _ => 0
  | .identExchange _ _ _ => 0
  | .retrainTimeout _ => 0
  | .registerWrite _ _ _ => 0
  | .lossOfPower => 0
  | .enable _ _ _ => 0
  | .mben _ _ => 0

/-- The charge of a search: a unit for each 8 compared bits, over the searched set (R358). -/
def searchCharge (mask : Word) (set : ThreadSet) : Nat :=
  (((List.range 64).filter fun b => mask.getLsbD b).length + 7) / 8 * count set

/-- The charge of a word of the crew in focus (R159, R358). -/
def charge (s : State) (i : Instr) : Nat :=
  match i with
  | .srch _ _ _ _ n => searchCharge (getS s.c n) s.c.act
  | .srcha _ _ _ _ n => searchCharge (getS s.c n) s.g.live
  | .srchr _ _ _ _ n => searchCharge (getS s.c (n.setWidth 6)) s.c.act
  | i => if weight i = 0 then 0 else weight i * count (activeSet s.c)

/-- The charge of a crew's next word. -/
def nextCharge (s : State) (c : Crew) : Nat :=
  match nextInstr (s.focus c.uid) with
  | some i => charge (s.focus c.uid) i
  | none => 0

/-- The cluster of a core. -/
def clusterOf (core : Nat) : Nat := core / 4

/-- A cluster's current record before its first charge. -/
def freshRecord : CurrentRecord :=
  { past := List.replicate 64 0, now := 0, throttled := false, cooldown := none }

/-- The current record of a cluster. -/
def recordOf (s : State) (cluster : Nat) : CurrentRecord := look freshRecord s.current cluster

/-- A charge on the current record of a cluster (R358). -/
def chargeCluster (s : State) (cluster n : Nat) : State :=
  if n = 0 then s else
  let r := recordOf s cluster
  { s with current := store freshRecord s.current cluster { r with now := r.now + n } }

/-- The current thresholds in force for a cluster (R159, R361). -/
def limitsFor (s : State) (cluster : Nat) : CurrentLimits :=
  s.power.limits.getD (partOfDie s (cluster / 24)) ⟨1800000, 1400000, 4096, 8192⟩

/-! ### Stop points (R297, R306, R314) -/

/-- The words that hold their crew before any effect: for a ring slot, a queue slot or a tag count, for a token, the
spawns, and an access that waits for a reduction of its crew on the same object, the held word of a predicate block among
them (R35, R192, R297). -/
def stopWord (i : Instr) : Bool :=
  match i with
  | .mma _ _ _ _ => true
  | .mzero _ _ _ => true
  | .mfence _ _ => true
  | .hcopy _ _ _ _ _ => true
  | .hgath _ _ _ _ _ => true
  | .hscat _ _ _ _ _ => true
  | .hfill _ _ _ _ => true
  | .hplane _ _ _ _ _ _ => true
  | .hchain _ _ _ => true
  | .cred _ _ _ _ _ => true
  | .cgath _ _ _ _ _ => true
  | .cbcast _ _ _ _ => true
  | .tktake _ => true
  | .spawn _ => true
  | .spawng _ => true
  | .ld _ _ _ _ _ => true
  | .st _ _ _ _ _ => true
  | .atom _ _ _ _ _ => true
  | .lds _ _ _ _ _ => true
  | .sts _ _ _ _ _ => true
  | .atoms _ _ _ _ _ _ => true
  | .mload _ _ => true
  | .mstore _ _ => true
  | _ => false

/-- The crew stands at a stop point: a header not yet passed, a parked word, or a word of `stopWord` that holds it; in
a handler the header alone. Any other word that holds is completed first (R297, R314). A crew that has ended or is
halted issues nothing. -/
def atStop (s : State) (c : Crew) : Bool :=
  match c.status with
  | .running => c.left == 0
  | .held => c.left == 0 || (!c.bank && (nextInstr (s.focus c.uid)).any stopWord)
  | .parked _ => !c.bank
  | .halted => true
  | .exited => true
  | _ => false

/-- A context move names a gallery that it is to take off its core (R319). -/
def jobNames (s : State) (j : CtxJob) (g : Gallery) : Bool :=
  !j.load && g.rcd.path != [] &&
  if j.mode = 1 then g.rcd.part == partOfDie s (dieOfCore j.core) else g.core == j.core && g.slot == j.gslot

/-- The grace of the gallery's region has ended (R306). -/
def graceOver (s : State) (g : Gallery) : Bool :=
  g.rcd.path != [] &&
  s.tears.any fun t => t.part == g.rcd.part && t.region == w64 g.rcd.block && decide (t.ends ≤ s.timens.toNat)

/-- The gallery is being stopped. -/
def stoppingGal (s : State) (g : Gallery) : Bool := (s.ctx.any fun j => jobNames s j g) || graceOver s g

/-- The crew's gallery is being stopped. -/
def stopping (s : State) (uid : Nat) : Bool :=
  if s.ctx = [] ∧ s.tears = [] then false else
  match s.galOf uid with
  | none => false
  | some g => stoppingGal s g

/-- The crew's gallery is being stopped and every crew of it stands at a stop point, so that its engines are granted
nothing more (R298). Until then they are, since a word that is no stop point may wait for what they do (R297; log 83). -/
def frozen (s : State) (uid : Nat) : Bool :=
  if s.ctx = [] ∧ s.tears = [] then false else
  match s.galOf uid with
  | none => false
  | some g => stoppingGal s g && (s.allCrews.filter (·.gid == g.gid)).all (atStop s)

/-- The crew has been stopped, and gets no grant (R297). -/
def stopped (s : State) (c : Crew) : Bool := stopping s c.uid && atStop s c

/-! ### Words that hold, and time -/

/-- A crew that a word held tries again, unless it has been stopped there (R297). -/
def unhold (s : State) (c : Crew) : Crew := if c.status = .held ∧ !stopped s c then { c with status := .running } else c

/-- Every crew that a word held tries again. -/
def unholdAll (s : State) : State := { s with c := unhold s s.c, crews := s.crews.map (unhold s) }

/-- Before a grant: unless the last word held its own crew, the crews held earlier try again. -/
def retryHeld (s : State) : State := if s.c.status = .held then s else { s with crews := s.crews.map (unhold s) }

/-! ### HBM training runs (R371) -/

/-- A change of one memory controller's block. -/
def onCtl (s : State) (k : Nat) (f : Controller → Controller) : State :=
  match s.ctls[k]? with
  | none => s
  | some c => { s with ctls := s.ctls.setIfInBounds k (f c) }

/-- TRNSTAT at the end of a run: DONE or FAIL with the failing phase, and what the selected phases found (R371). -/
def trainResult (c : Controller) (fail : Bool) (phase spares eyes : Nat) : Nat :=
  let keep (sel : Bool) (x lo len : Nat) : Nat := (if sel then x % 2 ^ len else bits c.trnstat.toNat lo len) * 2 ^ lo
  bitAt (!fail || c.trnstat.getLsbD 0) 0 + bitAt (fail || c.trnstat.getLsbD 1) 1 + keep fail phase 2 2 +
    keep (c.trnctl.getLsbD 5) spares 4 4 + keep (c.trnctl.getLsbD 3) (eyes % 256) 16 8 +
    keep (c.trnctl.getLsbD 4) (eyes / 256) 24 8

/-- A training run has had its 50 ms (R371). -/
def Controller.late (c : Controller) (now : Nat) : Bool := c.running && decide (c.since + 50000000 ≤ now)

/-- A run ends, with what the selected phases found. A stack that fails, by itself or because its 50 ms have run out, is
left out, and the part boots with FSTAT 15 (R371). -/
def endTraining (s : State) (k : Nat) (fail : Bool) (phase spares eyes : Nat) (lanemap : Word) : State :=
  match s.ctls[k]? with
  | none => s
  | some c =>
    if !c.running then s
    else
      let failed := fail || c.late s.timens.toNat
      let s1 := onCtl s k fun c => { c with
        running := false
        trnstat := w64 (trainResult c failed phase spares eyes)
        lanemap := if c.trnctl.getLsbD 5 then lanemap else c.lanemap }
      if failed then { s1 with boot := { s1.boot with fstat := Vector.replicate 4 15 } } else s1

/-- The training runs that have had their 50 ms end in failure; which phase a run was in, and what it had found, are free
values (R371; log 4). -/
def expireTraining (s : State) : State :=
  let pick (i : Nat) : Nat := Config.freePick (s.fresh + i)
  (List.range 8).foldl (fun t k =>
    if (t.ctls[k]?.map (·.late t.timens.toNat)).getD false
    then endTraining t k true (pick 0 % 4) (pick 1 % 16) (pick 2 % 65536) (w64 (pick 3)) else t) s

/-! ### Time -/

/-- Time passes between two steps: TIMENS, which never falls, the CYCLES of every resident crew, and the counter of free
values (R308, R310; log 7); a training run that has had its time ends (R371). -/
def tick (s : State) : State :=
  let n := w64 (Config.elapsedCycles s.fresh)
  expireTraining { s with
    timens := w64 (min (2 ^ 64 - 1) (s.timens.toNat + Config.elapsedNs s.fresh))
    c := { s.c with cycles := s.c.cycles + n }
    crews := s.crews.map fun c => { c with cycles := c.cycles + n }
    fresh := s.fresh + 1 }

/-! ### Placing a word where the next step fetches it -/

/-- The trap of a word that is no instruction (R41). -/
def illegalWord (s : State) (w : BitVec 32) : TrapReq := trapHere s .illegal 0 (w.setWidth 64)

/-- The open clause a word needs to run as the next word of the crew: none before a header, one word before a
transfer, else a full span; with setA naming `f0` for a long-latency result. -/
def openFor (i : Instr) (c : Crew) : Crew :=
  if isClause i then { c with left := 0 }
  else { c with
    left := if isTransfer i then 1 else 32
    setA := 0
    incs := c.incs ++ [⟨c.clause, 0, false⟩] }

/-- The state with a word stored where the crew in focus fetches next, and that crew the next to be granted. -/
def placeWord (s : State) (w : BitVec 32) : State :=
  let s1 : State := { s with
    inputs := [], bgTurn := false, turn := s.c.core, lane := none
    c := { s.c with status := .running, yielded := none } }
  match crewXlate s1 ⟨false, false, false⟩ s1.c.pc.toNat with
  | .error _ => s1
  | .ok p =>
    let s2 : State := { s1 with boot := { s1.boot with
      romovl := if inRom s1 p.pa then s1.boot.romovl &&& ~~~ BitVec.ofNat 4 (2 ^ dieOfPa p.pa) else s1.boot.romovl } }
    let s3 := writeNat s2 p.pa 4 w.toNat
    match decodeWord w with
    | .error _ => s3
    | .ok i => { s3 with c := openFor i s3.c }

end Sys2Proof.Machine
end

