-- ==== Sys2Proof/Machine/Pacer.lean ====
section
/-!
DEFINITION. The Pacer member (R344 to R353): own limit, laps, breach, raising, joining, leaving and silence, and the
flits that carry Pacer messages (R333, R335, R345). The meanings of the Pacer and power events that need nothing else
of the part stand here too.
-/

namespace Sys2Proof.Machine

/-! ### Flits (R333 to R335) -/

/-- A flit: DST, SRC, VC and SEQ, the transaction header of 12 bytes, the payload of 224, the CRC and the parity. -/
def flitOf (dst src : Nat) (vc : Nat) (seq : BitVec 12) (header payload : List Byte) : List Byte :=
  let body := toBytes 1 dst ++ toBytes 1 src ++ toBytes 2 (vc + 4 * seq.toNat) ++
    (header ++ List.replicate 12 0).take 12 ++ (payload ++ List.replicate 224 0).take 224
  let withCrc := body ++ toBytes 8 (Config.flitCrc body).toNat
  withCrc ++ toBytes 8 (Config.flitParity withCrc).toNat

/-- The port by which flits to a part leave: the lowest-numbered port of its mask that is up (R335). -/
def portTo (s : State) (dst : Nat) : Option Nat :=
  (List.range 18).find? fun p => (look 0 s.routes dst).getLsbD p && (s.ports.getD p Port.reset).state == 5

/-- A change of one port. -/
def onPort (s : State) (p : Nat) (f : Port → Port) : State :=
  { s with ports := s.ports.setIfInBounds p (f (s.ports.getD p Port.reset)) }

/-- A flit put into the replay buffer of the port it leaves by; a part with no port up is not reached. -/
def sendFlit (s : State) (dst vc : Nat) (header payload : List Byte) : State :=
  match portTo s dst with
  | none => s
  | some p => onPort s p fun q =>
    { q with
      sendSeq := q.sendSeq + 1
      buffer := (q.buffer ++ [(q.sendSeq, flitOf dst s.pacer.self.toNat vc q.sendSeq header payload)]).drop
        (q.buffer.length + 1 - 512) }

/-! ### Limits and views (R344, R352) -/

/-- The own limit: the least of the firmware, ageing and predictor limits (R344). -/
def Pacer.own (p : Pacer) : BitVec 8 :=
  let m := if p.fwlimit.toNat ≤ p.ageing.toNat then p.fwlimit else p.ageing
  if m.toNat ≤ p.power.toNat then m else p.power

/-- The members of a view, ascending. -/
def viewMembers (v : BitVec 256) : List Nat := (List.range 256).filter fun m => v.getLsbD m

/-- The member is in a group with others. -/
def Pacer.grouped (p : Pacer) : Bool := decide (1 < (viewMembers p.view).length)

/-- The coordinator: the lowest id of the view (R345). -/
def Pacer.coordinator (p : Pacer) : Nat := (viewMembers p.view).headD p.self.toNat

/-- This member is the coordinator. -/
def Pacer.isCoordinator (p : Pacer) : Bool := p.coordinator == p.self.toNat

/-- The own limit held for a member of the view; one not heard of counts with the ceiling. -/
def Pacer.limitOf (p : Pacer) (m : Nat) : BitVec 8 :=
  if m = p.self.toNat then p.own
  else if look 0 p.limits m = 0 then p.ceil else look 0 p.limits m

/-- The lesser of two limits. -/
def minStep (a b : BitVec 8) : BitVec 8 := if a.toNat ≤ b.toNat then a else b

/-- The least own limit held for the view (R344). -/
def Pacer.least (p : Pacer) : BitVec 8 := (viewMembers p.view).foldl (fun a m => minStep a (p.limitOf m)) p.own

/-- The limit of a member taken down. -/
def Pacer.hear (p : Pacer) (m : BitVec 8) (c : BitVec 8) (now : Nat) : Pacer :=
  { p with limits := store 0 p.limits m.toNat c, heard := store 0 p.heard m.toNat now }

/-- A message heard from a member. -/
def Pacer.listen (p : Pacer) (m : BitVec 8) (now : Nat) : Pacer := { p with heard := store 0 p.heard m.toNat now }

/-- A lap that a message of the coordinator's laps names has been seen (R345, R350). -/
def Pacer.see (p : Pacer) (lap : Nat) : Pacer := { p with seen := max p.seen lap }

/-- The next lap: the previous lap plus 1, above every lap that has been seen (R345). -/
def Pacer.nextLap (p : Pacer) : Nat := p.pending.foldl (fun a m => max a m.lap) (max (max p.lap p.stamped) p.seen) + 1

/-- The lap at which a member leaves: greater than any it has seen, in the LEAVE of another member too (R350). -/
def Pacer.leaveLap (p : Pacer) : Nat := p.leavers.foldl (fun a l => max a (l.2 + 1)) p.nextLap

/-- A mask with one member. -/
def memberBit (m : Nat) : BitVec 256 := BitVec.ofNat 256 (2 ^ m)

/-! ### The pace word and the application of a ceiling (R346, R351) -/

/-- The pace word (R351). -/
def Pacer.word (p : Pacer) : Nat :=
  p.ceil.toNat + bitAt p.walkhold 8 + bitAt p.breach 9 + 2 ^ 16 * (p.lap % 2 ^ 48)

/-- A change of the member; where the pace word changes, it is written once at its home slice (R351). -/
def setPacer (s : State) (p : Pacer) : State :=
  let s1 := { s with pacer := p }
  if p.word = s.pacer.word then s1 else performNat s1 s1.boot.paceword.toNat 8 p.word

/-- The payload of a Pacer flit, from its byte 16 (R345). -/
def paceBytes (m : PaceOut) : List Byte :=
  [m.type] ++ List.replicate 7 0 ++ toBytes 8 m.lap ++ toBytes 8 m.t ++ [m.c] ++ List.replicate 7 0 ++
  toBytes 32 m.mask.toNat

/-- The messages waiting to be sent leave as flits on VC 2; one for every member goes to each other member. -/
def flushPace (s : State) : State :=
  let p := s.pacer
  let send (s : State) (m : PaceOut) (dst : Nat) : State := sendFlit s dst 2 (toBytes 2 p.gid.toNat) (paceBytes m)
  p.out.foldl (fun s m =>
    match m.dest with
    | some d => send s m d.toNat
    | none => ((viewMembers p.view).filter (· != p.self.toNat)).foldl (fun s d => send s m d) s)
    { s with pacer := { p with out := [] } }

/-- A message to be sent. -/
def Pacer.post (p : Pacer) (dest : Option (BitVec 8)) (type lap t : Nat) (c : BitVec 8) (mask : BitVec 256) : Pacer :=
  { p with out := p.out ++ [⟨dest, BitVec.ofNat 8 type, lap, t, c, mask⟩] }

/-- A message to the coordinator. -/
def Pacer.tell (p : Pacer) (type lap t : Nat) (c : BitVec 8) : Pacer :=
  p.post (some (BitVec.ofNat 8 p.coordinator)) type lap t c 0

/-- A proposal under way ends when a later lap is stamped; the grants of a view that follows a silence are still awaited
(R349, R353). -/
def Pacer.superseded (p : Pacer) : Option (Nat × BitVec 8 × BitVec 256) := p.proposal.filter fun q => q.2.1 == 0

/-- The coordinator stamps the next lap with a ceiling and a time, and every member holds it until then (R345, R347).
A proposal under way ends, since its lap is now an earlier one. -/
def Pacer.stamp (p : Pacer) (c : BitVec 8) (t : Nat) : Pacer :=
  let lap := p.nextLap
  { (p.post none 2 lap t c p.view) with
    stamped := lap, proposal := p.superseded, pending := p.pending ++ [⟨lap, c, t, none, false⟩] }

/-- The coordinator sends VIEW with the next lap (R350, R353). -/
def Pacer.stampView (p : Pacer) (c : BitVec 8) (t : Nat) (mask : BitVec 256) : Pacer :=
  let lap := p.nextLap
  { (p.post none 9 lap t c mask) with
    stamped := lap, proposal := p.superseded, pending := p.pending ++ [⟨lap, c, t, some mask, false⟩] }

/-- The ceiling that the laps under way lead to: that of the highest lap still to be applied, else the one applied. -/
def Pacer.target (p : Pacer) : BitVec 8 :=
  (p.pending.foldl (fun b m => if b.1 < m.lap then (m.lap, m.c) else b) (p.lap, p.ceil)).2

/-- The coordinator proposes the least own limit with the next lap, and grants it itself (R349). -/
def Pacer.propose (p : Pacer) (now : Nat) : Pacer :=
  let lap := p.nextLap
  { (p.post none 4 lap 0 p.least 0) with
    stamped := lap, proposal := some (lap, p.least, memberBit p.self.toNat), asked := now }

/-- The coordinator proposes a raise when the least own limit stands above the ceiling that the laps under way lead to,
and while WALKHOLD is set, whatever that limit, unless a granted raise is under way (R349, R353). -/
def Pacer.raise (p : Pacer) (now : Nat) : Pacer :=
  if p.isCoordinator && p.grouped && p.proposal == none &&
      (decide (p.target.toNat < p.least.toNat) || (p.walkhold && !p.pending.any (·.raise))) then p.propose now
  else p

/-- Every member of the view has granted. -/
def Pacer.allGranted (p : Pacer) (got : BitVec 256) : Bool := (viewMembers p.view).all fun m => got.getLsbD m

/-- A proposal that every member has granted is sent as a CEIL of the same lap, 25 µs ahead (R349). A granted view of
R353 (held with the value 0) is followed by the proposal of the least surviving limit. -/
def Pacer.conclude (p : Pacer) (now : Nat) : Pacer :=
  match p.proposal with
  | none => p
  | some (lap, c, got) =>
    if !p.allGranted got then p
    else if c = 0 then p.propose now
    else
      { (p.post none 2 lap (now + 25000) c p.view) with
        proposal := none, pending := p.pending ++ [⟨lap, c, now + 25000, none, true⟩] }

/-- The own limit stands below the ceiling: LOWER, with a time 100 µs ahead. Whoever announces it, the coordinator too,
applies its own limit at that time in any case, without a lap (R347). -/
def Pacer.lower (p : Pacer) (now : Nat) : Pacer :=
  let t := now + 100000
  let p1 := if p.isCoordinator then p.stamp p.least t
    else { (p.tell 1 0 t p.own) with waiting := some (p.waiting.getD now) }
  { p1 with pending := p1.pending ++ [⟨0, p.own, t, none, false⟩] }

/-- A group of one, unless it is held at WALK: its ceiling is its own limit (R344, R353). -/
def Pacer.lone (p : Pacer) : Pacer := if p.grouped || p.walkhold then p else { p with ceil := p.own, breach := false }

/-- The own limit has changed (R344, R347, R349): alone, the ceiling follows at once; in a group a fall to below the
ceiling is announced, and where it rises the coordinator looks for a raise. -/
def Pacer.limitChanged (p : Pacer) (now : Nat) : Pacer :=
  let old := look 0 p.limits p.self.toNat
  let p1 := { p with limits := store 0 p.limits p.self.toNat p.own }
  if !p1.grouped then p1.lone
  else if p1.own.toNat < p1.ceil.toNat && (old == 0 || decide (p1.own.toNat < old.toNat)) then p1.lower now
  else p1.raise now

/-- The member stands alone again, at its own limit (R344, R350). -/
def Pacer.alone (p : Pacer) : Pacer :=
  { p with
    view := memberBit p.self.toNat, ceil := p.own, limits := store 0 [] p.self.toNat p.own, heard := [],
    pending := [], proposal := none, waiting := none, leaving := none, leavers := [], walkhold := false, breach := false }

/-- Members whose last lap has been applied are removed; the coordinator then sends VIEW without them, and the least
limit may have risen (R350). -/
def Pacer.dropLeavers (p : Pacer) (now : Nat) : Pacer :=
  let gone := (p.leavers.filter fun l => decide (l.2 ≤ p.lap + 1)).map (·.1.toNat)
  if gone = [] then p
  else
    let view := gone.foldl (fun v m => v &&& ~~~ memberBit m) p.view
    let p1 := { p with view := view, leavers := p.leavers.filter fun l => !decide (l.2 ≤ p.lap + 1) }
    if !p1.grouped then p1.alone
    else if p1.isCoordinator then (p1.stampView p1.ceil (now + 25000) view).raise now else p1

/-- A lap, or an announced lowering of this member, is applied (R346, R347, R350, R353). -/
def Pacer.apply (p : Pacer) (m : PaceMsg) (now : Nat) : Pacer :=
  if m.lap = 0 then (if m.c.toNat < p.ceil.toNat then { p with ceil := m.c, breach := false } else p)
  else if m.lap ≤ p.lap then p
  else
    match m.mask with
    | none =>
      if p.walkhold && !m.raise then { p with lap := m.lap, breach := false, ceil := minStep p.ceil m.c }
      else { p with lap := m.lap, ceil := m.c, breach := false, walkhold := false }
    | some mask =>
      if !mask.getLsbD p.self.toNat then p.alone
      else
        let new := (viewMembers mask).filter fun k => !p.view.getLsbD k
        let p1 := { p with
          lap := m.lap, view := mask, breach := false, ceil := if p.walkhold then minStep p.ceil m.c else m.c
          heard := new.foldl (fun h k => store 0 h k now) p.heard }
        if p1.own.toNat < p1.ceil.toNat then p1.lower now else p1

/-- A message inserted by its time, then its lap. -/
def paceInsert (m : PaceMsg) : List PaceMsg → List PaceMsg
  | [] => [m]
  | n :: l => if m.t < n.t || (m.t == n.t && decide (m.lap ≤ n.lap)) then m :: n :: l else n :: paceInsert m l

/-- A lap falls due together with a higher one, which alone is applied (R346). -/
def PaceMsg.outdone (m : PaceMsg) (l : List PaceMsg) : Bool :=
  m.lap != 0 && l.any fun n => n.t == m.t && decide (m.lap < n.lap)

/-- Every message whose time has come is applied, in the order of the times, and of laps that fall due together the highest;
the own LEAVE takes effect when its lap is reached (R346, R350). -/
def Pacer.applyDue (p : Pacer) (now : Nat) : Pacer :=
  let late := p.pending.filter fun m => decide (m.t ≤ now)
  let ready := (late.filter fun m => !m.outdone late).foldr paceInsert []
  let p1 := ready.foldl (fun q m => q.apply m now) { p with pending := p.pending.filter fun m => !decide (m.t ≤ now) }
  let p2 := (p1.dropLeavers now).lone
  match p2.leaving with
  | some l => if l ≤ p2.lap + 1 then p2.alone else p2
  | none => p2

/-- A change of the member that may send messages. -/
def onPacer (s : State) (f : Pacer → Nat → Pacer) : State := flushPace (setPacer s (f s.pacer s.timens.toNat))

/-! ### Messages (R345 to R353) -/

/-- A message takes effect at a package that is in a group or on its way into or out of one; with PACEEN 0 and no LEAVE
under way the package is a group of one, which no message of a group concerns (R350, R361). -/
def onMember (s : State) (f : Pacer → Nat → Pacer) : State :=
  if s.pacer.en || s.pacer.leaving.isSome then onPacer s f else s

/-- HEART: the limit is taken down, and the coordinator looks for a raise. -/
def execHeart (src : BitVec 8) (lap : BitVec 64) (c : BitVec 8) (s : State) : Out :=
  .next (onMember s fun p now => ((p.see lap.toNat).hear src c now).raise now)

/-- HEART is sent to every member each 25 µs; a time that has passed while there was nothing to send is not made up
for (R345). -/
def execHeartTimer (s : State) : Out :=
  .next (if s.timens.toNat < s.pacer.heartAt then s else
    onPacer s fun p now => { (p.post none 0 p.lap 0 p.own 0) with
      heartAt := p.heartAt + 25000 * ((now - p.heartAt) / 25000 + 1) })

/-- LOWER at the coordinator: the next lap, with the new least limit; a late one is stamped with its arrival (R347). -/
def execLower (src c : BitVec 8) (t : BitVec 64) (s : State) : Out :=
  .next (onMember s fun p now =>
    let p1 := p.hear src c now
    if p1.isCoordinator then p1.stamp (minStep c p1.least) (max t.toNat now) else p1)

/-- CEIL: a ceiling to be applied at its lap and time (R346). The lap this member granted is a raise. -/
def execCeil (lap : BitVec 64) (c : BitVec 8) (t : BitVec 64) (_mask : BitVec 256) (s : State) : Out :=
  .next (onMember s fun p now =>
    let granted := (p.proposal.map (·.1)) == some lap.toNat
    { ((p.see lap.toNat).listen (BitVec.ofNat 8 p.coordinator) now) with
      waiting := none
      proposal := if granted then none else p.proposal
      pending := p.pending ++ [⟨lap.toNat, c, t.toNat, none, granted⟩] })

/-- BREACH: the lesser ceiling at once, without a lap; the coordinator then stamps it (R348). -/
def execBreach (src c : BitVec 8) (s : State) : Out :=
  .next (onMember s fun p now =>
    let p1 := p.hear src c now
    let p2 := { p1 with ceil := minStep p1.ceil c, breach := true }
    if p2.isCoordinator then p2.stamp p2.ceil now else p2)

/-- PROPOSE: GRANT if the own limit is at least c, else DENY; no clock is raised (R349). -/
def execPropose (src : BitVec 8) (lap : BitVec 64) (c : BitVec 8) (s : State) : Out :=
  .next (onMember s fun p now =>
    let p1 := (p.see lap.toNat).listen src now
    if c.toNat ≤ p1.own.toNat then
      { (p1.post (some src) 5 lap.toNat 0 0 0) with proposal := some (lap.toNat, c, 0), asked := now }
    else p1.post (some src) 6 lap.toNat 0 p1.own 0)

/-- GRANT at the coordinator (R349). -/
def execGrant (src : BitVec 8) (lap : BitVec 64) (s : State) : Out :=
  .next (onMember s fun p now =>
    let p1 := (p.see lap.toNat).listen src now
    match p1.proposal with
    | some (l, c, got) =>
      if l = lap.toNat && p1.isCoordinator then
        { p1 with proposal := some (l, c, got ||| memberBit src.toNat) }.conclude now
      else p1
    | none => p1)

/-- DENY ends the proposal; the coordinator proposes again with the lap after it (R349). -/
def execDeny (src : BitVec 8) (lap : BitVec 64) (c : BitVec 8) (s : State) : Out :=
  .next (onMember s fun p now =>
    let p1 := (p.see lap.toNat).hear src c now
    if (p1.proposal.map (·.1)) == some lap.toNat then
      (if p1.isCoordinator then { p1 with proposal := none }.propose now else { p1 with proposal := none })
    else p1)

/-- JOIN: the coordinator sends VIEW with the new member; another member passes it on (R350). -/
def execJoinMsg (src c : BitVec 8) (s : State) : Out :=
  .next (onMember s fun p now =>
    let p1 := p.hear src c now
    if p1.isCoordinator then
      let view := p1.view ||| memberBit src.toNat
      let p2 := p1.stampView p1.ceil (now + 25000) view
      p2.post (some src) 9 p2.stamped (now + 25000) p1.ceil view
    else p.post (some (BitVec.ofNat 8 p.coordinator)) 7 0 0 c (memberBit src.toNat))

/-- LEAVE: the member goes when the lap before its own has been applied (R350). -/
def execLeave (src : BitVec 8) (lap : BitVec 64) (s : State) : Out :=
  .next (onMember s fun p now =>
    { (p.listen src now) with leavers := p.leavers ++ [(src, lap.toNat)] }.dropLeavers now)

/-- A view follows a silence: it leaves out a member that had not announced that it leaves, or this member has found the
silence itself (R353). -/
def Pacer.afterSilence (p : Pacer) (mask : BitVec 256) : Bool :=
  p.walkhold || (viewMembers p.view).any fun m => !mask.getLsbD m && !p.leavers.any fun l => l.1.toNat == m

/-- VIEW: a membership and a ceiling to be applied at its time; a view that follows a silence is granted (R346, R353). -/
def execView (src : BitVec 8) (lap : BitVec 64) (c : BitVec 8) (t : BitVec 64) (mask : BitVec 256) (s : State) : Out :=
  .next (onMember s fun p now =>
    let p1 := (p.see lap.toNat).listen src now
    let p2 : Pacer := { p1 with
      waiting := none, pending := p1.pending ++ [⟨lap.toNat, c, t.toNat, some mask, false⟩] }
    if p1.afterSilence mask then p2.post (some src) 5 lap.toNat 0 0 0 else p2)

/-- A message of type 10 to 255 is dropped and counted; one of another GID is dropped (R345). -/
def execUnknownPacerType (_src type : BitVec 8) (s : State) : Out :=
  .next (if 10 ≤ type.toNat then countError s else s)

/-! ### The power predictor and the sensors (R348, R359, R360) -/

/-- An emergency trip: 32 steps down at once, and BREACH to every member (R348). -/
def trip (s : State) : State :=
  let s1 := onPacer s fun p now =>
    let p1 := { p with power := BitVec.ofNat 8 (max 40 (p.own.toNat - 32)) }
    let p2 := { p1 with
      limits := store 0 p1.limits p1.self.toNat p1.own, ceil := minStep p1.ceil p1.own, breach := true }
    let p3 := p2.post none 3 0 0 p2.own 0
    if p3.isCoordinator && p3.grouped then p3.stamp p3.ceil now else p3
  { s1 with power := { s1.power with recheckAt := some (s1.timens.toNat + 1000000) } }

/-- EMERGENCY_TRIP (R348, R359). -/
def execEmergencyTrip (s : State) : Out := .next (trip s)

/-- The sensor is read again 1 ms after a trip (R359). -/
def execTripRecheck (degrees : Nat) (s : State) : Out :=
  .next (match s.power.recheckAt with
    | none => s
    | some t =>
      if s.timens.toNat < t then s
      else if 105 ≤ degrees then trip s
      else { s with power := { s.power with recheckAt := none } })

/-- The mean of the window exceeds a power: compared as sums. -/
def meanAbove (l : List (Nat × Nat)) (watts : Nat) : Bool :=
  decide (watts * l.length < (l.map (·.1)).foldl (· + ·) 0)

/-- A sample of package power and of the hottest sensor; the predictor's limit falls by 4 steps or rises by 1. A reading
of 105 °C or more is a trip; until the sensor is read again, 1 ms later, it trips no more (R359). -/
def execPowerSample (watts degrees : Nat) (s : State) : Out :=
  let now := s.timens.toNat
  let w := ((watts, degrees) :: s.power.samples).take 64
  let s1 : State := { s with power := { s.power with samples := w, sampleAt := s.power.sampleAt + 10000 } }
  .next (
    if 105 ≤ degrees && s1.power.recheckAt.isNone then trip s1
    else if (meanAbove w 3420 || decide (95 ≤ degrees)) && decide (s1.power.loweredAt ≤ now) then
      onPacer { s1 with power := { s1.power with loweredAt := now + 100000 } } fun p now =>
        { p with power := BitVec.ofNat 8 (max 40 (p.own.toNat - 4)) }.limitChanged now
    else if w.length == 64 && (decide ((w.map (·.1)).foldl (· + ·) 0 < 3060 * 64)) && (w.all fun x => decide (x.2 < 90)) &&
        decide (s1.power.raisedAt ≤ now) && decide (s1.pacer.power.toNat < 132) then
      onPacer { s1 with power := { s1.power with raisedAt := now + 640000 } } fun p now =>
        { p with power := p.power + 1 }.limitChanged now
    else s1)

/-- A limit brought into the range 40 to 132. -/
def clampStep (v : BitVec 8) : BitVec 8 := if v.toNat < 40 then 40 else if 132 < v.toNat then 132 else v

/-- The ageing measurement: limit, remaining life, and the clusters that move to a slower pool (R360). -/
def execAgeingMeasure (limit : BitVec 8) (days : BitVec 32) (slower : List (Nat × BitVec 2)) (s : State) : Out :=
  let s1 : State := { s with power := { s.power with
    eoldays := days
    eolcount := if days.toNat < 30 then s.power.eolcount + 1 else s.power.eolcount
    moving := s.power.moving ++ slower.map fun x => (x.1, x.2, none) } }
  .next (onPacer s1 fun p now => { p with ageing := clampStep limit }.limitChanged now)

/-- A write of FWLIMIT from the master die (R361). -/
def fwlimitWrite (s : State) (die : Nat) (v : BitVec 8) : State :=
  if die ≠ 0 then s else onPacer s fun p now => { p with fwlimit := clampStep v }.limitChanged now

/-- FWLIMIT (R344, R361). -/
def execFwlimit (die : BitVec 2) (v : BitVec 8) (s : State) : Out := .next (fwlimitWrite s die.toNat v)

/-- A write of PACEEN from the master die: JOIN, or LEAVE at the next lap (R350, R361). -/
def paceenWrite (s : State) (die : Nat) (on : Bool) : State :=
  if die ≠ 0 || on == s.pacer.en then s
  else if on then
    onPacer s fun p _ =>
      let dests := (List.range 256).filter fun d => d != p.self.toNat && (portTo s d).isSome
      let p1 := { p with en := true }
      match dests with
      | [] => p1
      | d :: _ => p1.post (some (BitVec.ofNat 8 d)) 7 0 0 p1.own 0
  else
    let lap := s.pacer.leaveLap
    if !s.pacer.grouped then onPacer s fun p _ => { p with en := false }
    else
      -- the LEAVE goes out to the view before the member stands alone
      let s1 := onPacer s fun p _ => { (p.post none 8 lap 0 0 0) with en := false, leaving := some lap }
      if lap ≤ s1.pacer.lap + 1 then onPacer s1 fun p _ => p.alone else s1

/-! ### Pools (R354) -/

/-- The class ceiling of a pool: that of WALK is always 40 (R354). -/
def classCeiling (p : Power) (cls : Nat) : BitVec 8 :=
  match cls with
  | 0 => p.clsprint
  | 1 => p.cltempo
  | 2 => p.cldist
  | _ => 40

/-- The operating point of a pool, in steps of 25 MHz: Min(class ceiling, PACECEIL) (R354). -/
def operatingPoint (s : State) (cls : Nat) : BitVec 8 := minStep (classCeiling s.power cls) s.pacer.ceil

/-- PACEEN (R361). -/
def execPaceen (die : BitVec 2) (on : BitVec 1) (s : State) : Out := .next (paceenWrite s die.toNat (on == 1))

/-! ### Current records (R358, R359) -/

/-- A change of a cluster's current record. -/
def onRecord (s : State) (cluster : Nat) (f : CurrentRecord → CurrentRecord) : State :=
  { s with current := store freshRecord s.current cluster (f (recordOf s cluster)) }

/-- The charge of an interval with the ballast of a cooldown lap: in step `st` it is brought up to M·(15 − st)/16. The idle
cycles of the lane pipe, in which the ballast issues, are taken to suffice (DESIGN CHOICE, log 76). -/
def CurrentRecord.charged (r : CurrentRecord) : Nat :=
  match r.cooldown with
  | none => r.now
  | some (m, st) => max r.now (m * (15 - st) / 16)

/-- The end of an interval: the window advances with the interval's charge, ballast among it, the thresholds of R159 are
looked at, and a cooldown lap starts or ends (R359). -/
def execIntervalEnd (cluster : Nat) (s : State) : Out :=
  .next (onRecord s cluster fun r =>
    let past := (r.charged :: r.past).take 64
    let sum := past.foldl (· + ·) 0
    let mean := (r.past.take 8).foldl (· + ·) 0 / 8
    { r with
      past := past, now := 0
      throttled := if (limitsFor s cluster).curhigh.toNat < sum then true
        else if sum < (limitsFor s cluster).curlow.toNat then false else r.throttled
      cooldown := match r.cooldown with
        | some (m, st) => if m ≤ r.now then none else some (m, st)
        | none => if decide ((limitsFor s cluster).ballast.toNat ≤ mean) && decide (8 * r.charged ≤ mean) then some (mean, 0) else none })

/-- The next step of a cooldown lap; after 16 steps it is over (R359). -/
def execCooldownStep (cluster : Nat) (s : State) : Out :=
  .next (onRecord s cluster fun r => { r with
    cooldown := match r.cooldown with
      | some (m, st) => if 15 ≤ st then none else some (m, st + 1)
      | none => none })

/-- The scrub of HBM: errors corrected, and words that could not be (R304). -/
def execHbmScrub (corrected : Nat) (poisoned : List Nat) (s : State) : Out :=
  .next { s with
    corrected := s.corrected.set 3 (s.corrected[3] + corrected)
    poison := s.poison ++ poisoned.filter fun w => !s.poison.contains w }

end Sys2Proof.Machine
end

