-- ==== Sys2Proof/Machine/Drift.lean ====
section
/-!
DEFINITION. The Drift ports (R333 to R335, R372): link training, flits received, and replay.
-/

namespace Sys2Proof.Machine

/-! ### Link training (R372): 0 DOWN, 1 DETECT, 2 EQUALISE, 3 ALIGN, 4 IDENT, 5 UP -/

/-- A port in one state goes to another. -/
def moveFrom (s : State) (p : Nat) (state next : BitVec 3) : State :=
  onPort s p fun q => if q.state = state then { q with state := next } else q

/-- The bit EN of a port takes effect: a port that is DOWN goes to DETECT while it is enabled. -/
def Port.enable (q : Port) (on : Bool) (now : Nat) : Port :=
  if on && q.state == 0 then { q with en := on, state := 1, since := now } else { q with en := on }

/-- A write of PCTL.EN, and the way of a DOWN port with EN 1 to DETECT (R372). -/
def portEnable (s : State) (p : Nat) (on : Bool) : State := onPort s p fun q => q.enable on s.timens.toNat

/-- A port that is UP is retrained, from EQUALISE, and the retraining is counted. -/
def Port.retrain (q : Port) (now : Nat) : Port :=
  if q.state = 5 then
    { q with state := 2, retraining := true, retrains := q.retrains + 1, tries := 0, since := now }
  else q

/-- A port's 10 ms are over: in DETECT without a signal, or in a retraining that has not reached UP (R372). -/
def Port.late (q : Port) (now : Nat) : Bool :=
  (q.state == 1 || (q.retraining && q.state != 5)) && decide (q.since + 10000000 ≤ now)

/-- PORT_EN (R372). -/
def execPortEn (port : BitVec 5) (on : BitVec 1) (s : State) : Out := .next (portEnable s port.toNat (on == 1))

/-- PORT_RETRAIN (R372). -/
def execPortRetrain (port : BitVec 5) (s : State) : Out := .next (onPort s port.toNat fun q => q.retrain s.timens.toNat)

/-- SIGNAL_DETECT: DETECT to EQUALISE (R372). -/
def execSignalDetect (port : BitVec 5) (s : State) : Out := .next (moveFrom s port.toNat 1 2)

/-- DETECT_TIMEOUT: DETECT to DOWN (R372). -/
def execDetectTimeout (port : BitVec 5) (s : State) : Out := .next (moveFrom s port.toNat 1 0)

/-- EQUALISE_DONE: EQUALISE to ALIGN (R372). -/
def execEqualiseDone (port : BitVec 5) (s : State) : Out := .next (moveFrom s port.toNat 2 3)

/-- ALIGN_LOCK: ALIGN to IDENT (R372). -/
def execAlignLock (port : BitVec 5) (s : State) : Out := .next (moveFrom s port.toNat 3 4)

/-- IDENT_EXCHANGE: IDENT to UP, or to DOWN where the GIDs differ (R372). -/
def execIdentExchange (port : BitVec 5) (peer : BitVec 8) (gid : BitVec 16) (s : State) : Out :=
  .next (onPort s port.toNat fun q =>
    if q.state ≠ 4 then q
    else if gid = s.pacer.gid then { q with state := 5, peer := peer, retraining := false }
    else { q with state := 0, retraining := false })

/-- RETRAIN_TIMEOUT: a retraining that has not reached UP leaves the port DOWN (R372). -/
def execRetrainTimeout (port : BitVec 5) (s : State) : Out :=
  .next (onPort s port.toNat fun q => if q.retraining && q.state != 5 then { q with state := 0, retraining := false } else q)

/-! ### Flits (R333, R334, R345) -/

/-- The Pacer message that a VC 2 flit carries takes effect; a type of 10 or more is an unknown one. -/
def paceMessage (src : BitVec 8) (payload : List Byte) (s : State) : Out :=
  let f (off n : Nat) : Nat := ofBytes ((payload.drop (off - 16)).take n)
  let lap := BitVec.ofNat 64 (f 24 8)
  let t := BitVec.ofNat 64 (f 32 8)
  let c := BitVec.ofNat 8 (f 40 1)
  let mask := BitVec.ofNat 256 (f 48 32)
  match f 16 1 with
  | 0 => execHeart src lap c s
  | 1 => execLower src c t s
  | 2 => execCeil lap c t mask s
  | 3 => execBreach src c s
  | 4 => execPropose src lap c s
  | 5 => execGrant src lap s
  | 6 => execDeny src lap c s
  -- a JOIN that is passed on names its part in the mask
  | 7 => execJoinMsg (if mask = 0 then src else BitVec.ofNat 8 ((viewMembers mask).headD src.toNat)) c s
  | 8 => execLeave src lap s
  | 9 => execView src lap c t mask s
  | n => execUnknownPacerType src (BitVec.ofNat 8 n) s

/-! ### Forward error correction (R333) -/

/-- Every string that differs from a string in at most `k` bytes. -/
def near : Nat → List Byte → List (List Byte)
  | _, [] => [[]]
  | 0, l => [l]
  | k + 1, b :: l =>
    (near (k + 1) l).map (b :: ·) ++
    (((List.range 256).map (BitVec.ofNat 8)).filter (· != b)).flatMap fun x => (near k l).map (x :: ·)

/-- The parity bytes of a flit are those of its bytes 0 to 247. -/
def parityHolds (flit : List Byte) : Bool :=
  flit.length == 256 && BitVec.ofNat 64 (ofBytes (flit.drop 248)) == Config.flitParity (flit.take 248)

/-- The correction of up to four byte errors: a flit whose parity holds is left as it is, else it becomes one whose
parity holds and that differs from it in at most four bytes; one that is farther from all of them is left to its CRC
(R333; log 17). -/
def fecFix (flit : List Byte) : List Byte :=
  if flit.length != 256 || parityHolds flit then flit else ((near 4 flit).find? parityHolds).getD flit

/-- A corrected flit whose CRC holds (R334; log 17). -/
def crcHolds (flit : List Byte) : Bool :=
  flit.length == 256 && BitVec.ofNat 64 (ofBytes ((flit.drop 240).take 8)) == Config.flitCrc (flit.take 240)

/-- What an accepted flit brings: a Pacer message of the member's own group; what VC 0 and VC 3 carry comes as events
of their own. -/
def acceptFlit (s : State) (flit : List Byte) : State :=
  if ofBytes ((flit.drop 2).take 1) % 4 = 2 && BitVec.ofNat 16 (ofBytes ((flit.drop 4).take 2)) == s.pacer.gid then
    match paceMessage (flit.getD 1 0) (flit.drop 16) s with
    | .next t => t
    | _ => s
  else s

/-- Flits that the peer has acknowledged, up to one, leave the replay buffer. -/
def Port.acked (q : Port) (seq : BitVec 12) : Port :=
  if q.buffer.any (·.1 == seq) then { q with buffer := (q.buffer.dropWhile (·.1 != seq)).drop 1, tries := 0 } else q

/-- A corrected flit on a port that is UP: a failed CRC is answered negatively; an acknowledgement releases the replay
buffer; a flit in order is accepted and acknowledged, and one out of order is not (R334). -/
def receiveFlit (s : State) (p : Nat) (flit : List Byte) : State :=
  let q := s.ports.getD p Port.reset
  let word := BitVec.ofNat 16 (ofBytes ((flit.drop 2).take 2))
  let seq : BitVec 12 := (word >>> 2).setWidth 12
  if q.state ≠ 5 then s
  else if !crcHolds flit then onPort s p fun q => { q with answer := some (true, q.recvSeq) }
  else if word.toNat % 4 = 1 then onPort s p fun q => q.acked seq
  else if seq ≠ q.recvSeq then s
  else acceptFlit (onPort s p fun q => { q with recvSeq := q.recvSeq + 1, answer := some (false, seq) }) flit

/-- FLIT_RECEIVE (R334). -/
def execFlitReceive (port : BitVec 5) (flit : List (BitVec 8)) (s : State) : Out :=
  .next (receiveFlit s port.toNat (fecFix flit))

/-- A negative acknowledgement: the flits from the one named are sent again, and the replay is counted; when the
eighth replay of one flit has failed, the port is retrained (R334, R372). -/
def Port.replay (q : Port) (seq : BitVec 12) (now : Nat) : Port :=
  if !q.buffer.any (·.1 == seq) then q
  else
    let kept := q.buffer.dropWhile (·.1 != seq)
    let again := q.asked == seq && q.tries != 0
    if again && decide (8 ≤ q.tries) then { q with buffer := kept }.retrain now
    else { q with
      buffer := kept, asked := seq, tries := if again then q.tries + 1 else 1, replays := q.replays + 1 }

/-- FLIT_NAK (R334). -/
def execFlitNak (port : BitVec 5) (seq : BitVec 12) (s : State) : Out :=
  .next (onPort s port.toNat fun q => q.replay seq s.timens.toNat)

end Sys2Proof.Machine
end

