-- ==== Sys2Proof/Machine/Operands.lean ====
section
/-!
DEFINITION. The values instructions compute and the ways they read and write operands: the scalar functions of R46 to
R51, sub-elements (R27), the integer functions of R100 to R107, and the shape of a lane instruction (R68, R97).
-/

namespace Sys2Proof.Machine

/-! ### Scalar functions (R46 to R50) -/

/-- SHL with the whole 64-bit count (R46). -/
def shl64 (a b : Word) : Word := if 64 ≤ b.toNat then 0 else a <<< b.toNat

/-- SHR (R46). -/
def shr64 (a b : Word) : Word := if 64 ≤ b.toNat then 0 else a >>> b.toNat

/-- SAR (R46). -/
def sar64 (a b : Word) : Word :=
  if 64 ≤ b.toNat then (if a.getLsbD 63 then BitVec.allOnes 64 else 0) else a.sshiftRight b.toNat

/-- The upper half of the exact signed product (R46). -/
def mulhs64 (a b : Word) : Word := BitVec.ofInt 64 (a.toInt * b.toInt / 2 ^ 64)

/-- The upper half of the exact unsigned product (R46). -/
def mulhz64 (a b : Word) : Word := w64 (a.toNat * b.toNat / 2 ^ 64)

def mins64 (a b : Word) : Word := if a.toInt ≤ b.toInt then a else b
def maxs64 (a b : Word) : Word := if b.toInt ≤ a.toInt then a else b
def minz64 (a b : Word) : Word := if a.toNat ≤ b.toNat then a else b
def maxz64 (a b : Word) : Word := if b.toNat ≤ a.toNat then a else b

/-- DIVS: toward zero; all ones for a zero divisor (R48). -/
def divs64 (a b : Word) : Word :=
  if b = 0 then BitVec.allOnes 64
  else if a = 0x8000000000000000 && b == BitVec.allOnes 64 then a
  else BitVec.ofInt 64 (a.toInt.tdiv b.toInt)

/-- DIVZ (R48). -/
def divz64 (a b : Word) : Word := if b = 0 then BitVec.allOnes 64 else w64 (a.toNat / b.toNat)

/-- REMS: the sign of the dividend (R48). -/
def rems64 (a b : Word) : Word :=
  if b = 0 then a
  else if a = 0x8000000000000000 && b == BitVec.allOnes 64 then 0
  else BitVec.ofInt 64 (a.toInt - b.toInt * a.toInt.tdiv b.toInt)

/-- REMZ (R48). -/
def remz64 (a b : Word) : Word := if b = 0 then a else w64 (a.toNat - b.toNat * (a.toNat / b.toNat))

/-- Leading zero bits of a number at a width. -/
def clzAt (w a : Nat) : Nat := if a = 0 then w else w - 1 - a.log2

/-- One bits of a number at a width. -/
def popAt (w a : Nat) : Nat := ((List.range w).filter (bit a)).length

/-- The field position of a BFX or BFI control word (R49, R106). -/
def fieldPos (b : Word) : Nat := bits b.toNat 0 6

/-- The field length of a control word, before it is limited. -/
def fieldLen (b : Word) : Nat := bits b.toNat 8 7

/-- Scalar BFX (R49). -/
def bfx64 (a b : Word) : Word := w64 (bits a.toNat (fieldPos b) (min (fieldLen b) (64 - fieldPos b)))

/-- The bits `pos` to `pos + len - 1` of `d` replaced by the low bits of `a`. -/
def insertBits (d a pos len : Nat) : Nat := d - bits d pos len * 2 ^ pos + bits a 0 len * 2 ^ pos

/-- Scalar BFI (R49). -/
def bfi64 (d a b : Word) : Word :=
  w64 (insertBits d.toNat a.toNat (fieldPos b) (min (fieldLen b) (64 - fieldPos b)))

/-- The relations of CMPS, by md (R47, R50). -/
def relCmps (c : BitVec 3) (a b : Word) : Bool :=
  match c.toNat with
  | 0 => a == b
  | 1 => a != b
  | 2 => decide (a.toInt < b.toInt)
  | 3 => decide (a.toInt ≤ b.toInt)
  | 4 => decide (a.toNat < b.toNat)
  | _ => decide (a.toNat ≤ b.toNat)

/-- The conditions of BRC (R52); the first six are also the comparisons of the searches (R36). -/
def relBrc (c : BitVec 3) (a b : Word) : Bool :=
  match c.toNat with
  | 0 => a == b
  | 1 => a != b
  | 2 => decide (a.toInt < b.toInt)
  | 3 => decide (b.toInt ≤ a.toInt)
  | 4 => decide (a.toNat < b.toNat)
  | 5 => decide (b.toNat ≤ a.toNat)
  | 6 => a == 0
  | _ => a != 0

/-- MOVW and MOVWK: halfword `h` of `r` becomes the immediate (R51). -/
def putHalf (r : Word) (h : BitVec 2) (imm : BitVec 16) : Word :=
  w64 (insertBits r.toNat imm.toNat (16 * h.toNat) 16)

/-! ### Sub-elements (R27) -/

/-- The width of an integer w field. -/
def widthOf (w : BitVec 2) : Nat := 8 * 2 ^ w.toNat

/-- Sub-element `j` of width `w`. -/
def sub (w : Nat) (x : Word) (j : Nat) : Nat := bits x.toNat (w * j) w

/-- The register whose sub-elements of width `w` are `f 0`, `f 1`, and so on. -/
def joinSubs (w : Nat) (f : Nat → Nat) : Word :=
  w64 ((List.range (64 / w)).foldl (fun a j => a + f j % 2 ^ w * 2 ^ (w * j)) 0)

/-- The immediate of an LI word as a sub-element: sign-extended to the width, or its low 8 bits (R27). -/
def immSub (w : Nat) (i : BitVec 9) : Nat := wrap w (signed 9 i.toNat)

/-- A signed value saturated to a width (R78). -/
def satS (w : Nat) (x : Int) : Nat := wrap w (min (2 ^ (w - 1) - 1) (max (-(2 ^ (w - 1))) x))

/-- A value saturated to the unsigned range of a width (R78). -/
def satZ (w : Nat) (x : Int) : Nat := wrap w (min (2 ^ w - 1) (max 0 x))

/-- The value of a sub-element, signed for md 0 and unsigned for md 1. -/
def valueBy (md : BitVec 1) (w x : Nat) : Int := if md = 0 then signed w x else x

/-- The saturation of md 0 or md 1. -/
def satBy (md : BitVec 1) (w : Nat) (x : Int) : Nat := if md = 0 then satS w x else satZ w x

def addSub (w a b : Nat) : Nat := wrap w ((a : Int) + b)
def subSub (w a b : Nat) : Nat := wrap w ((a : Int) - b)
def mulSub (w a b : Nat) : Nat := wrap w ((a : Int) * b)
def mulhSub (md : BitVec 1) (w a b : Nat) : Nat := wrap w (valueBy md w a * valueBy md w b / 2 ^ w)
def madSub (w a b d : Nat) : Nat := wrap w ((a : Int) * b + d)
def addsatSub (md : BitVec 1) (w a b : Nat) : Nat := satBy md w (valueBy md w a + valueBy md w b)
def subsatSub (md : BitVec 1) (w a b : Nat) : Nat := satBy md w (valueBy md w a - valueBy md w b)
def minSub (md : BitVec 1) (w a b : Nat) : Nat := if valueBy md w a ≤ valueBy md w b then a else b
def maxSub (md : BitVec 1) (w a b : Nat) : Nat := if valueBy md w b ≤ valueBy md w a then a else b
def absSub (w a : Nat) : Nat := wrap w (signed w a).natAbs
def negSub (w a : Nat) : Nat := wrap w (-(a : Int))
def notSub (w a : Nat) : Nat := 2 ^ w - 1 - a
/-- Bit i moved to bit w - 1 - i. -/
def brevSub (w a : Nat) : Nat := (List.range w).foldl (fun r i => r + bitAt (bit a i) (w - 1 - i)) 0
def shlSub (w a c : Nat) : Nat := if w ≤ c then 0 else a * 2 ^ c % 2 ^ w
def shrSub (w a c : Nat) : Nat := if w ≤ c then 0 else a / 2 ^ c
def sarSub (w a c : Nat) : Nat := wrap w (signed w a / 2 ^ min c w)

/-- The relations of CMP and CMPZ: md 0 EQ, 1 NE, 2 LT, 3 LE (R105). -/
def cmpSub (md : BitVec 2) (sgn : Bool) (w a b : Nat) : Bool :=
  let v (x : Nat) : Int := if sgn then signed w x else x
  match md.toNat with
  | 0 => a == b
  | 1 => a != b
  | 2 => decide (v a < v b)
  | _ => decide (v a ≤ v b)

/-- All ones or zero at a width. -/
def maskSub (w : Nat) (b : Bool) : Nat := if b then 2 ^ w - 1 else 0

/-- BFX of a sub-element (R106). -/
def bfxSub (md : BitVec 1) (w a : Nat) (ctl : Word) : Nat :=
  let pos := fieldPos ctl
  let len := min (fieldLen ctl) (w - pos)
  if w ≤ pos || len == 0 then 0
  else if md = 0 then bits a pos len else wrap w (signed len (bits a pos len))

/-- BFI of a sub-element (R106). -/
def bfiSub (w d a : Nat) (ctl : Word) : Nat :=
  let pos := fieldPos ctl
  if w ≤ pos then d else insertBits d a pos (min (fieldLen ctl) (w - pos))

/-- PACK of two registers from width `w` to half of it (R107). -/
def packWord (md : BitVec 2) (w : Nat) (a b : Word) : Word :=
  let n := 64 / w
  joinSubs (w / 2) fun j =>
    let x := if j < n then sub w a j else sub w b (j - n)
    match md.toNat with
    | 0 => satS (w / 2) (signed w x)
    | 1 => satZ (w / 2) x
    | _ => x % 2 ^ (w / 2)

/-- UNPK to width `w`: md 0 low signed, 1 low zero, 2 high signed, 3 high zero (R107). -/
def unpkWord (md : BitVec 2) (w : Nat) (a : Word) : Word :=
  let n := 64 / w
  joinSubs w fun j =>
    let x := sub (w / 2) a (if md.toNat < 2 then j else j + n)
    if md.toNat % 2 = 0 then wrap w (signed (w / 2) x) else x

/-! ### The shape of a lane instruction (R68, R97) -/

/-- Every thread of the active set gets a value in register `d`, all of them read before any is written, and the word
ends. -/
def laneWrite (s : State) (d : BitVec 7) (f : Nat → Word) : State :=
  done { s with g := setVs s.g d.toNat ((laneThreads s).map fun t => (t, f t)) }

/-! ### Long-latency results (R13, R15, R71) -/

/-- The destination of a long-latency operation is marked outstanding under the setA flag of the clause (R15). -/
def markOut (c : Crew) (r : Reg) : Crew := { c with outm := c.outm ++ [⟨r, c.setA.toNat⟩] }

/-- A long-latency scalar result: it lands later; with destination `s0` it writes nothing (R14). -/
def landScalar (s : State) (d : BitVec 6) (x : Word) : State :=
  if d.toNat = 0 then done s
  else done { s with c := { markOut s.c (.s d) with land := s.c.land ++ [⟨s.c.clause, .scalar d x, 0⟩] } }

/-- A long-latency mark (R132). -/
def landMark (s : State) (d : BitVec 3) (x : ThreadSet) : State :=
  done { s with c := { markOut s.c (.m d) with land := s.c.land ++ [⟨s.c.clause, .mark d x, 0⟩] } }

/-- The gangs of some threads, ascending. -/
def gangsOf (l : List Nat) : List Nat := (List.range 64).filter fun k => l.any fun t => t / 32 == k

/-- Long-latency results of a lane word: one landing for each gang that has threads, with its flags (R71, R115). -/
def landLanes (s : State) (d : BitVec 7) (threads : List Nat) (value : Nat → Option Word) (flags : Nat → Nat) : State :=
  let one (k : Nat) : Landing :=
    let ts := threads.filter fun t => t / 32 == k
    ⟨s.c.clause, .gang d (ts.filterMap fun t => (value t).map fun x => (t, x)),
      BitVec.ofNat 10 (ts.foldl (fun a t => a ||| flags t) 0)⟩
  done { s with c := { markOut s.c (.v d) with land := s.c.land ++ (gangsOf threads).map one } }

/-- A lane word of one source, per sub-element. -/
def lane1 (s : State) (w : Nat) (d a : BitVec 7) (f : Nat → Nat) : State :=
  laneWrite s d fun t => joinSubs w fun j => f (sub w (reg s t a) j)

/-- A lane word of two sources, per sub-element. -/
def lane2 (s : State) (w : Nat) (d a b : BitVec 7) (f : Nat → Nat → Nat) : State :=
  laneWrite s d fun t => joinSubs w fun j => f (sub w (reg s t a) j) (sub w (reg s t b) j)

/-- A lane word of two sources and its destination, per sub-element. -/
def lane3 (s : State) (w : Nat) (d a b : BitVec 7) (f : Nat → Nat → Nat → Nat) : State :=
  laneWrite s d fun t => joinSubs w fun j => f (sub w (reg s t a) j) (sub w (reg s t b) j) (sub w (reg s t d) j)

end Sys2Proof.Machine
end

