-- ==== Sys2Proof/Machine/Flags.lean ====
section
/-!
DEFINITION. The sticky flags of XSTAT (R82, R110, R115): how a lane word gathers them over its active set, and the
sub-element results that carry them.
-/

namespace Sys2Proof.Machine

/-- XSTAT.XOOR and XSTAT.XDEAD (R308). -/
def flagXOOR : Nat := 256
def flagXDEAD : Nat := 512

/-- Flags ORed into XSTAT (R82). -/
def raise (c : Crew) (flags : Nat) : Crew := { c with xstat := c.xstat ||| BitVec.ofNat 10 flags }

/-- The union of the flags of some results. -/
def flagsOf (l : List FRes) : Nat := l.foldl (fun a r => a ||| r.flags) 0

/-- The sub-elements of a register as results, one for each position. -/
def subResults (w : Nat) (f : Nat → FRes) : List FRes := (List.range (64 / w)).map f

/-- The register of the sub-elements of some results, and the union of their flags. -/
def packResults (w : Nat) (l : List FRes) : FRes :=
  ⟨(joinSubs w fun j => (l.getD j ⟨0, 0⟩).bits).toNat, flagsOf l⟩

/-- Every thread of the active set gets a value in register `d`; the flags of all of them are gathered into XSTAT,
and the word ends (R82, R113). -/
def laneFlagged (s : State) (d : BitVec 7) (f : Nat → FRes) : State :=
  let rs := (laneThreads s).map fun t => (t, f t)
  done { s with
    c := raise s.c (flagsOf (rs.map (·.2)))
    g := setVs s.g d.toNat (rs.map fun p => (p.1, w64 p.2.bits)) }

/-- A floating-point lane word per sub-element of its format: `f` is given the thread and the position. -/
def laneFp (s : State) (w : BitVec 2) (d : BitVec 7) (f : Nat → Nat → FRes) : State :=
  laneFlagged s d fun t => packResults (fmtOf w).width (subResults (fmtOf w).width (f t))

/-- Sub-element `j` of register `r` of thread `t` at a floating-point w. -/
def fsub (s : State) (w : BitVec 2) (t : Nat) (r : BitVec 7) (j : Nat) : Nat := sub (fmtOf w).width (reg s t r) j

end Sys2Proof.Machine
end

