-- ==== Sys2Proof/Machine/Access.lean ====
section
/-!
DEFINITION. How the words of a crew reach memory: checked places, loads that land later, stores that are performed
later, the first failing thread of a lane access (R295), and the deferred error of a load (R304).
-/

namespace Sys2Proof.Machine

/-- A load that met an uncorrectable word (R294, R296, R304). -/
def deferEcc (s : State) (addr : Word) (thread reg : Nat) : State := deferEccAt s addr thread reg s.c.pc

/-- The contributions of the crew in focus that what a word issues must wait for: those that a `FENCE.A` or a `FENCE.R`
follows, and all of them for a release (R194, R219). -/
def awaited (s : State) (rel : Bool) : List ContribKey :=
  (s.c.redq.filter fun x => rel || x.fenceA || x.fenceR).map Contribution.key

/-- The stores of a word, a release or not, are queued to be performed, under its clause (R13, R194). -/
def queueStore (s : State) (rel : Bool) (l : List WriteAcc) : State :=
  if l = [] then s else { s with c := { s.c with stores := s.c.stores ++ [⟨s.c.clause, l, awaited s rel, []⟩] } }

/-- The acknowledgement of what the word has performed is on its way to the crew (R13, R388). -/
def ackLater (s : State) : State :=
  if s.c.acks.contains s.c.clause then s else { s with c := { s.c with acks := s.c.acks ++ [s.c.clause] } }

/-- A scalar access to global memory that passes its checks goes on with its place; otherwise its trap (R57, R295). -/
def placedAccess (s : State) (need : Need) (addr : Word) (align n kind : Nat) (go : Place → State) : State :=
  match checkGlobal s need addr.toNat align n with
  | .error e => scalarFault s e addr kind
  | .ok p => go p

/-- Some bytes meet an object to which a reduction of the crew in focus is still to be accepted or discarded, so that a
later access of the crew waits for it (R192). -/
def redqMeets (s : State) (pa n : Nat) : Bool :=
  s.c.redq.any fun x => decide (x.obj < pa + n) && decide (pa < x.obj + 16)

/-- A `FENCE.A` stands between a reduction that is still to be answered and the access, or a `FENCE.R` where it writes
(R194, R219). -/
def fenced (s : State) (need : Need) : Bool := s.c.redq.any fun x => x.fenceA || (need.w && x.fenceR)

/-- Some bytes meet a store of the crew in focus that waits for a reduction (R192). -/
def storesStay (s : State) (pa n : Nat) : Bool :=
  s.c.staying.any fun p => p.writes.any fun w => !w.vault && decide (w.addr < pa + n) && decide (pa < w.addr + w.bytes.length)

/-- An access that meets at its home slice has to wait, in the order of the crew's accesses (R192, R219). -/
def homeWaits (s : State) (need : Need) (pa n : Nat) : Bool := redqMeets s pa n || fenced s need || storesStay s pa n

/-- A scalar store that passes its checks, in the order of the crew's accesses to one byte (R192). -/
def storeAccess (s : State) (addr : Word) (align n : Nat) (go : Place → State) : State :=
  placedAccess s needW addr align n 1 fun p => if redqMeets s p.pa n then hold s else go p

/-- A scalar load, in the order of the crew's accesses to one byte and after the reductions that a `FENCE.A` follows
(R192, R219). -/
def loadAccess (s : State) (addr : Word) (align n : Nat) (go : Place → State) : State :=
  placedAccess s needR addr align n 0 fun p => if redqMeets s p.pa n || fenced s needR then hold s else go p

/-- A scalar access that meets at its home slice, in the order of the crew's accesses (R192, R219). -/
def scalarAccess (s : State) (need : Need) (addr : Word) (align n kind : Nat) (go : Place → State) : State :=
  placedAccess s need addr align n kind fun p => if homeWaits s need p.pa n then hold s else go p

/-- The same, refusing a host-memory address (R222, R228, R237). -/
def deviceAccess (s : State) (need : Need) (addr : Word) (align n kind : Nat) (go : Place → State) : State :=
  scalarAccess s need addr align n kind fun p => if inHost p.pa then scalarFault s .perm addr kind else go p

/-- A word whose operation meets at the home slice: what the crew in focus has issued before reaches its slices first, its
stores and then its contributions, so that its accesses stay in program order; a contribution that lies too far ahead waits
at its slice (R192, R200; log 82). -/
def atHome (s : State) : State := offerAll (performAll s)

/-- Earlier reductions of the crew are still to be accepted, so that nothing that must follow every earlier access may
be performed yet (R213, R219). -/
def unsettled (s : State) : Bool := s.c.redq != []

/-! ### Lane accesses -/

/-- One thread's access: where it goes, or its cause. -/
structure LaneAcc where
  thread : Nat
  addr   : Nat
  place  : Except Cause Place

/-- The failing threads of a lane access with their addresses and causes, ascending. -/
def laneFails (l : List LaneAcc) : List (Nat × Nat × Cause) :=
  l.filterMap fun x => match x.place with
    | .error e => some (x.thread, x.addr, e)
    | .ok _ => none

/-- The places of a lane access whose threads all passed. -/
def lanePlaces (l : List LaneAcc) : List (Nat × Nat × Place) :=
  l.filterMap fun x => match x.place with
    | .error _ => none
    | .ok p => some (x.thread, x.addr, p)

/-- The trap of a lane access: the cause of the lowest failing thread, its address, and the count (R210, R295). Kind
0 load, 1 store, 2 atomic or reduction, 3 vault. -/
def laneFault (s : State) (fails : List (Nat × Nat × Cause)) (kind : Nat) : State :=
  match fails with
  | [] => s
  | (t, a, e) :: _ => takeTrap s (trapHere s e (w64 a) (w64 (t + 2 ^ 12 * fails.length + 2 ^ 24 * kind)))

/-- A lane access: every thread is checked before any has effect (R210, R216, R222). Of a store that faults for some
thread none is performed, where R184 lets those of other gangs be (DESIGN CHOICE, log 86). -/
def laneAccess (s : State) (addr : Nat → Nat) (check : Nat → Except Cause Place) (kind : Nat)
    (go : List (Nat × Nat × Place) → State) : State :=
  let l := (laneThreads s).map fun t => (⟨t, addr t, check (addr t)⟩ : LaneAcc)
  match laneFails l with
  | [] => go (lanePlaces l)
  | f => laneFault s f kind

/-- A lane access of `n` bytes a thread to global memory goes on unless it has to wait for some thread. -/
def laneUnless (s : State) (l : List (Nat × Nat × Place)) (n : Nat) (waits : State → Nat → Nat → Bool) (go : State) : State :=
  if l.any fun x => waits s x.2.2.pa n then hold s else go

/-- The accesses of a store that write: where several threads name one place, the highest thread alone (R193). -/
def lastWriters : List (Nat × Nat × Place) → List (Nat × Nat × Place)
  | [] => []
  | x :: l => if l.any (fun y => y.2.2.pa == x.2.2.pa) then lastWriters l else x :: lastWriters l

end Sys2Proof.Machine
end

