-- ==== Sys2Proof/Machine/Sched.lean ====
section
/-!
DEFINITION. Regions, launch records and their enqueue (spec/12_launch_scheduling.md, R145 to R153), cells and their
decrements, and what the hardware keeps in a region block.
-/

namespace Sys2Proof.Machine

/-! ### Regions (R145, R146, R290) -/

/-- The reserved bits of a region block as (offset, low bit, length), and its zero bytes (R145, R290). -/
def reservedBits : List (Nat × Nat × Nat) :=
  [(0x08, 6, 58), (0x10, 3, 5), (0x10, 18, 6), (0x10, 32, 32), (0x18, 12, 52), (0x20, 16, 48), (0x30, 40, 24),
   (0x38, 16, 48), (0x70, 16, 48), (0x88, 3, 61), (0x90, 0, 64), (0x98, 0, 64), (0xA0, 0, 64), (0xA8, 0, 64),
   (0xB0, 0, 64), (0xB8, 0, 64), (0xE0, 0, 64), (0xE8, 0, 64), (0xF0, 0, 64), (0xF8, 0, 64)]

/-- A field of the region block at a physical address. -/
def rcb (s : State) (pa off lo len : Nat) : Nat := bits (readNat s (pa + off) 8) lo len

/-- The fields of one region block pass check 9 (R145, R290). -/
def blockOk (s : State) (pa : Nat) : Bool :=
  (reservedBits.all fun (off, lo, len) => rcb s pa off lo len == 0) &&
  rcb s pa 0x10 8 8 != 0 &&
  (rcb s pa 0x18 7 1 == 1 || decide (rcb s pa 0x18 0 7 ≤ 95)) &&
  rcb s pa 0x68 0 64 % 8192 == 0 && rcb s pa 0x78 0 64 % 65536 == 0 && rcb s pa 0x80 0 64 % 65536 == 0

/-- The physical addresses of the blocks from an address up to the root, or none if the chain is not valid: every
block aligned and well formed, and no block met twice (R145). The first argument bounds the length; no chain without a
cycle has more blocks than the address space has places for. -/
def chain (s : State) (xl : Nat → Option Nat) : Nat → List Nat → Nat → Option (List Nat)
  | 0, _, _ => none
  | n + 1, seen, va =>
    if va % 256 ≠ 0 then none else
    match xl va with
    | none => none
    | some pa =>
      if seen.contains pa || !blockOk s pa then none
      else if rcb s pa 0 0 64 = 0 then some ((pa :: seen).reverse)
      else chain s xl n (pa :: seen) (rcb s pa 0 0 64)

/-- The block of a path that gives an inheritable field: the first with its override bit, else the root (R146). -/
def giver (s : State) (path : List Nat) (b : Nat) : Nat :=
  match path.find? fun pa => rcb s pa 0x08 b 1 == 1 with
  | some pa => pa
  | none => path.getLastD 0

/-- The record with the fields that its region path gives (R146). -/
def resolve (s : State) (r : Record) (path : List Nat) : Record :=
  { r with
    prio := min r.prio (rcb s (giver s path 0) 0x10 0 3)
    share := rcb s (giver s path 1) 0x10 8 8
    cls := max r.cls (rcb s (giver s path 2) 0x10 16 2)
    fdom := rcb s (giver s path 3) 0x10 24 8
    place := BitVec.ofNat 12 (rcb s (giver s path 4) 0x18 0 12)
    seatReg := rcb s (giver s path 5) 0x30 0 16
    seatVlt := rcb s (giver s path 5) 0x30 16 16
    seatGang := rcb s (giver s path 5) 0x30 32 8
    path := path, asn := rcb s (path.headD 0) 0x20 0 16 }

/-! ### Records (R147, R162, R163) -/

/-- The 64 bytes of a launch record, read from the address that names it (R147, R323). -/
def parseRecord (name : Word) (part : Nat) (bs : List Byte) : Record :=
  let f (off n : Nat) : Nat := ofBytes ((bs.drop off).take n)
  let pck := f 0x26 1
  { name := name, code := w64 (f 0 8), arg := w64 (f 8 8), join := w64 (f 0x10 8), tree := w64 (f 0x18 8),
    threads := f 0x20 2, blocks := f 0x22 1, crews := f 0x23 1, vgran := f 0x24 2, prio := bits pck 0 3,
    cls := bits pck 3 2, kind := bits pck 5 2, mtok := f 0x27 1, region := w64 (f 0x28 8), dep := w64 (f 0x30 8),
    succ := w64 (f 0x38 8), part := part, path := [], asn := 0, share := 1, fdom := 0, place := 0, seatReg := 0,
    seatVlt := 0, seatGang := 0, ready := none, arrival := 0, resume := none, copy := bs, qslot := none }

/-- Bit 7 of byte 0x26 of a record. -/
def pckBit7 (bs : List Byte) : Bool := (bs.getD 0x26 0).getLsbD 7

/-- Who enqueues a record: the functions of R163, and the host or firmware. -/
inductive Enqueuer where
  | spawn | spawng | launch | host
deriving DecidableEq, Repr

/-- The kinds an enqueuer may enqueue (R150, R163). -/
def Enqueuer.kinds : Enqueuer → List Nat
  | .spawn => [1, 2]
  | .spawng => [1]
  | .launch => [0]
  | .host => [0, 1, 2]

/-- Bytes put over a list from an offset upward. -/
def overwrite (l : List Byte) (off : Nat) (bs : List Byte) : List Byte := l.take off ++ bs ++ l.drop (off + bs.length)

/-- The fields rewritten in the copy, from the record that started the issuer's gallery (R163). For a lane of a gathered
gang, which up to 32 records have started, record 0 of the gang stands for that record (DESIGN CHOICE, log 72). -/
def rewrite (e : Enqueuer) (own r : Record) : Record :=
  let tree (c : List Byte) : List Byte := overwrite c 0x18 (toBytes 8 own.tree.toNat)
  match e with
  | .spawn => { r with tree := own.tree, copy := tree r.copy }
  | .spawng => { r with
      tree := own.tree, region := own.region, prio := own.prio, cls := own.cls
      copy := overwrite (overwrite (tree r.copy) 0x28 (toBytes 8 own.region.toNat)) 0x26
        (toBytes 1 (own.prio + 2 ^ 3 * own.cls + 2 ^ 5 * r.kind)) }
  | .launch => r
  | .host => r

/-- The physical address of a 16-byte cell in a record's address space; none for the address 0, a misaligned address
and one that does not translate. -/
def cellAt (s : State) (r : Record) (a : Word) : Option Nat :=
  if a = 0 || a.toNat % 16 ≠ 0 then none else
  match regionXlate s r needRW a.toNat with
  | .error _ => none
  | .ok p => some p.pa

/-- The addresses of a successor list, with their positions 1 to 4: up to the first 0, or a place that cannot be read or
holds an uncorrectable word (R147, R304). -/
def successors (s : State) (r : Record) : Nat → Nat → List (Nat × Word)
  | 0, _ => []
  | n + 1, i =>
    match regionXlate s r needR (r.succ.toNat + 8 * (i - 1)) with
    | .error _ => []
    | .ok p =>
      let a := w64 (readNat s p.pa 8)
      if a = 0 || poisoned s false p.pa 8 then [] else (i, a) :: successors s r n (i + 1)

/-- The successor list of a record. -/
def succList (s : State) (r : Record) : List (Nat × Word) := if r.succ = 0 then [] else successors s r 4 1

/-- The successor list can be read as far as its end. -/
def succReadable (s : State) (r : Record) : Bool :=
  r.succ == 0 ||
  ((succList s r).length == 4 ||
   match regionXlate s r needR (r.succ.toNat + 8 * (succList s r).length) with
   | .error _ => false
   | .ok _ => true)

/-! ### Budgets (R145, R155) -/

/-- A 64-bit word of a region block brought to a value; nothing is written if it holds it. -/
def putRcb (s : State) (pa off x : Nat) : State :=
  if readNat s (pa + off) 8 = x then s else performNat s (pa + off) 8 x

/-- The words that the hardware keeps in one region block, written where they have changed (R145). -/
def syncRegion (s : State) (pa : Nat) : State := (regionWords s pa).foldl (fun t x => putRcb t pa x.1 x.2) s

/-- The blocks of a path brought up to date (R145). -/
def syncPath (s : State) (path : List Nat) : State := path.foldl syncRegion s

/-- A budget of 0xFFFF is never short (R155). -/
def within (used need limit : Nat) : Bool := limit == 0xFFFF || decide (used + need ≤ limit)

/-- One more pending record fits at every level of a path (R150, R165). -/
def hasRoom (s : State) (path : List Nat) : Bool :=
  path.all fun pa => within (pendOf s pa) 1 (rcb s pa 0x28 48 16)

/-! ### The checks of an enqueue (R150, R164) -/

/-- The region path of a record in the enqueuer's address space, if it passes check 9. -/
def regionPath (s : State) (part asn : Nat) (foreman : Bool) (va : Word) : Option (List Nat) :=
  if va = 0 then none else
  chain s (fun a => match translate s part asn foreman false needR a with
    | .error _ => none
    | .ok p => some p.pa) (2 ^ 49) [] va.toNat

/-- The lowest-numbered check that a record fails, or the record as resolved (R150, R163, R164). -/
def checkRecord (s : State) (e : Enqueuer) (asn : Nat) (foreman : Bool) (own : List Nat) (bs : List Byte)
    (r : Record) : Except Nat Record :=
  let path := regionPath s r.part asn foreman r.region
  -- the block itself, for the checks that come before the chain is known to be valid
  let block := match translate s r.part asn foreman false needR r.region.toNat with
    | .error _ => none
    | .ok p => some p.pa
  let q : Record := { r with
    asn := (match block with
      | some pa => rcb s pa 0x20 0 16
      | none => asn)
    path := (match block with
      | some pa => [pa]
      | none => []) }
  let mtokb := match block with
    | some pa => rcb s pa 0x38 0 16
    | none => 0xFFFF
  let lane := r.kind == 2
  if r.code.toNat % 4 ≠ 0 || decide (2 ^ 57 ≤ r.code.toNat) then .error 1
  else if !e.kinds.contains r.kind then .error 2
  else if r.threads = 0 || decide (2048 < r.threads) || (lane && r.threads != 1) then .error 3
  else if r.blocks = 0 || decide (16 < r.blocks) || decide (256 < gangs r.threads * r.blocks) then .error 4
  else if r.crews = 0 || decide (4 < r.crews) || (lane && r.crews != 1) then .error 5
  else if 128 < r.vgran then .error 6
  else if !within 0 r.mtok mtokb || (lane && r.mtok != 0) then .error 7
  else if pckBit7 bs || r.succ.toNat % 8 ≠ 0 || !succReadable s q ||
      ((succList s q).any fun x => x.2.toNat % 16 != 0) ||
      (e == .launch && (cellAt s q r.tree).isNone) then .error 8
  else
    match path with
    | none => .error 9
    | some path =>
      let r1 := resolve s r path
      let cell := cellAt s r1 r.dep
      if r.dep ≠ 0 && (match cell with
          | none => true
          | some pa => readNat s (pa + 8) 8 != 0 && !poisoned s false (pa + 8) 8) then .error 10
      else if e ≠ .host && own ≠ [] && !path.contains (own.headD 0) then .error 11
      else if e == .host && !hasRoom s path then .error 12
      else .ok r1

/-- The address of the first uncorrectable word that an enqueue reads beside the record itself: in the successor list as
far as it is read, in the dependency cell, and in the count of the spawn-tree cell, which a seed writes whole
(R148, R149, R150, R304). -/
def enqueueSpoiled (s : State) (r : Record) : Option Word :=
  let n := (succList s r).length
  let list : Option Word :=
    if r.succ = 0 || n == 4 then none else
    match regionXlate s r needR (r.succ.toNat + 8 * n) with
    | .error _ => none
    | .ok p => if poisoned s false p.pa 8 then some (r.succ + w64 (8 * n)) else none
  let cell (a : Word) (n : Nat) : Option Word :=
    match cellAt s r a with
    | none => none
    | some pa => if poisoned s false pa n then some a else none
  (list.or (cell r.dep 16)).or (if r.kind = 0 then none else cell r.tree 8)

/-- The loaded object that holds a code pointer, if its security version lies below the fuse counter (R305). -/
def refusedObject (s : State) (r : Record) : Option CodeObject :=
  s.objects.find? fun o =>
    o.part == r.part && o.asn == r.asn && decide (o.text ≤ r.code) && decide (r.code.toNat < o.text.toNat + o.textLen) &&
    decide (o.secv < s.boot.secver.toNat)

/-! ### Ready records and lane gangs (R149, R151, R154) -/

/-- Two lane records fall in the same gang (R151). -/
def sameGang (a b : Record) : Bool :=
  a.part == b.part && a.path == b.path && a.code == b.code && a.prio == b.prio && a.cls == b.cls &&
  a.blocks == b.blocks && a.vgran == b.vgran

/-- The keys of R154 but the priority, as a list of numbers, least first. -/
def readyKeys (r : Record) : List Nat :=
  match r.ready with
  | none => [r.arrival]
  | some k => [k.time, k.core, k.pos, k.seq]

/-- One list of numbers stands before another. -/
def lexLe : List Nat → List Nat → Bool
  | [], _ => true
  | _ :: _, [] => false
  | a :: l, b :: m => decide (a < b) || (a == b && lexLe l m)

/-- A record put into its place in the order of a ready queue. -/
def readyInsert (r : Record) : List Record → List Record
  | [] => [r]
  | q :: l => if lexLe (readyKeys q) (readyKeys r) then q :: readyInsert r l else r :: q :: l

/-- A ready lane record joins the forming gang it agrees with, in ready-queue order, or begins one: a gang that holds 32
records, or whose first record joined 1 µs ago, takes no more (R151). -/
def joinGang (now : Nat) (r : Record) : List Gang → List Gang
  | [] => [⟨now, false, [r]⟩]
  | f :: l =>
    if !f.closed && decide (now < f.since + 1000) && (match f.records with
        | q :: _ => sameGang q r
        | [] => false) then
      { f with records := readyInsert r f.records, closed := decide (32 ≤ f.records.length + 1) } :: l
    else f :: joinGang now r l

/-- A record becomes ready with its keys: it arrives at the distributor now (R154). -/
def makeReady (s : State) (r : Record) (core pos : Nat) : State :=
  let r1 := { r with ready := some ⟨s.timens.toNat, core, pos, s.arrivals⟩ }
  let rest := s.records.filter (·.arrival != r.arrival)
  let s1 : State := { s with arrivals := s.arrivals + 1 }
  let s2 : State := if r.kind = 2 then { s1 with records := rest, forming := joinGang s.timens.toNat r1 s.forming }
    else { s1 with records := rest ++ [r1] }
  syncRegion s2 r.block

/-- The held record that waits on a cell under a name is made ready; otherwise nothing is (R153, R323). -/
def release (s : State) (cell : Nat) (name : Word) (core pos : Nat) : State :=
  match s.records.find? fun r => r.ready.isNone && r.name == name && cellAt s r r.dep == some cell with
  | none => s
  | some r => makeReady s r core pos

/-- A decrement reads an uncorrectable word: the count, or with it the name of a dependency cell whose count falls to 0
(R153, R167, R304). -/
def cellSpoiled (s : State) (pa : Nat) (dep : Bool) : Bool :=
  poisoned s false pa 8 || (dep && readNat s pa 8 == 1 && poisoned s false (pa + 8) 8)

/-- The count of a cell falls by 1 in one slice step, and a dependency cell that reaches 0 gives up its name; none if
the count is 0 already (R153, R167). -/
def decCell (s : State) (pa : Nat) (dep : Bool) (core pos : Nat) : Option State :=
  let n := readNat s pa 8
  if n = 0 then none
  else if dep && n == 1 then
    let name := w64 (readNat s (pa + 8) 8)
    some (release (performGlobal s pa (toBytes 8 0 ++ toBytes 8 0)) pa name core pos)
  else some (performNat s pa 8 (n - 1))

/-! ### The task queue in memory (R145, R162, R187, R188) -/

/-- The control block of a region's task queue and its place, if the region names one that can be used. -/
def queueRing (s : State) (r : Record) : Option (Nat × Ring) :=
  let cb := rcbField s r 0x40 8
  if cb = 0 || cb % 32 ≠ 0 then none else
  match regionXlate s r needRW cb with
  | .error _ => none
  | .ok p => (ringAt s p.pa).map fun q => (p.pa, q)

/-- The 64 bytes of a record copied into the region's task queue, and the index of their slot. A region that names no
queue has none; the manual says nothing of a queue that cannot take the slot, which is then dropped as R188 gives,
while the distributor keeps the record (DESIGN CHOICE, log 74). -/
def pushQueue (s : State) (r : Record) : State × Option Nat :=
  let cb := rcbField s r 0x40 8
  if r.path = [] || cb == 0 then (s, none) else
  let x := ringPush s (fun s n va => regionXlate s r n va) cb 0 r.copy
  (x.1, if x.2 then (queueRing s r).map (·.2.prod) else none)

/-- The records of a region that stand in its task queue. -/
def queuedSlots (s : State) (r : Record) : List Nat :=
  (unplaced s).filterMap fun q => if q.part == r.part && q.block == r.block then q.qslot else none

/-- CONS of a region's task queue brought to its oldest slot whose record is not placed, or to PROD (log 74). -/
def syncQueue (s : State) (r : Record) : State :=
  match queueRing s r with
  | none => s
  | some (pa, q) =>
    let ahead (i : Nat) : Nat := (i + 2 ^ 32 - q.cons) % 2 ^ 32
    let least := (queuedSlots s r).foldl (fun a i => min a (ahead i)) (ahead q.prod)
    if least = 0 then s else performNat s (pa + 24) 4 ((q.cons + least) % 2 ^ 32)

/-! ### Enqueue (R148, R149, R166) -/

/-- The region blocks of a path are known to the part. -/
def knowRegions (s : State) (part : Nat) (path : List Nat) : State :=
  { s with regions := s.regions ++ (path.filter fun pa => !s.regions.contains (part, pa)).map fun pa => (part, pa) }

/-- A checked record enters the region's queue: its 64 bytes are copied there, the spawn-tree cell counts it, and it is
ready, or held on its dependency cell (R148, R149, R162, R166). `core` is its releasing core if it is ready at once. The
manual is silent on a record of the host or of firmware, a seed, a gallery or a lane, whose TREE is 0, misaligned or not
translated: it is enqueued with no count written (DESIGN CHOICE, log 69). -/
def enterQueue (s : State) (r : Record) (core : Nat) : State :=
  let s1 := match cellAt s r r.tree with
    | none => s
    | some pa =>
      if r.kind = 0 then performGlobal s pa (toBytes 8 1 ++ toBytes 8 0)
      else performNat s pa 8 ((readNat s pa 8 + 1) % 2 ^ 64)
  let x := pushQueue (knowRegions s1 r.part r.path) r
  let r1 := { r with arrival := x.1.arrivals, qslot := x.2 }
  let s2 : State := { x.1 with records := x.1.records ++ [r1], arrivals := x.1.arrivals + 1 }
  let s3 := match cellAt s2 r1 r1.dep with
    | none => makeReady s2 r1 core 0
    | some pa =>
      if readNat s2 pa 8 = 0 then makeReady s2 r1 core 0
      else performNat s2 (pa + 8) 8 r1.name.toNat
  syncPath s3 r1.path

/-- How an enqueue by a task instruction ends. -/
inductive Enqueued where
  /-- The record cannot be read. -/
  | fault (e : Cause)
  /-- A check fails (R150, R164). -/
  | refused (n : Nat)
  /-- The object of the code pointer is below the fuse counter (R305). -/
  | belowFuse (o : CodeObject) (r : Record)
  /-- The region is full (R165). -/
  | full (path : List Nat)
  /-- A word at this address, which the enqueue reads beside the record, is uncorrectable (R304). -/
  | spoiled (a : Word)
  | ok (s : State)

/-- An enqueue by a word of the crew in focus (R162 to R166). An uncorrectable word among those it reads beside the record
is met once the record has passed its checks (R304; DESIGN CHOICE, log 98). -/
def taskEnqueue (s : State) (e : Enqueuer) (addr : Word) : Enqueued :=
  match checkGlobal s needR addr.toNat 64 64 with
  | .error c => .fault c
  | .ok p =>
    if poisoned s false p.pa 64 then .fault .eccUncorr else
    let bs := readBytes s p.pa 64
    let r := rewrite e s.g.rcd (parseRecord addr s.part bs)
    match checkRecord s e (galAsn s.g) (s.c.privl == 2) s.g.rcd.path bs r with
    | .error n => .refused n
    | .ok r1 =>
      match enqueueSpoiled s r1 with
      | some a => .spoiled a
      | none =>
        if !hasRoom s r1.path then .full r1.path
        else if r1.kind = 0 then
          match refusedObject s r1 with
          | some o => .belowFuse o r1
          | none => .ok (enterQueue s r1 s.c.core)
        else .ok (enterQueue s r1 s.c.core)

/-- The spawn that the crew in focus is parked at, with the register that names its record; none where the word there is
no spawn any more. -/
def spawnWord (s : State) : Except TrapReq (Option (Enqueuer × BitVec 6)) :=
  match fetch s with
  | .error t => .error t
  | .ok word =>
    match decodeWord word with
    | .ok (.spawn a) => .ok (some (.spawn, a))
    | .ok (.spawng a) => .ok (some (.spawng, a))
    | _ => .ok none

/-- A parked spawn stays parked, on the region that its record now names. -/
def stayParked (s : State) (uid : Nat) (path : List Nat) : State :=
  { s with spawnq := s.spawnq.map fun x => if x.uid = uid then { x with path := path } else x }

/-- A retry of a spawn whose crew is swapped out: its record is read afresh, and unless the region that it names is full
a resume record is enqueued, upon which the crew executes the spawn again (R165, R301). A record that now faults or is
refused has one enqueued too, so that the crew is brought back and traps at its spawn (DESIGN CHOICE, log 94). -/
def retrySaved (s : State) (v : SavedContext) (c : Crew) : State :=
  let resume : State := putSave0 (enqueueResume s c.gid) c.uid
  let t : State := { s with c := c, g := v.gal }
  match spawnWord t with
  | .ok (some (e, a)) =>
    match taskEnqueue t e (getS c a) with
    | .full path => stayParked s c.uid path
    | _ => resume
  | _ => resume

/-- One parked spawn is retried: it reads its record afresh, and resumes at the next word if there is room; if the
region that the record now names is full, the spawn stays parked on that one (R165). -/
def retrySpawn (s : State) (w : SpawnWait) : State :=
  let gone (s : State) : State := { s with spawnq := s.spawnq.filter (·.uid != w.uid) }
  if !s.allCrews.any (·.uid == w.uid) then
    match s.saved.findSome? fun v => (v.crews.find? (·.uid == w.uid)).map fun c => (v, c) with
    | none => gone s
    | some (v, c) => retrySaved s v c
  else inFocus s w.uid fun s =>
    match spawnWord s with
    | .error t => takeTrap (gone s) t
    | .ok none => gone { s with c := { s.c with status := .running } }
    | .ok (some (e, a)) =>
      match taskEnqueue s e (getS s.c a) with
      | .full path => stayParked s w.uid path
      | .ok s1 => putSave0 (done (gone s1)) w.uid
      | .fault c => takeTrap (gone s) (trapHere s c (getS s.c a) (if c = .eccUncorr then 0 else scalarInfo 0))
      | .refused n => takeTrap (gone s) (trapHere s .spawnRefused (getS s.c a) (w64 n))
      | .spoiled a => takeTrap (gone s) (trapHere s .eccUncorr a 0)
      | .belowFuse _ _ => s

/-- PEND of a path has fallen: the parked spawns of its regions are retried in the order in which they parked. -/
def retrySpawns (s : State) (path : List Nat) : State :=
  (s.spawnq.filter fun w => w.path.any path.contains).foldl retrySpawn s

/-! ### Completion (R152, R153, R324) -/

/-- The engine work of a crew that is not complete: hoist and matrix commands, collectives with their flips, and
commands in its attached ring. -/
def engineBusy (s : State) (uid : Nat) : Bool :=
  s.hoist.any (·.uid == uid) || s.mx.any (·.uid == uid) || s.colls.any (·.uid == uid) ||
  (s.flips.any fun f => f.uid == uid && f.coll.isSome) ||
  (s.rings.any fun e => e.uid == uid && !e.broken &&
    match s.galOf uid with
    | none => false
    | some g =>
      match regionXlate s g.rcd needR e.ring.toNat with
      | .error _ => false
      | .ok p =>
        match ringAt s p.pa with
        | none => false
        | some r => r.prod != r.cons)

/-- The fault record of a decrement below 0 at a completion (R324). -/
def underflow (s : State) (g : Gallery) (r : Record) (cell : Word) (pos : Nat) : State :=
  let c := (g.ender.bind s.crew?).getD s.c
  regionFault s r { cause := .depcntUnderflow, detail := pos, crew := crewId c, addr := cell, obj := r.name, pc := c.pc }

/-- The fault record of an uncorrectable word that a completion reads: no trap can report it any more, and R296 has OBJ
name a thread and a register, of which there is neither (R304; DESIGN CHOICE, log 98). -/
def completionEcc (s : State) (g : Gallery) (r : Record) (addr : Word) (pos : Nat) : State :=
  let c := (g.ender.bind s.crew?).getD s.c
  regionFault s r { cause := .eccUncorr, detail := pos, crew := crewId c, addr := addr, pc := c.pc }

/-- One decrement of a completion (R153); a cell that cannot be reached is left alone, and so is one whose words are
uncorrectable, which is reported; the remaining steps still run (R304; log 98). -/
def completeDec (s : State) (g : Gallery) (r : Record) (cell : Word) (pos : Nat) : State :=
  match cellAt s r cell with
  | none => s
  | some pa =>
    if cellSpoiled s pa (0 < pos && pos < 5) then completionEcc s g r cell pos else
    match decCell s pa (0 < pos && pos < 5) g.core pos with
    | none => underflow s g r cell pos
    | some s1 => s1

/-- The successors of a completion, read and decremented one by one up to the first 0 (R153). An uncorrectable word of the
list is reported, and ends it (R304; log 98). -/
def completeSuccs (g : Gallery) (r : Record) : Nat → Nat → State → State
  | 0, _, s => s
  | n + 1, i, s =>
    match regionXlate s r needR (r.succ.toNat + 8 * (i - 1)) with
    | .error _ => s
    | .ok p =>
      let a := w64 (readNat s p.pa 8)
      if poisoned s false p.pa 8 then completionEcc s g r (r.succ + w64 (8 * (i - 1))) i
      else if a = 0 then s else completeSuccs g r n (i + 1) (completeDec s g r a i)

/-- The completion of one record: join, successors in order, spawn tree, completion word (R153). -/
def completeRecord (s : State) (g : Gallery) (r : Record) : State :=
  let s1 := completeDec s g r r.join 0
  let s2 := if r.succ = 0 then s1 else completeSuccs g r 4 1 s1
  let s3 := completeDec s2 g r r.tree 5
  match cellAt s3 r r.tree with
  | none => s3
  | some pa => if readNat s3 pa 8 = 0 && !poisoned s3 false pa 8 then performNat s3 (pa + 8) 8 1 else s3

end Sys2Proof.Machine
end

