-- ==== Sys2Proof/Machine/Sha.lean ====
section
/-!
DEFINITION. SHA-256 and RSASSA-PSS with SHA-256, MGF1-SHA-256 and a 32-byte salt, which R364, R367 and R368 name.

The manual names the algorithms and does not restate them; they are those of FIPS 180-4 and RFC 8017 (log 21).
-/

namespace Sys2Proof.Machine

/-! ### SHA-256 -/

/-- The number `x`, with its bits below `i` still to be found, completed to the greatest whose `k`-th power is at most
`n`. -/
def rootBelow (k n : Nat) : Nat → Nat → Nat
  | 0, x => x
  | i + 1, x => rootBelow k n i (if (x + 2 ^ i) ^ k ≤ n then x + 2 ^ i else x)

/-- The first 32 bits of the fractional part of the `k`-th root of a number below 2^12. -/
def rootFraction (k p : Nat) : BitVec 32 := BitVec.ofNat 32 (rootBelow k (p * 2 ^ (32 * k)) 40 0)

/-- The primes below 312: the first 64. -/
def shaPrimes : List Nat :=
  (List.range 312).filter fun p => decide (2 ≤ p) && (List.range 18).all fun d => decide (d < 2) || d == p || p % d != 0

/-- The round constants: of the cube roots of the first 64 primes. -/
def roundConstants : List (BitVec 32) := shaPrimes.map (rootFraction 3)

/-- The initial hash value: of the square roots of the first 8 primes. -/
def initialHash : List (BitVec 32) := (shaPrimes.take 8).map (rootFraction 2)

/-- The lowest `n` bytes of a number, highest first. -/
def beBytes : Nat → Nat → List Byte
  | 0, _ => []
  | n + 1, x => BitVec.ofNat 8 (x / 256 ^ n) :: beBytes n x

/-- The number whose bytes are given, highest first. -/
def beNat (bs : List Byte) : Nat := bs.foldl (fun x b => 256 * x + b.toNat) 0

/-- The exclusive or of a word turned right by some distances. -/
def turns (x : BitVec 32) (l : List Nat) : BitVec 32 := l.foldl (fun y n => y ^^^ x.rotateRight n) 0

/-- Word `i` of eight or sixteen. -/
def wordAt (l : List (BitVec 32)) (i : Nat) : BitVec 32 := l.getD i 0

/-- The sixteen words of the schedule from round `t` on, brought to round `t + 1`. -/
def slideWindow (w : List (BitVec 32)) : List (BitVec 32) :=
  let small (x : BitVec 32) (m n sh : Nat) : BitVec 32 := turns x [m, n] ^^^ (x >>> sh)
  w.tail ++ [wordAt w 0 + small (wordAt w 1) 7 18 3 + wordAt w 9 + small (wordAt w 14) 17 19 10]

/-- The working variables `a` to `h` after a round with a constant and a word of the schedule. -/
def hashRound (v : List (BitVec 32)) (k w : BitVec 32) : List (BitVec 32) :=
  let (a, b, c) := (wordAt v 0, wordAt v 1, wordAt v 2)
  let (e, f, g) := (wordAt v 4, wordAt v 5, wordAt v 6)
  let choice := g ^^^ (e &&& (f ^^^ g))
  let majority := (a &&& b) ||| (c &&& (a ||| b))
  let t := wordAt v 7 + turns e [6, 11, 25] + choice + k + w
  (t + turns a [2, 13, 22] + majority) :: a :: b :: c :: (wordAt v 3 + t) :: [e, f, g]

/-- The rounds of a block, each with its constant; the window slides once a round. -/
def hashRounds : List (BitVec 32) → List (BitVec 32) → List (BitVec 32) → List (BitVec 32)
  | [], _, v => v
  | k :: ks, w, v => hashRounds ks (slideWindow w) (hashRound v k (wordAt w 0))

/-- The hash value after `n` more blocks of 64 bytes. -/
def hashBlocks : Nat → List Byte → List (BitVec 32) → List (BitVec 32)
  | 0, _, h => h
  | n + 1, m, h =>
    let window := (List.range 16).map fun i => BitVec.ofNat 32 (beNat ((m.drop (4 * i)).take 4))
    let v := hashRounds roundConstants window h
    hashBlocks n (m.drop 64) ((List.range 8).map fun i => wordAt h i + wordAt v i)

/-- SHA-256 of a string of bytes, 32 bytes. The message is padded by a one bit, zeros and its length in 64 bits to a
whole number of blocks. -/
def sha256 (m : List Byte) : List Byte :=
  let blocks := (m.length + 9 + 63) / 64
  let zeros : List Byte := List.replicate (64 * blocks - m.length - 9) 0
  (hashBlocks blocks (m ++ [0x80] ++ zeros ++ beBytes 8 (8 * m.length)) initialHash).flatMap fun w => beBytes 4 w.toNat

/-! ### RSASSA-PSS -/

/-- MGF1 with SHA-256: `n` bytes from a seed. -/
def mgf1 (seed : List Byte) (n : Nat) : List Byte :=
  (((List.range ((n + 31) / 32)).map fun i => sha256 (seed ++ beBytes 4 i)).flatten).take n

/-- x^(2^k) modulo `n`. -/
def sqMod (n : Nat) : Nat → Nat → Nat
  | 0, x => x % n
  | k + 1, x => sqMod n k (x * x % n)

/-- The RSA verification primitive: s^65537 modulo `n`. -/
def rsaPower (n s : Nat) : Nat := sqMod n 16 s * s % n

/-- A number from bytes, lowest first (R1). -/
def leNat : List Byte → Nat
  | [] => 0
  | b :: bs => b.toNat + 256 * leNat bs

/-- EMSA-PSS verification of an encoded message of `bits` bits against a message hash. -/
def pssOk (em : List Byte) (bits : Nat) (hash : List Byte) : Bool :=
  let len := (bits + 7) / 8
  let spare := 8 * len - bits
  let masked := em.take (len - 33)
  let h := (em.drop (len - 33)).take 32
  let db0 := (masked.zip (mgf1 h (len - 33))).map fun p => p.1 ^^^ p.2
  let db := match db0 with
    | [] => []
    | b :: bs => (b &&& BitVec.ofNat 8 (2 ^ (8 - spare) - 1)) :: bs
  let pad := db.take (len - 66)
  let salt := db.drop (len - 65)
  decide (66 ≤ len) && em.getLast? == some 0xBC && decide ((masked.headD 0).toNat < 2 ^ (8 - spare)) &&
  pad.all (· == 0) && (db.drop (len - 66)).head? == some 1 &&
  h == sha256 (List.replicate 8 0 ++ hash ++ salt)

/-- SIG is a valid RSASSA-PSS signature of a message under MODULUS with exponent 65,537 (R367). MODULUS and SIG are
numbers stored lowest byte first (R1; log 21). -/
def rsaPssOk (modulus sig message : List Byte) : Bool :=
  let n := leNat modulus
  let s := leNat sig
  let bits := n.log2
  decide (2 ≤ n) && decide (s < n) &&
  (let m := rsaPower n s
   decide (m < 256 ^ ((bits + 7) / 8)) && pssOk (beBytes ((bits + 7) / 8) m) bits (sha256 message))

end Sys2Proof.Machine
end

