-- ==== Sys2Proof/Machine/Boot.lean ====
section
/-!
DEFINITION. Reset, fuses, measurement, owner keys and HBM training (spec/28_bring_up.md, R362 to R371).
-/

namespace Sys2Proof.Machine

/-! ### Reset (R362, R370) -/

/-- The boot registers after a reset: what the fuses hold stays, and the counter in force is FUSECNT (R364, R370). -/
def Boot.again (b : Boot) : Boot :=
  { Boot.reset with
    fusecnt := b.fusecnt, secver := b.fusecnt.setWidth 16, keyhash := b.keyhash, keyset := b.keyset,
    keyrev := b.keyrev, vndoff := b.vndoff, loader := b.loader, main := b.main }

/-- The part after a reset: all but the fuses is as `State.reset` has it (R362, R370; log 16). -/
def afterReset (s : State) : State := { State.reset with boot := s.boot.again, inputs := s.inputs }

/-- RESET_RELEASE: the foreman crews start from the mask ROM (R362). -/
def execResetRelease (s : State) : Out := .next (afterReset s)

/-- LOSS_OF_POWER: the blowing of fuses stops, and nothing runs until reset is released (R370). -/
def execLossOfPower (s : State) : Out :=
  let off (c : Crew) : Crew := { c with status := .halted }
  let t := afterReset s
  .next { t with c := off t.c, crews := t.crews.map off }

/-- ROMOVL_CLEAR: the mask ROM overlay of a die is removed (R362, R364). -/
def clearRom (s : State) (die : Nat) : State :=
  { s with boot := { s.boot with romovl := s.boot.romovl &&& ~~~ BitVec.ofNat 4 (2 ^ die) } }

/-- ROMOVL_CLEAR (R364). -/
def execRomovlClear (die : BitVec 2) (s : State) : Out := .next (clearRom s die.toNat)

/-! ### Measurement (R364, R367) -/

/-- A 256-bit register that holds a digest: byte k of the digest is byte k of the register (R1; log 21). -/
def digestReg (bs : List Byte) : BitVec 256 := BitVec.ofNat 256 (ofBytes bs)

/-- The bytes of a 256-bit register. -/
def regBytes (x : BitVec 256) : List Byte := toBytes 32 x.toNat

/-- MEAS[i] := SHA-256(MEAS[i] ‖ MEASIN) (R364). -/
def measure (s : State) (i : Nat) : State :=
  let old := s.boot.meas.getD i 0
  { s with boot := { s.boot with
      meas := s.boot.meas.setIfInBounds i (digestReg (sha256 (regBytes old ++ regBytes s.boot.measin))) } }

/-- MEASGO (R364). -/
def execMeasgo (_die : BitVec 2) (i : BitVec 3) (s : State) : Out := .next (measure s i.toNat)

/-! ### The counter fuses (R370) -/

/-- A write of FUSEREQ: fuses are blown up to a value above FUSECNT; of two raises under way the higher target stands.
There are 256 fuses. -/
def fuseRequest (s : State) (v : BitVec 9) : State :=
  if v.toNat ≤ s.boot.fusecnt.toNat ∨ 256 < v.toNat then s
  else
    let goal := match s.boot.fuseGoal with
      | none => v
      | some g => if g.toNat ≤ v.toNat then v else g
    { s with boot := { s.boot with fuseGoal := some goal } }

/-- FUSEREQ (R370). -/
def execFusereq (v : BitVec 9) (s : State) : Out := .next (fuseRequest s v)

/-- One fuse is blown; with the last, the counter in force takes the target in the same step (R370). -/
def blowFuse (s : State) : State :=
  match s.boot.fuseGoal with
  | none => s
  | some g =>
    let n := s.boot.fusecnt + 1
    if n.toNat < g.toNat then { s with boot := { s.boot with fusecnt := n } }
    else { s with boot := { s.boot with fusecnt := n, fuseGoal := none, secver := g.setWidth 16 } }

/-- FUSE_BLOWN (R370). -/
def execFuseBlown (s : State) : Out := .next (blowFuse s)

/-! ### Owner keys (R368) -/

/-- An owner slot 1 to 3 is programmed and not revoked. -/
def slotLive (b : Boot) (n : Nat) : Bool := decide (1 ≤ n) && decide (n ≤ 3) && b.keyset.getLsbD n && !b.keyrev.getLsbD n

/-- An owner key record of 0x500 bytes. -/
structure KeyRecord where
  slot    : Nat
  action  : Nat
  signer  : Nat
  devid   : Nat
  modulus : List Byte
  signmod : List Byte
  sig     : List Byte
  body    : List Byte
  /-- MAGIC matches and every byte that is not listed is zero. -/
  shape   : Bool

/-- `n` bytes of a string from an offset. -/
def slice (bs : List Byte) (off n : Nat) : List Byte := (bs.drop off).take n

/-- The bytes of a slice are all zero. -/
def allZero (bs : List Byte) : Bool := bs.all (· == 0)

/-- The record in 0x500 bytes (R368). -/
def keyRecord (bs : List Byte) : KeyRecord :=
  { slot := ofBytes (slice bs 8 1), action := ofBytes (slice bs 9 1), signer := ofBytes (slice bs 10 1)
    devid := ofBytes (slice bs 0x10 8), modulus := slice bs 0x80 384, signmod := slice bs 0x200 384
    sig := slice bs 0x380 384, body := bs.take 0x380
    shape := ofBytes (slice bs 0 4) == 0x48574B45 && allZero (slice bs 4 4) && allZero (slice bs 0xB 5) &&
      allZero (slice bs 0x18 0x68) }

/-- The first way: a first key enrolled under the strap, by itself. -/
def selfSigned (b : Boot) (r : KeyRecord) : Bool :=
  r.signer == 0 && r.action == 0 && ([1, 2, 3].all fun n => !b.keyset.getLsbD n) && Config.enrolStrap &&
  r.signmod == r.modulus

/-- The second way: signed by a programmed, unrevoked owner slot. -/
def ownerSigned (b : Boot) (r : KeyRecord) : Bool :=
  slotLive b r.signer && digestReg (sha256 r.signmod) == b.keyhash.getD r.signer 0

/-- The record is accepted, as far as its form and its signature go (R368). -/
def keyAccepted (b : Boot) (r : KeyRecord) : Bool :=
  r.shape && decide (1 ≤ r.slot) && decide (r.slot ≤ 3) && decide (r.action ≤ 2) && decide (r.signer ≤ 3) &&
  (r.action == 0 || allZero r.modulus) &&
  (r.devid == 0 || w64 r.devid == Config.deviceNumber) &&
  (selfSigned b r || ownerSigned b r) && rsaPssOk r.signmod r.sig r.body

/-- The fuses that an accepted record blows; none if the record is refused, which changes no fuse (R368). -/
def enrol (b : Boot) (r : KeyRecord) : Option Boot :=
  if !keyAccepted b r then none
  else if r.action = 0 then
    if b.keyset.getLsbD r.slot then none
    else some { b with
      keyhash := b.keyhash.setIfInBounds r.slot (digestReg (sha256 r.modulus))
      keyset := b.keyset ||| BitVec.ofNat 4 (2 ^ r.slot) }
  else if r.action = 1 then
    let b1 := { b with keyrev := b.keyrev ||| BitVec.ofNat 4 (2 ^ r.slot) }
    if b.vndoff && !([1, 2, 3].any (slotLive b1)) then none else some b1
  else some { b with vndoff := true }

/-! ### Firmware images (R367, R369) -/

/-- The header of a firmware image, and its body. -/
structure Image where
  magic   : Nat
  agqver  : Nat
  secv    : Nat
  slot    : Nat
  length  : Nat
  load    : Word
  entry   : Word
  bodydig : List Byte
  modulus : List Byte
  sig     : List Byte
  /-- The bytes that the signature covers. -/
  signed  : List Byte
  header  : List Byte
  /-- Every byte that is not listed is zero. -/
  zero    : Bool

/-- The image header in 0x400 bytes (R367). -/
def imageHead (bs : List Byte) : Image :=
  let f (off n : Nat) : Nat := ofBytes (slice bs off n)
  { magic := f 0 4, agqver := f 4 2, secv := f 6 2, slot := f 8 1, length := f 0x10 8, load := w64 (f 0x18 8)
    entry := w64 (f 0x20 8), bodydig := slice bs 0x28 32, modulus := slice bs 0x80 384, sig := slice bs 0x200 384
    signed := bs.take 0x80, header := bs.take 0x400
    zero := allZero (slice bs 9 7) && allZero (slice bs 0x48 0x38) && allZero (slice bs 0x380 0x80) }

/-- The lowest-numbered check that an image fails, its body as it has been loaded; none if it is accepted. A byte that
should be zero and is not fails the first (R367; log 79). -/
def imageRefused (b : Boot) (i : Image) (body : List Byte) : Option Nat :=
  if i.magic ≠ 0x48574647 || i.agqver / 256 ≠ 1 || i.agqver % 256 ≠ 0 || !i.zero then some 1
  else if i.secv < b.secver.toNat then some 2
  else if 4 ≤ i.slot || b.keyrev.getLsbD i.slot || (i.slot == 0 && b.vndoff) then some 3
  else if digestReg (sha256 i.modulus) ≠ b.keyhash.getD i.slot 0 then some 4
  else if !rsaPssOk i.modulus i.sig i.signed then some 5
  else if sha256 body ≠ i.bodydig then some 6
  else none

/-- The extension of a stage's measurement register that goes before the entry of an accepted image: by SHA-256 of
header ‖ body, as MEASIN and MEASGO make it (R364, R367). -/
def measureImage (s : State) (stage : Nat) (i : Image) (body : List Byte) : State :=
  measure { s with boot := { s.boot with measin := digestReg (sha256 (i.header ++ body)) } } stage

/-! ### The stages of the boot (R367; log 79)

The stages of spec/28_bring_up.md are the work of firmware whose text the manual does not give. As with the mailbox, what
such a stage does is a step of the machine: it is done when the master reports the stage in FSTAT. -/

/-- The storage in which the body of an image is to stand exists (R181, R367). -/
def Image.fits (i : Image) : Bool :=
  decide (i.load.toNat + i.length ≤ 0xA000000000) ||
  (decide (0x8000000000000 ≤ i.load.toNat) && decide (i.load.toNat + i.length ≤ 0x10000000000000))

/-- Bytes of the image that a stage verifies: at stage 2 the loader image in the master's vault, where stage 1 has put it,
and at stage 4 the main image in the serial flash. -/
def stageBytes (s : State) (stage off n : Nat) : List Byte :=
  if stage = 2 then vaultBytes s off (min n (2 ^ 22 - off)) else slice s.boot.main off n

/-- The header of the image that a stage verifies (R367). -/
def stageImage (s : State) (stage : Nat) : Image := imageHead (stageBytes s stage 0 0x400)

/-- The body of an image at its place in memory: LENGTH bytes from byte 0x400 of the image, at LOAD (R367). -/
def loadBody (s : State) (stage : Nat) : State :=
  let i := stageImage s stage
  if i.fits then performGlobal s i.load.toNat (stageBytes s stage 0x400 i.length) else s

/-- The body as it has been loaded, read where it stands. -/
def loadedBody (s : State) (i : Image) : List Byte := if i.fits then readBytes s i.load.toNat i.length else []

/-- The check that the image of a stage fails, if any: those of R367 in their order, the body as loaded. An image whose
body is not all there, or has no storage at LOAD, fails the sixth. -/
def stageRefused (s : State) (stage : Nat) : Option Nat :=
  let i := stageImage s stage
  match imageRefused s.boot i (loadedBody (loadBody s stage) i) with
  | some k => some k
  | none => if i.fits && (stageBytes s stage 0x400 i.length).length == i.length then none else some 6

/-- A stage fails: FSTAT of the partition of the master becomes 15 (R364, R367). -/
def failStage (s : State) : State := { s with boot := { s.boot with fstat := s.boot.fstat.setIfInBounds 0 15 } }

/-- The program of an accepted image starts at an address on a foreman crew that has not halted (R365; log 79). -/
def Crew.startAt (entry : Word) (c : Crew) : Crew :=
  if c.privl = 2 ∧ c.core % 96 = 0 ∧ c.status ≠ .halted ∧ c.status ≠ .exited then
    { c with pc := normPc entry, left := 0, blk := none, woken := none, status := .running }
  else c

/-- The program of an accepted image starts on every foreman core. -/
def startForemen (s : State) (entry : Word) : State :=
  { s with c := s.c.startAt entry, crews := s.crews.map (Crew.startAt entry) }

/-- A stage takes its image. Refused, it sets FSTAT to 15, and a body that came as far as the sixth check stays where it
was loaded. Accepted, it is measured, and then its entry runs, ENTRY bytes into the body (R367; log 79). -/
def takeImage (s : State) (stage meas : Nat) : State :=
  let i := stageImage s stage
  let s1 := loadBody s stage
  match stageRefused s stage with
  | some k => failStage (if k = 6 then s1 else s)
  | none => startForemen (measureImage s1 meas i (loadedBody s1 i)) (i.load + i.entry)

/-- What firmware does on the master when it reaches a stage: it reads the loader image from the serial flash into its
vault, verifies the loader, and loads and verifies the main image. The other stages are made of register writes. -/
def enterStage (s : State) (stage : Nat) : State :=
  match stage with
  | 1 => performWrite s ⟨true, 0, 0, s.boot.loader.take (2 ^ 22)⟩
  | 2 => takeImage s 2 0
  | 4 => takeImage s 4 1
  | _ => s

/-- A stage is entered when the master has changed FSTAT of its partition (R364; log 79). -/
def bootStage (before s : State) : State :=
  let n := s.boot.fstat.getD 0 0
  if dieOfCore before.c.core = 0 ∧ before.boot.fstat.getD 0 0 ≠ n then enterStage s n.toNat else s

/-! ### HBM training (R371) -/

/-- A write of TRNCTL: with GO it starts a run of the selected phases; during a run it is dropped (R371). -/
def trnctlWrite (s : State) (k : Nat) (v : Word) : State :=
  onCtl s k fun c => if c.running then c else
    { c with trnctl := v &&& 0x13F, running := v.getLsbD 8, since := s.timens.toNat }

/-- TRNCTL (R371). -/
def execTrnctl (k : BitVec 3) (v : BitVec 64) (s : State) : Out := .next (trnctlWrite s k.toNat v)

/-- HBM_TRAINING_DONE: a run ends; nothing happens where none is under way (R371). -/
def execHbmTrainingDone (k : BitVec 3) (fail : BitVec 1) (phase : BitVec 2) (spares : BitVec 4) (eyes : BitVec 16)
    (lanemap : BitVec 64) (s : State) : Out :=
  .next (endTraining s k.toNat (fail == 1) phase.toNat spares.toNat eyes.toNat lanemap)

end Sys2Proof.Machine
end

