-- ==== Sys2Proof/Machine/Lamp.lean ====
section
/-!
DEFINITION. The Lamproom: registration, waking and the deadline sweep (R226 to R234), and the events by which what a
crew has issued comes about: landings, stores performed, answers, contributions and wakes.
-/

namespace Sys2Proof.Machine

/-! ### Registration (R229, R230) -/

/-- The Lamproom set of a line: the fold of PA[51:8] in 6-bit groups (R229). -/
def lampSet (pa : Nat) : Nat := foldBits 6 8 (pa / 256)

/-- The bit of a line in its slice's filter (R230). -/
def filterBit (home pa : Nat) : Nat := 65536 * home + foldBits 16 3 (pa / 256)

/-- The entry registered first of some. -/
def firstRegistered : List LampEntry → Option LampEntry
  | [] => none
  | e :: l =>
    match firstRegistered l with
    | none => some e
    | some f => if e.regno ≤ f.regno then some e else some f

/-- A free 32-byte entry of the spill area of a record's region (R230). -/
def freeSpill (s : State) (r : Record) : Option Nat :=
  let n := rcbField s r 0x58 8 / 32
  let used := s.lamps.filterMap fun e => if e.region == w64 r.block then e.spilled else none
  -- a free index, if there is one, lies at or below the number of entries in use
  (List.range (min n (used.length + 1))).find? fun i => !used.contains i

/-- The filter bit of a spilled entry's line is set. -/
def setFilter (s : State) (e : LampEntry) : State :=
  let b := filterBit e.home e.pa
  if s.filter.contains b then s else { s with filter := s.filter ++ [b] }

/-- An entry registered in the Lamproom of its home slice, spilling where the set is full; none if there is no room
(R229, R230). -/
def register (s : State) (r : Record) (e : LampEntry) : Option State :=
  let ways := s.lamps.filter fun f => f.spilled.isNone && f.home == e.home && lampSet f.pa == lampSet e.pa
  if ways.length < 8 then some { s with lamps := s.lamps ++ [e], lampSeq := s.lampSeq + 1 }
  else
    match freeSpill s r with
    | none => none
    | some i =>
      let s1 : State := { s with lampSeq := s.lampSeq + 1 }
      match firstRegistered (ways.filter fun f => f.region == e.region) with
      | some f =>
        let l := s.lamps.map fun x => if x = f then { x with spilled := some i } else x
        some (setFilter { s1 with lamps := l ++ [e] } f)
      | none => some (setFilter { s1 with lamps := s.lamps ++ [{ e with spilled := some i }] } e)

/-- The entry of the crew in focus for a word at a place. -/
def lampEntry (s : State) (p : Place) (w32 : Bool) (cmp : BitVec 3) (y : Word) (deadline : Option Nat) : LampEntry :=
  { pa := p.pa, home := p.home, w32 := w32, cmp := cmp, y := y, deadline := deadline, prio := s.c.prio,
    regno := s.lampSeq, uid := s.c.uid, save := s.c.save, region := w64 s.g.rcd.block, spilled := none }

/-! ### WAITU (R226 to R228, R234) -/

/-- The deadline of a wait of `n` ns, held at its maximum on overflow (R233). -/
def deadlineAfter (s : State) (n : Word) : Nat := min (s.timens.toNat + n.toNat) (2 ^ 64 - 1)

/-- WAITU: the check at the home slice and the registration are one step (R228). -/
def execWaitu (c : BitVec 3) (d a b : BitVec 6) (w : BitVec 1) (t : BitVec 1) (s : State) : Out :=
  issue (.waitu c d a b w t) s fun s =>
    let size := if w = 1 then 4 else 8
    deviceAccess s needR (getS s.c a) size size 0 fun p =>
      let s := atHome s
      let y := getS s.c b
      if poisoned s false p.pa size then scalarEcc s (getS s.c a) d.toNat
      else if waitHolds c (w == 1) (readNat s p.pa size) y.toNat then doneS s d 0
      else if t = 1 && getG s.c b 1 == 0 then doneS s d 1
      else
        match register s s.g.rcd
            (lampEntry s p (w == 1) c y (if t = 1 then some (deadlineAfter s (getG s.c b 1)) else none)) with
        | none => doneS s d 3
        | some s1 => park s1 (.waitu d)

/-! ### Waking (R232, R233) -/

/-- A woken crew on a core goes on at the word after its parked word, with sd the status (R232). -/
def wakeCrew (c : Crew) : Crew :=
  match c.woken, c.status with
  | some st, .parked (.waitu d) => { (setS c d (st.setWidth 64)).past with woken := none }
  | some _, .parked .barc => { c.past with woken := none }
  | _, _ => c

/-- CREW_WAKE_RESUME (R232). -/
def execCrewWakeResume (uid : Nat) (s : State) : Out :=
  .next (
    if s.allCrews.any fun c => c.uid == uid && c.woken.isSome then putSave0 (s.onCrew uid wakeCrew) uid else s)

/-- DEADLINE_SWEEP: entries whose deadline is at or before the sweep are woken with status 1, and the barrier waits
without an entry are looked at again (R168, R233). -/
def execDeadlineSweep (s : State) : Out :=
  .next (
    if s.timens.toNat < s.sweepAt then s else
    let late (e : LampEntry) : Bool := (e.deadline.map fun d => decide (d ≤ s.sweepAt)).getD false
    let out := s.lamps.filter late
    let s1 := wakeEntries s late 1
    let ready := s1.sweeps.filter (lampHolds s1)
    let s2 := ready.foldl (fun s e => wake s e.uid 0)
      { s1 with sweeps := s1.sweeps.filter fun e => !lampHolds s1 e, sweepAt := s1.sweepAt + 1000 }
    if out = [] ∧ ready = [] then s2 else relightAll s2 (wokenLines s2 (out ++ ready)))

/-! ### What a crew has issued comes about -/

/-- An element taken out of a list. -/
def pluck {α : Type} (l : List α) (i : Nat) : Option (α × List α) :=
  match l.drop i with
  | [] => none
  | x :: rest => some (x, l.take i ++ rest)

/-- LONG_LATENCY_LANDING: one result of the crew lands (R71). -/
def execLongLatencyLanding (uid pick : Nat) (s : State) : Out :=
  .next (inFocus s uid fun s =>
    match pluck s.c.land pick with
    | none => s
    | some (l, rest) =>
      let s1 := landResult { s with c := { s.c with land := rest } } l
      { s1 with c := retire s1.c })

/-- The oldest write of the crew in focus, among the stores that wait for nothing, is performed; with the last of its word,
the acknowledgement is on its way (R13, R190). -/
def performOldest (s : State) : State :=
  match s.c.ready with
  | [] => s
  | p :: _ =>
    match p.writes with
    | [] => { s with c := { s.c with stores := s.c.stores.erase p, acks := s.c.acks ++ [p.clause] } }
    | w :: ws =>
      let s1 := performOf p s w
      if ws = [] then { s1 with c := { s1.c with stores := s1.c.stores.erase p, acks := s1.c.acks ++ [p.clause] } }
      else { s1 with c := { s1.c with stores := s1.c.stores.replace p { p with writes := ws } } }

/-- That write must wait for the slow path of its slice (R231). -/
def oldestSlow (s : State) : Bool :=
  match s.c.ready.head?.bind (·.writes.head?) with
  | some w => filtered s w
  | none => false

/-- STORE_PERFORMED: the crew's oldest write that waits for nothing is performed, or held for the slow path (R190, R231). -/
def execStorePerformed (uid : Nat) (s : State) : Out :=
  .next (if s.slow.contains uid then s else
    inFocus s uid fun s => if oldestSlow s then { s with slow := s.slow ++ [uid] } else performOldest s)

/-- FILTER_SLOW_PATH_WRITE: a held write is performed and its line's entries, spilled ones too, are evaluated (R231). -/
def execFilterSlowPathWrite (uid : Nat) (s : State) : Out :=
  .next (if s.slow.contains uid then
      inFocus { s with slow := s.slow.filter (· != uid) } uid performOldest
    else s)

/-- SLICE_ANSWER: an acknowledgement reaches the crew, and setB counts may retire (R13, R388). -/
def execSliceAnswer (uid pick : Nat) (s : State) : Out :=
  .next (inFocus s uid fun s =>
    match pluck s.c.acks pick with
    | none => s
    | some (_, rest) => { s with c := retire { s.c with acks := rest } })

/-- REDQ_CONTRIBUTION: contributions of the crew reach their slices, in its order and up to the one named, and those that
wait at their slices are retried (R200, R221, R224). -/
def execRedqContribution (uid pick : Nat) (s : State) : Out :=
  .next (retryPending (inFocus s uid (offerSome (pick + 1))))

/-- BRANCH_RESOLUTION: a condition is resolved when its `BRC` issues, so nothing is left to undo (R21, R23; log 10). -/
def execBranchResolution (_uid : Nat) (s : State) : Out := .next s

/-- TRAP_ENTRY: a crew whose drain has ended enters its handler (R288, R291). -/
def execTrapEntry (uid : Nat) (s : State) : Out :=
  .next (inFocus s uid fun s =>
    match s.c.status with
    | .draining t =>
      let s1 := drain s
      if drained s1 then enterTrap s1 t else s1
    | _ => s)

end Sys2Proof.Machine
end

