-- ==== Sys2Proof/Machine/Tags.lean ====
section
/-!
DEFINITION. The tags of a crew (spec/19_engines.md, R244 and R245): waits on them, the completion of a command on its
tag, and the meanings of the TAG words (spec/20_engine_instructions.md, R278 to R280).
-/

namespace Sys2Proof.Machine

/-! ### Tags (R244, R278, R279) -/

/-- The tags of a mask. -/
def maskTags (mask : Word) : List Nat := (List.range 64).filter fun t => mask.getLsbD t

/-- The tags of a mask that stand at count 0. -/
def readyTags (c : Crew) (mask : Word) : List Nat := (maskTags mask).filter fun t => tagCount c t == 0

/-- The condition of a tag wait: a mask of 0 holds at once (R278). -/
def tagsHold (c : Crew) (all : Bool) (mask : Word) : Bool :=
  if all then (readyTags c mask).length == (maskTags mask).length else mask == 0 || readyTags c mask != []

/-- The lowest ready tag of a mask with its fail bit set (R279). -/
def failedTag (c : Crew) (mask : Word) : Option Nat := (readyTags c mask).find? fun t => c.tagfail.getLsbD t

/-- A tag wait: it traps on a failed tag it finds ready, goes on when its condition holds, and else parks
(R278, R279). -/
def tagWait (s : State) (all : Bool) (mask : Word) : State :=
  if !tagsHold s.c all mask then park s (.twait all mask)
  else
    match failedTag s.c mask with
    | none => done s
    | some t =>
      takeTrap s (trapHere s (Cause.ofCode (s.c.tagcause.getD t 0).toNat) 0 (w64 (2 ^ 62 + t)))

/-- A crew parked on tags whose condition now holds is woken: its wait ends as it would have done at once, and it goes
on at the next word (R278, R279). -/
def resumeTags (s : State) (uid : Nat) : State :=
  match s.crew? uid with
  | none => s
  | some c =>
    match c.status with
    | .parked (.twait all mask) =>
      if tagsHold c all mask then putSave0 (inFocus s uid fun s => tagWait s all mask) uid else s
    | _ => s

/-- The tag fields of a crew's save record brought up to date, for a crew whose gallery is saved (R244, R293). -/
def putTags (s : State) (uid : Nat) : State :=
  match s.crew? uid with
  | none => s
  | some c =>
    match s.gal? c.gid with
    | none => s
    | some g =>
      if !isSaved s c.gid then s
      else saveWrite (saveWrite s g c.save 0x340 (c.tagcnt.toList ++ toBytes 8 c.tagfail.toNat)) g c.save 0x3A0
        c.tagcause.toList

/-- A command of the crew named `uid` completes on its tag (R244, R245). -/
def completeTag (s : State) (uid : Nat) (tag : Option (BitVec 6)) (why : Option Cause) : State :=
  if tag = none then s else
  resumeTags (putTags (s.onCrew uid fun c => tagDown c tag (why.map fun w => BitVec.ofNat 8 w.code)) uid) uid

/-- TWAITANY (R278). -/
def execTwaitany (a : BitVec 6) (s : State) : Out :=
  issue (.twaitany a) s fun s => tagWait s false (getS s.c a)

/-- TWAITALL (R278). -/
def execTwaitall (a : BitVec 6) (s : State) : Out :=
  issue (.twaitall a) s fun s => tagWait s true (getS s.c a)

/-- TFIRST: the lowest ready tag with its fail bit at bit 8, or -1 (R278). -/
def execTfirst (d a : BitVec 6) (s : State) : Out :=
  issue (.tfirst d a) s fun s => doneS s d (match readyTags s.c (getS s.c a) with
    | [] => BitVec.allOnes 64
    | t :: _ => w64 (t + bitAt (s.c.tagfail.getLsbD t) 8))

/-- TCLR (R278). -/
def execTclr (a : BitVec 6) (s : State) : Out :=
  issue (.tclr a) s fun s => done { s with c := { s.c with tagfail := s.c.tagfail &&& ~~~ getS s.c a } }

/-- TRDY (R278). -/
def execTrdy (d : BitVec 6) (s : State) : Out :=
  issue (.trdy d) s fun s => doneS s d (tagReady s.c)

/-- The tag operand of an engine word; none with flags bit 8 (R264). -/
def tagOf (t : BitVec 6) (n : BitVec 1) : Option (BitVec 6) := if n = 1 then none else some t

/-- Commands can be counted on some tags: no count would go above 255 (R244). -/
def tagsFree (c : Crew) (l : List (Option (BitVec 6))) : Bool :=
  l.all fun t => match t with
    | none => true
    | some t => decide (tagCount c t.toNat + (l.filter (· == some t)).length ≤ 255)

end Sys2Proof.Machine
end

