-- ==== Sys2Proof/Machine/Search.lean ====
section
/-!
DEFINITION. The meanings of the searches, the marks, the responder stack, the single-thread transfers and the register
blocks of spec/09_search.md (R125 to R143), and of `PBLK` (R32 to R35).
-/

namespace Sys2Proof.Machine

/-! ### Searches (R125 to R129) -/

/-- Whether a register responds to a key under a mask (R126). -/
def responds (c : BitVec 3) (mask x y : Word) : Bool :=
  if c.toNat = 0 then x &&& mask == y &&& mask
  else if c.toNat = 1 then x &&& mask != y &&& mask
  else
    let lo := lowBit mask.toNat
    let w := highBit mask.toNat - lo + 1
    let a := bits x.toNat lo w
    let b := bits y.toNat lo w
    match c.toNat with
    | 2 => decide (signed w a < signed w b)
    | 3 => decide (signed w b ≤ signed w a)
    | 4 => decide (a < b)
    | _ => decide (b ≤ a)

/-- A register of a thread as its bit planes hold it: the word with the single-bit errors that have not been put
right; of a word with an uncorrectable error any bits, which the manual does not give (R72; log 4). -/
def planeReg (s : State) (t : Nat) (v : BitVec 7) : Word :=
  if s.g.bad.contains (128 * t + v.toNat) then
    w64 (ofBytes ((List.range 8).map fun k => Config.freeByte s.fresh (8 * (128 * t + v.toNat) + k)))
  else (s.g.soft.filter (·.1 == 128 * t + v.toNat)).foldl (fun x e => x ^^^ w64 (2 ^ e.2)) (reg s t v)

/-- A register of a thread as a search compares it: checked and corrected under SRCHCHK, else its planes (R72). -/
def searched (s : State) (t : Nat) (v : BitVec 7) : Word := if s.c.srchchk = 1 then reg s t v else planeReg s t v

/-- A checked search corrects the single-bit errors of the words it compares, in the register file, and each is counted
(R72, R304). -/
def correctSearched (s : State) (set : ThreadSet) (vs : List (BitVec 7)) : State :=
  if s.g.soft = [] ∨ s.c.srchchk = 0 then s else
  let hit (e : Nat × Nat) : Bool := set.getLsbD (e.1 / 128) && vs.any fun v => v.toNat == e.1 % 128
  { s with
    g := { s.g with soft := s.g.soft.filter fun e => !hit e }
    corrected := s.corrected.set 0 (s.corrected[0] + (s.g.soft.filter hit).length) }

/-- A search over a set: `vs` are the thread registers compared, `y` the other side of the comparison for a thread.
A compared register with an error that the search does not check may respond or not, as far as compared bits decide
(R72; log 4). -/
def search (s : State) (d c : BitVec 3) (set : ThreadSet) (v : BitVec 7) (vs : List (BitVec 7)) (y : Nat → Word)
    (mask : Word) : State :=
  let high := vs.filter fun v => decide (s.g.nblk ≤ v.toNat / 8)
  if set ≠ 0 ∧ high ≠ [] then takeTrap s (trapHere s .blkFault 0 (blkInfo (high.map (·.toNat))))
  else if ordered c && !oneRun mask.toNat then takeTrap s (trapHere s .srchMask 0 mask)
  else
    match if s.c.srchchk = 1 then eccAt s set (vs.map .v) else none with
    | some x => takeTrap s (eccTrap s x)
    | none =>
      done { correctSearched s set vs with c := setM s.c d (setOf ((members set s.g.nthr).filter fun t =>
        responds c mask (searched s t v) (y t))) }

/-- SRCH: a scalar key over ACT (R126). -/
def execSrch (m c : BitVec 3) (v : BitVec 7) (k n : BitVec 6) (s : State) : Out :=
  issue (.srch m c v k n) s fun s => search s m c s.c.act v [v] (fun _ => getS s.c k) (getS s.c n)

/-- SRCHA: a scalar key over LIVE (R126). -/
def execSrcha (m c : BitVec 3) (v : BitVec 7) (k n : BitVec 6) (s : State) : Out :=
  issue (.srcha m c v k n) s fun s => search s m c s.g.live v [v] (fun _ => getS s.c k) (getS s.c n)

/-- SRCHR: two thread registers over ACT, with a mask in `s0` to `s31` (R126). -/
def execSrchr (m c : BitVec 3) (v b : BitVec 7) (n : BitVec 5) (s : State) : Out :=
  issue (.srchr m c v b n) s fun s =>
    search s m c s.c.act v [v, b] (fun t => searched s t b) (getS s.c (n.setWidth 6))

/-! ### Marks (R130 to R133) -/

/-- The mark `n` as the crew in focus reads it. -/
def mark (s : State) (n : BitVec 3) : ThreadSet := getM s.c s.g.live n

/-- A mark written by an interlocked word, which then ends. -/
def doneM (s : State) (d : BitVec 3) (x : ThreadSet) : State := done { s with c := setM s.c d x }

/-- The lowest slot of a set at or above `k`, or 2^64 - 1 if there is none (R131). -/
def lowestFrom (set : ThreadSet) (k : Nat) : Word :=
  (((members set 2048).find? (k ≤ ·)).map w64).getD (BitVec.allOnes 64)

/-- MAND (R131). -/
def execMand (d a b : BitVec 3) (s : State) : Out :=
  issue (.mand d a b) s fun s => doneM s d (mark s a &&& mark s b)

/-- MOR (R131). -/
def execMor (d a b : BitVec 3) (s : State) : Out :=
  issue (.mor d a b) s fun s => doneM s d (mark s a ||| mark s b)

/-- MXOR (R131). -/
def execMxor (d a b : BitVec 3) (s : State) : Out :=
  issue (.mxor d a b) s fun s => doneM s d (mark s a ^^^ mark s b)

/-- MANDN (R131). -/
def execMandn (d a b : BitVec 3) (s : State) : Out :=
  issue (.mandn d a b) s fun s => doneM s d (mark s a &&& ~~~ mark s b)

/-- MNOT, within LIVE (R131). -/
def execMnot (d a : BitVec 3) (s : State) : Out :=
  issue (.mnot d a) s fun s => doneM s d (s.g.live &&& ~~~ mark s a)

/-- MCOPY (R131). -/
def execMcopy (d a : BitVec 3) (s : State) : Out :=
  issue (.mcopy d a) s fun s => doneM s d (mark s a)

/-- MCLR (R131). -/
def execMclr (d : BitVec 3) (s : State) : Out :=
  issue (.mclr d) s fun s => doneM s d 0

/-- MGETACT (R131). -/
def execMgetact (d : BitVec 3) (s : State) : Out :=
  issue (.mgetact d) s fun s => doneM s d s.c.act

/-- CNT (R131). -/
def execCnt (a : BitVec 3) (d : BitVec 6) (s : State) : Out :=
  issue (.cnt a d) s fun s => doneS s d (w64 (count (mark s a)))

/-- FIRST (R131). -/
def execFirst (a : BitVec 3) (d : BitVec 6) (s : State) : Out :=
  issue (.first a d) s fun s => doneS s d (lowestFrom (mark s a) 0)

/-- NEXT: from the slot after the signed value of sd, or from 0 (R131). -/
def execNext (a : BitVec 3) (d : BitVec 6) (s : State) : Out :=
  issue (.next a d) s fun s => doneS s d (lowestFrom (mark s a) ((getS s.c d).toInt + 1).toNat)

/-- MPICK: the lowest slot into a mark and a scalar; an empty mark and -1 if there is none (R131). -/
def execMpick (d a : BitVec 3) (ss : BitVec 6) (s : State) : Out :=
  issue (.mpick d a ss) s fun s =>
    let t := lowestFrom (mark s a) 0
    done { s with c := setS (setM s.c d (if mark s a = 0 then 0 else setOf [t.toNat])) ss t }

/-- MSET1; an index of 2048 or more changes nothing (R131). -/
def execMset1 (d : BitVec 3) (ss : BitVec 6) (s : State) : Out :=
  issue (.mset1 d ss) s fun s =>
    let i := (getS s.c ss).toNat
    doneM s d (if i < 2048 then mark s d ||| setOf [i] else mark s d)

/-- MCLR1 (R131). -/
def execMclr1 (d : BitVec 3) (ss : BitVec 6) (s : State) : Out :=
  issue (.mclr1 d ss) s fun s =>
    let i := (getS s.c ss).toNat
    doneM s d (if i < 2048 then mark s d &&& ~~~ setOf [i] else mark s d)

/-- MLOAD: 256 bytes, one line, into a mark (R132). -/
def execMload (d : BitVec 3) (ss : BitVec 6) (s : State) : Out :=
  issue (.mload d ss) s fun s =>
    let a := getS s.c ss
    loadAccess s a 256 256 fun p =>
      if ownPoisoned s false p.pa 256 then
        let s1 := deferEcc s a 0 d.toNat
        done { s1 with c := markOut s1.c (.m d) }
      else landMark s d (setFrom (ownBytes s false p.pa 256))

/-- MSTORE: the mark is read at issue and stored as one line (R132). -/
def execMstore (a : BitVec 3) (ss : BitVec 6) (s : State) : Out :=
  issue (.mstore a ss) s fun s =>
    storeAccess s (getS s.c ss) 256 256 fun p =>
      done (queueStore s false [⟨false, p.home, p.pa, setBytes (mark s a)⟩])

/-! ### The responder stack (R134 to R137) -/

/-- TRAPINFO of a stack trap: RSDEPTH (R294). -/
def depthInfo (s : State) : Word := w64 s.c.stack.length

/-- ACT saved on the stack and set to `act`, unless 16 entries are saved already (R135). -/
def pushAct (s : State) (act : ThreadSet) : State :=
  if 16 ≤ s.c.stack.length then takeTrap s (trapHere s .rstkOvf 0 (depthInfo s))
  else done { s with c := { s.c with
    stack := s.c.stack ++ [s.c.act], act := act, badStack := s.c.badStack.filter (· != s.c.stack.length) } }

/-- The top entry read by `POP` and `ELSE`: the trap of an empty stack, or of an entry with an uncorrectable error, which
is no register, so that TRAPINFO names none (R135, R304). -/
def topEntry (s : State) (go : ThreadSet → State) : State :=
  match s.c.stack.getLast? with
  | none => takeTrap s (trapHere s .rstkUnf 0 (depthInfo s))
  | some top =>
    if s.c.badStack.contains (s.c.stack.length - 1) then takeTrap s (trapHere s .eccUncorr 0 0) else go top

/-- PUSH (R135). -/
def execPush (a : BitVec 3) (s : State) : Out :=
  issue (.push a) s fun s => pushAct s (s.c.act &&& mark s a)

/-- PUSHALL (R135). -/
def execPushall (s : State) : Out :=
  issue .pushall s fun s => pushAct s s.g.live

/-- POP (R135). -/
def execPop (s : State) : Out :=
  issue .pop s fun s =>
    topEntry s fun top => done { s with c := { s.c with act := top, stack := s.c.stack.dropLast } }

/-- ELSE: the top stays saved (R135). -/
def execElse (a : BitVec 3) (s : State) : Out :=
  issue (.else_ a) s fun s =>
    topEntry s fun top => done { s with c := { s.c with act := top &&& ~~~ mark s a } }

/-- JARV (R135). -/
def execJarv (d : BitVec 3) (s : State) : Out :=
  issue (.jarv d) s fun s => doneM s d (mark s d ||| s.c.act)

/-- JOIN: ACT from the rejoin mark, which is then empty (R135). -/
def execJoin (a : BitVec 3) (s : State) : Out :=
  issue (.join a) s fun s =>
    done { s with c := { setM s.c a 0 with act := mark s a &&& s.g.live } }

/-- SETACT (R135). -/
def execSetact (a : BitVec 3) (s : State) : Out :=
  issue (.setact a) s fun s => done { s with c := { s.c with act := mark s a &&& s.g.live } }

/-- RDEPTH (R135). -/
def execRdepth (d : BitVec 6) (s : State) : Out :=
  issue (.rdepth d) s fun s => doneS s d (w64 s.c.stack.length)

/-! ### Single-thread transfers (R138 to R140) -/

/-- The result of reading one register of a thread, landing later; none reads 0 with XSTAT.XOOR (R139). -/
def getThread (s : State) (d : BitVec 6) (r : Nat) (t : Option Nat) : State :=
  if s.g.nblk ≤ r / 8 then takeTrap s (trapHere s .blkFault 0 (blkInfo [r]))
  else
    match t with
    | none => landScalar { s with c := raise s.c flagXOOR } d 0
    | some t =>
      if s.g.bad.contains (128 * t + r) then takeTrap s (eccTrap s (t, r))
      else landScalar s d (getV s.g t r)

/-- GET: a thread at or above NTHR reads 0 (R139). -/
def execGet (d n b : BitVec 6) (h : BitVec 1) (s : State) : Out :=
  issue (.get d n b h) s fun s =>
    let t := (getS s.c b).toNat
    getThread s d (xferReg n h) (if t < s.g.nthr then some t else none)

/-- GETF: the lowest thread of ACT (R139). -/
def execGetf (d n : BitVec 6) (h : BitVec 1) (s : State) : Out :=
  issue (.getf d n h) s fun s => getThread s d (xferReg n h) (members s.c.act s.g.nthr).head?

/-- PUT (R140). -/
def execPut (d n b : BitVec 6) (h : BitVec 1) (s : State) : Out :=
  issue (.put d n b h) s fun s =>
    let r := xferReg n h
    let t := (getS s.c b).toNat
    match blkFaults s.g s.c.att [] [r] with
    | [] =>
      if s.g.nthr ≤ t then done { s with c := raise s.c flagXOOR }
      else if !s.g.live.getLsbD t then done { s with c := raise s.c flagXDEAD }
      else done { s with g := setV s.g t r (getS s.c d) }
    | l => takeTrap s (trapHere s .blkFault 0 (blkInfo l))

/-! ### Register blocks (R141 to R143) -/

/-- The owner of a block; a block at or above B has none (R65). -/
def blockOwner (g : Gallery) (b : Nat) : Option Nat := (g.owner.getD b none).map (·.val)

/-- The blocks of a mask. -/
def maskBlocks (m : Nat) : List Nat := (List.range 16).filter (bit m)

/-- A block mask names only blocks of the gallery (R141). -/
def maskOk (g : Gallery) (m : Word) : Bool :=
  decide (m.toNat < 2 ^ 16) && (maskBlocks m.toNat).all fun b => decide (b < g.nblk)

/-- TRAPINFO of a BLK_FAULT of a block instruction (R294). -/
def maskInfo (m : Word) : Word := w64 (2 ^ 8 * bits m.toNat 0 16 + bitAt (decide (2 ^ 16 ≤ m.toNat)) 24)

/-- Every named block is owned by the attach slot or by none (R142). -/
def canAcquire (g : Gallery) (att m : Nat) : Bool :=
  (maskBlocks m).all fun b => match blockOwner g b with
    | none => true
    | some o => o == att

/-- The named blocks pass to an owner. -/
def setOwner (g : Gallery) (m : Nat) (o : Option (Fin 4)) : Gallery :=
  { g with owner := (maskBlocks m).foldl (fun v b => v.setIfInBounds b o) g.owner }

/-- The attach slot of a crew as an owner. -/
def asOwner (att : Nat) : Option (Fin 4) := some (Fin.ofNat 4 att)

/-- The parked acquires of the gallery in focus are examined in the order in which they parked; each whose blocks are
now free is granted and its crew continues at the next word (R142). -/
def grantParked (s : State) : State :=
  s.g.blkq.foldl (fun s w =>
    match s.crew? w.uid with
    | none => s
    | some c =>
      if canAcquire s.g c.att w.mask.toNat then
        let s1 : State := { s with g := { setOwner s.g w.mask.toNat (asOwner c.att) with
          blkq := s.g.blkq.filter (·.uid != w.uid) } }
        putSave0 (s1.onCrew w.uid Crew.past) w.uid
      else s) s

/-- BLKACQ.W: parks until the blocks are free (R142). -/
def execBlkacqW (a : BitVec 6) (s : State) : Out :=
  issue (.blkacqW a) s fun s =>
    let m := getS s.c a
    if !maskOk s.g m then takeTrap s (trapHere s .blkFault 0 (maskInfo m))
    else if canAcquire s.g s.c.att m.toNat then done { s with g := setOwner s.g m.toNat (asOwner s.c.att) }
    else park { s with g := { s.g with blkq := s.g.blkq ++ [⟨s.c.uid, BitVec.ofNat 16 m.toNat⟩] } } .blkacq

/-- BLKACQ.P: writes 1 on success and 0 on failure (R142). -/
def execBlkacqP (d a : BitVec 6) (s : State) : Out :=
  issue (.blkacqP d a) s fun s =>
    let m := getS s.c a
    if !maskOk s.g m then takeTrap s (trapHere s .blkFault 0 (maskInfo m))
    else if canAcquire s.g s.c.att m.toNat then
      doneS { s with g := setOwner s.g m.toNat (asOwner s.c.att) } d 1
    else doneS s d 0

/-- Long-latency writes of the crew into the named blocks have not landed (R65). -/
def landingIn (c : Crew) (m : Nat) : Bool :=
  c.land.any fun l => match l.dest with
    | .gang r _ => bit m (r.toNat / 8)
    | _ => false

/-- BLKREL: first the crew's long-latency writes into the blocks land (R143). -/
def execBlkrel (a : BitVec 6) (s : State) : Out :=
  issue (.blkrel a) s fun s =>
    let m := getS s.c a
    if !maskOk s.g m || !((maskBlocks m.toNat).all fun b => blockOwner s.g b == some s.c.att) then
      takeTrap s (trapHere s .blkFault 0 (maskInfo m))
    else if landingIn s.c m.toNat then hold s
    else done (grantParked { s with g := setOwner s.g m.toNat none })

/-- BLKQ: the owner of each block, 7 for none and 6 for a block at or above B (R143). -/
def execBlkq (d : BitVec 6) (s : State) : Out :=
  issue (.blkq d) s fun s => doneS s d (w64 ((List.range 16).foldl (fun a b =>
    a + 2 ^ (3 * b) * (if s.g.nblk ≤ b then 6 else (blockOwner s.g b).getD 7)) 0))

/-- PBLK: the mark is read once and governs the next words (R33). -/
def execPblk (m n : BitVec 3) (p : BitVec 8) (s : State) : Out :=
  issue (.pblk m n p) s fun s =>
    let s1 := done s
    { s1 with c := { s1.c with blk := some ⟨mark s m, m, n.toNat + 1, p⟩ } }

end Sys2Proof.Machine
end

