-- ==== Sys2Proof/Machine/Task.lean ====
section
/-!
DEFINITION. The meanings of the task and barrier words of spec/13_task_instructions.md (R160 to R170), and what an
`EXIT` leaves to be done.
-/

namespace Sys2Proof.Machine

/-- A release of the crew's earlier stores, atomics and engine commands can be made: its reductions are accepted and
its engine work is complete (R170). -/
def settled (s : State) : Bool := s.c.redq == [] && !engineBusy s s.c.uid

/-- A task word that has passed its checks: it holds until it can release, and then acts at its home slice, the crew's
stores performed (R161, R170). -/
def releasing (s : State) (act : State → State) : State := if settled s then act (atHome s) else hold s

/-- The trap of a refused or unreadable record (R162, R164). -/
def spawnTrap (s : State) (addr : Word) (n : Nat) : State := takeTrap s (trapHere s .spawnRefused addr (w64 n))

/-- An enqueueing word: the checks that read no record first, then the enqueue (R162 to R166). -/
def enqueueWord (s : State) (e : Enqueuer) (addr : Word) (ok below : State → State)
    (full : State → List Nat → State) : State :=
  match checkGlobal s needR addr.toNat 64 64 with
  | .error c => scalarFault s c addr 0
  | .ok _ => releasing s fun s =>
    match taskEnqueue s e addr with
    | .fault c => if c = .eccUncorr then scalarEcc s addr 0 else scalarFault s c addr 0
    | .refused n => spawnTrap s addr n
    | .full path => full s path
    | .spoiled a => scalarEcc s a 0
    | .belowFuse o r => below (regionFault s r { cause := .codeRefused, obj := o.addr })
    | .ok s1 => ok s1

/-- Parking on a full region (R165). -/
def parkSpawn (s : State) (path : List Nat) : State :=
  park { s with spawnq := s.spawnq ++ [⟨s.c.uid, path⟩] } .spawn

/-- SPAWN (R163, R165). -/
def execSpawn (a : BitVec 6) (s : State) : Out :=
  issue (.spawn a) s fun s => enqueueWord s .spawn (getS s.c a) done done parkSpawn

/-- SPAWN.NB: 0 when enqueued, 1 when the region is full (R163, R165). -/
def execSpawnNb (d a : BitVec 6) (s : State) : Out :=
  issue (.spawnNb d a) s fun s =>
    enqueueWord s .spawn (getS s.c a) (fun s => doneS s d 0) done fun s _ => doneS s d 1

/-- SPAWNG: within the issuer's region, at its priority and class (R163, R165). -/
def execSpawng (a : BitVec 6) (s : State) : Out :=
  issue (.spawng a) s fun s => enqueueWord s .spawng (getS s.c a) done done parkSpawn

/-- LAUNCH: a seed; when its object is below the fuse counter nothing is enqueued, and the status is a value the
manual does not give (R163, R305; log 4). -/
def execLaunch (d a : BitVec 6) (s : State) : Out :=
  issue (.launch d a) s fun s =>
    enqueueWord s .launch (getS s.c a) (fun s => doneS s d 0) (fun s => doneS s d (w64 (Config.freePick s.fresh)))
      fun s _ => doneS s d 1

/-- A decrement by a task word; an uncorrectable word of the cell traps, and the cell stays (R167, R304). -/
def decWord (s : State) (addr : Word) (dep : Bool) : State :=
  scalarAccess s needRW addr 16 16 2 fun p =>
    releasing s fun s =>
      if cellSpoiled s p.pa dep then scalarEcc s addr 0 else
      match decCell s p.pa dep s.c.core 0 with
      | none => takeTrap s (trapHere s .depcntUnderflow addr 0)
      | some s1 => done s1

/-- JOINDEC (R167). -/
def execJoindec (a : BitVec 6) (s : State) : Out :=
  issue (.joindec a) s fun s => decWord s (getS s.c a) false

/-- DEPDEC: a count that reaches 0 releases the record that waits on the cell (R167). -/
def execDepdec (a : BitVec 6) (s : State) : Out :=
  issue (.depdec a) s fun s => decWord s (getS s.c a) true

/-- BARC: the last arrival starts the next generation; another one registers a wait for it in the same step. Where the
spill area has no room, the wait is looked at again at each sweep (R168). An uncorrectable word of the cell traps (R304). -/
def execBarc (a b : BitVec 6) (s : State) : Out :=
  issue (.barc a b) s fun s =>
    let addr := getS s.c a
    let n := (getS s.c b).toNat
    scalarAccess s needRW addr 16 16 2 fun p => releasing s fun s =>
      if poisoned s false p.pa 16 then scalarEcc s addr 0 else
      let g := readNat s (p.pa + 8) 8
      let c := readNat s p.pa 8 + 1
      if n ≤ c then done (performGlobal s p.pa (toBytes 8 0 ++ toBytes 8 ((g + 1) % 2 ^ 64)))
      else
        let s1 := performNat s p.pa 8 c
        let e := lampEntry s1 { p with pa := p.pa + 8 } false 1 (w64 g) none
        match register s1 s1.g.rcd e with
        | some s2 => park s2 .barc
        | none => park { s1 with sweeps := s1.sweeps ++ [e], lampSeq := s1.lampSeq + 1 } .barc

/-! ### The end of a crew (R65, R73, R169, R259, R277) -/

/-- A token given up: it passes to the first waiting crew, else to the engine (R259). -/
def giveToken (t : Token) : Token :=
  match t.waiting with
  | [] => { t with holder := none }
  | u :: l => { t with holder := some u, waiting := l }

/-- Tokens simply with the engine are not listed. -/
def dropIdle (l : List Token) : List Token := l.filter fun t => t.holder.isSome || t.waiting != []

/-- What a crew that has ended still held: its tokens whose matrix commands have retired pass on, and with its last
command its ring is detached (R169, R259, R277). -/
def settleExit (s : State) (uid : Nat) : State :=
  match s.crew? uid with
  | none => s
  | some c =>
    if c.status != .exited then s else
    let busy (t : Token) : Bool :=
      s.mx.any fun m => m.uid == uid && m.cluster == t.cluster && m.tile == t.tile
    let s1 : State := { s with tokens := dropIdle (s.tokens.map fun t =>
      if t.holder == some uid && !busy t then giveToken t else t) }
    if engineBusy s1 uid then s1 else { s1 with rings := s1.rings.filter (·.uid != uid) }

/-- Every crew that has ended gives up what it still held, as far as its commands are complete. -/
def settleExits (s : State) : State :=
  (s.allCrews.filter (·.status == .exited)).foldl (fun s c => settleExit s c.uid) s

/-- The duplicates still to be raised at a header, which no longer comes (R224). -/
def reportDeferred (s : State) : State :=
  (s.c.deferred.filter (·.cause == .seqDup)).foldl
    (fun s t => crewFault s s.c.uid { cause := .seqDup, addr := t.addr, obj := t.addr, pc := w64 (t.info.toNat % 2 ^ 57) })
    { s with c := { s.c with deferred := [] } }

/-- EXIT: the crew issues no further word, its sets and registers are discarded, and its blocks pass to none once its
writes into them have landed. The pc stays at the `EXIT` (R169, R324). -/
def execExit (s : State) : Out :=
  issue .exit s fun s =>
    if landingIn s.c (2 ^ 16 - 1) then hold s else
    let s := reportDeferred s
    let owned := (List.range 16).filter fun b => blockOwner s.g b == some s.c.att
    let mine := owned.foldl (fun a b => a + 2 ^ b) 0
    let others := s.crews.any fun c => c.gid == s.c.gid && c.status != .exited
    let s1 : State := { s with
      g := { setOwner s.g mine none with ender := if others then s.g.ender else some s.c.uid }
      c := { s.c with
        status := .exited, act := 0, stack := [], marks := Vector.replicate 7 0, base := zeros 48, pbank := zeros 16,
        tbank := zeros 16, left := 0, incs := [], outm := [], blk := none, land := [] } }
    settleExit (grantParked s1) s.c.uid

end Sys2Proof.Machine
end

