-- ==== Sys2Proof/Machine/Engine.lean ====
section
/-!
DEFINITION. What the engines share (spec/19_engines.md): how an engine reaches memory and vaults, and the posting of a
matrix command to a ring.
-/

namespace Sys2Proof.Machine

/-! ### How an engine reaches memory (R174, R263, R268, R321) -/

/-- Where an access of an engine goes: a vault, memory, or nowhere, since the hardware owns the storage (R230, R240,
R290, R351). -/
inductive EngPlace where
  | vault (a : Nat)
  | global (pa : Nat)
  | dropped
deriving DecidableEq, Repr

/-- An access of up to 8 bytes, within one aligned 8-byte word, for a gallery's command. -/
def engAt (s : State) (g : Gallery) (foreman write vault : Bool) (addr n : Nat) : Except Cause EngPlace :=
  if vault then
    let a := relocate g addr
    if 2 ^ 32 ≤ a then .error .xlate else
    match checkVault s g.rcd.part 4 (if foreman then 2 else 0) (galAsn g) a 1 with
    | .error e => .error e
    | .ok _ => if !write && poisoned s true a n then .error .eccUncorr else .ok (.vault a)
  else
    match translate s g.rcd.part (galAsn g) foreman write (if write then needW else needR) addr with
    | .error e => .error e
    | .ok p =>
      if inPools s g.rcd.part p.pa n || inSpill s g.rcd.part p.pa n || inRelayStore s p.pa n ||
          (write && inPaceLine s p.pa n) then .ok .dropped
      else if !write && poisoned s false p.pa n then .error .eccUncorr
      else .ok (.global p.pa)

/-- A run of bytes cut at the aligned 8-byte words: one access each (R190). The first argument bounds the number. -/
def pieces : Nat → Nat → Nat → List (Nat × Nat)
  | 0, _, _ => []
  | _, _, 0 => []
  | f + 1, a, n + 1 =>
    let m := min (n + 1) (8 - a % 8)
    (a, m) :: pieces f (a + m) (n + 1 - m)

/-- Who an engine works for. -/
structure Client where
  g       : Gallery
  uid     : Nat
  foreman : Bool

/-- The client of a command, from the crew that issued it. -/
def clientOf (s : State) (uid : Nat) : Client :=
  match s.galOf uid with
  | none => ⟨s.g, uid, false⟩
  | some g => ⟨g, uid, ((s.crew? uid).map fun c => c.privl == 2).getD false⟩

/-- An access to storage the hardware owns: a PERM fault record to the command's region (R230, R240, R290). -/
def reportDrop (s : State) (k : Client) (addr : Nat) : State :=
  crewFault s k.uid { cause := .perm, addr := w64 addr, obj := w64 addr }

/-- A run of bytes read by an engine, each access in turn; a dropped access reads bytes that the manual does not give
(log 4). The failing address comes with the cause. -/
def engReadPieces (k : Client) (vault : Bool) : List (Nat × Nat) → State → Except (Cause × Nat) (State × List Byte)
  | [], s => .ok (s, [])
  | (a, n) :: l, s =>
    match engAt s k.g k.foreman false vault a n with
    | .error e => .error (e, a)
    | .ok p =>
      let (s1, bs) := match p with
        | .vault x => (s, vaultBytes s x n)
        | .global x => (s, readBytes s x n)
        | .dropped =>
          let s1 := reportDrop s k a
          ({ s1 with fresh := s1.fresh + 1 }, (List.range n).map (Config.freeByte s.fresh))
      match engReadPieces k vault l s1 with
      | .error e => .error e
      | .ok (s2, rest) => .ok (s2, bs ++ rest)

/-- `n` bytes read by an engine from an address of global or vault space. -/
def engRead (s : State) (k : Client) (vault : Bool) (a n : Nat) : Except (Cause × Nat) (State × List Byte) :=
  engReadPieces k vault (pieces n a n) s

/-- The accesses of some writes: each run of bytes, cut at the aligned words. -/
def writePieces (l : List (Nat × List Byte)) : List (Nat × List Byte) :=
  (l.map fun (a, bs) => (pieces bs.length a bs.length).map fun (x, n) => (x, (bs.drop (x - a)).take n)).flatten

/-- The first failing access of some writes. -/
def writeFails (s : State) (k : Client) (vault : Bool) (l : List (Nat × List Byte)) : Option (Cause × Nat) :=
  l.findSome? fun (a, bs) => match engAt s k.g k.foreman true vault a bs.length with
    | .error e => some (e, a)
    | .ok _ => none

/-- One access of a write performed. -/
def engWriteOne (k : Client) (vault : Bool) (s : State) (w : Nat × List Byte) : State :=
  match engAt s k.g k.foreman true vault w.1 w.2.length with
  | .error _ => s
  | .ok (.vault x) => performWrite s ⟨true, 0, x, w.2⟩
  | .ok (.global x) => performGlobal s x w.2
  | .ok .dropped => reportDrop s k w.1

/-- Writes of an engine, once every one of them has passed its checks. -/
def engWrite (s : State) (k : Client) (vault : Bool) (l : List (Nat × List Byte)) : Except (Cause × Nat) State :=
  let ps := writePieces l
  match writeFails s k vault ps with
  | some e => .error e
  | none => .ok (ps.foldl (engWriteOne k vault) s)

/-! ### Matrix command records and rings (R187, R188, R255, R273) -/

/-- A field of a 64-byte image. -/
def img (bs : List Byte) (off lo len : Nat) : Nat := bits (ofBytes ((bs.drop off).take 8)) lo len

/-- The ring at a virtual address of a client's space: the physical address of its control block, and its fields. -/
def ringOf (s : State) (k : Client) (va : Word) : Option (Nat × Option Ring) :=
  match translate s k.g.rcd.part (galAsn k.g) k.foreman false needRW va.toNat with
  | .error _ => none
  | .ok p => some (p.pa, ringAt s p.pa)

/-- The control block of a ring holds an uncorrectable word (R304). -/
def ringSpoiled (s : State) (k : Client) (ring : Word) : Bool :=
  match ringOf s k ring with
  | some (pa, _) => poisoned s false pa 32
  | none => false

/-- The ring attached to a crew has a free slot, or cannot be used at all. -/
def ringRoom (s : State) (k : Client) (ring : Word) : Bool :=
  match ringOf s k ring with
  | some (_, some r) => !r.full
  | _ => true

/-- The next slot of a ring reserved by advancing PROD: its index; none when the control block is broken, which drops
the slot (R188, R270). -/
def ringReserve (s : State) (k : Client) (ring : Word) : State × Option Nat :=
  match ringOf s k ring with
  | none => (countError s, none)
  | some (pa, none) => (countError (setLost s pa), none)
  | some (pa, some r) => (performNat s (pa + 16) 4 (r.prod + 1), some r.prod)

/-- A slot of a ring filled: the payload, then the header with the slot's phase. A control block found broken has LOST
set where it can be written, and the drop is counted (R188). A slot that does not translate for writing is left as it
is, LOST is set, and the drop is counted (DESIGN CHOICE, log 40). In a published range such a write of the hardware goes
to the live side (DESIGN CHOICE, log 97). -/
def ringFill (s : State) (k : Client) (ring : Word) (slot : Nat) (payload : List Byte) : State :=
  match ringOf s k ring with
  | none => countError s
  | some (pa, none) => countError (setLost s pa)
  | some (pa, some r) =>
    match translate s k.g.rcd.part (galAsn k.g) k.foreman false needW (r.slot slot) with
    | .error _ => countError (setLost s pa)
    | .ok q =>
      performGlobal (performGlobal s (q.pa + 8) payload) q.pa
        [BitVec.ofNat 8 (bitAt (bit slot r.n) 7), 0, 0, 0, 0, 0, 0, 0]

/-- The 64 bytes of a matrix command record (R273). -/
def mxRecord (w0 aaddr baddr wscale crew : Nat) : List Byte :=
  toBytes 8 w0 ++ toBytes 8 aaddr ++ toBytes 8 baddr ++ toBytes 8 wscale ++ toBytes 8 crew ++ List.replicate 24 0

/-- Word 0 of a record: the fields of the command, with NT, TAG and PRIO as the hardware writes them (R273). -/
def mxWord0 (base : Nat) (tag : Option (BitVec 6)) (prio : BitVec 3) : Nat :=
  bits base 0 24 + prio.toNat * 2 ^ 24 + bits base 32 16 * 2 ^ 32 + (tag.getD 0).toNat * 2 ^ 48 + bitAt tag.isNone 54

/-- The 128 row scales of a gallery from half `half` of register `r`, or none where a check of R88 fails. -/
def rowScales (g : Gallery) (r half : Nat) : Option (List (BitVec 32)) :=
  if g.nthr < 128 || decide (g.nblk ≤ r / 8) then none
  else some ((List.range 128).map fun t => BitVec.ofNat 32 (bits (getV g t r).toNat (32 * half) 32))

/-- The lowest thread of the 128 whose word of register `r` holds an uncorrectable error (R304). -/
def rowBad (g : Gallery) (r : Nat) : Option Nat := (List.range 128).find? fun t => g.bad.contains (128 * t + r)

/-- The key of a thread register word among the 128 row-scale words of register `r`. -/
def isRow (r key : Nat) : Bool := decide (key / 128 < 128) && key % 128 == r

/-- The checks of `MMA` on the operand fields of a record, other than those of R88 (R275). -/
def mmaFieldsOk (kb aaddr baddr : Nat) : Bool := kb != 0 && aaddr % 2048 == 0 && baddr % 2048 == 0

/-- The bits of a record that must be zero are zero (R273). -/
def mxReservedOk (bs : List Byte) : Bool :=
  img bs 0 55 9 == 0 && img bs 0 27 5 == 0 && img bs 0 4 4 == 0 && img bs 8 32 32 == 0 && img bs 0x10 32 32 == 0 &&
  img bs 0x18 32 32 == 0 && img bs 0x20 15 49 == 0 && ((bs.drop 0x28).take 24).all (· == 0)

/-- The slot of a matrix command that is given up: an MFENCE with no tag, PRIO and CREW written as in every slot that the
hardware fills (R270, R273). -/
def fenceRecord (prio : BitVec 3) (crew : Nat) : List Byte := mxRecord (mxWord0 7 none prio) 0 0 0 crew

end Sys2Proof.Machine
end

