-- ==== Sys2Proof/Machine/Hoist.lean ====
section
/-!
DEFINITION. The hoist engines (spec/19_engines.md, R246 to R253) and the meanings of the HOIST words of
spec/20_engine_instructions.md (R264 to R272).
-/

namespace Sys2Proof.Machine

/-! ### Formats and plane-sets (R251 to R253) -/

/-- The planes of a block by format code: 0 E4M3, 1 NB4, 2 INT8, 3 BF16, 4 FP16, 5 FP32 (R252, R266). -/
def planesOf (f : Nat) : Nat :=
  match f with
  | 0 => 8 | 1 => 13 | 2 => 8 | 3 => 16 | 4 => 16 | _ => 32

/-- The bytes of an element; NB4 is read in blocks of 10 bytes (R269). -/
def elemSize (f : Nat) : Nat :=
  match f with
  | 0 => 1 | 1 => 10 | 2 => 1 | 3 => 2 | 4 => 2 | _ => 4

/-- The bits of an NB4 element as its planes carry them: sign, E, μ, M (R252). `bs` is its block, `j` its place. -/
def nb4Code (bs : List Byte) (j : Nat) : Nat :=
  let nib := bits (ofBytes ((bs.drop (2 + j / 2)).take 1)) (4 * (j % 2)) 4
  bits nib 3 1 * 2 ^ 12 + (bs.getD 0 0).toNat * 2 ^ 4 + bits (bs.getD 1 0).toNat (j / 2) 1 * 2 ^ 3 + bits nib 0 3

/-- The 16 bytes of a plane row: bit (k mod 8) of byte k div 8 is bit `b` of the element at k (R251). -/
def planeRow (codes : List Nat) (b : Nat) : List Byte :=
  (List.range 16).map fun i =>
    BitVec.ofNat 8 ((List.range 8).foldl (fun a j => a + bitAt (bit (codes.getD (8 * i + j) 0) b) j) 0)

/-! ### Chunks (R246, R268, R269) -/

/-- The operands of a hoist command, as R267 lays them out. -/
def HoistOp.vd (o : HoistOp) : Bool := if o.fn = 4 then true else o.flags.getLsbD 0
def HoistOp.vs (o : HoistOp) : Bool := if o.fn = 4 then o.flags.getLsbD 4 else o.flags.getLsbD 1
def HoistOp.count (o : HoistOp) : Nat := if o.fn = 1 || o.fn = 2 then bits o.op2.toNat 0 32 else bits o.op2.toNat 0 41
def HoistOp.ecode (o : HoistOp) : Nat := bits o.op2.toNat 32 4
def HoistOp.stride (o : HoistOp) : Nat := bits o.op2.toNat 0 32
def HoistOp.width (o : HoistOp) : Nat := bits o.op2.toNat 32 16
def HoistOp.rows (o : HoistOp) : Nat := bits o.op2.toNat 48 7 + 1
def HoistOp.fmt (o : HoistOp) : Nat := bits o.flags.toNat 0 3

/-- The address of the follow-on image of a command that has one (R267). -/
def HoistOp.followAt (o : HoistOp) : Word := if o.fn = 0 || o.fn = 4 then o.op3 else 0

/-- The address on the contiguous side of a command (R246). -/
def HoistOp.contiguous (o : HoistOp) : Nat := (if o.fn = 2 then o.op1 else o.op0).toNat

/-- The bytes on the contiguous side. -/
def HoistOp.length (o : HoistOp) : Nat := if o.fn = 1 || o.fn = 2 then o.count * 2 ^ o.ecode else o.count

/-- The chunks of a command (R246, R269). -/
def HoistOp.chunks (o : HoistOp) : Nat :=
  if o.fn = 4 then (o.width + 127) / 128 * ((planesOf o.fmt + 1) / 2)
  else if o.length = 0 then 0
  else (o.contiguous + o.length - 1) / 4096 - o.contiguous / 4096 + 1

/-- The first byte and the number of bytes of a chunk, counted from the start of the contiguous side (R246). -/
def HoistOp.span (o : HoistOp) (i : Nat) : Nat × Nat :=
  let edge (k : Nat) : Nat := min o.length (4096 * (o.contiguous / 4096 + k) - o.contiguous)
  (edge i, edge (i + 1) - edge i)

/-- A run of bytes cut at the elements of `e` bytes: element, place in it, length. -/
def segments : Nat → Nat → Nat → Nat → List (Nat × Nat × Nat)
  | 0, _, _, _ => []
  | _, _, _, 0 => []
  | f + 1, e, o, n + 1 =>
    let m := min (n + 1) (e - o % e)
    (o / e, o % e, m) :: segments f e (o + m) (n + 1 - m)

/-- What the reads of a chunk give: the state, with the records of dropped accesses, and the writes to be made. -/
abbrev ChunkReads := Except (Cause × Nat) (State × List (Nat × List Byte))

/-- The reads of a gather or a scatter, segment by segment (R268). -/
def indexedReads (k : Client) (o : HoistOp) : List (Nat × Nat × Nat) → Nat → State → ChunkReads
  | [], _, s => .ok (s, [])
  | (j, off, n) :: l, at_, s =>
    match engRead s k false (o.op3.toNat + 4 * j) 4 with
    | .error e => .error e
    | .ok (s1, ix) =>
      let far := ofBytes ix * 2 ^ o.ecode + off
      let near := at_
      let src := if o.fn = 1 then o.op1.toNat + far else o.op1.toNat + near
      let dst := if o.fn = 1 then o.op0.toNat + near else o.op0.toNat + far
      match engRead s1 k o.vs src n with
      | .error e => .error e
      | .ok (s2, bs) =>
        match indexedReads k o l (at_ + n) s2 with
        | .error e => .error e
        | .ok (s3, ws) => .ok (s3, (dst, bs) :: ws)

/-- A list turned so that it begins at another element. -/
def rotate {α : Type} (l : List α) (n : Nat) : List α :=
  if l = [] then l else l.drop (n % l.length) ++ l.take (n % l.length)

/-- Rows of bytes read by an engine, `n` bytes from each of some addresses. -/
def rowReads (k : Client) (vs : Bool) (n : Nat) : List Nat → State → Except (Cause × Nat) (State × List (List Byte))
  | [], s => .ok (s, [])
  | a :: l, s =>
    match engRead s k vs a n with
    | .error e => .error e
    | .ok (s1, bs) =>
      match rowReads k vs n l s1 with
      | .error e => .error e
      | .ok (s2, rest) => .ok (s2, bs :: rest)

/-- The codes of the 128 elements of each row of a block, from the bytes read; 0 outside the command's rows and width
(R253, R269). -/
def blockCodes (o : HoistOp) (live : Nat) (got : List (List Byte)) : List (List Nat) :=
  let size := elemSize o.fmt
  (List.range 128).map fun r => (List.range 128).map fun k =>
    if r < o.rows && k < live then
      if o.fmt = 1 then nb4Code ((got.getD r []).drop (10 * (k / 16))) (k % 16)
      else
        let (row, i) := if o.flags.getLsbD 3 then (k, r) else (r, k)
        ofBytes (((got.getD row []).drop (size * i)).take size)
    else 0

/-- The reads of an `HPLANE` chunk, and the planes it writes (R253, R269). -/
def planeReads (s : State) (k : Client) (o : HoistOp) (i : Nat) : ChunkReads :=
  let planes := planesOf o.fmt
  let per := (planes + 1) / 2
  let set := i / per
  let live := min 128 (o.width - 128 * set)
  let size := elemSize o.fmt
  let turned := o.flags.getLsbD 3
  let addrs :=
    if o.fmt = 1 then (List.range o.rows).map fun r => o.op1.toNat + r * o.stride + set * 8 * size
    else if turned then (List.range live).map fun j => o.op1.toNat + (128 * set + j) * o.stride
    else (List.range o.rows).map fun r => o.op1.toNat + r * o.stride + 128 * set * size
  let n := if o.fmt = 1 then live / 16 * size else if turned then o.rows * size else live * size
  match rowReads k o.vs n addrs s with
  | .error e => .error e
  | .ok (s1, got) =>
    let codes := blockCodes o live got
    let first := 2 * (i % per)
    let mine := (List.range 2).filter fun j => decide (first + j < planes)
    .ok (s1, mine.map fun j =>
      (o.op0.toNat + (set * planes + first + j) * 2048, codes.flatMap fun row => planeRow row (planes - 1 - (first + j))))

/-- The reads of a chunk, every one before any of its writes (R248, R268). The order in which the elements of a
scatter are written is not given (log 4). -/
def chunkReads (s : State) (k : Client) (o : HoistOp) (i : Nat) : ChunkReads :=
  let (off, n) := o.span i
  if o.fn = 0 then
    match engRead s k o.vs (o.op1.toNat + off) n with
    | .error e => .error e
    | .ok (s1, bs) => .ok (s1, [(o.op0.toNat + off, bs)])
  else if o.fn = 3 then
    .ok (s, [(o.op0.toNat + off, (List.range n).map fun j => BitVec.ofNat 8 (bits o.op1.toNat (8 * ((off + j) % 8)) 8))])
  else if o.fn = 4 then planeReads s k o i
  else
    match indexedReads k o (segments n (2 ^ o.ecode) off n) off s with
    | .error e => .error e
    | .ok (s1, ws) =>
      if o.fn = 2 then .ok ({ s1 with fresh := s1.fresh + 1 }, rotate ws (Config.freePick s1.fresh)) else .ok (s1, ws)

/-- One chunk performed: its reads, then its writes (R248). -/
def runChunk (s : State) (k : Client) (o : HoistOp) (i : Nat) : Except (Cause × Nat) State :=
  match chunkReads s k o i with
  | .error e => .error e
  | .ok (s1, ws) => engWrite s1 k o.vd ws

/-! ### Checks of the operands (R267, R269, R270) -/

/-- A check that fails at issue: cause, TRAPADDR and TRAPINFO (R265, R295). -/
structure OpFault where
  cause : Cause
  addr  : Word
  info  : Word

/-- An address of a command's own space is out of range (R267). -/
def addrFault (vault : Bool) (a : Word) (kind : Nat) : Option OpFault :=
  if vault then (if 2 ^ 32 ≤ a.toNat then some ⟨.xlate, a, scalarInfo 3⟩ else none)
  else (if 2 ^ 57 ≤ a.toNat then some ⟨.xlate, a, scalarInfo kind⟩ else none)

/-- A global address aligned to `n`, in range. -/
def globalFault (a : Word) (n kind : Nat) : Option OpFault :=
  if 2 ^ 57 ≤ a.toNat then some ⟨.xlate, a, scalarInfo kind⟩
  else if a.toNat % n ≠ 0 then some ⟨.align, a, scalarInfo kind⟩ else none

/-- The operand checks of a data-moving function (R267, R269): D, V, S, e, X, F and then the format. The manual gives no
order among them (DESIGN CHOICE, log 90). -/
def opFault (o : HoistOp) : Option OpFault :=
  let plane := o.fn == 4
  let indexed := o.fn == 1 || o.fn == 2
  (((addrFault o.vd o.op0 1).or
    (if plane && o.op0.toNat % 2048 ≠ 0 then some ⟨.align, o.op0, scalarInfo 3⟩ else none)).or
   (if o.fn = 3 then none else addrFault o.vs o.op1 0)).or
   ((if indexed && decide (12 < o.ecode) then some ⟨.align, 0, w64 o.ecode⟩ else none).or
   ((if indexed then globalFault o.op3 4 0 else none).or
   ((if o.followAt = 0 then none else globalFault o.followAt 64 0).or
    (if plane && o.fmt == 1 && (o.width % 16 != 0 || o.flags.getLsbD 3) then some ⟨.mxForm, 0, 0⟩ else none))))

/-- The follow-on image of a command, read and checked: its fields, the ring it needs (R270). An uncorrectable word in it
has neither thread nor register, so that TRAPINFO is 0 (R294). -/
def followImage (s : State) (k : Client) (ring : Option Word) (a : Word) :
    Except OpFault (State × List Byte) :=
  match engRead s k false a.toNat 64 with
  | .error (e, x) => .error ⟨e, w64 x, if e = .eccUncorr then 0 else scalarInfo 0⟩
  | .ok (s1, bs) =>
    let kind := img bs 0 0 4
    if ring.isNone || decide (5 < kind) || !mxReservedOk bs || !mmaFieldsOk (img bs 0 32 16) (img bs 8 0 32) (img bs 0x10 0 32)
    then .error ⟨.mxForm, a, 0⟩ else .ok (s1, bs)

/-- The tag a follow-on image names (R273). -/
def imageTag (bs : List Byte) : Option (BitVec 6) :=
  if img bs 0 54 1 = 1 then none else some (BitVec.ofNat 6 (img bs 0 48 6))

/-! ### Posting and completing (R245, R249, R250, R270, R271) -/

/-- A change of the hoist command with an id. -/
def onHoist (s : State) (id : Nat) (f : HoistCmd → HoistCmd) : State :=
  { s with hoist := s.hoist.map fun h => if h.id = id then f h else h }

/-- The record of a follow-on as posted: TAG, NT, PRIO and CREW by the hardware, the addresses relocated
(R273, R321). -/
def followRecord (s : State) (k : Client) (f : Follow) : List Byte :=
  let c := s.crew? k.uid
  mxRecord (mxWord0 (img f.img 0 0 64) f.tag ((c.map (·.prio)).getD 0))
    (relocate k.g (img f.img 8 0 32)) (relocate k.g (img f.img 0x10 0 32)) (img f.img 0x18 0 32)
    ((c.map crewId).getD 0)

/-- The follow-on of a command given up: its slot becomes an MFENCE, and its tag falls as failed (R270). -/
def giveUpFollow (s : State) (k : Client) (f : Follow) (why : Cause) : State :=
  let c := s.crew? k.uid
  let s1 := ringFill s k f.ring f.slot (fenceRecord ((c.map (·.prio)).getD 0) ((c.map crewId).getD 0))
  completeTag s1 k.uid f.tag (some why)

/-- The follow-on of a command posted, its row scales read at that moment by word access, which corrects single-bit
errors; or the cause of a read that fails: MX_FORM for the checks of R88, ECC_UNCORR for an uncorrectable word, which
fails the command as other data an engine reads does (R72, R250, R270, R304). -/
def postFollow (s : State) (k : Client) (f : Follow) : Except Cause State :=
  let r := img f.img 0 16 7
  let put (s : State) (vals : List (BitVec 32)) : State :=
    let s1 := if vals = [] then s else { s with scales := s.scales ++ [⟨f.ring, k.uid, f.slot, vals⟩] }
    ringFill s1 k f.ring f.slot (followRecord s k f)
  if img f.img 0 15 1 = 0 then .ok (put s [])
  else if img f.img 0 0 4 = 2 then .error .mxForm
  else
    match rowScales k.g r (img f.img 0 23 1) with
    | none => .error .mxForm
    | some vals => if (rowBad k.g r).isSome then .error .eccUncorr else .ok (put (s.correct k.g (isRow r)) vals)

/-- A hoist command ends: tag, and the fault record of a failure (R245, R389). -/
def endHoist (s : State) (h : HoistCmd) (why : Option Fail) : State :=
  let s1 : State := { s with hoist := s.hoist.filter (·.id != h.id) }
  let s2 := match why with
    | none => s1
    | some f => crewFault s1 h.uid { cause := f.cause, addr := f.addr, obj := f.obj, tag := h.tag }
  settleExit (completeTag s2 h.uid h.tag (why.map (·.cause))) h.uid

/-- A command, or the running step of a chain, fails (R245, R249, R389). -/
def failHoist (s : State) (h : HoistCmd) (cause : Cause) (addr : Word) (followOn : Bool) : State :=
  let k := clientOf s h.uid
  let obj := if followOn then (h.follow.map (·.addr)).getD 0 else
    match h.chain with
    | none => 0
    | some (c, step) => c + w64 (64 * step)
  let s1 := match h.follow with
    | none => s
    | some f => giveUpFollow s k f cause
  endHoist s1 h (some ⟨cause, addr, obj⟩)

/-- A command whose chunks are all performed posts its follow-on; then it ends, or its chain goes on (R249, R250). Until
the next step begins, `HPROG` finds the chain at that step with 0 chunks (R272; DESIGN CHOICE, log 91). -/
def finishHoist (s : State) (h : HoistCmd) : State :=
  let k := clientOf s h.uid
  match (match h.follow with
    | none => Except.ok s
    | some f => postFollow s k f) with
  | .error e => failHoist s h e 0 true
  | .ok s1 =>
    match h.chain with
    | none => endHoist s1 h none
    | some (c, step) =>
      if h.last then endHoist s1 h none
      else onHoist s1 h.id fun h => { h with chain := some (c, step + 1), begun := false, follow := none, next := 0, total := 0 }

/-- The word of a chain step that holds a non-zero reserved bit or a function it may not have (R271). -/
def chainWordBad (bs : List Byte) : Bool :=
  decide (4 < img bs 0 0 4) || img bs 0 4 4 != 0 || img bs 0 16 47 != 0 || !((bs.drop 0x28).take 24).all (· == 0)

/-- The flags a function assigns (R266). -/
def flagsBad (o : HoistOp) : Bool :=
  match o.fn with
  | 3 => bits o.flags.toNat 1 7 != 0
  | 4 => decide (5 < o.fmt) || bits o.flags.toNat 5 3 != 0
  | _ => bits o.flags.toNat 2 6 != 0

/-- The operation in a chain word (R271). -/
def chainOp (bs : List Byte) : HoistOp :=
  { fn := img bs 0 0 4, flags := BitVec.ofNat 8 (img bs 0 8 8), op0 := w64 (img bs 8 0 64), op1 := w64 (img bs 0x10 0 64),
    op2 := w64 (img bs 0x18 0 64), op3 := w64 (img bs 0x20 0 64) }

/-- A step that has begun takes the slot and the count of its follow-on, or goes on waiting for them (R271). A step whose
crew has detached its ring while it waited fails as it would have at its beginning (DESIGN CHOICE, log 75), and one whose
ring has an uncorrectable control block fails with ECC_UNCORR (R304; log 40). -/
def takeFollow (s : State) (h : HoistCmd) (a : Word) (image : List Byte) : State :=
  let crew := s.crew? h.uid
  match crew.bind (·.ring) with
  | none => failHoist s h .mxForm a false
  | some ring =>
    let k := clientOf s h.uid
    let tag := imageTag image
    if ringSpoiled s k ring then failHoist s h .eccUncorr ring false
    else if !ringRoom s k ring || !((crew.map fun c => tagsFree c [tag]).getD true) then s
    else
      match ringReserve s k ring with
      | (s1, none) => onHoist s1 h.id fun h => { h with waits := none }
      | (s1, some slot) =>
        onHoist (s1.onCrew h.uid fun c => tagUp c tag) h.id fun h =>
          { h with waits := none, follow := some ⟨a, image, ring, slot, tag⟩ }

/-- A chain step begins: its word is read and checked, once, and its follow-on takes a slot and a count; where these are
not free the step waits, and no chunk of it is granted (R271). For a function of 5 to 15 or a non-zero reserved bit R271
names no cause: the chain fails with ILLEGAL (DESIGN CHOICE, log 75). -/
def beginStep (s : State) (h : HoistCmd) (c : Word) (step : Nat) : State :=
  let k := clientOf s h.uid
  if 65536 ≤ step then failHoist s h .illegal 0 false else
  match engRead s k false (c.toNat + 64 * step) 64 with
  | .error (e, a) => failHoist s h e (w64 a) false
  | .ok (s1, bs) =>
    let o := chainOp bs
    if chainWordBad bs || flagsBad o then failHoist s1 h .illegal 0 false else
    match opFault o with
    | some f => failHoist s1 h f.cause f.addr false
    | none =>
      let start (s : State) (w : Option (Word × List Byte)) : State :=
        onHoist s h.id fun h => { h with
          op := o, begun := true, last := img bs 0 63 1 == 1, follow := none, waits := w, next := 0, total := o.chunks }
      if o.followAt = 0 then start s1 none else
      match followImage s1 k ((s1.crew? h.uid).bind (·.ring)) o.followAt with
      | .error f => failHoist s1 h f.cause f.addr false
      | .ok (s2, image) => takeFollow (start s2 (some (o.followAt, image))) h o.followAt image

/-! ### Granting (R246, R247) -/

/-- The chunks in flight on a core's engine. -/
def inFlight (s : State) (core : Nat) : Nat :=
  total s.hoist fun h => (h.flight.filter (·.2 == core)).length

/-- A command has a chunk to grant. -/
def grantable (h : HoistCmd) : Bool := h.begun && h.waits.isNone && !h.stopped && decide (h.next < h.total)

/-- The command an engine takes its next chunk from: the oldest of its own queue, else of another of its cluster, the
lowest core first (R247). -/
def grantFrom (s : State) (core : Nat) : Option HoistCmd :=
  let of (c : Nat) : Option HoistCmd := s.hoist.find? fun h => h.core == c && grantable h && !frozen s h.uid
  (of core).or (((List.range 4).map fun i => 4 * clusterOf core + i).findSome? of)

/-- One chunk granted to an engine with fewer than four in flight. -/
def grantOne (s : State) (core : Nat) : State :=
  if 4 ≤ inFlight s core then s else
  match grantFrom s core with
  | none => s
  | some h => onHoist s h.id fun h => { h with next := h.next + 1, flight := h.flight ++ [(h.next, core)] }

/-- Chunks granted to the engines of a cluster, as many as each can hold. -/
def grantHoist (s : State) (cluster : Nat) : State :=
  ((List.range 4).flatMap fun i => List.replicate 4 (4 * cluster + i)).foldl grantOne s

/-- Every chunk of a command is granted and performed. -/
def HoistCmd.over (h : HoistCmd) : Bool := decide (h.total ≤ h.next) && h.flight == []

/-- The slot and the count that a step waits for are free, or can no longer be taken. -/
def followReady (s : State) (h : HoistCmd) (image : List Byte) : Bool :=
  match s.crew? h.uid with
  | none => true
  | some c =>
    match c.ring with
    | none => true
    | some ring =>
      let k := clientOf s h.uid
      ringSpoiled s k ring || (ringRoom s k ring && tagsFree c [imageTag image])

/-- Commands of a cluster that can go on without a chunk do so: steps begin, and what is performed is finished. -/
def advanceHoist (s : State) (cluster : Nat) : State :=
  (s.hoist.filter fun h => clusterOf h.core == cluster && !h.stopped).foldl (fun s h0 =>
    match s.hoist.find? (·.id == h0.id) with
    | none => s
    | some h =>
      match h.waits, h.chain with
      | some (a, image), _ => if frozen s h.uid then s else takeFollow s h a image
      | none, some (c, step) =>
        if !h.begun then (if frozen s h.uid then s else beginStep s h c step)
        else if h.over then finishHoist s h else s
      | none, none => if h.over then finishHoist s h else s) s

/-- The hoist engines of a cluster after something has changed. -/
def settleHoist (s : State) (cluster : Nat) : State := grantHoist (advanceHoist s cluster) cluster

/-- A chunk of a command of the cluster can be granted: an engine there has fewer than four in flight. After a context has
been put back, or goes on where it was to be moved, this is what resumes it (R247, R261, R322). -/
def chunkWaits (s : State) (cluster : Nat) : Bool :=
  (s.hoist.any fun h => clusterOf h.core == cluster && grantable h && !frozen s h.uid) &&
  (List.range 4).any fun i => decide (inFlight s (4 * cluster + i) < 4)

/-- Something waits in a hoist queue of the cluster: a chunk to be granted, a step to begin, or a command to finish. -/
def hoistWaiting (s : State) (cluster : Nat) : Bool :=
  chunkWaits s cluster ||
  s.hoist.any fun h => clusterOf h.core == cluster && !h.stopped &&
    match h.waits with
    | some (_, image) => !frozen s h.uid && followReady s h image
    | none => if h.begun then h.over else !frozen s h.uid

/-- The address that the record of a chunk gives whose bytes met a parity error in the hoist buffer: where the chunk
begins on the contiguous side, or in the planes it writes. -/
def HoistOp.chunkAt (o : HoistOp) (i : Nat) : Nat :=
  if o.fn = 4 then
    let per := (planesOf o.fmt + 1) / 2
    o.op0.toNat + (i / per * planesOf o.fmt + 2 * (i % per)) * 2048
  else o.contiguous + (o.span i).1

/-- HOIST_CHUNK_DONE: the chunk in the given place among those in flight on an engine is performed (R247); without
one, what waits goes on. -/
def execHoistChunkDone (core pick : Nat) (s : State) : Out :=
  let all := s.hoist.flatMap fun h => (h.flight.filter (·.2 == core)).map fun f => (h, f)
  .next (match all[pick]? with
    | none => settleHoist s (clusterOf core)
    | some (h, f) =>
      let h1 := { h with flight := h.flight.filter (· != f) }
      let s1 := onHoist s h.id fun _ => h1
      -- bytes with a parity error in the buffer are not written (R304)
      let s2 := if h.spoiled.contains f.1 then failHoist s1 h1 .eccUncorr (w64 (h.op.chunkAt f.1)) false else
        match runChunk s1 (clientOf s h.uid) h.op f.1 with
        | .error (e, a) => failHoist s1 h1 e (w64 a) false
        | .ok s2 => s2
      settleHoist s2 (clusterOf core))

/-! ### The words (R264 to R272) -/

/-- A hoist command queued: it is a release of everything the crew has done, and its tags are raised (R244, R246). -/
def queueHoist (s : State) (tag : Option (BitVec 6)) (o : HoistOp) (chain : Option (Word × Nat)) (fw : Option Follow) :
    State :=
  let h : HoistCmd :=
    { id := s.ids, uid := s.c.uid, core := s.c.core, tag := tag, op := o, chain := chain, begun := chain.isNone,
      last := false, follow := fw, waits := none, next := 0, total := if chain.isNone then o.chunks else 0, flight := [],
      spoiled := [], stopped := false, failed := none }
  let c1 := tagUp s.c tag
  let c2 := match fw with
    | none => c1
    | some f => tagUp c1 f.tag
  settleHoist (done { s with ids := s.ids + 1, hoist := s.hoist ++ [h], c := c2 }) (clusterOf s.c.core)

/-- The queue of the crew's core has a free place (R246). -/
def queueRoom (s : State) : Bool := decide ((s.hoist.filter fun h => h.core == s.c.core).length < 32)

/-- A failed check at issue. -/
def opTrap (s : State) (f : OpFault) : State := takeTrap s (trapHere s f.cause f.addr f.info)

/-- A data-moving word: checks at issue, then a place in the queue, the tag counts and a ring slot, for which it holds
(R265 to R270). -/
def moveWord (s : State) (tag : Option (BitVec 6)) (o : HoistOp) : State :=
  match opFault o with
  | some f => opTrap s f
  | none =>
    if unsettled s then hold s else
    let s1 := atHome s
    let k : Client := ⟨s1.g, s1.c.uid, s1.c.privl == 2⟩
    if o.followAt = 0 then
      if !queueRoom s1 || !tagsFree s1.c [tag] then hold s else queueHoist s1 tag o none none
    else
      match followImage s1 k s1.c.ring o.followAt with
      | .error f => opTrap s f
      | .ok (s2, image) =>
        let ring := s2.c.ring.getD 0
        if ringSpoiled s2 k ring then scalarEcc s ring 0
        else if !queueRoom s2 || !tagsFree s2.c [tag, imageTag image] || !ringRoom s2 k ring then hold s
        else
          match ringReserve s2 k ring with
          | (s3, none) => queueHoist s3 tag o none none
          | (s3, some slot) => queueHoist s3 tag o none (some ⟨o.followAt, image, ring, slot, imageTag image⟩)

/-- The operation of a word from its operand group (R267). -/
def groupOp (s : State) (fn : Nat) (flags : BitVec 8) (g : BitVec 6) : HoistOp :=
  { fn := fn, flags := flags, op0 := getG s.c g 0, op1 := getG s.c g 1, op2 := getG s.c g 2, op3 := getG s.c g 3 }

/-- The flags of a word whose bit 0 puts the destination and whose bit 1 puts the source in vault space. -/
def spaceFlags (x y : BitVec 1) : BitVec 8 := BitVec.ofNat 8 (x.toNat + 2 * y.toNat)

/-- HCOPY (R266, R268). -/
def execHcopy (t g : BitVec 6) (n y x : BitVec 1) (s : State) : Out :=
  issue (.hcopy t g n y x) s fun s => moveWord s (tagOf t n) (groupOp s 0 (spaceFlags x y) g)

/-- HGATH (R266, R268). -/
def execHgath (t g : BitVec 6) (n y x : BitVec 1) (s : State) : Out :=
  issue (.hgath t g n y x) s fun s => moveWord s (tagOf t n) (groupOp s 1 (spaceFlags x y) g)

/-- HSCAT (R266, R268). -/
def execHscat (t g : BitVec 6) (n y x : BitVec 1) (s : State) : Out :=
  issue (.hscat t g n y x) s fun s => moveWord s (tagOf t n) (groupOp s 2 (spaceFlags x y) g)

/-- HFILL (R266, R268). -/
def execHfill (t g : BitVec 6) (n x : BitVec 1) (s : State) : Out :=
  issue (.hfill t g n x) s fun s => moveWord s (tagOf t n) (groupOp s 3 (spaceFlags x 0) g)

/-- HPLANE (R266, R269). -/
def execHplane (t g : BitVec 6) (n y r : BitVec 1) (f : BitVec 3) (s : State) : Out :=
  issue (.hplane t g n y r f) s fun s =>
    moveWord s (tagOf t n) (groupOp s 4 (BitVec.ofNat 8 (f.toNat + 8 * r.toNat + 16 * y.toNat)) g)

/-- HCHAIN (R249, R271). -/
def execHchain (t g : BitVec 6) (n : BitVec 1) (s : State) : Out :=
  issue (.hchain t g n) s fun s =>
    let c := getS s.c g
    match globalFault c 64 0 with
    | some f => opTrap s f
    | none =>
      if unsettled s || !queueRoom s || !tagsFree s.c [tagOf t n] then hold s
      else queueHoist (atHome s) (tagOf t n) (groupOp s 0 0 g) (some (c, 0)) none

/-- A command is named by a control word: the issuing crew's, on the tag, or any of its own with `.nt` (R272). -/
def named (s : State) (tag : Option (BitVec 6)) (h : HoistCmd) : Bool :=
  h.uid == s.c.uid && (tag == none || h.tag == tag)

/-- HSTOP: granting ceases, and the crew holds until the chunks granted are performed (R261, R272). -/
def execHstop (t : BitVec 6) (n : BitVec 1) (s : State) : Out :=
  issue (.hstop t n) s fun s =>
    let s1 : State := { s with hoist := s.hoist.map fun h => if named s (tagOf t n) h then { h with stopped := true } else h }
    if s1.hoist.any fun h => named s (tagOf t n) h && h.flight != [] then hold s1 else done s1

/-- HRESUME (R272). -/
def execHresume (t : BitVec 6) (n : BitVec 1) (s : State) : Out :=
  issue (.hresume t n) s fun s =>
    let s1 : State := { s with hoist := s.hoist.map fun h => if named s (tagOf t n) h then { h with stopped := false } else h }
    settleHoist (done s1) (clusterOf s.c.core)

/-- HPROG: progress, chunks and state of the oldest incomplete command naming the tag (R272). -/
def execHprog (t g : BitVec 6) (s : State) : Out :=
  issue (.hprog t g) s fun s =>
    let put (a b c : Word) : State :=
      done { s with c := setS (setS (setS s.c g a) (BitVec.ofNat 6 (g.toNat + 1)) b) (BitVec.ofNat 6 (g.toNat + 2)) c }
    match s.hoist.find? fun h => h.uid == s.c.uid && h.tag == some t with
    | none => put 0 0 0
    | some h =>
      put (w64 (2 ^ 32 * ((h.chain.map (·.2)).getD 0) + h.next)) (w64 h.total) (if h.stopped then 2 else 1)

end Sys2Proof.Machine
end

