-- ==== Sys2Proof/Machine/Publish.lean ====
section
/-!
DEFINITION. Publishing (spec/19_engines.md, R262, R263; spec/15_consistency.md, R206) and the meanings of the PUB words
(spec/20_engine_instructions.md, R283, R284).
-/

namespace Sys2Proof.Machine

/-- The trap of a `PUBLISH` without an entry. -/
def publishTrap (s : State) (va : Word) : State := scalarFault s .xlate va 0

/-- PUBLISH: a release of the crew's earlier accesses; then the crew is held until the flip is made (R206, R283). -/
def execPublish (a : BitVec 6) (s : State) : Out :=
  issue (.publish a) s fun s =>
    let va := getS s.c a
    match pubAt s s.part (galAsn s.g) va.toNat with
    | none => publishTrap s va
    | some p =>
      if unsettled s then hold s
      else
        let s1 := atHome s
        { s1 with
          flips := s1.flips ++ [⟨p.part, p.idx, s1.c.uid, none⟩]
          c := { s1.c with status := .flipping } }

/-- The live bit of an entry flipped. -/
def flip (s : State) (part idx : Nat) : State :=
  { s with pubs := s.pubs.map fun p => if p.part = part ∧ p.idx = idx then { p with live := !p.live } else p }

/-- The state of a collective as `CSTAT` reports it (R343). -/
def setStat (c : Crew) (id : Nat) (status : BitVec 2) (cause : BitVec 8) (peer : Option (BitVec 8)) : Crew :=
  { c with colls := c.colls.map fun x => if x.id = id then { x with status := status, cause := cause, peer := peer } else x }

/-- A crew whose `PUBLISH` has been made goes on at the next word. -/
def flipDone (c : Crew) : Crew := if c.status = .flipping then c.past else c

/-- PUBLISH_FLIP: one flip is made at the directory; the crew goes on, or the collective completes (R206, R342). -/
def execPublishFlip (pick : Nat) (s : State) : Out :=
  .next (match s.flips[pick]? with
    | none => s
    | some f =>
      let s1 := flip { s with flips := s.flips.eraseIdx pick } f.part f.idx
      match f.coll with
      | none => s1.onCrew f.uid flipDone
      | some (tag, id) => settleExits (completeTag (s1.onCrew f.uid fun c => setStat c id 2 0 none) f.uid tag none))

/-- Word 0x18 of an entry, with its index (R262, R283). -/
def pubWord (p : PubEntry) : Nat := p.asn + 2 ^ 16 + bitAt p.live 17 + 2 ^ 24 * p.idx

/-- PUBQRY (R283). -/
def execPubqry (d a : BitVec 6) (s : State) : Out :=
  issue (.pubqry d a) s fun s =>
    doneS s d (w64 ((pubAt s s.part (galAsn s.g) (getS s.c a).toNat).elim 0 pubWord))

/-- The fields of an image of a table entry (R262). -/
structure PubImage where
  vbase  : Nat
  size   : Nat
  pbase0 : Nat
  pbase1 : Nat
  valid  : Bool
  asn    : Nat
  /-- A reserved bit is set. -/
  rsvd   : Bool

/-- The image in 32 bytes. -/
def pubImage (bs : List Byte) : PubImage :=
  { vbase := 2 ^ 21 * img bs 0 21 36, size := img bs 0 0 4, pbase0 := 2 ^ 21 * img bs 8 21 31,
    pbase1 := 2 ^ 21 * img bs 0x10 21 31, valid := img bs 0x18 16 1 == 1, asn := img bs 0x18 0 16
    rsvd := img bs 0 57 7 != 0 || img bs 0 4 17 != 0 || img bs 8 52 12 != 0 || img bs 8 0 21 != 0 ||
      img bs 0x10 52 12 != 0 || img bs 0x10 0 21 != 0 || img bs 0x18 18 46 != 0 }

/-- Two ranges of bytes meet. -/
def rangesMeet (a n b m : Nat) : Bool := decide (a < b + m) && decide (b < a + n)

/-- The reason for which a `PUBSET` is refused (R284): of several that hold, the lowest number (DESIGN CHOICE, log 92). -/
def pubReason (s : State) (idx : Word) (i : PubImage) : Option Nat :=
  let n := 2 ^ (21 + i.size)
  if 255 < idx.toNat then some 1
  else if 8 < i.size then some 2
  else if i.vbase % n ≠ 0 || i.pbase0 % n ≠ 0 || i.pbase1 % n ≠ 0 then some 3
  else if i.valid && s.pubs.any (fun p => p.part == s.part && p.idx != idx.toNat && p.asn == i.asn &&
      rangesMeet p.vbase (2 ^ (21 + p.size)) i.vbase n) then some 4
  else if i.valid && s.pubs.any (fun p => p.part == s.part && p.idx == idx.toNat) then some 5
  else if s.c.privl = 1 && i.asn != galAsn s.g then some 6
  else if 0xA000000000 < i.pbase0 + n || 0xA000000000 < i.pbase1 + n then some 7
  else if i.rsvd then some 8 else none

/-- An entry written: a valid image with its live side 0, else the entry is free (R284). -/
def putEntry (s : State) (idx : Nat) (i : PubImage) : State :=
  let rest := s.pubs.filter fun p => !(p.part == s.part && p.idx == idx)
  { s with pubs := if i.valid then rest ++ [⟨s.part, idx, i.vbase, i.size, i.pbase0, i.pbase1, false, i.asn⟩] else rest }

/-- PUBSET (R284). -/
def execPubset (a b : BitVec 6) (s : State) : Out :=
  issue (.pubset a b) s fun s =>
    let addr := getS s.c b
    scalarAccess s needR addr 32 32 0 fun p =>
      if ownPoisoned s false p.pa 32 then scalarEcc s addr 0 else
      let i := pubImage (ownBytes s false p.pa 32)
      match pubReason s (getS s.c a) i with
      | some n => takeTrap s (trapHere s .perm addr (w64 n))
      | none => done (putEntry s (getS s.c a).toNat i)

end Sys2Proof.Machine
end

