-- ==== Sys2Proof/Machine/Coll.lean ====
section
/-!
DEFINITION. Collectives (spec/26_dies_host_drift.md, R336 to R343) and the silence of a Pacer peer (spec/27, R353).
-/

namespace Sys2Proof.Machine

/-! ### Operands and the descriptor (R337) -/

/-- The element size of a `CRED` operator. -/
def credSize (op : Nat) : Nat :=
  match op with
  | 0 => 4 | 3 => 4 | 4 => 4 | 10 => 2 | _ => 8

/-- One step of a `CRED` fold (R340). -/
def credOp (op a b : Nat) : Nat :=
  match op with
  | 0 => (fp32.add 0 a b).bits
  | 1 => (fp64.add 0 a b).bits
  | 2 => addSub 64 a b
  | 3 => (fp32.minmax true a b).bits
  | 4 => (fp32.minmax false a b).bits
  | 5 => maxSub 0 64 a b
  | 6 => minSub 0 64 a b
  | 7 => a &&& b
  | 8 => a ||| b
  | 9 => a ^^^ b
  | _ => (bf16.add 0 a b).bits

/-- A value of a `CRED` as it is written: a NaN of a floating-point operator is canonical (R81, R340). -/
def credWritten (op x : Nat) : Nat :=
  match op with
  | 0 => fp32.canon x
  | 1 => fp64.canon x
  | 3 => fp32.canon x
  | 4 => fp32.canon x
  | 10 => bf16.canon x
  | _ => x

/-- A collective as its operand group gives it: 0 `CRED`, 1 `CGATH`, 2 `CBCAST`. -/
structure CollOp where
  fn   : Nat
  pub  : Bool
  root : Bool
  dest : Word
  src  : Word
  head : Nat
  desc : Word

def CollOp.n (o : CollOp) : Nat := bits o.head 0 32
def CollOp.op (o : CollOp) : Nat := bits o.head 32 4
def CollOp.e (o : CollOp) : Nat := bits o.head 36 4
def CollOp.rootId (o : CollOp) : Nat := bits o.head 40 8

/-- The element size (R337). -/
def CollOp.size (o : CollOp) : Nat := if o.fn = 0 then credSize o.op else 2 ^ o.e

/-- The bytes this member reads at S: in a broadcast the root alone has any (R341). -/
def CollOp.reads (o : CollOp) (self : Nat) : Nat := if o.fn = 2 && o.rootId != self then 0 else o.n * o.size

/-- The bytes this member writes at D: with ROOT the root alone writes (R340, R341). -/
def CollOp.writes (o : CollOp) (self members : Nat) : Nat :=
  if o.root && o.rootId != self then 0 else o.n * o.size * (if o.fn = 1 then members else 1)

/-! ### The checks at issue (R338) -/

/-- The first address of a run of bytes, page by page, whose access fails, with its cause. -/
def runFault (s : State) (need : Need) (a : Nat) : Nat → Option (Cause × Nat)
  | 0 => none
  | k + 1 =>
    match runFault s need a k with
    | some e => some e
    | none =>
      let x := if k = 0 then a else 4096 * (a / 4096 + k)
      match crewXlate s need x with
      | .error e => some (e, x)
      | .ok _ => none

/-- The 4 KiB pages a run of bytes touches. -/
def pagesOf (a n : Nat) : Nat := if n = 0 then 0 else (a + n - 1) / 4096 - a / 4096 + 1

/-- The checks of R57 for an address of the group and the bytes from it. -/
def collFault (s : State) (need : Need) (a : Word) (align n kind : Nat) : Option OpFault :=
  if 2 ^ 57 ≤ a.toNat || 2 ^ 57 < a.toNat + n then some ⟨.xlate, a, scalarInfo kind⟩
  else if a.toNat % align ≠ 0 then some ⟨.align, a, scalarInfo kind⟩
  else (runFault s need a.toNat (pagesOf a.toNat n)).map fun (e, x) => ⟨e, w64 x, scalarInfo kind⟩

/-- The bytes written lie wholly within one valid entry (R338). -/
def pubHolds (s : State) (a n : Nat) : Bool :=
  n == 0 ||
  match pubAt s s.part (galAsn s.g) a with
  | none => false
  | some p => decide (a + n ≤ p.vbase + 2 ^ (21 + p.size))

/-- COLL_FORM of a descriptor's members and of the ranges (R338). -/
def collBad (s : State) (o : CollOp) (members : BitVec 256) : Bool :=
  let self := s.pacer.self.toNat
  let w := o.writes self (viewMembers members).length
  let r := o.reads self
  !members.getLsbD self || !members.getLsbD o.rootId || decide (2 ^ 36 < w) ||
  (w != 0 && r != 0 && rangesMeet o.dest.toNat w o.src.toNat r) || (o.pub && !pubHolds s o.dest.toNat w)

/-! ### The end of a collective (R340 to R342) -/

/-- A collective of this member that is over leaves the list. -/
def dropColl (s : State) (c : Coll) : State := { s with colls := s.colls.filter (·.id != c.id) }

/-- A collective fails: its record, its tag, and what `CSTAT` reports; no `PUBLISH` is made (R342, R389). -/
def failColl (s : State) (c : Coll) (cause : Cause) (detail : Nat) (peer : Option (BitVec 8)) : State :=
  let s1 := crewFault (dropColl s c) c.uid
    { cause := cause, detail := detail, obj := c.desc, tag := c.tag, peer := (peer.getD 0).toNat }
  let s2 := s1.onCrew c.uid fun k => setStat k c.id 3 (BitVec.ofNat 8 cause.code) peer
  settleExits (completeTag s2 c.uid c.tag (some cause))

/-- What a member sent. -/
def Coll.sent (c : Coll) (m : Nat) : Option (Word × List Byte) :=
  match c.got.find? fun (x : BitVec 8 × Word × List Byte) => x.1.toNat == m with
  | none => none
  | some x => some x.2

/-- The data a member sent; none before it is heard from. -/
def Coll.dataOf (c : Coll) (m : Nat) : List Byte :=
  match c.sent m with
  | none => []
  | some x => x.2

/-- Element `j` of what a member sent. -/
def Coll.elem (c : Coll) (m j : Nat) : Nat :=
  ofBytes (((c.dataOf m).drop (c.esize * j)).take c.esize)

/-- The members that have not been heard from. -/
def Coll.missing (c : Coll) : List Nat := (viewMembers c.members).filter fun m => (c.sent m).isNone

/-- The bytes a complete collective writes at D (R340, R341). -/
def Coll.result (c : Coll) : List Byte :=
  let ms := viewMembers c.members
  let data (m : Nat) : List Byte :=
    (c.dataOf m ++ List.replicate (c.count * c.esize) 0).take (c.count * c.esize)
  if c.fn = 2 then data c.rootId.toNat
  else if c.fn = 1 then ms.flatMap data
  else (List.range c.count).flatMap fun j =>
    toBytes c.esize (credWritten c.op (match ms with
      | [] => 0
      | m :: l => l.foldl (fun r m => credOp c.op r (c.elem m j)) (c.elem m j)))

/-- The lowest member whose values differ from the lowest member's (R339). -/
def Coll.differing (c : Coll) : Option Nat :=
  match viewMembers c.members with
  | [] => none
  | m :: l => l.find? fun k => ((c.sent k).map fun x => x.1) != ((c.sent m).map fun x => x.1)

/-- A collective that has every member's data: the writes at D, then the `PUBLISH` or the tag (R342). -/
def completeColl (s : State) (c : Coll) : State :=
  match c.differing with
  | some m => failColl s c .collForm m none
  | none =>
    let writes := !c.root || c.rootId == s.pacer.self
    let k := clientOf s c.uid
    match (if writes then engWrite s k false [(c.dest.toNat, c.result)] else .ok s) with
    | .error (e, _) => failColl s c e 0 none
    | .ok s1 =>
      let entry := if c.pub then pubAt s1 k.g.rcd.part (galAsn k.g) c.dest.toNat else none
      let s2 := dropColl s1 c
      match entry with
      | some p => { s2 with flips := s2.flips ++ [⟨p.part, p.idx, c.uid, some (c.tag, c.id)⟩] }
      | none => settleExits (completeTag (s2.onCrew c.uid fun x => setStat x c.id 2 0 none) c.uid c.tag none)

/-- A collective goes on as far as the data it has allows. -/
def advanceColl (s : State) (c : Coll) : State := if c.missing = [] then completeColl s c else s

/-! ### The words (R336 to R339, R343) -/

/-- The queue of the die's collective engine has a free place (R336). -/
def collRoom (s : State) : Bool :=
  decide ((s.colls.filter fun c => c.die == dieOfCore s.c.core).length < 64)

/-- The notes held for a collective. -/
def notesFor (s : State) (gid : BitVec 16) (seq : Word) : List CollNote :=
  s.collNotes.filter fun x => x.gid == gid && x.seq == seq

/-- A new collective enters the engine with its own data and what has arrived already, or fails as the others have. -/
def enterColl (s : State) (c : Coll) (tag : Option (BitVec 6)) (own : List Byte) : State :=
  let notes := notesFor s c.gid c.seq
  let c1 := { c with
    got := (s.pacer.self, c.head, own) ::
      (notes.filter fun x => x.fail.isNone && c.members.getLsbD x.member.toNat).map fun x => (x.member, x.head, x.data) }
  let stat (t : BitVec 6) (k : Crew) : Crew :=
    { k with colls := (k.colls.filter (·.tag != t)) ++ [⟨c.id, t, 1, 0, none, c.seq⟩] }
  let s1 : State := { s with
    colls := s.colls ++ [c1]
    collNotes := s.collNotes.filter fun x => !(x.gid == c.gid && x.seq == c.seq)
    c := match tag with
      | none => s.c
      | some t => stat t (tagUp s.c tag) }
  match notes.findSome? (·.fail) with
  | some (why, peer) => failColl s1 c1 why 0 (some peer)
  | none => advanceColl s1 c1

/-- The issue of a checked collective: SEQ is fetched and incremented in one slice step, and S is read (R339). -/
def postColl (s : State) (o : CollOp) (tag : Option (BitVec 6)) (g : Place) : State :=
  let seq := readNat s (g.pa + 8) 8
  let tmo := readNat s (g.pa + 4) 4
  let c : Coll :=
    { id := s.ids, die := dieOfCore s.c.core, uid := s.c.uid, tag := tag, fn := o.fn, pub := o.pub, root := o.root,
      dest := o.dest, op := o.op, count := o.n, esize := o.size, rootId := BitVec.ofNat 8 o.rootId, desc := o.desc,
      gid := BitVec.ofNat 16 (readNat s g.pa 2), seq := w64 seq, members := BitVec.ofNat 256 (readNat s (g.pa + 0x10) 32),
      head := w64 (bits o.head 0 48), got := [], issued := s.timens, tmo := if tmo = 0 then 1000 else tmo }
  let s1 : State := { (performNat s (g.pa + 8) 8 ((seq + 1) % 2 ^ 64)) with ids := s.ids + 1 }
  let k : Client := ⟨s1.g, s1.c.uid, s1.c.privl == 2⟩
  match engRead s1 k false o.src.toNat (o.reads s1.pacer.self.toNat) with
  | .ok (s2, own) => done (enterColl s2 c tag own)
  | .error (e, _) =>
    let s2 := enterColl { s1 with collNotes := [] } { c with members := BitVec.allOnes 256 } tag []
    done (failColl { s2 with collNotes := s1.collNotes } c e 0 none)

/-- The checks of a collective before its descriptor is read: the operator and e, then S, D and G (R338). -/
def groupFault (s : State) (o : CollOp) : Option OpFault :=
  if (o.fn = 0 && decide (10 < o.op)) || (o.fn ≠ 0 && decide (12 < o.e)) then some ⟨.collForm, o.desc, 0⟩
  else
    let self := s.pacer.self.toNat
    ((collFault s needW o.dest o.size 0 1).or (collFault s needR o.src o.size (o.reads self) 0)).or
      (collFault s needRW o.desc 64 64 2)

/-- A collective word (R336 to R339). -/
def collWord (s : State) (tag : Option (BitVec 6)) (o : CollOp) : State :=
  match groupFault s o with
  | some f => opTrap s f
  | none =>
    match crewXlate s needRW o.desc.toNat with
    | .error e => scalarFault s e o.desc 2
    | .ok g =>
      if redqMeets s g.pa 64 || fenced s needR then hold s else
      let self := s.pacer.self.toNat
      let members : BitVec 256 := BitVec.ofNat 256 (ownNat s false (g.pa + 0x10) 32)
      if ownedByHw s g.pa 64 true then scalarFault s .perm o.desc 2
      else if ownPoisoned s false g.pa 64 then scalarEcc s o.desc 0
      else if collBad s o members then takeTrap s (trapHere s .collForm o.desc 0)
      else
        match collFault s needW o.dest o.size (o.writes self (viewMembers members).length) 1 with
        | some f => opTrap s f
        | none =>
          if unsettled s || !collRoom s || !tagsFree s.c [tag] then hold s else postColl (atHome s) o tag g

/-- The operands of a collective word. -/
def collOp (s : State) (fn : Nat) (root pub : BitVec 1) (g : BitVec 6) : CollOp :=
  { fn := fn, pub := pub == 1, root := root == 1, dest := getG s.c g 0, src := getG s.c g 1
    head := (getG s.c g 2).toNat, desc := getG s.c g 3 }

/-- CRED (R340). -/
def execCred (t g : BitVec 6) (n r p : BitVec 1) (s : State) : Out :=
  issue (.cred t g n r p) s fun s => collWord s (tagOf t n) (collOp s 0 r p g)

/-- CGATH (R341). -/
def execCgath (t g : BitVec 6) (n r p : BitVec 1) (s : State) : Out :=
  issue (.cgath t g n r p) s fun s => collWord s (tagOf t n) (collOp s 1 r p g)

/-- CBCAST (R341). -/
def execCbcast (t g : BitVec 6) (n p : BitVec 1) (s : State) : Out :=
  issue (.cbcast t g n p) s fun s => collWord s (tagOf t n) (collOp s 2 0 p g)

/-- CSTAT (R343). -/
def execCstat (t g : BitVec 6) (s : State) : Out :=
  issue (.cstat t g) s fun s =>
    let put (a b c : Word) : State :=
      done { s with c := setS (setS (setS s.c g a) (BitVec.ofNat 6 (g.toNat + 1)) b) (BitVec.ofNat 6 (g.toNat + 2)) c }
    match s.c.colls.find? (·.tag == t) with
    | none => put 0 0 0
    | some x =>
      put (w64 (x.status.toNat + 2 ^ 8 * x.cause.toNat))
        (w64 ((x.peer.getD 0).toNat + bitAt x.peer.isSome 8)) x.seq

/-! ### Data, timeouts and silence (R342, R353) -/

/-- A failure told by another member, as the head of what arrives: bit 63, with PEER in bits 7:0 (log 38). -/
def failureHead (head : Word) : Option (BitVec 8) := if head.getLsbD 63 then some (head.setWidth 8) else none

/-- COLLECTIVE_DATA_ARRIVAL: a member's data, or its word that the collective has failed, reaches this part (R342). -/
def execCollectiveDataArrival (member : BitVec 8) (gid : BitVec 16) (seq head : BitVec 64) (data : List (BitVec 8))
    (s : State) : Out :=
  .next (match s.colls.find? fun c => c.gid == gid && c.seq == seq with
    | none =>
      { s with collNotes := s.collNotes ++
        [⟨gid, seq, (failureHead head).map fun p => (.collTimeout, p), member, head, data⟩] }
    | some c =>
      match failureHead head with
      | some p => failColl s c .collTimeout 0 (some p)
      | none =>
        if !c.members.getLsbD member.toNat || (c.sent member.toNat).isSome then s
        else
          let c1 := { c with got := c.got ++ [(member, head, data)] }
          advanceColl { s with colls := s.colls.map fun x => if x.id = c.id then c1 else x } c1)

/-- The member cannot be reached: no port to it is up (R335). -/
def unreachable (s : State) (m : Nat) : Bool := m != s.pacer.self.toNat && (portTo s m).isNone

/-- The collective has run out of time, or a member of it cannot be reached (R342). -/
def collOver (s : State) (c : Coll) : Bool :=
  decide (c.issued.toNat + 1000 * c.tmo ≤ s.timens.toNat) ||
    (viewMembers c.members).any (unreachable s)

/-- A collective fails on the members it has not heard from (R342). -/
def timeoutColl (s : State) (c : Coll) : State := failColl s c .collTimeout 0 (c.missing.head?.map (BitVec.ofNat 8))

/-- COLL_TIMEOUT (R342). -/
def execCollTimeout (pick : Nat) (s : State) : Out :=
  .next (match s.colls[pick]? with
    | none => s
    | some c => if collOver s c then timeoutColl s c else s)

/-- The regions that have a collective in flight, each by a crew that issued one. -/
def collRegions (s : State) : List (Nat × Nat) :=
  (s.colls.map fun c => (((s.galOf c.uid).map (·.rcd.block)).getD 0, c.uid)).foldl
    (fun l x => if l.any (·.1 == x.1) then l else l ++ [x]) []

/-- A PACE_SILENT record for a region (R353). -/
def silentRecord (peer : BitVec 8) (s : State) (x : Nat × Nat) : State :=
  match s.galOf x.2 with
  | none => s
  | some g => regionFault s g.rcd { cause := .paceSilent, peer := peer.toNat }

/-- The member applies 40 at once and holds it; the lowest survivor sends VIEW without the silent member, and when
every survivor has granted that, proposes the least surviving limit (R353). -/
def Pacer.silence (p : Pacer) (peer : Nat) (now : Nat) : Pacer :=
  let view := p.view &&& ~~~ memberBit peer
  let p1 := { p with
    ceil := 40, walkhold := true, breach := false, view := view, limits := store 0 p.limits peer 0
    heard := store 0 p.heard peer 0, proposal := none, waiting := none }
  if !p1.isCoordinator then p1
  else
    let p2 := p1.stampView 40 now view
    let p3 := { p2 with proposal := some (p2.stamped, 0, memberBit p2.self.toNat), asked := now }
    (p3.conclude now).conclude now

/-- A member whose answer to the proposal or the view under way has not come within 200 µs (R349, R353). -/
def Pacer.unanswered (p : Pacer) (m : Nat) (now : Nat) : Bool :=
  match p.proposal with
  | none => false
  | some (_, _, got) => p.isCoordinator && !got.getLsbD m && decide (p.asked + 200000 ≤ now)

/-- The coordinator has not answered this member's LOWER for 200 µs (R353; log 50). -/
def Pacer.deserted (p : Pacer) (m : Nat) (now : Nat) : Bool :=
  match p.waiting with
  | none => false
  | some t => m == p.coordinator && decide (t + 200000 ≤ now)

/-- A member is silent: nothing has been heard of it for 200 µs, or an answer of its has not come within 200 µs
(R349, R353). -/
def silentNow (s : State) (m : Nat) : Bool :=
  m != s.pacer.self.toNat && s.pacer.view.getLsbD m &&
  (decide (look 0 s.pacer.heard m + 200000 ≤ s.timens.toNat) || s.pacer.unanswered m s.timens.toNat ||
   s.pacer.deserted m s.timens.toNat)

/-- PEER_SILENT (R353). -/
def execPeerSilent (peer : BitVec 8) (s : State) : Out :=
  .next (if !silentNow s peer.toNat then s else
    let s1 := (collRegions s).foldl (silentRecord peer) (onPacer s fun p now => p.silence peer.toNat now)
    (s1.colls.filter fun c => c.members.getLsbD peer.toNat).foldl timeoutColl s1)

/-- The members that a change of view expels: they were of it, are no longer, and had not announced that they leave. A
member whose own LEAVE takes effect is expelled by nobody (R342, R350). -/
def Pacer.expelled (p q : Pacer) : List Nat :=
  if p.leaving.isSome && q.leaving.isNone then []
  else (viewMembers p.view).filter fun m => !q.view.getLsbD m && !p.leavers.any fun l => l.1.toNat == m

/-- LAP_APPLY: the laps whose time has come are applied, and the collectives of a member that a view expels fail
(R342, R346). -/
def execLapApply (s : State) : Out :=
  let s1 := onPacer s Pacer.applyDue
  let gone := s.pacer.expelled s1.pacer
  .next ((s1.colls.filter fun c => gone.any fun m => c.members.getLsbD m).foldl timeoutColl s1)

end Sys2Proof.Machine
end

