-- ==== Sys2Proof/Machine/Memory.lean ====
section
/-!
DEFINITION. The meanings of the memory, atomic, fence and reduction words of spec/16_memory_instructions.md
(R209 to R225) and of `LDS` and `STS` (R57, R58). The vault words reach the control block of a foreman core through
spec/28_bring_up.md (R363); those arms stand in Host.lean.
-/

namespace Sys2Proof.Machine

/-! ### LDS and STS (R57, R58, R214) -/

/-- LDS, plain or as an acquire: the value is read at issue and lands later (R57, R58, R214). -/
def execLds (z : BitVec 2) (o : BitVec 1) (d a : BitVec 6) (i : BitVec 9) (s : State) : Out :=
  issue (.lds z o d a i) s fun s =>
    let addr := scalarAddr s a i z
    loadAccess s addr (sizeOf z) (sizeOf z) fun p =>
      if ownPoisoned s false p.pa (sizeOf z) then
        let s1 := deferEcc s addr 0 d.toNat
        done (if d.toNat = 0 then s1 else { s1 with c := markOut s1.c (.s d) })
      else landScalar s d (w64 (ownNat s false p.pa (sizeOf z)))

/-- STS, plain or as a release: the data is read at issue; a release is performed after every earlier access (R57, R58,
R214). -/
def execSts (z : BitVec 2) (o : BitVec 1) (d a : BitVec 6) (i : BitVec 9) (s : State) : Out :=
  issue (.sts z o d a i) s fun s =>
    storeAccess s (scalarAddr s a i z) (sizeOf z) (sizeOf z) fun p =>
      done (queueStore s (o == 1) [⟨false, p.home, p.pa, toBytes (sizeOf z) (getS s.c d).toNat⟩])

/-! ### LD and ST (R209 to R213) -/

/-- The threads of a load that met an uncorrectable word; the lowest is reported, at the next header (R294, R304). -/
def reportPoison (s : State) (d : BitVec 7) (bad : List (Nat × Nat)) : State :=
  match bad with
  | [] => s
  | (t, a) :: _ => deferEcc s (w64 a) t d.toNat

/-- LD, plain or as an acquire (R210, R213). -/
def execLd (z : BitVec 2) (d a : BitVec 7) (r : BitVec 1) (f : BitVec 6) (s : State) : Out :=
  issue (.ld z d a r f) s fun s =>
    let n := sizeOf z
    laneAccess s (laneAddr s a z f) (fun x => checkGlobal s needR x n n) 0 fun l =>
      laneUnless s l n (fun s pa n => redqMeets s pa n || fenced s needR) <|
      let bad := (l.filter fun x => ownPoisoned s false x.2.2.pa n).map fun x => (x.1, x.2.1)
      landLanes (reportPoison s d bad) d (l.map (·.1))
        (fun t => (l.find? (·.1 == t)).bind fun x =>
          if ownPoisoned s false x.2.2.pa n then none else some (w64 (ownNat s false x.2.2.pa n)))
        (fun _ => 0)

/-- ST, plain or as a release: the highest thread that names a byte writes it (R193, R210, R213). -/
def execSt (z : BitVec 2) (d a : BitVec 7) (r : BitVec 1) (f : BitVec 6) (s : State) : Out :=
  issue (.st z d a r f) s fun s =>
    let n := sizeOf z
    laneAccess s (laneAddr s a z f) (fun x => checkGlobal s needW x n n) 1 fun l =>
      laneUnless s l n redqMeets <|
        done (queueStore s (r == 1) ((lastWriters l).map fun x =>
          ⟨false, x.2.2.home, x.2.2.pa, toBytes n (reg s x.1 d).toNat⟩))

/-! ### Atomics (R215 to R218) -/

/-- The new value of an atomic at a width of 32 or 64 bits, or none for a CAS that fails (R215). -/
def atomicNew (p : BitVec 4) (w old x cmp : Nat) : Option Nat :=
  let k : FFmt := if w = 32 then fp32 else fp64
  match p.toNat with
  | 0 => some (addSub w old x)
  | 1 => some (subSub w old x)
  | 2 => some (minSub 0 w old x)
  | 3 => some (maxSub 0 w old x)
  | 4 => some (minSub 1 w old x)
  | 5 => some (maxSub 1 w old x)
  | 6 => some (old &&& x)
  | 7 => some (old ||| x)
  | 8 => some (old ^^^ x)
  | 9 => some x
  | 10 => if old = cmp then some x else none
  | 11 => some (k.add 0 old x).bits
  | 12 => some (k.minmax false old x).bits
  | _ => some (k.minmax true old x).bits

/-- One atomic at its home slice: the old value, and the state after (R191, R215). -/
def atomicAt (s : State) (p : BitVec 4) (pa n x cmp : Nat) : Nat × State :=
  let old := readNat s pa n
  match atomicNew p (8 * n) old (x % 2 ^ (8 * n)) (cmp % 2 ^ (8 * n)) with
  | none => (old, s)
  | some v => (old, performNat s pa n v)

/-- The order field of an atomic includes a release. -/
def releases (r : BitVec 2) : Bool := r.getLsbD 1

/-- The threads of an atomic applied in ascending order; the old values they receive (R193, R216). -/
def atomThreads (p : BitVec 4) (n : Nat) (x cmp : Nat → Nat) :
    List (Nat × Nat × Place) → State → List (Nat × Word) → List (Nat × Word) × State
  | [], s, got => (got, s)
  | (t, _, pl) :: l, s, got =>
    let r := atomicAt s p pl.pa n (x t) (cmp t)
    atomThreads p n x cmp l r.2 (got ++ [(t, w64 r.1)])

/-- Uncorrectable words under a lane access that is no load: a trap at the word (R304). -/
def lanePoison (s : State) (l : List (Nat × Nat × Place)) (n : Nat) (d : BitVec 7) : Option TrapReq :=
  (l.find? fun x => poisoned s false x.2.2.pa n).map fun x =>
    trapHere s .eccUncorr (w64 x.2.1) (w64 (x.1 + 2 ^ 16 * d.toNat))

/-- ATOM: every thread is translated first; for CAS the compare value is in vd and the new value in vd + 1 (R216). -/
def execAtom (z : BitVec 1) (d a : BitVec 7) (p : BitVec 4) (r : BitVec 2) (s : State) : Out :=
  issue (.atom z d a p r) s fun s =>
    let n := if z = 1 then 8 else 4
    laneAccess s (fun t => (reg s t a).toNat) (fun x => checkGlobal s needRW x n n) 2 fun l =>
      laneUnless s l n (homeWaits · needRW) <|
      if releases r && unsettled s then hold s else
      let s := atHome s
      match lanePoison s l n d with
      | some t => takeTrap s t
      | none =>
        let cas := p == 10
        let op (t : Nat) : Nat := if cas then (reg s t (d + 1)).toNat else (reg s t d).toNat
        let (got, s1) := atomThreads p n op (fun t => (reg s t d).toNat) l s []
        landLanes (ackLater s1) d (l.map (·.1)) (fun t => (got.find? (·.1 == t)).map (·.2)) (fun _ => 0)

/-- ATOMS (R217). -/
def execAtoms (p : BitVec 4) (d a b : BitVec 6) (z : BitVec 1) (o : BitVec 2) (s : State) : Out :=
  issue (.atoms p d a b z o) s fun s =>
    let n := if z = 1 then 8 else 4
    scalarAccess s needRW (getS s.c a) n n 2 fun pl =>
      if releases o && unsettled s then hold s else
      let s := atHome s
      if poisoned s false pl.pa n then scalarEcc s (getS s.c a) d.toNat
      else
        let r := atomicAt s p pl.pa n (getS s.c d).toNat (getS s.c b).toNat
        landScalar (ackLater r.2) d (w64 r.1)

/-! ### Fences (R18, R194, R219) -/

/-- FENCE: stalls until every earlier access is performed (R219; log 9). -/
def execFence (s : State) : Out :=
  issue .fence s fun s => if s.c.stores = [] && !unsettled s then done s else hold s

/-- FENCE.A: the values of earlier loads are fixed already, and no copy of memory is kept that could be stale; later accesses
wait for the reads of reductions still to be answered (R190, R194, R219; log 9, log 82). -/
def execFenceA (s : State) : Out :=
  issue .fenceA s fun s => done { s with c := { s.c with redq := s.c.redq.map fun x => { x with fenceA := true } } }

/-- FENCE.R: later writes wait for earlier accesses; what is earlier is performed before them but for reductions still to be
answered, for which they wait (R219; log 9, log 82). -/
def execFenceR (s : State) : Out :=
  issue .fenceR s fun s => done { s with c := { s.c with redq := s.c.redq.map fun x => { x with fenceR := true } } }

/-- IFENCE: words fetched from here on are those last written; the crew's own earlier stores are performed
(R18, R219; log 8). -/
def execIfence (s : State) : Out := issue .ifence s fun s => done (performAll s)

/-! ### Sequence-indexed reductions (R220 to R225) -/

/-- A value as a contribution of a format (R222). -/
def contributionOf (s : State) (t : Nat) (p : Place) (va : Nat) (i v : Word) (f64 : Bool) (reg : Nat) : Contribution :=
  { clause := s.c.clause, word := s.c.pc, thread := t, va := w64 va, obj := p.pa, home := p.home, index := i,
    value := if f64 then v else w64 (v.toNat % 2 ^ 32), f64 := f64, reg := reg, seen := none, fenceA := false
    fenceR := false, awaits := awaited s false }

/-- REDQ: every thread is translated before any contribution is sent (R222). The crew's earlier stores are performed
first, so that no contribution reaches its slice before them (R192, R194). -/
def execRedq (w : BitVec 1) (d a b : BitVec 7) (s : State) : Out :=
  issue (.redq w d a b) s fun s =>
    laneAccess s (fun t => (reg s t a).toNat) (fun x => checkDevice s needRW x 16 16) 2 fun l =>
      laneUnless s l 16 storesStay <|
      let l1 := l.map fun x => contributionOf s x.1 x.2.2 x.2.1 (reg s x.1 b) (reg s x.1 d) (w == 1) d.toNat
      let s := performAll s
      done { s with c := { s.c with redq := s.c.redq ++ l1 } }

/-- REDQS: holds while the index lies too far ahead; a duplicate is a precise SEQ_DUP with no effect
(R221, R223, R224). -/
def execRedqs (f : BitVec 1) (d a b : BitVec 6) (s : State) : Out :=
  issue (.redqs f d a b) s fun s =>
    placedAccess s needRW (getS s.c a) 16 16 2 fun p =>
      if inHost p.pa then scalarFault s .perm (getS s.c a) 2
      else if fenced s needRW || storesStay s p.pa 16 then hold s else
      let s := atHome s
      match contribute s
          (contributionOf s 0 p (getS s.c a).toNat (getS s.c b) (getS s.c d) (f == 1) d.toNat) with
      | (s1, .accepted) => done (retryPending s1)
      | (_, .tooFar) => hold s
      | (_, .poisoned) => scalarEcc s (getS s.c a) d.toNat
      | (_, .duplicate) => takeTrap s (trapHere s .seqDup (getS s.c a) 0)

end Sys2Proof.Machine
end

