-- ==== Sys2Proof/Machine/Host.lean ====
section
/-!
DEFINITION. The host's functions, window B and the host queues (spec/26_dies_host_drift.md, R326 to R332).
-/

namespace Sys2Proof.Machine

/-! ### Functions (R328) -/

/-- The partition that a physical function serves; a function that no link presents serves none (R328). -/
def fnPart (s : State) (fn : Nat) : Option Nat :=
  if s.boot.partcfg = 0 then (if fn < 2 then some 0 else none)
  else if s.boot.partcfg = 1 then (if fn < 2 then some fn else none)
  else if fn < 4 then some fn else none

/-- A function's registers. -/
def fnOf (s : State) (fn : Nat) : HostFn := s.fns.getD fn HostFn.reset

/-- A change of a function's registers. -/
def onFn (s : State) (fn : Nat) (f : HostFn → HostFn) : State :=
  { s with fns := s.fns.setIfInBounds fn (f (fnOf s fn)) }

/-- Firmware of a partition is ready (R364). -/
def fready (s : State) (part : Nat) : Bool := s.boot.fready.getLsbD part

/-- Translation in window B's space (R332). -/
def hostXlate (s : State) (part : Nat) (h : HostFn) (need : Need) (va : Nat) : Except Cause Place :=
  translate s part h.wbasn.toNat false false need va

/-- A fault record with CREW 0x7FFF to the fault ring that a function's window B control block names (R332). -/
def fnFault (s : State) (part : Nat) (h : HostFn) (f : FaultRec) : State :=
  if h.wbring = 0 then countError s
  else (ringPush s (fun s n va => hostXlate s part h n va) h.wbring.toNat (BitVec.ofNat 8 f.cause.code)
    (f.bytes s.timens)).1

/-! ### Window B (R332) -/

/-- A record that stands for a region, given by its block. -/
def regionRecord (s : State) (part block : Nat) : Record :=
  { parseRecord 0 part [] with asn := rcb s block 0x20 0 16, path := [block] }

/-- The record of a region that owns the storage at a place: a pool, a spill area or a Relay's storage
(R230, R240, R290). -/
def ownerOf (s : State) (part pa n : Nat) : Option Record :=
  match s.relays.find? fun x => x.store.any fun p => decide (p.1 < pa + n) && decide (pa < p.1 + p.2) with
  | some x => if x.region = 0 then none else some (regionRecord s x.part x.region.toNat)
  | none => (s.regions.find? fun r => r.1 == part && (meetsPool s part r.2 pa n || meetsSpill s part r.2 pa n)).map
      fun r => regionRecord s part r.2

/-- The hardware owns the storage, so that a host access is dropped (R230, R240, R290, R351). -/
def hostDropped (s : State) (part pa n : Nat) (write : Bool) : Bool :=
  inPools s part pa n || inSpill s part pa n || inRelayStore s pa n || (write && inPaceLine s pa n)

/-- One access of a function, within an aligned 8-byte word. -/
def hostAt (s : State) (part : Nat) (h : HostFn) (need : Need) (va n : Nat) : Except Cause Place :=
  match hostXlate s part h need va with
  | .error e => .error e
  | .ok p =>
    if hostDropped s part p.pa n need.w then .error .perm
    else if need.r && poisoned s false p.pa n then .error .eccUncorr
    else .ok p

/-- The record of an access that failed: to the region that owns the storage, else to the function's ring
(R240, R332). OBJ of an ECC_UNCORR record names a thread and a register, of which there is neither (R296). -/
def hostFail (s : State) (part : Nat) (h : HostFn) (cause : Cause) (va n : Nat) : State :=
  let f : FaultRec := { cause := cause, addr := w64 va, obj := if cause = .eccUncorr then 0 else w64 va }
  let owner := match hostXlate s part h ⟨false, false, false⟩ va with
    | .error _ => none
    | .ok p => if cause = .perm then ownerOf s part p.pa n else none
  match owner with
  | some r => regionFault s r f
  | none => fnFault s part h f

/-- The accesses of a run of bytes, or the first that fails. -/
def hostPlaces (s : State) (part : Nat) (h : HostFn) (need : Need) : List (Nat × Nat) → Except (Cause × Nat) (List (Place × Nat))
  | [] => .ok []
  | (a, n) :: l =>
    match hostAt s part h need a n with
    | .error e => .error (e, a)
    | .ok p =>
      match hostPlaces s part h need l with
      | .error e => .error e
      | .ok ps => .ok ((p, n) :: ps)

/-- Bytes at an address of window B's space, or the failure. -/
def hostBytes (s : State) (part : Nat) (h : HostFn) (a n : Nat) : Except (Cause × Nat) (List Byte) :=
  match hostPlaces s part h needR (pieces n a n) with
  | .error e => .error e
  | .ok l => .ok (l.flatMap fun x => readBytes s x.1.pa x.2)

/-- The address of an offset in window B (R332). -/
def windowAddr (h : HostFn) (off : Word) : Nat := (h.wbbase + off).toNat

/-- The bytes at an offset lie in window B, whose size the host chooses (R328). -/
def inWindow (h : HostFn) (off : Word) (n : Nat) : Bool := decide (off.toNat + n ≤ 2 ^ h.wbsize)

/-- The partition that an access of a function to some bytes of window B reaches; none for a function that no link
presents, and for bytes outside the window, to which the link carries no access (R328; DESIGN CHOICE, log 78). -/
def windowPart (s : State) (fn : Nat) (off : Word) (n : Nat) : Option Nat :=
  if inWindow (fnOf s fn) off n then fnPart s fn else none

/-- A write through window B; one that fails is dropped whole. -/
def windowWrite (s : State) (fn : Nat) (off : Word) (data : List Byte) : State :=
  match windowPart s fn off data.length with
  | none => s
  | some part =>
    let h := fnOf s fn
    let a := windowAddr h off
    match hostPlaces s part h needW (pieces data.length a data.length) with
    | .error (e, x) => hostFail s part h e x 8
    | .ok l =>
      (l.foldl (fun (acc : State × List Byte) x => (performGlobal acc.1 x.1.pa (acc.2.take x.2), acc.2.drop x.2))
        (s, data)).1

/-- The answer to a read or an AtomicOp of a function. -/
def answer (s : State) (fn : Nat) (bs : List Byte) (abort : Bool) : State :=
  onFn s fn fun h => { h with answer := bs, abort := abort }

/-- A read through window B; one that fails returns all ones with a completer abort. -/
def windowRead (s : State) (fn : Nat) (off : Word) (n : Nat) : State :=
  match windowPart s fn off n with
  | none => s
  | some part =>
    let h := fnOf s fn
    match hostBytes s part h (windowAddr h off) n with
    | .error (e, x) => answer (hostFail s part h e x 8) fn (List.replicate n 0xFF) true
    | .ok bs => answer s fn bs false

/-- A PCI Express AtomicOp as an ATOM function at the home slice; PCI Express forms none at a misaligned address,
which is answered as a failed access. -/
def windowAtomic (s : State) (fn : Nat) (off : Word) (p : BitVec 4) (n : Nat) (x cmp : Word) : State :=
  match windowPart s fn off n with
  | none => s
  | some part =>
    let h := fnOf s fn
    let a := windowAddr h off
    let fail (e : Cause) : State := answer (hostFail s part h e a n) fn (List.replicate n 0xFF) true
    if a % n ≠ 0 then fail .perm else
    match hostAt s part h needRW a n with
    | .error e => fail e
    | .ok pl =>
      let r := atomicAt s p pl.pa n x.toNat cmp.toNat
      answer r.2 fn (toBytes n r.1) false

/-- The bytes of an AtomicOp. -/
def atomicSize (wide : BitVec 1) : Nat := if wide = 1 then 8 else 4

/-- WINDOW_B_WRITE (R332). -/
def execWindowBWrite (fn : BitVec 2) (off : BitVec 64) (data : List (BitVec 8)) (s : State) : Out :=
  .next (windowWrite s fn.toNat off data)

/-- WINDOW_B_READ (R332). -/
def execWindowBRead (fn : BitVec 2) (off : BitVec 64) (len : Nat) (s : State) : Out :=
  .next (windowRead s fn.toNat off len)

/-- FETCHADD: ATOM function 0 (R332). -/
def execFetchadd (fn : BitVec 2) (off : BitVec 64) (wide : BitVec 1) (x : BitVec 64) (s : State) : Out :=
  .next (windowAtomic s fn.toNat off 0 (atomicSize wide) x 0)

/-- SWAP: ATOM function 9 (R332). -/
def execSwap (fn : BitVec 2) (off : BitVec 64) (wide : BitVec 1) (x : BitVec 64) (s : State) : Out :=
  .next (windowAtomic s fn.toNat off 9 (atomicSize wide) x 0)

/-- CAS: ATOM function 10 (R332). -/
def execCas (fn : BitVec 2) (off : BitVec 64) (wide : BitVec 1) (cmp x : BitVec 64) (s : State) : Out :=
  .next (windowAtomic s fn.toNat off 10 (atomicSize wide) x cmp)

/-! ### Shootdown (R185, R329) -/

/-- SHOOT: a shootdown of an address space is asked for; SHOOTDONE reads 0 until it is complete. -/
def execShoot (fn : BitVec 2) (asn : BitVec 16) (s : State) : Out :=
  .next (onFn s fn.toNat fun h => { h with shoot := some asn, shootdone := false })

/-- SHOOTDOWN_DONE: every access translates by the tables as they stand (log 9), so that nothing is left to forget. -/
def execShootdownDone (fn : BitVec 2) (s : State) : Out :=
  .next (onFn s fn.toNat fun h => if h.shoot.isSome then { h with shoot := none, shootdone := true } else h)

/-! ### Host queues (R330, R331) -/

/-- A host queue after reset (R330). -/
def emptyQueue : HostQueue := { qbase := 0, kick := 0, cons := 0, stopped := false, enable := false }

/-- A function's host queue. -/
def queueOf (s : State) (fn q : Nat) : HostQueue := look emptyQueue (fnOf s fn).queues q

/-- A change of a host queue. -/
def onQueue (s : State) (fn q : Nat) (f : HostQueue → HostQueue) : State :=
  onFn s fn fun h => { h with queues := store emptyQueue h.queues q (f (look emptyQueue h.queues q)) }

/-- A producer index as a kick leaves it: the wrap-aware maximum (R331). -/
def kicked (old v : BitVec 32) : BitVec 32 := if (v - old).toNat < 2 ^ 31 then v else old

/-- KICK (R331). -/
def execKick (fn : BitVec 2) (q : BitVec 6) (v : BitVec 32) (s : State) : Out :=
  .next (onQueue s fn.toNat q.toNat fun x => { x with kick := kicked x.kick v })

/-- ENABLE: a write of the bit also starts a stopped queue again (R330). -/
def execEnable (fn : BitVec 2) (q : BitVec 6) (on : BitVec 1) (s : State) : Out :=
  .next (onQueue s fn.toNat q.toNat fun x => { x with enable := on == 1, stopped := false })

/-- The control block at a base in window B's space, which must be a ring of 128-byte slots. -/
def hostRing (s : State) (part : Nat) (h : HostFn) (base : Word) : Option (Nat × Ring) :=
  if base.toNat % 32 ≠ 0 then none else
  match hostXlate s part h needRW base.toNat with
  | .error _ => none
  | .ok p =>
    match ringAt s p.pa with
    | none => none
    | some r => if r.k = 7 then some (p.pa, r) else none

/-- How the slot that is to be consumed next stands (R188). -/
inductive Slot where
  /-- It cannot be read. -/
  | lost
  /-- Its header holds the old phase. -/
  | empty
  /-- A reserved bit of its header is set. -/
  | bad
  | full
deriving DecidableEq, Repr

/-- The slot of index `i`. -/
def slotAt (s : State) (part : Nat) (h : HostFn) (r : Ring) (i : Nat) : Slot :=
  match hostXlate s part h needR (r.slot i) with
  | .error _ => .lost
  | .ok p =>
    let b := (readByte s p.pa).toNat
    if bit b 7 != r.phase i then .empty
    else if b % 128 ≠ 0 then .bad else .full

/-- The 64 bytes of the payload of a slot. -/
def slotPayload (s : State) (part : Nat) (h : HostFn) (r : Ring) (i : Nat) : List Byte :=
  match hostXlate s part h needR (r.slot i) with
  | .error _ => []
  | .ok p => readBytes s (p.pa + 8) 64

/-- A fault record of a record that was refused, to the ring of the region it names (R150). The manual does not say
where it goes when the region pointer does not translate, so that there is no block to name a ring: it is dropped and
counted in ERRCNT (DESIGN CHOICE, log 70). -/
def refusalRecord (s : State) (asn : Nat) (r : Record) (f : FaultRec) : State :=
  match translate s r.part asn false false needR r.region.toNat with
  | .error _ => countError s
  | .ok p => regionFault s (regionRecord s r.part p.pa) f

/-- A record from the host or from firmware is checked and enqueued, or refused (R148, R150, R305, R387). One whose enqueue
reads an uncorrectable word is not enqueued, and its region has a record (R304; DESIGN CHOICE, log 98). -/
def hostEnqueue (s : State) (part fn : Nat) (name : Word) (bs : List Byte) : State :=
  let h := fnOf s fn
  let asn := h.wbasn.toNat
  let r := parseRecord name part bs
  match checkRecord s .host asn false [] bs r with
  | .error n =>
    let f : FaultRec := { cause := .spawnRefused, detail := n, obj := name }
    if n = 9 then fnFault s part h f else refusalRecord s asn r f
  | .ok r1 =>
    match enqueueSpoiled s r1, (if r1.kind = 0 then refusedObject s r1 else none) with
    | some a, _ => regionFault s r1 { cause := .eccUncorr, addr := a }
    | none, some o => regionFault s r1 { cause := .codeRefused, obj := o.addr }
    | none, none => enterQueue s r1 511

/-- The consumer index of a queue and of its control block advances. -/
def advanceQueue (s : State) (fn q cb : Nat) : State :=
  let n := (queueOf s fn q).cons + 1
  onQueue (performNat s (cb + 24) 4 n.toNat) fn q fun x => { x with cons := n }

/-- Firmware serves the queue, and a kick is ahead of it. -/
def queueServed (s : State) (fn q : Nat) : Option Nat :=
  match fnPart s fn with
  | none => none
  | some part =>
    let x := queueOf s fn q
    if fready s part && x.enable && !x.stopped && x.cons != x.kick then some part else none

/-- The slot at an index holds an uncorrectable word in its header or its payload (R304). -/
def slotSpoiled (s : State) (part : Nat) (h : HostFn) (r : Ring) (i : Nat) : Bool :=
  match hostXlate s part h needR (r.slot i) with
  | .error _ => false
  | .ok p => poisoned s false p.pa 72

/-- Firmware looks at the slot CONS of a queue: it consumes it once its phase matches (R331). A slot that holds an
uncorrectable word is skipped, with a record to the function's ring, since the record in it names no region that can be
trusted (R304; DESIGN CHOICE, log 98). -/
def consumeQueue (s : State) (fn q : Nat) : State :=
  match queueServed s fn q with
  | none => s
  | some part =>
    let h := fnOf s fn
    let x := queueOf s fn q
    let stop := onQueue s fn q fun x => { x with stopped := true }
    match hostRing s part h x.qbase with
    | none => stop
    | some (cb, r) =>
      let i := x.cons.toNat
      match slotAt s part h r i, slotSpoiled s part h r i with
      | .lost, _ => stop
      | .empty, _ => s
      | _, true => fnFault (advanceQueue s fn q cb) part h { cause := .eccUncorr, addr := w64 (r.slot i) }
      | .bad, _ =>
        refusalRecord (advanceQueue s fn q cb) h.wbasn.toNat (parseRecord 0 part (slotPayload s part h r i))
          { cause := .illegal, obj := w64 (r.slot i + 8) }
      | .full, _ => advanceQueue (hostEnqueue s part fn (w64 (r.slot i + 8)) (slotPayload s part h r i)) fn q cb

/-- Looking at the queue would do something. -/
def queueDue (s : State) (fn q : Nat) : Bool :=
  match queueServed s fn q with
  | none => false
  | some part =>
    match hostRing s part (fnOf s fn) (queueOf s fn q).qbase with
    | none => true
    | some (_, r) => slotAt s part (fnOf s fn) r (queueOf s fn q).cons.toNat != .empty

/-- HOST_QUEUE_CONSUME (R331). -/
def execHostQueueConsume (fn : BitVec 2) (q : BitVec 6) (s : State) : Out := .next (consumeQueue s fn.toNat q.toNat)

end Sys2Proof.Machine
end

