-- ==== Sys2Proof/Machine/Place.lean ====
section
/-!
DEFINITION. The distributor (spec/12_launch_scheduling.md, R154 to R157): where records fit, placing and retiring
galleries, swapping a gallery out and bringing it back (spec/22_traps_preemption.md, R297 to R303).
-/

namespace Sys2Proof.Machine

/-! ### Resources of a core (R157) -/

/-- The galleries resident on a core. -/
def galsOn (s : State) (core : Nat) : List Gallery := s.allGals.filter (·.core == core)

/-- The crews that hold a slot of a core. -/
def crewsOn (s : State) (core : Nat) : List Crew := s.allCrews.filter (·.core == core)

/-- The key of a vault half: its address bits 31:21 (R173). -/
def halfKey (core half : Nat) : Nat := 256 * (core / 96) + 2 * (core % 96) + half

/-- The granules used in a half, as (first, number): of resident galleries, and of those in the shadow store, whose
granules stay bound (R299). -/
def granulesIn (s : State) (key : Nat) : List (Nat × Nat) :=
  ((s.allGals ++ (s.saved.filter (·.image.isNone)).map (·.gal)).filter fun g =>
    g.vgran != 0 && g.vbase.toNat / 2 ^ 21 == key).map fun g => (bits g.vbase.toNat 14 7, g.vgran)

/-- The lowest run of `v` free granules in a half (R157). -/
def freeRun (used : List (Nat × Nat)) (v : Nat) : Option Nat :=
  (List.range (129 - v)).find? fun i => used.all fun u => decide (i + v ≤ u.1) || decide (u.1 + u.2 ≤ i)

/-- The vault address at which `v` granules of an ASN go on a core: a bound half with room first, lower half first,
then a free half (R157); 0 when none are needed. -/
def vaultFit (s : State) (core v asn : Nat) : Option Nat :=
  if v = 0 then some 0 else
  let tries := [(asn, 0), (asn, 1), (65536, 0), (65536, 1)]
  (tries.filterMap fun (owner, half) =>
    let key := halfKey core half
    if look 65536 s.halves key = owner then (freeRun (granulesIn s key) v).map fun i => 2 ^ 21 * key + 2 ^ 14 * i
    else none).head?

/-- The numbers below 16 that a list does not hold. -/
def freeSlots (used : List Nat) : List Nat := (List.range 16).filter fun i => !used.contains i

/-- The vault base a footprint gets on a core, if it fits there (R157). -/
def fitsOn (s : State) (r : Record) (core : Nat) : Option Nat :=
  let gs := galsOn s core
  if 64 < total gs (fun g => gangs g.nthr) + gangs r.threads then none
  else if 256 < total gs (fun g => gangs g.nthr * g.nblk) + gangs r.threads * r.blocks then none
  else if freeSlots (gs.map (·.slot)) = [] then none
  else if (freeSlots ((crewsOn s core).map (·.slot))).length < r.crews then none
  else vaultFit s core r.vgran r.asn

/-- The core may take the record: a user core of the partition, in the pool of its class, allowed by PLACE, and not in
a cluster being moved (R155, R354, R355). -/
def allowedOn (s : State) (r : Record) (core : Nat) : Bool :=
  core % 96 != 0 && partOfDie s (dieOfCore core) == r.part &&
  bits s.power.poolmap.toNat (2 * clusterOf core) 2 == r.cls &&
  (r.place.getLsbD 7 || bits r.place.toNat 0 7 == clusterOf core) && r.place.getLsbD (8 + core % 4) &&
  !s.power.moving.any (·.1 == clusterOf core)

/-- The cores that may take a record and on which it fits, with the vault base it gets, ascending. -/
def placesFor (s : State) (r : Record) : List (Nat × Nat) :=
  (List.range 384).filterMap fun k => if allowedOn s r k then (fitsOn s r k).map fun v => (k, v) else none

/-! ### Candidates and their order (R151, R154) -/

/-- What the distributor may place: a record, or a lane gang with its records. -/
structure Candidate where
  rcd   : Record
  lanes : List Record
deriving DecidableEq, Repr

/-- The footprint of a gang: one thread for each of its records, one crew (R151). Its records may differ in what R151
does not name: the gang takes the PLACE, SEAT, SHARE and FDOM of its first record, and the spawn-tree cell of that
record stands for its issuer's (DESIGN CHOICE, logs 71 and 72). -/
def gangCandidate (f : Gang) : Option Candidate :=
  match f.records with
  | [] => none
  | r :: _ => some ⟨{ r with threads := f.records.length, crews := 1 }, f.records⟩

/-- The ready records of a partition that can be placed. -/
def candidates (s : State) (part : Nat) : List Candidate :=
  (s.records.filter fun r => r.part == part && r.ready.isSome).map (fun r => ⟨r, []⟩) ++
  ((s.forming.filter (·.closed)).filterMap gangCandidate).filter fun c => c.rcd.part == part

/-- A record is taken before another (R154): priority; within a region the keys; across regions the least USEDREG/SHARE
and then the keys. -/
def takenBefore (s : State) (a b : Record) : Bool :=
  if a.prio ≠ b.prio then decide (b.prio < a.prio)
  else
    let x := usedReg s a.block * b.share
    let y := usedReg s b.block * a.share
    if a.block ≠ b.block && x != y then decide (x < y) else lexLe (readyKeys a) (readyKeys b)

/-- A candidate put into its place. -/
def orderInsert (s : State) (c : Candidate) : List Candidate → List Candidate
  | [] => [c]
  | d :: l => if takenBefore s c.rcd d.rcd then c :: d :: l else d :: orderInsert s c l

/-- The candidates of a partition in distributor order. -/
def inOrder (s : State) (part : Nat) : List Candidate := (candidates s part).foldr (orderInsert s) []

/-! ### The tests of R155 -/

/-- Free save records of a region's pool, lowest first, at most `n` of them (R290). The first argument is how many
records of the pool are left. -/
def freeSaves (s : State) (r : Record) : Nat → Nat → Nat → List Word
  | 0, _, _ => []
  | _, 0, _ => []
  | k + 1, n + 1, i =>
    let a := rcbField s r 0x68 8 + 8192 * i
    match regionXlate s r ⟨false, false, false⟩ a with
    | .error _ => freeSaves s r k (n + 1) (i + 1)
    | .ok p =>
      if bit (readNat s p.pa 8) 63 then freeSaves s r k (n + 1) (i + 1)
      else w64 a :: freeSaves s r k n (i + 1)

/-- The save records a new gallery takes. -/
def savesFor (s : State) (r : Record) : List Word := freeSaves s r (rcbField s r 0x70 2) r.crews 0

/-- The size of a partition's token pool (R356). -/
def tokenPool (s : State) (part : Nat) : Nat := 192 * (partDies s part).length * s.pacer.ceil.toNat / 132

/-- The tokens held in a partition, by every gallery that has not retired (R356). -/
def tokensHeld (s : State) (part : Nat) : Nat :=
  total ((unretired s).filter fun g => g.rcd.part == part) (·.rcd.mtok)

/-- The tokens that a placement draws: a gallery that is resumed holds its own already (R301, R356). -/
def drawn (r : Record) : Nat := if r.resume.isSome then 0 else r.mtok

/-- Every budget on the path holds the placement (R146, R155). -/
def budgetsHold (s : State) (r : Record) : Bool :=
  r.path.all fun pa =>
    within (usedReg s pa) (gangs r.threads * r.blocks) (rcb s pa 0x28 0 16) &&
    within (usedVlt s pa) r.vgran (rcb s pa 0x28 16 16) &&
    within (usedGal s pa) 1 (rcb s pa 0x28 32 16) &&
    within (usedTok s pa) (drawn r) (rcb s pa 0x38 0 16)

/-- The seat of R155: it is free, or this is the region's oldest record and fits it, or one seat is left over. -/
def seatHolds (s : State) (c : Candidate) : Bool :=
  let r := c.rcd
  let g := gangs r.threads
  let isOldest := match oldest s r.block with
    | none => false
    | some o => o.arrival == r.arrival || c.lanes.any (·.arrival == o.arrival)
  r.seatGang == 0 ||
  (isOldest && decide (g ≤ r.seatGang) && decide (g * r.blocks ≤ r.seatReg) && decide (r.vgran ≤ r.seatVlt)) ||
  (within (usedReg s r.block) (g * r.blocks + r.seatReg) (rcb s r.block 0x28 0 16) &&
   within (usedVlt s r.block) (r.vgran + r.seatVlt) (rcb s r.block 0x28 16 16) &&
   within (usedGal s r.block) 2 (rcb s r.block 0x28 32 16))

/-- The tests of R155 that do not concern a core, with the save records of R290. -/
def passes (s : State) (c : Candidate) : Bool :=
  budgetsHold s c.rcd && seatHolds s c &&
  decide (drawn c.rcd + tokensHeld s c.rcd.part ≤ tokenPool s c.rcd.part || drawn c.rcd = 0) &&
  (c.rcd.resume.isSome || decide (c.rcd.crews ≤ (savesFor s c.rcd).length))

/-! ### Vault halves (R157, R175) -/

/-- The half that holds a vault base is bound to an ASN; a half newly bound reads as zero (R175). -/
def bindHalf (s : State) (vbase asn : Nat) : State :=
  let key := vbase / 2 ^ 21
  if look 65536 s.halves key ≠ 65536 then s
  else { s with
    halves := store 65536 s.halves key asn
    vault := s.vault.filter fun e => e.1 / 2 ^ 21 != key
    badVault := s.badVault.filter fun w => 8 * w / 2 ^ 21 != key }

/-- A half whose last granule is freed becomes unbound (R157). -/
def unbindHalf (s : State) (vgran vbase : Nat) : State :=
  let key := vbase / 2 ^ 21
  if vgran = 0 || granulesIn s key != [] then s else { s with halves := store 65536 s.halves key 65536 }

/-! ### Placing a new gallery (R62, R65, R157) -/

/-- The crew of attach slot `att` of a new gallery, in the state of R8 and R62. -/
def newCrew (r : Record) (uid gid core slot att : Nat) (live : ThreadSet) (save : Word) : Crew :=
  { Crew.foreman 0 with
    uid := uid, gid := gid, core := core, slot := slot, att := att, pc := normPc r.code, privl := 0, act := live,
    prio := BitVec.ofNat 3 r.prio, launchrec := r.name, argp := r.arg, save := save }

/-- The crews of a new gallery, one for each save record. -/
def newCrews (r : Record) (gid core uid : Nat) (live : ThreadSet) (slots : List Nat) (saves : List Word) : List Crew :=
  ((slots.zip saves).zipIdx).map fun ((slot, save), i) => newCrew r (uid + i) gid core slot i live save

/-- The gallery a record starts on a core (R61, R62, R65, R151). -/
def newGallery (r : Record) (lanes : List Record) (gid core slot vbase since : Nat) : Gallery :=
  { gid := gid, core := core, slot := slot, nthr := r.threads, nblk := r.blocks, vgran := r.vgran,
    vbase := BitVec.ofNat 32 vbase, live := BitVec.ofNat 2048 (2 ^ r.threads - 1),
    v := (lanes.zipIdx).foldl (fun m x => store 0 m (128 * x.2) x.1.arg) [],
    owner := Vector.ofFn fun (b : Fin 16) => if b.val < r.blocks then some 0 else none,
    blkq := [], rcd := r, lanes := lanes, reloc := [], image := none, since := since, bad := [], soft := [],
    torn := false, ender := none }

/-- The INUSE bit of save records written at placement or retirement (R293). -/
def markSaves (s : State) (r : Record) (saves : List Word) (x : Nat) : State :=
  saves.foldl (fun s a =>
    match regionXlate s r ⟨false, false, false⟩ a.toNat with
    | .error _ => s
    | .ok p => performNat s p.pa 8 x) s

/-- The candidate's records leave the ready queue, and the task queue's slots that they stood in are consumed. -/
def unqueue (s : State) (c : Candidate) : State :=
  let mine (r : Record) : Bool := r.arrival == c.rcd.arrival || c.lanes.any (·.arrival == r.arrival)
  syncQueue { s with
    records := s.records.filter fun r => !mine r
    forming := (s.forming.map fun f => { f with records := f.records.filter fun r => !mine r }).filter fun f =>
      f.records != [] } c.rcd

/-- A new gallery on a core (R157). -/
def placeNew (s : State) (c : Candidate) (core vbase : Nat) : State :=
  let r := c.rcd
  let saves := savesFor s r
  let gid := s.ids
  let slot := (freeSlots ((galsOn s core).map (·.slot))).headD 0
  let slots := (freeSlots ((crewsOn s core).map (·.slot))).take r.crews
  let g := newGallery r c.lanes gid core slot vbase s.arrivals
  let s1 := unqueue (if r.vgran = 0 then s else bindHalf s vbase r.asn) c
  let s2 : State := { s1 with
    gals := s1.gals ++ [g], crews := s1.crews ++ newCrews r gid core (gid + 1) g.live slots saves
    ids := gid + 1 + r.crews, arrivals := s1.arrivals + 1, boot := { s1.boot with placed := true } }
  syncPath (markSaves s2 r saves (2 ^ 63)) r.path

/-! ### Removing a gallery from its core -/

/-- Another crew comes into focus, if the one in focus belongs to the gallery. -/
def awayFrom (s : State) (gid : Nat) : State :=
  if s.c.gid ≠ gid then s else
  match s.crews.find? (·.gid != gid) with
  | none => s
  | some c => s.focus c.uid

/-- The gallery and its crews leave the core. -/
def removeGallery (s : State) (g : Gallery) : State :=
  let s1 := awayFrom s g.gid
  let s2 : State := { s1 with
    crews := s1.crews.filter (·.gid != g.gid), gals := s1.gals.filter (·.gid != g.gid) }
  unbindHalf s2 g.vgran g.vbase.toNat

/-- The retirement of a gallery: its resources, save records, rings and tokens are freed, and its core is offered first
in the next decision (R156, R293). -/
def retireGallery (s : State) (g : Gallery) : State :=
  let cs := s.allCrews.filter (·.gid == g.gid)
  let mine (uid : Nat) : Bool := cs.any (·.uid == uid)
  let s1 := removeGallery s g
  let s2 : State := { s1 with
    freed := if s1.freed.contains g.core then s1.freed else s1.freed ++ [g.core]
    rings := s1.rings.filter fun e => !mine e.uid
    scales := s1.scales.filter fun e => !mine e.uid
    spawnq := s1.spawnq.filter fun w => !mine w.uid
    lamps := s1.lamps.filter fun e => !mine e.uid
    tokens := (s1.tokens.map fun t => { t with
      holder := if (t.holder.map mine).getD false then none else t.holder
      waiting := t.waiting.filter fun u => !mine u }).filter fun t => t.holder.isSome || t.waiting != [] }
  syncPath (markSaves s2 g.rcd ((cs.map (·.save)).filter (· != 0)) 0) g.rcd.path

/-! ### Saving and restoring a crew (R293, R299, R309) -/

/-- The crew-held system registers, the SYSR area (R309). -/
def sysrWords (c : Crew) : List Nat :=
  [c.xsub.toNat, c.xstat.toNat, c.fprm.toNat, c.srchchk.toNat, c.prio.toNat, c.launchrec.toNat, c.argp.toNat,
   c.cycles.toNat] ++ List.replicate 8 0

/-- Words as bytes. -/
def wordBytes (l : List Nat) : List Byte := (l.map (toBytes 8)).flatten

/-- The tiles whose token a crew holds, as a mask (R293). -/
def tokenMask (s : State) (uid : Nat) : Nat :=
  (s.tokens.filter (·.holder == some uid)).foldl (fun a t => a ||| 2 ^ t.tile) 0

/-- The fields of the save record that a context save writes. With bank select 1 CLAUSEF, PBANK, OUTMARK and BLOCKMK go
on describing the interrupted program, and the trap registers are written as the handler has left them (R302, R314). -/
def writeContext (s : State) (g : Gallery) (c : Crew) : State :=
  let put (off : Nat) (bs : List Byte) (s : State) : State := saveWrite s g c.save off bs
  let here : TrapReq := ⟨.preempt, c.pc, 0, 0, false, 0⟩
  let s1 := if c.bank then
      put 0x10 (wordBytes [c.trappc.toNat, c.trapcause.toNat, c.trapaddr.toNat, c.trapinfo.toNat, c.clausef.toNat]) s
    else put 0x1E00 (setBytes ((c.blk.map (·.set)).getD 0))
      (put 0x400 (outBytes c.outm) (put 0x40 (wordBytes (c.pbank.toList.map (·.toNat)))
        (put 0x30 (toBytes 8 (clausefFor c here)) s)))
  let s2 := put 0x08 (toBytes 8 c.pc.toNat) (put 0x38 (toBytes 8 (c.privl.toNat + bitAt c.bank 2)) s1)
  let s3 := put 0xC0 (wordBytes (c.tbank.toList.map (·.toNat) ++ c.base.toList.map (·.toNat) ++ sysrWords c)) s2
  let s4 := put 0x340 (c.tagcnt.toList ++ wordBytes [c.tagfail.toNat, c.stack.length, tokenMask s c.uid,
    (c.ring.getD 0).toNat] ++ c.tagcause.toList) s3
  let s5 := put 0x1F00 (List.replicate 256 0) (put 0x580 (List.replicate 128 0) s4)
  put 0x600 ((c.act :: c.stack ++ List.replicate (16 - c.stack.length) 0).flatMap setBytes ++
    c.marks.toList.flatMap setBytes) s5

/-- A privilege level read from a save record: 3 is never held (R10), and a 3 that software has written there reads as
level 0 (DESIGN CHOICE, log 13). -/
def savedLevel (mode : Nat) : BitVec 2 := if bits mode 0 2 = 3 then 0 else BitVec.ofNat 2 (bits mode 0 2)

/-- XSTAT read from a save record: the flags of R308, whose other bits read as 0. -/
def savedFlags (x : Word) : BitVec 10 := x.setWidth 10 &&& 0x31F

/-- XSUB read from a save record: software can leave a value there that is none of 1, 2, 4, 8, 16 and 32, of which R109
and R308 say nothing, and it reads as 32 (DESIGN CHOICE, log 13). -/
def savedXsub (x : Word) : BitVec 6 := if [1, 2, 4, 8, 16, 32].contains x.toNat then x.setWidth 6 else 32

/-- A crew read back from its save record. ACT and the saved entries stay within LIVE (R67). Values that no crew
can hold, which software may have written there, are read as log 13 says. -/
def readContext (s : State) (g : Gallery) (c : Crew) : Crew :=
  if c.save = 0 then c else
  let word (off : Nat) : Word := w64 (ofBytes (saveRead s g c.save off 8))
  let set (off : Nat) : ThreadSet := setFrom (saveRead s g c.save off 256)
  let mode := (word 0x38).toNat
  let depth := min 16 (bits (word 0x388).toNat 0 5)
  let c1 := { c with
    pc := normPc (word 0x08), privl := savedLevel mode, bank := bit mode 2
    tbank := savedBank s g c.save 0xC0
    base := Vector.ofFn fun (i : Fin 48) => word (0x140 + 8 * i)
    xsub := savedXsub (word 0x2C0), xstat := savedFlags (word 0x2C8), fprm := (word 0x2D0).setWidth 2
    srchchk := (word 0x2D8).setWidth 1, prio := (word 0x2E0).setWidth 3, launchrec := word 0x2E8
    argp := word 0x2F0, cycles := word 0x2F8
    tagcnt := Vector.ofFn fun (i : Fin 64) => (saveRead s g c.save (0x340 + i) 1).headD 0
    tagfail := word 0x380
    tagcause := Vector.ofFn fun (i : Fin 64) => (saveRead s g c.save (0x3A0 + i) 1).headD 0
    act := set 0x600 &&& g.live
    stack := (List.range depth).map fun i => set (0x700 + 256 * i) &&& g.live
    bad := [], badStack := []
    marks := Vector.ofFn fun (i : Fin 7) => set (0x1700 + 256 * i) }
  if c1.bank then
    { c1 with
      trappc := word 0x10, trapcause := (word 0x18).setWidth 8, trapaddr := word 0x20, trapinfo := word 0x28
      clausef := (word 0x30).setWidth 38 }
  else
    { reopen c1 (word 0x30).toNat (outMarks (saveRead s g c.save 0x400 384)) (set 0x1E00) with
      pbank := savedBank s g c.save 0x40 }

/-- The save record of a crew holds an uncorrectable word (R304). -/
def saveLost (s : State) (g : Gallery) (c : Crew) : Bool :=
  c.save != 0 && [0, 4096].any fun off =>
    match regionXlate s g.rcd ⟨false, false, false⟩ (c.save.toNat + off) with
    | .error _ => false
    | .ok p => poisoned s false p.pa 4096

/-- A saved context holds an uncorrectable word, in its image, in the shadow store or in a save record (R304). -/
def contextLost (s : State) (v : SavedContext) : Bool :=
  v.lost || (v.pages.any fun pa => poisoned s false pa 4096) || v.crews.any (saveLost s v.gal)

/-- The drain of one crew, wherever the focus is (R291). -/
def drainCrew (s : State) (uid : Nat) : State := inFocus s uid drain

/-- The bytes of a gallery's granules, by offset. -/
def granuleBytes (s : State) (g : Gallery) : Sparse Byte :=
  (s.vault.filter fun e => decide (g.vbase.toNat ≤ e.1) && decide (e.1 < g.vbase.toNat + 16384 * g.vgran)).map
    fun e => (e.1 - g.vbase.toNat, e.2)

/-- The granules at a vault base filled with saved bytes. -/
def fillGranules (s : State) (vbase vgran : Nat) (l : Sparse Byte) : State :=
  let s1 : State := { s with vault := s.vault.filter fun e => !(decide (vbase ≤ e.1) && decide (e.1 < vbase + 16384 * vgran)) }
  l.foldl (fun s e => { s with vault := store 0 s.vault (vbase + e.1) e.2 }) s1

/-- A PREEMPT record, if the region asks for one (R290). -/
def notify (s : State) (g : Gallery) : State :=
  if bit (rcbField s g.rcd 0x88 8) 0 then regionFault s g.rcd { cause := .preempt, obj := g.rcd.name } else s

/-- Word 0x0000 of the save records of some crews brought up to date. -/
def putSaves (s : State) (l : List Crew) : State := l.foldl (fun s c => putSave0 s c.uid) s

/-- A gallery whose crews have stopped is saved in an image (R299): registers, records and hoist commands as they stand,
its granules copied and freed. `pages` is where the image stands. A crew that was held at a `TKTAKE` waits for the token no longer, and executes the word
again on resume (R297). A crew already woken has the resume record enqueued by the save (R232). An image kept at
the same place is replaced. -/
def saveImage (s : State) (g : Gallery) (image : Nat) (pages : List Nat) (pooled : Bool) : State :=
  let pa := pages.headD 0
  let cs := s.allCrews.filter (·.gid == g.gid)
  let mine (uid : Nat) : Bool := cs.any (·.uid == uid)
  let s1 := cs.foldl (fun s c => writeContext s g c) s
  let v : SavedContext :=
    { image := some image, pa := pa, pages := pages, pooled := pooled, part := g.rcd.part, gal := { g with image := some image }, crews := cs
      hoist := s.hoist.filter fun h => mine h.uid, mx := [], tokens := [], rings := [], tiles := [], badTiles := []
      vault := granuleBytes s g, lost := false }
  let s2 := removeGallery s1 g
  let s3 : State := { s2 with
    saved := s2.saved.filter (fun w => w.image.isNone || w.pa != pa) ++ [v]
    hoist := s2.hoist.filter fun h => !mine h.uid
    tokens := (s2.tokens.map fun t => { t with waiting := t.waiting.filter fun u => !mine u }).filter fun t =>
      t.holder.isSome || t.waiting != [] }
  let s4 := if cs.any (·.woken.isSome) then enqueueResume s3 g.gid else s3
  notify (syncPath (putSaves s4 cs) g.rcd.path) g

/-- How a crew goes on when its gallery is resumed (R301): woken crews continue at the word after their parked word with
sd the status, a crew parked in `SPAWN` executes it again, the others stay parked. -/
def resumeCrew (c : Crew) : Crew :=
  match c.woken, c.status with
  | some st, .parked (.waitu d) => { (setS c d (st.setWidth 64)).past with woken := none }
  | some _, .parked .barc => { c.past with woken := none }
  | _, .parked .spawn => { c with status := .running, woken := none }
  | _, _ => { c with woken := none }

/-- A relocation of a gallery's old granules, the newest first, four at most (R321). The ranges kept from earlier moves
lead to the gallery's granules where they now are, since a migration leaves its results unchanged (R302). -/
def addReloc (g : Gallery) (new : Nat) : List Reloc :=
  if g.vgran = 0 || g.vbase.toNat == new then g.reloc
  else (⟨g.vbase.toNat, 16384 * g.vgran, new⟩ :: g.reloc.map fun r => { r with new := new }).take 4

/-- Crews brought back onto a core whose commands have completed meanwhile leave their tag waits (R244, R278). -/
def resumeTagWaits (s : State) (l : List Crew) : State := l.foldl (fun s c => resumeTags s c.uid) s

/-- A saved gallery brought back onto a core from its image (R299, R301). -/
def restoreImage (s : State) (v : SavedContext) (core vbase : Nat) : State :=
  let slot := (freeSlots ((galsOn s core).map (·.slot))).headD 0
  let slots := freeSlots ((crewsOn s core).map (·.slot))
  let g : Gallery := { v.gal with
    core := core, slot := slot, vbase := BitVec.ofNat 32 vbase, reloc := addReloc v.gal vbase, image := none
    since := s.arrivals }
  let cs := (v.crews.zip slots).map fun (c, k) => resumeCrew { (readContext s v.gal c) with core := core, slot := k }
  let s1 := if g.vgran = 0 then s else fillGranules (bindHalf s vbase g.rcd.asn) vbase g.vgran v.vault
  let s2 : State := { s1 with
    saved := s1.saved.filter (·.gal.gid != g.gid), gals := s1.gals ++ [g], crews := s1.crews ++ cs
    hoist := s1.hoist ++ v.hoist.map fun h => { h with core := core }
    spawnq := s1.spawnq.filter fun w => !cs.any fun c => c.uid == w.uid && c.status == .running
    arrivals := s1.arrivals + 1 }
  let s3 := resumeTagWaits (putSaves s2 cs) cs
  if v.gal.core ≠ core then notify (syncPath s3 g.rcd.path) g else syncPath s3 g.rcd.path

/-- A resume record is placed; a context that cannot be read is not restored, and is reported (R301, R304). -/
def placeResume (s : State) (c : Candidate) (gid core vbase : Nat) : State :=
  let s1 := unqueue s c
  match s1.saved.find? (·.gal.gid == gid) with
  | none => s1
  | some v =>
    if contextLost s1 v then
      regionFault s1 v.gal.rcd { cause := .ctxLost, fatal := true, obj := w64 (v.image.getD 0) }
    else restoreImage s1 v core vbase

/-- A candidate is placed on a core, and the spawns parked on its regions are retried (R155, R165). -/
def place (s : State) (c : Candidate) (core vbase : Nat) : State :=
  let s1 := match c.rcd.resume with
    | none => placeNew s c core vbase
    | some gid => placeResume s c gid core vbase
  retrySpawns s1 c.rcd.path

/-! ### Placement decisions (R155, R156, R300) -/

/-- The core with the fewest resident galleries, the lowest number on a tie. -/
def emptiest (s : State) : List (Nat × Nat) → Option (Nat × Nat)
  | [] => none
  | x :: l =>
    match emptiest s l with
    | none => some x
    | some y => if (galsOn s y.1).length < (galsOn s x.1).length then some y else some x

/-- The first candidate that passes and fits, on the freed core or on the emptiest of all, with its core. -/
def firstFit (s : State) (core : Option Nat) : List Candidate → Option (Candidate × Nat × Nat)
  | [] => none
  | c :: l =>
    let found :=
      if !passes s c then none else
      match core with
      | some k => if allowedOn s c.rcd k then (fitsOn s c.rcd k).map fun v => (c, k, v) else none
      | none => (emptiest s (placesFor s c.rcd)).map fun x => (c, x.1, x.2)
    match found with
    | some x => some x
    | none => firstFit s core l

/-- Where an image fits in the pool of a gallery's region: the lowest-addressed free space (R300). -/
def imagePlace (s : State) (g : Gallery) : Option Nat :=
  let base := rcbField s g.rcd 0x78 8
  let n := rcbField s g.rcd 0x80 8
  let used := imagesOf s g.rcd.block
  let size := imageSize g
  -- a lowest free place begins at the pool's base or at the end of an image
  let starts := base :: used.map fun u => u.1 + u.2
  let ok := starts.filter fun a => decide (base ≤ a) && decide (a + size ≤ base + n) &&
    used.all fun u => decide (a + size ≤ u.1) || decide (u.1 + u.2 ≤ a)
  match ok with
  | [] => none
  | a :: l => some (l.foldl min a)

/-- The distributor may swap the gallery out, as far as the gallery itself goes (R300, R314). -/
def swappable (s : State) (part : Nat) (g : Gallery) : Bool :=
  let cs := s.allCrews.filter (·.gid == g.gid)
  g.rcd.path != [] && g.rcd.part == part && !g.torn && !bit (rcbField s g.rcd 0x88 8) 1 && (imagePlace s g).isSome &&
  cs != [] && cs.all fun c =>
    !c.bank && c.redq == [] && !engineBusy s c.uid && !(s.tokens.any (·.holder == some c.uid)) && c.ring.isNone &&
    (match c.status with
     | .parked (.waitu _) => true
     | .parked .barc => true
     | .parked .spawn => true
     | _ => false)

/-- The gallery is preferred for swapping out: lower priority, then resident longer (R300). -/
def swapBefore (a b : Gallery) : Bool :=
  decide (a.rcd.prio < b.rcd.prio) || (a.rcd.prio == b.rcd.prio && decide (a.since ≤ b.since))

/-- A gallery put into its place in the order of swapping out. -/
def swapInsert (g : Gallery) : List Gallery → List Gallery
  | [] => [g]
  | h :: l => if swapBefore g h then g :: h :: l else h :: swapInsert g l

/-- Every crew of a gallery drained. -/
def drainGallery (s : State) (gid : Nat) : State :=
  (s.allCrews.filter (·.gid == gid)).foldl (fun s c => drainCrew s c.uid) s

/-- The pages of an image, each translated, or none where one does not translate with write permission. -/
def imagePages (s : State) (xl : State → Need → Nat → Except Cause Place) (a : Nat) : Nat → Option (List Nat)
  | 0 => some []
  | n + 1 =>
    match imagePages s xl a n, xl s needW (a + 4096 * n) with
    | some l, .ok p => some (l ++ [p.pa])
    | _, _ => none

/-- An image stands in memory: how many bytes it has is given, and not what they hold (R300; DESIGN CHOICE, log 39). -/
def writeImage (s : State) (pages : List Nat) : State :=
  { (pages.zipIdx).foldl
      (fun t x => putBytes t x.1 ((List.range 4096).map fun i => Config.freeByte s.fresh (4096 * x.2 + i))) s with
    fresh := s.fresh + 1 }

/-- A gallery swapped out to the image pool of its region, after its crews are drained; it stays where the pool has no
room that can be written. -/
def swapOut (s : State) (g : Gallery) : State :=
  let s1 := drainGallery s g.gid
  match s1.gal? g.gid, imagePlace s1 g with
  | some g1, some a =>
    match imagePages s1 (fun s n va => regionXlate s g1.rcd n va) a (imageSize g1 / 4096) with
    | none => s
    | some l => saveImage (writeImage s1 l) g1 a l true
  | _, _ => s

/-- A record fits on a core once the galleries of lower priority that may be swapped out have left it. -/
def fitsAfterSwaps (s : State) (part : Nat) (c : Candidate) (core : Nat) : Bool :=
  let gs := s.allGals.filter fun g => g.core == core && swappable s part g && decide (g.rcd.prio < c.rcd.prio)
  allowedOn s c.rcd core && gs != [] && (fitsOn (gs.foldl removeGallery s) c.rcd core).isSome

/-- At most one gallery is swapped out in a decision for a ready record of higher priority that fits nowhere: of those
that may be, the one of lowest priority, then the one resident longest (R300). A gallery is left where it is when
swapping it out, alone or with others of its core, would not help such a record (log 32). -/
def swapFor (s : State) (part : Nat) : Option State :=
  let waiting := (inOrder s part).filter fun c => passes s c && placesFor s c.rcd == []
  let gs := (s.allGals.filter (swappable s part)).foldr swapInsert []
  (gs.find? fun g => waiting.any fun c => decide (g.rcd.prio < c.rcd.prio) && fitsAfterSwaps s part c g.core).map (swapOut s)

/-- A cluster holds no resident gallery but a foreman's (R355). -/
def clusterEmpty (s : State) (cluster : Nat) : Bool :=
  !s.allGals.any fun g => g.rcd.path != [] && clusterOf g.core == cluster

/-- The pool of a cluster written (R361). -/
def setPool (s : State) (cluster : Nat) (cls : BitVec 2) : State :=
  let lo := 2 * cluster
  { s with power := { s.power with
      poolmap := (s.power.poolmap &&& ~~~ BitVec.ofNat 192 (3 * 2 ^ lo)) ||| BitVec.ofNat 192 (cls.toNat * 2 ^ lo) } }

/-- Clusters that were to change pool and have drained do so (R355). -/
def settleMoves (s : State) : State :=
  (s.power.moving.filter fun m => clusterEmpty s m.1).foldl (fun s m => setPool s m.1 m.2.1)
    { s with power := { s.power with moving := s.power.moving.filter fun m => !clusterEmpty s m.1 } }

/-- The lowest freed core of a partition, whichever slice cycle freed it: R156 orders those of one slice cycle
(DESIGN CHOICE, log 85). -/
def freedCore (s : State) (part : Nat) : Option Nat :=
  match s.freed.filter fun k => partOfDie s (dieOfCore k) == part with
  | [] => none
  | k :: l => some (l.foldl min k)

/-- The parked spawns on regions whose PEND fell without a placement are retried, in the order in which they parked
(R165, R306). -/
def retryFallen (s : State) : State := retrySpawns { s with pendFell := [] } s.pendFell

/-- One placement decision of a partition: the refill of a freed core, else R155, else a swap-out (R155, R156, R300). -/
def placementDecision (s0 : State) (part : Nat) : State :=
  let s := retryFallen (settleMoves s0)
  let core := freedCore s part
  let s1 : State := match core with
    | none => s
    | some k => { s with freed := s.freed.filter (· != k) }
  let order := inOrder s1 part
  if order = [] then s1 else
  match core.bind fun k => firstFit s1 (some k) order with
  | some (c, k, v) => place s1 c k v
  | none =>
    match firstFit s1 none order with
    | some (c, k, v) => place s1 c k v
    | none => (swapFor s1 part).getD s1

/-- A placement decision of a partition would do something. -/
def placementDue (s : State) (part : Nat) : Bool :=
  (s.power.moving.any fun m => clusterEmpty s m.1) || (freedCore s part).isSome ||
  (s.spawnq.any fun w => w.path.any s.pendFell.contains) ||
  (candidates s part != [] && ((firstFit s none (inOrder s part)).isSome || (swapFor s part).isSome))

/-- PLACEMENT_DECISION (R155). -/
def execPlacementDecision (part : BitVec 2) (s : State) : Out := .next (placementDecision s part.toNat)

/-- LANE_GANG_TIMEOUT: every gang whose first record joined 1 µs ago is launched (R151). -/
def execLaneGangTimeout (s : State) : Out :=
  .next { s with forming := s.forming.map fun f =>
    if f.since + 1000 ≤ s.timens.toNat then { f with closed := true } else f }

/-- The gallery's work is over: every crew has ended, and everything it did has been performed (R152). -/
def completable (s : State) (g : Gallery) : Bool :=
  g.rcd.path != [] && g.ender.isSome && (s.allGals.any (·.gid == g.gid)) &&
  (s.allCrews.filter (·.gid == g.gid)).all fun c =>
    c.status == .exited && c.stores == [] && c.redq == [] && !engineBusy s c.uid

/-- The completion and retirement of a gallery; one torn down retires without completion (R153, R156, R306). -/
def completeGallery (s : State) (g : Gallery) : State :=
  let rs := if g.lanes = [] then [g.rcd] else g.lanes
  let s1 := if g.torn then s else rs.foldl (fun s r => completeRecord s g r) s
  retireGallery s1 g

/-- RECORD_COMPLETION (R153). -/
def execRecordCompletion (gid : Nat) (s : State) : Out :=
  .next (match s.gal? gid with
    | none => s
    | some g => if completable s g then completeGallery s g else s)

end Sys2Proof.Machine
end

