-- ==== Sys2Proof/Machine/Mailbox.lean ====
section
/-!
DEFINITION. The foreman mailbox (spec/28_bring_up.md, R366) and the loader of code objects
(spec/29_assembly_reference.md, R382 to R384).
-/

namespace Sys2Proof.Machine

/-! ### Requests and replies (R366) -/

/-- A request that firmware is to perform: its function, where it lies, and its 64 bytes. -/
structure Request where
  fn   : Nat
  part : Nat
  h    : HostFn
  cb   : Nat
  cons : Nat
  name : Word
  bs   : List Byte

/-- OP of a request. -/
def Request.op (m : Request) : Nat := ofBytes (m.bs.take 2)

/-- Firmware waits within this request: it has begun it, and its reply is still to be written (R355, R366, R370). -/
def Request.waits (m : Request) : Bool := m.h.mbwait == some (m.cb, m.cons)

/-- Argument word `i`, from 1, at offset 8 i. -/
def Request.arg (m : Request) (i : Nat) : Nat := ofBytes (slice m.bs (8 * i) 8)

/-- How a mailbox stands. -/
inductive Mail where
  /-- It is not served, or nothing can be consumed yet. -/
  | idle
  /-- A control block fails R187. -/
  | broken
  /-- A reserved bit of the header is set, or a word of the slot is uncorrectable: the cause of its record. -/
  | bad (cause : Cause) (cb cons : Nat)
  | request (m : Request)

/-- The mailbox of a function as firmware finds it. -/
def mailAt (s : State) (fn : Nat) : Mail :=
  match fnPart s fn with
  | none => .idle
  | some part =>
    let h := fnOf s fn
    if !h.mben || h.mbstop || !fready s part then .idle else
    match hostRing s part h h.reqbase, hostRing s part h h.rspbase with
    | some (cb, r), some (_, q) =>
      if r.cons = h.reqkick.toNat || q.full then .idle else
      match slotAt s part h r r.cons, slotSpoiled s part h r r.cons with
      | .lost, _ => .broken
      | .empty, _ => .idle
      | _, true => .bad .eccUncorr cb r.cons
      | .bad, _ => .bad .illegal cb r.cons
      | .full, _ => .request
          ⟨fn, part, h, cb, r.cons, w64 (r.slot r.cons + 8), slotPayload s part h r r.cons⟩
    | _, _ => .broken

/-- What a request comes to: it waits, or it is answered with STATUS, DETAIL and result bytes from 0x08. -/
inductive Answered where
  | wait (s : State)
  | reply (s : State) (status detail : Nat) (results : List Byte)

/-- The argument words that an operation has. -/
def argCount : Nat → Nat
  | 1 => 3
  | 4 => 2
  | 8 => 2
  | _ => 1

/-- Every bit that the request leaves unused is zero. -/
def Request.reservedOk (m : Request) : Bool :=
  allZero (slice m.bs 4 4) && allZero (m.bs.drop (8 + 8 * argCount m.op))

/-- The 64 bytes of a reply. -/
def replyBytes (m : Request) (status detail : Nat) (results : List Byte) : List Byte :=
  m.bs.take 4 ++ toBytes 2 status ++ toBytes 2 detail ++ (results ++ List.replicate 56 0).take 56

/-- A request is consumed and its one reply is written (R366). -/
def finishMail (s : State) (m : Request) (status detail : Nat) (results : List Byte) : State :=
  let s1 := performNat s (m.cb + 24) 4 ((m.cons + 1) % 2 ^ 32)
  let s2 := (ringPush s1 (fun s n va => hostXlate s m.part m.h n va) m.h.rspbase.toNat 0
    (replyBytes m status detail results)).1
  onFn s2 m.fn fun h => { h with mbwait := none }

/-- The request at the head of a function's mailbox is performed, if its OP is one of those asked for. A mailbox whose
control block is broken stops. A slot with a reserved header bit is consumed, and its ILLEGAL record goes to the function's
fault ring of window A (R188; DESIGN CHOICE, log 49), and so is one with an uncorrectable word, with ECC_UNCORR (R304;
DESIGN CHOICE, log 98). -/
def serveMail (s : State) (fn : Nat) (mine : Nat → Bool) (act : State → Request → Answered) : State :=
  match mailAt s fn with
  | .idle => s
  | .broken => onFn s fn fun h => { h with mbstop := true }
  | .bad cause cb cons =>
    fnFault (performNat s (cb + 24) 4 ((cons + 1) % 2 ^ 32)) ((fnPart s fn).getD 0) (fnOf s fn) { cause := cause }
  | .request m =>
    if !mine m.op then s else
    match act s m with
    | .wait s1 => onFn s1 fn fun h => { h with mbwait := some (m.cb, m.cons) }
    | .reply s1 status detail results => finishMail s1 m status detail results

/-- An operation whose arguments hold is performed; otherwise the request is refused and has no effect. -/
def guarded (ok : Bool) (m : Request) (s : State) (go : Answered) : Answered :=
  if m.reservedOk && ok then go else .reply s 1 0 []

/-- Done, with no results. -/
def simple (s : State) : Answered := .reply s 0 0 []

/-! ### The loader (R382 to R384) -/

/-- The header of a code object (R382). -/
structure ObjHead where
  magic   : Nat
  agqver  : Nat
  secv    : Nat
  textsz  : Nat
  datasz  : Nat
  align   : Nat
  nreloc  : Nat
  nlaunch : Nat
  zero    : Bool

/-- The header in the first 128 bytes. -/
def objHead (bs : List Byte) : ObjHead :=
  let f (off n : Nat) : Nat := ofBytes (slice bs off n)
  { magic := f 0 4, agqver := f 4 2, secv := f 6 2, textsz := f 8 8, datasz := f 0x10 8, align := f 0x18 8
    nreloc := f 0x30 4, nlaunch := f 0x34 4, zero := allZero (slice bs 0x38 0x48) }

/-- An offset aligned to 64. -/
def to64 (x : Nat) : Nat := 64 * ((x + 63) / 64)

def ObjHead.dataOff (o : ObjHead) : Nat := to64 (128 + o.textsz)
def ObjHead.relocOff (o : ObjHead) : Nat := to64 (o.dataOff + o.datasz)
def ObjHead.launchOff (o : ObjHead) : Nat := to64 (o.relocOff + 8 * o.nreloc)
def ObjHead.size (o : ObjHead) : Nat := o.launchOff + 64 * o.nlaunch

/-- Relocation `k` of an object. -/
def ObjHead.reloc (o : ObjHead) (obj : List Byte) (k : Nat) : Nat := ofBytes (slice obj (o.relocOff + 8 * k) 8)

/-- The reason for which an object is refused at load (R384); bits 62:40 of a relocation are reserved (R382). -/
def objRefused (s : State) (o : ObjHead) (obj : List Byte) : Option Nat :=
  if o.magic ≠ 0x4F514741 || !o.zero || (List.range o.nreloc).any fun k => bits (o.reloc obj k) 40 23 ≠ 0 then some 1
  else if o.agqver / 256 ≠ 1 || o.agqver % 256 ≠ 0 then some 2
  else if o.secv < s.boot.secver.toNat then some 3
  else none

/-- A relocation: the 8-byte word at an offset from the data section is rebased by the load address of the text or of
the data section (R382). -/
def relocate1 (o : ObjHead) (text data : Nat) (obj : List Byte) (k : Nat) : List Byte :=
  let r := o.reloc obj k
  let at_ := o.dataOff + bits r 0 40
  let x := ofBytes (slice obj at_ 8) + (if bit r 63 then text else data)
  if at_ + 8 ≤ obj.length then obj.take at_ ++ toBytes 8 x ++ obj.drop (at_ + 8) else obj

/-- Every relocation of an object applied (R383). -/
def relocateAll (o : ObjHead) (text data : Nat) (obj : List Byte) : List Byte :=
  (List.range o.nreloc).foldl (relocate1 o text data) obj

/-! ### Room for a section (R380, R383; log 18) -/

/-- The first of `k`, from `x` on, that passes a test, looking at no more than `fuel` of them. -/
def searchFrom (ok : Nat → Bool) : Nat → Nat → Option Nat
  | 0, _ => none
  | fuel + 1, x => if ok x then some x else searchFrom ok fuel (x + 1)

/-- Of the numbers below `n`, the first from `start` on, in a circle, that passes a test. -/
def firstFree (n start : Nat) (ok : Nat → Bool) : Option Nat :=
  (searchFrom (fun x => ok (x % n)) n (start % n)).map (· % n)

/-- A word read as a table entry names a physical page (R183). -/
def namesPage (x page : Nat) : Bool :=
  let span := if bit x 1 then 2 ^ ((pageLog (bits x 6 3)).getD 12 - 12) else 1
  bit x 0 && decide (bits x 12 40 ≤ page) && decide (page < bits x 12 40 + span)

/-- No use of a physical page of HBM is known: nothing stands in it, no word of memory read as a table entry names it,
no image or directory of translations lies in it, and it is under no mask ROM. -/
def pageFree (s : State) (page : Nat) : Bool :=
  (s.mem.all fun c => c.1 / 4096 != page && !namesPage (readNat s (8 * (c.1 / 8)) 8) page) &&
  (s.poison.all fun k => k / 512 != page) && (s.saved.all fun v => v.pages.all fun pa => pa / 4096 != page) &&
  (s.boot.dirbase.toList.all fun d => decide (page < d.toNat / 4096) || decide (d.toNat / 4096 + 256 ≤ page)) &&
  s.boot.paceword.toNat / 4096 != page && !inRom s (4096 * page)

/-- The pages of HBM on a die (R181). -/
def diePages : Nat := 0x2800000

/-- A free page of the HBM of a partition, by its address. -/
def takePage (s : State) (part start : Nat) : Option Nat :=
  let dies := partDies s part
  let pa (k : Nat) : Nat := 4096 * (diePages * dies.getD (k / diePages) 0 + k % diePages)
  (firstFree (diePages * dies.length) start fun k => pageFree s (pa k / 4096)).map pa

/-- A table entry leads to another table: it is valid, no reserved bit and no field of a leaf is set (R183). -/
def leadsOn (x : Nat) : Bool := bit x 0 && decide (bits x 1 11 = 0) && decide (bits x 52 12 = 0) && inHbm (4096 * bits x 12 40)

/-- No entry is in the way of a page that is to be entered at a virtual address: the walk ends at an entry that is not
valid (R183). -/
def unmapped (s : State) (va : Nat) : List (Nat × Nat) → Nat → Bool
  | [], _ => false
  | (_, lo) :: rest, tbl =>
    let x := readNat s (tbl + 8 * bits va lo 9) 8
    !bit x 0 || (leadsOn x && unmapped s va rest (4096 * bits x 12 40))

/-- The entry of the translation directory for an address space (R182). -/
def dirEntry (s : State) (part asn : Nat) : Nat := readNat s ((s.boot.dirbase.getD part 0).toNat + 16 * asn) 8

/-- The root table of an address space (R182). -/
def rootOf (s : State) (part asn : Nat) : Nat := 4096 * bits (dirEntry s part asn) 12 40

/-- A page of an address space is free: nothing is mapped there and no publish entry covers it. -/
def virtualFree (s : State) (part asn va : Nat) : Bool :=
  unmapped s va levels (rootOf s part asn) && (pubAt s part asn va).isNone

/-- A section in an address space: its first byte, and its pages. -/
structure Span where
  base  : Nat
  pages : Nat
deriving DecidableEq, Repr

/-- Two sections share no byte. -/
def Span.apart (a b : Span) : Bool := decide (a.base + 4096 * a.pages ≤ b.base) || decide (b.base + 4096 * b.pages ≤ a.base)

/-- A section would lie below 2^57, in pages that are free, apart from sections chosen before (R182, R380, R383). -/
def spanFree (s : State) (part asn : Nat) (used : List Span) (x : Span) : Bool :=
  decide (x.base + 4096 * x.pages ≤ 2 ^ 57) && used.all x.apart &&
  (List.range x.pages).all fun i => virtualFree s part asn (x.base + 4096 * i)

/-- Room for `n` bytes at a multiple of `align`, looked for from `start` on. -/
def roomFor (s : State) (part asn : Nat) (used : List Span) (align n start : Nat) : Option Span :=
  let a := Nat.lcm 4096 (max 1 align)
  let at_ (k : Nat) : Span := ⟨a * k, (n + 4095) / 4096⟩
  (firstFree (2 ^ 57 / a) (start / a) fun k => spanFree s part asn used (at_ k)).map at_

/-- A page entered in the tables of an address space, with the tables that are missing on the way, and the physical page
it is given; none where there is no room (R183, R383). -/
def mapPage (part asn va perms : Nat) : List (Nat × Nat) → Nat → State → Option (State × Nat)
  | [], _, _ => none
  | [(_, lo)], tbl, s =>
    (takePage s part (Config.loadPage asn va)).map fun pa =>
      (performNat s (tbl + 8 * bits va lo 9) 8 (3 + perms + pa), pa)
  | (lvl, lo) :: rest, tbl, s =>
    let e := tbl + 8 * bits va lo 9
    let x := readNat s e 8
    if bit x 0 then mapPage part asn va perms rest (4096 * bits x 12 40) s
    else
      match takePage s part (Config.loadTable asn lvl (va / 2 ^ lo)) with
      | none => none
      | some t => mapPage part asn va perms rest t (performNat s e 8 (1 + t))

/-- Pages entered in the tables of an address space one after the other, each with its bytes written to it. -/
def placePages (part asn perms : Nat) : List (Nat × List Byte) → State → Option State
  | [], s => some s
  | (va, bs) :: l, s =>
    match mapPage part asn va perms levels (rootOf s part asn) s with
    | none => none
    | some (s1, pa) => placePages part asn perms l (performGlobal s1 pa bs)

/-- The bytes of a section, in its pages. -/
def placeSpan (s : State) (part asn perms : Nat) (x : Span) (bs : List Byte) : Option State :=
  placePages part asn perms ((List.range x.pages).map fun i => (x.base + 4096 * i, slice bs (4096 * i) 4096)) s

/-- The sections that a load places: the text, the data aligned to DATAALIGN, and a 16-byte spawn-tree cell for each
launch record (R380, R383). -/
structure Layout where
  text  : Span
  data  : Span
  cells : Span
deriving DecidableEq, Repr

/-- Room for an object of a region, section by section, each apart from those before it. -/
def layoutOf (s : State) (part asn : Nat) (region : Word) (o : ObjHead) : Option Layout :=
  match roomFor s part asn [] 4096 o.textsz (Config.textBase region s.loads) with
  | none => none
  | some t =>
    match roomFor s part asn [t] o.align o.datasz (Config.dataBase region s.loads) with
    | none => none
    | some d =>
      (roomFor s part asn [t, d] 4096 (16 * o.nlaunch) (Config.treeCells region s.loads)).map fun c => ⟨t, d, c⟩

/-- The three sections of a relocated object placed in pages of their own: the text with R and X, the data and the
cells, which are zero, with R and W (R380, R383). -/
def placeObject (s : State) (part asn : Nat) (y : Layout) (o : ObjHead) (out : List Byte) : Option State :=
  ((placeSpan s part asn 20 y.text (slice out 128 o.textsz)).bind fun s1 =>
    placeSpan s1 part asn 12 y.data (slice out o.dataOff o.datasz)).bind fun s2 =>
      placeSpan s2 part asn 12 y.cells (List.replicate (16 * o.nlaunch) 0)

/-- The launch record `k` of a loaded object, with the region pointer and the spawn-tree cell the loader supplies: 16
bytes of its own (R380). -/
def launchBytes (o : ObjHead) (obj : List Byte) (region : Word) (cells k : Nat) : List Byte :=
  let r := slice obj (o.launchOff + 64 * k) 64
  r.take 0x18 ++ toBytes 8 (cells + 16 * k) ++ slice r 0x20 8 ++ toBytes 8 region.toNat ++ r.drop 0x30

/-- The launch records of a loaded object enqueued in object order (R383). -/
def enqueueLaunches (s : State) (m : Request) (y : Layout) (o : ObjHead) (out : List Byte) : State :=
  (List.range o.nlaunch).foldl (fun s k =>
    hostEnqueue s m.part m.fn (w64 (m.arg 1 + o.launchOff + 64 * k)) (launchBytes o out (w64 (m.arg 3)) y.cells.base k)) s

/-- A code object that passed its checks is loaded, and its launch records are enqueued in object order (R383). Where
there is no room for it, the request is refused and has no effect (DESIGN CHOICE, log 18). -/
def loadObject (s : State) (m : Request) (o : ObjHead) (obj : List Byte) (asn : Nat) : Answered :=
  let region := w64 (m.arg 3)
  match layoutOf s m.part asn region o with
  | none => .reply s 1 0 []
  | some y =>
    let out := relocateAll o y.text.base y.data.base obj
    match placeObject s m.part asn y o out with
    | none => .reply s 1 0 []
    | some s1 =>
      let s2 : State := { s1 with
        loads := s1.loads + 1
        objects := s1.objects ++
          [⟨w64 (m.arg 1), region, asn, m.part, o.secv, w64 y.text.base, o.textsz, w64 y.data.base⟩] }
      .reply (enqueueLaunches s2 m y o out) 0 0 (toBytes 8 y.text.base ++ toBytes 8 y.data.base)

/-- LOAD (R305, R366, R383, R384). An object that is shorter than its sections, and one for an address space that has no
tables, to enter its pages in, is refused with STATUS 1 (DESIGN CHOICE, log 18). -/
def loadRequest (s : State) (m : Request) : Answered :=
  let asn := m.h.wbasn.toNat
  match regionPath s m.part asn false (w64 (m.arg 3)) with
  | none => .reply s 1 0 []
  | some path =>
    match hostBytes s m.part m.h (m.arg 1) (m.arg 2) with
    | .error _ => .reply s 1 0 []
    | .ok obj =>
      let o := objHead obj
      let home := rcb s (path.headD 0) 0x20 0 16
      if obj.length < 128 then .reply s 1 0 [] else
      match objRefused s o obj with
      | some d =>
        let r := { parseRecord 0 m.part [] with path := path, asn := home, fdom := rcb s (giver s path 3) 0x10 24 8 }
        .reply (regionFault s r { cause := .codeRefused, detail := d, obj := w64 (m.arg 1) }) 3 d []
      | none =>
        if obj.length < o.size || !bit (dirEntry s m.part home) 0 || !inHbm (rootOf s m.part home) then .reply s 1 0 [] else loadObject s m o obj home

/-- MAILBOX_LOAD (R366, R383). -/
def execMailboxLoad (fn : BitVec 2) (s : State) : Out :=
  .next (serveMail s fn.toNat (· == 1) fun s m => guarded true m s (loadRequest s m))

/-! ### The other operations (R366) -/

/-- MAILBOX_TEAR: TEAR is written in the region's block (R306). -/
def execMailboxTear (fn : BitVec 2) (s : State) : Out :=
  .next (serveMail s fn.toNat (· == 2) fun s m =>
    match regionPath s m.part m.h.wbasn.toNat false (w64 (m.arg 1)) with
    | none => .reply s 1 0 []
    | some path =>
      let pa := path.headD 0 + 0x88
      guarded true m s (simple (performNat s pa 8 (readNat s pa 8 ||| 4))))

/-- The request acts on the package and comes from a function that serves partition 0. -/
def fromMaster (m : Request) : Bool := m.part == 0

/-- MAILBOX_LIMIT: FWLIMIT is written (R361). -/
def execMailboxLimit (fn : BitVec 2) (s : State) : Out :=
  .next (serveMail s fn.toNat (· == 3) fun s m =>
    guarded (fromMaster m && decide (40 ≤ m.arg 1) && decide (m.arg 1 ≤ 132)) m s
      (simple (fwlimitWrite s 0 (BitVec.ofNat 8 (m.arg 1)))))

/-- The move of a cluster that a function asked for is still to be made. -/
def moveOpen (s : State) (fn cluster : Nat) : Bool :=
  s.power.moving.any fun x => x.1 == cluster && x.2.2 == some (BitVec.ofNat 2 fn)

/-- MAILBOX_POOL: placement on the cluster stops, and once it has drained its pool is written (R355). -/
def execMailboxPool (fn : BitVec 2) (s : State) : Out :=
  .next (serveMail s fn.toNat (· == 4) fun s m =>
    let cluster := m.arg 1
    let ok := decide (cluster < 96) && partOfDie s (cluster / 24) == m.part && decide (m.arg 2 ≤ 3)
    let s1 : State := if m.waits then s else { s with power := { s.power with
      moving := s.power.moving ++ [(cluster, BitVec.ofNat 2 (m.arg 2), some (BitVec.ofNat 2 m.fn))] } }
    let s2 := settleMoves s1
    guarded ok m s (if moveOpen s2 m.fn cluster then .wait s2 else simple s2))

/-- MAILBOX_STRICT: DEVMODE.STRICT of the partition is written. -/
def execMailboxStrict (fn : BitVec 2) (s : State) : Out :=
  .next (serveMail s fn.toNat (· == 5) fun s m =>
    let b : BitVec 4 := BitVec.ofNat 4 (2 ^ m.part)
    guarded (decide (m.arg 1 ≤ 1)) m s
      (simple { s with strict := if m.arg 1 = 1 then s.strict ||| b else s.strict &&& ~~~ b }))

/-- MAILBOX_ENROL: an owner key record is checked, and fuses are blown (R368). -/
def execMailboxEnrol (fn : BitVec 2) (s : State) : Out :=
  .next (serveMail s fn.toNat (· == 6) fun s m =>
    guarded (fromMaster m) m s
      (match hostBytes s m.part m.h (m.arg 1) 0x500 with
      | .error _ => .reply s 1 0 []
      | .ok bs =>
        match enrol s.boot (keyRecord bs) with
        | none => .reply s 3 0 []
        | some b => simple { s with boot := b }))

/-- MAILBOX_FUSE: FUSEREQ is written, and the reply waits until FUSECNT reaches the target (R370). -/
def execMailboxFuse (fn : BitVec 2) (s : State) : Out :=
  .next (serveMail s fn.toNat (· == 7) fun s m =>
    let v := m.arg 1
    let s1 := if m.waits then s else fuseRequest s (BitVec.ofNat 9 v)
    guarded (fromMaster m && decide (v ≤ 256)) m s
      (if v ≤ s.boot.fusecnt.toNat then simple s1 else .wait s1))

/-- MAILBOX_ROUTE: an entry of the route table is written (R335). -/
def execMailboxRoute (fn : BitVec 2) (s : State) : Out :=
  .next (serveMail s fn.toNat (· == 8) fun s m =>
    guarded (fromMaster m && decide (m.arg 1 < 256) && decide (m.arg 2 < 2 ^ 18)) m s
      (simple { s with routes := store 0 s.routes (m.arg 1) (BitVec.ofNat 18 (m.arg 2)) }))

/-- An OP that R366 does not list. -/
def unknownOp (op : Nat) : Bool := op == 0 || decide (9 ≤ op)

/-- MAILBOX_UNKNOWN_OP: STATUS 2, and no effect. -/
def execMailboxUnknownOp (fn : BitVec 2) (s : State) : Out :=
  .next (serveMail s fn.toNat unknownOp fun s _ => .reply s 2 0 [])

/-- REQKICK (R366): the producer index, as a kick (R331). -/
def execReqkick (fn : BitVec 2) (v : BitVec 32) (s : State) : Out :=
  .next (onFn s fn.toNat fun h => { h with reqkick := kicked h.reqkick v })

/-- MBEN: a write of 1 also starts a stopped mailbox again (R366). -/
def mbenWrite (s : State) (fn : Nat) (on : Bool) : State :=
  onFn s fn fun h => { h with mben := on, mbstop := h.mbstop && !on }

/-- MBEN (R366). -/
def execMben (fn : BitVec 2) (on : BitVec 1) (s : State) : Out := .next (mbenWrite s fn.toNat (on == 1))

/-- The event by which a mailbox goes on, if it can. -/
def mailNext (s : State) (fn : BitVec 2) : Option Instr :=
  match mailAt s fn.toNat with
  | .idle => none
  | .broken => some (.mailboxUnknownOp fn)
  | .bad _ _ _ => some (.mailboxUnknownOp fn)
  | .request m =>
    let held (ready : Bool) (e : Instr) : Option Instr := if m.waits && !ready then none else some e
    match m.op with
    | 1 => some (.mailboxLoad fn)
    | 2 => some (.mailboxTear fn)
    | 3 => some (.mailboxLimit fn)
    | 4 => held (clusterEmpty s (m.arg 1) || !moveOpen s m.fn (m.arg 1)) (.mailboxPool fn)
    | 5 => some (.mailboxStrict fn)
    | 6 => some (.mailboxEnrol fn)
    | 7 => held (decide (m.arg 1 ≤ s.boot.fusecnt.toNat)) (.mailboxFuse fn)
    | 8 => some (.mailboxRoute fn)
    | _ => some (.mailboxUnknownOp fn)

end Sys2Proof.Machine
end

