-- ==== Sys2Proof/Machine/Sys.lean ====
section
/-!
DEFINITION. The system registers and the meanings of the SYS words (spec/23_system_instructions.md, R307 to R318).
-/

namespace Sys2Proof.Machine

/-! ### System registers (R308, R311) -/

/-- GAL (R177). -/
def galWord (g : Gallery) : Nat := g.vbase.toNat + 2 ^ 32 * g.vgran + 2 ^ 40 * g.slot

/-- PACESTAT (R308). -/
def paceStat (p : Pacer) : Nat :=
  2 ^ 16 * p.self.toNat + 2 ^ 8 * ((viewMembers p.view).length - 1) + bitAt p.walkhold 2 +
    bitAt (p.grouped && p.isCoordinator) 1 + bitAt p.grouped 0

/-- The value of a system register of the crew in focus (R308). -/
def sysRead (s : State) (n : Nat) : Word :=
  let c := s.c
  let g := s.g
  match n with
  | 0x000 => w64 (crewId c)
  | 0x001 => w64 (galWord g)
  | 0x002 => w64 c.core
  | 0x003 => w64 (clusterOf c.core)
  | 0x004 => w64 (dieOfCore c.core)
  | 0x005 => w64 (s.part + 2 ^ 4 * s.boot.partcfg.toNat)
  | 0x006 => w64 g.nthr
  | 0x007 => w64 (gangs g.nthr)
  | 0x008 => w64 (count g.live)
  | 0x010 => c.xsub.setWidth 64
  | 0x011 => c.xstat.setWidth 64
  | 0x012 => c.fprm.setWidth 64
  | 0x013 => c.srchchk.setWidth 64
  | 0x014 => c.clausef.setWidth 64
  | 0x015 => tagReady c
  | 0x016 => w64 c.stack.length
  | 0x020 => g.rcd.region
  | 0x021 => c.prio.setWidth 64
  | 0x022 => w64 (bits s.power.poolmap.toNat (2 * clusterOf c.core) 2)
  | 0x023 => w64 g.rcd.mtok
  | 0x024 => c.launchrec
  | 0x025 => c.argp
  | 0x030 => s.pacer.ceil.setWidth 64
  | 0x031 => w64 s.pacer.lap
  | 0x032 => w64 (paceStat s.pacer)
  | 0x033 => s.boot.paceword
  | 0x040 => s.timens
  | 0x041 => c.cycles
  | 0x050 => c.trapcause.setWidth 64
  | 0x051 => c.trappc
  | 0x052 => c.trapaddr
  | 0x053 => c.trapinfo
  | 0x054 => c.privl.setWidth 64
  | 0x060 => w64 (bitAt (s.strict.getLsbD s.part) 0)
  | 0x061 => s.boot.secver.setWidth 64
  | 0x062 => 0x0100
  | 0x063 => s.power.eoldays.setWidth 64
  | _ => 0

/-- CLAUSEF after a handler has moved TRAPPC past the word it names: one word fewer is left of the open clause, and of a
predicate block with it (R312; log 13). -/
def stepPast (f : BitVec 38) : BitVec 38 :=
  let n := f.toNat
  if bits n 0 6 = 0 then f
  else
    let rest := n - 1
    BitVec.ofNat 38 (
      if !bit n 22 then rest
      else if bits n 26 4 ≤ 1 then rest % 2 ^ 22
      else rest % 2 ^ 26 + (bits n 26 4 - 1) * 2 ^ 26 + bits n 31 7 * 2 ^ 30)

/-- A system register written; registers that are never written stay (R308, R311). -/
def sysWrite (s : State) (n : Nat) (v : Word) : State :=
  let c := s.c
  match n with
  | 0x010 => { s with c := { c with xsub := v.setWidth 6 } }
  | 0x011 => { s with c := { c with xstat := c.xstat &&& ~~~ v.setWidth 10 } }
  | 0x012 => { s with c := { c with fprm := v.setWidth 2 } }
  | 0x013 => { s with c := { c with srchchk := v.setWidth 1 } }
  | 0x014 => { s with c := { c with clausef := v.setWidth 38 } }
  | 0x021 => { s with c := { c with prio := v.setWidth 3 } }
  | 0x041 => { s with c := { c with cycles := v } }
  | 0x050 => { s with c := { c with trapcause := v.setWidth 8 } }
  | 0x051 => { s with c := { c with
      trappc := v, clausef := if v = c.trappc + 4 then stepPast c.clausef else c.clausef } }
  | 0x052 => { s with c := { c with trapaddr := v } }
  | 0x053 => { s with c := { c with trapinfo := v } }
  | 0x060 =>
    let b : BitVec 4 := BitVec.ofNat 4 (2 ^ s.part)
    { s with strict := if v.getLsbD 0 then s.strict ||| b else s.strict &&& ~~~ b }
  | _ => s

/-- The subgroup widths (R109). -/
def isSubgroup (v : Word) : Bool := v == 1 || v == 2 || v == 4 || v == 8 || v == 16 || v == 32

/-- RDSYS (R310). -/
def execRdsys (d : BitVec 6) (n : BitVec 12) (s : State) : Out :=
  issue (.rdsys d n) s fun s => doneS s d (sysRead s n.toNat)

/-- WRSYS: a bad XSUB is ILLEGAL, and a PRIO above the gallery's effective priority is PRIV below PRIVL 2 (R311). -/
def execWrsys (d : BitVec 6) (n : BitVec 12) (s : State) : Out :=
  issue (.wrsys d n) s fun s =>
    let v := getS s.c d
    if n = 0x010 ∧ !isSubgroup v then
      takeTrap s (trapHere s .illegal 0 (((encode (.wrsys d n)).getD 0).setWidth 64))
    else if n = 0x021 ∧ s.c.privl.toNat < 2 ∧ s.g.rcd.prio < v.toNat % 8 then
      takeTrap s (trapHere s .priv 0 (n.setWidth 64))
    else done (sysWrite s n.toNat v)

/-! ### Traps and returns (R312, R313, R316) -/

/-- TRAP: TRAPPC is the next word (R312). -/
def execTrap (n : BitVec 12) (s : State) : Out :=
  issue (.trap n) s fun s => takeTrap s ⟨.trap, normPc (s.c.pc + 4), 0, n.setWidth 64, false, 0⟩

/-- BKPT: TRAPPC is the `BKPT` itself (R312). -/
def execBkpt (n : BitVec 12) (s : State) : Out :=
  issue (.bkpt n) s fun s => takeTrap s (trapHere s .bkpt 0 (n.setWidth 64))

/-- Everything the crew has issued has landed, been performed and been acknowledged. -/
def quiet (c : Crew) : Bool := c.land == [] && c.stores == [] && c.acks == [] && c.redq == []

/-- What `RTE` reads of the save record holds an uncorrectable word: the program bank, the outstanding marks, and the
mark of a predicate block (R292, R304). -/
def returnLost (s : State) : Bool :=
  s.c.save != 0 &&
  (saveSpoiled s s.g s.c.save 0x40 128 || saveSpoiled s s.g s.c.save 0x400 384 ||
   (bit s.c.clausef.toNat 22 && saveSpoiled s s.g s.c.save 0x1E00 256))

/-- RTE: it stalls until the handler's results have landed and its stores are performed, with its flags clear; a bad
TRAPPC or CLAUSEF halts the crew with DOUBLE (R292, R313). A context that cannot be read is not restored: the crew is
halted with a FATAL CTX_LOST (R304; DESIGN CHOICE, log 77). -/
def execRte (s : State) : Out :=
  issue .rte s fun s =>
    if !quiet s.c then hold s
    else if s.c.trappc.toNat % 4 ≠ 0 ∨ 2 ^ 57 ≤ s.c.trappc.toNat ∨ clausefBad s.c.clausef.toNat then
      haltCrew s { cause := .double, detail := s.c.trapcause.toNat, fatal := true, addr := s.c.trappc, pc := s.c.pc }
    else if returnLost s then haltCrew s { cause := .ctxLost, fatal := true, obj := s.c.save, pc := s.c.pc }
    else returnFromTrap s

/-- HALT: the crew is halted with a record of the trap it serves; a foreman core stops (R316, R365). -/
def execHalt (s : State) : Out :=
  issue .halt s fun s =>
    haltCrew s { cause := Cause.ofCode s.c.trapcause.toNat, pc := s.c.trappc }

/-- YIELD: the crew's waiting age is 0, and it lets others of its core go before it (R315). -/
def execYield (s : State) : Out :=
  issue .yield s fun s => done { s with c := { s.c with age := 0, passedU := 0, passedL := 0, yielded := some 0 } }

/-- NOP (R315). -/
def execNop (s : State) : Out := issue .nop s fun s => done s

/-! ### Spilling the responder stack (R317) -/

/-- The places of the eight entries at an address, or the failing address and its cause. -/
def spillPlaces (s : State) (need : Need) (a : Word) : Nat → Except (Cause × Word) (List Place)
  | 0 => .ok []
  | n + 1 =>
    match spillPlaces s need a n with
    | .error e => .error e
    | .ok l =>
      let x := a + w64 (256 * n)
      match checkGlobal s need x.toNat 256 256 with
      | .error e => .error (e, x)
      | .ok p => .ok (l ++ [p])

/-- The stack trap of `RSPILL` and `RFILL`. -/
def spillTrap (s : State) (cause : Cause) : State := takeTrap s (trapHere s cause 0 (depthInfo s))

/-- RSPILL: the eight oldest entries go to memory, as plain stores (R317). -/
def execRspill (a : BitVec 6) (s : State) : Out :=
  issue (.rspill a) s fun s =>
    match spillPlaces s needW (getS s.c a) 8 with
    | .error (e, x) => scalarFault s e x 1
    | .ok l =>
      if s.c.stack.length < 8 then spillTrap s .rstkUnf
      else if l.any fun p => redqMeets s p.pa 256 then hold s
      else if s.c.badStack.any (· < 8) then takeTrap s (trapHere s .eccUncorr 0 0)
      else
        let s1 := (l.zip s.c.stack).foldl (fun s (p, e) => queueStore s false [⟨false, p.home, p.pa, setBytes e⟩]) s
        done { s1 with c := { s1.c with
          stack := s1.c.stack.drop 8, badStack := (s1.c.badStack.filter (8 ≤ ·)).map (· - 8) } }

/-- RFILL: eight entries come back below the others, each within LIVE (R317). -/
def execRfill (a : BitVec 6) (s : State) : Out :=
  issue (.rfill a) s fun s =>
    match spillPlaces s needR (getS s.c a) 8 with
    | .error (e, x) => scalarFault s e x 0
    | .ok l =>
      if 8 < s.c.stack.length then spillTrap s .rstkOvf
      else if (l.any fun p => redqMeets s p.pa 256) || fenced s needR then hold s
      else
        match (l.zipIdx).find? fun x => ownPoisoned s false x.1.pa 256 with
        | some x => scalarEcc s (getS s.c a + w64 (256 * x.2)) 0
        | none =>
          let got := l.map fun p => setFrom (ownBytes s false p.pa 256) &&& s.g.live
          done { s with c := { s.c with stack := got ++ s.c.stack, badStack := s.c.badStack.map (· + 8) } }

/-! ### Moving contexts (R318) -/

/-- A context word: its block is read, and the crew is held until the move has ended (R318, R319). -/
def contextWord (s : State) (a : Word) (load : Bool) : State :=
  scalarAccess s needR a 64 64 0 fun p =>
    if ownPoisoned s false p.pa 64 then scalarEcc s a 0 else
    let s1 := atHome s
    let w0 := readNat s1 p.pa 8
    let j : CtxJob :=
      { uid := s1.c.uid, block := p.pa, load := load, mode := BitVec.ofNat 2 (bits w0 16 2), core := bits w0 0 9,
        gslot := bits w0 9 4, dest := w64 (readNat s1 (p.pa + 8) 8), start := s1.timens }
    { s1 with ctx := s1.ctx ++ [j], c := { s1.c with status := .moving } }

/-- CTXSAVE (R319). -/
def execCtxsave (a : BitVec 6) (s : State) : Out :=
  issue (.ctxsave a) s fun s => contextWord s (getS s.c a) false

/-- CTXLOAD (R319). -/
def execCtxload (a : BitVec 6) (s : State) : Out :=
  issue (.ctxload a) s fun s => contextWord s (getS s.c a) true

end Sys2Proof.Machine
end

