-- ==== Sys2Proof/Machine/Aperture.lean ====
section
/-!
DEFINITION. Window A and the control aperture of the foreman cores (R329, R330, R361, R363, R364, R366, R371, R372),
and the meanings of the vault words `LDV` and `STV`, which reach it (R210 to R213, R363).
-/

namespace Sys2Proof.Machine

/-- Who looks at a control block: the function whose registers it shows, the partition, and the die of a foreman core,
which alone sees the foreman-only blocks. -/
structure Viewer where
  fn   : Nat
  part : Nat
  die  : Option Nat

/-- The view of a foreman core: the function with its partition's number (log 37). -/
def Viewer.foreman (s : State) (die : Nat) : Viewer := ⟨partOfDie s die, partOfDie s die, some die⟩

/-- The byte offset `o` lies in a block of `size` bytes at `base`. -/
def inBlock (o base size : Nat) : Bool := decide (base ≤ o) && decide (o < base + size)

/-- The offset is of a block that only foreman firmware reaches (R361, R363, R371). -/
def foremanOnly (o : Nat) : Bool := inBlock o 0x50000 0x30000

/-- A 64-bit word of a 256-bit register. -/
def quarter (x : BitVec 256) (k : Nat) : Word := w64 (bits x.toNat (64 * k) 64)

/-! ### Reads -/

/-- The identity block (R329, R364; offsets, log 37). -/
def identityWord (s : State) (v : Viewer) (o : Nat) : Word :=
  match o with
  | 0x00 => Config.partNumber
  | 0x08 => Config.deviceNumber
  | 0x10 => 0x0100
  | 0x18 => s.boot.secver.setWidth 64
  | 0x20 => w64 (v.part + 2 ^ 4 * s.boot.partcfg.toNat)
  | 0x28 => w64 (bitAt (fready s v.part) 3 + 2 ^ 8 * (s.boot.fstat.getD v.part 0).toNat)
  | 0x30 => s.boot.fusecnt.setWidth 64
  | _ => if inBlock o 0x40 0x100 then quarter (s.boot.meas.getD ((o - 0x40) / 32) 0) ((o - 0x40) / 8 % 4) else 0

/-- A host queue's registers (R330). -/
def queueWord (x : HostQueue) (o : Nat) : Word :=
  match o with
  | 0x00 => x.qbase
  | 0x08 => x.kick.setWidth 64
  | 0x10 => w64 (bitAt x.enable 0 + bitAt x.stopped 1 + 2 ^ 32 * x.cons.toNat)
  | _ => 0

/-- The error counters (R329, R360; offsets, log 37). -/
def errorWord (s : State) (o : Nat) : Word :=
  if o < 0x50 then w64 (s.corrected.getD (o / 8) 0)
  else if o = 0x80 then w64 s.errcnt
  else if o = 0x88 then w64 s.power.eolcount
  else if inBlock o 0x100 (8 * 18) then w64 (s.ports.getD ((o - 0x100) / 8) Port.reset).replays
  else 0

/-- PCTL and PSTAT of a port (R372). -/
def portWord (q : Port) (o : Nat) : Word :=
  match o with
  | 0x00 => w64 (bitAt q.en 0)
  | 0x08 => w64 (q.state.toNat + 2 ^ 8 * q.peer.toNat + 2 ^ 16 * q.retrains.toNat)
  | _ => 0

/-- A memory controller's block (R371). -/
def ctlBlockWord (c : Controller) (o : Nat) : Word :=
  match o with
  | 0x00 => c.trnctl
  | 0x08 => c.trnstat
  | 0x10 => c.lanemap
  | _ => 0

/-- The boot block (R364). -/
def bootWord (s : State) (part die o : Nat) : Word :=
  let b := s.boot
  match o with
  | 0x00 => w64 (bitAt (b.romovl.getLsbD die) 0 + bitAt (die == 0) 1 + bitAt Config.enrolStrap 2 +
      bitAt (fready s part) 3 + 2 ^ 8 * (b.fstat.getD part 0).toNat)
  | 0x08 => b.ftvec.getD part 0
  | 0x10 => b.dirbase.getD part 0
  | 0x18 => b.partcfg.setWidth 64
  | 0x20 => b.fusecnt.setWidth 64
  | 0x380 => w64 (b.keyrev.toNat + bitAt b.vndoff 4)
  | _ =>
    if inBlock o 0x40 0x100 then quarter (b.meas.getD ((o - 0x40) / 32) 0) ((o - 0x40) / 8 % 4)
    else if inBlock o 0x200 32 then quarter b.measin ((o - 0x200) / 8)
    else if inBlock o 0x300 0x80 then quarter (b.keyhash.getD ((o - 0x300) / 32) 0) ((o - 0x300) / 8 % 4)
    else 0

/-- The power block (R361). -/
def powerWord (s : State) (part o : Nat) : Word :=
  let p := s.power
  let l := p.limits.getD part ⟨1800000, 1400000, 4096, 8192⟩
  match o with
  | 0x00 => s.pacer.fwlimit.setWidth 64
  | 0x08 => w64 (p.clsprint.toNat + 2 ^ 8 * p.cltempo.toNat + 2 ^ 16 * p.cldist.toNat)
  | 0x10 => w64 (bits p.poolmap.toNat 0 64)
  | 0x18 => w64 (bits p.poolmap.toNat 64 64)
  | 0x20 => w64 (bits p.poolmap.toNat 128 64)
  | 0x28 => w64 (l.curhigh.toNat + 2 ^ 32 * l.curlow.toNat)
  | 0x30 => w64 (l.heavy.toNat + 2 ^ 16 * l.ballast.toNat)
  | 0x38 => w64 (s.pacer.gid.toNat + bitAt s.pacer.en 16)
  | _ => 0

/-- The mailbox registers (R366). -/
def mailWord (h : HostFn) (o : Nat) : Word :=
  match o with
  | 0x00 => h.reqbase
  | 0x08 => h.reqkick.setWidth 64
  | 0x10 => h.rspbase
  | 0x18 => w64 (bitAt h.mben 0 + bitAt h.mbstop 1)
  | _ => 0

/-- The 8-byte control register at an aligned offset; an unlisted offset reads 0 (R329). -/
def ctlRead (s : State) (v : Viewer) (o : Nat) : Word :=
  let h := fnOf s v.fn
  match v.die with
  | none => if foremanOnly o then 0 else shared h o
  | some die =>
    if inBlock o 0x50000 0x8000 then
      ctlBlockWord (s.ctls.getD ((o - 0x50000) / 0x1000) ⟨0, 0, 0, false, 0⟩) (o % 0x1000)
    else if inBlock o 0x60000 0x1000 then bootWord s v.part die (o - 0x60000)
    else if inBlock o 0x70000 0x1000 then powerWord s v.part (o - 0x70000)
    else shared h o
where
  /-- The blocks that the host sees too. -/
  shared (h : HostFn) (o : Nat) : Word :=
    if inBlock o 0 0x1000 then identityWord s v o
    else if o = 0x1000 then h.wbbase
    else if o = 0x1008 then h.wbasn.setWidth 64
    else if o = 0x1010 then h.wbring
    else if inBlock o 0x10000 0x800 then queueWord (look emptyQueue h.queues ((o - 0x10000) / 32)) (o % 32)
    else if o = 0x20008 then w64 (bitAt h.shootdone 0)
    else if inBlock o 0x30000 0x1000 then errorWord s (o - 0x30000)
    else if inBlock o 0x40000 0x1200 then portWord (s.ports.getD ((o - 0x40000) / 256) Port.reset) (o % 256)
    else if inBlock o 0x41200 0x800 then (look 0 s.routes ((o - 0x41200) / 8)).setWidth 64
    else if inBlock o 0x100000 0x20 then mailWord h (o - 0x100000)
    else 0

/-! ### Writes -/

/-- A write to an 8-byte control register: the bytes written with 0 elsewhere, the whole word with the old bytes kept,
and whether its byte 0 is among those written. -/
structure CtlWrite where
  raw : Word
  new : Word
  low : Bool

/-- A write that no register takes is dropped and counted in ERRCNT (R329). -/
def dropWrite (s : State) : State := countError s

/-- A 256-bit register with one of its words replaced. -/
def setQuarter (x : BitVec 256) (k : Nat) (w : Word) : BitVec 256 :=
  BitVec.ofNat 256 (x.toNat - bits x.toNat (64 * k) 64 * 2 ^ (64 * k) + w.toNat * 2 ^ (64 * k))

/-- A write of a host queue's registers (R330, R331). -/
def queueWrite (s : State) (fn q o : Nat) (w : CtlWrite) : State :=
  onQueue s fn q fun x =>
    match o with
    | 0x00 => { x with qbase := w.new }
    | 0x08 => { x with kick := kicked x.kick (w.new.setWidth 32) }
    | 0x10 => if w.low then { x with enable := w.new.getLsbD 0, stopped := false } else x
    | _ => x

/-- A write of a port's registers; PSTAT is read-only (R372). -/
def portWrite (s : State) (p o : Nat) (w : CtlWrite) : State :=
  if o ≠ 0 then s
  else
    let s1 := if w.low then portEnable s p (w.new.getLsbD 0) else s
    if w.raw.getLsbD 1 then onPort s1 p fun q => q.retrain s.timens.toNat else s1

/-- A write of a function's mailbox registers (R366). -/
def mailWrite (s : State) (fn o : Nat) (w : CtlWrite) : State :=
  match o with
  | 0x00 => onFn s fn fun h => { h with reqbase := w.new }
  | 0x08 => onFn s fn fun h => { h with reqkick := kicked h.reqkick (w.new.setWidth 32) }
  | 0x10 => onFn s fn fun h => { h with rspbase := w.new }
  | _ => if w.low then mbenWrite s fn (w.new.getLsbD 0) else s

/-- A write of a memory controller's registers (R371). -/
def ctlBlockWrite (s : State) (k o : Nat) (w : CtlWrite) : State :=
  match o with
  | 0x00 => trnctlWrite s k ((w.new &&& 0x3F) ||| (w.raw &&& 0x100))
  | 0x08 => onCtl s k fun c => { c with trnstat := c.trnstat &&& ~~~ (w.raw &&& 3) }
  | 0x10 => s
  | _ => dropWrite s

/-- A write of the boot block; read-only registers keep their values (R364). -/
def bootWrite (s : State) (part die o : Nat) (w : CtlWrite) : State :=
  let b := s.boot
  match o with
  | 0x00 =>
    let s1 := if w.raw.getLsbD 0 then clearRom s die else s
    let m : BitVec 4 := BitVec.ofNat 4 (2 ^ part)
    { s1 with boot := { s1.boot with
        fready := if w.new.getLsbD 3 then s1.boot.fready ||| m else s1.boot.fready &&& ~~~ m
        fstat := s1.boot.fstat.setIfInBounds part ((w.new >>> 8).setWidth 4) } }
  | 0x08 => { s with boot := { b with ftvec := b.ftvec.setIfInBounds part w.new } }
  | 0x10 => { s with boot := { b with dirbase := b.dirbase.setIfInBounds part (w.new &&& 0xFFFFFFFFFF000) } }
  | 0x18 => if b.placed ∨ w.new.toNat % 4 = 3 then s else { s with boot := { b with partcfg := w.new.setWidth 2 } }
  | 0x20 => s
  | 0x28 => fuseRequest s (w.raw.setWidth 9)
  | 0x220 => if w.low then measure s (w.raw.toNat % 8) else s
  | 0x380 => s
  | _ =>
    if inBlock o 0x200 32 then { s with boot := { b with measin := setQuarter b.measin ((o - 0x200) / 8) w.new } }
    else if inBlock o 0x40 0x100 || inBlock o 0x300 0x80 then s
    else dropWrite s

/-- A write of one word of POOLMAP: clusters of other partitions, and clusters that hold a resident gallery, keep
their pool (R361). -/
def poolWrite (s : State) (part k : Nat) (w : Word) : State :=
  (List.range 32).foldl (fun s i =>
    let cluster := 32 * k + i
    if partOfDie s (cluster / 24) == part && clusterEmpty s cluster then
      setPool s cluster (BitVec.ofNat 2 (bits w.toNat (2 * i) 2)) else s) s

/-- A write of the power block; what the package holds once takes writes from the master die alone (R361). -/
def powerWrite (s : State) (part die o : Nat) (w : CtlWrite) : State :=
  let byte (k : Nat) : BitVec 8 := clampStep ((w.new >>> (8 * k)).setWidth 8)
  let limit (f : CurrentLimits → CurrentLimits) : State :=
    { s with power := { s.power with
        limits := s.power.limits.setIfInBounds part (f (s.power.limits.getD part ⟨1800000, 1400000, 4096, 8192⟩)) } }
  match o with
  | 0x00 => fwlimitWrite s die (w.new.setWidth 8)
  | 0x08 => if die ≠ 0 then s else
      { s with power := { s.power with clsprint := byte 0, cltempo := byte 1, cldist := byte 2 } }
  | 0x10 => poolWrite s part 0 w.new
  | 0x18 => poolWrite s part 1 w.new
  | 0x20 => poolWrite s part 2 w.new
  | 0x28 => limit fun l => { l with curhigh := w.new.setWidth 32, curlow := (w.new >>> 32).setWidth 32 }
  | 0x30 => limit fun l => { l with heavy := w.new.setWidth 16, ballast := (w.new >>> 16).setWidth 32 }
  | 0x38 => if die ≠ 0 then s else
      let s1 := if s.pacer.en then s else { s with pacer := { s.pacer with gid := w.new.setWidth 16 } }
      paceenWrite s1 die (w.new.getLsbD 16)
  | _ => dropWrite s

/-- A route table entry written by firmware; a host write is dropped and counted (R335). -/
def routeWrite (s : State) (v : Viewer) (d : Nat) (w : CtlWrite) : State :=
  match v.die with
  | none => dropWrite s
  | some _ => { s with routes := store 0 s.routes d (w.new.setWidth 18) }

/-- A write of the 8-byte control register at an aligned offset. -/
def ctlWrite (s : State) (v : Viewer) (o : Nat) (w : CtlWrite) : State :=
  match v.die with
  | none => if foremanOnly o then dropWrite s else shared
  | some die =>
    if inBlock o 0x50000 0x8000 then ctlBlockWrite s ((o - 0x50000) / 0x1000) (o % 0x1000) w
    else if inBlock o 0x60000 0x1000 then bootWrite s v.part die (o - 0x60000) w
    else if inBlock o 0x70000 0x1000 then powerWrite s v.part die (o - 0x70000) w
    else shared
where
  /-- The blocks that the host reaches too. -/
  shared : State :=
    if inBlock o 0 0x38 || inBlock o 0x40 0x100 then s
    else if o = 0x1000 then onFn s v.fn fun h => { h with wbbase := w.new }
    else if o = 0x1008 then onFn s v.fn fun h => { h with wbasn := w.new.setWidth 16 }
    else if o = 0x1010 then onFn s v.fn fun h => { h with wbring := w.new }
    else if inBlock o 0x10000 0x800 then queueWrite s v.fn ((o - 0x10000) / 32) (o % 32) w
    else if o = 0x20000 then onFn s v.fn fun h => { h with shoot := some (w.raw.setWidth 16), shootdone := false }
    else if o = 0x20008 then s
    else if inBlock o 0x30000 0x50 || o = 0x30080 || o = 0x30088 || inBlock o 0x30100 (8 * 18) then s
    else if inBlock o 0x40000 0x1200 && decide (o % 256 < 16) then portWrite s ((o - 0x40000) / 256) (o % 256) w
    else if inBlock o 0x41200 0x800 then routeWrite s v ((o - 0x41200) / 8) w
    else if inBlock o 0x100000 0x20 then mailWrite s v.fn (o - 0x100000) w
    else dropWrite s

/-! ### Narrow accesses -/

/-- `n` bytes of a control register, within one 8-byte word. -/
def ctlNat (s : State) (v : Viewer) (a n : Nat) : Nat := bits (ctlRead s v (a / 8 * 8)).toNat (8 * (a % 8)) (8 * n)

/-- `n` bytes written to a control register, within one 8-byte word: bytes that are not written keep what a read-write
field holds, and count as 0 for a field that acts on the bits written (log 37). -/
def ctlStore (s : State) (v : Viewer) (a n x : Nat) : State :=
  let o := a / 8 * 8
  let lo := 8 * (a % 8)
  let old := (ctlRead s v o).toNat
  let raw := x % 2 ^ (8 * n) * 2 ^ lo
  ctlWrite s v o ⟨w64 raw, w64 (old - bits old lo (8 * n) * 2 ^ lo + raw), a % 8 == 0⟩

/-- REGISTER_WRITE: 8 bytes written by the host to window A; one that is not aligned names no register (R329). -/
def execRegisterWrite (fn : BitVec 2) (off : BitVec 22) (v : BitVec 64) (s : State) : Out :=
  .next (match fnPart s fn.toNat with
    | none => s
    | some part =>
      if off.toNat % 8 ≠ 0 then dropWrite s
      else ctlStore s ⟨fn.toNat, part, none⟩ off.toNat 8 v.toNat)

/-! ### LDV and STV (R210 to R213, R363) -/

/-- The access of the crew in focus reaches the control block of its partition (R363). -/
def controlAt (s : State) (a : Nat) : Bool := isControl (dieOfCore s.c.core) s.c.privl.toNat a

/-- The view of the crew in focus, a foreman crew. -/
def ownView (s : State) : Viewer := Viewer.foreman s (dieOfCore s.c.core)

/-- The number a thread's `LDV` reads, or none where an uncorrectable word stands. -/
def loadVault (s : State) (a n : Nat) : Option Nat :=
  if controlAt s a then some (ctlNat s (ownView s) (a % 2 ^ 22) n)
  else if poisoned s true a n then none
  else some (ofBytes (vaultBytes s a n))

/-- A store of the crew in focus to the vault of an address waits for a reduction (R204, R219). -/
def vaultStays (s : State) (a : Nat) : Bool :=
  s.c.staying.any fun p => p.writes.any fun w => w.vault && w.addr / 2 ^ 22 == a / 2 ^ 22

/-- LDV: from the vaults, or for a foreman core from the control block (R210, R363). What the crew has stored before is
performed first, since its accesses to one vault stay in program order (R204). -/
def execLdv (z : BitVec 2) (d a : BitVec 7) (f : BitVec 6) (s : State) : Out :=
  issue (.ldv z d a f) s fun s =>
    let n := sizeOf z
    laneAccess s (vaultAddr s a z f) (vaultCheck s n) 3 fun l =>
      laneUnless s l n (fun s x _ => fenced s needR || vaultStays s x) <|
      let s := performAll s
      let bad := (l.filter fun x => (loadVault s x.2.2.pa n).isNone).map fun x => (x.1, x.2.1)
      landLanes (reportPoison s d bad) d (l.map (·.1))
        (fun t => (l.find? (·.1 == t)).bind fun x => (loadVault s x.2.2.pa n).map w64)
        (fun _ => 0)

/-- STV: to the vaults, or for a foreman core to the control block, in ascending order of thread (R210, R363). A control
store is performed in the crew's order, after everything it has stored before (R192, R204). One by which the master
reports a stage of the boot enters that stage (log 79). -/
def execStv (z : BitVec 2) (d a : BitVec 7) (f : BitVec 6) (s : State) : Out :=
  issue (.stv z d a f) s fun s =>
    let n := sizeOf z
    laneAccess s (vaultAddr s a z f) (vaultCheck s n) 3 fun l =>
      let l := lastWriters l
      let ctl := l.filter fun x => controlAt s x.2.2.pa
      let vlt := l.filter fun x => !controlAt s x.2.2.pa
      let v := ownView s
      let s1 := queueStore s false (vlt.map fun x => ⟨true, 0, x.2.2.pa, toBytes n (reg s x.1 d).toNat⟩)
      if ctl = [] then done s1
      else if fenced s needW || s.c.staying != [] then hold s
      else bootStage s (done (ctl.foldl (fun s1 x => ctlStore s1 v (x.2.2.pa % 2 ^ 22) n (reg s x.1 d).toNat) (atHome s1)))

end Sys2Proof.Machine
end

