-- ==== Sys2Proof/Machine/MatrixSum.lean ====
section
/-!
DEFINITION. The sums of a matrix pass (spec/06_number_formats.md, R89 to R92): the value of one tile element after one
K-block.
-/

namespace Sys2Proof.Machine

/-- The value of an element of a floating matrix format: 0 E4M3, 1 NB4 (as its planes carry it), 3 BF16, 4 FP16,
5 FP32. -/
def mxValue (kind code : Nat) : FVal :=
  match kind with
  | 0 => e4m3Value code
  | 1 => nb4Value (8 * bits code 12 1 + bits code 0 3) (bits code 4 8) (bits code 3 1)
  | 3 => bf16.value code
  | 4 => fp16.value code
  | _ => fp32.value code

/-- A finite exact value: sign, magnitude, exponent. -/
structure Exact where
  neg : Bool
  m   : Nat
  e   : Int

/-- The exponent of the leading bit. -/
def Exact.top (x : Exact) : Int := topExp x.m x.e

/-- The greatest leading exponent of the non-zero values of a list; none if every value is 0. -/
def topOf : List Exact → Option Int
  | [] => none
  | x :: l =>
    if x.m = 0 then topOf l else
    match topOf l with
    | none => some x.top
    | some t => some (max x.top t)

/-- A value in units of 2^lsb with its lower bits removed, and whether any were (R89, R90). -/
def Exact.cut (x : Exact) (lsb : Int) : Int × Bool :=
  let k := x.e - lsb
  let n := if 0 ≤ k then x.m * 2 ^ k.toNat else x.m / 2 ^ (-k).toNat
  (if x.neg then -(n : Int) else n, decide (k < 0) && x.m % 2 ^ (-k).toNat != 0)

/-- The sum of some values in units of 2^lsb, and whether any bit was removed. -/
def sumCut (l : List Exact) (lsb : Int) : Int × Bool :=
  l.foldl (fun a x => let c := x.cut lsb; (a.1 + c.1, a.2 || c.2)) (0, false)

/-- What the products of a block are: NaN, an infinity with its sign, or a finite sum with its sticky bit. -/
inductive BlockSum where
  | nan
  | inf (neg : Bool)
  | fin (x : Exact) (st : Bool)

/-- A finite exact integer in units of 2^lsb. -/
def exactOf (x lsb : Int) : Exact := ⟨decide (x < 0), x.natAbs, lsb⟩

/-- The sum of the products of a block (R89), with the special values of R92. -/
def blockSum (a b : List FVal) : BlockSum :=
  let ps := (a.zip b).map fun (x, y) => (x.mul y).1
  if ps.any FVal.isNan then .nan
  else
    let infs := ps.filterMap fun p => match p with
      | .inf s => some s
      | _ => none
    match infs with
    | s :: l => if l.any (· != s) then .nan else .inf s
    | [] =>
      let xs := ps.filterMap fun p => match p with
        | .num s m e => some (⟨s, m, e⟩ : Exact)
        | _ => none
      match topOf xs with
      | none => .fin ⟨false, 0, 0⟩ false
      | some t =>
        let r := sumCut xs (t - 104)
        .fin (exactOf r.1 (t - 104)) r.2

/-- The sign of a value. -/
def FVal.signBit : FVal → Bool
  | .nan _ => false
  | .inf s => s
  | .num s _ _ => s

/-- A value is zero. -/
def FVal.isZero : FVal → Bool
  | .num _ m _ => m == 0
  | _ => false

/-- A value is infinite. -/
def FVal.isInf : FVal → Bool
  | .inf _ => true
  | _ => false

/-- RoundToF32Sticky (R90). -/
def roundSticky (z lsb : Int) (st : Bool) : Nat :=
  if z = 0 then 0 else (fp32.round 0 (decide (z < 0)) z.natAbs lsb st).bits

/-- The tile element after one K-block of a floating format: promotion, addition and rounding (R90, R92). `c` is the
element before, with +0 for the first block when the command does not accumulate. -/
def promote (x : BlockSum) (sa sb : FVal) (c : Nat) : Nat :=
  let cv := fp32.value c
  if sa.isNan || sb.isNan || cv.isNan then fp32.nan else
  match x with
  | .nan => fp32.nan
  | .inf s =>
    if sa.isZero || sb.isZero then fp32.nan
    else
      let neg := xor s (xor sa.signBit sb.signBit)
      if cv.isInf && cv.signBit != neg then fp32.nan else fp32.inf neg
  | .fin x st =>
    if sa.isInf || sb.isInf then
      if x.m = 0 || sa.isZero || sb.isZero then fp32.nan
      else
        let neg := xor x.neg (xor sa.signBit sb.signBit)
        if cv.isInf && cv.signBit != neg then fp32.nan else fp32.inf neg
    else
      match sa, sb, cv with
      | .num na ma ea, .num nb mb eb, .num nc mc ec =>
        let y : Exact := ⟨xor x.neg (xor na nb), x.m * ma * mb, x.e + ea + eb⟩
        let cx : Exact := ⟨nc, mc, ec⟩
        if y.m = 0 && !st then c
        else
          match topOf [y, cx] with
          | none => 0
          | some l =>
            let r := sumCut [y, cx] (l - 126)
            roundSticky r.1 (l - 126) (st || r.2)
      | _, _, _ => c

/-- The tile element after one K-block of `MMA.i8` (R91). -/
def promoteInt (a b : List Nat) (c : Nat) : Nat :=
  let sum := (a.zip b).foldl (fun t (x, y) => t + signed 8 x * signed 8 y) 0
  wrap 32 (signed 32 c + sum)

end Sys2Proof.Machine
end

