-- ==== Sys2Proof/Machine/Matrix.lean ====
section
/-!
DEFINITION. The matrix engine (spec/19_engines.md, R254 to R261), the meanings of the MX and TOKEN words and of `MRD`
and `MWR` (spec/20_engine_instructions.md, R273 to R277, R281, R282).
-/

namespace Sys2Proof.Machine

/-! ### Tiles and tokens (R186, R258, R259) -/

/-- The key of a tile element (R186). -/
def tileKey (cluster tile i j : Nat) : Nat := ((64 * cluster + tile) * 128 + i) * 128 + j

/-- An element of a tile. -/
def getTile (s : State) (k : Nat) : BitVec 32 := look 0 s.tiles k

/-- A write of a tile element; it mends a parity error there. -/
def setTile (s : State) (k : Nat) (x : BitVec 32) : State :=
  { s with tiles := store 0 s.tiles k x, badTiles := s.badTiles.filter (· != k) }

/-- The token of a tile, if it is not simply with the engine. -/
def tokenOf (s : State) (cluster tile : Nat) : Option Token :=
  s.tokens.find? fun t => t.cluster == cluster && t.tile == tile

/-- Operations on a tile have been admitted and are not retired. -/
def tileBusy (s : State) (cluster tile : Nat) : Bool :=
  s.mx.any fun m => m.cluster == cluster && m.tile == tile && m.kind != 7

/-- A change of the token of a tile, or a new one. -/
def putToken (s : State) (t : Token) : State :=
  { s with tokens := dropIdle ((s.tokens.filter fun u => !(u.cluster == t.cluster && u.tile == t.tile)) ++ [t]) }

/-- Tokens for which crews wait pass from the engine to the first of them once every admitted operation on the tile
has retired (R259). -/
def passTokens (s : State) : State :=
  { s with tokens := s.tokens.map fun t =>
      if t.holder.isNone && t.waiting != [] && !tileBusy s t.cluster t.tile then giveToken t else t }

/-! ### Commands (R255, R256, R258, R273) -/

/-- The passes of a command: 16 for each K-block; `MZERO` has its 16 strips, `MFENCE` none. -/
def passesOf (kind kb : Nat) : Nat := if kind = 6 then 16 else if kind = 7 then 0 else 16 * kb

def MxCmd.total (m : MxCmd) : Nat := passesOf m.kind m.kb

/-- Strip `x` of a command has been written for its last K-block, or will not be. -/
def MxCmd.stripOver (m : MxCmd) (x : Nat) : Bool :=
  m.total == 0 || m.done.contains (m.total - 16 + x) || (m.failed.isSome && !m.running.any fun n => n % 16 == x)

/-- A change of the matrix command with an id. -/
def onMx (s : State) (id : Nat) (f : MxCmd → MxCmd) : State :=
  { s with mx := s.mx.map fun m => if m.id = id then f m else m }

/-- The commands of a cluster's engine. -/
def mxOf (s : State) (cluster : Nat) : List MxCmd := s.mx.filter (·.cluster == cluster)

/-- The next pass of a command is eligible (R256, R258). -/
def eligible (s : State) (m : MxCmd) : Bool :=
  !frozen s m.uid && decide (m.next < m.total) && (decide (m.next < 16) || m.done.contains (m.next - 16)) &&
  (mxOf s m.cluster).all fun q => !(q.tile == m.tile && q.kind != 7 && decide (q.order < m.order)) || q.stripOver (m.next % 16)

/-- One command is considered before another: priority, then admission, then entry (R256). -/
def mxBefore (a b : MxCmd) : Bool :=
  decide (b.prio.toNat < a.prio.toNat) ||
  (a.prio == b.prio && (decide (a.order < b.order) || (a.order == b.order && decide (a.entry ≤ b.entry))))

/-- A command put into its place. -/
def mxInsert (m : MxCmd) : List MxCmd → List MxCmd
  | [] => [m]
  | q :: l => if mxBefore m q then m :: q :: l else q :: mxInsert m l

/-! ### The token pool (R357) -/

/-- The gallery of a command's crew. -/
def gidOf (s : State) (uid : Nat) : Nat := ((s.crew? uid).map (·.gid)).getD 0

/-- The strip passes of a gallery that run. -/
def runningOf (s : State) (gid : Nat) : Nat :=
  total (s.mx.filter fun m => m.kind != 6 && gidOf s m.uid == gid) (·.running.length)

/-- The matrix tokens a gallery holds. -/
def tokensOf (s : State) (gid : Nat) : Nat := ((s.gal? gid).map (·.rcd.mtok)).getD 0

/-- The galleries with commands in a partition's engines. -/
def mxGals (s : State) (part : Nat) : List Nat :=
  ((s.mx.filter fun m => partOfDie s (m.cluster / 24) == part).map fun m => gidOf s m.uid).eraseDups

/-- A pass of a command may be granted under the pool of its partition. -/
def poolAllows (s : State) (m : MxCmd) : Bool :=
  let part := partOfDie s (m.cluster / 24)
  let gid := gidOf s m.uid
  m.kind == 6 || decide (runningOf s gid < tokensOf s gid) ||
  decide (total (mxGals s part) (fun g => runningOf s g - tokensOf s g) < tokenPool s part - tokensHeld s part)

/-! ### Admission (R255, R277) -/

/-- The consumer index of a ring moves on. -/
def takeSlot (s : State) (pa cons : Nat) : State := performNat s (pa + 24) 4 (cons + 1)

/-- The row scales held with a slot leave the holding. -/
def dropScales (s : State) (e : RingEntry) (slot : Nat) : State :=
  { s with scales := s.scales.filter fun x => !(x.ring == e.ring && x.uid == e.uid && x.slot == slot) }

/-- A slot that is skipped: the fault record, and the tag falls as failed where one is named (R188, R277). -/
def skipSlot (s : State) (e : RingEntry) (pa cons : Nat) (cause : Cause) (addr : Word) (tag : Option (BitVec 6)) : State :=
  let s1 := dropScales (takeSlot s pa cons) e cons
  completeTag (crewFault s1 e.uid { cause := cause, addr := addr, obj := e.ring, tag := tag }) e.uid tag (some cause)

/-- The row scales of a slot, or the values of a slot that holds none (log 4). -/
def scalesOf (s : State) (e : RingEntry) (slot : Nat) : List (BitVec 32) × State :=
  match s.scales.find? fun x => x.ring == e.ring && x.uid == e.uid && x.slot == slot with
  | some x => (x.vals, dropScales s e slot)
  | none => ((List.range 128).map (Config.freeTile s.fresh), { s with fresh := s.fresh + 1 })

/-- The tag a record names. -/
def recordTag (bs : List Byte) : Option (BitVec 6) := imageTag bs

/-- The command at the head of a ring may be admitted: the passes of the ring's earlier commands are granted, at most
one of them with passes is still there, and no crew holds its tile or waits for it. An `MFENCE` has no passes and names no
tile, and it stands in nobody's way: no later command, an `MFENCE` among them, counts it among the two of its ring
(R255, R259, R276; log 81). -/
def admissible (s : State) (e : RingEntry) (kind tile : Nat) : Bool :=
  let mine := s.mx.filter fun m => m.uid == e.uid
  mine.all (fun m => decide (m.total ≤ m.next)) && decide ((mine.filter fun m => m.kind != 7).length ≤ 1) &&
  (kind == 7 || (tokenOf s e.cluster tile).isNone)

/-- The record at the head of a ring admitted to the engine. -/
def admitRecord (s : State) (e : RingEntry) (pa cons : Nat) (slotVa : Word) (bs : List Byte) : State :=
  let s1 := takeSlot s pa cons
  let scl := img bs 0 15 1 == 1
  let (vals, s2) := if scl then scalesOf s1 e cons else ([], s1)
  let m : MxCmd :=
    { id := s2.ids, cluster := e.cluster, entry := e.entry, ring := e.ring, slotVa := slotVa, uid := e.uid,
      kind := img bs 0 0 4, tag := recordTag bs, prio := BitVec.ofNat 3 (img bs 0 24 3), kb := img bs 0 32 16,
      acc := img bs 0 14 1 == 1, tile := img bs 0 8 6, scl := scl, aaddr := BitVec.ofNat 32 (img bs 8 0 32),
      baddr := BitVec.ofNat 32 (img bs 0x10 0 32), wscale := BitVec.ofNat 32 (img bs 0x18 0 32), scales := vals,
      order := s2.ids, next := 0, running := [], done := [], failed := none }
  { s2 with ids := s2.ids + 1, mx := s2.mx ++ [m] }

/-- What the engine finds at the head of an attached ring (R188, R255, R277). A control block with an uncorrectable word
ends the consumption as a broken one does, with the cause ECC_UNCORR in its record (R304; DESIGN CHOICE, log 40). -/
def lookAtRing (s : State) (e : RingEntry) : State :=
  let k := clientOf s e.uid
  if e.broken || frozen s e.uid then s else
  match ringOf s k e.ring with
  | none => s
  | some (_, none) =>
    crewFault { s with rings := s.rings.map fun x => if x = e then { e with broken := true } else x } e.uid
      { cause := if ringSpoiled s k e.ring then .eccUncorr else .mxForm, obj := e.ring }
  | some (pa, some r) =>
    let slotVa := w64 (r.slot r.cons)
    match translate s k.g.rcd.part (galAsn k.g) k.foreman false needR slotVa.toNat with
    | .error _ => s
    | .ok q =>
      let head := readByte s q.pa
      if head.getLsbD 7 != r.phase r.cons then s
      else
        let bs := readBytes s (q.pa + 8) 64
        let kind := img bs 0 0 4
        if head &&& 0x7F != 0 then skipSlot s e pa r.cons .illegal slotVa (recordTag bs)
        else if poisoned s false q.pa 72 then skipSlot s e pa r.cons .eccUncorr slotVa (recordTag bs)
        else if 8 ≤ kind || !mxReservedOk bs then skipSlot s e pa r.cons .mxForm slotVa (recordTag bs)
        else if !admissible s e kind (img bs 0 8 6) then s
        else admitRecord s e pa r.cons slotVa bs

/-! ### Completion (R245, R276) -/

/-- A command's work is over. -/
def mxOver (s : State) (m : MxCmd) : Bool :=
  m.running == [] && decide (m.total ≤ m.next) &&
  (m.kind != 7 || !s.mx.any fun q => q.uid == m.uid && decide (q.order < m.order))

/-- A matrix command ends: the fault record of a failure, and its tag. -/
def endMx (s : State) (m : MxCmd) : State :=
  let s1 : State := { s with mx := s.mx.filter (·.id != m.id) }
  let s2 := match m.failed with
    | none => s1
    | some f => crewFault s1 m.uid { cause := f.cause, addr := f.addr, obj := f.obj, tag := m.tag }
  completeTag s2 m.uid m.tag (m.failed.map (·.cause))

/-- Every command whose work is over ends, in admission order; tokens and rings that wait for that are given up. -/
def settleMx (s : State) : State :=
  let s1 := s.mx.foldl (fun s m0 =>
    match s.mx.find? (·.id == m0.id) with
    | none => s
    | some m => if mxOver s m then endMx s m else s) s
  settleExits (passTokens s1)

/-- RING_SLOT_ADMIT: the head of a cluster's attached ring (R255). -/
def execRingSlotAdmit (cluster entry : Nat) (s : State) : Out :=
  .next (match s.rings.find? fun e => e.cluster == cluster && e.entry == entry with
    | none => s
    | some e => settleMx (lookAtRing s e))

/-! ### Passes (R254, R256, R257) -/

/-- The planes read of a format, p (R252). -/
def planesRead (kind : Nat) : Nat :=
  match kind with
  | 0 => 4 | 1 => 3 | 2 => 8 | 3 => 8 | 4 => 12 | _ => 24

/-- The command whose pass a free slice of a cluster takes next. -/
def nextPass (s : State) (cluster : Nat) : Option MxCmd :=
  if 8 ≤ total (mxOf s cluster) (·.running.length) then none
  else ((mxOf s cluster).foldr mxInsert []).find? fun m => eligible s m && poolAllows s m

/-- STRIP_PASS_GRANT (R256). -/
def execStripPassGrant (cluster : Nat) (s : State) : Out :=
  .next (match nextPass s cluster with
    | none => s
    | some m =>
      let s1 := onMx s m.id fun m => { m with next := m.next + 1, running := m.running ++ [m.next] }
      if m.kind = 6 then s1 else chargeCluster s1 cluster (512 * planesRead m.kind))

/-- The element codes of some rows of a plane-set, from the bytes of those rows in each of its planes (R251, R252). -/
def rowCodes (planes : List (List Byte)) (row : Nat) : List Nat :=
  let n := planes.length
  let bytes := planes.map fun p => ofBytes ((p.drop (16 * row)).take 16)
  (List.range 128).map fun k =>
    (bytes.zipIdx).foldl (fun a (x, i) => a + bitAt (bit x k) (n - 1 - i)) 0

/-- The rows from `row` of every plane of a plane-set, `n` rows of each. -/
def readPlanes (s : State) (k : Client) (kind addr row n : Nat) : Except (Cause × Nat) (State × List (List Byte)) :=
  rowReads k true (16 * n) ((List.range (planesOf kind)).map fun i => addr + 2048 * i + 16 * row) s

/-- FP32 1.0 (R88). -/
def one32 : Nat := 0x3F800000

/-- The new values of a strip of a tile, by element: row of the strip, column (R89 to R92). -/
def stripValues (m : MxCmd) (strip : Nat) (a b : List (List Nat)) (old : Nat → Nat → Nat) : List (Nat × Nat × Nat) :=
  let sb := fp32.value (if m.scl then m.wscale.toNat else one32)
  let bv := b.map fun col => col.map (mxValue m.kind)
  (List.range 8).flatMap fun i =>
    let sa := fp32.value (if m.scl then (m.scales.getD (8 * strip + i) 0).toNat else one32)
    let row := a.getD i []
    let av := row.map (mxValue m.kind)
    (List.range 128).map fun j =>
      (i, j, if m.kind = 2 then promoteInt row (b.getD j []) (old i j)
        else promote (blockSum av (bv.getD j [])) sa sb (old i j))

/-- A pass run and promoted: the operands read, the strip of the tile written (R257). -/
def runPass (s : State) (m : MxCmd) (n : Nat) : Except (Cause × Nat) State :=
  let strip := n % 16
  let block := n / 16
  let key (i j : Nat) : Nat := tileKey m.cluster m.tile (8 * strip + i) j
  if m.kind = 6 then
    .ok ((List.range 1024).foldl (fun s x => setTile s (key (x / 128) (x % 128)) 0) s)
  else
    let k := clientOf s m.uid
    let size := 2048 * planesOf m.kind
    match readPlanes s k m.kind (m.aaddr.toNat + size * block) (8 * strip) 8 with
    | .error e => .error e
    | .ok (s1, ap) =>
      match readPlanes s1 k m.kind (m.baddr.toNat + size * block) 0 128 with
      | .error e => .error e
      | .ok (s2, bp) =>
        let first := block == 0 && !m.acc
        if !first && ((List.range 1024).any fun x => s2.badTiles.contains (key (x / 128) (x % 128))) then
          .error (.eccUncorr, 0)
        else
          let vals := stripValues m strip ((List.range 8).map (rowCodes ap)) ((List.range 128).map (rowCodes bp))
            fun i j => if first then 0 else (getTile s2 (key i j)).toNat
          .ok (vals.foldl (fun s (i, j, x) => setTile s (key i j) (BitVec.ofNat 32 x)) s2)

/-- PROMOTION_END: the pass in the given place among those running on a cluster is promoted; the command that meets an
error gives up its remaining passes (R245, R257). -/
def execPromotionEnd (cluster pick : Nat) (s : State) : Out :=
  .next (match ((mxOf s cluster).flatMap fun m => m.running.map fun n => (m, n))[pick]? with
    | none => settleMx s
    | some (m, n) =>
      let rest := m.running.filter (· != n)
      settleMx (match if m.failed.isSome then .ok s else runPass s m n with
        | .ok s1 => onMx s1 m.id fun m => { m with
            running := rest, done := m.done.filter (fun x => x % 16 != n % 16) ++ [n] }
        | .error (e, a) => onMx s m.id fun m => { m with
            running := rest, next := m.total, failed := some ⟨e, w64 a, m.slotVa⟩ }))

/-! ### The MX words (R274 to R277) -/

/-- The trap of a failed check of an MX word (R294). -/
def mxTrap (s : State) : State := takeTrap s (trapHere s .mxForm 0 0)

/-- The tag of a word as the fields of a record (R273). -/
def recordWord0 (s : State) (tag : Option (BitVec 6)) (x : Nat) : Nat := mxWord0 x tag s.c.prio

/-- A command posted to the crew's ring: the word holds until there is a slot and a count, and goes on once the slot is
written; where the control block is broken the slot is dropped (R188, R275, R276), and where it holds an uncorrectable
word the word that reads it traps (R304; DESIGN CHOICE, log 40). Where the slot itself does not
translate for writing, PROD has moved on and the tag is raised, and the slot stays unwritten (DESIGN CHOICE, log 40). -/
def postWord (s : State) (tag : Option (BitVec 6)) (w0 a b ws : Nat) (scales : List (BitVec 32)) : State :=
  match s.c.ring with
  | none => mxTrap s
  | some ring =>
    let k : Client := ⟨s.g, s.c.uid, s.c.privl == 2⟩
    if ringSpoiled s k ring then scalarEcc s ring 0
    else if unsettled s || !ringRoom s k ring || !tagsFree s.c [tag] then hold s
    else
      let s1 := atHome s
      match ringReserve s1 k ring with
      | (s2, none) => done s2
      | (s2, some slot) =>
        let s3 : State := if scales = [] then s2 else { s2 with scales := s2.scales ++ [⟨ring, s.c.uid, slot, scales⟩] }
        let s4 := ringFill s3 k ring slot (mxRecord (recordWord0 s tag w0) (relocate s.g a) (relocate s.g b) ws (crewId s.c))
        done { s4 with c := tagUp s4.c tag }

/-- The row scales of an `MMA` with scales: none where a check of R88 fails. -/
def mmaScales (s : State) (f : BitVec 4) (x3 : Nat) : Option (List (BitVec 32)) :=
  if bits x3 40 1 = 0 then some []
  else if f = 2 then none
  else rowScales s.g (bits x3 32 7) (bits x3 39 1)

/-- The row-scale register holds an uncorrectable error in a thread it is read from (R304). -/
def scaleError (s : State) (x3 : Nat) : Option (Nat × Nat) :=
  if bits x3 40 1 = 0 then none
  else (rowBad s.g (bits x3 32 7)).map fun t => (t, bits x3 32 7)

/-- MX_FORM of an `MMA`, other than the checks of R88: the ring it needs, and its operand fields (R275). -/
def mmaForm (s : State) (g : BitVec 6) : Bool :=
  let x0 := (getG s.c g 0).toNat
  let x1 := (getG s.c g 1).toNat
  s.c.ring.isNone || !mmaFieldsOk (bits x1 32 16) (bits x0 0 32) (bits x1 0 32) || bits x0 32 32 != 0 ||
  bits x1 48 16 != 0 || bits (getG s.c g 2).toNat 7 57 != 0 || bits (getG s.c g 3).toNat 41 23 != 0

/-- The row-scale register of an `MMA` is outstanding: with scales present it is read by thread (R15, R88). -/
def scaleHazard (s : State) (x3 : Nat) : Bool :=
  bits x3 40 1 == 1 && s.c.outm.any (·.reg == .v (BitVec.ofNat 7 (bits x3 32 7)))

/-- The thread register words that an `MMA` reads at its issue: the 128 row scales, once its checks pass (R72, R88). -/
def mmaReads (s : State) (g : BitVec 6) (f : BitVec 4) : List (Nat × Nat) :=
  let x3 := (getG s.c g 3).toNat
  match mmaScales s f x3 with
  | none => []
  | some l =>
    if l = [] || scaleHazard s x3 || mmaForm s g || (scaleError s x3).isSome then []
    else (List.range 128).map fun t => (t, bits x3 32 7)

/-- MMA (R88, R275). -/
def execMma (t g : BitVec 6) (f : BitVec 4) (n : BitVec 1) (s : State) : Out :=
  issue (.mma t g f n) s fun s =>
    let x0 := (getG s.c g 0).toNat
    let x1 := (getG s.c g 1).toNat
    let x2 := (getG s.c g 2).toNat
    let x3 := (getG s.c g 3).toNat
    if scaleHazard s x3 then
      takeTrap s (trapHere s .hazard 0 (w64 (hazardInfo (.v (BitVec.ofNat 7 (bits x3 32 7))))))
    else if mmaForm s g then mxTrap s
    else
      match mmaScales s f x3 with
      | none => mxTrap s
      | some scales =>
        match scaleError s x3 with
        | some e => takeTrap s (eccTrap s e)
        | none =>
          postWord s (tagOf t n)
            (f.toNat + 2 ^ 8 * bits x2 0 6 + 2 ^ 14 * bits x2 6 1 + 2 ^ 15 * bits x3 40 1 + 2 ^ 16 * bits x3 32 7 +
              2 ^ 23 * bits x3 39 1 + 2 ^ 32 * bits x1 32 16)
            (bits x0 0 32) (bits x1 0 32) (bits x3 0 32) scales

/-- MZERO (R276). -/
def execMzero (t g : BitVec 6) (n : BitVec 1) (s : State) : Out :=
  issue (.mzero t g n) s fun s =>
    let x := (getG s.c g 2).toNat
    if bits x 6 58 ≠ 0 then mxTrap s else postWord s (tagOf t n) (6 + 2 ^ 8 * bits x 0 6) 0 0 0 []

/-- MFENCE (R276). -/
def execMfence (t : BitVec 6) (n : BitVec 1) (s : State) : Out :=
  issue (.mfence t n) s fun s => postWord s (tagOf t n) 7 0 0 0 []

/-- The lowest free reservation entry of a cluster's engine. -/
def freeEntry (s : State) (cluster : Nat) : Option Nat :=
  (List.range 16).find? fun i => !s.rings.any fun e => e.cluster == cluster && e.entry == i

/-- MRING (R277). -/
def execMring (g : BitVec 6) (s : State) : Out :=
  issue (.mring g) s fun s =>
    let ring := getS s.c g
    let out : BitVec 6 := BitVec.ofNat 6 (g.toNat + 1)
    placedAccess s needRW ring 32 32 2 fun p =>
      if homeWaits s needR p.pa 32 then hold s
      else if ownPoisoned s false p.pa 32 then scalarEcc s ring g.toNat else
      let w1 := ownNat s false (p.pa + 8) 8
      if bits w1 8 5 ≠ 7 || bits w1 0 5 = 0 || decide (16 < bits w1 0 5) || s.c.ring.isSome then mxTrap s
      else
        match freeEntry s (clusterOf s.c.core) with
        | none => doneS s out 1
        | some i =>
          doneS { s with
            c := { s.c with ring := some ring }
            rings := s.rings ++ [⟨clusterOf s.c.core, i, ring, s.c.uid, false⟩] } out 0

/-- Commands of the crew's ring are not complete: reserved, posted or admitted. -/
def ringBusy (s : State) : Bool :=
  s.mx.any (·.uid == s.c.uid) ||
  s.rings.any fun e => e.uid == s.c.uid && !e.broken &&
    match ringOf s ⟨s.g, s.c.uid, s.c.privl == 2⟩ e.ring with
    | some (_, some r) => r.prod != r.cons
    | _ => false

/-- MDETACH (R277). -/
def execMdetach (s : State) : Out :=
  issue .mdetach s fun s =>
    if s.c.ring.isNone then done s
    else if ringBusy s then hold s
    else done { s with
      c := { s.c with ring := none }
      rings := s.rings.filter (·.uid != s.c.uid), scales := s.scales.filter (·.uid != s.c.uid) }

/-! ### The TOKEN words (R259, R281) -/

/-- The crew identifier of a token's holder, or 0. -/
def holderId (s : State) (t : Option Token) : Nat := ((t.bind (·.holder)).bind s.crew?).elim 0 crewId

/-- The trap of a token fault (R294). -/
def tokenTrap (s : State) (tile : Nat) : State :=
  takeTrap s (trapHere s .tokenFault 0 (w64 (tile + 2 ^ 16 * holderId s (tokenOf s (clusterOf s.c.core) tile))))

/-- A TOKEN word whose register names a tile. -/
def tokenWord (s : State) (x : Word) (go : Nat → State) : State :=
  if 64 ≤ x.toNat then tokenTrap s (x.toNat % 64) else go x.toNat

/-- The crew in focus holds the token of a tile of its cluster. -/
def holdsToken (s : State) (tile : Nat) : Bool :=
  ((tokenOf s (clusterOf s.c.core) tile).bind (·.holder)) == some s.c.uid

/-- TKTAKE: the crew waits, runnable, until the admitted operations have retired and its turn has come (R259). -/
def execTktake (a : BitVec 6) (s : State) : Out :=
  issue (.tktake a) s fun s => tokenWord s (getS s.c a) fun tile =>
    let cluster := clusterOf s.c.core
    if holdsToken s tile then done s
    else
      let t := (tokenOf s cluster tile).getD ⟨cluster, tile, none, []⟩
      let known := t.waiting.contains s.c.uid
      let t1 : Token := if known then t else { t with waiting := t.waiting ++ [s.c.uid] }
      if t1.holder.isNone && !tileBusy s cluster tile then
        let s1 := putToken s (giveToken t1)
        if holdsToken s1 tile then done s1 else hold s1
      else hold (if known then s else putToken s t1)

/-- TKGIVE (R259, R281). -/
def execTkgive (a : BitVec 6) (s : State) : Out :=
  issue (.tkgive a) s fun s => tokenWord s (getS s.c a) fun tile =>
    match tokenOf s (clusterOf s.c.core) tile with
    | some t => if t.holder = some s.c.uid then done (putToken s (giveToken t)) else tokenTrap s tile
    | none => tokenTrap s tile

/-- TKQRY (R281). -/
def execTkqry (d a : BitVec 6) (s : State) : Out :=
  issue (.tkqry d a) s fun s => tokenWord s (getS s.c a) fun tile =>
    let t := tokenOf s (clusterOf s.c.core) tile
    let who := match t.bind (·.holder) with
      | none => 0
      | some u => if u = s.c.uid then 1 else 2
    doneS s d (w64 (who + 2 ^ 8 * bits ((t.map (·.waiting.length)).getD 0) 0 8 + 2 ^ 16 * holderId s t))

/-! ### MRD and MWR (R282, R287) -/

/-- The element a thread names, and its column with bit 0 cleared for `.b64`. -/
def elementOf (s : State) (w : BitVec 1) (a : BitVec 7) (tile t : Nat) : Nat :=
  let x := (reg s t a).toNat
  let j := bits x 8 7
  tileKey (clusterOf s.c.core) tile (bits x 0 7) (if w = 1 then 2 * (j / 2) else j)

/-- A tile access of the active set: the crew must hold the token, unless the set is empty (R282, R287). -/
def tileWord (s : State) (tile : Nat) (go : State) : State :=
  if activeSet s.c = 0 || holdsToken s tile then go else tokenTrap s tile

/-- MRD: every value is fixed at issue, and lands later (R282, R287). Where several threads meet a parity error,
TRAPINFO names the lowest of them, and the register is the destination (R294; DESIGN CHOICE, log 80). -/
def execMrd (w : BitVec 1) (d a : BitVec 7) (t : BitVec 6) (s : State) : Out :=
  issue (.mrd w d a t) s fun s => tileWord s t.toNat (
    let key := elementOf s w a t.toNat
    match (laneThreads s).find? fun x => s.badTiles.contains (key x) || (w == 1 && s.badTiles.contains (key x + 1)) with
    | some x => takeTrap s (eccTrap s (x, d.toNat))
    | none =>
      landLanes s d (laneThreads s)
        (fun x => some (if w = 1 then w64 ((getTile s (key x)).toNat + 2 ^ 32 * (getTile s (key x + 1)).toNat)
          else (getTile s (key x)).setWidth 64)) fun _ => 0)

/-- MWR: the elements are written in thread order (R282). -/
def execMwr (w : BitVec 1) (d a : BitVec 7) (t : BitVec 6) (s : State) : Out :=
  issue (.mwr w d a t) s fun s => tileWord s t.toNat (
    let key := elementOf s w a t.toNat
    done ((laneThreads s).foldl (fun s1 x =>
      let v := reg s x d
      let s2 := setTile s1 (key x) (v.setWidth 32)
      if w = 1 then setTile s2 (key x + 1) ((v >>> 32).setWidth 32) else s2) s))

end Sys2Proof.Machine
end

