-- ==== Sys2Proof/Machine/Context.lean ====
section
/-!
DEFINITION. Stopping and moving whole contexts (spec/22_traps_preemption.md, R297 to R303; spec/23_system_instructions.md,
R319; spec/24_program_scaled_gemm.md, R321, R322) and the teardown of a region (R306).
-/

namespace Sys2Proof.Machine

/-! ### The engine work of a gallery (R298, R302, R322) -/

/-- The crew belongs to the gallery. -/
def isOf (s : State) (gid uid : Nat) : Bool := ((s.crew? uid).map (·.gid)) == some gid

/-- The tiles that travel with a gallery: those whose token a crew holds, and those its admitted commands name. -/
def travelling (s : State) (gid : Nat) : List Nat :=
  ((s.tokens.filter fun t => (t.holder.map (isOf s gid)).getD false).map (·.tile) ++
   (s.mx.filter fun m => m.kind != 7 && isOf s gid m.uid).map (·.tile)).eraseDups

/-- The elements of some tiles of a cluster, by their key without the cluster. -/
def tileCells (s : State) (cluster : Nat) (tiles : List Nat) : Sparse (BitVec 32) :=
  (s.tiles.filter fun e => e.1 / 2 ^ 20 == cluster && tiles.contains (e.1 / 2 ^ 14 % 64)).map fun e => (e.1 % 2 ^ 20, e.2)

/-- The elements of some tiles of a cluster that hold a parity error, by their key without the cluster. -/
def badCells (s : State) (cluster : Nat) (tiles : List Nat) : List Nat :=
  (s.badTiles.filter fun k => k / 2 ^ 20 == cluster && tiles.contains (k / 2 ^ 14 % 64)).map (· % 2 ^ 20)

/-- A tile whose contents are no longer what the manual gives (R306, R322; log 4). -/
def spoilTile (s : State) (cluster tile : Nat) : State :=
  let s1 := (List.range 16384).foldl
    (fun t k => setTile t (2 ^ 20 * cluster + 2 ^ 14 * tile + k) (Config.freeTile s.fresh k)) s
  { s1 with fresh := s.fresh + 1 }

/-- A gallery's engine work taken off its core and cluster, with the tiles that travel; the tokens return to the
engine, and what stays in those tiles is not given. -/
def takeWork (s : State) (g : Gallery) : SavedContext × State :=
  let mine := isOf s g.gid
  let cluster := clusterOf g.core
  let tiles := travelling s g.gid
  let v : SavedContext :=
    { image := none, pa := 0, pages := [], pooled := false, part := g.rcd.part, gal := g, crews := s.allCrews.filter (·.gid == g.gid)
      hoist := s.hoist.filter fun h => mine h.uid, mx := s.mx.filter fun m => mine m.uid
      tokens := s.tokens.filter fun t => (t.holder.map mine).getD false
      rings := s.rings.filter fun e => mine e.uid, tiles := tileCells s cluster tiles
      badTiles := badCells s cluster tiles, vault := [], lost := false }
  let left := s.tokens.map fun t =>
    let t1 := { t with waiting := t.waiting.filter fun u => !mine u }
    if (t.holder.map mine).getD false then giveToken t1 else t1
  let s1 : State := { s with
    hoist := s.hoist.filter fun h => !mine h.uid, mx := s.mx.filter fun m => !mine m.uid
    rings := s.rings.filter fun e => !mine e.uid, tokens := dropIdle left }
  (v, passTokens (tiles.foldl (fun s t => spoilTile s cluster t) s1))

/-- The engine of a cluster has a free entry for every ring, and every tile number that travels is free there (R302). -/
def workFits (s : State) (v : SavedContext) (cluster : Nat) : Bool :=
  let tiles := (v.tokens.map (·.tile) ++ (v.mx.filter (·.kind != 7)).map (·.tile)).eraseDups
  decide (v.rings.length + (s.rings.filter (·.cluster == cluster)).length ≤ 16) &&
  tiles.all fun t => (tokenOf s cluster t).isNone && !tileBusy s cluster t

/-- A ring attached to the lowest free entry of a cluster. -/
def attachRing (cluster : Nat) (s : State) (e : RingEntry) : State :=
  match freeEntry s cluster with
  | none => s
  | some i => { s with rings := s.rings ++ [{ e with cluster := cluster, entry := i }] }

/-- A stopped command admitted again, with its progress register (R322). -/
def readmit (cluster : Nat) (s : State) (m : MxCmd) : State :=
  let entry := ((s.rings.find? fun e => e.uid == m.uid).map (·.entry)).getD m.entry
  { s with ids := s.ids + 1, mx := s.mx ++ [{ m with cluster := cluster, entry := entry, order := s.ids }] }

/-- Engine work put onto a core and its cluster: rings first, then admitted commands in their order, tokens and
tiles (R302, R322). Hoist commands are all taken, though the core's queue may then hold more than 32 (DESIGN CHOICE,
log 89). -/
def putWork (s : State) (v : SavedContext) (core : Nat) : State :=
  let cluster := clusterOf core
  let s1 := v.mx.foldl (readmit cluster) (v.rings.foldl (attachRing cluster) s)
  let s2 : State := { s1 with
    hoist := s1.hoist ++ v.hoist.map fun h => { h with core := core }
    tokens := s1.tokens ++ v.tokens.map fun t => { t with cluster := cluster, waiting := [] } }
  let tiles := (v.tokens.map (·.tile) ++ (v.mx.filter (·.kind != 7)).map (·.tile)).eraseDups
  let s3 : State := { s2 with
    tiles := s2.tiles.filter fun e => !(e.1 / 2 ^ 20 == cluster && tiles.contains (e.1 / 2 ^ 14 % 64))
    badTiles := (s2.badTiles.filter fun k => !(k / 2 ^ 20 == cluster && tiles.contains (k / 2 ^ 14 % 64))) ++
      v.badTiles.map (2 ^ 20 * cluster + ·) }
  { s3 with tiles := v.tiles.foldl (fun m e => store 0 m (2 ^ 20 * cluster + e.1) e.2) s3.tiles }

/-! ### Stopping (R297, R298) -/

/-- The crews and the engine work of a gallery have stopped: every crew at a stop point, nothing granted still to be
performed, and follow-ons whose chunks were all granted posted (R298, R322). -/
def gallerySettled (s : State) (gid : Nat) : Bool :=
  ((s.allCrews.filter (·.gid == gid)).all (atStop s)) &&
  (s.hoist.all fun h => !isOf s gid h.uid ||
    (h.flight == [] && !(h.begun && h.waits.isNone && !h.stopped && decide (h.total ≤ h.next)))) &&
  s.mx.all fun m => !isOf s gid m.uid || m.running == []

/-- Every crew of a gallery has nothing left to be performed. -/
def galleryDrained (s : State) (gid : Nat) : Bool :=
  (s.allCrews.filter (·.gid == gid)).all fun c => c.redq == [] && c.stores == []

/-! ### The moves (R299, R319) -/

/-- A context move ends: STATUS and NS are written, and the crew that asked goes on (R318, R319). -/
def finishJob (s : State) (j : CtxJob) (status : Nat) : State :=
  let s1 : State := { s with ctx := s.ctx.filter (· != j) }
  let s2 := performNat (performNat s1 (j.block + 0x10) 8 status) (j.block + 0x18) 8 (s.timens - j.start).toNat
  s2.onCrew j.uid fun c => if c.status = .moving then c.past else c

/-- The die of the foreman core that asked. -/
def jobDie (s : State) (j : CtxJob) : Nat := ((s.crew? j.uid).map fun c => dieOfCore c.core).getD 0

/-- Translation in the address space of a client. -/
def clientXlate (k : Client) (s : State) (need : Need) (va : Nat) : Except Cause Place :=
  translate s k.g.rcd.part (galAsn k.g) k.foreman false need va

/-- Mode 0: a gallery saved in the image at DEST; refused where a crew holds a token, has an admitted command or an
attached ring (R319), and where the image cannot be written at DEST, an address of the foreman's own space, which
the manual leaves open (DESIGN CHOICE, log 39). -/
def saveToImage (s : State) (j : CtxJob) (g : Gallery) : State :=
  let mine := isOf s g.gid
  if (s.tokens.any fun t => (t.holder.map mine).getD false) || (s.mx.any fun m => mine m.uid) ||
      (s.rings.any fun e => mine e.uid) || j.dest.toNat % 65536 != 0 then finishJob s j 2
  else
    match imagePages s (clientXlate (clientOf s j.uid)) j.dest.toNat (imageSize g / 4096) with
    | none => finishJob s j 2
    | some l => finishJob (saveImage (writeImage s l) g j.dest.toNat l false) j 0

/-- A gallery saved in the shadow store: its granules stay bound and untouched (R299). -/
def saveShadow (s : State) (g0 : Gallery) : State :=
  match s.gal? g0.gid with
  | none => s
  | some g =>
    let cs := s.allCrews.filter (·.gid == g.gid)
    let (v, s1) := takeWork (cs.foldl (fun s c => writeContext s g c) s) g
    let s2 := awayFrom s1 g.gid
    let s3 : State := { s2 with
      crews := s2.crews.filter (·.gid != g.gid), gals := s2.gals.filter (·.gid != g.gid)
      saved := s2.saved ++ [v] }
    putSaves (syncPath s3 g.rcd.path) cs

/-- The shadow contexts of a partition. -/
def shadows (s : State) (part : Nat) : List SavedContext := s.saved.filter fun v => v.image.isNone && v.part == part

/-- A slot number kept if it is free, else the lowest free one. -/
def keepSlot (used : List Nat) (slot : Nat) : Option Nat := if used.contains slot then (freeSlots used).head? else some slot

/-- Crews given slots of a core one after another. -/
def seatCrews : List Crew → List Nat → List Crew → Option (List Crew)
  | [], _, out => some out
  | c :: l, used, out =>
    match keepSlot used c.slot with
    | none => none
    | some k => seatCrews l (k :: used) (out ++ [{ (resumeCrew c) with slot := k }])

/-- A shadow context brought back onto its core, if the core and its engine have room (R157, R299). -/
def restoreShadow (s : State) (v : SavedContext) : Option State :=
  let core := v.gal.core
  let gs := galsOn s core
  if decide (64 < total gs (fun g => gangs g.nthr) + gangs v.gal.nthr) ||
      decide (256 < total gs (fun g => gangs g.nthr * g.nblk) + gangs v.gal.nthr * v.gal.nblk) ||
      !workFits s v (clusterOf core) then none
  else
    match keepSlot (gs.map (·.slot)) v.gal.slot,
        seatCrews (v.crews.map (readContext s v.gal)) ((crewsOn s core).map (·.slot)) [] with
    | some slot, some cs =>
      let s1 : State := { s with
        saved := s.saved.filter (·.gal.gid != v.gal.gid), gals := s.gals ++ [{ v.gal with slot := slot }]
        crews := s.crews ++ cs
        spawnq := s.spawnq.filter fun w => !cs.any fun c => c.uid == w.uid && c.status == .running }
      some (syncPath (resumeTagWaits (putSaves (putWork s1 v core) cs) cs) v.gal.rcd.path)
    | _, _ => none

/-- Every shadow context of a list brought back, or none. -/
def restoreAll : List SavedContext → State → Option State
  | [], s => some s
  | v :: l, s =>
    match restoreShadow s v with
    | none => none
    | some s1 => restoreAll l s1

/-- Crews put onto another core, each at its own slot number if that is free. -/
def moveCrews (s : State) (cs : List Crew) (core : Nat) : List Crew :=
  let slots := freeSlots ((crewsOn s core).map (·.slot))
  (cs.zip slots).map fun (c, k) => { c with core := core, slot := k }

/-- Mode 2: a gallery moved to another core, or nothing where that lacks room (R302, R321, R322). -/
def migrate (s : State) (g : Gallery) (target : Nat) : Option State :=
  let cs := s.allCrews.filter (·.gid == g.gid)
  let same := clusterOf g.core == clusterOf target
  let s0 := cs.foldl (fun s c => writeContext s g c) s
  let (v, s1) := if same then (({ (takeWork s0 g).1 with mx := [], tokens := [], rings := [], tiles := [], badTiles := [] } : SavedContext),
      { s0 with hoist := s0.hoist.filter fun h => !isOf s0 g.gid h.uid }) else takeWork s0 g
  let s2 := removeGallery s1 g
  match fitsOn s2 g.rcd target with
  | none => none
  | some vbase =>
    if !workFits s2 v (clusterOf target) then none
    else
      let bytes := granuleBytes s1 g
      let slot := (freeSlots ((galsOn s2 target).map (·.slot))).headD 0
      let g1 : Gallery := { g with core := target, slot := slot, vbase := BitVec.ofNat 32 vbase, reloc := addReloc g vbase }
      let s3 := if g.vgran = 0 then s2 else fillGranules (bindHalf s2 vbase g.rcd.asn) vbase g.vgran bytes
      let s4 : State := { s3 with gals := s3.gals ++ [g1], crews := s3.crews ++ moveCrews s2 cs target }
      some (notify (syncPath (putWork s4 v target) g.rcd.path) g1)

/-- The target of a migration is a user core of the partition. -/
def targetOk (s : State) (g : Gallery) (target : Nat) : Bool :=
  decide (target < 384) && target % 96 != 0 && partOfDie s (dieOfCore target) == g.rcd.part

/-- A save asked for by `CTXSAVE`, once everything it names has stopped (R319). -/
def saveJob (s : State) (j : CtxJob) : State :=
  let gs := s.allGals.filter (jobNames s j)
  if j.mode = 3 || dieOfCore j.core ≠ jobDie s j then finishJob s j 2
  else if gs = [] then finishJob s j (if j.mode = 1 then 0 else 1)
  else if j.mode = 1 && shadows s (partOfDie s (dieOfCore j.core)) != [] then finishJob s j 2
  else if !gs.all (fun g => gallerySettled s g.gid) then s
  else
    let s1 := gs.foldl (fun s g => drainGallery s g.gid) s
    if !gs.all (fun g => galleryDrained s1 g.gid) then s1
    else if j.mode = 1 then finishJob (gs.foldl saveShadow s1) j 0
    else
      match (gs.head?).bind fun g => s1.gal? g.gid with
      | none => finishJob s1 j 1
      | some g =>
        if j.mode = 0 then saveToImage s1 j g
        else
          let target := bits j.dest.toNat 0 9
          if !targetOk s1 g target then finishJob s1 j 2
          else
            match migrate s1 g target with
            | none => finishJob s1 j 4
            | some s2 => finishJob s2 j 0

/-- A context that cannot be read is lost (R304). -/
def loseContext (s : State) (v : SavedContext) : State :=
  regionFault s v.gal.rcd { cause := .ctxLost, fatal := true, obj := w64 (v.image.getD 0) }

/-- Where the image that DEST of a context block names begins in memory. -/
def imageAt (s : State) (j : CtxJob) : Option Nat :=
  match clientXlate (clientOf s j.uid) s ⟨false, false, false⟩ j.dest.toNat with
  | .error _ => none
  | .ok p => some p.pa

/-- A restore asked for by `CTXLOAD` (R319). -/
def loadJob (s : State) (j : CtxJob) : State :=
  let part := partOfDie s (dieOfCore j.core)
  if 2 ≤ j.mode.toNat || dieOfCore j.core ≠ jobDie s j then finishJob s j 2
  else if j.mode = 1 then
    let vs := shadows s part
    let lost := vs.filter (contextLost s)
    if vs = [] then finishJob s j 1
    else if lost ≠ [] then finishJob (lost.foldl loseContext s) j 3
    else
      match restoreAll vs s with
      | none => finishJob s j 4
      | some s1 => finishJob s1 j 0
  else
    match s.saved.find? fun v => v.image.isSome && v.part == part && imageAt s j == some v.pa with
    | none => finishJob s j 1
    | some v =>
      if contextLost s v then finishJob (loseContext s v) j 3
      else if j.core % 96 = 0 then finishJob s j 2
      else
        match fitsOn s v.gal.rcd j.core with
        | none => finishJob s j 4
        | some vbase =>
          let s1 := dropUnplaced s fun r => r.resume == some v.gal.gid
          finishJob (restoreImage s1 v j.core vbase) j 0

/-- CONTEXT_SAVE_DONE: the context moves asked for are carried out, as far as their galleries have stopped (R299, R319). -/
def execContextSaveDone (s : State) : Out :=
  .next (s.ctx.foldl (fun s j => if j.load then loadJob s j else saveJob s j) s)

/-! ### Teardown (R306) -/

/-- TEARDOWN: TEAR is written in the control block of the region at an address of an address space, and the region is
torn down. An address that does not translate names no region. -/
def execTeardown (part : BitVec 2) (region : BitVec 64) (asn : BitVec 16) (s : State) : Out :=
  .next (match translate s part.toNat asn.toNat false false ⟨false, false, false⟩ region.toNat with
    | .error _ => s
    | .ok p =>
      let w := readNat s (p.pa + 0x88) 8
      tearOne (if bit w 2 then s else performNat s (p.pa + 0x88) 8 (w + 4)) part.toNat p.pa)

/-- The region of a teardown is that of a record. -/
def tornBy (t : Teardown) (r : Record) : Bool := r.part == t.part && r.path != [] && w64 r.block == t.region

/-- A gallery whose region's grace is over: its crews are halted, its engine work is given up, and it retires without
completion (R306). -/
def tearGallery (s : State) (g0 : Gallery) : State :=
  match s.gal? g0.gid with
  | none => s
  | some g =>
    let s1 := s.onCrewsOf g.gid fun c => if c.status = .exited then c else { c with status := .halted }
    let held := (s1.tokens.filter fun t => (t.holder.map (isOf s1 g.gid)).getD false).map (·.tile)
    let mine := isOf s1 g.gid
    let s2 : State := { s1 with
      hoist := s1.hoist.filter fun h => !mine h.uid, mx := s1.mx.filter fun m => !mine m.uid
      colls := s1.colls.filter fun c => !mine c.uid
      flips := s1.flips.filter fun f => !(mine f.uid && f.coll.isSome) }
    let s3 := held.foldl (fun s t => spoilTile s (clusterOf g.core) t) s2
    if isSaved s3 g.gid then
      let s4 : State := { s3 with saved := s3.saved.filter (·.gal.gid != g.gid) }
      let saves := ((s3.saved.filter (·.gal.gid == g.gid)).flatMap fun v => v.crews.map (·.save)).filter (· != 0)
      syncPath (unbindHalf (markSaves s4 g.rcd saves 0) g.vgran g.vbase.toNat) g.rcd.path
    else settleMx (retireGallery { s3 with ctx := s3.ctx.filter fun j => !mine j.uid } { g with torn := true })

/-- The records of a region that are still queued are dropped. -/
def dropRecords (s : State) (t : Teardown) : State := dropUnplaced s (tornBy t)

/-- The blocks on the paths of what a region still has, which are brought up to date when it is gone (R145, R306). -/
def tornPaths (s : State) (t : Teardown) : List Nat :=
  ((s.regionRecords.filter (tornBy t)).flatMap (·.path)).eraseDups

/-- The galleries of a region, on cores and in saved contexts. -/
def tornGals (s : State) (t : Teardown) : List Gallery :=
  (s.allGals ++ s.saved.map (·.gal)).filter fun g => tornBy t g.rcd

/-- TEARDOWN_GRACE_EXPIRY: after the grace, once every crew has stopped, the galleries of the region retire (R306). -/
def execTeardownGraceExpiry (pick : Nat) (s : State) : Out :=
  .next (match s.tears[pick]? with
    | none => s
    | some t =>
      let gs := tornGals s t
      if s.timens.toNat < t.ends || !(gs.all fun g => (s.allCrews.filter (·.gid == g.gid)).all (atStop s)) then s
      else
        let s1 := syncPath (gs.foldl tearGallery (dropRecords s t)) (tornPaths s t)
        { s1 with
          tears := s1.tears.filter (· != t)
          regions := s1.regions.filter fun r => !(r.1 == t.part && w64 r.2 == t.region) })

end Sys2Proof.Machine
end

