-- ==== Sys2Proof/Machine/Due.lean ====
section
/-!
DEFINITION. The events of the part that are due without anything from outside, and which of them comes next.

The manual fixes no order among them beyond what each waits for. They are listed by kind; the counter of free values
turns the kinds, and picks within a kind, so that each has its turn (log 2).
-/

namespace Sys2Proof.Machine

/-- One event for each crew that a test holds of. -/
def perCrew (s : State) (test : Crew → Bool) (e : Crew → Instr) : List Instr := (s.allCrews.filter test).map e

/-- How many kinds of event there are. -/
def dueKinds : Nat := 29

/-- A place in a list of `n`. The counter moves on by two between two turns of the part's own events, so that a round of
the kinds takes twice their number. -/
def turned (s : State) (n : Nat) : Nat := s.fresh / (2 * dueKinds) % max 1 n

/-- The numbers below `n` of which a test holds, as events. -/
def perNumber (n : Nat) (test : Nat → Bool) (e : Nat → Instr) : List Instr := ((List.range n).filter test).map e

/-- The clusters on which something is, each once. -/
def clustersOf (l : List Nat) : List Nat := l.eraseDups

/-- A crew that has been woken and stands on a core. -/
def toWake (c : Crew) : Bool :=
  c.woken.isSome &&
  match c.status with
  | .parked (.waitu _) => true
  | .parked .barc => true
  | _ => false

/-- A crew that drains before a trap. -/
def isDraining (c : Crew) : Bool :=
  match c.status with
  | .draining _ => true
  | _ => false

/-- The address spaces in which a region block may be named: its own, and those of the functions. -/
def tearAsns (s : State) (r : Record) : List Nat := r.asn :: s.fns.toList.map (·.wbasn.toNat)

/-- The event that tears a record's region down, when TEAR stands in its block and it is not being torn down. -/
def tearEvent (s : State) (r : Record) : Option Instr :=
  if r.path = [] || !bit (rcbField s r 0x88 8) 2 ||
      s.tears.any (fun t => t.part == r.part && t.region == w64 r.block) then none
  else
    ((tearAsns s r).find? fun asn =>
      match translate s r.part asn false false ⟨false, false, false⟩ r.region.toNat with
      | .error _ => false
      | .ok p => p.pa == r.block).map fun asn => .teardown (BitVec.ofNat 2 r.part) r.region (BitVec.ofNat 16 asn)

/-- The host queues that are in use. -/
def queueEvents (s : State) : List Instr :=
  (List.range 4).flatMap fun fn =>
    ((fnOf s fn).queues.filter fun q => queueDue s fn q.1).map fun q =>
      .hostQueueConsume (BitVec.ofNat 2 fn) (BitVec.ofNat 6 q.1)

/-- Of the galleries whose record completes now, those on the core that comes first in ascending number (R153). -/
def firstCompletion (s : State) : List Gallery :=
  let l := s.allGals.filter (completable s)
  l.filter fun g => l.all fun h => decide (g.core ≤ h.core)

/-- A port whose state changes with no event from outside: one that is DOWN with EN 1, and one whose 10 ms are over
(R372). -/
def portEvents (s : State) : List Instr :=
  (List.range 18).filterMap fun p =>
    let q := s.ports.getD p Port.reset
    if q.en && q.state == 0 then some (.portEn (BitVec.ofNat 5 p) 1)
    else if !q.late s.timens.toNat then none
    else if q.state == 1 then some (.detectTimeout (BitVec.ofNat 5 p))
    else some (.retrainTimeout (BitVec.ofNat 5 p))

/-- The events of one kind that are due. -/
def dueOf (s : State) (kind : Nat) : List Instr :=
  let now := s.timens.toNat
  match kind with
  | 0 => perCrew s (fun c => c.land != []) fun c => .longLatencyLanding c.uid (turned s c.land.length)
  | 1 => perCrew s (fun c => c.ready != [] && !s.slow.contains c.uid) fun c => .storePerformed c.uid
  | 2 => s.slow.map fun uid => .filterSlowPathWrite uid
  | 3 => perCrew s (fun c => c.acks != []) fun c => .sliceAnswer c.uid (turned s c.acks.length)
  | 4 => perCrew s (fun c => c.redq.any fun x => c.offers x || (x.seen.isSome && answerable s x)) fun c => .redqContribution c.uid (turned s c.redq.length)
  | 5 => perCrew s isDraining fun c => .trapEntry c.uid
  | 6 => perCrew s toWake fun c => .crewWakeResume c.uid
  | 7 => if s.sweepAt ≤ now then [.deadlineSweep] else []
  | 8 => perNumber 4 (placementDue s) fun p => .placementDecision (BitVec.ofNat 2 p)
  | 9 => (firstCompletion s).map fun g => .recordCompletion g.gid
  | 10 => if s.forming.any fun f => !f.closed && decide (f.since + 1000 ≤ now) then [.laneGangTimeout] else []
  | 11 =>
    (s.hoist.flatMap fun h => h.flight.map fun f => .hoistChunkDone f.2 (turned s (inFlight s f.2))) ++
    ((clustersOf (s.hoist.map fun h => clusterOf h.core)).filter (hoistWaiting s)).map fun k =>
      .hoistChunkDone (4 * k) (inFlight s (4 * k))
  | 12 => (s.rings.filter fun e => lookAtRing s e != s).map fun e => .ringSlotAdmit e.cluster e.entry
  | 13 => ((clustersOf (s.mx.map (·.cluster))).filter fun k => (nextPass s k).isSome).map fun k => .stripPassGrant k
  | 14 => (s.mx.filter fun m => m.running != []).map fun m =>
      .promotionEnd m.cluster (turned s (total (mxOf s m.cluster) (·.running.length)))
  | 15 => if s.flips = [] then [] else [.publishFlip (turned s s.flips.length)]
  | 16 => perNumber 4 (fun f => (fnOf s f).shoot.isSome) fun f => .shootdownDone (BitVec.ofNat 2 f)
  | 17 => if s.ctx = [] then [] else [.contextSaveDone]
  | 18 => s.regionRecords.filterMap (tearEvent s)
  | 19 => perNumber s.tears.length (fun i => (s.tears[i]?.map fun t => decide (t.ends ≤ now)).getD false)
      fun i => .teardownGraceExpiry i
  | 20 => perNumber s.colls.length (fun i => (s.colls[i]?.map (collOver s)).getD false) fun i => .collTimeout i
  | 21 => ((viewMembers s.pacer.view).filter (silentNow s)).map fun m => .peerSilent (BitVec.ofNat 8 m)
  | 22 => if s.pacer.grouped && decide (s.pacer.heartAt ≤ now) then [.heartTimer] else []
  | 23 => if s.pacer.pending.any fun m => decide (m.t ≤ now) then [.lapApply] else []
  | 24 => s.current.map fun r => .intervalEnd r.1
  | 25 => (s.current.filter fun r => r.2.cooldown.isSome).map fun r => .cooldownStep r.1
  | 26 => if s.boot.fuseGoal.isSome then [.fuseBlown] else []
  | 27 => portEvents s
  | _ => queueEvents s ++ (List.range 4).filterMap fun f => mailNext s (BitVec.ofNat 2 f)

/-- The first kind, from `k` on, with an event that is due. -/
def dueFrom (s : State) : Nat → Nat → Option Instr
  | 0, _ => none
  | n + 1, k =>
    match dueOf s (k % dueKinds) with
    | [] => dueFrom s n (k + 1)
    | l => l[turned s l.length]?

/-- The next event that is due. -/
def due (s : State) : Option Instr := dueFrom s dueKinds (s.fresh / 2)

end Sys2Proof.Machine
end

