-- ==== Sys2Proof/Machine/Control.lean ====
section
/-!
DEFINITION. The clause header (spec/02_one_crew.md, R11 to R15).
-/

namespace Sys2Proof.Machine

/-- A wait flag of a header is not clear (R12). -/
def waiting (c : Crew) (w : BitVec 12) : Bool := (List.range 12).any fun f => w.getLsbD f && flagCount c f != 0

/-- A flag that the header sets stands at 15 already; where setA and setB name one flag, setA is counted first (R12). -/
def flagsFull (c : Crew) (a b : BitVec 4) : Bool :=
  (a != 15 && flagCount c a.toNat == 15) ||
  (b != 15 && flagCount c b.toNat + (if a = b then 1 else 0) == 15)

/-- The clause opened: the outstanding marks that waited on its wait flags are removed, its flags rise, and its words
follow (R12, R15). -/
def openClause (c : Crew) (w : BitVec 12) (a b : BitVec 4) (l : BitVec 5) : Crew :=
  let n := c.clause + 1
  { c with
    clause := n, left := l.toNat + 1, setA := a, setB := b
    incs := c.incs ++ (if a = 15 then [] else [⟨n, a.toNat, false⟩]) ++ (if b = 15 then [] else [⟨n, b.toNat, true⟩])
    outm := c.outm.filter fun m => !w.getLsbD m.flag
    pc := normPc (c.pc + 4), status := .running }

/-- A deferred trap is raised at the header, before it takes effect (R224, R294). -/
def raiseDeferred (s : State) (t : TrapReq) (rest : List TrapReq) : State :=
  takeTrap { s with c := { s.c with deferred := rest } } { t with pc := s.c.pc, header := true }

/-- CLAUSE: stalls until its wait flags are clear and there is room in the flags it sets (R12). Of several deferred traps
due at one header the first is raised, and the next at the header that comes next, which may be the handler's own
(DESIGN CHOICE, log 87). -/
def execClause (w : BitVec 12) (a b : BitVec 4) (l : BitVec 5) (s : State) : Out :=
  issue (.clause w a b l) s fun s =>
    match s.c.deferred with
    | t :: rest => raiseDeferred s t rest
    | [] =>
      if waiting s.c w || flagsFull s.c a b then hold s
      else { s with c := openClause s.c w a b l }

end Sys2Proof.Machine
end

