-- ==== Sys2Proof/Machine/Sfu.lean ====
section
/-!
DEFINITION. The functions of the special-function unit (R96, R119): square root, reciprocal and reciprocal square root
from exact integer arithmetic, and FEX2, FLG2, FSIN and FCOS from enclosures of the exact value.

An enclosure is a pair of fixed-point bounds at some precision. Both bounds are rounded; where they round to one
pattern, the exact value does too. Finer enclosures follow where they do not (log 19).
-/

namespace Sys2Proof.Machine

/-! ### Series at a fixed point of `p` bits -/

/-- The sum of (-1)^k t / (x^(2k) (2k+1)) from index `k`; with `alt` false without the signs. -/
def invSeries (alt : Bool) (x : Nat) : Nat → Nat → Nat → Int
  | 0, _, _ => 0
  | n + 1, t, k =>
    (if alt && k % 2 == 1 then -((t / (2 * k + 1) : Nat) : Int) else ((t / (2 * k + 1) : Nat) : Int)) +
      invSeries alt x n (t / (x * x)) (k + 1)

/-- π at `p` bits (Machin: 16 arctan 1/5 - 4 arctan 1/239). -/
def piFix (p : Nat) : Nat :=
  (16 * invSeries true 5 (p / 4 + 8) (2 ^ p / 5) 0 - 4 * invSeries true 239 (p / 4 + 8) (2 ^ p / 239) 0).toNat

/-- ln 2 at `p` bits (2 artanh 1/3). -/
def ln2Fix (p : Nat) : Nat := (2 * invSeries false 3 (p / 3 + 8) (2 ^ p / 3) 0).toNat

/-- The exponential series from its term `t` of index `k`, for an argument `y` at `p` bits. -/
def expSeries (p y : Nat) : Nat → Nat → Nat → Nat
  | 0, _, _ => 0
  | n + 1, t, k => t + expSeries p y n (t * y / 2 ^ p / (k + 1)) (k + 1)

/-- The alternating series of sine (odd `k`) and cosine (even `k`) from its term `t` of index `k`. -/
def trigSeries (p r : Nat) : Nat → Nat → Nat → Int
  | 0, _, _ => 0
  | n + 1, t, k => t - trigSeries p r n (t * r / 2 ^ p * r / 2 ^ p / ((k + 1) * (k + 2))) (k + 2)

/-- The sum of z^(2k+1) / (2k+1) from the power `t`, index `k`, for `z` at `p` bits. -/
def artanhSeries (p z : Nat) : Nat → Nat → Nat → Nat
  | 0, _, _ => 0
  | n + 1, t, k => t / (2 * k + 1) + artanhSeries p z n (t * z / 2 ^ p * z / 2 ^ p) (k + 1)

/-! ### Enclosures -/

/-- Bounds lo * 2^e and hi * 2^e of an exact value. -/
structure Bounds where
  lo : Int
  hi : Int
  e  : Int
deriving DecidableEq, Repr

/-- A value at `p` bits that is exact to within 2^40 units, scaled by 2^e more. -/
def around (v : Int) (p : Nat) (e : Int) : Bounds := ⟨v - 2 ^ 40, v + 2 ^ 40, e - p⟩

/-- 2^x for x = m * 2^e with 2^-60 ≤ |x| < 2^13, at `p` bits. -/
def exp2Bounds (neg : Bool) (m : Nat) (e : Int) (p : Nat) : Bounds :=
  let x : Int := (m * 2 ^ (e + p).toNat : Nat)
  let x := if neg then -x else x
  let y := (x % 2 ^ p).toNat * ln2Fix p / 2 ^ p
  around (expSeries p y (p / 4 + 20) (2 ^ p) 0) p (x / 2 ^ p)

/-- log2 x for x = m * 2^e > 0, at `p` bits. -/
def log2Bounds (m : Nat) (e : Int) (p : Nat) : Bounds :=
  let b := m.log2
  let z := (m - 2 ^ b) * 2 ^ p / (m + 2 ^ b)
  let ln := 2 * artanhSeries p z (p / 3 + 8) z 0
  around ((e + b) * 2 ^ p + (ln * 2 ^ p / ln2Fix p : Nat)) p 0

/-- sin x, or cos x, for x = m * 2^e with |x| ≥ 2^-30, at `p` bits after reduction against π at a precision that
covers the size of x. -/
def trigBounds (cosine neg : Bool) (m : Nat) (e : Int) (p : Nat) : Bounds :=
  let q := p + 64 + (topExp m e).toNat
  let half := piFix q / 2
  let x := m * 2 ^ (e + q).toNat
  let k := x / half
  let r := x % half / 2 ^ (q - p)
  let sinR := trigSeries p r (p / 8 + 20) r 1
  let cosR := trigSeries p r (p / 8 + 20) (2 ^ p) 0
  let quad := (if cosine then k + 1 else k) % 4
  let v : Int := match quad with
    | 0 => sinR
    | 1 => cosR
    | 2 => -sinR
    | _ => -cosR
  around (if neg && !cosine then -v else v) p 0

/-! ### Rounding and flags -/

/-- A signed integer times 2^e rounded to nearest even. -/
def FFmt.roundSigned (f : FFmt) (x e : Int) : FRes := f.round 0 (decide (x < 0)) x.natAbs e false

/-- The flags of an SFU function for a result whose exact value is not zero: OF on overflow, UF for a subnormal or
zero result, and never NX (R96). -/
def FFmt.sfuFlags (f : FFmt) (r : FRes) : FRes :=
  ⟨r.bits, (r.flags &&& flagOF) + (if r.bits / 2 ^ f.mbits % 2 ^ f.ebits = 0 then flagUF else 0)⟩

/-- The correctly rounded result of a function from its enclosures at rising precisions: the first whose bounds round to
one pattern, and at `last` bits the pattern nearest to what is then known. No exact value of R96 lies halfway between
two patterns, and none is known that needs more than the first of the precisions (PRESUMED, log 19). -/
def FFmt.enclosed (f : FFmt) (bounds : Nat → Bounds) (last : Nat) : List Nat → FRes
  | [] =>
    let b := bounds last
    f.sfuFlags (f.roundSigned (b.lo + b.hi) (b.e - 1))
  | p :: ps =>
    let b := bounds p
    let lo := f.roundSigned b.lo b.e
    if lo.bits = (f.roundSigned b.hi b.e).bits then f.sfuFlags lo else f.enclosed bounds last ps

/-- The precisions of the enclosures but the last. -/
def precisions : List Nat := [320, 704, 1408]

/-- Bounds that differ from x itself by less than 2^-58 of it, toward zero. -/
def justBelow (neg : Bool) (m : Nat) (e : Int) : Bounds :=
  let x : Int := (m * 2 ^ 60 : Nat)
  if neg then ⟨-x, -(x - 4 * m), e - 60⟩ else ⟨x - 4 * m, x, e - 60⟩

/-- FRCP (R96). -/
def FFmt.rcp (f : FFmt) (x : Nat) : FRes :=
  match f.value x with
  | .nan sig => ⟨f.nan, nvOf sig⟩
  | .inf neg => ⟨f.zero neg, 0⟩
  | .num neg m e =>
    if m = 0 then ⟨f.inf neg, flagDZ⟩
    else
      let (q, k, sticky) := rcpParts m e 60
      f.sfuFlags (f.round 0 neg q k sticky)

/-- FRSQ (R96). -/
def FFmt.rsqrt (f : FFmt) (x : Nat) : FRes :=
  match f.value x with
  | .nan sig => ⟨f.nan, nvOf sig⟩
  | .inf neg => if neg then ⟨f.nan, flagNV⟩ else ⟨f.zero false, 0⟩
  | .num neg m e =>
    if m = 0 then ⟨f.inf neg, flagDZ⟩
    else if neg then ⟨f.nan, flagNV⟩
    else
      let (q, k, sticky) := rsqrtParts m e 60
      f.sfuFlags (f.round 0 false q k sticky)

/-- FSQRT, with the flags of R82 (R96). -/
def FFmt.sqrt (f : FFmt) (mode : BitVec 2) (x : Nat) : FRes :=
  match f.value x with
  | .nan sig => ⟨f.nan, nvOf sig⟩
  | .inf neg => if neg then ⟨f.nan, flagNV⟩ else ⟨f.inf false, 0⟩
  | .num neg m e =>
    if m = 0 then ⟨f.zero neg, 0⟩
    else if neg then ⟨f.nan, flagNV⟩
    else
      let (q, k, sticky) := sqrtParts m e 60
      f.round mode false q k sticky

/-- FEX2 (R96). -/
def FFmt.exp2 (f : FFmt) (x : Nat) : FRes :=
  match f.value x with
  | .nan sig => ⟨f.nan, nvOf sig⟩
  | .inf neg => if neg then ⟨f.zero false, 0⟩ else ⟨f.inf false, 0⟩
  | .num neg m e =>
    if m = 0 then f.round 0 false 1 0 false
    else if 12 < topExp m e then f.sfuFlags (f.round 0 false 1 (if neg then -2 ^ 13 else 2 ^ 13) false)
    else if topExp m e < -60 then f.round 0 false 1 0 false
    else if 0 ≤ e || m % 2 ^ (-e).toNat == 0 then
      let n : Int := (if 0 ≤ e then m * 2 ^ e.toNat else m / 2 ^ (-e).toNat : Nat)
      f.sfuFlags (f.round 0 false 1 (if neg then -n else n) false)
    else f.enclosed (exp2Bounds neg m e) 2816 precisions

/-- FLG2; the logarithm of a power of two is exact (R96). -/
def FFmt.log2 (f : FFmt) (x : Nat) : FRes :=
  match f.value x with
  | .nan sig => ⟨f.nan, nvOf sig⟩
  | .inf neg => if neg then ⟨f.nan, flagNV⟩ else ⟨f.inf false, 0⟩
  | .num neg m e =>
    if m = 0 then ⟨f.inf true, flagDZ⟩
    else if neg then ⟨f.nan, flagNV⟩
    else if m = 2 ^ m.log2 then ⟨(f.roundSigned (topExp m e) 0).bits, 0⟩
    else f.enclosed (log2Bounds m e) 2816 precisions

/-- FSIN and FCOS (R96). -/
def FFmt.trig (f : FFmt) (cosine : Bool) (x : Nat) : FRes :=
  match f.value x with
  | .nan sig => ⟨f.nan, nvOf sig⟩
  | .inf _ => ⟨f.nan, flagNV⟩
  | .num neg m e =>
    if m = 0 then (if cosine then f.round 0 false 1 0 false else ⟨f.zero neg, 0⟩)
    else if topExp m e < -30 then
      (if cosine then f.round 0 false 1 0 false else f.enclosed (fun _ => justBelow neg m e) 0 [])
    else f.enclosed (trigBounds cosine neg m e) 2816 precisions

end Sys2Proof.Machine
end

