-- ==== Sys2Proof/Machine/LaneFloat.lean ====
section
/-!
DEFINITION. The meanings of the floating-point, conversion and scaling words of spec/08_lane_float.md (R113 to R124).
-/

namespace Sys2Proof.Machine

/-- FADD (R116). -/
def execFadd (w : BitVec 2) (d a b : BitVec 7) (m : BitVec 2) (s : State) : Out :=
  issue (.fadd w d a b m) s fun s => laneFp s w d fun t j => (fmtOf w).add m (fsub s w t a j) (fsub s w t b j)

/-- FSUB (R116). -/
def execFsub (w : BitVec 2) (d a b : BitVec 7) (m : BitVec 2) (s : State) : Out :=
  issue (.fsub w d a b m) s fun s => laneFp s w d fun t j => (fmtOf w).sub m (fsub s w t a j) (fsub s w t b j)

/-- FMUL (R116). -/
def execFmul (w : BitVec 2) (d a b : BitVec 7) (m : BitVec 2) (s : State) : Out :=
  issue (.fmul w d a b m) s fun s => laneFp s w d fun t j => (fmtOf w).mul m (fsub s w t a j) (fsub s w t b j)

/-- FFMA, which reads vd as a source and rounds once (R116). -/
def execFfma (w : BitVec 2) (d a b : BitVec 7) (m : BitVec 2) (s : State) : Out :=
  issue (.ffma w d a b m) s fun s => laneFp s w d fun t j => (fmtOf w).fma m (fsub s w t a j) (fsub s w t b j) (fsub s w t d j)

/-- FMIN (R81, R117). -/
def execFmin (w : BitVec 2) (d a b : BitVec 7) (s : State) : Out :=
  issue (.fmin w d a b) s fun s => laneFp s w d fun t j => (fmtOf w).minmax false (fsub s w t a j) (fsub s w t b j)

/-- FMAX (R81, R117). -/
def execFmax (w : BitVec 2) (d a b : BitVec 7) (s : State) : Out :=
  issue (.fmax w d a b) s fun s => laneFp s w d fun t j => (fmtOf w).minmax true (fsub s w t a j) (fsub s w t b j)

/-- FCMP: a mask, and NV as R118 gives. -/
def execFcmp (w : BitVec 2) (d a b : BitVec 7) (m : BitVec 2) (s : State) : Out :=
  issue (.fcmp w d a b m) s fun s => laneFp s w d fun t j =>
    let r := (fmtOf w).rel m (fsub s w t a j) (fsub s w t b j)
    ⟨maskSub (fmtOf w).width r.1, r.2⟩

/-- FABS (R96, R119). -/
def execFabs (w : BitVec 2) (d a : BitVec 7) (s : State) : Out :=
  issue (.fabs w d a) s fun s => laneFp s w d fun t j => (fmtOf w).signOp false (fsub s w t a j)

/-- FNEG (R96, R119). -/
def execFneg (w : BitVec 2) (d a : BitVec 7) (s : State) : Out :=
  issue (.fneg w d a) s fun s => laneFp s w d fun t j => (fmtOf w).signOp true (fsub s w t a j)

/-- FFLR (R96, R119). -/
def execFflr (w : BitVec 2) (d a : BitVec 7) (s : State) : Out :=
  issue (.fflr w d a) s fun s => laneFp s w d fun t j => (fmtOf w).integral 3 false (fsub s w t a j)

/-- FCEIL (R96, R119). -/
def execFceil (w : BitVec 2) (d a : BitVec 7) (s : State) : Out :=
  issue (.fceil w d a) s fun s => laneFp s w d fun t j => (fmtOf w).integral 2 false (fsub s w t a j)

/-- FTRUNC (R96, R119). -/
def execFtrunc (w : BitVec 2) (d a : BitVec 7) (s : State) : Out :=
  issue (.ftrunc w d a) s fun s => laneFp s w d fun t j => (fmtOf w).integral 1 false (fsub s w t a j)

/-- FRINT (R96, R119). -/
def execFrint (w : BitVec 2) (d a : BitVec 7) (m : BitVec 2) (s : State) : Out :=
  issue (.frint w d a m) s fun s => laneFp s w d fun t j => (fmtOf w).integral m true (fsub s w t a j)

/-- A word of the SFU: operands read at issue, results and flags landing gang by gang (R114, R115). -/
def sfu (s : State) (w : BitVec 2) (d a : BitVec 7) (f : Nat → FRes) : State :=
  let r (t : Nat) : FRes := packResults (fmtOf w).width (subResults (fmtOf w).width fun j => f (fsub s w t a j))
  landLanes s d (laneThreads s) (fun t => some (w64 (r t).bits)) (fun t => (r t).flags)

/-- FRCP (R96, R119). -/
def execFrcp (w : BitVec 2) (d a : BitVec 7) (s : State) : Out :=
  issue (.frcp w d a) s fun s => sfu s w d a ((fmtOf w).rcp)

/-- FRSQ (R96, R119). -/
def execFrsq (w : BitVec 2) (d a : BitVec 7) (s : State) : Out :=
  issue (.frsq w d a) s fun s => sfu s w d a ((fmtOf w).rsqrt)

/-- FEX2 (R96, R119). -/
def execFex2 (w : BitVec 2) (d a : BitVec 7) (s : State) : Out :=
  issue (.fex2 w d a) s fun s => sfu s w d a ((fmtOf w).exp2)

/-- FLG2 (R96, R119). -/
def execFlg2 (w : BitVec 2) (d a : BitVec 7) (s : State) : Out :=
  issue (.flg2 w d a) s fun s => sfu s w d a ((fmtOf w).log2)

/-- FSIN (R96, R119). -/
def execFsin (w : BitVec 2) (d a : BitVec 7) (s : State) : Out :=
  issue (.fsin w d a) s fun s => sfu s w d a ((fmtOf w).trig false)

/-- FCOS (R96, R119). -/
def execFcos (w : BitVec 2) (d a : BitVec 7) (s : State) : Out :=
  issue (.fcos w d a) s fun s => sfu s w d a ((fmtOf w).trig true)

/-- FSQRT, rounded by md (R96, R119). -/
def execFsqrt (w : BitVec 2) (d a : BitVec 7) (m : BitVec 2) (s : State) : Out :=
  issue (.fsqrt w d a m) s fun s => sfu s w d a ((fmtOf w).sqrt m)

/-- The elements of a conversion: as many as the wider format allows, from the low end (R121). -/
def cvtResults (src dst : Nat) (sat : Bool) (m : BitVec 2) (x : Word) : List FRes :=
  (List.range (64 / max (cvtWidth src) (cvtWidth dst))).map fun j =>
    convert dst m sat (cvtDecode src (sub (cvtWidth src) x j))

/-- CVT (R120 to R122). -/
def execCvt (v a : BitVec 7) (src dst : BitVec 3) (t : BitVec 1) (m : BitVec 2) (s : State) : Out :=
  issue (.cvt v a src dst t m) s fun s => laneFlagged s v fun u =>
    packResults (cvtWidth dst.toNat) (cvtResults src.toNat dst.toNat (t == 1) m (reg s u a))

/-- QSCALE: quarter `q` of an NB4 block to BF16 (R86, R123). -/
def execQscale (b q : BitVec 2) (d a : BitVec 7) (v : BitVec 6) (s : State) : Out :=
  issue (.qscale b q d a v) s fun s => laneFlagged s d fun t =>
    let sc := (reg s t (v.setWidth 7)).toNat
    let e := bits sc (16 * b.toNat) 8
    let mu := bits sc (16 * b.toNat + 8) 8
    packResults 16 (subResults 16 fun j =>
      let k := 4 * q.toNat + j
      bf16.ofVal 0 (nb4Value (sub 4 (reg s t a) k) e (bits mu (k / 2) 1)))

/-- QSCALE8: two E4M3 bytes times an FP32 scale, rounded by FPRM (R124). -/
def execQscale8 (b : BitVec 1) (q : BitVec 2) (d a : BitVec 7) (v : BitVec 6) (s : State) : Out :=
  issue (.qscale8 b q d a v) s fun s => laneFlagged s d fun t =>
    let sc := sub 32 (reg s t (v.setWidth 7)) b.toNat
    packResults 32 (subResults 32 fun j =>
      let (x, fl) := (e4m3Value (sub 8 (reg s t a) (2 * q.toNat + j))).mul (fp32.value sc)
      let r := fp32.ofVal s.c.fprm x
      ⟨r.bits, r.flags ||| fl⟩)

end Sys2Proof.Machine
end

