-- ==== Sys2Proof/Machine/LaneInt.lean ====
section
/-!
DEFINITION. The meanings of the integer and cross-lane words of spec/07_lane_integer.md (R97 to R112).
-/

namespace Sys2Proof.Machine

/-- ADD (R100). -/
def execAdd (w : BitVec 2) (d a b : BitVec 7) (s : State) : Out :=
  issue (.add w d a b) s fun s => lane2 s (widthOf w) d a b fun x y => addSub (widthOf w) x y

/-- ADDI (R100). -/
def execAddi (w : BitVec 2) (d a : BitVec 7) (i : BitVec 9) (s : State) : Out :=
  issue (.addi w d a i) s fun s => lane1 s (widthOf w) d a fun x => addSub (widthOf w) x (immSub (widthOf w) i)

/-- SUB (R100). -/
def execSub (w : BitVec 2) (d a b : BitVec 7) (s : State) : Out :=
  issue (.sub w d a b) s fun s => lane2 s (widthOf w) d a b fun x y => subSub (widthOf w) x y

/-- MUL, the low half (R100). -/
def execMul (w : BitVec 2) (d a b : BitVec 7) (s : State) : Out :=
  issue (.mul w d a b) s fun s => lane2 s (widthOf w) d a b fun x y => mulSub (widthOf w) x y

/-- MULH, the high half (R100). -/
def execMulh (w : BitVec 2) (d a b : BitVec 7) (m : BitVec 1) (s : State) : Out :=
  issue (.mulh w d a b m) s fun s => lane2 s (widthOf w) d a b fun x y => mulhSub m (widthOf w) x y

/-- MAD, which reads vd as a source (R100). -/
def execMad (w : BitVec 2) (d a b : BitVec 7) (s : State) : Out :=
  issue (.mad w d a b) s fun s => lane3 s (widthOf w) d a b fun x y z => madSub (widthOf w) x y z

/-- ADDSAT (R100). -/
def execAddsat (w : BitVec 2) (d a b : BitVec 7) (m : BitVec 1) (s : State) : Out :=
  issue (.addsat w d a b m) s fun s => lane2 s (widthOf w) d a b fun x y => addsatSub m (widthOf w) x y

/-- SUBSAT (R100). -/
def execSubsat (w : BitVec 2) (d a b : BitVec 7) (m : BitVec 1) (s : State) : Out :=
  issue (.subsat w d a b m) s fun s => lane2 s (widthOf w) d a b fun x y => subsatSub m (widthOf w) x y

/-- MIN (R100). -/
def execMin (w : BitVec 2) (d a b : BitVec 7) (m : BitVec 1) (s : State) : Out :=
  issue (.min w d a b m) s fun s => lane2 s (widthOf w) d a b fun x y => minSub m (widthOf w) x y

/-- MAX (R100). -/
def execMax (w : BitVec 2) (d a b : BitVec 7) (m : BitVec 1) (s : State) : Out :=
  issue (.max w d a b m) s fun s => lane2 s (widthOf w) d a b fun x y => maxSub m (widthOf w) x y

/-- ABS; the least value gives itself (R101). -/
def execAbs (w : BitVec 2) (d a : BitVec 7) (s : State) : Out :=
  issue (.abs w d a) s fun s => lane1 s (widthOf w) d a fun x => absSub (widthOf w) x

/-- NEG (R101). -/
def execNeg (w : BitVec 2) (d a : BitVec 7) (s : State) : Out :=
  issue (.neg w d a) s fun s => lane1 s (widthOf w) d a fun x => negSub (widthOf w) x

/-- NOT (R101). -/
def execNot (w : BitVec 2) (d a : BitVec 7) (s : State) : Out :=
  issue (.not w d a) s fun s => lane1 s (widthOf w) d a fun x => notSub (widthOf w) x

/-- CLZ per sub-element (R101). -/
def execClz (w : BitVec 2) (d a : BitVec 7) (s : State) : Out :=
  issue (.clz w d a) s fun s => lane1 s (widthOf w) d a fun x => clzAt (widthOf w) x

/-- POPC per sub-element (R101). -/
def execPopc (w : BitVec 2) (d a : BitVec 7) (s : State) : Out :=
  issue (.popc w d a) s fun s => lane1 s (widthOf w) d a fun x => popAt (widthOf w) x

/-- BREV (R101). -/
def execBrev (w : BitVec 2) (d a : BitVec 7) (s : State) : Out :=
  issue (.brev w d a) s fun s => lane1 s (widthOf w) d a fun x => brevSub (widthOf w) x

/-- MOV of a thread register (R101). -/
def execMov (w : BitVec 2) (d a : BitVec 7) (s : State) : Out :=
  issue (.mov w d a) s fun s => lane1 s (widthOf w) d a fun x => x

/-- AND (R102). -/
def execAnd (w : BitVec 2) (d a b : BitVec 7) (s : State) : Out :=
  issue (.and w d a b) s fun s => lane2 s (widthOf w) d a b fun x y => x &&& y

/-- OR (R102). -/
def execOr (w : BitVec 2) (d a b : BitVec 7) (s : State) : Out :=
  issue (.or w d a b) s fun s => lane2 s (widthOf w) d a b fun x y => x ||| y

/-- XOR (R102). -/
def execXor (w : BitVec 2) (d a b : BitVec 7) (s : State) : Out :=
  issue (.xor w d a b) s fun s => lane2 s (widthOf w) d a b fun x y => x ^^^ y

/-- ANDN (R102). -/
def execAndn (w : BitVec 2) (d a b : BitVec 7) (s : State) : Out :=
  issue (.andn w d a b) s fun s => lane2 s (widthOf w) d a b fun x y => x &&& notSub (widthOf w) y

/-- SHL by a count per sub-element (R102). -/
def execShl (w : BitVec 2) (d a b : BitVec 7) (s : State) : Out :=
  issue (.shl w d a b) s fun s => lane2 s (widthOf w) d a b fun x y => shlSub (widthOf w) x y

/-- SHR (R102). -/
def execShr (w : BitVec 2) (d a b : BitVec 7) (s : State) : Out :=
  issue (.shr w d a b) s fun s => lane2 s (widthOf w) d a b fun x y => shrSub (widthOf w) x y

/-- SAR (R102). -/
def execSar (w : BitVec 2) (d a b : BitVec 7) (s : State) : Out :=
  issue (.sar w d a b) s fun s => lane2 s (widthOf w) d a b fun x y => sarSub (widthOf w) x y

/-- SHLI (R102). -/
def execShli (w : BitVec 2) (d a : BitVec 7) (i : BitVec 9) (s : State) : Out :=
  issue (.shli w d a i) s fun s => lane1 s (widthOf w) d a fun x => shlSub (widthOf w) x i.toNat

/-- SHRI (R102). -/
def execShri (w : BitVec 2) (d a : BitVec 7) (i : BitVec 9) (s : State) : Out :=
  issue (.shri w d a i) s fun s => lane1 s (widthOf w) d a fun x => shrSub (widthOf w) x i.toNat

/-- SARI (R102). -/
def execSari (w : BitVec 2) (d a : BitVec 7) (i : BitVec 9) (s : State) : Out :=
  issue (.sari w d a i) s fun s => lane1 s (widthOf w) d a fun x => sarSub (widthOf w) x i.toNat

/-- ANDI (R102). -/
def execAndi (w : BitVec 2) (d a : BitVec 7) (i : BitVec 9) (s : State) : Out :=
  issue (.andi w d a i) s fun s => lane1 s (widthOf w) d a fun x => x &&& immSub (widthOf w) i

/-- XORI (R102). -/
def execXori (w : BitVec 2) (d a : BitVec 7) (i : BitVec 9) (s : State) : Out :=
  issue (.xori w d a i) s fun s => lane1 s (widthOf w) d a fun x => x ^^^ immSub (widthOf w) i

/-- MOVI: the immediate in every sub-element (R103). -/
def execMovi (w : BitVec 2) (d : BitVec 7) (i : BitVec 9) (s : State) : Out :=
  issue (.movi w d i) s fun s => laneWrite s d fun _ => joinSubs (widthOf w) fun _ => immSub (widthOf w) i

/-- BCAST: the low bits of a scalar in every sub-element (R103). -/
def execBcast (w : BitVec 2) (d : BitVec 7) (ss : BitVec 6) (s : State) : Out :=
  issue (.bcast w d ss) s fun s => laneWrite s d fun _ => joinSubs (widthOf w) fun _ => (getS s.c ss).toNat

/-- The value of SPEC for a thread: its index, its lane, its gang, the launch thread count (R104). -/
def specValue (s : State) (c : BitVec 2) (t : Nat) : Nat :=
  match c.toNat with
  | 0 => t
  | 1 => t % 32
  | 2 => t / 32
  | _ => s.g.nthr

/-- SPEC (R104). -/
def execSpec (w : BitVec 2) (d : BitVec 7) (c : BitVec 2) (s : State) : Out :=
  issue (.spec w d c) s fun s => laneWrite s d fun t => joinSubs (widthOf w) fun _ => specValue s c t

/-- CMP, signed (R105). -/
def execCmp (w : BitVec 2) (d a b : BitVec 7) (m : BitVec 2) (s : State) : Out :=
  issue (.cmp w d a b m) s fun s => lane2 s (widthOf w) d a b fun x y => maskSub (widthOf w) (cmpSub m true (widthOf w) x y)

/-- CMPZ, unsigned (R105). -/
def execCmpz (w : BitVec 2) (d a b : BitVec 7) (m : BitVec 2) (s : State) : Out :=
  issue (.cmpz w d a b m) s fun s => lane2 s (widthOf w) d a b fun x y => maskSub (widthOf w) (cmpSub m false (widthOf w) x y)

/-- BFX, with one control value per thread (R106). -/
def execBfx (w : BitVec 2) (d a b : BitVec 7) (m : BitVec 1) (s : State) : Out :=
  issue (.bfx w d a b m) s fun s => laneWrite s d fun t =>
    joinSubs (widthOf w) fun j => bfxSub m (widthOf w) (sub (widthOf w) (reg s t a) j) (reg s t b)

/-- BFI, which reads vd as a source (R106). -/
def execBfi (w : BitVec 2) (d a b : BitVec 7) (s : State) : Out :=
  issue (.bfi w d a b) s fun s => laneWrite s d fun t =>
    joinSubs (widthOf w) fun j =>
      bfiSub (widthOf w) (sub (widthOf w) (reg s t d) j) (sub (widthOf w) (reg s t a) j) (reg s t b)

/-- PACK from width w to half of it (R107). -/
def execPack (w : BitVec 2) (d a b : BitVec 7) (m : BitVec 2) (s : State) : Out :=
  issue (.pack w d a b m) s fun s => laneWrite s d fun t => packWord m (widthOf w) (reg s t a) (reg s t b)

/-- UNPK to width w (R107). -/
def execUnpk (w : BitVec 2) (d a : BitVec 7) (m : BitVec 2) (s : State) : Out :=
  issue (.unpk w d a m) s fun s => laneWrite s d fun t => unpkWord m (widthOf w) (reg s t a)

/-- The threads of a set leave LIVE, and the ACT and saved entries of every crew of the gallery (R66). -/
def leaveLive (s : State) (set : ThreadSet) : State :=
  let s1 := s.onCrewsOf s.g.gid fun c => { c with act := c.act &&& ~~~ set, stack := c.stack.map (· &&& ~~~ set) }
  { s1 with g := { s1.g with live := s1.g.live &&& ~~~ set } }

/-- LEXIT (R66, R108). -/
def execLexit (s : State) : Out :=
  issue .lexit s fun s => done (leaveLive s (activeSet s.c))

/-! ### Cross-lane words (R93, R94, R109 to R111) -/

/-- The source of a shuffle for a thread and a distance, or none when it lies out of range (R110). -/
def shflSource (m : BitVec 2) (x t k : Nat) : Option Nat :=
  let lane := t % 32
  let gang := 32 * (t / 32)
  match m.toNat with
  | 0 => if x ≤ k then none else some (gang + (lane - lane % x) + k)
  | 1 => if x ≤ k then none else some (gang + (lane ^^^ k))
  | 2 => if lane % x < k then none else some (gang + (lane - k))
  | _ => if x ≤ lane % x + k then none else some (gang + (lane + k))

/-- One sub-element of a shuffle, with the flag it sets (R110). -/
def shflSub (s : State) (w : Nat) (a b : BitVec 7) (m : BitVec 2) (t j : Nat) : FRes :=
  match shflSource m s.c.xsub.toNat t (sub w (reg s t b) j) with
  | none => ⟨sub w (reg s t a) j, flagXOOR⟩
  | some u => if s.g.live.getLsbD u then ⟨sub w (reg s u a) j, 0⟩ else ⟨0, flagXDEAD⟩

/-- The thread whose register a shuffle reads for one sub-element: the thread itself when the lane is out of range,
none when the source is not in LIVE (R110). -/
def shflReads (s : State) (w : Nat) (b : BitVec 7) (m : BitVec 2) (t j : Nat) : Option Nat :=
  match shflSource m s.c.xsub.toNat t (sub w (reg s t b) j) with
  | none => some t
  | some u => if s.g.live.getLsbD u then some u else none

/-- The lowest thread that a shuffle reads, member or not, whose register holds an uncorrectable error (R110, R304). -/
def shflBad (s : State) (w : Nat) (a b : BitVec 7) (m : BitVec 2) : Option Nat :=
  if s.g.bad = [] then none else
  (List.range s.g.nthr).find? fun u => s.g.bad.contains (128 * u + a.toNat) &&
    (laneThreads s).any fun t => (List.range (64 / w)).any fun j => shflReads s w b m t j == some u

/-- SHFL (R110). -/
def execShfl (w : BitVec 2) (d a b : BitVec 7) (m : BitVec 2) (s : State) : Out :=
  issue (.shfl w d a b m) s fun s =>
    match shflBad s (widthOf w) a b m with
    | some u => takeTrap s (eccTrap s (u, a.toNat))
    | none => laneFlagged s d fun t =>
      packResults (widthOf w) (subResults (widthOf w) (shflSub s (widthOf w) a b m t))

/-- The operator of `REDL` and `SCANL` is a floating-point one (R39). -/
def redFloat (p : BitVec 7) : Bool := decide (8 ≤ p.toNat)

/-- The width of the sub-elements of a reduction. -/
def redWidth (w : BitVec 2) (p : BitVec 7) : Nat := if redFloat p then (fmtOf w).width else widthOf w

/-- One combining step of a reduction, the left value first (R39, R93). -/
def redStep (w : BitVec 2) (p : BitVec 7) (m : BitVec 2) (x y : Nat) : FRes :=
  match p.toNat with
  | 0 => ⟨addSub (widthOf w) x y, 0⟩
  | 1 => ⟨minSub 0 (widthOf w) x y, 0⟩
  | 2 => ⟨maxSub 0 (widthOf w) x y, 0⟩
  | 3 => ⟨minSub 1 (widthOf w) x y, 0⟩
  | 4 => ⟨maxSub 1 (widthOf w) x y, 0⟩
  | 5 => ⟨x &&& y, 0⟩
  | 6 => ⟨x ||| y, 0⟩
  | 7 => ⟨x ^^^ y, 0⟩
  | 8 => (fmtOf w).add m x y
  | 9 => (fmtOf w).minmax false x y
  | _ => (fmtOf w).minmax true x y

/-- The identity of an operator (R93). -/
def redIdentity (w : BitVec 2) (p : BitVec 7) : Nat :=
  match p.toNat with
  | 1 => 2 ^ (widthOf w - 1) - 1
  | 2 => 2 ^ (widthOf w - 1)
  | 3 => 2 ^ widthOf w - 1
  | 5 => 2 ^ widthOf w - 1
  | 9 => (fmtOf w).nan
  | 10 => (fmtOf w).nan
  | _ => 0

/-- Two nodes of the tree combined; an absent child passes the other on unchanged (R93). -/
def redNode (f : Nat → Nat → FRes) : Option FRes → Option FRes → Option FRes
  | some x, some y => some ⟨(f x.bits y.bits).bits, (f x.bits y.bits).flags ||| x.flags ||| y.flags⟩
  | some x, none => some x
  | none, y => y

/-- The node over 2^k lanes from lane `i` upward (R93). -/
def redTree (f : Nat → Nat → FRes) (leaf : Nat → Option Nat) : Nat → Nat → Option FRes
  | 0, i => (leaf i).map fun x => ⟨x, 0⟩
  | k + 1, i => redNode f (redTree f leaf k i) (redTree f leaf k (i + 2 ^ k))

/-- The sequential combination of a list (R94). -/
def redSeq (f : Nat → Nat → FRes) : List Nat → Option FRes
  | [] => none
  | x :: l => some (l.foldl (fun r y => ⟨(f r.bits y).bits, (f r.bits y).flags ||| r.flags⟩) ⟨x, 0⟩)

/-- The first thread of the subgroup of a thread (R109). -/
def subBase (x t : Nat) : Nat := t - t % 32 % x

/-- The value a thread gives to a cross-lane reduction, if it is a member. -/
def redLeaf (s : State) (w : Nat) (a : BitVec 7) (j t : Nat) : Option Nat :=
  if (activeSet s.c).getLsbD t then some (sub w (reg s t a) j) else none

/-- What a reduction writes: a NaN that the tree or the sequence only passed on becomes canonical where it is written, and a
signalling one sets NV (R81, R93; DEDUCED, log 66). -/
def redWritten (w : BitVec 2) (p : BitVec 7) (r : FRes) : FRes := if redFloat p then (fmtOf w).written r else r

/-- REDL (R93, R111). -/
def execRedl (w : BitVec 2) (d a p : BitVec 7) (m : BitVec 2) (s : State) : Out :=
  issue (.redl w d a p m) s fun s => laneFlagged s d fun t =>
    packResults (redWidth w p) (subResults (redWidth w p) fun j =>
      redWritten w p ((redTree (redStep w p m) (redLeaf s (redWidth w p) a j) s.c.xsub.toNat.log2
        (subBase s.c.xsub.toNat t)).getD ⟨redIdentity w p, 0⟩))

/-- SCANL: the members of the subgroup from its lowest lane up to the thread itself (R94, R111). -/
def execScanl (w : BitVec 2) (d a p : BitVec 7) (m : BitVec 2) (s : State) : Out :=
  issue (.scanl w d a p m) s fun s => laneFlagged s d fun t =>
    packResults (redWidth w p) (subResults (redWidth w p) fun j =>
      redWritten w p ((redSeq (redStep w p m) ((List.range (s.c.xsub.toNat)).filterMap fun k =>
        if subBase s.c.xsub.toNat t + k ≤ t then redLeaf s (redWidth w p) a j (subBase s.c.xsub.toNat t + k)
        else none)).getD ⟨redIdentity w p, 0⟩))

end Sys2Proof.Machine
end

