-- ==== Sys2Proof/Machine/Relay.lean ====
section
/-!
DEFINITION. The Relay (spec/16_memory_instructions.md, R235 to R240): sliding windows kept at a home slice, and the
meanings of the RELAY words. The control block stands in memory; the two stacks stand in the state, in place of the
storage that the hardware owns (log 36).
-/

namespace Sys2Proof.Machine

/-! ### Operators (R236) -/

/-- The operators of one FP32 value. -/
def relayIs32 (op : Nat) : Bool := op == 0 || op == 3 || op == 4 || op == 5

/-- A contribution as the operator takes it: a NaN of a floating-point operator is canonical from the start, so that no
value the object holds or answers carries a payload of it (R81, R236). -/
def relayValue (op : Nat) (x : Word) : Word :=
  let lo := bits x.toNat 0 32
  let hi := bits x.toNat 32 32
  if relayIs32 op then w64 (fp32.canon lo)
  else if op = 1 then w64 (fp64.canon x.toNat)
  else if op = 11 then w64 (fp32.canon lo + 2 ^ 32 * hi)
  else if op = 12 then w64 (fp32.canon lo + 2 ^ 32 * fp32.canon hi)
  else x

/-- `x ⊕ y` for ARGMAX.F32: value in [31:0], payload in [63:32]. -/
def argmax (x y : Word) : Word :=
  let vx := fp32.value (bits x.toNat 0 32)
  let vy := fp32.value (bits y.toNat 0 32)
  if vx.isNan && vy.isNan then w64 (bits y.toNat 32 32 * 2 ^ 32 + fp32.nan)
  else if vy.isNan then x
  else if vx.isNan then y
  else if vy.below vx then x else y

/-- `x ⊕ y`, `x` the older. -/
def relayOp (op : Nat) (x y : Word) : Word :=
  let lo (w : Word) : Nat := bits w.toNat 0 32
  let hi (w : Word) : Nat := bits w.toNat 32 32
  match op with
  | 0 => w64 (fp32.add 0 (lo x) (lo y)).bits
  | 1 => w64 (fp64.add 0 x.toNat y.toNat).bits
  | 2 => x + y
  | 3 => w64 (fp32.mul 0 (lo x) (lo y)).bits
  | 4 => w64 (fp32.minmax true (lo x) (lo y)).bits
  | 5 => w64 (fp32.minmax false (lo x) (lo y)).bits
  | 6 => if x.toInt ≤ y.toInt then y else x
  | 7 => if x.toInt ≤ y.toInt then x else y
  | 8 => x &&& y
  | 9 => x ||| y
  | 10 => x ^^^ y
  | 11 => argmax x y
  | _ => w64 ((fp32.mul 0 (lo x) (lo y)).bits + 2 ^ 32 * (fp32.fma 0 (lo y) (hi x) (hi y)).bits)

/-- The identity, the answer of an empty window. -/
def relayIdentity (op : Nat) : Word :=
  match op with
  | 3 => 0x3F800000
  | 4 => w64 fp32.nan
  | 5 => w64 fp32.nan
  | 6 => 0x8000000000000000
  | 7 => 0x7FFFFFFFFFFFFFFF
  | 8 => BitVec.allOnes 64
  | 11 => w64 fp32.nan
  | 12 => 0x3F800000
  | _ => 0

/-! ### The control block (R235) -/

def relayOper (s : State) (pa : Nat) : Nat := bits (readNat s pa 8) 0 4
def relaySeq (s : State) (pa : Nat) : Bool := bit (readNat s pa 8) 4
def relayW (s : State) (pa : Nat) : Nat := bits (readNat s pa 8) 16 13
def relayNext (s : State) (pa : Nat) : Nat := readNat s (pa + 0x10) 8
def relayTotal (s : State) (pa : Nat) : Nat := readNat s (pa + 0x18) 8
def relayN (s : State) (pa : Nat) : Nat := bits (readNat s (pa + 0x20) 8) 0 13
def relayBagg (s : State) (pa : Nat) : Word := w64 (readNat s (pa + 0x28) 8)

/-- The object whose control block stands at a physical address, once a `WCFG` has configured it. -/
def relayAt (s : State) (pa : Nat) : Option Relay :=
  if relayOper s pa = 15 then none else s.relays.find? (·.blk == pa)

/-- The object changed, and NEXT, TOTAL, the counts and BAGG of its block written as one write. -/
def putRelay (s : State) (r : Relay) (next total : Nat) (bagg : Word) : State :=
  performGlobal { s with relays := s.relays.map fun q => if q.blk = r.blk then r else q } (r.blk + 0x10)
    (toBytes 8 next ++ toBytes 8 total ++
      toBytes 8 (r.front.length + r.back.length + 2 ^ 16 * r.front.length) ++ toBytes 8 bagg.toNat)

/-! ### Applying a contribution (R238) -/

/-- The front aggregates of back values, `F1` first. -/
def flipBack (op : Nat) : List Word → List Word
  | [] => []
  | b :: l =>
    match flipBack op l with
    | [] => [b]
    | f :: fs => relayOp op b f :: f :: fs

/-- The window with its oldest contribution gone. -/
def dropOldest (op : Nat) (r : Relay) : Relay :=
  match r.front with
  | _ :: fs => { r with front := fs }
  | [] => { r with front := (flipBack op r.back).tail, back := [] }

/-- Apply: the oldest leaves a full window, and the contribution is pushed on the back; the object and BAGG. -/
def applyTo (op w : Nat) (r : Relay) (bagg c : Word) : Relay × Word :=
  let r1 := if w ≤ r.front.length + r.back.length then dropOldest op r else r
  ({ r1 with back := r1.back ++ [c] }, if r1.back = [] then c else relayOp op bagg c)

/-- One contribution applied at the home slice; NEXT as given. -/
def relayApply (s : State) (r : Relay) (c : Word) (next : Nat) : State :=
  let x := applyTo (relayOper s r.blk) (relayW s r.blk) r (relayBagg s r.blk) c
  putRelay s x.1 next ((relayTotal s r.blk + 1) % 2 ^ 64) x.2

/-- Held contributions applied while one has index NEXT; the first argument bounds how many (R221). -/
def relayHeld : Nat → State → Nat → State
  | 0, s, _ => s
  | n + 1, s, pa =>
    match relayAt s pa with
    | none => s
    | some r =>
      let next := relayNext s pa
      match r.held.find? fun h => h.1.toNat == next with
      | none => s
      | some h =>
        relayHeld n (relayApply s { r with held := r.held.filter (· != h) } h.2 ((next + 1) % 2 ^ 64)) pa

/-- The answer of `WQRY`. -/
def relayQuery (op : Nat) (r : Relay) (bagg : Word) : Word :=
  match r.front with
  | [] => if r.back = [] then relayIdentity op else bagg
  | f :: _ => if r.back = [] then f else relayOp op f bagg

/-! ### The words (R237, R238) -/

/-- A RELAY word at its control block, after its checks and in the order of the crew's accesses (R192, R219, R237, R240).
`need` says whether it reads or writes. -/
def relayAccess (s : State) (need : Need) (addr : Word) (go : State → Nat → Place → State) : State :=
  match checkRelay s addr.toNat with
  | .error e => scalarFault s e addr 2
  | .ok p =>
    if homeWaits s need p.pa 64 then hold s else
    let s := atHome s
    if poisoned s false p.pa 64 then scalarEcc s addr 0 else go s p.pa p

/-- The trap of a failed function. -/
def relayTrap (s : State) (addr : Word) : State := takeTrap s (trapHere s .relayCfg addr 0)

/-- WACC (R238). -/
def execWacc (a b : BitVec 6) (s : State) : Out :=
  issue (.wacc a b) s fun s =>
    relayAccess s needRW (getS s.c a) fun s pa _ =>
      match relayAt s pa with
      | none => relayTrap s (getS s.c a)
      | some r =>
        if relaySeq s pa then relayTrap s (getS s.c a)
        else done (relayApply s r (relayValue (relayOper s pa) (getS s.c b)) (relayNext s pa))

/-- WACCQ: the reorder rule of R221 against the block's NEXT; a duplicate is a precise SEQ_DUP, and the crew is held
while the index lies too far ahead (R238). -/
def execWaccq (a b : BitVec 6) (s : State) : Out :=
  issue (.waccq a b) s fun s =>
    relayAccess s needRW (getS s.c a) fun s pa _ =>
      match relayAt s pa with
      | none => relayTrap s (getS s.c a)
      | some r =>
        let i := getG s.c b 1
        let d := (i.toNat + 2 ^ 64 - relayNext s pa) % 2 ^ 64
        if !relaySeq s pa then relayTrap s (getS s.c a)
        else if 2 ^ 63 ≤ d || r.held.any (·.1 == i) then takeTrap s (trapHere s .seqDup (getS s.c a) 0)
        else if 64 ≤ d then hold s
        else
          let r1 : Relay := { r with held := r.held ++ [(i, relayValue (relayOper s pa) (getS s.c b))] }
          done (relayHeld r1.held.length
            { s with relays := s.relays.map fun q => if q.blk = pa then r1 else q } pa)

/-- WQRY (R238). -/
def execWqry (d a : BitVec 6) (s : State) : Out :=
  issue (.wqry d a) s fun s =>
    relayAccess s needR (getS s.c a) fun s pa _ =>
      match relayAt s pa with
      | none => relayTrap s (getS s.c a)
      | some r => doneS s d (relayQuery (relayOper s pa) r (relayBagg s pa))

/-- WLEN: N, FCNT and W (R238). -/
def execWlen (d a : BitVec 6) (s : State) : Out :=
  issue (.wlen d a) s fun s =>
    relayAccess s needR (getS s.c a) fun s pa _ =>
      match relayAt s pa with
      | none => relayTrap s (getS s.c a)
      | some r => doneS s d (w64 (r.front.length + r.back.length + 2 ^ 16 * r.front.length + 2 ^ 32 * relayW s pa))

/-- WCLR: the window is emptied and TOTAL is 0; the configuration, NEXT and held contributions stay (R238). -/
def execWclr (a : BitVec 6) (s : State) : Out :=
  issue (.wclr a) s fun s =>
    relayAccess s needRW (getS s.c a) fun s pa _ =>
      done (performGlobal { s with relays := s.relays.map fun q => if q.blk = pa then { q with front := [], back := [] } else q }
        (pa + 0x18) (toBytes 8 0 ++ toBytes 8 0))

/-- The bytes of the storage of a configuration, a whole number of 4 KiB pages (R235). -/
def storageBytes (op w : Nat) : Nat := (2 * w * (if op = 11 || op = 12 then 16 else 8) + 4095) / 4096 * 4096

/-- The pages of the storage, each translated with write permission (R238). -/
def storagePages (s : State) (base : Nat) : Nat → Except Cause (List (Nat × Nat))
  | 0 => .ok []
  | n + 1 =>
    match storagePages s base n with
    | .error e => .error e
    | .ok l =>
      match crewXlate s needW (base + 4096 * n) with
      | .error e => .error e
      | .ok p => .ok (l ++ [(p.pa, 4096)])

/-- The storage that a configuration gives up holds bytes that the manual does not give (log 36). -/
def freeStorage (s : State) (r : Relay) : State :=
  { r.store.foldl (fun (s : State) p => writeBytes s p.1 ((List.range p.2).map (Config.freeByte s.fresh))) s with
    fresh := s.fresh + 1 }

/-- The object at a block leaves the list of configured objects, and its storage is given up. -/
def releaseRelay (s : State) (pa : Nat) : State :=
  match s.relays.find? (·.blk == pa) with
  | none => s
  | some r => freeStorage { s with relays := s.relays.filter (·.blk != pa) } r

/-- The word 0x00 of a control block under a configuration, with TOTAL and the counts 0. -/
def configure (s : State) (pa cfg : Nat) : State :=
  performGlobal (performNat s pa 8 (bits cfg 0 5 + 2 ^ 16 * bits cfg 16 13)) (pa + 0x18) (toBytes 8 0 ++ toBytes 8 0)

/-- WCFG (R238). The OPER of 15 with which it is legal is that of the block as it stands (DEDUCED, log 88). -/
def execWcfg (a b : BitVec 6) (s : State) : Out :=
  issue (.wcfg a b) s fun s =>
    relayAccess s needRW (getS s.c a) fun s pa p =>
      let cfg := (getS s.c b).toNat
      let op := bits cfg 0 4
      let w := bits cfg 16 13
      let free := relayOper s pa == 15 ||
        (relayN s pa == 0 && ((s.relays.find? (·.blk == pa)).map fun r => r.held == []).getD true)
      let base := readNat s (pa + 8) 8
      if bits cfg 5 11 ≠ 0 || bits cfg 29 35 ≠ 0 || op = 13 || op = 14 || !free ||
          (op != 15 && (w == 0 || decide (4096 < w) || base % 4096 != 0)) then relayTrap s (getS s.c a)
      else if op = 15 then done (configure (releaseRelay s pa) pa cfg)
      else
        match storagePages s base (storageBytes op w / 4096) with
        | .error e => scalarFault s e (w64 base) 2
        | .ok l =>
          let s1 := releaseRelay s pa
          let r : Relay :=
            { blk := pa, home := p.home, uid := s.c.uid, region := w64 s.g.rcd.block, part := s.part, store := l,
              front := [], back := [], held := [] }
          done (configure { s1 with relays := s1.relays ++ [r] } pa cfg)

end Sys2Proof.Machine
end

