-- ==== Sys2Proof/Machine/Scalar.lean ====
section
/-!
DEFINITION. The meanings of the scalar and control-flow words of spec/04_scalar_control.md: ALU, ALUI, ALX, MOVW,
BRC, BR, CALL and JMP (R43 to R54).
-/

namespace Sys2Proof.Machine

/-- A scalar word of two source registers, both read before the destination is written (R43). -/
def scalar2 (s : State) (d a b : BitVec 6) (f : Word → Word → Word) : State :=
  doneS s d (f (getS s.c a) (getS s.c b))

/-- A scalar word of a register and an immediate, sign-extended to 64 bits (R29). -/
def scalarI (s : State) (d a : BitVec 6) (i : BitVec 9) (f : Word → Word → Word) : State :=
  doneS s d (f (getS s.c a) (sext i))

/-- ADD of two registers (R46). -/
def execAluAdd (d a b : BitVec 6) (s : State) : Out :=
  issue (.aluAdd d a b) s fun s => scalar2 s d a b fun a b => a + b

/-- SUB of two registers (R46). -/
def execAluSub (d a b : BitVec 6) (s : State) : Out :=
  issue (.aluSub d a b) s fun s => scalar2 s d a b fun a b => a - b

/-- AND of two registers (R46). -/
def execAluAnd (d a b : BitVec 6) (s : State) : Out :=
  issue (.aluAnd d a b) s fun s => scalar2 s d a b fun a b => a &&& b

/-- OR of two registers (R46). -/
def execAluOr (d a b : BitVec 6) (s : State) : Out :=
  issue (.aluOr d a b) s fun s => scalar2 s d a b fun a b => a ||| b

/-- XOR of two registers (R46). -/
def execAluXor (d a b : BitVec 6) (s : State) : Out :=
  issue (.aluXor d a b) s fun s => scalar2 s d a b fun a b => a ^^^ b

/-- ANDN of two registers (R46). -/
def execAluAndn (d a b : BitVec 6) (s : State) : Out :=
  issue (.aluAndn d a b) s fun s => scalar2 s d a b fun a b => a &&& ~~~ b

/-- SHL of two registers (R46). -/
def execAluShl (d a b : BitVec 6) (s : State) : Out :=
  issue (.aluShl d a b) s fun s => scalar2 s d a b fun a b => shl64 a b

/-- SHR of two registers (R46). -/
def execAluShr (d a b : BitVec 6) (s : State) : Out :=
  issue (.aluShr d a b) s fun s => scalar2 s d a b fun a b => shr64 a b

/-- SAR of two registers (R46). -/
def execAluSar (d a b : BitVec 6) (s : State) : Out :=
  issue (.aluSar d a b) s fun s => scalar2 s d a b fun a b => sar64 a b

/-- MUL of two registers (R46). -/
def execAluMul (d a b : BitVec 6) (s : State) : Out :=
  issue (.aluMul d a b) s fun s => scalar2 s d a b fun a b => a * b

/-- MULHS of two registers (R46). -/
def execAluMulhs (d a b : BitVec 6) (s : State) : Out :=
  issue (.aluMulhs d a b) s fun s => scalar2 s d a b fun a b => mulhs64 a b

/-- MULHZ of two registers (R46). -/
def execAluMulhz (d a b : BitVec 6) (s : State) : Out :=
  issue (.aluMulhz d a b) s fun s => scalar2 s d a b fun a b => mulhz64 a b

/-- MINS of two registers (R46). -/
def execAluMins (d a b : BitVec 6) (s : State) : Out :=
  issue (.aluMins d a b) s fun s => scalar2 s d a b fun a b => mins64 a b

/-- MAXS of two registers (R46). -/
def execAluMaxs (d a b : BitVec 6) (s : State) : Out :=
  issue (.aluMaxs d a b) s fun s => scalar2 s d a b fun a b => maxs64 a b

/-- MINZ of two registers (R46). -/
def execAluMinz (d a b : BitVec 6) (s : State) : Out :=
  issue (.aluMinz d a b) s fun s => scalar2 s d a b fun a b => minz64 a b

/-- MAXZ of two registers (R46). -/
def execAluMaxz (d a b : BitVec 6) (s : State) : Out :=
  issue (.aluMaxz d a b) s fun s => scalar2 s d a b fun a b => maxz64 a b

/-- ADD of a register and the sign-extended immediate (R46). -/
def execAluiAddi (d a : BitVec 6) (i : BitVec 9) (s : State) : Out :=
  issue (.aluiAddi d a i) s fun s => scalarI s d a i fun a b => a + b

/-- SUB of a register and the sign-extended immediate (R46). -/
def execAluiSubi (d a : BitVec 6) (i : BitVec 9) (s : State) : Out :=
  issue (.aluiSubi d a i) s fun s => scalarI s d a i fun a b => a - b

/-- AND of a register and the sign-extended immediate (R46). -/
def execAluiAndi (d a : BitVec 6) (i : BitVec 9) (s : State) : Out :=
  issue (.aluiAndi d a i) s fun s => scalarI s d a i fun a b => a &&& b

/-- OR of a register and the sign-extended immediate (R46). -/
def execAluiOri (d a : BitVec 6) (i : BitVec 9) (s : State) : Out :=
  issue (.aluiOri d a i) s fun s => scalarI s d a i fun a b => a ||| b

/-- XOR of a register and the sign-extended immediate (R46). -/
def execAluiXori (d a : BitVec 6) (i : BitVec 9) (s : State) : Out :=
  issue (.aluiXori d a i) s fun s => scalarI s d a i fun a b => a ^^^ b

/-- ANDN of a register and the sign-extended immediate (R46). -/
def execAluiAndni (d a : BitVec 6) (i : BitVec 9) (s : State) : Out :=
  issue (.aluiAndni d a i) s fun s => scalarI s d a i fun a b => a &&& ~~~ b

/-- SHL of a register and the sign-extended immediate (R46). -/
def execAluiShli (d a : BitVec 6) (i : BitVec 9) (s : State) : Out :=
  issue (.aluiShli d a i) s fun s => scalarI s d a i fun a b => shl64 a b

/-- SHR of a register and the sign-extended immediate (R46). -/
def execAluiShri (d a : BitVec 6) (i : BitVec 9) (s : State) : Out :=
  issue (.aluiShri d a i) s fun s => scalarI s d a i fun a b => shr64 a b

/-- SAR of a register and the sign-extended immediate (R46). -/
def execAluiSari (d a : BitVec 6) (i : BitVec 9) (s : State) : Out :=
  issue (.aluiSari d a i) s fun s => scalarI s d a i fun a b => sar64 a b

/-- MUL of a register and the sign-extended immediate (R46). -/
def execAluiMuli (d a : BitVec 6) (i : BitVec 9) (s : State) : Out :=
  issue (.aluiMuli d a i) s fun s => scalarI s d a i fun a b => a * b

/-- MULHS of a register and the sign-extended immediate (R46). -/
def execAluiMulhsi (d a : BitVec 6) (i : BitVec 9) (s : State) : Out :=
  issue (.aluiMulhsi d a i) s fun s => scalarI s d a i fun a b => mulhs64 a b

/-- MULHZ of a register and the sign-extended immediate (R46). -/
def execAluiMulhzi (d a : BitVec 6) (i : BitVec 9) (s : State) : Out :=
  issue (.aluiMulhzi d a i) s fun s => scalarI s d a i fun a b => mulhz64 a b

/-- MINS of a register and the sign-extended immediate (R46). -/
def execAluiMinsi (d a : BitVec 6) (i : BitVec 9) (s : State) : Out :=
  issue (.aluiMinsi d a i) s fun s => scalarI s d a i fun a b => mins64 a b

/-- MAXS of a register and the sign-extended immediate (R46). -/
def execAluiMaxsi (d a : BitVec 6) (i : BitVec 9) (s : State) : Out :=
  issue (.aluiMaxsi d a i) s fun s => scalarI s d a i fun a b => maxs64 a b

/-- MINZ of a register and the sign-extended immediate (R46). -/
def execAluiMinzi (d a : BitVec 6) (i : BitVec 9) (s : State) : Out :=
  issue (.aluiMinzi d a i) s fun s => scalarI s d a i fun a b => minz64 a b

/-- MAXZ of a register and the sign-extended immediate (R46). -/
def execAluiMaxzi (d a : BitVec 6) (i : BitVec 9) (s : State) : Out :=
  issue (.aluiMaxzi d a i) s fun s => scalarI s d a i fun a b => maxz64 a b

/-- DIVS (R48, R49). -/
def execDivs (d a b : BitVec 6) (s : State) : Out :=
  issue (.divs d a b) s fun s => scalar2 s d a b fun a b => divs64 a b

/-- DIVZ (R48, R49). -/
def execDivz (d a b : BitVec 6) (s : State) : Out :=
  issue (.divz d a b) s fun s => scalar2 s d a b fun a b => divz64 a b

/-- REMS (R48, R49). -/
def execRems (d a b : BitVec 6) (s : State) : Out :=
  issue (.rems d a b) s fun s => scalar2 s d a b fun a b => rems64 a b

/-- REMZ (R48, R49). -/
def execRemz (d a b : BitVec 6) (s : State) : Out :=
  issue (.remz d a b) s fun s => scalar2 s d a b fun a b => remz64 a b

/-- BFX (R48, R49). -/
def execAlxBfx (d a b : BitVec 6) (s : State) : Out :=
  issue (.alxBfx d a b) s fun s => scalar2 s d a b fun a b => bfx64 a b

/-- CLZ of a scalar (R49). -/
def execAlxClz (d a : BitVec 6) (s : State) : Out :=
  issue (.alxClz d a) s fun s => doneS s d (w64 (clzAt 64 (getS s.c a).toNat))

/-- POPC of a scalar (R49). -/
def execAlxPopc (d a : BitVec 6) (s : State) : Out :=
  issue (.alxPopc d a) s fun s => doneS s d (w64 (popAt 64 (getS s.c a).toNat))

/-- BFI, which reads sd as a source (R49). -/
def execAlxBfi (d a b : BitVec 6) (s : State) : Out :=
  issue (.alxBfi d a b) s fun s => doneS s d (bfi64 (getS s.c d) (getS s.c a) (getS s.c b))

/-- CMPS: 1 if the relation holds, else 0 (R50). -/
def execCmps (d a b : BitVec 6) (c : BitVec 3) (s : State) : Out :=
  issue (.cmps d a b c) s fun s => scalar2 s d a b fun a b => if relCmps c a b then 1 else 0

/-- MOV of a scalar (R50). -/
def execAlxMov (d a : BitVec 6) (s : State) : Out :=
  issue (.alxMov d a) s fun s => doneS s d (getS s.c a)

/-- SELNZ: sd keeps its value when sa is zero (R50). -/
def execSelnz (d a b : BitVec 6) (s : State) : Out :=
  issue (.selnz d a b) s fun s => doneS s d (if getS s.c a ≠ 0 then getS s.c b else getS s.c d)

/-- MOVW with keep = 0 (R51). -/
def execMovw (h : BitVec 2) (d : BitVec 6) (i : BitVec 16) (s : State) : Out :=
  issue (.movw h d i) s fun s => doneS s d (putHalf 0 h i)

/-- MOVW with keep = 1 (R51). -/
def execMovwk (h : BitVec 2) (d : BitVec 6) (i : BitVec 16) (s : State) : Out :=
  issue (.movwk h d i) s fun s => doneS s d (putHalf (getS s.c d) h i)

/-! ### Control flow (R52 to R54) -/

/-- The target of a relative transfer: the pc and a signed number of words (R29). -/
def relTarget {n : Nat} (s : State) (o : BitVec n) : Word := s.c.pc + 4 * sext o

/-- The link register written with the address of the next word (R53, R54). -/
def link (s : State) : State := { s with c := setS s.c 63 (s.c.pc + 4) }

/-- BRC (R52). -/
def execBrc (c : BitVec 4) (a b : BitVec 6) (o : BitVec 9) (s : State) : Out :=
  issue (.brc c a b o) s fun s =>
    if relBrc (c.setWidth 3) (getS s.c a) (getS s.c b) then jump s (relTarget s o) else done s

/-- BR (R53). -/
def execBr (o : BitVec 25) (s : State) : Out :=
  issue (.br o) s fun s => jump s (relTarget s o)

/-- CALL (R53). -/
def execCall (o : BitVec 25) (s : State) : Out :=
  issue (.call o) s fun s => jump (link s) (relTarget s o)

/-- JR, whose target the word's checks have passed (R54). -/
def execJr (a : BitVec 6) (s : State) : Out :=
  issue (.jr a) s fun s => jump s (getS s.c a)

/-- CALLR, whose target is read before the link is written (R54). -/
def execCallr (a : BitVec 6) (s : State) : Out :=
  issue (.callr a) s fun s => jump (link s) (getS s.c a)

/-- RET (R54). -/
def execRet (s : State) : Out :=
  issue .ret s fun s => jump s (getS s.c 63)

end Sys2Proof.Machine
end

