-- ==== Sys2Proof/Machine/Dispatch.lean ====
section
/-!
DEFINITION. The meaning of every instruction and event, one arm each.
-/

namespace Sys2Proof.Machine

/-- One instruction or event at a state. -/
def exec (i : Instr) (s : State) : Host.Outcome State Fault Refusal :=
  match i with
  | .aluAdd d a b => Sys2Proof.Machine.execAluAdd d a b s
  | .aluSub d a b => Sys2Proof.Machine.execAluSub d a b s
  | .aluAnd d a b => Sys2Proof.Machine.execAluAnd d a b s
  | .aluOr d a b => Sys2Proof.Machine.execAluOr d a b s
  | .aluXor d a b => Sys2Proof.Machine.execAluXor d a b s
  | .aluAndn d a b => Sys2Proof.Machine.execAluAndn d a b s
  | .aluShl d a b => Sys2Proof.Machine.execAluShl d a b s
  | .aluShr d a b => Sys2Proof.Machine.execAluShr d a b s
  | .aluSar d a b => Sys2Proof.Machine.execAluSar d a b s
  | .aluMul d a b => Sys2Proof.Machine.execAluMul d a b s
  | .aluMulhs d a b => Sys2Proof.Machine.execAluMulhs d a b s
  | .aluMulhz d a b => Sys2Proof.Machine.execAluMulhz d a b s
  | .aluMins d a b => Sys2Proof.Machine.execAluMins d a b s
  | .aluMaxs d a b => Sys2Proof.Machine.execAluMaxs d a b s
  | .aluMinz d a b => Sys2Proof.Machine.execAluMinz d a b s
  | .aluMaxz d a b => Sys2Proof.Machine.execAluMaxz d a b s
  | .aluiAddi d a imm => Sys2Proof.Machine.execAluiAddi d a imm s
  | .aluiSubi d a imm => Sys2Proof.Machine.execAluiSubi d a imm s
  | .aluiAndi d a imm => Sys2Proof.Machine.execAluiAndi d a imm s
  | .aluiOri d a imm => Sys2Proof.Machine.execAluiOri d a imm s
  | .aluiXori d a imm => Sys2Proof.Machine.execAluiXori d a imm s
  | .aluiAndni d a imm => Sys2Proof.Machine.execAluiAndni d a imm s
  | .aluiShli d a imm => Sys2Proof.Machine.execAluiShli d a imm s
  | .aluiShri d a imm => Sys2Proof.Machine.execAluiShri d a imm s
  | .aluiSari d a imm => Sys2Proof.Machine.execAluiSari d a imm s
  | .aluiMuli d a imm => Sys2Proof.Machine.execAluiMuli d a imm s
  | .aluiMulhsi d a imm => Sys2Proof.Machine.execAluiMulhsi d a imm s
  | .aluiMulhzi d a imm => Sys2Proof.Machine.execAluiMulhzi d a imm s
  | .aluiMinsi d a imm => Sys2Proof.Machine.execAluiMinsi d a imm s
  | .aluiMaxsi d a imm => Sys2Proof.Machine.execAluiMaxsi d a imm s
  | .aluiMinzi d a imm => Sys2Proof.Machine.execAluiMinzi d a imm s
  | .aluiMaxzi d a imm => Sys2Proof.Machine.execAluiMaxzi d a imm s
  | .divs d a b => Sys2Proof.Machine.execDivs d a b s
  | .divz d a b => Sys2Proof.Machine.execDivz d a b s
  | .rems d a b => Sys2Proof.Machine.execRems d a b s
  | .remz d a b => Sys2Proof.Machine.execRemz d a b s
  | .alxClz d a => Sys2Proof.Machine.execAlxClz d a s
  | .alxPopc d a => Sys2Proof.Machine.execAlxPopc d a s
  | .alxBfx d a b => Sys2Proof.Machine.execAlxBfx d a b s
  | .alxBfi d a b => Sys2Proof.Machine.execAlxBfi d a b s
  | .cmps d a b c => Sys2Proof.Machine.execCmps d a b c s
  | .alxMov d a => Sys2Proof.Machine.execAlxMov d a s
  | .selnz d a b => Sys2Proof.Machine.execSelnz d a b s
  | .movw h d imm => Sys2Proof.Machine.execMovw h d imm s
  | .movwk h d imm => Sys2Proof.Machine.execMovwk h d imm s
  | .brc c a b o => Sys2Proof.Machine.execBrc c a b o s
  | .br o => Sys2Proof.Machine.execBr o s
  | .call o => Sys2Proof.Machine.execCall o s
  | .jr a => Sys2Proof.Machine.execJr a s
  | .callr a => Sys2Proof.Machine.execCallr a s
  | .ret => Sys2Proof.Machine.execRet s
  | .srch m c v k n => Sys2Proof.Machine.execSrch m c v k n s
  | .srcha m c v k n => Sys2Proof.Machine.execSrcha m c v k n s
  | .srchr m c v b n => Sys2Proof.Machine.execSrchr m c v b n s
  | .mand d a b => Sys2Proof.Machine.execMand d a b s
  | .mor d a b => Sys2Proof.Machine.execMor d a b s
  | .mxor d a b => Sys2Proof.Machine.execMxor d a b s
  | .mandn d a b => Sys2Proof.Machine.execMandn d a b s
  | .mnot d a => Sys2Proof.Machine.execMnot d a s
  | .mcopy d a => Sys2Proof.Machine.execMcopy d a s
  | .mclr d => Sys2Proof.Machine.execMclr d s
  | .mgetact d => Sys2Proof.Machine.execMgetact d s
  | .cnt a ss => Sys2Proof.Machine.execCnt a ss s
  | .first a ss => Sys2Proof.Machine.execFirst a ss s
  | .next a ss => Sys2Proof.Machine.execNext a ss s
  | .mpick d a ss => Sys2Proof.Machine.execMpick d a ss s
  | .mset1 d ss => Sys2Proof.Machine.execMset1 d ss s
  | .mclr1 d ss => Sys2Proof.Machine.execMclr1 d ss s
  | .mload d ss => Sys2Proof.Machine.execMload d ss s
  | .mstore a ss => Sys2Proof.Machine.execMstore a ss s
  | .push a => Sys2Proof.Machine.execPush a s
  | .pop => Sys2Proof.Machine.execPop s
  | .else_ a => Sys2Proof.Machine.execElse a s
  | .jarv d => Sys2Proof.Machine.execJarv d s
  | .join a => Sys2Proof.Machine.execJoin a s
  | .setact a => Sys2Proof.Machine.execSetact a s
  | .pushall => Sys2Proof.Machine.execPushall s
  | .rdepth ss => Sys2Proof.Machine.execRdepth ss s
  | .get d n b h => Sys2Proof.Machine.execGet d n b h s
  | .put d n b h => Sys2Proof.Machine.execPut d n b h s
  | .getf d n h => Sys2Proof.Machine.execGetf d n h s
  | .blkacqW a => Sys2Proof.Machine.execBlkacqW a s
  | .blkacqP d a => Sys2Proof.Machine.execBlkacqP d a s
  | .blkrel a => Sys2Proof.Machine.execBlkrel a s
  | .blkq d => Sys2Proof.Machine.execBlkq d s
  | .pblk m n p => Sys2Proof.Machine.execPblk m n p s
  | .clause w a b l => Sys2Proof.Machine.execClause w a b l s
  | .lds z o d a imm => Sys2Proof.Machine.execLds z o d a imm s
  | .sts z o d a imm => Sys2Proof.Machine.execSts z o d a imm s
  | .atoms p d a b z o => Sys2Proof.Machine.execAtoms p d a b z o s
  | .fence => Sys2Proof.Machine.execFence s
  | .fenceA => Sys2Proof.Machine.execFenceA s
  | .fenceR => Sys2Proof.Machine.execFenceR s
  | .ifence => Sys2Proof.Machine.execIfence s
  | .waitu c d a b w t => Sys2Proof.Machine.execWaitu c d a b w t s
  | .wacc a b => Sys2Proof.Machine.execWacc a b s
  | .waccq a b => Sys2Proof.Machine.execWaccq a b s
  | .wqry d a => Sys2Proof.Machine.execWqry d a s
  | .wcfg a b => Sys2Proof.Machine.execWcfg a b s
  | .wclr a => Sys2Proof.Machine.execWclr a s
  | .wlen d a => Sys2Proof.Machine.execWlen d a s
  | .redqs f d a b => Sys2Proof.Machine.execRedqs f d a b s
  | .twaitany a => Sys2Proof.Machine.execTwaitany a s
  | .twaitall a => Sys2Proof.Machine.execTwaitall a s
  | .tfirst d a => Sys2Proof.Machine.execTfirst d a s
  | .tclr a => Sys2Proof.Machine.execTclr a s
  | .trdy d => Sys2Proof.Machine.execTrdy d s
  | .hcopy t g n y x => Sys2Proof.Machine.execHcopy t g n y x s
  | .hgath t g n y x => Sys2Proof.Machine.execHgath t g n y x s
  | .hscat t g n y x => Sys2Proof.Machine.execHscat t g n y x s
  | .hfill t g n x => Sys2Proof.Machine.execHfill t g n x s
  | .hplane t g n y r f => Sys2Proof.Machine.execHplane t g n y r f s
  | .hchain t g n => Sys2Proof.Machine.execHchain t g n s
  | .hstop t n => Sys2Proof.Machine.execHstop t n s
  | .hresume t n => Sys2Proof.Machine.execHresume t n s
  | .hprog t g => Sys2Proof.Machine.execHprog t g s
  | .mma t g f n => Sys2Proof.Machine.execMma t g f n s
  | .mzero t g n => Sys2Proof.Machine.execMzero t g n s
  | .mring g => Sys2Proof.Machine.execMring g s
  | .mfence t n => Sys2Proof.Machine.execMfence t n s
  | .mdetach => Sys2Proof.Machine.execMdetach s
  | .tktake a => Sys2Proof.Machine.execTktake a s
  | .tkgive a => Sys2Proof.Machine.execTkgive a s
  | .tkqry d a => Sys2Proof.Machine.execTkqry d a s
  | .publish a => Sys2Proof.Machine.execPublish a s
  | .pubqry d a => Sys2Proof.Machine.execPubqry d a s
  | .pubset a b => Sys2Proof.Machine.execPubset a b s
  | .spawn a => Sys2Proof.Machine.execSpawn a s
  | .spawnNb d a => Sys2Proof.Machine.execSpawnNb d a s
  | .spawng a => Sys2Proof.Machine.execSpawng a s
  | .joindec a => Sys2Proof.Machine.execJoindec a s
  | .depdec a => Sys2Proof.Machine.execDepdec a s
  | .launch d a => Sys2Proof.Machine.execLaunch d a s
  | .barc a b => Sys2Proof.Machine.execBarc a b s
  | .exit => Sys2Proof.Machine.execExit s
  | .cred t g n r p => Sys2Proof.Machine.execCred t g n r p s
  | .cgath t g n r p => Sys2Proof.Machine.execCgath t g n r p s
  | .cbcast t g n p => Sys2Proof.Machine.execCbcast t g n p s
  | .cstat t g => Sys2Proof.Machine.execCstat t g s
  | .rdsys d n => Sys2Proof.Machine.execRdsys d n s
  | .wrsys d n => Sys2Proof.Machine.execWrsys d n s
  | .trap n => Sys2Proof.Machine.execTrap n s
  | .rte => Sys2Proof.Machine.execRte s
  | .bkpt n => Sys2Proof.Machine.execBkpt n s
  | .yield => Sys2Proof.Machine.execYield s
  | .nop => Sys2Proof.Machine.execNop s
  | .halt => Sys2Proof.Machine.execHalt s
  | .rspill a => Sys2Proof.Machine.execRspill a s
  | .rfill a => Sys2Proof.Machine.execRfill a s
  | .ctxsave a => Sys2Proof.Machine.execCtxsave a s
  | .ctxload a => Sys2Proof.Machine.execCtxload a s
  | .add w d a b => Sys2Proof.Machine.execAdd w d a b s
  | .addi w d a imm => Sys2Proof.Machine.execAddi w d a imm s
  | .sub w d a b => Sys2Proof.Machine.execSub w d a b s
  | .mul w d a b => Sys2Proof.Machine.execMul w d a b s
  | .mulh w d a b m => Sys2Proof.Machine.execMulh w d a b m s
  | .mad w d a b => Sys2Proof.Machine.execMad w d a b s
  | .addsat w d a b m => Sys2Proof.Machine.execAddsat w d a b m s
  | .subsat w d a b m => Sys2Proof.Machine.execSubsat w d a b m s
  | .min w d a b m => Sys2Proof.Machine.execMin w d a b m s
  | .max w d a b m => Sys2Proof.Machine.execMax w d a b m s
  | .abs w d a => Sys2Proof.Machine.execAbs w d a s
  | .neg w d a => Sys2Proof.Machine.execNeg w d a s
  | .not w d a => Sys2Proof.Machine.execNot w d a s
  | .clz w d a => Sys2Proof.Machine.execClz w d a s
  | .popc w d a => Sys2Proof.Machine.execPopc w d a s
  | .brev w d a => Sys2Proof.Machine.execBrev w d a s
  | .mov w d a => Sys2Proof.Machine.execMov w d a s
  | .and w d a b => Sys2Proof.Machine.execAnd w d a b s
  | .or w d a b => Sys2Proof.Machine.execOr w d a b s
  | .xor w d a b => Sys2Proof.Machine.execXor w d a b s
  | .andn w d a b => Sys2Proof.Machine.execAndn w d a b s
  | .shl w d a b => Sys2Proof.Machine.execShl w d a b s
  | .shr w d a b => Sys2Proof.Machine.execShr w d a b s
  | .sar w d a b => Sys2Proof.Machine.execSar w d a b s
  | .shli w d a imm => Sys2Proof.Machine.execShli w d a imm s
  | .shri w d a imm => Sys2Proof.Machine.execShri w d a imm s
  | .sari w d a imm => Sys2Proof.Machine.execSari w d a imm s
  | .movi w d imm => Sys2Proof.Machine.execMovi w d imm s
  | .bcast w d ss => Sys2Proof.Machine.execBcast w d ss s
  | .cmp w d a b m => Sys2Proof.Machine.execCmp w d a b m s
  | .cmpz w d a b m => Sys2Proof.Machine.execCmpz w d a b m s
  | .fcmp w d a b m => Sys2Proof.Machine.execFcmp w d a b m s
  | .bfx w d a b m => Sys2Proof.Machine.execBfx w d a b m s
  | .bfi w d a b => Sys2Proof.Machine.execBfi w d a b s
  | .pack w d a b m => Sys2Proof.Machine.execPack w d a b m s
  | .unpk w d a m => Sys2Proof.Machine.execUnpk w d a m s
  | .andi w d a imm => Sys2Proof.Machine.execAndi w d a imm s
  | .xori w d a imm => Sys2Proof.Machine.execXori w d a imm s
  | .fadd w d a b m => Sys2Proof.Machine.execFadd w d a b m s
  | .fsub w d a b m => Sys2Proof.Machine.execFsub w d a b m s
  | .fmul w d a b m => Sys2Proof.Machine.execFmul w d a b m s
  | .ffma w d a b m => Sys2Proof.Machine.execFfma w d a b m s
  | .fmin w d a b => Sys2Proof.Machine.execFmin w d a b s
  | .fmax w d a b => Sys2Proof.Machine.execFmax w d a b s
  | .fabs w d a => Sys2Proof.Machine.execFabs w d a s
  | .fneg w d a => Sys2Proof.Machine.execFneg w d a s
  | .frcp w d a => Sys2Proof.Machine.execFrcp w d a s
  | .frsq w d a => Sys2Proof.Machine.execFrsq w d a s
  | .fsqrt w d a m => Sys2Proof.Machine.execFsqrt w d a m s
  | .fex2 w d a => Sys2Proof.Machine.execFex2 w d a s
  | .flg2 w d a => Sys2Proof.Machine.execFlg2 w d a s
  | .fsin w d a => Sys2Proof.Machine.execFsin w d a s
  | .fcos w d a => Sys2Proof.Machine.execFcos w d a s
  | .fflr w d a => Sys2Proof.Machine.execFflr w d a s
  | .fceil w d a => Sys2Proof.Machine.execFceil w d a s
  | .ftrunc w d a => Sys2Proof.Machine.execFtrunc w d a s
  | .frint w d a m => Sys2Proof.Machine.execFrint w d a m s
  | .cvt v a ss x t m => Sys2Proof.Machine.execCvt v a ss x t m s
  | .qscale b q d a v => Sys2Proof.Machine.execQscale b q d a v s
  | .qscale8 b q d a v => Sys2Proof.Machine.execQscale8 b q d a v s
  | .mrd w d a t => Sys2Proof.Machine.execMrd w d a t s
  | .mwr w d a t => Sys2Proof.Machine.execMwr w d a t s
  | .spec w d c => Sys2Proof.Machine.execSpec w d c s
  | .shfl w d a b m => Sys2Proof.Machine.execShfl w d a b m s
  | .redl w d a p m => Sys2Proof.Machine.execRedl w d a p m s
  | .scanl w d a p m => Sys2Proof.Machine.execScanl w d a p m s
  | .ld z d a r f => Sys2Proof.Machine.execLd z d a r f s
  | .st z d a r f => Sys2Proof.Machine.execSt z d a r f s
  | .ldv z d a f => Sys2Proof.Machine.execLdv z d a f s
  | .stv z d a f => Sys2Proof.Machine.execStv z d a f s
  | .atom z d a p r => Sys2Proof.Machine.execAtom z d a p r s
  | .redq w d a b => Sys2Proof.Machine.execRedq w d a b s
  | .lexit => Sys2Proof.Machine.execLexit s
  | .branchResolution uid => Sys2Proof.Machine.execBranchResolution uid s
  | .longLatencyLanding uid pick => Sys2Proof.Machine.execLongLatencyLanding uid pick s
  | .storePerformed uid => Sys2Proof.Machine.execStorePerformed uid s
  | .sliceAnswer uid pick => Sys2Proof.Machine.execSliceAnswer uid pick s
  | .filterSlowPathWrite uid => Sys2Proof.Machine.execFilterSlowPathWrite uid s
  | .crewWakeResume uid => Sys2Proof.Machine.execCrewWakeResume uid s
  | .deadlineSweep => Sys2Proof.Machine.execDeadlineSweep s
  | .redqContribution uid pick => Sys2Proof.Machine.execRedqContribution uid pick s
  | .trapEntry uid => Sys2Proof.Machine.execTrapEntry uid s
  | .placementDecision part => Sys2Proof.Machine.execPlacementDecision part s
  | .recordCompletion gid => Sys2Proof.Machine.execRecordCompletion gid s
  | .laneGangTimeout => Sys2Proof.Machine.execLaneGangTimeout s
  | .hoistChunkDone core pick => Sys2Proof.Machine.execHoistChunkDone core pick s
  | .ringSlotAdmit cluster entry => Sys2Proof.Machine.execRingSlotAdmit cluster entry s
  | .stripPassGrant cluster => Sys2Proof.Machine.execStripPassGrant cluster s
  | .promotionEnd cluster pick => Sys2Proof.Machine.execPromotionEnd cluster pick s
  | .publishFlip pick => Sys2Proof.Machine.execPublishFlip pick s
  | .shootdownDone fn => Sys2Proof.Machine.execShootdownDone fn s
  | .contextSaveDone => Sys2Proof.Machine.execContextSaveDone s
  | .teardown part region asn => Sys2Proof.Machine.execTeardown part region asn s
  | .teardownGraceExpiry pick => Sys2Proof.Machine.execTeardownGraceExpiry pick s
  | .collectiveDataArrival member gid seq head data => Sys2Proof.Machine.execCollectiveDataArrival member gid seq head data s
  | .collTimeout pick => Sys2Proof.Machine.execCollTimeout pick s
  | .flitReceive port flit => Sys2Proof.Machine.execFlitReceive port flit s
  | .flitNak port seq => Sys2Proof.Machine.execFlitNak port seq s
  | .heartTimer => Sys2Proof.Machine.execHeartTimer s
  | .heart src lap c => Sys2Proof.Machine.execHeart src lap c s
  | .lower src c t => Sys2Proof.Machine.execLower src c t s
  | .ceil lap c t mask => Sys2Proof.Machine.execCeil lap c t mask s
  | .breach src c => Sys2Proof.Machine.execBreach src c s
  | .propose src lap c => Sys2Proof.Machine.execPropose src lap c s
  | .grant src lap => Sys2Proof.Machine.execGrant src lap s
  | .deny src lap c => Sys2Proof.Machine.execDeny src lap c s
  | .joinMsg src c => Sys2Proof.Machine.execJoinMsg src c s
  | .leave src lap => Sys2Proof.Machine.execLeave src lap s
  | .view src lap c t mask => Sys2Proof.Machine.execView src lap c t mask s
  | .unknownPacerType src type => Sys2Proof.Machine.execUnknownPacerType src type s
  | .lapApply => Sys2Proof.Machine.execLapApply s
  | .peerSilent peer => Sys2Proof.Machine.execPeerSilent peer s
  | .emergencyTrip => Sys2Proof.Machine.execEmergencyTrip s
  | .tripRecheck degrees => Sys2Proof.Machine.execTripRecheck degrees s
  | .powerSample watts degrees => Sys2Proof.Machine.execPowerSample watts degrees s
  | .intervalEnd cluster => Sys2Proof.Machine.execIntervalEnd cluster s
  | .cooldownStep cluster => Sys2Proof.Machine.execCooldownStep cluster s
  | .ageingMeasure limit days slower => Sys2Proof.Machine.execAgeingMeasure limit days slower s
  | .hbmScrub corrected poisoned => Sys2Proof.Machine.execHbmScrub corrected poisoned s
  | .kick fn q v => Sys2Proof.Machine.execKick fn q v s
  | .hostQueueConsume fn q => Sys2Proof.Machine.execHostQueueConsume fn q s
  | .windowBWrite fn off data => Sys2Proof.Machine.execWindowBWrite fn off data s
  | .windowBRead fn off len => Sys2Proof.Machine.execWindowBRead fn off len s
  | .fetchadd fn off wide x => Sys2Proof.Machine.execFetchadd fn off wide x s
  | .swap fn off wide x => Sys2Proof.Machine.execSwap fn off wide x s
  | .cas fn off wide cmp x => Sys2Proof.Machine.execCas fn off wide cmp x s
  | .shoot fn asn => Sys2Proof.Machine.execShoot fn asn s
  | .reqkick fn v => Sys2Proof.Machine.execReqkick fn v s
  | .mailboxLoad fn => Sys2Proof.Machine.execMailboxLoad fn s
  | .mailboxTear fn => Sys2Proof.Machine.execMailboxTear fn s
  | .mailboxLimit fn => Sys2Proof.Machine.execMailboxLimit fn s
  | .mailboxPool fn => Sys2Proof.Machine.execMailboxPool fn s
  | .mailboxStrict fn => Sys2Proof.Machine.execMailboxStrict fn s
  | .mailboxEnrol fn => Sys2Proof.Machine.execMailboxEnrol fn s
  | .mailboxFuse fn => Sys2Proof.Machine.execMailboxFuse fn s
  | .mailboxRoute fn => Sys2Proof.Machine.execMailboxRoute fn s
  | .mailboxUnknownOp fn => Sys2Proof.Machine.execMailboxUnknownOp fn s
  | .fusereq v => Sys2Proof.Machine.execFusereq v s
  | .fuseBlown => Sys2Proof.Machine.execFuseBlown s
  | .measgo die idx => Sys2Proof.Machine.execMeasgo die idx s
  | .romovlClear die => Sys2Proof.Machine.execRomovlClear die s
  | .resetRelease => Sys2Proof.Machine.execResetRelease s
  | .trnctl k v => Sys2Proof.Machine.execTrnctl k v s
  | .hbmTrainingDone k fail phase spares eyes lanemap => Sys2Proof.Machine.execHbmTrainingDone k fail phase spares eyes lanemap s
  | .fwlimit die v => Sys2Proof.Machine.execFwlimit die v s
  | .paceen die on => Sys2Proof.Machine.execPaceen die on s
  | .portEn port on => Sys2Proof.Machine.execPortEn port on s
  | .portRetrain port => Sys2Proof.Machine.execPortRetrain port s
  | .signalDetect port => Sys2Proof.Machine.execSignalDetect port s
  | .detectTimeout port => Sys2Proof.Machine.execDetectTimeout port s
  | .equaliseDone port => Sys2Proof.Machine.execEqualiseDone port s
  | .alignLock port => Sys2Proof.Machine.execAlignLock port s
  | .identExchange port peer gid => Sys2Proof.Machine.execIdentExchange port peer gid s
  | .retrainTimeout port => Sys2Proof.Machine.execRetrainTimeout port s
  | .registerWrite fn off v => Sys2Proof.Machine.execRegisterWrite fn off v s
  | .lossOfPower => Sys2Proof.Machine.execLossOfPower s
  | .enable fn q on => Sys2Proof.Machine.execEnable fn q on s
  | .mben fn on => Sys2Proof.Machine.execMben fn on s

end Sys2Proof.Machine
end

