-- ==== Sys2Proof/Machine/Grant.lean ====
section
/-!
DEFINITION. The grant of the issue arbiter (R158, R159, R315): which crews' words run next, and what a grant counts for
the other crews of its core; and the charge that the issue of a word makes (R159, R358).

One cycle of a core grants its uniform pipe and its lane pipe, each by a contest of its own among the crews that are
eligible for it. The uniform word runs first, and the lane word in the next step (R70).
-/

namespace Sys2Proof.Machine

/-! ### Charges at issue (R159, R358) -/

/-- The crew in focus would be held by the word. -/
def holdsAt (i : Instr) (s : State) : Bool :=
  match exec i s with
  | .next t => ((t.crew? s.c.uid).map (·.status)) == some .held
  | _ => false

/-- The word is one that a charge is made for. -/
def charged (i : Instr) : Bool :=
  isLane i ||
  match i with
  | .srch _ _ _ _ _ => true
  | .srcha _ _ _ _ _ => true
  | .srchr _ _ _ _ _ => true
  | _ => false

/-- What the issue of a word adds to the record of its cluster, and for a lane word whether its charge reached the
heavy mark, which counts for the lane pipe of its core (R159, R358). R159 leaves open whether a search, which R358
charges too, counts as an instruction whose charge reaches the heavy mark: here it does not (DESIGN CHOICE, log 93). A
word that traps before it has effect adds nothing, and one that holds adds its charge when it issues. -/
def chargeWord (i : Instr) (s : State) : State :=
  if !charged i || (gate i s).isSome || holdsAt i s then s else
  let n := charge s i
  let s1 := chargeCluster s (clusterOf s.c.core) n
  let heavy := decide ((limitsFor s (clusterOf s.c.core)).heavy.toNat ≤ n)
  if !isLane i || s.heavy.contains s.c.core == heavy then s1
  else { s1 with heavy := if heavy then s.heavy ++ [s.c.core] else s.heavy.filter (· != s.c.core) }

/-! ### Words read through the word ECC (R72, R304) -/

/-- The thread registers that a word reads by word access: those of its active threads, the source threads of a shuffle,
the thread of a transfer, and the row scales of an `MMA`. A search reads planes. -/
def wordReads (i : Instr) (s : State) : List (Nat × Nat) :=
  match i with
  | .get _ n b h =>
    let t := (getS s.c b).toNat
    if t < s.g.nthr then [(t, xferReg n h)] else []
  | .mma _ g f _ => mmaReads s g f
  | .getf _ n h => (members s.c.act s.g.nthr).head?.toList.map fun t => (t, xferReg n h)
  | .shfl w _ a b m =>
    let n := widthOf w
    (laneThreads s).flatMap fun t =>
      (t, b.toNat) :: (List.range (64 / n)).filterMap fun j => (shflReads s n b m t j).map fun u => (u, a.toNat)
  | i => if isLane i then (laneThreads s).flatMap fun t => (vregs (readRegs i)).map fun r => (t, r) else []

/-- A word that is not turned away before it reads its operands corrects the single-bit errors of the thread registers
that it reads, in place, and each is counted (R72, R304). -/
def correctRead (i : Instr) (s : State) : State :=
  if s.g.soft = [] ∨ (gate i s).isSome then s else
  let reads := wordReads i s
  let hit (e : Nat × Nat) : Bool := reads.any fun x => 128 * x.1 + x.2 == e.1
  { s with
    g := { s.g with soft := s.g.soft.filter fun e => !hit e }
    corrected := s.corrected.set 0 (s.corrected[0] + (s.g.soft.filter hit).length) }

/-! ### Who is eligible (R74, R158, R315) -/

/-- A word that holds the crew in focus has still something to do first: a `TKTAKE` takes its place among those that wait
for the token, and an `HSTOP` ends the granting of what it names (R259, R272). -/
def actsAtHold (i : Instr) (s : State) : Bool :=
  match exec i s with
  | .next t => t.tokens != s.tokens || t.hoist != s.hoist
  | _ => false

/-- The crew's next word can issue: it does not hold its crew, or has something to do before it does. A word that traps
issues. -/
def issues (s : State) (c : Crew) : Bool :=
  match nextInstr (s.focus c.uid) with
  | none => true
  | some i => !holdsAt i (s.focus c.uid) || actsAtHold i (s.focus c.uid)

/-- The crews of some that are eligible for a pipe (R158). -/
def mayContend (s : State) (lane : Bool) (l : List Crew) : List Crew := l.filter fun c => laneNext s c == lane && issues s c

/-- The core grants in strict mode (R76, R158). -/
def strictAt (s : State) (core : Nat) : Bool := s.strict.getLsbD (partOfDie s (dieOfCore core))

/-- The crew is held back by a `YIELD`: fewer than 64 cycles have been counted, and step 1 of R158, which strict mode
has not, does not apply (R315). -/
def yields (strict : Bool) (c : Crew) : Bool :=
  match c.yielded with
  | none => false
  | some n => decide (n < 64) && (strict || decide (c.passedU < 63))

/-! ### The contest for one pipe (R158, R159) -/

/-- A crew is preferred to another of its core for a pipe (R158, R159). -/
def preferred (s : State) (lane : Bool) (a b : Crew) : Bool :=
  if strictAt s a.core then decide (crewId a < crewId b)
  else
    let passed (c : Crew) : Bool := decide (63 ≤ if lane then c.passedL else c.passedU)
    if passed a != passed b then passed a
    else if passed a then decide (crewId a < crewId b)
    else if a.prio ≠ b.prio then decide (b.prio.toNat < a.prio.toNat)
    else
      let paired := lane && (recordOf s (clusterOf a.core)).throttled && s.heavy.contains a.core
      if paired && nextCharge s a != nextCharge s b then decide (nextCharge s a < nextCharge s b)
      else if a.age ≠ b.age then decide (b.age < a.age)
      else decide (crewId a < crewId b)

/-- The preferred crew of some. -/
def best (s : State) (lane : Bool) : List Crew → Option Crew
  | [] => none
  | c :: l =>
    match best s lane l with
    | none => some c
    | some d => if preferred s lane d c then some d else some c

/-- The core whose cycle comes next: the lowest at or above `turn` with a crew that may run, else the lowest of all. -/
def nextCore (turn : Nat) (cores : List Nat) : Nat :=
  match cores.filter (turn ≤ ·) with
  | [] => cores.foldl min 384
  | l => l.foldl min 384

/-! ### One cycle of a core (R70, R158, R315) -/

/-- A cycle of a core: the crews eligible for each pipe, and the one that each is granted to. -/
structure Cycle where
  core : Nat
  strict : Bool
  u    : List Crew
  l    : List Crew
  winU : Option Crew
  winL : Option Crew

/-- The contests of one cycle among the running crews of a core. A crew held back by a `YIELD` gets the uniform pipe when
nothing else is eligible on the core: the rest of its 64 cycles pass in that step (log 62). In STRICT R158 has such a
crew count as not eligible and names no pipe: it is shut out of the uniform pipe alone, and may win the lane pipe
(DESIGN CHOICE, log 62). -/
def cycleOf (s : State) (core : Nat) (l : List Crew) : Cycle :=
  let u := mayContend s false l
  let v := mayContend s true l
  { core := core, strict := strictAt s core, u := u, l := v, winL := best s true v
    winU := match best s false (u.filter fun c => !yields (strictAt s core) c) with
      | some c => some c
      | none => if v = [] then best s false u else none }

/-- What a cycle counts for a crew of its core: a winner's counts begin again; a crew that stays eligible grows older, and
counts a grant of its pipe that went to another; one that is not eligible loses its counts. A `YIELD` ends with a
grant of the uniform pipe, and counts a cycle in which no other crew was eligible for that pipe, where crews that are
held back do not count as eligible; a grant of the lane pipe to its own crew leaves it (R158, R315; log 62). -/
def Cycle.count (y : Cycle) (d : Crew) : Crew :=
  if d.core ≠ y.core then d else
  let won (w : Option Crew) : Bool := (w.map (·.uid)) == some d.uid
  let d1 := { d with
    yielded := if y.winU.isSome then none
      else if y.u.any fun c => c.uid != d.uid && !yields y.strict c then d.yielded
      else d.yielded.map (· + 1) }
  if won y.winU || won y.winL then { d1 with age := 0, passedU := 0, passedL := 0 }
  else
    let inU := y.u.any (·.uid == d.uid)
    let inL := y.l.any (·.uid == d.uid)
    { d1 with
      age := if inU || inL then d.age + 1 else 0
      passedU := if inU then d.passedU + (if y.winU.isSome then 1 else 0) else 0
      passedL := if inL then d.passedL + (if y.winL.isSome then 1 else 0) else 0 }

/-- The grants of a cycle: the uniform winner comes into focus, and the lane winner follows in the next step; where there
is no uniform winner, the lane winner comes at once. With no winner at all the first crew runs into its hold. -/
def grantCycle (s : State) (y : Cycle) (l : List Crew) : State :=
  let s1 : State := { s with c := y.count s.c, crews := s.crews.map y.count, turn := y.core + 1, lane := none }
  match y.winU, y.winL with
  | some a, some b => { s1.focus a.uid with lane := some b.uid }
  | some a, none => s1.focus a.uid
  | none, some b => s1.focus b.uid
  | none, none =>
    match l with
    | [] => s1
    | c :: _ => s1.focus c.uid

/-- The crew granted alone on its core: no other crew is passed by. A `YIELD` counts a cycle at a lane word, and ends at
a uniform one, before which the rest of its cycles pass (R315; log 62). -/
def grantOnly (s : State) (c : Crew) : State :=
  let s1 := s.focus c.uid
  { s1 with
    c := { s1.c with
      age := 0, passedU := 0, passedL := 0, yielded := if laneNext s c then s1.c.yielded.map (· + 1) else none }
    turn := c.core + 1, lane := none }

/-- The crew that holds the lane pipe of the cycle under way, if it can still use it (R70). -/
def laneWinner (s : State) : Option Crew :=
  s.lane.bind fun uid => s.allCrews.find? fun c => c.uid == uid && c.status == .running && !stopped s c

/-- The next grants, or none if no crew may run (R158). -/
def nextGrant (s : State) : Option State :=
  match laneWinner s with
  | some c => some { s.focus c.uid with lane := none }
  | none =>
    match s.allCrews.filter fun c => c.status == .running && !stopped s c with
    | [] => none
    | [c] => some (grantOnly s c)
    | l =>
      let core := nextCore s.turn (l.map (·.core))
      match l.filter (·.core == core) with
      | [c] => some (grantOnly s c)
      | cs => some (grantCycle s (cycleOf s core cs) cs)

/-- The state in which the next granted word runs, or none if no crew may run. -/
def granted (s : State) : Option State := (nextGrant (retryHeld s)).map tick

end Sys2Proof.Machine
end

