-- ==== Sys2Proof/Machine/Step.lean ====
section
/-!
DEFINITION. One step of the part: an outside event, an event of the part itself that is due, or the next word of the
crew that is granted.
-/

namespace Sys2Proof.Machine

/-- The word of the crew in focus is fetched, decoded, charged to its cluster's current record and executed, single-bit
errors of the registers it reads corrected (R17, R41, R304, R358). -/
def runWord (s : State) : Out :=
  match fetch s with
  | .error t => .next (takeTrap s t)
  | .ok w =>
    match decodeWord w with
    | .ok i => exec i (correctRead i (chargeWord i s))
    | .error _ => .next (takeTrap s (illegalWord s w))

/-- An event happens: crews that a word held will try again after it. -/
def runEvent (e : Instr) (s : State) : Out := exec e (tick (unholdAll s))

/-- One step. Outside events come first; then an event that is due and a granted word take turns (log 2). -/
def step (s : State) : Host.Outcome State Fault Refusal :=
  match s.inputs with
  | i :: rest => if i.isWord then .fault .notAnEvent else runEvent i { s with inputs := rest }
  | [] =>
    match if s.bgTurn then due s else none with
    | some e => runEvent e { s with bgTurn := false }
    | none =>
      match granted s with
      | some s1 => runWord { s1 with bgTurn := true }
      | none =>
        match due s with
        | some e => runEvent e s
        | none => .next (tick (unholdAll s))

/-- The state with an instruction of the opcode table stored where the crew in focus fetches its next word. -/
def State.withFetchWord (s : State) (nbits w : Nat) : State :=
  if nbits = 32 then placeWord s (BitVec.ofNat 32 w) else s

end Sys2Proof.Machine
end

