-- ==== Sys2Proof/Laws/Decode.lean ====
section
/-!
SUPPORT. The laws of the decoder's bit fields: what a field, a fixed field and each stage of the decoder give on a
word known as a number.
-/

namespace Sys2Proof

theorem toNat_word (n : Nat) (h : n < 2 ^ 32) : (BitVec.ofNat 32 n).toNat = n := by
  rw [BitVec.toNat_ofNat, Nat.mod_eq_of_lt h]

theorem fld_ofNat {k : Nat} (n lo : Nat) (v : BitVec k) (h : n < 2 ^ 32) (hv : n / 2 ^ lo % 2 ^ k = v.toNat) :
    fld (BitVec.ofNat 32 n) lo k = v := by
  apply BitVec.eq_of_toNat_eq
  rw [fld, toNat_word n h, BitVec.toNat_ofNat, hv]

theorem fixed_ofNat (n lo k v : Nat) (h : n < 2 ^ 32) (hv : n / 2 ^ lo % 2 ^ k = v) :
    fixed (BitVec.ofNat 32 n) lo k v = true := by
  rw [fixed, toNat_word n h, hv, beq_self_eq_true]

theorem ltWord (n : Nat) (h : n < 2 ^ 32) : n < 2 ^ 32 := h

theorem need_true (why : Reject) (k : Except Reject Instr) : need true why k = k := rfl

theorem accept_ok {i : Instr} (h : i.defect = none) : accept i = .ok i := by
  rw [accept, h]

/-- What the decoder accepts, it accepts whole, and R41 does not refuse it. -/
theorem accept_inv {i j : Instr} (h : accept i = .ok j) : j = i ∧ i.defect = none := by
  unfold accept at h
  split at h
  · exact ⟨(Except.ok.inj h).symm, ‹_›⟩
  · cases h

theorem need_inv {b : Bool} {why : Reject} {k : Except Reject Instr} {j : Instr} (h : need b why k = .ok j) :
    b = true ∧ k = .ok j := by
  cases b
  · cases h
  · exact ⟨rfl, h⟩

theorem decodeWord_uniform (n : Nat) (h : n < 2 ^ 32) (hs : n / 2 ^ 31 = 1) :
    decodeWord (BitVec.ofNat 32 n) = decodeUniform (BitVec.ofNat 32 n) := by
  rw [decodeWord, toNat_word n h, if_neg (by omega)]

theorem decodeWord_lane (n : Nat) (h : n < 2 ^ 32) (hs : n / 2 ^ 31 = 0) :
    decodeWord (BitVec.ofNat 32 n) = decodeLane (BitVec.ofNat 32 n) := by
  rw [decodeWord, toNat_word n h, if_pos hs]

end Sys2Proof
end

