-- ==== Sys2Proof/Laws/PerInstr.lean ====
section
/-!
SUPPORT. The encoding and the decoder agree, instruction by instruction (family RoundTrip): one lemma for every
constructor, for the words from the formats and maps of R26 and R36 to R40; an event has no word.
-/

namespace Sys2Proof.Laws.RoundTrip

/-- A well-formed instruction word has an encoding, and its encoding decodes to it. -/
def Statement (i : Instr) : Prop :=
  i.isWord = true → i.defect = none → ∃ w, encode i = some w ∧ decodeWord w = .ok i

theorem aluAdd (d : BitVec 6) (a : BitVec 6) (b : BitVec 6) : Statement (.aluAdd d a b) := by
  intro _ hd
  refine ⟨_, rfl, ?_⟩
  have l_d := d.isLt
  have l_a := a.isLt
  have l_b := b.isLt
  simp only [Sys2Proof.put]
  generalize hE : 0x80000000 + d.toNat * 2 ^ 15 + a.toNat * 2 ^ 9 + b.toNat * 2 ^ 3 = N
  have hN : N < 2 ^ 32 := by omega
  have f_d := fld_ofNat N 15 d hN (by omega)
  have f_a := fld_ofNat N 9 a hN (by omega)
  have f_b := fld_ofNat N 3 b hN (by omega)
  rw [decodeWord_uniform N hN (by omega)]
  have e1 : N / 2 ^ 25 % 2 ^ 6 = 0x0 := by omega
  unfold decodeUniform
  rw [toNat_word N hN, e1]
  have e2 : N / 2 ^ 21 % 2 ^ 4 = 0 := by omega
  unfold decodeAlu
  rw [toNat_word N hN, e2]
  have g0 := fixed_ofNat N 0 3 0 hN (by omega)
  simp only [g0, f_d, f_a, f_b, need_true]
  exact accept_ok hd

theorem aluSub (d : BitVec 6) (a : BitVec 6) (b : BitVec 6) : Statement (.aluSub d a b) := by
  intro _ hd
  refine ⟨_, rfl, ?_⟩
  have l_d := d.isLt
  have l_a := a.isLt
  have l_b := b.isLt
  simp only [Sys2Proof.put]
  generalize hE : 0x80200000 + d.toNat * 2 ^ 15 + a.toNat * 2 ^ 9 + b.toNat * 2 ^ 3 = N
  have hN : N < 2 ^ 32 := by omega
  have f_d := fld_ofNat N 15 d hN (by omega)
  have f_a := fld_ofNat N 9 a hN (by omega)
  have f_b := fld_ofNat N 3 b hN (by omega)
  rw [decodeWord_uniform N hN (by omega)]
  have e1 : N / 2 ^ 25 % 2 ^ 6 = 0x0 := by omega
  unfold decodeUniform
  rw [toNat_word N hN, e1]
  have e2 : N / 2 ^ 21 % 2 ^ 4 = 1 := by omega
  unfold decodeAlu
  rw [toNat_word N hN, e2]
  have g0 := fixed_ofNat N 0 3 0 hN (by omega)
  simp only [g0, f_d, f_a, f_b, need_true]
  exact accept_ok hd

theorem aluAnd (d : BitVec 6) (a : BitVec 6) (b : BitVec 6) : Statement (.aluAnd d a b) := by
  intro _ hd
  refine ⟨_, rfl, ?_⟩
  have l_d := d.isLt
  have l_a := a.isLt
  have l_b := b.isLt
  simp only [Sys2Proof.put]
  generalize hE : 0x80400000 + d.toNat * 2 ^ 15 + a.toNat * 2 ^ 9 + b.toNat * 2 ^ 3 = N
  have hN : N < 2 ^ 32 := by omega
  have f_d := fld_ofNat N 15 d hN (by omega)
  have f_a := fld_ofNat N 9 a hN (by omega)
  have f_b := fld_ofNat N 3 b hN (by omega)
  rw [decodeWord_uniform N hN (by omega)]
  have e1 : N / 2 ^ 25 % 2 ^ 6 = 0x0 := by omega
  unfold decodeUniform
  rw [toNat_word N hN, e1]
  have e2 : N / 2 ^ 21 % 2 ^ 4 = 2 := by omega
  unfold decodeAlu
  rw [toNat_word N hN, e2]
  have g0 := fixed_ofNat N 0 3 0 hN (by omega)
  simp only [g0, f_d, f_a, f_b, need_true]
  exact accept_ok hd

theorem aluOr (d : BitVec 6) (a : BitVec 6) (b : BitVec 6) : Statement (.aluOr d a b) := by
  intro _ hd
  refine ⟨_, rfl, ?_⟩
  have l_d := d.isLt
  have l_a := a.isLt
  have l_b := b.isLt
  simp only [Sys2Proof.put]
  generalize hE : 0x80600000 + d.toNat * 2 ^ 15 + a.toNat * 2 ^ 9 + b.toNat * 2 ^ 3 = N
  have hN : N < 2 ^ 32 := by omega
  have f_d := fld_ofNat N 15 d hN (by omega)
  have f_a := fld_ofNat N 9 a hN (by omega)
  have f_b := fld_ofNat N 3 b hN (by omega)
  rw [decodeWord_uniform N hN (by omega)]
  have e1 : N / 2 ^ 25 % 2 ^ 6 = 0x0 := by omega
  unfold decodeUniform
  rw [toNat_word N hN, e1]
  have e2 : N / 2 ^ 21 % 2 ^ 4 = 3 := by omega
  unfold decodeAlu
  rw [toNat_word N hN, e2]
  have g0 := fixed_ofNat N 0 3 0 hN (by omega)
  simp only [g0, f_d, f_a, f_b, need_true]
  exact accept_ok hd

theorem aluXor (d : BitVec 6) (a : BitVec 6) (b : BitVec 6) : Statement (.aluXor d a b) := by
  intro _ hd
  refine ⟨_, rfl, ?_⟩
  have l_d := d.isLt
  have l_a := a.isLt
  have l_b := b.isLt
  simp only [Sys2Proof.put]
  generalize hE : 0x80800000 + d.toNat * 2 ^ 15 + a.toNat * 2 ^ 9 + b.toNat * 2 ^ 3 = N
  have hN : N < 2 ^ 32 := by omega
  have f_d := fld_ofNat N 15 d hN (by omega)
  have f_a := fld_ofNat N 9 a hN (by omega)
  have f_b := fld_ofNat N 3 b hN (by omega)
  rw [decodeWord_uniform N hN (by omega)]
  have e1 : N / 2 ^ 25 % 2 ^ 6 = 0x0 := by omega
  unfold decodeUniform
  rw [toNat_word N hN, e1]
  have e2 : N / 2 ^ 21 % 2 ^ 4 = 4 := by omega
  unfold decodeAlu
  rw [toNat_word N hN, e2]
  have g0 := fixed_ofNat N 0 3 0 hN (by omega)
  simp only [g0, f_d, f_a, f_b, need_true]
  exact accept_ok hd

theorem aluAndn (d : BitVec 6) (a : BitVec 6) (b : BitVec 6) : Statement (.aluAndn d a b) := by
  intro _ hd
  refine ⟨_, rfl, ?_⟩
  have l_d := d.isLt
  have l_a := a.isLt
  have l_b := b.isLt
  simp only [Sys2Proof.put]
  generalize hE : 0x80a00000 + d.toNat * 2 ^ 15 + a.toNat * 2 ^ 9 + b.toNat * 2 ^ 3 = N
  have hN : N < 2 ^ 32 := by omega
  have f_d := fld_ofNat N 15 d hN (by omega)
  have f_a := fld_ofNat N 9 a hN (by omega)
  have f_b := fld_ofNat N 3 b hN (by omega)
  rw [decodeWord_uniform N hN (by omega)]
  have e1 : N / 2 ^ 25 % 2 ^ 6 = 0x0 := by omega
  unfold decodeUniform
  rw [toNat_word N hN, e1]
  have e2 : N / 2 ^ 21 % 2 ^ 4 = 5 := by omega
  unfold decodeAlu
  rw [toNat_word N hN, e2]
  have g0 := fixed_ofNat N 0 3 0 hN (by omega)
  simp only [g0, f_d, f_a, f_b, need_true]
  exact accept_ok hd

theorem aluShl (d : BitVec 6) (a : BitVec 6) (b : BitVec 6) : Statement (.aluShl d a b) := by
  intro _ hd
  refine ⟨_, rfl, ?_⟩
  have l_d := d.isLt
  have l_a := a.isLt
  have l_b := b.isLt
  simp only [Sys2Proof.put]
  generalize hE : 0x80c00000 + d.toNat * 2 ^ 15 + a.toNat * 2 ^ 9 + b.toNat * 2 ^ 3 = N
  have hN : N < 2 ^ 32 := by omega
  have f_d := fld_ofNat N 15 d hN (by omega)
  have f_a := fld_ofNat N 9 a hN (by omega)
  have f_b := fld_ofNat N 3 b hN (by omega)
  rw [decodeWord_uniform N hN (by omega)]
  have e1 : N / 2 ^ 25 % 2 ^ 6 = 0x0 := by omega
  unfold decodeUniform
  rw [toNat_word N hN, e1]
  have e2 : N / 2 ^ 21 % 2 ^ 4 = 6 := by omega
  unfold decodeAlu
  rw [toNat_word N hN, e2]
  have g0 := fixed_ofNat N 0 3 0 hN (by omega)
  simp only [g0, f_d, f_a, f_b, need_true]
  exact accept_ok hd

theorem aluShr (d : BitVec 6) (a : BitVec 6) (b : BitVec 6) : Statement (.aluShr d a b) := by
  intro _ hd
  refine ⟨_, rfl, ?_⟩
  have l_d := d.isLt
  have l_a := a.isLt
  have l_b := b.isLt
  simp only [Sys2Proof.put]
  generalize hE : 0x80e00000 + d.toNat * 2 ^ 15 + a.toNat * 2 ^ 9 + b.toNat * 2 ^ 3 = N
  have hN : N < 2 ^ 32 := by omega
  have f_d := fld_ofNat N 15 d hN (by omega)
  have f_a := fld_ofNat N 9 a hN (by omega)
  have f_b := fld_ofNat N 3 b hN (by omega)
  rw [decodeWord_uniform N hN (by omega)]
  have e1 : N / 2 ^ 25 % 2 ^ 6 = 0x0 := by omega
  unfold decodeUniform
  rw [toNat_word N hN, e1]
  have e2 : N / 2 ^ 21 % 2 ^ 4 = 7 := by omega
  unfold decodeAlu
  rw [toNat_word N hN, e2]
  have g0 := fixed_ofNat N 0 3 0 hN (by omega)
  simp only [g0, f_d, f_a, f_b, need_true]
  exact accept_ok hd

theorem aluSar (d : BitVec 6) (a : BitVec 6) (b : BitVec 6) : Statement (.aluSar d a b) := by
  intro _ hd
  refine ⟨_, rfl, ?_⟩
  have l_d := d.isLt
  have l_a := a.isLt
  have l_b := b.isLt
  simp only [Sys2Proof.put]
  generalize hE : 0x81000000 + d.toNat * 2 ^ 15 + a.toNat * 2 ^ 9 + b.toNat * 2 ^ 3 = N
  have hN : N < 2 ^ 32 := by omega
  have f_d := fld_ofNat N 15 d hN (by omega)
  have f_a := fld_ofNat N 9 a hN (by omega)
  have f_b := fld_ofNat N 3 b hN (by omega)
  rw [decodeWord_uniform N hN (by omega)]
  have e1 : N / 2 ^ 25 % 2 ^ 6 = 0x0 := by omega
  unfold decodeUniform
  rw [toNat_word N hN, e1]
  have e2 : N / 2 ^ 21 % 2 ^ 4 = 8 := by omega
  unfold decodeAlu
  rw [toNat_word N hN, e2]
  have g0 := fixed_ofNat N 0 3 0 hN (by omega)
  simp only [g0, f_d, f_a, f_b, need_true]
  exact accept_ok hd

theorem aluMul (d : BitVec 6) (a : BitVec 6) (b : BitVec 6) : Statement (.aluMul d a b) := by
  intro _ hd
  refine ⟨_, rfl, ?_⟩
  have l_d := d.isLt
  have l_a := a.isLt
  have l_b := b.isLt
  simp only [Sys2Proof.put]
  generalize hE : 0x81200000 + d.toNat * 2 ^ 15 + a.toNat * 2 ^ 9 + b.toNat * 2 ^ 3 = N
  have hN : N < 2 ^ 32 := by omega
  have f_d := fld_ofNat N 15 d hN (by omega)
  have f_a := fld_ofNat N 9 a hN (by omega)
  have f_b := fld_ofNat N 3 b hN (by omega)
  rw [decodeWord_uniform N hN (by omega)]
  have e1 : N / 2 ^ 25 % 2 ^ 6 = 0x0 := by omega
  unfold decodeUniform
  rw [toNat_word N hN, e1]
  have e2 : N / 2 ^ 21 % 2 ^ 4 = 9 := by omega
  unfold decodeAlu
  rw [toNat_word N hN, e2]
  have g0 := fixed_ofNat N 0 3 0 hN (by omega)
  simp only [g0, f_d, f_a, f_b, need_true]
  exact accept_ok hd

theorem aluMulhs (d : BitVec 6) (a : BitVec 6) (b : BitVec 6) : Statement (.aluMulhs d a b) := by
  intro _ hd
  refine ⟨_, rfl, ?_⟩
  have l_d := d.isLt
  have l_a := a.isLt
  have l_b := b.isLt
  simp only [Sys2Proof.put]
  generalize hE : 0x81400000 + d.toNat * 2 ^ 15 + a.toNat * 2 ^ 9 + b.toNat * 2 ^ 3 = N
  have hN : N < 2 ^ 32 := by omega
  have f_d := fld_ofNat N 15 d hN (by omega)
  have f_a := fld_ofNat N 9 a hN (by omega)
  have f_b := fld_ofNat N 3 b hN (by omega)
  rw [decodeWord_uniform N hN (by omega)]
  have e1 : N / 2 ^ 25 % 2 ^ 6 = 0x0 := by omega
  unfold decodeUniform
  rw [toNat_word N hN, e1]
  have e2 : N / 2 ^ 21 % 2 ^ 4 = 10 := by omega
  unfold decodeAlu
  rw [toNat_word N hN, e2]
  have g0 := fixed_ofNat N 0 3 0 hN (by omega)
  simp only [g0, f_d, f_a, f_b, need_true]
  exact accept_ok hd

theorem aluMulhz (d : BitVec 6) (a : BitVec 6) (b : BitVec 6) : Statement (.aluMulhz d a b) := by
  intro _ hd
  refine ⟨_, rfl, ?_⟩
  have l_d := d.isLt
  have l_a := a.isLt
  have l_b := b.isLt
  simp only [Sys2Proof.put]
  generalize hE : 0x81600000 + d.toNat * 2 ^ 15 + a.toNat * 2 ^ 9 + b.toNat * 2 ^ 3 = N
  have hN : N < 2 ^ 32 := by omega
  have f_d := fld_ofNat N 15 d hN (by omega)
  have f_a := fld_ofNat N 9 a hN (by omega)
  have f_b := fld_ofNat N 3 b hN (by omega)
  rw [decodeWord_uniform N hN (by omega)]
  have e1 : N / 2 ^ 25 % 2 ^ 6 = 0x0 := by omega
  unfold decodeUniform
  rw [toNat_word N hN, e1]
  have e2 : N / 2 ^ 21 % 2 ^ 4 = 11 := by omega
  unfold decodeAlu
  rw [toNat_word N hN, e2]
  have g0 := fixed_ofNat N 0 3 0 hN (by omega)
  simp only [g0, f_d, f_a, f_b, need_true]
  exact accept_ok hd

theorem aluMins (d : BitVec 6) (a : BitVec 6) (b : BitVec 6) : Statement (.aluMins d a b) := by
  intro _ hd
  refine ⟨_, rfl, ?_⟩
  have l_d := d.isLt
  have l_a := a.isLt
  have l_b := b.isLt
  simp only [Sys2Proof.put]
  generalize hE : 0x81800000 + d.toNat * 2 ^ 15 + a.toNat * 2 ^ 9 + b.toNat * 2 ^ 3 = N
  have hN : N < 2 ^ 32 := by omega
  have f_d := fld_ofNat N 15 d hN (by omega)
  have f_a := fld_ofNat N 9 a hN (by omega)
  have f_b := fld_ofNat N 3 b hN (by omega)
  rw [decodeWord_uniform N hN (by omega)]
  have e1 : N / 2 ^ 25 % 2 ^ 6 = 0x0 := by omega
  unfold decodeUniform
  rw [toNat_word N hN, e1]
  have e2 : N / 2 ^ 21 % 2 ^ 4 = 12 := by omega
  unfold decodeAlu
  rw [toNat_word N hN, e2]
  have g0 := fixed_ofNat N 0 3 0 hN (by omega)
  simp only [g0, f_d, f_a, f_b, need_true]
  exact accept_ok hd

theorem aluMaxs (d : BitVec 6) (a : BitVec 6) (b : BitVec 6) : Statement (.aluMaxs d a b) := by
  intro _ hd
  refine ⟨_, rfl, ?_⟩
  have l_d := d.isLt
  have l_a := a.isLt
  have l_b := b.isLt
  simp only [Sys2Proof.put]
  generalize hE : 0x81a00000 + d.toNat * 2 ^ 15 + a.toNat * 2 ^ 9 + b.toNat * 2 ^ 3 = N
  have hN : N < 2 ^ 32 := by omega
  have f_d := fld_ofNat N 15 d hN (by omega)
  have f_a := fld_ofNat N 9 a hN (by omega)
  have f_b := fld_ofNat N 3 b hN (by omega)
  rw [decodeWord_uniform N hN (by omega)]
  have e1 : N / 2 ^ 25 % 2 ^ 6 = 0x0 := by omega
  unfold decodeUniform
  rw [toNat_word N hN, e1]
  have e2 : N / 2 ^ 21 % 2 ^ 4 = 13 := by omega
  unfold decodeAlu
  rw [toNat_word N hN, e2]
  have g0 := fixed_ofNat N 0 3 0 hN (by omega)
  simp only [g0, f_d, f_a, f_b, need_true]
  exact accept_ok hd

theorem aluMinz (d : BitVec 6) (a : BitVec 6) (b : BitVec 6) : Statement (.aluMinz d a b) := by
  intro _ hd
  refine ⟨_, rfl, ?_⟩
  have l_d := d.isLt
  have l_a := a.isLt
  have l_b := b.isLt
  simp only [Sys2Proof.put]
  generalize hE : 0x81c00000 + d.toNat * 2 ^ 15 + a.toNat * 2 ^ 9 + b.toNat * 2 ^ 3 = N
  have hN : N < 2 ^ 32 := by omega
  have f_d := fld_ofNat N 15 d hN (by omega)
  have f_a := fld_ofNat N 9 a hN (by omega)
  have f_b := fld_ofNat N 3 b hN (by omega)
  rw [decodeWord_uniform N hN (by omega)]
  have e1 : N / 2 ^ 25 % 2 ^ 6 = 0x0 := by omega
  unfold decodeUniform
  rw [toNat_word N hN, e1]
  have e2 : N / 2 ^ 21 % 2 ^ 4 = 14 := by omega
  unfold decodeAlu
  rw [toNat_word N hN, e2]
  have g0 := fixed_ofNat N 0 3 0 hN (by omega)
  simp only [g0, f_d, f_a, f_b, need_true]
  exact accept_ok hd

theorem aluMaxz (d : BitVec 6) (a : BitVec 6) (b : BitVec 6) : Statement (.aluMaxz d a b) := by
  intro _ hd
  refine ⟨_, rfl, ?_⟩
  have l_d := d.isLt
  have l_a := a.isLt
  have l_b := b.isLt
  simp only [Sys2Proof.put]
  generalize hE : 0x81e00000 + d.toNat * 2 ^ 15 + a.toNat * 2 ^ 9 + b.toNat * 2 ^ 3 = N
  have hN : N < 2 ^ 32 := by omega
  have f_d := fld_ofNat N 15 d hN (by omega)
  have f_a := fld_ofNat N 9 a hN (by omega)
  have f_b := fld_ofNat N 3 b hN (by omega)
  rw [decodeWord_uniform N hN (by omega)]
  have e1 : N / 2 ^ 25 % 2 ^ 6 = 0x0 := by omega
  unfold decodeUniform
  rw [toNat_word N hN, e1]
  have e2 : N / 2 ^ 21 % 2 ^ 4 = 15 := by omega
  unfold decodeAlu
  rw [toNat_word N hN, e2]
  have g0 := fixed_ofNat N 0 3 0 hN (by omega)
  simp only [g0, f_d, f_a, f_b, need_true]
  exact accept_ok hd

theorem aluiAddi (d : BitVec 6) (a : BitVec 6) (i : BitVec 9) : Statement (.aluiAddi d a i) := by
  intro _ hd
  refine ⟨_, rfl, ?_⟩
  have l_d := d.isLt
  have l_a := a.isLt
  have l_i := i.isLt
  simp only [Sys2Proof.put]
  generalize hE : 0x82000000 + d.toNat * 2 ^ 15 + a.toNat * 2 ^ 9 + i.toNat * 2 ^ 0 = N
  have hN : N < 2 ^ 32 := by omega
  have f_d := fld_ofNat N 15 d hN (by omega)
  have f_a := fld_ofNat N 9 a hN (by omega)
  have f_i := fld_ofNat N 0 i hN (by omega)
  rw [decodeWord_uniform N hN (by omega)]
  have e1 : N / 2 ^ 25 % 2 ^ 6 = 0x1 := by omega
  unfold decodeUniform
  rw [toNat_word N hN, e1]
  have e2 : N / 2 ^ 21 % 2 ^ 4 = 0 := by omega
  unfold decodeAlui
  rw [toNat_word N hN, e2]
  simp only [f_d, f_a, f_i]
  exact accept_ok hd

theorem aluiSubi (d : BitVec 6) (a : BitVec 6) (i : BitVec 9) : Statement (.aluiSubi d a i) := by
  intro _ hd
  refine ⟨_, rfl, ?_⟩
  have l_d := d.isLt
  have l_a := a.isLt
  have l_i := i.isLt
  simp only [Sys2Proof.put]
  generalize hE : 0x82200000 + d.toNat * 2 ^ 15 + a.toNat * 2 ^ 9 + i.toNat * 2 ^ 0 = N
  have hN : N < 2 ^ 32 := by omega
  have f_d := fld_ofNat N 15 d hN (by omega)
  have f_a := fld_ofNat N 9 a hN (by omega)
  have f_i := fld_ofNat N 0 i hN (by omega)
  rw [decodeWord_uniform N hN (by omega)]
  have e1 : N / 2 ^ 25 % 2 ^ 6 = 0x1 := by omega
  unfold decodeUniform
  rw [toNat_word N hN, e1]
  have e2 : N / 2 ^ 21 % 2 ^ 4 = 1 := by omega
  unfold decodeAlui
  rw [toNat_word N hN, e2]
  simp only [f_d, f_a, f_i]
  exact accept_ok hd

theorem aluiAndi (d : BitVec 6) (a : BitVec 6) (i : BitVec 9) : Statement (.aluiAndi d a i) := by
  intro _ hd
  refine ⟨_, rfl, ?_⟩
  have l_d := d.isLt
  have l_a := a.isLt
  have l_i := i.isLt
  simp only [Sys2Proof.put]
  generalize hE : 0x82400000 + d.toNat * 2 ^ 15 + a.toNat * 2 ^ 9 + i.toNat * 2 ^ 0 = N
  have hN : N < 2 ^ 32 := by omega
  have f_d := fld_ofNat N 15 d hN (by omega)
  have f_a := fld_ofNat N 9 a hN (by omega)
  have f_i := fld_ofNat N 0 i hN (by omega)
  rw [decodeWord_uniform N hN (by omega)]
  have e1 : N / 2 ^ 25 % 2 ^ 6 = 0x1 := by omega
  unfold decodeUniform
  rw [toNat_word N hN, e1]
  have e2 : N / 2 ^ 21 % 2 ^ 4 = 2 := by omega
  unfold decodeAlui
  rw [toNat_word N hN, e2]
  simp only [f_d, f_a, f_i]
  exact accept_ok hd

theorem aluiOri (d : BitVec 6) (a : BitVec 6) (i : BitVec 9) : Statement (.aluiOri d a i) := by
  intro _ hd
  refine ⟨_, rfl, ?_⟩
  have l_d := d.isLt
  have l_a := a.isLt
  have l_i := i.isLt
  simp only [Sys2Proof.put]
  generalize hE : 0x82600000 + d.toNat * 2 ^ 15 + a.toNat * 2 ^ 9 + i.toNat * 2 ^ 0 = N
  have hN : N < 2 ^ 32 := by omega
  have f_d := fld_ofNat N 15 d hN (by omega)
  have f_a := fld_ofNat N 9 a hN (by omega)
  have f_i := fld_ofNat N 0 i hN (by omega)
  rw [decodeWord_uniform N hN (by omega)]
  have e1 : N / 2 ^ 25 % 2 ^ 6 = 0x1 := by omega
  unfold decodeUniform
  rw [toNat_word N hN, e1]
  have e2 : N / 2 ^ 21 % 2 ^ 4 = 3 := by omega
  unfold decodeAlui
  rw [toNat_word N hN, e2]
  simp only [f_d, f_a, f_i]
  exact accept_ok hd

theorem aluiXori (d : BitVec 6) (a : BitVec 6) (i : BitVec 9) : Statement (.aluiXori d a i) := by
  intro _ hd
  refine ⟨_, rfl, ?_⟩
  have l_d := d.isLt
  have l_a := a.isLt
  have l_i := i.isLt
  simp only [Sys2Proof.put]
  generalize hE : 0x82800000 + d.toNat * 2 ^ 15 + a.toNat * 2 ^ 9 + i.toNat * 2 ^ 0 = N
  have hN : N < 2 ^ 32 := by omega
  have f_d := fld_ofNat N 15 d hN (by omega)
  have f_a := fld_ofNat N 9 a hN (by omega)
  have f_i := fld_ofNat N 0 i hN (by omega)
  rw [decodeWord_uniform N hN (by omega)]
  have e1 : N / 2 ^ 25 % 2 ^ 6 = 0x1 := by omega
  unfold decodeUniform
  rw [toNat_word N hN, e1]
  have e2 : N / 2 ^ 21 % 2 ^ 4 = 4 := by omega
  unfold decodeAlui
  rw [toNat_word N hN, e2]
  simp only [f_d, f_a, f_i]
  exact accept_ok hd

theorem aluiAndni (d : BitVec 6) (a : BitVec 6) (i : BitVec 9) : Statement (.aluiAndni d a i) := by
  intro _ hd
  refine ⟨_, rfl, ?_⟩
  have l_d := d.isLt
  have l_a := a.isLt
  have l_i := i.isLt
  simp only [Sys2Proof.put]
  generalize hE : 0x82a00000 + d.toNat * 2 ^ 15 + a.toNat * 2 ^ 9 + i.toNat * 2 ^ 0 = N
  have hN : N < 2 ^ 32 := by omega
  have f_d := fld_ofNat N 15 d hN (by omega)
  have f_a := fld_ofNat N 9 a hN (by omega)
  have f_i := fld_ofNat N 0 i hN (by omega)
  rw [decodeWord_uniform N hN (by omega)]
  have e1 : N / 2 ^ 25 % 2 ^ 6 = 0x1 := by omega
  unfold decodeUniform
  rw [toNat_word N hN, e1]
  have e2 : N / 2 ^ 21 % 2 ^ 4 = 5 := by omega
  unfold decodeAlui
  rw [toNat_word N hN, e2]
  simp only [f_d, f_a, f_i]
  exact accept_ok hd

theorem aluiShli (d : BitVec 6) (a : BitVec 6) (i : BitVec 9) : Statement (.aluiShli d a i) := by
  intro _ hd
  refine ⟨_, rfl, ?_⟩
  have l_d := d.isLt
  have l_a := a.isLt
  have l_i := i.isLt
  simp only [Sys2Proof.put]
  generalize hE : 0x82c00000 + d.toNat * 2 ^ 15 + a.toNat * 2 ^ 9 + i.toNat * 2 ^ 0 = N
  have hN : N < 2 ^ 32 := by omega
  have f_d := fld_ofNat N 15 d hN (by omega)
  have f_a := fld_ofNat N 9 a hN (by omega)
  have f_i := fld_ofNat N 0 i hN (by omega)
  rw [decodeWord_uniform N hN (by omega)]
  have e1 : N / 2 ^ 25 % 2 ^ 6 = 0x1 := by omega
  unfold decodeUniform
  rw [toNat_word N hN, e1]
  have e2 : N / 2 ^ 21 % 2 ^ 4 = 6 := by omega
  unfold decodeAlui
  rw [toNat_word N hN, e2]
  simp only [f_d, f_a, f_i]
  exact accept_ok hd

theorem aluiShri (d : BitVec 6) (a : BitVec 6) (i : BitVec 9) : Statement (.aluiShri d a i) := by
  intro _ hd
  refine ⟨_, rfl, ?_⟩
  have l_d := d.isLt
  have l_a := a.isLt
  have l_i := i.isLt
  simp only [Sys2Proof.put]
  generalize hE : 0x82e00000 + d.toNat * 2 ^ 15 + a.toNat * 2 ^ 9 + i.toNat * 2 ^ 0 = N
  have hN : N < 2 ^ 32 := by omega
  have f_d := fld_ofNat N 15 d hN (by omega)
  have f_a := fld_ofNat N 9 a hN (by omega)
  have f_i := fld_ofNat N 0 i hN (by omega)
  rw [decodeWord_uniform N hN (by omega)]
  have e1 : N / 2 ^ 25 % 2 ^ 6 = 0x1 := by omega
  unfold decodeUniform
  rw [toNat_word N hN, e1]
  have e2 : N / 2 ^ 21 % 2 ^ 4 = 7 := by omega
  unfold decodeAlui
  rw [toNat_word N hN, e2]
  simp only [f_d, f_a, f_i]
  exact accept_ok hd

theorem aluiSari (d : BitVec 6) (a : BitVec 6) (i : BitVec 9) : Statement (.aluiSari d a i) := by
  intro _ hd
  refine ⟨_, rfl, ?_⟩
  have l_d := d.isLt
  have l_a := a.isLt
  have l_i := i.isLt
  simp only [Sys2Proof.put]
  generalize hE : 0x83000000 + d.toNat * 2 ^ 15 + a.toNat * 2 ^ 9 + i.toNat * 2 ^ 0 = N
  have hN : N < 2 ^ 32 := by omega
  have f_d := fld_ofNat N 15 d hN (by omega)
  have f_a := fld_ofNat N 9 a hN (by omega)
  have f_i := fld_ofNat N 0 i hN (by omega)
  rw [decodeWord_uniform N hN (by omega)]
  have e1 : N / 2 ^ 25 % 2 ^ 6 = 0x1 := by omega
  unfold decodeUniform
  rw [toNat_word N hN, e1]
  have e2 : N / 2 ^ 21 % 2 ^ 4 = 8 := by omega
  unfold decodeAlui
  rw [toNat_word N hN, e2]
  simp only [f_d, f_a, f_i]
  exact accept_ok hd

theorem aluiMuli (d : BitVec 6) (a : BitVec 6) (i : BitVec 9) : Statement (.aluiMuli d a i) := by
  intro _ hd
  refine ⟨_, rfl, ?_⟩
  have l_d := d.isLt
  have l_a := a.isLt
  have l_i := i.isLt
  simp only [Sys2Proof.put]
  generalize hE : 0x83200000 + d.toNat * 2 ^ 15 + a.toNat * 2 ^ 9 + i.toNat * 2 ^ 0 = N
  have hN : N < 2 ^ 32 := by omega
  have f_d := fld_ofNat N 15 d hN (by omega)
  have f_a := fld_ofNat N 9 a hN (by omega)
  have f_i := fld_ofNat N 0 i hN (by omega)
  rw [decodeWord_uniform N hN (by omega)]
  have e1 : N / 2 ^ 25 % 2 ^ 6 = 0x1 := by omega
  unfold decodeUniform
  rw [toNat_word N hN, e1]
  have e2 : N / 2 ^ 21 % 2 ^ 4 = 9 := by omega
  unfold decodeAlui
  rw [toNat_word N hN, e2]
  simp only [f_d, f_a, f_i]
  exact accept_ok hd

theorem aluiMulhsi (d : BitVec 6) (a : BitVec 6) (i : BitVec 9) : Statement (.aluiMulhsi d a i) := by
  intro _ hd
  refine ⟨_, rfl, ?_⟩
  have l_d := d.isLt
  have l_a := a.isLt
  have l_i := i.isLt
  simp only [Sys2Proof.put]
  generalize hE : 0x83400000 + d.toNat * 2 ^ 15 + a.toNat * 2 ^ 9 + i.toNat * 2 ^ 0 = N
  have hN : N < 2 ^ 32 := by omega
  have f_d := fld_ofNat N 15 d hN (by omega)
  have f_a := fld_ofNat N 9 a hN (by omega)
  have f_i := fld_ofNat N 0 i hN (by omega)
  rw [decodeWord_uniform N hN (by omega)]
  have e1 : N / 2 ^ 25 % 2 ^ 6 = 0x1 := by omega
  unfold decodeUniform
  rw [toNat_word N hN, e1]
  have e2 : N / 2 ^ 21 % 2 ^ 4 = 10 := by omega
  unfold decodeAlui
  rw [toNat_word N hN, e2]
  simp only [f_d, f_a, f_i]
  exact accept_ok hd

theorem aluiMulhzi (d : BitVec 6) (a : BitVec 6) (i : BitVec 9) : Statement (.aluiMulhzi d a i) := by
  intro _ hd
  refine ⟨_, rfl, ?_⟩
  have l_d := d.isLt
  have l_a := a.isLt
  have l_i := i.isLt
  simp only [Sys2Proof.put]
  generalize hE : 0x83600000 + d.toNat * 2 ^ 15 + a.toNat * 2 ^ 9 + i.toNat * 2 ^ 0 = N
  have hN : N < 2 ^ 32 := by omega
  have f_d := fld_ofNat N 15 d hN (by omega)
  have f_a := fld_ofNat N 9 a hN (by omega)
  have f_i := fld_ofNat N 0 i hN (by omega)
  rw [decodeWord_uniform N hN (by omega)]
  have e1 : N / 2 ^ 25 % 2 ^ 6 = 0x1 := by omega
  unfold decodeUniform
  rw [toNat_word N hN, e1]
  have e2 : N / 2 ^ 21 % 2 ^ 4 = 11 := by omega
  unfold decodeAlui
  rw [toNat_word N hN, e2]
  simp only [f_d, f_a, f_i]
  exact accept_ok hd

theorem aluiMinsi (d : BitVec 6) (a : BitVec 6) (i : BitVec 9) : Statement (.aluiMinsi d a i) := by
  intro _ hd
  refine ⟨_, rfl, ?_⟩
  have l_d := d.isLt
  have l_a := a.isLt
  have l_i := i.isLt
  simp only [Sys2Proof.put]
  generalize hE : 0x83800000 + d.toNat * 2 ^ 15 + a.toNat * 2 ^ 9 + i.toNat * 2 ^ 0 = N
  have hN : N < 2 ^ 32 := by omega
  have f_d := fld_ofNat N 15 d hN (by omega)
  have f_a := fld_ofNat N 9 a hN (by omega)
  have f_i := fld_ofNat N 0 i hN (by omega)
  rw [decodeWord_uniform N hN (by omega)]
  have e1 : N / 2 ^ 25 % 2 ^ 6 = 0x1 := by omega
  unfold decodeUniform
  rw [toNat_word N hN, e1]
  have e2 : N / 2 ^ 21 % 2 ^ 4 = 12 := by omega
  unfold decodeAlui
  rw [toNat_word N hN, e2]
  simp only [f_d, f_a, f_i]
  exact accept_ok hd

theorem aluiMaxsi (d : BitVec 6) (a : BitVec 6) (i : BitVec 9) : Statement (.aluiMaxsi d a i) := by
  intro _ hd
  refine ⟨_, rfl, ?_⟩
  have l_d := d.isLt
  have l_a := a.isLt
  have l_i := i.isLt
  simp only [Sys2Proof.put]
  generalize hE : 0x83a00000 + d.toNat * 2 ^ 15 + a.toNat * 2 ^ 9 + i.toNat * 2 ^ 0 = N
  have hN : N < 2 ^ 32 := by omega
  have f_d := fld_ofNat N 15 d hN (by omega)
  have f_a := fld_ofNat N 9 a hN (by omega)
  have f_i := fld_ofNat N 0 i hN (by omega)
  rw [decodeWord_uniform N hN (by omega)]
  have e1 : N / 2 ^ 25 % 2 ^ 6 = 0x1 := by omega
  unfold decodeUniform
  rw [toNat_word N hN, e1]
  have e2 : N / 2 ^ 21 % 2 ^ 4 = 13 := by omega
  unfold decodeAlui
  rw [toNat_word N hN, e2]
  simp only [f_d, f_a, f_i]
  exact accept_ok hd

theorem aluiMinzi (d : BitVec 6) (a : BitVec 6) (i : BitVec 9) : Statement (.aluiMinzi d a i) := by
  intro _ hd
  refine ⟨_, rfl, ?_⟩
  have l_d := d.isLt
  have l_a := a.isLt
  have l_i := i.isLt
  simp only [Sys2Proof.put]
  generalize hE : 0x83c00000 + d.toNat * 2 ^ 15 + a.toNat * 2 ^ 9 + i.toNat * 2 ^ 0 = N
  have hN : N < 2 ^ 32 := by omega
  have f_d := fld_ofNat N 15 d hN (by omega)
  have f_a := fld_ofNat N 9 a hN (by omega)
  have f_i := fld_ofNat N 0 i hN (by omega)
  rw [decodeWord_uniform N hN (by omega)]
  have e1 : N / 2 ^ 25 % 2 ^ 6 = 0x1 := by omega
  unfold decodeUniform
  rw [toNat_word N hN, e1]
  have e2 : N / 2 ^ 21 % 2 ^ 4 = 14 := by omega
  unfold decodeAlui
  rw [toNat_word N hN, e2]
  simp only [f_d, f_a, f_i]
  exact accept_ok hd

theorem aluiMaxzi (d : BitVec 6) (a : BitVec 6) (i : BitVec 9) : Statement (.aluiMaxzi d a i) := by
  intro _ hd
  refine ⟨_, rfl, ?_⟩
  have l_d := d.isLt
  have l_a := a.isLt
  have l_i := i.isLt
  simp only [Sys2Proof.put]
  generalize hE : 0x83e00000 + d.toNat * 2 ^ 15 + a.toNat * 2 ^ 9 + i.toNat * 2 ^ 0 = N
  have hN : N < 2 ^ 32 := by omega
  have f_d := fld_ofNat N 15 d hN (by omega)
  have f_a := fld_ofNat N 9 a hN (by omega)
  have f_i := fld_ofNat N 0 i hN (by omega)
  rw [decodeWord_uniform N hN (by omega)]
  have e1 : N / 2 ^ 25 % 2 ^ 6 = 0x1 := by omega
  unfold decodeUniform
  rw [toNat_word N hN, e1]
  have e2 : N / 2 ^ 21 % 2 ^ 4 = 15 := by omega
  unfold decodeAlui
  rw [toNat_word N hN, e2]
  simp only [f_d, f_a, f_i]
  exact accept_ok hd

theorem divs (d : BitVec 6) (a : BitVec 6) (b : BitVec 6) : Statement (.divs d a b) := by
  intro _ hd
  refine ⟨_, rfl, ?_⟩
  have l_d := d.isLt
  have l_a := a.isLt
  have l_b := b.isLt
  simp only [Sys2Proof.put]
  generalize hE : 0x84000000 + d.toNat * 2 ^ 15 + a.toNat * 2 ^ 9 + b.toNat * 2 ^ 3 = N
  have hN : N < 2 ^ 32 := by omega
  have f_d := fld_ofNat N 15 d hN (by omega)
  have f_a := fld_ofNat N 9 a hN (by omega)
  have f_b := fld_ofNat N 3 b hN (by omega)
  rw [decodeWord_uniform N hN (by omega)]
  have e1 : N / 2 ^ 25 % 2 ^ 6 = 0x2 := by omega
  unfold decodeUniform
  rw [toNat_word N hN, e1]
  have e2 : N / 2 ^ 21 % 2 ^ 4 = 0 := by omega
  unfold decodeAlx
  rw [toNat_word N hN, e2]
  have g0 := fixed_ofNat N 0 3 0 hN (by omega)
  simp only [g0, f_d, f_a, f_b, need_true]
  exact accept_ok hd

theorem divz (d : BitVec 6) (a : BitVec 6) (b : BitVec 6) : Statement (.divz d a b) := by
  intro _ hd
  refine ⟨_, rfl, ?_⟩
  have l_d := d.isLt
  have l_a := a.isLt
  have l_b := b.isLt
  simp only [Sys2Proof.put]
  generalize hE : 0x84200000 + d.toNat * 2 ^ 15 + a.toNat * 2 ^ 9 + b.toNat * 2 ^ 3 = N
  have hN : N < 2 ^ 32 := by omega
  have f_d := fld_ofNat N 15 d hN (by omega)
  have f_a := fld_ofNat N 9 a hN (by omega)
  have f_b := fld_ofNat N 3 b hN (by omega)
  rw [decodeWord_uniform N hN (by omega)]
  have e1 : N / 2 ^ 25 % 2 ^ 6 = 0x2 := by omega
  unfold decodeUniform
  rw [toNat_word N hN, e1]
  have e2 : N / 2 ^ 21 % 2 ^ 4 = 1 := by omega
  unfold decodeAlx
  rw [toNat_word N hN, e2]
  have g0 := fixed_ofNat N 0 3 0 hN (by omega)
  simp only [g0, f_d, f_a, f_b, need_true]
  exact accept_ok hd

theorem rems (d : BitVec 6) (a : BitVec 6) (b : BitVec 6) : Statement (.rems d a b) := by
  intro _ hd
  refine ⟨_, rfl, ?_⟩
  have l_d := d.isLt
  have l_a := a.isLt
  have l_b := b.isLt
  simp only [Sys2Proof.put]
  generalize hE : 0x84400000 + d.toNat * 2 ^ 15 + a.toNat * 2 ^ 9 + b.toNat * 2 ^ 3 = N
  have hN : N < 2 ^ 32 := by omega
  have f_d := fld_ofNat N 15 d hN (by omega)
  have f_a := fld_ofNat N 9 a hN (by omega)
  have f_b := fld_ofNat N 3 b hN (by omega)
  rw [decodeWord_uniform N hN (by omega)]
  have e1 : N / 2 ^ 25 % 2 ^ 6 = 0x2 := by omega
  unfold decodeUniform
  rw [toNat_word N hN, e1]
  have e2 : N / 2 ^ 21 % 2 ^ 4 = 2 := by omega
  unfold decodeAlx
  rw [toNat_word N hN, e2]
  have g0 := fixed_ofNat N 0 3 0 hN (by omega)
  simp only [g0, f_d, f_a, f_b, need_true]
  exact accept_ok hd

theorem remz (d : BitVec 6) (a : BitVec 6) (b : BitVec 6) : Statement (.remz d a b) := by
  intro _ hd
  refine ⟨_, rfl, ?_⟩
  have l_d := d.isLt
  have l_a := a.isLt
  have l_b := b.isLt
  simp only [Sys2Proof.put]
  generalize hE : 0x84600000 + d.toNat * 2 ^ 15 + a.toNat * 2 ^ 9 + b.toNat * 2 ^ 3 = N
  have hN : N < 2 ^ 32 := by omega
  have f_d := fld_ofNat N 15 d hN (by omega)
  have f_a := fld_ofNat N 9 a hN (by omega)
  have f_b := fld_ofNat N 3 b hN (by omega)
  rw [decodeWord_uniform N hN (by omega)]
  have e1 : N / 2 ^ 25 % 2 ^ 6 = 0x2 := by omega
  unfold decodeUniform
  rw [toNat_word N hN, e1]
  have e2 : N / 2 ^ 21 % 2 ^ 4 = 3 := by omega
  unfold decodeAlx
  rw [toNat_word N hN, e2]
  have g0 := fixed_ofNat N 0 3 0 hN (by omega)
  simp only [g0, f_d, f_a, f_b, need_true]
  exact accept_ok hd

theorem alxClz (d : BitVec 6) (a : BitVec 6) : Statement (.alxClz d a) := by
  intro _ hd
  refine ⟨_, rfl, ?_⟩
  have l_d := d.isLt
  have l_a := a.isLt
  simp only [Sys2Proof.put]
  generalize hE : 0x84800000 + d.toNat * 2 ^ 15 + a.toNat * 2 ^ 9 = N
  have hN : N < 2 ^ 32 := by omega
  have f_d := fld_ofNat N 15 d hN (by omega)
  have f_a := fld_ofNat N 9 a hN (by omega)
  rw [decodeWord_uniform N hN (by omega)]
  have e1 : N / 2 ^ 25 % 2 ^ 6 = 0x2 := by omega
  unfold decodeUniform
  rw [toNat_word N hN, e1]
  have e2 : N / 2 ^ 21 % 2 ^ 4 = 4 := by omega
  unfold decodeAlx
  rw [toNat_word N hN, e2]
  have g0 := fixed_ofNat N 0 9 0 hN (by omega)
  simp only [g0, f_d, f_a, need_true]
  exact accept_ok hd

theorem alxPopc (d : BitVec 6) (a : BitVec 6) : Statement (.alxPopc d a) := by
  intro _ hd
  refine ⟨_, rfl, ?_⟩
  have l_d := d.isLt
  have l_a := a.isLt
  simp only [Sys2Proof.put]
  generalize hE : 0x84a00000 + d.toNat * 2 ^ 15 + a.toNat * 2 ^ 9 = N
  have hN : N < 2 ^ 32 := by omega
  have f_d := fld_ofNat N 15 d hN (by omega)
  have f_a := fld_ofNat N 9 a hN (by omega)
  rw [decodeWord_uniform N hN (by omega)]
  have e1 : N / 2 ^ 25 % 2 ^ 6 = 0x2 := by omega
  unfold decodeUniform
  rw [toNat_word N hN, e1]
  have e2 : N / 2 ^ 21 % 2 ^ 4 = 5 := by omega
  unfold decodeAlx
  rw [toNat_word N hN, e2]
  have g0 := fixed_ofNat N 0 9 0 hN (by omega)
  simp only [g0, f_d, f_a, need_true]
  exact accept_ok hd

theorem alxBfx (d : BitVec 6) (a : BitVec 6) (b : BitVec 6) : Statement (.alxBfx d a b) := by
  intro _ hd
  refine ⟨_, rfl, ?_⟩
  have l_d := d.isLt
  have l_a := a.isLt
  have l_b := b.isLt
  simp only [Sys2Proof.put]
  generalize hE : 0x84c00000 + d.toNat * 2 ^ 15 + a.toNat * 2 ^ 9 + b.toNat * 2 ^ 3 = N
  have hN : N < 2 ^ 32 := by omega
  have f_d := fld_ofNat N 15 d hN (by omega)
  have f_a := fld_ofNat N 9 a hN (by omega)
  have f_b := fld_ofNat N 3 b hN (by omega)
  rw [decodeWord_uniform N hN (by omega)]
  have e1 : N / 2 ^ 25 % 2 ^ 6 = 0x2 := by omega
  unfold decodeUniform
  rw [toNat_word N hN, e1]
  have e2 : N / 2 ^ 21 % 2 ^ 4 = 6 := by omega
  unfold decodeAlx
  rw [toNat_word N hN, e2]
  have g0 := fixed_ofNat N 0 3 0 hN (by omega)
  simp only [g0, f_d, f_a, f_b, need_true]
  exact accept_ok hd

theorem alxBfi (d : BitVec 6) (a : BitVec 6) (b : BitVec 6) : Statement (.alxBfi d a b) := by
  intro _ hd
  refine ⟨_, rfl, ?_⟩
  have l_d := d.isLt
  have l_a := a.isLt
  have l_b := b.isLt
  simp only [Sys2Proof.put]
  generalize hE : 0x84e00000 + d.toNat * 2 ^ 15 + a.toNat * 2 ^ 9 + b.toNat * 2 ^ 3 = N
  have hN : N < 2 ^ 32 := by omega
  have f_d := fld_ofNat N 15 d hN (by omega)
  have f_a := fld_ofNat N 9 a hN (by omega)
  have f_b := fld_ofNat N 3 b hN (by omega)
  rw [decodeWord_uniform N hN (by omega)]
  have e1 : N / 2 ^ 25 % 2 ^ 6 = 0x2 := by omega
  unfold decodeUniform
  rw [toNat_word N hN, e1]
  have e2 : N / 2 ^ 21 % 2 ^ 4 = 7 := by omega
  unfold decodeAlx
  rw [toNat_word N hN, e2]
  have g0 := fixed_ofNat N 0 3 0 hN (by omega)
  simp only [g0, f_d, f_a, f_b, need_true]
  exact accept_ok hd

theorem cmps (d : BitVec 6) (a : BitVec 6) (b : BitVec 6) (c : BitVec 3) : Statement (.cmps d a b c) := by
  intro _ hd
  refine ⟨_, rfl, ?_⟩
  have l_d := d.isLt
  have l_a := a.isLt
  have l_b := b.isLt
  have l_c := c.isLt
  simp only [Sys2Proof.put]
  generalize hE : 0x85000000 + d.toNat * 2 ^ 15 + a.toNat * 2 ^ 9 + b.toNat * 2 ^ 3 + c.toNat * 2 ^ 0 = N
  have hN : N < 2 ^ 32 := by omega
  have f_d := fld_ofNat N 15 d hN (by omega)
  have f_a := fld_ofNat N 9 a hN (by omega)
  have f_b := fld_ofNat N 3 b hN (by omega)
  have f_c := fld_ofNat N 0 c hN (by omega)
  rw [decodeWord_uniform N hN (by omega)]
  have e1 : N / 2 ^ 25 % 2 ^ 6 = 0x2 := by omega
  unfold decodeUniform
  rw [toNat_word N hN, e1]
  have e2 : N / 2 ^ 21 % 2 ^ 4 = 8 := by omega
  unfold decodeAlx
  rw [toNat_word N hN, e2]
  simp only [f_d, f_a, f_b, f_c]
  exact accept_ok hd

theorem alxMov (d : BitVec 6) (a : BitVec 6) : Statement (.alxMov d a) := by
  intro _ hd
  refine ⟨_, rfl, ?_⟩
  have l_d := d.isLt
  have l_a := a.isLt
  simp only [Sys2Proof.put]
  generalize hE : 0x85200000 + d.toNat * 2 ^ 15 + a.toNat * 2 ^ 9 = N
  have hN : N < 2 ^ 32 := by omega
  have f_d := fld_ofNat N 15 d hN (by omega)
  have f_a := fld_ofNat N 9 a hN (by omega)
  rw [decodeWord_uniform N hN (by omega)]
  have e1 : N / 2 ^ 25 % 2 ^ 6 = 0x2 := by omega
  unfold decodeUniform
  rw [toNat_word N hN, e1]
  have e2 : N / 2 ^ 21 % 2 ^ 4 = 9 := by omega
  unfold decodeAlx
  rw [toNat_word N hN, e2]
  have g0 := fixed_ofNat N 0 9 0 hN (by omega)
  simp only [g0, f_d, f_a, need_true]
  exact accept_ok hd

theorem selnz (d : BitVec 6) (a : BitVec 6) (b : BitVec 6) : Statement (.selnz d a b) := by
  intro _ hd
  refine ⟨_, rfl, ?_⟩
  have l_d := d.isLt
  have l_a := a.isLt
  have l_b := b.isLt
  simp only [Sys2Proof.put]
  generalize hE : 0x85400000 + d.toNat * 2 ^ 15 + a.toNat * 2 ^ 9 + b.toNat * 2 ^ 3 = N
  have hN : N < 2 ^ 32 := by omega
  have f_d := fld_ofNat N 15 d hN (by omega)
  have f_a := fld_ofNat N 9 a hN (by omega)
  have f_b := fld_ofNat N 3 b hN (by omega)
  rw [decodeWord_uniform N hN (by omega)]
  have e1 : N / 2 ^ 25 % 2 ^ 6 = 0x2 := by omega
  unfold decodeUniform
  rw [toNat_word N hN, e1]
  have e2 : N / 2 ^ 21 % 2 ^ 4 = 10 := by omega
  unfold decodeAlx
  rw [toNat_word N hN, e2]
  have g0 := fixed_ofNat N 0 3 0 hN (by omega)
  simp only [g0, f_d, f_a, f_b, need_true]
  exact accept_ok hd

theorem movw (h : BitVec 2) (d : BitVec 6) (i : BitVec 16) : Statement (.movw h d i) := by
  intro _ hd
  refine ⟨_, rfl, ?_⟩
  have l_h := h.isLt
  have l_d := d.isLt
  have l_i := i.isLt
  simp only [Sys2Proof.put]
  generalize hE : 0x86000000 + h.toNat * 2 ^ 23 + d.toNat * 2 ^ 17 + i.toNat * 2 ^ 1 = N
  have hN : N < 2 ^ 32 := by omega
  have f_h := fld_ofNat N 23 h hN (by omega)
  have f_d := fld_ofNat N 17 d hN (by omega)
  have f_i := fld_ofNat N 1 i hN (by omega)
  rw [decodeWord_uniform N hN (by omega)]
  have e1 : N / 2 ^ 25 % 2 ^ 6 = 0x3 := by omega
  unfold decodeUniform
  rw [toNat_word N hN, e1]
  have e2 : N / 2 ^ 0 % 2 ^ 1 = 0 := by omega
  unfold decodeMovw
  rw [toNat_word N hN, e2]
  simp only [f_h, f_d, f_i]
  exact accept_ok hd

theorem movwk (h : BitVec 2) (d : BitVec 6) (i : BitVec 16) : Statement (.movwk h d i) := by
  intro _ hd
  refine ⟨_, rfl, ?_⟩
  have l_h := h.isLt
  have l_d := d.isLt
  have l_i := i.isLt
  simp only [Sys2Proof.put]
  generalize hE : 0x86000001 + h.toNat * 2 ^ 23 + d.toNat * 2 ^ 17 + i.toNat * 2 ^ 1 = N
  have hN : N < 2 ^ 32 := by omega
  have f_h := fld_ofNat N 23 h hN (by omega)
  have f_d := fld_ofNat N 17 d hN (by omega)
  have f_i := fld_ofNat N 1 i hN (by omega)
  rw [decodeWord_uniform N hN (by omega)]
  have e1 : N / 2 ^ 25 % 2 ^ 6 = 0x3 := by omega
  unfold decodeUniform
  rw [toNat_word N hN, e1]
  have e2 : N / 2 ^ 0 % 2 ^ 1 = 1 := by omega
  unfold decodeMovw
  rw [toNat_word N hN, e2]
  simp only [f_h, f_d, f_i]
  exact accept_ok hd

theorem brc (c : BitVec 4) (a : BitVec 6) (b : BitVec 6) (o : BitVec 9) : Statement (.brc c a b o) := by
  intro _ hd
  refine ⟨_, rfl, ?_⟩
  have l_c := c.isLt
  have l_a := a.isLt
  have l_b := b.isLt
  have l_o := o.isLt
  simp only [Sys2Proof.put]
  generalize hE : 0x88000000 + c.toNat * 2 ^ 21 + a.toNat * 2 ^ 15 + b.toNat * 2 ^ 9 + o.toNat * 2 ^ 0 = N
  have hN : N < 2 ^ 32 := by omega
  have f_c := fld_ofNat N 21 c hN (by omega)
  have f_a := fld_ofNat N 15 a hN (by omega)
  have f_b := fld_ofNat N 9 b hN (by omega)
  have f_o := fld_ofNat N 0 o hN (by omega)
  rw [decodeWord_uniform N hN (by omega)]
  have e1 : N / 2 ^ 25 % 2 ^ 6 = 0x4 := by omega
  unfold decodeUniform
  rw [toNat_word N hN, e1]
  simp only [f_c, f_a, f_b, f_o]
  exact accept_ok hd

theorem br (o : BitVec 25) : Statement (.br o) := by
  intro _ hd
  refine ⟨_, rfl, ?_⟩
  have l_o := o.isLt
  simp only [Sys2Proof.put]
  generalize hE : 0x8a000000 + o.toNat * 2 ^ 0 = N
  have hN : N < 2 ^ 32 := by omega
  have f_o := fld_ofNat N 0 o hN (by omega)
  rw [decodeWord_uniform N hN (by omega)]
  have e1 : N / 2 ^ 25 % 2 ^ 6 = 0x5 := by omega
  unfold decodeUniform
  rw [toNat_word N hN, e1]
  simp only [f_o]
  exact accept_ok hd

theorem call (o : BitVec 25) : Statement (.call o) := by
  intro _ hd
  refine ⟨_, rfl, ?_⟩
  have l_o := o.isLt
  simp only [Sys2Proof.put]
  generalize hE : 0x8c000000 + o.toNat * 2 ^ 0 = N
  have hN : N < 2 ^ 32 := by omega
  have f_o := fld_ofNat N 0 o hN (by omega)
  rw [decodeWord_uniform N hN (by omega)]
  have e1 : N / 2 ^ 25 % 2 ^ 6 = 0x6 := by omega
  unfold decodeUniform
  rw [toNat_word N hN, e1]
  simp only [f_o]
  exact accept_ok hd

theorem jr (a : BitVec 6) : Statement (.jr a) := by
  intro _ hd
  refine ⟨_, rfl, ?_⟩
  have l_a := a.isLt
  simp only [Sys2Proof.put]
  generalize hE : 0x8e000000 + a.toNat * 2 ^ 9 = N
  have hN : N < 2 ^ 32 := by omega
  have f_a := fld_ofNat N 9 a hN (by omega)
  rw [decodeWord_uniform N hN (by omega)]
  have e1 : N / 2 ^ 25 % 2 ^ 6 = 0x7 := by omega
  unfold decodeUniform
  rw [toNat_word N hN, e1]
  have e2 : N / 2 ^ 21 % 2 ^ 4 = 0 := by omega
  unfold decodeJmp
  rw [toNat_word N hN, e2]
  have g0 := fixed_ofNat N 0 9 0 hN (by omega)
  have g1 := fixed_ofNat N 15 6 0 hN (by omega)
  simp only [g0, g1, f_a, need_true]
  exact accept_ok hd

theorem callr (a : BitVec 6) : Statement (.callr a) := by
  intro _ hd
  refine ⟨_, rfl, ?_⟩
  have l_a := a.isLt
  simp only [Sys2Proof.put]
  generalize hE : 0x8e200000 + a.toNat * 2 ^ 9 = N
  have hN : N < 2 ^ 32 := by omega
  have f_a := fld_ofNat N 9 a hN (by omega)
  rw [decodeWord_uniform N hN (by omega)]
  have e1 : N / 2 ^ 25 % 2 ^ 6 = 0x7 := by omega
  unfold decodeUniform
  rw [toNat_word N hN, e1]
  have e2 : N / 2 ^ 21 % 2 ^ 4 = 1 := by omega
  unfold decodeJmp
  rw [toNat_word N hN, e2]
  have g0 := fixed_ofNat N 0 9 0 hN (by omega)
  have g1 := fixed_ofNat N 15 6 0 hN (by omega)
  simp only [g0, g1, f_a, need_true]
  exact accept_ok hd

theorem ret : Statement .ret := fun _ _ => ⟨_, rfl, by decide⟩

theorem srch (m : BitVec 3) (c : BitVec 3) (v : BitVec 7) (k : BitVec 6) (n : BitVec 6) : Statement (.srch m c v k n) := by
  intro _ hd
  refine ⟨_, rfl, ?_⟩
  have l_m := m.isLt
  have l_c := c.isLt
  have l_v := v.isLt
  have l_k := k.isLt
  have l_n := n.isLt
  simp only [Sys2Proof.put]
  generalize hE : 0x90000000 + m.toNat * 2 ^ 22 + c.toNat * 2 ^ 19 + v.toNat * 2 ^ 12 + k.toNat * 2 ^ 6 + n.toNat * 2 ^ 0 = N
  have hN : N < 2 ^ 32 := by omega
  have f_m := fld_ofNat N 22 m hN (by omega)
  have f_c := fld_ofNat N 19 c hN (by omega)
  have f_v := fld_ofNat N 12 v hN (by omega)
  have f_k := fld_ofNat N 6 k hN (by omega)
  have f_n := fld_ofNat N 0 n hN (by omega)
  rw [decodeWord_uniform N hN (by omega)]
  have e1 : N / 2 ^ 25 % 2 ^ 6 = 0x8 := by omega
  unfold decodeUniform
  rw [toNat_word N hN, e1]
  simp only [f_m, f_c, f_v, f_k, f_n]
  exact accept_ok hd

theorem srcha (m : BitVec 3) (c : BitVec 3) (v : BitVec 7) (k : BitVec 6) (n : BitVec 6) : Statement (.srcha m c v k n) := by
  intro _ hd
  refine ⟨_, rfl, ?_⟩
  have l_m := m.isLt
  have l_c := c.isLt
  have l_v := v.isLt
  have l_k := k.isLt
  have l_n := n.isLt
  simp only [Sys2Proof.put]
  generalize hE : 0x92000000 + m.toNat * 2 ^ 22 + c.toNat * 2 ^ 19 + v.toNat * 2 ^ 12 + k.toNat * 2 ^ 6 + n.toNat * 2 ^ 0 = N
  have hN : N < 2 ^ 32 := by omega
  have f_m := fld_ofNat N 22 m hN (by omega)
  have f_c := fld_ofNat N 19 c hN (by omega)
  have f_v := fld_ofNat N 12 v hN (by omega)
  have f_k := fld_ofNat N 6 k hN (by omega)
  have f_n := fld_ofNat N 0 n hN (by omega)
  rw [decodeWord_uniform N hN (by omega)]
  have e1 : N / 2 ^ 25 % 2 ^ 6 = 0x9 := by omega
  unfold decodeUniform
  rw [toNat_word N hN, e1]
  simp only [f_m, f_c, f_v, f_k, f_n]
  exact accept_ok hd

theorem srchr (m : BitVec 3) (c : BitVec 3) (v : BitVec 7) (b : BitVec 7) (n : BitVec 5) : Statement (.srchr m c v b n) := by
  intro _ hd
  refine ⟨_, rfl, ?_⟩
  have l_m := m.isLt
  have l_c := c.isLt
  have l_v := v.isLt
  have l_b := b.isLt
  have l_n := n.isLt
  simp only [Sys2Proof.put]
  generalize hE : 0x94000000 + m.toNat * 2 ^ 22 + c.toNat * 2 ^ 19 + v.toNat * 2 ^ 12 + b.toNat * 2 ^ 5 + n.toNat * 2 ^ 0 = N
  have hN : N < 2 ^ 32 := by omega
  have f_m := fld_ofNat N 22 m hN (by omega)
  have f_c := fld_ofNat N 19 c hN (by omega)
  have f_v := fld_ofNat N 12 v hN (by omega)
  have f_b := fld_ofNat N 5 b hN (by omega)
  have f_n := fld_ofNat N 0 n hN (by omega)
  rw [decodeWord_uniform N hN (by omega)]
  have e1 : N / 2 ^ 25 % 2 ^ 6 = 0xa := by omega
  unfold decodeUniform
  rw [toNat_word N hN, e1]
  simp only [f_m, f_c, f_v, f_b, f_n]
  exact accept_ok hd

theorem mand (d : BitVec 3) (a : BitVec 3) (b : BitVec 3) : Statement (.mand d a b) := by
  intro _ hd
  refine ⟨_, rfl, ?_⟩
  have l_d := d.isLt
  have l_a := a.isLt
  have l_b := b.isLt
  simp only [Sys2Proof.put]
  generalize hE : 0x96000000 + d.toNat * 2 ^ 18 + a.toNat * 2 ^ 15 + b.toNat * 2 ^ 12 = N
  have hN : N < 2 ^ 32 := by omega
  have f_d := fld_ofNat N 18 d hN (by omega)
  have f_a := fld_ofNat N 15 a hN (by omega)
  have f_b := fld_ofNat N 12 b hN (by omega)
  rw [decodeWord_uniform N hN (by omega)]
  have e1 : N / 2 ^ 25 % 2 ^ 6 = 0xb := by omega
  unfold decodeUniform
  rw [toNat_word N hN, e1]
  have e2 : N / 2 ^ 21 % 2 ^ 4 = 0 := by omega
  unfold decodeMark
  rw [toNat_word N hN, e2]
  have g0 := fixed_ofNat N 0 12 0 hN (by omega)
  simp only [g0, f_d, f_a, f_b, need_true]
  exact accept_ok hd

theorem mor (d : BitVec 3) (a : BitVec 3) (b : BitVec 3) : Statement (.mor d a b) := by
  intro _ hd
  refine ⟨_, rfl, ?_⟩
  have l_d := d.isLt
  have l_a := a.isLt
  have l_b := b.isLt
  simp only [Sys2Proof.put]
  generalize hE : 0x96200000 + d.toNat * 2 ^ 18 + a.toNat * 2 ^ 15 + b.toNat * 2 ^ 12 = N
  have hN : N < 2 ^ 32 := by omega
  have f_d := fld_ofNat N 18 d hN (by omega)
  have f_a := fld_ofNat N 15 a hN (by omega)
  have f_b := fld_ofNat N 12 b hN (by omega)
  rw [decodeWord_uniform N hN (by omega)]
  have e1 : N / 2 ^ 25 % 2 ^ 6 = 0xb := by omega
  unfold decodeUniform
  rw [toNat_word N hN, e1]
  have e2 : N / 2 ^ 21 % 2 ^ 4 = 1 := by omega
  unfold decodeMark
  rw [toNat_word N hN, e2]
  have g0 := fixed_ofNat N 0 12 0 hN (by omega)
  simp only [g0, f_d, f_a, f_b, need_true]
  exact accept_ok hd

theorem mxor (d : BitVec 3) (a : BitVec 3) (b : BitVec 3) : Statement (.mxor d a b) := by
  intro _ hd
  refine ⟨_, rfl, ?_⟩
  have l_d := d.isLt
  have l_a := a.isLt
  have l_b := b.isLt
  simp only [Sys2Proof.put]
  generalize hE : 0x96400000 + d.toNat * 2 ^ 18 + a.toNat * 2 ^ 15 + b.toNat * 2 ^ 12 = N
  have hN : N < 2 ^ 32 := by omega
  have f_d := fld_ofNat N 18 d hN (by omega)
  have f_a := fld_ofNat N 15 a hN (by omega)
  have f_b := fld_ofNat N 12 b hN (by omega)
  rw [decodeWord_uniform N hN (by omega)]
  have e1 : N / 2 ^ 25 % 2 ^ 6 = 0xb := by omega
  unfold decodeUniform
  rw [toNat_word N hN, e1]
  have e2 : N / 2 ^ 21 % 2 ^ 4 = 2 := by omega
  unfold decodeMark
  rw [toNat_word N hN, e2]
  have g0 := fixed_ofNat N 0 12 0 hN (by omega)
  simp only [g0, f_d, f_a, f_b, need_true]
  exact accept_ok hd

theorem mandn (d : BitVec 3) (a : BitVec 3) (b : BitVec 3) : Statement (.mandn d a b) := by
  intro _ hd
  refine ⟨_, rfl, ?_⟩
  have l_d := d.isLt
  have l_a := a.isLt
  have l_b := b.isLt
  simp only [Sys2Proof.put]
  generalize hE : 0x96600000 + d.toNat * 2 ^ 18 + a.toNat * 2 ^ 15 + b.toNat * 2 ^ 12 = N
  have hN : N < 2 ^ 32 := by omega
  have f_d := fld_ofNat N 18 d hN (by omega)
  have f_a := fld_ofNat N 15 a hN (by omega)
  have f_b := fld_ofNat N 12 b hN (by omega)
  rw [decodeWord_uniform N hN (by omega)]
  have e1 : N / 2 ^ 25 % 2 ^ 6 = 0xb := by omega
  unfold decodeUniform
  rw [toNat_word N hN, e1]
  have e2 : N / 2 ^ 21 % 2 ^ 4 = 3 := by omega
  unfold decodeMark
  rw [toNat_word N hN, e2]
  have g0 := fixed_ofNat N 0 12 0 hN (by omega)
  simp only [g0, f_d, f_a, f_b, need_true]
  exact accept_ok hd

theorem mnot (d : BitVec 3) (a : BitVec 3) : Statement (.mnot d a) := by
  intro _ hd
  refine ⟨_, rfl, ?_⟩
  have l_d := d.isLt
  have l_a := a.isLt
  simp only [Sys2Proof.put]
  generalize hE : 0x96800000 + d.toNat * 2 ^ 18 + a.toNat * 2 ^ 15 = N
  have hN : N < 2 ^ 32 := by omega
  have f_d := fld_ofNat N 18 d hN (by omega)
  have f_a := fld_ofNat N 15 a hN (by omega)
  rw [decodeWord_uniform N hN (by omega)]
  have e1 : N / 2 ^ 25 % 2 ^ 6 = 0xb := by omega
  unfold decodeUniform
  rw [toNat_word N hN, e1]
  have e2 : N / 2 ^ 21 % 2 ^ 4 = 4 := by omega
  unfold decodeMark
  rw [toNat_word N hN, e2]
  have g0 := fixed_ofNat N 0 15 0 hN (by omega)
  simp only [g0, f_d, f_a, need_true]
  exact accept_ok hd

theorem mcopy (d : BitVec 3) (a : BitVec 3) : Statement (.mcopy d a) := by
  intro _ hd
  refine ⟨_, rfl, ?_⟩
  have l_d := d.isLt
  have l_a := a.isLt
  simp only [Sys2Proof.put]
  generalize hE : 0x96a00000 + d.toNat * 2 ^ 18 + a.toNat * 2 ^ 15 = N
  have hN : N < 2 ^ 32 := by omega
  have f_d := fld_ofNat N 18 d hN (by omega)
  have f_a := fld_ofNat N 15 a hN (by omega)
  rw [decodeWord_uniform N hN (by omega)]
  have e1 : N / 2 ^ 25 % 2 ^ 6 = 0xb := by omega
  unfold decodeUniform
  rw [toNat_word N hN, e1]
  have e2 : N / 2 ^ 21 % 2 ^ 4 = 5 := by omega
  unfold decodeMark
  rw [toNat_word N hN, e2]
  have g0 := fixed_ofNat N 0 15 0 hN (by omega)
  simp only [g0, f_d, f_a, need_true]
  exact accept_ok hd

theorem mclr (d : BitVec 3) : Statement (.mclr d) := by
  intro _ hd
  refine ⟨_, rfl, ?_⟩
  have l_d := d.isLt
  simp only [Sys2Proof.put]
  generalize hE : 0x96c00000 + d.toNat * 2 ^ 18 = N
  have hN : N < 2 ^ 32 := by omega
  have f_d := fld_ofNat N 18 d hN (by omega)
  rw [decodeWord_uniform N hN (by omega)]
  have e1 : N / 2 ^ 25 % 2 ^ 6 = 0xb := by omega
  unfold decodeUniform
  rw [toNat_word N hN, e1]
  have e2 : N / 2 ^ 21 % 2 ^ 4 = 6 := by omega
  unfold decodeMark
  rw [toNat_word N hN, e2]
  have g0 := fixed_ofNat N 0 18 0 hN (by omega)
  simp only [g0, f_d, need_true]
  exact accept_ok hd

theorem mgetact (d : BitVec 3) : Statement (.mgetact d) := by
  intro _ hd
  refine ⟨_, rfl, ?_⟩
  have l_d := d.isLt
  simp only [Sys2Proof.put]
  generalize hE : 0x96e00000 + d.toNat * 2 ^ 18 = N
  have hN : N < 2 ^ 32 := by omega
  have f_d := fld_ofNat N 18 d hN (by omega)
  rw [decodeWord_uniform N hN (by omega)]
  have e1 : N / 2 ^ 25 % 2 ^ 6 = 0xb := by omega
  unfold decodeUniform
  rw [toNat_word N hN, e1]
  have e2 : N / 2 ^ 21 % 2 ^ 4 = 7 := by omega
  unfold decodeMark
  rw [toNat_word N hN, e2]
  have g0 := fixed_ofNat N 0 18 0 hN (by omega)
  simp only [g0, f_d, need_true]
  exact accept_ok hd

theorem cnt (a : BitVec 3) (s : BitVec 6) : Statement (.cnt a s) := by
  intro _ hd
  refine ⟨_, rfl, ?_⟩
  have l_a := a.isLt
  have l_s := s.isLt
  simp only [Sys2Proof.put]
  generalize hE : 0x97000000 + a.toNat * 2 ^ 15 + s.toNat * 2 ^ 6 = N
  have hN : N < 2 ^ 32 := by omega
  have f_a := fld_ofNat N 15 a hN (by omega)
  have f_s := fld_ofNat N 6 s hN (by omega)
  rw [decodeWord_uniform N hN (by omega)]
  have e1 : N / 2 ^ 25 % 2 ^ 6 = 0xb := by omega
  unfold decodeUniform
  rw [toNat_word N hN, e1]
  have e2 : N / 2 ^ 21 % 2 ^ 4 = 8 := by omega
  unfold decodeMark
  rw [toNat_word N hN, e2]
  have g0 := fixed_ofNat N 0 6 0 hN (by omega)
  have g1 := fixed_ofNat N 12 3 0 hN (by omega)
  have g2 := fixed_ofNat N 18 3 0 hN (by omega)
  simp only [g0, g1, g2, f_a, f_s, need_true]
  exact accept_ok hd

theorem first (a : BitVec 3) (s : BitVec 6) : Statement (.first a s) := by
  intro _ hd
  refine ⟨_, rfl, ?_⟩
  have l_a := a.isLt
  have l_s := s.isLt
  simp only [Sys2Proof.put]
  generalize hE : 0x97200000 + a.toNat * 2 ^ 15 + s.toNat * 2 ^ 6 = N
  have hN : N < 2 ^ 32 := by omega
  have f_a := fld_ofNat N 15 a hN (by omega)
  have f_s := fld_ofNat N 6 s hN (by omega)
  rw [decodeWord_uniform N hN (by omega)]
  have e1 : N / 2 ^ 25 % 2 ^ 6 = 0xb := by omega
  unfold decodeUniform
  rw [toNat_word N hN, e1]
  have e2 : N / 2 ^ 21 % 2 ^ 4 = 9 := by omega
  unfold decodeMark
  rw [toNat_word N hN, e2]
  have g0 := fixed_ofNat N 0 6 0 hN (by omega)
  have g1 := fixed_ofNat N 12 3 0 hN (by omega)
  have g2 := fixed_ofNat N 18 3 0 hN (by omega)
  simp only [g0, g1, g2, f_a, f_s, need_true]
  exact accept_ok hd

theorem next (a : BitVec 3) (s : BitVec 6) : Statement (.next a s) := by
  intro _ hd
  refine ⟨_, rfl, ?_⟩
  have l_a := a.isLt
  have l_s := s.isLt
  simp only [Sys2Proof.put]
  generalize hE : 0x97400000 + a.toNat * 2 ^ 15 + s.toNat * 2 ^ 6 = N
  have hN : N < 2 ^ 32 := by omega
  have f_a := fld_ofNat N 15 a hN (by omega)
  have f_s := fld_ofNat N 6 s hN (by omega)
  rw [decodeWord_uniform N hN (by omega)]
  have e1 : N / 2 ^ 25 % 2 ^ 6 = 0xb := by omega
  unfold decodeUniform
  rw [toNat_word N hN, e1]
  have e2 : N / 2 ^ 21 % 2 ^ 4 = 10 := by omega
  unfold decodeMark
  rw [toNat_word N hN, e2]
  have g0 := fixed_ofNat N 0 6 0 hN (by omega)
  have g1 := fixed_ofNat N 12 3 0 hN (by omega)
  have g2 := fixed_ofNat N 18 3 0 hN (by omega)
  simp only [g0, g1, g2, f_a, f_s, need_true]
  exact accept_ok hd

theorem mpick (d : BitVec 3) (a : BitVec 3) (s : BitVec 6) : Statement (.mpick d a s) := by
  intro _ hd
  refine ⟨_, rfl, ?_⟩
  have l_d := d.isLt
  have l_a := a.isLt
  have l_s := s.isLt
  simp only [Sys2Proof.put]
  generalize hE : 0x97600000 + d.toNat * 2 ^ 18 + a.toNat * 2 ^ 15 + s.toNat * 2 ^ 6 = N
  have hN : N < 2 ^ 32 := by omega
  have f_d := fld_ofNat N 18 d hN (by omega)
  have f_a := fld_ofNat N 15 a hN (by omega)
  have f_s := fld_ofNat N 6 s hN (by omega)
  rw [decodeWord_uniform N hN (by omega)]
  have e1 : N / 2 ^ 25 % 2 ^ 6 = 0xb := by omega
  unfold decodeUniform
  rw [toNat_word N hN, e1]
  have e2 : N / 2 ^ 21 % 2 ^ 4 = 11 := by omega
  unfold decodeMark
  rw [toNat_word N hN, e2]
  have g0 := fixed_ofNat N 0 6 0 hN (by omega)
  have g1 := fixed_ofNat N 12 3 0 hN (by omega)
  simp only [g0, g1, f_d, f_a, f_s, need_true]
  exact accept_ok hd

theorem mset1 (d : BitVec 3) (s : BitVec 6) : Statement (.mset1 d s) := by
  intro _ hd
  refine ⟨_, rfl, ?_⟩
  have l_d := d.isLt
  have l_s := s.isLt
  simp only [Sys2Proof.put]
  generalize hE : 0x97800000 + d.toNat * 2 ^ 18 + s.toNat * 2 ^ 6 = N
  have hN : N < 2 ^ 32 := by omega
  have f_d := fld_ofNat N 18 d hN (by omega)
  have f_s := fld_ofNat N 6 s hN (by omega)
  rw [decodeWord_uniform N hN (by omega)]
  have e1 : N / 2 ^ 25 % 2 ^ 6 = 0xb := by omega
  unfold decodeUniform
  rw [toNat_word N hN, e1]
  have e2 : N / 2 ^ 21 % 2 ^ 4 = 12 := by omega
  unfold decodeMark
  rw [toNat_word N hN, e2]
  have g0 := fixed_ofNat N 0 6 0 hN (by omega)
  have g1 := fixed_ofNat N 12 6 0 hN (by omega)
  simp only [g0, g1, f_d, f_s, need_true]
  exact accept_ok hd

theorem mclr1 (d : BitVec 3) (s : BitVec 6) : Statement (.mclr1 d s) := by
  intro _ hd
  refine ⟨_, rfl, ?_⟩
  have l_d := d.isLt
  have l_s := s.isLt
  simp only [Sys2Proof.put]
  generalize hE : 0x97a00000 + d.toNat * 2 ^ 18 + s.toNat * 2 ^ 6 = N
  have hN : N < 2 ^ 32 := by omega
  have f_d := fld_ofNat N 18 d hN (by omega)
  have f_s := fld_ofNat N 6 s hN (by omega)
  rw [decodeWord_uniform N hN (by omega)]
  have e1 : N / 2 ^ 25 % 2 ^ 6 = 0xb := by omega
  unfold decodeUniform
  rw [toNat_word N hN, e1]
  have e2 : N / 2 ^ 21 % 2 ^ 4 = 13 := by omega
  unfold decodeMark
  rw [toNat_word N hN, e2]
  have g0 := fixed_ofNat N 0 6 0 hN (by omega)
  have g1 := fixed_ofNat N 12 6 0 hN (by omega)
  simp only [g0, g1, f_d, f_s, need_true]
  exact accept_ok hd

theorem mload (d : BitVec 3) (s : BitVec 6) : Statement (.mload d s) := by
  intro _ hd
  refine ⟨_, rfl, ?_⟩
  have l_d := d.isLt
  have l_s := s.isLt
  simp only [Sys2Proof.put]
  generalize hE : 0x97c00000 + d.toNat * 2 ^ 18 + s.toNat * 2 ^ 6 = N
  have hN : N < 2 ^ 32 := by omega
  have f_d := fld_ofNat N 18 d hN (by omega)
  have f_s := fld_ofNat N 6 s hN (by omega)
  rw [decodeWord_uniform N hN (by omega)]
  have e1 : N / 2 ^ 25 % 2 ^ 6 = 0xb := by omega
  unfold decodeUniform
  rw [toNat_word N hN, e1]
  have e2 : N / 2 ^ 21 % 2 ^ 4 = 14 := by omega
  unfold decodeMark
  rw [toNat_word N hN, e2]
  have e3 : N / 2 ^ 12 % 2 ^ 3 = 0 := by omega
  rw [e3]
  have g0 := fixed_ofNat N 0 6 0 hN (by omega)
  have g1 := fixed_ofNat N 15 3 0 hN (by omega)
  simp only [g0, g1, f_d, f_s, need_true]
  exact accept_ok hd

theorem mstore (a : BitVec 3) (s : BitVec 6) : Statement (.mstore a s) := by
  intro _ hd
  refine ⟨_, rfl, ?_⟩
  have l_a := a.isLt
  have l_s := s.isLt
  simp only [Sys2Proof.put]
  generalize hE : 0x97c01000 + a.toNat * 2 ^ 15 + s.toNat * 2 ^ 6 = N
  have hN : N < 2 ^ 32 := by omega
  have f_a := fld_ofNat N 15 a hN (by omega)
  have f_s := fld_ofNat N 6 s hN (by omega)
  rw [decodeWord_uniform N hN (by omega)]
  have e1 : N / 2 ^ 25 % 2 ^ 6 = 0xb := by omega
  unfold decodeUniform
  rw [toNat_word N hN, e1]
  have e2 : N / 2 ^ 21 % 2 ^ 4 = 14 := by omega
  unfold decodeMark
  rw [toNat_word N hN, e2]
  have e3 : N / 2 ^ 12 % 2 ^ 3 = 1 := by omega
  rw [e3]
  have g0 := fixed_ofNat N 0 6 0 hN (by omega)
  have g1 := fixed_ofNat N 18 3 0 hN (by omega)
  simp only [g0, g1, f_a, f_s, need_true]
  exact accept_ok hd

theorem push (a : BitVec 3) : Statement (.push a) := by
  intro _ hd
  refine ⟨_, rfl, ?_⟩
  have l_a := a.isLt
  simp only [Sys2Proof.put]
  generalize hE : 0x98000000 + a.toNat * 2 ^ 15 = N
  have hN : N < 2 ^ 32 := by omega
  have f_a := fld_ofNat N 15 a hN (by omega)
  rw [decodeWord_uniform N hN (by omega)]
  have e1 : N / 2 ^ 25 % 2 ^ 6 = 0xc := by omega
  unfold decodeUniform
  rw [toNat_word N hN, e1]
  have e2 : N / 2 ^ 21 % 2 ^ 4 = 0 := by omega
  unfold decodeRstk
  rw [toNat_word N hN, e2]
  have g0 := fixed_ofNat N 0 15 0 hN (by omega)
  have g1 := fixed_ofNat N 18 3 0 hN (by omega)
  simp only [g0, g1, f_a, need_true]
  exact accept_ok hd

theorem pop : Statement .pop := fun _ _ => ⟨_, rfl, by decide⟩

theorem else_ (a : BitVec 3) : Statement (.else_ a) := by
  intro _ hd
  refine ⟨_, rfl, ?_⟩
  have l_a := a.isLt
  simp only [Sys2Proof.put]
  generalize hE : 0x98400000 + a.toNat * 2 ^ 15 = N
  have hN : N < 2 ^ 32 := by omega
  have f_a := fld_ofNat N 15 a hN (by omega)
  rw [decodeWord_uniform N hN (by omega)]
  have e1 : N / 2 ^ 25 % 2 ^ 6 = 0xc := by omega
  unfold decodeUniform
  rw [toNat_word N hN, e1]
  have e2 : N / 2 ^ 21 % 2 ^ 4 = 2 := by omega
  unfold decodeRstk
  rw [toNat_word N hN, e2]
  have g0 := fixed_ofNat N 0 15 0 hN (by omega)
  have g1 := fixed_ofNat N 18 3 0 hN (by omega)
  simp only [g0, g1, f_a, need_true]
  exact accept_ok hd

theorem jarv (d : BitVec 3) : Statement (.jarv d) := by
  intro _ hd
  refine ⟨_, rfl, ?_⟩
  have l_d := d.isLt
  simp only [Sys2Proof.put]
  generalize hE : 0x98600000 + d.toNat * 2 ^ 18 = N
  have hN : N < 2 ^ 32 := by omega
  have f_d := fld_ofNat N 18 d hN (by omega)
  rw [decodeWord_uniform N hN (by omega)]
  have e1 : N / 2 ^ 25 % 2 ^ 6 = 0xc := by omega
  unfold decodeUniform
  rw [toNat_word N hN, e1]
  have e2 : N / 2 ^ 21 % 2 ^ 4 = 3 := by omega
  unfold decodeRstk
  rw [toNat_word N hN, e2]
  have g0 := fixed_ofNat N 0 18 0 hN (by omega)
  simp only [g0, f_d, need_true]
  exact accept_ok hd

theorem join (a : BitVec 3) : Statement (.join a) := by
  intro _ hd
  refine ⟨_, rfl, ?_⟩
  have l_a := a.isLt
  simp only [Sys2Proof.put]
  generalize hE : 0x98800000 + a.toNat * 2 ^ 15 = N
  have hN : N < 2 ^ 32 := by omega
  have f_a := fld_ofNat N 15 a hN (by omega)
  rw [decodeWord_uniform N hN (by omega)]
  have e1 : N / 2 ^ 25 % 2 ^ 6 = 0xc := by omega
  unfold decodeUniform
  rw [toNat_word N hN, e1]
  have e2 : N / 2 ^ 21 % 2 ^ 4 = 4 := by omega
  unfold decodeRstk
  rw [toNat_word N hN, e2]
  have g0 := fixed_ofNat N 0 15 0 hN (by omega)
  have g1 := fixed_ofNat N 18 3 0 hN (by omega)
  simp only [g0, g1, f_a, need_true]
  exact accept_ok hd

theorem setact (a : BitVec 3) : Statement (.setact a) := by
  intro _ hd
  refine ⟨_, rfl, ?_⟩
  have l_a := a.isLt
  simp only [Sys2Proof.put]
  generalize hE : 0x98a00000 + a.toNat * 2 ^ 15 = N
  have hN : N < 2 ^ 32 := by omega
  have f_a := fld_ofNat N 15 a hN (by omega)
  rw [decodeWord_uniform N hN (by omega)]
  have e1 : N / 2 ^ 25 % 2 ^ 6 = 0xc := by omega
  unfold decodeUniform
  rw [toNat_word N hN, e1]
  have e2 : N / 2 ^ 21 % 2 ^ 4 = 5 := by omega
  unfold decodeRstk
  rw [toNat_word N hN, e2]
  have g0 := fixed_ofNat N 0 15 0 hN (by omega)
  have g1 := fixed_ofNat N 18 3 0 hN (by omega)
  simp only [g0, g1, f_a, need_true]
  exact accept_ok hd

theorem pushall : Statement .pushall := fun _ _ => ⟨_, rfl, by decide⟩

theorem rdepth (s : BitVec 6) : Statement (.rdepth s) := by
  intro _ hd
  refine ⟨_, rfl, ?_⟩
  have l_s := s.isLt
  simp only [Sys2Proof.put]
  generalize hE : 0x98e00000 + s.toNat * 2 ^ 6 = N
  have hN : N < 2 ^ 32 := by omega
  have f_s := fld_ofNat N 6 s hN (by omega)
  rw [decodeWord_uniform N hN (by omega)]
  have e1 : N / 2 ^ 25 % 2 ^ 6 = 0xc := by omega
  unfold decodeUniform
  rw [toNat_word N hN, e1]
  have e2 : N / 2 ^ 21 % 2 ^ 4 = 7 := by omega
  unfold decodeRstk
  rw [toNat_word N hN, e2]
  have g0 := fixed_ofNat N 0 6 0 hN (by omega)
  have g1 := fixed_ofNat N 12 9 0 hN (by omega)
  simp only [g0, g1, f_s, need_true]
  exact accept_ok hd

theorem get (d : BitVec 6) (n : BitVec 6) (b : BitVec 6) (h : BitVec 1) : Statement (.get d n b h) := by
  intro _ hd
  refine ⟨_, rfl, ?_⟩
  have l_d := d.isLt
  have l_n := n.isLt
  have l_b := b.isLt
  have l_h := h.isLt
  simp only [Sys2Proof.put]
  generalize hE : 0x9a000000 + d.toNat * 2 ^ 15 + n.toNat * 2 ^ 9 + b.toNat * 2 ^ 3 + h.toNat * 2 ^ 0 = N
  have hN : N < 2 ^ 32 := by omega
  have f_d := fld_ofNat N 15 d hN (by omega)
  have f_n := fld_ofNat N 9 n hN (by omega)
  have f_b := fld_ofNat N 3 b hN (by omega)
  have f_h := fld_ofNat N 0 h hN (by omega)
  rw [decodeWord_uniform N hN (by omega)]
  have e1 : N / 2 ^ 25 % 2 ^ 6 = 0xd := by omega
  unfold decodeUniform
  rw [toNat_word N hN, e1]
  have e2 : N / 2 ^ 21 % 2 ^ 4 = 0 := by omega
  unfold decodeXfer
  rw [toNat_word N hN, e2]
  have g0 := fixed_ofNat N 1 2 0 hN (by omega)
  simp only [g0, f_d, f_n, f_b, f_h, need_true]
  exact accept_ok hd

theorem put (d : BitVec 6) (n : BitVec 6) (b : BitVec 6) (h : BitVec 1) : Statement (.put d n b h) := by
  intro _ hd
  refine ⟨_, rfl, ?_⟩
  have l_d := d.isLt
  have l_n := n.isLt
  have l_b := b.isLt
  have l_h := h.isLt
  simp only [Sys2Proof.put]
  generalize hE : 0x9a200000 + d.toNat * 2 ^ 15 + n.toNat * 2 ^ 9 + b.toNat * 2 ^ 3 + h.toNat * 2 ^ 0 = N
  have hN : N < 2 ^ 32 := by omega
  have f_d := fld_ofNat N 15 d hN (by omega)
  have f_n := fld_ofNat N 9 n hN (by omega)
  have f_b := fld_ofNat N 3 b hN (by omega)
  have f_h := fld_ofNat N 0 h hN (by omega)
  rw [decodeWord_uniform N hN (by omega)]
  have e1 : N / 2 ^ 25 % 2 ^ 6 = 0xd := by omega
  unfold decodeUniform
  rw [toNat_word N hN, e1]
  have e2 : N / 2 ^ 21 % 2 ^ 4 = 1 := by omega
  unfold decodeXfer
  rw [toNat_word N hN, e2]
  have g0 := fixed_ofNat N 1 2 0 hN (by omega)
  simp only [g0, f_d, f_n, f_b, f_h, need_true]
  exact accept_ok hd

theorem getf (d : BitVec 6) (n : BitVec 6) (h : BitVec 1) : Statement (.getf d n h) := by
  intro _ hd
  refine ⟨_, rfl, ?_⟩
  have l_d := d.isLt
  have l_n := n.isLt
  have l_h := h.isLt
  simp only [Sys2Proof.put]
  generalize hE : 0x9a400000 + d.toNat * 2 ^ 15 + n.toNat * 2 ^ 9 + h.toNat * 2 ^ 0 = N
  have hN : N < 2 ^ 32 := by omega
  have f_d := fld_ofNat N 15 d hN (by omega)
  have f_n := fld_ofNat N 9 n hN (by omega)
  have f_h := fld_ofNat N 0 h hN (by omega)
  rw [decodeWord_uniform N hN (by omega)]
  have e1 : N / 2 ^ 25 % 2 ^ 6 = 0xd := by omega
  unfold decodeUniform
  rw [toNat_word N hN, e1]
  have e2 : N / 2 ^ 21 % 2 ^ 4 = 2 := by omega
  unfold decodeXfer
  rw [toNat_word N hN, e2]
  have g0 := fixed_ofNat N 1 8 0 hN (by omega)
  simp only [g0, f_d, f_n, f_h, need_true]
  exact accept_ok hd

theorem blkacqW (a : BitVec 6) : Statement (.blkacqW a) := by
  intro _ hd
  refine ⟨_, rfl, ?_⟩
  have l_a := a.isLt
  simp only [Sys2Proof.put]
  generalize hE : 0x9c000000 + a.toNat * 2 ^ 9 = N
  have hN : N < 2 ^ 32 := by omega
  have f_a := fld_ofNat N 9 a hN (by omega)
  rw [decodeWord_uniform N hN (by omega)]
  have e1 : N / 2 ^ 25 % 2 ^ 6 = 0xe := by omega
  unfold decodeUniform
  rw [toNat_word N hN, e1]
  have e2 : N / 2 ^ 21 % 2 ^ 4 = 0 := by omega
  unfold decodeBlk
  rw [toNat_word N hN, e2]
  have g0 := fixed_ofNat N 0 9 0 hN (by omega)
  have g1 := fixed_ofNat N 15 6 0 hN (by omega)
  simp only [g0, g1, f_a, need_true]
  exact accept_ok hd

theorem blkacqP (d : BitVec 6) (a : BitVec 6) : Statement (.blkacqP d a) := by
  intro _ hd
  refine ⟨_, rfl, ?_⟩
  have l_d := d.isLt
  have l_a := a.isLt
  simp only [Sys2Proof.put]
  generalize hE : 0x9c200000 + d.toNat * 2 ^ 15 + a.toNat * 2 ^ 9 = N
  have hN : N < 2 ^ 32 := by omega
  have f_d := fld_ofNat N 15 d hN (by omega)
  have f_a := fld_ofNat N 9 a hN (by omega)
  rw [decodeWord_uniform N hN (by omega)]
  have e1 : N / 2 ^ 25 % 2 ^ 6 = 0xe := by omega
  unfold decodeUniform
  rw [toNat_word N hN, e1]
  have e2 : N / 2 ^ 21 % 2 ^ 4 = 1 := by omega
  unfold decodeBlk
  rw [toNat_word N hN, e2]
  have g0 := fixed_ofNat N 0 9 0 hN (by omega)
  simp only [g0, f_d, f_a, need_true]
  exact accept_ok hd

theorem blkrel (a : BitVec 6) : Statement (.blkrel a) := by
  intro _ hd
  refine ⟨_, rfl, ?_⟩
  have l_a := a.isLt
  simp only [Sys2Proof.put]
  generalize hE : 0x9c400000 + a.toNat * 2 ^ 9 = N
  have hN : N < 2 ^ 32 := by omega
  have f_a := fld_ofNat N 9 a hN (by omega)
  rw [decodeWord_uniform N hN (by omega)]
  have e1 : N / 2 ^ 25 % 2 ^ 6 = 0xe := by omega
  unfold decodeUniform
  rw [toNat_word N hN, e1]
  have e2 : N / 2 ^ 21 % 2 ^ 4 = 2 := by omega
  unfold decodeBlk
  rw [toNat_word N hN, e2]
  have g0 := fixed_ofNat N 0 9 0 hN (by omega)
  have g1 := fixed_ofNat N 15 6 0 hN (by omega)
  simp only [g0, g1, f_a, need_true]
  exact accept_ok hd

theorem blkq (d : BitVec 6) : Statement (.blkq d) := by
  intro _ hd
  refine ⟨_, rfl, ?_⟩
  have l_d := d.isLt
  simp only [Sys2Proof.put]
  generalize hE : 0x9c600000 + d.toNat * 2 ^ 15 = N
  have hN : N < 2 ^ 32 := by omega
  have f_d := fld_ofNat N 15 d hN (by omega)
  rw [decodeWord_uniform N hN (by omega)]
  have e1 : N / 2 ^ 25 % 2 ^ 6 = 0xe := by omega
  unfold decodeUniform
  rw [toNat_word N hN, e1]
  have e2 : N / 2 ^ 21 % 2 ^ 4 = 3 := by omega
  unfold decodeBlk
  rw [toNat_word N hN, e2]
  have g0 := fixed_ofNat N 0 15 0 hN (by omega)
  simp only [g0, f_d, need_true]
  exact accept_ok hd

theorem pblk (m : BitVec 3) (n : BitVec 3) (p : BitVec 8) : Statement (.pblk m n p) := by
  intro _ hd
  refine ⟨_, rfl, ?_⟩
  have l_m := m.isLt
  have l_n := n.isLt
  have l_p := p.isLt
  simp only [Sys2Proof.put]
  generalize hE : 0x9e000000 + m.toNat * 2 ^ 22 + n.toNat * 2 ^ 19 + p.toNat * 2 ^ 11 = N
  have hN : N < 2 ^ 32 := by omega
  have f_m := fld_ofNat N 22 m hN (by omega)
  have f_n := fld_ofNat N 19 n hN (by omega)
  have f_p := fld_ofNat N 11 p hN (by omega)
  rw [decodeWord_uniform N hN (by omega)]
  have e1 : N / 2 ^ 25 % 2 ^ 6 = 0xf := by omega
  unfold decodeUniform
  rw [toNat_word N hN, e1]
  have g0 := fixed_ofNat N 0 11 0 hN (by omega)
  simp only [g0, f_m, f_n, f_p, need_true]
  exact accept_ok hd

theorem clause (w : BitVec 12) (a : BitVec 4) (b : BitVec 4) (l : BitVec 5) : Statement (.clause w a b l) := by
  intro _ hd
  refine ⟨_, rfl, ?_⟩
  have l_w := w.isLt
  have l_a := a.isLt
  have l_b := b.isLt
  have l_l := l.isLt
  simp only [Sys2Proof.put]
  generalize hE : 0xa0000000 + w.toNat * 2 ^ 13 + a.toNat * 2 ^ 9 + b.toNat * 2 ^ 5 + l.toNat * 2 ^ 0 = N
  have hN : N < 2 ^ 32 := by omega
  have f_w := fld_ofNat N 13 w hN (by omega)
  have f_a := fld_ofNat N 9 a hN (by omega)
  have f_b := fld_ofNat N 5 b hN (by omega)
  have f_l := fld_ofNat N 0 l hN (by omega)
  rw [decodeWord_uniform N hN (by omega)]
  have e1 : N / 2 ^ 25 % 2 ^ 6 = 0x10 := by omega
  unfold decodeUniform
  rw [toNat_word N hN, e1]
  simp only [f_w, f_a, f_b, f_l]
  exact accept_ok hd

theorem lds (z : BitVec 2) (o : BitVec 1) (d : BitVec 6) (a : BitVec 6) (i : BitVec 9) : Statement (.lds z o d a i) := by
  intro _ hd
  refine ⟨_, rfl, ?_⟩
  have l_z := z.isLt
  have l_o := o.isLt
  have l_d := d.isLt
  have l_a := a.isLt
  have l_i := i.isLt
  simp only [Sys2Proof.put]
  generalize hE : 0xa2000000 + z.toNat * 2 ^ 23 + o.toNat * 2 ^ 21 + d.toNat * 2 ^ 15 + a.toNat * 2 ^ 9 + i.toNat * 2 ^ 0 = N
  have hN : N < 2 ^ 32 := by omega
  have f_z := fld_ofNat N 23 z hN (by omega)
  have f_o := fld_ofNat N 21 o hN (by omega)
  have f_d := fld_ofNat N 15 d hN (by omega)
  have f_a := fld_ofNat N 9 a hN (by omega)
  have f_i := fld_ofNat N 0 i hN (by omega)
  rw [decodeWord_uniform N hN (by omega)]
  have e1 : N / 2 ^ 25 % 2 ^ 6 = 0x11 := by omega
  unfold decodeUniform
  rw [toNat_word N hN, e1]
  have g0 := fixed_ofNat N 22 1 0 hN (by omega)
  simp only [g0, f_z, f_o, f_d, f_a, f_i, need_true]
  exact accept_ok hd

theorem sts (z : BitVec 2) (o : BitVec 1) (d : BitVec 6) (a : BitVec 6) (i : BitVec 9) : Statement (.sts z o d a i) := by
  intro _ hd
  refine ⟨_, rfl, ?_⟩
  have l_z := z.isLt
  have l_o := o.isLt
  have l_d := d.isLt
  have l_a := a.isLt
  have l_i := i.isLt
  simp only [Sys2Proof.put]
  generalize hE : 0xa4000000 + z.toNat * 2 ^ 23 + o.toNat * 2 ^ 22 + d.toNat * 2 ^ 15 + a.toNat * 2 ^ 9 + i.toNat * 2 ^ 0 = N
  have hN : N < 2 ^ 32 := by omega
  have f_z := fld_ofNat N 23 z hN (by omega)
  have f_o := fld_ofNat N 22 o hN (by omega)
  have f_d := fld_ofNat N 15 d hN (by omega)
  have f_a := fld_ofNat N 9 a hN (by omega)
  have f_i := fld_ofNat N 0 i hN (by omega)
  rw [decodeWord_uniform N hN (by omega)]
  have e1 : N / 2 ^ 25 % 2 ^ 6 = 0x12 := by omega
  unfold decodeUniform
  rw [toNat_word N hN, e1]
  have g0 := fixed_ofNat N 21 1 0 hN (by omega)
  simp only [g0, f_z, f_o, f_d, f_a, f_i, need_true]
  exact accept_ok hd

theorem atoms (p : BitVec 4) (d : BitVec 6) (a : BitVec 6) (b : BitVec 6) (z : BitVec 1) (o : BitVec 2) : Statement (.atoms p d a b z o) := by
  intro _ hd
  refine ⟨_, rfl, ?_⟩
  have l_p := p.isLt
  have l_d := d.isLt
  have l_a := a.isLt
  have l_b := b.isLt
  have l_z := z.isLt
  have l_o := o.isLt
  simp only [Sys2Proof.put]
  generalize hE : 0xa6000000 + p.toNat * 2 ^ 21 + d.toNat * 2 ^ 15 + a.toNat * 2 ^ 9 + b.toNat * 2 ^ 3 + z.toNat * 2 ^ 2 + o.toNat * 2 ^ 0 = N
  have hN : N < 2 ^ 32 := by omega
  have f_p := fld_ofNat N 21 p hN (by omega)
  have f_d := fld_ofNat N 15 d hN (by omega)
  have f_a := fld_ofNat N 9 a hN (by omega)
  have f_b := fld_ofNat N 3 b hN (by omega)
  have f_z := fld_ofNat N 2 z hN (by omega)
  have f_o := fld_ofNat N 0 o hN (by omega)
  rw [decodeWord_uniform N hN (by omega)]
  have e1 : N / 2 ^ 25 % 2 ^ 6 = 0x13 := by omega
  unfold decodeUniform
  rw [toNat_word N hN, e1]
  simp only [f_p, f_d, f_a, f_b, f_z, f_o]
  exact accept_ok hd

theorem fence : Statement .fence := fun _ _ => ⟨_, rfl, by decide⟩

theorem fenceA : Statement .fenceA := fun _ _ => ⟨_, rfl, by decide⟩

theorem fenceR : Statement .fenceR := fun _ _ => ⟨_, rfl, by decide⟩

theorem ifence : Statement .ifence := fun _ _ => ⟨_, rfl, by decide⟩

theorem waitu (c : BitVec 3) (d : BitVec 6) (a : BitVec 6) (b : BitVec 6) (w : BitVec 1) (t : BitVec 1) : Statement (.waitu c d a b w t) := by
  intro _ hd
  refine ⟨_, rfl, ?_⟩
  have l_c := c.isLt
  have l_d := d.isLt
  have l_a := a.isLt
  have l_b := b.isLt
  have l_w := w.isLt
  have l_t := t.isLt
  simp only [Sys2Proof.put]
  generalize hE : 0xaa000000 + c.toNat * 2 ^ 21 + d.toNat * 2 ^ 15 + a.toNat * 2 ^ 9 + b.toNat * 2 ^ 3 + w.toNat * 2 ^ 1 + t.toNat * 2 ^ 0 = N
  have hN : N < 2 ^ 32 := by omega
  have f_c := fld_ofNat N 21 c hN (by omega)
  have f_d := fld_ofNat N 15 d hN (by omega)
  have f_a := fld_ofNat N 9 a hN (by omega)
  have f_b := fld_ofNat N 3 b hN (by omega)
  have f_w := fld_ofNat N 1 w hN (by omega)
  have f_t := fld_ofNat N 0 t hN (by omega)
  rw [decodeWord_uniform N hN (by omega)]
  have e1 : N / 2 ^ 25 % 2 ^ 6 = 0x15 := by omega
  unfold decodeUniform
  rw [toNat_word N hN, e1]
  have g0 := fixed_ofNat N 2 1 0 hN (by omega)
  have g1 := fixed_ofNat N 24 1 0 hN (by omega)
  simp only [g0, g1, f_c, f_d, f_a, f_b, f_w, f_t, need_true]
  exact accept_ok hd

theorem wacc (a : BitVec 6) (b : BitVec 6) : Statement (.wacc a b) := by
  intro _ hd
  refine ⟨_, rfl, ?_⟩
  have l_a := a.isLt
  have l_b := b.isLt
  simp only [Sys2Proof.put]
  generalize hE : 0xac000000 + a.toNat * 2 ^ 9 + b.toNat * 2 ^ 3 = N
  have hN : N < 2 ^ 32 := by omega
  have f_a := fld_ofNat N 9 a hN (by omega)
  have f_b := fld_ofNat N 3 b hN (by omega)
  rw [decodeWord_uniform N hN (by omega)]
  have e1 : N / 2 ^ 25 % 2 ^ 6 = 0x16 := by omega
  unfold decodeUniform
  rw [toNat_word N hN, e1]
  have e2 : N / 2 ^ 21 % 2 ^ 4 = 0 := by omega
  unfold decodeRelay
  rw [toNat_word N hN, e2]
  have g0 := fixed_ofNat N 0 3 0 hN (by omega)
  have g1 := fixed_ofNat N 15 6 0 hN (by omega)
  simp only [g0, g1, f_a, f_b, need_true]
  exact accept_ok hd

theorem waccq (a : BitVec 6) (b : BitVec 6) : Statement (.waccq a b) := by
  intro _ hd
  refine ⟨_, rfl, ?_⟩
  have l_a := a.isLt
  have l_b := b.isLt
  simp only [Sys2Proof.put]
  generalize hE : 0xac200000 + a.toNat * 2 ^ 9 + b.toNat * 2 ^ 3 = N
  have hN : N < 2 ^ 32 := by omega
  have f_a := fld_ofNat N 9 a hN (by omega)
  have f_b := fld_ofNat N 3 b hN (by omega)
  rw [decodeWord_uniform N hN (by omega)]
  have e1 : N / 2 ^ 25 % 2 ^ 6 = 0x16 := by omega
  unfold decodeUniform
  rw [toNat_word N hN, e1]
  have e2 : N / 2 ^ 21 % 2 ^ 4 = 1 := by omega
  unfold decodeRelay
  rw [toNat_word N hN, e2]
  have g0 := fixed_ofNat N 0 3 0 hN (by omega)
  have g1 := fixed_ofNat N 15 6 0 hN (by omega)
  simp only [g0, g1, f_a, f_b, need_true]
  exact accept_ok hd

theorem wqry (d : BitVec 6) (a : BitVec 6) : Statement (.wqry d a) := by
  intro _ hd
  refine ⟨_, rfl, ?_⟩
  have l_d := d.isLt
  have l_a := a.isLt
  simp only [Sys2Proof.put]
  generalize hE : 0xac400000 + d.toNat * 2 ^ 15 + a.toNat * 2 ^ 9 = N
  have hN : N < 2 ^ 32 := by omega
  have f_d := fld_ofNat N 15 d hN (by omega)
  have f_a := fld_ofNat N 9 a hN (by omega)
  rw [decodeWord_uniform N hN (by omega)]
  have e1 : N / 2 ^ 25 % 2 ^ 6 = 0x16 := by omega
  unfold decodeUniform
  rw [toNat_word N hN, e1]
  have e2 : N / 2 ^ 21 % 2 ^ 4 = 2 := by omega
  unfold decodeRelay
  rw [toNat_word N hN, e2]
  have g0 := fixed_ofNat N 0 9 0 hN (by omega)
  simp only [g0, f_d, f_a, need_true]
  exact accept_ok hd

theorem wcfg (a : BitVec 6) (b : BitVec 6) : Statement (.wcfg a b) := by
  intro _ hd
  refine ⟨_, rfl, ?_⟩
  have l_a := a.isLt
  have l_b := b.isLt
  simp only [Sys2Proof.put]
  generalize hE : 0xac600000 + a.toNat * 2 ^ 9 + b.toNat * 2 ^ 3 = N
  have hN : N < 2 ^ 32 := by omega
  have f_a := fld_ofNat N 9 a hN (by omega)
  have f_b := fld_ofNat N 3 b hN (by omega)
  rw [decodeWord_uniform N hN (by omega)]
  have e1 : N / 2 ^ 25 % 2 ^ 6 = 0x16 := by omega
  unfold decodeUniform
  rw [toNat_word N hN, e1]
  have e2 : N / 2 ^ 21 % 2 ^ 4 = 3 := by omega
  unfold decodeRelay
  rw [toNat_word N hN, e2]
  have g0 := fixed_ofNat N 0 3 0 hN (by omega)
  have g1 := fixed_ofNat N 15 6 0 hN (by omega)
  simp only [g0, g1, f_a, f_b, need_true]
  exact accept_ok hd

theorem wclr (a : BitVec 6) : Statement (.wclr a) := by
  intro _ hd
  refine ⟨_, rfl, ?_⟩
  have l_a := a.isLt
  simp only [Sys2Proof.put]
  generalize hE : 0xac800000 + a.toNat * 2 ^ 9 = N
  have hN : N < 2 ^ 32 := by omega
  have f_a := fld_ofNat N 9 a hN (by omega)
  rw [decodeWord_uniform N hN (by omega)]
  have e1 : N / 2 ^ 25 % 2 ^ 6 = 0x16 := by omega
  unfold decodeUniform
  rw [toNat_word N hN, e1]
  have e2 : N / 2 ^ 21 % 2 ^ 4 = 4 := by omega
  unfold decodeRelay
  rw [toNat_word N hN, e2]
  have g0 := fixed_ofNat N 0 9 0 hN (by omega)
  have g1 := fixed_ofNat N 15 6 0 hN (by omega)
  simp only [g0, g1, f_a, need_true]
  exact accept_ok hd

theorem wlen (d : BitVec 6) (a : BitVec 6) : Statement (.wlen d a) := by
  intro _ hd
  refine ⟨_, rfl, ?_⟩
  have l_d := d.isLt
  have l_a := a.isLt
  simp only [Sys2Proof.put]
  generalize hE : 0xaca00000 + d.toNat * 2 ^ 15 + a.toNat * 2 ^ 9 = N
  have hN : N < 2 ^ 32 := by omega
  have f_d := fld_ofNat N 15 d hN (by omega)
  have f_a := fld_ofNat N 9 a hN (by omega)
  rw [decodeWord_uniform N hN (by omega)]
  have e1 : N / 2 ^ 25 % 2 ^ 6 = 0x16 := by omega
  unfold decodeUniform
  rw [toNat_word N hN, e1]
  have e2 : N / 2 ^ 21 % 2 ^ 4 = 5 := by omega
  unfold decodeRelay
  rw [toNat_word N hN, e2]
  have g0 := fixed_ofNat N 0 9 0 hN (by omega)
  simp only [g0, f_d, f_a, need_true]
  exact accept_ok hd

theorem redqs (f : BitVec 1) (d : BitVec 6) (a : BitVec 6) (b : BitVec 6) : Statement (.redqs f d a b) := by
  intro _ hd
  refine ⟨_, rfl, ?_⟩
  have l_f := f.isLt
  have l_d := d.isLt
  have l_a := a.isLt
  have l_b := b.isLt
  simp only [Sys2Proof.put]
  generalize hE : 0xae000000 + f.toNat * 2 ^ 21 + d.toNat * 2 ^ 15 + a.toNat * 2 ^ 9 + b.toNat * 2 ^ 3 = N
  have hN : N < 2 ^ 32 := by omega
  have f_f := fld_ofNat N 21 f hN (by omega)
  have f_d := fld_ofNat N 15 d hN (by omega)
  have f_a := fld_ofNat N 9 a hN (by omega)
  have f_b := fld_ofNat N 3 b hN (by omega)
  rw [decodeWord_uniform N hN (by omega)]
  have e1 : N / 2 ^ 25 % 2 ^ 6 = 0x17 := by omega
  unfold decodeUniform
  rw [toNat_word N hN, e1]
  have g0 := fixed_ofNat N 0 3 0 hN (by omega)
  have g1 := fixed_ofNat N 22 3 0 hN (by omega)
  simp only [g0, g1, f_f, f_d, f_a, f_b, need_true]
  exact accept_ok hd

theorem twaitany (a : BitVec 6) : Statement (.twaitany a) := by
  intro _ hd
  refine ⟨_, rfl, ?_⟩
  have l_a := a.isLt
  simp only [Sys2Proof.put]
  generalize hE : 0xb0000000 + a.toNat * 2 ^ 9 = N
  have hN : N < 2 ^ 32 := by omega
  have f_a := fld_ofNat N 9 a hN (by omega)
  rw [decodeWord_uniform N hN (by omega)]
  have e1 : N / 2 ^ 25 % 2 ^ 6 = 0x18 := by omega
  unfold decodeUniform
  rw [toNat_word N hN, e1]
  have e2 : N / 2 ^ 21 % 2 ^ 4 = 0 := by omega
  unfold decodeTag
  rw [toNat_word N hN, e2]
  have g0 := fixed_ofNat N 0 9 0 hN (by omega)
  have g1 := fixed_ofNat N 15 6 0 hN (by omega)
  simp only [g0, g1, f_a, need_true]
  exact accept_ok hd

theorem twaitall (a : BitVec 6) : Statement (.twaitall a) := by
  intro _ hd
  refine ⟨_, rfl, ?_⟩
  have l_a := a.isLt
  simp only [Sys2Proof.put]
  generalize hE : 0xb0200000 + a.toNat * 2 ^ 9 = N
  have hN : N < 2 ^ 32 := by omega
  have f_a := fld_ofNat N 9 a hN (by omega)
  rw [decodeWord_uniform N hN (by omega)]
  have e1 : N / 2 ^ 25 % 2 ^ 6 = 0x18 := by omega
  unfold decodeUniform
  rw [toNat_word N hN, e1]
  have e2 : N / 2 ^ 21 % 2 ^ 4 = 1 := by omega
  unfold decodeTag
  rw [toNat_word N hN, e2]
  have g0 := fixed_ofNat N 0 9 0 hN (by omega)
  have g1 := fixed_ofNat N 15 6 0 hN (by omega)
  simp only [g0, g1, f_a, need_true]
  exact accept_ok hd

theorem tfirst (d : BitVec 6) (a : BitVec 6) : Statement (.tfirst d a) := by
  intro _ hd
  refine ⟨_, rfl, ?_⟩
  have l_d := d.isLt
  have l_a := a.isLt
  simp only [Sys2Proof.put]
  generalize hE : 0xb0400000 + d.toNat * 2 ^ 15 + a.toNat * 2 ^ 9 = N
  have hN : N < 2 ^ 32 := by omega
  have f_d := fld_ofNat N 15 d hN (by omega)
  have f_a := fld_ofNat N 9 a hN (by omega)
  rw [decodeWord_uniform N hN (by omega)]
  have e1 : N / 2 ^ 25 % 2 ^ 6 = 0x18 := by omega
  unfold decodeUniform
  rw [toNat_word N hN, e1]
  have e2 : N / 2 ^ 21 % 2 ^ 4 = 2 := by omega
  unfold decodeTag
  rw [toNat_word N hN, e2]
  have g0 := fixed_ofNat N 0 9 0 hN (by omega)
  simp only [g0, f_d, f_a, need_true]
  exact accept_ok hd

theorem tclr (a : BitVec 6) : Statement (.tclr a) := by
  intro _ hd
  refine ⟨_, rfl, ?_⟩
  have l_a := a.isLt
  simp only [Sys2Proof.put]
  generalize hE : 0xb0600000 + a.toNat * 2 ^ 9 = N
  have hN : N < 2 ^ 32 := by omega
  have f_a := fld_ofNat N 9 a hN (by omega)
  rw [decodeWord_uniform N hN (by omega)]
  have e1 : N / 2 ^ 25 % 2 ^ 6 = 0x18 := by omega
  unfold decodeUniform
  rw [toNat_word N hN, e1]
  have e2 : N / 2 ^ 21 % 2 ^ 4 = 3 := by omega
  unfold decodeTag
  rw [toNat_word N hN, e2]
  have g0 := fixed_ofNat N 0 9 0 hN (by omega)
  have g1 := fixed_ofNat N 15 6 0 hN (by omega)
  simp only [g0, g1, f_a, need_true]
  exact accept_ok hd

theorem trdy (d : BitVec 6) : Statement (.trdy d) := by
  intro _ hd
  refine ⟨_, rfl, ?_⟩
  have l_d := d.isLt
  simp only [Sys2Proof.put]
  generalize hE : 0xb0800000 + d.toNat * 2 ^ 15 = N
  have hN : N < 2 ^ 32 := by omega
  have f_d := fld_ofNat N 15 d hN (by omega)
  rw [decodeWord_uniform N hN (by omega)]
  have e1 : N / 2 ^ 25 % 2 ^ 6 = 0x18 := by omega
  unfold decodeUniform
  rw [toNat_word N hN, e1]
  have e2 : N / 2 ^ 21 % 2 ^ 4 = 4 := by omega
  unfold decodeTag
  rw [toNat_word N hN, e2]
  have g0 := fixed_ofNat N 0 15 0 hN (by omega)
  simp only [g0, f_d, need_true]
  exact accept_ok hd

theorem hcopy (t : BitVec 6) (g : BitVec 6) (n : BitVec 1) (y : BitVec 1) (x : BitVec 1) : Statement (.hcopy t g n y x) := by
  intro _ hd
  refine ⟨_, rfl, ?_⟩
  have l_t := t.isLt
  have l_g := g.isLt
  have l_n := n.isLt
  have l_y := y.isLt
  have l_x := x.isLt
  simp only [Sys2Proof.put]
  generalize hE : 0xb2000000 + t.toNat * 2 ^ 19 + g.toNat * 2 ^ 13 + n.toNat * 2 ^ 8 + y.toNat * 2 ^ 1 + x.toNat * 2 ^ 0 = N
  have hN : N < 2 ^ 32 := by omega
  have f_t := fld_ofNat N 19 t hN (by omega)
  have f_g := fld_ofNat N 13 g hN (by omega)
  have f_n := fld_ofNat N 8 n hN (by omega)
  have f_y := fld_ofNat N 1 y hN (by omega)
  have f_x := fld_ofNat N 0 x hN (by omega)
  rw [decodeWord_uniform N hN (by omega)]
  have e1 : N / 2 ^ 25 % 2 ^ 6 = 0x19 := by omega
  unfold decodeUniform
  rw [toNat_word N hN, e1]
  have e2 : N / 2 ^ 9 % 2 ^ 4 = 0 := by omega
  unfold decodeHoist
  rw [toNat_word N hN, e2]
  have g0 := fixed_ofNat N 2 6 0 hN (by omega)
  simp only [g0, f_t, f_g, f_n, f_y, f_x, need_true]
  exact accept_ok hd

theorem hgath (t : BitVec 6) (g : BitVec 6) (n : BitVec 1) (y : BitVec 1) (x : BitVec 1) : Statement (.hgath t g n y x) := by
  intro _ hd
  refine ⟨_, rfl, ?_⟩
  have l_t := t.isLt
  have l_g := g.isLt
  have l_n := n.isLt
  have l_y := y.isLt
  have l_x := x.isLt
  simp only [Sys2Proof.put]
  generalize hE : 0xb2000200 + t.toNat * 2 ^ 19 + g.toNat * 2 ^ 13 + n.toNat * 2 ^ 8 + y.toNat * 2 ^ 1 + x.toNat * 2 ^ 0 = N
  have hN : N < 2 ^ 32 := by omega
  have f_t := fld_ofNat N 19 t hN (by omega)
  have f_g := fld_ofNat N 13 g hN (by omega)
  have f_n := fld_ofNat N 8 n hN (by omega)
  have f_y := fld_ofNat N 1 y hN (by omega)
  have f_x := fld_ofNat N 0 x hN (by omega)
  rw [decodeWord_uniform N hN (by omega)]
  have e1 : N / 2 ^ 25 % 2 ^ 6 = 0x19 := by omega
  unfold decodeUniform
  rw [toNat_word N hN, e1]
  have e2 : N / 2 ^ 9 % 2 ^ 4 = 1 := by omega
  unfold decodeHoist
  rw [toNat_word N hN, e2]
  have g0 := fixed_ofNat N 2 6 0 hN (by omega)
  simp only [g0, f_t, f_g, f_n, f_y, f_x, need_true]
  exact accept_ok hd

theorem hscat (t : BitVec 6) (g : BitVec 6) (n : BitVec 1) (y : BitVec 1) (x : BitVec 1) : Statement (.hscat t g n y x) := by
  intro _ hd
  refine ⟨_, rfl, ?_⟩
  have l_t := t.isLt
  have l_g := g.isLt
  have l_n := n.isLt
  have l_y := y.isLt
  have l_x := x.isLt
  simp only [Sys2Proof.put]
  generalize hE : 0xb2000400 + t.toNat * 2 ^ 19 + g.toNat * 2 ^ 13 + n.toNat * 2 ^ 8 + y.toNat * 2 ^ 1 + x.toNat * 2 ^ 0 = N
  have hN : N < 2 ^ 32 := by omega
  have f_t := fld_ofNat N 19 t hN (by omega)
  have f_g := fld_ofNat N 13 g hN (by omega)
  have f_n := fld_ofNat N 8 n hN (by omega)
  have f_y := fld_ofNat N 1 y hN (by omega)
  have f_x := fld_ofNat N 0 x hN (by omega)
  rw [decodeWord_uniform N hN (by omega)]
  have e1 : N / 2 ^ 25 % 2 ^ 6 = 0x19 := by omega
  unfold decodeUniform
  rw [toNat_word N hN, e1]
  have e2 : N / 2 ^ 9 % 2 ^ 4 = 2 := by omega
  unfold decodeHoist
  rw [toNat_word N hN, e2]
  have g0 := fixed_ofNat N 2 6 0 hN (by omega)
  simp only [g0, f_t, f_g, f_n, f_y, f_x, need_true]
  exact accept_ok hd

theorem hfill (t : BitVec 6) (g : BitVec 6) (n : BitVec 1) (x : BitVec 1) : Statement (.hfill t g n x) := by
  intro _ hd
  refine ⟨_, rfl, ?_⟩
  have l_t := t.isLt
  have l_g := g.isLt
  have l_n := n.isLt
  have l_x := x.isLt
  simp only [Sys2Proof.put]
  generalize hE : 0xb2000600 + t.toNat * 2 ^ 19 + g.toNat * 2 ^ 13 + n.toNat * 2 ^ 8 + x.toNat * 2 ^ 0 = N
  have hN : N < 2 ^ 32 := by omega
  have f_t := fld_ofNat N 19 t hN (by omega)
  have f_g := fld_ofNat N 13 g hN (by omega)
  have f_n := fld_ofNat N 8 n hN (by omega)
  have f_x := fld_ofNat N 0 x hN (by omega)
  rw [decodeWord_uniform N hN (by omega)]
  have e1 : N / 2 ^ 25 % 2 ^ 6 = 0x19 := by omega
  unfold decodeUniform
  rw [toNat_word N hN, e1]
  have e2 : N / 2 ^ 9 % 2 ^ 4 = 3 := by omega
  unfold decodeHoist
  rw [toNat_word N hN, e2]
  have g0 := fixed_ofNat N 1 7 0 hN (by omega)
  simp only [g0, f_t, f_g, f_n, f_x, need_true]
  exact accept_ok hd

theorem hplane (t : BitVec 6) (g : BitVec 6) (n : BitVec 1) (y : BitVec 1) (r : BitVec 1) (f : BitVec 3) : Statement (.hplane t g n y r f) := by
  intro _ hd
  refine ⟨_, rfl, ?_⟩
  have l_t := t.isLt
  have l_g := g.isLt
  have l_n := n.isLt
  have l_y := y.isLt
  have l_r := r.isLt
  have l_f := f.isLt
  simp only [Sys2Proof.put]
  generalize hE : 0xb2000800 + t.toNat * 2 ^ 19 + g.toNat * 2 ^ 13 + n.toNat * 2 ^ 8 + y.toNat * 2 ^ 4 + r.toNat * 2 ^ 3 + f.toNat * 2 ^ 0 = N
  have hN : N < 2 ^ 32 := by omega
  have f_t := fld_ofNat N 19 t hN (by omega)
  have f_g := fld_ofNat N 13 g hN (by omega)
  have f_n := fld_ofNat N 8 n hN (by omega)
  have f_y := fld_ofNat N 4 y hN (by omega)
  have f_r := fld_ofNat N 3 r hN (by omega)
  have f_f := fld_ofNat N 0 f hN (by omega)
  rw [decodeWord_uniform N hN (by omega)]
  have e1 : N / 2 ^ 25 % 2 ^ 6 = 0x19 := by omega
  unfold decodeUniform
  rw [toNat_word N hN, e1]
  have e2 : N / 2 ^ 9 % 2 ^ 4 = 4 := by omega
  unfold decodeHoist
  rw [toNat_word N hN, e2]
  have g0 := fixed_ofNat N 5 3 0 hN (by omega)
  simp only [g0, f_t, f_g, f_n, f_y, f_r, f_f, need_true]
  exact accept_ok hd

theorem hchain (t : BitVec 6) (g : BitVec 6) (n : BitVec 1) : Statement (.hchain t g n) := by
  intro _ hd
  refine ⟨_, rfl, ?_⟩
  have l_t := t.isLt
  have l_g := g.isLt
  have l_n := n.isLt
  simp only [Sys2Proof.put]
  generalize hE : 0xb2000a00 + t.toNat * 2 ^ 19 + g.toNat * 2 ^ 13 + n.toNat * 2 ^ 8 = N
  have hN : N < 2 ^ 32 := by omega
  have f_t := fld_ofNat N 19 t hN (by omega)
  have f_g := fld_ofNat N 13 g hN (by omega)
  have f_n := fld_ofNat N 8 n hN (by omega)
  rw [decodeWord_uniform N hN (by omega)]
  have e1 : N / 2 ^ 25 % 2 ^ 6 = 0x19 := by omega
  unfold decodeUniform
  rw [toNat_word N hN, e1]
  have e2 : N / 2 ^ 9 % 2 ^ 4 = 5 := by omega
  unfold decodeHoist
  rw [toNat_word N hN, e2]
  have g0 := fixed_ofNat N 0 8 0 hN (by omega)
  simp only [g0, f_t, f_g, f_n, need_true]
  exact accept_ok hd

theorem hstop (t : BitVec 6) (n : BitVec 1) : Statement (.hstop t n) := by
  intro _ hd
  refine ⟨_, rfl, ?_⟩
  have l_t := t.isLt
  have l_n := n.isLt
  simp only [Sys2Proof.put]
  generalize hE : 0xb2000c00 + t.toNat * 2 ^ 19 + n.toNat * 2 ^ 8 = N
  have hN : N < 2 ^ 32 := by omega
  have f_t := fld_ofNat N 19 t hN (by omega)
  have f_n := fld_ofNat N 8 n hN (by omega)
  rw [decodeWord_uniform N hN (by omega)]
  have e1 : N / 2 ^ 25 % 2 ^ 6 = 0x19 := by omega
  unfold decodeUniform
  rw [toNat_word N hN, e1]
  have e2 : N / 2 ^ 9 % 2 ^ 4 = 6 := by omega
  unfold decodeHoist
  rw [toNat_word N hN, e2]
  have g0 := fixed_ofNat N 0 8 0 hN (by omega)
  have g1 := fixed_ofNat N 13 6 0 hN (by omega)
  simp only [g0, g1, f_t, f_n, need_true]
  exact accept_ok hd

theorem hresume (t : BitVec 6) (n : BitVec 1) : Statement (.hresume t n) := by
  intro _ hd
  refine ⟨_, rfl, ?_⟩
  have l_t := t.isLt
  have l_n := n.isLt
  simp only [Sys2Proof.put]
  generalize hE : 0xb2000e00 + t.toNat * 2 ^ 19 + n.toNat * 2 ^ 8 = N
  have hN : N < 2 ^ 32 := by omega
  have f_t := fld_ofNat N 19 t hN (by omega)
  have f_n := fld_ofNat N 8 n hN (by omega)
  rw [decodeWord_uniform N hN (by omega)]
  have e1 : N / 2 ^ 25 % 2 ^ 6 = 0x19 := by omega
  unfold decodeUniform
  rw [toNat_word N hN, e1]
  have e2 : N / 2 ^ 9 % 2 ^ 4 = 7 := by omega
  unfold decodeHoist
  rw [toNat_word N hN, e2]
  have g0 := fixed_ofNat N 0 8 0 hN (by omega)
  have g1 := fixed_ofNat N 13 6 0 hN (by omega)
  simp only [g0, g1, f_t, f_n, need_true]
  exact accept_ok hd

theorem hprog (t : BitVec 6) (g : BitVec 6) : Statement (.hprog t g) := by
  intro _ hd
  refine ⟨_, rfl, ?_⟩
  have l_t := t.isLt
  have l_g := g.isLt
  simp only [Sys2Proof.put]
  generalize hE : 0xb2001000 + t.toNat * 2 ^ 19 + g.toNat * 2 ^ 13 = N
  have hN : N < 2 ^ 32 := by omega
  have f_t := fld_ofNat N 19 t hN (by omega)
  have f_g := fld_ofNat N 13 g hN (by omega)
  rw [decodeWord_uniform N hN (by omega)]
  have e1 : N / 2 ^ 25 % 2 ^ 6 = 0x19 := by omega
  unfold decodeUniform
  rw [toNat_word N hN, e1]
  have e2 : N / 2 ^ 9 % 2 ^ 4 = 8 := by omega
  unfold decodeHoist
  rw [toNat_word N hN, e2]
  have g0 := fixed_ofNat N 0 9 0 hN (by omega)
  simp only [g0, f_t, f_g, need_true]
  exact accept_ok hd

theorem mma (t g : BitVec 6) (f : BitVec 4) (n : BitVec 1) : Statement (.mma t g f n) := by
  intro _ hd
  refine ⟨_, rfl, ?_⟩
  have h_t := t.isLt
  have h_g := g.isLt
  have h_f := f.isLt
  have h_n := n.isLt
  have hf : f.toNat < 6 := by
    by_contra hc
    simp only [Instr.defect] at hd
    split at hd
    · cases hd
    · split at hd
      · cases hd
      · split at hd
        · cases hd
        · simp at *; omega
  simp only [Sys2Proof.put]
  generalize hN : 0xb4000000 + t.toNat * 2 ^ 19 + g.toNat * 2 ^ 13 + f.toNat * 2 ^ 9 + n.toNat * 2 ^ 8 = w
  have hw : w < 2 ^ 32 := by omega
  have f_t := fld_ofNat w 19 t hw (by omega)
  have f_g := fld_ofNat w 13 g hw (by omega)
  have f_f := fld_ofNat w 9 f hw (by omega)
  have f_n := fld_ofNat w 8 n hw (by omega)
  have g0 := fixed_ofNat w 0 8 0 hw (by omega)
  rw [decodeWord_uniform w hw (by omega)]
  have e1 : w / 2 ^ 25 % 2 ^ 6 = 0x1a := by omega
  unfold decodeUniform
  rw [toNat_word w hw, e1]
  have e2 : w / 2 ^ 9 % 2 ^ 4 = f.toNat := by omega
  unfold decodeMx
  rw [toNat_word w hw, e2]
  generalize f.toNat = k at hf
  match k, hf with
  | 0, _ => simp only [g0, f_t, f_g, f_f, f_n, need_true]; exact accept_ok hd
  | 1, _ => simp only [g0, f_t, f_g, f_f, f_n, need_true]; exact accept_ok hd
  | 2, _ => simp only [g0, f_t, f_g, f_f, f_n, need_true]; exact accept_ok hd
  | 3, _ => simp only [g0, f_t, f_g, f_f, f_n, need_true]; exact accept_ok hd
  | 4, _ => simp only [g0, f_t, f_g, f_f, f_n, need_true]; exact accept_ok hd
  | 5, _ => simp only [g0, f_t, f_g, f_f, f_n, need_true]; exact accept_ok hd

theorem mzero (t : BitVec 6) (g : BitVec 6) (n : BitVec 1) : Statement (.mzero t g n) := by
  intro _ hd
  refine ⟨_, rfl, ?_⟩
  have l_t := t.isLt
  have l_g := g.isLt
  have l_n := n.isLt
  simp only [Sys2Proof.put]
  generalize hE : 0xb4000c00 + t.toNat * 2 ^ 19 + g.toNat * 2 ^ 13 + n.toNat * 2 ^ 8 = N
  have hN : N < 2 ^ 32 := by omega
  have f_t := fld_ofNat N 19 t hN (by omega)
  have f_g := fld_ofNat N 13 g hN (by omega)
  have f_n := fld_ofNat N 8 n hN (by omega)
  rw [decodeWord_uniform N hN (by omega)]
  have e1 : N / 2 ^ 25 % 2 ^ 6 = 0x1a := by omega
  unfold decodeUniform
  rw [toNat_word N hN, e1]
  have e2 : N / 2 ^ 9 % 2 ^ 4 = 6 := by omega
  unfold decodeMx
  rw [toNat_word N hN, e2]
  have g0 := fixed_ofNat N 0 8 0 hN (by omega)
  simp only [g0, f_t, f_g, f_n, need_true]
  exact accept_ok hd

theorem mring (g : BitVec 6) : Statement (.mring g) := by
  intro _ hd
  refine ⟨_, rfl, ?_⟩
  have l_g := g.isLt
  simp only [Sys2Proof.put]
  generalize hE : 0xb4000e00 + g.toNat * 2 ^ 13 = N
  have hN : N < 2 ^ 32 := by omega
  have f_g := fld_ofNat N 13 g hN (by omega)
  rw [decodeWord_uniform N hN (by omega)]
  have e1 : N / 2 ^ 25 % 2 ^ 6 = 0x1a := by omega
  unfold decodeUniform
  rw [toNat_word N hN, e1]
  have e2 : N / 2 ^ 9 % 2 ^ 4 = 7 := by omega
  unfold decodeMx
  rw [toNat_word N hN, e2]
  have g0 := fixed_ofNat N 0 9 0 hN (by omega)
  have g1 := fixed_ofNat N 19 6 0 hN (by omega)
  simp only [g0, g1, f_g, need_true]
  exact accept_ok hd

theorem mfence (t : BitVec 6) (n : BitVec 1) : Statement (.mfence t n) := by
  intro _ hd
  refine ⟨_, rfl, ?_⟩
  have l_t := t.isLt
  have l_n := n.isLt
  simp only [Sys2Proof.put]
  generalize hE : 0xb4001000 + t.toNat * 2 ^ 19 + n.toNat * 2 ^ 8 = N
  have hN : N < 2 ^ 32 := by omega
  have f_t := fld_ofNat N 19 t hN (by omega)
  have f_n := fld_ofNat N 8 n hN (by omega)
  rw [decodeWord_uniform N hN (by omega)]
  have e1 : N / 2 ^ 25 % 2 ^ 6 = 0x1a := by omega
  unfold decodeUniform
  rw [toNat_word N hN, e1]
  have e2 : N / 2 ^ 9 % 2 ^ 4 = 8 := by omega
  unfold decodeMx
  rw [toNat_word N hN, e2]
  have g0 := fixed_ofNat N 0 8 0 hN (by omega)
  have g1 := fixed_ofNat N 13 6 0 hN (by omega)
  simp only [g0, g1, f_t, f_n, need_true]
  exact accept_ok hd

theorem mdetach : Statement .mdetach := fun _ _ => ⟨_, rfl, by decide⟩

theorem tktake (a : BitVec 6) : Statement (.tktake a) := by
  intro _ hd
  refine ⟨_, rfl, ?_⟩
  have l_a := a.isLt
  simp only [Sys2Proof.put]
  generalize hE : 0xb6000000 + a.toNat * 2 ^ 9 = N
  have hN : N < 2 ^ 32 := by omega
  have f_a := fld_ofNat N 9 a hN (by omega)
  rw [decodeWord_uniform N hN (by omega)]
  have e1 : N / 2 ^ 25 % 2 ^ 6 = 0x1b := by omega
  unfold decodeUniform
  rw [toNat_word N hN, e1]
  have e2 : N / 2 ^ 21 % 2 ^ 4 = 0 := by omega
  unfold decodeToken
  rw [toNat_word N hN, e2]
  have g0 := fixed_ofNat N 0 9 0 hN (by omega)
  have g1 := fixed_ofNat N 15 6 0 hN (by omega)
  simp only [g0, g1, f_a, need_true]
  exact accept_ok hd

theorem tkgive (a : BitVec 6) : Statement (.tkgive a) := by
  intro _ hd
  refine ⟨_, rfl, ?_⟩
  have l_a := a.isLt
  simp only [Sys2Proof.put]
  generalize hE : 0xb6200000 + a.toNat * 2 ^ 9 = N
  have hN : N < 2 ^ 32 := by omega
  have f_a := fld_ofNat N 9 a hN (by omega)
  rw [decodeWord_uniform N hN (by omega)]
  have e1 : N / 2 ^ 25 % 2 ^ 6 = 0x1b := by omega
  unfold decodeUniform
  rw [toNat_word N hN, e1]
  have e2 : N / 2 ^ 21 % 2 ^ 4 = 1 := by omega
  unfold decodeToken
  rw [toNat_word N hN, e2]
  have g0 := fixed_ofNat N 0 9 0 hN (by omega)
  have g1 := fixed_ofNat N 15 6 0 hN (by omega)
  simp only [g0, g1, f_a, need_true]
  exact accept_ok hd

theorem tkqry (d : BitVec 6) (a : BitVec 6) : Statement (.tkqry d a) := by
  intro _ hd
  refine ⟨_, rfl, ?_⟩
  have l_d := d.isLt
  have l_a := a.isLt
  simp only [Sys2Proof.put]
  generalize hE : 0xb6400000 + d.toNat * 2 ^ 15 + a.toNat * 2 ^ 9 = N
  have hN : N < 2 ^ 32 := by omega
  have f_d := fld_ofNat N 15 d hN (by omega)
  have f_a := fld_ofNat N 9 a hN (by omega)
  rw [decodeWord_uniform N hN (by omega)]
  have e1 : N / 2 ^ 25 % 2 ^ 6 = 0x1b := by omega
  unfold decodeUniform
  rw [toNat_word N hN, e1]
  have e2 : N / 2 ^ 21 % 2 ^ 4 = 2 := by omega
  unfold decodeToken
  rw [toNat_word N hN, e2]
  have g0 := fixed_ofNat N 0 9 0 hN (by omega)
  simp only [g0, f_d, f_a, need_true]
  exact accept_ok hd

theorem publish (a : BitVec 6) : Statement (.publish a) := by
  intro _ hd
  refine ⟨_, rfl, ?_⟩
  have l_a := a.isLt
  simp only [Sys2Proof.put]
  generalize hE : 0xb8000000 + a.toNat * 2 ^ 9 = N
  have hN : N < 2 ^ 32 := by omega
  have f_a := fld_ofNat N 9 a hN (by omega)
  rw [decodeWord_uniform N hN (by omega)]
  have e1 : N / 2 ^ 25 % 2 ^ 6 = 0x1c := by omega
  unfold decodeUniform
  rw [toNat_word N hN, e1]
  have e2 : N / 2 ^ 21 % 2 ^ 4 = 0 := by omega
  unfold decodePub
  rw [toNat_word N hN, e2]
  have g0 := fixed_ofNat N 0 9 0 hN (by omega)
  have g1 := fixed_ofNat N 15 6 0 hN (by omega)
  simp only [g0, g1, f_a, need_true]
  exact accept_ok hd

theorem pubqry (d : BitVec 6) (a : BitVec 6) : Statement (.pubqry d a) := by
  intro _ hd
  refine ⟨_, rfl, ?_⟩
  have l_d := d.isLt
  have l_a := a.isLt
  simp only [Sys2Proof.put]
  generalize hE : 0xb8200000 + d.toNat * 2 ^ 15 + a.toNat * 2 ^ 9 = N
  have hN : N < 2 ^ 32 := by omega
  have f_d := fld_ofNat N 15 d hN (by omega)
  have f_a := fld_ofNat N 9 a hN (by omega)
  rw [decodeWord_uniform N hN (by omega)]
  have e1 : N / 2 ^ 25 % 2 ^ 6 = 0x1c := by omega
  unfold decodeUniform
  rw [toNat_word N hN, e1]
  have e2 : N / 2 ^ 21 % 2 ^ 4 = 1 := by omega
  unfold decodePub
  rw [toNat_word N hN, e2]
  have g0 := fixed_ofNat N 0 9 0 hN (by omega)
  simp only [g0, f_d, f_a, need_true]
  exact accept_ok hd

theorem pubset (a : BitVec 6) (b : BitVec 6) : Statement (.pubset a b) := by
  intro _ hd
  refine ⟨_, rfl, ?_⟩
  have l_a := a.isLt
  have l_b := b.isLt
  simp only [Sys2Proof.put]
  generalize hE : 0xb8400000 + a.toNat * 2 ^ 9 + b.toNat * 2 ^ 3 = N
  have hN : N < 2 ^ 32 := by omega
  have f_a := fld_ofNat N 9 a hN (by omega)
  have f_b := fld_ofNat N 3 b hN (by omega)
  rw [decodeWord_uniform N hN (by omega)]
  have e1 : N / 2 ^ 25 % 2 ^ 6 = 0x1c := by omega
  unfold decodeUniform
  rw [toNat_word N hN, e1]
  have e2 : N / 2 ^ 21 % 2 ^ 4 = 2 := by omega
  unfold decodePub
  rw [toNat_word N hN, e2]
  have g0 := fixed_ofNat N 0 3 0 hN (by omega)
  have g1 := fixed_ofNat N 15 6 0 hN (by omega)
  simp only [g0, g1, f_a, f_b, need_true]
  exact accept_ok hd

theorem spawn (a : BitVec 6) : Statement (.spawn a) := by
  intro _ hd
  refine ⟨_, rfl, ?_⟩
  have l_a := a.isLt
  simp only [Sys2Proof.put]
  generalize hE : 0xba000000 + a.toNat * 2 ^ 9 = N
  have hN : N < 2 ^ 32 := by omega
  have f_a := fld_ofNat N 9 a hN (by omega)
  rw [decodeWord_uniform N hN (by omega)]
  have e1 : N / 2 ^ 25 % 2 ^ 6 = 0x1d := by omega
  unfold decodeUniform
  rw [toNat_word N hN, e1]
  have e2 : N / 2 ^ 21 % 2 ^ 4 = 0 := by omega
  unfold decodeTask
  rw [toNat_word N hN, e2]
  have g0 := fixed_ofNat N 0 9 0 hN (by omega)
  have g1 := fixed_ofNat N 15 6 0 hN (by omega)
  simp only [g0, g1, f_a, need_true]
  exact accept_ok hd

theorem spawnNb (d : BitVec 6) (a : BitVec 6) : Statement (.spawnNb d a) := by
  intro _ hd
  refine ⟨_, rfl, ?_⟩
  have l_d := d.isLt
  have l_a := a.isLt
  simp only [Sys2Proof.put]
  generalize hE : 0xba200000 + d.toNat * 2 ^ 15 + a.toNat * 2 ^ 9 = N
  have hN : N < 2 ^ 32 := by omega
  have f_d := fld_ofNat N 15 d hN (by omega)
  have f_a := fld_ofNat N 9 a hN (by omega)
  rw [decodeWord_uniform N hN (by omega)]
  have e1 : N / 2 ^ 25 % 2 ^ 6 = 0x1d := by omega
  unfold decodeUniform
  rw [toNat_word N hN, e1]
  have e2 : N / 2 ^ 21 % 2 ^ 4 = 1 := by omega
  unfold decodeTask
  rw [toNat_word N hN, e2]
  have g0 := fixed_ofNat N 0 9 0 hN (by omega)
  simp only [g0, f_d, f_a, need_true]
  exact accept_ok hd

theorem spawng (a : BitVec 6) : Statement (.spawng a) := by
  intro _ hd
  refine ⟨_, rfl, ?_⟩
  have l_a := a.isLt
  simp only [Sys2Proof.put]
  generalize hE : 0xba400000 + a.toNat * 2 ^ 9 = N
  have hN : N < 2 ^ 32 := by omega
  have f_a := fld_ofNat N 9 a hN (by omega)
  rw [decodeWord_uniform N hN (by omega)]
  have e1 : N / 2 ^ 25 % 2 ^ 6 = 0x1d := by omega
  unfold decodeUniform
  rw [toNat_word N hN, e1]
  have e2 : N / 2 ^ 21 % 2 ^ 4 = 2 := by omega
  unfold decodeTask
  rw [toNat_word N hN, e2]
  have g0 := fixed_ofNat N 0 9 0 hN (by omega)
  have g1 := fixed_ofNat N 15 6 0 hN (by omega)
  simp only [g0, g1, f_a, need_true]
  exact accept_ok hd

theorem joindec (a : BitVec 6) : Statement (.joindec a) := by
  intro _ hd
  refine ⟨_, rfl, ?_⟩
  have l_a := a.isLt
  simp only [Sys2Proof.put]
  generalize hE : 0xba600000 + a.toNat * 2 ^ 9 = N
  have hN : N < 2 ^ 32 := by omega
  have f_a := fld_ofNat N 9 a hN (by omega)
  rw [decodeWord_uniform N hN (by omega)]
  have e1 : N / 2 ^ 25 % 2 ^ 6 = 0x1d := by omega
  unfold decodeUniform
  rw [toNat_word N hN, e1]
  have e2 : N / 2 ^ 21 % 2 ^ 4 = 3 := by omega
  unfold decodeTask
  rw [toNat_word N hN, e2]
  have g0 := fixed_ofNat N 0 9 0 hN (by omega)
  have g1 := fixed_ofNat N 15 6 0 hN (by omega)
  simp only [g0, g1, f_a, need_true]
  exact accept_ok hd

theorem depdec (a : BitVec 6) : Statement (.depdec a) := by
  intro _ hd
  refine ⟨_, rfl, ?_⟩
  have l_a := a.isLt
  simp only [Sys2Proof.put]
  generalize hE : 0xba800000 + a.toNat * 2 ^ 9 = N
  have hN : N < 2 ^ 32 := by omega
  have f_a := fld_ofNat N 9 a hN (by omega)
  rw [decodeWord_uniform N hN (by omega)]
  have e1 : N / 2 ^ 25 % 2 ^ 6 = 0x1d := by omega
  unfold decodeUniform
  rw [toNat_word N hN, e1]
  have e2 : N / 2 ^ 21 % 2 ^ 4 = 4 := by omega
  unfold decodeTask
  rw [toNat_word N hN, e2]
  have g0 := fixed_ofNat N 0 9 0 hN (by omega)
  have g1 := fixed_ofNat N 15 6 0 hN (by omega)
  simp only [g0, g1, f_a, need_true]
  exact accept_ok hd

theorem launch (d : BitVec 6) (a : BitVec 6) : Statement (.launch d a) := by
  intro _ hd
  refine ⟨_, rfl, ?_⟩
  have l_d := d.isLt
  have l_a := a.isLt
  simp only [Sys2Proof.put]
  generalize hE : 0xbaa00000 + d.toNat * 2 ^ 15 + a.toNat * 2 ^ 9 = N
  have hN : N < 2 ^ 32 := by omega
  have f_d := fld_ofNat N 15 d hN (by omega)
  have f_a := fld_ofNat N 9 a hN (by omega)
  rw [decodeWord_uniform N hN (by omega)]
  have e1 : N / 2 ^ 25 % 2 ^ 6 = 0x1d := by omega
  unfold decodeUniform
  rw [toNat_word N hN, e1]
  have e2 : N / 2 ^ 21 % 2 ^ 4 = 5 := by omega
  unfold decodeTask
  rw [toNat_word N hN, e2]
  have g0 := fixed_ofNat N 0 9 0 hN (by omega)
  simp only [g0, f_d, f_a, need_true]
  exact accept_ok hd

theorem barc (a : BitVec 6) (b : BitVec 6) : Statement (.barc a b) := by
  intro _ hd
  refine ⟨_, rfl, ?_⟩
  have l_a := a.isLt
  have l_b := b.isLt
  simp only [Sys2Proof.put]
  generalize hE : 0xbac00000 + a.toNat * 2 ^ 9 + b.toNat * 2 ^ 3 = N
  have hN : N < 2 ^ 32 := by omega
  have f_a := fld_ofNat N 9 a hN (by omega)
  have f_b := fld_ofNat N 3 b hN (by omega)
  rw [decodeWord_uniform N hN (by omega)]
  have e1 : N / 2 ^ 25 % 2 ^ 6 = 0x1d := by omega
  unfold decodeUniform
  rw [toNat_word N hN, e1]
  have e2 : N / 2 ^ 21 % 2 ^ 4 = 6 := by omega
  unfold decodeTask
  rw [toNat_word N hN, e2]
  have g0 := fixed_ofNat N 0 3 0 hN (by omega)
  have g1 := fixed_ofNat N 15 6 0 hN (by omega)
  simp only [g0, g1, f_a, f_b, need_true]
  exact accept_ok hd

theorem exit : Statement .exit := fun _ _ => ⟨_, rfl, by decide⟩

theorem cred (t : BitVec 6) (g : BitVec 6) (n : BitVec 1) (r : BitVec 1) (p : BitVec 1) : Statement (.cred t g n r p) := by
  intro _ hd
  refine ⟨_, rfl, ?_⟩
  have l_t := t.isLt
  have l_g := g.isLt
  have l_n := n.isLt
  have l_r := r.isLt
  have l_p := p.isLt
  simp only [Sys2Proof.put]
  generalize hE : 0xbc000000 + t.toNat * 2 ^ 19 + g.toNat * 2 ^ 13 + n.toNat * 2 ^ 8 + r.toNat * 2 ^ 1 + p.toNat * 2 ^ 0 = N
  have hN : N < 2 ^ 32 := by omega
  have f_t := fld_ofNat N 19 t hN (by omega)
  have f_g := fld_ofNat N 13 g hN (by omega)
  have f_n := fld_ofNat N 8 n hN (by omega)
  have f_r := fld_ofNat N 1 r hN (by omega)
  have f_p := fld_ofNat N 0 p hN (by omega)
  rw [decodeWord_uniform N hN (by omega)]
  have e1 : N / 2 ^ 25 % 2 ^ 6 = 0x1e := by omega
  unfold decodeUniform
  rw [toNat_word N hN, e1]
  have e2 : N / 2 ^ 9 % 2 ^ 4 = 0 := by omega
  unfold decodeColl
  rw [toNat_word N hN, e2]
  have g0 := fixed_ofNat N 2 6 0 hN (by omega)
  simp only [g0, f_t, f_g, f_n, f_r, f_p, need_true]
  exact accept_ok hd

theorem cgath (t : BitVec 6) (g : BitVec 6) (n : BitVec 1) (r : BitVec 1) (p : BitVec 1) : Statement (.cgath t g n r p) := by
  intro _ hd
  refine ⟨_, rfl, ?_⟩
  have l_t := t.isLt
  have l_g := g.isLt
  have l_n := n.isLt
  have l_r := r.isLt
  have l_p := p.isLt
  simp only [Sys2Proof.put]
  generalize hE : 0xbc000200 + t.toNat * 2 ^ 19 + g.toNat * 2 ^ 13 + n.toNat * 2 ^ 8 + r.toNat * 2 ^ 1 + p.toNat * 2 ^ 0 = N
  have hN : N < 2 ^ 32 := by omega
  have f_t := fld_ofNat N 19 t hN (by omega)
  have f_g := fld_ofNat N 13 g hN (by omega)
  have f_n := fld_ofNat N 8 n hN (by omega)
  have f_r := fld_ofNat N 1 r hN (by omega)
  have f_p := fld_ofNat N 0 p hN (by omega)
  rw [decodeWord_uniform N hN (by omega)]
  have e1 : N / 2 ^ 25 % 2 ^ 6 = 0x1e := by omega
  unfold decodeUniform
  rw [toNat_word N hN, e1]
  have e2 : N / 2 ^ 9 % 2 ^ 4 = 1 := by omega
  unfold decodeColl
  rw [toNat_word N hN, e2]
  have g0 := fixed_ofNat N 2 6 0 hN (by omega)
  simp only [g0, f_t, f_g, f_n, f_r, f_p, need_true]
  exact accept_ok hd

theorem cbcast (t : BitVec 6) (g : BitVec 6) (n : BitVec 1) (p : BitVec 1) : Statement (.cbcast t g n p) := by
  intro _ hd
  refine ⟨_, rfl, ?_⟩
  have l_t := t.isLt
  have l_g := g.isLt
  have l_n := n.isLt
  have l_p := p.isLt
  simp only [Sys2Proof.put]
  generalize hE : 0xbc000400 + t.toNat * 2 ^ 19 + g.toNat * 2 ^ 13 + n.toNat * 2 ^ 8 + p.toNat * 2 ^ 0 = N
  have hN : N < 2 ^ 32 := by omega
  have f_t := fld_ofNat N 19 t hN (by omega)
  have f_g := fld_ofNat N 13 g hN (by omega)
  have f_n := fld_ofNat N 8 n hN (by omega)
  have f_p := fld_ofNat N 0 p hN (by omega)
  rw [decodeWord_uniform N hN (by omega)]
  have e1 : N / 2 ^ 25 % 2 ^ 6 = 0x1e := by omega
  unfold decodeUniform
  rw [toNat_word N hN, e1]
  have e2 : N / 2 ^ 9 % 2 ^ 4 = 2 := by omega
  unfold decodeColl
  rw [toNat_word N hN, e2]
  have g0 := fixed_ofNat N 1 7 0 hN (by omega)
  simp only [g0, f_t, f_g, f_n, f_p, need_true]
  exact accept_ok hd

theorem cstat (t : BitVec 6) (g : BitVec 6) : Statement (.cstat t g) := by
  intro _ hd
  refine ⟨_, rfl, ?_⟩
  have l_t := t.isLt
  have l_g := g.isLt
  simp only [Sys2Proof.put]
  generalize hE : 0xbc000600 + t.toNat * 2 ^ 19 + g.toNat * 2 ^ 13 = N
  have hN : N < 2 ^ 32 := by omega
  have f_t := fld_ofNat N 19 t hN (by omega)
  have f_g := fld_ofNat N 13 g hN (by omega)
  rw [decodeWord_uniform N hN (by omega)]
  have e1 : N / 2 ^ 25 % 2 ^ 6 = 0x1e := by omega
  unfold decodeUniform
  rw [toNat_word N hN, e1]
  have e2 : N / 2 ^ 9 % 2 ^ 4 = 3 := by omega
  unfold decodeColl
  rw [toNat_word N hN, e2]
  have g0 := fixed_ofNat N 0 9 0 hN (by omega)
  simp only [g0, f_t, f_g, need_true]
  exact accept_ok hd

theorem rdsys (d : BitVec 6) (n : BitVec 12) : Statement (.rdsys d n) := by
  intro _ hd
  refine ⟨_, rfl, ?_⟩
  have l_d := d.isLt
  have l_n := n.isLt
  simp only [Sys2Proof.put]
  generalize hE : 0xbe000000 + d.toNat * 2 ^ 15 + n.toNat * 2 ^ 3 = N
  have hN : N < 2 ^ 32 := by omega
  have f_d := fld_ofNat N 15 d hN (by omega)
  have f_n := fld_ofNat N 3 n hN (by omega)
  rw [decodeWord_uniform N hN (by omega)]
  have e1 : N / 2 ^ 25 % 2 ^ 6 = 0x1f := by omega
  unfold decodeUniform
  rw [toNat_word N hN, e1]
  have e2 : N / 2 ^ 21 % 2 ^ 4 = 0 := by omega
  unfold decodeSys
  rw [toNat_word N hN, e2]
  have g0 := fixed_ofNat N 0 3 0 hN (by omega)
  simp only [g0, f_d, f_n, need_true]
  exact accept_ok hd

theorem wrsys (d : BitVec 6) (n : BitVec 12) : Statement (.wrsys d n) := by
  intro _ hd
  refine ⟨_, rfl, ?_⟩
  have l_d := d.isLt
  have l_n := n.isLt
  simp only [Sys2Proof.put]
  generalize hE : 0xbe200000 + d.toNat * 2 ^ 15 + n.toNat * 2 ^ 3 = N
  have hN : N < 2 ^ 32 := by omega
  have f_d := fld_ofNat N 15 d hN (by omega)
  have f_n := fld_ofNat N 3 n hN (by omega)
  rw [decodeWord_uniform N hN (by omega)]
  have e1 : N / 2 ^ 25 % 2 ^ 6 = 0x1f := by omega
  unfold decodeUniform
  rw [toNat_word N hN, e1]
  have e2 : N / 2 ^ 21 % 2 ^ 4 = 1 := by omega
  unfold decodeSys
  rw [toNat_word N hN, e2]
  have g0 := fixed_ofNat N 0 3 0 hN (by omega)
  simp only [g0, f_d, f_n, need_true]
  exact accept_ok hd

theorem trap (n : BitVec 12) : Statement (.trap n) := by
  intro _ hd
  refine ⟨_, rfl, ?_⟩
  have l_n := n.isLt
  simp only [Sys2Proof.put]
  generalize hE : 0xbe400000 + n.toNat * 2 ^ 3 = N
  have hN : N < 2 ^ 32 := by omega
  have f_n := fld_ofNat N 3 n hN (by omega)
  rw [decodeWord_uniform N hN (by omega)]
  have e1 : N / 2 ^ 25 % 2 ^ 6 = 0x1f := by omega
  unfold decodeUniform
  rw [toNat_word N hN, e1]
  have e2 : N / 2 ^ 21 % 2 ^ 4 = 2 := by omega
  unfold decodeSys
  rw [toNat_word N hN, e2]
  have g0 := fixed_ofNat N 0 3 0 hN (by omega)
  have g1 := fixed_ofNat N 15 6 0 hN (by omega)
  simp only [g0, g1, f_n, need_true]
  exact accept_ok hd

theorem rte : Statement .rte := fun _ _ => ⟨_, rfl, by decide⟩

theorem bkpt (n : BitVec 12) : Statement (.bkpt n) := by
  intro _ hd
  refine ⟨_, rfl, ?_⟩
  have l_n := n.isLt
  simp only [Sys2Proof.put]
  generalize hE : 0xbe800000 + n.toNat * 2 ^ 3 = N
  have hN : N < 2 ^ 32 := by omega
  have f_n := fld_ofNat N 3 n hN (by omega)
  rw [decodeWord_uniform N hN (by omega)]
  have e1 : N / 2 ^ 25 % 2 ^ 6 = 0x1f := by omega
  unfold decodeUniform
  rw [toNat_word N hN, e1]
  have e2 : N / 2 ^ 21 % 2 ^ 4 = 4 := by omega
  unfold decodeSys
  rw [toNat_word N hN, e2]
  have g0 := fixed_ofNat N 0 3 0 hN (by omega)
  have g1 := fixed_ofNat N 15 6 0 hN (by omega)
  simp only [g0, g1, f_n, need_true]
  exact accept_ok hd

theorem yield : Statement .yield := fun _ _ => ⟨_, rfl, by decide⟩

theorem nop : Statement .nop := fun _ _ => ⟨_, rfl, by decide⟩

theorem halt : Statement .halt := fun _ _ => ⟨_, rfl, by decide⟩

theorem rspill (a : BitVec 6) : Statement (.rspill a) := by
  intro _ hd
  refine ⟨_, rfl, ?_⟩
  have l_a := a.isLt
  simp only [Sys2Proof.put]
  generalize hE : 0xbf000000 + a.toNat * 2 ^ 9 = N
  have hN : N < 2 ^ 32 := by omega
  have f_a := fld_ofNat N 9 a hN (by omega)
  rw [decodeWord_uniform N hN (by omega)]
  have e1 : N / 2 ^ 25 % 2 ^ 6 = 0x1f := by omega
  unfold decodeUniform
  rw [toNat_word N hN, e1]
  have e2 : N / 2 ^ 21 % 2 ^ 4 = 8 := by omega
  unfold decodeSys
  rw [toNat_word N hN, e2]
  have g0 := fixed_ofNat N 0 9 0 hN (by omega)
  have g1 := fixed_ofNat N 15 6 0 hN (by omega)
  simp only [g0, g1, f_a, need_true]
  exact accept_ok hd

theorem rfill (a : BitVec 6) : Statement (.rfill a) := by
  intro _ hd
  refine ⟨_, rfl, ?_⟩
  have l_a := a.isLt
  simp only [Sys2Proof.put]
  generalize hE : 0xbf200000 + a.toNat * 2 ^ 9 = N
  have hN : N < 2 ^ 32 := by omega
  have f_a := fld_ofNat N 9 a hN (by omega)
  rw [decodeWord_uniform N hN (by omega)]
  have e1 : N / 2 ^ 25 % 2 ^ 6 = 0x1f := by omega
  unfold decodeUniform
  rw [toNat_word N hN, e1]
  have e2 : N / 2 ^ 21 % 2 ^ 4 = 9 := by omega
  unfold decodeSys
  rw [toNat_word N hN, e2]
  have g0 := fixed_ofNat N 0 9 0 hN (by omega)
  have g1 := fixed_ofNat N 15 6 0 hN (by omega)
  simp only [g0, g1, f_a, need_true]
  exact accept_ok hd

theorem ctxsave (a : BitVec 6) : Statement (.ctxsave a) := by
  intro _ hd
  refine ⟨_, rfl, ?_⟩
  have l_a := a.isLt
  simp only [Sys2Proof.put]
  generalize hE : 0xbf400000 + a.toNat * 2 ^ 9 = N
  have hN : N < 2 ^ 32 := by omega
  have f_a := fld_ofNat N 9 a hN (by omega)
  rw [decodeWord_uniform N hN (by omega)]
  have e1 : N / 2 ^ 25 % 2 ^ 6 = 0x1f := by omega
  unfold decodeUniform
  rw [toNat_word N hN, e1]
  have e2 : N / 2 ^ 21 % 2 ^ 4 = 10 := by omega
  unfold decodeSys
  rw [toNat_word N hN, e2]
  have g0 := fixed_ofNat N 0 9 0 hN (by omega)
  have g1 := fixed_ofNat N 15 6 0 hN (by omega)
  simp only [g0, g1, f_a, need_true]
  exact accept_ok hd

theorem ctxload (a : BitVec 6) : Statement (.ctxload a) := by
  intro _ hd
  refine ⟨_, rfl, ?_⟩
  have l_a := a.isLt
  simp only [Sys2Proof.put]
  generalize hE : 0xbf600000 + a.toNat * 2 ^ 9 = N
  have hN : N < 2 ^ 32 := by omega
  have f_a := fld_ofNat N 9 a hN (by omega)
  rw [decodeWord_uniform N hN (by omega)]
  have e1 : N / 2 ^ 25 % 2 ^ 6 = 0x1f := by omega
  unfold decodeUniform
  rw [toNat_word N hN, e1]
  have e2 : N / 2 ^ 21 % 2 ^ 4 = 11 := by omega
  unfold decodeSys
  rw [toNat_word N hN, e2]
  have g0 := fixed_ofNat N 0 9 0 hN (by omega)
  have g1 := fixed_ofNat N 15 6 0 hN (by omega)
  simp only [g0, g1, f_a, need_true]
  exact accept_ok hd

theorem add (w : BitVec 2) (d : BitVec 7) (a : BitVec 7) (b : BitVec 7) : Statement (.add w d a b) := by
  intro _ hd
  refine ⟨_, rfl, ?_⟩
  have l_w := w.isLt
  have l_d := d.isLt
  have l_a := a.isLt
  have l_b := b.isLt
  simp only [Sys2Proof.put]
  generalize hE : 0x0 + w.toNat * 2 ^ 23 + d.toNat * 2 ^ 16 + a.toNat * 2 ^ 9 + b.toNat * 2 ^ 2 = N
  have hN : N < 2 ^ 32 := by omega
  have f_w := fld_ofNat N 23 w hN (by omega)
  have f_d := fld_ofNat N 16 d hN (by omega)
  have f_a := fld_ofNat N 9 a hN (by omega)
  have f_b := fld_ofNat N 2 b hN (by omega)
  rw [decodeWord_lane N hN (by omega)]
  have e1 : N / 2 ^ 25 % 2 ^ 6 = 0x0 := by omega
  unfold decodeLane
  rw [toNat_word N hN, e1]
  have g0 := fixed_ofNat N 0 2 0 hN (by omega)
  simp only [g0, f_w, f_d, f_a, f_b, need_true]
  exact accept_ok hd

theorem addi (w : BitVec 2) (d : BitVec 7) (a : BitVec 7) (i : BitVec 9) : Statement (.addi w d a i) := by
  intro _ hd
  refine ⟨_, rfl, ?_⟩
  have l_w := w.isLt
  have l_d := d.isLt
  have l_a := a.isLt
  have l_i := i.isLt
  simp only [Sys2Proof.put]
  generalize hE : 0x2000000 + w.toNat * 2 ^ 23 + d.toNat * 2 ^ 16 + a.toNat * 2 ^ 9 + i.toNat * 2 ^ 0 = N
  have hN : N < 2 ^ 32 := by omega
  have f_w := fld_ofNat N 23 w hN (by omega)
  have f_d := fld_ofNat N 16 d hN (by omega)
  have f_a := fld_ofNat N 9 a hN (by omega)
  have f_i := fld_ofNat N 0 i hN (by omega)
  rw [decodeWord_lane N hN (by omega)]
  have e1 : N / 2 ^ 25 % 2 ^ 6 = 0x1 := by omega
  unfold decodeLane
  rw [toNat_word N hN, e1]
  simp only [f_w, f_d, f_a, f_i]
  exact accept_ok hd

theorem sub (w : BitVec 2) (d : BitVec 7) (a : BitVec 7) (b : BitVec 7) : Statement (.sub w d a b) := by
  intro _ hd
  refine ⟨_, rfl, ?_⟩
  have l_w := w.isLt
  have l_d := d.isLt
  have l_a := a.isLt
  have l_b := b.isLt
  simp only [Sys2Proof.put]
  generalize hE : 0x4000000 + w.toNat * 2 ^ 23 + d.toNat * 2 ^ 16 + a.toNat * 2 ^ 9 + b.toNat * 2 ^ 2 = N
  have hN : N < 2 ^ 32 := by omega
  have f_w := fld_ofNat N 23 w hN (by omega)
  have f_d := fld_ofNat N 16 d hN (by omega)
  have f_a := fld_ofNat N 9 a hN (by omega)
  have f_b := fld_ofNat N 2 b hN (by omega)
  rw [decodeWord_lane N hN (by omega)]
  have e1 : N / 2 ^ 25 % 2 ^ 6 = 0x2 := by omega
  unfold decodeLane
  rw [toNat_word N hN, e1]
  have g0 := fixed_ofNat N 0 2 0 hN (by omega)
  simp only [g0, f_w, f_d, f_a, f_b, need_true]
  exact accept_ok hd

theorem mul (w : BitVec 2) (d : BitVec 7) (a : BitVec 7) (b : BitVec 7) : Statement (.mul w d a b) := by
  intro _ hd
  refine ⟨_, rfl, ?_⟩
  have l_w := w.isLt
  have l_d := d.isLt
  have l_a := a.isLt
  have l_b := b.isLt
  simp only [Sys2Proof.put]
  generalize hE : 0x6000000 + w.toNat * 2 ^ 23 + d.toNat * 2 ^ 16 + a.toNat * 2 ^ 9 + b.toNat * 2 ^ 2 = N
  have hN : N < 2 ^ 32 := by omega
  have f_w := fld_ofNat N 23 w hN (by omega)
  have f_d := fld_ofNat N 16 d hN (by omega)
  have f_a := fld_ofNat N 9 a hN (by omega)
  have f_b := fld_ofNat N 2 b hN (by omega)
  rw [decodeWord_lane N hN (by omega)]
  have e1 : N / 2 ^ 25 % 2 ^ 6 = 0x3 := by omega
  unfold decodeLane
  rw [toNat_word N hN, e1]
  have g0 := fixed_ofNat N 0 2 0 hN (by omega)
  simp only [g0, f_w, f_d, f_a, f_b, need_true]
  exact accept_ok hd

theorem mulh (w : BitVec 2) (d : BitVec 7) (a : BitVec 7) (b : BitVec 7) (m : BitVec 1) : Statement (.mulh w d a b m) := by
  intro _ hd
  refine ⟨_, rfl, ?_⟩
  have l_w := w.isLt
  have l_d := d.isLt
  have l_a := a.isLt
  have l_b := b.isLt
  have l_m := m.isLt
  simp only [Sys2Proof.put]
  generalize hE : 0x8000000 + w.toNat * 2 ^ 23 + d.toNat * 2 ^ 16 + a.toNat * 2 ^ 9 + b.toNat * 2 ^ 2 + m.toNat * 2 ^ 0 = N
  have hN : N < 2 ^ 32 := by omega
  have f_w := fld_ofNat N 23 w hN (by omega)
  have f_d := fld_ofNat N 16 d hN (by omega)
  have f_a := fld_ofNat N 9 a hN (by omega)
  have f_b := fld_ofNat N 2 b hN (by omega)
  have f_m := fld_ofNat N 0 m hN (by omega)
  rw [decodeWord_lane N hN (by omega)]
  have e1 : N / 2 ^ 25 % 2 ^ 6 = 0x4 := by omega
  unfold decodeLane
  rw [toNat_word N hN, e1]
  have g0 := fixed_ofNat N 1 1 0 hN (by omega)
  simp only [g0, f_w, f_d, f_a, f_b, f_m, need_true]
  exact accept_ok hd

theorem mad (w : BitVec 2) (d : BitVec 7) (a : BitVec 7) (b : BitVec 7) : Statement (.mad w d a b) := by
  intro _ hd
  refine ⟨_, rfl, ?_⟩
  have l_w := w.isLt
  have l_d := d.isLt
  have l_a := a.isLt
  have l_b := b.isLt
  simp only [Sys2Proof.put]
  generalize hE : 0xa000000 + w.toNat * 2 ^ 23 + d.toNat * 2 ^ 16 + a.toNat * 2 ^ 9 + b.toNat * 2 ^ 2 = N
  have hN : N < 2 ^ 32 := by omega
  have f_w := fld_ofNat N 23 w hN (by omega)
  have f_d := fld_ofNat N 16 d hN (by omega)
  have f_a := fld_ofNat N 9 a hN (by omega)
  have f_b := fld_ofNat N 2 b hN (by omega)
  rw [decodeWord_lane N hN (by omega)]
  have e1 : N / 2 ^ 25 % 2 ^ 6 = 0x5 := by omega
  unfold decodeLane
  rw [toNat_word N hN, e1]
  have g0 := fixed_ofNat N 0 2 0 hN (by omega)
  simp only [g0, f_w, f_d, f_a, f_b, need_true]
  exact accept_ok hd

theorem addsat (w : BitVec 2) (d : BitVec 7) (a : BitVec 7) (b : BitVec 7) (m : BitVec 1) : Statement (.addsat w d a b m) := by
  intro _ hd
  refine ⟨_, rfl, ?_⟩
  have l_w := w.isLt
  have l_d := d.isLt
  have l_a := a.isLt
  have l_b := b.isLt
  have l_m := m.isLt
  simp only [Sys2Proof.put]
  generalize hE : 0xc000000 + w.toNat * 2 ^ 23 + d.toNat * 2 ^ 16 + a.toNat * 2 ^ 9 + b.toNat * 2 ^ 2 + m.toNat * 2 ^ 0 = N
  have hN : N < 2 ^ 32 := by omega
  have f_w := fld_ofNat N 23 w hN (by omega)
  have f_d := fld_ofNat N 16 d hN (by omega)
  have f_a := fld_ofNat N 9 a hN (by omega)
  have f_b := fld_ofNat N 2 b hN (by omega)
  have f_m := fld_ofNat N 0 m hN (by omega)
  rw [decodeWord_lane N hN (by omega)]
  have e1 : N / 2 ^ 25 % 2 ^ 6 = 0x6 := by omega
  unfold decodeLane
  rw [toNat_word N hN, e1]
  have g0 := fixed_ofNat N 1 1 0 hN (by omega)
  simp only [g0, f_w, f_d, f_a, f_b, f_m, need_true]
  exact accept_ok hd

theorem subsat (w : BitVec 2) (d : BitVec 7) (a : BitVec 7) (b : BitVec 7) (m : BitVec 1) : Statement (.subsat w d a b m) := by
  intro _ hd
  refine ⟨_, rfl, ?_⟩
  have l_w := w.isLt
  have l_d := d.isLt
  have l_a := a.isLt
  have l_b := b.isLt
  have l_m := m.isLt
  simp only [Sys2Proof.put]
  generalize hE : 0xe000000 + w.toNat * 2 ^ 23 + d.toNat * 2 ^ 16 + a.toNat * 2 ^ 9 + b.toNat * 2 ^ 2 + m.toNat * 2 ^ 0 = N
  have hN : N < 2 ^ 32 := by omega
  have f_w := fld_ofNat N 23 w hN (by omega)
  have f_d := fld_ofNat N 16 d hN (by omega)
  have f_a := fld_ofNat N 9 a hN (by omega)
  have f_b := fld_ofNat N 2 b hN (by omega)
  have f_m := fld_ofNat N 0 m hN (by omega)
  rw [decodeWord_lane N hN (by omega)]
  have e1 : N / 2 ^ 25 % 2 ^ 6 = 0x7 := by omega
  unfold decodeLane
  rw [toNat_word N hN, e1]
  have g0 := fixed_ofNat N 1 1 0 hN (by omega)
  simp only [g0, f_w, f_d, f_a, f_b, f_m, need_true]
  exact accept_ok hd

theorem min (w : BitVec 2) (d : BitVec 7) (a : BitVec 7) (b : BitVec 7) (m : BitVec 1) : Statement (.min w d a b m) := by
  intro _ hd
  refine ⟨_, rfl, ?_⟩
  have l_w := w.isLt
  have l_d := d.isLt
  have l_a := a.isLt
  have l_b := b.isLt
  have l_m := m.isLt
  simp only [Sys2Proof.put]
  generalize hE : 0x10000000 + w.toNat * 2 ^ 23 + d.toNat * 2 ^ 16 + a.toNat * 2 ^ 9 + b.toNat * 2 ^ 2 + m.toNat * 2 ^ 0 = N
  have hN : N < 2 ^ 32 := by omega
  have f_w := fld_ofNat N 23 w hN (by omega)
  have f_d := fld_ofNat N 16 d hN (by omega)
  have f_a := fld_ofNat N 9 a hN (by omega)
  have f_b := fld_ofNat N 2 b hN (by omega)
  have f_m := fld_ofNat N 0 m hN (by omega)
  rw [decodeWord_lane N hN (by omega)]
  have e1 : N / 2 ^ 25 % 2 ^ 6 = 0x8 := by omega
  unfold decodeLane
  rw [toNat_word N hN, e1]
  have g0 := fixed_ofNat N 1 1 0 hN (by omega)
  simp only [g0, f_w, f_d, f_a, f_b, f_m, need_true]
  exact accept_ok hd

theorem max (w : BitVec 2) (d : BitVec 7) (a : BitVec 7) (b : BitVec 7) (m : BitVec 1) : Statement (.max w d a b m) := by
  intro _ hd
  refine ⟨_, rfl, ?_⟩
  have l_w := w.isLt
  have l_d := d.isLt
  have l_a := a.isLt
  have l_b := b.isLt
  have l_m := m.isLt
  simp only [Sys2Proof.put]
  generalize hE : 0x12000000 + w.toNat * 2 ^ 23 + d.toNat * 2 ^ 16 + a.toNat * 2 ^ 9 + b.toNat * 2 ^ 2 + m.toNat * 2 ^ 0 = N
  have hN : N < 2 ^ 32 := by omega
  have f_w := fld_ofNat N 23 w hN (by omega)
  have f_d := fld_ofNat N 16 d hN (by omega)
  have f_a := fld_ofNat N 9 a hN (by omega)
  have f_b := fld_ofNat N 2 b hN (by omega)
  have f_m := fld_ofNat N 0 m hN (by omega)
  rw [decodeWord_lane N hN (by omega)]
  have e1 : N / 2 ^ 25 % 2 ^ 6 = 0x9 := by omega
  unfold decodeLane
  rw [toNat_word N hN, e1]
  have g0 := fixed_ofNat N 1 1 0 hN (by omega)
  simp only [g0, f_w, f_d, f_a, f_b, f_m, need_true]
  exact accept_ok hd

theorem abs (w : BitVec 2) (d : BitVec 7) (a : BitVec 7) : Statement (.abs w d a) := by
  intro _ hd
  refine ⟨_, rfl, ?_⟩
  have l_w := w.isLt
  have l_d := d.isLt
  have l_a := a.isLt
  simp only [Sys2Proof.put]
  generalize hE : 0x14000000 + w.toNat * 2 ^ 23 + d.toNat * 2 ^ 16 + a.toNat * 2 ^ 9 = N
  have hN : N < 2 ^ 32 := by omega
  have f_w := fld_ofNat N 23 w hN (by omega)
  have f_d := fld_ofNat N 16 d hN (by omega)
  have f_a := fld_ofNat N 9 a hN (by omega)
  rw [decodeWord_lane N hN (by omega)]
  have e1 : N / 2 ^ 25 % 2 ^ 6 = 0xa := by omega
  unfold decodeLane
  rw [toNat_word N hN, e1]
  have e2 : N / 2 ^ 2 % 2 ^ 7 = 0 := by omega
  unfold decodeUna
  rw [toNat_word N hN, e2]
  have g0 := fixed_ofNat N 0 2 0 hN (by omega)
  simp only [g0, f_w, f_d, f_a, need_true]
  exact accept_ok hd

theorem neg (w : BitVec 2) (d : BitVec 7) (a : BitVec 7) : Statement (.neg w d a) := by
  intro _ hd
  refine ⟨_, rfl, ?_⟩
  have l_w := w.isLt
  have l_d := d.isLt
  have l_a := a.isLt
  simp only [Sys2Proof.put]
  generalize hE : 0x14000004 + w.toNat * 2 ^ 23 + d.toNat * 2 ^ 16 + a.toNat * 2 ^ 9 = N
  have hN : N < 2 ^ 32 := by omega
  have f_w := fld_ofNat N 23 w hN (by omega)
  have f_d := fld_ofNat N 16 d hN (by omega)
  have f_a := fld_ofNat N 9 a hN (by omega)
  rw [decodeWord_lane N hN (by omega)]
  have e1 : N / 2 ^ 25 % 2 ^ 6 = 0xa := by omega
  unfold decodeLane
  rw [toNat_word N hN, e1]
  have e2 : N / 2 ^ 2 % 2 ^ 7 = 1 := by omega
  unfold decodeUna
  rw [toNat_word N hN, e2]
  have g0 := fixed_ofNat N 0 2 0 hN (by omega)
  simp only [g0, f_w, f_d, f_a, need_true]
  exact accept_ok hd

theorem not (w : BitVec 2) (d : BitVec 7) (a : BitVec 7) : Statement (.not w d a) := by
  intro _ hd
  refine ⟨_, rfl, ?_⟩
  have l_w := w.isLt
  have l_d := d.isLt
  have l_a := a.isLt
  simp only [Sys2Proof.put]
  generalize hE : 0x14000008 + w.toNat * 2 ^ 23 + d.toNat * 2 ^ 16 + a.toNat * 2 ^ 9 = N
  have hN : N < 2 ^ 32 := by omega
  have f_w := fld_ofNat N 23 w hN (by omega)
  have f_d := fld_ofNat N 16 d hN (by omega)
  have f_a := fld_ofNat N 9 a hN (by omega)
  rw [decodeWord_lane N hN (by omega)]
  have e1 : N / 2 ^ 25 % 2 ^ 6 = 0xa := by omega
  unfold decodeLane
  rw [toNat_word N hN, e1]
  have e2 : N / 2 ^ 2 % 2 ^ 7 = 2 := by omega
  unfold decodeUna
  rw [toNat_word N hN, e2]
  have g0 := fixed_ofNat N 0 2 0 hN (by omega)
  simp only [g0, f_w, f_d, f_a, need_true]
  exact accept_ok hd

theorem clz (w : BitVec 2) (d : BitVec 7) (a : BitVec 7) : Statement (.clz w d a) := by
  intro _ hd
  refine ⟨_, rfl, ?_⟩
  have l_w := w.isLt
  have l_d := d.isLt
  have l_a := a.isLt
  simp only [Sys2Proof.put]
  generalize hE : 0x1400000c + w.toNat * 2 ^ 23 + d.toNat * 2 ^ 16 + a.toNat * 2 ^ 9 = N
  have hN : N < 2 ^ 32 := by omega
  have f_w := fld_ofNat N 23 w hN (by omega)
  have f_d := fld_ofNat N 16 d hN (by omega)
  have f_a := fld_ofNat N 9 a hN (by omega)
  rw [decodeWord_lane N hN (by omega)]
  have e1 : N / 2 ^ 25 % 2 ^ 6 = 0xa := by omega
  unfold decodeLane
  rw [toNat_word N hN, e1]
  have e2 : N / 2 ^ 2 % 2 ^ 7 = 3 := by omega
  unfold decodeUna
  rw [toNat_word N hN, e2]
  have g0 := fixed_ofNat N 0 2 0 hN (by omega)
  simp only [g0, f_w, f_d, f_a, need_true]
  exact accept_ok hd

theorem popc (w : BitVec 2) (d : BitVec 7) (a : BitVec 7) : Statement (.popc w d a) := by
  intro _ hd
  refine ⟨_, rfl, ?_⟩
  have l_w := w.isLt
  have l_d := d.isLt
  have l_a := a.isLt
  simp only [Sys2Proof.put]
  generalize hE : 0x14000010 + w.toNat * 2 ^ 23 + d.toNat * 2 ^ 16 + a.toNat * 2 ^ 9 = N
  have hN : N < 2 ^ 32 := by omega
  have f_w := fld_ofNat N 23 w hN (by omega)
  have f_d := fld_ofNat N 16 d hN (by omega)
  have f_a := fld_ofNat N 9 a hN (by omega)
  rw [decodeWord_lane N hN (by omega)]
  have e1 : N / 2 ^ 25 % 2 ^ 6 = 0xa := by omega
  unfold decodeLane
  rw [toNat_word N hN, e1]
  have e2 : N / 2 ^ 2 % 2 ^ 7 = 4 := by omega
  unfold decodeUna
  rw [toNat_word N hN, e2]
  have g0 := fixed_ofNat N 0 2 0 hN (by omega)
  simp only [g0, f_w, f_d, f_a, need_true]
  exact accept_ok hd

theorem brev (w : BitVec 2) (d : BitVec 7) (a : BitVec 7) : Statement (.brev w d a) := by
  intro _ hd
  refine ⟨_, rfl, ?_⟩
  have l_w := w.isLt
  have l_d := d.isLt
  have l_a := a.isLt
  simp only [Sys2Proof.put]
  generalize hE : 0x14000014 + w.toNat * 2 ^ 23 + d.toNat * 2 ^ 16 + a.toNat * 2 ^ 9 = N
  have hN : N < 2 ^ 32 := by omega
  have f_w := fld_ofNat N 23 w hN (by omega)
  have f_d := fld_ofNat N 16 d hN (by omega)
  have f_a := fld_ofNat N 9 a hN (by omega)
  rw [decodeWord_lane N hN (by omega)]
  have e1 : N / 2 ^ 25 % 2 ^ 6 = 0xa := by omega
  unfold decodeLane
  rw [toNat_word N hN, e1]
  have e2 : N / 2 ^ 2 % 2 ^ 7 = 5 := by omega
  unfold decodeUna
  rw [toNat_word N hN, e2]
  have g0 := fixed_ofNat N 0 2 0 hN (by omega)
  simp only [g0, f_w, f_d, f_a, need_true]
  exact accept_ok hd

theorem mov (w : BitVec 2) (d : BitVec 7) (a : BitVec 7) : Statement (.mov w d a) := by
  intro _ hd
  refine ⟨_, rfl, ?_⟩
  have l_w := w.isLt
  have l_d := d.isLt
  have l_a := a.isLt
  simp only [Sys2Proof.put]
  generalize hE : 0x14000018 + w.toNat * 2 ^ 23 + d.toNat * 2 ^ 16 + a.toNat * 2 ^ 9 = N
  have hN : N < 2 ^ 32 := by omega
  have f_w := fld_ofNat N 23 w hN (by omega)
  have f_d := fld_ofNat N 16 d hN (by omega)
  have f_a := fld_ofNat N 9 a hN (by omega)
  rw [decodeWord_lane N hN (by omega)]
  have e1 : N / 2 ^ 25 % 2 ^ 6 = 0xa := by omega
  unfold decodeLane
  rw [toNat_word N hN, e1]
  have e2 : N / 2 ^ 2 % 2 ^ 7 = 6 := by omega
  unfold decodeUna
  rw [toNat_word N hN, e2]
  have g0 := fixed_ofNat N 0 2 0 hN (by omega)
  simp only [g0, f_w, f_d, f_a, need_true]
  exact accept_ok hd

theorem and (w : BitVec 2) (d : BitVec 7) (a : BitVec 7) (b : BitVec 7) : Statement (.and w d a b) := by
  intro _ hd
  refine ⟨_, rfl, ?_⟩
  have l_w := w.isLt
  have l_d := d.isLt
  have l_a := a.isLt
  have l_b := b.isLt
  simp only [Sys2Proof.put]
  generalize hE : 0x16000000 + w.toNat * 2 ^ 23 + d.toNat * 2 ^ 16 + a.toNat * 2 ^ 9 + b.toNat * 2 ^ 2 = N
  have hN : N < 2 ^ 32 := by omega
  have f_w := fld_ofNat N 23 w hN (by omega)
  have f_d := fld_ofNat N 16 d hN (by omega)
  have f_a := fld_ofNat N 9 a hN (by omega)
  have f_b := fld_ofNat N 2 b hN (by omega)
  rw [decodeWord_lane N hN (by omega)]
  have e1 : N / 2 ^ 25 % 2 ^ 6 = 0xb := by omega
  unfold decodeLane
  rw [toNat_word N hN, e1]
  have g0 := fixed_ofNat N 0 2 0 hN (by omega)
  simp only [g0, f_w, f_d, f_a, f_b, need_true]
  exact accept_ok hd

theorem or (w : BitVec 2) (d : BitVec 7) (a : BitVec 7) (b : BitVec 7) : Statement (.or w d a b) := by
  intro _ hd
  refine ⟨_, rfl, ?_⟩
  have l_w := w.isLt
  have l_d := d.isLt
  have l_a := a.isLt
  have l_b := b.isLt
  simp only [Sys2Proof.put]
  generalize hE : 0x18000000 + w.toNat * 2 ^ 23 + d.toNat * 2 ^ 16 + a.toNat * 2 ^ 9 + b.toNat * 2 ^ 2 = N
  have hN : N < 2 ^ 32 := by omega
  have f_w := fld_ofNat N 23 w hN (by omega)
  have f_d := fld_ofNat N 16 d hN (by omega)
  have f_a := fld_ofNat N 9 a hN (by omega)
  have f_b := fld_ofNat N 2 b hN (by omega)
  rw [decodeWord_lane N hN (by omega)]
  have e1 : N / 2 ^ 25 % 2 ^ 6 = 0xc := by omega
  unfold decodeLane
  rw [toNat_word N hN, e1]
  have g0 := fixed_ofNat N 0 2 0 hN (by omega)
  simp only [g0, f_w, f_d, f_a, f_b, need_true]
  exact accept_ok hd

theorem xor (w : BitVec 2) (d : BitVec 7) (a : BitVec 7) (b : BitVec 7) : Statement (.xor w d a b) := by
  intro _ hd
  refine ⟨_, rfl, ?_⟩
  have l_w := w.isLt
  have l_d := d.isLt
  have l_a := a.isLt
  have l_b := b.isLt
  simp only [Sys2Proof.put]
  generalize hE : 0x1a000000 + w.toNat * 2 ^ 23 + d.toNat * 2 ^ 16 + a.toNat * 2 ^ 9 + b.toNat * 2 ^ 2 = N
  have hN : N < 2 ^ 32 := by omega
  have f_w := fld_ofNat N 23 w hN (by omega)
  have f_d := fld_ofNat N 16 d hN (by omega)
  have f_a := fld_ofNat N 9 a hN (by omega)
  have f_b := fld_ofNat N 2 b hN (by omega)
  rw [decodeWord_lane N hN (by omega)]
  have e1 : N / 2 ^ 25 % 2 ^ 6 = 0xd := by omega
  unfold decodeLane
  rw [toNat_word N hN, e1]
  have g0 := fixed_ofNat N 0 2 0 hN (by omega)
  simp only [g0, f_w, f_d, f_a, f_b, need_true]
  exact accept_ok hd

theorem andn (w : BitVec 2) (d : BitVec 7) (a : BitVec 7) (b : BitVec 7) : Statement (.andn w d a b) := by
  intro _ hd
  refine ⟨_, rfl, ?_⟩
  have l_w := w.isLt
  have l_d := d.isLt
  have l_a := a.isLt
  have l_b := b.isLt
  simp only [Sys2Proof.put]
  generalize hE : 0x1c000000 + w.toNat * 2 ^ 23 + d.toNat * 2 ^ 16 + a.toNat * 2 ^ 9 + b.toNat * 2 ^ 2 = N
  have hN : N < 2 ^ 32 := by omega
  have f_w := fld_ofNat N 23 w hN (by omega)
  have f_d := fld_ofNat N 16 d hN (by omega)
  have f_a := fld_ofNat N 9 a hN (by omega)
  have f_b := fld_ofNat N 2 b hN (by omega)
  rw [decodeWord_lane N hN (by omega)]
  have e1 : N / 2 ^ 25 % 2 ^ 6 = 0xe := by omega
  unfold decodeLane
  rw [toNat_word N hN, e1]
  have g0 := fixed_ofNat N 0 2 0 hN (by omega)
  simp only [g0, f_w, f_d, f_a, f_b, need_true]
  exact accept_ok hd

theorem shl (w : BitVec 2) (d : BitVec 7) (a : BitVec 7) (b : BitVec 7) : Statement (.shl w d a b) := by
  intro _ hd
  refine ⟨_, rfl, ?_⟩
  have l_w := w.isLt
  have l_d := d.isLt
  have l_a := a.isLt
  have l_b := b.isLt
  simp only [Sys2Proof.put]
  generalize hE : 0x1e000000 + w.toNat * 2 ^ 23 + d.toNat * 2 ^ 16 + a.toNat * 2 ^ 9 + b.toNat * 2 ^ 2 = N
  have hN : N < 2 ^ 32 := by omega
  have f_w := fld_ofNat N 23 w hN (by omega)
  have f_d := fld_ofNat N 16 d hN (by omega)
  have f_a := fld_ofNat N 9 a hN (by omega)
  have f_b := fld_ofNat N 2 b hN (by omega)
  rw [decodeWord_lane N hN (by omega)]
  have e1 : N / 2 ^ 25 % 2 ^ 6 = 0xf := by omega
  unfold decodeLane
  rw [toNat_word N hN, e1]
  have g0 := fixed_ofNat N 0 2 0 hN (by omega)
  simp only [g0, f_w, f_d, f_a, f_b, need_true]
  exact accept_ok hd

theorem shr (w : BitVec 2) (d : BitVec 7) (a : BitVec 7) (b : BitVec 7) : Statement (.shr w d a b) := by
  intro _ hd
  refine ⟨_, rfl, ?_⟩
  have l_w := w.isLt
  have l_d := d.isLt
  have l_a := a.isLt
  have l_b := b.isLt
  simp only [Sys2Proof.put]
  generalize hE : 0x20000000 + w.toNat * 2 ^ 23 + d.toNat * 2 ^ 16 + a.toNat * 2 ^ 9 + b.toNat * 2 ^ 2 = N
  have hN : N < 2 ^ 32 := by omega
  have f_w := fld_ofNat N 23 w hN (by omega)
  have f_d := fld_ofNat N 16 d hN (by omega)
  have f_a := fld_ofNat N 9 a hN (by omega)
  have f_b := fld_ofNat N 2 b hN (by omega)
  rw [decodeWord_lane N hN (by omega)]
  have e1 : N / 2 ^ 25 % 2 ^ 6 = 0x10 := by omega
  unfold decodeLane
  rw [toNat_word N hN, e1]
  have g0 := fixed_ofNat N 0 2 0 hN (by omega)
  simp only [g0, f_w, f_d, f_a, f_b, need_true]
  exact accept_ok hd

theorem sar (w : BitVec 2) (d : BitVec 7) (a : BitVec 7) (b : BitVec 7) : Statement (.sar w d a b) := by
  intro _ hd
  refine ⟨_, rfl, ?_⟩
  have l_w := w.isLt
  have l_d := d.isLt
  have l_a := a.isLt
  have l_b := b.isLt
  simp only [Sys2Proof.put]
  generalize hE : 0x22000000 + w.toNat * 2 ^ 23 + d.toNat * 2 ^ 16 + a.toNat * 2 ^ 9 + b.toNat * 2 ^ 2 = N
  have hN : N < 2 ^ 32 := by omega
  have f_w := fld_ofNat N 23 w hN (by omega)
  have f_d := fld_ofNat N 16 d hN (by omega)
  have f_a := fld_ofNat N 9 a hN (by omega)
  have f_b := fld_ofNat N 2 b hN (by omega)
  rw [decodeWord_lane N hN (by omega)]
  have e1 : N / 2 ^ 25 % 2 ^ 6 = 0x11 := by omega
  unfold decodeLane
  rw [toNat_word N hN, e1]
  have g0 := fixed_ofNat N 0 2 0 hN (by omega)
  simp only [g0, f_w, f_d, f_a, f_b, need_true]
  exact accept_ok hd

theorem shli (w : BitVec 2) (d : BitVec 7) (a : BitVec 7) (i : BitVec 9) : Statement (.shli w d a i) := by
  intro _ hd
  refine ⟨_, rfl, ?_⟩
  have l_w := w.isLt
  have l_d := d.isLt
  have l_a := a.isLt
  have l_i := i.isLt
  simp only [Sys2Proof.put]
  generalize hE : 0x24000000 + w.toNat * 2 ^ 23 + d.toNat * 2 ^ 16 + a.toNat * 2 ^ 9 + i.toNat * 2 ^ 0 = N
  have hN : N < 2 ^ 32 := by omega
  have f_w := fld_ofNat N 23 w hN (by omega)
  have f_d := fld_ofNat N 16 d hN (by omega)
  have f_a := fld_ofNat N 9 a hN (by omega)
  have f_i := fld_ofNat N 0 i hN (by omega)
  rw [decodeWord_lane N hN (by omega)]
  have e1 : N / 2 ^ 25 % 2 ^ 6 = 0x12 := by omega
  unfold decodeLane
  rw [toNat_word N hN, e1]
  simp only [f_w, f_d, f_a, f_i]
  exact accept_ok hd

theorem shri (w : BitVec 2) (d : BitVec 7) (a : BitVec 7) (i : BitVec 9) : Statement (.shri w d a i) := by
  intro _ hd
  refine ⟨_, rfl, ?_⟩
  have l_w := w.isLt
  have l_d := d.isLt
  have l_a := a.isLt
  have l_i := i.isLt
  simp only [Sys2Proof.put]
  generalize hE : 0x26000000 + w.toNat * 2 ^ 23 + d.toNat * 2 ^ 16 + a.toNat * 2 ^ 9 + i.toNat * 2 ^ 0 = N
  have hN : N < 2 ^ 32 := by omega
  have f_w := fld_ofNat N 23 w hN (by omega)
  have f_d := fld_ofNat N 16 d hN (by omega)
  have f_a := fld_ofNat N 9 a hN (by omega)
  have f_i := fld_ofNat N 0 i hN (by omega)
  rw [decodeWord_lane N hN (by omega)]
  have e1 : N / 2 ^ 25 % 2 ^ 6 = 0x13 := by omega
  unfold decodeLane
  rw [toNat_word N hN, e1]
  simp only [f_w, f_d, f_a, f_i]
  exact accept_ok hd

theorem sari (w : BitVec 2) (d : BitVec 7) (a : BitVec 7) (i : BitVec 9) : Statement (.sari w d a i) := by
  intro _ hd
  refine ⟨_, rfl, ?_⟩
  have l_w := w.isLt
  have l_d := d.isLt
  have l_a := a.isLt
  have l_i := i.isLt
  simp only [Sys2Proof.put]
  generalize hE : 0x28000000 + w.toNat * 2 ^ 23 + d.toNat * 2 ^ 16 + a.toNat * 2 ^ 9 + i.toNat * 2 ^ 0 = N
  have hN : N < 2 ^ 32 := by omega
  have f_w := fld_ofNat N 23 w hN (by omega)
  have f_d := fld_ofNat N 16 d hN (by omega)
  have f_a := fld_ofNat N 9 a hN (by omega)
  have f_i := fld_ofNat N 0 i hN (by omega)
  rw [decodeWord_lane N hN (by omega)]
  have e1 : N / 2 ^ 25 % 2 ^ 6 = 0x14 := by omega
  unfold decodeLane
  rw [toNat_word N hN, e1]
  simp only [f_w, f_d, f_a, f_i]
  exact accept_ok hd

theorem movi (w : BitVec 2) (d : BitVec 7) (i : BitVec 9) : Statement (.movi w d i) := by
  intro _ hd
  refine ⟨_, rfl, ?_⟩
  have l_w := w.isLt
  have l_d := d.isLt
  have l_i := i.isLt
  simp only [Sys2Proof.put]
  generalize hE : 0x2a000000 + w.toNat * 2 ^ 23 + d.toNat * 2 ^ 16 + i.toNat * 2 ^ 0 = N
  have hN : N < 2 ^ 32 := by omega
  have f_w := fld_ofNat N 23 w hN (by omega)
  have f_d := fld_ofNat N 16 d hN (by omega)
  have f_i := fld_ofNat N 0 i hN (by omega)
  rw [decodeWord_lane N hN (by omega)]
  have e1 : N / 2 ^ 25 % 2 ^ 6 = 0x15 := by omega
  unfold decodeLane
  rw [toNat_word N hN, e1]
  have g0 := fixed_ofNat N 9 7 0 hN (by omega)
  simp only [g0, f_w, f_d, f_i, need_true]
  exact accept_ok hd

theorem bcast (w : BitVec 2) (d : BitVec 7) (s : BitVec 6) : Statement (.bcast w d s) := by
  intro _ hd
  refine ⟨_, rfl, ?_⟩
  have l_w := w.isLt
  have l_d := d.isLt
  have l_s := s.isLt
  simp only [Sys2Proof.put]
  generalize hE : 0x2c000000 + w.toNat * 2 ^ 23 + d.toNat * 2 ^ 16 + s.toNat * 2 ^ 3 = N
  have hN : N < 2 ^ 32 := by omega
  have f_w := fld_ofNat N 23 w hN (by omega)
  have f_d := fld_ofNat N 16 d hN (by omega)
  have f_s := fld_ofNat N 3 s hN (by omega)
  rw [decodeWord_lane N hN (by omega)]
  have e1 : N / 2 ^ 25 % 2 ^ 6 = 0x16 := by omega
  unfold decodeLane
  rw [toNat_word N hN, e1]
  have g0 := fixed_ofNat N 0 3 0 hN (by omega)
  have g1 := fixed_ofNat N 9 7 0 hN (by omega)
  simp only [g0, g1, f_w, f_d, f_s, need_true]
  exact accept_ok hd

theorem cmp (w : BitVec 2) (d : BitVec 7) (a : BitVec 7) (b : BitVec 7) (m : BitVec 2) : Statement (.cmp w d a b m) := by
  intro _ hd
  refine ⟨_, rfl, ?_⟩
  have l_w := w.isLt
  have l_d := d.isLt
  have l_a := a.isLt
  have l_b := b.isLt
  have l_m := m.isLt
  simp only [Sys2Proof.put]
  generalize hE : 0x2e000000 + w.toNat * 2 ^ 23 + d.toNat * 2 ^ 16 + a.toNat * 2 ^ 9 + b.toNat * 2 ^ 2 + m.toNat * 2 ^ 0 = N
  have hN : N < 2 ^ 32 := by omega
  have f_w := fld_ofNat N 23 w hN (by omega)
  have f_d := fld_ofNat N 16 d hN (by omega)
  have f_a := fld_ofNat N 9 a hN (by omega)
  have f_b := fld_ofNat N 2 b hN (by omega)
  have f_m := fld_ofNat N 0 m hN (by omega)
  rw [decodeWord_lane N hN (by omega)]
  have e1 : N / 2 ^ 25 % 2 ^ 6 = 0x17 := by omega
  unfold decodeLane
  rw [toNat_word N hN, e1]
  simp only [f_w, f_d, f_a, f_b, f_m]
  exact accept_ok hd

theorem cmpz (w : BitVec 2) (d : BitVec 7) (a : BitVec 7) (b : BitVec 7) (m : BitVec 2) : Statement (.cmpz w d a b m) := by
  intro _ hd
  refine ⟨_, rfl, ?_⟩
  have l_w := w.isLt
  have l_d := d.isLt
  have l_a := a.isLt
  have l_b := b.isLt
  have l_m := m.isLt
  simp only [Sys2Proof.put]
  generalize hE : 0x30000000 + w.toNat * 2 ^ 23 + d.toNat * 2 ^ 16 + a.toNat * 2 ^ 9 + b.toNat * 2 ^ 2 + m.toNat * 2 ^ 0 = N
  have hN : N < 2 ^ 32 := by omega
  have f_w := fld_ofNat N 23 w hN (by omega)
  have f_d := fld_ofNat N 16 d hN (by omega)
  have f_a := fld_ofNat N 9 a hN (by omega)
  have f_b := fld_ofNat N 2 b hN (by omega)
  have f_m := fld_ofNat N 0 m hN (by omega)
  rw [decodeWord_lane N hN (by omega)]
  have e1 : N / 2 ^ 25 % 2 ^ 6 = 0x18 := by omega
  unfold decodeLane
  rw [toNat_word N hN, e1]
  simp only [f_w, f_d, f_a, f_b, f_m]
  exact accept_ok hd

theorem fcmp (w : BitVec 2) (d : BitVec 7) (a : BitVec 7) (b : BitVec 7) (m : BitVec 2) : Statement (.fcmp w d a b m) := by
  intro _ hd
  refine ⟨_, rfl, ?_⟩
  have l_w := w.isLt
  have l_d := d.isLt
  have l_a := a.isLt
  have l_b := b.isLt
  have l_m := m.isLt
  simp only [Sys2Proof.put]
  generalize hE : 0x32000000 + w.toNat * 2 ^ 23 + d.toNat * 2 ^ 16 + a.toNat * 2 ^ 9 + b.toNat * 2 ^ 2 + m.toNat * 2 ^ 0 = N
  have hN : N < 2 ^ 32 := by omega
  have f_w := fld_ofNat N 23 w hN (by omega)
  have f_d := fld_ofNat N 16 d hN (by omega)
  have f_a := fld_ofNat N 9 a hN (by omega)
  have f_b := fld_ofNat N 2 b hN (by omega)
  have f_m := fld_ofNat N 0 m hN (by omega)
  rw [decodeWord_lane N hN (by omega)]
  have e1 : N / 2 ^ 25 % 2 ^ 6 = 0x19 := by omega
  unfold decodeLane
  rw [toNat_word N hN, e1]
  simp only [f_w, f_d, f_a, f_b, f_m]
  exact accept_ok hd

theorem bfx (w : BitVec 2) (d : BitVec 7) (a : BitVec 7) (b : BitVec 7) (m : BitVec 1) : Statement (.bfx w d a b m) := by
  intro _ hd
  refine ⟨_, rfl, ?_⟩
  have l_w := w.isLt
  have l_d := d.isLt
  have l_a := a.isLt
  have l_b := b.isLt
  have l_m := m.isLt
  simp only [Sys2Proof.put]
  generalize hE : 0x34000000 + w.toNat * 2 ^ 23 + d.toNat * 2 ^ 16 + a.toNat * 2 ^ 9 + b.toNat * 2 ^ 2 + m.toNat * 2 ^ 0 = N
  have hN : N < 2 ^ 32 := by omega
  have f_w := fld_ofNat N 23 w hN (by omega)
  have f_d := fld_ofNat N 16 d hN (by omega)
  have f_a := fld_ofNat N 9 a hN (by omega)
  have f_b := fld_ofNat N 2 b hN (by omega)
  have f_m := fld_ofNat N 0 m hN (by omega)
  rw [decodeWord_lane N hN (by omega)]
  have e1 : N / 2 ^ 25 % 2 ^ 6 = 0x1a := by omega
  unfold decodeLane
  rw [toNat_word N hN, e1]
  have g0 := fixed_ofNat N 1 1 0 hN (by omega)
  simp only [g0, f_w, f_d, f_a, f_b, f_m, need_true]
  exact accept_ok hd

theorem bfi (w : BitVec 2) (d : BitVec 7) (a : BitVec 7) (b : BitVec 7) : Statement (.bfi w d a b) := by
  intro _ hd
  refine ⟨_, rfl, ?_⟩
  have l_w := w.isLt
  have l_d := d.isLt
  have l_a := a.isLt
  have l_b := b.isLt
  simp only [Sys2Proof.put]
  generalize hE : 0x36000000 + w.toNat * 2 ^ 23 + d.toNat * 2 ^ 16 + a.toNat * 2 ^ 9 + b.toNat * 2 ^ 2 = N
  have hN : N < 2 ^ 32 := by omega
  have f_w := fld_ofNat N 23 w hN (by omega)
  have f_d := fld_ofNat N 16 d hN (by omega)
  have f_a := fld_ofNat N 9 a hN (by omega)
  have f_b := fld_ofNat N 2 b hN (by omega)
  rw [decodeWord_lane N hN (by omega)]
  have e1 : N / 2 ^ 25 % 2 ^ 6 = 0x1b := by omega
  unfold decodeLane
  rw [toNat_word N hN, e1]
  have g0 := fixed_ofNat N 0 2 0 hN (by omega)
  simp only [g0, f_w, f_d, f_a, f_b, need_true]
  exact accept_ok hd

theorem pack (w : BitVec 2) (d : BitVec 7) (a : BitVec 7) (b : BitVec 7) (m : BitVec 2) : Statement (.pack w d a b m) := by
  intro _ hd
  refine ⟨_, rfl, ?_⟩
  have l_w := w.isLt
  have l_d := d.isLt
  have l_a := a.isLt
  have l_b := b.isLt
  have l_m := m.isLt
  simp only [Sys2Proof.put]
  generalize hE : 0x38000000 + w.toNat * 2 ^ 23 + d.toNat * 2 ^ 16 + a.toNat * 2 ^ 9 + b.toNat * 2 ^ 2 + m.toNat * 2 ^ 0 = N
  have hN : N < 2 ^ 32 := by omega
  have f_w := fld_ofNat N 23 w hN (by omega)
  have f_d := fld_ofNat N 16 d hN (by omega)
  have f_a := fld_ofNat N 9 a hN (by omega)
  have f_b := fld_ofNat N 2 b hN (by omega)
  have f_m := fld_ofNat N 0 m hN (by omega)
  rw [decodeWord_lane N hN (by omega)]
  have e1 : N / 2 ^ 25 % 2 ^ 6 = 0x1c := by omega
  unfold decodeLane
  rw [toNat_word N hN, e1]
  simp only [f_w, f_d, f_a, f_b, f_m]
  exact accept_ok hd

theorem unpk (w : BitVec 2) (d : BitVec 7) (a : BitVec 7) (m : BitVec 2) : Statement (.unpk w d a m) := by
  intro _ hd
  refine ⟨_, rfl, ?_⟩
  have l_w := w.isLt
  have l_d := d.isLt
  have l_a := a.isLt
  have l_m := m.isLt
  simp only [Sys2Proof.put]
  generalize hE : 0x3a000000 + w.toNat * 2 ^ 23 + d.toNat * 2 ^ 16 + a.toNat * 2 ^ 9 + m.toNat * 2 ^ 0 = N
  have hN : N < 2 ^ 32 := by omega
  have f_w := fld_ofNat N 23 w hN (by omega)
  have f_d := fld_ofNat N 16 d hN (by omega)
  have f_a := fld_ofNat N 9 a hN (by omega)
  have f_m := fld_ofNat N 0 m hN (by omega)
  rw [decodeWord_lane N hN (by omega)]
  have e1 : N / 2 ^ 25 % 2 ^ 6 = 0x1d := by omega
  unfold decodeLane
  rw [toNat_word N hN, e1]
  have g0 := fixed_ofNat N 2 7 0 hN (by omega)
  simp only [g0, f_w, f_d, f_a, f_m, need_true]
  exact accept_ok hd

theorem andi (w : BitVec 2) (d : BitVec 7) (a : BitVec 7) (i : BitVec 9) : Statement (.andi w d a i) := by
  intro _ hd
  refine ⟨_, rfl, ?_⟩
  have l_w := w.isLt
  have l_d := d.isLt
  have l_a := a.isLt
  have l_i := i.isLt
  simp only [Sys2Proof.put]
  generalize hE : 0x3c000000 + w.toNat * 2 ^ 23 + d.toNat * 2 ^ 16 + a.toNat * 2 ^ 9 + i.toNat * 2 ^ 0 = N
  have hN : N < 2 ^ 32 := by omega
  have f_w := fld_ofNat N 23 w hN (by omega)
  have f_d := fld_ofNat N 16 d hN (by omega)
  have f_a := fld_ofNat N 9 a hN (by omega)
  have f_i := fld_ofNat N 0 i hN (by omega)
  rw [decodeWord_lane N hN (by omega)]
  have e1 : N / 2 ^ 25 % 2 ^ 6 = 0x1e := by omega
  unfold decodeLane
  rw [toNat_word N hN, e1]
  simp only [f_w, f_d, f_a, f_i]
  exact accept_ok hd

theorem xori (w : BitVec 2) (d : BitVec 7) (a : BitVec 7) (i : BitVec 9) : Statement (.xori w d a i) := by
  intro _ hd
  refine ⟨_, rfl, ?_⟩
  have l_w := w.isLt
  have l_d := d.isLt
  have l_a := a.isLt
  have l_i := i.isLt
  simp only [Sys2Proof.put]
  generalize hE : 0x3e000000 + w.toNat * 2 ^ 23 + d.toNat * 2 ^ 16 + a.toNat * 2 ^ 9 + i.toNat * 2 ^ 0 = N
  have hN : N < 2 ^ 32 := by omega
  have f_w := fld_ofNat N 23 w hN (by omega)
  have f_d := fld_ofNat N 16 d hN (by omega)
  have f_a := fld_ofNat N 9 a hN (by omega)
  have f_i := fld_ofNat N 0 i hN (by omega)
  rw [decodeWord_lane N hN (by omega)]
  have e1 : N / 2 ^ 25 % 2 ^ 6 = 0x1f := by omega
  unfold decodeLane
  rw [toNat_word N hN, e1]
  simp only [f_w, f_d, f_a, f_i]
  exact accept_ok hd

theorem fadd (w : BitVec 2) (d : BitVec 7) (a : BitVec 7) (b : BitVec 7) (m : BitVec 2) : Statement (.fadd w d a b m) := by
  intro _ hd
  refine ⟨_, rfl, ?_⟩
  have l_w := w.isLt
  have l_d := d.isLt
  have l_a := a.isLt
  have l_b := b.isLt
  have l_m := m.isLt
  simp only [Sys2Proof.put]
  generalize hE : 0x40000000 + w.toNat * 2 ^ 23 + d.toNat * 2 ^ 16 + a.toNat * 2 ^ 9 + b.toNat * 2 ^ 2 + m.toNat * 2 ^ 0 = N
  have hN : N < 2 ^ 32 := by omega
  have f_w := fld_ofNat N 23 w hN (by omega)
  have f_d := fld_ofNat N 16 d hN (by omega)
  have f_a := fld_ofNat N 9 a hN (by omega)
  have f_b := fld_ofNat N 2 b hN (by omega)
  have f_m := fld_ofNat N 0 m hN (by omega)
  rw [decodeWord_lane N hN (by omega)]
  have e1 : N / 2 ^ 25 % 2 ^ 6 = 0x20 := by omega
  unfold decodeLane
  rw [toNat_word N hN, e1]
  simp only [f_w, f_d, f_a, f_b, f_m]
  exact accept_ok hd

theorem fsub (w : BitVec 2) (d : BitVec 7) (a : BitVec 7) (b : BitVec 7) (m : BitVec 2) : Statement (.fsub w d a b m) := by
  intro _ hd
  refine ⟨_, rfl, ?_⟩
  have l_w := w.isLt
  have l_d := d.isLt
  have l_a := a.isLt
  have l_b := b.isLt
  have l_m := m.isLt
  simp only [Sys2Proof.put]
  generalize hE : 0x42000000 + w.toNat * 2 ^ 23 + d.toNat * 2 ^ 16 + a.toNat * 2 ^ 9 + b.toNat * 2 ^ 2 + m.toNat * 2 ^ 0 = N
  have hN : N < 2 ^ 32 := by omega
  have f_w := fld_ofNat N 23 w hN (by omega)
  have f_d := fld_ofNat N 16 d hN (by omega)
  have f_a := fld_ofNat N 9 a hN (by omega)
  have f_b := fld_ofNat N 2 b hN (by omega)
  have f_m := fld_ofNat N 0 m hN (by omega)
  rw [decodeWord_lane N hN (by omega)]
  have e1 : N / 2 ^ 25 % 2 ^ 6 = 0x21 := by omega
  unfold decodeLane
  rw [toNat_word N hN, e1]
  simp only [f_w, f_d, f_a, f_b, f_m]
  exact accept_ok hd

theorem fmul (w : BitVec 2) (d : BitVec 7) (a : BitVec 7) (b : BitVec 7) (m : BitVec 2) : Statement (.fmul w d a b m) := by
  intro _ hd
  refine ⟨_, rfl, ?_⟩
  have l_w := w.isLt
  have l_d := d.isLt
  have l_a := a.isLt
  have l_b := b.isLt
  have l_m := m.isLt
  simp only [Sys2Proof.put]
  generalize hE : 0x44000000 + w.toNat * 2 ^ 23 + d.toNat * 2 ^ 16 + a.toNat * 2 ^ 9 + b.toNat * 2 ^ 2 + m.toNat * 2 ^ 0 = N
  have hN : N < 2 ^ 32 := by omega
  have f_w := fld_ofNat N 23 w hN (by omega)
  have f_d := fld_ofNat N 16 d hN (by omega)
  have f_a := fld_ofNat N 9 a hN (by omega)
  have f_b := fld_ofNat N 2 b hN (by omega)
  have f_m := fld_ofNat N 0 m hN (by omega)
  rw [decodeWord_lane N hN (by omega)]
  have e1 : N / 2 ^ 25 % 2 ^ 6 = 0x22 := by omega
  unfold decodeLane
  rw [toNat_word N hN, e1]
  simp only [f_w, f_d, f_a, f_b, f_m]
  exact accept_ok hd

theorem ffma (w : BitVec 2) (d : BitVec 7) (a : BitVec 7) (b : BitVec 7) (m : BitVec 2) : Statement (.ffma w d a b m) := by
  intro _ hd
  refine ⟨_, rfl, ?_⟩
  have l_w := w.isLt
  have l_d := d.isLt
  have l_a := a.isLt
  have l_b := b.isLt
  have l_m := m.isLt
  simp only [Sys2Proof.put]
  generalize hE : 0x46000000 + w.toNat * 2 ^ 23 + d.toNat * 2 ^ 16 + a.toNat * 2 ^ 9 + b.toNat * 2 ^ 2 + m.toNat * 2 ^ 0 = N
  have hN : N < 2 ^ 32 := by omega
  have f_w := fld_ofNat N 23 w hN (by omega)
  have f_d := fld_ofNat N 16 d hN (by omega)
  have f_a := fld_ofNat N 9 a hN (by omega)
  have f_b := fld_ofNat N 2 b hN (by omega)
  have f_m := fld_ofNat N 0 m hN (by omega)
  rw [decodeWord_lane N hN (by omega)]
  have e1 : N / 2 ^ 25 % 2 ^ 6 = 0x23 := by omega
  unfold decodeLane
  rw [toNat_word N hN, e1]
  simp only [f_w, f_d, f_a, f_b, f_m]
  exact accept_ok hd

theorem fmin (w : BitVec 2) (d : BitVec 7) (a : BitVec 7) (b : BitVec 7) : Statement (.fmin w d a b) := by
  intro _ hd
  refine ⟨_, rfl, ?_⟩
  have l_w := w.isLt
  have l_d := d.isLt
  have l_a := a.isLt
  have l_b := b.isLt
  simp only [Sys2Proof.put]
  generalize hE : 0x48000000 + w.toNat * 2 ^ 23 + d.toNat * 2 ^ 16 + a.toNat * 2 ^ 9 + b.toNat * 2 ^ 2 = N
  have hN : N < 2 ^ 32 := by omega
  have f_w := fld_ofNat N 23 w hN (by omega)
  have f_d := fld_ofNat N 16 d hN (by omega)
  have f_a := fld_ofNat N 9 a hN (by omega)
  have f_b := fld_ofNat N 2 b hN (by omega)
  rw [decodeWord_lane N hN (by omega)]
  have e1 : N / 2 ^ 25 % 2 ^ 6 = 0x24 := by omega
  unfold decodeLane
  rw [toNat_word N hN, e1]
  have g0 := fixed_ofNat N 0 2 0 hN (by omega)
  simp only [g0, f_w, f_d, f_a, f_b, need_true]
  exact accept_ok hd

theorem fmax (w : BitVec 2) (d : BitVec 7) (a : BitVec 7) (b : BitVec 7) : Statement (.fmax w d a b) := by
  intro _ hd
  refine ⟨_, rfl, ?_⟩
  have l_w := w.isLt
  have l_d := d.isLt
  have l_a := a.isLt
  have l_b := b.isLt
  simp only [Sys2Proof.put]
  generalize hE : 0x4a000000 + w.toNat * 2 ^ 23 + d.toNat * 2 ^ 16 + a.toNat * 2 ^ 9 + b.toNat * 2 ^ 2 = N
  have hN : N < 2 ^ 32 := by omega
  have f_w := fld_ofNat N 23 w hN (by omega)
  have f_d := fld_ofNat N 16 d hN (by omega)
  have f_a := fld_ofNat N 9 a hN (by omega)
  have f_b := fld_ofNat N 2 b hN (by omega)
  rw [decodeWord_lane N hN (by omega)]
  have e1 : N / 2 ^ 25 % 2 ^ 6 = 0x25 := by omega
  unfold decodeLane
  rw [toNat_word N hN, e1]
  have g0 := fixed_ofNat N 0 2 0 hN (by omega)
  simp only [g0, f_w, f_d, f_a, f_b, need_true]
  exact accept_ok hd

theorem fabs (w : BitVec 2) (d : BitVec 7) (a : BitVec 7) : Statement (.fabs w d a) := by
  intro _ hd
  refine ⟨_, rfl, ?_⟩
  have l_w := w.isLt
  have l_d := d.isLt
  have l_a := a.isLt
  simp only [Sys2Proof.put]
  generalize hE : 0x4c000000 + w.toNat * 2 ^ 23 + d.toNat * 2 ^ 16 + a.toNat * 2 ^ 9 = N
  have hN : N < 2 ^ 32 := by omega
  have f_w := fld_ofNat N 23 w hN (by omega)
  have f_d := fld_ofNat N 16 d hN (by omega)
  have f_a := fld_ofNat N 9 a hN (by omega)
  rw [decodeWord_lane N hN (by omega)]
  have e1 : N / 2 ^ 25 % 2 ^ 6 = 0x26 := by omega
  unfold decodeLane
  rw [toNat_word N hN, e1]
  have e2 : N / 2 ^ 2 % 2 ^ 7 = 0 := by omega
  unfold decodeFun
  rw [toNat_word N hN, e2]
  have g0 := fixed_ofNat N 0 2 0 hN (by omega)
  simp only [g0, f_w, f_d, f_a, need_true]
  exact accept_ok hd

theorem fneg (w : BitVec 2) (d : BitVec 7) (a : BitVec 7) : Statement (.fneg w d a) := by
  intro _ hd
  refine ⟨_, rfl, ?_⟩
  have l_w := w.isLt
  have l_d := d.isLt
  have l_a := a.isLt
  simp only [Sys2Proof.put]
  generalize hE : 0x4c000004 + w.toNat * 2 ^ 23 + d.toNat * 2 ^ 16 + a.toNat * 2 ^ 9 = N
  have hN : N < 2 ^ 32 := by omega
  have f_w := fld_ofNat N 23 w hN (by omega)
  have f_d := fld_ofNat N 16 d hN (by omega)
  have f_a := fld_ofNat N 9 a hN (by omega)
  rw [decodeWord_lane N hN (by omega)]
  have e1 : N / 2 ^ 25 % 2 ^ 6 = 0x26 := by omega
  unfold decodeLane
  rw [toNat_word N hN, e1]
  have e2 : N / 2 ^ 2 % 2 ^ 7 = 1 := by omega
  unfold decodeFun
  rw [toNat_word N hN, e2]
  have g0 := fixed_ofNat N 0 2 0 hN (by omega)
  simp only [g0, f_w, f_d, f_a, need_true]
  exact accept_ok hd

theorem frcp (w : BitVec 2) (d : BitVec 7) (a : BitVec 7) : Statement (.frcp w d a) := by
  intro _ hd
  refine ⟨_, rfl, ?_⟩
  have l_w := w.isLt
  have l_d := d.isLt
  have l_a := a.isLt
  simp only [Sys2Proof.put]
  generalize hE : 0x4c000008 + w.toNat * 2 ^ 23 + d.toNat * 2 ^ 16 + a.toNat * 2 ^ 9 = N
  have hN : N < 2 ^ 32 := by omega
  have f_w := fld_ofNat N 23 w hN (by omega)
  have f_d := fld_ofNat N 16 d hN (by omega)
  have f_a := fld_ofNat N 9 a hN (by omega)
  rw [decodeWord_lane N hN (by omega)]
  have e1 : N / 2 ^ 25 % 2 ^ 6 = 0x26 := by omega
  unfold decodeLane
  rw [toNat_word N hN, e1]
  have e2 : N / 2 ^ 2 % 2 ^ 7 = 2 := by omega
  unfold decodeFun
  rw [toNat_word N hN, e2]
  have g0 := fixed_ofNat N 0 2 0 hN (by omega)
  simp only [g0, f_w, f_d, f_a, need_true]
  exact accept_ok hd

theorem frsq (w : BitVec 2) (d : BitVec 7) (a : BitVec 7) : Statement (.frsq w d a) := by
  intro _ hd
  refine ⟨_, rfl, ?_⟩
  have l_w := w.isLt
  have l_d := d.isLt
  have l_a := a.isLt
  simp only [Sys2Proof.put]
  generalize hE : 0x4c00000c + w.toNat * 2 ^ 23 + d.toNat * 2 ^ 16 + a.toNat * 2 ^ 9 = N
  have hN : N < 2 ^ 32 := by omega
  have f_w := fld_ofNat N 23 w hN (by omega)
  have f_d := fld_ofNat N 16 d hN (by omega)
  have f_a := fld_ofNat N 9 a hN (by omega)
  rw [decodeWord_lane N hN (by omega)]
  have e1 : N / 2 ^ 25 % 2 ^ 6 = 0x26 := by omega
  unfold decodeLane
  rw [toNat_word N hN, e1]
  have e2 : N / 2 ^ 2 % 2 ^ 7 = 3 := by omega
  unfold decodeFun
  rw [toNat_word N hN, e2]
  have g0 := fixed_ofNat N 0 2 0 hN (by omega)
  simp only [g0, f_w, f_d, f_a, need_true]
  exact accept_ok hd

theorem fsqrt (w : BitVec 2) (d : BitVec 7) (a : BitVec 7) (m : BitVec 2) : Statement (.fsqrt w d a m) := by
  intro _ hd
  refine ⟨_, rfl, ?_⟩
  have l_w := w.isLt
  have l_d := d.isLt
  have l_a := a.isLt
  have l_m := m.isLt
  simp only [Sys2Proof.put]
  generalize hE : 0x4c000010 + w.toNat * 2 ^ 23 + d.toNat * 2 ^ 16 + a.toNat * 2 ^ 9 + m.toNat * 2 ^ 0 = N
  have hN : N < 2 ^ 32 := by omega
  have f_w := fld_ofNat N 23 w hN (by omega)
  have f_d := fld_ofNat N 16 d hN (by omega)
  have f_a := fld_ofNat N 9 a hN (by omega)
  have f_m := fld_ofNat N 0 m hN (by omega)
  rw [decodeWord_lane N hN (by omega)]
  have e1 : N / 2 ^ 25 % 2 ^ 6 = 0x26 := by omega
  unfold decodeLane
  rw [toNat_word N hN, e1]
  have e2 : N / 2 ^ 2 % 2 ^ 7 = 4 := by omega
  unfold decodeFun
  rw [toNat_word N hN, e2]
  simp only [f_w, f_d, f_a, f_m]
  exact accept_ok hd

theorem fex2 (w : BitVec 2) (d : BitVec 7) (a : BitVec 7) : Statement (.fex2 w d a) := by
  intro _ hd
  refine ⟨_, rfl, ?_⟩
  have l_w := w.isLt
  have l_d := d.isLt
  have l_a := a.isLt
  simp only [Sys2Proof.put]
  generalize hE : 0x4c000014 + w.toNat * 2 ^ 23 + d.toNat * 2 ^ 16 + a.toNat * 2 ^ 9 = N
  have hN : N < 2 ^ 32 := by omega
  have f_w := fld_ofNat N 23 w hN (by omega)
  have f_d := fld_ofNat N 16 d hN (by omega)
  have f_a := fld_ofNat N 9 a hN (by omega)
  rw [decodeWord_lane N hN (by omega)]
  have e1 : N / 2 ^ 25 % 2 ^ 6 = 0x26 := by omega
  unfold decodeLane
  rw [toNat_word N hN, e1]
  have e2 : N / 2 ^ 2 % 2 ^ 7 = 5 := by omega
  unfold decodeFun
  rw [toNat_word N hN, e2]
  have g0 := fixed_ofNat N 0 2 0 hN (by omega)
  simp only [g0, f_w, f_d, f_a, need_true]
  exact accept_ok hd

theorem flg2 (w : BitVec 2) (d : BitVec 7) (a : BitVec 7) : Statement (.flg2 w d a) := by
  intro _ hd
  refine ⟨_, rfl, ?_⟩
  have l_w := w.isLt
  have l_d := d.isLt
  have l_a := a.isLt
  simp only [Sys2Proof.put]
  generalize hE : 0x4c000018 + w.toNat * 2 ^ 23 + d.toNat * 2 ^ 16 + a.toNat * 2 ^ 9 = N
  have hN : N < 2 ^ 32 := by omega
  have f_w := fld_ofNat N 23 w hN (by omega)
  have f_d := fld_ofNat N 16 d hN (by omega)
  have f_a := fld_ofNat N 9 a hN (by omega)
  rw [decodeWord_lane N hN (by omega)]
  have e1 : N / 2 ^ 25 % 2 ^ 6 = 0x26 := by omega
  unfold decodeLane
  rw [toNat_word N hN, e1]
  have e2 : N / 2 ^ 2 % 2 ^ 7 = 6 := by omega
  unfold decodeFun
  rw [toNat_word N hN, e2]
  have g0 := fixed_ofNat N 0 2 0 hN (by omega)
  simp only [g0, f_w, f_d, f_a, need_true]
  exact accept_ok hd

theorem fsin (w : BitVec 2) (d : BitVec 7) (a : BitVec 7) : Statement (.fsin w d a) := by
  intro _ hd
  refine ⟨_, rfl, ?_⟩
  have l_w := w.isLt
  have l_d := d.isLt
  have l_a := a.isLt
  simp only [Sys2Proof.put]
  generalize hE : 0x4c00001c + w.toNat * 2 ^ 23 + d.toNat * 2 ^ 16 + a.toNat * 2 ^ 9 = N
  have hN : N < 2 ^ 32 := by omega
  have f_w := fld_ofNat N 23 w hN (by omega)
  have f_d := fld_ofNat N 16 d hN (by omega)
  have f_a := fld_ofNat N 9 a hN (by omega)
  rw [decodeWord_lane N hN (by omega)]
  have e1 : N / 2 ^ 25 % 2 ^ 6 = 0x26 := by omega
  unfold decodeLane
  rw [toNat_word N hN, e1]
  have e2 : N / 2 ^ 2 % 2 ^ 7 = 7 := by omega
  unfold decodeFun
  rw [toNat_word N hN, e2]
  have g0 := fixed_ofNat N 0 2 0 hN (by omega)
  simp only [g0, f_w, f_d, f_a, need_true]
  exact accept_ok hd

theorem fcos (w : BitVec 2) (d : BitVec 7) (a : BitVec 7) : Statement (.fcos w d a) := by
  intro _ hd
  refine ⟨_, rfl, ?_⟩
  have l_w := w.isLt
  have l_d := d.isLt
  have l_a := a.isLt
  simp only [Sys2Proof.put]
  generalize hE : 0x4c000020 + w.toNat * 2 ^ 23 + d.toNat * 2 ^ 16 + a.toNat * 2 ^ 9 = N
  have hN : N < 2 ^ 32 := by omega
  have f_w := fld_ofNat N 23 w hN (by omega)
  have f_d := fld_ofNat N 16 d hN (by omega)
  have f_a := fld_ofNat N 9 a hN (by omega)
  rw [decodeWord_lane N hN (by omega)]
  have e1 : N / 2 ^ 25 % 2 ^ 6 = 0x26 := by omega
  unfold decodeLane
  rw [toNat_word N hN, e1]
  have e2 : N / 2 ^ 2 % 2 ^ 7 = 8 := by omega
  unfold decodeFun
  rw [toNat_word N hN, e2]
  have g0 := fixed_ofNat N 0 2 0 hN (by omega)
  simp only [g0, f_w, f_d, f_a, need_true]
  exact accept_ok hd

theorem fflr (w : BitVec 2) (d : BitVec 7) (a : BitVec 7) : Statement (.fflr w d a) := by
  intro _ hd
  refine ⟨_, rfl, ?_⟩
  have l_w := w.isLt
  have l_d := d.isLt
  have l_a := a.isLt
  simp only [Sys2Proof.put]
  generalize hE : 0x4c000024 + w.toNat * 2 ^ 23 + d.toNat * 2 ^ 16 + a.toNat * 2 ^ 9 = N
  have hN : N < 2 ^ 32 := by omega
  have f_w := fld_ofNat N 23 w hN (by omega)
  have f_d := fld_ofNat N 16 d hN (by omega)
  have f_a := fld_ofNat N 9 a hN (by omega)
  rw [decodeWord_lane N hN (by omega)]
  have e1 : N / 2 ^ 25 % 2 ^ 6 = 0x26 := by omega
  unfold decodeLane
  rw [toNat_word N hN, e1]
  have e2 : N / 2 ^ 2 % 2 ^ 7 = 9 := by omega
  unfold decodeFun
  rw [toNat_word N hN, e2]
  have g0 := fixed_ofNat N 0 2 0 hN (by omega)
  simp only [g0, f_w, f_d, f_a, need_true]
  exact accept_ok hd

theorem fceil (w : BitVec 2) (d : BitVec 7) (a : BitVec 7) : Statement (.fceil w d a) := by
  intro _ hd
  refine ⟨_, rfl, ?_⟩
  have l_w := w.isLt
  have l_d := d.isLt
  have l_a := a.isLt
  simp only [Sys2Proof.put]
  generalize hE : 0x4c000028 + w.toNat * 2 ^ 23 + d.toNat * 2 ^ 16 + a.toNat * 2 ^ 9 = N
  have hN : N < 2 ^ 32 := by omega
  have f_w := fld_ofNat N 23 w hN (by omega)
  have f_d := fld_ofNat N 16 d hN (by omega)
  have f_a := fld_ofNat N 9 a hN (by omega)
  rw [decodeWord_lane N hN (by omega)]
  have e1 : N / 2 ^ 25 % 2 ^ 6 = 0x26 := by omega
  unfold decodeLane
  rw [toNat_word N hN, e1]
  have e2 : N / 2 ^ 2 % 2 ^ 7 = 10 := by omega
  unfold decodeFun
  rw [toNat_word N hN, e2]
  have g0 := fixed_ofNat N 0 2 0 hN (by omega)
  simp only [g0, f_w, f_d, f_a, need_true]
  exact accept_ok hd

theorem ftrunc (w : BitVec 2) (d : BitVec 7) (a : BitVec 7) : Statement (.ftrunc w d a) := by
  intro _ hd
  refine ⟨_, rfl, ?_⟩
  have l_w := w.isLt
  have l_d := d.isLt
  have l_a := a.isLt
  simp only [Sys2Proof.put]
  generalize hE : 0x4c00002c + w.toNat * 2 ^ 23 + d.toNat * 2 ^ 16 + a.toNat * 2 ^ 9 = N
  have hN : N < 2 ^ 32 := by omega
  have f_w := fld_ofNat N 23 w hN (by omega)
  have f_d := fld_ofNat N 16 d hN (by omega)
  have f_a := fld_ofNat N 9 a hN (by omega)
  rw [decodeWord_lane N hN (by omega)]
  have e1 : N / 2 ^ 25 % 2 ^ 6 = 0x26 := by omega
  unfold decodeLane
  rw [toNat_word N hN, e1]
  have e2 : N / 2 ^ 2 % 2 ^ 7 = 11 := by omega
  unfold decodeFun
  rw [toNat_word N hN, e2]
  have g0 := fixed_ofNat N 0 2 0 hN (by omega)
  simp only [g0, f_w, f_d, f_a, need_true]
  exact accept_ok hd

theorem frint (w : BitVec 2) (d : BitVec 7) (a : BitVec 7) (m : BitVec 2) : Statement (.frint w d a m) := by
  intro _ hd
  refine ⟨_, rfl, ?_⟩
  have l_w := w.isLt
  have l_d := d.isLt
  have l_a := a.isLt
  have l_m := m.isLt
  simp only [Sys2Proof.put]
  generalize hE : 0x4c000030 + w.toNat * 2 ^ 23 + d.toNat * 2 ^ 16 + a.toNat * 2 ^ 9 + m.toNat * 2 ^ 0 = N
  have hN : N < 2 ^ 32 := by omega
  have f_w := fld_ofNat N 23 w hN (by omega)
  have f_d := fld_ofNat N 16 d hN (by omega)
  have f_a := fld_ofNat N 9 a hN (by omega)
  have f_m := fld_ofNat N 0 m hN (by omega)
  rw [decodeWord_lane N hN (by omega)]
  have e1 : N / 2 ^ 25 % 2 ^ 6 = 0x26 := by omega
  unfold decodeLane
  rw [toNat_word N hN, e1]
  have e2 : N / 2 ^ 2 % 2 ^ 7 = 12 := by omega
  unfold decodeFun
  rw [toNat_word N hN, e2]
  simp only [f_w, f_d, f_a, f_m]
  exact accept_ok hd

theorem cvt (v : BitVec 7) (a : BitVec 7) (s : BitVec 3) (x : BitVec 3) (t : BitVec 1) (m : BitVec 2) : Statement (.cvt v a s x t m) := by
  intro _ hd
  refine ⟨_, rfl, ?_⟩
  have l_v := v.isLt
  have l_a := a.isLt
  have l_s := s.isLt
  have l_x := x.isLt
  have l_t := t.isLt
  have l_m := m.isLt
  simp only [Sys2Proof.put]
  generalize hE : 0x4e000000 + v.toNat * 2 ^ 16 + a.toNat * 2 ^ 9 + s.toNat * 2 ^ 6 + x.toNat * 2 ^ 3 + t.toNat * 2 ^ 2 + m.toNat * 2 ^ 0 = N
  have hN : N < 2 ^ 32 := by omega
  have f_v := fld_ofNat N 16 v hN (by omega)
  have f_a := fld_ofNat N 9 a hN (by omega)
  have f_s := fld_ofNat N 6 s hN (by omega)
  have f_x := fld_ofNat N 3 x hN (by omega)
  have f_t := fld_ofNat N 2 t hN (by omega)
  have f_m := fld_ofNat N 0 m hN (by omega)
  rw [decodeWord_lane N hN (by omega)]
  have e1 : N / 2 ^ 25 % 2 ^ 6 = 0x27 := by omega
  unfold decodeLane
  rw [toNat_word N hN, e1]
  have g0 := fixed_ofNat N 23 2 0 hN (by omega)
  simp only [g0, f_v, f_a, f_s, f_x, f_t, f_m, need_true]
  exact accept_ok hd

theorem qscale (b : BitVec 2) (q : BitVec 2) (d : BitVec 7) (a : BitVec 7) (v : BitVec 6) : Statement (.qscale b q d a v) := by
  intro _ hd
  refine ⟨_, rfl, ?_⟩
  have l_b := b.isLt
  have l_q := q.isLt
  have l_d := d.isLt
  have l_a := a.isLt
  have l_v := v.isLt
  simp only [Sys2Proof.put]
  generalize hE : 0x50000000 + b.toNat * 2 ^ 23 + q.toNat * 2 ^ 20 + d.toNat * 2 ^ 13 + a.toNat * 2 ^ 6 + v.toNat * 2 ^ 0 = N
  have hN : N < 2 ^ 32 := by omega
  have f_b := fld_ofNat N 23 b hN (by omega)
  have f_q := fld_ofNat N 20 q hN (by omega)
  have f_d := fld_ofNat N 13 d hN (by omega)
  have f_a := fld_ofNat N 6 a hN (by omega)
  have f_v := fld_ofNat N 0 v hN (by omega)
  rw [decodeWord_lane N hN (by omega)]
  have e1 : N / 2 ^ 25 % 2 ^ 6 = 0x28 := by omega
  unfold decodeLane
  rw [toNat_word N hN, e1]
  have g0 := fixed_ofNat N 22 1 0 hN (by omega)
  simp only [g0, f_b, f_q, f_d, f_a, f_v, need_true]
  exact accept_ok hd

theorem qscale8 (b : BitVec 1) (q : BitVec 2) (d : BitVec 7) (a : BitVec 7) (v : BitVec 6) : Statement (.qscale8 b q d a v) := by
  intro _ hd
  refine ⟨_, rfl, ?_⟩
  have l_b := b.isLt
  have l_q := q.isLt
  have l_d := d.isLt
  have l_a := a.isLt
  have l_v := v.isLt
  simp only [Sys2Proof.put]
  generalize hE : 0x52000000 + b.toNat * 2 ^ 22 + q.toNat * 2 ^ 20 + d.toNat * 2 ^ 13 + a.toNat * 2 ^ 6 + v.toNat * 2 ^ 0 = N
  have hN : N < 2 ^ 32 := by omega
  have f_b := fld_ofNat N 22 b hN (by omega)
  have f_q := fld_ofNat N 20 q hN (by omega)
  have f_d := fld_ofNat N 13 d hN (by omega)
  have f_a := fld_ofNat N 6 a hN (by omega)
  have f_v := fld_ofNat N 0 v hN (by omega)
  rw [decodeWord_lane N hN (by omega)]
  have e1 : N / 2 ^ 25 % 2 ^ 6 = 0x29 := by omega
  unfold decodeLane
  rw [toNat_word N hN, e1]
  have g0 := fixed_ofNat N 23 2 0 hN (by omega)
  simp only [g0, f_b, f_q, f_d, f_a, f_v, need_true]
  exact accept_ok hd

theorem mrd (w : BitVec 1) (d : BitVec 7) (a : BitVec 7) (t : BitVec 6) : Statement (.mrd w d a t) := by
  intro _ hd
  refine ⟨_, rfl, ?_⟩
  have l_w := w.isLt
  have l_d := d.isLt
  have l_a := a.isLt
  have l_t := t.isLt
  simp only [Sys2Proof.put]
  generalize hE : 0x57000000 + w.toNat * 2 ^ 23 + d.toNat * 2 ^ 16 + a.toNat * 2 ^ 9 + t.toNat * 2 ^ 2 = N
  have hN : N < 2 ^ 32 := by omega
  have f_w := fld_ofNat N 23 w hN (by omega)
  have f_d := fld_ofNat N 16 d hN (by omega)
  have f_a := fld_ofNat N 9 a hN (by omega)
  have f_t := fld_ofNat N 2 t hN (by omega)
  rw [decodeWord_lane N hN (by omega)]
  have e1 : N / 2 ^ 25 % 2 ^ 6 = 0x2b := by omega
  unfold decodeLane
  rw [toNat_word N hN, e1]
  have g0 := fixed_ofNat N 0 2 0 hN (by omega)
  have g1 := fixed_ofNat N 8 1 0 hN (by omega)
  have g2 := fixed_ofNat N 24 1 1 hN (by omega)
  simp only [g0, g1, g2, f_w, f_d, f_a, f_t, need_true]
  exact accept_ok hd

theorem mwr (w : BitVec 1) (d : BitVec 7) (a : BitVec 7) (t : BitVec 6) : Statement (.mwr w d a t) := by
  intro _ hd
  refine ⟨_, rfl, ?_⟩
  have l_w := w.isLt
  have l_d := d.isLt
  have l_a := a.isLt
  have l_t := t.isLt
  simp only [Sys2Proof.put]
  generalize hE : 0x59000000 + w.toNat * 2 ^ 23 + d.toNat * 2 ^ 16 + a.toNat * 2 ^ 9 + t.toNat * 2 ^ 2 = N
  have hN : N < 2 ^ 32 := by omega
  have f_w := fld_ofNat N 23 w hN (by omega)
  have f_d := fld_ofNat N 16 d hN (by omega)
  have f_a := fld_ofNat N 9 a hN (by omega)
  have f_t := fld_ofNat N 2 t hN (by omega)
  rw [decodeWord_lane N hN (by omega)]
  have e1 : N / 2 ^ 25 % 2 ^ 6 = 0x2c := by omega
  unfold decodeLane
  rw [toNat_word N hN, e1]
  have g0 := fixed_ofNat N 0 2 0 hN (by omega)
  have g1 := fixed_ofNat N 8 1 0 hN (by omega)
  have g2 := fixed_ofNat N 24 1 1 hN (by omega)
  simp only [g0, g1, g2, f_w, f_d, f_a, f_t, need_true]
  exact accept_ok hd

theorem spec (w : BitVec 2) (d : BitVec 7) (c : BitVec 2) : Statement (.spec w d c) := by
  intro _ hd
  refine ⟨_, rfl, ?_⟩
  have l_w := w.isLt
  have l_d := d.isLt
  have l_c := c.isLt
  simp only [Sys2Proof.put]
  generalize hE : 0x5e000000 + w.toNat * 2 ^ 23 + d.toNat * 2 ^ 16 + c.toNat * 2 ^ 2 = N
  have hN : N < 2 ^ 32 := by omega
  have f_w := fld_ofNat N 23 w hN (by omega)
  have f_d := fld_ofNat N 16 d hN (by omega)
  have f_c := fld_ofNat N 2 c hN (by omega)
  rw [decodeWord_lane N hN (by omega)]
  have e1 : N / 2 ^ 25 % 2 ^ 6 = 0x2f := by omega
  unfold decodeLane
  rw [toNat_word N hN, e1]
  have g0 := fixed_ofNat N 0 2 0 hN (by omega)
  have g1 := fixed_ofNat N 4 12 0 hN (by omega)
  simp only [g0, g1, f_w, f_d, f_c, need_true]
  exact accept_ok hd

theorem shfl (w : BitVec 2) (d : BitVec 7) (a : BitVec 7) (b : BitVec 7) (m : BitVec 2) : Statement (.shfl w d a b m) := by
  intro _ hd
  refine ⟨_, rfl, ?_⟩
  have l_w := w.isLt
  have l_d := d.isLt
  have l_a := a.isLt
  have l_b := b.isLt
  have l_m := m.isLt
  simp only [Sys2Proof.put]
  generalize hE : 0x60000000 + w.toNat * 2 ^ 23 + d.toNat * 2 ^ 16 + a.toNat * 2 ^ 9 + b.toNat * 2 ^ 2 + m.toNat * 2 ^ 0 = N
  have hN : N < 2 ^ 32 := by omega
  have f_w := fld_ofNat N 23 w hN (by omega)
  have f_d := fld_ofNat N 16 d hN (by omega)
  have f_a := fld_ofNat N 9 a hN (by omega)
  have f_b := fld_ofNat N 2 b hN (by omega)
  have f_m := fld_ofNat N 0 m hN (by omega)
  rw [decodeWord_lane N hN (by omega)]
  have e1 : N / 2 ^ 25 % 2 ^ 6 = 0x30 := by omega
  unfold decodeLane
  rw [toNat_word N hN, e1]
  simp only [f_w, f_d, f_a, f_b, f_m]
  exact accept_ok hd

theorem redl (w : BitVec 2) (d : BitVec 7) (a : BitVec 7) (p : BitVec 7) (m : BitVec 2) : Statement (.redl w d a p m) := by
  intro _ hd
  refine ⟨_, rfl, ?_⟩
  have l_w := w.isLt
  have l_d := d.isLt
  have l_a := a.isLt
  have l_p := p.isLt
  have l_m := m.isLt
  simp only [Sys2Proof.put]
  generalize hE : 0x62000000 + w.toNat * 2 ^ 23 + d.toNat * 2 ^ 16 + a.toNat * 2 ^ 9 + p.toNat * 2 ^ 2 + m.toNat * 2 ^ 0 = N
  have hN : N < 2 ^ 32 := by omega
  have f_w := fld_ofNat N 23 w hN (by omega)
  have f_d := fld_ofNat N 16 d hN (by omega)
  have f_a := fld_ofNat N 9 a hN (by omega)
  have f_p := fld_ofNat N 2 p hN (by omega)
  have f_m := fld_ofNat N 0 m hN (by omega)
  rw [decodeWord_lane N hN (by omega)]
  have e1 : N / 2 ^ 25 % 2 ^ 6 = 0x31 := by omega
  unfold decodeLane
  rw [toNat_word N hN, e1]
  simp only [f_w, f_d, f_a, f_p, f_m]
  exact accept_ok hd

theorem scanl (w : BitVec 2) (d : BitVec 7) (a : BitVec 7) (p : BitVec 7) (m : BitVec 2) : Statement (.scanl w d a p m) := by
  intro _ hd
  refine ⟨_, rfl, ?_⟩
  have l_w := w.isLt
  have l_d := d.isLt
  have l_a := a.isLt
  have l_p := p.isLt
  have l_m := m.isLt
  simp only [Sys2Proof.put]
  generalize hE : 0x64000000 + w.toNat * 2 ^ 23 + d.toNat * 2 ^ 16 + a.toNat * 2 ^ 9 + p.toNat * 2 ^ 2 + m.toNat * 2 ^ 0 = N
  have hN : N < 2 ^ 32 := by omega
  have f_w := fld_ofNat N 23 w hN (by omega)
  have f_d := fld_ofNat N 16 d hN (by omega)
  have f_a := fld_ofNat N 9 a hN (by omega)
  have f_p := fld_ofNat N 2 p hN (by omega)
  have f_m := fld_ofNat N 0 m hN (by omega)
  rw [decodeWord_lane N hN (by omega)]
  have e1 : N / 2 ^ 25 % 2 ^ 6 = 0x32 := by omega
  unfold decodeLane
  rw [toNat_word N hN, e1]
  simp only [f_w, f_d, f_a, f_p, f_m]
  exact accept_ok hd

theorem ld (z : BitVec 2) (d : BitVec 7) (a : BitVec 7) (r : BitVec 1) (f : BitVec 6) : Statement (.ld z d a r f) := by
  intro _ hd
  refine ⟨_, rfl, ?_⟩
  have l_z := z.isLt
  have l_d := d.isLt
  have l_a := a.isLt
  have l_r := r.isLt
  have l_f := f.isLt
  simp only [Sys2Proof.put]
  generalize hE : 0x70000000 + z.toNat * 2 ^ 23 + d.toNat * 2 ^ 16 + a.toNat * 2 ^ 9 + r.toNat * 2 ^ 6 + f.toNat * 2 ^ 0 = N
  have hN : N < 2 ^ 32 := by omega
  have f_z := fld_ofNat N 23 z hN (by omega)
  have f_d := fld_ofNat N 16 d hN (by omega)
  have f_a := fld_ofNat N 9 a hN (by omega)
  have f_r := fld_ofNat N 6 r hN (by omega)
  have f_f := fld_ofNat N 0 f hN (by omega)
  rw [decodeWord_lane N hN (by omega)]
  have e1 : N / 2 ^ 25 % 2 ^ 6 = 0x38 := by omega
  unfold decodeLane
  rw [toNat_word N hN, e1]
  have g0 := fixed_ofNat N 7 2 0 hN (by omega)
  simp only [g0, f_z, f_d, f_a, f_r, f_f, need_true]
  exact accept_ok hd

theorem st (z : BitVec 2) (d : BitVec 7) (a : BitVec 7) (r : BitVec 1) (f : BitVec 6) : Statement (.st z d a r f) := by
  intro _ hd
  refine ⟨_, rfl, ?_⟩
  have l_z := z.isLt
  have l_d := d.isLt
  have l_a := a.isLt
  have l_r := r.isLt
  have l_f := f.isLt
  simp only [Sys2Proof.put]
  generalize hE : 0x72000000 + z.toNat * 2 ^ 23 + d.toNat * 2 ^ 16 + a.toNat * 2 ^ 9 + r.toNat * 2 ^ 7 + f.toNat * 2 ^ 0 = N
  have hN : N < 2 ^ 32 := by omega
  have f_z := fld_ofNat N 23 z hN (by omega)
  have f_d := fld_ofNat N 16 d hN (by omega)
  have f_a := fld_ofNat N 9 a hN (by omega)
  have f_r := fld_ofNat N 7 r hN (by omega)
  have f_f := fld_ofNat N 0 f hN (by omega)
  rw [decodeWord_lane N hN (by omega)]
  have e1 : N / 2 ^ 25 % 2 ^ 6 = 0x39 := by omega
  unfold decodeLane
  rw [toNat_word N hN, e1]
  have g0 := fixed_ofNat N 6 1 0 hN (by omega)
  have g1 := fixed_ofNat N 8 1 0 hN (by omega)
  simp only [g0, g1, f_z, f_d, f_a, f_r, f_f, need_true]
  exact accept_ok hd

theorem ldv (z : BitVec 2) (d : BitVec 7) (a : BitVec 7) (f : BitVec 6) : Statement (.ldv z d a f) := by
  intro _ hd
  refine ⟨_, rfl, ?_⟩
  have l_z := z.isLt
  have l_d := d.isLt
  have l_a := a.isLt
  have l_f := f.isLt
  simp only [Sys2Proof.put]
  generalize hE : 0x74000000 + z.toNat * 2 ^ 23 + d.toNat * 2 ^ 16 + a.toNat * 2 ^ 9 + f.toNat * 2 ^ 0 = N
  have hN : N < 2 ^ 32 := by omega
  have f_z := fld_ofNat N 23 z hN (by omega)
  have f_d := fld_ofNat N 16 d hN (by omega)
  have f_a := fld_ofNat N 9 a hN (by omega)
  have f_f := fld_ofNat N 0 f hN (by omega)
  rw [decodeWord_lane N hN (by omega)]
  have e1 : N / 2 ^ 25 % 2 ^ 6 = 0x3a := by omega
  unfold decodeLane
  rw [toNat_word N hN, e1]
  have g0 := fixed_ofNat N 6 3 0 hN (by omega)
  simp only [g0, f_z, f_d, f_a, f_f, need_true]
  exact accept_ok hd

theorem stv (z : BitVec 2) (d : BitVec 7) (a : BitVec 7) (f : BitVec 6) : Statement (.stv z d a f) := by
  intro _ hd
  refine ⟨_, rfl, ?_⟩
  have l_z := z.isLt
  have l_d := d.isLt
  have l_a := a.isLt
  have l_f := f.isLt
  simp only [Sys2Proof.put]
  generalize hE : 0x76000000 + z.toNat * 2 ^ 23 + d.toNat * 2 ^ 16 + a.toNat * 2 ^ 9 + f.toNat * 2 ^ 0 = N
  have hN : N < 2 ^ 32 := by omega
  have f_z := fld_ofNat N 23 z hN (by omega)
  have f_d := fld_ofNat N 16 d hN (by omega)
  have f_a := fld_ofNat N 9 a hN (by omega)
  have f_f := fld_ofNat N 0 f hN (by omega)
  rw [decodeWord_lane N hN (by omega)]
  have e1 : N / 2 ^ 25 % 2 ^ 6 = 0x3b := by omega
  unfold decodeLane
  rw [toNat_word N hN, e1]
  have g0 := fixed_ofNat N 6 3 0 hN (by omega)
  simp only [g0, f_z, f_d, f_a, f_f, need_true]
  exact accept_ok hd

theorem atom (z : BitVec 1) (d : BitVec 7) (a : BitVec 7) (p : BitVec 4) (r : BitVec 2) : Statement (.atom z d a p r) := by
  intro _ hd
  refine ⟨_, rfl, ?_⟩
  have l_z := z.isLt
  have l_d := d.isLt
  have l_a := a.isLt
  have l_p := p.isLt
  have l_r := r.isLt
  simp only [Sys2Proof.put]
  generalize hE : 0x79000000 + z.toNat * 2 ^ 23 + d.toNat * 2 ^ 16 + a.toNat * 2 ^ 9 + p.toNat * 2 ^ 5 + r.toNat * 2 ^ 3 = N
  have hN : N < 2 ^ 32 := by omega
  have f_z := fld_ofNat N 23 z hN (by omega)
  have f_d := fld_ofNat N 16 d hN (by omega)
  have f_a := fld_ofNat N 9 a hN (by omega)
  have f_p := fld_ofNat N 5 p hN (by omega)
  have f_r := fld_ofNat N 3 r hN (by omega)
  rw [decodeWord_lane N hN (by omega)]
  have e1 : N / 2 ^ 25 % 2 ^ 6 = 0x3c := by omega
  unfold decodeLane
  rw [toNat_word N hN, e1]
  have g0 := fixed_ofNat N 0 3 0 hN (by omega)
  have g1 := fixed_ofNat N 24 1 1 hN (by omega)
  simp only [g0, g1, f_z, f_d, f_a, f_p, f_r, need_true]
  exact accept_ok hd

theorem redq (w : BitVec 1) (d : BitVec 7) (a : BitVec 7) (b : BitVec 7) : Statement (.redq w d a b) := by
  intro _ hd
  refine ⟨_, rfl, ?_⟩
  have l_w := w.isLt
  have l_d := d.isLt
  have l_a := a.isLt
  have l_b := b.isLt
  simp only [Sys2Proof.put]
  generalize hE : 0x7b000000 + w.toNat * 2 ^ 23 + d.toNat * 2 ^ 16 + a.toNat * 2 ^ 9 + b.toNat * 2 ^ 2 = N
  have hN : N < 2 ^ 32 := by omega
  have f_w := fld_ofNat N 23 w hN (by omega)
  have f_d := fld_ofNat N 16 d hN (by omega)
  have f_a := fld_ofNat N 9 a hN (by omega)
  have f_b := fld_ofNat N 2 b hN (by omega)
  rw [decodeWord_lane N hN (by omega)]
  have e1 : N / 2 ^ 25 % 2 ^ 6 = 0x3d := by omega
  unfold decodeLane
  rw [toNat_word N hN, e1]
  have g0 := fixed_ofNat N 0 2 0 hN (by omega)
  have g1 := fixed_ofNat N 24 1 1 hN (by omega)
  simp only [g0, g1, f_w, f_d, f_a, f_b, need_true]
  exact accept_ok hd

theorem lexit : Statement .lexit := fun _ _ => ⟨_, rfl, by decide⟩

theorem branchResolution (uid : Nat) : Statement (.branchResolution uid) := nofun
theorem longLatencyLanding (uid : Nat) (pick : Nat) : Statement (.longLatencyLanding uid pick) := nofun
theorem storePerformed (uid : Nat) : Statement (.storePerformed uid) := nofun
theorem sliceAnswer (uid : Nat) (pick : Nat) : Statement (.sliceAnswer uid pick) := nofun
theorem filterSlowPathWrite (uid : Nat) : Statement (.filterSlowPathWrite uid) := nofun
theorem crewWakeResume (uid : Nat) : Statement (.crewWakeResume uid) := nofun
theorem deadlineSweep : Statement (.deadlineSweep) := nofun
theorem redqContribution (uid : Nat) (pick : Nat) : Statement (.redqContribution uid pick) := nofun
theorem trapEntry (uid : Nat) : Statement (.trapEntry uid) := nofun
theorem placementDecision (part : BitVec 2) : Statement (.placementDecision part) := nofun
theorem recordCompletion (gid : Nat) : Statement (.recordCompletion gid) := nofun
theorem laneGangTimeout : Statement (.laneGangTimeout) := nofun
theorem hoistChunkDone (core : Nat) (pick : Nat) : Statement (.hoistChunkDone core pick) := nofun
theorem ringSlotAdmit (cluster : Nat) (entry : Nat) : Statement (.ringSlotAdmit cluster entry) := nofun
theorem stripPassGrant (cluster : Nat) : Statement (.stripPassGrant cluster) := nofun
theorem promotionEnd (cluster : Nat) (pick : Nat) : Statement (.promotionEnd cluster pick) := nofun
theorem publishFlip (pick : Nat) : Statement (.publishFlip pick) := nofun
theorem shootdownDone (fn : BitVec 2) : Statement (.shootdownDone fn) := nofun
theorem contextSaveDone : Statement (.contextSaveDone) := nofun
theorem teardown (part : BitVec 2) (region : BitVec 64) (asn : BitVec 16) : Statement (.teardown part region asn) := nofun
theorem teardownGraceExpiry (pick : Nat) : Statement (.teardownGraceExpiry pick) := nofun
theorem collectiveDataArrival (member : BitVec 8) (gid : BitVec 16) (seq : BitVec 64) (head : BitVec 64) (data : List (BitVec 8)) : Statement (.collectiveDataArrival member gid seq head data) := nofun
theorem collTimeout (pick : Nat) : Statement (.collTimeout pick) := nofun
theorem flitReceive (port : BitVec 5) (flit : List (BitVec 8)) : Statement (.flitReceive port flit) := nofun
theorem flitNak (port : BitVec 5) (seq : BitVec 12) : Statement (.flitNak port seq) := nofun
theorem heartTimer : Statement (.heartTimer) := nofun
theorem heart (src : BitVec 8) (lap : BitVec 64) (c : BitVec 8) : Statement (.heart src lap c) := nofun
theorem lower (src : BitVec 8) (c : BitVec 8) (t : BitVec 64) : Statement (.lower src c t) := nofun
theorem ceil (lap : BitVec 64) (c : BitVec 8) (t : BitVec 64) (mask : BitVec 256) : Statement (.ceil lap c t mask) := nofun
theorem breach (src : BitVec 8) (c : BitVec 8) : Statement (.breach src c) := nofun
theorem propose (src : BitVec 8) (lap : BitVec 64) (c : BitVec 8) : Statement (.propose src lap c) := nofun
theorem grant (src : BitVec 8) (lap : BitVec 64) : Statement (.grant src lap) := nofun
theorem deny (src : BitVec 8) (lap : BitVec 64) (c : BitVec 8) : Statement (.deny src lap c) := nofun
theorem joinMsg (src : BitVec 8) (c : BitVec 8) : Statement (.joinMsg src c) := nofun
theorem leave (src : BitVec 8) (lap : BitVec 64) : Statement (.leave src lap) := nofun
theorem view (src : BitVec 8) (lap : BitVec 64) (c : BitVec 8) (t : BitVec 64) (mask : BitVec 256) : Statement (.view src lap c t mask) := nofun
theorem unknownPacerType (src : BitVec 8) (type : BitVec 8) : Statement (.unknownPacerType src type) := nofun
theorem lapApply : Statement (.lapApply) := nofun
theorem peerSilent (peer : BitVec 8) : Statement (.peerSilent peer) := nofun
theorem emergencyTrip : Statement (.emergencyTrip) := nofun
theorem tripRecheck (degrees : Nat) : Statement (.tripRecheck degrees) := nofun
theorem powerSample (watts : Nat) (degrees : Nat) : Statement (.powerSample watts degrees) := nofun
theorem intervalEnd (cluster : Nat) : Statement (.intervalEnd cluster) := nofun
theorem cooldownStep (cluster : Nat) : Statement (.cooldownStep cluster) := nofun
theorem ageingMeasure (limit : BitVec 8) (days : BitVec 32) (slower : List (Nat × BitVec 2)) : Statement (.ageingMeasure limit days slower) := nofun
theorem hbmScrub (corrected : Nat) (poisoned : List Nat) : Statement (.hbmScrub corrected poisoned) := nofun
theorem kick (fn : BitVec 2) (q : BitVec 6) (v : BitVec 32) : Statement (.kick fn q v) := nofun
theorem hostQueueConsume (fn : BitVec 2) (q : BitVec 6) : Statement (.hostQueueConsume fn q) := nofun
theorem windowBWrite (fn : BitVec 2) (off : BitVec 64) (data : List (BitVec 8)) : Statement (.windowBWrite fn off data) := nofun
theorem windowBRead (fn : BitVec 2) (off : BitVec 64) (len : Nat) : Statement (.windowBRead fn off len) := nofun
theorem fetchadd (fn : BitVec 2) (off : BitVec 64) (wide : BitVec 1) (x : BitVec 64) : Statement (.fetchadd fn off wide x) := nofun
theorem swap (fn : BitVec 2) (off : BitVec 64) (wide : BitVec 1) (x : BitVec 64) : Statement (.swap fn off wide x) := nofun
theorem cas (fn : BitVec 2) (off : BitVec 64) (wide : BitVec 1) (cmp : BitVec 64) (x : BitVec 64) : Statement (.cas fn off wide cmp x) := nofun
theorem shoot (fn : BitVec 2) (asn : BitVec 16) : Statement (.shoot fn asn) := nofun
theorem reqkick (fn : BitVec 2) (v : BitVec 32) : Statement (.reqkick fn v) := nofun
theorem mailboxLoad (fn : BitVec 2) : Statement (.mailboxLoad fn) := nofun
theorem mailboxTear (fn : BitVec 2) : Statement (.mailboxTear fn) := nofun
theorem mailboxLimit (fn : BitVec 2) : Statement (.mailboxLimit fn) := nofun
theorem mailboxPool (fn : BitVec 2) : Statement (.mailboxPool fn) := nofun
theorem mailboxStrict (fn : BitVec 2) : Statement (.mailboxStrict fn) := nofun
theorem mailboxEnrol (fn : BitVec 2) : Statement (.mailboxEnrol fn) := nofun
theorem mailboxFuse (fn : BitVec 2) : Statement (.mailboxFuse fn) := nofun
theorem mailboxRoute (fn : BitVec 2) : Statement (.mailboxRoute fn) := nofun
theorem mailboxUnknownOp (fn : BitVec 2) : Statement (.mailboxUnknownOp fn) := nofun
theorem fusereq (v : BitVec 9) : Statement (.fusereq v) := nofun
theorem fuseBlown : Statement (.fuseBlown) := nofun
theorem measgo (die : BitVec 2) (i : BitVec 3) : Statement (.measgo die i) := nofun
theorem romovlClear (die : BitVec 2) : Statement (.romovlClear die) := nofun
theorem resetRelease : Statement (.resetRelease) := nofun
theorem trnctl (k : BitVec 3) (v : BitVec 64) : Statement (.trnctl k v) := nofun
theorem hbmTrainingDone (k : BitVec 3) (fail : BitVec 1) (phase : BitVec 2) (spares : BitVec 4) (eyes : BitVec 16) (lanemap : BitVec 64) : Statement (.hbmTrainingDone k fail phase spares eyes lanemap) := nofun
theorem fwlimit (die : BitVec 2) (v : BitVec 8) : Statement (.fwlimit die v) := nofun
theorem paceen (die : BitVec 2) (on : BitVec 1) : Statement (.paceen die on) := nofun
theorem portEn (port : BitVec 5) (on : BitVec 1) : Statement (.portEn port on) := nofun
theorem portRetrain (port : BitVec 5) : Statement (.portRetrain port) := nofun
theorem signalDetect (port : BitVec 5) : Statement (.signalDetect port) := nofun
theorem detectTimeout (port : BitVec 5) : Statement (.detectTimeout port) := nofun
theorem equaliseDone (port : BitVec 5) : Statement (.equaliseDone port) := nofun
theorem alignLock (port : BitVec 5) : Statement (.alignLock port) := nofun
theorem identExchange (port : BitVec 5) (peer : BitVec 8) (gid : BitVec 16) : Statement (.identExchange port peer gid) := nofun
theorem retrainTimeout (port : BitVec 5) : Statement (.retrainTimeout port) := nofun
theorem registerWrite (fn : BitVec 2) (off : BitVec 22) (v : BitVec 64) : Statement (.registerWrite fn off v) := nofun
theorem lossOfPower : Statement (.lossOfPower) := nofun
theorem enable (fn : BitVec 2) (q : BitVec 6) (on : BitVec 1) : Statement (.enable fn q on) := nofun
theorem mben (fn : BitVec 2) (on : BitVec 1) : Statement (.mben fn on) := nofun

end Sys2Proof.Laws.RoundTrip
end

