-- ==== Sys2Proof/Safety.lean ====
section
/-!
DEFINITION. What counts as a safe run, the invariant of the stored maps, and the terms in which the claims say what a
word changes and what it leaves as it stands.
-/

namespace Sys2Proof.Machine

/-- Memory, the vaults and the accumulator tiles are in canonical form. -/
def State.tidy (s : State) : Bool := Memory.wf s.mem && Machine.tidy 0 s.vault && Machine.tidy 0 s.tiles

/-- The crew holds what a crew may hold: never PRIVL 3, at most 16 saved entries, and no flag above 15 (R8, R10, R67). -/
structure Crew.Bounded (c : Crew) : Prop where
  privl : c.privl ≠ 3
  depth : c.stack.length ≤ 16
  flags : ∀ f, flagCount c f ≤ 15

/-- Every crew, on a core or in a saved context, keeps to its bounds. -/
def State.bounded (s : State) : Prop := ∀ c ∈ s.allCrews ++ (s.saved.map (·.crews)).flatten, c.Bounded

/-- ACT and the saved entries of the crew in focus lie within LIVE (R67, R134). -/
def State.actWithinLive (s : State) : Prop :=
  s.c.act &&& ~~~ s.g.live = 0 ∧ ∀ e ∈ s.c.stack, e &&& ~~~ s.g.live = 0

/-- A step goes on: it neither faults nor is refused. -/
def Goes (o : Out) : Prop := ∃ t, o = .next t

/-- The word raises no trap before its effect: none of the checks of R42 that stand before it applies. -/
def Ready (i : Instr) (s : State) : Prop := gate i s = none

/-- The instruction completes with a next state of which `P` holds. -/
def Completes (i : Instr) (s : State) (P : State → Prop) : Prop := ∃ t, exec i s = .next t ∧ P t

/-- The counts of completion flags that `c'` holds are those of `c` that cannot retire (R13). -/
def CountsKept (c c' : Crew) : Prop := c'.incs = (retire { c' with incs := c.incs }).incs

/-- The word has ended in the ordinary way: the pc stands at the next word, the span and a predicate block are one word
shorter, the crew runs, and no counts of completion flags are gone but those that retire (R8, R13, R33). -/
structure WordEnded (c c' : Crew) : Prop where
  pc : c'.pc = normPc (c.pc + 4)
  left : c'.left = c.left - 1
  blk : c'.blk = blockStep c.blk
  status : c'.status = .running
  incs : CountsKept c c'

/-- Crew `c'` with everything a word's end writes taken from `d`. -/
def Crew.withEnd (c d : Crew) : Crew :=
  { c with pc := d.pc, left := d.left, blk := d.blk, status := d.status, incs := d.incs }

/-- Crew `c` with its scalar registers, and which of its registers are marked bad, taken from `d`. -/
def Crew.withScalars (c d : Crew) : Crew := { c with base := d.base, pbank := d.pbank, tbank := d.tbank, bad := d.bad }

/-- One scalar register written, `s0` discarding it; every other register of the selected bank as before, and the other
bank whole; an error of the register is gone, and none else (R8, R9, R43, R304). -/
structure ScalarWritten (c c' : Crew) (d : BitVec 6) (x : Word) : Prop where
  dest : getS c' d = if d = 0 then 0 else x
  others : ∀ r, r ≠ d → getS c' r = getS c r
  bank : if c.bank then c'.pbank = c.pbank else c'.tbank = c.tbank
  errors : ∀ r, r ∈ c'.bad ↔ r ∈ c.bad ∧ ¬ (d ≠ 0 ∧ r = .s d)

/-- A word that writes one scalar and nothing else: not another register, a mark, a flag that rises, memory, a vault,
a tile or another crew. -/
structure ScalarEffect (s t : State) (d : BitVec 6) (x : Word) : Prop where
  ended : WordEnded s.c t.c
  written : ScalarWritten s.c t.c d x
  crew : t.c = (s.c.withScalars t.c).withEnd t.c
  rest : t = { s with c := t.c }

/-- A word that transfers control to `target`: the crew is `c'` at the target, one word of its clause gone, and nothing
else is changed (R52 to R54). -/
structure JumpEffect (s t : State) (target : Word) (c' : Crew) : Prop where
  incs : CountsKept s.c t.c
  crew : t.c = { c' with pc := normPc target, left := s.c.left - 1, incs := t.c.incs, status := .running }
  rest : t = { s with c := t.c }

/-- The thread takes part in a lane word: it is below NTHR and in the active set (R33, R68). -/
def active (s : State) (t : Nat) : Prop := t < s.g.nthr ∧ (activeSet s.c).getLsbD t = true

/-- Register `d` of every active thread written with `x`, and no other thread register (R68). -/
structure LanesWritten (s t : State) (d : BitVec 7) (x : Nat → Word) : Prop where
  dest : ∀ th, active s th → reg t th d = x th
  others : ∀ th (r : BitVec 7), ¬ (active s th ∧ r = d) → reg t th r = reg s th r

/-- A lane word that writes one register of the active threads, raises `flags` in XSTAT, and changes nothing else. -/
structure LaneEffect (s t : State) (d : BitVec 7) (x : Nat → Word) (flags : BitVec 10) : Prop where
  ended : WordEnded s.c t.c
  written : LanesWritten s t d x
  xstat : t.c.xstat = s.c.xstat ||| flags
  crew : t.c = Crew.withEnd { s.c with xstat := t.c.xstat } t.c
  gallery : t.g = { s.g with v := t.g.v, bad := t.g.bad, soft := t.g.soft }
  errors : ∀ k, k ∈ t.g.bad → k ∈ s.g.bad
  soft : ∀ e, e ∈ t.g.soft → e ∈ s.g.soft
  rest : t = { s with c := t.c, g := t.g }

/-- A long-latency word: the landings that follow wait for their time, the destination is outstanding under the setA flag
of the clause, and nothing else is changed (R13, R15, R71). -/
structure LongEffect (s t : State) (r : Reg) (ls : List Landing) : Prop where
  ended : WordEnded s.c t.c
  crew : t.c = Crew.withEnd
    { s.c with outm := s.c.outm ++ [⟨r, s.c.setA.toNat⟩], land := s.c.land ++ ls } t.c
  rest : t = { s with c := t.c }

/-- A word that only changes its crew otherwise than in what its end writes: `c'` is the crew but for that. -/
structure CrewEffect (s t : State) (c' : Crew) : Prop where
  ended : WordEnded s.c t.c
  crew : t.c = c'.withEnd t.c
  rest : t = { s with c := t.c }

/-- A long-latency scalar result; with destination `s0` the word writes nothing (R14, R71). -/
def LongScalar (s t : State) (d : BitVec 6) (x : Word) : Prop :=
  if d = 0 then CrewEffect s t s.c else LongEffect s t (.s d) [⟨s.c.clause, .scalar d x, 0⟩]

/-- The landings of a lane word that holds a value for each thread: one for each gang that has threads of the active
set (R71). -/
def gangLandings (s : State) (d : BitVec 7) (x : Nat → Word) : List Landing :=
  (gangsOf (laneThreads s)).map fun k =>
    ⟨s.c.clause, .gang d (((laneThreads s).filter fun t => t / 32 == k).map fun t => (t, x t)), 0⟩

/-- A word that queues stores to be performed, in order, under its clause, and changes nothing else: memory as the other
agents see it changes when they are performed (R13, R190). A release waits there for every contribution of the crew that is
still to be answered, and another store for those that a fence follows (R194, R213, R219). -/
structure StoreEffect (s t : State) (rel : Bool) (ws : List WriteAcc) : Prop where
  ended : WordEnded s.c t.c
  crew : t.c = Crew.withEnd
    { s.c with stores := if ws = [] then s.c.stores else s.c.stores ++ [⟨s.c.clause, ws,
        (s.c.redq.filter fun x => rel || x.fenceA || x.fenceR).map Contribution.key, []⟩] } t.c
  rest : t = { s with c := t.c }

/-- What performing one write leaves: the bytes in memory or in the vaults, but for those under the mask ROM, and the
poison of the words it covers whole gone, but for those under the mask ROM; nothing else is changed (R190, R304, R362). -/
structure WritePerformed (s t : State) (w : WriteAcc) : Prop where
  bytes : ∀ a, readByte t a =
    if w.vault = false ∧ w.addr ≤ a ∧ a < w.addr + w.bytes.length ∧ inRom s a = false then w.bytes.getD (a - w.addr) 0
    else readByte s a
  vaults : ∀ a, readVault t a =
    if w.vault = true ∧ w.addr ≤ a ∧ a < w.addr + w.bytes.length then w.bytes.getD (a - w.addr) 0 else readVault s a
  poison : ∀ k, k ∈ t.poison ↔
    k ∈ s.poison ∧ ¬ (w.vault = false ∧ inRom s (8 * k) = false ∧ w.addr ≤ 8 * k ∧ 8 * k + 8 ≤ w.addr + w.bytes.length)
  badVault : ∀ k, k ∈ t.badVault ↔
    k ∈ s.badVault ∧ ¬ (w.vault = true ∧ w.addr ≤ 8 * k ∧ 8 * k + 8 ≤ w.addr + w.bytes.length)
  rest : t = { s with mem := t.mem, vault := t.vault, poison := t.poison, badVault := t.badVault }

/-- The state is left as it stands but for the crew in focus, which waits at the word (R74, R297). -/
def Waits (s t : State) : Prop := t = { s with c := { s.c with status := .held } }

/-! ### Numbers -/

/-- The rational number that a finite floating-point value is. -/
def FVal.rat : FVal → ℚ
  | .num neg m e => (if neg then -1 else 1) * m * 2 ^ e
  | _ => 0

/-- A value that is no NaN, in the order of the extended line. -/
def FVal.ext : FVal → WithBot (WithTop ℚ)
  | .inf neg => if neg then ⊥ else ((⊤ : WithTop ℚ) : WithBot (WithTop ℚ))
  | x => ((x.rat : WithTop ℚ) : WithBot (WithTop ℚ))

/-- The spacing of a format at a rational that is not 0: one unit of the last bit, and of the least subnormal below the
normal range (R79). -/
def FFmt.spacing (f : FFmt) (v : ℚ) : ℚ := 2 ^ (max (Int.log 2 |v|) f.emin - f.mbits)

/-- The largest finite value of a format. -/
def FFmt.greatest (f : FFmt) : ℚ := (2 ^ (f.mbits + 1) - 1) * 2 ^ (f.bias - f.mbits)

/-- The mode rounds a number of the sign away from zero: RUP a positive one, RDN a negative one (R80). -/
def awayFromZero (mode : BitVec 2) (neg : Bool) : Bool := (mode == 2 && !neg) || (mode == 3 && neg)

/-- A rational that a format overflows at: its rounded magnitude exceeds the largest finite value (R80). -/
def FFmt.tooBig (f : FFmt) (mode : BitVec 2) (neg : Bool) (v : ℚ) : Prop :=
  if mode = 0 then f.greatest + 2 ^ (f.bias - f.mbits) / 2 ≤ |v|
  else if awayFromZero mode neg then f.greatest < |v| else 2 ^ (f.bias + 1) ≤ |v|

/-- `x` is the rounding of `v` among the numbers `spacing` apart: to nearest with ties to even, toward zero, up, down
(R80); `even` says that the last bit of `x` is 0. -/
structure Nearest (mode : BitVec 2) (v x spacing : ℚ) (even : Prop) : Prop where
  rne : mode = 0 → |x - v| ≤ spacing / 2 ∧ (|x - v| = spacing / 2 → even)
  rtz : mode = 1 → |x| ≤ |v| ∧ |v| < |x| + spacing
  rup : mode = 2 → v ≤ x ∧ x < v + spacing
  rdn : mode = 3 → x ≤ v ∧ v < x + spacing

/-- A pattern is the rational `v`, with a sign, rounded once to a format (R80). -/
structure RoundsTo (f : FFmt) (mode : BitVec 2) (neg : Bool) (v : ℚ) (x : Nat) : Prop where
  huge : f.tooBig mode neg v → x = if mode = 0 ∨ awayFromZero mode neg = true then f.inf neg else f.largest neg
  fits : ¬ f.tooBig mode neg v → ∃ m e, f.value x = .num neg m e ∧
    Nearest mode v (FVal.num neg m e).rat (f.spacing v) (x % 2 = 0)

/-- A result is the rational `v` rounded once, with the flags of R82: OF, NX, and UF where it is inexact and tiny after
rounding. -/
structure RoundedOnce (f : FFmt) (mode : BitVec 2) (neg : Bool) (v : ℚ) (r : FRes) : Prop where
  bits : RoundsTo f mode neg v r.bits
  flags : r.flags < 8
  overflow : bit r.flags 2 = true ↔ f.tooBig mode neg v
  inexact : bit r.flags 0 = true ↔ (f.value r.bits).rat ≠ v ∨ f.tooBig mode neg v
  underflow : bit r.flags 1 = true → bit r.flags 0 = true ∧ |v| < 2 ^ f.emin
  tiny : bit r.flags 0 = true → |v| + f.spacing v / 2 ≤ 2 ^ f.emin → bit r.flags 1 = true

/-- The result of an operation whose exact value is `v`: `v` rounded once, or a zero with the sign given where it is 0. -/
def IsExactly (f : FFmt) (mode : BitVec 2) (v : ℚ) (zeroNeg : Bool) (r : FRes) : Prop :=
  if v = 0 then r = ⟨f.zero zeroNeg, 0⟩ else RoundedOnce f mode (decide (v < 0)) v r

/-! ### Accesses in order (R19, R192, R304) -/

/-- No reduction of the crew that is still to be answered names an object that meets the bytes: an access of the crew to
them need not wait for one (R192). -/
def Apart (s : State) (pa n : Nat) : Prop := ∀ x ∈ s.c.redq, pa + n ≤ x.obj ∨ x.obj + 16 ≤ pa

/-- No `FENCE.A` stands between a reduction of the crew that is still to be answered and the access, and no `FENCE.R` where
the access writes (R194, R219). -/
def Unfenced (s : State) (writes : Bool) : Prop :=
  ∀ x ∈ s.c.redq, x.fenceA = false ∧ (writes = true → x.fenceR = false)

/-- No store of the crew that waits for a reduction meets the bytes (R192). -/
def StoresClear (s : State) (pa n : Nat) : Prop :=
  ∀ p ∈ s.c.staying, ∀ w ∈ p.writes, w.vault = false → pa + n ≤ w.addr ∨ w.addr + w.bytes.length ≤ pa

/-- An access of the crew that meets at its home slice need not wait for the accesses before it (R192, R194, R219). -/
structure Unhindered (s : State) (writes : Bool) (pa n : Nat) : Prop where
  apart : Apart s pa n
  unfenced : Unfenced s writes
  stores : StoresClear s pa n

/-- No contribution waits at its slice for the NEXT of an object that the bytes meet, so that a write of them answers none
(R221). -/
def NoneAwaits (s : State) (pa n : Nat) : Prop :=
  ∀ c ∈ s.allCrews, ∀ x ∈ c.redq, x.seen ≠ none → pa + n ≤ x.obj + 8 ∨ x.obj + 16 ≤ pa

/-- No contribution of any crew waits at its slice, so that no write at all answers one (R221). -/
def NoneWaits (s : State) : Prop := ∀ c ∈ s.allCrews, ∀ x ∈ c.redq, x.seen = none

/-- The crew can read the bytes: every uncorrectable word among them is written whole by a pending store of its own, or
lies under the mask ROM, whose bytes are read (R19, R304, R362). -/
def Readable (s : State) (vault : Bool) (a n : Nat) : Prop :=
  ∀ k ∈ (if vault then s.badVault else s.poison), 8 * k < a + n → a < 8 * k + 8 →
    (vault = false ∧ inRom s (8 * k) = true) ∨ ∃ p ∈ s.c.stores, ∃ w ∈ p.writes, w.vault = vault ∧ w.addr ≤ 8 * k ∧ 8 * k + 8 ≤ w.addr + w.bytes.length

/-! ### Save records, Relays and HOIST operations -/

/-- The first `n` bytes of the save record of the crew in focus lie from `base` on, in memory that the mask ROM does not
cover, and none of them stands in a table of their own translation: they stay there whatever the bytes become (R293,
log 20). -/
structure RecordAt (s : State) (base n : Nat) : Prop where
  place : ∀ t : State, t = { s with mem := t.mem, poison := t.poison, filter := t.filter } →
    (∀ a, a < base ∨ base + n ≤ a → readByte t a = readByte s a) →
    ∀ k, k < n → savePlace t s.g s.c.save k = some (base + k)
  ram : ∀ k, k < n → inRom s (base + k) = false

/-- Word 0 of the save record of the crew in focus is brought up to date, and nothing else is changed: nothing at all for
a crew without a record, and else the 8 bytes of the word, where no entry of the Lamproom waits for their lines
(R231, R293). The crew itself stays as it is unless an entry of its own is woken. -/
structure SaveWordPut (s t : State) : Prop where
  none : s.c.save = 0 → t = s
  quiet : s.lamps = [] → t = { s with mem := t.mem, poison := t.poison }
  crew : (∀ e ∈ s.lamps, e.uid ≠ s.c.uid) → t.c = s.c
  word : ∀ base, RecordAt s base 8 → (∀ e ∈ s.lamps, e.pa / 256 ≠ base / 256 ∧ e.pa / 256 ≠ (base + 7) / 256) →
    readNat t base 8 = saveWord0 s s.c ∧ (∀ a, a < base ∨ base + 8 ≤ a → readByte t a = readByte s a) ∧
    t = { s with mem := t.mem, poison := t.poison, filter := t.filter }

/-- A RELAY word reaches its control block: the address is in range and 64-aligned, translates with read and write
permission, and lies in no storage that the hardware owns, in no host memory, and on no uncorrectable word; nothing that the
crew did before holds it up, and the crew's own stores are performed (R192, R219, R237). -/
def RelayReached (s s1 : State) (addr : Word) (p : Place) : Prop :=
  Unhindered s true p.pa 64 ∧
  addr.toNat < 2 ^ 57 ∧ addr.toNat % 64 = 0 ∧ crewXlate s needRW addr.toNat = .ok p ∧
  ownedByHw s p.pa 64 false = false ∧ inPaceLine s p.pa 64 = false ∧ inHost p.pa = false ∧
  s1 = atHome s ∧ poisoned s1 false p.pa 64 = false

/-- The blocks of a region path, from the block at `va` up to a root, each aligned, translated, well formed and met once
(R145, R290). -/
inductive RegionPath (s : State) (xl : Nat → Option Nat) : List Nat → Nat → List Nat → Prop where
  | root {seen : List Nat} {va pa : Nat} : va % 256 = 0 → xl va = some pa → pa ∉ seen → blockOk s pa = true →
      readNat s pa 8 = 0 → RegionPath s xl seen va [pa]
  | up {seen rest : List Nat} {va pa : Nat} : va % 256 = 0 → xl va = some pa → pa ∉ seen → blockOk s pa = true →
      readNat s pa 8 ≠ 0 → RegionPath s xl (pa :: seen) (readNat s pa 8) rest → RegionPath s xl seen va (pa :: rest)

/-- The aggregate of values applied left to right, as the back of a window keeps it (R238). -/
def leftAgg (op : Nat) : List Word → Word
  | [] => relayIdentity op
  | x :: l => l.foldl (relayOp op) x

/-- The aggregate of values applied right to left, as the front of a window keeps it (R238). -/
def rightAgg (op : Nat) : List Word → Word
  | [] => relayIdentity op
  | [x] => x
  | x :: l => relayOp op x (rightAgg op l)

/-- The window of a Relay holds the contributions `cs`, oldest first: the front holds the aggregate of each of its
contributions and all later ones of the front, the back the newer contributions themselves, and BAGG their aggregate
(R235, R238). -/
structure Window (op : Nat) (r : Relay) (bagg : Word) (cs : List Word) : Prop where
  back : r.back = cs.drop r.front.length
  fits : r.front.length ≤ cs.length
  front : ∀ i, i < r.front.length → r.front.getD i 0 = rightAgg op ((cs.take r.front.length).drop i)
  bagg : r.back ≠ [] → bagg = leftAgg op r.back

/-! ### What an engine reads and writes (R248, R251, R263) -/

/-- Every access of an engine to the addresses from `lo` up to `hi` passes its checks, and reads the bytes of `r`. -/
def Sees (s : State) (k : Client) (vault : Bool) (lo hi : Nat) (r : Nat → Byte) : Prop :=
  ∀ a n, lo ≤ a → a + n ≤ hi → engRead s k vault a n = .ok (s, (List.range n).map fun x => r (a + x))

/-- The single bytes of some runs of bytes, each with its address. -/
def eachByte (ws : List (Nat × List Byte)) : List (Nat × Byte) :=
  ws.flatMap fun w => (List.range w.2.length).map fun x => (w.1 + x, w.2.getD x 0)

/-- The element at row `r` and position `k` of a plane-set of `planes` planes at `at_`: the first plane is its top bit
(R251, R252). -/
def planeCode (planes at_ : Nat) (byte : Nat → Byte) (r k : Nat) : Nat :=
  total (List.range planes) fun b =>
    if (byte (at_ + 2048 * (planes - 1 - b) + 16 * r + k / 8)).getLsbD (k % 8) then 2 ^ b else 0

/-! ### Matrix sums (R89, R90) -/

/-- A number with its bits of weight below 2^lsb removed. -/
def cutAt (v : ℚ) (lsb : ℤ) : ℚ := (if v < 0 then -1 else 1) * (⌊|v| / 2 ^ lsb⌋ : ℚ) * 2 ^ lsb

/-- The greatest power of two in any of some numbers that are not 0. -/
def IsTop (l : List ℚ) (e : ℤ) : Prop := (∃ v ∈ l, v ≠ 0 ∧ Int.log 2 |v| = e) ∧ ∀ v ∈ l, v ≠ 0 → Int.log 2 |v| ≤ e

/-- The products `p` of a block have the sum `x` in their window of 112 bits, with the sticky bit `st` (R89). -/
structure BlockSummed (p : List ℚ) (x : ℚ) (st : Bool) : Prop where
  zero : (∀ v ∈ p, v = 0) → x = 0 ∧ st = false
  sum : ∀ e, IsTop p e → x = (p.map fun v => cutAt v (e - 104)).sum ∧
    (st = true ↔ ∃ v ∈ p, cutAt v (e - 104) ≠ v)

/-- `r` is the FP32 pattern that `z` rounds to, to nearest even, where with `st` it carries a further bit of its sign below
every other (R90). -/
structure RoundsSticky (z : ℚ) (st : Bool) (r : Nat) : Prop where
  zero : z = 0 → r = 0
  exact : z ≠ 0 → st = false → RoundsTo fp32 0 (decide (z < 0)) z r
  sticky : z ≠ 0 → st = true → ∃ d : ℚ, 0 < d ∧ ∀ x : ℚ, 0 < x → x < d →
    RoundsTo fp32 0 (decide (z < 0)) (if z < 0 then z - x else z + x) r

/-- The tile element `r` after the block sum times its scales, `y` with `st`, is added to the element `old`, whose value is
`c`, in a window of 128 bits (R90). -/
structure Promoted (y : ℚ) (st : Bool) (old : Nat) (c : ℚ) (r : Nat) : Prop where
  keeps : y = 0 → st = false → r = old
  zero : y = 0 → c = 0 → st = true → r = 0
  sum : ∀ e, IsTop [y, c] e → (y ≠ 0 ∨ st = true) →
    RoundsSticky (cutAt y (e - 126) + cutAt c (e - 126))
      (st || decide (cutAt y (e - 126) ≠ y) || decide (cutAt c (e - 126) ≠ c)) r

/-- The ports of the part once a member in state `p` has sent the Pacer messages `ms`, in order (R345). -/
def portsAfter (s : State) (p : Pacer) (ms : List PaceOut) : Vector Port 18 :=
  (flushPace { s with pacer := { p with out := ms } }).ports

/-- The operations of the five data-moving HOIST words, with their flags: whether the destination and the source lie in
vault space, and for `HPLANE` the format, the rows and the source's space (R266, R267). -/
def hoistOps (s : State) (t g : BitVec 6) (n x y r : BitVec 1) (f : BitVec 3) : List (Instr × HoistOp) :=
  let op (fn : Nat) (flags : Nat) : HoistOp :=
    ⟨fn, BitVec.ofNat 8 flags, getG s.c g 0, getG s.c g 1, getG s.c g 2, getG s.c g 3⟩
  [(.hcopy t g n y x, op 0 (x.toNat + 2 * y.toNat)), (.hgath t g n y x, op 1 (x.toNat + 2 * y.toNat)),
   (.hscat t g n y x, op 2 (x.toNat + 2 * y.toNat)), (.hfill t g n x, op 3 x.toNat),
   (.hplane t g n y r f, op 4 (f.toNat + 8 * r.toNat + 16 * y.toNat))]

end Sys2Proof.Machine
end

