-- ==== Sys2Proof/Certificates/Slice0/Obligations.lean ====
section
/-!
DEFINITION. The statements for the provers. Each docstring names the rules of spec/ that its statement formalises; a
statement that rests on a choice of the model says so and names the log entry.
-/

section
open Sys2Proof Sys2Proof.Machine

/-! ### Decoding, the step and traps (R24 to R42, R288 to R313) -/

/-- The words of the worked encodings of spec/03_encoding.md, each the sum of its fields shifted into place, and the two
that raise ILLEGAL. -/
def Obligations.WorkedEncodingsDecode : Prop :=
  decodeWord 0x71030802 = .ok (.ld 2 3 4 0 2) ∧
  decodeWord 0x0382020A = .ok (.addi 3 2 1 10) ∧
  decodeWord 0x470A1631 = .ok (.ffma 2 10 11 12 1) ∧
  decodeWord 0x924010C4 = .ok (.srcha 1 0 1 3 4) ∧
  decodeWord 0x9E480800 = .ok (.pblk 1 1 1) ∧
  decodeWord 0xB2198000 = .ok (.hcopy 3 12 0 0 0) ∧
  decodeWord 0x88000201 = .ok (.brc 0 0 1 1) ∧
  (∃ why, decodeWord 0x54000000 = .error why) ∧ (∃ why, decodeWord 0x88C00201 = .error why)

/-- Every well-formed instruction word decodes back from its encoding: no bit of an operand is dropped (R24 to R41). -/
def Obligations.EncodeThenDecodeIsIdentity : Prop :=
  ∀ i : Instr, Sys2Proof.Laws.RoundTrip.Statement i

/-- A word has one meaning: what decodes is well formed, is a word and not an event, and encodes to that very word, so
that no bit of a word is ignored (R24, R41). -/
def Obligations.DecodedWordEncodesBack : Prop :=
  ∀ (w : BitVec 32) (i : Instr), decodeWord w = .ok i → i.isWord = true ∧ i.defect = none ∧ encode i = some w

/-- A step with no outside event waiting runs the granted crew's next word, the four bytes at the pc's place: what `step`
adds to `exec` is the grant, the fetch, the word's charge to its cluster's current record, and the correction of the
single-bit errors that the word reads, which are gone and counted. A word that R41 refuses takes the ILLEGAL trap at
itself, with the word in TRAPINFO. A word that cannot be fetched takes the trap of its fetch: XLATE or PERM of the walk,
PERM where the hardware owns the storage, or ECC_UNCORR of an uncorrectable word, with TRAPPC and TRAPADDR the address.
Outside events come first, in the order in which they came, and an event of the part that is due takes turns with a word;
that order is the model's own choice (log 2). R17, R24, R41, R72, R158, R304, R358. -/
def Obligations.StepRunsDecodedWord : Prop :=
  (∀ (s s1 : State) (w : BitVec 32) (i : Instr),
    s.inputs = [] → (s.bgTurn = true → due s = none) → granted s = some s1 →
    fetch { s1 with bgTurn := true } = .ok w → decodeWord w = .ok i →
    step s = exec i (correctRead i (chargeWord i { s1 with bgTurn := true }))) ∧
  (∀ (s : State) (p : Place), crewXlate s needX s.c.pc.toNat = .ok p →
    (ownedByHw s p.pa 4 false = false → (inRom s p.pa = true ∨ poisoned s false p.pa 4 = false) → fetch s =
      .ok (wordOfBytes (readByte s p.pa) (readByte s (p.pa + 1)) (readByte s (p.pa + 2)) (readByte s (p.pa + 3)))) ∧
    (ownedByHw s p.pa 4 false = false → inRom s p.pa = false → poisoned s false p.pa 4 = true →
      fetch s = .error ⟨.eccUncorr, s.c.pc, s.c.pc, 0, false, 0⟩) ∧
    (ownedByHw s p.pa 4 false = true → fetch s = .error ⟨.perm, s.c.pc, s.c.pc, 0, false, 0⟩)) ∧
  (∀ (s : State) (e : Cause), crewXlate s needX s.c.pc.toNat = .error e →
    fetch s = .error ⟨e, s.c.pc, s.c.pc, 0, false, 0⟩) ∧
  (∀ (s s1 : State),
    s.inputs = [] → (s.bgTurn = true → due s = none) → granted s = some s1 →
    (∀ w why, fetch { s1 with bgTurn := true } = .ok w → decodeWord w = .error why →
      step s = .next (takeTrap { s1 with bgTurn := true }
        { cause := .illegal, pc := s1.c.pc, addr := 0, info := w.setWidth 64, header := false, obj := 0 })) ∧
    (∀ t, fetch { s1 with bgTurn := true } = .error t → step s = .next (takeTrap { s1 with bgTurn := true } t))) ∧
  (∀ (s : State) (e : Instr),
    (∀ rest, s.inputs = e :: rest → e.isWord = false → step s = exec e (tick (unholdAll { s with inputs := rest }))) ∧
    (s.inputs = [] → s.bgTurn = true → due s = some e → step s = exec e (tick (unholdAll { s with bgTurn := false }))) ∧
    (s.inputs = [] → s.bgTurn = false → granted s = none → due s = some e → step s = exec e (tick (unholdAll s))) ∧
    (s.inputs = [] → granted s = none → due s = none → step s = .next (tick (unholdAll s)))) ∧
  (∀ (i : Instr) (s : State),
    let t := correctRead i s
    t = { s with g := { s.g with soft := t.g.soft }, corrected := t.corrected } ∧ (s.g.soft = [] → t = s) ∧
    (gate i s ≠ none → t = s) ∧ t.corrected[0] + t.g.soft.length = s.corrected[0] + s.g.soft.length ∧
    (∀ (tg g : BitVec 6) (f : BitVec 4) (n : BitVec 1) (l : List (BitVec 32)),
      let x (j : Nat) : Nat := (getG s.c g j).toNat
      let row := bits (x 3) 32 7
      i = .mma tg g f n → Ready i s → (∀ o ∈ s.c.outm, o.reg ≠ .v (BitVec.ofNat 7 row)) → s.c.ring ≠ none →
      bits (x 1) 32 16 ≠ 0 → bits (x 0) 0 32 % 2048 = 0 → bits (x 1) 0 32 % 2048 = 0 → bits (x 0) 32 32 = 0 →
      bits (x 1) 48 16 = 0 → bits (x 2) 7 57 = 0 → bits (x 3) 41 23 = 0 → bits (x 3) 40 1 = 1 → f ≠ 2 →
      rowScales s.g row (bits (x 3) 39 1) = some l → (∀ th, th < 128 → 128 * th + row ∉ s.g.bad) →
      ∀ e, e ∈ t.g.soft ↔ e ∈ s.g.soft ∧ ¬ (e.1 / 128 < 128 ∧ e.1 % 128 = row)) ∧
    (isLane i = true → (∀ w d a b m, i ≠ .shfl w d a b m) → Ready i s → ∀ e, e ∈ t.g.soft ↔ e ∈ s.g.soft ∧
      ¬ ∃ (th : Nat) (r : BitVec 7), active s th ∧ Reg.v r ∈ readRegs i ∧ e.1 = 128 * th + r.toNat))

/-- No instruction and no event stops the machine: every one answers a next state from every state; and a step faults
only where an instruction word stands among the outside events, and is never refused. That a word traps, halts or waits
where it has no effect is the manual's (R41, R288, R289); that an event never faults, whatever its arguments, is the
model's choice (log 45), and so is the fault on a word among the inputs, which belongs to the model's own interface
(log 2). -/
def Obligations.NothingStopsTheMachine : Prop :=
  (∀ (i : Instr) (s : State), ∃ t, exec i s = .next t) ∧
  (∀ s : State, (∃ t, step s = .next t) ∨
    (step s = .fault .notAnEvent ∧ ∃ e rest, s.inputs = e :: rest ∧ e.isWord = true))

/-- The causes of one word are checked in the order of R42: the target of a jump to a register, ILLEGAL, PBLK_FORM,
CLAUSE_FORM, PRIV, HAZARD; only the first that applies is raised, and its trap is taken with no effect of the word. A
target that is not 4-aligned raises ALIGN, and one beyond the address space XLATE, which is taken to stand with ALIGN; a
target that is outstanding or uncorrectable cannot be looked at, and is left to HAZARD and ECC_UNCORR (R15, R54; log 68).
What CLAUSE_FORM means is R14 and R16: a header within the span of a clause, any other word where a header is due, a
control transfer that is not the last word of its clause, and a long-latency word in a clause without setA. PRIV gives
the number of a system register, or 0, in TRAPINFO; HAZARD an operand that is outstanding, and its kind; BLK_FAULT of a
lane word with an active thread the lowest of the thread registers that lie at or above block B, or that are written
without owning their block, with the mask of its block (R64, R65, R294; where several operands are outstanding, which of
them HAZARD names is free, log 4). -/
def Obligations.ChecksBeforeEffect : Prop :=
  (∀ (s : State) (a : BitVec 6), ∀ p ∈ [(Instr.jr a, a), (.callr a, a), (.ret, 63)],
    let x := getS s.c p.2
    let seen := (∀ m ∈ s.c.outm, m.reg ≠ .s p.2) ∧ .s p.2 ∉ s.c.bad
    (seen → x.toNat % 4 ≠ 0 → gate p.1 s = some ⟨.align, s.c.pc, x, 0, false, 0⟩) ∧
    (seen → x.toNat % 4 = 0 → 2 ^ 57 ≤ x.toNat → gate p.1 s = some ⟨.xlate, s.c.pc, x, 0, false, 0⟩) ∧
    (¬ seen ∨ (x.toNat % 4 = 0 ∧ x.toNat < 2 ^ 57) → targetFault p.1 s = none)) ∧
  (∀ (i : Instr) (s : State), (∀ a, i ≠ .jr a ∧ i ≠ .callr a) → i ≠ .ret → targetFault i s = none) ∧
  (∀ (i : Instr) (s : State), targetFault i s = none →
    (i.defect ≠ none → ∃ t, gate i s = some t ∧ t.cause = .illegal ∧ t.pc = s.c.pc) ∧
    (i.defect = none → blockForm i s.c = true → ∃ t, gate i s = some t ∧ t.cause = .pblkForm ∧ t.pc = s.c.pc) ∧
    (i.defect = none → blockForm i s.c = false → clauseForm i s.c = true →
      ∃ t, gate i s = some t ∧ t.cause = .clauseForm ∧ t.pc = s.c.pc) ∧
    (i.defect = none → blockForm i s.c = false → clauseForm i s.c = false → s.c.privl.toNat < (leastPrivl i).1 →
      ∃ t, gate i s = some t ∧ t.cause = .priv ∧ t.pc = s.c.pc) ∧
    (i.defect = none → blockForm i s.c = false → clauseForm i s.c = false → (leastPrivl i).1 ≤ s.c.privl.toNat →
      hazards i s.c ≠ [] → ∃ t, gate i s = some t ∧ t.cause = .hazard ∧ t.pc = s.c.pc)) ∧
  (∀ (i : Instr) (s : State) (t : TrapReq), i.isWord = true → gate i s = some t → exec i s = .next (takeTrap s t)) ∧
  (∀ (i : Instr) (c : Crew),
    clauseForm i c = true ↔
      ((isClause i = true ∧ 0 < c.left) ∨
       (isClause i = false ∧ (c.left = 0 ∨ (isTransfer i = true ∧ c.left ≠ 1) ∨ (isLong i = true ∧ c.setA = 15))))) ∧
  (∀ (i : Instr) (s : State) (t : TrapReq), gate i s = some t →
    (t.cause = .priv → t.addr = 0 ∧ t.info.toNat < 2 ^ 12 ∧
      (∀ d n, i = .rdsys d n ∨ i = .wrsys d n → t.info.toNat = n.toNat)) ∧
    (t.cause = .hazard → t.addr = 0 ∧ ∃ r, r ∈ readRegs i ++ writtenRegs i ∧ (∃ m ∈ s.c.outm, m.reg = r) ∧
      t.info.toNat = match r with
        | .s n => n.toNat
        | .v n => n.toNat + 2 ^ 8
        | .m n => n.toNat + 2 ^ 9)) ∧
  (∀ (i : Instr) (s : State) (r : BitVec 7),
    let bad (q : BitVec 7) : Prop :=
      (Reg.v q ∈ readRegs i ∧ s.g.nblk ≤ q.toNat / 8) ∨
      (Reg.v q ∈ writtenRegs i ∧ (s.g.nblk ≤ q.toNat / 8 ∨
        (s.g.owner.getD (q.toNat / 8) none).map (·.val) ≠ some s.c.att))
    i.defect = none → isLane i = true → clauseForm i s.c = false → (leastPrivl i).1 = 0 → hazards i s.c = [] →
    activeSet s.c ≠ 0 → bad r → (∀ q, bad q → r.toNat ≤ q.toNat) →
    gate i s = some ⟨.blkFault, s.c.pc, 0, w64 (r.toNat + 2 ^ (8 + r.toNat / 8)), false, 0⟩)

/-- When none of the checks of R42 applies: a uniform word of no operand that is outstanding is ready when it is well formed,
stands in an open clause outside a predicate block, is not a transfer before the clause's last word, names no register
that holds a target it may not have, has its setA flag if it is long-latency, has the level it needs, and reads no
register with an uncorrectable error; a lane word where, besides, every thread register it names lies below block B and
the crew owns the blocks it writes (R34, R42, R64, R65, R304). -/
def Obligations.ReadyWords : Prop :=
  (∀ (i : Instr) (s : State),
    i.defect = none → isLane i = false → isClause i = false → (∀ m n p, i ≠ .pblk m n p) →
    s.c.blk = none → 0 < s.c.left → (isTransfer i = true → s.c.left = 1) → (isLong i = true → s.c.setA ≠ 15) →
    (leastPrivl i).1 ≤ s.c.privl.toNat →
    (∀ r, r ∈ readRegs i ++ writtenRegs i → ∀ m, m ∈ s.c.outm → m.reg ≠ r) →
    (∀ r, r ∈ readRegs i → r ∉ s.c.bad) → s.g.bad = [] →
    (∀ a, i = .jr a ∨ i = .callr a ∨ (i = .ret ∧ a = 63) → (getS s.c a).toNat % 4 = 0 ∧ (getS s.c a).toNat < 2 ^ 57) →
    Ready i s) ∧
  (∀ (i : Instr) (s : State),
    i.defect = none → isLane i = true → 0 < s.c.left → (isLong i = true → s.c.setA ≠ 15) → (leastPrivl i).1 = 0 →
    (isTransfer i = true → s.c.left = 1) →
    (∀ r, r ∈ readRegs i ++ writtenRegs i → ∀ m, m ∈ s.c.outm → m.reg ≠ r) →
    (∀ n : BitVec 7, Reg.v n ∈ readRegs i → n.toNat / 8 < s.g.nblk) →
    (∀ n : BitVec 7, Reg.v n ∈ writtenRegs i → n.toNat / 8 < s.g.nblk ∧
      (s.g.owner.getD (n.toNat / 8) none).map (·.val) = some s.c.att) →
    s.c.bad = [] → s.g.bad = [] →
    Ready i s)

/-- Trap entry with bank select 0, once the crew has drained and its handler address is valid: TRAPCAUSE, TRAPPC, TRAPADDR
and TRAPINFO are written, PRIVL and bank select become 1 (PRIVL 2 stays 2), the pc is the handler, and ACT, the responder
stack, the marks, the tags, the scalar registers and the thread registers are left as they stand (R288). All completion
flags are 0 and no register is outstanding; CLAUSEF holds the words left, the flags, the counts and the predicate block
of the clause at TRAPPC (R291, R293); that its flag fields read 15 and its counts 0 where no word is left is the model's
choice (log 13), R293 fixing only the words left. A crew with a save record has the trap area of it written, the program
bank, the outstanding marks and the block's mark, and no other byte of memory (R292, R293). A crew whose HANDLER is 0 or
not 4-aligned is halted instead of entering a handler, its registers as they stand after the drain, with a fault record
that holds the cause and the address; for an ECC_UNCORR the thread and the register as OBJ; for a SPAWN_REFUSED the check
number as DETAIL; and OBJ the record, cell, object or control block that the cause's TRAPADDR names (R288, R294, R296;
that a halt's record is filled so is read from R296's list, log 23); and a trap raised while bank select is 1 enters no
handler: the crew is halted and no register is written (R289). -/
def Obligations.TrapEntryAsR288 : Prop :=
  (∀ (s : State) (t : TrapReq),
    s.c.bank = false → drained (drain s) = true → handlerOf (drain s) ≠ 0 → (handlerOf (drain s)).toNat % 4 = 0 →
    let u := takeTrap s t
    let d := (drain s).c
    u.c.trapcause = BitVec.ofNat 8 t.cause.code ∧ u.c.trappc = t.pc ∧ u.c.trapaddr = t.addr ∧ u.c.trapinfo = t.info ∧
    u.c.privl = (if s.c.privl = 2 then 2 else 1) ∧ u.c.bank = true ∧ u.c.pc = normPc (handlerOf (drain s)) ∧
    u.c.status = .running ∧ u.c.left = 0 ∧ u.c.blk = none ∧
    u.c.act = s.c.act ∧ u.c.stack = s.c.stack ∧ u.c.marks = d.marks ∧ u.c.tagcnt = s.c.tagcnt ∧
    u.c.tagfail = s.c.tagfail ∧ u.c.base = d.base ∧ u.c.pbank = d.pbank ∧ u.c.tbank = d.tbank ∧ u.g = (drain s).g ∧
    (∀ f, flagCount u.c f = 0) ∧ u.c.outm = [] ∧
    (let f := u.c.clausef.toNat
     let left := if t.header then 0 else if t.pc = d.pc then d.left else d.left - 1
     let counts (isB : Bool) : Nat := (d.incs.filter fun i => i.clause == d.clause && i.isB == isB).length
     d.left ≤ 32 → counts false ≤ 15 → counts true ≤ 15 → (∀ b, d.blk = some b → b.left ≤ 8) →
       bits f 0 6 = left ∧ bits f 6 4 = (if left = 0 then 15 else d.setA.toNat) ∧
       bits f 10 4 = (if left = 0 then 15 else d.setB.toNat) ∧ bits f 14 4 = (if left = 0 then 0 else counts false) ∧
       bits f 18 4 = (if left = 0 then 0 else counts true) ∧ bit f 22 = d.blk.isSome ∧
       ∀ b, d.blk = some b → bits f 23 3 = b.mark.toNat ∧ bits f 26 4 = b.left ∧ bits f 30 8 = b.pattern.toNat)) ∧
  (∀ (s : State) (t : TrapReq) (base : Nat),
    s.c.bank = false → drained (drain s) = true → handlerOf (drain s) ≠ 0 → (handlerOf (drain s)).toNat % 4 = 0 →
    let u := takeTrap s t
    let d := drain s
    RecordAt d base 8192 → d.lamps = [] →
    let word (off : Nat) : Nat := readNat u (base + off) 8
    word 0x10 = t.pc.toNat ∧ word 0x18 = t.cause.code ∧ word 0x20 = t.addr.toNat ∧ word 0x28 = t.info.toNat ∧
    word 0x30 = clausefFor d.c t % 2 ^ 64 ∧ (∀ k : Fin 16, word (0x40 + 8 * k.val) = d.c.pbank[k].toNat) ∧
    (∀ f b, f < 12 → b < 200 →
      (bit (readNat u (base + 0x400 + 32 * f) 32) b = true ↔ ∃ m ∈ d.c.outm, m.flag = f ∧ m.reg.outBit = b)) ∧
    readNat u (base + 0x1E00) 256 = ((d.c.blk.map fun (b : Block) => b.set).getD 0).toNat ∧
    (∀ a, (a < base + 0x10 ∨ base + 0x38 ≤ a) → (a < base + 0x40 ∨ base + 0xC0 ≤ a) →
      (a < base + 0x400 ∨ base + 0x580 ≤ a) → (a < base + 0x1E00 ∨ base + 0x1F00 ≤ a) → readByte u a = readByte d a)) ∧
  (∀ (s : State) (t : TrapReq),
    s.c.bank = false → drained (drain s) = true →
    (handlerOf (drain s) = 0 ∨ (handlerOf (drain s)).toNat % 4 ≠ 0) →
    let check : Nat := if t.cause = .spawnRefused then t.info.toNat % 2 ^ 8 else 0
    let named : BitVec 64 :=
      if t.cause = .eccUncorr then (if t.info.getLsbD 63 then t.obj else t.info)
      else if t.cause = .spawnRefused ∨ t.cause = .depcntUnderflow ∨ t.cause = .seqDup ∨ t.cause = .relayCfg then t.addr
      else 0
    (takeTrap s t).c = { (drain s).c with status := .halted, woken := (takeTrap s t).c.woken } ∧
    takeTrap s t = haltCrew (drain s) { cause := t.cause, addr := t.addr, pc := t.pc, detail := check, obj := named }) ∧
  (∀ (s : State) (t : TrapReq), s.c.bank = true →
    (takeTrap s t).c = { s.c with status := .halted, woken := (takeTrap s t).c.woken } ∧ (takeTrap s t).g = s.g)

/-- The bounds that the manual states for what a crew holds are kept by every step from every state that has them, and reset
has them: PRIVL 3 is never held (R10), the responder stack has at most 16 entries (R67), and a completion flag counts at most
15 (R8); for the crews of saved contexts as for the others. A word keeps ACT and every saved entry of its crew within LIVE,
as R67 and R134 say of them. What stands in save records is read so that the bounds hold (log 13). -/
def Obligations.EveryStepKeepsCrewBounds : Prop :=
  (∀ s t : State, s.bounded → step s = .next t → t.bounded) ∧ State.reset.bounded ∧
  (∀ (i : Instr) (s t : State), i.isWord = true → s.c.gid = s.g.gid → s.actWithinLive → exec i s = .next t →
    t.c.gid = t.g.gid ∧ t.actWithinLive)

/-- `TRAP n` raises cause TRAP with n in TRAPINFO[11:0] and the address of the next word in TRAPPC; `BKPT n` raises BKPT
with its own address there (R312). -/
def Obligations.TrapAndBreakpointWords : Prop :=
  ∀ (s : State) (n : BitVec 12), s.c.bank = false → drained (drain s) = true →
    handlerOf (drain s) ≠ 0 → (handlerOf (drain s)).toNat % 4 = 0 →
    (Ready (.trap n) s → Completes (.trap n) s fun t =>
      t.c.trapcause = 0x10 ∧ t.c.trappc = normPc (s.c.pc + 4) ∧ t.c.trapinfo = n.setWidth 64 ∧
      t.c.pc = normPc (handlerOf (drain s)) ∧ t.c.bank = true) ∧
    (Ready (.bkpt n) s → Completes (.bkpt n) s fun t =>
      t.c.trapcause = 0x11 ∧ t.c.trappc = s.c.pc ∧ t.c.trapinfo = n.setWidth 64 ∧
      t.c.pc = normPc (handlerOf (drain s)) ∧ t.c.bank = true)

/-- `RTE`, with everything of the handler landed, performed and answered and TRAPPC and CLAUSEF in order, goes on at
TRAPPC with bank select 0 and PRIVL 0 (2 stays 2), the clause that CLAUSEF gives open again; ACT, the responder stack, the
marks, the shared scalars and the thread registers stay (R292, R313). From a save record come the program bank, the
outstanding marks and the mark of a predicate block (R292, R293). With a TRAPPC that is not 4-aligned or is 2^57 or more,
or with impossible values in CLAUSEF, it halts the crew with DOUBLE (R313; the record's detail and address, log 23). Which
values of CLAUSEF are impossible is the model's choice: a span above 32, a flag number 12 to 14, and a block of no words,
of more than eight or of more than the span, unless the span is 0, as trap entry saves it for a `CLAUSE` within a block
(R34, R293; log 13). A save record with an uncorrectable word among what is read halts the
crew with CTX_LOST, as the model chooses (R304; log 77). -/
def Obligations.ReturnFromTrap : Prop :=
  (∀ s : State, Ready .rte s → quiet s.c = true → s.c.trappc.toNat % 4 = 0 → s.c.trappc.toNat < 2 ^ 57 →
    clausefBad s.c.clausef.toNat = false → (s.c.save ≠ 0 → s.poison = []) →
    Completes .rte s fun t =>
      t.c.pc = s.c.trappc ∧ t.c.bank = false ∧ t.c.privl = (if s.c.privl = 2 then 2 else 0) ∧
      t.c.left = bits s.c.clausef.toNat 0 6 ∧ t.c.setA.toNat = bits s.c.clausef.toNat 6 4 ∧
      t.c.setB.toNat = bits s.c.clausef.toNat 10 4 ∧ t.c.act = s.c.act ∧ t.c.stack = s.c.stack ∧
      t.c.marks = s.c.marks ∧ t.c.base = s.c.base ∧ t.c.tbank = s.c.tbank ∧
      (s.c.save = 0 → t.c.pbank = s.c.pbank) ∧ t = { s with c := t.c } ∧
      t.c.blk.isSome = bit s.c.clausef.toNat 22 ∧
      (∀ b, t.c.blk = some b → b.mark.toNat = bits s.c.clausef.toNat 23 3 ∧ b.left = bits s.c.clausef.toNat 26 4 ∧
        b.pattern.toNat = bits s.c.clausef.toNat 30 8 ∧ (s.c.save = 0 → b.set = s.c.blkSaved)) ∧
      (s.c.save = 0 → t.c.outm = s.c.outSaved) ∧
      (∀ base, s.c.save ≠ 0 → (∀ k, k < 8192 → savePlace s s.g s.c.save k = some (base + k)) →
        (∀ k : Fin 16, t.c.pbank[k].toNat = readNat s (base + 0x40 + 8 * k.val) 8) ∧
        (∀ m, m ∈ t.c.outm ↔ m.flag < 12 ∧ bit (readNat s (base + 0x400 + 32 * m.flag) 32) m.reg.outBit = true) ∧
        (∀ b, t.c.blk = some b → b.set.toNat = readNat s (base + 0x1E00) 256))) ∧
  (∀ s : State, Ready .rte s → quiet s.c = true →
    (s.c.trappc.toNat % 4 ≠ 0 ∨ 2 ^ 57 ≤ s.c.trappc.toNat ∨ clausefBad s.c.clausef.toNat = true) →
    Completes .rte s fun t =>
      t.c = { s.c with status := .halted, woken := t.c.woken } ∧
      t = haltCrew s { cause := .double, detail := s.c.trapcause.toNat, fatal := true, addr := s.c.trappc, pc := s.c.pc }) ∧
  (∀ f : Nat, clausefBad f = true ↔
    (32 < bits f 0 6 ∨ (12 ≤ bits f 6 4 ∧ bits f 6 4 ≤ 14) ∨ (12 ≤ bits f 10 4 ∧ bits f 10 4 ≤ 14) ∨
     (bit f 22 = true ∧ (bits f 26 4 = 0 ∨ 8 < bits f 26 4 ∨ (bits f 0 6 ≠ 0 ∧ bits f 0 6 < bits f 26 4))))) ∧
  (∀ s : State, Ready .rte s → quiet s.c = true → s.c.trappc.toNat % 4 = 0 → s.c.trappc.toNat < 2 ^ 57 →
    clausefBad s.c.clausef.toNat = false → returnLost s = true → Completes .rte s fun t =>
      t = haltCrew s { cause := .ctxLost, fatal := true, obj := s.c.save, pc := s.c.pc })

/-- The payload of a fault record holds the fields of R296 at their places. -/
def Obligations.FaultRecordLayout : Prop :=
  ∀ (f : FaultRec) (time : Word), f.detail < 2 ^ 8 → f.crew < 2 ^ 15 → f.peer < 2 ^ 16 →
    let b := f.bytes time
    let word (off : Nat) : Nat := ofBytes ((b.drop off).take 8)
    b.length = 64 ∧ bits (word 0) 0 8 = f.cause.code ∧ bits (word 0) 8 8 = f.detail ∧ bit (word 0) 16 = f.fatal ∧
    bit (word 0) 17 = f.halted ∧ word 0 < 2 ^ 18 ∧ word 8 = f.crew ∧ word 16 = f.addr.toNat ∧ word 24 = f.obj.toNat ∧
    word 32 = f.pc.toNat ∧ word 40 = time.toNat ∧ bits (word 48) 0 6 = (f.tag.getD 0).toNat ∧
    bit (word 48) 6 = f.tag.isSome ∧ bits (word 48) 8 16 = f.peer ∧ word 56 = f.save.toNat

/-! ### Scalar words and control (R8 to R17, R43 to R54) -/

/-- A scalar register reads what was last written to it; `s0` reads 0 and a write of it is discarded; a write changes no
other register of the selected bank and nothing of the other bank (R8, R9, R43). A thread register reads what was last
written to it, and a write changes no other register of any thread (R62). -/
def Obligations.RegistersReadAfterWrite : Prop :=
  (∀ (c : Crew) (d : BitVec 6) (x : Word),
    getS (setS c d x) d = (if d = 0 then 0 else x) ∧ setS c 0 x = c ∧
    (∀ r, r ≠ d → getS (setS c d x) r = getS c r) ∧
    (setS c d x).bank = c.bank ∧
    (if c.bank then (setS c d x).pbank = c.pbank else (setS c d x).tbank = c.tbank)) ∧
  (∀ (g : Gallery) (t : Nat) (r : BitVec 7) (x : Word),
    getV (setV g t r.toNat x) t r.toNat = x ∧
    ∀ (u : Nat) (q : BitVec 7), ¬ (u = t ∧ q = r) → getV (setV g t r.toNat x) u q.toNat = getV g u q.toNat)

/-- The functions of ALU on two registers: each writes its result to sd, advances the pc and changes nothing else
(R43, R46). -/
def Obligations.AluWritesItsResult : Prop :=
  ∀ (s : State) (d a b : BitVec 6),
    let x := getS s.c a
    let y := getS s.c b
    ∀ p ∈ [(Instr.aluAdd d a b, BitVec.ofNat 64 (x.toNat + y.toNat)), (.aluSub d a b, x - y), (.aluAnd d a b, x &&& y),
      (.aluOr d a b, x ||| y), (.aluXor d a b, x ^^^ y), (.aluAndn d a b, x &&& ~~~ y),
      (.aluShl d a b, if 64 ≤ y.toNat then 0 else x <<< y.toNat),
      (.aluShr d a b, if 64 ≤ y.toNat then 0 else x >>> y.toNat),
      (.aluSar d a b, if 64 ≤ y.toNat then (if x.msb then BitVec.allOnes 64 else 0) else x.sshiftRight y.toNat),
      (.aluMul d a b, BitVec.ofNat 64 (x.toNat * y.toNat)),
      (.aluMulhs d a b, BitVec.ofInt 64 (x.toInt * y.toInt / 2 ^ 64)),
      (.aluMulhz d a b, BitVec.ofNat 64 (x.toNat * y.toNat / 2 ^ 64)),
      (.aluMins d a b, if x.toInt ≤ y.toInt then x else y), (.aluMaxs d a b, if y.toInt ≤ x.toInt then x else y),
      (.aluMinz d a b, if x.toNat ≤ y.toNat then x else y), (.aluMaxz d a b, if y.toNat ≤ x.toNat then x else y)],
      Ready p.1 s → Completes p.1 s fun t => ScalarEffect s t d p.2

/-- The functions of ALUI: the same with the immediate sign-extended to 64 bits (R43, R46). -/
def Obligations.AluiWritesItsResult : Prop :=
  ∀ (s : State) (d a : BitVec 6) (i : BitVec 9),
    let x := getS s.c a
    let y := i.signExtend 64
    ∀ p ∈ [(Instr.aluiAddi d a i, BitVec.ofNat 64 (x.toNat + y.toNat)), (.aluiSubi d a i, x - y),
      (.aluiAndi d a i, x &&& y), (.aluiOri d a i, x ||| y), (.aluiXori d a i, x ^^^ y), (.aluiAndni d a i, x &&& ~~~ y),
      (.aluiShli d a i, if 64 ≤ y.toNat then 0 else x <<< y.toNat),
      (.aluiShri d a i, if 64 ≤ y.toNat then 0 else x >>> y.toNat),
      (.aluiSari d a i, if 64 ≤ y.toNat then (if x.msb then BitVec.allOnes 64 else 0) else x.sshiftRight y.toNat),
      (.aluiMuli d a i, BitVec.ofNat 64 (x.toNat * y.toNat)),
      (.aluiMulhsi d a i, BitVec.ofInt 64 (x.toInt * y.toInt / 2 ^ 64)),
      (.aluiMulhzi d a i, BitVec.ofNat 64 (x.toNat * y.toNat / 2 ^ 64)),
      (.aluiMinsi d a i, if x.toInt ≤ y.toInt then x else y), (.aluiMaxsi d a i, if y.toInt ≤ x.toInt then x else y),
      (.aluiMinzi d a i, if x.toNat ≤ y.toNat then x else y), (.aluiMaxzi d a i, if y.toNat ≤ x.toNat then x else y)],
      Ready p.1 s → Completes p.1 s fun t => ScalarEffect s t d p.2

/-- Division truncates toward zero, a remainder takes the sign of the dividend, and no division traps: a divisor of zero
gives all ones, or the dividend as remainder, and the overflowing quotient is the dividend with remainder 0 (R48). -/
def Obligations.DivisionAsR48 : Prop :=
  ∀ (s : State) (d a b : BitVec 6),
    let x := getS s.c a
    let y := getS s.c b
    let least : Word := 0x8000000000000000
    ∀ p ∈ [(Instr.divz d a b, if y = 0 then BitVec.allOnes 64 else BitVec.ofNat 64 (x.toNat / y.toNat)),
      (.remz d a b, if y = 0 then x else BitVec.ofNat 64 (x.toNat % y.toNat)),
      (.divs d a b, if y = 0 then BitVec.allOnes 64 else if x = least ∧ y = BitVec.allOnes 64 then x
        else BitVec.ofInt 64 (x.toInt.tdiv y.toInt)),
      (.rems d a b, if y = 0 then x else if x = least ∧ y = BitVec.allOnes 64 then 0
        else BitVec.ofInt 64 (x.toInt.tmod y.toInt))],
      Ready p.1 s → Completes p.1 s fun t => ScalarEffect s t d p.2

/-- The bit functions, comparisons and moves of ALX, and `MOVW` (R49, R50, R51). -/
def Obligations.AlxAndMovwWriteTheirResult : Prop :=
  ∀ (s : State) (d a b : BitVec 6) (c : BitVec 3) (h : BitVec 2) (i : BitVec 16),
    let x := getS s.c a
    let y := getS s.c b
    let old := getS s.c d
    let pos := y.toNat % 64
    let len := Nat.min (y.toNat / 256 % 128) (64 - pos)
    ∀ p ∈ [(Instr.alxClz d a, BitVec.ofNat 64 (if x = 0 then 64 else 63 - x.toNat.log2)),
      (.alxPopc d a, BitVec.ofNat 64 (((List.range 64).filter fun k => x.getLsbD k).length)),
      (.alxBfx d a b, BitVec.ofNat 64 (x.toNat / 2 ^ pos % 2 ^ len)),
      (.alxBfi d a b, BitVec.ofNat 64 (insertBits old.toNat x.toNat pos len)),
      (.cmps d a b c, if (match c.toNat with
          | 0 => decide (x = y)
          | 1 => decide (x ≠ y)
          | 2 => decide (x.toInt < y.toInt)
          | 3 => decide (x.toInt ≤ y.toInt)
          | 4 => decide (x.toNat < y.toNat)
          | _ => decide (x.toNat ≤ y.toNat)) then 1 else 0),
      (.alxMov d a, x), (.selnz d a b, if x ≠ 0 then y else old),
      (.movw h d i, BitVec.ofNat 64 (i.toNat * 2 ^ (16 * h.toNat))),
      (.movwk h d i, BitVec.ofNat 64 (insertBits old.toNat i.toNat (16 * h.toNat) 16))],
      Ready p.1 s → Completes p.1 s fun t => ScalarEffect s t d p.2

/-- A field inserted at a position: its bits come from the low bits of the source, and every other bit stays (R49, R51). The
sub-elements put into a register are read back from it, each modulo 2 to its width (R27, R68). The bit reversal of a
sub-element moves bit i to bit n - 1 - i (R101). What the named operations on numbers are: `RoundToFormat` rounds its
exact argument once, in the four modes, with the flags of R82 (R80); a pattern is the value that its fields give,
subnormals kept (R79); the sum, difference, product and fused product of finite operands are the exact value rounded
once; every NaN written is the canonical one, and NV is set for a signalling operand and for an invalid operation (R81);
minimumNumber and maximumNumber, the comparisons, the integral roundings, the reciprocal and the two roots, and the
special values of the other functions (R81, R96, R118, R119). A conversion gives the value rounded by its mode, or the
nearest bound (R83 to R86, R122; where R83 leaves out of range open, log 67). In E4M3 the magnitude 464 still rounds to
448, and only a greater one overflows (R85). -/
def Obligations.BitFieldsAndSubElements : Prop :=
  (∀ d a pos len k : Nat,
    bit (insertBits d a pos len) k = if pos ≤ k ∧ k < pos + len then bit a (k - pos) else bit d k) ∧
  (∀ (w : BitVec 2) (f : Nat → Nat) (j : Nat), j < 64 / widthOf w →
    sub (widthOf w) (joinSubs (widthOf w) f) j = f j % 2 ^ widthOf w) ∧
  (∀ (w : BitVec 2) (x k : Nat), k < widthOf w → bit (brevSub (widthOf w) x) k = bit x (widthOf w - 1 - k)) ∧
  (∀ p ∈ [(bf16, 8, 7, (127 : Int), 0x7FC0, 0x7F7F), (fp16, 5, 10, 15, 0x7E00, 0x7BFF),
      (fp32, 8, 23, 127, 0x7FC00000, 0x7F7FFFFF), (fp64, 11, 52, 1023, 0x7FF8000000000000, 0x7FEFFFFFFFFFFFFF)],
    let f := p.1
    let eb := p.2.1
    let mb := p.2.2.1
    let bias := p.2.2.2.1
    let sign := 2 ^ (eb + mb)
    f.width = 1 + eb + mb ∧ f.emin = 1 - bias ∧ f.nan = p.2.2.2.2.1 ∧
    (∀ neg : Bool, let s := if neg then sign else 0
      f.largest neg = p.2.2.2.2.2 + s ∧ f.inf neg = p.2.2.2.2.2 + 1 + s ∧ f.zero neg = s) ∧
    ∀ x, x < 2 ^ f.width →
      let frac := bits x 0 mb
      let ex := bits x mb eb
      let neg := bit x (eb + mb)
      (ex = 2 ^ eb - 1 → f.value x = if frac = 0 then .inf neg else .nan (!bit x (mb - 1))) ∧
      (ex ≠ 2 ^ eb - 1 → ∃ m e, f.value x = .num neg m e ∧ (FVal.num neg m e).rat = (if neg then -1 else 1) *
        (if ex = 0 then (frac : ℚ) / 2 ^ mb * 2 ^ (1 - bias) else (1 + (frac : ℚ) / 2 ^ mb) * 2 ^ ((ex : Int) - bias)))) ∧
  (∀ f ∈ [bf16, fp16, fp32, fp64],
    (∀ (mode : BitVec 2) (neg : Bool) (m : Nat) (e : Int), 0 < m →
      RoundedOnce f mode neg (FVal.num neg m e).rat (f.round mode neg m e false) ∧
      f.round mode neg 0 e false = ⟨f.zero neg, 0⟩ ∧ f.ofVal mode (.num neg m e) = f.round mode neg m e false) ∧
    (∀ (mode : BitVec 2) (a b d : Nat) (na nb nd : Bool) (ma mb md : Nat) (ea eb ed : Int),
      f.value a = .num na ma ea → f.value b = .num nb mb eb → f.value d = .num nd md ed →
      let x := (FVal.num na ma ea).rat
      let y := (FVal.num nb mb eb).rat
      let z := (FVal.num nd md ed).rat
      IsExactly f mode (x + y) (if na = nb then na else mode == 3) (f.add mode a b) ∧
      IsExactly f mode (x - y) (if na ≠ nb then na else mode == 3) (f.sub mode a b) ∧
      IsExactly f mode (x * y) (na != nb) (f.mul mode a b) ∧
      IsExactly f mode (x * y + z) (if (na != nb) = nd then nd else mode == 3) (f.fma mode a b d)) ∧
    (∀ (mode : BitVec 2) (a b d : Nat), a < 2 ^ f.width → b < 2 ^ f.width → d < 2 ^ f.width →
      let x := f.value a
      let y := f.value b
      let nv (p : Bool) : Nat := if p then 16 else 0
      (∀ r ∈ [f.add mode a b, f.sub mode a b, f.mul mode a b, f.fma mode a b d, f.minmax false a b, f.minmax true a b,
          f.integral mode true a, f.signOp false a, f.signOp true a, f.rcp a, f.rsqrt a, f.sqrt mode a, f.exp2 a, f.log2 a,
          f.trig false a, f.trig true a],
        r.bits < 2 ^ f.width ∧ ((f.value r.bits).isNan = true → r.bits = f.nan)) ∧
      (x.isNan = true ∨ y.isNan = true → ∀ r ∈ [f.add mode a b, f.sub mode a b, f.mul mode a b],
        r = ⟨f.nan, nv (x.isSig || y.isSig)⟩) ∧
      (x.isNan = true → ∀ r ∈ [f.integral mode true a, f.signOp false a, f.signOp true a, f.rcp a, f.rsqrt a,
        f.sqrt mode a, f.exp2 a, f.log2 a, f.trig false a, f.trig true a], r = ⟨f.nan, nv x.isSig⟩) ∧
      (∀ p q, x = .inf p → y = .inf q → f.add mode a b = (if p = q then ⟨f.inf p, 0⟩ else ⟨f.nan, 16⟩) ∧
        f.sub mode a b = (if p = q then ⟨f.nan, 16⟩ else ⟨f.inf p, 0⟩) ∧ f.mul mode a b = ⟨f.inf (p != q), 0⟩) ∧
      (∀ p q m e, x = .inf p → y = .num q m e → f.add mode a b = ⟨f.inf p, 0⟩ ∧ f.sub mode a b = ⟨f.inf p, 0⟩ ∧
        f.add mode b a = ⟨f.inf p, 0⟩ ∧ f.sub mode b a = ⟨f.inf (!p), 0⟩ ∧
        ∀ r ∈ [f.mul mode a b, f.mul mode b a], r = if m = 0 then ⟨f.nan, 16⟩ else ⟨f.inf (p != q), 0⟩) ∧
      (x.isNan = false → y.isNan = false →
        let less (u v : FVal) : Prop := u.ext < v.ext ∨ (u.ext = v.ext ∧ u.isNeg = true ∧ v.isNeg = false)
        (less x y → f.minmax false a b = ⟨a, 0⟩ ∧ f.minmax true a b = ⟨b, 0⟩) ∧
        (less y x → f.minmax false a b = ⟨b, 0⟩ ∧ f.minmax true a b = ⟨a, 0⟩) ∧
        (¬ less x y → ¬ less y x → a = b ∧ f.minmax false a b = ⟨a, 0⟩ ∧ f.minmax true a b = ⟨a, 0⟩) ∧
        f.rel 0 a b = (decide (x.ext = y.ext), 0) ∧ f.rel 1 a b = (decide (x.ext ≠ y.ext), 0) ∧
        f.rel 2 a b = (decide (x.ext < y.ext), 0) ∧ f.rel 3 a b = (decide (x.ext ≤ y.ext), 0)) ∧
      (x.isNan = true ∨ y.isNan = true →
        (∀ m : BitVec 2, f.rel m a b = (m == 1, if 2 ≤ m.toNat then 16 else nv (x.isSig || y.isSig))) ∧
        ∀ w, f.minmax w a b = ⟨if x.isNan = false then a else if y.isNan = false then b else f.nan, nv (x.isSig || y.isSig)⟩) ∧
      (x.isNan = false → f.value (f.signOp true a).bits = x.neg ∧ f.value (f.signOp false a).bits =
        (if x.isNeg then x.neg else x) ∧ (f.signOp true a).flags = 0 ∧ (f.signOp false a).flags = 0) ∧
      (∀ p, x = .inf p → f.integral mode true a = ⟨f.inf p, 0⟩ ∧ f.rcp a = ⟨f.zero p, 0⟩ ∧
        f.rsqrt a = (if p then ⟨f.nan, 16⟩ else ⟨f.zero false, 0⟩) ∧
        f.sqrt mode a = (if p then ⟨f.nan, 16⟩ else ⟨f.inf false, 0⟩) ∧
        f.exp2 a = (if p then ⟨f.zero false, 0⟩ else ⟨f.inf false, 0⟩) ∧
        f.log2 a = (if p then ⟨f.nan, 16⟩ else ⟨f.inf false, 0⟩) ∧
        f.trig false a = ⟨f.nan, 16⟩ ∧ f.trig true a = ⟨f.nan, 16⟩) ∧
      (∀ p e, x = .num p 0 e → f.rcp a = ⟨f.inf p, 8⟩ ∧ f.rsqrt a = ⟨f.inf p, 8⟩ ∧ f.sqrt mode a = ⟨f.zero p, 0⟩ ∧
        f.log2 a = ⟨f.inf true, 8⟩ ∧ f.trig false a = ⟨f.zero p, 0⟩ ∧
        (∀ r ∈ [f.exp2 a, f.trig true a], (f.value r.bits).rat = 1 ∧ r.flags = 0)) ∧
      (∀ m e, x = .num true m e → 0 < m → ∀ r ∈ [f.rsqrt a, f.sqrt mode a, f.log2 a], r = ⟨f.nan, 16⟩) ∧
      (∀ p m e, x = .num p m e → 0 < m →
        RoundsTo f 0 p (1 / x.rat) (f.rcp a).bits ∧
        (bit (f.rcp a).flags 2 = true ↔ f.tooBig 0 p (1 / x.rat)) ∧
        (∀ r ∈ [f.rcp a, f.rsqrt a, f.exp2 a, f.log2 a, f.trig false a, f.trig true a], bit r.flags 0 = false)) ∧
      (∀ m e, x = .num false m e → 0 < m →
        (∃ n k, f.value (f.sqrt mode a).bits = .num false n k ∧
          let r := (FVal.num false n k).rat
          let u := f.spacing r
          0 < r ∧ (mode = 0 → (r - u / 2) ^ 2 ≤ x.rat ∧ x.rat ≤ (r + u / 2) ^ 2) ∧
          (mode = 1 ∨ mode = 3 → r ^ 2 ≤ x.rat ∧ x.rat < (r + u) ^ 2) ∧
          (mode = 2 → (r - u) ^ 2 < x.rat ∧ x.rat ≤ r ^ 2) ∧ (f.sqrt mode a).flags = if r ^ 2 = x.rat then 0 else 1) ∧
        (∃ n k, f.value (f.rsqrt a).bits = .num false n k ∧
          let r := (FVal.num false n k).rat
          let u := f.spacing r
          0 < r ∧ (r - u / 2) ^ 2 * x.rat ≤ 1 ∧ 1 ≤ (r + u / 2) ^ 2 * x.rat) ∧
        (∀ k : Int, x.rat = 2 ^ k → (f.value (f.log2 a).bits).rat = k ∧ (f.log2 a).flags = 0)) ∧
      (∀ p m e, x = .num p m e → ∀ nx : Bool, ∃ n k, f.value (f.integral mode nx a).bits = .num p n k ∧
        let r := (FVal.num p n k).rat
        (∃ z : ℤ, r = z ∧ (mode = 0 → |r - x.rat| ≤ 1 / 2 ∧ (|r - x.rat| = 1 / 2 → Even z))) ∧
        (mode = 1 → r = if p then (⌈x.rat⌉ : ℚ) else ⌊x.rat⌋) ∧ (mode = 2 → r = ⌈x.rat⌉) ∧ (mode = 3 → r = ⌊x.rat⌋) ∧
        (f.integral mode nx a).flags = if nx = true ∧ r ≠ x.rat then 1 else 0))) ∧
  (∀ (mode : BitVec 2) (sat : Bool),
    (∀ p ∈ [((0 : Nat), (-2 ^ 31 : Int), (2 ^ 31 - 1 : Int), (32 : Nat)), (1, 0, 2 ^ 32 - 1, 32), (7, -2 ^ 63, 2 ^ 63 - 1, 64)],
      let pat (z : Int) : Nat := (z % 2 ^ p.2.2.2).toNat
      (∀ z : Int, convert p.1 mode sat (.int z) =
        ⟨pat (if sat then min p.2.2.1 (max p.2.1 z) else z), 0⟩) ∧
      (∀ g, convert p.1 mode sat (.flt (.nan g)) = ⟨0, 16⟩) ∧
      (∀ neg, convert p.1 mode sat (.flt (.inf neg)) = ⟨pat (if neg then p.2.1 else p.2.2.1), 16⟩) ∧
      (∀ neg m e, ∃ z : Int, Nearest mode (FVal.num neg m e).rat z 1 (Even z) ∧
        convert p.1 mode sat (.flt (.num neg m e)) =
          if z < p.2.1 then ⟨pat p.2.1, 16⟩ else if p.2.2.1 < z then ⟨pat p.2.2.1, 16⟩
          else ⟨pat z, if (z : ℚ) = (FVal.num neg m e).rat then 0 else 1⟩)) ∧
    (∀ p ∈ [((2 : Nat), bf16), (3, fp16), (4, fp32), (5, fp64)],
      (∀ z : Int, convert p.1 mode sat (.int z) = p.2.round mode (decide (z < 0)) z.natAbs 0 false) ∧
      (∀ g, convert p.1 mode sat (.flt (.nan g)) = ⟨p.2.nan, if g then 16 else 0⟩) ∧
      (∀ neg, convert p.1 mode sat (.flt (.inf neg)) = ⟨p.2.inf neg, 0⟩) ∧
      (∀ neg m e, convert p.1 mode sat (.flt (.num neg m e)) =
        let r := p.2.round mode neg m e false
        if sat = true ∧ bit r.flags 2 = true then ⟨p.2.largest neg, r.flags⟩ else r)) ∧
    (∀ x, convert 6 mode sat (.flt x) = toE4m3 sat x) ∧
    (∀ z : Int, convert 6 mode sat (.int z) = toE4m3 sat (.num (decide (z < 0)) z.natAbs 0)) ∧
    (∀ g, toE4m3 sat (.nan g) = ⟨0x7F, if g then 16 else 0⟩) ∧
    (∀ neg, toE4m3 sat (.inf neg) = ⟨if sat then (if neg then 0xFE else 0x7E) else 0x7F, 16⟩) ∧
    (∀ neg e, toE4m3 sat (.num neg 0 e) = ⟨if neg then 0x80 else 0, 0⟩) ∧
    (∀ neg m e, 0 < m →
      let v := (FVal.num neg m e).rat
      let u : ℚ := 2 ^ (max (Int.log 2 |v|) (-6) - 3)
      let r := toE4m3 sat (.num neg m e)
      (464 < |v| → r = ⟨if sat then (if neg then 0xFE else 0x7E) else 0x7F, 5⟩) ∧
      (|v| ≤ 464 → ∃ n k, e4m3Value r.bits = .num neg n k ∧
        Nearest 0 v (FVal.num neg n k).rat u (r.bits % 2 = 0) ∧
        (bit r.flags 0 = true ↔ (FVal.num neg n k).rat ≠ v) ∧ r.flags < 4))) ∧
  (∀ x : Nat, x < 256 →
    let s : ℚ := if bit x 7 then -1 else 1
    let m := bits x 0 3
    let e := bits x 3 4
    (e = 15 ∧ m = 7 → e4m3Value x = .nan false) ∧
    (e = 0 → (e4m3Value x).rat = s * m * 2 ^ (-9 : Int)) ∧
    (e ≠ 0 → ¬ (e = 15 ∧ m = 7) → (e4m3Value x).rat = s * (1 + m / 8) * 2 ^ ((e : Int) - 7))) ∧
  (∀ nib e mu : Nat, nib < 16 → e < 256 → mu < 2 →
    (e = 255 → nb4Value nib e mu = .nan false) ∧
    (e ≠ 255 → (nb4Value nib e mu).rat = (if bit nib 3 then -1 else 1) * bits nib 0 3 * 2 ^ ((e : Int) - 127 - mu)))

/-- `BRC`, `BR` and `CALL`: the target is the pc and a signed number of words; `CALL` writes the address of the next word
to `s63` and nothing else is written (R52, R53); and the eight conditions of `BRC` (R52). -/
def Obligations.BranchesGoToTheirTarget : Prop :=
  (∀ (s : State) (c : BitVec 4) (a b : BitVec 6) (o : BitVec 9) (k : BitVec 25),
    (Ready (.brc c a b o) s → relBrc (c.setWidth 3) (getS s.c a) (getS s.c b) = true →
      Completes (.brc c a b o) s fun t => JumpEffect s t (s.c.pc + 4 * o.signExtend 64) s.c) ∧
    (Ready (.brc c a b o) s → relBrc (c.setWidth 3) (getS s.c a) (getS s.c b) = false →
      Completes (.brc c a b o) s fun t => CrewEffect s t s.c) ∧
    (Ready (.br k) s →
      Completes (.br k) s fun t => JumpEffect s t (s.c.pc + 4 * k.signExtend 64) s.c) ∧
    (Ready (.call k) s →
      Completes (.call k) s fun t => JumpEffect s t (s.c.pc + 4 * k.signExtend 64) (setS s.c 63 (s.c.pc + 4)))) ∧
  (∀ x y : Word,
    (relBrc 0 x y = decide (x = y)) ∧ (relBrc 1 x y = decide (x ≠ y)) ∧
    (relBrc 2 x y = decide (x.toInt < y.toInt)) ∧ (relBrc 3 x y = decide (y.toInt ≤ x.toInt)) ∧
    (relBrc 4 x y = decide (x.toNat < y.toNat)) ∧ (relBrc 5 x y = decide (y.toNat ≤ x.toNat)) ∧
    (relBrc 6 x y = decide (x = 0)) ∧ (relBrc 7 x y = decide (x ≠ 0)))

/-- `JR`, `CALLR` and `RET` go to the address in their register, read before `CALLR` writes its link. A register target
that is not 4-aligned raises ALIGN at the jump, and one with a bit above bit 56 raises XLATE, with no link written; ALIGN
comes first (R17, R54). These stand before the other checks of the word, unless the register is outstanding or
uncorrectable (R15, R42, R304; log 68). -/
def Obligations.RegisterJumpsGoToTheirTarget : Prop :=
  (∀ (s : State) (a : BitVec 6),
    (Ready (.jr a) s → Completes (.jr a) s fun t => JumpEffect s t (getS s.c a) s.c) ∧
    (Ready (.callr a) s → Completes (.callr a) s fun t => JumpEffect s t (getS s.c a) (setS s.c 63 (s.c.pc + 4))) ∧
    (Ready .ret s → Completes .ret s fun t => JumpEffect s t (getS s.c 63) s.c)) ∧
  (∀ (s : State) (a : BitVec 6), ∀ p ∈ [(Instr.jr a, a), (.callr a, a), (.ret, 63)],
    let x := getS s.c p.2
    (∀ m ∈ s.c.outm, m.reg ≠ .s p.2) → .s p.2 ∉ s.c.bad →
    (x.toNat % 4 ≠ 0 → exec p.1 s = .next (takeTrap s ⟨.align, s.c.pc, x, 0, false, 0⟩)) ∧
    (x.toNat % 4 = 0 → 2 ^ 57 ≤ x.toNat → exec p.1 s = .next (takeTrap s ⟨.xlate, s.c.pc, x, 0, false, 0⟩)) ∧
    (Ready p.1 s → x.toNat % 4 = 0 ∧ x.toNat < 2 ^ 57))

/-- A header whose wait flags are clear and whose set flags have room opens its clause: the outstanding marks that waited
on its wait flags go, its set flags rise by one, and its span follows. With a wait flag that is not clear, or without room
in a flag it sets, it holds its crew with no effect (R11, R12, R15). A trap that was deferred is raised at the next header
before it takes effect: an uncorrectable word that a load met, and a duplicate of a `REDQ` whose contributions are all
answered, each with bit 63 and the address of its word in TRAPINFO (R224, R294, R304); of several, the oldest, which is the
model's choice (log 87). -/
def Obligations.HeaderOpensItsClause : Prop :=
  (∀ (s : State) (w : BitVec 12) (a b : BitVec 4) (l : BitVec 5),
    Ready (.clause w a b l) s → s.c.deferred = [] →
    (∀ f, f < 12 → w.getLsbD f = true → flagCount s.c f = 0) →
    (a ≠ 15 → flagCount s.c a.toNat ≠ 15) →
    (b ≠ 15 → flagCount s.c b.toNat + (if a = b then 1 else 0) ≠ 15) →
    Completes (.clause w a b l) s fun t =>
      t.c.left = l.toNat + 1 ∧ t.c.setA = a ∧ t.c.setB = b ∧ t.c.pc = normPc (s.c.pc + 4) ∧
      (∀ f, flagCount t.c f =
        flagCount s.c f + (if a ≠ 15 ∧ a.toNat = f then 1 else 0) + (if b ≠ 15 ∧ b.toNat = f then 1 else 0)) ∧
      (∀ m, m ∈ t.c.outm ↔ m ∈ s.c.outm ∧ w.getLsbD m.flag = false) ∧
      t = { s with c := { s.c with
        clause := t.c.clause, left := t.c.left, setA := t.c.setA, setB := t.c.setB, incs := t.c.incs, outm := t.c.outm,
        pc := t.c.pc, status := .running } }) ∧
  (∀ (s : State) (w : BitVec 12) (a b : BitVec 4) (l : BitVec 5),
    Ready (.clause w a b l) s → s.c.deferred = [] →
    ((∃ f, f < 12 ∧ w.getLsbD f = true ∧ flagCount s.c f ≠ 0) ∨ (a ≠ 15 ∧ flagCount s.c a.toNat = 15) ∨
      (b ≠ 15 ∧ flagCount s.c b.toNat + (if a = b then 1 else 0) = 15)) →
    Completes (.clause w a b l) s fun t => Waits s t) ∧
  (∀ (s : State) (w : BitVec 12) (a b : BitVec 4) (l : BitVec 5) (x : TrapReq) (rest : List TrapReq),
    Ready (.clause w a b l) s → s.c.deferred = x :: rest →
    exec (.clause w a b l) s = .next (takeTrap { s with c := { s.c with deferred := rest } }
      { cause := x.cause, pc := s.c.pc, addr := x.addr, info := x.info, header := true, obj := x.obj })) ∧
  (∀ (s : State) (addr : Word) (thread reg : Nat),
    let f := crewFault s s.c.uid { cause := .eccUncorr, addr := addr, obj := w64 (thread + 2 ^ 16 * reg), pc := s.c.pc }
    (s.c.status ≠ .exited → (deferEcc s addr thread reg).c.deferred = f.c.deferred ++
        [⟨.eccUncorr, 0, addr, w64 (2 ^ 63 + s.c.pc.toNat % 2 ^ 57), true, w64 (thread + 2 ^ 16 * reg)⟩]) ∧
    (s.c.status = .exited → deferEcc s addr thread reg = f)) ∧
  (∀ (s : State) (d : DupNote), s.c.redq = [] → s.c.dups = [d] → s.c.status ≠ .exited →
    settleDups s = { s with c := { s.c with dups := [], deferred := s.c.deferred ++
      [⟨.seqDup, 0, d.va, w64 (2 ^ 63 + d.word.toNat % 2 ^ 57), true, 0⟩] } })

/-! ### Lane words, searches, marks and blocks (R60 to R143) -/

/-- The integer lane words of two registers, per sub-element of width n (R97 to R102, R105). -/
def Obligations.LaneIntegerWords : Prop :=
  ∀ (s : State) (w : BitVec 2) (d a b : BitVec 7) (m : BitVec 1) (k : BitVec 2),
    let n := widthOf w
    let per (f : Nat → Nat → Nat) (t : Nat) : Word := joinSubs n fun j => f (sub n (reg s t a) j) (sub n (reg s t b) j)
    let val (x : Nat) : Int := if m = 0 then signed n x else x
    let clamp (x : Int) : Int :=
      if m = 0 then min (2 ^ (n - 1) - 1) (max (-(2 ^ (n - 1))) x) else min (2 ^ n - 1) (max 0 x)
    let mask (c : Bool) : Nat := if c then 2 ^ n - 1 else 0
    ∀ p ∈ [(Instr.add w d a b, per fun x y => (x + y) % 2 ^ n),
      (.sub w d a b, per fun x y => (2 ^ n + x - y) % 2 ^ n), (.mul w d a b, per fun x y => x * y % 2 ^ n),
      (.mulh w d a b m, per fun x y => wrap n (val x * val y / 2 ^ n)),
      (.addsat w d a b m, per fun x y => wrap n (clamp (val x + val y))),
      (.subsat w d a b m, per fun x y => wrap n (clamp (val x - val y))),
      (.min w d a b m, per fun x y => if val x ≤ val y then x else y),
      (.max w d a b m, per fun x y => if val y ≤ val x then x else y),
      (.and w d a b, per fun x y => x &&& y), (.or w d a b, per fun x y => x ||| y),
      (.xor w d a b, per fun x y => x ^^^ y), (.andn w d a b, per fun x y => x &&& (2 ^ n - 1 - y)),
      (.shl w d a b, per fun x y => if n ≤ y then 0 else x * 2 ^ y % 2 ^ n),
      (.shr w d a b, per fun x y => if n ≤ y then 0 else x / 2 ^ y),
      (.sar w d a b, per fun x y => wrap n (signed n x / 2 ^ min y n)),
      (.cmp w d a b k, per fun x y => mask (match k.toNat with
        | 0 => decide (x = y)
        | 1 => decide (x ≠ y)
        | 2 => decide (signed n x < signed n y)
        | _ => decide (signed n x ≤ signed n y))),
      (.cmpz w d a b k, per fun x y => mask (match k.toNat with
        | 0 => decide (x = y)
        | 1 => decide (x ≠ y)
        | 2 => decide (x < y)
        | _ => decide (x ≤ y)))],
      Ready p.1 s → Completes p.1 s fun t => LaneEffect s t d p.2 0

/-- The integer lane words of one register, of an immediate, of a scalar and of three registers (R27, R97 to R107). BFX and
BFI act at a position and a length that the control word of the thread gives, the length cut off at the sub-element's end;
a position past it reads 0 or leaves the sub-element (R106; the bits of `insertBits` are in BitFieldsAndSubElements). PACK
narrows the elements of both registers, UNPK widens those of one half (R107). -/
def Obligations.LaneUnaryImmediateWords : Prop :=
  ∀ (s : State) (w : BitVec 2) (d a b : BitVec 7) (i : BitVec 9) (q : BitVec 6) (m : BitVec 1) (k : BitVec 2),
    let n := widthOf w
    let im := immSub n i
    let per (f : Nat → Nat) (t : Nat) : Word := joinSubs n fun j => f (sub n (reg s t a) j)
    let pos (t : Nat) : Nat := (reg s t b).toNat % 64
    let len (t : Nat) : Nat := min ((reg s t b).toNat / 2 ^ 8 % 2 ^ 7) (n - pos t)
    ∀ p ∈ [(Instr.addi w d a i, per fun x => (x + im) % 2 ^ n), (.andi w d a i, per fun x => x &&& im),
      (.xori w d a i, per fun x => x ^^^ im),
      (.shli w d a i, per fun x => if n ≤ i.toNat then 0 else x * 2 ^ i.toNat % 2 ^ n),
      (.shri w d a i, per fun x => if n ≤ i.toNat then 0 else x / 2 ^ i.toNat),
      (.sari w d a i, per fun x => wrap n (signed n x / 2 ^ min i.toNat n)),
      (.abs w d a, per fun x => (signed n x).natAbs % 2 ^ n), (.neg w d a, per fun x => (2 ^ n - x) % 2 ^ n),
      (.not w d a, per fun x => 2 ^ n - 1 - x), (.clz w d a, per fun x => if x = 0 then n else n - 1 - x.log2),
      (.popc w d a, per fun x => ((List.range n).filter (bit x)).length), (.brev w d a, per (brevSub n)),
      (.mov w d a, per fun x => x), (.movi w d i, fun _ => joinSubs n fun _ => im),
      (.bcast w d q, fun _ => joinSubs n fun _ => (getS s.c q).toNat),
      (.spec w d k, fun t => joinSubs n fun _ => match k.toNat with
        | 0 => t
        | 1 => t % 32
        | 2 => t / 32
        | _ => s.g.nthr),
      (.mad w d a b, fun t => joinSubs n fun j =>
        (sub n (reg s t a) j * sub n (reg s t b) j + sub n (reg s t d) j) % 2 ^ n),
      (.bfx w d a b m, fun t => joinSubs n fun j =>
        if n ≤ pos t ∨ len t = 0 then 0
        else
          let x := sub n (reg s t a) j / 2 ^ pos t % 2 ^ len t
          if m = 0 then x else wrap n (signed (len t) x)),
      (.bfi w d a b, fun t => joinSubs n fun j =>
        if n ≤ pos t then sub n (reg s t d) j
        else insertBits (sub n (reg s t d) j) (sub n (reg s t a) j) (pos t) (len t)),
      (.pack w d a b k, fun t => joinSubs (n / 2) fun j =>
        let x := if j < 64 / n then sub n (reg s t a) j else sub n (reg s t b) (j - 64 / n)
        match k.toNat with
          | 0 => wrap (n / 2) (min (2 ^ (n / 2 - 1) - 1) (max (-(2 ^ (n / 2 - 1))) (signed n x)))
          | 1 => min (2 ^ (n / 2) - 1) x
          | _ => x % 2 ^ (n / 2)),
      (.unpk w d a k, fun t => joinSubs n fun j =>
        let x := sub (n / 2) (reg s t a) (if k.toNat < 2 then j else j + 64 / n)
        if k.toNat % 2 = 0 then wrap n (signed (n / 2) x) else x)],
      Ready p.1 s → Completes p.1 s fun t => LaneEffect s t d p.2 0

/-- The floating-point lane words that are not long-latency, per sub-element of their format; the flags of all active
threads are gathered into XSTAT (R82, R113, R116 to R119). What each function of a format gives is stated in
BitFieldsAndSubElements: the exact value rounded once, the canonical NaN, the special values and the flags (R80 to R82,
R96). -/
def Obligations.LaneFloatWords : Prop :=
  ∀ (s : State) (w : BitVec 2) (d a b : BitVec 7) (m : BitVec 2),
    let k := fmtOf w
    let x (t j : Nat) : Nat := sub k.width (reg s t a) j
    let y (t j : Nat) : Nat := sub k.width (reg s t b) j
    let z (t j : Nat) : Nat := sub k.width (reg s t d) j
    ∀ p ∈ [(Instr.fadd w d a b m, fun t j => k.add m (x t j) (y t j)), (.fsub w d a b m, fun t j => k.sub m (x t j) (y t j)),
      (.fmul w d a b m, fun t j => k.mul m (x t j) (y t j)), (.ffma w d a b m, fun t j => k.fma m (x t j) (y t j) (z t j)),
      (.fmin w d a b, fun t j => k.minmax false (x t j) (y t j)), (.fmax w d a b, fun t j => k.minmax true (x t j) (y t j)),
      (.fcmp w d a b m, fun t j =>
        ⟨if (k.rel m (x t j) (y t j)).1 then 2 ^ k.width - 1 else 0, (k.rel m (x t j) (y t j)).2⟩),
      (.fabs w d a, fun t j => k.signOp false (x t j)), (.fneg w d a, fun t j => k.signOp true (x t j)),
      (.fflr w d a, fun t j => k.integral 3 false (x t j)), (.fceil w d a, fun t j => k.integral 2 false (x t j)),
      (.ftrunc w d a, fun t j => k.integral 1 false (x t j)), (.frint w d a m, fun t j => k.integral m true (x t j))],
      Ready p.1 s → Completes p.1 s fun t =>
        let r (th : Nat) : FRes := packResults k.width (subResults k.width (p.2 th))
        LaneEffect s t d (fun th => w64 (r th).bits) (BitVec.ofNat 10 (flagsOf ((laneThreads s).map r)))

/-- The conversions, the scalings and the cross-lane words; the flags of all active threads are gathered into XSTAT (R82). A
conversion takes as many elements as the wider of its formats allows (R40, R121). A shuffle reads lane k of the subgroup,
lane XOR k, the lane k below or the lane k above; outside the subgroup the element stays and XOOR is set, and a source
that is not in LIVE gives 0 and sets XDEAD (R110). A reduction combines the members of the subgroup over the binary tree,
and a scan from the lowest member up to the thread; an absent child passes the other on, and no member gives the
operator's identity (R93, R94, R109, R111). What one conversion and one step of a format give is stated in
BitFieldsAndSubElements. Every NaN that is written is the canonical one, and a signalling one sets NV (R81); that this
holds of a NaN that met no operation too is read from R81's word 'every' (log 66). -/
def Obligations.LaneConversionAndCrossLaneWords : Prop :=
  (∀ (s : State) (w m bq qq : BitVec 2) (d a b o : BitVec 7) (src dst : BitVec 3) (u b1 : BitVec 1) (v : BitVec 6),
    let n := redWidth w o
    let x := s.c.xsub.toNat
    let width (c : BitVec 3) : Nat := [32, 32, 16, 16, 32, 64, 8, 64].getD c.toNat 0
    let decode (e : Nat) : CvtVal := match src.toNat with
      | 0 => .int (signed 32 e)
      | 1 => .int e
      | 2 => .flt (bf16.value e)
      | 3 => .flt (fp16.value e)
      | 4 => .flt (fp32.value e)
      | 5 => .flt (fp64.value e)
      | 6 => .flt (e4m3Value e)
      | _ => .int (signed 64 e)
    let shuffled (t j : Nat) : FRes :=
      let e := 8 * 2 ^ w.toNat
      let k := sub e (reg s t b) j
      let lane := t % 32
      let outside : Bool := match m.toNat with
        | 0 => decide (x ≤ k)
        | 1 => decide (x ≤ k)
        | 2 => decide (lane % x < k)
        | _ => decide (x ≤ lane % x + k)
      let source := t / 32 * 32 + match m.toNat with
        | 0 => lane - lane % x + k
        | 1 => lane ^^^ k
        | 2 => lane - k
        | _ => lane + k
      if outside then ⟨sub e (reg s t a) j, 256⟩
      else if s.g.live.getLsbD source then ⟨sub e (reg s source a) j, 0⟩ else ⟨0, 512⟩
    let member (j t : Nat) : Option Nat :=
      if (activeSet s.c).getLsbD t then some (sub n (reg s t a) j) else none
    let written (r : FRes) : FRes :=
      if 8 ≤ o.toNat then (match (fmtOf w).value r.bits with
        | .nan signalling => ⟨(fmtOf w).nan, r.flags ||| (if signalling then 16 else 0)⟩
        | _ => r)
      else r
    ∀ p ∈ [
      (Instr.cvt d a src dst u m, fun t =>
        packResults (width dst) ((List.range (64 / max (width src) (width dst))).map fun j =>
          convert dst.toNat m (u == 1) (decode (sub (width src) (reg s t a) j)))),
      (.qscale bq qq d a v, fun t => packResults 16 (subResults 16 fun j =>
        bf16.ofVal 0 (nb4Value (sub 4 (reg s t a) (4 * qq.toNat + j))
          (bits (reg s t (v.setWidth 7)).toNat (16 * bq.toNat) 8)
          (bits (bits (reg s t (v.setWidth 7)).toNat (16 * bq.toNat + 8) 8) ((4 * qq.toNat + j) / 2) 1)))),
      (.qscale8 b1 qq d a v, fun t => packResults 32 (subResults 32 fun j =>
        let q := (e4m3Value (sub 8 (reg s t a) (2 * qq.toNat + j))).mul
          (fp32.value (sub 32 (reg s t (v.setWidth 7)) b1.toNat))
        ⟨(fp32.ofVal s.c.fprm q.1).bits, (fp32.ofVal s.c.fprm q.1).flags ||| q.2⟩)),
      (.shfl w d a b m, fun t => packResults (8 * 2 ^ w.toNat) (subResults (8 * 2 ^ w.toNat) (shuffled t))),
      (.redl w d a o m, fun t => packResults n (subResults n fun j => written
        ((redTree (redStep w o m) (member j) x.log2 (t - t % 32 % x)).getD ⟨redIdentity w o, 0⟩))),
      (.scanl w d a o m, fun t => packResults n (subResults n fun j => written
        ((redSeq (redStep w o m) ((List.range (t % 32 % x + 1)).filterMap fun k => member j (t - t % 32 % x + k))).getD
          ⟨redIdentity w o, 0⟩)))],
      (p.1 = .shfl w d a b m → s.g.bad = []) → (p.1 = .scanl w d a o m → x ∈ [1, 2, 4, 8, 16, 32]) →
      Ready p.1 s → Completes p.1 s fun t =>
        LaneEffect s t d (fun th => w64 (p.2 th).bits) (BitVec.ofNat 10 (flagsOf ((laneThreads s).map p.2)))) ∧
  (∀ (f : Nat → Nat → FRes) (leaf : Nat → Option Nat) (k i : Nat),
    redTree f leaf 0 i = (leaf i).map (fun v => ⟨v, 0⟩) ∧
    redTree f leaf (k + 1) i = match redTree f leaf k i, redTree f leaf k (i + 2 ^ k) with
      | some l, some r => some ⟨(f l.bits r.bits).bits, (f l.bits r.bits).flags ||| l.flags ||| r.flags⟩
      | some l, none => some l
      | none, r => r) ∧
  (∀ (f : Nat → Nat → FRes) (v y : Nat) (l : List Nat) (r : FRes),
    redSeq f [] = none ∧ redSeq f [v] = some ⟨v, 0⟩ ∧
    (redSeq f l = some r → redSeq f (l ++ [y]) = some ⟨(f r.bits y).bits, (f r.bits y).flags ||| r.flags⟩)) ∧
  (∀ (w m : BitVec 2) (o : BitVec 7),
    let n := redWidth w o
    n = (if 8 ≤ o.toNat then [16, 16, 32, 64].getD w.toNat 0 else 8 * 2 ^ w.toNat) ∧
    redIdentity w o = (match o.toNat with
      | 1 => 2 ^ (n - 1) - 1
      | 2 => 2 ^ (n - 1)
      | 3 => 2 ^ n - 1
      | 5 => 2 ^ n - 1
      | 9 => (fmtOf w).nan
      | 10 => (fmtOf w).nan
      | _ => 0) ∧
    ∀ y z : Nat, y < 2 ^ n → z < 2 ^ n → redStep w o m y z = match o.toNat with
      | 0 => ⟨(y + z) % 2 ^ n, 0⟩
      | 1 => ⟨if signed n y ≤ signed n z then y else z, 0⟩
      | 2 => ⟨if signed n z ≤ signed n y then y else z, 0⟩
      | 3 => ⟨min y z, 0⟩
      | 4 => ⟨max y z, 0⟩
      | 5 => ⟨y &&& z, 0⟩
      | 6 => ⟨y ||| z, 0⟩
      | 7 => ⟨y ^^^ z, 0⟩
      | 8 => (fmtOf w).add m y z
      | 9 => (fmtOf w).minmax false y z
      | _ => (fmtOf w).minmax true y z) ∧
  (∀ n ∈ [8, 16, 32, 64], ∀ (l : List FRes) (j k : Nat),
    (j < 64 / n → sub n (w64 (packResults n l).bits) j = (l.getD j ⟨0, 0⟩).bits % 2 ^ n) ∧
    (bit (packResults n l).flags k = true ↔ ∃ r ∈ l, bit r.flags k = true) ∧
    (bit (flagsOf l) k = true ↔ ∃ r ∈ l, bit r.flags k = true))

/-- The words of the SFU: operands read at issue, one landing for each gang with active threads, which holds the results
and the flags of its threads (R71, R96, R114, R115, R119). -/
def Obligations.SfuWordsLandLater : Prop :=
  ∀ (s : State) (w : BitVec 2) (d a : BitVec 7) (m : BitVec 2),
    let k := fmtOf w
    ∀ p ∈ [(Instr.frcp w d a, k.rcp), (.frsq w d a, k.rsqrt), (.fsqrt w d a m, k.sqrt m), (.fex2 w d a, k.exp2),
      (.flg2 w d a, k.log2), (.fsin w d a, k.trig false), (.fcos w d a, k.trig true)],
      Ready p.1 s → Completes p.1 s fun t =>
        let r (th : Nat) : FRes := packResults k.width (subResults k.width fun j => p.2 (sub k.width (reg s th a) j))
        let ts (g : Nat) : List Nat := (laneThreads s).filter fun th => th / 32 == g
        LongEffect s t (.v d) ((gangsOf (laneThreads s)).map fun g =>
          ⟨s.c.clause, .gang d ((ts g).map fun th => (th, w64 (r th).bits)),
            BitVec.ofNat 10 ((ts g).foldl (fun f th => f ||| (r th).flags) 0)⟩)

/-- `LEXIT` takes the active threads out of LIVE and out of ACT and every saved entry of every crew of the gallery
(R66, R108). -/
def Obligations.LexitEndsThreads : Prop :=
  ∀ s : State, Ready .lexit s → s.c.gid = s.g.gid →
    Completes .lexit s fun t =>
      t.g.live = s.g.live &&& ~~~ activeSet s.c ∧ t.c.act = s.c.act &&& ~~~ activeSet s.c ∧
      t.c.stack = s.c.stack.map (· &&& ~~~ activeSet s.c) ∧
      t.crews = s.crews.map (fun c => if c.gid = s.g.gid then
        { c with act := c.act &&& ~~~ activeSet s.c, stack := c.stack.map (· &&& ~~~ activeSet s.c) } else c) ∧
      t.g.v = s.g.v ∧ t.c.base = s.c.base ∧ t.c.marks = s.c.marks ∧ t.mem = s.mem ∧ t.vault = s.vault ∧
      t.gals = s.gals

/-- A search writes to its mark exactly the threads of its set below NTHR whose register responds, its thread registers in
no error. What responds: equality and inequality of the bits under the mask, whatever the mask, and the four orders of the
field that the run of mask bits selects. An ordered search whose mask is not one run of ones raises SRCH_MASK with the mask
in TRAPINFO (R125, R126, R294). A single-bit error in a compared register: a checked search compares the word put right,
corrects it and counts it; an unchecked one compares the word with its bit turned, and leaves it (R72, R304). -/
def Obligations.SearchMarksResponders : Prop :=
  (∀ (s : State) (m c : BitVec 3) (v b : BitVec 7) (k n : BitVec 6) (q : BitVec 5),
    v.toNat / 8 < s.g.nblk → b.toNat / 8 < s.g.nblk → s.g.bad = [] → s.c.bad = [] → s.g.soft = [] →
    ∀ p ∈ [(Instr.srch m c v k n, s.c.act, (fun _ => getS s.c k : Nat → Word), getS s.c n),
      (.srcha m c v k n, s.g.live, fun _ => getS s.c k, getS s.c n),
      (.srchr m c v b q, s.c.act, fun t => reg s t b, getS s.c (q.setWidth 6))],
      Ready p.1 s → (ordered c = true → oneRun p.2.2.2.toNat = true) →
      Completes p.1 s fun t => ∃ x : ThreadSet, CrewEffect s t (setM s.c m x) ∧
        ∀ th, th < 2048 → (x.getLsbD th = true ↔
          th < s.g.nthr ∧ p.2.1.getLsbD th = true ∧ responds c p.2.2.2 (reg s th v) (p.2.2.1 th) = true)) ∧
  (∀ mask x y : Word,
    (responds 0 mask x y = true ↔ ∀ k, k < 64 → mask.getLsbD k = true → x.getLsbD k = y.getLsbD k) ∧
    (responds 1 mask x y = true ↔ ∃ k, k < 64 ∧ mask.getLsbD k = true ∧ x.getLsbD k ≠ y.getLsbD k)) ∧
  (∀ m : Word, oneRun m.toNat = true ↔ ∃ lo w, lo + w ≤ 64 ∧ 0 < w ∧ m.toNat = (2 ^ w - 1) * 2 ^ lo) ∧
  (∀ (mask x y : Word) (lo w : Nat), lo + w ≤ 64 → 0 < w → mask.toNat = (2 ^ w - 1) * 2 ^ lo →
    let f (z : Word) : Nat := z.toNat / 2 ^ lo % 2 ^ w
    (responds 2 mask x y = decide (signed w (f x) < signed w (f y))) ∧
    (responds 3 mask x y = decide (signed w (f y) ≤ signed w (f x))) ∧
    (responds 4 mask x y = decide (f x < f y)) ∧ (responds 5 mask x y = decide (f y ≤ f x))) ∧
  (∀ (s : State) (m c : BitVec 3) (v b : BitVec 7) (k n : BitVec 6) (q : BitVec 5),
    v.toNat / 8 < s.g.nblk → b.toNat / 8 < s.g.nblk → 2 ≤ c.toNat →
    ∀ p ∈ [(Instr.srch m c v k n, n), (.srcha m c v k n, n), (.srchr m c v b q, q.setWidth 6)],
      oneRun (getS s.c p.2).toNat = false → Ready p.1 s →
      exec p.1 s = .next (takeTrap s ⟨.srchMask, s.c.pc, 0, getS s.c p.2, false, 0⟩)) ∧
  (∀ (s : State) (m c : BitVec 3) (v : BitVec 7) (k n : BitVec 6) (slot plane : Nat),
    v.toNat / 8 < s.g.nblk → s.g.bad = [] → s.c.bad = [] → plane < 64 →
    s.g.soft = [(128 * slot + v.toNat, plane)] → s.c.act.getLsbD slot = true → slot < s.g.nthr → s.g.nthr ≤ 2048 →
    Ready (.srch m c v k n) s → (2 ≤ c.toNat → oneRun (getS s.c n).toNat = true) →
    let read (th : Nat) : Word :=
      if th = slot ∧ s.c.srchchk ≠ 1 then reg s th v ^^^ BitVec.ofNat 64 (2 ^ plane) else reg s th v
    Completes (.srch m c v k n) s fun t => ∃ x : ThreadSet,
      (∀ th, th < 2048 → (x.getLsbD th = true ↔
        th < s.g.nthr ∧ s.c.act.getLsbD th = true ∧ responds c (getS s.c n) (read th) (getS s.c k) = true)) ∧
      (s.c.srchchk = 0 → CrewEffect s t (setM s.c m x)) ∧
      (s.c.srchchk = 1 → CrewEffect { s with
        g := { s.g with soft := [] }, corrected := s.corrected.set 0 (s.corrected[0] + 1) } t (setM s.c m x)))

/-- The words on marks that write a mark; `m0` reads as LIVE. The words that read a mark into a scalar: the count, the
lowest slot, the next slot after a value, and the lowest slot picked into a mark as well; all ones where there is none
(R130, R131). -/
def Obligations.MarkWords : Prop :=
  (∀ (s : State) (d a b : BitVec 3) (q : BitVec 6),
    let x := getM s.c s.g.live a
    let y := getM s.c s.g.live b
    let z := getM s.c s.g.live d
    let i := (getS s.c q).toNat
    let one : ThreadSet := if i < 2048 then BitVec.ofNat 2048 (2 ^ i) else 0
    ∀ p ∈ [(Instr.mand d a b, x &&& y), (.mor d a b, x ||| y), (.mxor d a b, x ^^^ y), (.mandn d a b, x &&& ~~~ y),
      (.mnot d a, s.g.live &&& ~~~ x), (.mcopy d a, x), (.mclr d, 0), (.mgetact d, s.c.act),
      (.mset1 d q, z ||| one), (.mclr1 d q, z &&& ~~~ one), (.jarv d, z ||| s.c.act)],
      Ready p.1 s → Completes p.1 s fun t => CrewEffect s t (setM s.c d p.2)) ∧
  (∀ (s : State) (d a : BitVec 3) (q : BitVec 6),
    let x := getM s.c s.g.live a
    let least (from_ : Nat) : Word :=
      (((List.range 2048).find? fun t => x.getLsbD t && decide (from_ ≤ t)).map (BitVec.ofNat 64)).getD (BitVec.allOnes 64)
    (∀ p ∈ [(Instr.cnt a q, BitVec.ofNat 64 (((List.range 2048).filter fun t => x.getLsbD t).length)),
        (.first a q, least 0), (.next a q, least ((getS s.c q).toInt + 1).toNat)],
      Ready p.1 s → Completes p.1 s fun t => ScalarEffect s t q p.2) ∧
    (Ready (.mpick d a q) s → Completes (.mpick d a q) s fun t =>
      CrewEffect s t (setS (setM s.c d (if x = 0 then 0 else BitVec.ofNat 2048 (2 ^ (least 0).toNat))) q (least 0))))

/-- The responder stack: PUSH, PUSHALL, POP, ELSE, JOIN, SETACT and RDEPTH. A push onto sixteen saved entries raises
RSTK_OVF, and POP or ELSE with none RSTK_UNF, with RSDEPTH in TRAPINFO and no effect (R134, R135, R294). POP or ELSE of an
entry with an uncorrectable error raises ECC_UNCORR, with 0 in TRAPINFO as the model chooses, and a push writes its entry
anew and clears the error of its place (R304). -/
def Obligations.ResponderStackWords : Prop :=
  (∀ (s : State) (a : BitVec 3) (d : BitVec 6) (old : List ThreadSet) (top : ThreadSet),
    let x := getM s.c s.g.live a
    let bad := s.c.badStack.filter (· ≠ s.c.stack.length)
    (s.c.stack.length < 16 → Ready (.push a) s → Completes (.push a) s fun t =>
      CrewEffect s t { s.c with stack := s.c.stack ++ [s.c.act], act := s.c.act &&& x, badStack := bad }) ∧
    (s.c.stack.length < 16 → Ready .pushall s → Completes .pushall s fun t =>
      CrewEffect s t { s.c with stack := s.c.stack ++ [s.c.act], act := s.g.live, badStack := bad }) ∧
    (s.c.stack = old ++ [top] → old.length ∉ s.c.badStack → Ready .pop s → Completes .pop s fun t =>
      CrewEffect s t { s.c with stack := old, act := top }) ∧
    (s.c.stack = old ++ [top] → old.length ∉ s.c.badStack → Ready (.else_ a) s → Completes (.else_ a) s fun t =>
      CrewEffect s t { s.c with act := top &&& ~~~ x }) ∧
    (Ready (.join a) s → Completes (.join a) s fun t =>
      CrewEffect s t { setM s.c a 0 with act := x &&& s.g.live }) ∧
    (Ready (.setact a) s → Completes (.setact a) s fun t => CrewEffect s t { s.c with act := x &&& s.g.live }) ∧
    (Ready (.rdepth d) s → Completes (.rdepth d) s fun t =>
      ScalarEffect s t d (BitVec.ofNat 64 s.c.stack.length))) ∧
  (∀ (s : State) (a : BitVec 3),
    (16 ≤ s.c.stack.length → ∀ i ∈ [Instr.push a, .pushall], Ready i s →
      exec i s = .next (takeTrap s ⟨.rstkOvf, s.c.pc, 0, BitVec.ofNat 64 s.c.stack.length, false, 0⟩)) ∧
    (s.c.stack = [] → ∀ i ∈ [Instr.pop, .else_ a], Ready i s →
      exec i s = .next (takeTrap s ⟨.rstkUnf, s.c.pc, 0, 0, false, 0⟩)) ∧
    (∀ (old : List ThreadSet) (top : ThreadSet), s.c.stack = old ++ [top] → old.length ∈ s.c.badStack →
      ∀ i ∈ [Instr.pop, .else_ a], Ready i s → exec i s = .next (takeTrap s ⟨.eccUncorr, s.c.pc, 0, 0, false, 0⟩)))

/-- The single-thread transfers: GET and GETF land later, and 0 with XOOR where no such thread is; PUT writes one register
of one live thread, and only raises XOOR or XDEAD where there is none (R138 to R140). -/
def Obligations.SingleThreadTransfers : Prop :=
  ∀ (s : State) (d n b : BitVec 6) (h : BitVec 1),
    let r : BitVec 7 := BitVec.ofNat 7 (n.toNat + 64 * h.toNat)
    let t := (getS s.c b).toNat
    r.toNat / 8 < s.g.nblk → s.g.bad = [] →
    (Ready (.get d n b h) s → t < s.g.nthr → Completes (.get d n b h) s fun u => LongScalar s u d (reg s t r)) ∧
    (Ready (.get d n b h) s → s.g.nthr ≤ t →
      Completes (.get d n b h) s fun u => LongScalar { s with c := { s.c with xstat := s.c.xstat ||| 256 } } u d 0) ∧
    (Ready (.getf d n h) s → ∀ first rest, members s.c.act s.g.nthr = first :: rest →
      Completes (.getf d n h) s fun u => LongScalar s u d (reg s first r)) ∧
    (Ready (.getf d n h) s → members s.c.act s.g.nthr = [] →
      Completes (.getf d n h) s fun u => LongScalar { s with c := { s.c with xstat := s.c.xstat ||| 256 } } u d 0) ∧
    (Ready (.put d n b h) s → (s.g.owner.getD (r.toNat / 8) none).map (·.val) = some s.c.att →
      Completes (.put d n b h) s fun u =>
        if s.g.nthr ≤ t then CrewEffect s u { s.c with xstat := s.c.xstat ||| 256 }
        else if s.g.live.getLsbD t = false then CrewEffect s u { s.c with xstat := s.c.xstat ||| 512 }
        else WordEnded s.c u.c ∧ u.c = s.c.withEnd u.c ∧ u = { s with c := u.c, g := u.g } ∧
          reg u t r = getS s.c d ∧ (∀ th (q : BitVec 7), ¬ (th = t ∧ q = r) → reg u th q = reg s th q) ∧
          u.g = { s.g with v := u.g.v, bad := u.g.bad, soft := u.g.soft })

/-- The register blocks: an acquire of blocks that are free or the crew's own makes it their owner; `.P` writes 1, or 0
with no other effect where one is another's, and `.W` then parks the crew; BLKQ reads the owners (R141 to R143). -/
def Obligations.RegisterBlockWords : Prop :=
  ∀ (s : State) (d a : BitVec 6),
    let m := getS s.c a
    m.toNat < 2 ^ 16 → (∀ b, bit m.toNat b = true → b < s.g.nblk) →
    let free := ∀ b, bit m.toNat b = true → s.g.owner.getD b none = none ∨
      (s.g.owner.getD b none).map (·.val) = some s.c.att
    let pass (o : Option (Fin 4)) : Gallery :=
      { s.g with owner := Vector.ofFn fun (b : Fin 16) => if bit m.toNat b.val then o else s.g.owner[b] }
    let taken := pass (some (Fin.ofNat 4 s.c.att))
    (Ready (.blkacqW a) s → free → Completes (.blkacqW a) s fun t => CrewEffect { s with g := taken } t s.c) ∧
    (Ready (.blkacqP d a) s → free → Completes (.blkacqP d a) s fun t => ScalarEffect { s with g := taken } t d 1) ∧
    (Ready (.blkacqP d a) s → ¬ free → Completes (.blkacqP d a) s fun t => ScalarEffect s t d 0) ∧
    (Ready (.blkacqW a) s → ¬ free → Completes (.blkacqW a) s fun t =>
      t.c.status = .parked .blkacq ∧ t.c.pc = s.c.pc ∧
      t.g = { s.g with blkq := s.g.blkq ++ [⟨s.c.uid, BitVec.ofNat 16 m.toNat⟩] }) ∧
    (Ready (.blkrel a) s → (∀ b, bit m.toNat b = true → (s.g.owner.getD b none).map (·.val) = some s.c.att) →
      landingIn s.c m.toNat = false → s.g.blkq = [] →
      Completes (.blkrel a) s fun t => CrewEffect { s with g := pass none } t s.c) ∧
    (Ready (.blkq d) s → Completes (.blkq d) s fun t => ∃ x, ScalarEffect s t d x ∧
      ∀ b, b < 16 → bits x.toNat (3 * b) 3 =
        if s.g.nblk ≤ b then 6 else ((s.g.owner.getD b none).map (·.val)).getD 7)

/-- A predicate block: the mark is read once, and word k of the block runs on ACT within the mark or outside it as bit k
of the pattern says (R32, R33). -/
def Obligations.PredicateBlocks : Prop :=
  ∀ (s : State) (m n : BitVec 3) (p : BitVec 8),
    (Ready (.pblk m n p) s → s.c.blk = none → Completes (.pblk m n p) s fun t =>
      t.c.blk = some ⟨getM s.c s.g.live m, m, n.toNat + 1, p⟩ ∧ t.c.pc = normPc (s.c.pc + 4) ∧
      t.c.left = s.c.left - 1 ∧ t.c.act = s.c.act ∧ t = { s with c := t.c } ∧
      t.c = { s.c with blk := t.c.blk, pc := t.c.pc, left := t.c.left, incs := t.c.incs, status := .running }) ∧
    (∀ b : Block, s.c.blk = some b →
      activeSet s.c = (if b.pattern.getLsbD 0 then s.c.act &&& b.set else s.c.act &&& ~~~ b.set)) ∧
    (s.c.blk = none → activeSet s.c = s.c.act) ∧
    (∀ b : Block, 1 < b.left → blockStep (some b) = some { b with left := b.left - 1, pattern := b.pattern >>> 1 }) ∧
    (∀ b : Block, b.left ≤ 1 → blockStep (some b) = none)

/-! ### Memory (R57, R58, R173 to R240) -/

/-- A byte of memory reads what was last written to it, unless it lies under the mask ROM overlay, where a write is
dropped (R362); every other byte stays, and the canonical form of memory is kept; a byte of a vault likewise. Numbers are
little-endian (R1). A crew reads its own latest pending store first, but for bytes under the mask ROM (R19, R362). -/
def Obligations.MemoryReadAfterWrite : Prop :=
  (∀ (s : State) (pa a : Nat) (bs : List Byte),
    readByte (writeBytes s pa bs) a =
      (if pa ≤ a ∧ a < pa + bs.length ∧ inRom s a = false then bs.getD (a - pa) 0 else readByte s a) ∧
    writeBytes s pa bs = { s with mem := (writeBytes s pa bs).mem } ∧
    (Memory.wf s.mem = true → Memory.wf (writeBytes s pa bs).mem = true) ∧
    readVault (writeVault s pa bs) a =
      (if pa ≤ a ∧ a < pa + bs.length then bs.getD (a - pa) 0 else readVault s a) ∧
    writeVault s pa bs = { s with vault := (writeVault s pa bs).vault } ∧
    (tidy 0 s.vault = true → tidy 0 (writeVault s pa bs).vault = true)) ∧
  (∀ (s : State) (pa n x : Nat), (∀ k, k < n → inRom s (pa + k) = false) →
    readNat (writeNat s pa n x) pa n = x % 2 ^ (8 * n)) ∧
  (∀ (s : State) (pa n k : Nat), k < n → bits (readNat s pa n) (8 * k) 8 = (readByte s (pa + k)).toNat) ∧
  (∀ (s : State) (pa n : Nat), s.c.stores = [] → ownNat s false pa n = readNat s pa n) ∧
  (∀ (s : State) (l : List PStore) (q : PStore) (home pa n x : Nat), s.c.stores = l ++ [q] →
    q.writes = [⟨false, home, pa, toBytes n x⟩] →
    ((∀ k, k < n → inRom s (pa + k) = false) → ownNat s false pa n = x % 2 ^ (8 * n)) ∧
    ((∀ k, k < n → inRom s (pa + k) = true) → ownNat s false pa n = readNat s pa n))

/-- The checks of an access to global memory come in the order of R57, and a failing one raises its trap at the word with
no other effect: a scalar access with ACTIVE 0 and the kind of access in TRAPINFO; a lane access for the lowest failing
thread, with the number of failing threads (R57, R132, R210, R216, R217, R222, R223, R295). An access to a vault has the
checks of R174, and a reduction refuses host memory. -/
def Obligations.AccessChecks : Prop :=
  (∀ (s : State) (need : Need) (va align n : Nat),
    (2 ^ 57 ≤ va → checkGlobal s need va align n = .error .xlate) ∧
    (va < 2 ^ 57 → va % align ≠ 0 → checkGlobal s need va align n = .error .align) ∧
    (va < 2 ^ 57 → va % align = 0 → ∀ e, crewXlate s need va = .error e → checkGlobal s need va align n = .error e) ∧
    (va < 2 ^ 57 → va % align = 0 → ∀ p, crewXlate s need va = .ok p →
      checkGlobal s need va align n = if ownedByHw s p.pa n need.w then .error .perm else .ok p)) ∧
  (∀ (s : State) (z o' : BitVec 2) (o z1 : BitVec 1) (q : BitVec 4) (d a b : BitVec 6) (i : BitVec 9) (e : Cause),
    let n := 2 ^ z.toNat
    let x := getS s.c a + i.signExtend 64 * BitVec.ofNat 64 n
    let m := if z1 = 1 then 8 else 4
    (Ready (.lds z o d a i) s → checkGlobal s needR x.toNat n n = .error e →
      exec (.lds z o d a i) s = .next (takeTrap s ⟨e, s.c.pc, x, w64 (2 ^ 12 + 2 ^ 26), false, 0⟩)) ∧
    (Ready (.sts z o d a i) s → checkGlobal s needW x.toNat n n = .error e →
      exec (.sts z o d a i) s = .next (takeTrap s ⟨e, s.c.pc, x, w64 (2 ^ 12 + 2 ^ 24 + 2 ^ 26), false, 0⟩)) ∧
    (Ready (.atoms q d a b z1 o') s → checkGlobal s needRW (getS s.c a).toNat m m = .error e →
      exec (.atoms q d a b z1 o') s =
        .next (takeTrap s ⟨e, s.c.pc, getS s.c a, w64 (2 ^ 12 + 2 ^ 25 + 2 ^ 26), false, 0⟩))) ∧
  (∀ (s : State) (m : BitVec 3) (f : BitVec 1) (d a b : BitVec 6) (e : Cause),
    (Ready (.mload m a) s → checkGlobal s needR (getS s.c a).toNat 256 256 = .error e →
      exec (.mload m a) s = .next (takeTrap s ⟨e, s.c.pc, getS s.c a, w64 (2 ^ 12 + 2 ^ 26), false, 0⟩)) ∧
    (Ready (.mstore m a) s → checkGlobal s needW (getS s.c a).toNat 256 256 = .error e →
      exec (.mstore m a) s = .next (takeTrap s ⟨e, s.c.pc, getS s.c a, w64 (2 ^ 12 + 2 ^ 24 + 2 ^ 26), false, 0⟩)) ∧
    (Ready (.redqs f d a b) s →
      (checkGlobal s needRW (getS s.c a).toNat 16 16 = .error e ∨
        (e = .perm ∧ ∃ p, checkGlobal s needRW (getS s.c a).toNat 16 16 = .ok p ∧ inHost p.pa = true)) →
      exec (.redqs f d a b) s =
        .next (takeTrap s ⟨e, s.c.pc, getS s.c a, w64 (2 ^ 12 + 2 ^ 25 + 2 ^ 26), false, 0⟩))) ∧
  (∀ (s : State) (z o : BitVec 2) (z1 r w : BitVec 1) (q : BitVec 4) (d a b : BitVec 7) (f : BitVec 6) (th : Nat)
    (e : Cause),
    let n := 2 ^ z.toNat
    let m := if z1 = 1 then 8 else 4
    let at_ (t : Nat) : Nat := (reg s t a).toNat
    let far (t : Nat) : Nat := (at_ t + f.toNat * n) % 2 ^ 64
    let near (t : Nat) : Nat := (at_ t % 2 ^ 32 + f.toNat * n) % 2 ^ 32
    let global (need : Need) (k x : Nat) : Option Cause := match checkGlobal s need x k k with
      | .error e => some e
      | .ok _ => none
    let device (x : Nat) : Option Cause := match checkGlobal s needRW x 16 16 with
      | .error e => some e
      | .ok p => if inHost p.pa then some .perm else none
    let vault (x : Nat) : Option Cause :=
      match checkVault s s.part (dieOfCore s.c.core) s.c.privl.toNat (galAsn s.g) (relocate s.g x) n with
      | .error e => some e
      | .ok _ => none
    ∀ p ∈ [((Instr.ld z d a r f, far, global needR n, 0) : Instr × (Nat → Nat) × (Nat → Option Cause) × Nat),
      (.st z d a r f, far, global needW n, 1), (.atom z1 d a q o, at_, global needRW m, 2),
      (.redq w d a b, at_, device, 2), (.ldv z d a f, near, vault, 3), (.stv z d a f, near, vault, 3)],
      let cause (t : Nat) : Option Cause := p.2.2.1 (p.2.1 t)
      Ready p.1 s → active s th → cause th = some e → (∀ u, u < th → active s u → cause u = none) →
      exec p.1 s = .next (takeTrap s ⟨e, s.c.pc, w64 (p.2.1 th),
        w64 (th + 2 ^ 12 * ((laneThreads s).filter fun t => (cause t).isSome).length + 2 ^ 24 * p.2.2.2), false, 0⟩)) ∧
  (∀ (s : State) (part die privl asn a n : Nat),
    let c := checkVault s part die privl asn a n
    isControl die privl a = false →
      ((bit a 31 = true ∨ 95 < bits a 22 7 ∨ partOfDie s (bits a 29 2) ≠ part) → c = .error .xlate) ∧
      (bit a 31 = false → bits a 22 7 ≤ 95 → partOfDie s (bits a 29 2) = part →
        (a % n ≠ 0 → c = .error .align) ∧
        (a % n = 0 → bits a 22 7 = 0 → privl < 2 → c = .error .perm) ∧
        (a % n = 0 → (bits a 22 7 ≠ 0 ∨ 2 ≤ privl) →
          c = if look 65536 s.halves (a / 2 ^ 21) = asn then .ok () else .error .perm)))

/-- The loads: the value is what the crew reads at issue, its own pending stores first, and it lands later; a lane load
lands one result for each gang (R19, R57, R71, R132, R210). A load whose bytes meet an object of a reduction of the crew
that is still to be answered waits (R192), and so does every load after a `FENCE.A` that such a reduction stands before
(R194, R219). An `LDV` performs what the crew has stored before, and reads its vault then
(R204; log 9). A load that meets an uncorrectable word records the fault, which traps at the next header (R296, R304);
that it leaves its destination outstanding with no value to land is the model's reading (log 28). -/
def Obligations.LoadsLandTheirValue : Prop :=
  (∀ (s : State) (z : BitVec 2) (o : BitVec 1) (d a : BitVec 6) (i : BitVec 9) (p : Place),
    let n := 2 ^ z.toNat
    Ready (.lds z o d a i) s →
    checkGlobal s needR (getS s.c a + i.signExtend 64 * BitVec.ofNat 64 n).toNat n n = .ok p →
    (¬ (Apart s p.pa n ∧ Unfenced s false) → Completes (.lds z o d a i) s fun t => Waits s t) ∧
    (Apart s p.pa n → Unfenced s false → Readable s false p.pa n →
      Completes (.lds z o d a i) s fun t => LongScalar s t d (w64 (ownNat s false p.pa n))) ∧
    (Apart s p.pa n → Unfenced s false → ¬ Readable s false p.pa n → Completes (.lds z o d a i) s fun t =>
      let u := deferEcc s (getS s.c a + i.signExtend 64 * BitVec.ofNat 64 n) 0 d.toNat
      CrewEffect u t { u.c with outm := if d = 0 then u.c.outm else u.c.outm ++ [⟨.s d, u.c.setA.toNat⟩] })) ∧
  (∀ (s : State) (d : BitVec 3) (a : BitVec 6) (p : Place),
    Ready (.mload d a) s → checkGlobal s needR (getS s.c a).toNat 256 256 = .ok p →
    (¬ (Apart s p.pa 256 ∧ Unfenced s false) → Completes (.mload d a) s fun t => Waits s t) ∧
    (Apart s p.pa 256 → Unfenced s false → Readable s false p.pa 256 → Completes (.mload d a) s fun t =>
      LongEffect s t (.m d) [⟨s.c.clause, .mark d (BitVec.ofNat 2048 (ownNat s false p.pa 256)), 0⟩])) ∧
  (∀ (s : State) (z : BitVec 2) (d a : BitVec 7) (r : BitVec 1) (f : BitVec 6) (pl : Nat → Place),
    let n := 2 ^ z.toNat
    Ready (.ld z d a r f) s →
    (∀ th, active s th →
      checkGlobal s needR (((reg s th a).toNat + f.toNat * n) % 2 ^ 64) n n = .ok (pl th) ∧
      Apart s (pl th).pa n ∧ Unfenced s false ∧ Readable s false (pl th).pa n) →
    Completes (.ld z d a r f) s fun t =>
      LongEffect s t (.v d) (gangLandings s d fun th => w64 (ownNat s false (pl th).pa n))) ∧
  (∀ (s : State) (z : BitVec 2) (d a : BitVec 7) (f : BitVec 6) (va : Nat → Nat),
    let n := 2 ^ z.toNat
    Ready (.ldv z d a f) s →
    (∀ th, active s th →
      va th = relocate s.g (((reg s th a).toNat % 2 ^ 32 + f.toNat * n) % 2 ^ 32) ∧
      checkVault s s.part (dieOfCore s.c.core) s.c.privl.toNat (galAsn s.g) (va th) n = .ok () ∧
      isControl (dieOfCore s.c.core) s.c.privl.toNat (va th) = false ∧ poisoned (performAll s) true (va th) n = false ∧
      Unfenced s false ∧ ∀ p ∈ s.c.staying, ∀ w ∈ p.writes, w.vault = true → w.addr / 2 ^ 22 ≠ va th / 2 ^ 22) →
    Completes (.ldv z d a f) s fun t =>
      let u := performAll s
      LongEffect u t (.v d) (gangLandings u d fun th => w64 (ofBytes (vaultBytes u (va th) n)))) ∧
  (∀ s : State, s.c.stores = [] → performAll s = s) ∧
  (∀ s : State, s.c.redq = [] → (∀ p ∈ s.c.stores, p.spoiled = []) →
    performAll s = (s.c.stores.flatMap (·.writes)).foldl performWrite { s with c := { s.c with stores := [] } })

/-- The stores: what is stored is read at issue and queued under the clause, to be performed later; of several threads
that name one place the highest alone stores (R57, R132, R190, R193, R210). A store whose bytes meet an object of a
reduction of the crew that is still to be answered waits (R192). A release, and a store after a fence, waits in the queue for
the reductions before it, while its crew goes on (R194, R213, R214, R219; log 82): of the queue, in its order, what waits for
nothing is performed, but for what meets an earlier store that stays (R191, R192). A write that met a parity error on its way
is reported and not made (R304). -/
def Obligations.StoresAreQueued : Prop :=
  (∀ (s : State) (z : BitVec 2) (o : BitVec 1) (d a : BitVec 6) (i : BitVec 9) (p : Place),
    let n := 2 ^ z.toNat
    Ready (.sts z o d a i) s →
    checkGlobal s needW (getS s.c a + i.signExtend 64 * BitVec.ofNat 64 n).toNat n n = .ok p →
    (Apart s p.pa n → Completes (.sts z o d a i) s fun t =>
      StoreEffect s t (o == 1) [⟨false, p.home, p.pa, toBytes n (getS s.c d).toNat⟩]) ∧
    (¬ Apart s p.pa n → Completes (.sts z o d a i) s fun t => Waits s t)) ∧
  (∀ (s : State) (m : BitVec 3) (a : BitVec 6) (p : Place),
    Ready (.mstore m a) s → checkGlobal s needW (getS s.c a).toNat 256 256 = .ok p → Apart s p.pa 256 →
    Completes (.mstore m a) s fun t =>
      StoreEffect s t false [⟨false, p.home, p.pa, toBytes 256 (getM s.c s.g.live m).toNat⟩]) ∧
  (∀ (s : State) (z : BitVec 2) (d a : BitVec 7) (r : BitVec 1) (f : BitVec 6) (pl : Nat → Place),
    let n := 2 ^ z.toNat
    Ready (.st z d a r f) s →
    (∀ th, active s th → checkGlobal s needW (((reg s th a).toNat + f.toNat * n) % 2 ^ 64) n n = .ok (pl th) ∧
      Apart s (pl th).pa n) →
    Completes (.st z d a r f) s fun t =>
      StoreEffect s t (r == 1) (((laneThreads s).filter fun th =>
          !(laneThreads s).any fun u => decide (th < u) && (pl u).pa == (pl th).pa).map fun th =>
        ⟨false, (pl th).home, (pl th).pa, toBytes n (reg s th d).toNat⟩)) ∧
  (∀ (s : State) (z : BitVec 2) (d a : BitVec 7) (r : BitVec 1) (f : BitVec 6) (pl : Nat → Place),
    let n := 2 ^ z.toNat
    ∀ p ∈ [(Instr.ld z d a r f, needR, false), (.st z d a r f, needW, true)],
      Ready p.1 s →
      (∀ th, active s th → checkGlobal s p.2.1 (((reg s th a).toNat + f.toNat * n) % 2 ^ 64) n n = .ok (pl th)) →
      (∃ th, active s th ∧ ¬ (Apart s (pl th).pa n ∧ (p.2.2 = true ∨ Unfenced s false))) →
      Completes p.1 s fun t => Waits s t) ∧
  (∀ (s : State) (z : BitVec 2) (d a : BitVec 7) (f : BitVec 6) (va : Nat → Nat),
    let n := 2 ^ z.toNat
    Ready (.stv z d a f) s →
    (∀ th, active s th →
      va th = relocate s.g (((reg s th a).toNat % 2 ^ 32 + f.toNat * n) % 2 ^ 32) ∧
      checkVault s s.part (dieOfCore s.c.core) s.c.privl.toNat (galAsn s.g) (va th) n = .ok () ∧
      isControl (dieOfCore s.c.core) s.c.privl.toNat (va th) = false) →
    Completes (.stv z d a f) s fun t =>
      StoreEffect s t false (((laneThreads s).filter fun th =>
          !(laneThreads s).any fun u => decide (th < u) && va u == va th).map fun th =>
        ⟨true, 0, va th, toBytes n (reg s th d).toNat⟩)) ∧
  (∀ (c : Crew) (p : PStore) (old more : List PStore), c.stores = old ++ p :: more →
    let meets (w x : WriteAcc) : Prop :=
      w.vault = x.vault ∧ w.addr < x.addr + x.bytes.length ∧ x.addr < w.addr + w.bytes.length
    (p ∈ c.ready ∨ p ∈ c.staying) ∧
    ((∀ q ∈ c.stores, ∀ x ∈ c.redq, x.key ∉ q.awaits) → c.ready = c.stores ∧ c.staying = []) ∧
    ((∃ x ∈ c.redq, x.key ∈ p.awaits) → p ∈ c.staying) ∧
    (∀ q ∈ old, (∃ x ∈ c.redq, x.key ∈ q.awaits) → (∃ w ∈ p.writes, ∃ x ∈ q.writes, meets w x) → p ∈ c.staying) ∧
    ((∀ x ∈ c.redq, x.key ∉ p.awaits) → (∀ q ∈ old, ∀ w ∈ p.writes, ∀ x ∈ q.writes, ¬ meets w x) → p ∈ c.ready)) ∧
  (∀ (s : State) (p : PStore) (w : WriteAcc),
    ((∀ e ∈ p.spoiled, e.1 ≠ w.addr) → performOf p s w = performWrite s w) ∧
    (∀ va, p.spoiled = [(w.addr, va)] → performOf p s w = crewFault s s.c.uid { cause := .eccUncorr, addr := va }))

/-- A crew's oldest write is performed at its slice: its bytes appear, every other byte stays, and the acknowledgement
follows the last write of its word. A write whose line has its filter bit set waits for the slow path, and is performed
from there. Where nothing waits in the Lamproom, no contribution is held and none waits for an object that it writes,
nothing else is changed (R13, R190, R231). A store that waits for a reduction of its crew lets the next go first (R219). -/
def Obligations.StoredBytesAppear : Prop :=
  ∀ (s : State) (cl : Nat) (w : WriteAcc) (ws : List WriteAcc) (aw : List ContribKey) (rest : List PStore),
    s.c.stores = ⟨cl, w :: ws, aw, []⟩ :: rest → (∀ x ∈ s.c.redq, x.key ∉ aw) → s.lamps = [] → s.redq = [] →
    (w.vault = false → NoneAwaits s w.addr w.bytes.length) →
    let after (b : State) (t : State) : Prop := ∃ u, WritePerformed b u w ∧
      t = { u with c := { u.c with
        stores := if ws = [] then rest else ⟨cl, ws, aw, []⟩ :: rest
        acks := if ws = [] then u.c.acks ++ [cl] else u.c.acks } }
    (s.c.uid ∉ s.slow → filtered s w = false → Completes (.storePerformed s.c.uid) s (after s)) ∧
    (s.c.uid ∉ s.slow → filtered s w = true → Completes (.storePerformed s.c.uid) s fun t =>
      t = { s with slow := s.slow ++ [s.c.uid] }) ∧
    (s.c.uid ∈ s.slow → Completes (.filterSlowPathWrite s.c.uid) s
      (after { s with slow := s.slow.filter (· != s.c.uid) }))

/-- A result of the crew lands: it writes its destination, and its flags go into XSTAT; one that met a parity error on its
way writes nothing and is a deferred ECC_UNCORR (R304); an acknowledgement reaches it; a
branch has nothing left to resolve, since it is resolved when its word issues (the model's reading, log 10); and a count of a
flag retires when its clause is over and what it counts has come: results for setA, stores, answers and contributions for
setB (R13, R21, R71, R115, R388). -/
def Obligations.FlagsRetireAsWorkLands : Prop :=
  (∀ (s : State) (l : Landing),
    (∀ r x, l.dest = .scalar r x → landResult s l = { s with c := setS { s.c with xstat := s.c.xstat ||| l.xflags } r x }) ∧
    (∀ r x, l.dest = .mark r x → landResult s l = { s with c := setM { s.c with xstat := s.c.xstat ||| l.xflags } r x }) ∧
    (∀ (r : BitVec 7) xs, l.dest = .gang r xs → (xs.map (·.1)).Nodup →
      (landResult s l).c = { s.c with xstat := s.c.xstat ||| l.xflags } ∧
      (∀ th x, (th, x) ∈ xs → reg (landResult s l) th r = x) ∧
      (∀ th (q : BitVec 7), (q ≠ r ∨ ∀ x, (th, x) ∉ xs) → reg (landResult s l) th q = reg s th q)) ∧
    (∀ th r addr word, l.dest = .lost th r addr word → landResult s l = deferEccAt s addr th r word)) ∧
  (∀ (c : Crew) (i : FlagInc), i ∈ (retire c).incs ↔ i ∈ c.incs ∧
    ((i.clause = c.clause ∧ 0 < c.left) ∨
     (i.isB = false ∧ ∃ l ∈ c.land, l.clause = i.clause) ∨
     (i.isB = true ∧ ((∃ p ∈ c.stores, p.clause = i.clause) ∨ i.clause ∈ c.acks ∨ ∃ x ∈ c.redq, x.clause = i.clause)))) ∧
  (∀ c : Crew, retire c = { c with incs := (retire c).incs }) ∧
  (∀ (s : State) (old : List Landing) (l : Landing) (more : List Landing), s.c.land = old ++ l :: more →
    Completes (.longLatencyLanding s.c.uid old.length) s fun t =>
      let u := landResult { s with c := { s.c with land := old ++ more } } l
      t = { u with c := retire u.c }) ∧
  (∀ (s : State) (old : List Nat) (k : Nat) (more : List Nat), s.c.acks = old ++ k :: more →
    Completes (.sliceAnswer s.c.uid old.length) s fun t =>
      t = { s with c := retire { s.c with acks := old ++ more } }) ∧
  (∀ (s : State) (n : Nat), Completes (.branchResolution n) s fun t => t = s)

/-- The atomics act at the home slice in one step each: ATOMS lands the old value and leaves the new one of its function
(a CAS that fails leaves memory as it is); ATOM applies its threads in ascending order, each to what the one before left
(R193, R215 to R217). What performing the new value leaves is WritePerformed, where nothing waits in the Lamproom, no
contribution is held and none waits for what is written. An uncorrectable word raises ECC_UNCORR at the word (R304);
reductions of the crew that are still to be answered hold a release, whatever meets their objects or follows a fence after
them, and what meets a store that waits for them (R192, R194, R213, R219); all of them reach their slices first, and one that
lies too far ahead waits there (R200; log 82). -/
def Obligations.AtomicsAtTheHomeSlice : Prop :=
  (∀ s : State, s.c.stores = [] → s.c.redq = [] → atHome s = s) ∧
  (∀ s : State, (performAll s).c.redq = [] → atHome s = performAll s) ∧
  (∀ (s : State) (pa n x : Nat), s.lamps = [] → s.redq = [] → NoneAwaits s pa n →
    WritePerformed s (performNat s pa n x) ⟨false, 0, pa, toBytes n x⟩) ∧
  (∀ (q : BitVec 4) (w old x cmp : Nat), w = 32 ∨ w = 64 → old < 2 ^ w → x < 2 ^ w → cmp < 2 ^ w →
    let k := if w = 32 then fp32 else fp64
    ∀ p ∈ [((0 : BitVec 4), some ((old + x) % 2 ^ w)), (1, some ((2 ^ w + old - x) % 2 ^ w)),
      (2, some (if signed w old ≤ signed w x then old else x)), (3, some (if signed w x ≤ signed w old then old else x)),
      (4, some (min old x)), (5, some (max old x)), (6, some (old &&& x)), (7, some (old ||| x)),
      (8, some (old ^^^ x)), (9, some x), (10, if old = cmp then some x else none), (11, some (k.add 0 old x).bits),
      (12, some (k.minmax false old x).bits), (13, some (k.minmax true old x).bits)],
      q = p.1 → atomicNew q w old x cmp = p.2) ∧
  (∀ (s : State) (q : BitVec 4) (d a b : BitVec 6) (z : BitVec 1) (o : BitVec 2) (p : Place),
    let n := if z = 1 then 8 else 4
    let s1 := atHome s
    let old := readNat s1 p.pa n
    Ready (.atoms q d a b z o) s → checkGlobal s needRW (getS s.c a).toNat n n = .ok p →
    let free := (o.getLsbD 1 = true → s.c.redq = []) ∧ Unhindered s true p.pa n
    (¬ free → Completes (.atoms q d a b z o) s fun t => Waits s t) ∧
    (free → poisoned s1 false p.pa n = true → exec (.atoms q d a b z o) s =
      .next (takeTrap s1 ⟨.eccUncorr, s1.c.pc, getS s1.c a, w64 (2 ^ 16 * d.toNat), false, 0⟩)) ∧
    (free → poisoned s1 false p.pa n = false → Completes (.atoms q d a b z o) s fun t =>
      match atomicNew q (8 * n) old ((getS s1.c d).toNat % 2 ^ (8 * n)) ((getS s1.c b).toNat % 2 ^ (8 * n)) with
      | none => LongScalar (ackLater s1) t d (w64 old)
      | some v => LongScalar (ackLater (performNat s1 p.pa n v)) t d (w64 old))) ∧
  (∀ (s : State) (z : BitVec 1) (d a : BitVec 7) (q : BitVec 4) (r : BitVec 2) (pl : Nat → Place),
    let n := if z = 1 then 8 else 4
    Ready (.atom z d a q r) s → (∀ th, active s th → checkGlobal s needRW (reg s th a).toNat n n = .ok (pl th)) →
    ((∃ th, active s th ∧ ¬ Unhindered s true (pl th).pa n) ∨ (r.getLsbD 1 = true ∧ s.c.redq ≠ [])) →
    Completes (.atom z d a q r) s fun t => Waits s t) ∧
  (∀ (s : State) (z : BitVec 1) (d a : BitVec 7) (q : BitVec 4) (r : BitVec 2) (pl : Nat → Place),
    let n := if z = 1 then 8 else 4
    let s1 := atHome s
    let ts := laneThreads s
    let x (th : Nat) : Nat := if q = 10 then (reg s1 th (d + 1)).toNat else (reg s1 th d).toNat
    Ready (.atom z d a q r) s → (r.getLsbD 1 = true → s.c.redq = []) →
    (∀ th, active s th →
      checkGlobal s needRW (reg s th a).toNat n n = .ok (pl th) ∧ Unhindered s true (pl th).pa n ∧
      poisoned s1 false (pl th).pa n = false) →
    Completes (.atom z d a q r) s fun t => ∃ u : Nat → State, u 0 = s1 ∧
      (∀ k (h : k < ts.length), u (k + 1) =
        match atomicNew q (8 * n) (readNat (u k) (pl ts[k]).pa n) (x ts[k] % 2 ^ (8 * n))
            ((reg s1 ts[k] d).toNat % 2 ^ (8 * n)) with
        | none => u k
        | some v => performNat (u k) (pl ts[k]).pa n v) ∧
      LongEffect (ackLater (u ts.length)) t (.v d) ((gangsOf ts).map fun g =>
        ⟨(u ts.length).c.clause, .gang d ((ts.filter fun th => th / 32 == g).map fun th =>
          (th, w64 (readNat (u (ts.idxOf th)) (pl th).pa n))), 0⟩))

/-- `FENCE` stalls while what it waits for is not performed or accepted, and then only goes on; `FENCE.A` and `FENCE.R` go on
at once, and mark the reductions still to be answered, so that later accesses, or later writes, wait for them; `IFENCE`
performs the crew's stores and goes on (R18, R194, R219; what a fence of this model waits for, log 9, log 82). `REDQ` queues
one contribution for each active thread, the crew's earlier stores performed first, each to wait for those that a fence
follows; where a store that waits meets an object it waits itself (R192, R194, R222). -/
def Obligations.FencesAndQueuedReductions : Prop :=
  (∀ s : State,
    (Ready .fence s → s.c.stores = [] → s.c.redq = [] → Completes .fence s fun t => CrewEffect s t s.c) ∧
    (Ready .fence s → (s.c.stores ≠ [] ∨ s.c.redq ≠ []) → Completes .fence s fun t => Waits s t) ∧
    (Ready .fenceA s → Completes .fenceA s fun t =>
      CrewEffect s t { s.c with redq := s.c.redq.map fun x => { x with fenceA := true } }) ∧
    (Ready .fenceR s → Completes .fenceR s fun t =>
      CrewEffect s t { s.c with redq := s.c.redq.map fun x => { x with fenceR := true } }) ∧
    (Ready .ifence s → Completes .ifence s fun t => CrewEffect (performAll s) t (performAll s).c)) ∧
  (∀ (s : State) (w : BitVec 1) (d a b : BitVec 7) (pl : Nat → Place),
    Ready (.redq w d a b) s →
    (∀ th, active s th →
      checkGlobal s needRW (reg s th a).toNat 16 16 = .ok (pl th) ∧ inHost (pl th).pa = false) →
    ((∃ th, active s th ∧ ¬ StoresClear s (pl th).pa 16) → Completes (.redq w d a b) s fun t => Waits s t) ∧
    ((∀ th, active s th → StoresClear s (pl th).pa 16) →
    Completes (.redq w d a b) s fun t => CrewEffect (performAll s) t { (performAll s).c with
      redq := (performAll s).c.redq ++ (laneThreads s).map fun th =>
      { clause := s.c.clause, word := s.c.pc, thread := th, va := reg s th a, obj := (pl th).pa, home := (pl th).home
        index := reg s th b, value := (if w = 1 then reg s th d else (reg s th d) &&& 0xFFFFFFFF), f64 := w == 1
        reg := d.toNat, seen := none, fenceA := false, fenceR := false
        awaits := (s.c.redq.filter fun x => x.fenceA || x.fenceR).map fun x => (x.clause, x.word, x.thread) } }))

/-- A sequence-indexed contribution at its object, by its index against NEXT: the next one is added to ACC and NEXT rises
in one write; one less than 64 ahead is held; one further ahead waits, a `REDQS` by holding its crew; one behind is a
duplicate, a precise SEQ_DUP for `REDQS` and a deferred one for `REDQ`, as an object with an uncorrectable word is a precise
ECC_UNCORR and a deferred one (R221 to R224, R304). Where no contribution is held at a slice. A contribution that lies too far
ahead waits at its slice, behind those that came before it, and whatever write moves NEXT of its object lets it be answered
in the same step; of several that can be, the first that came goes first; a crew's own contributions come to their slices in
its order, each once the ones that a fence has it wait for are answered. R200 asks for one order of the accesses at a slice,
and that a refused contribution keeps the place at which it came is the model's reading (log 82). -/
def Obligations.ReductionsByIndex : Prop :=
  (∀ (s : State) (f : BitVec 1) (d a b : BitVec 6) (p : Place),
    let s1 := atHome s
    let next := readNat s1 (p.pa + 8) 8
    let i := getS s1.c b
    let ahead := (i.toNat + 2 ^ 64 - next) % 2 ^ 64
    let v : Word := if f = 1 then getS s1.c d else getS s1.c d &&& 0xFFFFFFFF
    let acc := if f = 1 then (fp64.add 0 (readNat s1 p.pa 8) v.toNat).bits
      else (fp32.add 0 (readNat s1 p.pa 4) v.toNat).bits
    Ready (.redqs f d a b) s → checkGlobal s needRW (getS s.c a).toNat 16 16 = .ok p → inHost p.pa = false →
    (¬ (Unfenced s true ∧ StoresClear s p.pa 16) → Completes (.redqs f d a b) s fun t => Waits s t) ∧
    (Unfenced s true → StoresClear s p.pa 16 → poisoned s1 false p.pa 16 = true → exec (.redqs f d a b) s =
      .next (takeTrap s1 ⟨.eccUncorr, s1.c.pc, getS s1.c a, w64 (2 ^ 16 * d.toNat), false, 0⟩)) ∧
    (Unfenced s true → StoresClear s p.pa 16 → poisoned s1 false p.pa 16 = false → s1.redq = [] →
    (ahead = 0 → Completes (.redqs f d a b) s fun t =>
      let u := retryPending (registerWrite s1 p.pa (toBytes 8 acc ++ toBytes 8 ((next + 1) % 2 ^ 64)))
      CrewEffect u t u.c) ∧
    (0 < ahead → ahead < 64 → Completes (.redqs f d a b) s fun t =>
      let u := retryPending { s1 with redq :=
        [⟨p.pa, i, v, f == 1, s1.g.rcd, crewId s1.c, s1.c.save, w64 (getS s1.c a).toNat, s1.c.pc⟩] }
      CrewEffect u t u.c) ∧
    (64 ≤ ahead → ahead < 2 ^ 63 → Completes (.redqs f d a b) s fun t => Waits s1 t) ∧
    (2 ^ 63 ≤ ahead → exec (.redqs f d a b) s = .next (takeTrap s1 ⟨.seqDup, s1.c.pc, getS s1.c a, 0, false, 0⟩)))) ∧
  (∀ (s : State) (x : Contribution),
    let next := readNat s (x.obj + 8) 8
    let ahead := (x.index.toNat + 2 ^ 64 - next) % 2 ^ 64
    let acc := if x.f64 then (fp64.add 0 (readNat s x.obj 8) x.value.toNat).bits
      else (fp32.add 0 (readNat s x.obj 4) (x.value.toNat % 2 ^ 32)).bits
    let after (v t : State) : Prop := t = retryPending ((retryPending v).focus s.c.uid)
    s.c.redq = [x] → x.seen = none → x.key ∉ x.awaits → s.c.dups = [] → s.redq = [] →
    (poisoned s false x.obj 16 = true → s.c.status ≠ .exited → Completes (.redqContribution s.c.uid 0) s fun t =>
      let u := deferEccAt { s with c := { s.c with redq := [] } } x.va x.thread x.reg x.word
      after { u with c := retire u.c } t) ∧
    (poisoned s false x.obj 16 = false →
    (ahead = 0 → Completes (.redqContribution s.c.uid 0) s fun t =>
      let u := registerWrite s x.obj (toBytes 8 acc ++ toBytes 8 ((next + 1) % 2 ^ 64))
      after { u with c := retire { u.c with redq := [] } } t) ∧
    (64 ≤ ahead → ahead < 2 ^ 63 → Completes (.redqContribution s.c.uid 0) s fun t =>
      after { s with ids := s.ids + 1, c := retire { s.c with redq := [{ x with seen := some s.ids }] } } t) ∧
    (2 ^ 63 ≤ ahead → s.c.status ≠ .exited → Completes (.redqContribution s.c.uid 0) s fun t =>
      after { s with c := retire { s.c with redq := [], deferred := s.c.deferred ++
        [⟨.seqDup, 0, x.va, w64 (2 ^ 63 + x.word.toNat % 2 ^ 57), true, 0⟩] } } t))) ∧
  (∀ s : State, (∀ c ∈ s.allCrews, ∀ x ∈ c.redq, x.seen = none) → retryPending s = s) ∧
  (∀ (s : State) (pa : Nat) (bs : List Byte),
    let u := registerWrite s pa bs
    let moved := ∃ c ∈ u.allCrews, ∃ x ∈ c.redq, x.seen ≠ none ∧ x.obj + 8 < pa + bs.length ∧ pa < x.obj + 16
    (s.lamps = [] → s.redq = [] → WritePerformed s u ⟨false, 0, pa, bs⟩) ∧
    (moved → performGlobal s pa bs = retryPending u) ∧ (¬ moved → performGlobal s pa bs = u)) ∧
  (∀ (s : State) (n uid : Nat) (x : Contribution), firstSeen (unblocked s) = some (uid, x) →
    (∃ c ∈ s.allCrews, c.uid = uid ∧ x ∈ c.redq) ∧ x.seen ≠ none ∧ answerTo s x ≠ .tooFar ∧
    (∀ c ∈ s.allCrews, ∀ y ∈ c.redq, ∀ k, y.seen = some k → answerTo s y ≠ .tooFar → x.seen.getD 0 ≤ k) ∧
    retrySome (n + 1) s = retrySome n (inFocus s uid fun s => offer s x)) ∧
  (∀ (s : State) (n : Nat) (old more : List Contribution) (x : Contribution), s.c.redq = old ++ x :: more →
    let may (y : Contribution) : Prop := y.seen = none ∧ ∀ z ∈ s.c.redq, z.key ∉ y.awaits
    (∀ y ∈ old, ¬ may y) → may x → offerSome (n + 1) s = offerSome n (retryPending (offer s x)))

/-- `WAITU` checks its condition at the home slice: it goes on with status 0 where it holds, 1 at once with a time of 0,
3 where there is no room, and else parks with an entry. A write to a line wakes the entries whose condition then holds;
the sweep wakes those whose deadline has come, with status 1; a woken crew goes on at the next word with the status in its
register (R228 to R233). A full set of the Lamproom spills the region's own entry that was registered first, and else the new
one, to a free place of the region's spill area, with its line's bit set in the filter; where there is none the wait gets
status 3 (R229, R230). A crew is woken wherever it is: one of a gallery that is swapped out to an image gets a resume record
too (R232). Of memory, parking and resuming change word 0 of the crew's save record alone, which says that it
is valid, whether and how the crew is parked, and its wake and status (R232, R293). -/
def Obligations.WaitsAndWakes : Prop :=
  (∀ (s : State) (c : BitVec 3) (d a b : BitVec 6) (w : BitVec 1) (tm : BitVec 1) (p : Place),
    let n := if w = 1 then 4 else 8
    let s1 := atHome s
    let y := getS s1.c b
    let holds := waitHolds c (w == 1) (readNat s1 p.pa n) y.toNat
    let e := lampEntry s1 p (w == 1) c y
      (if tm = 1 then some (min (s1.timens.toNat + (getG s1.c b 1).toNat) (2 ^ 64 - 1)) else none)
    Ready (.waitu c d a b w tm) s → checkGlobal s needR (getS s.c a).toNat n n = .ok p → Unhindered s false p.pa n →
    inHost p.pa = false → s.c.gid = s.g.gid → poisoned s1 false p.pa n = false →
    (holds = true → Completes (.waitu c d a b w tm) s fun t => ScalarEffect s1 t d 0) ∧
    (holds = false → tm = 1 → getG s1.c b 1 = 0 → Completes (.waitu c d a b w tm) s fun t => ScalarEffect s1 t d 1) ∧
    (holds = false → (tm = 1 → getG s1.c b 1 ≠ 0) → register s1 s1.g.rcd e = none →
      Completes (.waitu c d a b w tm) s fun t => ScalarEffect s1 t d 3) ∧
    (holds = false → (tm = 1 → getG s1.c b 1 ≠ 0) →
      (s1.lamps.filter fun f => f.spilled.isNone && f.home == p.home && lampSet f.pa == lampSet p.pa).length < 8 →
      Completes (.waitu c d a b w tm) s fun t => SaveWordPut
        { s1 with lamps := s1.lamps ++ [e], lampSeq := s1.lampSeq + 1, c := { s1.c with status := .parked (.waitu d) } }
        t)) ∧
  (∀ (s : State) (c : Crew),
    let x := saveWord0 s c
    x < 2 ^ 64 ∧ bit x 0 = c.woken.isSome ∧ bits x 1 2 = (c.woken.getD 0).toNat ∧
    (bit x 3 = true ↔ ∃ v ∈ s.saved, v.gal.gid = c.gid) ∧
    (bit x 4 = true ↔ ∃ r ∈ s.records, r.resume = some c.gid) ∧
    bit x 5 = (match c.status with
      | .parked _ => true
      | _ => false) ∧
    bits x 6 6 = (match c.status with
      | .parked (.waitu _) => 1
      | .parked .barc => 2
      | .parked .spawn => 3
      | .parked .blkacq => 4
      | .parked (.twait _ _) => 5
      | _ => 0) ∧
    bits x 12 51 = 0 ∧ bit x 63 = true) ∧
  (∀ (s : State) (line : Nat),
    let hit (e : LampEntry) : Bool := e.pa / 256 == line && lampHolds s e
    (relight s line).lamps = s.lamps.filter (fun e => !hit e) ∧
    ((∃ e ∈ s.lamps, hit e = true ∧ e.uid = s.c.uid) → (relight s line).c = { s.c with woken := some 0 }) ∧
    (∀ e ∈ s.lamps, hit e = true → ∀ c, s.crew? e.uid = some c →
      (relight s line).crew? e.uid = some { c with woken := some 0 }) ∧
    (relight s line).filter = s.filter.filter fun f =>
      (relight s line).lamps.any fun e => e.spilled.isSome && e.home == f / 65536) ∧
  (∀ (s : State) (uid : Nat) (st : BitVec 2) (c : Crew), s.crew? uid = some c →
    let t := wake s uid st
    t.crew? uid = some { c with woken := some st } ∧ (∀ v, v ≠ uid → t.crew? v = s.crew? v) ∧ t.lamps = s.lamps ∧
    ((∀ v ∈ s.saved, v.gal.gid ≠ c.gid) → t.records = s.records) ∧
    (∀ v img, s.saved.find? (·.gal.gid == c.gid) = some v → v.image = some img →
      (∀ r ∈ s.records, r.resume ≠ some c.gid) → ∃ r, t.records = s.records ++ [r] ∧ r.resume = some c.gid ∧
        r.kind = 3 ∧ r.arg = w64 img ∧ r.path = v.gal.rcd.path ∧ r.ready.isSome = true) ∧
    (∀ g base, (∀ v ∈ s.saved, v.gal.gid ≠ c.gid) → s.gal? c.gid = some g → (∀ k, k < 8 → inRom s (base + k) = false) →
      (∀ u : State, (∃ m, u = { s.onCrew uid (fun c => { c with woken := some st }) with mem := m }) →
        (∀ a, a < base ∨ base + 8 ≤ a → readByte u a = readByte s a) →
        ∀ k, k < 8 → savePlace u g c.save k = some (base + k)) →
      readNat t base 8 = saveWord0 s { c with woken := some st })) ∧
  (∀ (s : State) (r : Record) (e : LampEntry),
    let ways := s.lamps.filter fun f => f.spilled.isNone && f.home == e.home && lampSet f.pa == lampSet e.pa
    let bitOf (x : LampEntry) : Nat := 65536 * x.home + foldBits 16 3 (x.pa / 256)
    (∀ i, freeSpill s r = some i → i < rcbField s r 0x58 8 / 32 ∧
      ∀ x ∈ s.lamps, x.region = w64 r.block → x.spilled ≠ some i) ∧
    (freeSpill s r = none → ∀ i, i < rcbField s r 0x58 8 / 32 →
      ∃ x ∈ s.lamps, x.region = w64 r.block ∧ x.spilled = some i) ∧
    (8 ≤ ways.length → freeSpill s r = none → register s r e = none) ∧
    (∀ i, 8 ≤ ways.length → freeSpill s r = some i → ∃ u, register s r e = some u ∧ u.lampSeq = s.lampSeq + 1 ∧
      (∀ b ∈ s.filter, b ∈ u.filter) ∧
      (∀ f ∈ ways, f.region = e.region → (∀ h ∈ ways, h.region = e.region → h ≠ f → f.regno < h.regno) →
        u.lamps = (s.lamps.map fun x => if x = f then { x with spilled := some i } else x) ++ [e] ∧ bitOf f ∈ u.filter) ∧
      ((∀ h ∈ ways, h.region ≠ e.region) →
        u.lamps = s.lamps ++ [{ e with spilled := some i }] ∧ bitOf e ∈ u.filter))) ∧
  (∀ s : State, s.sweepAt ≤ s.timens.toNat → s.sweeps = [] →
    let late (e : LampEntry) : Bool := (e.deadline.map fun t => decide (t ≤ s.sweepAt)).getD false
    Completes .deadlineSweep s fun t =>
      t.sweepAt = s.sweepAt + 1000 ∧ (∀ e ∈ t.lamps, e ∈ s.lamps ∧ late e = false) ∧
      ((∀ e ∈ s.lamps, late e = true → isSaved s s.c.gid = false ∧ e.uid = s.c.uid ∧ s.c.save = 0) →
        t.lamps = s.lamps.filter (fun e => !late e) ∧
        ((∃ e ∈ s.lamps, late e = true) → t.c = { s.c with woken := some 1 })) ∧
      ((∀ e ∈ s.lamps, late e = true) → t.lamps = [] ∧ t.filter = [] ∧
        ∀ e ∈ s.lamps, ∀ c, s.crew? e.uid = some c → t.crew? e.uid = some { c with woken := some 1 })) ∧
  (∀ (s : State) (st : BitVec 2) (d : BitVec 6), s.c.woken = some st → s.c.status = .parked (.waitu d) →
    s.c.gid = s.g.gid →
    Completes (.crewWakeResume s.c.uid) s fun t => ∃ u : State,
      WordEnded s.c u.c ∧ ScalarWritten s.c u.c d (st.setWidth 64) ∧
      u.c = Crew.withEnd { (s.c.withScalars u.c) with woken := none } u.c ∧ u = { s with c := u.c } ∧ SaveWordPut u t) ∧
  (∀ (s : State) (st : BitVec 2), s.c.woken = some st → s.c.status = .parked .barc → s.c.gid = s.g.gid →
    Completes (.crewWakeResume s.c.uid) s fun t => ∃ u : State,
      WordEnded s.c u.c ∧ u.c = Crew.withEnd { s.c with woken := none } u.c ∧ u = { s with c := u.c } ∧
      SaveWordPut u t)

/-! ### Relays, tags, engines, tasks, collectives and the system words (R160 to R170, R235 to R284, R307 to R343) -/

/-- The words of a Relay. An applied contribution leaves a full window's oldest out, and writes NEXT, TOTAL, the counts
and BAGG of the block as one write and nothing else of it; WACCQ orders by index as R221; WQRY answers from the front, the
back, or both; a word of the other kind, and one on an object that is not configured, is RELAY_CFG (R235, R237, R238). The
window holds the last contributions, as many as it is long, and WQRY answers their aggregate (R238, R239), under the
operators of R236, NaNs canonical. What performing a write leaves is WritePerformed; the bytes of storage given up are free
(log 36). The model's own choices: RELAY_CFG for a misaligned STORE, BAGG left by WCLR as it stood, RELAY_CFG of a word on a
block that no WCFG configured (log 42), the block's OPER as the 15 that makes a WCFG legal (log 88), and a contribution made
canonical when it is taken in (log 66). -/
def Obligations.RelayWords : Prop :=
  (∀ (s s1 : State) (a b d : BitVec 6) (p : Place) (r : Relay),
    let pa := p.pa
    let op := relayOper s1 pa
    let v := relayValue op (getS s1.c b)
    RelayReached s s1 (getS s.c a) p → relayAt s1 pa = some r →
    (Ready (.wacc a b) s → relaySeq s1 pa = false → Completes (.wacc a b) s fun t =>
      let u := relayApply s1 r v (relayNext s1 pa)
      CrewEffect u t u.c) ∧
    (Ready (.wacc a b) s → relaySeq s1 pa = true →
      exec (.wacc a b) s = .next (takeTrap s1 ⟨.relayCfg, s1.c.pc, getS s1.c a, 0, false, 0⟩)) ∧
    (Ready (.waccq a b) s → relaySeq s1 pa = false →
      exec (.waccq a b) s = .next (takeTrap s1 ⟨.relayCfg, s1.c.pc, getS s1.c a, 0, false, 0⟩)) ∧
    (Ready (.waccq a b) s → relaySeq s1 pa = true → r.held = [] →
      let i := getG s1.c b 1
      let ahead := (i.toNat + 2 ^ 64 - relayNext s1 pa) % 2 ^ 64
      (ahead = 0 → Completes (.waccq a b) s fun t =>
        let u := relayApply s1 r v ((relayNext s1 pa + 1) % 2 ^ 64)
        CrewEffect u t u.c) ∧
      (0 < ahead → ahead < 64 → Completes (.waccq a b) s fun t =>
        CrewEffect { s1 with relays := s1.relays.map fun q => if q.blk = pa then { r with held := [(i, v)] } else q }
          t s1.c) ∧
      (64 ≤ ahead → ahead < 2 ^ 63 → Completes (.waccq a b) s fun t => Waits s1 t) ∧
      (2 ^ 63 ≤ ahead → exec (.waccq a b) s = .next (takeTrap s1 ⟨.seqDup, s1.c.pc, getS s1.c a, 0, false, 0⟩))) ∧
    (Ready (.wqry d a) s → Completes (.wqry d a) s fun t => ScalarEffect s1 t d
      (match r.front, r.back with
        | [], [] => relayIdentity op
        | [], _ => relayBagg s1 pa
        | f :: _, [] => f
        | f :: _, _ => relayOp op f (relayBagg s1 pa))) ∧
    (Ready (.wlen d a) s → Completes (.wlen d a) s fun t => ScalarEffect s1 t d
      (w64 (r.front.length + r.back.length + 2 ^ 16 * r.front.length + 2 ^ 32 * relayW s1 pa)))) ∧
  (∀ (s s1 : State) (a b d : BitVec 6) (p : Place), RelayReached s s1 (getS s.c a) p → relayAt s1 p.pa = none →
    ∀ i ∈ [Instr.wacc a b, .waccq a b, .wqry d a, .wlen d a], Ready i s →
      exec i s = .next (takeTrap s1 ⟨.relayCfg, s1.c.pc, getS s1.c a, 0, false, 0⟩)) ∧
  (∀ (s s1 : State) (a b : BitVec 6) (p : Place) (l : List (Nat × Nat)),
    let pa := p.pa
    let cfg := (getS s1.c b).toNat
    let op := bits cfg 0 4
    let w := bits cfg 16 13
    let base := readNat s1 (pa + 8) 8
    let configured (u : State) : State := performGlobal (performNat u pa 8 (bits cfg 0 5 + 2 ^ 16 * w)) (pa + 0x18)
      (List.replicate 16 0)
    RelayReached s s1 (getS s.c a) p →
    (Ready (.wclr a) s → Completes (.wclr a) s fun t =>
      let u := performGlobal { s1 with relays := s1.relays.map fun q =>
        if q.blk = pa then { q with front := [], back := [] } else q } (pa + 0x18) (List.replicate 16 0)
      CrewEffect u t u.c) ∧
    (Ready (.wcfg a b) s → relayOper s1 pa = 15 → op ≤ 12 → bits cfg 5 11 = 0 → bits cfg 29 35 = 0 →
      0 < w → w ≤ 4096 → base % 4096 = 0 → s1.relays.find? (·.blk == pa) = none →
      storagePages s1 base ((2 * w * (if 11 ≤ op then 16 else 8) + 4095) / 4096) = .ok l →
      Completes (.wcfg a b) s fun t =>
        let u := configured
          { s1 with relays := s1.relays ++ [⟨pa, p.home, s1.c.uid, w64 s1.g.rcd.block, s1.part, l, [], [], []⟩] }
        CrewEffect u t u.c) ∧
    (Ready (.wcfg a b) s → op = 15 → bits cfg 5 11 = 0 → bits cfg 29 35 = 0 → ∀ r : Relay,
      s1.relays.find? (·.blk == pa) = some r → (relayOper s1 pa = 15 ∨ (relayN s1 pa = 0 ∧ r.held = [])) →
      Completes (.wcfg a b) s fun t => ∃ v : State,
        v = { s1 with relays := s1.relays.filter (·.blk != pa), mem := v.mem, fresh := v.fresh } ∧
        (∀ x, (∀ q ∈ r.store, x < q.1 ∨ q.1 + q.2 ≤ x) → readByte v x = readByte s1 x) ∧
        CrewEffect (configured v) t (configured v).c) ∧
    (Ready (.wcfg a b) s → (op = 13 ∨ op = 14 ∨ bits cfg 5 11 ≠ 0 ∨ bits cfg 29 35 ≠ 0 ∨
        (op ≠ 15 ∧ (w = 0 ∨ 4096 < w ∨ base % 4096 ≠ 0)) ∨ (relayOper s1 pa ≠ 15 ∧ relayN s1 pa ≠ 0)) →
      exec (.wcfg a b) s = .next (takeTrap s1 ⟨.relayCfg, s1.c.pc, getS s1.c a, 0, false, 0⟩))) ∧
  (∀ (s : State) (r : Relay) (c : Word) (next : Nat),
    s.lamps = [] → s.redq = [] → NoneWaits s → (∀ k, k < 0x30 → inRom s (r.blk + k) = false) →
    let t := relayApply s r c next
    let x := applyTo (relayOper s r.blk) (relayW s r.blk) r (relayBagg s r.blk) c
    relayNext t r.blk = next % 2 ^ 64 ∧ relayTotal t r.blk = (relayTotal s r.blk + 1) % 2 ^ 64 ∧ relayBagg t r.blk = x.2 ∧
    readNat t (r.blk + 0x20) 8 = (x.1.front.length + x.1.back.length + 2 ^ 16 * x.1.front.length) % 2 ^ 64 ∧
    t.relays = s.relays.map (fun q => if q.blk = r.blk then x.1 else q) ∧
    (∀ k, k < r.blk + 0x10 ∨ r.blk + 0x30 ≤ k → readByte t k = readByte s k) ∧
    t = { s with relays := t.relays, mem := t.mem, poison := t.poison }) ∧
  (∀ (op w : Nat) (r : Relay) (bagg c : Word), 0 < w → r.front.length + r.back.length ≤ w →
    let x := (applyTo op w r bagg c).1
    x.front.length + x.back.length = min (r.front.length + r.back.length + 1) w) ∧
  (∀ (op w : Nat) (r : Relay) (bagg c : Word) (cs : List Word), 0 < w → cs.length ≤ w → Window op r bagg cs →
    let x := applyTo op w r bagg c
    Window op x.1 x.2 ((if cs.length = w then cs.tail else cs) ++ [c])) ∧
  (∀ (op w : Nat) (r : Relay) (bagg : Word) (l : List Word), 0 < w → r.front = [] → r.back = [] →
    let x := l.foldl (fun x c => applyTo op w x.1 x.2 c) (r, bagg)
    Window op x.1 x.2 (l.drop (l.length - w))) ∧
  (∀ (op : Nat) (r : Relay) (bagg : Word) (cs : List Word), Window op r bagg cs → ∃ f b, cs = f ++ b ∧
    relayQuery op r bagg = (if f = [] then leftAgg op b else if b = [] then rightAgg op f
      else relayOp op (rightAgg op f) (leftAgg op b)) ∧
    (op = 2 → relayQuery op r bagg = cs.foldl (· + ·) 0) ∧ (op = 10 → relayQuery op r bagg = cs.foldl (· ^^^ ·) 0)) ∧
  (∀ x y : Word,
    let lo (z : Word) : Nat := z.toNat % 2 ^ 32
    let hi (z : Word) : Nat := z.toNat / 2 ^ 32
    let plain (z : Nat) : Nat := if (fp32.value z).isNan then 0x7FC00000 else z
    let u := fp32.value (lo x)
    let v := fp32.value (lo y)
    (∀ op ∈ [0, 3, 4, 5], relayValue op x = w64 (plain (lo x))) ∧
    relayValue 1 x = (if (fp64.value x.toNat).isNan then 0x7FF8000000000000 else x) ∧
    relayValue 11 x = w64 (plain (lo x) + 2 ^ 32 * hi x) ∧ relayValue 12 x = w64 (plain (lo x) + 2 ^ 32 * plain (hi x)) ∧
    (∀ op ∈ [2, 6, 7, 8, 9, 10], relayValue op x = x) ∧
    relayOp 0 x y = w64 (fp32.add 0 (lo x) (lo y)).bits ∧ relayOp 1 x y = w64 (fp64.add 0 x.toNat y.toNat).bits ∧
    relayOp 2 x y = x + y ∧ relayOp 3 x y = w64 (fp32.mul 0 (lo x) (lo y)).bits ∧
    relayOp 4 x y = w64 (fp32.minmax true (lo x) (lo y)).bits ∧ relayOp 5 x y = w64 (fp32.minmax false (lo x) (lo y)).bits ∧
    (relayOp 6 x y).toInt = max x.toInt y.toInt ∧ (relayOp 7 x y).toInt = min x.toInt y.toInt ∧
    relayOp 8 x y = x &&& y ∧ relayOp 9 x y = x ||| y ∧ relayOp 10 x y = x ^^^ y ∧
    (u.isNan = true → v.isNan = true → relayOp 11 x y = w64 (hi y * 2 ^ 32 + 0x7FC00000)) ∧
    (u.isNan = false → v.isNan = true → relayOp 11 x y = x) ∧ (u.isNan = true → v.isNan = false → relayOp 11 x y = y) ∧
    (u.isNan = false → v.isNan = false →
      (v.ext < u.ext ∨ (v.ext = u.ext ∧ v.isNeg = true ∧ u.isNeg = false) → relayOp 11 x y = x) ∧
      (¬ (v.ext < u.ext ∨ (v.ext = u.ext ∧ v.isNeg = true ∧ u.isNeg = false)) → relayOp 11 x y = y)) ∧
    relayOp 12 x y = w64 ((fp32.mul 0 (lo x) (lo y)).bits + 2 ^ 32 * (fp32.fma 0 (lo y) (hi x) (hi y)).bits) ∧
    (List.range 13).map relayIdentity = [0, 0, 0, 0x3F800000, 0x7FC00000, 0x7FC00000, 2 ^ 63, 2 ^ 63 - 1,
      BitVec.allOnes 64, 0, 0, 0x7FC00000, 0x3F800000])

/-- The TAG words wait for tags at count 0, or read them; a tag found ready with its fail bit set raises the cause of its
failure (R244, R278, R279). `PUBLISH` performs the crew's stores and waits for its flip, which changes the live side and
lets it go on; PUBQRY reads the entry that holds the address; PUBSET writes one from an image of R262, or is refused for
one of the eight reasons of R284, the lowest of those that hold, which is the model's choice (log 92) (R206, R262, R283,
R284). A command that completes takes 1 from its tag's count, and its failure marks the tag unless it is marked already;
a crew parked on the tag whose condition then holds goes on at the next word (R244, R245, R278). -/
def Obligations.TagAndPublishWords : Prop :=
  (∀ (s : State) (d a : BitVec 6) (all : Bool) (word : Instr),
    let m := getS s.c a
    let ready (k : Nat) : Prop := k < 64 ∧ m.getLsbD k = true ∧ tagCount s.c k = 0
    let holds : Prop := if all then (∀ k, k < 64 → m.getLsbD k = true → ready k) else m = 0 ∨ ∃ k, ready k
    word = (if all then .twaitall a else .twaitany a) →
    (Ready word s → holds → (∀ k, ready k → s.c.tagfail.getLsbD k = false) →
      Completes word s fun t => CrewEffect s t s.c) ∧
    (∀ k, Ready word s → holds → ready k → s.c.tagfail.getLsbD k = true →
      (∀ j, j < k → ready j → s.c.tagfail.getLsbD j = false) →
      exec word s = .next (takeTrap s
        ⟨Cause.ofCode (s.c.tagcause.getD k 0).toNat, s.c.pc, 0, w64 (2 ^ 62 + k), false, 0⟩)) ∧
    (Ready word s → ¬ holds → s.c.gid = s.g.gid → Completes word s fun t =>
      SaveWordPut { s with c := { s.c with status := .parked (.twait all m) } } t) ∧
    (∀ k, Ready (.tfirst d a) s → ready k → (∀ j, j < k → ¬ ready j) →
      Completes (.tfirst d a) s fun t => ScalarEffect s t d (w64 (k + if s.c.tagfail.getLsbD k then 256 else 0))) ∧
    (Ready (.tfirst d a) s → (∀ k, ¬ ready k) →
      Completes (.tfirst d a) s fun t => ScalarEffect s t d (BitVec.allOnes 64)) ∧
    (Ready (.tclr a) s → Completes (.tclr a) s fun t =>
      CrewEffect s t { s.c with tagfail := s.c.tagfail &&& ~~~ m }) ∧
    (Ready (.trdy d) s → Completes (.trdy d) s fun t => ∃ x, ScalarEffect s t d x ∧
      ∀ k, k < 64 → x.getLsbD k = (tagCount s.c k == 0))) ∧
  (∀ (s : State) (d a : BitVec 6),
    let va := (getS s.c a).toNat
    (∀ p, Ready (.publish a) s → pubAt s s.part (galAsn s.g) va = some p → s.c.redq = [] →
      Completes (.publish a) s fun t => t = { atHome s with
        flips := (atHome s).flips ++ [⟨p.part, p.idx, (atHome s).c.uid, none⟩]
        c := { (atHome s).c with status := .flipping } }) ∧
    (Ready (.publish a) s → pubAt s s.part (galAsn s.g) va = none →
      exec (.publish a) s = .next (takeTrap s ⟨.xlate, s.c.pc, getS s.c a, w64 (2 ^ 12 + 2 ^ 26), false, 0⟩)) ∧
    (Ready (.pubqry d a) s → Completes (.pubqry d a) s fun t => ScalarEffect s t d
      (match pubAt s s.part (galAsn s.g) va with
        | none => 0
        | some p => w64 (p.asn + 2 ^ 16 + (if p.live then 2 ^ 17 else 0) + 2 ^ 24 * p.idx))) ∧
    (∀ p, Ready (.pubset a d) s → checkGlobal s needR (getS s.c d).toNat 32 32 = .ok p → Unhindered s false p.pa 32 →
      Readable s false p.pa 32 →
      let i := pubImage (ownBytes s false p.pa 32)
      (pubReason s (getS s.c a) i = none → Completes (.pubset a d) s fun t =>
        CrewEffect { s with pubs := (s.pubs.filter fun q => !(q.part == s.part && q.idx == (getS s.c a).toNat)) ++
          (if i.valid then [⟨s.part, (getS s.c a).toNat, i.vbase, i.size, i.pbase0, i.pbase1, false, i.asn⟩] else []) }
          t s.c) ∧
      (∀ n, pubReason s (getS s.c a) i = some n →
        exec (.pubset a d) s = .next (takeTrap s ⟨.perm, s.c.pc, getS s.c d, w64 n, false, 0⟩)))) ∧
  (∀ (s : State) (part asn va : Nat),
    let holds (p : PubEntry) : Prop := p.part = part ∧ p.asn = asn ∧ p.vbase ≤ va ∧ va < p.vbase + 2 ^ (21 + p.size)
    (∀ p, pubAt s part asn va = some p → p ∈ s.pubs ∧ holds p) ∧ (pubAt s part asn va = none ↔ ∀ p ∈ s.pubs, ¬ holds p)) ∧
  (∀ bs : List Byte,
    let word (i : Nat) : Nat := ofBytes ((bs.drop (8 * i)).take 8)
    let i := pubImage bs
    i.vbase = 2 ^ 21 * bits (word 0) 21 36 ∧ i.size = bits (word 0) 0 4 ∧ i.pbase0 = 2 ^ 21 * bits (word 1) 21 31 ∧
    i.pbase1 = 2 ^ 21 * bits (word 2) 21 31 ∧ i.valid = bit (word 3) 16 ∧ i.asn = bits (word 3) 0 16 ∧
    (i.rsvd = true ↔ bits (word 0) 57 7 ≠ 0 ∨ bits (word 0) 4 17 ≠ 0 ∨ bits (word 1) 52 12 ≠ 0 ∨ bits (word 1) 0 21 ≠ 0 ∨
      bits (word 2) 52 12 ≠ 0 ∨ bits (word 2) 0 21 ≠ 0 ∨ bits (word 3) 18 46 ≠ 0)) ∧
  (∀ (s : State) (idx : Word) (i : PubImage) (n : Nat),
    let size := 2 ^ (21 + i.size)
    let reason (n : Nat) : Prop := match n with
      | 1 => 255 < idx.toNat
      | 2 => 9 ≤ i.size
      | 3 => i.vbase % size ≠ 0 ∨ i.pbase0 % size ≠ 0 ∨ i.pbase1 % size ≠ 0
      | 4 => i.valid = true ∧ ∃ p ∈ s.pubs, p.part = s.part ∧ p.idx ≠ idx.toNat ∧ p.asn = i.asn ∧
        p.vbase < i.vbase + size ∧ i.vbase < p.vbase + 2 ^ (21 + p.size)
      | 5 => i.valid = true ∧ ∃ p ∈ s.pubs, p.part = s.part ∧ p.idx = idx.toNat
      | 6 => s.c.privl = 1 ∧ i.asn ≠ galAsn s.g
      | 7 => 160 * 2 ^ 32 < i.pbase0 + size ∨ 160 * 2 ^ 32 < i.pbase1 + size
      | 8 => i.rsvd = true
      | _ => False
    pubReason s idx i = some n ↔ reason n ∧ ∀ m, m < n → ¬ reason m) ∧
  (∀ (s : State) (old more : List Flip) (part idx : Nat),
    s.flips = old ++ ⟨part, idx, s.c.uid, none⟩ :: more → s.c.status = .flipping →
    Completes (.publishFlip old.length) s fun t =>
      CrewEffect { s with
        flips := old ++ more
        pubs := s.pubs.map fun p => if p.part = part ∧ p.idx = idx then { p with live := !p.live } else p } t s.c) ∧
  (∀ (c : Crew) (k : BitVec 6) (why : Option (BitVec 8)),
    let d := tagDown c (some k) why
    (∀ j, j < 64 → tagCount d j = if j = k.toNat then tagCount c j - 1 else tagCount c j) ∧
    d = { c with tagcnt := d.tagcnt, tagfail := d.tagfail, tagcause := d.tagcause } ∧
    (why = none ∨ c.tagfail.getLsbD k.toNat = true → d.tagfail = c.tagfail ∧ d.tagcause = c.tagcause) ∧
    (∀ e, why = some e → c.tagfail.getLsbD k.toNat = false →
      d.tagfail = c.tagfail ||| BitVec.ofNat 64 (2 ^ k.toNat) ∧
      ∀ j, j < 64 → d.tagcause.getD j 0 = if j = k.toNat then e else c.tagcause.getD j 0)) ∧
  (∀ (s : State) (k : BitVec 6) (why : Option Cause) (all : Bool) (m : Word),
    let d := tagDown s.c (some k) (why.map fun e => BitVec.ofNat 8 e.code)
    let ready (j : Nat) : Prop := j < 64 ∧ m.getLsbD j = true ∧ tagCount d j = 0
    let holds : Prop := if all then (∀ j, j < 64 → m.getLsbD j = true → ready j) else m = 0 ∨ ∃ j, ready j
    s.c.gid = s.g.gid → isSaved s s.c.gid = false →
    (s.c.status = .parked (.twait all m) → holds → (∀ j, ready j → d.tagfail.getLsbD j = false) →
      ∃ u : State, CrewEffect { s with c := d } u d ∧ SaveWordPut u (completeTag s s.c.uid (some k) why)) ∧
    ((∀ x y, s.c.status ≠ .parked (.twait x y)) ∨ (s.c.status = .parked (.twait all m) ∧ ¬ holds) →
      completeTag s s.c.uid (some k) why = { s with c := d }))

/-- The HOIST words: a command whose operands pass its checks is queued on the crew's core with its tag raised, and the
engine then grants what it can; a failing check of R267, R269 or R270 traps at issue, the order of the checks being the
model's choice (log 90). A command that names a follow-on image takes its slot in the crew's ring and its tag's count
at issue (R270), posts it when its last chunk is performed, with the row scales it then reads, whose single-bit errors
it corrects and counts and whose uncorrectable words fail it (R72, R304), or gives the slot up as an MFENCE when it
fails (R250, R270, R273). A ring whose control block holds an uncorrectable word makes the word trap at issue and a
step of a chain fail, which is the model's choice (log 40). A step of a chain begins by reading its word, checks it as
the words are checked, ILLEGAL for what a word may not hold, and waits for the slot and the count of its follow-on
(R271; a ring detached meanwhile, log 75). HSTOP holds until what is granted is performed, HRESUME lets the command go
on, HPROG reads the oldest command of the tag (R244 to R249, R264 to R272). An engine takes its next chunk from the
oldest command of its own queue that has one to grant, else from another of its cluster, the lowest core first, in
ascending order (R247). A chunk is performed, its reads before its writes, and its command goes on; one that fails, or
whose bytes have a parity error, fails its command (R245, R248, R304, R389). The bytes of a chunk: copied, gathered or
scattered by index, a repeated pattern, or planes of elements (R251 to R253, R268, R269; the order in which a scatter
writes is free, log 4). -/
def Obligations.HoistWords : Prop :=
  (∀ (s : State) (t g : BitVec 6) (n x y r : BitVec 1) (f : BitVec 3),
    let tag : Option (BitVec 6) := if n = 1 then none else some t
    let s1 := atHome s
    ∀ p ∈ hoistOps s t g n x y r f,
      (∀ e, Ready p.1 s → opFault p.2 = some e → exec p.1 s = .next (takeTrap s ⟨e.cause, s.c.pc, e.addr, e.info, false, 0⟩)) ∧
      (Ready p.1 s → opFault p.2 = none → s.c.redq = [] → p.2.followAt = 0 →
        (s1.hoist.filter fun h => h.core == s1.c.core).length < 32 → (∀ k, tag = some k → tagCount s1.c k.toNat < 255) →
        Completes p.1 s fun u => ∃ v,
          CrewEffect { s1 with ids := s1.ids + 1, hoist := s1.hoist ++
            [{ id := s1.ids, uid := s1.c.uid, core := s1.c.core, tag := tag, op := p.2, chain := none, begun := true
               last := false, follow := none, waits := none, next := 0, total := p.2.chunks, flight := [], spoiled := []
               stopped := false, failed := none }] }
            v (tagUp s1.c tag) ∧ u = settleHoist v (clusterOf s1.c.core)) ∧
      (Ready p.1 s → opFault p.2 = none → s.c.redq ≠ [] → Completes p.1 s fun u => Waits s u)) ∧
  (∀ (s : State) (t g : BitVec 6) (n x y r : BitVec 1) (f : BitVec 3),
    let tag : Option (BitVec 6) := if n = 1 then none else some t
    let s1 := atHome s
    let k : Client := ⟨s1.g, s1.c.uid, s1.c.privl == 2⟩
    ∀ p ∈ hoistOps s t g n x y r f, Ready p.1 s → opFault p.2 = none → p.2.followAt ≠ 0 → s.c.redq = [] →
      (∀ e, followImage s1 k s1.c.ring p.2.followAt = .error e →
        exec p.1 s = .next (takeTrap s ⟨e.cause, s.c.pc, e.addr, e.info, false, 0⟩)) ∧
      (∀ s2 image ring, followImage s1 k s1.c.ring p.2.followAt = .ok (s2, image) → s2.c.ring = some ring →
        let raised (j : Nat) : Nat := (if tag = some (BitVec.ofNat 6 j) then 1 else 0) +
          (if imageTag image = some (BitVec.ofNat 6 j) then 1 else 0)
        let free : Prop := (s2.hoist.filter fun h => h.core == s2.c.core).length < 32 ∧ ringRoom s2 k ring = true ∧
          ∀ j, j < 64 → 0 < raised j → tagCount s2.c j + raised j ≤ 255
        let spoiled : Prop := ringSpoiled s2 k ring = true
        (spoiled → exec p.1 s = .next (takeTrap s ⟨.eccUncorr, s.c.pc, ring, 0, false, 0⟩)) ∧
        (¬ spoiled → ¬ free → Completes p.1 s fun u => Waits s u) ∧
        (∀ s3 slot, ¬ spoiled → free → ringReserve s2 k ring = (s3, slot) → Completes p.1 s fun u => ∃ v,
          CrewEffect { s3 with ids := s3.ids + 1, hoist := s3.hoist ++
            [{ id := s3.ids, uid := s3.c.uid, core := s3.c.core, tag := tag, op := p.2, chain := none, begun := true
               last := false, follow := slot.map fun i => ⟨p.2.followAt, image, ring, i, imageTag image⟩, waits := none
               next := 0, total := p.2.chunks, flight := [], spoiled := [], stopped := false, failed := none }] }
            v (match slot with
              | none => tagUp s3.c tag
              | some _ => tagUp (tagUp s3.c tag) (imageTag image)) ∧ u = settleHoist v (clusterOf s3.c.core)))) ∧
  (∀ (s : State) (k : Client) (ring : Option Word) (a : Word),
    (∀ e x, engRead s k false a.toNat 64 = .error (e, x) →
      followImage s k ring a = .error ⟨e, w64 x, if e = .eccUncorr then 0 else w64 (2 ^ 12 + 2 ^ 26)⟩) ∧
    (∀ s1 bs, engRead s k false a.toNat 64 = .ok (s1, bs) → bs.length = 64 →
      let word (i : Nat) : Nat := ofBytes ((bs.drop (8 * i)).take 8)
      let good : Prop := ring ≠ none ∧ bits (word 0) 0 4 ≤ 5 ∧ bits (word 0) 32 16 ≠ 0 ∧ bits (word 1) 0 32 % 2048 = 0 ∧
        bits (word 2) 0 32 % 2048 = 0 ∧ bits (word 0) 4 4 = 0 ∧ bits (word 0) 27 5 = 0 ∧ bits (word 0) 55 9 = 0 ∧
        bits (word 1) 32 32 = 0 ∧ bits (word 2) 32 32 = 0 ∧ bits (word 3) 32 32 = 0 ∧ bits (word 4) 15 49 = 0 ∧
        word 5 = 0 ∧ word 6 = 0 ∧ word 7 = 0
      (good → followImage s k ring a = .ok (s1, bs)) ∧ (¬ good → followImage s k ring a = .error ⟨.mxForm, a, 0⟩) ∧
      imageTag bs = if bit (word 0) 54 then none else some (BitVec.ofNat 6 (bits (word 0) 48 6)))) ∧
  (∀ (s : State) (h : HoistCmd) (f : Follow), h.follow = some f →
    let k := clientOf s h.uid
    let crew := s.crew? h.uid
    let by_ := (crew.map crewId).getD 0
    let word (i : Nat) : Nat := ofBytes ((f.img.drop (8 * i)).take 8)
    let prio := (crew.map (·.prio)).getD 0
    let posted (u : State) : State := ringFill u k f.ring f.slot (mxRecord (mxWord0 (word 0) f.tag prio)
      (relocate k.g (bits (word 1) 0 32)) (relocate k.g (bits (word 2) 0 32)) (bits (word 3) 0 32) by_)
    let alone := { h with follow := none }
    let given (e : Cause) : State :=
      completeTag (ringFill s k f.ring f.slot (mxRecord (7 + 2 ^ 24 * prio.toNat + 2 ^ 54) 0 0 0 by_)) h.uid f.tag (some e)
    let fails (e : Cause) : State :=
      let s1 := given e
      let s2 := { s1 with hoist := s1.hoist.filter (·.id != h.id) }
      settleExit (completeTag
        (crewFault s2 h.uid { cause := e, addr := 0, obj := f.addr, tag := h.tag }) h.uid h.tag (some e)) h.uid
    let row := bits (word 0) 16 7
    let scales := rowScales k.g row (bits (word 0) 23 1)
    let spoiled : Prop := ∃ th, th < 128 ∧ 128 * th + row ∈ k.g.bad
    (bit (word 0) 15 = false → finishHoist s h = finishHoist (posted s) alone) ∧
    (∀ l, bit (word 0) 15 = true → bits (word 0) 0 4 ≠ 2 → scales = some l →
      (¬ spoiled →
        let read := s.correct k.g (isRow row)
        finishHoist s h = finishHoist (posted { read with scales := read.scales ++ [⟨f.ring, h.uid, f.slot, l⟩] }) alone) ∧
      (spoiled → finishHoist s h = fails .eccUncorr)) ∧
    (bit (word 0) 15 = true → bits (word 0) 0 4 = 2 ∨ scales = none → finishHoist s h = fails .mxForm) ∧
    (∀ e a, failHoist s h e a false = failHoist (given e) alone e a false)) ∧
  (∀ (s s1 : State) (h : HoistCmd) (c : Word) (step : Nat) (bs : List Byte),
    let k := clientOf s h.uid
    let word (i : Nat) : Nat := ofBytes ((bs.drop (8 * i)).take 8)
    let fn := bits (word 0) 0 4
    let flags := bits (word 0) 8 8
    let o : HoistOp := ⟨fn, BitVec.ofNat 8 flags, w64 (word 1), w64 (word 2), w64 (word 3), w64 (word 4)⟩
    let bad : Prop := 4 < fn ∨ bits (word 0) 4 4 ≠ 0 ∨ bits (word 0) 16 47 ≠ 0 ∨ word 5 ≠ 0 ∨ word 6 ≠ 0 ∨ word 7 ≠ 0 ∨
      (fn ≤ 2 ∧ flags / 4 ≠ 0) ∨ (fn = 3 ∧ flags / 2 ≠ 0) ∨ (fn = 4 ∧ (5 < flags % 8 ∨ flags / 32 ≠ 0))
    let begins (u : State) (w : Option (Word × List Byte)) : State :=
      { u with hoist := u.hoist.map fun q => if q.id = h.id then
        { q with op := o, begun := true, last := bit (word 0) 63, follow := none, waits := w, next := 0, total := o.chunks } else q }
    (65536 ≤ step → beginStep s h c step = failHoist s h .illegal 0 false) ∧
    (∀ e a, step < 65536 → engRead s k false (c.toNat + 64 * step) 64 = .error (e, a) →
      beginStep s h c step = failHoist s h e (w64 a) false) ∧
    (step < 65536 → engRead s k false (c.toNat + 64 * step) 64 = .ok (s1, bs) → bs.length = 64 →
      (bad → beginStep s h c step = failHoist s1 h .illegal 0 false) ∧
      (∀ e, ¬ bad → opFault o = some e → beginStep s h c step = failHoist s1 h e.cause e.addr false) ∧
      (¬ bad → opFault o = none → o.followAt = 0 → beginStep s h c step = begins s1 none) ∧
      (¬ bad → opFault o = none → o.followAt ≠ 0 →
        let image := followImage s1 k ((s1.crew? h.uid).bind (·.ring)) o.followAt
        (∀ e, image = .error e → beginStep s h c step = failHoist s1 h e.cause e.addr false) ∧
        (∀ s2 l, image = .ok (s2, l) → beginStep s h c step = takeFollow (begins s2 (some (o.followAt, l))) h o.followAt l)))) ∧
  (∀ (s : State) (g : Gallery) (row : Nat),
    let hit (e : Nat × Nat) : Prop := e.1 / 128 < 128 ∧ e.1 % 128 = row
    let t := s.correct g (isRow row)
    (g = s.g → ∀ e, e ∈ t.g.soft ↔ e ∈ s.g.soft ∧ ¬ hit e) ∧
    (g = s.g → t.corrected[0] + t.g.soft.length = s.corrected[0] + s.g.soft.length) ∧
    t = { s.onGal g.gid (fun q => { q with soft := q.soft.filter fun e => !isRow row e.1 }) with corrected := t.corrected }) ∧
  (∀ (s : State) (k : Client) (ring : Word),
    ringSpoiled s k ring = true ↔ ∃ p : Place,
      translate s k.g.rcd.part (galAsn k.g) k.foreman false needRW ring.toNat = .ok p ∧ poisoned s false p.pa 32 = true) ∧
  (∀ (s : State) (h : HoistCmd) (a : Word) (image : List Byte) (crew : Crew), s.crew? h.uid = some crew →
    let k := clientOf s h.uid
    let free (ring : Word) : Prop := ringRoom s k ring = true ∧ ∀ j, imageTag image = some j → tagCount crew j.toNat < 255
    let spoiled (ring : Word) : Prop := ringSpoiled s k ring = true
    (crew.ring = none → takeFollow s h a image = failHoist s h .mxForm a false) ∧
    (∀ ring, crew.ring = some ring → spoiled ring → takeFollow s h a image = failHoist s h .eccUncorr ring false) ∧
    (∀ ring, crew.ring = some ring → ¬ spoiled ring → ¬ free ring → takeFollow s h a image = s) ∧
    (∀ ring s1 slot, crew.ring = some ring → ¬ spoiled ring → free ring → ringReserve s k ring = (s1, slot) →
      let s2 := match slot with
        | none => s1
        | some _ => s1.onCrew h.uid fun c => tagUp c (imageTag image)
      takeFollow s h a image = { s2 with hoist := s2.hoist.map fun q => if q.id = h.id then { q with
        waits := none
        follow := match slot with
          | none => q.follow
          | some i => some ⟨a, image, ring, i, imageTag image⟩ } else q })) ∧
  (∀ (s : State) (h : HoistCmd) (cluster : Nat), s.hoist = [h] → clusterOf h.core = cluster → h.stopped = false →
    frozen s h.uid = false →
    (∀ c step, h.waits = none → h.chain = some (c, step) → h.begun = false →
      settleHoist s cluster = grantHoist (beginStep s h c step) cluster) ∧
    (∀ a image, h.waits = some (a, image) → settleHoist s cluster = grantHoist (takeFollow s h a image) cluster)) ∧
  (∀ (o : HoistOp), o.fn ≤ 4 →
    let far (v : Bool) (a : Word) : Bool := decide ((if v then 2 ^ 32 else 2 ^ 57) ≤ a.toNat)
    let info (k : Nat) : Word := w64 (2 ^ 12 + 2 ^ 24 * k + 2 ^ 26)
    let indexed := o.fn == 1 || o.fn == 2
    let follow := if o.fn = 0 ∨ o.fn = 4 then o.op3 else 0
    opFault o = (([(far o.vd o.op0, (⟨.xlate, o.op0, info (if o.vd then 3 else 1)⟩ : OpFault)),
      (o.fn == 4 && o.op0.toNat % 2048 != 0, ⟨.align, o.op0, info 3⟩),
      (o.fn != 3 && far o.vs o.op1, ⟨.xlate, o.op1, info (if o.vs then 3 else 0)⟩),
      (indexed && decide (12 < bits o.op2.toNat 32 4), ⟨.align, 0, w64 (bits o.op2.toNat 32 4)⟩),
      (indexed && far false o.op3, ⟨.xlate, o.op3, info 0⟩), (indexed && o.op3.toNat % 4 != 0, ⟨.align, o.op3, info 0⟩),
      (follow != 0 && far false follow, ⟨.xlate, follow, info 0⟩),
      (follow != 0 && follow.toNat % 64 != 0, ⟨.align, follow, info 0⟩),
      (o.fn == 4 && bits o.flags.toNat 0 3 == 1 && (bits o.op2.toNat 32 16 % 16 != 0 || bit o.flags.toNat 3),
        ⟨.mxForm, 0, 0⟩)].find? (·.1)).map (·.2))) ∧
  (∀ (s : State) (t g : BitVec 6) (n : BitVec 1),
    let tag : Option (BitVec 6) := if n = 1 then none else some t
    let s1 := atHome s
    let c := getS s.c g
    let mine (h : HoistCmd) : Bool := h.uid == s.c.uid && (tag == none || h.tag == tag)
    (Ready (.hchain t g n) s → c.toNat < 2 ^ 57 → c.toNat % 64 = 0 → s.c.redq = [] →
      (s.hoist.filter fun h => h.core == s.c.core).length < 32 → (∀ k, tag = some k → tagCount s.c k.toNat < 255) →
      Completes (.hchain t g n) s fun u => ∃ v h,
        CrewEffect { s1 with ids := s1.ids + 1, hoist := s1.hoist ++ [h] } v (tagUp s1.c tag) ∧
        h.id = s1.ids ∧ h.uid = s1.c.uid ∧ h.core = s1.c.core ∧ h.tag = tag ∧ h.chain = some (c, 0) ∧ h.begun = false ∧
        h.flight = [] ∧ h.stopped = false ∧ u = settleHoist v (clusterOf s1.c.core)) ∧
    (Ready (.hstop t n) s →
      let stop := { s with hoist := s.hoist.map fun h => if mine h then { h with stopped := true } else h }
      ((∀ h ∈ s.hoist, mine h = true → h.flight = []) → Completes (.hstop t n) s fun u => CrewEffect stop u s.c) ∧
      ((∃ h ∈ s.hoist, mine h = true ∧ h.flight ≠ []) → Completes (.hstop t n) s fun u => Waits stop u)) ∧
    (Ready (.hresume t n) s → Completes (.hresume t n) s fun u => ∃ v,
      CrewEffect { s with hoist := s.hoist.map fun h => if mine h then { h with stopped := false } else h } v s.c ∧
      u = settleHoist v (clusterOf s.c.core)) ∧
    (Ready (.hprog t g) s → Completes (.hprog t g) s fun u =>
      let three (a b c : Word) : Crew := setS (setS (setS s.c g a) (BitVec.ofNat 6 (g.toNat + 1)) b) (BitVec.ofNat 6 (g.toNat + 2)) c
      CrewEffect s u (match s.hoist.find? fun h => h.uid == s.c.uid && h.tag == some t with
        | none => three 0 0 0
        | some h => three (w64 (2 ^ 32 * ((h.chain.map (·.2)).getD 0) + h.next)) (w64 h.total)
            (if h.stopped then 2 else 1)))) ∧
  (∀ (s : State) (core : Nat),
    let ready (c : Nat) (h : HoistCmd) : Prop := h.core = c ∧ h.begun = true ∧ h.waits = none ∧ h.stopped = false ∧
      h.next < h.total ∧ frozen s h.uid = false
    let oldest (c : Nat) (h : HoistCmd) : Prop := ∃ old more, s.hoist = old ++ h :: more ∧ ready c h ∧
      ∀ q ∈ old, ¬ ready c q
    let mates := (List.range 4).map fun i => core / 4 * 4 + i
    (∀ h, oldest core h → grantFrom s core = some h) ∧
    ((∀ q ∈ s.hoist, ¬ ready core q) → ∀ h c, c ∈ mates → oldest c h →
      (∀ b ∈ mates, b < c → ∀ q ∈ s.hoist, ¬ ready b q) → grantFrom s core = some h) ∧
    ((∀ c ∈ core :: mates, ∀ q ∈ s.hoist, ¬ ready c q) → grantFrom s core = none) ∧
    (∀ h, grantFrom s core = some h → (total s.hoist fun q => (q.flight.filter (·.2 == core)).length) < 4 →
      grantOne s core = { s with hoist := s.hoist.map fun q =>
        if q.id = h.id then { q with next := q.next + 1, flight := q.flight ++ [(q.next, core)] } else q })) ∧
  (∀ (s : State) (h : HoistCmd) (core pick i : Nat),
    ((s.hoist.flatMap fun h => (h.flight.filter (·.2 == core)).map fun f => (h, f))[pick]?) = some (h, (i, core)) →
    let h1 := { h with flight := h.flight.filter (· != (i, core)) }
    let s1 := { s with hoist := s.hoist.map fun q => if q.id = h.id then h1 else q }
    (∀ u, i ∉ h.spoiled → runChunk s1 (clientOf s h.uid) h.op i = .ok u →
      Completes (.hoistChunkDone core pick) s fun t => t = settleHoist u (clusterOf core)) ∧
    (∀ e a, i ∉ h.spoiled → runChunk s1 (clientOf s h.uid) h.op i = .error (e, a) →
      Completes (.hoistChunkDone core pick) s fun t => t = settleHoist (failHoist s1 h1 e (w64 a) false) (clusterOf core)) ∧
    (i ∈ h.spoiled → Completes (.hoistChunkDone core pick) s fun t => ∃ a,
      t = settleHoist (failHoist s1 h1 .eccUncorr a false) (clusterOf core))) ∧
  (∀ (s : State) (h : HoistCmd) (e : Cause) (a : Word), h.follow = none →
    let s1 := { s with hoist := s.hoist.filter (·.id != h.id) }
    let obj : Word := match h.chain with
      | none => 0
      | some (c, step) => c + w64 (64 * step)
    failHoist s h e a false = settleExit (completeTag
      (crewFault s1 h.uid { cause := e, addr := a, obj := obj, tag := h.tag }) h.uid h.tag (some e)) h.uid) ∧
  (∀ (s : State) (h : HoistCmd), h.follow = none →
    (h.chain = none ∨ h.last = true → finishHoist s h =
      settleExit (completeTag { s with hoist := s.hoist.filter (·.id != h.id) } h.uid h.tag none) h.uid) ∧
    (∀ c step, h.chain = some (c, step) → h.last = false → finishHoist s h =
      { s with hoist := s.hoist.map fun q => if q.id = h.id then
        { q with chain := some (c, step + 1), begun := false, follow := none, next := 0, total := 0 } else q })) ∧
  (∀ (s : State) (k : Client) (o : HoistOp) (i : Nat) (bs : List Byte),
    (o.fn = 0 → engRead s k o.vs (o.op1.toNat + (o.span i).1) (o.span i).2 = .ok (s, bs) →
      runChunk s k o i = engWrite s k o.vd [(o.op0.toNat + (o.span i).1, bs)]) ∧
    (o.fn = 3 → runChunk s k o i = engWrite s k o.vd [(o.op0.toNat + (o.span i).1, (List.range (o.span i).2).map fun j =>
      BitVec.ofNat 8 (bits o.op1.toNat (8 * (((o.span i).1 + j) % 8)) 8))])) ∧
  (∀ (o : HoistOp) (i : Nat), o.fn ≤ 3 →
    let size := if o.fn = 1 ∨ o.fn = 2 then bits o.op2.toNat 0 32 * 2 ^ bits o.op2.toNat 32 4 else bits o.op2.toNat 0 41
    let from_ := (if o.fn = 2 then o.op1 else o.op0).toNat
    ((∀ x, (o.span i).1 ≤ x ∧ x < (o.span i).1 + (o.span i).2 ↔ x < size ∧ (from_ + x) / 4096 = from_ / 4096 + i)) ∧
    (∀ x, x < size → (from_ + x) / 4096 - from_ / 4096 < o.chunks) ∧ (size = 0 → o.chunks = 0)) ∧
  (∀ (s : State) (k : Client) (o : HoistOp) (i : Nat) (idx : Nat → Nat) (r : Nat → Byte) (lo hi : Nat),
    let e := 2 ^ bits o.op2.toNat 32 4
    let off := (o.span i).1
    let n := (o.span i).2
    o.fn = 1 ∨ o.fn = 2 → Sees s k o.vs lo hi r →
    (∀ x, x < n → idx ((off + x) / e) < 2 ^ 32 ∧
      engRead s k false (o.op3.toNat + 4 * ((off + x) / e)) 4 = .ok (s, toBytes 4 (idx ((off + x) / e)))) →
    (o.fn = 1 → (∀ x, x < n → lo ≤ o.op1.toNat + e * idx ((off + x) / e) ∧
        o.op1.toNat + e * idx ((off + x) / e) + e ≤ hi) →
      ∃ ws, runChunk s k o i = engWrite s k o.vd ws ∧ eachByte ws = (List.range n).map fun x =>
        (o.op0.toNat + off + x, r (o.op1.toNat + e * idx ((off + x) / e) + (off + x) % e))) ∧
    (o.fn = 2 → lo ≤ o.op1.toNat + off → o.op1.toNat + off + n ≤ hi →
      ∃ ws, runChunk s k o i = engWrite { s with fresh := s.fresh + 1 } k o.vd ws ∧
        (eachByte ws).Perm ((List.range n).map fun x =>
          (o.op0.toNat + e * idx ((off + x) / e) + (off + x) % e, r (o.op1.toNat + off + x))))) ∧
  (∀ (s : State) (k : Client) (o : HoistOp) (i : Nat) (r : Nat → Byte) (lo hi : Nat),
    let fmt := bits o.flags.toNat 0 3
    let planes := [8, 13, 8, 16, 16, 32].getD fmt 0
    let set := i / ((planes + 1) / 2)
    let first := 2 * (i % ((planes + 1) / 2))
    let width := bits o.op2.toNat 32 16
    let rows := bits o.op2.toNat 48 7 + 1
    let stride := bits o.op2.toNat 0 32
    let size := [1, 10, 1, 2, 2, 4].getD fmt 0
    let turned := bit o.flags.toNat 3
    let little (a n : Nat) : Nat := ofBytes ((List.range n).map fun x => r (a + x))
    let place (x y : Nat) : Nat :=
      if fmt = 1 then o.op1.toNat + x * stride + y / 16 * 10
      else if turned then o.op1.toNat + y * stride + x * size else o.op1.toNat + x * stride + y * size
    let code (x y : Nat) : Nat :=
      if fmt = 1 then
        let nibble := bits (little (place x y + 2 + y % 16 / 2) 1) (4 * (y % 2)) 4
        bits nibble 0 3 + 2 ^ 3 * bits (little (place x y + 1) 1) (y % 16 / 2) 1 + 2 ^ 4 * little (place x y) 1 +
          2 ^ 12 * bits nibble 3 1
      else little (place x y) size
    o.fn = 4 → fmt ≤ 5 → (fmt = 1 → width % 16 = 0 ∧ turned = false) → i < o.chunks → Sees s k o.vs lo hi r →
    (∀ x y, x < rows → y < width → lo ≤ place x y ∧ place x y + size ≤ hi) →
    o.chunks = (width + 127) / 128 * ((planes + 1) / 2) ∧
    ∃ ws, runChunk s k o i = engWrite s k true ws ∧ ws.length = min 2 (planes - first) ∧
      ∀ j, j < ws.length →
        (ws.getD j (0, [])).1 = o.op0.toNat + 2048 * (set * planes + first + j) ∧ (ws.getD j (0, [])).2.length = 2048 ∧
        ∀ x y, x < 128 → y < 128 → ((ws.getD j (0, [])).2.getD (16 * x + y / 8) 0).getLsbD (y % 8) =
          (decide (x < rows ∧ 128 * set + y < width) && bit (code x (128 * set + y)) (planes - 1 - (first + j)))) ∧
  (∀ (s : State) (k : Client) (lo hi base : Nat),
    (∀ a n, 0 < n → n ≤ 8 → lo ≤ a → a + n ≤ hi → checkVault s k.g.rcd.part 4 (if k.foreman then 2 else 0) (galAsn k.g)
      (relocate k.g a) 1 = .ok () ∧ relocate k.g a = base + (a - lo) ∧ base + (hi - lo) ≤ 2 ^ 32 ∧
      poisoned s true (relocate k.g a) n = false) →
    Sees s k true lo hi fun a => readVault s (base + (a - lo))) ∧
  (∀ (s : State) (k : Client) (lo hi base : Nat),
    (∀ a, lo ≤ a → a < hi → ∃ home, translate s k.g.rcd.part (galAsn k.g) k.foreman false needR a =
      .ok ⟨base + (a - lo), home⟩) →
    (∀ x n, 0 < n → base ≤ x → x + n ≤ base + (hi - lo) → poisoned s false x n = false ∧
      inPools s k.g.rcd.part x n = false ∧ inSpill s k.g.rcd.part x n = false ∧ inRelayStore s x n = false) →
    Sees s k false lo hi fun a => readByte s (base + (a - lo))) ∧
  (∀ (s : State) (k : Client) (a base : Nat) (bs : List Byte), s.lamps = [] → s.redq = [] → NoneAwaits s base bs.length →
    (∀ t : State, t = { s with mem := t.mem, poison := t.poison } →
      (∀ y, y < base ∨ base + bs.length ≤ y → readByte t y = readByte s y) →
      (∀ x, x < bs.length → ∃ home,
        translate t k.g.rcd.part (galAsn k.g) k.foreman true needW (a + x) = .ok ⟨base + x, home⟩) ∧
      ∀ x n, 0 < n → base ≤ x → x + n ≤ base + bs.length → inPools t k.g.rcd.part x n = false ∧
        inSpill t k.g.rcd.part x n = false ∧ inRelayStore t x n = false ∧ inPaceLine t x n = false) →
    ∃ t, engWrite s k false [(a, bs)] = .ok t ∧ t = { s with mem := t.mem, poison := t.poison } ∧
      ∀ x, readByte t x = if base ≤ x ∧ x < base + bs.length ∧ inRom s x = false then bs.getD (x - base) 0
        else readByte s x)

/-- The MX words: a command that passes its checks takes the next slot of the crew's ring, its record stands there with the
crew's TAG and PRIO, and its tag is raised; `MRING` attaches a ring, `MDETACH` gives it up once nothing of it is under
way (R273 to R277). The engine admits the head of a ring once the passes of the ring's earlier commands are granted and
at most one of them is left, and the tile's token is with it; an MFENCE counts among nobody's two (R276; log 81). It
skips a slot that is none of a matrix command, or whose header has a reserved bit set, which fails the tag named there,
and one whose bytes are uncorrectable, which fails the tag that its bytes name (R188, R255, R277; the last is the
model's choice, log 40). A control block that is broken, or holds an uncorrectable word, ends the consumption with a
record (R188; the cause of the second, and the trap that it gives a word that would post, are the model's choice, log
40). A command with scales carries the row scales that it read when it was posted; those of a slot that no word posted
are free (R88, log 4). MX_FORM is raised at issue as R88, R275 and R276 give it, with nothing posted. A free slice takes
the next pass of the eligible command first in priority, then in admission, then in entry (R256). A pass of `MZERO`
clears its strip and nothing else; a pass of `MMA` adds to each element of its strip the sum of the products of its row
and column in the K-block, scaled, each window and rounding as R89 to R91 give them and special values as R92 does (R254
to R257). -/
def Obligations.MatrixWords : Prop :=
  (∀ (s s2 : State) (t g : BitVec 6) (f : BitVec 4) (n : BitVec 1) (ring : Word) (slot : Nat),
    let tag : Option (BitVec 6) := if n = 1 then none else some t
    let k : Client := ⟨s.g, s.c.uid, s.c.privl == 2⟩
    let x (i : Nat) : Nat := (getG s.c g i).toNat
    s.c.ring = some ring → ringSpoiled s k ring = false → s.c.redq = [] → ringRoom s k ring = true → (∀ j, tag = some j → tagCount s.c j.toNat < 255) →
    ringReserve (atHome s) k ring = (s2, some slot) →
    ∀ p ∈ [
      (Instr.mma t g f n, f.toNat + 2 ^ 8 * bits (x 2) 0 6 + 2 ^ 14 * bits (x 2) 6 1 + 2 ^ 16 * bits (x 3) 32 7 +
          2 ^ 23 * bits (x 3) 39 1 + 2 ^ 32 * bits (x 1) 32 16, bits (x 0) 0 32, bits (x 1) 0 32, bits (x 3) 0 32,
        bits (x 1) 32 16 ≠ 0 ∧ bits (x 0) 0 32 % 2048 = 0 ∧ bits (x 1) 0 32 % 2048 = 0 ∧ bits (x 0) 32 32 = 0 ∧
          bits (x 1) 48 16 = 0 ∧ bits (x 2) 7 57 = 0 ∧ bits (x 3) 41 23 = 0 ∧ bits (x 3) 40 1 = 0),
      (.mzero t g n, 6 + 2 ^ 8 * bits (x 2) 0 6, 0, 0, 0, bits (x 2) 6 58 = 0), (.mfence t n, 7, 0, 0, 0, True)],
      Ready p.1 s → p.2.2.2.2.2 → Completes p.1 s fun u =>
        let v := ringFill s2 k ring slot (mxRecord (mxWord0 p.2.1 tag s.c.prio) (relocate s.g p.2.2.1)
          (relocate s.g p.2.2.2.1) p.2.2.2.2.1 (crewId s.c))
        CrewEffect v u (tagUp v.c tag)) ∧
  (∀ (s s2 : State) (t g : BitVec 6) (f : BitVec 4) (n : BitVec 1),
    let tag : Option (BitVec 6) := if n = 1 then none else some t
    let k : Client := ⟨s.g, s.c.uid, s.c.privl == 2⟩
    let x (i : Nat) : Nat := (getG s.c g i).toNat
    let reg : BitVec 7 := BitVec.ofNat 7 (bits (x 3) 32 7)
    let scales := rowScales s.g (bits (x 3) 32 7) (bits (x 3) 39 1)
    let formed : Prop := bits (x 1) 32 16 ≠ 0 ∧ bits (x 0) 0 32 % 2048 = 0 ∧ bits (x 1) 0 32 % 2048 = 0 ∧
      bits (x 0) 32 32 = 0 ∧ bits (x 1) 48 16 = 0 ∧ bits (x 2) 7 57 = 0 ∧ bits (x 3) 41 23 = 0
    let scaled : Prop := bits (x 3) 40 1 = 1
    let form : Out := .next (takeTrap s ⟨.mxForm, s.c.pc, 0, 0, false, 0⟩)
    let free (ring : Word) : Prop := s.c.redq = [] ∧ ringRoom s k ring = true ∧ ∀ j, tag = some j → tagCount s.c j.toNat < 255
    let sound (ring : Word) : Prop := ringSpoiled s k ring = false
    (Ready (.mma t g f n) s → (scaled → ∀ o ∈ s.c.outm, o.reg ≠ .v reg) →
      s.c.ring = none ∨ ¬ formed ∨ (scaled ∧ (f = 2 ∨ scales = none)) → exec (.mma t g f n) s = form) ∧
    (Ready (.mma t g f n) s → scaled → (∃ o ∈ s.c.outm, o.reg = .v reg) →
      exec (.mma t g f n) s = .next (takeTrap s ⟨.hazard, s.c.pc, 0, w64 (reg.toNat + 2 ^ 8), false, 0⟩)) ∧
    (∀ ring l th, Ready (.mma t g f n) s → (∀ o ∈ s.c.outm, o.reg ≠ .v reg) → s.c.ring = some ring → formed → scaled → f ≠ 2 →
      scales = some l → th < 128 → 128 * th + reg.toNat ∈ s.g.bad → (∀ u, u < th → 128 * u + reg.toNat ∉ s.g.bad) →
      exec (.mma t g f n) s = .next (takeTrap s ⟨.eccUncorr, s.c.pc, 0, w64 (th + 2 ^ 16 * reg.toNat), false, 0⟩)) ∧
    (∀ ring l slot, Ready (.mma t g f n) s → (∀ o ∈ s.c.outm, o.reg ≠ .v reg) → s.c.ring = some ring → formed → scaled → f ≠ 2 →
      scales = some l → (∀ th, th < 128 → 128 * th + reg.toNat ∉ s.g.bad) → sound ring → free ring →
      ringReserve (atHome s) k ring = (s2, some slot) → Completes (.mma t g f n) s fun u =>
        let w := f.toNat + 2 ^ 8 * bits (x 2) 0 6 + 2 ^ 14 * bits (x 2) 6 1 + 2 ^ 15 + 2 ^ 16 * bits (x 3) 32 7 +
          2 ^ 23 * bits (x 3) 39 1 + 2 ^ 32 * bits (x 1) 32 16
        let v := ringFill { s2 with scales := s2.scales ++ [⟨ring, s.c.uid, slot, l⟩] } k ring slot
          (mxRecord (mxWord0 w tag s.c.prio) (relocate s.g (bits (x 0) 0 32)) (relocate s.g (bits (x 1) 0 32))
            (bits (x 3) 0 32) (crewId s.c))
        CrewEffect v u (tagUp v.c tag)) ∧
    (Ready (.mzero t g n) s → s.c.ring = none ∨ bits (x 2) 6 58 ≠ 0 → exec (.mzero t g n) s = form) ∧
    (Ready (.mfence t n) s → s.c.ring = none → exec (.mfence t n) s = form) ∧
    (∀ ring, s.c.ring = some ring → ¬ sound ring →
      let spoiled : Out := .next (takeTrap s ⟨.eccUncorr, s.c.pc, ring, 0, false, 0⟩)
      (Ready (.mma t g f n) s → formed → ¬ scaled → exec (.mma t g f n) s = spoiled) ∧
      (Ready (.mzero t g n) s → bits (x 2) 6 58 = 0 → exec (.mzero t g n) s = spoiled) ∧
      (Ready (.mfence t n) s → exec (.mfence t n) s = spoiled)) ∧
    (∀ ring, s.c.ring = some ring → sound ring → ¬ free ring →
      (Ready (.mma t g f n) s → formed → ¬ scaled → Completes (.mma t g f n) s fun u => Waits s u) ∧
      (Ready (.mzero t g n) s → bits (x 2) 6 58 = 0 → Completes (.mzero t g n) s fun u => Waits s u) ∧
      (Ready (.mfence t n) s → Completes (.mfence t n) s fun u => Waits s u))) ∧
  (∀ (g : Gallery) (r half : Nat),
    (g.nthr < 128 ∨ g.nblk ≤ r / 8 → rowScales g r half = none) ∧
    (128 ≤ g.nthr → r / 8 < g.nblk → ∃ l, rowScales g r half = some l ∧ l.length = 128 ∧
      ∀ i, i < 128 → (l.getD i 0).toNat = (getV g i r).toNat / 2 ^ (32 * half) % 2 ^ 32)) ∧
  (∀ (s : State) (g : BitVec 6) (p : Place),
    let ring := getS s.c g
    let out : BitVec 6 := BitVec.ofNat 6 (g.toNat + 1)
    (Ready (.mring g) s → checkGlobal s needRW ring.toNat 32 32 = .ok p → poisoned s false p.pa 32 = false →
      Unhindered s false p.pa 32 → s.c.ring = none → bits (ownNat s false (p.pa + 8) 8) 8 5 = 7 → 1 ≤ bits (ownNat s false (p.pa + 8) 8) 0 5 →
      bits (ownNat s false (p.pa + 8) 8) 0 5 ≤ 16 →
      (∀ i, freeEntry s (clusterOf s.c.core) = some i → Completes (.mring g) s fun t =>
        ScalarEffect { s with
          c := { s.c with ring := some ring }
          rings := s.rings ++ [⟨clusterOf s.c.core, i, ring, s.c.uid, false⟩] } t out 0) ∧
      (freeEntry s (clusterOf s.c.core) = none → Completes (.mring g) s fun t => ScalarEffect s t out 1)) ∧
    (Ready .mdetach s → s.c.ring = none → Completes .mdetach s fun t => CrewEffect s t s.c) ∧
    (Ready .mdetach s → s.c.ring ≠ none → ringBusy s = true → Completes .mdetach s fun t => Waits s t) ∧
    (Ready .mdetach s → s.c.ring ≠ none → ringBusy s = false → Completes .mdetach s fun t =>
      CrewEffect { s with rings := s.rings.filter (·.uid != s.c.uid), scales := s.scales.filter (·.uid != s.c.uid) } t
        { s.c with ring := none })) ∧
  (∀ (s : State) (e : RingEntry), s.rings.find? (fun x => x.cluster == e.cluster && x.entry == e.entry) = some e →
    Completes (.ringSlotAdmit e.cluster e.entry) s fun t => t = settleMx (lookAtRing s e)) ∧
  (∀ (s : State) (e : RingEntry) (pa : Nat), e.broken = false → frozen s e.uid = false →
    ringOf s (clientOf s e.uid) e.ring = some (pa, none) →
    lookAtRing s e = crewFault { s with rings := s.rings.map fun x => if x = e then { e with broken := true } else x } e.uid
      { cause := if poisoned s false pa 32 then .eccUncorr else .mxForm, obj := e.ring }) ∧
  (∀ (s : State) (e : RingEntry) (pa : Nat) (r : Ring) (q : Place),
    let k := clientOf s e.uid
    let va := r.base + (r.cons % 2 ^ r.n) * 2 ^ r.k
    let head := readNat s q.pa 1
    let word (off : Nat) : Nat := readNat s (q.pa + 8 + off) 8
    let kind := bits (word 0) 0 4
    let tag : Option (BitVec 6) := if bit (word 0) 54 then none else some (BitVec.ofNat 6 (bits (word 0) 48 6))
    let reserved : Bool := bits (word 0) 4 4 == 0 && bits (word 0) 27 5 == 0 && bits (word 0) 55 9 == 0 &&
      bits (word 8) 32 32 == 0 && bits (word 0x10) 32 32 == 0 && bits (word 0x18) 32 32 == 0 && bits (word 0x20) 15 49 == 0 &&
      word 0x28 == 0 && word 0x30 == 0 && word 0x38 == 0
    let skipped (why : Cause) (tag : Option (BitVec 6)) : State :=
      let u := performNat s (pa + 24) 4 (r.cons + 1)
      completeTag (crewFault { u with scales := u.scales.filter fun x => !(x.ring == e.ring && x.uid == e.uid && x.slot == r.cons) }
        e.uid { cause := why, addr := w64 va, obj := e.ring, tag := tag }) e.uid tag (some why)
    let mine := s.mx.filter fun m => m.uid == e.uid
    e.broken = false → frozen s e.uid = false → ringOf s k e.ring = some (pa, some r) → va < 2 ^ 64 →
    translate s k.g.rcd.part (galAsn k.g) k.foreman false needR va = .ok q →
    (bit head 7 ≠ r.phase r.cons → lookAtRing s e = s) ∧
    (bit head 7 = r.phase r.cons →
      (bits head 0 7 ≠ 0 → lookAtRing s e = skipped .illegal tag) ∧
      (bits head 0 7 = 0 → poisoned s false q.pa 72 = true → lookAtRing s e = skipped .eccUncorr tag) ∧
      (bits head 0 7 = 0 → poisoned s false q.pa 72 = false → 8 ≤ kind ∨ reserved = false →
        lookAtRing s e = skipped .mxForm tag) ∧
      (bits head 0 7 = 0 → poisoned s false q.pa 72 = false → kind < 8 → reserved = true →
        ((∃ m ∈ mine, m.next < m.total) ∨ 2 ≤ (mine.filter fun m => m.kind != 7).length ∨
          (kind ≠ 7 ∧ ∃ x ∈ s.tokens, x.cluster = e.cluster ∧ x.tile = bits (word 0) 8 6) → lookAtRing s e = s) ∧
        ((∀ m ∈ mine, m.total ≤ m.next) → (mine.filter fun m => m.kind != 7).length ≤ 1 →
          (kind ≠ 7 → ∀ x ∈ s.tokens, x.cluster ≠ e.cluster ∨ x.tile ≠ bits (word 0) 8 6) →
          lookAtRing s e =
            let w := performNat s (pa + 24) 4 (r.cons + 1)
            let mineAt (x : Scales) : Bool := x.ring == e.ring && x.uid == e.uid && x.slot == r.cons
            let (vals, u) : List (BitVec 32) × State :=
              if bit (word 0) 15 = false then ([], w) else match w.scales.find? mineAt with
                | some x => (x.vals, { w with scales := w.scales.filter fun x => !mineAt x })
                | none => ((List.range 128).map (Config.freeTile w.fresh), { w with fresh := w.fresh + 1 })
            { u with
              ids := u.ids + 1
              mx := u.mx ++ [{ id := u.ids, cluster := e.cluster, entry := e.entry, ring := e.ring, slotVa := w64 va, uid := e.uid
                               kind := kind, tag := tag, prio := BitVec.ofNat 3 (bits (word 0) 24 3), kb := bits (word 0) 32 16
                               acc := bit (word 0) 14, tile := bits (word 0) 8 6, scl := bit (word 0) 15
                               aaddr := BitVec.ofNat 32 (word 8), baddr := BitVec.ofNat 32 (word 0x10)
                               wscale := BitVec.ofNat 32 (word 0x18), scales := vals, order := u.ids, next := 0, running := []
                               done := [], failed := none }] })))) ∧
  (∀ (s : State) (cluster : Nat) (m : MxCmd), nextPass s cluster = some m →
    Completes (.stripPassGrant cluster) s fun t => (∀ q, q ∈ s.mx → q.id ≠ m.id → q ∈ t.mx) ∧
      (m ∈ s.mx → { m with next := m.next + 1, running := m.running ++ [m.next] } ∈ t.mx) ∧
      t = { s with mx := t.mx, current := t.current }) ∧
  (∀ (s : State) (cluster : Nat),
    let here := s.mx.filter fun m => m.cluster == cluster
    let ok (m : MxCmd) : Prop := m ∈ here ∧ poolAllows s m = true ∧ frozen s m.uid = false ∧
      m.next < (if m.kind = 6 then 16 else if m.kind = 7 then 0 else 16 * m.kb) ∧ (m.next < 16 ∨ m.next - 16 ∈ m.done) ∧
      ∀ q ∈ here, q.tile = m.tile → q.kind ≠ 7 → q.order < m.order → q.stripOver (m.next % 16) = true
    let before (m q : MxCmd) : Prop := q.prio.toNat < m.prio.toNat ∨
      (m.prio = q.prio ∧ (m.order < q.order ∨ (m.order = q.order ∧ m.entry ≤ q.entry)))
    (∀ m, nextPass s cluster = some m → total here (·.running.length) < 8 ∧ ok m ∧ ∀ q, ok q → before m q) ∧
    (nextPass s cluster = none → 8 ≤ total here (·.running.length) ∨ ∀ q, ¬ ok q)) ∧
  (∀ (s u : State) (m : MxCmd) (pass : Nat), s.mx = [m] → m.running = [pass] → m.failed = none →
    runPass s m pass = .ok u → u.mx = [m] → Completes (.promotionEnd m.cluster 0) s fun t =>
      t = settleMx { u with mx := [{ m with running := [], done := m.done.filter (fun y => y % 16 != pass % 16) ++ [pass] }] }) ∧
  (∀ (s : State) (m : MxCmd) (pass : Nat), m.kind = 6 → ∃ u, runPass s m pass = .ok u ∧
    (∀ i j, i < 8 → j < 128 → getTile u (tileKey m.cluster m.tile (8 * (pass % 16) + i) j) = 0) ∧
    (∀ key, (∀ i j, i < 8 → j < 128 → key ≠ tileKey m.cluster m.tile (8 * (pass % 16) + i) j) → getTile u key = getTile s key) ∧
    u = { s with tiles := u.tiles, badTiles := u.badTiles }) ∧
  (∀ (s : State) (m : MxCmd) (pass : Nat) (ra rb : Nat → Byte),
    let planes := [8, 13, 8, 16, 16, 32].getD m.kind 0
    let k := clientOf s m.uid
    let atA := m.aaddr.toNat + 2048 * planes * (pass / 16)
    let atB := m.baddr.toNat + 2048 * planes * (pass / 16)
    let row (i : Nat) : List Nat := (List.range 128).map fun x => planeCode planes atA ra (8 * (pass % 16) + i) x
    let col (j : Nat) : List Nat := (List.range 128).map fun x => planeCode planes atB rb j x
    let key (i j : Nat) : Nat := tileKey m.cluster m.tile (8 * (pass % 16) + i) j
    let first : Prop := pass / 16 = 0 ∧ m.acc = false
    let sa (i : Nat) : Nat := if m.scl then (m.scales.getD (8 * (pass % 16) + i) 0).toNat else 0x3F800000
    let sb : Nat := if m.scl then m.wscale.toNat else 0x3F800000
    m.kind ≤ 5 → Sees s k true atA (atA + 2048 * planes) ra → Sees s k true atB (atB + 2048 * planes) rb →
    (¬ first → ∀ i j, i < 8 → j < 128 → key i j ∉ s.badTiles) →
    ∃ u, runPass s m pass = .ok u ∧ u = { s with tiles := u.tiles, badTiles := u.badTiles } ∧
      (∀ x, (∀ i j, i < 8 → j < 128 → x ≠ key i j) → getTile u x = getTile s x) ∧
      ∀ i j old, i < 8 → j < 128 → (first → old = 0) → (¬ first → old = (getTile s (key i j)).toNat) →
        (getTile u (key i j)).toNat = if m.kind = 2 then promoteInt (row i) (col j) old
          else promote (blockSum ((row i).map (mxValue m.kind)) ((col j).map (mxValue m.kind))) (fp32.value (sa i))
            (fp32.value sb) old) ∧
  (∀ (a b : List Nat) (c : Nat), promoteInt a b c =
    ((signed 32 c + ((a.zip b).map fun (x : Nat × Nat) => signed 8 x.1 * signed 8 x.2).sum) % 2 ^ 32).toNat) ∧
  (∀ x : Nat, mxValue 0 x = e4m3Value x ∧ mxValue 3 x = bf16.value x ∧ mxValue 4 x = fp16.value x ∧
    mxValue 5 x = fp32.value x ∧
    mxValue 1 x = nb4Value (8 * bits x 12 1 + bits x 0 3) (bits x 4 8) (bits x 3 1)) ∧
  (∀ (a b : List FVal) (sa sb : FVal) (old : Nat),
    let c := fp32.value old
    let r := promote (blockSum a b) sa sb old
    let fin (v : FVal) : Prop := v.isNan = false ∧ v.isInf = false
    let wrong (p : FVal × FVal) : Prop := p.1.isNan = true ∨ p.2.isNan = true ∨ (p.1.isInf = true ∧ p.2.rat = 0 ∧ fin p.2) ∨
      (p.2.isInf = true ∧ p.1.rat = 0 ∧ fin p.1)
    let endless (p : FVal × FVal) (neg : Bool) : Prop := (p.1.isInf = true ∨ p.2.isInf = true) ∧ (p.1.isNeg != p.2.isNeg) = neg
    let sign (neg : Bool) : Bool := xor neg (xor sa.isNeg sb.isNeg)
    a.length = b.length → old < 2 ^ 32 →
    ((∃ p ∈ a.zip b, wrong p) ∨ (∃ p ∈ a.zip b, endless p true) ∧ (∃ p ∈ a.zip b, endless p false) ∨ sa.isNan = true ∨
      sb.isNan = true ∨ c.isNan = true → r = 0x7FC00000) ∧
    ((∀ p ∈ a.zip b, ¬ wrong p) → sa.isNan = false → sb.isNan = false → c.isNan = false → ∀ neg,
      (∃ p ∈ a.zip b, endless p neg) → (∀ p ∈ a.zip b, ¬ endless p (!neg)) →
      r = if sa.isZero ∨ sb.isZero ∨ (c.isInf = true ∧ c.isNeg ≠ sign neg) then 0x7FC00000
        else fp32.inf (sign neg)) ∧
    ((∀ v ∈ a ++ b, fin v) → sa.isNan = false → sb.isNan = false → c.isNan = false →
      ∃ x st, BlockSummed ((a.zip b).map fun p => p.1.rat * p.2.rat) x st ∧
        (sa.isInf = true ∨ sb.isInf = true →
          r = if x = 0 ∨ sa.isZero ∨ sb.isZero ∨ (c.isInf = true ∧ c.isNeg ≠ sign (decide (x < 0))) then 0x7FC00000
            else fp32.inf (sign (decide (x < 0)))) ∧
        (fin sa → fin sb → c.isInf = true → r = old) ∧
        (fin sa → fin sb → fin c → Promoted (x * sa.rat * sb.rat) st old c.rat r)))

/-- The TOKEN words: TKTAKE makes the crew the holder of a tile that no operation is admitted on, and else waits; TKGIVE
passes the token on to the crew that has waited longest, or to the engine; TKQRY reads it. A crew that holds the tile takes
it again at once, one that asks for another's tile is put on its list once, and one that gives up what it does not hold
traps with the tile and its holder. MRD lands the elements that its threads name, MWR writes them in thread order; both
need the token, but for an empty active set (R258, R259, R281, R282, R287). -/
def Obligations.TokenAndTileWords : Prop :=
  (∀ (s : State) (d a : BitVec 6),
    let tile := (getS s.c a).toNat
    let k := clusterOf s.c.core
    let others := s.tokens.filter fun x => !(x.cluster == k && x.tile == tile)
    tile < 64 → (∀ x ∈ s.tokens, x.holder.isSome = true ∨ x.waiting ≠ []) →
    (Ready (.tktake a) s → tokenOf s k tile = none → tileBusy s k tile = false →
      Completes (.tktake a) s fun t => CrewEffect { s with tokens := s.tokens ++ [⟨k, tile, some s.c.uid, []⟩] } t s.c) ∧
    (Ready (.tktake a) s → tokenOf s k tile = none → tileBusy s k tile = true →
      Completes (.tktake a) s fun t => Waits { s with tokens := s.tokens ++ [⟨k, tile, none, [s.c.uid]⟩] } t) ∧
    (∀ x, Ready (.tktake a) s → tokenOf s k tile = some x → x.holder = some s.c.uid →
      Completes (.tktake a) s fun t => CrewEffect s t s.c) ∧
    (∀ x u, Ready (.tktake a) s → tokenOf s k tile = some x → x.holder = some u → u ≠ s.c.uid →
      Completes (.tktake a) s fun t => Waits { s with
        tokens := others ++ [{ x with waiting := if s.c.uid ∈ x.waiting then x.waiting else x.waiting ++ [s.c.uid] }] } t) ∧
    (∀ x l, Ready (.tktake a) s → tokenOf s k tile = some x → x.holder = none → tileBusy s k tile = false →
      x.waiting = s.c.uid :: l →
      Completes (.tktake a) s fun t =>
        CrewEffect { s with tokens := others ++ [⟨k, tile, some s.c.uid, l⟩] } t s.c) ∧
    (∀ x, Ready (.tkgive a) s → tokenOf s k tile = some x → x.holder = some s.c.uid → Completes (.tkgive a) s fun t =>
      CrewEffect { s with tokens := others ++ match x.waiting with
        | [] => []
        | u :: rest => [⟨k, tile, some u, rest⟩] } t s.c) ∧
    (∀ x, Ready (.tkgive a) s → tokenOf s k tile = some x → x.holder ≠ some s.c.uid →
      exec (.tkgive a) s = .next (takeTrap s ⟨.tokenFault, s.c.pc, 0,
        w64 (tile + 2 ^ 16 * ((x.holder.bind s.crew?).map crewId).getD 0), false, 0⟩)) ∧
    (∀ i ∈ [Instr.tkgive a], Ready i s → tokenOf s k tile = none →
      exec i s = .next (takeTrap s ⟨.tokenFault, s.c.pc, 0, w64 tile, false, 0⟩)) ∧
    (Ready (.tkqry d a) s → tokenOf s k tile = none → Completes (.tkqry d a) s fun t => ScalarEffect s t d 0) ∧
    (∀ l, Ready (.tkqry d a) s → tokenOf s k tile = some ⟨k, tile, some s.c.uid, l⟩ → l.length < 256 →
      Completes (.tkqry d a) s fun t => ScalarEffect s t d (w64 (1 + 2 ^ 8 * l.length + 2 ^ 16 * crewId s.c)))) ∧
  (∀ (s : State) (w : BitVec 1) (d a : BitVec 7) (tile : BitVec 6),
    let k := clusterOf s.c.core
    let key (th : Nat) : Nat :=
      let j := bits (reg s th a).toNat 8 7
      tileKey k tile.toNat (bits (reg s th a).toNat 0 7) (if w = 1 then j - j % 2 else j)
    (activeSet s.c = 0 →
      (Ready (.mrd w d a tile) s → Completes (.mrd w d a tile) s fun t => LongEffect s t (.v d) []) ∧
      (Ready (.mwr w d a tile) s → Completes (.mwr w d a tile) s fun t => CrewEffect s t s.c)) ∧
    (activeSet s.c ≠ 0 → (tokenOf s k tile.toNat).bind (·.holder) ≠ some s.c.uid →
      ∀ i ∈ [Instr.mrd w d a tile, .mwr w d a tile], Ready i s → exec i s = .next (takeTrap s ⟨.tokenFault, s.c.pc, 0,
        w64 (tile.toNat + 2 ^ 16 * (((tokenOf s k tile.toNat).bind (·.holder)).bind s.crew?).elim 0 crewId), false, 0⟩)) ∧
    (activeSet s.c ≠ 0 → (tokenOf s k tile.toNat).bind (·.holder) = some s.c.uid →
    (Ready (.mrd w d a tile) s → s.badTiles = [] → Completes (.mrd w d a tile) s fun t =>
      LongEffect s t (.v d) (gangLandings s d fun th =>
        if w = 1 then w64 ((getTile s (key th)).toNat + 2 ^ 32 * (getTile s (key th + 1)).toNat)
        else w64 (getTile s (key th)).toNat)) ∧
    (Ready (.mwr w d a tile) s → Completes (.mwr w d a tile) s fun t =>
      WordEnded s.c t.c ∧ t.c = s.c.withEnd t.c ∧ t = { s with c := t.c, tiles := t.tiles, badTiles := t.badTiles } ∧
      (∀ th, active s th → (∀ u, active s u → th < u → key u ≠ key th) →
        getTile t (key th) = (reg s th d).setWidth 32 ∧
        (w = 1 → getTile t (key th + 1) = ((reg s th d) >>> 32).setWidth 32)) ∧
      (∀ x, (∀ th, active s th → x ≠ key th ∧ (w = 1 → x ≠ key th + 1)) → getTile t x = getTile s x))))

/-- The task words: they release the crew's earlier work first. A spawn whose record passes its checks is enqueued and the
crew goes on, with 0 in the status register where there is one; a full region parks it or gives 1; a refused record traps
with the number of its check. The checks of a record come in the order of R150 with R164, and the first that fails is
reported; a record that passes takes the fields of its region path (R145, R146), is counted in its spawn-tree cell, and
is ready, or held with its name in its dependency cell (R148, R149, R162, R163, R166). JOINDEC and DEPDEC take 1 from a
count that is not 0, and a dependency count that reaches 0 makes ready the record that waits on it (R153); the last
arrival at a barrier starts its next generation, and an earlier one is counted and waits; EXIT ends the crew (R160 to
R170). An uncorrectable word of a cell makes the word that reads it trap, and the cell stays (R304); so does one that an
enqueue reads in its successor list or cells, once its record has passed its checks, which is the model's choice (log
98). The model's own choices besides: the successor list of check 8 must be readable, the dependency cell of check 10
reachable, and check 11 holds of a firmware crew as of any other (log 30); a record with TREE 0 is counted in no cell
(log 69). -/
def Obligations.TaskWords : Prop :=
  (∀ (s : State) (d a : BitVec 6) (p : Place),
    let s1 := atHome s
    let at_ := getS s.c a
    checkGlobal s needR at_.toNat 64 64 = .ok p → s.c.redq = [] → engineBusy s s.c.uid = false →
    (∀ u, taskEnqueue s1 .spawn at_ = .ok u →
      (Ready (.spawn a) s → Completes (.spawn a) s fun t => CrewEffect u t u.c) ∧
      (Ready (.spawnNb d a) s → Completes (.spawnNb d a) s fun t => ScalarEffect u t d 0)) ∧
    (∀ u, taskEnqueue s1 .spawng at_ = .ok u → Ready (.spawng a) s →
      Completes (.spawng a) s fun t => CrewEffect u t u.c) ∧
    (∀ u, taskEnqueue s1 .launch at_ = .ok u → Ready (.launch d a) s →
      Completes (.launch d a) s fun t => ScalarEffect u t d 0) ∧
    (∀ path, taskEnqueue s1 .spawn at_ = .full path →
      (Ready (.spawnNb d a) s → Completes (.spawnNb d a) s fun t => ScalarEffect s1 t d 1) ∧
      (Ready (.spawn a) s → s.c.gid = s.g.gid → Completes (.spawn a) s fun t => SaveWordPut { s1 with
        spawnq := s1.spawnq ++ [⟨s1.c.uid, path⟩], c := { s1.c with status := .parked .spawn } } t)) ∧
    (∀ n, taskEnqueue s1 .spawn at_ = .refused n → ∀ i ∈ [Instr.spawn a, .spawnNb d a], Ready i s →
      exec i s = .next (takeTrap s1 ⟨.spawnRefused, s1.c.pc, at_, w64 n, false, 0⟩)) ∧
    (∀ x, taskEnqueue s1 .spawn at_ = .spoiled x → ∀ i ∈ [Instr.spawn a, .spawnNb d a], Ready i s →
      exec i s = .next (takeTrap s1 ⟨.eccUncorr, s1.c.pc, x, 0, false, 0⟩))) ∧
  (∀ (s : State) (e : Enqueuer) (addr : Word) (p : Place), e ≠ .host →
    checkGlobal s needR addr.toNat 64 64 = .ok p → poisoned s false p.pa 64 = false →
    let bs := readBytes s p.pa 64
    let own := s.g.rcd
    let r := rewrite e own (parseRecord addr s.part bs)
    let checked := checkRecord s e (galAsn s.g) (s.c.privl == 2) own.path bs r
    (∀ n, checked = .error n → taskEnqueue s e addr = .refused n) ∧
    (∀ q x, checked = .ok q → enqueueSpoiled s q = some x → taskEnqueue s e addr = .spoiled x) ∧
    (∀ q, checked = .ok q → enqueueSpoiled s q = none → (∃ b ∈ q.path, bits (readNat s (b + 0x28) 8) 48 16 ≠ 0xFFFF ∧
      bits (readNat s (b + 0x28) 8) 48 16 < pendOf s b + 1) → taskEnqueue s e addr = .full q.path) ∧
    (∀ q, checked = .ok q → enqueueSpoiled s q = none → (∀ b ∈ q.path, bits (readNat s (b + 0x28) 8) 48 16 = 0xFFFF ∨
      pendOf s b + 1 ≤ bits (readNat s (b + 0x28) 8) 48 16) →
      (q.kind = 0 → ∀ o ∈ s.objects, ¬ (o.part = q.part ∧ o.asn = q.asn ∧ o.text.toNat ≤ q.code.toNat ∧
        q.code.toNat < o.text.toNat + o.textLen ∧ o.secv < s.boot.secver.toNat)) →
      taskEnqueue s e addr = .ok (enterQueue s q s.c.core)) ∧
    r.tree = (if e = .launch then w64 (readNat s (p.pa + 0x18) 8) else own.tree) ∧
    r.region = (if e = .spawng then own.region else w64 (readNat s (p.pa + 0x28) 8)) ∧
    r.prio = (if e = .spawng then own.prio else bits (readNat s (p.pa + 0x26) 1) 0 3) ∧
    r.cls = (if e = .spawng then own.cls else bits (readNat s (p.pa + 0x26) 1) 3 2) ∧
    r.kind = bits (readNat s (p.pa + 0x26) 1) 5 2 ∧ r.mtok = readNat s (p.pa + 0x27) 1 ∧
    r.code = w64 (readNat s p.pa 8) ∧ r.arg = w64 (readNat s (p.pa + 8) 8) ∧ r.join = w64 (readNat s (p.pa + 0x10) 8) ∧
    r.threads = readNat s (p.pa + 0x20) 2 ∧ r.blocks = readNat s (p.pa + 0x22) 1 ∧ r.crews = readNat s (p.pa + 0x23) 1 ∧
    r.vgran = readNat s (p.pa + 0x24) 2 ∧ r.dep = w64 (readNat s (p.pa + 0x30) 8) ∧
    r.succ = w64 (readNat s (p.pa + 0x38) 8) ∧ r.name = addr ∧ r.part = s.part) ∧
  (∀ (s : State) (e : Enqueuer) (asn : Nat) (foreman : Bool) (own : List Nat) (bs : List Byte) (r : Record),
    let place (n : Need) (va : Word) : Option Nat := match translate s r.part asn foreman false n va.toNat with
      | .error _ => none
      | .ok p => some p.pa
    let q : Record := { r with
      asn := ((place needR r.region).map fun b => bits (readNat s (b + 0x20) 8) 0 16).getD asn
      path := (place needR r.region).toList }
    let path := regionPath s r.part asn foreman r.region
    let lane := r.kind == 2
    let tokens := ((place needR r.region).map fun b => bits (readNat s (b + 0x38) 8) 0 16).getD 0xFFFF
    let checks : List (Bool × Nat) := [
      (r.code.toNat % 4 != 0 || decide (2 ^ 57 ≤ r.code.toNat), 1),
      (!(match e with
        | .spawn => [1, 2]
        | .spawng => [1]
        | .launch => [0]
        | .host => [0, 1, 2]).contains r.kind, 2),
      (r.threads == 0 || decide (2048 < r.threads) || (lane && r.threads != 1), 3),
      (r.blocks == 0 || decide (16 < r.blocks) || decide (256 < (r.threads + 31) / 32 * r.blocks), 4),
      (r.crews == 0 || decide (4 < r.crews) || (lane && r.crews != 1), 5), (decide (128 < r.vgran), 6),
      ((tokens != 0xFFFF && decide (tokens < r.mtok)) || (lane && r.mtok != 0), 7),
      ((bs.getD 0x26 0).getLsbD 7 || r.succ.toNat % 8 != 0 || !succReadable s q ||
        ((succList s q).any fun x => x.2.toNat % 16 != 0) || (e == .launch && (cellAt s q r.tree).isNone), 8),
      (path.isNone, 9),
      (match path with
        | none => false
        | some l => r.dep != 0 && match cellAt s (resolve s r l) r.dep with
          | none => true
          | some c => readNat s (c + 8) 8 != 0 && !poisoned s false (c + 8) 8, 10),
      (match path with
        | none => false
        | some l => e != .host && own != [] && !l.contains (own.headD 0), 11),
      (match path with
        | none => false
        | some l => e == .host && !hasRoom s l, 12)]
    (∀ n, checkRecord s e asn foreman own bs r = .error n ↔ (checks.find? (·.1)).map (·.2) = some n) ∧
    (∀ l, path = some l → (∀ c ∈ checks, c.1 = false) → checkRecord s e asn foreman own bs r = .ok (resolve s r l))) ∧
  (∀ (s : State) (q : Record),
    let listed := (succList s q).length
    enqueueSpoiled s q = none ↔
      (∀ c, cellAt s q q.dep = some c → poisoned s false c 16 = false) ∧
      (∀ c, cellAt s q q.tree = some c → q.kind ≠ 0 → poisoned s false c 8 = false) ∧
      (∀ p, q.succ ≠ 0 → listed ≠ 4 → regionXlate s q needR (q.succ.toNat + 8 * listed) = .ok p →
        poisoned s false p.pa 8 = false)) ∧
  (∀ (s : State) (part asn : Nat) (foreman : Bool) (va : Word) (path : List Nat), path.length < 2 ^ 49 →
    let xl (a : Nat) : Option Nat := match translate s part asn foreman false needR a with
      | .error _ => none
      | .ok p => some p.pa
    (regionPath s part asn foreman va = some path ↔ va ≠ 0 ∧ RegionPath s xl [] va.toNat path)) ∧
  (∀ (s : State) (b : Nat),
    let word (off : Nat) : Nat := readNat s (b + off) 8
    (blockOk s b = true ↔ word 0x08 / 2 ^ 6 = 0 ∧ bits (word 0x10) 3 5 = 0 ∧ bits (word 0x10) 18 6 = 0 ∧
      word 0x10 / 2 ^ 32 = 0 ∧ word 0x18 / 2 ^ 12 = 0 ∧ word 0x20 / 2 ^ 16 = 0 ∧ word 0x30 / 2 ^ 40 = 0 ∧
      word 0x38 / 2 ^ 16 = 0 ∧ word 0x70 / 2 ^ 16 = 0 ∧ word 0x88 / 2 ^ 3 = 0 ∧
      (∀ off ∈ [0x90, 0x98, 0xA0, 0xA8, 0xB0, 0xB8, 0xE0, 0xE8, 0xF0, 0xF8], word off = 0) ∧
      bits (word 0x10) 8 8 ≠ 0 ∧ (bit (word 0x18) 7 = true ∨ bits (word 0x18) 0 7 ≤ 95) ∧
      word 0x68 % 8192 = 0 ∧ word 0x78 % 65536 = 0 ∧ word 0x80 % 65536 = 0)) ∧
  (∀ (s : State) (r : Record) (path : List Nat),
    let word (k off : Nat) : Nat := readNat s (giver s path k + off) 8
    let q := resolve s r path
    (∀ k, k < 6 → ∀ old b rest, path = old ++ b :: rest → (∀ x ∈ old, bit (readNat s (x + 8) 8) k = false) →
      (bit (readNat s (b + 8) 8) k = true ∨ (rest = [] ∧ ∀ x ∈ path, bit (readNat s (x + 8) 8) k = false)) →
      giver s path k = b) ∧
    q.prio = min r.prio (bits (word 0 0x10) 0 3) ∧ q.share = bits (word 1 0x10) 8 8 ∧
    q.cls = max r.cls (bits (word 2 0x10) 16 2) ∧ q.fdom = bits (word 3 0x10) 24 8 ∧
    q.place.toNat = bits (word 4 0x18) 0 12 ∧ q.seatReg = bits (word 5 0x30) 0 16 ∧ q.seatVlt = bits (word 5 0x30) 16 16 ∧
    q.seatGang = bits (word 5 0x30) 32 8 ∧ q.path = path ∧ q.asn = bits (readNat s (path.headD 0 + 0x20) 8) 0 16 ∧
    q = { r with prio := q.prio, share := q.share, cls := q.cls, fdom := q.fdom, place := q.place, seatReg := q.seatReg
                 seatVlt := q.seatVlt, seatGang := q.seatGang, path := path, asn := q.asn }) ∧
  (∀ (s : State) (r : Record) (core : Nat), s.lamps = [] → s.redq = [] → NoneWaits s → r.path ≠ [] →
    readNat s (r.path.headD 0 + 0x40) 8 = 0 → r.kind ≠ 2 → (∀ q ∈ s.records, q.arrival ≠ s.arrivals) →
    let t := enterQueue s r core
    (∀ c, cellAt s r r.tree = some c → r.dep = 0 → (∀ k, k < 16 → inRom s (c + k) = false) →
      (∀ b ∈ r.path, c + 16 ≤ b ∨ b + 256 ≤ c) →
      t.records = s.records ++ [{ r with arrival := s.arrivals, qslot := none
                                         ready := some ⟨s.timens.toNat, core, 0, s.arrivals + 1⟩ }] ∧
      readNat t c 8 = (if r.kind = 0 then 1 else (readNat s c 8 + 1) % 2 ^ 64) ∧
      readNat t (c + 8) 8 = (if r.kind = 0 then 0 else readNat s (c + 8) 8)) ∧
    (∀ c, r.tree = 0 → cellAt s r r.dep = some c → readNat s c 8 ≠ 0 → (∀ k, k < 16 → inRom s (c + k) = false) →
      (∀ b ∈ r.path, c + 16 ≤ b ∨ b + 256 ≤ c) →
      t.records = s.records ++ [{ r with arrival := s.arrivals, qslot := none }] ∧
      readNat t c 8 = readNat s c 8 ∧ readNat t (c + 8) 8 = r.name.toNat)) ∧
  (∀ (s : State) (cell : Nat) (name : Word) (core pos : Nat) (old more : List Record) (r : Record),
    s.lamps = [] → NoneWaits s → s.records = old ++ r :: more → r.ready = none → r.name = name → cellAt s r r.dep = some cell → r.kind ≠ 2 →
    (∀ q ∈ old, ¬ (q.ready = none ∧ q.name = name ∧ cellAt s q q.dep = some cell)) →
    (∀ q ∈ old ++ more, q.arrival ≠ r.arrival) →
    (release s cell name core pos).records =
      old ++ more ++ [{ r with ready := some ⟨s.timens.toNat, core, pos, s.arrivals⟩ }]) ∧
  (∀ (s : State) (a b : BitVec 6) (p : Place),
    let s1 := atHome s
    let n := readNat s1 p.pa 8
    let gen := readNat s1 (p.pa + 8) 8
    let sound (off k : Nat) : Prop := poisoned s1 false (p.pa + off) k = false
    let spoiled : Out := .next (takeTrap s1 ⟨.eccUncorr, s1.c.pc, getS s.c a, 0, false, 0⟩)
    checkGlobal s needRW (getS s.c a).toNat 16 16 = .ok p → s.c.redq = [] → engineBusy s s.c.uid = false →
    (Ready (.joindec a) s → sound 0 8 → n ≠ 0 → Completes (.joindec a) s fun t =>
      let u := performNat s1 p.pa 8 (n - 1)
      CrewEffect u t u.c) ∧
    (Ready (.depdec a) s → sound 0 8 → 1 < n → Completes (.depdec a) s fun t =>
      let u := performNat s1 p.pa 8 (n - 1)
      CrewEffect u t u.c) ∧
    (Ready (.depdec a) s → sound 0 8 → sound 8 8 → n = 1 → Completes (.depdec a) s fun t =>
      let u := release (performGlobal s1 p.pa (toBytes 8 0 ++ toBytes 8 0)) p.pa (w64 gen) s1.c.core 0
      CrewEffect u t u.c) ∧
    (sound 0 8 → n = 0 → ∀ i ∈ [Instr.joindec a, .depdec a], Ready i s →
      exec i s = .next (takeTrap s1 ⟨.depcntUnderflow, s1.c.pc, getS s.c a, 0, false, 0⟩)) ∧
    (Ready (.joindec a) s → ¬ sound 0 8 → exec (.joindec a) s = spoiled) ∧
    (Ready (.depdec a) s → ¬ sound 0 8 ∨ (n = 1 ∧ ¬ sound 8 8) → exec (.depdec a) s = spoiled) ∧
    (Ready (.barc a b) s → ¬ sound 0 16 → exec (.barc a b) s = spoiled) ∧
    (Ready (.barc a b) s → sound 0 16 → (getS s.c b).toNat ≤ n + 1 → Completes (.barc a b) s fun t =>
      let u := performGlobal s1 p.pa (toBytes 8 0 ++ toBytes 8 ((gen + 1) % 2 ^ 64))
      CrewEffect u t u.c) ∧
    (Ready (.barc a b) s → sound 0 16 → n + 1 < (getS s.c b).toNat → s.c.gid = s.g.gid → Completes (.barc a b) s fun t =>
      let u := performNat s1 p.pa 8 (n + 1)
      ((∀ k, k < 8 → inRom s (p.pa + k) = false) → s1.lamps = [] → s1.redq = [] → NoneWaits s1 →
        readNat u p.pa 8 = n + 1) ∧
      ∃ (v : State) (e : LampEntry), v = { u with lamps := v.lamps, lampSeq := v.lampSeq, filter := v.filter
                                                  sweeps := v.sweeps } ∧
        (e ∈ v.lamps ∨ e ∈ v.sweeps) ∧ e.pa = p.pa + 8 ∧ e.uid = u.c.uid ∧ e.y = w64 gen ∧
        SaveWordPut { v with c := { u.c with status := .parked .barc } } t)) ∧
  (∀ s : State, Ready .exit s → (∀ l ∈ s.c.land, ∀ r xs, l.dest ≠ .gang r xs) → s.c.deferred = [] → s.g.blkq = [] →
    Completes .exit s fun t =>
      t.c.status = .exited ∧ t.c.act = 0 ∧ t.c.stack = [] ∧ t.c.pc = s.c.pc ∧ t.c.stores = s.c.stores ∧
      (∀ i, t.c.marks.getD i 0 = 0) ∧ t.mem = s.mem ∧ t.vault = s.vault ∧
      (∀ b, b < 16 → (s.g.owner.getD b none).map (·.val) = some s.c.att → t.g.owner.getD b none = none) ∧
      (∀ b, b < 16 → (s.g.owner.getD b none).map (·.val) ≠ some s.c.att → t.g.owner.getD b none = s.g.owner.getD b none) ∧
      t = { s with c := t.c, g := t.g, tokens := t.tokens, rings := t.rings })

/-- The collective words pass their checks and are then issued: the operator or e, then XLATE, ALIGN and PERM of D, S and G,
then what the descriptor tells, COLL_FORM and the bytes at D (R337, R338; their order is the model's choice, log 44). A
word whose descriptor an unanswered reduction of the crew meets waits before it looks at it (R192, R219). SEQ of the
descriptor is taken and rises by one, and the collective goes on as the members' data come (R336 to R342). CSTAT reads
how the tag's latest one stands (R343). A datum for a collective that this part has not issued is kept (log 44); one
whose time is over fails; the silence of a peer lowers the clock to 40 at once and holds it (R342, R353; how a failure is
told, log 38). The result of a complete one is the fold of its elements over the members in ascending order, a NaN of it
canonical (R81), what each member sent one after another, or what the root sent (R340, R341); it is written at D, and
then published or told on its tag. A member whose count, operator, element size or root differs from the lowest member's
fails it everywhere (R339). -/
def Obligations.CollectiveWords : Prop :=
  (∀ (s : State) (t g : BitVec 6) (n r p : BitVec 1) (pl : Place),
    let tag : Option (BitVec 6) := if n = 1 then none else some t
    ∀ q ∈ [(Instr.cred t g n r p, collOp s 0 r p g), (.cgath t g n r p, collOp s 1 r p g), (.cbcast t g n p, collOp s 2 0 p g)],
      (∀ f, Ready q.1 s → groupFault s q.2 = some f → exec q.1 s = .next (takeTrap s ⟨f.cause, s.c.pc, f.addr, f.info, false, 0⟩)) ∧
      (Ready q.1 s → groupFault s q.2 = none → crewXlate s needRW q.2.desc.toNat = .ok pl →
        ((∃ x ∈ s.c.redq, (x.obj < pl.pa + 64 ∧ pl.pa < x.obj + 16) ∨ x.fenceA = true) → Completes q.1 s fun u => Waits s u)) ∧
      (Ready q.1 s → groupFault s q.2 = none → crewXlate s needRW q.2.desc.toNat = .ok pl →
        Apart s pl.pa 64 → Unfenced s false → ownedByHw s pl.pa 64 true = false → Readable s false pl.pa 64 →
        let members := BitVec.ofNat 256 (ownNat s false (pl.pa + 0x10) 32)
        let written := q.2.writes s.pacer.self.toNat (viewMembers members).length
        (collBad s q.2 members = true →
          exec q.1 s = .next (takeTrap s ⟨.collForm, s.c.pc, q.2.desc, 0, false, 0⟩)) ∧
        (∀ f, collBad s q.2 members = false → collFault s needW q.2.dest q.2.size written 1 = some f →
          exec q.1 s = .next (takeTrap s ⟨f.cause, s.c.pc, f.addr, f.info, false, 0⟩)) ∧
        (collBad s q.2 members = false → collFault s needW q.2.dest q.2.size written 1 = none →
          s.c.redq ≠ [] ∨ 64 ≤ (s.colls.filter fun c => c.die == dieOfCore s.c.core).length ∨
            (∃ k, tag = some k ∧ 255 ≤ tagCount s.c k.toNat) → Completes q.1 s fun u => Waits s u)) ∧
      (Ready q.1 s → groupFault s q.2 = none → crewXlate s needRW q.2.desc.toNat = .ok pl →
        ownedByHw s pl.pa 64 true = false → Readable s false pl.pa 64 →
        let members := BitVec.ofNat 256 (ownNat s false (pl.pa + 0x10) 32)
        collBad s q.2 members = false →
        collFault s needW q.2.dest q.2.size (q.2.writes s.pacer.self.toNat (viewMembers members).length) 1 = none →
        s.c.redq = [] → (s.colls.filter fun c => c.die == dieOfCore s.c.core).length < 64 →
        (∀ k, tag = some k → tagCount s.c k.toNat < 255) →
        exec q.1 s = .next (postColl (atHome s) q.2 tag pl))) ∧
  (∀ (s : State) (o : CollOp),
    let self := s.pacer.self.toNat
    let read := if o.fn = 2 ∧ o.rootId ≠ self then 0 else o.n * o.size
    let first (l : List (Option OpFault)) : Option OpFault := l.findSome? id
    let badCode : Prop := (o.fn = 0 ∧ 11 ≤ o.op) ∨ (o.fn ≠ 0 ∧ 13 ≤ o.e)
    (badCode → groupFault s o = some ⟨.collForm, o.desc, 0⟩) ∧
    (¬ badCode → groupFault s o = first [collFault s needW o.dest o.size 0 1, collFault s needR o.src o.size read 0,
      collFault s needRW o.desc 64 64 2]) ∧
    ∀ members : BitVec 256,
      let written := if o.root = true ∧ o.rootId ≠ self then 0
        else o.n * o.size * (if o.fn = 1 then (viewMembers members).length else 1)
      (o.writes self (viewMembers members).length = written) ∧
      (collBad s o members = true ↔ members.getLsbD self = false ∨ members.getLsbD o.rootId = false ∨ 2 ^ 36 < written ∨
        (0 < written ∧ 0 < read ∧ o.dest.toNat < o.src.toNat + read ∧ o.src.toNat < o.dest.toNat + written) ∨
        (o.pub = true ∧ 0 < written ∧
          ∀ p, pubAt s s.part (galAsn s.g) o.dest.toNat = some p → p.vbase + 2 ^ (21 + p.size) < o.dest.toNat + written))) ∧
  (∀ (s : State) (need : Need) (a : Word) (align n kind : Nat), 0 < align →
    let info : Word := w64 (2 ^ 12 + 2 ^ 24 * kind + 2 ^ 26)
    let far : Prop := 2 ^ 57 ≤ a.toNat ∨ 2 ^ 57 < a.toNat + n
    let pages := if n = 0 then 0 else (a.toNat + n - 1) / 4096 - a.toNat / 4096 + 1
    let page (i : Nat) : Nat := if i = 0 then a.toNat else 4096 * (a.toNat / 4096 + i)
    (far → collFault s need a align n kind = some ⟨.xlate, a, info⟩) ∧
    (¬ far → a.toNat % align ≠ 0 → collFault s need a align n kind = some ⟨.align, a, info⟩) ∧
    (¬ far → a.toNat % align = 0 →
      (∀ i e, i < pages → crewXlate s need (page i) = .error e → (∀ j, j < i → ∃ p, crewXlate s need (page j) = .ok p) →
        collFault s need a align n kind = some ⟨e, w64 (page i), info⟩) ∧
      ((∀ i, i < pages → ∃ p, crewXlate s need (page i) = .ok p) → collFault s need a align n kind = none))) ∧
  (∀ (s : State) (o : CollOp) (tag : Option (BitVec 6)) (pl : Place) (r : Nat → Byte),
    let self := s.pacer.self
    let seq := readNat s (pl.pa + 8) 8
    let tmo := readNat s (pl.pa + 4) 4
    let n := if o.fn = 2 ∧ o.rootId ≠ self.toNat then 0 else o.n * o.size
    let s1 : State := { (performNat s (pl.pa + 8) 8 ((seq + 1) % 2 ^ 64)) with ids := s.ids + 1 }
    let c : Coll :=
      { id := s.ids, die := dieOfCore s.c.core, uid := s.c.uid, tag := tag, fn := o.fn, pub := o.pub, root := o.root
        dest := o.dest, op := o.op, count := o.n, esize := o.size, rootId := BitVec.ofNat 8 o.rootId, desc := o.desc
        gid := BitVec.ofNat 16 (readNat s pl.pa 2), seq := w64 seq
        members := BitVec.ofNat 256 (readNat s (pl.pa + 0x10) 32), head := w64 (o.head % 2 ^ 48)
        got := [(self, w64 (o.head % 2 ^ 48), (List.range n).map fun x => r (o.src.toNat + x))]
        issued := s.timens, tmo := if tmo = 0 then 1000 else tmo }
    s.lamps = [] → NoneWaits s → Sees s1 ⟨s1.g, s1.c.uid, s1.c.privl == 2⟩ false o.src.toNat (o.src.toNat + n) r →
    (∀ x ∈ s.collNotes, x.gid ≠ c.gid ∨ x.seq ≠ c.seq) →
    (∃ m, c.members.getLsbD m = true ∧ m ≠ self.toNat) →
    CrewEffect { s1 with colls := s1.colls ++ [c] } (postColl s o tag pl) (match tag with
      | none => s1.c
      | some k => { tagUp s1.c (some k) with
          colls := (s1.c.colls.filter (·.tag != k)) ++ [⟨s.ids, k, 1, 0, none, w64 seq⟩] })) ∧
  (∀ a b : Nat,
    let unit (o : CollOp) : Nat := if o.fn = 0 then ([4, 8, 8, 4, 4, 8, 8, 8, 8, 8, 2].getD o.op 8) else 2 ^ o.e
    (∀ o : CollOp, o.size = unit o) ∧
    (∀ k ∈ [(0, fp32, 0x7FC00000), (1, fp64, 0x7FF8000000000000), (3, fp32, 0x7FC00000), (4, fp32, 0x7FC00000),
      (10, bf16, 0x7FC0)], credWritten k.1 a = if (k.2.1.value a).isNan then k.2.2 else a) ∧
    (∀ op, op ∉ [0, 1, 3, 4, 10] → credWritten op a = a) ∧
    (credOp 0 a b = (fp32.add 0 a b).bits ∧ credOp 1 a b = (fp64.add 0 a b).bits ∧ credOp 10 a b = (bf16.add 0 a b).bits ∧
      credOp 3 a b = (fp32.minmax true a b).bits ∧ credOp 4 a b = (fp32.minmax false a b).bits) ∧
    (a < 2 ^ 64 → b < 2 ^ 64 → credOp 2 a b = (a + b) % 2 ^ 64 ∧ credOp 7 a b = a &&& b ∧ credOp 8 a b = a ||| b ∧
      credOp 9 a b = a ^^^ b ∧ ((w64 (credOp 5 a b)).toInt = max (w64 a).toInt (w64 b).toInt) ∧
      (w64 (credOp 6 a b)).toInt = min (w64 a).toInt (w64 b).toInt)) ∧
  (∀ (s : State) (old more : List Coll) (c : Coll) (m : BitVec 8) (head : BitVec 64) (data : List (BitVec 8)),
    let c1 := { c with got := c.got ++ [(m, head, data)] }
    let s1 := { s with colls := old ++ c1 :: more }
    let gone := { s with colls := old ++ more }
    let ms := viewMembers c.members
    let stat (st : BitVec 2) (cause : BitVec 8) (peer : Option (BitVec 8)) (s : State) : State :=
      s.onCrew c.uid fun k => { k with colls := k.colls.map fun x =>
        if x.id = c.id then { x with status := st, cause := cause, peer := peer } else x }
    let fails (cause : Cause) (detail : Nat) (peer : Option (BitVec 8)) : State :=
      settleExits (completeTag (stat 3 (BitVec.ofNat 8 cause.code) peer (crewFault gone c.uid
        { cause := cause, detail := detail, obj := c.desc, tag := c.tag, peer := (peer.getD 0).toNat })) c.uid c.tag (some cause))
    let value (k j : Nat) : Nat := ofBytes (((c1.dataOf k).drop (c.esize * j)).take c.esize)
    s.colls = old ++ c :: more → (∀ x ∈ old, x.gid ≠ c.gid ∨ x.seq ≠ c.seq) → (∀ x ∈ old ++ more, x.id ≠ c.id) →
    (head.getLsbD 63 = true → Completes (.collectiveDataArrival m c.gid c.seq head data) s fun t =>
      t = fails .collTimeout 0 (some (head.setWidth 8))) ∧
    (head.getLsbD 63 = false → c.members.getLsbD m.toNat = true → (∀ x ∈ c.got, x.1 ≠ m) →
      ((∃ k ∈ ms, ∀ x ∈ c1.got, x.1.toNat ≠ k) →
        Completes (.collectiveDataArrival m c.gid c.seq head data) s fun t => t = s1) ∧
      ((∀ k ∈ ms, ∃ x ∈ c1.got, x.1.toNat = k) →
        (∀ (bad : Nat) (first : Word) (least : Nat) (same : List Nat) (later : List Nat), ms = least :: (same ++ bad :: later) →
          (c1.sent least).map (·.1) = some first → (∀ k ∈ same, (c1.sent k).map (·.1) = some first) →
          (c1.sent bad).map (·.1) ≠ some first →
          Completes (.collectiveDataArrival m c.gid c.seq head data) s fun t => t = fails .collForm bad none) ∧
        (∀ h : Word, (∀ k ∈ ms, (c1.sent k).map (·.1) = some h) → (∀ k ∈ ms, c.fn = 2 ∧ k ≠ c.rootId.toNat ∨
            (c1.dataOf k).length = c.count * c.esize) →
          let bytes : List Byte :=
            if c.fn = 2 then c1.dataOf c.rootId.toNat
            else if c.fn = 1 then ms.flatMap c1.dataOf
            else (List.range c.count).flatMap fun j => toBytes c.esize
              (credWritten c.op ((ms.drop 1).foldl (fun x k => credOp c.op x (value k j)) (value (ms.headD 0) j)))
          let k := clientOf s1 c.uid
          ∀ u, (if c.root = true ∧ c.rootId ≠ s.pacer.self then u = s1
              else engWrite s1 k false [(c.dest.toNat, bytes)] = .ok u) → (c.fn = 2 → c.members.getLsbD c.rootId.toNat = true) →
            Completes (.collectiveDataArrival m c.gid c.seq head data) s fun t =>
              let v := { u with colls := u.colls.filter fun x => x.id ≠ c.id }
              (c.pub = false → t = settleExits (completeTag (stat 2 0 none v) c.uid c.tag none)) ∧
              (∀ e, c.pub = true → pubAt u k.g.rcd.part (galAsn k.g) c.dest.toNat = some e →
                t = { v with flips := v.flips ++ [⟨e.part, e.idx, c.uid, some (c.tag, c.id)⟩] }))))) ∧
  (∀ (s : State) (t g : BitVec 6), Ready (.cstat t g) s → Completes (.cstat t g) s fun u =>
    let three (a b c : Word) : Crew := setS (setS (setS s.c g a) (BitVec.ofNat 6 (g.toNat + 1)) b) (BitVec.ofNat 6 (g.toNat + 2)) c
    CrewEffect s u (match s.c.colls.find? (·.tag == t) with
      | none => three 0 0 0
      | some x => three (w64 (x.status.toNat + 2 ^ 8 * x.cause.toNat))
          (w64 (match x.peer with
            | none => 0
            | some m => m.toNat + 2 ^ 8)) x.seq)) ∧
  (∀ (s : State) (m : BitVec 8) (gid : BitVec 16) (seq head : BitVec 64) (data : List (BitVec 8)),
    (∀ c ∈ s.colls, c.gid ≠ gid ∨ c.seq ≠ seq) →
    Completes (.collectiveDataArrival m gid seq head data) s fun t =>
      t = { s with collNotes := s.collNotes ++ [⟨gid, seq,
        if head.getLsbD 63 = true then some (.collTimeout, head.setWidth 8) else none, m, head, data⟩] }) ∧
  (∀ (s : State) (old more : List Coll) (c : Coll), s.colls = old ++ c :: more →
    c.issued.toNat + 1000 * c.tmo ≤ s.timens.toNat ∨
      (∃ m, c.members.getLsbD m = true ∧ m ≠ s.pacer.self.toNat ∧ portTo s m = none) →
    (∀ x ∈ old ++ more, x.id ≠ c.id) →
    Completes (.collTimeout old.length) s fun t =>
      let peer := (((viewMembers c.members).filter fun m => c.got.all fun x => x.1.toNat != m).head?).map (BitVec.ofNat 8)
      t.colls = old ++ more ∧
      t = settleExits (completeTag ((crewFault { s with colls := old ++ more } c.uid
        { cause := .collTimeout, obj := c.desc, tag := c.tag, peer := (peer.getD 0).toNat }).onCrew c.uid fun k =>
          setStat k c.id 3 (BitVec.ofNat 8 Cause.collTimeout.code) peer) c.uid c.tag (some .collTimeout))) ∧
  (∀ (s : State) (c : Coll) (m : BitVec 8), s.colls = [c] → c.members.getLsbD m.toNat = true → m ≠ s.pacer.self →
    s.pacer.view.getLsbD m.toNat = true →
    (look 0 s.pacer.heard m.toNat + 200000 ≤ s.timens.toNat → Completes (.peerSilent m) s fun t => t.colls = []) ∧
    ((onPacer s Pacer.applyDue).pacer.view.getLsbD m.toNat = false → s.pacer.leaving = none →
      (∀ l ∈ s.pacer.leavers, l.1 ≠ m) → Completes .lapApply s fun t => t.colls = [])) ∧
  (∀ (s : State) (m : BitVec 8), s.colls = [] → m ≠ s.pacer.self → s.pacer.view.getLsbD m.toNat = true →
    look 0 s.pacer.heard m.toNat + 200000 ≤ s.timens.toNat →
    Completes (.peerSilent m) s fun t => t.pacer.ceil = 40 ∧ t.pacer.walkhold = true ∧ t.pacer.view.getLsbD m.toNat = false)

/-- RDSYS reads the system register of R308, and WRSYS writes what may be written of it; NOP, YIELD and HALT; RSPILL
stores the eight oldest entries of the responder stack and RFILL brings eight back below the others, within LIVE; CTXSAVE
and CTXLOAD ask for a move and wait (R308 to R319). The model's own choices: a handler that writes TRAPPC + 4 within a
predicate block takes one word from the block as it takes one from the span (log 13), TRAPINFO is 0 for an RSPILL of an
uncorrectable entry (log 80), and YIELD clears the counts of the issues that passed the crew (log 62). -/
def Obligations.SystemWords : Prop :=
  (∀ (s : State) (d : BitVec 6) (n : BitVec 12), Ready (.rdsys d n) s →
    ∀ p ∈ [((0x000 : BitVec 12), w64 (s.c.att + 2 ^ 2 * s.c.slot + 2 ^ 6 * s.c.core)),
      (0x001, w64 (s.g.vbase.toNat + 2 ^ 32 * s.g.vgran + 2 ^ 40 * s.g.slot)), (0x002, w64 s.c.core),
      (0x003, w64 (clusterOf s.c.core)), (0x004, w64 (s.c.core / 96)), (0x005, w64 (s.part + 2 ^ 4 * s.boot.partcfg.toNat)),
      (0x006, w64 s.g.nthr), (0x007, w64 ((s.g.nthr + 31) / 32)), (0x008, w64 (count s.g.live)),
      (0x010, s.c.xsub.setWidth 64), (0x011, s.c.xstat.setWidth 64), (0x012, s.c.fprm.setWidth 64),
      (0x013, s.c.srchchk.setWidth 64), (0x014, s.c.clausef.setWidth 64), (0x015, tagReady s.c),
      (0x016, w64 s.c.stack.length), (0x020, s.g.rcd.region), (0x021, s.c.prio.setWidth 64),
      (0x022, w64 (bits s.power.poolmap.toNat (2 * clusterOf s.c.core) 2)), (0x023, w64 s.g.rcd.mtok),
      (0x024, s.c.launchrec), (0x025, s.c.argp), (0x030, s.pacer.ceil.setWidth 64), (0x031, w64 s.pacer.lap),
      (0x032, w64 (paceStat s.pacer)), (0x033, s.boot.paceword), (0x040, s.timens), (0x041, s.c.cycles), (0x050, s.c.trapcause.setWidth 64),
      (0x051, s.c.trappc), (0x052, s.c.trapaddr), (0x053, s.c.trapinfo), (0x054, s.c.privl.setWidth 64),
      (0x060, if s.strict.getLsbD s.part then 1 else 0), (0x061, s.boot.secver.setWidth 64), (0x062, 0x0100),
      (0x063, s.power.eoldays.setWidth 64)],
      n = p.1 → Completes (.rdsys d n) s fun t => ScalarEffect s t d p.2) ∧
  (∀ (s : State) (d : BitVec 6) (n : BitVec 12), Ready (.wrsys d n) s →
    let v := getS s.c d
    ∀ p ∈ [((0x010 : BitVec 12), { s.c with xsub := v.setWidth 6 }, v.toNat ∈ [1, 2, 4, 8, 16, 32]),
      (0x011, { s.c with xstat := s.c.xstat &&& ~~~ v.setWidth 10 }, True), (0x012, { s.c with fprm := v.setWidth 2 }, True),
      (0x013, { s.c with srchchk := v.setWidth 1 }, True), (0x014, { s.c with clausef := v.setWidth 38 }, True),
      (0x021, { s.c with prio := v.setWidth 3 }, 2 ≤ s.c.privl.toNat ∨ v.toNat % 8 ≤ s.g.rcd.prio),
      (0x041, { s.c with cycles := v }, True), (0x050, { s.c with trapcause := v.setWidth 8 }, True),
      (0x051, { s.c with trappc := v }, v ≠ s.c.trappc + 4), (0x052, { s.c with trapaddr := v }, True),
      (0x053, { s.c with trapinfo := v }, True)],
      n = p.1 → p.2.2 → Completes (.wrsys d n) s fun t => CrewEffect s t p.2.1) ∧
  (∀ (s : State) (d : BitVec 6), Ready (.wrsys d 0x051) s → getS s.c d = s.c.trappc + 4 →
    Completes (.wrsys d 0x051) s fun t => ∃ f : BitVec 38,
      CrewEffect s t { s.c with trappc := s.c.trappc + 4, clausef := f } ∧
      (bits s.c.clausef.toNat 0 6 = 0 → f = s.c.clausef) ∧
      (bits s.c.clausef.toNat 0 6 ≠ 0 →
        bits f.toNat 0 6 = bits s.c.clausef.toNat 0 6 - 1 ∧ bits f.toNat 6 16 = bits s.c.clausef.toNat 6 16 ∧
        (bit s.c.clausef.toNat 22 = false → bits f.toNat 22 16 = bits s.c.clausef.toNat 22 16) ∧
        (bit s.c.clausef.toNat 22 = true → bits s.c.clausef.toNat 26 4 ≤ 1 → bits f.toNat 22 16 = 0) ∧
        (bit s.c.clausef.toNat 22 = true → 1 < bits s.c.clausef.toNat 26 4 →
          bits f.toNat 22 4 = bits s.c.clausef.toNat 22 4 ∧
          bits f.toNat 26 4 = bits s.c.clausef.toNat 26 4 - 1 ∧ bits f.toNat 30 8 = bits s.c.clausef.toNat 30 8 / 2))) ∧
  (∀ s : State,
    (Ready .nop s → Completes .nop s fun t => CrewEffect s t s.c) ∧
    (Ready .yield s → Completes .yield s fun t =>
      CrewEffect s t { s.c with age := 0, passedU := 0, passedL := 0, yielded := some 0 }) ∧
    (Ready .halt s → Completes .halt s fun t =>
      t = haltCrew s { cause := Cause.ofCode s.c.trapcause.toNat, pc := s.c.trappc } ∧
      (s.c.privl ≠ 2 → t.boot = s.boot) ∧ t.c = { s.c with status := .halted, woken := t.c.woken })) ∧
  (∀ (s : State) (a : BitVec 6) (pl : Nat → Place),
    let addr (k : Nat) : Nat := (getS s.c a + w64 (256 * k)).toNat
    (Ready (.rspill a) s → (∀ k, k < 8 → checkGlobal s needW (addr k) 256 256 = .ok (pl k)) → s.c.stack.length < 8 →
      exec (.rspill a) s = .next (takeTrap s ⟨.rstkUnf, s.c.pc, 0, depthInfo s, false, 0⟩)) ∧
    (Ready (.rfill a) s → (∀ k, k < 8 → checkGlobal s needR (addr k) 256 256 = .ok (pl k)) → 8 < s.c.stack.length →
      exec (.rfill a) s = .next (takeTrap s ⟨.rstkOvf, s.c.pc, 0, depthInfo s, false, 0⟩)) ∧
    (Ready (.rspill a) s → (∀ k, k < 8 → checkGlobal s needW (addr k) 256 256 = .ok (pl k) ∧ Apart s (pl k).pa 256) →
      8 ≤ s.c.stack.length → (∃ k ∈ s.c.badStack, k < 8) →
      exec (.rspill a) s = .next (takeTrap s ⟨.eccUncorr, s.c.pc, 0, 0, false, 0⟩)) ∧
    (Ready (.rspill a) s → (∀ k, k < 8 → checkGlobal s needW (addr k) 256 256 = .ok (pl k) ∧ Apart s (pl k).pa 256) →
      8 ≤ s.c.stack.length → (∀ k ∈ s.c.badStack, 8 ≤ k) →
      Completes (.rspill a) s fun t => CrewEffect s t { s.c with
        stack := s.c.stack.drop 8, badStack := s.c.badStack.map (· - 8)
        stores := s.c.stores ++ (List.range 8).map fun k =>
          ⟨s.c.clause, [⟨false, (pl k).home, (pl k).pa, toBytes 256 (s.c.stack.getD k 0).toNat⟩],
            (s.c.redq.filter fun x => x.fenceA || x.fenceR).map Contribution.key, []⟩ }) ∧
    (Ready (.rfill a) s → (∀ k, k < 8 → checkGlobal s needR (addr k) 256 256 = .ok (pl k) ∧
        Apart s (pl k).pa 256 ∧ Readable s false (pl k).pa 256) → Unfenced s false → s.c.stack.length ≤ 8 →
      Completes (.rfill a) s fun t => CrewEffect s t { s.c with
        badStack := s.c.badStack.map (· + 8)
        stack := (List.range 8).map (fun k => BitVec.ofNat 2048 (ownNat s false (pl k).pa 256) &&& s.g.live) ++ s.c.stack })) ∧
  (∀ (s : State) (a : BitVec 6) (p : Place),
    let s1 := atHome s
    let w := readNat s1 p.pa 8
    checkGlobal s needR (getS s.c a).toNat 64 64 = .ok p → Unhindered s false p.pa 64 → Readable s false p.pa 64 →
    ∀ q ∈ [(Instr.ctxsave a, false), (.ctxload a, true)], Ready q.1 s → Completes q.1 s fun t =>
      t = { s1 with
        ctx := s1.ctx ++ [⟨s1.c.uid, p.pa, q.2, BitVec.ofNat 2 (bits w 16 2), bits w 0 9, bits w 9 4,
          w64 (readNat s1 (p.pa + 8) 8), s1.timens⟩]
        c := { s1.c with status := .moving } })

/-! ### Events (R150 to R157, R206, R299 to R306, R326 to R372) -/

/-- The distributor and what stops galleries: a drained crew enters its handler; a forming gang is launched when its first
record has waited 1 µs; a placement decision places the first candidate that passes and fits, or swaps one gallery out
where none does; a gallery whose work is over completes its record and retires; a region that is torn down is listed, and
when its grace is over and nothing of it is left its teardown ends; a context move is carried out, and the crew that
asked goes on with its status written (R151, R153, R155, R288, R300, R306, R319). A freed core is offered first (R156). A
placed gallery has the state of R62, R65 and R157, its records leave the queue, and its crews' save records are marked in
use (R290, R293); a resumed one comes back from its image, unless that is lost (R301, R304). The gallery swapped out is
the one of lowest priority that helps, then the one resident longest; its image holds its registers as they stand and its
granules (R299, R300). A retirement frees the core, the rings, the tokens and the save records (R156); a completion
decrements the join cell, the successors and the spawn-tree cell in order, and writes the completion word (R153); an
uncorrectable word that it reads is told in a record of the region, and the steps that are left are done (R304; log 98).
The hardware's words of a region block hold what is resident, pending and oldest (R145, R290). Where PEND of a region has
fallen, the next decision first retries the spawns parked on it in the order in which they parked, each with its record
read afresh (R165, R306). The model's own choices: the freed core that is offered first when several are free (log 85), a
gallery swapped out only where that helps (log 32), the statuses of CTXSAVE and CTXLOAD that R319 does not list (log 46),
and a context held by the model beside the storage of its image, which then holds bytes that are not given (log 39). -/
def Obligations.SchedulingEvents : Prop :=
  (∀ (s : State) (q : TrapReq), s.c.status = .draining q →
    (drained (drain s) = true → Completes (.trapEntry s.c.uid) s fun t =>
      t = enterTrap (drain s) q ∧ (s.c.bank = false → t = takeTrap s q)) ∧
    (drained (drain s) = false → Completes (.trapEntry s.c.uid) s fun t => t = drain s)) ∧
  (∀ s : State, Completes .laneGangTimeout s fun t =>
    t = { s with forming := s.forming.map fun f =>
      { f with closed := if f.since + 1000 ≤ s.timens.toNat then true else f.closed } }) ∧
  (∀ (s : State) (part : BitVec 2) (core : Nat), (∀ m ∈ s.power.moving, clusterEmpty s m.1 = false) →
    s.pendFell = [] → core ∈ s.freed → partOfDie s (dieOfCore core) = part.toNat →
    (∀ k ∈ s.freed, partOfDie s (dieOfCore k) = part.toNat → core ≤ k) →
    let u := { s with freed := s.freed.filter (· != core) }
    ∀ c v, firstFit u (some core) (inOrder u part.toNat) = some (c, core, v) →
      Completes (.placementDecision part) s fun t => t = place u c core v) ∧
  (∀ (s : State) (part : BitVec 2), (∀ m ∈ s.power.moving, clusterEmpty s m.1 = false) →
    s.pendFell = [] →
    freedCore s part.toNat = none → inOrder s part.toNat ≠ [] →
    (∀ c k v, firstFit s none (inOrder s part.toNat) = some (c, k, v) →
      Completes (.placementDecision part) s fun t => t = place s c k v) ∧
    (firstFit s none (inOrder s part.toNat) = none →
      Completes (.placementDecision part) s fun t => t = (swapFor s part.toNat).getD s)) ∧
  (∀ (s : State) (part : BitVec 2), (∀ m ∈ s.power.moving, clusterEmpty s m.1 = false) →
    let u := retrySpawns { s with pendFell := [] } s.pendFell
    u.pendFell = [] → (∀ m ∈ u.power.moving, clusterEmpty u m.1 = false) →
    exec (.placementDecision part) s = exec (.placementDecision part) u) ∧
  (∀ (s : State) (path : List Nat) (w : SpawnWait),
    ((∀ x ∈ s.spawnq, ∀ b ∈ path, b ∉ x.path) → retrySpawns s path = s) ∧
    (∀ x, s.spawnq = [w, x] → (∃ b ∈ path, b ∈ w.path) → (∃ b ∈ path, b ∈ x.path) →
      retrySpawns s path = retrySpawn (retrySpawn s w) x)) ∧
  (∀ (s : State) (w : SpawnWait) (word : BitVec 32) (a : BitVec 6) (e : Enqueuer),
    s.c.gid = s.g.gid → w.uid = s.c.uid → fetch s = .ok word →
    (decodeWord word = .ok (.spawn a) ∧ e = .spawn) ∨ (decodeWord word = .ok (.spawng a) ∧ e = .spawng) →
    let gone (u : State) : State := { u with spawnq := u.spawnq.filter (·.uid != w.uid) }
    (∀ path, taskEnqueue s e (getS s.c a) = .full path →
      retrySpawn s w = { s with spawnq := s.spawnq.map fun x => if x.uid = w.uid then { x with path := path } else x }) ∧
    (∀ u, taskEnqueue s e (getS s.c a) = .ok u → ∃ v, CrewEffect (gone u) v u.c ∧ SaveWordPut v (retrySpawn s w)) ∧
    (∀ x, taskEnqueue s e (getS s.c a) = .spoiled x →
      retrySpawn s w = takeTrap (gone s) ⟨.eccUncorr, s.c.pc, x, 0, false, 0⟩)) ∧
  (∀ (s : State) (v : SavedContext), contextLost s v = true ↔ v.lost = true ∨
    (∃ pa ∈ v.pages, poisoned s false pa 4096 = true) ∨
    ∃ k ∈ v.crews, k.save ≠ 0 ∧ ∃ off ∈ [0, 4096], ∃ p, regionXlate s v.gal.rcd ⟨false, false, false⟩ (k.save.toNat + off) = .ok p ∧
      poisoned s false p.pa 4096 = true) ∧
  (∀ (s : State) (l : List Candidate) (c : Candidate) (k v : Nat), firstFit s none l = some (c, k, v) →
    ∃ before after, l = before ++ c :: after ∧ passes s c = true ∧ (k, v) ∈ placesFor s c.rcd ∧
      (∀ x ∈ before, passes s x = false ∨ placesFor s x.rcd = []) ∧
      ∀ y ∈ placesFor s c.rcd, (galsOn s k).length ≤ (galsOn s y.1).length) ∧
  (∀ (s : State) (c : Candidate) (core v : Nat), c.rcd.resume = none → s.spawnq = [] → s.lamps = [] → s.redq = [] → NoneWaits s →
    let r := c.rcd
    let saves := savesFor s r
    let slots := freeSlots ((crewsOn s core).map (·.slot))
    let live : ThreadSet := BitVec.ofNat 2048 (2 ^ r.threads - 1)
    let t := place s c core v
    saves.length = r.crews → r.crews ≤ slots.length →
    t.c = s.c ∧ t.g = s.g ∧ t.freed = s.freed ∧ t.saved = s.saved ∧
    (∃ g : Gallery, t.gals = s.gals ++ [g] ∧
      g = { gid := s.ids, core := core, slot := (freeSlots ((galsOn s core).map (·.slot))).headD 0, nthr := r.threads
            nblk := r.blocks, vgran := r.vgran, vbase := BitVec.ofNat 32 v, live := live, v := g.v, owner := g.owner
            blkq := [], rcd := r, lanes := c.lanes, reloc := [], image := none, since := s.arrivals, bad := [], soft := []
            torn := false, ender := none } ∧
      (∀ th n, n < 128 → look 0 g.v (128 * th + n) =
        if n = 0 then ((c.lanes[th]?).map (·.arg)).getD 0 else 0) ∧
      ∀ b : Fin 16, g.owner[b] = if b.val < r.blocks then some 0 else none) ∧
    t.crews = s.crews ++ (List.range r.crews).map (fun i => { Crew.foreman 0 with
      uid := s.ids + 1 + i, gid := s.ids, core := core, slot := slots.getD i 0, att := i, pc := normPc r.code, privl := 0
      act := live, prio := BitVec.ofNat 3 r.prio, launchrec := r.name, argp := r.arg, save := saves.getD i 0 }) ∧
    (∀ q, q ∈ t.records ↔ q ∈ s.records ∧ q.arrival ≠ r.arrival ∧ ∀ l ∈ c.lanes, q.arrival ≠ l.arrival) ∧
    (0 < r.vgran → look 65536 s.halves (v / 2 ^ 21) = 65536 →
      look 65536 t.halves (v / 2 ^ 21) = r.asn ∧ ∀ x, x < 2 ^ 21 → readVault t (v / 2 ^ 21 * 2 ^ 21 + x) = 0) ∧
    (∀ k, k ≠ v / 2 ^ 21 → look 65536 t.halves k = look 65536 s.halves k)) ∧
  (∀ (s : State) (c : Candidate) (core v gid : Nat) (x : SavedContext), c.rcd.resume = some gid → s.spawnq = [] →
    s.c.gid ≠ gid → s.g.gid = s.c.gid → (∀ h ∈ s.gals, h.gid ≠ gid) → s.lamps = [] → s.redq = [] → NoneWaits s →
    let s1 := unqueue s c
    let t := place s c core v
    s.saved.find? (·.gal.gid == gid) = some x →
    (contextLost s1 x = true → t = regionFault s1 x.gal.rcd { cause := .ctxLost, fatal := true, obj := w64 (x.image.getD 0) }) ∧
    (contextLost s1 x = false → (∀ y ∈ t.saved, y.gal.gid ≠ gid) ∧
      ∃ g ∈ t.gals, g.gid = gid ∧ g.core = core ∧ g.vbase = BitVec.ofNat 32 v ∧ g.live = x.gal.live ∧ g.image = none ∧
        g.rcd = x.gal.rcd)) ∧
  (∀ (s : State) (part : Nat),
    let helps (g : Gallery) : Prop := swappable s part g = true ∧ ∃ c ∈ inOrder s part, passes s c = true ∧
      placesFor s c.rcd = [] ∧ g.rcd.prio < c.rcd.prio ∧ fitsAfterSwaps s part c g.core = true
    (swapFor s part = none → ∀ g ∈ s.allGals, ¬ helps g) ∧
    (∀ t, swapFor s part = some t → ∃ g ∈ s.allGals, helps g ∧ t = swapOut s g ∧
      ∀ h ∈ s.allGals, helps h → g.rcd.prio < h.rcd.prio ∨ (g.rcd.prio = h.rcd.prio ∧ g.since ≤ h.since)) ∧
    ∀ g : Gallery, swappable s part g = true ↔ g.rcd.path ≠ [] ∧ g.rcd.part = part ∧ g.torn = false ∧
      bit (rcbField s g.rcd 0x88 8) 1 = false ∧ imagePlace s g ≠ none ∧ (∃ c ∈ s.allCrews, c.gid = g.gid) ∧
      ∀ c ∈ s.allCrews, c.gid = g.gid → c.bank = false ∧ c.redq = [] ∧ engineBusy s c.uid = false ∧
        (∀ t ∈ s.tokens, t.holder ≠ some c.uid) ∧ c.ring = none ∧
        ((∃ d, c.status = .parked (.waitu d)) ∨ c.status = .parked .barc ∨ c.status = .parked .spawn)) ∧
  (∀ (s : State) (g : Gallery) (a : Nat) (l : List Nat), s.c.gid ≠ g.gid → s.g.gid = s.c.gid → s.lamps = [] → s.redq = [] → NoneWaits s →
    (∀ k ∈ s.allCrews, k.gid = g.gid → k.land = [] ∧ k.stores = [] ∧ k.redq = [] ∧ k.acks = [] ∧ retire k = k) →
    g ∈ s.gals → (∀ h ∈ s.gals, h.gid = g.gid → h = g) → (∀ h ∈ s.allCrews, ∀ k ∈ s.allCrews, h.uid = k.uid → h = k) →
    imagePlace (drainGallery s g.gid) g = some a →
    imagePages (drainGallery s g.gid) (fun s n va => regionXlate s g.rcd n va) a (imageSize g / 4096) = some l →
    let t := swapOut s g
    (∀ h ∈ t.allGals, h.gid ≠ g.gid) ∧ (∀ k ∈ t.allCrews, k.gid ≠ g.gid) ∧ t.freed = s.freed ∧
    ∃ x ∈ t.saved, x.image = some a ∧ x.pages = l ∧ x.pooled = true ∧ x.part = g.rcd.part ∧ x.gal = { g with image := some a } ∧
      (∀ k, k ∈ x.crews ↔ k ∈ s.allCrews ∧ k.gid = g.gid) ∧ x.vault = granuleBytes s g ∧ x.mx = [] ∧ x.tokens = []) ∧
  (∀ (s : State) (g : Gallery), s.gal? g.gid = some g →
    (completable s g = true → Completes (.recordCompletion g.gid) s fun t => t = completeGallery s g) ∧
    (completable s g = false → Completes (.recordCompletion g.gid) s fun t => t = s)) ∧
  (∀ (s : State) (g : Gallery) (r : Record) (cell n : Nat) (core pos : Nat),
    readNat s cell 8 = n →
    (decCell s cell true core pos = if n = 0 then none
      else if n = 1 then some (release (performGlobal s cell (toBytes 8 0 ++ toBytes 8 0)) cell
        (w64 (readNat s (cell + 8) 8)) core pos)
      else some (performNat s cell 8 (n - 1))) ∧
    (decCell s cell false core pos = if n = 0 then none else some (performNat s cell 8 (n - 1))) ∧
    let last := (g.ender.bind s.crew?).getD s.c
    let spoiled (a : Word) (pos : Nat) : State := regionFault s r
      { cause := .eccUncorr, detail := pos, crew := crewId last, addr := a, pc := last.pc }
    let sound (u : State) (pa : Nat) : Prop := poisoned u false pa 8 = false
    (r.succ = 0 → r.tree = 0 → cellAt s r r.join = some cell →
      (¬ sound s cell → completeRecord s g r = spoiled r.join 0) ∧
      (sound s cell → completeRecord s g r = if n = 0 then underflow s g r r.join 0 else performNat s cell 8 (n - 1))) ∧
    (r.succ = 0 → r.join = 0 → cellAt s r r.tree = some cell → sound s cell → n ≠ 0 →
      let u := performNat s cell 8 (n - 1)
      cellAt u r r.tree = some cell → readNat u cell 8 = n - 1 → sound u cell →
      completeRecord s g r = if n = 1 then performNat u (cell + 8) 8 1 else u) ∧
    (∀ p : Place, r.join = 0 → r.tree = 0 → r.succ ≠ 0 → regionXlate s r needR r.succ.toNat = .ok p → ¬ sound s p.pa →
      completeRecord s g r = spoiled r.succ 1) ∧
    (∀ (p q : Place) (u : State), r.join = 0 → r.tree = 0 → r.succ ≠ 0 → regionXlate s r needR r.succ.toNat = .ok p →
      sound s p.pa → cellAt s r (w64 (readNat s p.pa 8)) = some cell → n ≠ 0 → sound s cell →
      (n = 1 → sound s (cell + 8)) →
      u = (if n = 1 then release (performGlobal s cell (toBytes 8 0 ++ toBytes 8 0)) cell
        (w64 (readNat s (cell + 8) 8)) g.core 1 else performNat s cell 8 (n - 1)) →
      regionXlate u r needR (r.succ.toNat + 8) = .ok q → sound u q.pa → readNat u q.pa 8 = 0 → completeRecord s g r = u)) ∧
  (∀ (s : State) (g : Gallery), s.c.gid ≠ g.gid → s.g.gid = s.c.gid → s.lamps = [] → s.redq = [] → NoneWaits s →
    let t := retireGallery s g
    let mine (uid : Nat) : Prop := ∃ k ∈ s.allCrews, k.uid = uid ∧ k.gid = g.gid
    t.gals = s.gals.filter (·.gid ≠ g.gid) ∧ t.crews = s.crews.filter (·.gid ≠ g.gid) ∧ t.c = s.c ∧ t.g = s.g ∧
    (∀ k, k ∈ t.freed ↔ k ∈ s.freed ∨ k = g.core) ∧ t.saved = s.saved ∧ t.records = s.records ∧
    (∀ e, e ∈ t.rings ↔ e ∈ s.rings ∧ ¬ mine e.uid) ∧ (∀ e, e ∈ t.scales ↔ e ∈ s.scales ∧ ¬ mine e.uid) ∧
    (∀ w, w ∈ t.spawnq ↔ w ∈ s.spawnq ∧ ¬ mine w.uid) ∧
    (∀ x ∈ t.tokens, (∀ u, x.holder = some u → ¬ mine u) ∧ ∀ u ∈ x.waiting, ¬ mine u) ∧
    (g.vgran ≠ 0 → granulesIn { s with gals := t.gals, crews := t.crews } (g.vbase.toNat / 2 ^ 21) = [] →
      look 65536 t.halves (g.vbase.toNat / 2 ^ 21) = 65536) ∧
    ∀ (k : Crew) (b : Nat) (p : Place), s.allCrews.filter (·.gid == g.gid) = [k] → k.save ≠ 0 → g.rcd.path = [b] →
      regionXlate s g.rcd ⟨false, false, false⟩ k.save.toNat = .ok p → (p.pa + 8 ≤ b ∨ b + 256 ≤ p.pa) →
      (∀ x, x < 8 → inRom s (p.pa + x) = false) → readNat t p.pa 8 = 0) ∧
  (∀ (s : State) (b : Nat), s.lamps = [] → s.redq = [] → NoneWaits s → (∀ k, k < 256 → inRom s (b + k) = false) →
    let t := syncRegion s b
    let word (off : Nat) : Nat := readNat t (b + off) 8
    let below := s.allGals.filter fun g => g.rcd.path != [] && g.rcd.path.contains b
    let waiting := (s.records ++ (s.forming.map (·.records)).flatten).filter fun r => r.path.contains b
    bits (word 0xC0) 0 16 = (below.map fun g => (g.nthr + 31) / 32 * g.nblk).sum % 2 ^ 16 ∧
    bits (word 0xC0) 16 16 = (below.map (·.vgran)).sum % 2 ^ 16 ∧ bits (word 0xC0) 32 16 = below.length % 2 ^ 16 ∧
    bits (word 0xC0) 48 16 = waiting.length % 2 ^ 16 ∧
    word 0xC8 = ((below ++ (s.saved.map (·.gal)).filter fun g => g.rcd.path.contains b).map (·.rcd.mtok)).sum % 2 ^ 16 ∧
    (∀ r ∈ waiting, r.block = b → r.path ≠ [] → r.ready.isSome = true →
      (∀ q ∈ waiting, q.block = b → q.path ≠ [] → q.ready.isSome = true → q ≠ r → r.arrival < q.arrival) →
      word 0xD0 = r.name.toNat) ∧
    ((∀ r ∈ waiting, r.block = b → r.ready = none) → word 0xD0 = 0) ∧
    (∀ a, a < b + 0xC0 ∨ b + 0xE0 ≤ a → readByte t a = readByte s a) ∧ t = { s with mem := t.mem, poison := t.poison }) ∧
  (∀ (s : State) (part : BitVec 2) (region : BitVec 64) (asn : BitVec 16) (p : Place),
    translate s part.toNat asn.toNat false false ⟨false, false, false⟩ region.toNat = .ok p →
    Completes (.teardown part region asn) s fun t =>
      ∃ x ∈ t.tears, x.part = part.toNat ∧ x.region = w64 p.pa) ∧
  (∀ (s : State) (old more : List Teardown) (x : Teardown), s.tears = old ++ x :: more → tornGals s x = [] →
    (x.ends ≤ s.timens.toNat → Completes (.teardownGraceExpiry old.length) s fun t =>
      t = { syncPath (dropRecords s x) (tornPaths s x) with
        tears := s.tears.filter (· != x), regions := s.regions.filter fun r => !(r.1 == x.part && w64 r.2 == x.region) } ∧
      (s.lamps = [] → NoneWaits s → ∀ r, r ∈ t.records ↔ r ∈ s.records ∧ ¬ (r.part = x.part ∧ r.path ≠ [] ∧ w64 r.block = x.region)) ∧
      ∀ r, r ∈ (t.forming.map (·.records)).flatten ↔ r ∈ (s.forming.map (·.records)).flatten ∧
        ¬ (r.part = x.part ∧ r.path ≠ [] ∧ w64 r.block = x.region)) ∧
    (s.timens.toNat < x.ends → Completes (.teardownGraceExpiry old.length) s fun t => t = s)) ∧
  (∀ (s : State) (j : CtxJob), s.ctx = [j] →
    (j.load = false → Completes .contextSaveDone s fun t => t = saveJob s j) ∧
    (j.load = true → Completes .contextSaveDone s fun t => t = loadJob s j)) ∧
  (∀ (s : State) (j : CtxJob),
    let part := partOfDie s (dieOfCore j.core)
    let shadow := ∃ v ∈ s.saved, v.image = none ∧ v.part = part
    let gs := s.allGals.filter fun g => g.rcd.path != [] &&
      if j.mode = 1 then g.rcd.part == part else g.core == j.core && g.slot == j.gslot
    let s1 := gs.foldl (fun s g => drainGallery s g.gid) s
    let ready := j.mode ≠ 3 ∧ dieOfCore j.core = jobDie s j ∧ gs ≠ [] ∧ (j.mode = 1 → ¬ shadow)
    j.load = false →
    (j.mode = 3 ∨ dieOfCore j.core ≠ jobDie s j → saveJob s j = finishJob s j 2) ∧
    (j.mode ≠ 3 → dieOfCore j.core = jobDie s j → gs = [] → saveJob s j = finishJob s j (if j.mode = 1 then 0 else 1)) ∧
    (j.mode = 1 → dieOfCore j.core = jobDie s j → gs ≠ [] → shadow → saveJob s j = finishJob s j 2) ∧
    (ready → (∃ g ∈ gs, gallerySettled s g.gid = false) → saveJob s j = s) ∧
    (ready → (∀ g ∈ gs, gallerySettled s g.gid = true) → (∃ g ∈ gs, galleryDrained s1 g.gid = false) → saveJob s j = s1) ∧
    (ready → (∀ g ∈ gs, gallerySettled s g.gid = true) → (∀ g ∈ gs, galleryDrained s1 g.gid = true) →
      (j.mode = 1 → saveJob s j = finishJob (gs.foldl saveShadow s1) j 0) ∧
      ∀ g h rest, gs = h :: rest → s1.gal? h.gid = some g →
        (j.mode = 0 → ((∃ t ∈ s1.tokens, ∃ u, t.holder = some u ∧ isOf s1 g.gid u = true) ∨
            (∃ m ∈ s1.mx, isOf s1 g.gid m.uid = true) ∨ (∃ e ∈ s1.rings, isOf s1 g.gid e.uid = true) ∨
            j.dest.toNat % 65536 ≠ 0) → saveJob s j = finishJob s1 j 2) ∧
        (j.mode = 0 → (∀ t ∈ s1.tokens, ∀ u, t.holder = some u → isOf s1 g.gid u = false) →
          (∀ m ∈ s1.mx, isOf s1 g.gid m.uid = false) → (∀ e ∈ s1.rings, isOf s1 g.gid e.uid = false) →
          j.dest.toNat % 65536 = 0 → ∀ l,
          imagePages s1 (clientXlate (clientOf s1 j.uid)) j.dest.toNat (imageSize g / 4096) = some l →
          saveJob s j = finishJob (saveImage (writeImage s1 l) g j.dest.toNat l false) j 0) ∧
        (j.mode = 2 → targetOk s1 g (j.dest.toNat % 512) = false → saveJob s j = finishJob s1 j 2) ∧
        (j.mode = 2 → targetOk s1 g (j.dest.toNat % 512) = true → migrate s1 g (j.dest.toNat % 512) = none →
          saveJob s j = finishJob s1 j 4) ∧
        (∀ u, j.mode = 2 → targetOk s1 g (j.dest.toNat % 512) = true → migrate s1 g (j.dest.toNat % 512) = some u →
          saveJob s j = finishJob u j 0))) ∧
  (∀ (s : State) (g : Gallery) (target : Nat),
    (targetOk s g target = true ↔ target < 384 ∧ target % 96 ≠ 0 ∧ partOfDie s (target / 96) = g.rcd.part) ∧
    (gallerySettled s g.gid = true ↔ (∀ k ∈ s.allCrews, k.gid = g.gid → atStop s k = true) ∧
      (∀ h ∈ s.hoist, isOf s g.gid h.uid = true → h.flight = [] ∧
        ¬ (h.begun = true ∧ h.waits = none ∧ h.stopped = false ∧ h.total ≤ h.next)) ∧
      ∀ m ∈ s.mx, isOf s g.gid m.uid = true → m.running = []) ∧
    ∀ t, migrate s g target = some t → target < 384 → s.c.gid ≠ g.gid → s.g.gid = s.c.gid → s.lamps = [] → s.redq = [] → NoneWaits s →
      s.tidy = true →
      (∀ k ∈ t.crews, k.gid = g.gid → k.core = target) ∧ ∃ h ∈ t.gals, h.core = target ∧
        h = { g with core := target, slot := h.slot, vbase := h.vbase, reloc := h.reloc } ∧
        ∀ x, x < 16384 * g.vgran → readVault t (h.vbase.toNat + x) = readVault s (g.vbase.toNat + x)) ∧
  (∀ (s : State) (j : CtxJob),
    let part := partOfDie s (dieOfCore j.core)
    let vs := s.saved.filter fun v => v.image.isNone && v.part == part
    let here := dieOfCore j.core = jobDie s j
    let place := match translate s (clientOf s j.uid).g.rcd.part (galAsn (clientOf s j.uid).g) (clientOf s j.uid).foreman false
        ⟨false, false, false⟩ j.dest.toNat with
      | .error _ => none
      | .ok p => some p.pa
    let mine (v : SavedContext) : Bool := v.image.isSome && v.part == part && place == some v.pa
    (2 ≤ j.mode.toNat ∨ ¬ here → loadJob s j = finishJob s j 2) ∧
    (j.mode = 1 → here → vs = [] → loadJob s j = finishJob s j 1) ∧
    (j.mode = 1 → here → (∃ v ∈ vs, contextLost s v = true) →
      loadJob s j = finishJob ((vs.filter (contextLost s)).foldl loseContext s) j 3) ∧
    (j.mode = 1 → here → vs ≠ [] → (∀ v ∈ vs, contextLost s v = false) →
      loadJob s j = match restoreAll vs s with
        | none => finishJob s j 4
        | some u => finishJob u j 0) ∧
    (j.mode = 0 → here → (∀ v ∈ s.saved, mine v = false) → loadJob s j = finishJob s j 1) ∧
    (∀ v, j.mode = 0 → here → s.saved.find? mine = some v →
      (contextLost s v = true → loadJob s j = finishJob (loseContext s v) j 3) ∧
      (contextLost s v = false → j.core % 96 = 0 → loadJob s j = finishJob s j 2) ∧
      (contextLost s v = false → j.core % 96 ≠ 0 → fitsOn s v.gal.rcd j.core = none → loadJob s j = finishJob s j 4) ∧
      (∀ b, contextLost s v = false → j.core % 96 ≠ 0 → fitsOn s v.gal.rcd j.core = some b →
        loadJob s j = finishJob (restoreImage (dropUnplaced s fun r => r.resume == some v.gal.gid) v j.core b) j 0))) ∧
  (∀ (s : State) (gone : Record → Bool),
    let t := dropUnplaced s gone
    let forming (u : State) : List Record := (u.forming.map (·.records)).flatten
    (∀ r, r ∈ t.records ↔ r ∈ s.records ∧ gone r = false) ∧ (∀ r, r ∈ forming t ↔ r ∈ forming s ∧ gone r = false) ∧
    (∀ b, b ∈ t.pendFell ↔ b ∈ s.pendFell ∨
      ((∃ r ∈ s.records ++ forming s, gone r = true ∧ b ∈ r.path) ∧ ∃ w ∈ s.spawnq, b ∈ w.path)) ∧
    t = { s with records := t.records, forming := t.forming, pendFell := t.pendFell }) ∧
  (∀ (s : State) (j : CtxJob) (status : Nat), s.lamps = [] → s.redq = [] → NoneWaits s → j.uid = s.c.uid → s.c.status = .moving →
    (∀ k, k < 16 → inRom s (j.block + 0x10 + k) = false) →
    let t := finishJob s j status
    WordEnded s.c t.c ∧ readNat t (j.block + 0x10) 8 = status % 2 ^ 64 ∧
    readNat t (j.block + 0x18) 8 = (s.timens - j.start).toNat ∧
    (∀ a, a < j.block + 0x10 ∨ j.block + 0x20 ≤ a → readByte t a = readByte s a) ∧ t.ctx = s.ctx.filter (· != j) ∧
    t = { s with c := s.c.withEnd t.c, ctx := t.ctx, mem := t.mem, poison := t.poison })

/-- The Pacer member. A ceiling is applied at its lap and time and not before; BREACH applies at once and takes no lap;
the coordinator stamps a lowered limit, concludes a raise that every member grants, and sends VIEW for a new member; HEART
is sent each 25 µs; messages of other types are counted; the pace word follows the member in one write (R345 to R351; what
a member does with its own announced lowering and with CEIL during a hold, log 51). What is sent, HEART, CEIL, PROPOSE,
GRANT, DENY and VIEW, goes as a flit on VC 2 to the member that it is for, or to each other member of the view, in the layout
of R345. A package with PACEEN 0 and no LEAVE under way is a group of one, which no message concerns (R350, R361). A raise is
proposed where the least own limit stands above the ceiling that the laps under way lead to, and while WALKHOLD is set (R349,
R353); a DENY is followed by a new proposal. Of two laps with one T the higher alone is applied (R346). The coordinator's CEIL
after a BREACH carries the least of its ceiling and c, which is the model's choice (log 52). -/
def Obligations.PacerEvents : Prop :=
  (∀ s : State, s.pacer.out = [] → s.pacer.heartAt ≤ s.timens.toNat → Completes .heartTimer s fun t =>
    t.pacer = { s.pacer with heartAt := t.pacer.heartAt } ∧ t = { s with pacer := t.pacer, ports := t.ports } ∧
    s.timens.toNat < t.pacer.heartAt ∧ t.pacer.heartAt ≤ s.timens.toNat + 25000 ∧
    (t.pacer.heartAt - s.pacer.heartAt) % 25000 = 0 ∧
    t.ports = portsAfter s t.pacer [⟨none, 0, s.pacer.lap, 0, s.pacer.own, 0⟩]) ∧
  (∀ (s : State) (m : PaceOut), s.pacer.out = [m] →
    let p := s.pacer
    let quiet := { s with pacer := { p with out := [] } }
    let send (t : State) (d : Nat) : State := sendFlit t d 2 (toBytes 2 p.gid.toNat) (paceBytes m)
    (∀ d, m.dest = some d → flushPace s = send quiet d.toNat) ∧
    (m.dest = none → flushPace s = (((List.range 256).filter fun k => p.view.getLsbD k).filter (· != p.self.toNat)).foldl
      send quiet) ∧
    paceBytes m = m.type :: (List.replicate 7 0 ++ toBytes 8 m.lap ++ toBytes 8 m.t ++ [m.c] ++ List.replicate 7 0 ++
      toBytes 32 m.mask.toNat)) ∧
  (∀ (s : State) (dst vc : Nat) (header payload : List Byte),
    (portTo s dst = none → sendFlit s dst vc header payload = s) ∧
    (∀ p, portTo s dst = some p → p < 18 ∧ (look 0 s.routes dst).getLsbD p = true ∧
      (s.ports.getD p Port.reset).state = 5 ∧
      (∀ k, k < p → ¬ ((look 0 s.routes dst).getLsbD k = true ∧ (s.ports.getD k Port.reset).state = 5)) ∧
      let t := sendFlit s dst vc header payload
      let q := s.ports.getD p Port.reset
      let sent := (q.sendSeq, flitOf dst s.pacer.self.toNat vc q.sendSeq header payload)
      t = { s with ports := t.ports } ∧ (∀ k, k ≠ p → t.ports.getD k Port.reset = s.ports.getD k Port.reset) ∧
      t.ports.getD p Port.reset = { q with
        sendSeq := q.sendSeq + 1, buffer := if q.buffer.length < 512 then q.buffer ++ [sent]
          else q.buffer.drop (q.buffer.length - 511) ++ [sent] }) ∧
    (∀ (src : Nat) (seq : BitVec 12), dst < 256 → src < 256 → vc < 4 → header.length ≤ 12 → payload.length ≤ 224 →
      let f := flitOf dst src vc seq header payload
      let byte (k : Nat) : Byte := f.getD k 0
      f.length = 256 ∧ (byte 0).toNat = dst ∧ (byte 1).toNat = src ∧
      ofBytes ((f.drop 2).take 2) = vc + 4 * seq.toNat ∧ (∀ k, k < 12 → byte (4 + k) = header.getD k 0) ∧
      (∀ k, k < 224 → byte (16 + k) = payload.getD k 0) ∧ crcHolds f = true ∧
      (f.drop 248).take 8 = toBytes 8 (Config.flitParity (f.take 248)).toNat)) ∧
  (∀ (s : State) (src c : BitVec 8) (lap t0 : BitVec 64) (mask : BitVec 256), s.pacer.en = false → s.pacer.leaving = none →
    ∀ i ∈ [Instr.heart src lap c, .lower src c t0, .breach src c, .propose src lap c, .grant src lap, .deny src lap c,
      .joinMsg src c, .leave src lap, .ceil lap c t0 mask, .view src lap c t0 mask], exec i s = .next s) ∧
  (∀ (s : State) (src c : BitVec 8) (lap t0 : BitVec 64),
    let now := s.timens.toNat
    let p := s.pacer
    let heard (q : Pacer) : Pacer :=
      { q with limits := store 0 p.limits src.toNat c, heard := store 0 p.heard src.toNat now, seen := max p.seen lap.toNat }
    let next := p.pending.foldl (fun a m => max a m.lap) (max (max p.lap p.stamped) (max p.seen lap.toNat)) + 1
    let up : Prop := p.target.toNat < (heard p).least.toNat ∨ (p.walkhold = true ∧ ∀ m ∈ p.pending, m.raise = false)
    p.en = true ∨ p.leaving ≠ none → p.out = [] →
    (Completes (.heart src lap c) s fun t =>
      look 0 t.pacer.limits src.toNat = c ∧ look 0 t.pacer.heard src.toNat = now ∧ t.pacer.ceil = p.ceil ∧
      (p.isCoordinator = false ∨ ¬ up ∨ p.proposal ≠ none →
        t.pacer = heard p ∧ t.ports = s.ports) ∧
      (p.isCoordinator = true → (∃ k, k < 256 ∧ k ≠ p.self.toNat ∧ p.view.getLsbD k = true) →
        p.view.getLsbD p.self.toNat = true → p.proposal = none → up → t.pacer = { heard p with
          stamped := next, proposal := some (next, (heard p).least, BitVec.ofNat 256 (2 ^ p.self.toNat)), asked := now } ∧
        t.ports = portsAfter s t.pacer [⟨none, 4, next, 0, (heard p).least, 0⟩])) ∧
    (p.isCoordinator = true → Completes (.lower src c t0) s fun t =>
      t.pacer.ceil = p.ceil ∧ ∃ m ∈ t.pacer.pending, m.t = max t0.toNat now ∧ m.c.toNat ≤ c.toNat ∧ p.lap < m.lap ∧
        t.ports = portsAfter s t.pacer [⟨none, 2, m.lap, m.t, m.c, p.view⟩]) ∧
    (Completes (.breach src c) s fun t =>
      t.pacer.ceil.toNat = min p.ceil.toNat c.toNat ∧ t.pacer.breach = true ∧ t.pacer.lap = p.lap ∧
      (p.isCoordinator = false → t.ports = s.ports) ∧
      (p.isCoordinator = true → ∃ m ∈ t.pacer.pending, m.c = t.pacer.ceil ∧ m.t = now ∧ p.lap < m.lap ∧
        t.ports = portsAfter s t.pacer [⟨none, 2, m.lap, now, m.c, p.view⟩])) ∧
    (c.toNat ≤ p.own.toNat → Completes (.propose src lap c) s fun t =>
      t.pacer.proposal = some (lap.toNat, c, 0) ∧ t.pacer.ceil = p.ceil ∧
      t.ports = portsAfter s t.pacer [⟨some src, 5, lap.toNat, 0, 0, 0⟩]) ∧
    (p.own.toNat < c.toNat → Completes (.propose src lap c) s fun t =>
      t.pacer.proposal = p.proposal ∧ t.pacer.ceil = p.ceil ∧
      t.ports = portsAfter s t.pacer [⟨some src, 6, lap.toNat, 0, p.own, 0⟩]) ∧
    (∀ c1 got, p.proposal = some (lap.toNat, c1, got) → p.isCoordinator = true → c1 ≠ 0 →
      (∀ m, m < 256 → p.view.getLsbD m = true → got.getLsbD m = true ∨ m = src.toNat) →
      Completes (.grant src lap) s fun t => t.pacer.proposal = none ∧ t.pacer.ceil = p.ceil ∧
        ⟨lap.toNat, c1, now + 25000, none, true⟩ ∈ t.pacer.pending ∧
        t.ports = portsAfter s t.pacer [⟨none, 2, lap.toNat, now + 25000, c1, p.view⟩]) ∧
    (Completes (.deny src lap c) s fun t => look 0 t.pacer.limits src.toNat = c ∧ t.pacer.ceil = p.ceil ∧
      (∀ c1 got, p.proposal = some (lap.toNat, c1, got) → p.isCoordinator = true →
        t.pacer.proposal = some (next, (heard p).least, BitVec.ofNat 256 (2 ^ p.self.toNat)) ∧
        t.ports = portsAfter s t.pacer [⟨none, 4, next, 0, (heard p).least, 0⟩]) ∧
      (∀ c1 got, p.proposal = some (lap.toNat, c1, got) → p.isCoordinator = false → t.pacer.proposal = none)) ∧
    (p.isCoordinator = true → Completes (.joinMsg src c) s fun t => t.pacer.ceil = p.ceil ∧
      ∃ m ∈ t.pacer.pending, m.t = now + 25000 ∧ m.mask = some (p.view ||| BitVec.ofNat 256 (2 ^ src.toNat)) ∧ m.c = p.ceil ∧
        let view := p.view ||| BitVec.ofNat 256 (2 ^ src.toNat)
        t.ports = portsAfter s t.pacer [⟨none, 9, m.lap, m.t, p.ceil, view⟩, ⟨some src, 9, m.lap, m.t, p.ceil, view⟩]) ∧
    (p.leavers = [] → lap.toNat ≤ p.lap + 1 → src ≠ p.self → Completes (.leave src lap) s fun t =>
      t.pacer.view.getLsbD src.toNat = false ∧
      ((∀ k, k < 256 → p.view.getLsbD k = true → k = p.self.toNat ∨ k = src.toNat) →
        t.pacer.ceil = p.own ∧ t.pacer.walkhold = false ∧ t.pacer.breach = false)) ∧
    (p.leavers = [] → p.lap + 1 < lap.toNat → Completes (.leave src lap) s fun t =>
      t.pacer.view = p.view ∧ t.pacer.leavers = [(src, lap.toNat)])) ∧
  (∀ (s : State) (src c type : BitVec 8) (lap t0 : BitVec 64) (mask : BitVec 256),
    let p := s.pacer
    (p.en = true ∨ p.leaving ≠ none → p.out = [] →
      (Completes (.ceil lap c t0 mask) s fun t =>
        t.pacer.ceil = p.ceil ∧ t.ports = s.ports ∧
        ∃ m ∈ t.pacer.pending, m.lap = lap.toNat ∧ m.c = c ∧ m.t = t0.toNat ∧ m.mask = none) ∧
      (Completes (.view src lap c t0 mask) s fun t =>
        t.pacer.ceil = p.ceil ∧ t.pacer.view = p.view ∧
        ⟨lap.toNat, c, t0.toNat, some mask, false⟩ ∈ t.pacer.pending ∧
        (p.walkhold = true ∨ (∃ k, k < 256 ∧ p.view.getLsbD k = true ∧ mask.getLsbD k = false ∧
            ∀ l ∈ p.leavers, l.1.toNat ≠ k) →
          t.ports = portsAfter s t.pacer [⟨some src, 5, lap.toNat, 0, 0, 0⟩]) ∧
        (p.walkhold = false → (∀ k, k < 256 → p.view.getLsbD k = true → mask.getLsbD k = true) → t.ports = s.ports))) ∧
    (10 ≤ type.toNat → Completes (.unknownPacerType src type) s fun t => t = { s with errcnt := s.errcnt + 1 })) ∧
  (∀ (s : State) (m : PaceMsg), s.pacer.pending = [m] → s.pacer.leaving = none → s.pacer.leavers = [] → s.pacer.out = [] →
    let now := s.timens.toNat
    let p := s.pacer
    let one : Prop := ∀ k, k < 256 → ∀ j, j < 256 → p.view.getLsbD k = true → p.view.getLsbD j = true → k = j
    (one → p.walkhold = false → m.mask = none → Completes .lapApply s fun t => t.pacer.ceil = p.own ∧ t.pacer.breach = false) ∧
    (m.mask = none → p.lap < m.lap → p.walkhold = false → ¬ one →
      (m.t ≤ now → Completes .lapApply s fun t =>
        t.pacer.ceil = m.c ∧ t.pacer.lap = m.lap ∧ t.pacer.breach = false ∧ t.pacer.pending = []) ∧
      (now < m.t → Completes .lapApply s fun t =>
        t.pacer.ceil = p.ceil ∧ t.pacer.lap = p.lap ∧ t.pacer.pending = [m])) ∧
    (m.mask = none → p.lap < m.lap → p.walkhold = true → m.t ≤ now → Completes .lapApply s fun t =>
      t.pacer.walkhold = !m.raise ∧ t.pacer.lap = m.lap ∧ (¬ one ∨ m.raise = false →
        t.pacer.ceil.toNat = if m.raise then m.c.toNat else min p.ceil.toNat m.c.toNat)) ∧
    (m.lap = 0 → m.t ≤ now → ¬ one ∨ p.walkhold = true → Completes .lapApply s fun t =>
      t.pacer.ceil.toNat = min p.ceil.toNat m.c.toNat ∧ t.pacer.lap = p.lap ∧ t.pacer.pending = []) ∧
    (0 < m.lap → m.lap ≤ p.lap → m.t ≤ now → ¬ one ∨ p.walkhold = true →
      Completes .lapApply s fun t => t.pacer = { p with pending := [] }) ∧
    (∀ mask, m.mask = some mask → p.lap < m.lap → m.t ≤ now → mask.getLsbD p.self.toNat = true → p.walkhold = false →
      m.c.toNat ≤ p.own.toNat → Completes .lapApply s fun t =>
        t.pacer.view = mask ∧ t.pacer.lap = m.lap ∧ t.pacer.breach = false ∧
        ((∃ k, k < 256 ∧ k ≠ p.self.toNat ∧ mask.getLsbD k = true) → t.pacer.ceil = m.c)) ∧
    (∀ mask, m.mask = some mask → p.lap < m.lap → m.t ≤ now → mask.getLsbD p.self.toNat = false →
      Completes .lapApply s fun t => t.pacer.view = BitVec.ofNat 256 (2 ^ p.self.toNat) ∧ t.pacer.ceil = p.own)) ∧
  (∀ (s : State) (m n : PaceMsg), s.pacer.pending = [m, n] ∨ s.pacer.pending = [n, m] → s.pacer.leaving = none →
    s.pacer.leavers = [] → s.pacer.out = [] → m.t = n.t → m.t ≤ s.timens.toNat → m.lap ≠ 0 → m.lap < n.lap →
    s.pacer.lap < n.lap → n.mask = none → s.pacer.walkhold = false ∨ n.raise = true →
    (∃ k, k < 256 ∧ ∃ j, j < 256 ∧ k ≠ j ∧ s.pacer.view.getLsbD k = true ∧ s.pacer.view.getLsbD j = true) →
    Completes .lapApply s fun t => t.pacer = { s.pacer with
      lap := n.lap, ceil := n.c, breach := false, walkhold := false, pending := [] }) ∧
  (∀ (p : Pacer),
    ((∀ m ∈ p.pending, m.lap ≤ p.lap) → p.target = p.ceil) ∧
    (∀ m ∈ p.pending, p.lap < m.lap → (∀ n ∈ p.pending, n.lap < m.lap ∨ n = m) → p.target = m.c)) ∧
  (∀ (s : State) (p : Pacer), p.word ≠ s.pacer.word → s.lamps = [] → s.redq = [] → NoneWaits s →
    (∀ k, k < 8 → inRom s (s.boot.paceword.toNat + k) = false) →
    let t := setPacer s p
    t.pacer = p ∧ bits (readNat t s.boot.paceword.toNat 8) 0 8 = p.ceil.toNat ∧
    bit (readNat t s.boot.paceword.toNat 8) 8 = p.walkhold ∧ bit (readNat t s.boot.paceword.toNat 8) 9 = p.breach ∧
    bits (readNat t s.boot.paceword.toNat 8) 16 48 = p.lap % 2 ^ 48)

/-- Power, ageing and current: a trip takes 32 steps at once; the recheck trips again at 105 degrees or ends; a sample joins
the window of 64, and lowers the predictor's limit by 4 when it is hot; a measured limit is brought into 40 to 132; an
interval moves the window and the throttle; a cooldown lap has 16 steps; a scrub leaves its words poisoned; FWLIMIT and
PACEEN act on the package (R304, R344, R348, R359 to R361). A cooldown lap starts where the charge has fallen to an
eighth of a mean above the ballast mark, and its ballast counts as charge (R359; log 76); the predictor's limit rises by
1 after a full cool window (R359); a trip is not made again before the sensor is read 1 ms later. The clusters that the
ageing measurement names are to move to their slower pools (R360). A pool runs at the lesser of its class ceiling and
PACECEIL (R354). PACEEN 0 in a group sends LEAVE to its members, and takes effect at once or at its lap (R350, R361). The
predictor's limit is what a trip and the predictor change: it is set from the own limit, at least 40 (log 52); R359 says
that the own limit falls. A window whose mean exceeds 3,420 W lowers it as a hot sensor does, at most once each 100 µs
(R359). -/
def Obligations.PowerEvents : Prop :=
  (∀ s : State, 40 ≤ s.pacer.own.toNat → Completes .emergencyTrip s fun t =>
    t.pacer.own.toNat = max 40 (s.pacer.own.toNat - 32) ∧
    t.pacer.ceil.toNat = min s.pacer.ceil.toNat (max 40 (s.pacer.own.toNat - 32)) ∧ t.pacer.breach = true ∧
    (s.pacer.out = [] → t.ports = portsAfter s t.pacer (⟨none, 3, 0, 0, t.pacer.own, 0⟩ ::
      if s.pacer.isCoordinator ∧ s.pacer.grouped then [⟨none, 2, s.pacer.nextLap, s.timens.toNat, t.pacer.ceil, s.pacer.view⟩]
      else [])) ∧
    t.power.recheckAt = some (s.timens.toNat + 1000000)) ∧
  (∀ (s : State) (x degrees : Nat), s.power.recheckAt = some x →
    (s.timens.toNat < x → Completes (.tripRecheck degrees) s fun t => t = s) ∧
    (x ≤ s.timens.toNat → degrees < 105 → Completes (.tripRecheck degrees) s fun t =>
      t = { s with power := { s.power with recheckAt := none } }) ∧
    (x ≤ s.timens.toNat → 105 ≤ degrees → exec (.tripRecheck degrees) s = exec .emergencyTrip s)) ∧
  (∀ (s : State) (watts degrees : Nat),
    (Completes (.powerSample watts degrees) s fun t =>
      t.power.samples = ((watts, degrees) :: s.power.samples).take 64 ∧ t.power.sampleAt = s.power.sampleAt + 10000) ∧
    (95 ≤ degrees → degrees < 105 → s.power.loweredAt ≤ s.timens.toNat → Completes (.powerSample watts degrees) s fun t =>
      t.pacer.power = BitVec.ofNat 8 (max 40 (s.pacer.own.toNat - 4)) ∧ t.power.loweredAt = s.timens.toNat + 100000) ∧
    (let w := ((watts, degrees) :: s.power.samples).take 64
     3420 * w.length < (w.map (·.1)).sum → degrees < 105 →
      (s.power.loweredAt ≤ s.timens.toNat → Completes (.powerSample watts degrees) s fun t =>
        t.pacer.power = BitVec.ofNat 8 (max 40 (s.pacer.own.toNat - 4)) ∧ t.power.loweredAt = s.timens.toNat + 100000) ∧
      (s.timens.toNat < s.power.loweredAt → Completes (.powerSample watts degrees) s fun t => t.pacer = s.pacer)) ∧
    (105 ≤ degrees → s.power.recheckAt = none → Completes (.powerSample watts degrees) s fun t =>
      exec .emergencyTrip { s with power := { s.power with
        samples := ((watts, degrees) :: s.power.samples).take 64, sampleAt := s.power.sampleAt + 10000 } } = .next t) ∧
    (105 ≤ degrees → s.power.recheckAt ≠ none → s.timens.toNat < s.power.loweredAt →
      Completes (.powerSample watts degrees) s fun t => t.pacer = s.pacer) ∧
    (let w := ((watts, degrees) :: s.power.samples).take 64
     w.length = 64 → (w.map (·.1)).sum < 3060 * 64 → (∀ x ∈ w, x.2 < 90) → s.power.raisedAt ≤ s.timens.toNat →
     s.pacer.power.toNat < 132 → Completes (.powerSample watts degrees) s fun t =>
       t.pacer.power = s.pacer.power + 1 ∧ t.power.raisedAt = s.timens.toNat + 640000 ∧
       t.power.loweredAt = s.power.loweredAt)) ∧
  (∀ (s : State) (cluster : Nat),
    let r := recordOf s cluster
    let full := match r.cooldown with
      | none => r.now
      | some (m, st) => max r.now (m * (15 - st) / 16)
    let past := (full :: r.past).take 64
    let mean := (r.past.take 8).sum / 8
    let l := limitsFor s cluster
    (Completes (.intervalEnd cluster) s fun t =>
      let q := recordOf t cluster
      q.past = past ∧ q.now = 0 ∧
      (r.cooldown = none → q.cooldown =
        if l.ballast.toNat ≤ mean ∧ 8 * full ≤ mean then some (mean, 0) else none) ∧
      (∀ m st, r.cooldown = some (m, st) → q.cooldown = if m ≤ r.now then none else some (m, st)) ∧
      q.throttled = (if l.curhigh.toNat < past.sum then true else if past.sum < l.curlow.toNat then false else r.throttled) ∧
      (∀ k, k ≠ cluster → recordOf t k = recordOf s k) ∧ t = { s with current := t.current }) ∧
    (∀ m st, r.cooldown = some (m, st) → Completes (.cooldownStep cluster) s fun t =>
      (recordOf t cluster).cooldown = (if 15 ≤ st then none else some (m, st + 1)) ∧ t = { s with current := t.current })) ∧
  (∀ (s : State) (limit : BitVec 8) (days : BitVec 32) (slower : List (Nat × BitVec 2)),
    Completes (.ageingMeasure limit days slower) s fun t =>
      t.pacer.ageing.toNat = min 132 (max 40 limit.toNat) ∧ t.power.eoldays = days ∧
      t.power.eolcount = s.power.eolcount + (if days.toNat < 30 then 1 else 0) ∧
      t.power.moving = s.power.moving ++ slower.map fun x => (x.1, x.2, none)) ∧
  (∀ (s : State), (operatingPoint s 0).toNat = min s.power.clsprint.toNat s.pacer.ceil.toNat ∧
    (operatingPoint s 1).toNat = min s.power.cltempo.toNat s.pacer.ceil.toNat ∧
    (operatingPoint s 2).toNat = min s.power.cldist.toNat s.pacer.ceil.toNat ∧
    (operatingPoint s 3).toNat = min 40 s.pacer.ceil.toNat) ∧
  (∀ (s : State) (n : Nat) (l : List Nat), Completes (.hbmScrub n l) s fun t =>
    (∀ w, w ∈ t.poison ↔ w ∈ s.poison ∨ w ∈ l) ∧ t.corrected.getD 3 0 = s.corrected.getD 3 0 + n ∧
    t = { s with poison := t.poison, corrected := t.corrected }) ∧
  (∀ (s : State) (die : BitVec 2) (v : BitVec 8),
    (die = 0 → Completes (.fwlimit die v) s fun t => t.pacer.fwlimit.toNat = min 132 (max 40 v.toNat) ∧
      (s.pacer.grouped = false → s.pacer.walkhold = false → t.pacer.ceil = t.pacer.own) ∧
      (s.pacer.grouped = true → s.pacer.isCoordinator = false → s.pacer.out = [] →
        look 0 s.pacer.limits s.pacer.self.toNat ≠ 0 → look 0 s.pacer.limits s.pacer.self.toNat ≤ t.pacer.own →
        t.pacer.ceil = s.pacer.ceil ∧ t.pacer.pending = s.pacer.pending ∧ t.ports = s.ports) ∧
      (s.pacer.grouped = true → s.pacer.isCoordinator = false → s.pacer.out = [] →
        (look 0 s.pacer.limits s.pacer.self.toNat = 0 ∨ t.pacer.own < look 0 s.pacer.limits s.pacer.self.toNat) →
        t.pacer.own.toNat < s.pacer.ceil.toNat →
        t.pacer.ceil = s.pacer.ceil ∧ ⟨0, t.pacer.own, s.timens.toNat + 100000, none, false⟩ ∈ t.pacer.pending ∧
        t.ports = portsAfter s t.pacer [⟨some (BitVec.ofNat 8 s.pacer.coordinator), 1, 0, s.timens.toNat + 100000,
          t.pacer.own, 0⟩]) ∧
      (s.pacer.grouped = true → s.pacer.isCoordinator = true → s.pacer.out = [] →
        (look 0 s.pacer.limits s.pacer.self.toNat = 0 ∨ t.pacer.own < look 0 s.pacer.limits s.pacer.self.toNat) →
        t.pacer.own.toNat < s.pacer.ceil.toNat → t.pacer.ceil = s.pacer.ceil ∧
        ⟨0, t.pacer.own, s.timens.toNat + 100000, none, false⟩ ∈ t.pacer.pending ∧
        ∃ m ∈ t.pacer.pending, m.lap = s.pacer.nextLap ∧ m.t = s.timens.toNat + 100000 ∧ m.c.toNat ≤ t.pacer.own.toNat ∧
          t.ports = portsAfter s t.pacer [⟨none, 2, m.lap, m.t, m.c, s.pacer.view⟩])) ∧
    (die ≠ 0 → Completes (.fwlimit die v) s fun t => t = s)) ∧
  (∀ (s : State) (die : BitVec 2) (on : BitVec 1),
    (die = 0 → on = 1 → Completes (.paceen die on) s fun t => t.pacer.en = true ∨ s.pacer.en = true) ∧
    (die = 0 → on = 1 → s.pacer.en = false → s.pacer.out = [] → Completes (.paceen die on) s fun t =>
      t.pacer = { s.pacer with en := true } ∧ t = { s with pacer := t.pacer, ports := t.ports } ∧
      (∀ d : BitVec 8, d ≠ s.pacer.self → portTo s d.toNat ≠ none →
        (∀ k, k < d.toNat → k = s.pacer.self.toNat ∨ portTo s k = none) →
        t.ports = portsAfter s t.pacer [⟨some d, 7, 0, 0, s.pacer.own, 0⟩])) ∧
    (die = 0 → on = 0 → s.pacer.grouped = false → Completes (.paceen die on) s fun t => t.pacer.en = false) ∧
    (die = 0 → on = 0 → s.pacer.grouped = true → s.pacer.en = true → s.pacer.out = [] →
      Completes (.paceen die on) s fun t =>
        let lap := s.pacer.leavers.foldl (fun a l => max a (l.2 + 1)) s.pacer.nextLap
        t.pacer.en = false ∧ t.ports = portsAfter s s.pacer [⟨none, 8, lap, 0, 0, 0⟩] ∧
        (lap ≤ s.pacer.lap + 1 → t.pacer.view = BitVec.ofNat 256 (2 ^ s.pacer.self.toNat) ∧ t.pacer.ceil = s.pacer.own) ∧
        (s.pacer.lap + 1 < lap → t.pacer.leaving = some lap ∧ t.pacer.view = s.pacer.view ∧ t.pacer.ceil = s.pacer.ceil)) ∧
    (die ≠ 0 → Completes (.paceen die on) s fun t => t = s))

/-- The host's functions: a kick takes the wrap-aware maximum; a queue's slot is consumed once its phase matches; a write, a
read and an AtomicOp through window B act on the bytes at the translated address, the AtomicOps as ATOM does; a shootdown
is done when it reads so; registers of window A are written at their offsets, and a misaligned write is counted (R329 to
R332; the offsets that R329 leaves open, log 37). Bytes outside window B are reached by no access (R328; log 78). An
access that fails is dropped, and a read or an AtomicOp is then answered with all ones and an abort. A queue whose
control block or slot cannot be used stops (R330), and one goes on past a slot that holds an uncorrectable word, with a
record to the function's ring; a record whose enqueue reads such a word is not enqueued, and its region is told (R304;
both the model's choice, log 98). A record of the host enters its region's queue where the checks of R150 hold, and its
refusal is recorded where they do not (R148, R150). The model's own choices: a refused record whose region does not
translate is counted in ERRCNT (log 70), a queue stops at a slot that cannot be read (log 49), the record of an object
below the fuse counter is CODE_REFUSED for a host record too (log 29), and an access that fails is dropped whole (log
57). -/
def Obligations.HostEvents : Prop :=
  (∀ (s : State) (fn : BitVec 2) (q : BitVec 6) (v : BitVec 32) (on : BitVec 1),
    let x := queueOf s fn.toNat q.toNat
    (Completes (.kick fn q v) s fun t => queueOf t fn.toNat q.toNat =
      { x with kick := if (v - x.kick).toNat < 2 ^ 31 then v else x.kick } ∧ t = { s with fns := t.fns }) ∧
    (Completes (.enable fn q on) s fun t => queueOf t fn.toNat q.toNat =
      { x with enable := on == 1, stopped := false } ∧ t = { s with fns := t.fns }) ∧
    (∀ part, queueServed s fn.toNat q.toNat = some part →
      let h := fnOf s fn.toNat
      (hostRing s part h x.qbase = none → Completes (.hostQueueConsume fn q) s fun t =>
        queueOf t fn.toNat q.toNat = { x with stopped := true } ∧ t = { s with fns := t.fns }) ∧
      (∀ cb r, hostRing s part h x.qbase = some (cb, r) → slotAt s part h r x.cons.toNat = .empty →
        Completes (.hostQueueConsume fn q) s fun t => t = s) ∧
      (∀ cb r, hostRing s part h x.qbase = some (cb, r) → slotAt s part h r x.cons.toNat = .full →
        slotSpoiled s part h r x.cons.toNat = false → Completes (.hostQueueConsume fn q) s fun t =>
          let name := w64 (r.slot x.cons.toNat + 8)
          t = advanceQueue (hostEnqueue s part fn.toNat name (slotPayload s part h r x.cons.toNat)) fn.toNat q.toNat cb) ∧
      (∀ cb r, hostRing s part h x.qbase = some (cb, r) → slotAt s part h r x.cons.toNat = .lost →
        Completes (.hostQueueConsume fn q) s fun t =>
          queueOf t fn.toNat q.toNat = { x with stopped := true } ∧ t = { s with fns := t.fns }) ∧
      (∀ cb r, hostRing s part h x.qbase = some (cb, r) →
        slotAt s part h r x.cons.toNat = .full ∨ slotAt s part h r x.cons.toNat = .bad →
        slotSpoiled s part h r x.cons.toNat = true → Completes (.hostQueueConsume fn q) s fun t =>
          t = fnFault (advanceQueue s fn.toNat q.toNat cb) part h
            { cause := .eccUncorr, addr := w64 (r.slot x.cons.toNat) }) ∧
      (∀ (r : Ring) (i : Nat), slotSpoiled s part h r i = true ↔ ∃ p : Place, hostXlate s part h needR (r.slot i) = .ok p ∧
        poisoned s false p.pa 72 = true) ∧
      (∀ cb r, hostRing s part h x.qbase = some (cb, r) → slotAt s part h r x.cons.toNat = .bad →
        slotSpoiled s part h r x.cons.toNat = false → Completes (.hostQueueConsume fn q) s fun t =>
          t = refusalRecord (advanceQueue s fn.toNat q.toNat cb) h.wbasn.toNat
            (parseRecord 0 part (slotPayload s part h r x.cons.toNat))
            { cause := .illegal, obj := w64 (r.slot x.cons.toNat + 8) }))) ∧
  (∀ (s : State) (part fn : Nat) (name : Word) (bs : List Byte),
    let h := fnOf s fn
    let r := parseRecord name part bs
    let checked := checkRecord s .host h.wbasn.toNat false [] bs r
    let t := hostEnqueue s part fn name bs
    (∀ q a, checked = .ok q → enqueueSpoiled s q = some a →
      t = regionFault s q { cause := .eccUncorr, addr := a }) ∧
    (∀ q, checked = .ok q → enqueueSpoiled s q = none → (∀ o, q.kind = 0 → refusedObject s q ≠ some o) →
      t = enterQueue s q 511) ∧
    (∀ q o, checked = .ok q → enqueueSpoiled s q = none → q.kind = 0 → refusedObject s q = some o →
      t = regionFault s q { cause := .codeRefused, obj := o.addr }) ∧
    (checked = .error 9 → t = fnFault s part h { cause := .spawnRefused, detail := 9, obj := name }) ∧
    (∀ n p, checked = .error n → n ≠ 9 → translate s part h.wbasn.toNat false false needR r.region.toNat = .ok p →
      t = regionFault s (regionRecord s part p.pa) { cause := .spawnRefused, detail := n, obj := name }) ∧
    (∀ n e, checked = .error n → n ≠ 9 → translate s part h.wbasn.toNat false false needR r.region.toNat = .error e →
      t = { s with errcnt := s.errcnt + 1 })) ∧
  (∀ (s : State) (fn q cb : Nat), s.lamps = [] → s.redq = [] → NoneWaits s → (∀ k, k < 4 → inRom s (cb + 24 + k) = false) →
    let t := advanceQueue s fn q cb
    fn < 4 → queueOf t fn q = { queueOf s fn q with cons := (queueOf s fn q).cons + 1 } ∧
    readNat t (cb + 24) 4 = ((queueOf s fn q).cons + 1).toNat ∧
    (∀ a, a < cb + 24 ∨ cb + 28 ≤ a → readByte t a = readByte s a) ∧
    t = { s with mem := t.mem, poison := t.poison, fns := t.fns }) ∧
  (∀ (s : State) (part va n : Nat) (h : HostFn),
    hostFail s part h .eccUncorr va n = fnFault s part h { cause := .eccUncorr, addr := w64 va }) ∧
  (∀ (s : State) (fn : BitVec 2) (off x cmp : BitVec 64) (wide : BitVec 1) (part : Nat) (p : Place),
    let h := fnOf s fn.toNat
    let a := (h.wbbase + off).toNat
    fnPart s fn.toNat = some part →
    (∀ (data : List Byte) (n : Nat), 2 ^ h.wbsize < off.toNat + data.length → 2 ^ h.wbsize < off.toNat + n →
      exec (.windowBWrite fn off data) s = .next s ∧ exec (.windowBRead fn off n) s = .next s) ∧
    (∀ (data : List Byte) (e : Cause), data ≠ [] → a % 8 + data.length ≤ 8 → off.toNat + data.length ≤ 2 ^ h.wbsize →
      hostAt s part h needW a data.length = .error e →
      Completes (.windowBWrite fn off data) s fun t => t = hostFail s part h e a 8) ∧
    (∀ (n : Nat) (e : Cause), 0 < n → a % 8 + n ≤ 8 → off.toNat + n ≤ 2 ^ h.wbsize → hostAt s part h needR a n = .error e →
      Completes (.windowBRead fn off n) s fun t =>
        let u := hostFail s part h e a 8
        fnOf t fn.toNat = { fnOf u fn.toNat with answer := List.replicate n 0xFF, abort := true } ∧
        t = { u with fns := t.fns }) ∧
    (∀ data : List Byte, data ≠ [] → a % 8 + data.length ≤ 8 → off.toNat + data.length ≤ 2 ^ h.wbsize →
      hostAt s part h needW a data.length = .ok p →
      Completes (.windowBWrite fn off data) s fun t => t = performGlobal s p.pa data) ∧
    (∀ n, 0 < n → a % 8 + n ≤ 8 → off.toNat + n ≤ 2 ^ h.wbsize → hostAt s part h needR a n = .ok p →
      Completes (.windowBRead fn off n) s fun t =>
      (fnOf t fn.toNat).answer = readBytes s p.pa n ∧ (fnOf t fn.toNat).abort = false ∧ t = { s with fns := t.fns }) ∧
    (let n := if wide = 1 then 8 else 4
     let old := readNat s p.pa n
     let m := 2 ^ (8 * n)
     a % n = 0 → off.toNat + n ≤ 2 ^ h.wbsize → hostAt s part h needRW a n = .ok p → poisoned s false p.pa n = false →
     ∀ q ∈ [(Instr.fetchadd fn off wide x, some ((old + x.toNat % m) % m)), (.swap fn off wide x, some (x.toNat % m)),
         (.cas fn off wide cmp x, if old = cmp.toNat % m then some (x.toNat % m) else none)],
       Completes q.1 s fun t =>
         let u := match q.2 with
           | none => s
           | some v => performNat s p.pa n v
         t = { u with fns := t.fns } ∧ (fnOf t fn.toNat).answer = toBytes n old ∧ (fnOf t fn.toNat).abort = false)) ∧
  (∀ (s : State) (fn : BitVec 2) (asn : BitVec 16),
    let h := fnOf s fn.toNat
    (Completes (.shoot fn asn) s fun t =>
      fnOf t fn.toNat = { h with shoot := some asn, shootdone := false } ∧ t = { s with fns := t.fns }) ∧
    (h.shoot = some asn → Completes (.shootdownDone fn) s fun t =>
      fnOf t fn.toNat = { h with shoot := none, shootdone := true } ∧ t = { s with fns := t.fns })) ∧
  (∀ (s : State) (fn : BitVec 2) (part : Nat) (v : BitVec 64) (off : BitVec 22), fnPart s fn.toNat = some part →
    (off.toNat % 8 ≠ 0 → Completes (.registerWrite fn off v) s fun t => t = { s with errcnt := s.errcnt + 1 }) ∧
    (off = 0x1000 → Completes (.registerWrite fn off v) s fun t =>
      fnOf t fn.toNat = { fnOf s fn.toNat with wbbase := v } ∧ t = { s with fns := t.fns }) ∧
    (off = 0x1008 → Completes (.registerWrite fn off v) s fun t =>
      fnOf t fn.toNat = { fnOf s fn.toNat with wbasn := v.setWidth 16 } ∧ t = { s with fns := t.fns }))

/-- The foreman mailbox: the request at its head is performed by its OP, with its arguments in range and its reserved bits 0,
and one reply is written; a request that is refused has no effect (R355, R366, R368, R370, R383; the arguments' ranges
and the statuses that R366 leaves open, log 59). The reply echoes OP and SEQ, and holds STATUS, DETAIL and the results
(R366). A reserved bit that is not 0, an argument out of range, and a request on the package from another partition are
answered with STATUS 1; an object is refused with STATUS 3 and the DETAIL of R384. A request waits as the slot that it
stands in, not as the mailbox (R366). A slot with a reserved header bit, or with an uncorrectable word, is consumed, with
a record to the function's ring (R188, R304; the model's choice, logs 49 and 98). A loaded object's text, data and
spawn-tree cells take pages of their own, the data at a multiple of DATAALIGN, in pages of the address space that are not
mapped (R380, R383); relocations add the load address of their section (R382); each launch record gets the region and a
cell of its own, and they are enqueued in object order (R380, R383). Where there is no room, or no tables to enter pages
in, the request is refused with STATUS 1, which is the model's choice (log 18). -/
def Obligations.MailboxEvents : Prop :=
  (∀ (s : State) (fn : BitVec 2) (m : Request), mailAt s fn.toNat = .request m → m.fn = fn.toNat → m.reservedOk = true →
    let a := m.arg
    (m.op = 1 → ∀ u st d r, loadRequest s m = .reply u st d r →
      Completes (.mailboxLoad fn) s fun t => t = finishMail u m st d r) ∧
    (m.op = 2 → ∀ pa rest, regionPath s m.part m.h.wbasn.toNat false (w64 (a 1)) = some (pa :: rest) →
      Completes (.mailboxTear fn) s fun t =>
        t = finishMail (performNat s (pa + 0x88) 8 (readNat s (pa + 0x88) 8 ||| 4)) m 0 0 []) ∧
    (m.op = 3 → m.part = 0 → 40 ≤ a 1 → a 1 ≤ 132 → Completes (.mailboxLimit fn) s fun t =>
      ∃ u, exec (.fwlimit 0 (BitVec.ofNat 8 (a 1))) s = .next u ∧ t = finishMail u m 0 0 []) ∧
    (m.op = 4 → a 1 < 96 → partOfDie s (a 1 / 24) = m.part → a 2 ≤ 3 → m.waits = false → s.power.moving = [] →
      (clusterEmpty s (a 1) = true → Completes (.mailboxPool fn) s fun t =>
        t = finishMail (setPool s (a 1) (BitVec.ofNat 2 (a 2))) m 0 0 []) ∧
      (clusterEmpty s (a 1) = false → Completes (.mailboxPool fn) s fun t =>
        t.power.moving = [(a 1, BitVec.ofNat 2 (a 2), some fn)] ∧ (fnOf t fn.toNat).mbwait = some (m.cb, m.cons) ∧
        t = { s with power := t.power, fns := t.fns })) ∧
    (m.op = 5 → a 1 ≤ 1 → Completes (.mailboxStrict fn) s fun t => ∃ x : BitVec 4,
      t = finishMail { s with strict := x } m 0 0 [] ∧
      ∀ k, k < 4 → x.getLsbD k = if k = m.part then a 1 == 1 else s.strict.getLsbD k) ∧
    (m.op = 6 → m.part = 0 → ∀ bs, hostBytes s 0 m.h (a 1) 0x500 = .ok bs →
      (∀ b, enrol s.boot (keyRecord bs) = some b → Completes (.mailboxEnrol fn) s fun t =>
        t = finishMail { s with boot := b } m 0 0 []) ∧
      (enrol s.boot (keyRecord bs) = none → Completes (.mailboxEnrol fn) s fun t => t = finishMail s m 3 0 [])) ∧
    (m.op = 7 → m.part = 0 → a 1 ≤ s.boot.fusecnt.toNat → a 1 ≤ 256 → Completes (.mailboxFuse fn) s fun t =>
      t = finishMail s m 0 0 []) ∧
    (m.op = 7 → m.part = 0 → s.boot.fusecnt.toNat < a 1 → a 1 ≤ 256 → m.waits = false →
      Completes (.mailboxFuse fn) s fun t => ∃ u, exec (.fusereq (BitVec.ofNat 9 (a 1))) s = .next u ∧
        (fnOf t fn.toNat).mbwait = some (m.cb, m.cons) ∧ t = { u with fns := t.fns }) ∧
    (m.op = 8 → m.part = 0 → a 1 < 256 → a 2 < 2 ^ 18 → Completes (.mailboxRoute fn) s fun t => ∃ r,
      t = finishMail { s with routes := r } m 0 0 [] ∧ (look 0 r (a 1)).toNat = a 2 ∧
      ∀ k, k ≠ a 1 → look 0 r k = look 0 s.routes k)) ∧
  (∀ (s : State) (fn : BitVec 2) (m : Request), mailAt s fn.toNat = .request m →
    let a := m.arg
    let refused (i : Instr) : Prop := exec i s = .next (finishMail s m 1 0 [])
    (m.reservedOk = true ↔ (∀ k, 4 ≤ k → k < 8 → m.bs.getD k 0 = 0) ∧
      ∀ k, 8 + 8 * (if m.op = 1 then 3 else if m.op = 4 ∨ m.op = 8 then 2 else 1) ≤ k → m.bs.getD k 0 = 0) ∧
    (∀ e ∈ [(1, Instr.mailboxLoad fn), (2, .mailboxTear fn), (3, .mailboxLimit fn), (4, .mailboxPool fn),
        (5, .mailboxStrict fn), (6, .mailboxEnrol fn), (7, .mailboxFuse fn), (8, .mailboxRoute fn)],
      m.op = e.1 → m.reservedOk = false → refused e.2) ∧
    (m.op = 1 → m.reservedOk = true → regionPath s m.part m.h.wbasn.toNat false (w64 (a 3)) = none →
      refused (.mailboxLoad fn)) ∧
    (m.op = 2 → regionPath s m.part m.h.wbasn.toNat false (w64 (a 1)) = none → refused (.mailboxTear fn)) ∧
    (m.op = 3 → m.part ≠ 0 ∨ a 1 < 40 ∨ 132 < a 1 → refused (.mailboxLimit fn)) ∧
    (m.op = 4 → 96 ≤ a 1 ∨ partOfDie s (a 1 / 24) ≠ m.part ∨ 3 < a 2 → refused (.mailboxPool fn)) ∧
    (m.op = 5 → 1 < a 1 → refused (.mailboxStrict fn)) ∧
    (m.op = 6 → m.part ≠ 0 ∨ (∃ e, hostBytes s m.part m.h (a 1) 0x500 = .error e) → refused (.mailboxEnrol fn)) ∧
    (m.op = 7 → m.part ≠ 0 ∨ 256 < a 1 → refused (.mailboxFuse fn)) ∧
    (m.op = 8 → m.part ≠ 0 ∨ 256 ≤ a 1 ∨ 2 ^ 18 ≤ a 2 → refused (.mailboxRoute fn)) ∧
    (∀ pa rest obj d, m.op = 1 → m.reservedOk = true →
      regionPath s m.part m.h.wbasn.toNat false (w64 (a 3)) = some (pa :: rest) →
      hostBytes s m.part m.h (a 1) (a 2) = .ok obj → 128 ≤ obj.length → objRefused s (objHead obj) obj = some d →
      Completes (.mailboxLoad fn) s fun t => ∃ r : Record, r.path = pa :: rest ∧
        t = finishMail (regionFault s r { cause := .codeRefused, detail := d, obj := w64 (a 1) }) m 3 d [])) ∧
  (∀ (s : State) (fn : BitVec 2) (m : Request), mailAt s fn.toNat = .request m →
    (m.waits = true ↔ m.h.mbwait = some (m.cb, m.cons)) ∧ m.h = fnOf s fn.toNat) ∧
  (∀ (s : State) (fn : BitVec 2) (part cb cb2 : Nat) (r q : Ring),
    let h := fnOf s fn.toNat
    let slot := slotAt s part h r r.cons
    let spoiled := slotSpoiled s part h r r.cons
    fnPart s fn.toNat = some part → h.mben = true → h.mbstop = false → fready s part = true →
    hostRing s part h h.reqbase = some (cb, r) → hostRing s part h h.rspbase = some (cb2, q) → r.cons ≠ h.reqkick.toNat →
    q.full = false →
    (slot = .full → spoiled = false → mailAt s fn.toNat = .request
      ⟨fn.toNat, part, h, cb, r.cons, w64 (r.slot r.cons + 8), slotPayload s part h r r.cons⟩) ∧
    ∀ why, (slot = .full ∨ slot = .bad) ∧ spoiled = true ∧ why = .eccUncorr ∨ slot = .bad ∧ spoiled = false ∧ why = .illegal →
      ∀ i ∈ [Instr.mailboxLoad fn, .mailboxTear fn, .mailboxLimit fn, .mailboxPool fn, .mailboxStrict fn, .mailboxEnrol fn,
        .mailboxFuse fn, .mailboxRoute fn, .mailboxUnknownOp fn],
        exec i s = .next (fnFault (performNat s (cb + 24) 4 ((r.cons + 1) % 2 ^ 32)) part h { cause := why })) ∧
  (∀ (s : State) (m : Request) (o : ObjHead) (obj : List Byte) (asn : Nat) (y : Layout),
    let region := w64 (m.arg 3)
    let out := relocateAll o y.text.base y.data.base obj
    let space (n : Nat) : Nat := (n + 4095) / 4096
    (layoutOf s m.part asn region o = none → loadObject s m o obj asn = .reply s 1 0 []) ∧
    (layoutOf s m.part asn region o = some y →
      y.text.base % 4096 = 0 ∧ y.data.base % 4096 = 0 ∧ y.cells.base % 4096 = 0 ∧ y.data.base % max 1 o.align = 0 ∧
      y.text.pages = space o.textsz ∧ y.data.pages = space o.datasz ∧ y.cells.pages = space (16 * o.nlaunch) ∧
      (∀ a b : Span, (a, b) ∈ [(y.text, y.data), (y.text, y.cells), (y.data, y.cells)] →
        a.base + 4096 * a.pages ≤ b.base ∨ b.base + 4096 * b.pages ≤ a.base) ∧
      (∀ a ∈ [y.text, y.data, y.cells], a.base + 4096 * a.pages ≤ 2 ^ 57 ∧
        ∀ i, i < a.pages → unmapped s (a.base + 4096 * i) levels (rootOf s m.part asn) = true ∧
          pubAt s m.part asn (a.base + 4096 * i) = none) ∧
      (placeObject s m.part asn y o out = none → loadObject s m o obj asn = .reply s 1 0 []) ∧
      (∀ u, placeObject s m.part asn y o out = some u → loadObject s m o obj asn = .reply
        ((List.range o.nlaunch).foldl (fun s k => hostEnqueue s m.part m.fn (w64 (m.arg 1 + o.launchOff + 64 * k))
          (launchBytes o out region y.cells.base k))
          { u with
            loads := u.loads + 1
            objects := u.objects ++
              [⟨w64 (m.arg 1), region, asn, m.part, o.secv, w64 y.text.base, o.textsz, w64 y.data.base⟩] })
        0 0 (toBytes 8 y.text.base ++ toBytes 8 y.data.base)))) ∧
  (∀ (o : ObjHead) (obj : List Byte) (region : Word) (cells k : Nat), o.launchOff + 64 * (k + 1) ≤ obj.length →
    let r := launchBytes o obj region cells k
    r.length = 64 ∧ (∀ x, x < 64 → x / 8 ≠ 3 → x / 8 ≠ 5 → r.getD x 0 = obj.getD (o.launchOff + 64 * k + x) 0) ∧
    (r.drop 0x18).take 8 = toBytes 8 (cells + 16 * k) ∧ (r.drop 0x28).take 8 = toBytes 8 region.toNat) ∧
  (∀ (o : ObjHead) (text data : Nat) (obj : List Byte) (k : Nat),
    let num (bs : List Byte) (a n : Nat) : Nat := ofBytes ((bs.drop a).take n)
    let r := num obj (o.relocOff + 8 * k) 8
    let at_ := o.dataOff + bits r 0 40
    let t := relocate1 o text data obj k
    at_ + 8 ≤ obj.length → t.length = obj.length ∧
      num t at_ 8 = (num obj at_ 8 + if bit r 63 then text else data) % 2 ^ 64 ∧
      ∀ x, x < at_ ∨ at_ + 8 ≤ x → t.getD x 0 = obj.getD x 0) ∧
  (∀ (s : State) (obj : List Byte), 128 ≤ obj.length →
    let num (off n : Nat) : Nat := ofBytes ((obj.drop off).take n)
    let up (x : Nat) : Nat := (x + 63) / 64 * 64
    let relocs := up (up (128 + num 8 8) + num 0x10 8)
    objRefused s (objHead obj) obj =
      if num 0 4 ≠ 0x4F514741 ∨ ((obj.drop 0x38).take 0x48).any (· != 0) = true ∨
          ((List.range (num 0x30 4)).any fun k => bits (num (relocs + 8 * k) 8) 40 23 != 0) = true then some 1
      else if num 5 1 ≠ 1 ∨ num 4 1 ≠ 0 then some 2
      else if num 6 2 < s.boot.secver.toNat then some 3 else none) ∧
  (∀ (s : State) (m : Request) (status detail : Nat) (res : List Byte) (p q : Place) (r : Ring),
    let s1 := performNat s (m.cb + 24) 4 ((m.cons + 1) % 2 ^ 32)
    let cb := m.h.rspbase.toNat
    s.lamps = [] → s.redq = [] → NoneWaits s → cb % 32 = 0 → hostXlate s1 m.part m.h needRW cb = .ok p → ringAt s1 p.pa = some r →
    r.full = false → hostXlate s1 m.part m.h needW (r.slot r.prod) = .ok q → m.bs.length = 64 → res.length ≤ 56 →
    m.fn < 4 →
    (∀ k, k < 72 → inRom s (q.pa + k) = false) → (∀ k, k < 4 → inRom s (p.pa + 16 + k) = false) →
    (∀ k, k < 4 → inRom s (m.cb + 24 + k) = false) → (q.pa + 72 ≤ p.pa + 16 ∨ p.pa + 20 ≤ q.pa) →
    (q.pa + 72 ≤ m.cb + 24 ∨ m.cb + 28 ≤ q.pa) → (p.pa + 20 ≤ m.cb + 24 ∨ m.cb + 28 ≤ p.pa + 16) →
    let t := finishMail s m status detail res
    let at_ (off n : Nat) : Nat := readNat t (q.pa + off) n
    at_ 8 2 = m.op ∧ at_ 10 2 = ofBytes ((m.bs.drop 2).take 2) ∧ at_ 12 2 = status % 2 ^ 16 ∧ at_ 14 2 = detail % 2 ^ 16 ∧
    (∀ k, k < 56 → at_ (16 + k) 1 = (res.getD k 0).toNat) ∧
    at_ 0 8 = (if bit r.prod r.n then 0x80 else 0) ∧ readNat t (p.pa + 16) 4 = (r.prod + 1) % 2 ^ 32 ∧
    readNat t (m.cb + 24) 4 = (m.cons + 1) % 2 ^ 32 ∧ (fnOf t m.fn).mbwait = none ∧
    (∀ x, (x < q.pa ∨ q.pa + 72 ≤ x) → (x < p.pa + 16 ∨ p.pa + 20 ≤ x) → (x < m.cb + 24 ∨ m.cb + 28 ≤ x) →
      readByte t x = readByte s x) ∧ t = { s with mem := t.mem, poison := t.poison, fns := t.fns }) ∧
  (∀ (s : State) (fn : BitVec 2) (m : Request), mailAt s fn.toNat = .request m → (m.op = 0 ∨ 9 ≤ m.op) →
    Completes (.mailboxUnknownOp fn) s fun t => t = finishMail s m 2 0 []) ∧
  (∀ (s : State) (fn : BitVec 2) (v : BitVec 32) (on : BitVec 1),
    let h := fnOf s fn.toNat
    (Completes (.reqkick fn v) s fun t => fnOf t fn.toNat =
      { h with reqkick := if (v - h.reqkick).toNat < 2 ^ 31 then v else h.reqkick } ∧ t = { s with fns := t.fns }) ∧
    (Completes (.mben fn on) s fun t => fnOf t fn.toNat =
      { h with mben := on == 1, mbstop := h.mbstop && on == 0 } ∧ t = { s with fns := t.fns }))

/-- Reset, fuses, measurement and training: a release of reset starts the part anew, but for what the fuses hold; loss of
power stops every crew; a fuse is blown one at a time and the counter in force takes the target with the last; MEASGO
extends its register by SHA-256; the overlay of a die is removed; a training run is started by GO and ends with its
result (R362, R364, R370, R371; what else a reset does, log 16). A run that fails, or has had its 50 ms, leaves FSTAT 15
(R371). An image is refused by the first of the six checks that it fails, and an accepted one is measured before its
entry (R367, R369); an owner key record blows the fuses of its action where it is accepted (R368). The master's stages 1,
2 and 4 are the loader image brought into its vault, the loader verified there, and the main image brought from the
serial flash, its LENGTH bytes from byte 0x400 placed at LOAD, and verified; an accepted image's program starts ENTRY
bytes into its body. The model's own choices: a byte that should be 0 and is not fails check 1, and that such a stage is
one step of the machine, made when the master reports the stage in FSTAT (log 79); TRNCTL keeps its value after a run
(log 61); FSTAT is 15 in every partition after a run that fails (log 80); byte k of a digest is byte k of its register
(log 21); what a reset and a loss of power keep (log 60). -/
def Obligations.BringUpEvents : Prop :=
  (∀ s : State, Completes .resetRelease s fun t =>
    t = { State.reset with
      inputs := s.inputs
      boot := { State.reset.boot with
        fusecnt := s.boot.fusecnt, secver := s.boot.fusecnt.setWidth 16, keyhash := s.boot.keyhash
        keyset := s.boot.keyset, keyrev := s.boot.keyrev, vndoff := s.boot.vndoff
        loader := s.boot.loader, main := s.boot.main } }) ∧
  (∀ s : State, Completes .lossOfPower s fun t => (∀ c ∈ t.allCrews, c.status = .halted) ∧
    t.boot.fusecnt = s.boot.fusecnt ∧ t.boot.fuseGoal = none ∧ t.mem = State.reset.mem) ∧
  (∀ (s : State) (die : BitVec 2), Completes (.romovlClear die) s fun t =>
    (∀ k, k < 4 → t.boot.romovl.getLsbD k = if k = die.toNat then false else s.boot.romovl.getLsbD k) ∧
    t = { s with boot := { s.boot with romovl := t.boot.romovl } }) ∧
  (∀ (s : State) (die : BitVec 2) (i : BitVec 3), Completes (.measgo die i) s fun t =>
    t.boot.meas.getD i.toNat 0 =
      digestReg (sha256 (toBytes 32 (s.boot.meas.getD i.toNat 0).toNat ++ toBytes 32 s.boot.measin.toNat)) ∧
    (∀ k, k ≠ i.toNat → t.boot.meas.getD k 0 = s.boot.meas.getD k 0) ∧
    t = { s with boot := { s.boot with meas := t.boot.meas } }) ∧
  (∀ (s : State) (v g : BitVec 9),
    (v.toNat ≤ s.boot.fusecnt.toNat → Completes (.fusereq v) s fun t => t = s) ∧
    (s.boot.fusecnt.toNat < v.toNat → v.toNat ≤ 256 → s.boot.fuseGoal = none → Completes (.fusereq v) s fun t =>
      t = { s with boot := { s.boot with fuseGoal := some v } }) ∧
    (s.boot.fuseGoal = some g → s.boot.fusecnt.toNat + 1 < g.toNat → Completes .fuseBlown s fun t =>
      t = { s with boot := { s.boot with fusecnt := s.boot.fusecnt + 1 } }) ∧
    (s.boot.fuseGoal = some g → s.boot.fusecnt.toNat + 1 = g.toNat → Completes .fuseBlown s fun t =>
      t = { s with boot := { s.boot with fusecnt := g, fuseGoal := none, secver := g.setWidth 16 } })) ∧
  (∀ (s : State) (k : BitVec 3) (v : BitVec 64) (fail : BitVec 1) (phase : BitVec 2) (spares : BitVec 4) (eyes : BitVec 16)
      (lanemap : BitVec 64),
    let c := s.ctls[k.toNat]'(by omega)
    (c.running = true → Completes (.trnctl k v) s fun t => t = s) ∧
    (c.running = false → Completes (.trnctl k v) s fun t =>
      (t.ctls[k.toNat]'(by omega)) =
        { c with trnctl := v &&& 0x13F, running := v.getLsbD 8, since := s.timens.toNat } ∧ t = { s with ctls := t.ctls }) ∧
    (c.running = false → Completes (.hbmTrainingDone k fail phase spares eyes lanemap) s fun t => t = s) ∧
    (c.running = true → Completes (.hbmTrainingDone k fail phase spares eyes lanemap) s fun t =>
      let d := t.ctls[k.toNat]'(by omega)
      let failed := fail = 1 ∨ c.since + 50000000 ≤ s.timens.toNat
      d.running = false ∧ d.trnctl = c.trnctl ∧ (¬ failed → d.trnstat.getLsbD 0 = true ∧ t.boot = s.boot) ∧
      (failed → d.trnstat.getLsbD 1 = true ∧ bits d.trnstat.toNat 2 2 = phase.toNat ∧
        (∀ k, k < 4 → t.boot.fstat.getD k 0 = 15) ∧ t.boot = { s.boot with fstat := t.boot.fstat }) ∧
      (c.trnctl.getLsbD 5 = true → bits d.trnstat.toNat 4 4 = spares.toNat) ∧
      (c.trnctl.getLsbD 3 = true → bits d.trnstat.toNat 16 8 = eyes.toNat % 256) ∧
      (c.trnctl.getLsbD 4 = true → bits d.trnstat.toNat 24 8 = eyes.toNat / 256) ∧
      d.lanemap = (if c.trnctl.getLsbD 5 then lanemap else c.lanemap) ∧
      t = { s with ctls := t.ctls, boot := t.boot })) ∧
  (∀ (s : State) (stage meas : Nat), stage = 2 ∨ stage = 4 → meas < 8 → (stageBytes s stage 0 0x400).length = 0x400 →
    let b := s.boot
    let head := stageBytes s stage 0 0x400
    let num (off n : Nat) : Nat := ofBytes ((head.drop off).take n)
    let part_ (off n : Nat) : List Byte := (head.drop off).take n
    let digest (bs : List Byte) : BitVec 256 := BitVec.ofNat 256 (ofBytes (sha256 bs))
    let slot := num 8 1
    let length := num 0x10 8
    let load := num 0x18 8
    let fits := decide (load + length ≤ 160 * 2 ^ 32) || (decide (2 ^ 51 ≤ load) && decide (load + length ≤ 2 ^ 52))
    let body := stageBytes s stage 0x400 length
    let loaded := if fits then performGlobal s load body else s
    let seen := if fits then readBytes loaded load length else []
    let checks : List (Bool × Nat) := [
      (num 0 4 != 0x48574647 || num 5 1 != 1 || num 4 1 != 0 ||
        ((part_ 9 7 ++ part_ 0x48 0x38 ++ part_ 0x380 0x80).any (· != 0)), 1),
      (decide (num 6 2 < b.secver.toNat), 2),
      (decide (4 ≤ slot) || b.keyrev.getLsbD slot || (slot == 0 && b.vndoff), 3),
      (digest (part_ 0x80 384) != b.keyhash.getD slot 0, 4),
      (!rsaPssOk (part_ 0x80 384) (part_ 0x200 384) (part_ 0 0x80), 5),
      (sha256 seen != part_ 0x28 32 || !fits || body.length != length, 6)]
    let failed := (checks.find? (·.1)).map (·.2)
    let t := takeImage s stage meas
    stageRefused s stage = failed ∧
    (∀ k, failed = some k → (∀ i, i < 4 → t.boot.fstat.getD i 0 = if i = 0 then 15 else b.fstat.getD i 0) ∧
      t = { (if k = 6 then loaded else s) with boot := { b with fstat := t.boot.fstat } }) ∧
    (failed = none →
      let start (c : Crew) : Crew := if c.privl = 2 ∧ c.core % 96 = 0 ∧ c.status ≠ .halted ∧ c.status ≠ .exited then
        { c with pc := normPc (w64 (load + num 0x20 8)), left := 0, blk := none, woken := none, status := .running } else c
      t.boot.measin = digest (head ++ seen) ∧
      t.boot.meas.getD meas 0 = digest (toBytes 32 (b.meas.getD meas 0).toNat ++ toBytes 32 t.boot.measin.toNat) ∧
      (∀ k, k ≠ meas → t.boot.meas.getD k 0 = b.meas.getD k 0) ∧
      t = { loaded with
        boot := { b with measin := t.boot.measin, meas := t.boot.meas }
        c := start loaded.c, crews := loaded.crews.map start })) ∧
  (∀ (before s : State) (off n : Nat),
    stageBytes s 4 off n = (s.boot.main.drop off).take n ∧
    stageBytes s 2 off n = vaultBytes s off (min n (2 ^ 22 - off)) ∧
    (96 ≤ before.c.core ∨ before.boot.fstat.getD 0 0 = s.boot.fstat.getD 0 0 → bootStage before s = s) ∧
    (before.c.core < 96 → before.boot.fstat.getD 0 0 ≠ s.boot.fstat.getD 0 0 → bootStage before s =
      (match (s.boot.fstat.getD 0 0).toNat with
        | 1 => performWrite s ⟨true, 0, 0, s.boot.loader.take (2 ^ 22)⟩
        | 2 => takeImage s 2 0
        | 4 => takeImage s 4 1
        | _ => s))) ∧
  (∀ (b : Boot) (r : KeyRecord),
    let live (c : Boot) (n : Nat) : Bool := decide (1 ≤ n) && decide (n ≤ 3) && c.keyset.getLsbD n && !c.keyrev.getLsbD n
    let digest (bs : List Byte) : BitVec 256 := BitVec.ofNat 256 (ofBytes (sha256 bs))
    let ok := r.shape = true ∧ 1 ≤ r.slot ∧ r.slot ≤ 3 ∧ r.action ≤ 2 ∧ r.signer ≤ 3 ∧
      (r.action = 0 ∨ r.modulus.all (· == 0) = true) ∧ (r.devid = 0 ∨ w64 r.devid = Config.deviceNumber) ∧
      ((r.signer = 0 ∧ r.action = 0 ∧ (∀ n, 1 ≤ n → n ≤ 3 → b.keyset.getLsbD n = false) ∧ Config.enrolStrap = true ∧
          r.signmod = r.modulus) ∨ (live b r.signer = true ∧ digest r.signmod = b.keyhash.getD r.signer 0)) ∧
      rsaPssOk r.signmod r.sig r.body = true
    (¬ ok → enrol b r = none) ∧
    (ok → r.action = 0 → b.keyset.getLsbD r.slot = true → enrol b r = none) ∧
    (ok → r.action = 0 → b.keyset.getLsbD r.slot = false → ∃ c, enrol b r = some c ∧
      c.keyhash.getD r.slot 0 = digest r.modulus ∧ (∀ k, k ≠ r.slot → c.keyhash.getD k 0 = b.keyhash.getD k 0) ∧
      (∀ k, k < 4 → c.keyset.getLsbD k = (decide (k = r.slot) || b.keyset.getLsbD k)) ∧
      c = { b with keyhash := c.keyhash, keyset := c.keyset }) ∧
    (ok → r.action = 1 → ∀ c : Boot, c = { b with keyrev := c.keyrev } →
      (∀ k, k < 4 → c.keyrev.getLsbD k = (decide (k = r.slot) || b.keyrev.getLsbD k)) →
      enrol b r = if b.vndoff && !(live c 1 || live c 2 || live c 3) then none else some c) ∧
    (ok → r.action = 2 → enrol b r = some { b with vndoff := true }))

/-- The Drift ports: training goes from state to state as R372 says, each event from the one state that it leaves, and
nothing else is changed; a port that is UP accepts a flit in order and acknowledges it, and answers one whose CRC fails
negatively; what is asked for again is sent again, eight times before the port retrains (R334, R372). A port with EN 1 that is
DOWN goes to DETECT, and a write of EN 0 alone moves no port (R372; log 58). An acknowledgement releases the replay buffer
up to its flit (R334); an accepted flit on VC 2 with this member's GID is the Pacer message that it carries (R333, R345). The
correction leaves a flit whose parity holds, and finds the one such flit within four bytes of a damaged one (R333; log 17). -/
def Obligations.DriftEvents : Prop :=
  (∀ (s : State) (p : BitVec 5) (on : BitVec 1) (peer : BitVec 8) (gid : BitVec 16), p.toNat < 18 →
    let q := s.ports.getD p.toNat Port.reset
    let becomes (r : Port) (t : State) : Prop :=
      t.ports.getD p.toNat Port.reset = r ∧ (∀ k, k ≠ p.toNat → t.ports.getD k Port.reset = s.ports.getD k Port.reset) ∧
      t = { s with ports := t.ports }
    (Completes (.portEn p on) s (becomes { q with
      en := on == 1, state := if on = 1 ∧ q.state = 0 then 1 else q.state
      since := if on = 1 ∧ q.state = 0 then s.timens.toNat else q.since })) ∧
    (∀ e ∈ [(Instr.signalDetect p, (1 : BitVec 3), (2 : BitVec 3)), (.detectTimeout p, 1, 0), (.equaliseDone p, 2, 3),
        (.alignLock p, 3, 4)],
      Completes e.1 s (becomes (if q.state = e.2.1 then { q with state := e.2.2 } else q))) ∧
    (q.state = 4 → gid = s.pacer.gid → Completes (.identExchange p peer gid) s
      (becomes { q with state := 5, peer := peer, retraining := false })) ∧
    (q.state = 4 → gid ≠ s.pacer.gid → Completes (.identExchange p peer gid) s
      (becomes { q with state := 0, retraining := false })) ∧
    (q.state = 5 → Completes (.portRetrain p) s
      (becomes { q with state := 2, retraining := true, retrains := q.retrains + 1, tries := 0, since := s.timens.toNat })) ∧
    (q.state ≠ 5 → Completes (.portRetrain p) s (becomes q)) ∧
    (q.retraining = true → q.state ≠ 5 → Completes (.retrainTimeout p) s (becomes { q with state := 0, retraining := false })) ∧
    (∀ (raw : List (BitVec 8)),
      let flit := fecFix raw
      let word := BitVec.ofNat 16 (ofBytes ((flit.drop 2).take 2))
      let seq : BitVec 12 := (word >>> 2).setWidth 12
      (q.state ≠ 5 → Completes (.flitReceive p raw) s fun t => t = s) ∧
      (q.state = 5 → crcHolds flit = false → Completes (.flitReceive p raw) s
        (becomes { q with answer := some (true, q.recvSeq) })) ∧
      (∀ (old more : List (BitVec 12 × List Byte)) (x : List Byte), q.state = 5 → crcHolds flit = true →
        word.toNat % 4 = 1 → q.buffer = old ++ (seq, x) :: more → (∀ y ∈ old, y.1 ≠ seq) →
        Completes (.flitReceive p raw) s (becomes { q with buffer := more, tries := 0 })) ∧
      (q.state = 5 → crcHolds flit = true → word.toNat % 4 = 1 → (∀ y ∈ q.buffer, y.1 ≠ seq) →
        Completes (.flitReceive p raw) s (becomes q)) ∧
      (q.state = 5 → crcHolds flit = true → word.toNat % 4 = 2 → seq = q.recvSeq →
        let num (off n : Nat) : Nat := ofBytes ((flit.drop (16 + off)).take n)
        let src := flit.getD 1 0
        let q1 := { q with recvSeq := q.recvSeq + 1, answer := some (false, seq) }
        let s1 := { s with ports := s.ports.setIfInBounds p.toNat q1 }
        let lap : BitVec 64 := BitVec.ofNat 64 (num 8 8)
        let t0 : BitVec 64 := BitVec.ofNat 64 (num 16 8)
        let c : BitVec 8 := BitVec.ofNat 8 (num 24 1)
        let mask : BitVec 256 := BitVec.ofNat 256 (num 32 32)
        (BitVec.ofNat 16 (ofBytes ((flit.drop 4).take 2)) ≠ s.pacer.gid → Completes (.flitReceive p raw) s fun t => t = s1) ∧
        (BitVec.ofNat 16 (ofBytes ((flit.drop 4).take 2)) = s.pacer.gid →
          ∀ e ∈ [(0, Instr.heart src lap c), (1, .lower src c t0), (2, .ceil lap c t0 mask), (3, .breach src c),
              (4, .propose src lap c), (5, .grant src lap), (6, .deny src lap c), (8, .leave src lap),
              (9, .view src lap c t0 mask)],
            num 0 1 = e.1 → Completes (.flitReceive p raw) s fun t => exec e.2 s1 = .next t) ∧
        (BitVec.ofNat 16 (ofBytes ((flit.drop 4).take 2)) = s.pacer.gid → num 0 1 = 7 → mask = 0 →
          Completes (.flitReceive p raw) s fun t => exec (.joinMsg src c) s1 = .next t) ∧
        (BitVec.ofNat 16 (ofBytes ((flit.drop 4).take 2)) = s.pacer.gid → 10 ≤ num 0 1 →
          Completes (.flitReceive p raw) s fun t => t = { s1 with errcnt := s.errcnt + 1 })) ∧
      (q.state = 5 → crcHolds flit = true → word.toNat % 4 = 0 → seq = q.recvSeq → Completes (.flitReceive p raw) s
        (becomes { q with recvSeq := q.recvSeq + 1, answer := some (false, seq) })) ∧
      (q.state = 5 → crcHolds flit = true → word.toNat % 4 ≠ 1 → seq ≠ q.recvSeq →
        Completes (.flitReceive p raw) s fun t => t = s)) ∧
    (∀ (seq : BitVec 12) (old more : List (BitVec 12 × List Byte)) (x : List Byte),
      q.buffer = old ++ (seq, x) :: more → (∀ y ∈ old, y.1 ≠ seq) →
      (q.asked ≠ seq → Completes (.flitNak p seq) s
        (becomes { q with buffer := (seq, x) :: more, asked := seq, tries := 1, replays := q.replays + 1 })) ∧
      (q.asked = seq → q.tries < 8 → Completes (.flitNak p seq) s
        (becomes { q with buffer := (seq, x) :: more, tries := q.tries + 1, replays := q.replays + 1 })) ∧
      (q.asked = seq → 8 ≤ q.tries → q.state = 5 → Completes (.flitNak p seq) s
        (becomes { q with buffer := (seq, x) :: more, state := 2, retraining := true, retrains := q.retrains + 1, tries := 0
                          since := s.timens.toNat }))) ∧
    (∀ seq : BitVec 12, (∀ y ∈ q.buffer, y.1 ≠ seq) → Completes (.flitNak p seq) s (becomes q))) ∧
  (∀ flit : List Byte,
    let parity (x : List Byte) : Prop := x.length = 256 ∧ BitVec.ofNat 64 (ofBytes (x.drop 248)) = Config.flitParity (x.take 248)
    let apart (x : List Byte) : Nat := ((List.range 256).filter fun k => x.getD k 0 != flit.getD k 0).length
    (parity flit → fecFix flit = flit) ∧
    (∀ x, flit.length = 256 → parity x → apart x ≤ 4 → (∀ y, parity y → apart y ≤ 4 → y = x) → fecFix flit = x) ∧
    (crcHolds flit = true ↔ flit.length = 256 ∧
      BitVec.ofNat 64 (ofBytes ((flit.drop 240).take 8)) = Config.flitCrc (flit.take 240)))

/-! ### Reset and the invariant -/

/-- The state that R362 gives at the release of reset: on each die the first core's crew at PRIVL 2 and bank select 0 with
the pc at the die's HBM base, the mask ROM over the first 64 KiB there, no other crew, and no record, wait or engine
command; the registers of R361, R364 and R308 that the statement lists at their reset values. The values that the manual
does not give are the model's (logs 14 to 16). -/
def Obligations.ResetState : Prop :=
  let s := State.reset
  s.allCrews.length = 4 ∧
  (∀ c ∈ s.allCrews, ∃ die, die < 4 ∧ c.core = 96 * die ∧ c.privl = 2 ∧ c.bank = false ∧ c.status = .running ∧
    c.pc.toNat = 0x2800000000 * die ∧ c.left = 0 ∧ c.xsub = 32 ∧ c.fprm = 0 ∧ c.xstat = 0 ∧ c.stack = [] ∧
    (∀ r, getS c r = 0) ∧ (∀ f, flagCount c f = 0)) ∧
  (∀ die k, die < 4 → k < 65536 → readByte s (0x2800000000 * die + k) = Config.maskRom die k) ∧
  s.records = [] ∧ s.lamps = [] ∧ s.hoist = [] ∧ s.mx = [] ∧ s.timens = 0 ∧ s.boot.romovl = 15 ∧ s.boot.partcfg = 0 ∧
  s.boot.fready = 0 ∧ s.strict = 15 ∧ s.pacer.ceil = 40 ∧ s.pacer.fwlimit = 40 ∧ (viewMembers s.pacer.view).length = 1 ∧
  (∀ p : Fin 18, s.ports[p].state = 0 ∧ s.ports[p].en = false) ∧ s.tidy = true

/-- Memory, the vaults and the accumulator tiles keep their canonical form through every step, from every state that has
it: equal memories are equal data, and no step breaks that (the form is the model's own; MEMORY, log 5). -/
def Obligations.EveryStepKeepsTidy : Prop :=
  ∀ s t : State, s.tidy = true → step s = .next t → t.tidy = true

end
end

