-- ==== Sys2Proof/Laws/State.lean ====
section
/-!
SUPPORT. The named updates of the state, field by field: what each leaves as it stands, and what it sets.
-/

namespace Sys2Proof.Machine

/-! ### A word that has ended -/

@[simp] theorem done_g (s : State) : (done s).g = s.g := rfl
@[simp] theorem done_crews (s : State) : (done s).crews = s.crews := rfl
@[simp] theorem done_gals (s : State) : (done s).gals = s.gals := rfl
@[simp] theorem done_mem (s : State) : (done s).mem = s.mem := rfl
@[simp] theorem done_vault (s : State) : (done s).vault = s.vault := rfl
@[simp] theorem done_halves (s : State) : (done s).halves = s.halves := rfl
@[simp] theorem done_tiles (s : State) : (done s).tiles = s.tiles := rfl
@[simp] theorem done_badTiles (s : State) : (done s).badTiles = s.badTiles := rfl
@[simp] theorem done_poison (s : State) : (done s).poison = s.poison := rfl
@[simp] theorem done_badVault (s : State) : (done s).badVault = s.badVault := rfl
@[simp] theorem done_lamps (s : State) : (done s).lamps = s.lamps := rfl
@[simp] theorem done_filter (s : State) : (done s).filter = s.filter := rfl
@[simp] theorem done_lampSeq (s : State) : (done s).lampSeq = s.lampSeq := rfl
@[simp] theorem done_slow (s : State) : (done s).slow = s.slow := rfl
@[simp] theorem done_sweeps (s : State) : (done s).sweeps = s.sweeps := rfl
@[simp] theorem done_redq (s : State) : (done s).redq = s.redq := rfl
@[simp] theorem done_relays (s : State) : (done s).relays = s.relays := rfl
@[simp] theorem done_records (s : State) : (done s).records = s.records := rfl
@[simp] theorem done_regions (s : State) : (done s).regions = s.regions := rfl
@[simp] theorem done_forming (s : State) : (done s).forming = s.forming := rfl
@[simp] theorem done_spawnq (s : State) : (done s).spawnq = s.spawnq := rfl
@[simp] theorem done_pendFell (s : State) : (done s).pendFell = s.pendFell := rfl
@[simp] theorem done_freed (s : State) : (done s).freed = s.freed := rfl
@[simp] theorem done_arrivals (s : State) : (done s).arrivals = s.arrivals := rfl
@[simp] theorem done_ids (s : State) : (done s).ids = s.ids := rfl
@[simp] theorem done_hoist (s : State) : (done s).hoist = s.hoist := rfl
@[simp] theorem done_rings (s : State) : (done s).rings = s.rings := rfl
@[simp] theorem done_mx (s : State) : (done s).mx = s.mx := rfl
@[simp] theorem done_scales (s : State) : (done s).scales = s.scales := rfl
@[simp] theorem done_tokens (s : State) : (done s).tokens = s.tokens := rfl
@[simp] theorem done_pubs (s : State) : (done s).pubs = s.pubs := rfl
@[simp] theorem done_flips (s : State) : (done s).flips = s.flips := rfl
@[simp] theorem done_ctx (s : State) : (done s).ctx = s.ctx := rfl
@[simp] theorem done_saved (s : State) : (done s).saved = s.saved := rfl
@[simp] theorem done_colls (s : State) : (done s).colls = s.colls := rfl
@[simp] theorem done_collNotes (s : State) : (done s).collNotes = s.collNotes := rfl
@[simp] theorem done_tears (s : State) : (done s).tears = s.tears := rfl
@[simp] theorem done_objects (s : State) : (done s).objects = s.objects := rfl
@[simp] theorem done_loads (s : State) : (done s).loads = s.loads := rfl
@[simp] theorem done_fns (s : State) : (done s).fns = s.fns := rfl
@[simp] theorem done_errcnt (s : State) : (done s).errcnt = s.errcnt := rfl
@[simp] theorem done_corrected (s : State) : (done s).corrected = s.corrected := rfl
@[simp] theorem done_ports (s : State) : (done s).ports = s.ports := rfl
@[simp] theorem done_routes (s : State) : (done s).routes = s.routes := rfl
@[simp] theorem done_pacer (s : State) : (done s).pacer = s.pacer := rfl
@[simp] theorem done_power (s : State) : (done s).power = s.power := rfl
@[simp] theorem done_current (s : State) : (done s).current = s.current := rfl
@[simp] theorem done_heavy (s : State) : (done s).heavy = s.heavy := rfl
@[simp] theorem done_ctls (s : State) : (done s).ctls = s.ctls := rfl
@[simp] theorem done_boot (s : State) : (done s).boot = s.boot := rfl
@[simp] theorem done_strict (s : State) : (done s).strict = s.strict := rfl
@[simp] theorem done_timens (s : State) : (done s).timens = s.timens := rfl
@[simp] theorem done_sweepAt (s : State) : (done s).sweepAt = s.sweepAt := rfl
@[simp] theorem done_inputs (s : State) : (done s).inputs = s.inputs := rfl
@[simp] theorem done_turn (s : State) : (done s).turn = s.turn := rfl
@[simp] theorem done_lane (s : State) : (done s).lane = s.lane := rfl
@[simp] theorem done_bgTurn (s : State) : (done s).bgTurn = s.bgTurn := rfl
@[simp] theorem done_fresh (s : State) : (done s).fresh = s.fresh := rfl

@[simp] theorem done_c (s : State) : (done s).c = s.c.past := rfl

/-! ### A scalar result -/

@[simp] theorem doneS_g (s : State) (d : BitVec 6) (x : Word) : (doneS s d x).g = s.g := rfl
@[simp] theorem doneS_crews (s : State) (d : BitVec 6) (x : Word) : (doneS s d x).crews = s.crews := rfl
@[simp] theorem doneS_gals (s : State) (d : BitVec 6) (x : Word) : (doneS s d x).gals = s.gals := rfl
@[simp] theorem doneS_mem (s : State) (d : BitVec 6) (x : Word) : (doneS s d x).mem = s.mem := rfl
@[simp] theorem doneS_vault (s : State) (d : BitVec 6) (x : Word) : (doneS s d x).vault = s.vault := rfl
@[simp] theorem doneS_halves (s : State) (d : BitVec 6) (x : Word) : (doneS s d x).halves = s.halves := rfl
@[simp] theorem doneS_tiles (s : State) (d : BitVec 6) (x : Word) : (doneS s d x).tiles = s.tiles := rfl
@[simp] theorem doneS_badTiles (s : State) (d : BitVec 6) (x : Word) : (doneS s d x).badTiles = s.badTiles := rfl
@[simp] theorem doneS_poison (s : State) (d : BitVec 6) (x : Word) : (doneS s d x).poison = s.poison := rfl
@[simp] theorem doneS_badVault (s : State) (d : BitVec 6) (x : Word) : (doneS s d x).badVault = s.badVault := rfl
@[simp] theorem doneS_lamps (s : State) (d : BitVec 6) (x : Word) : (doneS s d x).lamps = s.lamps := rfl
@[simp] theorem doneS_filter (s : State) (d : BitVec 6) (x : Word) : (doneS s d x).filter = s.filter := rfl
@[simp] theorem doneS_lampSeq (s : State) (d : BitVec 6) (x : Word) : (doneS s d x).lampSeq = s.lampSeq := rfl
@[simp] theorem doneS_slow (s : State) (d : BitVec 6) (x : Word) : (doneS s d x).slow = s.slow := rfl
@[simp] theorem doneS_sweeps (s : State) (d : BitVec 6) (x : Word) : (doneS s d x).sweeps = s.sweeps := rfl
@[simp] theorem doneS_redq (s : State) (d : BitVec 6) (x : Word) : (doneS s d x).redq = s.redq := rfl
@[simp] theorem doneS_relays (s : State) (d : BitVec 6) (x : Word) : (doneS s d x).relays = s.relays := rfl
@[simp] theorem doneS_records (s : State) (d : BitVec 6) (x : Word) : (doneS s d x).records = s.records := rfl
@[simp] theorem doneS_regions (s : State) (d : BitVec 6) (x : Word) : (doneS s d x).regions = s.regions := rfl
@[simp] theorem doneS_forming (s : State) (d : BitVec 6) (x : Word) : (doneS s d x).forming = s.forming := rfl
@[simp] theorem doneS_spawnq (s : State) (d : BitVec 6) (x : Word) : (doneS s d x).spawnq = s.spawnq := rfl
@[simp] theorem doneS_pendFell (s : State) (d : BitVec 6) (x : Word) : (doneS s d x).pendFell = s.pendFell := rfl
@[simp] theorem doneS_freed (s : State) (d : BitVec 6) (x : Word) : (doneS s d x).freed = s.freed := rfl
@[simp] theorem doneS_arrivals (s : State) (d : BitVec 6) (x : Word) : (doneS s d x).arrivals = s.arrivals := rfl
@[simp] theorem doneS_ids (s : State) (d : BitVec 6) (x : Word) : (doneS s d x).ids = s.ids := rfl
@[simp] theorem doneS_hoist (s : State) (d : BitVec 6) (x : Word) : (doneS s d x).hoist = s.hoist := rfl
@[simp] theorem doneS_rings (s : State) (d : BitVec 6) (x : Word) : (doneS s d x).rings = s.rings := rfl
@[simp] theorem doneS_mx (s : State) (d : BitVec 6) (x : Word) : (doneS s d x).mx = s.mx := rfl
@[simp] theorem doneS_scales (s : State) (d : BitVec 6) (x : Word) : (doneS s d x).scales = s.scales := rfl
@[simp] theorem doneS_tokens (s : State) (d : BitVec 6) (x : Word) : (doneS s d x).tokens = s.tokens := rfl
@[simp] theorem doneS_pubs (s : State) (d : BitVec 6) (x : Word) : (doneS s d x).pubs = s.pubs := rfl
@[simp] theorem doneS_flips (s : State) (d : BitVec 6) (x : Word) : (doneS s d x).flips = s.flips := rfl
@[simp] theorem doneS_ctx (s : State) (d : BitVec 6) (x : Word) : (doneS s d x).ctx = s.ctx := rfl
@[simp] theorem doneS_saved (s : State) (d : BitVec 6) (x : Word) : (doneS s d x).saved = s.saved := rfl
@[simp] theorem doneS_colls (s : State) (d : BitVec 6) (x : Word) : (doneS s d x).colls = s.colls := rfl
@[simp] theorem doneS_collNotes (s : State) (d : BitVec 6) (x : Word) : (doneS s d x).collNotes = s.collNotes := rfl
@[simp] theorem doneS_tears (s : State) (d : BitVec 6) (x : Word) : (doneS s d x).tears = s.tears := rfl
@[simp] theorem doneS_objects (s : State) (d : BitVec 6) (x : Word) : (doneS s d x).objects = s.objects := rfl
@[simp] theorem doneS_loads (s : State) (d : BitVec 6) (x : Word) : (doneS s d x).loads = s.loads := rfl
@[simp] theorem doneS_fns (s : State) (d : BitVec 6) (x : Word) : (doneS s d x).fns = s.fns := rfl
@[simp] theorem doneS_errcnt (s : State) (d : BitVec 6) (x : Word) : (doneS s d x).errcnt = s.errcnt := rfl
@[simp] theorem doneS_corrected (s : State) (d : BitVec 6) (x : Word) : (doneS s d x).corrected = s.corrected := rfl
@[simp] theorem doneS_ports (s : State) (d : BitVec 6) (x : Word) : (doneS s d x).ports = s.ports := rfl
@[simp] theorem doneS_routes (s : State) (d : BitVec 6) (x : Word) : (doneS s d x).routes = s.routes := rfl
@[simp] theorem doneS_pacer (s : State) (d : BitVec 6) (x : Word) : (doneS s d x).pacer = s.pacer := rfl
@[simp] theorem doneS_power (s : State) (d : BitVec 6) (x : Word) : (doneS s d x).power = s.power := rfl
@[simp] theorem doneS_current (s : State) (d : BitVec 6) (x : Word) : (doneS s d x).current = s.current := rfl
@[simp] theorem doneS_heavy (s : State) (d : BitVec 6) (x : Word) : (doneS s d x).heavy = s.heavy := rfl
@[simp] theorem doneS_ctls (s : State) (d : BitVec 6) (x : Word) : (doneS s d x).ctls = s.ctls := rfl
@[simp] theorem doneS_boot (s : State) (d : BitVec 6) (x : Word) : (doneS s d x).boot = s.boot := rfl
@[simp] theorem doneS_strict (s : State) (d : BitVec 6) (x : Word) : (doneS s d x).strict = s.strict := rfl
@[simp] theorem doneS_timens (s : State) (d : BitVec 6) (x : Word) : (doneS s d x).timens = s.timens := rfl
@[simp] theorem doneS_sweepAt (s : State) (d : BitVec 6) (x : Word) : (doneS s d x).sweepAt = s.sweepAt := rfl
@[simp] theorem doneS_inputs (s : State) (d : BitVec 6) (x : Word) : (doneS s d x).inputs = s.inputs := rfl
@[simp] theorem doneS_turn (s : State) (d : BitVec 6) (x : Word) : (doneS s d x).turn = s.turn := rfl
@[simp] theorem doneS_lane (s : State) (d : BitVec 6) (x : Word) : (doneS s d x).lane = s.lane := rfl
@[simp] theorem doneS_bgTurn (s : State) (d : BitVec 6) (x : Word) : (doneS s d x).bgTurn = s.bgTurn := rfl
@[simp] theorem doneS_fresh (s : State) (d : BitVec 6) (x : Word) : (doneS s d x).fresh = s.fresh := rfl

@[simp] theorem doneS_c (s : State) (d : BitVec 6) (x : Word) : (doneS s d x).c = (setS s.c d x).past := rfl

/-! ### A transfer of control -/

@[simp] theorem jump_g (s : State) (a : Word) : (jump s a).g = s.g := rfl
@[simp] theorem jump_crews (s : State) (a : Word) : (jump s a).crews = s.crews := rfl
@[simp] theorem jump_gals (s : State) (a : Word) : (jump s a).gals = s.gals := rfl
@[simp] theorem jump_mem (s : State) (a : Word) : (jump s a).mem = s.mem := rfl
@[simp] theorem jump_vault (s : State) (a : Word) : (jump s a).vault = s.vault := rfl
@[simp] theorem jump_halves (s : State) (a : Word) : (jump s a).halves = s.halves := rfl
@[simp] theorem jump_tiles (s : State) (a : Word) : (jump s a).tiles = s.tiles := rfl
@[simp] theorem jump_badTiles (s : State) (a : Word) : (jump s a).badTiles = s.badTiles := rfl
@[simp] theorem jump_poison (s : State) (a : Word) : (jump s a).poison = s.poison := rfl
@[simp] theorem jump_badVault (s : State) (a : Word) : (jump s a).badVault = s.badVault := rfl
@[simp] theorem jump_lamps (s : State) (a : Word) : (jump s a).lamps = s.lamps := rfl
@[simp] theorem jump_filter (s : State) (a : Word) : (jump s a).filter = s.filter := rfl
@[simp] theorem jump_lampSeq (s : State) (a : Word) : (jump s a).lampSeq = s.lampSeq := rfl
@[simp] theorem jump_slow (s : State) (a : Word) : (jump s a).slow = s.slow := rfl
@[simp] theorem jump_sweeps (s : State) (a : Word) : (jump s a).sweeps = s.sweeps := rfl
@[simp] theorem jump_redq (s : State) (a : Word) : (jump s a).redq = s.redq := rfl
@[simp] theorem jump_relays (s : State) (a : Word) : (jump s a).relays = s.relays := rfl
@[simp] theorem jump_records (s : State) (a : Word) : (jump s a).records = s.records := rfl
@[simp] theorem jump_regions (s : State) (a : Word) : (jump s a).regions = s.regions := rfl
@[simp] theorem jump_forming (s : State) (a : Word) : (jump s a).forming = s.forming := rfl
@[simp] theorem jump_spawnq (s : State) (a : Word) : (jump s a).spawnq = s.spawnq := rfl
@[simp] theorem jump_pendFell (s : State) (a : Word) : (jump s a).pendFell = s.pendFell := rfl
@[simp] theorem jump_freed (s : State) (a : Word) : (jump s a).freed = s.freed := rfl
@[simp] theorem jump_arrivals (s : State) (a : Word) : (jump s a).arrivals = s.arrivals := rfl
@[simp] theorem jump_ids (s : State) (a : Word) : (jump s a).ids = s.ids := rfl
@[simp] theorem jump_hoist (s : State) (a : Word) : (jump s a).hoist = s.hoist := rfl
@[simp] theorem jump_rings (s : State) (a : Word) : (jump s a).rings = s.rings := rfl
@[simp] theorem jump_mx (s : State) (a : Word) : (jump s a).mx = s.mx := rfl
@[simp] theorem jump_scales (s : State) (a : Word) : (jump s a).scales = s.scales := rfl
@[simp] theorem jump_tokens (s : State) (a : Word) : (jump s a).tokens = s.tokens := rfl
@[simp] theorem jump_pubs (s : State) (a : Word) : (jump s a).pubs = s.pubs := rfl
@[simp] theorem jump_flips (s : State) (a : Word) : (jump s a).flips = s.flips := rfl
@[simp] theorem jump_ctx (s : State) (a : Word) : (jump s a).ctx = s.ctx := rfl
@[simp] theorem jump_saved (s : State) (a : Word) : (jump s a).saved = s.saved := rfl
@[simp] theorem jump_colls (s : State) (a : Word) : (jump s a).colls = s.colls := rfl
@[simp] theorem jump_collNotes (s : State) (a : Word) : (jump s a).collNotes = s.collNotes := rfl
@[simp] theorem jump_tears (s : State) (a : Word) : (jump s a).tears = s.tears := rfl
@[simp] theorem jump_objects (s : State) (a : Word) : (jump s a).objects = s.objects := rfl
@[simp] theorem jump_loads (s : State) (a : Word) : (jump s a).loads = s.loads := rfl
@[simp] theorem jump_fns (s : State) (a : Word) : (jump s a).fns = s.fns := rfl
@[simp] theorem jump_errcnt (s : State) (a : Word) : (jump s a).errcnt = s.errcnt := rfl
@[simp] theorem jump_corrected (s : State) (a : Word) : (jump s a).corrected = s.corrected := rfl
@[simp] theorem jump_ports (s : State) (a : Word) : (jump s a).ports = s.ports := rfl
@[simp] theorem jump_routes (s : State) (a : Word) : (jump s a).routes = s.routes := rfl
@[simp] theorem jump_pacer (s : State) (a : Word) : (jump s a).pacer = s.pacer := rfl
@[simp] theorem jump_power (s : State) (a : Word) : (jump s a).power = s.power := rfl
@[simp] theorem jump_current (s : State) (a : Word) : (jump s a).current = s.current := rfl
@[simp] theorem jump_heavy (s : State) (a : Word) : (jump s a).heavy = s.heavy := rfl
@[simp] theorem jump_ctls (s : State) (a : Word) : (jump s a).ctls = s.ctls := rfl
@[simp] theorem jump_boot (s : State) (a : Word) : (jump s a).boot = s.boot := rfl
@[simp] theorem jump_strict (s : State) (a : Word) : (jump s a).strict = s.strict := rfl
@[simp] theorem jump_timens (s : State) (a : Word) : (jump s a).timens = s.timens := rfl
@[simp] theorem jump_sweepAt (s : State) (a : Word) : (jump s a).sweepAt = s.sweepAt := rfl
@[simp] theorem jump_inputs (s : State) (a : Word) : (jump s a).inputs = s.inputs := rfl
@[simp] theorem jump_turn (s : State) (a : Word) : (jump s a).turn = s.turn := rfl
@[simp] theorem jump_lane (s : State) (a : Word) : (jump s a).lane = s.lane := rfl
@[simp] theorem jump_bgTurn (s : State) (a : Word) : (jump s a).bgTurn = s.bgTurn := rfl
@[simp] theorem jump_fresh (s : State) (a : Word) : (jump s a).fresh = s.fresh := rfl

/-! ### A word that holds its crew -/

@[simp] theorem hold_g (s : State) : (hold s).g = s.g := rfl
@[simp] theorem hold_crews (s : State) : (hold s).crews = s.crews := rfl
@[simp] theorem hold_gals (s : State) : (hold s).gals = s.gals := rfl
@[simp] theorem hold_mem (s : State) : (hold s).mem = s.mem := rfl
@[simp] theorem hold_vault (s : State) : (hold s).vault = s.vault := rfl
@[simp] theorem hold_halves (s : State) : (hold s).halves = s.halves := rfl
@[simp] theorem hold_tiles (s : State) : (hold s).tiles = s.tiles := rfl
@[simp] theorem hold_badTiles (s : State) : (hold s).badTiles = s.badTiles := rfl
@[simp] theorem hold_poison (s : State) : (hold s).poison = s.poison := rfl
@[simp] theorem hold_badVault (s : State) : (hold s).badVault = s.badVault := rfl
@[simp] theorem hold_lamps (s : State) : (hold s).lamps = s.lamps := rfl
@[simp] theorem hold_filter (s : State) : (hold s).filter = s.filter := rfl
@[simp] theorem hold_lampSeq (s : State) : (hold s).lampSeq = s.lampSeq := rfl
@[simp] theorem hold_slow (s : State) : (hold s).slow = s.slow := rfl
@[simp] theorem hold_sweeps (s : State) : (hold s).sweeps = s.sweeps := rfl
@[simp] theorem hold_redq (s : State) : (hold s).redq = s.redq := rfl
@[simp] theorem hold_relays (s : State) : (hold s).relays = s.relays := rfl
@[simp] theorem hold_records (s : State) : (hold s).records = s.records := rfl
@[simp] theorem hold_regions (s : State) : (hold s).regions = s.regions := rfl
@[simp] theorem hold_forming (s : State) : (hold s).forming = s.forming := rfl
@[simp] theorem hold_spawnq (s : State) : (hold s).spawnq = s.spawnq := rfl
@[simp] theorem hold_pendFell (s : State) : (hold s).pendFell = s.pendFell := rfl
@[simp] theorem hold_freed (s : State) : (hold s).freed = s.freed := rfl
@[simp] theorem hold_arrivals (s : State) : (hold s).arrivals = s.arrivals := rfl
@[simp] theorem hold_ids (s : State) : (hold s).ids = s.ids := rfl
@[simp] theorem hold_hoist (s : State) : (hold s).hoist = s.hoist := rfl
@[simp] theorem hold_rings (s : State) : (hold s).rings = s.rings := rfl
@[simp] theorem hold_mx (s : State) : (hold s).mx = s.mx := rfl
@[simp] theorem hold_scales (s : State) : (hold s).scales = s.scales := rfl
@[simp] theorem hold_tokens (s : State) : (hold s).tokens = s.tokens := rfl
@[simp] theorem hold_pubs (s : State) : (hold s).pubs = s.pubs := rfl
@[simp] theorem hold_flips (s : State) : (hold s).flips = s.flips := rfl
@[simp] theorem hold_ctx (s : State) : (hold s).ctx = s.ctx := rfl
@[simp] theorem hold_saved (s : State) : (hold s).saved = s.saved := rfl
@[simp] theorem hold_colls (s : State) : (hold s).colls = s.colls := rfl
@[simp] theorem hold_collNotes (s : State) : (hold s).collNotes = s.collNotes := rfl
@[simp] theorem hold_tears (s : State) : (hold s).tears = s.tears := rfl
@[simp] theorem hold_objects (s : State) : (hold s).objects = s.objects := rfl
@[simp] theorem hold_loads (s : State) : (hold s).loads = s.loads := rfl
@[simp] theorem hold_fns (s : State) : (hold s).fns = s.fns := rfl
@[simp] theorem hold_errcnt (s : State) : (hold s).errcnt = s.errcnt := rfl
@[simp] theorem hold_corrected (s : State) : (hold s).corrected = s.corrected := rfl
@[simp] theorem hold_ports (s : State) : (hold s).ports = s.ports := rfl
@[simp] theorem hold_routes (s : State) : (hold s).routes = s.routes := rfl
@[simp] theorem hold_pacer (s : State) : (hold s).pacer = s.pacer := rfl
@[simp] theorem hold_power (s : State) : (hold s).power = s.power := rfl
@[simp] theorem hold_current (s : State) : (hold s).current = s.current := rfl
@[simp] theorem hold_heavy (s : State) : (hold s).heavy = s.heavy := rfl
@[simp] theorem hold_ctls (s : State) : (hold s).ctls = s.ctls := rfl
@[simp] theorem hold_boot (s : State) : (hold s).boot = s.boot := rfl
@[simp] theorem hold_strict (s : State) : (hold s).strict = s.strict := rfl
@[simp] theorem hold_timens (s : State) : (hold s).timens = s.timens := rfl
@[simp] theorem hold_sweepAt (s : State) : (hold s).sweepAt = s.sweepAt := rfl
@[simp] theorem hold_inputs (s : State) : (hold s).inputs = s.inputs := rfl
@[simp] theorem hold_turn (s : State) : (hold s).turn = s.turn := rfl
@[simp] theorem hold_lane (s : State) : (hold s).lane = s.lane := rfl
@[simp] theorem hold_bgTurn (s : State) : (hold s).bgTurn = s.bgTurn := rfl
@[simp] theorem hold_fresh (s : State) : (hold s).fresh = s.fresh := rfl

/-! ### An error counted -/

@[simp] theorem countError_c (s : State) : (countError s).c = s.c := rfl
@[simp] theorem countError_g (s : State) : (countError s).g = s.g := rfl
@[simp] theorem countError_crews (s : State) : (countError s).crews = s.crews := rfl
@[simp] theorem countError_gals (s : State) : (countError s).gals = s.gals := rfl
@[simp] theorem countError_mem (s : State) : (countError s).mem = s.mem := rfl
@[simp] theorem countError_vault (s : State) : (countError s).vault = s.vault := rfl
@[simp] theorem countError_halves (s : State) : (countError s).halves = s.halves := rfl
@[simp] theorem countError_tiles (s : State) : (countError s).tiles = s.tiles := rfl
@[simp] theorem countError_badTiles (s : State) : (countError s).badTiles = s.badTiles := rfl
@[simp] theorem countError_poison (s : State) : (countError s).poison = s.poison := rfl
@[simp] theorem countError_badVault (s : State) : (countError s).badVault = s.badVault := rfl
@[simp] theorem countError_lamps (s : State) : (countError s).lamps = s.lamps := rfl
@[simp] theorem countError_filter (s : State) : (countError s).filter = s.filter := rfl
@[simp] theorem countError_lampSeq (s : State) : (countError s).lampSeq = s.lampSeq := rfl
@[simp] theorem countError_slow (s : State) : (countError s).slow = s.slow := rfl
@[simp] theorem countError_sweeps (s : State) : (countError s).sweeps = s.sweeps := rfl
@[simp] theorem countError_redq (s : State) : (countError s).redq = s.redq := rfl
@[simp] theorem countError_relays (s : State) : (countError s).relays = s.relays := rfl
@[simp] theorem countError_records (s : State) : (countError s).records = s.records := rfl
@[simp] theorem countError_regions (s : State) : (countError s).regions = s.regions := rfl
@[simp] theorem countError_forming (s : State) : (countError s).forming = s.forming := rfl
@[simp] theorem countError_spawnq (s : State) : (countError s).spawnq = s.spawnq := rfl
@[simp] theorem countError_pendFell (s : State) : (countError s).pendFell = s.pendFell := rfl
@[simp] theorem countError_freed (s : State) : (countError s).freed = s.freed := rfl
@[simp] theorem countError_arrivals (s : State) : (countError s).arrivals = s.arrivals := rfl
@[simp] theorem countError_ids (s : State) : (countError s).ids = s.ids := rfl
@[simp] theorem countError_hoist (s : State) : (countError s).hoist = s.hoist := rfl
@[simp] theorem countError_rings (s : State) : (countError s).rings = s.rings := rfl
@[simp] theorem countError_mx (s : State) : (countError s).mx = s.mx := rfl
@[simp] theorem countError_scales (s : State) : (countError s).scales = s.scales := rfl
@[simp] theorem countError_tokens (s : State) : (countError s).tokens = s.tokens := rfl
@[simp] theorem countError_pubs (s : State) : (countError s).pubs = s.pubs := rfl
@[simp] theorem countError_flips (s : State) : (countError s).flips = s.flips := rfl
@[simp] theorem countError_ctx (s : State) : (countError s).ctx = s.ctx := rfl
@[simp] theorem countError_saved (s : State) : (countError s).saved = s.saved := rfl
@[simp] theorem countError_colls (s : State) : (countError s).colls = s.colls := rfl
@[simp] theorem countError_collNotes (s : State) : (countError s).collNotes = s.collNotes := rfl
@[simp] theorem countError_tears (s : State) : (countError s).tears = s.tears := rfl
@[simp] theorem countError_objects (s : State) : (countError s).objects = s.objects := rfl
@[simp] theorem countError_loads (s : State) : (countError s).loads = s.loads := rfl
@[simp] theorem countError_fns (s : State) : (countError s).fns = s.fns := rfl
@[simp] theorem countError_corrected (s : State) : (countError s).corrected = s.corrected := rfl
@[simp] theorem countError_ports (s : State) : (countError s).ports = s.ports := rfl
@[simp] theorem countError_routes (s : State) : (countError s).routes = s.routes := rfl
@[simp] theorem countError_pacer (s : State) : (countError s).pacer = s.pacer := rfl
@[simp] theorem countError_power (s : State) : (countError s).power = s.power := rfl
@[simp] theorem countError_current (s : State) : (countError s).current = s.current := rfl
@[simp] theorem countError_heavy (s : State) : (countError s).heavy = s.heavy := rfl
@[simp] theorem countError_ctls (s : State) : (countError s).ctls = s.ctls := rfl
@[simp] theorem countError_boot (s : State) : (countError s).boot = s.boot := rfl
@[simp] theorem countError_strict (s : State) : (countError s).strict = s.strict := rfl
@[simp] theorem countError_timens (s : State) : (countError s).timens = s.timens := rfl
@[simp] theorem countError_sweepAt (s : State) : (countError s).sweepAt = s.sweepAt := rfl
@[simp] theorem countError_inputs (s : State) : (countError s).inputs = s.inputs := rfl
@[simp] theorem countError_turn (s : State) : (countError s).turn = s.turn := rfl
@[simp] theorem countError_lane (s : State) : (countError s).lane = s.lane := rfl
@[simp] theorem countError_bgTurn (s : State) : (countError s).bgTurn = s.bgTurn := rfl
@[simp] theorem countError_fresh (s : State) : (countError s).fresh = s.fresh := rfl

/-! ### Flags that retire -/

@[simp] theorem retire_uid (c : Crew) : (retire c).uid = c.uid := rfl
@[simp] theorem retire_gid (c : Crew) : (retire c).gid = c.gid := rfl
@[simp] theorem retire_core (c : Crew) : (retire c).core = c.core := rfl
@[simp] theorem retire_slot (c : Crew) : (retire c).slot = c.slot := rfl
@[simp] theorem retire_att (c : Crew) : (retire c).att = c.att := rfl
@[simp] theorem retire_pc (c : Crew) : (retire c).pc = c.pc := rfl
@[simp] theorem retire_base (c : Crew) : (retire c).base = c.base := rfl
@[simp] theorem retire_pbank (c : Crew) : (retire c).pbank = c.pbank := rfl
@[simp] theorem retire_tbank (c : Crew) : (retire c).tbank = c.tbank := rfl
@[simp] theorem retire_bank (c : Crew) : (retire c).bank = c.bank := rfl
@[simp] theorem retire_privl (c : Crew) : (retire c).privl = c.privl := rfl
@[simp] theorem retire_clause (c : Crew) : (retire c).clause = c.clause := rfl
@[simp] theorem retire_left (c : Crew) : (retire c).left = c.left := rfl
@[simp] theorem retire_setA (c : Crew) : (retire c).setA = c.setA := rfl
@[simp] theorem retire_setB (c : Crew) : (retire c).setB = c.setB := rfl
@[simp] theorem retire_outm (c : Crew) : (retire c).outm = c.outm := rfl
@[simp] theorem retire_blk (c : Crew) : (retire c).blk = c.blk := rfl
@[simp] theorem retire_act (c : Crew) : (retire c).act = c.act := rfl
@[simp] theorem retire_stack (c : Crew) : (retire c).stack = c.stack := rfl
@[simp] theorem retire_marks (c : Crew) : (retire c).marks = c.marks := rfl
@[simp] theorem retire_xsub (c : Crew) : (retire c).xsub = c.xsub := rfl
@[simp] theorem retire_xstat (c : Crew) : (retire c).xstat = c.xstat := rfl
@[simp] theorem retire_fprm (c : Crew) : (retire c).fprm = c.fprm := rfl
@[simp] theorem retire_srchchk (c : Crew) : (retire c).srchchk = c.srchchk := rfl
@[simp] theorem retire_prio (c : Crew) : (retire c).prio = c.prio := rfl
@[simp] theorem retire_launchrec (c : Crew) : (retire c).launchrec = c.launchrec := rfl
@[simp] theorem retire_argp (c : Crew) : (retire c).argp = c.argp := rfl
@[simp] theorem retire_cycles (c : Crew) : (retire c).cycles = c.cycles := rfl
@[simp] theorem retire_clausef (c : Crew) : (retire c).clausef = c.clausef := rfl
@[simp] theorem retire_trapcause (c : Crew) : (retire c).trapcause = c.trapcause := rfl
@[simp] theorem retire_trappc (c : Crew) : (retire c).trappc = c.trappc := rfl
@[simp] theorem retire_trapaddr (c : Crew) : (retire c).trapaddr = c.trapaddr := rfl
@[simp] theorem retire_trapinfo (c : Crew) : (retire c).trapinfo = c.trapinfo := rfl
@[simp] theorem retire_outSaved (c : Crew) : (retire c).outSaved = c.outSaved := rfl
@[simp] theorem retire_blkSaved (c : Crew) : (retire c).blkSaved = c.blkSaved := rfl
@[simp] theorem retire_tagcnt (c : Crew) : (retire c).tagcnt = c.tagcnt := rfl
@[simp] theorem retire_tagfail (c : Crew) : (retire c).tagfail = c.tagfail := rfl
@[simp] theorem retire_tagcause (c : Crew) : (retire c).tagcause = c.tagcause := rfl
@[simp] theorem retire_colls (c : Crew) : (retire c).colls = c.colls := rfl
@[simp] theorem retire_ring (c : Crew) : (retire c).ring = c.ring := rfl
@[simp] theorem retire_save (c : Crew) : (retire c).save = c.save := rfl
@[simp] theorem retire_woken (c : Crew) : (retire c).woken = c.woken := rfl
@[simp] theorem retire_land (c : Crew) : (retire c).land = c.land := rfl
@[simp] theorem retire_stores (c : Crew) : (retire c).stores = c.stores := rfl
@[simp] theorem retire_acks (c : Crew) : (retire c).acks = c.acks := rfl
@[simp] theorem retire_redq (c : Crew) : (retire c).redq = c.redq := rfl
@[simp] theorem retire_dups (c : Crew) : (retire c).dups = c.dups := rfl
@[simp] theorem retire_deferred (c : Crew) : (retire c).deferred = c.deferred := rfl
@[simp] theorem retire_status (c : Crew) : (retire c).status = c.status := rfl
@[simp] theorem retire_passedU (c : Crew) : (retire c).passedU = c.passedU := rfl
@[simp] theorem retire_passedL (c : Crew) : (retire c).passedL = c.passedL := rfl
@[simp] theorem retire_age (c : Crew) : (retire c).age = c.age := rfl
@[simp] theorem retire_yielded (c : Crew) : (retire c).yielded = c.yielded := rfl
@[simp] theorem retire_bad (c : Crew) : (retire c).bad = c.bad := rfl
@[simp] theorem retire_badStack (c : Crew) : (retire c).badStack = c.badStack := rfl

/-! ### A crew past its word -/

@[simp] theorem past_uid (c : Crew) : (c.past).uid = c.uid := rfl
@[simp] theorem past_gid (c : Crew) : (c.past).gid = c.gid := rfl
@[simp] theorem past_core (c : Crew) : (c.past).core = c.core := rfl
@[simp] theorem past_slot (c : Crew) : (c.past).slot = c.slot := rfl
@[simp] theorem past_att (c : Crew) : (c.past).att = c.att := rfl
@[simp] theorem past_base (c : Crew) : (c.past).base = c.base := rfl
@[simp] theorem past_pbank (c : Crew) : (c.past).pbank = c.pbank := rfl
@[simp] theorem past_tbank (c : Crew) : (c.past).tbank = c.tbank := rfl
@[simp] theorem past_bank (c : Crew) : (c.past).bank = c.bank := rfl
@[simp] theorem past_privl (c : Crew) : (c.past).privl = c.privl := rfl
@[simp] theorem past_clause (c : Crew) : (c.past).clause = c.clause := rfl
@[simp] theorem past_setA (c : Crew) : (c.past).setA = c.setA := rfl
@[simp] theorem past_setB (c : Crew) : (c.past).setB = c.setB := rfl
@[simp] theorem past_outm (c : Crew) : (c.past).outm = c.outm := rfl
@[simp] theorem past_act (c : Crew) : (c.past).act = c.act := rfl
@[simp] theorem past_stack (c : Crew) : (c.past).stack = c.stack := rfl
@[simp] theorem past_marks (c : Crew) : (c.past).marks = c.marks := rfl
@[simp] theorem past_xsub (c : Crew) : (c.past).xsub = c.xsub := rfl
@[simp] theorem past_xstat (c : Crew) : (c.past).xstat = c.xstat := rfl
@[simp] theorem past_fprm (c : Crew) : (c.past).fprm = c.fprm := rfl
@[simp] theorem past_srchchk (c : Crew) : (c.past).srchchk = c.srchchk := rfl
@[simp] theorem past_prio (c : Crew) : (c.past).prio = c.prio := rfl
@[simp] theorem past_launchrec (c : Crew) : (c.past).launchrec = c.launchrec := rfl
@[simp] theorem past_argp (c : Crew) : (c.past).argp = c.argp := rfl
@[simp] theorem past_cycles (c : Crew) : (c.past).cycles = c.cycles := rfl
@[simp] theorem past_clausef (c : Crew) : (c.past).clausef = c.clausef := rfl
@[simp] theorem past_trapcause (c : Crew) : (c.past).trapcause = c.trapcause := rfl
@[simp] theorem past_trappc (c : Crew) : (c.past).trappc = c.trappc := rfl
@[simp] theorem past_trapaddr (c : Crew) : (c.past).trapaddr = c.trapaddr := rfl
@[simp] theorem past_trapinfo (c : Crew) : (c.past).trapinfo = c.trapinfo := rfl
@[simp] theorem past_outSaved (c : Crew) : (c.past).outSaved = c.outSaved := rfl
@[simp] theorem past_blkSaved (c : Crew) : (c.past).blkSaved = c.blkSaved := rfl
@[simp] theorem past_tagcnt (c : Crew) : (c.past).tagcnt = c.tagcnt := rfl
@[simp] theorem past_tagfail (c : Crew) : (c.past).tagfail = c.tagfail := rfl
@[simp] theorem past_tagcause (c : Crew) : (c.past).tagcause = c.tagcause := rfl
@[simp] theorem past_colls (c : Crew) : (c.past).colls = c.colls := rfl
@[simp] theorem past_ring (c : Crew) : (c.past).ring = c.ring := rfl
@[simp] theorem past_save (c : Crew) : (c.past).save = c.save := rfl
@[simp] theorem past_woken (c : Crew) : (c.past).woken = c.woken := rfl
@[simp] theorem past_land (c : Crew) : (c.past).land = c.land := rfl
@[simp] theorem past_stores (c : Crew) : (c.past).stores = c.stores := rfl
@[simp] theorem past_acks (c : Crew) : (c.past).acks = c.acks := rfl
@[simp] theorem past_redq (c : Crew) : (c.past).redq = c.redq := rfl
@[simp] theorem past_dups (c : Crew) : (c.past).dups = c.dups := rfl
@[simp] theorem past_deferred (c : Crew) : (c.past).deferred = c.deferred := rfl
@[simp] theorem past_passedU (c : Crew) : (c.past).passedU = c.passedU := rfl
@[simp] theorem past_passedL (c : Crew) : (c.past).passedL = c.passedL := rfl
@[simp] theorem past_age (c : Crew) : (c.past).age = c.age := rfl
@[simp] theorem past_yielded (c : Crew) : (c.past).yielded = c.yielded := rfl
@[simp] theorem past_bad (c : Crew) : (c.past).bad = c.bad := rfl
@[simp] theorem past_badStack (c : Crew) : (c.past).badStack = c.badStack := rfl

/-! ### Exception flags -/

@[simp] theorem raise_uid (c : Crew) (n : Nat) : (raise c n).uid = c.uid := rfl
@[simp] theorem raise_gid (c : Crew) (n : Nat) : (raise c n).gid = c.gid := rfl
@[simp] theorem raise_core (c : Crew) (n : Nat) : (raise c n).core = c.core := rfl
@[simp] theorem raise_slot (c : Crew) (n : Nat) : (raise c n).slot = c.slot := rfl
@[simp] theorem raise_att (c : Crew) (n : Nat) : (raise c n).att = c.att := rfl
@[simp] theorem raise_pc (c : Crew) (n : Nat) : (raise c n).pc = c.pc := rfl
@[simp] theorem raise_base (c : Crew) (n : Nat) : (raise c n).base = c.base := rfl
@[simp] theorem raise_pbank (c : Crew) (n : Nat) : (raise c n).pbank = c.pbank := rfl
@[simp] theorem raise_tbank (c : Crew) (n : Nat) : (raise c n).tbank = c.tbank := rfl
@[simp] theorem raise_bank (c : Crew) (n : Nat) : (raise c n).bank = c.bank := rfl
@[simp] theorem raise_privl (c : Crew) (n : Nat) : (raise c n).privl = c.privl := rfl
@[simp] theorem raise_clause (c : Crew) (n : Nat) : (raise c n).clause = c.clause := rfl
@[simp] theorem raise_left (c : Crew) (n : Nat) : (raise c n).left = c.left := rfl
@[simp] theorem raise_setA (c : Crew) (n : Nat) : (raise c n).setA = c.setA := rfl
@[simp] theorem raise_setB (c : Crew) (n : Nat) : (raise c n).setB = c.setB := rfl
@[simp] theorem raise_incs (c : Crew) (n : Nat) : (raise c n).incs = c.incs := rfl
@[simp] theorem raise_outm (c : Crew) (n : Nat) : (raise c n).outm = c.outm := rfl
@[simp] theorem raise_blk (c : Crew) (n : Nat) : (raise c n).blk = c.blk := rfl
@[simp] theorem raise_act (c : Crew) (n : Nat) : (raise c n).act = c.act := rfl
@[simp] theorem raise_stack (c : Crew) (n : Nat) : (raise c n).stack = c.stack := rfl
@[simp] theorem raise_marks (c : Crew) (n : Nat) : (raise c n).marks = c.marks := rfl
@[simp] theorem raise_xsub (c : Crew) (n : Nat) : (raise c n).xsub = c.xsub := rfl
@[simp] theorem raise_fprm (c : Crew) (n : Nat) : (raise c n).fprm = c.fprm := rfl
@[simp] theorem raise_srchchk (c : Crew) (n : Nat) : (raise c n).srchchk = c.srchchk := rfl
@[simp] theorem raise_prio (c : Crew) (n : Nat) : (raise c n).prio = c.prio := rfl
@[simp] theorem raise_launchrec (c : Crew) (n : Nat) : (raise c n).launchrec = c.launchrec := rfl
@[simp] theorem raise_argp (c : Crew) (n : Nat) : (raise c n).argp = c.argp := rfl
@[simp] theorem raise_cycles (c : Crew) (n : Nat) : (raise c n).cycles = c.cycles := rfl
@[simp] theorem raise_clausef (c : Crew) (n : Nat) : (raise c n).clausef = c.clausef := rfl
@[simp] theorem raise_trapcause (c : Crew) (n : Nat) : (raise c n).trapcause = c.trapcause := rfl
@[simp] theorem raise_trappc (c : Crew) (n : Nat) : (raise c n).trappc = c.trappc := rfl
@[simp] theorem raise_trapaddr (c : Crew) (n : Nat) : (raise c n).trapaddr = c.trapaddr := rfl
@[simp] theorem raise_trapinfo (c : Crew) (n : Nat) : (raise c n).trapinfo = c.trapinfo := rfl
@[simp] theorem raise_outSaved (c : Crew) (n : Nat) : (raise c n).outSaved = c.outSaved := rfl
@[simp] theorem raise_blkSaved (c : Crew) (n : Nat) : (raise c n).blkSaved = c.blkSaved := rfl
@[simp] theorem raise_tagcnt (c : Crew) (n : Nat) : (raise c n).tagcnt = c.tagcnt := rfl
@[simp] theorem raise_tagfail (c : Crew) (n : Nat) : (raise c n).tagfail = c.tagfail := rfl
@[simp] theorem raise_tagcause (c : Crew) (n : Nat) : (raise c n).tagcause = c.tagcause := rfl
@[simp] theorem raise_colls (c : Crew) (n : Nat) : (raise c n).colls = c.colls := rfl
@[simp] theorem raise_ring (c : Crew) (n : Nat) : (raise c n).ring = c.ring := rfl
@[simp] theorem raise_save (c : Crew) (n : Nat) : (raise c n).save = c.save := rfl
@[simp] theorem raise_woken (c : Crew) (n : Nat) : (raise c n).woken = c.woken := rfl
@[simp] theorem raise_land (c : Crew) (n : Nat) : (raise c n).land = c.land := rfl
@[simp] theorem raise_stores (c : Crew) (n : Nat) : (raise c n).stores = c.stores := rfl
@[simp] theorem raise_acks (c : Crew) (n : Nat) : (raise c n).acks = c.acks := rfl
@[simp] theorem raise_redq (c : Crew) (n : Nat) : (raise c n).redq = c.redq := rfl
@[simp] theorem raise_dups (c : Crew) (n : Nat) : (raise c n).dups = c.dups := rfl
@[simp] theorem raise_deferred (c : Crew) (n : Nat) : (raise c n).deferred = c.deferred := rfl
@[simp] theorem raise_status (c : Crew) (n : Nat) : (raise c n).status = c.status := rfl
@[simp] theorem raise_passedU (c : Crew) (n : Nat) : (raise c n).passedU = c.passedU := rfl
@[simp] theorem raise_passedL (c : Crew) (n : Nat) : (raise c n).passedL = c.passedL := rfl
@[simp] theorem raise_age (c : Crew) (n : Nat) : (raise c n).age = c.age := rfl
@[simp] theorem raise_yielded (c : Crew) (n : Nat) : (raise c n).yielded = c.yielded := rfl
@[simp] theorem raise_bad (c : Crew) (n : Nat) : (raise c n).bad = c.bad := rfl
@[simp] theorem raise_badStack (c : Crew) (n : Nat) : (raise c n).badStack = c.badStack := rfl

/-! ### An outstanding mark -/

@[simp] theorem markOut_uid (c : Crew) (r : Reg) : (markOut c r).uid = c.uid := rfl
@[simp] theorem markOut_gid (c : Crew) (r : Reg) : (markOut c r).gid = c.gid := rfl
@[simp] theorem markOut_core (c : Crew) (r : Reg) : (markOut c r).core = c.core := rfl
@[simp] theorem markOut_slot (c : Crew) (r : Reg) : (markOut c r).slot = c.slot := rfl
@[simp] theorem markOut_att (c : Crew) (r : Reg) : (markOut c r).att = c.att := rfl
@[simp] theorem markOut_pc (c : Crew) (r : Reg) : (markOut c r).pc = c.pc := rfl
@[simp] theorem markOut_base (c : Crew) (r : Reg) : (markOut c r).base = c.base := rfl
@[simp] theorem markOut_pbank (c : Crew) (r : Reg) : (markOut c r).pbank = c.pbank := rfl
@[simp] theorem markOut_tbank (c : Crew) (r : Reg) : (markOut c r).tbank = c.tbank := rfl
@[simp] theorem markOut_bank (c : Crew) (r : Reg) : (markOut c r).bank = c.bank := rfl
@[simp] theorem markOut_privl (c : Crew) (r : Reg) : (markOut c r).privl = c.privl := rfl
@[simp] theorem markOut_clause (c : Crew) (r : Reg) : (markOut c r).clause = c.clause := rfl
@[simp] theorem markOut_left (c : Crew) (r : Reg) : (markOut c r).left = c.left := rfl
@[simp] theorem markOut_setA (c : Crew) (r : Reg) : (markOut c r).setA = c.setA := rfl
@[simp] theorem markOut_setB (c : Crew) (r : Reg) : (markOut c r).setB = c.setB := rfl
@[simp] theorem markOut_incs (c : Crew) (r : Reg) : (markOut c r).incs = c.incs := rfl
@[simp] theorem markOut_blk (c : Crew) (r : Reg) : (markOut c r).blk = c.blk := rfl
@[simp] theorem markOut_act (c : Crew) (r : Reg) : (markOut c r).act = c.act := rfl
@[simp] theorem markOut_stack (c : Crew) (r : Reg) : (markOut c r).stack = c.stack := rfl
@[simp] theorem markOut_marks (c : Crew) (r : Reg) : (markOut c r).marks = c.marks := rfl
@[simp] theorem markOut_xsub (c : Crew) (r : Reg) : (markOut c r).xsub = c.xsub := rfl
@[simp] theorem markOut_xstat (c : Crew) (r : Reg) : (markOut c r).xstat = c.xstat := rfl
@[simp] theorem markOut_fprm (c : Crew) (r : Reg) : (markOut c r).fprm = c.fprm := rfl
@[simp] theorem markOut_srchchk (c : Crew) (r : Reg) : (markOut c r).srchchk = c.srchchk := rfl
@[simp] theorem markOut_prio (c : Crew) (r : Reg) : (markOut c r).prio = c.prio := rfl
@[simp] theorem markOut_launchrec (c : Crew) (r : Reg) : (markOut c r).launchrec = c.launchrec := rfl
@[simp] theorem markOut_argp (c : Crew) (r : Reg) : (markOut c r).argp = c.argp := rfl
@[simp] theorem markOut_cycles (c : Crew) (r : Reg) : (markOut c r).cycles = c.cycles := rfl
@[simp] theorem markOut_clausef (c : Crew) (r : Reg) : (markOut c r).clausef = c.clausef := rfl
@[simp] theorem markOut_trapcause (c : Crew) (r : Reg) : (markOut c r).trapcause = c.trapcause := rfl
@[simp] theorem markOut_trappc (c : Crew) (r : Reg) : (markOut c r).trappc = c.trappc := rfl
@[simp] theorem markOut_trapaddr (c : Crew) (r : Reg) : (markOut c r).trapaddr = c.trapaddr := rfl
@[simp] theorem markOut_trapinfo (c : Crew) (r : Reg) : (markOut c r).trapinfo = c.trapinfo := rfl
@[simp] theorem markOut_outSaved (c : Crew) (r : Reg) : (markOut c r).outSaved = c.outSaved := rfl
@[simp] theorem markOut_blkSaved (c : Crew) (r : Reg) : (markOut c r).blkSaved = c.blkSaved := rfl
@[simp] theorem markOut_tagcnt (c : Crew) (r : Reg) : (markOut c r).tagcnt = c.tagcnt := rfl
@[simp] theorem markOut_tagfail (c : Crew) (r : Reg) : (markOut c r).tagfail = c.tagfail := rfl
@[simp] theorem markOut_tagcause (c : Crew) (r : Reg) : (markOut c r).tagcause = c.tagcause := rfl
@[simp] theorem markOut_colls (c : Crew) (r : Reg) : (markOut c r).colls = c.colls := rfl
@[simp] theorem markOut_ring (c : Crew) (r : Reg) : (markOut c r).ring = c.ring := rfl
@[simp] theorem markOut_save (c : Crew) (r : Reg) : (markOut c r).save = c.save := rfl
@[simp] theorem markOut_woken (c : Crew) (r : Reg) : (markOut c r).woken = c.woken := rfl
@[simp] theorem markOut_land (c : Crew) (r : Reg) : (markOut c r).land = c.land := rfl
@[simp] theorem markOut_stores (c : Crew) (r : Reg) : (markOut c r).stores = c.stores := rfl
@[simp] theorem markOut_acks (c : Crew) (r : Reg) : (markOut c r).acks = c.acks := rfl
@[simp] theorem markOut_redq (c : Crew) (r : Reg) : (markOut c r).redq = c.redq := rfl
@[simp] theorem markOut_dups (c : Crew) (r : Reg) : (markOut c r).dups = c.dups := rfl
@[simp] theorem markOut_deferred (c : Crew) (r : Reg) : (markOut c r).deferred = c.deferred := rfl
@[simp] theorem markOut_status (c : Crew) (r : Reg) : (markOut c r).status = c.status := rfl
@[simp] theorem markOut_passedU (c : Crew) (r : Reg) : (markOut c r).passedU = c.passedU := rfl
@[simp] theorem markOut_passedL (c : Crew) (r : Reg) : (markOut c r).passedL = c.passedL := rfl
@[simp] theorem markOut_age (c : Crew) (r : Reg) : (markOut c r).age = c.age := rfl
@[simp] theorem markOut_yielded (c : Crew) (r : Reg) : (markOut c r).yielded = c.yielded := rfl
@[simp] theorem markOut_bad (c : Crew) (r : Reg) : (markOut c r).bad = c.bad := rfl
@[simp] theorem markOut_badStack (c : Crew) (r : Reg) : (markOut c r).badStack = c.badStack := rfl

/-! ### A scalar register written -/

@[simp] theorem setS_uid (c : Crew) (n : BitVec 6) (x : Word) : (setS c n x).uid = c.uid := by
  unfold setS; repeat' split
  all_goals rfl
@[simp] theorem setS_gid (c : Crew) (n : BitVec 6) (x : Word) : (setS c n x).gid = c.gid := by
  unfold setS; repeat' split
  all_goals rfl
@[simp] theorem setS_core (c : Crew) (n : BitVec 6) (x : Word) : (setS c n x).core = c.core := by
  unfold setS; repeat' split
  all_goals rfl
@[simp] theorem setS_slot (c : Crew) (n : BitVec 6) (x : Word) : (setS c n x).slot = c.slot := by
  unfold setS; repeat' split
  all_goals rfl
@[simp] theorem setS_att (c : Crew) (n : BitVec 6) (x : Word) : (setS c n x).att = c.att := by
  unfold setS; repeat' split
  all_goals rfl
@[simp] theorem setS_pc (c : Crew) (n : BitVec 6) (x : Word) : (setS c n x).pc = c.pc := by
  unfold setS; repeat' split
  all_goals rfl
@[simp] theorem setS_bank (c : Crew) (n : BitVec 6) (x : Word) : (setS c n x).bank = c.bank := by
  unfold setS; repeat' split
  all_goals rfl
@[simp] theorem setS_privl (c : Crew) (n : BitVec 6) (x : Word) : (setS c n x).privl = c.privl := by
  unfold setS; repeat' split
  all_goals rfl
@[simp] theorem setS_clause (c : Crew) (n : BitVec 6) (x : Word) : (setS c n x).clause = c.clause := by
  unfold setS; repeat' split
  all_goals rfl
@[simp] theorem setS_left (c : Crew) (n : BitVec 6) (x : Word) : (setS c n x).left = c.left := by
  unfold setS; repeat' split
  all_goals rfl
@[simp] theorem setS_setA (c : Crew) (n : BitVec 6) (x : Word) : (setS c n x).setA = c.setA := by
  unfold setS; repeat' split
  all_goals rfl
@[simp] theorem setS_setB (c : Crew) (n : BitVec 6) (x : Word) : (setS c n x).setB = c.setB := by
  unfold setS; repeat' split
  all_goals rfl
@[simp] theorem setS_incs (c : Crew) (n : BitVec 6) (x : Word) : (setS c n x).incs = c.incs := by
  unfold setS; repeat' split
  all_goals rfl
@[simp] theorem setS_outm (c : Crew) (n : BitVec 6) (x : Word) : (setS c n x).outm = c.outm := by
  unfold setS; repeat' split
  all_goals rfl
@[simp] theorem setS_blk (c : Crew) (n : BitVec 6) (x : Word) : (setS c n x).blk = c.blk := by
  unfold setS; repeat' split
  all_goals rfl
@[simp] theorem setS_act (c : Crew) (n : BitVec 6) (x : Word) : (setS c n x).act = c.act := by
  unfold setS; repeat' split
  all_goals rfl
@[simp] theorem setS_stack (c : Crew) (n : BitVec 6) (x : Word) : (setS c n x).stack = c.stack := by
  unfold setS; repeat' split
  all_goals rfl
@[simp] theorem setS_marks (c : Crew) (n : BitVec 6) (x : Word) : (setS c n x).marks = c.marks := by
  unfold setS; repeat' split
  all_goals rfl
@[simp] theorem setS_xsub (c : Crew) (n : BitVec 6) (x : Word) : (setS c n x).xsub = c.xsub := by
  unfold setS; repeat' split
  all_goals rfl
@[simp] theorem setS_xstat (c : Crew) (n : BitVec 6) (x : Word) : (setS c n x).xstat = c.xstat := by
  unfold setS; repeat' split
  all_goals rfl
@[simp] theorem setS_fprm (c : Crew) (n : BitVec 6) (x : Word) : (setS c n x).fprm = c.fprm := by
  unfold setS; repeat' split
  all_goals rfl
@[simp] theorem setS_srchchk (c : Crew) (n : BitVec 6) (x : Word) : (setS c n x).srchchk = c.srchchk := by
  unfold setS; repeat' split
  all_goals rfl
@[simp] theorem setS_prio (c : Crew) (n : BitVec 6) (x : Word) : (setS c n x).prio = c.prio := by
  unfold setS; repeat' split
  all_goals rfl
@[simp] theorem setS_launchrec (c : Crew) (n : BitVec 6) (x : Word) : (setS c n x).launchrec = c.launchrec := by
  unfold setS; repeat' split
  all_goals rfl
@[simp] theorem setS_argp (c : Crew) (n : BitVec 6) (x : Word) : (setS c n x).argp = c.argp := by
  unfold setS; repeat' split
  all_goals rfl
@[simp] theorem setS_cycles (c : Crew) (n : BitVec 6) (x : Word) : (setS c n x).cycles = c.cycles := by
  unfold setS; repeat' split
  all_goals rfl
@[simp] theorem setS_clausef (c : Crew) (n : BitVec 6) (x : Word) : (setS c n x).clausef = c.clausef := by
  unfold setS; repeat' split
  all_goals rfl
@[simp] theorem setS_trapcause (c : Crew) (n : BitVec 6) (x : Word) : (setS c n x).trapcause = c.trapcause := by
  unfold setS; repeat' split
  all_goals rfl
@[simp] theorem setS_trappc (c : Crew) (n : BitVec 6) (x : Word) : (setS c n x).trappc = c.trappc := by
  unfold setS; repeat' split
  all_goals rfl
@[simp] theorem setS_trapaddr (c : Crew) (n : BitVec 6) (x : Word) : (setS c n x).trapaddr = c.trapaddr := by
  unfold setS; repeat' split
  all_goals rfl
@[simp] theorem setS_trapinfo (c : Crew) (n : BitVec 6) (x : Word) : (setS c n x).trapinfo = c.trapinfo := by
  unfold setS; repeat' split
  all_goals rfl
@[simp] theorem setS_outSaved (c : Crew) (n : BitVec 6) (x : Word) : (setS c n x).outSaved = c.outSaved := by
  unfold setS; repeat' split
  all_goals rfl
@[simp] theorem setS_blkSaved (c : Crew) (n : BitVec 6) (x : Word) : (setS c n x).blkSaved = c.blkSaved := by
  unfold setS; repeat' split
  all_goals rfl
@[simp] theorem setS_tagcnt (c : Crew) (n : BitVec 6) (x : Word) : (setS c n x).tagcnt = c.tagcnt := by
  unfold setS; repeat' split
  all_goals rfl
@[simp] theorem setS_tagfail (c : Crew) (n : BitVec 6) (x : Word) : (setS c n x).tagfail = c.tagfail := by
  unfold setS; repeat' split
  all_goals rfl
@[simp] theorem setS_tagcause (c : Crew) (n : BitVec 6) (x : Word) : (setS c n x).tagcause = c.tagcause := by
  unfold setS; repeat' split
  all_goals rfl
@[simp] theorem setS_colls (c : Crew) (n : BitVec 6) (x : Word) : (setS c n x).colls = c.colls := by
  unfold setS; repeat' split
  all_goals rfl
@[simp] theorem setS_ring (c : Crew) (n : BitVec 6) (x : Word) : (setS c n x).ring = c.ring := by
  unfold setS; repeat' split
  all_goals rfl
@[simp] theorem setS_save (c : Crew) (n : BitVec 6) (x : Word) : (setS c n x).save = c.save := by
  unfold setS; repeat' split
  all_goals rfl
@[simp] theorem setS_woken (c : Crew) (n : BitVec 6) (x : Word) : (setS c n x).woken = c.woken := by
  unfold setS; repeat' split
  all_goals rfl
@[simp] theorem setS_land (c : Crew) (n : BitVec 6) (x : Word) : (setS c n x).land = c.land := by
  unfold setS; repeat' split
  all_goals rfl
@[simp] theorem setS_stores (c : Crew) (n : BitVec 6) (x : Word) : (setS c n x).stores = c.stores := by
  unfold setS; repeat' split
  all_goals rfl
@[simp] theorem setS_acks (c : Crew) (n : BitVec 6) (x : Word) : (setS c n x).acks = c.acks := by
  unfold setS; repeat' split
  all_goals rfl
@[simp] theorem setS_redq (c : Crew) (n : BitVec 6) (x : Word) : (setS c n x).redq = c.redq := by
  unfold setS; repeat' split
  all_goals rfl
@[simp] theorem setS_dups (c : Crew) (n : BitVec 6) (x : Word) : (setS c n x).dups = c.dups := by
  unfold setS; repeat' split
  all_goals rfl
@[simp] theorem setS_deferred (c : Crew) (n : BitVec 6) (x : Word) : (setS c n x).deferred = c.deferred := by
  unfold setS; repeat' split
  all_goals rfl
@[simp] theorem setS_status (c : Crew) (n : BitVec 6) (x : Word) : (setS c n x).status = c.status := by
  unfold setS; repeat' split
  all_goals rfl
@[simp] theorem setS_passedU (c : Crew) (n : BitVec 6) (x : Word) : (setS c n x).passedU = c.passedU := by
  unfold setS; repeat' split
  all_goals rfl
@[simp] theorem setS_passedL (c : Crew) (n : BitVec 6) (x : Word) : (setS c n x).passedL = c.passedL := by
  unfold setS; repeat' split
  all_goals rfl
@[simp] theorem setS_age (c : Crew) (n : BitVec 6) (x : Word) : (setS c n x).age = c.age := by
  unfold setS; repeat' split
  all_goals rfl
@[simp] theorem setS_yielded (c : Crew) (n : BitVec 6) (x : Word) : (setS c n x).yielded = c.yielded := by
  unfold setS; repeat' split
  all_goals rfl
@[simp] theorem setS_badStack (c : Crew) (n : BitVec 6) (x : Word) : (setS c n x).badStack = c.badStack := by
  unfold setS; repeat' split
  all_goals rfl

/-! ### A mark written -/

@[simp] theorem setM_uid (c : Crew) (n : BitVec 3) (x : ThreadSet) : (setM c n x).uid = c.uid := by unfold setM; split <;> rfl
@[simp] theorem setM_gid (c : Crew) (n : BitVec 3) (x : ThreadSet) : (setM c n x).gid = c.gid := by unfold setM; split <;> rfl
@[simp] theorem setM_core (c : Crew) (n : BitVec 3) (x : ThreadSet) : (setM c n x).core = c.core := by unfold setM; split <;> rfl
@[simp] theorem setM_slot (c : Crew) (n : BitVec 3) (x : ThreadSet) : (setM c n x).slot = c.slot := by unfold setM; split <;> rfl
@[simp] theorem setM_att (c : Crew) (n : BitVec 3) (x : ThreadSet) : (setM c n x).att = c.att := by unfold setM; split <;> rfl
@[simp] theorem setM_pc (c : Crew) (n : BitVec 3) (x : ThreadSet) : (setM c n x).pc = c.pc := by unfold setM; split <;> rfl
@[simp] theorem setM_base (c : Crew) (n : BitVec 3) (x : ThreadSet) : (setM c n x).base = c.base := by unfold setM; split <;> rfl
@[simp] theorem setM_pbank (c : Crew) (n : BitVec 3) (x : ThreadSet) : (setM c n x).pbank = c.pbank := by unfold setM; split <;> rfl
@[simp] theorem setM_tbank (c : Crew) (n : BitVec 3) (x : ThreadSet) : (setM c n x).tbank = c.tbank := by unfold setM; split <;> rfl
@[simp] theorem setM_bank (c : Crew) (n : BitVec 3) (x : ThreadSet) : (setM c n x).bank = c.bank := by unfold setM; split <;> rfl
@[simp] theorem setM_privl (c : Crew) (n : BitVec 3) (x : ThreadSet) : (setM c n x).privl = c.privl := by unfold setM; split <;> rfl
@[simp] theorem setM_clause (c : Crew) (n : BitVec 3) (x : ThreadSet) : (setM c n x).clause = c.clause := by unfold setM; split <;> rfl
@[simp] theorem setM_left (c : Crew) (n : BitVec 3) (x : ThreadSet) : (setM c n x).left = c.left := by unfold setM; split <;> rfl
@[simp] theorem setM_setA (c : Crew) (n : BitVec 3) (x : ThreadSet) : (setM c n x).setA = c.setA := by unfold setM; split <;> rfl
@[simp] theorem setM_setB (c : Crew) (n : BitVec 3) (x : ThreadSet) : (setM c n x).setB = c.setB := by unfold setM; split <;> rfl
@[simp] theorem setM_incs (c : Crew) (n : BitVec 3) (x : ThreadSet) : (setM c n x).incs = c.incs := by unfold setM; split <;> rfl
@[simp] theorem setM_outm (c : Crew) (n : BitVec 3) (x : ThreadSet) : (setM c n x).outm = c.outm := by unfold setM; split <;> rfl
@[simp] theorem setM_blk (c : Crew) (n : BitVec 3) (x : ThreadSet) : (setM c n x).blk = c.blk := by unfold setM; split <;> rfl
@[simp] theorem setM_act (c : Crew) (n : BitVec 3) (x : ThreadSet) : (setM c n x).act = c.act := by unfold setM; split <;> rfl
@[simp] theorem setM_stack (c : Crew) (n : BitVec 3) (x : ThreadSet) : (setM c n x).stack = c.stack := by unfold setM; split <;> rfl
@[simp] theorem setM_xsub (c : Crew) (n : BitVec 3) (x : ThreadSet) : (setM c n x).xsub = c.xsub := by unfold setM; split <;> rfl
@[simp] theorem setM_xstat (c : Crew) (n : BitVec 3) (x : ThreadSet) : (setM c n x).xstat = c.xstat := by unfold setM; split <;> rfl
@[simp] theorem setM_fprm (c : Crew) (n : BitVec 3) (x : ThreadSet) : (setM c n x).fprm = c.fprm := by unfold setM; split <;> rfl
@[simp] theorem setM_srchchk (c : Crew) (n : BitVec 3) (x : ThreadSet) : (setM c n x).srchchk = c.srchchk := by unfold setM; split <;> rfl
@[simp] theorem setM_prio (c : Crew) (n : BitVec 3) (x : ThreadSet) : (setM c n x).prio = c.prio := by unfold setM; split <;> rfl
@[simp] theorem setM_launchrec (c : Crew) (n : BitVec 3) (x : ThreadSet) : (setM c n x).launchrec = c.launchrec := by unfold setM; split <;> rfl
@[simp] theorem setM_argp (c : Crew) (n : BitVec 3) (x : ThreadSet) : (setM c n x).argp = c.argp := by unfold setM; split <;> rfl
@[simp] theorem setM_cycles (c : Crew) (n : BitVec 3) (x : ThreadSet) : (setM c n x).cycles = c.cycles := by unfold setM; split <;> rfl
@[simp] theorem setM_clausef (c : Crew) (n : BitVec 3) (x : ThreadSet) : (setM c n x).clausef = c.clausef := by unfold setM; split <;> rfl
@[simp] theorem setM_trapcause (c : Crew) (n : BitVec 3) (x : ThreadSet) : (setM c n x).trapcause = c.trapcause := by unfold setM; split <;> rfl
@[simp] theorem setM_trappc (c : Crew) (n : BitVec 3) (x : ThreadSet) : (setM c n x).trappc = c.trappc := by unfold setM; split <;> rfl
@[simp] theorem setM_trapaddr (c : Crew) (n : BitVec 3) (x : ThreadSet) : (setM c n x).trapaddr = c.trapaddr := by unfold setM; split <;> rfl
@[simp] theorem setM_trapinfo (c : Crew) (n : BitVec 3) (x : ThreadSet) : (setM c n x).trapinfo = c.trapinfo := by unfold setM; split <;> rfl
@[simp] theorem setM_outSaved (c : Crew) (n : BitVec 3) (x : ThreadSet) : (setM c n x).outSaved = c.outSaved := by unfold setM; split <;> rfl
@[simp] theorem setM_blkSaved (c : Crew) (n : BitVec 3) (x : ThreadSet) : (setM c n x).blkSaved = c.blkSaved := by unfold setM; split <;> rfl
@[simp] theorem setM_tagcnt (c : Crew) (n : BitVec 3) (x : ThreadSet) : (setM c n x).tagcnt = c.tagcnt := by unfold setM; split <;> rfl
@[simp] theorem setM_tagfail (c : Crew) (n : BitVec 3) (x : ThreadSet) : (setM c n x).tagfail = c.tagfail := by unfold setM; split <;> rfl
@[simp] theorem setM_tagcause (c : Crew) (n : BitVec 3) (x : ThreadSet) : (setM c n x).tagcause = c.tagcause := by unfold setM; split <;> rfl
@[simp] theorem setM_colls (c : Crew) (n : BitVec 3) (x : ThreadSet) : (setM c n x).colls = c.colls := by unfold setM; split <;> rfl
@[simp] theorem setM_ring (c : Crew) (n : BitVec 3) (x : ThreadSet) : (setM c n x).ring = c.ring := by unfold setM; split <;> rfl
@[simp] theorem setM_save (c : Crew) (n : BitVec 3) (x : ThreadSet) : (setM c n x).save = c.save := by unfold setM; split <;> rfl
@[simp] theorem setM_woken (c : Crew) (n : BitVec 3) (x : ThreadSet) : (setM c n x).woken = c.woken := by unfold setM; split <;> rfl
@[simp] theorem setM_land (c : Crew) (n : BitVec 3) (x : ThreadSet) : (setM c n x).land = c.land := by unfold setM; split <;> rfl
@[simp] theorem setM_stores (c : Crew) (n : BitVec 3) (x : ThreadSet) : (setM c n x).stores = c.stores := by unfold setM; split <;> rfl
@[simp] theorem setM_acks (c : Crew) (n : BitVec 3) (x : ThreadSet) : (setM c n x).acks = c.acks := by unfold setM; split <;> rfl
@[simp] theorem setM_redq (c : Crew) (n : BitVec 3) (x : ThreadSet) : (setM c n x).redq = c.redq := by unfold setM; split <;> rfl
@[simp] theorem setM_dups (c : Crew) (n : BitVec 3) (x : ThreadSet) : (setM c n x).dups = c.dups := by unfold setM; split <;> rfl
@[simp] theorem setM_deferred (c : Crew) (n : BitVec 3) (x : ThreadSet) : (setM c n x).deferred = c.deferred := by unfold setM; split <;> rfl
@[simp] theorem setM_status (c : Crew) (n : BitVec 3) (x : ThreadSet) : (setM c n x).status = c.status := by unfold setM; split <;> rfl
@[simp] theorem setM_passedU (c : Crew) (n : BitVec 3) (x : ThreadSet) : (setM c n x).passedU = c.passedU := by unfold setM; split <;> rfl
@[simp] theorem setM_passedL (c : Crew) (n : BitVec 3) (x : ThreadSet) : (setM c n x).passedL = c.passedL := by unfold setM; split <;> rfl
@[simp] theorem setM_age (c : Crew) (n : BitVec 3) (x : ThreadSet) : (setM c n x).age = c.age := by unfold setM; split <;> rfl
@[simp] theorem setM_yielded (c : Crew) (n : BitVec 3) (x : ThreadSet) : (setM c n x).yielded = c.yielded := by unfold setM; split <;> rfl
@[simp] theorem setM_badStack (c : Crew) (n : BitVec 3) (x : ThreadSet) : (setM c n x).badStack = c.badStack := by unfold setM; split <;> rfl

/-! ### A thread register written -/

@[simp] theorem setV_gid (g : Gallery) (t r : Nat) (x : Word) : (setV g t r x).gid = g.gid := rfl
@[simp] theorem setV_core (g : Gallery) (t r : Nat) (x : Word) : (setV g t r x).core = g.core := rfl
@[simp] theorem setV_slot (g : Gallery) (t r : Nat) (x : Word) : (setV g t r x).slot = g.slot := rfl
@[simp] theorem setV_nthr (g : Gallery) (t r : Nat) (x : Word) : (setV g t r x).nthr = g.nthr := rfl
@[simp] theorem setV_nblk (g : Gallery) (t r : Nat) (x : Word) : (setV g t r x).nblk = g.nblk := rfl
@[simp] theorem setV_vgran (g : Gallery) (t r : Nat) (x : Word) : (setV g t r x).vgran = g.vgran := rfl
@[simp] theorem setV_vbase (g : Gallery) (t r : Nat) (x : Word) : (setV g t r x).vbase = g.vbase := rfl
@[simp] theorem setV_live (g : Gallery) (t r : Nat) (x : Word) : (setV g t r x).live = g.live := rfl
@[simp] theorem setV_owner (g : Gallery) (t r : Nat) (x : Word) : (setV g t r x).owner = g.owner := rfl
@[simp] theorem setV_blkq (g : Gallery) (t r : Nat) (x : Word) : (setV g t r x).blkq = g.blkq := rfl
@[simp] theorem setV_rcd (g : Gallery) (t r : Nat) (x : Word) : (setV g t r x).rcd = g.rcd := rfl
@[simp] theorem setV_lanes (g : Gallery) (t r : Nat) (x : Word) : (setV g t r x).lanes = g.lanes := rfl
@[simp] theorem setV_reloc (g : Gallery) (t r : Nat) (x : Word) : (setV g t r x).reloc = g.reloc := rfl
@[simp] theorem setV_image (g : Gallery) (t r : Nat) (x : Word) : (setV g t r x).image = g.image := rfl
@[simp] theorem setV_since (g : Gallery) (t r : Nat) (x : Word) : (setV g t r x).since = g.since := rfl
@[simp] theorem setV_torn (g : Gallery) (t r : Nat) (x : Word) : (setV g t r x).torn = g.torn := rfl
@[simp] theorem setV_ender (g : Gallery) (t r : Nat) (x : Word) : (setV g t r x).ender = g.ender := rfl

end Sys2Proof.Machine
end

