-- ==== Sys2Proof/Laws/Memory.lean ====
section
/-!
SUPPORT. The laws of the stored maps and of memory: read after write, that every memory operation keeps the canonical
form, and what each of them leaves as it stands.
-/

namespace Sys2Proof.Machine

/-! ### Maps -/

theorem look_filter_other {α : Type} (d : α) (m : Sparse α) (k j : Nat) (h : j ≠ k) :
    look d (m.filter fun e => e.1 != k) j = look d m j := by
  induction m with
  | nil => rfl
  | cons e m ih =>
    obtain ⟨i, x⟩ := e
    by_cases hi : i = k
    · subst hi
      simp [look, ih, Ne.symm h]
    · simp [hi, look, ih]

theorem look_filter_same {α : Type} (d : α) (m : Sparse α) (k : Nat) : look d (m.filter fun e => e.1 != k) k = d := by
  induction m with
  | nil => rfl
  | cons e m ih =>
    obtain ⟨i, x⟩ := e
    by_cases hi : i = k
    · subst hi
      simp [ih]
    · simp [hi, look, ih]

theorem look_insertKey {α : Type} (d : α) (m : Sparse α) (k j : Nat) (x : α) (hm : ∀ e ∈ m, e.1 ≠ k) :
    look d (insertKey k x m) j = if j = k then x else look d m j := by
  induction m with
  | nil => simp [insertKey, look, eq_comm]
  | cons e m ih =>
    obtain ⟨i, y⟩ := e
    have hi : i ≠ k := hm (i, y) (by simp)
    have ih := ih fun e he => hm e (by simp [he])
    unfold insertKey
    by_cases hk : k < i
    · by_cases hj : j = k
      · subst hj; simp [hk, look]
      · simp [hk, look, hj, Ne.symm hj]
    · by_cases hj : j = k
      · subst hj; simp [hk, look, ih, hi]
      · by_cases hij : i = j
        · subst hij; simp [hk, look, hj]
        · simp [hk, look, ih, hj, hij]

/-- A map reads, at a key, what was last stored there, and elsewhere what it read before. -/
@[simp] theorem look_store {α : Type} [DecidableEq α] (d : α) (m : Sparse α) (k j : Nat) (x : α) :
    look d (store d m k x) j = if j = k then x else look d m j := by
  unfold store
  by_cases hx : x = d
  · subst hx
    by_cases hj : j = k
    · subst hj; simp [look_filter_same]
    · simp [hj, look_filter_other x m k j hj]
  · rw [if_neg hx, look_insertKey d _ k j x (by simp)]
    by_cases hj : j = k
    · simp [hj]
    · simp [hj, look_filter_other d m k j hj]

theorem tidyFrom_weaken {α : Type} [DecidableEq α] (d : α) {lo lo' : Nat} {m : Sparse α} (h : lo' ≤ lo)
    (hm : tidyFrom d lo m = true) : tidyFrom d lo' m = true := by
  cases m with
  | nil => rfl
  | cons e m =>
    simp only [tidyFrom, Bool.and_eq_true, decide_eq_true_eq] at hm ⊢
    exact ⟨⟨by omega, hm.1.2⟩, hm.2⟩

/-- Entries taken out of a map in canonical form leave one. -/
theorem tidyFrom_filter {α : Type} [DecidableEq α] (d : α) (p : Nat × α → Bool) (m : Sparse α) :
    ∀ lo, tidyFrom d lo m = true → tidyFrom d lo (m.filter p) = true := by
  induction m with
  | nil => intro lo _; rfl
  | cons e m ih =>
    intro lo h
    obtain ⟨i, x⟩ := e
    simp only [tidyFrom, Bool.and_eq_true, decide_eq_true_eq] at h
    by_cases hp : p (i, x) = true
    · rw [List.filter_cons_of_pos hp]
      simp only [tidyFrom, Bool.and_eq_true, decide_eq_true_eq]
      exact ⟨h.1, ih _ h.2⟩
    · rw [List.filter_cons_of_neg hp]
      exact tidyFrom_weaken d (by omega) (ih _ h.2)

theorem tidyFrom_insertKey {α : Type} [DecidableEq α] (d : α) (k : Nat) (x : α) (hx : x ≠ d) (m : Sparse α) :
    ∀ lo, lo ≤ k → tidyFrom d lo m = true → (∀ e ∈ m, e.1 ≠ k) → tidyFrom d lo (insertKey k x m) = true := by
  induction m with
  | nil => intro lo hlo _ _; simp [insertKey, tidyFrom, hlo, hx]
  | cons e m ih =>
    intro lo hlo h hm
    obtain ⟨i, y⟩ := e
    have hi : i ≠ k := hm (i, y) (by simp)
    unfold insertKey
    by_cases hk : k < i
    · rw [if_pos hk]
      simp only [tidyFrom, Bool.and_eq_true, decide_eq_true_eq] at h ⊢
      exact ⟨⟨hlo, by simp [hx]⟩, ⟨by omega, h.1.2⟩, h.2⟩
    · rw [if_neg hk]
      simp only [tidyFrom, Bool.and_eq_true, decide_eq_true_eq] at h ⊢
      exact ⟨h.1, ih _ (by omega) h.2 fun e he => hm e (by simp [he])⟩

/-- A store keeps the canonical form of a map. -/
theorem tidy_store {α : Type} [DecidableEq α] (d : α) (m : Sparse α) (k : Nat) (x : α) (h : tidy d m = true) :
    tidy d (store d m k x) = true := by
  unfold store tidy
  by_cases hx : x = d
  · rw [if_pos hx]; exact tidyFrom_filter d _ m 0 h
  · rw [if_neg hx]
    exact tidyFrom_insertKey d k x hx _ 0 (Nat.zero_le _) (tidyFrom_filter d _ m 0 h) (by simp)

/-- A filter keeps the canonical form of a map. -/
theorem tidy_filter {α : Type} [DecidableEq α] (d : α) (p : Nat × α → Bool) (m : Sparse α) (h : tidy d m = true) :
    tidy d (m.filter p) = true := tidyFrom_filter d p m 0 h

/-- Stores one after another keep the canonical form of a map. -/
theorem tidy_foldl_store {α β : Type} [DecidableEq α] (d : α) (key : β → Nat) (val : β → α) (l : List β) :
    ∀ m : Sparse α, tidy d m = true → tidy d (l.foldl (fun m x => store d m (key x) (val x)) m) = true := by
  induction l with
  | nil => intro m h; exact h
  | cons x l ih => intro m h; exact ih _ (tidy_store d m _ _ h)

/-! ### Numbers and bytes -/

@[simp] theorem toBytes_length (n x : Nat) : (toBytes n x).length = n := by
  induction n generalizing x with
  | zero => rfl
  | succ n ih => simp [toBytes, ih]

theorem ofBytes_toBytes (n x : Nat) : ofBytes (toBytes n x) = x % 2 ^ (8 * n) := by
  induction n generalizing x with
  | zero => simp [toBytes, ofBytes, Nat.mod_one]
  | succ n ih =>
    have h : 2 ^ (8 * (n + 1)) = 2 ^ 8 * 2 ^ (8 * n) := by rw [← Nat.pow_add]; congr 1; omega
    rw [toBytes, ofBytes, ih, h, Nat.mod_mul, BitVec.toNat_ofNat]

theorem ofBytes_lt (bs : List Byte) : ofBytes bs < 2 ^ (8 * bs.length) := by
  induction bs with
  | nil => simp [ofBytes]
  | cons b bs ih =>
    have h : 2 ^ (8 * (bs.length + 1)) = 2 ^ 8 * 2 ^ (8 * bs.length) := by rw [← Nat.pow_add]; congr 1; omega
    have hb := b.isLt
    rw [ofBytes, List.length_cons, h]
    omega

/-- Byte `k` of a number given by its bytes. -/
theorem bits_ofBytes (bs : List Byte) : ∀ k, k < bs.length → bits (ofBytes bs) (8 * k) 8 = (bs.getD k 0).toNat := by
  induction bs with
  | nil => intro k h; simp at h
  | cons b bs ih =>
    intro k h
    have hb := b.isLt
    cases k with
    | zero => simp [ofBytes, bits]; omega
    | succ k =>
      have hk : 2 ^ (8 * (k + 1)) = 2 ^ 8 * 2 ^ (8 * k) := by rw [← Nat.pow_add]; congr 1; omega
      have := ih k (by simpa using h)
      simp only [ofBytes, bits] at this ⊢
      rw [hk, ← Nat.div_div_eq_div_mul, show (b.toNat + 2 ^ 8 * ofBytes bs) / 2 ^ 8 = ofBytes bs by omega]
      simpa using this

@[simp] theorem readBytes_length (s : State) (pa n : Nat) : (readBytes s pa n).length = n := by
  induction n generalizing pa with
  | zero => rfl
  | succ n ih => simp [readBytes, ih]

theorem readBytes_getD (s : State) (n : Nat) : ∀ pa k, k < n → (readBytes s pa n).getD k 0 = readByte s (pa + k) := by
  induction n with
  | zero => intro pa k h; omega
  | succ n ih =>
    intro pa k h
    cases k with
    | zero => rfl
    | succ k => rw [show pa + (k + 1) = pa + 1 + k by omega, ← ih (pa + 1) k (by omega)]; rfl

theorem readNat_lt (s : State) (pa n : Nat) : readNat s pa n < 2 ^ (8 * n) := by
  have := ofBytes_lt (readBytes s pa n)
  simpa [readNat] using this

/-! ### Memory -/

@[simp] theorem inRom_writeByte (s : State) (pa a : Nat) (b : Byte) : inRom (writeByte s pa b) a = inRom s a := by
  unfold writeByte; split <;> rfl

/-- A byte of memory after one byte is written. -/
theorem readByte_writeByte (s : State) (pa a : Nat) (b : Byte) :
    readByte (writeByte s pa b) a = if a = pa ∧ inRom s a = false then b else readByte s a := by
  unfold writeByte
  by_cases hr : inRom s pa = true
  · rw [if_pos hr, if_neg]
    rintro ⟨rfl, h⟩; simp [hr] at h
  · rw [if_neg hr]
    show (if inRom s a = true then _ else look 0 (store 0 s.mem pa b) a) = _
    rw [look_store]
    by_cases ha : a = pa
    · subst ha; simp [hr]
    · simp [ha, readByte]

theorem writeByte_mem (s : State) (pa : Nat) (b : Byte) : writeByte s pa b = { s with mem := (writeByte s pa b).mem } := by
  unfold writeByte; split <;> rfl

theorem writeByte_wf (s : State) (pa : Nat) (b : Byte) (h : Memory.wf s.mem = true) :
    Memory.wf (writeByte s pa b).mem = true := by
  unfold writeByte; split
  · exact h
  · exact tidy_store 0 s.mem pa b h

/-- Bytes written change nothing but memory. -/
theorem writeBytes_mem (bs : List Byte) : ∀ (s : State) (pa : Nat),
    writeBytes s pa bs = { s with mem := (writeBytes s pa bs).mem } := by
  induction bs with
  | nil => intro s pa; rfl
  | cons b bs ih =>
    intro s pa
    unfold writeBytes
    rw [ih (writeByte s pa b) (pa + 1), writeByte_mem]

/-- Bytes written keep the canonical form of memory. -/
theorem writeBytes_wf (bs : List Byte) : ∀ (s : State) (pa : Nat), Memory.wf s.mem = true →
    Memory.wf (writeBytes s pa bs).mem = true := by
  induction bs with
  | nil => intro s pa h; exact h
  | cons b bs ih => intro s pa h; exact ih _ _ (writeByte_wf s pa b h)

@[simp] theorem inRom_writeBytes (bs : List Byte) (s : State) (pa a : Nat) : inRom (writeBytes s pa bs) a = inRom s a := by
  rw [writeBytes_mem]; rfl

/-- A byte of memory after some bytes are written. -/
theorem readByte_writeBytes (bs : List Byte) : ∀ (s : State) (pa a : Nat),
    readByte (writeBytes s pa bs) a =
      if pa ≤ a ∧ a < pa + bs.length ∧ inRom s a = false then bs.getD (a - pa) 0 else readByte s a := by
  induction bs with
  | nil => intro s pa a; rw [if_neg (by simp; omega)]; rfl
  | cons b bs ih =>
    intro s pa a
    unfold writeBytes
    rw [ih, readByte_writeByte, inRom_writeByte]
    by_cases ha : a = pa
    · subst ha; simp
    · by_cases h : pa + 1 ≤ a ∧ a < pa + 1 + bs.length ∧ inRom s a = false
      · rw [if_pos h, if_pos ⟨by omega, by rw [List.length_cons]; omega, h.2.2⟩,
          show a - pa = (a - (pa + 1)) + 1 by omega]; rfl
      · rw [if_neg h, if_neg (by simp [ha]), if_neg]
        rintro ⟨h1, h2, h3⟩
        rw [List.length_cons] at h2
        exact h ⟨by omega, by omega, h3⟩

/-! ### Vaults -/

theorem writeVault_vault (bs : List Byte) : ∀ (s : State) (a : Nat),
    writeVault s a bs = { s with vault := (writeVault s a bs).vault } := by
  induction bs with
  | nil => intro s a; rfl
  | cons b bs ih => intro s a; unfold writeVault; rw [ih]

/-- Bytes written to a vault keep the canonical form. -/
theorem writeVault_tidy (bs : List Byte) : ∀ (s : State) (a : Nat), tidy 0 s.vault = true →
    tidy 0 (writeVault s a bs).vault = true := by
  induction bs with
  | nil => intro s a h; exact h
  | cons b bs ih => intro s a h; exact ih _ _ (tidy_store 0 s.vault a b h)

/-- A byte of a vault after some bytes are written. -/
theorem readVault_writeVault (bs : List Byte) : ∀ (s : State) (x a : Nat),
    readVault (writeVault s x bs) a =
      if x ≤ a ∧ a < x + bs.length then bs.getD (a - x) 0 else readVault s a := by
  induction bs with
  | nil => intro s x a; rw [if_neg (by simp)]; rfl
  | cons b bs ih =>
    intro s x a
    unfold writeVault
    rw [ih]
    by_cases ha : a = x
    · subst ha; simp [readVault]
    · by_cases h : x + 1 ≤ a ∧ a < x + 1 + bs.length
      · rw [if_pos h, if_pos (by simp; omega), show a - x = (a - (x + 1)) + 1 by omega]; rfl
      · rw [if_neg h, if_neg]
        · simp [readVault, ha]
        · rintro ⟨h1, h2⟩
          rw [List.length_cons] at h2
          exact h ⟨by omega, by omega⟩

end Sys2Proof.Machine
end

