-- ==== Sys2Proof/Laws/Engines.lean ====
section
/-!
SUPPORT. What an engine reads: the accesses that a run of bytes is cut into give the bytes in order, where each of them
passes its checks. And what a sender makes of a flit.
-/

namespace Sys2Proof.Machine

theorem vaultBytes_eq (s : State) (n : Nat) : ∀ a, vaultBytes s a n = (List.range n).map fun x => readVault s (a + x) := by
  induction n with
  | zero => intro a; rfl
  | succ n ih =>
    intro a
    rw [vaultBytes, ih, List.range_succ_eq_map, List.map_cons, List.map_map]
    simp [Function.comp_def, Nat.add_assoc, Nat.add_comm 1]

theorem readBytes_eq (s : State) (n : Nat) : ∀ a, readBytes s a n = (List.range n).map fun x => readByte s (a + x) := by
  induction n with
  | zero => intro a; rfl
  | succ n ih =>
    intro a
    rw [readBytes, ih, List.range_succ_eq_map, List.map_cons, List.map_map]
    simp [Function.comp_def, Nat.add_assoc, Nat.add_comm 1]

/-- An engine's access gives the bytes of `r`. -/
def AccessSees (s : State) (k : Client) (vault : Bool) (a n : Nat) (r : Nat → Byte) : Prop :=
  (∃ x, engAt s k.g k.foreman false vault a n = .ok (.vault x) ∧ ∀ i, i < n → readVault s (x + i) = r (a + i)) ∨
  (∃ x, engAt s k.g k.foreman false vault a n = .ok (.global x) ∧ ∀ i, i < n → readByte s (x + i) = r (a + i))

/-- A run of bytes reads as `r` where every access of it does (R190, R263). -/
theorem sees_of_accesses (s : State) (k : Client) (vault : Bool) (lo hi : Nat) (r : Nat → Byte)
    (h : ∀ a n, 0 < n → n ≤ 8 → a % 8 + n ≤ 8 → lo ≤ a → a + n ≤ hi → AccessSees s k vault a n r) :
    Sees s k vault lo hi r := by
  have key : ∀ f a n, n ≤ f → lo ≤ a → a + n ≤ hi →
      engReadPieces k vault (pieces f a n) s = .ok (s, (List.range n).map fun x => r (a + x)) := by
    intro f
    induction f with
    | zero => intro a n hn _ _; obtain rfl : n = 0 := by omega
              rfl
    | succ f ih =>
      intro a n hn hl hh
      cases n with
      | zero => rfl
      | succ n =>
        have hm : 0 < min (n + 1) (8 - a % 8) ∧ min (n + 1) (8 - a % 8) ≤ n + 1 ∧ a % 8 + min (n + 1) (8 - a % 8) ≤ 8 := by
          omega
        have rest := ih (a + min (n + 1) (8 - a % 8)) (n + 1 - min (n + 1) (8 - a % 8)) (by omega) (by omega) (by omega)
        have split : (List.range (n + 1)).map (fun x => r (a + x)) =
            (List.range (min (n + 1) (8 - a % 8))).map (fun x => r (a + x)) ++
            (List.range (n + 1 - min (n + 1) (8 - a % 8))).map (fun x => r (a + min (n + 1) (8 - a % 8) + x)) := by
          conv_lhs => rw [show n + 1 = min (n + 1) (8 - a % 8) + (n + 1 - min (n + 1) (8 - a % 8)) by omega]
          rw [List.range_add, List.map_append, List.map_map]
          simp only [Function.comp_def, Nat.add_assoc]
        rw [split]
        have ok := h a (min (n + 1) (8 - a % 8)) hm.1 (by omega) hm.2.2 hl (by omega)
        rw [pieces, engReadPieces]
        rcases ok with ⟨x, hx, hb⟩ | ⟨x, hx, hb⟩
        · simp only [hx, rest, vaultBytes_eq]
          congr 3
          exact List.map_congr_left fun i hi => hb i (List.mem_range.mp hi)
        · simp only [hx, rest, readBytes_eq]
          congr 3
          exact List.map_congr_left fun i hi => hb i (List.mem_range.mp hi)
  intro a n hl hh
  exact key n a n (Nat.le_refl n) hl hh

/-- An engine that works for a foreman of a part without translation sees the memory of the HBM as it stands, where no
word of it is uncorrectable and no region or Relay owns storage (R181, R263). -/
theorem sees_flat (s : State) (k : Client) (lo hi : Nat) (hk : k.foreman = true) (ha : galAsn k.g = 0)
    (hd : s.boot.dirbase.getD k.g.rcd.part 0 = 0) (hb : hi ≤ 0xA000000000)
    (hp : s.poison = []) (hr : s.regions = []) (hs : s.relays = []) : Sees s k false lo hi (readByte s) := by
  refine sees_of_accesses s k false lo hi _ fun a n h0 _ _ hl hh => .inr ⟨a, ?_, fun _ _ => rfl⟩
  have h : translate s k.g.rcd.part (galAsn k.g) true false needR a = .ok ⟨a, homeSlice s k.g.rcd.part a false⟩ := by
    unfold translate
    rw [if_neg (by omega), if_pos (by simpa [ha] using hd), if_pos (by simp [inHbm]; omega)]
  simp [engAt, hk, h, inPools, inSpill, inRelayStore, poisoned, hp, hr, hs]

/-- An engine sees a run of a vault that lies in one half of its own address space (R174, R263). -/
theorem sees_vault (s : State) (k : Client) (lo hi : Nat) (hv : s.badVault = [])
    (hc : ∀ a, lo ≤ a → a < hi → relocate k.g a = a ∧ a < 2 ^ 32 ∧
      checkVault s k.g.rcd.part 4 (if k.foreman then 2 else 0) (galAsn k.g) a 1 = .ok ()) :
    Sees s k true lo hi (readVault s) := by
  refine sees_of_accesses s k true lo hi _ fun a n h0 _ _ hl hh => .inl ⟨a, ?_, fun _ _ => rfl⟩
  obtain ⟨h1, h2, h3⟩ := hc a hl (by omega)
  simp [engAt, h1, h3, poisoned, hv]
  omega

/-- A flit as its sender makes it: the correction leaves it, and its CRC holds. -/
theorem flit_holds (dst src vc : Nat) (seq : BitVec 12) (header payload : List Byte) :
    fecFix (flitOf dst src vc seq header payload) = flitOf dst src vc seq header payload ∧
    crcHolds (flitOf dst src vc seq header payload) = true := by
  have w (x : BitVec 64) : BitVec.ofNat 64 (ofBytes (toBytes 8 x.toNat)) = x := by
    rw [ofBytes_toBytes]; apply BitVec.eq_of_toNat_eq; simpa using x.isLt
  have key (body : List Byte) (h : body.length = 240) :
      let c := body ++ toBytes 8 (Config.flitCrc body).toNat
      let f := c ++ toBytes 8 (Config.flitParity c).toNat
      fecFix f = f ∧ crcHolds f = true := by
    intro c f
    have lc : c.length = 248 := by simp [c, h]
    have lf : f.length = 256 := by simp [f, lc]
    have p : parityHolds f = true := by
      simp only [parityHolds, lf, beq_self_eq_true, Bool.true_and, beq_iff_eq, f]
      rw [List.drop_left' lc, List.take_left' lc, w]
    have q : (f.drop 240).take 8 = toBytes 8 (Config.flitCrc body).toNat := by
      simp only [f, c, List.append_assoc, List.drop_left' h]
      exact List.take_left' (toBytes_length 8 _)
    have r : f.take 240 = body := by
      simp only [f, c, List.append_assoc]
      exact List.take_left' h
    refine ⟨by simp [fecFix, p], ?_⟩
    simp [crcHolds, lf, q, r, w]
  refine key _ ?_
  simp only [List.length_append, toBytes_length, List.length_take, List.length_replicate]
  omega

end Sys2Proof.Machine
end

