-- ==== Sys2Proof/Laws/Loader.lean ====
section
/-!
SUPPORT. What the loader's search for room can answer (R380, R383; log 18): whatever place it begins at, it finds a place
that passes its test exactly where there is one, and a section that it finds is free.
-/

namespace Sys2Proof.Machine

/-- A search that ends names the first number that passes. -/
theorem searchFrom_some {ok : Nat → Bool} {fuel x k : Nat} (h : searchFrom ok fuel x = some k) :
    x ≤ k ∧ k < x + fuel ∧ ok k = true := by
  induction fuel generalizing x with
  | zero => simp [searchFrom] at h
  | succ n ih =>
    rw [searchFrom] at h
    split at h
    · next hx => cases h; exact ⟨Nat.le_refl _, by omega, hx⟩
    · obtain ⟨h1, h2, h3⟩ := ih h
      exact ⟨by omega, by omega, h3⟩

/-- A search that ends without a number has found that none passes. -/
theorem searchFrom_none {ok : Nat → Bool} {fuel x : Nat} (h : searchFrom ok fuel x = none) :
    ∀ j, x ≤ j → j < x + fuel → ok j = false := by
  induction fuel generalizing x with
  | zero => intro j h1 h2; omega
  | succ n ih =>
    rw [searchFrom] at h
    split at h
    · cases h
    · next hx =>
      intro j h1 h2
      obtain rfl | h3 := Nat.eq_or_lt_of_le h1
      · simpa using hx
      · exact ih h j h3 (by omega)

/-- What is found in a circle lies in it and passes. -/
theorem firstFree_some {n start k : Nat} {ok : Nat → Bool} (h : firstFree n start ok = some k) (hn : 0 < n) :
    k < n ∧ ok k = true := by
  obtain ⟨j, hj, rfl⟩ := Option.map_eq_some_iff.mp h
  exact ⟨Nat.mod_lt _ hn, (searchFrom_some hj).2.2⟩

/-- Nothing is found in a circle only where nothing in it passes. -/
theorem firstFree_none {n start : Nat} {ok : Nat → Bool} (h : firstFree n start ok = none) :
    ∀ k, k < n → ok k = false := by
  intro k hk
  have hs := Nat.mod_lt start (Nat.zero_lt_of_lt hk)
  have h0 := searchFrom_none (Option.map_eq_none_iff.mp h)
  by_cases hle : start % n ≤ k
  · simpa [Nat.mod_eq_of_lt hk] using h0 k hle (by omega)
  · simpa [Nat.mod_eq_of_lt hk] using h0 (k + n) (by omega) (by omega)

/-- Room that is found is free, begins at a multiple of a page and of the alignment, and is as long as it must be. -/
theorem roomFor_some {s : State} {part asn : Nat} {used : List Span} {align n start : Nat} {x : Span}
    (h : roomFor s part asn used align n start = some x) :
    spanFree s part asn used x = true ∧ x.base % 4096 = 0 ∧ x.base % max 1 align = 0 ∧ x.pages = (n + 4095) / 4096 := by
  obtain ⟨k, hk, rfl⟩ := Option.map_eq_some_iff.mp h
  obtain ⟨j, hj, -⟩ := Option.map_eq_some_iff.mp hk
  refine ⟨by obtain ⟨i, hi, rfl⟩ := Option.map_eq_some_iff.mp hk; exact (searchFrom_some hi).2.2, ?_, ?_, rfl⟩
  · exact Nat.mod_eq_zero_of_dvd (Dvd.dvd.mul_right (Nat.dvd_lcm_left ..) k)
  · exact Nat.mod_eq_zero_of_dvd (Dvd.dvd.mul_right (Nat.dvd_lcm_right ..) k)

/-- There is no room only where no place for it is free. -/
theorem roomFor_none {s : State} {part asn : Nat} {used : List Span} {align n start : Nat}
    (h : roomFor s part asn used align n start = none) :
    ∀ k, k < 2 ^ 57 / Nat.lcm 4096 (max 1 align) →
      spanFree s part asn used ⟨Nat.lcm 4096 (max 1 align) * k, (n + 4095) / 4096⟩ = false :=
  firstFree_none (Option.map_eq_none_iff.mp h)

end Sys2Proof.Machine
end

