-- ==== Sys2Proof/Laws/Ops.lean ====
section
/-!
SUPPORT. What the shared operations do: the registers, how a word ends, what issue answers, and that every operation of
Machine/Ops.lean keeps memory, the vaults and the tiles in canonical form.
-/

namespace Sys2Proof.Machine

/-! ### Issue -/

/-- A word that none of the checks stops has its effect. -/
theorem issue_ready {i : Instr} {s : State} (h : Ready i s) (f : State → State) : issue i s f = .next (f s) := by
  unfold issue; rw [show gate i s = none from h]

/-- A word that is no jump to a register has no target to check. -/
theorem targetFault_none {i : Instr} (s : State) (h : targetReg i = none) : targetFault i s = none := by
  simp [targetFault, h]

/-- The checks of a word that is no jump to a register. -/
theorem gate_eq {i : Instr} (s : State) (h : targetReg i = none) : gate i s = wordFault i s := by
  simp [gate, targetFault_none s h]

/-- A word that a check stops takes its trap. -/
theorem issue_trap {i : Instr} {s : State} {t : TrapReq} (h : gate i s = some t) (f : State → State) :
    issue i s f = .next (takeTrap s t) := by
  unfold issue; rw [h]

/-- Issue answers a next state. -/
theorem issue_next (i : Instr) (s : State) (f : State → State) : ∃ t, issue i s f = .next t := by
  unfold issue; split <;> exact ⟨_, rfl⟩

/-- A property that a trap and the effect both keep holds of whatever issue answers. -/
theorem issue_keeps {P : State → Prop} {i : Instr} {s t : State} {f : State → State} (hs : P s)
    (htrap : ∀ q, P s → P (takeTrap s q)) (hf : P s → P (f s)) (h : issue i s f = .next t) : P t := by
  unfold issue at h
  split at h
  · cases h; exact htrap _ hs
  · cases h; exact hf hs

/-! ### Registers -/

theorem getS_setS_same (c : Crew) (d : BitVec 6) (x : Word) : getS (setS c d x) d = if d = 0 then 0 else x := by
  have hd := d.isLt
  by_cases h0 : d = 0
  · subst h0; simp [getS]
  · have h1 : d.toNat ≠ 0 := fun h => h0 (BitVec.eq_of_toNat_eq (by simpa using h))
    rw [if_neg h0]
    unfold setS getS Crew.mendReg
    by_cases h48 : d.toNat < 48
    · simp [h1, h48, Vector.getD]
    · have h2 : d.toNat - 48 < 16 := by omega
      cases c.bank <;> simp [h1, h48, h2, Vector.getD]

theorem getS_setS_other (c : Crew) (d r : BitVec 6) (x : Word) (h : r ≠ d) : getS (setS c d x) r = getS c r := by
  have hd := d.isLt
  have hr := r.isLt
  have hn : d.toNat ≠ r.toNat := fun e => h (BitVec.eq_of_toNat_eq e.symm)
  unfold setS Crew.mendReg
  split
  · rfl
  · split
    · unfold getS
      split
      · rfl
      · split
        · simp [Vector.getD, *]
        · rfl
    · split
      · unfold getS
        split
        · rfl
        · split
          · rfl
          · have : d.toNat - 48 ≠ r.toNat - 48 := by omega
            simp [Vector.getD, *]
      · unfold getS
        split
        · rfl
        · split
          · rfl
          · have : d.toNat - 48 ≠ r.toNat - 48 := by omega
            simp [Vector.getD, *]

/-- A scalar register file after a write. -/
theorem scalarWritten_setS (c : Crew) (d : BitVec 6) (x : Word) : ScalarWritten c (setS c d x) d x where
  dest := getS_setS_same c d x
  others r h := getS_setS_other c d r x h
  bank := by unfold setS Crew.mendReg; repeat' split
             all_goals simp_all
  errors r := by
    have e : d.toNat = 0 ↔ d = 0 :=
      ⟨fun h => BitVec.eq_of_toNat_eq (by simpa using h), fun h => by simp [h]⟩
    unfold setS Crew.mendReg
    by_cases h : d = 0
    · simp [h]
    · have h0 : d.toNat ≠ 0 := fun x => h (e.1 x)
      rw [if_neg h0]
      have h' : ¬ d = 0#6 := h
      repeat' split
      all_goals simp [h']

theorem setS_withScalars (c : Crew) (d : BitVec 6) (x : Word) : setS c d x = c.withScalars (setS c d x) := by
  unfold setS Crew.withScalars Crew.mendReg; repeat' split
  all_goals rfl

/-! ### The end of a word -/

theorem flagCount_retire_le (c : Crew) (f : Nat) : flagCount (retire c) f ≤ flagCount c f := by
  unfold flagCount retire
  exact (List.filter_sublist.filter _).length_le

theorem wordEnded_past (c : Crew) : WordEnded c c.past where
  pc := rfl
  left := rfl
  blk := rfl
  status := rfl
  incs := rfl

/-- What is kept of the counts of completion flags never raises one. -/
theorem CountsKept.flagCount_le {c c' : Crew} (h : CountsKept c c') (f : Nat) : flagCount c' f ≤ flagCount c f := by
  have := flagCount_retire_le { c' with incs := c.incs } f
  rw [CountsKept] at h
  simpa [flagCount, h] using this

/-- A word that changes its crew to `c` and ends. -/
theorem crewEffect_done (s : State) (c : Crew) (hp : c.pc = s.c.pc) (hl : c.left = s.c.left) (hb : c.blk = s.c.blk)
    (hi : c.incs = s.c.incs) : CrewEffect s (done { s with c := c }) c where
  ended :=
    { pc := by simp [Crew.past, hp], left := by simp [Crew.past, hl], blk := by simp [Crew.past, hb]
      status := rfl
      incs := by rw [CountsKept, ← hi]; rfl }
  crew := rfl
  rest := rfl

/-- A word that writes a scalar result and ends. -/
theorem scalarEffect_doneS (s : State) (d : BitVec 6) (x : Word) : ScalarEffect s (doneS s d x) d x where
  ended := (crewEffect_done s (setS s.c d x) (by simp) (by simp) (by simp) (by simp)).ended
  written :=
    { dest := (scalarWritten_setS s.c d x).dest
      others := (scalarWritten_setS s.c d x).others
      errors := (scalarWritten_setS s.c d x).errors
      bank := (scalarWritten_setS s.c d x).bank }
  crew := by
    have e := setS_withScalars s.c d x
    show (setS s.c d x).past = (s.c.withScalars (setS s.c d x).past).withEnd (setS s.c d x).past
    generalize setS s.c d x = c at e
    exact congrArg (fun q => (q.withScalars c.past).withEnd c.past) e
  rest := rfl

/-- A transfer of control. -/
theorem jumpEffect_jump (s : State) (a : Word) : JumpEffect s (jump s a) a s.c where
  incs := rfl
  crew := rfl
  rest := rfl

theorem waits_hold (s : State) : Waits s (hold s) := rfl

/-- A long-latency scalar result. -/
theorem longScalar_landScalar (s : State) (d : BitVec 6) (x : Word) : LongScalar s (landScalar s d x) d x := by
  unfold LongScalar landScalar
  by_cases h : d = 0
  · subst h
    simpa using crewEffect_done s s.c rfl rfl rfl rfl
  · have h0 : d.toNat ≠ 0 := fun e => h (BitVec.eq_of_toNat_eq (by simpa using e))
    rw [if_neg h, if_neg h0]
    have e := crewEffect_done s
      { markOut s.c (.s d) with land := s.c.land ++ [⟨s.c.clause, .scalar d x, 0⟩] } rfl rfl rfl rfl
    exact { ended := e.ended, crew := rfl, rest := rfl }

/-! ### The canonical form -/

theorem tidy_iff (s : State) : s.tidy = true ↔ Memory.wf s.mem = true ∧ tidy 0 s.vault = true ∧ tidy 0 s.tiles = true := by
  simp [State.tidy, and_assoc]

/-- The canonical form rests on three fields. -/
theorem tidy_of_eq {s t : State} (h : s.tidy = true) (hm : t.mem = s.mem) (hv : t.vault = s.vault)
    (ht : t.tiles = s.tiles) : t.tidy = true := by
  unfold State.tidy at h ⊢; rw [hm, hv, ht]; exact h

theorem tidy_foldl {α : Type} (f : State → α → State) (hf : ∀ s x, s.tidy = true → (f s x).tidy = true) (l : List α) :
    ∀ s, s.tidy = true → (l.foldl f s).tidy = true := by
  induction l with
  | nil => intro s h; exact h
  | cons x l ih => intro s h; exact ih _ (hf s x h)

theorem tidy_writeByte (s : State) (pa : Nat) (b : Byte) (h : s.tidy = true) : (writeByte s pa b).tidy = true := by
  rw [tidy_iff] at h ⊢
  rw [writeByte_mem]
  exact ⟨writeByte_wf s pa b h.1, h.2.1, h.2.2⟩

theorem tidy_writeBytes (s : State) (pa : Nat) (bs : List Byte) (h : s.tidy = true) :
    (writeBytes s pa bs).tidy = true := by
  rw [tidy_iff] at h ⊢
  rw [writeBytes_mem]
  exact ⟨writeBytes_wf bs s pa h.1, h.2.1, h.2.2⟩

theorem tidy_writeNat (s : State) (pa n x : Nat) (h : s.tidy = true) : (writeNat s pa n x).tidy = true :=
  tidy_writeBytes s pa _ h

theorem tidy_writeVault (s : State) (a : Nat) (bs : List Byte) (h : s.tidy = true) :
    (writeVault s a bs).tidy = true := by
  rw [tidy_iff] at h ⊢
  rw [writeVault_vault]
  exact ⟨h.1, writeVault_tidy bs s a h.2.1, h.2.2⟩

theorem tidy_onCrew (s : State) (uid : Nat) (f : Crew → Crew) (h : s.tidy = true) : (s.onCrew uid f).tidy = true := by
  unfold State.onCrew; split <;> exact tidy_of_eq h rfl rfl rfl

theorem tidy_onGal (s : State) (gid : Nat) (f : Gallery → Gallery) (h : s.tidy = true) :
    (s.onGal gid f).tidy = true := by
  unfold State.onGal; split <;> exact tidy_of_eq h rfl rfl rfl

theorem tidy_onCrewsOf (s : State) (gid : Nat) (f : Crew → Crew) (h : s.tidy = true) :
    (s.onCrewsOf gid f).tidy = true := tidy_of_eq h rfl rfl rfl

theorem tidy_focus (s : State) (uid : Nat) (h : s.tidy = true) : (s.focus uid).tidy = true := by
  unfold State.focus
  split
  · exact h
  · split
    · exact h
    · dsimp only
      split
      · exact tidy_of_eq h rfl rfl rfl
      · split <;> exact tidy_of_eq h rfl rfl rfl

theorem tidy_inFocus (s : State) (uid : Nat) (f : State → State) (h : s.tidy = true)
    (hf : ∀ s, s.tidy = true → (f s).tidy = true) : (inFocus s uid f).tidy = true := by
  unfold inFocus
  split
  · exact tidy_focus _ _ (hf _ (tidy_focus _ _ h))
  · exact h

theorem tidy_savePut (g : Gallery) (save : Word) (bs : List Byte) : ∀ (s : State) (off : Nat), s.tidy = true →
    (savePut s g save off bs).tidy = true := by
  induction bs with
  | nil => intro s off h; exact h
  | cons b bs ih =>
    intro s off h
    unfold savePut
    apply ih
    split
    · exact h
    · exact tidy_writeByte _ _ _ h

theorem tidy_saveMend (s : State) (g : Gallery) (save : Word) (off n : Nat) (h : s.tidy = true) :
    (saveMend s g save off n).tidy = true := by
  unfold saveMend
  split
  · exact h
  · exact tidy_of_eq h rfl rfl rfl

theorem tidy_putSaveQuiet (s : State) (uid : Nat) (h : s.tidy = true) : (putSaveQuiet s uid).tidy = true := by
  unfold putSaveQuiet
  split
  · exact h
  · split
    · exact h
    · exact tidy_saveMend _ _ _ _ _ (tidy_savePut _ _ _ _ _ h)

theorem tidy_syncQuiet (s : State) (path : List Nat) (h : s.tidy = true) : (syncQuiet s path).tidy = true := by
  unfold syncQuiet
  refine tidy_foldl _ (fun s pa h => tidy_foldl _ (fun t x h => ?_) _ _ h) _ _ h
  split
  · exact h
  · exact tidy_writeNat _ _ _ _ h

theorem tidy_enqueueResume (s : State) (gid : Nat) (h : s.tidy = true) : (enqueueResume s gid).tidy = true := by
  unfold enqueueResume
  split
  · exact h
  · split
    · exact h
    · split
      · exact h
      · exact tidy_syncQuiet _ _ (tidy_of_eq h rfl rfl rfl)

theorem tidy_wake (s : State) (uid : Nat) (st : BitVec 2) (h : s.tidy = true) : (wake s uid st).tidy = true := by
  unfold wake
  split
  · exact h
  · exact tidy_putSaveQuiet _ _ (tidy_enqueueResume _ _ (tidy_onCrew _ _ _ h))

theorem tidy_clearFilters (s : State) (h : s.tidy = true) : (clearFilters s).tidy = true := tidy_of_eq h rfl rfl rfl

theorem tidy_wakeEntries (s : State) (hit : LampEntry → Bool) (st : BitVec 2) (h : s.tidy = true) :
    (wakeEntries s hit st).tidy = true := by
  unfold wakeEntries
  have h0 : ({ s with lamps := s.lamps.filter fun e => !hit e } : State).tidy = true := tidy_of_eq h rfl rfl rfl
  exact tidy_clearFilters _ (tidy_foldl _ (fun s e h => tidy_wake _ _ _ h) _ _ h0)

theorem tidy_relight (s : State) (line : Nat) (h : s.tidy = true) : (relight s line).tidy = true :=
  tidy_wakeEntries _ _ _ h

theorem tidy_relightLines (n : Nat) : ∀ (s : State) (l : List Nat), s.tidy = true → (relightLines n s l).tidy = true := by
  induction n with
  | zero => intro s l h; cases l <;> exact h
  | succ n ih =>
    intro s l h
    cases l with
    | nil => exact h
    | cons x l => exact ih _ _ (tidy_relight _ _ h)

theorem tidy_relightAll (s : State) (l : List Nat) (h : s.tidy = true) : (relightAll s l).tidy = true := by
  unfold relightAll
  split
  · exact h
  · exact tidy_relightLines _ _ _ h

theorem tidy_relightRun (s : State) (pa n : Nat) (h : s.tidy = true) : (relightRun s pa n).tidy = true :=
  tidy_relightAll _ _ h

theorem tidy_saveWrite (s : State) (g : Gallery) (save : Word) (off : Nat) (bs : List Byte) (h : s.tidy = true) :
    (saveWrite s g save off bs).tidy = true := by
  have h1 := tidy_saveMend _ g save off bs.length (tidy_savePut g save bs s off h)
  unfold saveWrite
  dsimp only
  split
  · exact h1
  · exact tidy_relightAll _ _ h1

theorem tidy_putSave0 (s : State) (uid : Nat) (h : s.tidy = true) : (putSave0 s uid).tidy = true := by
  unfold putSave0
  split
  · exact h
  · split
    · exact h
    · exact tidy_saveWrite _ _ _ _ _ h

theorem tidy_putBytes (s : State) (pa : Nat) (bs : List Byte) (h : s.tidy = true) : (putBytes s pa bs).tidy = true :=
  tidy_writeBytes _ _ _ (tidy_of_eq h rfl rfl rfl)

/-- A write of the hardware's own keeps the canonical form. -/
theorem tidy_hardwareWrite (s : State) (pa : Nat) (bs : List Byte) (h : s.tidy = true) :
    (hardwareWrite s pa bs).tidy = true := tidy_relightRun _ _ _ (tidy_putBytes _ _ _ h)

theorem tidy_setLost (s : State) (pa : Nat) (h : s.tidy = true) : (setLost s pa).tidy = true := by
  unfold setLost
  split
  · exact h
  · exact tidy_hardwareWrite _ _ _ h

theorem tidy_countError (s : State) (h : s.tidy = true) : (countError s).tidy = true := h

theorem tidy_dropSlot (s : State) (xl : State → Need → Nat → Except Cause Place) (cb : Nat) (h : s.tidy = true) :
    (dropSlot s xl cb).tidy = true := by
  unfold dropSlot
  split
  · exact tidy_countError _ h
  · exact tidy_countError _ (tidy_setLost _ _ h)

theorem tidy_ringPush (s : State) (xl : State → Need → Nat → Except Cause Place) (cb : Nat) (b : Byte) (p : List Byte)
    (h : s.tidy = true) : (ringPush s xl cb b p).1.tidy = true := by
  unfold ringPush
  split
  · exact tidy_countError _ h
  · split
    · exact tidy_dropSlot _ _ _ h
    · split
      · exact tidy_countError _ (tidy_setLost _ _ h)
      · split
        · exact tidy_setLost _ _ h
        · split
          · exact tidy_countError _ (tidy_setLost _ _ h)
          · exact tidy_hardwareWrite _ _ _ (tidy_hardwareWrite _ _ _ (tidy_hardwareWrite _ _ _ h))

theorem tidy_tearOne (s : State) (part block : Nat) (h : s.tidy = true) : (tearOne s part block).tidy = true := by
  unfold tearOne
  split
  · exact h
  · refine tidy_relightAll _ _ (tidy_syncQuiet _ _ (tidy_foldl _ (fun s v h => tidy_enqueueResume _ _ h) _ _
      (tidy_foldl _ ?_ _ _ (tidy_of_eq h rfl rfl rfl))))
    intro s e h
    split
    · exact h
    · split
      · exact tidy_putSaveQuiet _ _ (tidy_onCrew _ _ _ h)
      · exact tidy_wake _ _ _ h

theorem tidy_tearDomain (s : State) (r : Record) (h : s.tidy = true) : (tearDomain s r).tidy = true := by
  unfold tearDomain
  split
  · exact h
  · split
    · exact tidy_tearOne _ _ _ h
    · exact tidy_foldl _ (fun s q h => tidy_tearOne _ _ _ h) _ _ h

theorem tidy_regionFault (s : State) (r : Record) (f : FaultRec) (h : s.tidy = true) :
    (regionFault s r f).tidy = true := by
  unfold regionFault
  split
  · exact h
  · have h1 : ∀ ring : Nat, (if ring == 0 then countError s
        else (ringPush s (fun s n va => regionXlate s r n va) ring (BitVec.ofNat 8 f.cause.code) (f.bytes s.timens)).1).tidy
          = true := by
      intro ring
      split
      · exact h
      · exact tidy_ringPush _ _ _ _ _ h
    dsimp only
    split
    · exact tidy_tearDomain _ _ (h1 _)
    · exact h1 _

theorem tidy_crewFault (s : State) (uid : Nat) (f : FaultRec) (h : s.tidy = true) : (crewFault s uid f).tidy = true := by
  unfold crewFault
  split
  · exact h
  · split
    · exact h
    · exact tidy_regionFault _ _ _ h

theorem tidy_dropPassed (s : State) (pa n : Nat) (h : s.tidy = true) : (dropPassed s pa n).tidy = true := by
  unfold dropPassed
  exact tidy_foldl _ (fun s x h => tidy_regionFault _ _ _ h) _ _ (tidy_of_eq h rfl rfl rfl)

/-- A write registered at a home slice keeps the canonical form. -/
theorem tidy_registerWrite (s : State) (pa : Nat) (bs : List Byte) (h : s.tidy = true) :
    (registerWrite s pa bs).tidy = true := by
  have h1 := tidy_putBytes s pa bs h
  refine tidy_relightRun _ _ _ ?_
  split
  · exact h1
  · exact tidy_dropPassed _ _ _ h1

theorem tidy_applyHeld (n : Nat) : ∀ (s : State) (obj : Nat), s.tidy = true → (applyHeld n s obj).tidy = true := by
  induction n with
  | zero => intro s obj h; exact h
  | succ n ih =>
    intro s obj h
    simp only [applyHeld]
    split
    · exact h
    · exact ih _ _ (tidy_registerWrite _ _ _ (tidy_of_eq h rfl rfl rfl))

/-- What an answer to a contribution can be: nothing is changed, or it is held and what can be applied is. -/
theorem contribute_keeps (s : State) (x : Contribution) (P : State × Answer → Prop) (h : ∀ a, P (s, a))
    (hk : ∀ n, P (applyHeld n { s with redq := s.redq ++
      [⟨x.obj, x.index, x.value, x.f64, s.g.rcd, crewId s.c, s.c.save, x.va, x.word⟩] } x.obj, .accepted)) :
    P (contribute s x) := by
  simp only [contribute]
  split
  · exact hk _
  · exact h _

theorem tidy_contribute {s t : State} {x : Contribution} {a : Answer} (h : s.tidy = true)
    (e : contribute s x = (t, a)) : t.tidy = true := by
  refine contribute_keeps s x (fun r => r = (t, a) → t.tidy = true) ?_ ?_ e
  · rintro a ⟨⟩; exact h
  · rintro n ⟨⟩; exact tidy_applyHeld _ _ _ (tidy_of_eq h rfl rfl rfl)

theorem tidy_deferEccAt (s : State) (a : Word) (t r : Nat) (w : Word) (h : s.tidy = true) :
    (deferEccAt s a t r w).tidy = true := by
  unfold deferEccAt
  dsimp only
  split
  · exact tidy_crewFault _ _ _ h
  · exact tidy_of_eq (tidy_crewFault _ _ _ h) rfl rfl rfl

theorem tidy_settleDups (s : State) (h : s.tidy = true) : (settleDups s).tidy = true := by
  unfold settleDups
  refine tidy_foldl _ ?_ _ _ (tidy_of_eq h rfl rfl rfl)
  · intro s d h
    dsimp only
    split
    · exact tidy_crewFault _ _ _ h
    · exact tidy_of_eq h rfl rfl rfl

theorem tidy_refuse (s : State) (x : Contribution) (h : s.tidy = true) : (refuse s x).tidy = true :=
  tidy_of_eq h rfl rfl rfl

theorem tidy_takeAnswer {s : State} (x : Contribution) (a : Answer) (h : s.tidy = true) :
    (takeAnswer x (s, a)).tidy = true := by
  cases a
  case poisoned => exact tidy_deferEccAt _ _ _ _ _ (tidy_of_eq h rfl rfl rfl)
  case tooFar =>
    change (if x.seen.isSome then s else refuse s x).tidy = true
    split
    · exact h
    · exact tidy_refuse _ _ h
  all_goals exact tidy_of_eq h rfl rfl rfl

/-- A contribution offered to its slice keeps the canonical form. -/
theorem tidy_offer (s : State) (x : Contribution) (h : s.tidy = true) : (offer s x).tidy = true := by
  have h1 : (takeAnswer x (contribute s x)).tidy = true := by
    generalize e : contribute s x = r
    obtain ⟨s1, a⟩ := r
    exact tidy_takeAnswer x a (tidy_contribute h e)
  have h2 := tidy_settleDups _ h1
  simp only [offer]
  generalize settleDups (takeAnswer x (contribute s x)) = s2 at h2 ⊢
  exact tidy_of_eq h2 rfl rfl rfl

theorem tidy_retrySome (n : Nat) : ∀ s : State, s.tidy = true → (retrySome n s).tidy = true := by
  induction n with
  | zero => exact fun s h => h
  | succ n ih =>
    intro s h
    simp only [retrySome]
    split
    · exact h
    · exact ih _ (tidy_inFocus _ _ _ h fun s h => tidy_offer _ _ h)

/-- The retry of what waits at the slices keeps the canonical form. -/
theorem tidy_retryPending (s : State) (h : s.tidy = true) : (retryPending s).tidy = true := tidy_retrySome _ _ h

theorem firstSeen_nil : firstSeen [] = none := rfl

/-- With nothing that waits at a slice, nothing is retried. -/
theorem retryPending_none (s : State) (h : ∀ c ∈ s.allCrews, ∀ x ∈ c.redq, x.seen = none) : retryPending s = s := by
  have e : unblocked s = [] := by
    unfold unblocked
    rw [List.flatMap_eq_nil_iff]
    intro c hc
    rw [List.map_eq_nil_iff, List.filter_eq_nil_iff]
    intro x hx
    simp [h c hc x hx]
  unfold retryPending
  cases total s.allCrews (·.redq.length) with
  | zero => rfl
  | succ n => simp [retrySome, e, firstSeen]

theorem tidy_offerSome (n : Nat) : ∀ s : State, s.tidy = true → (offerSome n s).tidy = true := by
  induction n with
  | zero => exact fun s h => h
  | succ n ih =>
    intro s h
    simp only [offerSome]
    split
    · exact h
    · exact ih _ (tidy_retryPending _ (tidy_offer _ _ h))

theorem tidy_offerAll (s : State) (h : s.tidy = true) : (offerAll s).tidy = true := by
  unfold offerAll
  split
  · exact h
  · exact tidy_offerSome _ _ h

/-- A crew with no contribution pending has nothing to offer. -/
theorem offerAll_nil (s : State) (h : s.c.redq = []) : offerAll s = s := by simp [offerAll, h]

/-- A write at a home slice is registered, and what it lets be answered is. -/
theorem performGlobal_keeps (s : State) (pa : Nat) (bs : List Byte) (P : State → Prop) (h : P (registerWrite s pa bs))
    (hr : ∀ t, P t → P (retryPending t)) : P (performGlobal s pa bs) := by
  unfold performGlobal
  dsimp only
  split
  · exact hr _ h
  · exact h

/-- A write at a home slice keeps the canonical form. -/
theorem tidy_performGlobal (s : State) (pa : Nat) (bs : List Byte) (h : s.tidy = true) :
    (performGlobal s pa bs).tidy = true :=
  performGlobal_keeps s pa bs (·.tidy = true) (tidy_registerWrite _ _ _ h) tidy_retryPending

theorem tidy_performWrite (s : State) (w : WriteAcc) (h : s.tidy = true) : (performWrite s w).tidy = true := by
  unfold performWrite
  split
  · exact tidy_writeVault _ _ _ (tidy_of_eq h rfl rfl rfl)
  · exact tidy_performGlobal _ _ _ h

theorem tidy_performNat (s : State) (pa n x : Nat) (h : s.tidy = true) : (performNat s pa n x).tidy = true :=
  tidy_performGlobal _ _ _ h

theorem tidy_performOf (p : PStore) (s : State) (w : WriteAcc) (h : s.tidy = true) : (performOf p s w).tidy = true := by
  unfold performOf
  split
  · exact tidy_performWrite _ _ h
  · exact tidy_crewFault _ _ _ h

theorem tidy_performAll (s : State) (h : s.tidy = true) : (performAll s).tidy = true :=
  tidy_foldl _ (fun _ p h => tidy_foldl _ (tidy_performOf p) _ _ h) _ _ (tidy_of_eq h rfl rfl rfl)

/-- Stores of which none waits for a contribution are all performed, in their order. -/
theorem splitStores_free (c : Crew) (l : List PStore) (h : ∀ p ∈ l, c.blocks p = false) : splitStores c [] l = (l, []) := by
  induction l with
  | nil => rfl
  | cons p l ih =>
    simp [splitStores, h p (List.mem_cons_self ..), ih fun q hq => h q (List.mem_cons_of_mem _ hq)]

theorem blocks_nil (c : Crew) (p : PStore) (h : c.redq = []) : c.blocks p = false := by simp [Crew.blocks, h]

theorem ready_free (c : Crew) (h : c.redq = []) : c.ready = c.stores := by
  simp [Crew.ready, splitStores_free c _ fun p _ => blocks_nil c p h]

theorem staying_free (c : Crew) (h : c.redq = []) : c.staying = [] := by
  simp [Crew.staying, splitStores_free c _ fun p _ => blocks_nil c p h]

theorem performAll_nil (s : State) (h : s.c.stores = []) : performAll s = s := by
  have e : splitStores s.c [] s.c.stores = ([], []) := by simp [h, splitStores]
  simp only [performAll, Crew.ready, Crew.staying, e, List.foldl_nil]
  rw [← h]

theorem tidy_landResult (s : State) (l : Landing) (h : s.tidy = true) : (landResult s l).tidy = true := by
  unfold landResult
  dsimp only
  split
  case h_4 => exact tidy_deferEccAt _ _ _ _ _ h
  all_goals exact tidy_of_eq h rfl rfl rfl

theorem tidy_landAll (s : State) (h : s.tidy = true) : (landAll s).tidy = true :=
  tidy_foldl _ tidy_landResult _ _ (tidy_of_eq h rfl rfl rfl)

/-- The drain of a crew keeps the canonical form. -/
theorem tidy_drain (s : State) (h : s.tidy = true) : (drain s).tidy = true := by
  have h1 := tidy_performAll _ (tidy_offerAll _ (tidy_performAll _ (tidy_landAll s h)))
  unfold drain
  generalize performAll (offerAll (performAll (landAll s))) = s1 at h1 ⊢
  exact tidy_of_eq h1 rfl rfl rfl

theorem tidy_haltCrew (s : State) (f : FaultRec) (h : s.tidy = true) : (haltCrew s f).tidy = true := by
  unfold haltCrew
  have h1 : ∀ u : Nat, (putSave0 { s with c := { s.c with status := .halted } } u).tidy = true := fun u =>
    tidy_putSave0 _ _ (tidy_of_eq h rfl rfl rfl)
  dsimp only
  split
  · exact tidy_of_eq (tidy_crewFault _ _ _ (h1 _)) rfl rfl rfl
  · exact tidy_crewFault _ _ _ (h1 _)

theorem tidy_saveTrap (s : State) (t : TrapReq) (h : s.tidy = true) : (saveTrap s t).tidy = true := by
  unfold saveTrap
  dsimp only
  repeat apply tidy_saveWrite
  exact h

theorem tidy_enterTrap (s : State) (t : TrapReq) (h : s.tidy = true) : (enterTrap s t).tidy = true := by
  unfold enterTrap
  dsimp only
  split
  · exact tidy_haltCrew _ _ h
  · have h1 := tidy_saveTrap s t h
    generalize saveTrap s t = s1 at h1 ⊢
    exact tidy_of_eq h1 rfl rfl rfl

/-- Taking a trap keeps the canonical form. -/
theorem tidy_takeTrap (s : State) (t : TrapReq) (h : s.tidy = true) : (takeTrap s t).tidy = true := by
  unfold takeTrap
  split
  · exact tidy_haltCrew _ _ h
  · dsimp only
    split
    · exact tidy_enterTrap _ _ (tidy_drain s h)
    · exact tidy_of_eq (tidy_drain s h) rfl rfl rfl

theorem tidy_park (s : State) (p : Park) (h : s.tidy = true) : (park s p).tidy = true :=
  tidy_putSave0 _ _ (tidy_of_eq h rfl rfl rfl)

/-- A word whose effect keeps the canonical form keeps it also where it traps. -/
theorem tidy_issue {i : Instr} {s t : State} {f : State → State} (hs : s.tidy = true)
    (hf : s.tidy = true → (f s).tidy = true) (h : issue i s f = .next t) : t.tidy = true :=
  issue_keeps (P := fun s => s.tidy = true) hs (fun q h => tidy_takeTrap s q h) hf h

end Sys2Proof.Machine
end

