-- ==== Sys2Proof/Tests/Slice0.lean ====
section
/-!
SUPPORT. Tests: terms and words that R41 refuses; one word of every instruction, written out bit by bit from its encoding;
single steps whose results are worked out from the manual; and, for every statement of the certificates, states and
operands that meet its hypotheses.
-/

namespace Sys2Proof.Tests

open Sys2Proof Sys2Proof.Machine

set_option Elab.async false

/-! ### States for the witnesses -/

/-- The part after reset, the crew in focus within a clause of 32 words that sets flag 0. -/
def opened : State := { State.reset with c := { State.reset.c with left := 32, setA := 0, incs := [⟨0, 0, false⟩] } }

/-- The same with the last word of the clause to run, as a transfer needs it. -/
def last : State := { opened with c := { opened.c with left := 1 } }

/-- The part after reset with a change of the crew in focus. -/
def crewWith (f : Crew → Crew) : State := { opened with c := f opened.c }

/-- The same with some scalar registers written. -/
def regs (l : List (BitVec 6 × Word)) : State := crewWith fun c => l.foldl (fun c p => setS c p.1 p.2) c

/-- Numbers written to memory: address, bytes, value. -/
def memWith (s : State) (l : List (Nat × Nat × Nat)) : State := l.foldl (fun s p => writeNat s p.1 p.2.1 p.2.2) s

/-- The state an instruction leaves. -/
def after (i : Instr) (s : State) : State :=
  match exec i s with
  | .next t => t
  | _ => s

/-- What holds of every thread below NTHR holds of the active ones. -/
theorem of_active {s : State} {P : Nat → Prop} (h : ∀ th, th < s.g.nthr → P th) : ∀ th, active s th → P th :=
  fun th a => h th a.1

/-! ### Ill-formed terms, one for each condition of R41 -/

/-- Every condition that R41 puts on the fields of a term refuses a term that breaks it. -/
theorem test_ill_formed :
    Instr.defect (.cmps 1 2 3 6) = some .selector ∧ Instr.defect (.brc 6 1 2 0) = some .fieldNotZero ∧
    Instr.defect (.mand 0 1 2) = some .markZero ∧ Instr.defect (.hcopy 1 61 0 0 0) = some .groupPast63 ∧
    Instr.defect (.aluiShli 1 2 64) = some .shiftRange ∧ Instr.defect (.shli 0 1 2 8) = some .shiftRange ∧
    Instr.defect (.pblk 1 1 4) = some .patternRange ∧ Instr.defect (.atom 0 1 2 10 0) = some .oddPair ∧
    Instr.defect (.waitu 0 1 2 63 0 1) = some .groupPast63 ∧ Instr.defect (.clause 0 12 15 0) = some .selector ∧
    Instr.defect (.mma 1 2 6 0) = some .selector ∧ Instr.defect (.mma 1 2 0 1) = some .fieldNotZero := by decide

/-- Words with a reserved cell, a reserved selector or a field that is not zero are refused, each by name. -/
theorem test_refused_words :
    decodeWord 0x54000000 = .error .reservedCell ∧ decodeWord 0x88C00201 = .error .fieldNotZero ∧
    decodeWord 0b1_000010_1011_000000_000000_000000_000 = .error .selector ∧
    decodeWord 0b1_000000_0000_000001_000010_000011_001 = .error .fieldNotZero ∧
    decodeBytes [0, 0, 0] = .error .truncated := by decide

/-- The bytes of a word stand lowest first, and the table's numbering of its bits is that of the word (R1, R24). -/
theorem test_table_word :
    decodeTableWord 32 0x0382020A = some (.addi 3 2 1 10) ∧
    decodeBytes [0x0A, 0x02, 0x82, 0x03, 0xFF] = .ok (.addi 3 2 1 10, [0xFF]) := by decide

/-! ### Words written out bit by bit -/

/-- The words of cell ALU (R37, R40), written out bit by bit: set, major, and the fields of the format. -/
theorem test_decode_alu :
    decodeWord 0b1_000000_0000_000101_001011_010011_000 = .ok (.aluAdd 5 11 19) ∧
    decodeWord 0b1_000000_0001_000101_001011_010011_000 = .ok (.aluSub 5 11 19) ∧
    decodeWord 0b1_000000_0010_000101_001011_010011_000 = .ok (.aluAnd 5 11 19) ∧
    decodeWord 0b1_000000_0011_000101_001011_010011_000 = .ok (.aluOr 5 11 19) ∧
    decodeWord 0b1_000000_0100_000101_001011_010011_000 = .ok (.aluXor 5 11 19) ∧
    decodeWord 0b1_000000_0101_000101_001011_010011_000 = .ok (.aluAndn 5 11 19) ∧
    decodeWord 0b1_000000_0110_000101_001011_010011_000 = .ok (.aluShl 5 11 19) ∧
    decodeWord 0b1_000000_0111_000101_001011_010011_000 = .ok (.aluShr 5 11 19) ∧
    decodeWord 0b1_000000_1000_000101_001011_010011_000 = .ok (.aluSar 5 11 19) ∧
    decodeWord 0b1_000000_1001_000101_001011_010011_000 = .ok (.aluMul 5 11 19) ∧
    decodeWord 0b1_000000_1010_000101_001011_010011_000 = .ok (.aluMulhs 5 11 19) ∧
    decodeWord 0b1_000000_1011_000101_001011_010011_000 = .ok (.aluMulhz 5 11 19) ∧
    decodeWord 0b1_000000_1100_000101_001011_010011_000 = .ok (.aluMins 5 11 19) ∧
    decodeWord 0b1_000000_1101_000101_001011_010011_000 = .ok (.aluMaxs 5 11 19) ∧
    decodeWord 0b1_000000_1110_000101_001011_010011_000 = .ok (.aluMinz 5 11 19) ∧
    decodeWord 0b1_000000_1111_000101_001011_010011_000 = .ok (.aluMaxz 5 11 19) := by decide

/-- The words of cell ALUI (R37, R40), written out bit by bit: set, major, and the fields of the format. -/
theorem test_decode_alui :
    decodeWord 0b1_000001_0000_000101_001011_110100101 = .ok (.aluiAddi 5 11 421) ∧
    decodeWord 0b1_000001_0001_000101_001011_110100101 = .ok (.aluiSubi 5 11 421) ∧
    decodeWord 0b1_000001_0010_000101_001011_110100101 = .ok (.aluiAndi 5 11 421) ∧
    decodeWord 0b1_000001_0011_000101_001011_110100101 = .ok (.aluiOri 5 11 421) ∧
    decodeWord 0b1_000001_0100_000101_001011_110100101 = .ok (.aluiXori 5 11 421) ∧
    decodeWord 0b1_000001_0101_000101_001011_110100101 = .ok (.aluiAndni 5 11 421) ∧
    decodeWord 0b1_000001_0110_000101_001011_000100101 = .ok (.aluiShli 5 11 37) ∧
    decodeWord 0b1_000001_0111_000101_001011_000100101 = .ok (.aluiShri 5 11 37) ∧
    decodeWord 0b1_000001_1000_000101_001011_000100101 = .ok (.aluiSari 5 11 37) ∧
    decodeWord 0b1_000001_1001_000101_001011_110100101 = .ok (.aluiMuli 5 11 421) ∧
    decodeWord 0b1_000001_1010_000101_001011_110100101 = .ok (.aluiMulhsi 5 11 421) ∧
    decodeWord 0b1_000001_1011_000101_001011_110100101 = .ok (.aluiMulhzi 5 11 421) ∧
    decodeWord 0b1_000001_1100_000101_001011_110100101 = .ok (.aluiMinsi 5 11 421) ∧
    decodeWord 0b1_000001_1101_000101_001011_110100101 = .ok (.aluiMaxsi 5 11 421) ∧
    decodeWord 0b1_000001_1110_000101_001011_110100101 = .ok (.aluiMinzi 5 11 421) ∧
    decodeWord 0b1_000001_1111_000101_001011_110100101 = .ok (.aluiMaxzi 5 11 421) := by decide

/-- The words of cell ALX (R37, R40), written out bit by bit: set, major, and the fields of the format. -/
theorem test_decode_alx :
    decodeWord 0b1_000010_0000_000101_001011_010011_000 = .ok (.divs 5 11 19) ∧
    decodeWord 0b1_000010_0001_000101_001011_010011_000 = .ok (.divz 5 11 19) ∧
    decodeWord 0b1_000010_0010_000101_001011_010011_000 = .ok (.rems 5 11 19) ∧
    decodeWord 0b1_000010_0011_000101_001011_010011_000 = .ok (.remz 5 11 19) ∧
    decodeWord 0b1_000010_0100_000101_001011_000000000 = .ok (.alxClz 5 11) ∧
    decodeWord 0b1_000010_0101_000101_001011_000000000 = .ok (.alxPopc 5 11) ∧
    decodeWord 0b1_000010_0110_000101_001011_010011_000 = .ok (.alxBfx 5 11 19) ∧
    decodeWord 0b1_000010_0111_000101_001011_010011_000 = .ok (.alxBfi 5 11 19) ∧
    decodeWord 0b1_000010_1000_000101_001011_010011_101 = .ok (.cmps 5 11 19 5) ∧
    decodeWord 0b1_000010_1001_000101_001011_000000000 = .ok (.alxMov 5 11) ∧
    decodeWord 0b1_000010_1010_000101_001011_010011_000 = .ok (.selnz 5 11 19) := by decide

/-- The words of cell MOVW (R37, R40), written out bit by bit: set, major, and the fields of the format. -/
theorem test_decode_movw :
    decodeWord 0b1_000011_01_001011_1011111011101111_0 = .ok (.movw 1 11 48879) ∧
    decodeWord 0b1_000011_01_001011_1011111011101111_1 = .ok (.movwk 1 11 48879) := by decide

/-- Words of the uniform set with a cell of their own (R36 to R40), written out bit by bit. -/
theorem test_decode_uniform1 :
    decodeWord 0b1_000100_0101_001011_010011_110100101 = .ok (.brc 5 11 19 421) ∧
    decodeWord 0b1_000101_1001000110100010101100111 = .ok (.br 19088743) ∧
    decodeWord 0b1_000110_1001000110100010101100111 = .ok (.call 19088743) ∧
    decodeWord 0b1_001000_101_011_1010101_100101_110010 = .ok (.srch 5 3 85 37 50) ∧
    decodeWord 0b1_001001_101_011_1010101_100101_110010 = .ok (.srcha 5 3 85 37 50) ∧
    decodeWord 0b1_001010_101_011_1010101_1100110_10010 = .ok (.srchr 5 3 85 102 18) ∧
    decodeWord 0b1_001111_101_110_01010101_00000000000 = .ok (.pblk 5 6 85) ∧
    decodeWord 0b1_010000_101001010011_1011_0011_00101 = .ok (.clause 2643 11 3 5) ∧
    decodeWord 0b1_010001_01_0_1_010011_100101_110100101 = .ok (.lds 1 1 19 37 421) ∧
    decodeWord 0b1_010010_01_1_0_010011_100101_110100101 = .ok (.sts 1 1 19 37 421) ∧
    decodeWord 0b1_010011_1010_001011_010011_100101_0_11 = .ok (.atoms 10 11 19 37 0 3) ∧
    decodeWord 0b1_010101_0_101_001011_010011_100101_0_0_1 = .ok (.waitu 5 11 19 37 0 1) := by decide

/-- Words of the uniform set with a cell of their own (R36 to R40), written out bit by bit. -/
theorem test_decode_uniform2 :
    decodeWord 0b1_010111_000_1_001011_010011_100101_000 = .ok (.redqs 1 11 19 37) := by decide

/-- The words of cell JMP (R37, R40), written out bit by bit: set, major, and the fields of the format. -/
theorem test_decode_jmp :
    decodeWord 0b1_000111_0000_000000_000101_000000000 = .ok (.jr 5) ∧
    decodeWord 0b1_000111_0001_000000_000101_000000000 = .ok (.callr 5) ∧
    decodeWord 0b1_000111_0010_000000000000000000000 = .ok .ret := by decide

/-- The words of cell MARK (R37, R40), written out bit by bit: set, major, and the fields of the format. -/
theorem test_decode_mark :
    decodeWord 0b1_001011_0000_101_011_011_000000000000 = .ok (.mand 5 3 3) ∧
    decodeWord 0b1_001011_0001_101_011_011_000000000000 = .ok (.mor 5 3 3) ∧
    decodeWord 0b1_001011_0010_101_011_011_000000000000 = .ok (.mxor 5 3 3) ∧
    decodeWord 0b1_001011_0011_101_011_011_000000000000 = .ok (.mandn 5 3 3) ∧
    decodeWord 0b1_001011_0100_101_011_000000000000000 = .ok (.mnot 5 3) ∧
    decodeWord 0b1_001011_0101_101_011_000000000000000 = .ok (.mcopy 5 3) ∧
    decodeWord 0b1_001011_0110_101_000000000000000000 = .ok (.mclr 5) ∧
    decodeWord 0b1_001011_0111_101_000000000000000000 = .ok (.mgetact 5) ∧
    decodeWord 0b1_001011_1000_000_101_000_001011_000000 = .ok (.cnt 5 11) ∧
    decodeWord 0b1_001011_1001_000_101_000_001011_000000 = .ok (.first 5 11) ∧
    decodeWord 0b1_001011_1010_000_101_000_001011_000000 = .ok (.next 5 11) ∧
    decodeWord 0b1_001011_1011_101_011_000_010011_000000 = .ok (.mpick 5 3 19) ∧
    decodeWord 0b1_001011_1100_101_000000_001011_000000 = .ok (.mset1 5 11) ∧
    decodeWord 0b1_001011_1101_101_000000_001011_000000 = .ok (.mclr1 5 11) ∧
    decodeWord 0b1_001011_1110_101_000000_001011_000000 = .ok (.mload 5 11) ∧
    decodeWord 0b1_001011_1110_000_101_001_001011_000000 = .ok (.mstore 5 11) := by decide

/-- The words of cell RSTK (R37, R40), written out bit by bit: set, major, and the fields of the format. -/
theorem test_decode_rstk :
    decodeWord 0b1_001100_0000_000_101_000000000000000 = .ok (.push 5) ∧
    decodeWord 0b1_001100_0001_000000000000000000000 = .ok .pop ∧
    decodeWord 0b1_001100_0010_000_101_000000000000000 = .ok (.else_ 5) ∧
    decodeWord 0b1_001100_0011_101_000000000000000000 = .ok (.jarv 5) ∧
    decodeWord 0b1_001100_0100_000_101_000000000000000 = .ok (.join 5) ∧
    decodeWord 0b1_001100_0101_000_101_000000000000000 = .ok (.setact 5) ∧
    decodeWord 0b1_001100_0110_000000000000000000000 = .ok .pushall ∧
    decodeWord 0b1_001100_0111_000000000_000101_000000 = .ok (.rdepth 5) := by decide

/-- The words of cell XFER (R37, R40), written out bit by bit: set, major, and the fields of the format. -/
theorem test_decode_xfer :
    decodeWord 0b1_001101_0000_000101_001011_010011_00_1 = .ok (.get 5 11 19 1) ∧
    decodeWord 0b1_001101_0001_000101_001011_010011_00_1 = .ok (.put 5 11 19 1) ∧
    decodeWord 0b1_001101_0010_000101_001011_00000000_1 = .ok (.getf 5 11 1) := by decide

/-- The words of cell BLK (R37, R40), written out bit by bit: set, major, and the fields of the format. -/
theorem test_decode_blk :
    decodeWord 0b1_001110_0000_000000_000101_000000000 = .ok (.blkacqW 5) ∧
    decodeWord 0b1_001110_0001_000101_001011_000000000 = .ok (.blkacqP 5 11) ∧
    decodeWord 0b1_001110_0010_000000_000101_000000000 = .ok (.blkrel 5) ∧
    decodeWord 0b1_001110_0011_000101_000000000000000 = .ok (.blkq 5) := by decide

/-- The words of cell FENCE (R37, R40), written out bit by bit: set, major, and the fields of the format. -/
theorem test_decode_fence :
    decodeWord 0b1_010100_0000_000000000000000000000 = .ok .fence ∧
    decodeWord 0b1_010100_0001_000000000000000000000 = .ok .fenceA ∧
    decodeWord 0b1_010100_0010_000000000000000000000 = .ok .fenceR ∧
    decodeWord 0b1_010100_0011_000000000000000000000 = .ok .ifence := by decide

/-- The words of cell RELAY (R37, R40), written out bit by bit: set, major, and the fields of the format. -/
theorem test_decode_relay :
    decodeWord 0b1_010110_0000_000000_000101_001011_000 = .ok (.wacc 5 11) ∧
    decodeWord 0b1_010110_0001_000000_000101_001011_000 = .ok (.waccq 5 11) ∧
    decodeWord 0b1_010110_0010_000101_001011_000000000 = .ok (.wqry 5 11) ∧
    decodeWord 0b1_010110_0011_000000_000101_001011_000 = .ok (.wcfg 5 11) ∧
    decodeWord 0b1_010110_0100_000000_000101_000000000 = .ok (.wclr 5) ∧
    decodeWord 0b1_010110_0101_000101_001011_000000000 = .ok (.wlen 5 11) := by decide

/-- The words of cell TAG (R37, R40), written out bit by bit: set, major, and the fields of the format. -/
theorem test_decode_tag :
    decodeWord 0b1_011000_0000_000000_000101_000000000 = .ok (.twaitany 5) ∧
    decodeWord 0b1_011000_0001_000000_000101_000000000 = .ok (.twaitall 5) ∧
    decodeWord 0b1_011000_0010_000101_001011_000000000 = .ok (.tfirst 5 11) ∧
    decodeWord 0b1_011000_0011_000000_000101_000000000 = .ok (.tclr 5) ∧
    decodeWord 0b1_011000_0100_000101_000000000000000 = .ok (.trdy 5) := by decide

/-- The words of cell HOIST (R37, R40), written out bit by bit: set, major, and the fields of the format. -/
theorem test_decode_hoist :
    decodeWord 0b1_011001_000101_001011_0000_0_000000_1_0 = .ok (.hcopy 5 11 0 1 0) ∧
    decodeWord 0b1_011001_000101_001011_0001_0_000000_1_0 = .ok (.hgath 5 11 0 1 0) ∧
    decodeWord 0b1_011001_000101_001011_0010_0_000000_1_0 = .ok (.hscat 5 11 0 1 0) ∧
    decodeWord 0b1_011001_000101_001011_0011_0_0000000_1 = .ok (.hfill 5 11 0 1) ∧
    decodeWord 0b1_011001_000101_001011_0100_0_000_1_0_011 = .ok (.hplane 5 11 0 1 0 3) ∧
    decodeWord 0b1_011001_000101_001011_0101_0_00000000 = .ok (.hchain 5 11 0) ∧
    decodeWord 0b1_011001_000101_000000_0110_0_00000000 = .ok (.hstop 5 0) ∧
    decodeWord 0b1_011001_000101_000000_0111_0_00000000 = .ok (.hresume 5 0) ∧
    decodeWord 0b1_011001_000101_001011_1000_000000000 = .ok (.hprog 5 11) := by decide

/-- The words of cell MX (R37, R40), written out bit by bit: set, major, and the fields of the format. -/
theorem test_decode_mx :
    decodeWord 0b1_011010_000101_001011_0011_0_00000000 = .ok (.mma 5 11 3 0) ∧
    decodeWord 0b1_011010_000101_001011_0110_0_00000000 = .ok (.mzero 5 11 0) ∧
    decodeWord 0b1_011010_000000_000101_0111_000000000 = .ok (.mring 5) ∧
    decodeWord 0b1_011010_000101_000000_1000_0_00000000 = .ok (.mfence 5 0) ∧
    decodeWord 0b1_011010_000000000000_1001_000000000 = .ok .mdetach := by decide

/-- The words of cell TOKEN (R37, R40), written out bit by bit: set, major, and the fields of the format. -/
theorem test_decode_token :
    decodeWord 0b1_011011_0000_000000_000101_000000000 = .ok (.tktake 5) ∧
    decodeWord 0b1_011011_0001_000000_000101_000000000 = .ok (.tkgive 5) ∧
    decodeWord 0b1_011011_0010_000101_001011_000000000 = .ok (.tkqry 5 11) := by decide

/-- The words of cell PUB (R37, R40), written out bit by bit: set, major, and the fields of the format. -/
theorem test_decode_pub :
    decodeWord 0b1_011100_0000_000000_000101_000000000 = .ok (.publish 5) ∧
    decodeWord 0b1_011100_0001_000101_001011_000000000 = .ok (.pubqry 5 11) ∧
    decodeWord 0b1_011100_0010_000000_000101_001011_000 = .ok (.pubset 5 11) := by decide

/-- The words of cell TASK (R37, R40), written out bit by bit: set, major, and the fields of the format. -/
theorem test_decode_task :
    decodeWord 0b1_011101_0000_000000_000101_000000000 = .ok (.spawn 5) ∧
    decodeWord 0b1_011101_0001_000101_001011_000000000 = .ok (.spawnNb 5 11) ∧
    decodeWord 0b1_011101_0010_000000_000101_000000000 = .ok (.spawng 5) ∧
    decodeWord 0b1_011101_0011_000000_000101_000000000 = .ok (.joindec 5) ∧
    decodeWord 0b1_011101_0100_000000_000101_000000000 = .ok (.depdec 5) ∧
    decodeWord 0b1_011101_0101_000101_001011_000000000 = .ok (.launch 5 11) ∧
    decodeWord 0b1_011101_0110_000000_000101_001011_000 = .ok (.barc 5 11) ∧
    decodeWord 0b1_011101_0111_000000000000000000000 = .ok .exit := by decide

/-- The words of cell COLL (R37, R40), written out bit by bit: set, major, and the fields of the format. -/
theorem test_decode_coll :
    decodeWord 0b1_011110_000101_001011_0000_0_000000_1_0 = .ok (.cred 5 11 0 1 0) ∧
    decodeWord 0b1_011110_000101_001011_0001_0_000000_1_0 = .ok (.cgath 5 11 0 1 0) ∧
    decodeWord 0b1_011110_000101_001011_0010_0_0000000_1 = .ok (.cbcast 5 11 0 1) ∧
    decodeWord 0b1_011110_000101_001011_0011_000000000 = .ok (.cstat 5 11) := by decide

/-- The words of cell SYS (R37, R40), written out bit by bit: set, major, and the fields of the format. -/
theorem test_decode_sys :
    decodeWord 0b1_011111_0000_000101_000001000001_000 = .ok (.rdsys 5 65) ∧
    decodeWord 0b1_011111_0001_000101_000000010010_000 = .ok (.wrsys 5 18) ∧
    decodeWord 0b1_011111_0010_000000_101001010011_000 = .ok (.trap 2643) ∧
    decodeWord 0b1_011111_0011_000000000000000000000 = .ok .rte ∧
    decodeWord 0b1_011111_0100_000000_101001010011_000 = .ok (.bkpt 2643) ∧
    decodeWord 0b1_011111_0101_000000000000000000000 = .ok .yield ∧
    decodeWord 0b1_011111_0110_000000000000000000000 = .ok .nop ∧
    decodeWord 0b1_011111_0111_000000000000000000000 = .ok .halt ∧
    decodeWord 0b1_011111_1000_000000_000101_000000000 = .ok (.rspill 5) ∧
    decodeWord 0b1_011111_1001_000000_000101_000000000 = .ok (.rfill 5) ∧
    decodeWord 0b1_011111_1010_000000_000101_000000000 = .ok (.ctxsave 5) ∧
    decodeWord 0b1_011111_1011_000000_000101_000000000 = .ok (.ctxload 5) := by decide

/-- Words of the lane set with a cell of their own (R36 to R40), written out bit by bit. -/
theorem test_decode_lane1 :
    decodeWord 0b0_000000_01_0101010_1010101_1100110_00 = .ok (.add 1 42 85 102) ∧
    decodeWord 0b0_000001_01_0101010_1010101_110100101 = .ok (.addi 1 42 85 421) ∧
    decodeWord 0b0_000010_01_0101010_1010101_1100110_00 = .ok (.sub 1 42 85 102) ∧
    decodeWord 0b0_000011_01_0101010_1010101_1100110_00 = .ok (.mul 1 42 85 102) ∧
    decodeWord 0b0_000100_01_0101010_1010101_1100110_0_0 = .ok (.mulh 1 42 85 102 0) ∧
    decodeWord 0b0_000101_01_0101010_1010101_1100110_00 = .ok (.mad 1 42 85 102) ∧
    decodeWord 0b0_000110_01_0101010_1010101_1100110_0_0 = .ok (.addsat 1 42 85 102 0) ∧
    decodeWord 0b0_000111_01_0101010_1010101_1100110_0_0 = .ok (.subsat 1 42 85 102 0) ∧
    decodeWord 0b0_001000_01_0101010_1010101_1100110_0_0 = .ok (.min 1 42 85 102 0) ∧
    decodeWord 0b0_001001_01_0101010_1010101_1100110_0_0 = .ok (.max 1 42 85 102 0) ∧
    decodeWord 0b0_001011_01_0101010_1010101_1100110_00 = .ok (.and 1 42 85 102) ∧
    decodeWord 0b0_001100_01_0101010_1010101_1100110_00 = .ok (.or 1 42 85 102) := by decide

/-- Words of the lane set with a cell of their own (R36 to R40), written out bit by bit. -/
theorem test_decode_lane2 :
    decodeWord 0b0_001101_01_0101010_1010101_1100110_00 = .ok (.xor 1 42 85 102) ∧
    decodeWord 0b0_001110_01_0101010_1010101_1100110_00 = .ok (.andn 1 42 85 102) ∧
    decodeWord 0b0_001111_01_0101010_1010101_1100110_00 = .ok (.shl 1 42 85 102) ∧
    decodeWord 0b0_010000_01_0101010_1010101_1100110_00 = .ok (.shr 1 42 85 102) ∧
    decodeWord 0b0_010001_01_0101010_1010101_1100110_00 = .ok (.sar 1 42 85 102) ∧
    decodeWord 0b0_010010_01_0101010_1010101_000001101 = .ok (.shli 1 42 85 13) ∧
    decodeWord 0b0_010011_01_0101010_1010101_000001101 = .ok (.shri 1 42 85 13) ∧
    decodeWord 0b0_010100_01_0101010_1010101_000001101 = .ok (.sari 1 42 85 13) ∧
    decodeWord 0b0_010101_01_0101010_0000000_110100101 = .ok (.movi 1 42 421) ∧
    decodeWord 0b0_010110_01_0101010_0000000_010011_000 = .ok (.bcast 1 42 19) ∧
    decodeWord 0b0_010111_01_0101010_1010101_1100110_10 = .ok (.cmp 1 42 85 102 2) ∧
    decodeWord 0b0_011000_01_0101010_1010101_1100110_10 = .ok (.cmpz 1 42 85 102 2) := by decide

/-- Words of the lane set with a cell of their own (R36 to R40), written out bit by bit. -/
theorem test_decode_lane3 :
    decodeWord 0b0_011001_01_0101010_1010101_1100110_10 = .ok (.fcmp 1 42 85 102 2) ∧
    decodeWord 0b0_011010_01_0101010_1010101_1100110_0_0 = .ok (.bfx 1 42 85 102 0) ∧
    decodeWord 0b0_011011_01_0101010_1010101_1100110_00 = .ok (.bfi 1 42 85 102) ∧
    decodeWord 0b0_011100_01_0101010_1010101_1100110_10 = .ok (.pack 1 42 85 102 2) ∧
    decodeWord 0b0_011101_01_0101010_1010101_0000000_01 = .ok (.unpk 1 42 85 1) ∧
    decodeWord 0b0_011110_01_0101010_1010101_110100101 = .ok (.andi 1 42 85 421) ∧
    decodeWord 0b0_011111_01_0101010_1010101_110100101 = .ok (.xori 1 42 85 421) ∧
    decodeWord 0b0_100000_01_0101010_1010101_1100110_10 = .ok (.fadd 1 42 85 102 2) ∧
    decodeWord 0b0_100001_01_0101010_1010101_1100110_10 = .ok (.fsub 1 42 85 102 2) ∧
    decodeWord 0b0_100010_01_0101010_1010101_1100110_10 = .ok (.fmul 1 42 85 102 2) ∧
    decodeWord 0b0_100011_01_0101010_1010101_1100110_10 = .ok (.ffma 1 42 85 102 2) ∧
    decodeWord 0b0_100100_01_0101010_1010101_1100110_00 = .ok (.fmin 1 42 85 102) := by decide

/-- Words of the lane set with a cell of their own (R36 to R40), written out bit by bit. -/
theorem test_decode_lane4 :
    decodeWord 0b0_100101_01_0101010_1010101_1100110_00 = .ok (.fmax 1 42 85 102) ∧
    decodeWord 0b0_100111_00_0010101_0101010_011_101_0_11 = .ok (.cvt 21 42 3 5 0 3) ∧
    decodeWord 0b0_101000_01_0_11_1010101_1100110_110010 = .ok (.qscale 1 3 85 102 50) ∧
    decodeWord 0b0_101001_00_1_11_1010101_1100110_110010 = .ok (.qscale8 1 3 85 102 50) ∧
    decodeWord 0b0_101011_1_1_0101010_1010101_0_100101_00 = .ok (.mrd 1 42 85 37) ∧
    decodeWord 0b0_101100_1_1_0101010_1010101_0_100101_00 = .ok (.mwr 1 42 85 37) ∧
    decodeWord 0b0_101111_01_0101010_000000000000_11_00 = .ok (.spec 1 42 3) ∧
    decodeWord 0b0_110000_01_0101010_1010101_1100110_10 = .ok (.shfl 1 42 85 102 2) ∧
    decodeWord 0b0_110001_01_0101010_1010101_0000101_00 = .ok (.redl 1 42 85 5 0) ∧
    decodeWord 0b0_110010_01_0101010_1010101_0000101_00 = .ok (.scanl 1 42 85 5 0) ∧
    decodeWord 0b0_111000_01_0101010_1010101_00_1_110010 = .ok (.ld 1 42 85 1 50) ∧
    decodeWord 0b0_111001_01_0101010_1010101_0_1_0_110010 = .ok (.st 1 42 85 1 50) := by decide

/-- Words of the lane set with a cell of their own (R36 to R40), written out bit by bit. -/
theorem test_decode_lane5 :
    decodeWord 0b0_111010_01_0101010_1010101_000_100101 = .ok (.ldv 1 42 85 37) ∧
    decodeWord 0b0_111011_01_0101010_1010101_000_100101 = .ok (.stv 1 42 85 37) ∧
    decodeWord 0b0_111100_1_1_0101010_1010101_0101_10_000 = .ok (.atom 1 42 85 5 2) ∧
    decodeWord 0b0_111101_1_1_0101010_1010101_1100110_00 = .ok (.redq 1 42 85 102) ∧
    decodeWord 0b0_111110_0000000000000000000000000 = .ok .lexit := by decide

/-- The words of cell UNA (R37, R40), written out bit by bit: set, major, and the fields of the format. -/
theorem test_decode_una :
    decodeWord 0b0_001010_01_0101010_1010101_0000000_00 = .ok (.abs 1 42 85) ∧
    decodeWord 0b0_001010_01_0101010_1010101_0000001_00 = .ok (.neg 1 42 85) ∧
    decodeWord 0b0_001010_01_0101010_1010101_0000010_00 = .ok (.not 1 42 85) ∧
    decodeWord 0b0_001010_01_0101010_1010101_0000011_00 = .ok (.clz 1 42 85) ∧
    decodeWord 0b0_001010_01_0101010_1010101_0000100_00 = .ok (.popc 1 42 85) ∧
    decodeWord 0b0_001010_01_0101010_1010101_0000101_00 = .ok (.brev 1 42 85) ∧
    decodeWord 0b0_001010_01_0101010_1010101_0000110_00 = .ok (.mov 1 42 85) := by decide

/-- The words of cell FUN (R37, R40), written out bit by bit: set, major, and the fields of the format. -/
theorem test_decode_fun :
    decodeWord 0b0_100110_01_0101010_1010101_0000000_00 = .ok (.fabs 1 42 85) ∧
    decodeWord 0b0_100110_01_0101010_1010101_0000001_00 = .ok (.fneg 1 42 85) ∧
    decodeWord 0b0_100110_01_0101010_1010101_0000010_00 = .ok (.frcp 1 42 85) ∧
    decodeWord 0b0_100110_01_0101010_1010101_0000011_00 = .ok (.frsq 1 42 85) ∧
    decodeWord 0b0_100110_01_0101010_1010101_0000100_01 = .ok (.fsqrt 1 42 85 1) ∧
    decodeWord 0b0_100110_01_0101010_1010101_0000101_00 = .ok (.fex2 1 42 85) ∧
    decodeWord 0b0_100110_01_0101010_1010101_0000110_00 = .ok (.flg2 1 42 85) ∧
    decodeWord 0b0_100110_01_0101010_1010101_0000111_00 = .ok (.fsin 1 42 85) ∧
    decodeWord 0b0_100110_01_0101010_1010101_0001000_00 = .ok (.fcos 1 42 85) ∧
    decodeWord 0b0_100110_01_0101010_1010101_0001001_00 = .ok (.fflr 1 42 85) ∧
    decodeWord 0b0_100110_01_0101010_1010101_0001010_00 = .ok (.fceil 1 42 85) ∧
    decodeWord 0b0_100110_01_0101010_1010101_0001011_00 = .ok (.ftrunc 1 42 85) ∧
    decodeWord 0b0_100110_01_0101010_1010101_0001100_01 = .ok (.frint 1 42 85 1) := by decide

/-! ### Witnesses: decoding, the step and traps -/

/-- StepRunsDecodedWord, a word granted: NOP is the first word after reset. -/
theorem test_step_word :
    let s := State.reset.withFetchWord 32 0xBEC00000
    s.inputs = [] ∧ s.bgTurn = false ∧ (granted s).isSome = true ∧
    (∃ s1, granted s = some s1 ∧ fetch { s1 with bgTurn := true } = .ok 0xBEC00000 ∧
      decodeWord 0xBEC00000 = .ok .nop) ∧
    crewXlate s needX s.c.pc.toNat = .ok ⟨0, homeSlice s 0 0 false⟩ := by
  refine ⟨by decide, by decide, by decide, ⟨_, rfl, by decide, by decide⟩, by decide⟩

/-- StepRunsDecodedWord, a word that R41 refuses, and a fetch that fails. -/
theorem test_step_refused :
    (∃ s1, granted (State.reset.withFetchWord 32 0x54000000) = some s1 ∧
      fetch { s1 with bgTurn := true } = .ok 0x54000000 ∧ decodeWord 0x54000000 = .error .reservedCell) ∧
    (∃ s1 t, granted (crewWith fun c => { c with pc := 0xA000000000 }) = some s1 ∧
      fetch { s1 with bgTurn := true } = .error t) :=
  ⟨⟨_, rfl, by decide, rfl⟩, ⟨_, _, rfl, rfl⟩⟩

/-- StepRunsDecodedWord, the events: one from outside, one that is due, and none. -/
theorem test_step_events :
    ({ opened with inputs := [.emergencyTrip] } : State).inputs = [.emergencyTrip] ∧ Instr.emergencyTrip.isWord = false ∧
    (let s : State := { opened with timens := 1000, bgTurn := true }
     s.inputs = [] ∧ due s = some .deadlineSweep) ∧
    (let s : State := { opened with timens := 1000, c := { opened.c with status := .halted }, crews := [] }
     s.bgTurn = false ∧ granted s = none ∧ due s = some .deadlineSweep) ∧
    (let s : State := { opened with c := { opened.c with status := .halted }, crews := [] }
     granted s = none ∧ due s = none) := by decide

/-- ChecksBeforeEffect: each check with a word and a crew that it stops. -/
theorem test_checks :
    (gate (.mand 0 1 2) opened).map (·.cause) = some .illegal ∧
    (blockForm (.br 0) { opened.c with blk := some ⟨0, 1, 2, 0⟩ } = true ∧
      (gate (.br 0) (crewWith fun c => { c with blk := some ⟨0, 1, 2, 0⟩ })).map (·.cause) = some .pblkForm) ∧
    (blockForm (.br 0) opened.c = false ∧ clauseForm (.br 0) opened.c = true ∧
      (gate (.br 0) opened).map (·.cause) = some .clauseForm) ∧
    (let s := crewWith fun c => { c with privl := 0 }
     clauseForm .rte last.c = false ∧ (leastPrivl .rte).1 = 1 ∧
      (gate .rte { s with c := { s.c with left := 1 } }).map (·.cause) = some .priv) ∧
    (let s := crewWith fun c => { c with outm := [⟨.s 2, 0⟩] }
     hazards (.aluAdd 1 2 3) s.c ≠ [] ∧ (gate (.aluAdd 1 2 3) s).map (·.cause) = some .hazard) := by decide

/-- ReadyWords: a uniform word, a transfer, a long-latency word and a lane word meet its conditions. -/
theorem test_ready_conditions :
    (Instr.defect (.aluAdd 1 2 3) = none ∧ isLane (.aluAdd 1 2 3) = false ∧ isClause (.aluAdd 1 2 3) = false ∧
      opened.c.blk = none ∧ 0 < opened.c.left ∧ (leastPrivl (.aluAdd 1 2 3)).1 ≤ opened.c.privl.toNat ∧
      opened.c.outm = [] ∧ opened.c.bad = [] ∧ opened.g.bad = []) ∧
    (isTransfer (.br 4) = true ∧ last.c.left = 1 ∧ gate (.br 4) last = none) ∧
    (isLong (.lds 3 0 1 2 0) = true ∧ opened.c.setA ≠ 15 ∧ gate (.lds 3 0 1 2 0) opened = none) ∧
    (isLane (.add 3 1 2 3) = true ∧ (leastPrivl (.add 3 1 2 3)).1 = 0 ∧
      (∀ n ∈ [(1 : BitVec 7), 2, 3], n.toNat / 8 < opened.g.nblk ∧
        (opened.g.owner.getD (n.toNat / 8) none).map (·.val) = some opened.c.att)) ∧
    (isLane .lexit = true ∧ (isTransfer .lexit = true → opened.c.left = 1)) := by decide

/-- A crew of a record's gallery, at PRIVL 0, whose region block at 0x200000 names the handler 0x300000. -/
def tenant : State :=
  let s := memWith opened [(0x200060, 8, 0x300000)]
  { s with c := { s.c with privl := 0 }, g := { s.g with rcd := { s.g.rcd with path := [0x200000] } } }

/-- TrapEntryAsR288, TrapAndBreakpointWords, TrapsThatHalt: a crew with a handler, one without, and one in its handler. -/
theorem test_trap_states :
    (tenant.c.bank = false ∧ drained (drain tenant) = true ∧ handlerOf (drain tenant) = 0x300000) ∧
    gate (.trap 5) tenant = none ∧ gate (.bkpt 5) tenant = none ∧
    (let s : State := { tenant with mem := [] }
     s.c.bank = false ∧ drained (drain s) = true ∧ handlerOf (drain s) = 0) ∧
    (let s := memWith tenant [(0x200060, 8, 0x300002)]
     drained (drain s) = true ∧ (handlerOf (drain s)).toNat % 4 ≠ 0) ∧
    (crewWith fun c => { c with bank := true }).c.bank = true := by decide

/-- `TRAP 5` at the pc 0 of a tenant: cause, TRAPPC, TRAPINFO, the mode and the handler's address (R288, R312). -/
theorem test_trap :
    let t := after (.trap 5) tenant
    t.c.trapcause = 0x10 ∧ t.c.trappc = 4 ∧ t.c.trapinfo = 5 ∧ t.c.privl = 1 ∧ t.c.bank = true ∧ t.c.pc = 0x300000 := by
  decide

/-- ReturnFromTrap: a handler's last word with TRAPPC and CLAUSEF in order, and with each of them not. -/
theorem test_return_states :
    let h (pc : Word) (f : BitVec 38) : State :=
      { last with c := { last.c with bank := true, privl := 1, trappc := pc, clausef := f } }
    (gate .rte (h 8 0x3C3) = none ∧ quiet (h 8 0x3C3).c = true ∧ clausefBad (h 8 0x3C3).c.clausef.toNat = false) ∧
    (gate .rte (h 6 0x3C3) = none ∧ quiet (h 6 0x3C3).c = true ∧ (h 6 0x3C3).c.trappc.toNat % 4 ≠ 0) ∧
    (gate .rte (h 0x200000000000000 0x3C3) = none ∧ 2 ^ 57 ≤ (h 0x200000000000000 0x3C3).c.trappc.toNat) ∧
    (gate .rte (h 8 0x21) = none ∧ quiet (h 8 0x21).c = true ∧ clausefBad (h 8 0x21).c.clausef.toNat = true) := by decide

/-- FaultRecordLayout: the ranges of its fields are met, at their ends. -/
theorem test_fault_record :
    let f : FaultRec := { cause := .collTimeout, detail := 255, crew := 0x7FFF, peer := 0xFFFF }
    f.detail < 2 ^ 8 ∧ f.crew < 2 ^ 15 ∧ f.peer < 2 ^ 16 := by decide

/-! ### Witnesses and results: scalar words and control -/

/-- AluWritesItsResult, AluiWritesItsResult, DivisionAsR48, AlxAndMovwWriteTheirResult: the words are ready in an open
clause. -/
theorem test_scalar_ready :
    ∀ i ∈ [Instr.aluAdd 1 2 3, .aluSub 1 2 3, .aluAnd 1 2 3, .aluOr 1 2 3, .aluXor 1 2 3, .aluAndn 1 2 3, .aluShl 1 2 3,
      .aluShr 1 2 3, .aluSar 1 2 3, .aluMul 1 2 3, .aluMulhs 1 2 3, .aluMulhz 1 2 3, .aluMins 1 2 3, .aluMaxs 1 2 3,
      .aluMinz 1 2 3, .aluMaxz 1 2 3, .aluiAddi 1 2 3, .aluiSubi 1 2 3, .aluiAndi 1 2 3, .aluiOri 1 2 3, .aluiXori 1 2 3,
      .aluiAndni 1 2 3, .aluiShli 1 2 3, .aluiShri 1 2 3, .aluiSari 1 2 3, .aluiMuli 1 2 3, .aluiMulhsi 1 2 3,
      .aluiMulhzi 1 2 3, .aluiMinsi 1 2 3, .aluiMaxsi 1 2 3, .aluiMinzi 1 2 3, .aluiMaxzi 1 2 3, .divs 1 2 3, .divz 1 2 3,
      .rems 1 2 3, .remz 1 2 3, .alxClz 1 2, .alxPopc 1 2, .alxBfx 1 2 3, .alxBfi 1 2 3, .cmps 1 2 3 5, .alxMov 1 2,
      .selnz 1 2 3, .movw 2 1 7, .movwk 2 1 7], gate i opened = none := by decide +kernel

/-- Sums wrap, an arithmetic shift keeps the sign past the width, and a high product is signed or not (R46). -/
theorem test_alu :
    let s := regs [(2, 0xFFFFFFFFFFFFFFFF), (3, 64), (4, 2)]
    getS (after (.aluAdd 1 2 4) s).c 1 = 1 ∧ getS (after (.aluSar 1 2 3) s).c 1 = 0xFFFFFFFFFFFFFFFF ∧
    getS (after (.aluShl 1 2 3) s).c 1 = 0 ∧ getS (after (.aluMulhs 1 2 4) s).c 1 = 0xFFFFFFFFFFFFFFFF ∧
    getS (after (.aluMulhz 1 2 4) s).c 1 = 1 ∧ getS (after (.aluMins 1 2 4) s).c 1 = 0xFFFFFFFFFFFFFFFF ∧
    getS (after (.aluMinz 1 2 4) s).c 1 = 2 ∧ getS (after (.aluiAddi 1 4 0x1FF) s).c 1 = 1 ∧
    getS (after (.aluAdd 0 2 4) s).c 0 = 0 ∧ (after (.aluAdd 1 2 4) s).c.pc = 4 := by decide +kernel

/-- Division by zero gives all ones and the dividend; the overflowing quotient is the dividend (R48). -/
theorem test_division :
    let s := regs [(2, 0x8000000000000000), (3, 0xFFFFFFFFFFFFFFFF), (4, 3)]
    getS (after (.divs 1 2 0) s).c 1 = 0xFFFFFFFFFFFFFFFF ∧ getS (after (.rems 1 2 0) s).c 1 = 0x8000000000000000 ∧
    getS (after (.divs 1 2 3) s).c 1 = 0x8000000000000000 ∧ getS (after (.rems 1 2 3) s).c 1 = 0 ∧
    getS (after (.divs 1 2 4) s).c 1 = 0xD555555555555556 ∧ getS (after (.rems 1 2 4) s).c 1 = 0xFFFFFFFFFFFFFFFE := by decide +kernel

/-- Field extract and insert by position and length, leading zeros, and halfwords (R49, R51). -/
theorem test_fields :
    let s := regs [(1, 0xFFFF), (2, 0x1234), (3, 0x0804)]
    getS (after (.alxBfx 1 2 3) s).c 1 = 0x23 ∧ getS (after (.alxBfi 1 2 3) s).c 1 = 0xF34F ∧
    getS (after (.alxClz 1 2) s).c 1 = 51 ∧ getS (after (.movw 1 1 7) s).c 1 = 0x70000 ∧
    getS (after (.movwk 1 1 7) s).c 1 = 0x7FFFF := by decide +kernel

/-- BranchesGoToTheirTarget, RegisterJumpsGoToTheirTarget: transfers at the end of a clause; a target that is taken, one
that is misaligned and one that is out of range. -/
theorem test_branch_states :
    (∀ i ∈ [Instr.brc 0 1 2 3, .br 4, .call 4, .jr 1, .callr 1, .ret], gate i last = none) ∧
    relBrc 0 (getS last.c 1) (getS last.c 2) = true ∧ relBrc 1 (getS last.c 1) (getS last.c 2) = false ∧
    gate (.brc 1 1 2 3) last = none ∧ (getS last.c 1).toNat % 4 = 0 ∧ (getS last.c 63).toNat < 2 ^ 57 ∧
    (let s : State := { last with c := setS (setS last.c 1 6) 2 0x200000000000000 }
     (getS s.c 1).toNat % 4 ≠ 0 ∧ (getS s.c 2).toNat % 4 = 0 ∧ 2 ^ 57 ≤ (getS s.c 2).toNat ∧
       (gate (.jr 1) s).map (·.cause) = some .align ∧ (gate (.callr 2) s).map (·.cause) = some .xlate) := by decide +kernel

/-- A backward branch, the link of a call, and a jump through a register (R52 to R54). -/
theorem test_branch :
    let s : State := { last with c := setS { last.c with pc := 0x1000 } 1 0x2000 }
    (after (.brc 1 1 0 0x1FF) s).c.pc = 0xFFC ∧ (after (.brc 0 1 0 0x1FF) s).c.pc = 0x1004 ∧
    (after (.call 0x1FFFFFF) s).c.pc = 0xFFC ∧ getS (after (.call 2) s).c 63 = 0x1004 ∧
    (after (.jr 1) s).c.pc = 0x2000 ∧ (after (.jr 1) s).c.left = 0 := by decide +kernel

/-- HeaderOpensItsClause: a header that goes on, one whose wait flag is not clear, and one without room in its flag. -/
theorem test_header_states :
    (let s := State.reset
     gate (.clause 1 0 1 7) s = none ∧ s.c.deferred = [] ∧ flagCount s.c 0 = 0 ∧ flagCount s.c 1 = 0) ∧
    (let s : State := { State.reset with c := { State.reset.c with incs := List.replicate 15 ⟨0, 2, true⟩, stores := [⟨0, [], [], []⟩] } }
     gate (.clause 4 0 15 7) s = none ∧ gate (.clause 0 2 15 7) s = none ∧ gate (.clause 0 15 2 7) s = none ∧
       flagCount s.c 2 = 15) := by decide +kernel

/-- A header opens its clause: the span, the pc and the flags it raises (R11, R12). -/
theorem test_header :
    let t := after (.clause 0 1 1 7) State.reset
    t.c.left = 8 ∧ t.c.pc = 4 ∧ flagCount t.c 1 = 2 ∧ t.c.setA = 1 := by decide +kernel

/-! ### Witnesses and results: lane words, searches, marks and blocks -/

/-- LaneIntegerWords, LaneUnaryImmediateWords, LaneFloatWords, LaneConversionAndCrossLaneWords, SfuWordsLandLater,
LexitEndsThreads: the words are ready in an open clause. -/
theorem test_lane_ready :
    (∀ i ∈ [Instr.add 1 1 2 3, .sub 1 1 2 3, .mul 1 1 2 3, .mulh 1 1 2 3 1, .addsat 1 1 2 3 0, .subsat 1 1 2 3 1,
      .min 1 1 2 3 0, .max 1 1 2 3 1, .and 1 1 2 3, .or 1 1 2 3, .xor 1 1 2 3, .andn 1 1 2 3, .shl 1 1 2 3, .shr 1 1 2 3,
      .sar 1 1 2 3, .cmp 1 1 2 3 2, .cmpz 1 1 2 3 3, .addi 1 1 2 3, .andi 1 1 2 3, .xori 1 1 2 3, .shli 1 1 2 15,
      .shri 1 1 2 15, .sari 1 1 2 15, .abs 1 1 2, .neg 1 1 2, .not 1 1 2, .clz 1 1 2, .popc 1 1 2, .brev 1 1 2, .mov 1 1 2,
      .movi 1 1 3, .bcast 1 1 2, .spec 1 1 2, .mad 1 1 2 3, .bfx 1 1 2 3 1, .bfi 1 1 2 3, .pack 1 1 2 3 1, .unpk 1 1 2 3],
      gate i opened = none) ∧
    (∀ i ∈ [Instr.fadd 2 1 2 3 0, .fsub 2 1 2 3 1, .fmul 2 1 2 3 2, .ffma 2 1 2 3 3, .fmin 2 1 2 3, .fmax 2 1 2 3,
      .fcmp 2 1 2 3 2, .fabs 2 1 2, .fneg 2 1 2, .fflr 2 1 2, .fceil 2 1 2, .ftrunc 2 1 2, .frint 2 1 2 0,
      .cvt 1 2 1 3 0 0, .qscale 1 2 1 2 3, .qscale8 1 2 1 2 3, .shfl 2 1 2 3 1, .redl 2 1 2 0 0, .scanl 2 1 2 0 0,
      .frcp 2 1 2, .frsq 2 1 2, .fsqrt 2 1 2 0, .fex2 2 1 2, .flg2 2 1 2, .fsin 2 1 2, .fcos 2 1 2], gate i opened = none) ∧
    gate .lexit opened = none ∧ opened.c.gid = opened.g.gid ∧
    shflSource 0 8 13 2 = some 10 ∧ shflSource 1 8 13 1 = some 12 ∧ shflSource 2 8 13 3 = some 10 ∧
    shflSource 3 8 13 2 = some 15 := by decide +kernel

/-- A gallery state with some thread registers written: thread, register, value. -/
def lanes (l : List (Nat × Nat × Word)) : State :=
  { opened with c := { opened.c with act := 3 }, g := l.foldl (fun g p => setV g p.1 p.2.1 p.2.2) opened.g }

/-- Sub-elements do not carry into each other, saturation is at the width, and an inactive thread keeps its register
(R27, R68, R97, R98). -/
theorem test_lane_int :
    let s := lanes [(0, 2, 0x7FFF0001FFFF0003), (0, 3, 0x0001000100010001), (5, 1, 9)]
    reg (after (.add 1 1 2 3) s) 0 1 = 0x8000000200000004 ∧ reg (after (.addsat 1 1 2 3 0) s) 0 1 = 0x7FFF000200000004 ∧
    reg (after (.addsat 1 1 2 3 1) s) 0 1 = 0x80000002FFFF0004 ∧ reg (after (.add 1 1 2 3) s) 5 1 = 9 ∧
    reg (after (.sar 1 1 2 3) s) 0 1 = 0x3FFF0000FFFF0001 ∧ reg (after (.abs 1 1 2) s) 0 1 = 0x7FFF000100010003 ∧
    reg (after (.add 3 2 2 2) s) 0 2 = 0xFFFE0003FFFE0006 := by decide +kernel

/-- Single precision: 1 + 2 = 3, 1 / 3 is inexact in a fused product, and a sum of infinities of both signs is invalid
(R113, R116). -/
theorem test_lane_float :
    let s := lanes [(0, 2, 0x7F8000003F800000), (0, 3, 0xFF80000040000000)]
    reg (after (.fadd 2 1 2 3 0) s) 0 1 = 0x7FC0000040400000 ∧ (after (.fadd 2 1 2 3 0) s).c.xstat = 16 ∧
    reg (after (.fmul 2 1 2 3 0) s) 0 1 = 0xFF80000040000000 ∧ reg (after (.fneg 2 1 3) s) 0 1 = 0x7F800000C0000000 := by
  decide +kernel

/-- SearchMarksResponders: ready searches, an ordered one over a run of mask bits, and one whose mask has a gap. -/
theorem test_search_states :
    (let s := regs [(5, 0xFF0)]
     gate (.srch 1 2 2 4 5) s = none ∧ gate (.srcha 1 4 2 4 5) s = none ∧ gate (.srchr 1 3 2 3 5) s = none ∧
       ordered 2 = true ∧ oneRun (getS s.c 5).toNat = true ∧ (0xFF0 : Word).toNat = (2 ^ 8 - 1) * 2 ^ 4) ∧
    (let s := regs [(5, 0xF0F)]
     gate (.srch 1 2 2 4 5) s = none ∧ ordered 2 = true ∧ oneRun (getS s.c 5).toNat = false) := by decide +kernel

/-- A search marks the threads whose field equals the key's under the mask (R126). -/
theorem test_search :
    let s := { lanes [(0, 2, 0x123), (1, 2, 0x124), (2, 2, 0x123)] with c := setS (setS { opened.c with act := 3 } 4 0x923) 5 0xFF }
    getM (after (.srch 1 0 2 4 5) s).c 0 1 = 1 ∧ getM (after (.srcha 1 0 2 4 5) s).c 0 1 = 5 := by decide +kernel

/-- MarkWords, ResponderStackWords: ready words; a stack with room, one that is full and one that is empty. -/
theorem test_mark_states :
    (∀ i ∈ [Instr.mand 1 2 3, .mor 1 2 3, .mxor 1 2 3, .mandn 1 2 3, .mnot 1 2, .mcopy 1 2, .mclr 1, .mgetact 1, .mset1 1 4,
      .mclr1 1 4, .jarv 1, .cnt 1 4, .first 1 4, .next 1 4, .mpick 1 2 4, .push 1, .pushall, .join 1, .setact 1, .rdepth 4],
      gate i opened = none) ∧ opened.c.stack.length < 16 ∧
    (let s := crewWith fun c => { c with stack := [1, 3] }
     gate .pop s = none ∧ gate (.else_ 1) s = none ∧ s.c.stack = [1] ++ [3]) ∧
    (let s := crewWith fun c => { c with stack := List.replicate 16 1 }
     16 ≤ s.c.stack.length ∧ gate (.push 1) s = none ∧ gate .pushall s = none) ∧
    (opened.c.stack = [] ∧ gate .pop opened = none ∧ gate (.else_ 1) opened = none) := by decide +kernel

/-- The lowest slot of a mark and the next after it; none is all ones; a mark pushed narrows ACT (R131, R134). -/
theorem test_marks :
    let s := crewWith fun c => setS (setM c 1 0x50) 4 4
    getS (after (.first 1 5) s).c 5 = 4 ∧ getS (after (.next 1 4) s).c 4 = 6 ∧ getS (after (.first 2 5) s).c 5 = 0xFFFFFFFFFFFFFFFF ∧
    getS (after (.cnt 1 5) s).c 5 = 2 ∧ (after (.push 1) s).c.act = 0x50 ∧ (after (.push 1) s).c.stack = [0xFFFFFFFF] := by decide +kernel

/-- SingleThreadTransfers: a thread that is there, one that is not, one that is not live, an empty ACT, and the owner. -/
theorem test_transfer_states :
    (let s := regs [(4, 7), (5, 32)]
     gate (.get 1 2 4 0) s = none ∧ (getS s.c 4).toNat < s.g.nthr ∧ gate (.get 1 2 5 0) s = none ∧
       s.g.nthr ≤ (getS s.c 5).toNat ∧ gate (.put 1 2 4 0) s = none ∧ gate (.put 1 2 5 0) s = none ∧
       (s.g.owner.getD 0 none).map (·.val) = some s.c.att ∧ s.g.live.getLsbD 7 = true) ∧
    (let s := { regs [(4, 7)] with g := { opened.g with live := 1 } }
     gate (.put 1 2 4 0) s = none ∧ s.g.live.getLsbD (getS s.c 4).toNat = false) ∧
    (gate (.getf 1 2 0) opened = none ∧ members opened.c.act opened.g.nthr = List.range 32) ∧
    (let s := crewWith fun c => { c with act := 0 }
     gate (.getf 1 2 0) s = none ∧ members s.c.act s.g.nthr = []) ∧ (2 : BitVec 7).toNat / 8 < opened.g.nblk := by decide +kernel

/-- RegisterBlockWords: blocks that are free or the crew's own, blocks of another, and blocks to release. -/
theorem test_block_states :
    (let s := regs [(4, 6)]
     (getS s.c 4).toNat < 2 ^ 16 ∧ (∀ b, b < 16 → bit (getS s.c 4).toNat b = true → b < s.g.nblk) ∧
       (∀ b, b < 16 → bit (getS s.c 4).toNat b = true → (s.g.owner.getD b none).map (·.val) = some s.c.att) ∧
       gate (.blkacqW 4) s = none ∧ gate (.blkacqP 1 4) s = none ∧ gate (.blkrel 4) s = none ∧ gate (.blkq 1) s = none ∧
       landingIn s.c (getS s.c 4).toNat = false ∧ s.g.blkq = []) ∧
    (let s := { regs [(4, 6)] with g := { opened.g with owner := opened.g.owner.set 1 (some 2) } }
     s.g.owner.getD 1 none = some 2 ∧ s.c.att = 0 ∧ gate (.blkacqP 1 4) s = none ∧ gate (.blkacqW 4) s = none) := by decide +kernel

/-- PredicateBlocks: a block that opens, and one in progress. -/
theorem test_pblk :
    (gate (.pblk 1 1 1) opened = none ∧ opened.c.blk = none ∧ (after (.pblk 1 1 1) opened).c.blk = some ⟨0, 1, 2, 1⟩) ∧
    blockStep (some ⟨5, 1, 2, 2⟩) = some ⟨5, 1, 1, 1⟩ ∧ blockStep (some ⟨5, 1, 1, 1⟩) = none := by decide +kernel

/-! ### Witnesses and results: memory -/

/-- Where the foreman's plain address 0x100000 stands. -/
def spot : Place := ⟨0x100000, homeSlice opened 0 0x100000 false⟩

/-- Every thread register `v2` names 0x100000, and scalar `s4` too; `s5` names no memory. -/
def aimed : State :=
  let s := regs [(4, 0x100000), (5, 0xA000000000), (6, 0x100004)]
  { s with g := (List.range 32).foldl (fun g t => setV (setV g t 2 0x100000) t 3 (w64 t)) s.g }

/-- MemoryReadAfterWrite: bytes outside the overlay, and a crew whose youngest store covers what it reads. -/
theorem test_memory_states :
    (∀ k, k < 8 → inRom opened (0x100000 + k) = false) ∧ inRom opened 0x100 = true ∧ opened.c.stores = [] ∧
    opened.tidy = true ∧
    (crewWith fun c => { c with stores := [⟨0, [⟨false, 3, 0x100000, toBytes 4 7⟩], [], []⟩] }).c.stores =
      [] ++ [⟨0, [⟨false, 3, 0x100000, toBytes 4 7⟩], [], []⟩] := by decide +kernel

/-- Bytes are little-endian, and a write under the overlay is dropped (R1, R362). -/
theorem test_memory :
    let s := writeNat opened 0x100000 4 0x01020304
    readByte s 0x100000 = 4 ∧ readByte s 0x100003 = 1 ∧ readNat s 0x100000 8 = 0x01020304 ∧
    (writeNat opened 0x100 4 7).mem = opened.mem ∧ (writeNat s 0x100000 4 0).mem = opened.mem := by decide +kernel

/-- AccessChecks: an address past 2^57, one that is misaligned, one that does not translate, one that does, and one that
the hardware owns. -/
theorem test_access_states :
    checkGlobal opened needR (2 ^ 57) 8 8 = .error .xlate ∧ (0x100004 : Nat) % 8 ≠ 0 ∧
    crewXlate opened needR 0xA000000000 = .error .xlate ∧ crewXlate opened needR 0x100000 = .ok spot ∧
    ownedByHw opened 0x100000 8 false = false ∧ ownedByHw opened 0x27FFFFFF00 8 true = true ∧
    (gate (.lds 3 0 1 5 0) aimed = none ∧ checkGlobal aimed needR 0xA000000000 8 8 = .error .xlate) ∧
    (gate (.sts 3 0 1 6 0) aimed = none ∧ checkGlobal aimed needW 0x100004 8 8 = .error .align) ∧
    (gate (.atoms 0 1 6 0 1 0) aimed = none ∧ checkGlobal aimed needRW 0x100004 8 8 = .error .align) ∧
    (gate (.ld 3 1 3 0 0) aimed = none ∧ gate (.st 3 1 3 0 0) aimed = none ∧ active aimed 1 ∧
      checkGlobal aimed needR ((reg aimed 1 3).toNat) 8 8 = .error .align ∧ checkGlobal aimed needR 0 8 8 = .ok ⟨0, homeSlice aimed 0 0 false⟩) := by
  and_intros <;> decide +kernel

/-- LoadsLandTheirValue: scalar, mark and lane loads whose accesses pass, and a vault load of threads 0 and 1 at a granule
of the foreman's half. -/
theorem test_load_states :
    (gate (.lds 3 0 1 4 0) aimed = none ∧ checkGlobal aimed needR 0x100000 8 8 = .ok spot ∧
      poisoned aimed false 0x100000 8 = false) ∧
    (gate (.mload 1 4) aimed = none ∧ checkGlobal aimed needR 0x100000 256 256 = .ok spot) ∧
    (gate (.ld 3 1 2 0 0) aimed = none ∧ ∀ th, active aimed th →
      checkGlobal aimed needR (((reg aimed th 2).toNat + 0) % 2 ^ 64) 8 8 = .ok spot ∧
        poisoned aimed false spot.pa 8 = false) ∧
    (gate (.ldv 3 1 2 0) aimed = none ∧ gate (.stv 3 1 2 0) aimed = none ∧ ∀ th, active aimed th →
      0x100000 = relocate aimed.g (((reg aimed th 2).toNat % 2 ^ 32 + 0) % 2 ^ 32) ∧
        checkVault aimed aimed.part 0 2 (galAsn aimed.g) 0x100000 8 = .ok () ∧ isControl 0 2 0x100000 = false ∧
        poisoned aimed true 0x100000 8 = false) := by
  and_intros <;> first | exact of_active (by decide +kernel) | decide +kernel

/-- StoresAreQueued: scalar, mark and lane stores whose accesses pass. -/
theorem test_store_states :
    (gate (.sts 3 1 1 4 0) aimed = none ∧ aimed.c.redq = [] ∧ checkGlobal aimed needW 0x100000 8 8 = .ok spot) ∧
    (gate (.mstore 1 4) aimed = none ∧ checkGlobal aimed needW 0x100000 256 256 = .ok spot) ∧
    (gate (.st 3 1 2 1 0) aimed = none ∧ ∀ th, active aimed th →
      checkGlobal aimed needW (((reg aimed th 2).toNat + 0) % 2 ^ 64) 8 8 = .ok spot) := by
  and_intros <;> first | exact of_active (by decide +kernel) | decide +kernel

/-- A crew with a store to be performed, a filter bit on its line, and the store held for the slow path. -/
def storing : State := crewWith fun c => { c with stores := [⟨0, [⟨false, 3, 0x100000, [1, 2]⟩, ⟨false, 3, 0x100100, [3]⟩], [], []⟩] }

/-- StoredBytesAppear: a write that goes on, one that its filter holds, and one on the slow path. -/
theorem test_perform_states :
    (storing.lamps = [] ∧ storing.redq = [] ∧ storing.c.uid ∉ storing.slow ∧
      filtered storing ⟨false, 3, 0x100000, [1, 2]⟩ = false) ∧
    (let s : State := { storing with filter := [65536 * 3 + foldBits 16 3 0x1000] }
     s.c.uid ∉ s.slow ∧ filtered s ⟨false, 3, 0x100000, [1, 2]⟩ = true) ∧
    ({ storing with slow := [0] } : State).c.uid ∈ ({ storing with slow := [0] } : State).slow := by decide +kernel

/-- The oldest write appears, and its acknowledgement waits for the last write of the word (R13, R190). -/
theorem test_perform :
    let t := after (.storePerformed 0) storing
    readNat t 0x100000 2 = 0x0201 ∧ readByte t 0x100100 = 0 ∧ t.c.acks = [] ∧ t.c.stores.length = 1 ∧
    (after (.storePerformed 0) t).c.acks = [0] ∧ (after (.storePerformed 0) t).c.stores = [] := by decide +kernel

/-- FlagsRetireAsWorkLands: a landing of each kind, a count of each kind, and an acknowledgement. -/
theorem test_landing_states :
    (let s := crewWith fun c => { c with left := 0, land := [⟨0, .scalar 1 7, 0⟩, ⟨0, .mark 1 3, 2⟩, ⟨0, .gang 1 [(0, 5), (1, 6)], 0⟩] }
     s.c.land = [⟨0, .scalar 1 7, 0⟩] ++ ⟨0, .mark 1 3, 2⟩ :: [⟨0, .gang 1 [(0, 5), (1, 6)], 0⟩] ∧
       ([(0, (5 : Word)), (1, 6)].map (·.1)).Nodup ∧ (⟨0, 0, false⟩ : FlagInc) ∈ s.c.incs) ∧
    (let s := crewWith fun c => { c with acks := [4, 0] }
     s.c.acks = [4] ++ 0 :: []) := by decide +kernel

/-- A result lands and its count retires once the clause is over (R13). -/
theorem test_landing :
    let s := crewWith fun c => { c with left := 0, land := [⟨0, .scalar 1 7, 0⟩] }
    let t := after (.longLatencyLanding 0 0) s
    getS t.c 1 = 7 ∧ flagCount s.c 0 = 1 ∧ flagCount t.c 0 = 0 := by decide +kernel

/-- AtomicsAtTheHomeSlice: an ATOMS and an ATOM whose accesses pass, at both widths. -/
theorem test_atomic_states :
    aimed.c.stores = [] ∧ aimed.c.redq = [] ∧
    (gate (.atoms 10 1 4 7 1 3) aimed = none ∧ gate (.atoms 0 1 4 0 0 0) aimed = none ∧
      checkGlobal aimed needRW 0x100000 8 8 = .ok spot ∧ poisoned (atHome aimed) false 0x100000 8 = false) ∧
    (gate (.atom 1 8 2 0 3) aimed = none ∧ ∀ th, active aimed th →
      checkGlobal aimed needRW (reg aimed th 2).toNat 8 8 = .ok spot ∧ poisoned (atHome aimed) false spot.pa 8 = false) := by
  and_intros <;> first | exact of_active (by decide +kernel) | decide +kernel

/-- An add at the home slice leaves the sum and lands the old value; a compare-and-swap that fails leaves memory (R216). -/
theorem test_atomic :
    let s := { memWith aimed [(0x100000, 8, 40)] with c := setS (setS aimed.c 1 2) 7 39 }
    readNat (after (.atoms 0 1 4 0 1 0) s) 0x100000 8 = 42 ∧
    (after (.atoms 0 1 4 0 1 0) s).c.land = [⟨0, .scalar 1 40, 0⟩] ∧
    readNat (after (.atoms 10 1 4 7 1 0) s) 0x100000 8 = 40 := by decide +kernel

/-- A contribution of the crew in focus to the object at 0x100000, with an index. -/
def pending (index : Word) : Contribution := ⟨0, 8, 0, 0x100000, 0x100000, spot.home, index, 0x3FF0000000000000, true, 8, none, false, false, []⟩

/-- FencesAndQueuedReductions: fences that go on and that wait, and a REDQ whose accesses pass. -/
theorem test_fence_states :
    (∀ i ∈ [Instr.fence, .fenceA, .fenceR, .ifence], gate i opened = none) ∧ opened.c.stores = [] ∧ opened.c.redq = [] ∧
    (let s := crewWith fun c => { c with redq := [pending 0], stores := storing.c.stores }
     gate .fence s = none ∧ gate .fenceR s = none ∧ gate .fenceA s = none ∧ s.c.redq ≠ [] ∧ s.c.stores ≠ []) ∧
    (gate (.redq 1 1 2 3) aimed = none ∧ ∀ th, active aimed th →
      checkGlobal aimed needRW (reg aimed th 2).toNat 16 16 = .ok spot ∧ inHost spot.pa = false) := by
  and_intros <;> first | exact of_active (by decide +kernel) | decide +kernel

/-- ReductionsByIndex: an object with NEXT 5, and indexes at the ends of each range: next, held, too far, and behind. -/
theorem test_reduction_states :
    let s := memWith aimed [(0x100008, 8, 5)]
    let at_ (i : Word) : State := { s with c := setS s.c 7 i }
    let ahead (i : Word) : Nat := (i.toNat + 2 ^ 64 - readNat (atHome (at_ i)) 0x100008 8) % 2 ^ 64
    gate (.redqs 1 1 4 7) s = none ∧ checkGlobal s needRW 0x100000 16 16 = .ok spot ∧ inHost spot.pa = false ∧
    poisoned (atHome s) false spot.pa 16 = false ∧ (atHome s).redq = [] ∧
    ahead 5 = 0 ∧ ahead 6 = 1 ∧ ahead 68 = 63 ∧ ahead 69 = 64 ∧ ahead (5 + 0x7FFFFFFFFFFFFFFF) = 2 ^ 63 - 1 ∧
    ahead (5 + 0x8000000000000000) = 2 ^ 63 ∧ ahead 4 = 2 ^ 64 - 1 ∧
    (let t := crewWith fun c => { c with redq := [pending 5] }
     t.c.redq = [pending 5] ∧ t.c.dups = [] ∧ t.redq = [] ∧ t.c.status ≠ .exited) := by decide +kernel

/-- The next contribution is added and NEXT rises; one behind is a duplicate (R221, R223). -/
theorem test_reduction :
    let s := { memWith aimed [(0x100000, 8, 0x3FF0000000000000), (0x100008, 8, 5)] with
      c := setS (setS aimed.c 1 0x4000000000000000) 7 5 }
    readNat (after (.redqs 1 1 4 7) s) 0x100000 8 = 0x4008000000000000 ∧ readNat (after (.redqs 1 1 4 7) s) 0x100008 8 = 6 ∧
    (after (.redqs 1 1 4 7) { s with c := setS s.c 7 4, boot := { s.boot with ftvec := Vector.replicate 4 0x1000 } }).c.trapcause
      = 0x0B := by decide +kernel

/-- An entry of the Lamproom for the crew in focus. -/
def waiting : LampEntry := ⟨0x100000, spot.home, false, 0, 1, some 500, 0, 0, 0, 0, 0, none⟩

/-- WaitsAndWakes: a wait whose condition holds, one with a time of 0, one with room and one without. -/
theorem test_wait_states :
    (gate (.waitu 0 1 4 7 0 0) aimed = none ∧ checkGlobal aimed needR 0x100000 8 8 = .ok spot ∧ inHost spot.pa = false ∧
      waitHolds 0 false (readNat (atHome aimed) 0x100000 8) (getS aimed.c 7).toNat = true ∧
      waitHolds 1 false (readNat (atHome aimed) 0x100000 8) (getS aimed.c 7).toNat = false ∧
      gate (.waitu 1 1 4 7 0 1) aimed = none ∧ getG aimed.c 7 1 = 0 ∧
      ((atHome aimed).lamps.filter fun f => f.spilled.isNone && f.home == spot.home && lampSet f.pa == lampSet spot.pa).length < 8) ∧
    (let s : State := { aimed with lamps := List.replicate 8 waiting }
     gate (.waitu 1 1 4 7 0 0) s = none ∧
       register (atHome s) s.g.rcd (lampEntry (atHome s) spot false 1 0 none) = none) := by decide +kernel

/-- WaitsAndWakes: a write to the line of an entry, a sweep with one that is late, and crews that were woken. -/
theorem test_wake_states :
    (let s : State := { opened with lamps := [{ waiting with y := 0 }] }
     ∃ e ∈ s.lamps, (e.pa / 256 == 0x1000 && lampHolds s e) = true ∧ e.uid = s.c.uid) ∧
    (let s : State := { opened with lamps := [waiting], timens := 1000 }
     s.sweepAt ≤ s.timens.toNat ∧ s.sweeps = [] ∧
       ∃ e ∈ s.lamps, ((e.deadline.map fun t => decide (t ≤ s.sweepAt)).getD false) = true ∧ e.uid = s.c.uid) ∧
    (let s := crewWith fun c => { c with woken := some 1, status := .parked (.waitu 3) }
     s.c.woken = some 1 ∧ s.c.status = .parked (.waitu 3)) ∧
    (let s := crewWith fun c => { c with woken := some 0, status := .parked .barc }
     s.c.woken = some 0 ∧ s.c.status = .parked .barc) := by decide +kernel

/-- A wait whose condition does not hold parks, and a woken crew goes on with its status (R228, R232). -/
theorem test_wait :
    (after (.waitu 1 1 4 7 0 0) aimed).c.status = .parked (.waitu 1) ∧ (after (.waitu 1 1 4 7 0 0) aimed).c.pc = 0 ∧
    (after (.waitu 1 1 4 7 0 0) aimed).lamps.length = 1 ∧
    (let t := after (.crewWakeResume 0) (crewWith fun c => { c with woken := some 1, status := .parked (.waitu 3) })
     getS t.c 3 = 1 ∧ t.c.pc = 4 ∧ t.c.status = .running) := by decide +kernel

/-! ### Witnesses and results: relays, tags, engines, tasks, collectives, system words -/

/-- A relay of integer sums at 0x100000, with a window of 4 words that holds 5 and 7, in order of arrival or by index. -/
def relayed (seq : Bool) : State :=
  let s := memWith aimed [(0x100000, 8, if seq then 0x40012 else 0x40002), (0x100010, 8, 9), (0x100020, 8, 0x10002), (0x100028, 8, 7)]
  { s with relays := [⟨0x100000, spot.home, 0, 0, 0, [], [5], [7], []⟩] }

/-- The same with a value in `s7` and an index in `s8`. -/
def indexed (i : Word) : State := let s := relayed true; { s with c := setS (setS s.c 7 3) 8 i }

/-- A crew without reductions to be answered, and without stores that wait for one, is held up by nothing before it. -/
theorem unhindered_of {s : State} {w : Bool} {pa n : Nat} (hr : s.c.redq = []) (hs : s.c.staying = []) :
    Unhindered s w pa n := by
  refine ⟨?_, ?_, ?_⟩ <;> intro x hx
  · simp [hr] at hx
  · simp [hr] at hx
  · simp [hs] at hx

/-- RelayWords: an object of each kind, indexes at the ends of each range, and a block to be configured. -/
theorem test_relay_states :
    RelayReached (relayed false) (atHome (relayed false)) 0x100000 spot ∧
    relayAt (atHome (relayed false)) 0x100000 = some ⟨0x100000, spot.home, 0, 0, 0, [], [5], [7], []⟩ ∧
    (∀ i ∈ [Instr.wacc 4 7, .waccq 4 7, .wqry 1 4, .wlen 1 4, .wclr 4], gate i (relayed false) = none) ∧
    relaySeq (atHome (relayed false)) 0x100000 = false ∧ relaySeq (atHome (relayed true)) 0x100000 = true ∧
    (let ahead (i : Word) : Nat := ((getG (indexed i).c 7 1).toNat + 2 ^ 64 - relayNext (atHome (indexed i)) 0x100000) % 2 ^ 64
     ahead 9 = 0 ∧ ahead 10 = 1 ∧ ahead 72 = 63 ∧ ahead 73 = 64 ∧ ahead (9 + 0x7FFFFFFFFFFFFFFF) = 2 ^ 63 - 1 ∧
       ahead (9 + 0x8000000000000000) = 2 ^ 63 ∧ ahead 8 = 2 ^ 64 - 1) := by
  and_intros <;> first | exact unhindered_of rfl rfl | decide +kernel | rfl

/-- RelayWords: a block that no `WCFG` has configured, with storage at 0x120000. -/
theorem test_relay_config :
    let s := let s := memWith aimed [(0x100000, 8, 15), (0x100008, 8, 0x120000)]; { s with c := setS s.c 7 0x40002 }
    RelayReached s (atHome s) 0x100000 spot ∧ gate (.wcfg 4 7) s = none ∧ relayOper (atHome s) 0x100000 = 15 ∧
    storagePages (atHome s) 0x120000 (storageBytes 2 4 / 4096) = .ok [(0x120000, 4096)] ∧
    (let t := after (.wcfg 4 7) s
     readNat t 0x100000 8 = 0x40002 ∧ (t.relays.map fun r => (r.blk, r.store)) = [(0x100000, [(0x120000, 4096)])]) := by
  and_intros <;> first | exact unhindered_of rfl rfl | decide +kernel | rfl

/-- A window of 4 that holds two gains one; the query combines front and back (R238). -/
theorem test_relay :
    let s := let s := relayed false; { s with c := setS s.c 7 3 }
    let t := after (.wacc 4 7) s
    relayTotal t 0x100000 = 1 ∧ relayBagg t 0x100000 = 10 ∧ getS (after (.wqry 1 4) t).c 1 = 15 ∧
    getS (after (.wlen 1 4) t).c 1 = 0x400010003 := by decide +kernel

/-- Tags 3 and 5 of mask 0x28: 3 at count 0, 5 at count 2. -/
def tagged (fail : Word) : State :=
  let s := regs [(4, 0x28)]
  { s with c := { s.c with tagcnt := s.c.tagcnt.set 5 2, tagfail := fail, tagcause := s.c.tagcause.set 3 6 } }

/-- TagAndPublishWords: waits that hold, that find a failed tag, and that park. -/
theorem test_tag_states :
    let m := getS (tagged 0).c 4
    let ready (s : State) (k : Nat) : Bool := m.getLsbD k && tagCount s.c k == 0
    (∀ i ∈ [Instr.twaitany 4, .twaitall 4, .tfirst 1 4, .tclr 4, .trdy 1], gate i (tagged 0) = none) ∧
    ready (tagged 0) 3 = true ∧ (∀ k, k < 64 → ready (tagged 0) k = true → (tagged 0).c.tagfail.getLsbD k = false) ∧
    (tagged 8).c.tagfail.getLsbD 3 = true ∧ (∀ k, k < 3 → ready (tagged 8) k = false) ∧ ready (tagged 0) 5 = false ∧
    m.getLsbD 5 = true := by decide +kernel

/-- The lowest ready tag with its fail bit; a wait for a failed tag raises its cause (R278, R279). -/
theorem test_tags :
    getS (after (.tfirst 1 4) (tagged 8)).c 1 = 0x103 ∧ (after (.tclr 4) (tagged 8)).c.tagfail = 0 ∧
    (let s := let s := tagged 8; { s with boot := { s.boot with ftvec := Vector.replicate 4 0x1000 } }
     (after (.twaitany 4) s).c.trapcause = 6 ∧ (after (.twaitany 4) s).c.trapinfo = 0x4000000000000003) ∧
    (after (.twaitall 4) (tagged 0)).c.status = .parked (.twait true 0x28) := by decide +kernel

/-- An entry of the publish table over the 2 MiB from 2^50, and the image of a good one in `s4`'s memory. -/
def published : State :=
  let s := memWith (regs [(4, 0x100000), (5, 0x4000000000000), (6, 7)])
    [(0x100000, 8, 0x8000000000000), (0x100008, 8, 0x400000), (0x100010, 8, 0x600000), (0x100018, 8, 0x10000)]
  { s with pubs := [⟨0, 2, 0x4000000000000, 0, 0x400000, 0x600000, true, 0⟩] }

/-- TagAndPublishWords: an address with an entry and one without, an image that is accepted and one that is not, and a flip
that is waiting. -/
theorem test_publish_states :
    (∀ i ∈ [Instr.publish 5, .publish 4, .pubqry 1 5, .pubset 6 4], gate i published = none) ∧
    (pubAt published published.part (galAsn published.g) 0x4000000000000).isSome = true ∧ published.c.redq = [] ∧
    pubAt published published.part (galAsn published.g) 0x100000 = none ∧
    checkGlobal published needR 0x100000 32 32 = .ok spot ∧ poisoned published false 0x100000 32 = false ∧
    pubReason published 7 (pubImage (ownBytes published false 0x100000 32)) = none ∧
    pubReason published 256 (pubImage (ownBytes published false 0x100000 32)) = some 1 ∧
    (let s : State := { published with flips := [⟨0, 2, 0, none⟩], c := { published.c with status := .flipping } }
     s.flips = [] ++ ⟨0, 2, s.c.uid, none⟩ :: [] ∧ s.c.status = .flipping) := by decide +kernel

/-- A query of an entry; a flip changes the live side and the crew goes on (R206, R283). -/
theorem test_publish :
    getS (after (.pubqry 1 5) published).c 1 = 0x2030000 ∧ (after (.pubset 6 4) published).pubs.length = 2 ∧
    (let t := after (.publishFlip 0) (after (.publish 5) published)
     (t.pubs.map (·.live)) = [false] ∧ t.c.pc = 4 ∧ t.c.status = .running) := by decide +kernel

/-- A crew with an operand group for a copy of 32 bytes at `s8`, and a chain address in `s4`. -/
def hoisting : State := regs [(4, 0x100040), (8, 0x130000), (9, 0x100000), (10, 32), (12, 0xFFFFFFFFFFFFFFFF)]

/-- The command of that copy, as queued. -/
def copying : HoistCmd :=
  ⟨4, 0, 0, some 3, ⟨0, 0, 0x130000, 0x100000, 32, 0⟩, none, true, false, none, none, 1, 1, [(0, 0)], [], false, none⟩

/-- HoistWords: operand groups that pass and one that fails its checks, a stopped engine, and commands in the queue. -/
theorem test_hoist_states :
    (∀ p ∈ hoistOps hoisting 3 8 0 0 0 0 3, gate p.1 hoisting = none) ∧
    (∀ p ∈ hoistOps hoisting 3 8 0 0 0 0 2, opFault p.2 = none ∧ p.2.followAt = 0) ∧
    (∀ p ∈ hoistOps hoisting 3 12 0 0 0 0 3, (opFault p.2).isSome = true ∧ gate p.1 hoisting = none) ∧
    hoisting.c.redq = [] ∧ ((atHome hoisting).hoist.filter fun h => h.core == (atHome hoisting).c.core).length < 32 ∧
    tagCount (atHome hoisting).c 3 < 255 ∧
    (∀ i ∈ [Instr.hchain 3 4 0, .hstop 3 0, .hresume 3 0, .hprog 3 20], gate i hoisting = none) ∧
    (getS hoisting.c 4).toNat < 2 ^ 57 ∧ (getS hoisting.c 4).toNat % 64 = 0 ∧ copying.flight ≠ [] := by decide +kernel

/-- A copy is queued, its chunk granted, and performed: the bytes arrive and the tag falls (R244, R247, R268). -/
theorem test_hoist :
    let s := memWith hoisting [(0x100000, 8, 0x1122334455667788)]
    let t := after (.hcopy 3 8 0 0 0) s
    tagCount t.c 3 = 1 ∧ (t.hoist.map (·.flight)) = [[(0, 0)]] ∧
    (let u := after (.hoistChunkDone 0 0) t
     readNat u 0x130000 8 = 0x1122334455667788 ∧ tagCount u.c 3 = 0 ∧ u.hoist = []) := by decide +kernel

/-- HoistWords: a granted chunk of a copy and of a fill is performed without an error. -/
theorem test_chunk_states :
    let okOf (r : Except (Cause × Nat) State) : Bool := match r with
      | .ok _ => true
      | .error _ => false
    let s : State := { hoisting with hoist := [{ copying with flight := [] }] }
    okOf (runChunk s (clientOf hoisting 0) copying.op 0) = true ∧
    okOf (runChunk s (clientOf hoisting 0) { copying.op with fn := 3 } 0) = true ∧
    ((engRead s (clientOf hoisting 0) false 0x100000 32).toOption.map (·.2)) = some (List.replicate 32 0) := by decide +kernel

/-- A crew with a ring of 2 slots at 0x100000, attached, and operand groups at `s8` and `s12`. -/
def ringed : State :=
  let s := memWith (regs [(4, 0x100000), (8, 0x4000), (9, 0x100008000), (10, 5)])
    [(0x100000, 8, 0x110000), (0x100008, 8, 0x701)]
  { s with c := { s.c with ring := some 0x100000 }, rings := [⟨0, 0, 0x100000, 0, false⟩] }

/-- MatrixWords: a ring with room, operand groups that pass, a control block to be attached, entries free and all in use,
and work that is under way. -/
theorem test_matrix_states :
    (∀ i ∈ [Instr.mma 3 8 0 0, .mzero 3 8 0, .mfence 3 0, .mdetach, .mring 4], gate i ringed = none) ∧
    ringRoom ringed ⟨ringed.g, ringed.c.uid, ringed.c.privl == 2⟩ 0x100000 = true ∧
    (ringReserve (atHome ringed) ⟨ringed.g, ringed.c.uid, ringed.c.privl == 2⟩ 0x100000).2 = some 0 ∧
    tagCount ringed.c 3 < 255 ∧ ringBusy ringed = false ∧
    (let s : State := { ringed with c := { ringed.c with ring := none } }
     checkGlobal s needRW 0x100000 32 32 = .ok spot ∧ poisoned s false 0x100000 32 = false ∧ gate (.mring 4) s = none ∧
       bits (ownNat s false 0x100008 8) 8 5 = 7 ∧ bits (ownNat s false 0x100008 8) 0 5 = 1 ∧
       freeEntry s (clusterOf s.c.core) = some 1 ∧
       freeEntry { s with rings := (List.range 16).map fun i => ⟨0, i, 0, 9, false⟩ } (clusterOf s.c.core) = none) ∧
    (ringed.rings.find? fun x => x.cluster == 0 && x.entry == 0) = some ⟨0, 0, 0x100000, 0, false⟩ := by decide +kernel

/-- An `MZERO` of tile 5 that is admitted, with its first pass running. -/
def clearing : MxCmd :=
  ⟨9, 0, 0, 0x100000, 0x110000, 0, 6, some 3, 0, 0, false, 5, false, 0, 0, 0, [], 0, 1, [0], [], none⟩

/-- MatrixWords: a command with a pass to grant, one with a pass running, and a ring with work under way. -/
theorem test_pass_states :
    nextPass { ringed with mx := [{ clearing with next := 0, running := [] }] } 0 = some { clearing with next := 0, running := [] } ∧
    clearing.running = [0] ∧ clearing.failed = none ∧ clearing.kind = 6 ∧ ringBusy { ringed with mx := [clearing] } = true := by
  decide +kernel

/-- A posted command stands in its slot with TAG and the phase, and its tag is raised (R188, R273). -/
theorem test_matrix :
    let t := after (.mma 3 8 0 0) ringed
    readNat t 0x100010 4 = 1 ∧ readByte t 0x110000 = 0 ∧ readNat t 0x110008 8 = 0x3000100000500 ∧ readNat t 0x110010 8 = 0x4000 ∧
    tagCount t.c 3 = 1 := by decide +kernel

/-- A crew that names tile 5 in `s4`, with the token of it. -/
def tiled (l : List Token) : State := { regs [(4, 5)] with tokens := l }

/-- TokenAndTileWords: a tile whose token is with the engine, a busy tile, a token of the crew with another waiting. -/
theorem test_token_states :
    (∀ i ∈ [Instr.tktake 4, .tkgive 4, .tkqry 1 4, .mrd 0 3 2 5, .mwr 1 3 2 5], gate i (tiled []) = none) ∧
    tokenOf (tiled []) 0 5 = none ∧ tileBusy (tiled []) 0 5 = false ∧ tileBusy { tiled [] with mx := [clearing] } 0 5 = true ∧
    (∀ x ∈ (tiled [⟨0, 5, some 0, [7]⟩]).tokens, x.holder.isSome = true ∨ x.waiting ≠ []) ∧
    tokenOf (tiled [⟨0, 5, some 0, [7]⟩]) 0 5 = some ⟨0, 5, some (tiled []).c.uid, [7]⟩ ∧
    activeSet (tiled []).c ≠ 0 ∧ (tokenOf (tiled [⟨0, 5, some 0, []⟩]) 0 5).bind (·.holder) = some (tiled []).c.uid ∧
    (tiled []).badTiles = [] ∧ (getS (tiled []).c 4).toNat < 64 := by decide +kernel

/-- The token passes to the first that waits; elements are written in pairs and read back (R259, R282). -/
theorem test_token :
    ((after (.tkgive 4) (tiled [⟨0, 5, some 0, [7]⟩])).tokens.map (·.holder)) = [some 7] ∧
    (after (.tktake 4) (tiled [])).tokens = [⟨0, 5, some 0, []⟩] ∧
    (let s := let s := tiled [⟨0, 5, some 0, []⟩]
              { s with g := setV (setV s.g 0 2 0x302) 0 3 0x1122334455667788, c := { s.c with act := 1 } }
     getTile (after (.mwr 1 3 2 5) s) (tileKey 0 5 2 2) = 0x55667788 ∧
     getTile (after (.mwr 1 3 2 5) s) (tileKey 0 5 2 3) = 0x11223344) := by decide +kernel

/-- A region at 0x200000, a record at 0x210000 (named in `s4`), cells at 0x220000 (`s5`) with a count of 1 and at 0x220010,
and page tables under which the foreman's region can be reached from its own address space. -/
def tasking (pend kind : Nat) : State :=
  let s := memWith (regs [(4, 0x210000), (5, 0x220000), (6, 2)])
    [(0x200010, 8, 0x100), (0x200028, 8, 0xFFFFFFFFFFFF + 2 ^ 48 * pend), (0x200068, 8, 0x280000), (0x200070, 8, 4),
     (0x210000, 8, 0x300000), (0x210018, 8, 0x220010),
     (0x210020, 8, 0x1010020 + 2 ^ 48 * (32 * kind)), (0x210028, 8, 0x200000), (0x220000, 8, 1)]
  memWith { s with boot := { s.boot with dirbase := Vector.replicate 4 0x100000 } }
    [(0x100000, 8, 0x101001), (0x101000, 8, 0x102001), (0x102000, 8, 0x103001), (0x103000, 8, 0x104001), (0x104008, 8, 0x11F)]

/-- Whether an enqueue succeeds; the check that refuses it; a full region. -/
def enqOk : Enqueued → Bool
  | .ok _ => true
  | _ => false
def enqRefused : Enqueued → Option Nat
  | .refused n => some n
  | _ => none
def enqFull : Enqueued → Option (List Nat)
  | .full p => some p
  | _ => none

/-- An enqueue that succeeds gives a state. -/
theorem enq_of_ok (e : Enqueued) (h : enqOk e = true) : ∃ u, e = .ok u := by
  cases e <;> first | exact ⟨_, rfl⟩ | simp [enqOk] at h

/-- TaskWords: records of each kind that are enqueued, a region that is full, a record of the wrong kind, and cells. -/
theorem test_task_states :
    let s := tasking 0xFFFF 1
    let z := { s with c := setS s.c 5 0x220010 }
    checkGlobal s needR 0x210000 64 64 = .ok ⟨0x210000, homeSlice s 0 0x210000 false⟩ ∧ s.c.redq = [] ∧ engineBusy s s.c.uid = false ∧
    (∀ i ∈ [Instr.spawn 4, .spawnNb 1 4, .spawng 4, .launch 1 4, .joindec 5, .depdec 5, .barc 5 6], gate i s = none) ∧
    gate .exit last = none ∧ last.c.land = [] ∧ last.c.deferred = [] ∧ last.g.blkq = [] ∧
    (let own := { s with g := { s.g with rcd := { s.g.rcd with region := 0x200000, path := [0x200000] } } }
     enqOk (taskEnqueue (atHome own) .spawng 0x210000) = true) ∧
    enqOk (taskEnqueue (atHome s) .spawn 0x210000) = true ∧ enqOk (taskEnqueue (atHome (tasking 0xFFFF 0)) .launch 0x210000) = true ∧
    enqFull (taskEnqueue (atHome (tasking 0 1)) .spawn 0x210000) = some [0x200000] ∧
    enqRefused (taskEnqueue (atHome s) .launch 0x210000) = some 2 ∧
    checkGlobal s needRW 0x220000 16 16 = .ok ⟨0x220000, homeSlice s 0 0x220000 false⟩ ∧ readNat (atHome s) 0x220000 8 = 1 ∧
    checkGlobal z needRW 0x220010 16 16 = .ok ⟨0x220010, homeSlice s 0 0x220010 false⟩ ∧ readNat (atHome z) 0x220010 8 = 0 ∧
    (getS s.c 6).toNat = 2 := by decide +kernel

/-- A spawned record is in the queue and counted in its cells; a full region parks the crew; a last arrival at a barrier
starts the next generation; an `EXIT` gives up the blocks (R148, R165, R168, R169). -/
theorem test_tasks :
    (let t := after (.spawnNb 1 4) (tasking 0xFFFF 1)
     getS t.c 1 = 0 ∧ t.records.length = 1 ∧ readNat t 0x2000C6 2 = 1) ∧
    getS (after (.spawnNb 1 4) (tasking 0 1)).c 1 = 1 ∧ (after (.spawn 4) (tasking 0 1)).c.status = .parked .spawn ∧
    readNat (after (.joindec 5) (tasking 0 1)) 0x220000 8 = 0 ∧
    (let t := after (.barc 5 6) (tasking 0 1)
     readNat t 0x220000 8 = 0 ∧ readNat t 0x220008 8 = 1 ∧ t.c.pc = 4) ∧
    (after .exit last).c.status = .exited ∧ (after .exit last).g.owner.getD 3 none = none := by decide +kernel

/-- A crew with the operand group of a collective of 2 8-byte elements at `s8`, and its descriptor at 0x140000. -/
def grouped : State :=
  memWith (regs [(8, 0x130000), (9, 0x100000), (10, 0x3200000002), (11, 0x140000)])
    [(0x140000, 8, 0x7), (0x140008, 8, 41), (0x140010, 8, 1), (0x100000, 8, 5), (0x100008, 8, 6)]

/-- A collective that waits for member 1. -/
def waitingColl : Coll :=
  ⟨9, 0, 0, some 3, 0, false, false, 0x130000, 2, 2, 8, 0, 0x140000, 7, 41, 3, 0, [], 0, 1000⟩

/-- CollectiveWords: operand groups that pass every check and one that does not, an early datum, a time that is over, and a
silent peer. -/
theorem test_collective_states :
    (∀ q ∈ [(Instr.cred 3 8 0 0 0, collOp grouped 0 0 0 8), (.cgath 3 8 0 0 0, collOp grouped 1 0 0 8),
        (.cbcast 3 8 0 0, collOp grouped 2 0 0 8)],
      gate q.1 grouped = none ∧ (groupFault grouped q.2).isNone = true ∧ collBad grouped q.2 1 = false ∧
      (collFault grouped needW q.2.dest q.2.size (q.2.writes 0 1) 1).isNone = true ∧
      BitVec.ofNat 256 (ownNat grouped false 0x140010 32) = 1) ∧
    crewXlate grouped needRW 0x140000 = .ok ⟨0x140000, homeSlice grouped 0 0x140000 false⟩ ∧
    ownedByHw grouped 0x140000 64 true = false ∧ poisoned grouped false 0x140000 64 = false ∧
    (let s := { grouped with c := setS grouped.c 10 0xB00000002 }
     gate (.cred 3 8 0 0 0) s = none ∧ (groupFault s (collOp s 0 0 0 8)).isSome = true) ∧
    gate (.cstat 3 20) grouped = none ∧ grouped.c.redq = [] ∧ tagCount grouped.c 3 < 255 ∧
    (let s := { grouped with colls := [waitingColl], timens := 1000000 }
     s.colls = [] ++ waitingColl :: [] ∧ waitingColl.issued.toNat + 1000 * waitingColl.tmo ≤ s.timens.toNat) ∧
    (let s := { grouped with timens := 200000, pacer := { grouped.pacer with view := 3 } }
     s.colls = [] ∧ (1 : BitVec 8) ≠ s.pacer.self ∧ s.pacer.view.getLsbD 1 = true ∧
       look 0 s.pacer.heard 1 + 200000 ≤ s.timens.toNat) := by decide +kernel

/-- A reduction by a group of one leaves its own data and takes one number; `CSTAT` tells that it is complete (R339, R340,
R343). -/
theorem test_collective :
    let t := after (.cred 3 8 0 0 0) grouped
    readNat t 0x130008 8 = 6 ∧ readNat t 0x140008 8 = 42 ∧ tagCount t.c 3 = 0 ∧
    (let u := after (.cstat 3 20) t
     getS u.c 20 = 2 ∧ getS u.c 21 = 0 ∧ getS u.c 22 = 41) := by decide +kernel

/-- SystemWords: the words ready; a stack of eight, of less, and memory for one. -/
theorem test_system_states :
    (∀ n ∈ [(0 : BitVec 12), 0x33, 0x54, 0x63], gate (.rdsys 1 n) opened = none) ∧
    (∀ n ∈ [(0x10 : BitVec 12), 0x21, 0x53], gate (.wrsys 1 n) opened = none) ∧
    (∀ n ∈ [(1 : Nat), 32], n ∈ [1, 2, 4, 8, 16, 32]) ∧ gate .nop opened = none ∧ gate .yield opened = none ∧ gate .halt last = none ∧
    (let s := regs [(4, 0x100000)]
     let t := { s with c := { s.c with stack := List.replicate 8 1 } }
     gate (.rspill 4) t = none ∧ 8 ≤ t.c.stack.length ∧ gate (.rfill 4) s = none ∧ s.c.stack.length ≤ 8 ∧
       (∀ k, k < 8 → checkGlobal t needW (getS t.c 4 + w64 (256 * k)).toNat 256 256 =
           .ok ⟨0x100000 + 256 * k, homeSlice t 0 (0x100000 + 256 * k) false⟩ ∧
         checkGlobal s needR (getS s.c 4 + w64 (256 * k)).toNat 256 256 =
           .ok ⟨0x100000 + 256 * k, homeSlice s 0 (0x100000 + 256 * k) false⟩ ∧
         poisoned s false (0x100000 + 256 * k) 256 = false) ∧
       gate (.ctxsave 4) s = none ∧ gate (.ctxload 4) s = none ∧
       checkGlobal s needR 0x100000 64 64 = .ok spot ∧ poisoned s false 0x100000 64 = false) := by decide +kernel

/-- XSTAT's bits are cleared by a 1; a number of no subgroup traps; the crew's identity (R308, R311). -/
theorem test_system :
    (let s := let s := regs [(1, 0x15)]; { s with c := { s.c with xstat := 0x1F } }
     (after (.wrsys 1 0x11) s).c.xstat = 0x0A ∧ getS (after (.rdsys 2 0x11) s).c 2 = 0x1F) ∧
    (let s := let s := regs [(1, 3)]; { s with boot := { s.boot with ftvec := Vector.replicate 4 0x1000 } }
     (after (.wrsys 1 0x10) s).c.trapcause = 1 ∧ (after (.wrsys 1 0x10) s).c.xsub = 32) ∧
    getS (after (.rdsys 2 0x062) opened).c 2 = 0x100 ∧ getS (after (.rdsys 2 0x030) opened).c 2 = 40 := by decide +kernel

/-! ### Witnesses and results: events, reset and the invariant -/

/-- A crew that drains before its trap is entered: with everything done, and with a store to be performed. -/
def drainingWith (l : List PStore) (r : List Contribution) : State :=
  crewWith fun c => { c with status := .draining ⟨.illegal, 0, 0, 0, false, 0⟩, stores := l, redq := r }

/-- A user record of the region of `tasking`, ready. -/
def queued : Record :=
  { Record.foreman 0 with
    code := 0x300000, threads := 32, blocks := 1, prio := 0, cls := 3, place := 0xF80, kind := 1, region := 0x200000, path := [0x200000]
    ready := some ⟨0, 0, 0, 0⟩ }

/-- SchedulingEvents: drains, a queue in which a record fits and one in which it does not, a gallery whose work is over, a
region to be torn down, a grace before and at its end, and context moves of both kinds. -/
theorem test_sched_states :
    (drainingWith [] []).c.status = .draining ⟨.illegal, 0, 0, 0, false, 0⟩ ∧ drained (drain (drainingWith [] [])) = true ∧
    drained (drain (drainingWith [] [pending 100])) = false ∧
    (let s : State := { tasking 0xFFFF 1 with records := [queued] }
     let full := writeNat s 0x20002C 2 0
     freedCore s 0 = none ∧ (inOrder s 0).length = 1 ∧ s.power.moving = [] ∧
       ((firstFit s none (inOrder s 0)).map fun x => x.2.1) = some 1 ∧
       (inOrder full 0).length = 1 ∧ (firstFit full none (inOrder full 0)).isNone = true) ∧
    (let s := tasking 0xFFFF 1
     let g : Gallery := { s.g with rcd := queued, ender := some 0 }
     let u : State := { s with g := g, c := { s.c with status := .exited } }
     (u.gal? 0).isSome = true ∧ completable u g = true ∧ (s.gal? 0).isSome = true ∧ completable s s.g = false) ∧
    (translate (tasking 0xFFFF 1) 0 0 false false ⟨false, false, false⟩ 0x200000).toOption.map (·.pa) = some 0x200000 ∧
    (let x : Teardown := ⟨0, 0x200000, 500⟩
     let s : State := { tasking 0xFFFF 1 with tears := [x], timens := 500 }
     s.tears = [] ++ x :: [] ∧ (tornGals s x).length = 0 ∧ x.ends ≤ s.timens.toNat) ∧
    (let j (load : Bool) : CtxJob := ⟨0, 0x210000, load, 0, 5, 0, 0, 0⟩
     let s (l : Bool) : State := { crewWith fun c => { c with status := .moving } with ctx := [j l] }
     (s false).ctx = [j false] ∧ (s true).ctx = [j true] ∧ (j true).uid = (s true).c.uid ∧ (s true).c.status = .moving ∧
       ∀ k, k < 8 → inRom (s true) (0x210000 + 0x10 + k) = false) := by decide +kernel

/-- A record is placed on the first core with room, with its crew at its code; a refused context move tells its status
(R155, R319). -/
theorem test_sched :
    (let s : State := { tasking 0xFFFF 1 with records := [queued] }
     let t := after (.placementDecision 0) s
     t.records = [] ∧ ((t.gals.filter fun g => g.core = 1).map (·.nthr)) = [32] ∧
       ((t.crews.filter fun c => c.core = 1).map (·.pc)) = [0x300000]) ∧
    (let s : State := { crewWith fun c => { c with status := .moving } with ctx := [⟨0, 0x210000, true, 0, 5, 0, 0, 0⟩] }
     readNat (after .contextSaveDone s) 0x210010 8 = 1 ∧ (after .contextSaveDone s).c.pc = 4) := by decide +kernel

/-- The part with a change of its Pacer member. -/
def paced (f : Pacer → Pacer) : State := { opened with pacer := f opened.pacer }

/-- PacerEvents: a heart that is due, a coordinator, limits on both sides, a proposal that is granted, members that leave at
once and later, a lap that is due and one that is not. -/
theorem test_pacer_states :
    { opened with timens := 25000 }.pacer.heartAt ≤ { opened with timens := 25000 }.timens.toNat ∧
    opened.pacer.isCoordinator = true ∧ (40 : BitVec 8).toNat ≤ opened.pacer.own.toNat ∧
    opened.pacer.own.toNat < (41 : BitVec 8).toNat ∧
    (let p := (paced fun p => { p with view := 3, proposal := some (1, 60, 1) }).pacer
     p.proposal = some ((1 : BitVec 64).toNat, 60, 1) ∧ p.isCoordinator = true ∧
       ∀ m, m < 256 → p.view.getLsbD m = true → (1 : BitVec 256).getLsbD m = true ∨ m = (1 : BitVec 8).toNat) ∧
    opened.pacer.leavers = [] ∧ (1 : BitVec 64).toNat ≤ opened.pacer.lap + 1 ∧ opened.pacer.lap + 1 < (2 : BitVec 64).toNat ∧
    10 ≤ (10 : BitVec 8).toNat ∧
    (let m : PaceMsg := ⟨1, 60, 500, none, false⟩
     let s := paced fun p => { p with pending := [m] }
     s.pacer.pending = [m] ∧ s.pacer.lap < m.lap ∧ s.pacer.walkhold = false ∧ s.pacer.leaving = none ∧ s.pacer.leavers = [] ∧
       s.timens.toNat < m.t ∧ m.t ≤ ({ s with timens := 500 } : State).timens.toNat) ∧
    { opened.pacer with ceil := 50 }.word ≠ opened.pacer.word ∧
    (∀ k, k < 8 → inRom opened (opened.boot.paceword.toNat + k) = false) := by decide +kernel

/-- A ceiling is applied at its time and not before; BREACH applies at once without a lap (R346, R348). -/
theorem test_pacer :
    let s := paced fun p => { p with view := 3, pending := [⟨1, 60, 500, none, false⟩] }
    (after .lapApply s).pacer.ceil = 40 ∧ (after .lapApply { s with timens := 500 }).pacer.ceil = 60 ∧
    readNat (after .lapApply { s with timens := 500 }) 0x27FFFFFF00 8 = 0x1003C ∧
    (let t := after (.breach 0 44) (paced fun p => { p with ceil := 60, en := true })
     t.pacer.ceil = 44 ∧ t.pacer.lap = 0 ∧ readNat t 0x27FFFFFF00 8 = 0x22C) := by decide +kernel

/-- PowerEvents: a trip, a recheck before and at its time, samples at 95 and at 104 degrees, a cooldown lap and a part alone. -/
theorem test_power_states :
    40 ≤ opened.pacer.own.toNat ∧
    (let s : State := { opened with power := { opened.power with recheckAt := some 500 } }
     s.power.recheckAt = some 500 ∧ s.timens.toNat < 500 ∧ 500 ≤ ({ s with timens := 500 } : State).timens.toNat) ∧
    opened.power.loweredAt ≤ opened.timens.toNat ∧
    (let s : State := { opened with current := [(3, ⟨[], 0, false, some (8, 15)⟩)] }
     (recordOf s 3).cooldown = some (8, 15)) ∧
    opened.pacer.grouped = false := by decide +kernel

/-- A trip lowers the own limit by 32 steps, not below 40; a limit is brought into its range (R344, R348). -/
theorem test_power :
    (let s := paced fun p => { p with fwlimit := 100, ceil := 100 }
     (after .emergencyTrip s).pacer.ceil = 68 ∧ (after .emergencyTrip (after .emergencyTrip s)).pacer.ceil = 40) ∧
    (after (.fwlimit 0 200) opened).pacer.ceil = 132 ∧ (after (.fwlimit 1 200) opened).pacer.ceil = 40 ∧
    (after (.intervalEnd 3) { opened with current := [(3, ⟨[], 1800001, false, none⟩)] }).current =
      [(3, ⟨[1800001], 0, true, none⟩)] := by decide +kernel

/-- A part whose function 0 has window B, a queue with a ring at 0x240000, and a mailbox with rings at 0x250000 and
0x260000, whose request is `op` with arguments `a`. -/
def hosted (phase op a b : Nat) : State :=
  let s := memWith (tasking 0xFFFF 1)
    [(0x240000, 8, 0x241000), (0x240008, 8, 0x701), (0x240010, 4, 1), (0x241000, 1, phase),
     (0x250000, 8, 0x251000), (0x250008, 8, 0x701), (0x250010, 4, 1), (0x251000, 1, 0), (0x251008, 2, op),
     (0x251010, 8, a), (0x251018, 8, b), (0x260000, 8, 0x261000), (0x260008, 8, 0x701)]
  { s with
    boot := { s.boot with fready := 1 }
    fns := s.fns.set 0 { HostFn.reset with
      queues := [(2, ⟨0x240000, 1, 0, false, true⟩)], reqbase := 0x250000, rspbase := 0x260000, reqkick := 1, mben := true } }

/-- Whether a mailbox holds a request that keeps its reserved bits 0, and its operation and arguments. -/
def mailOf (s : State) : Option (Nat × Nat × Nat × Nat × Bool) :=
  match mailAt s 0 with
  | .request m => some (m.fn, m.op, m.arg 1, m.arg 2, m.reservedOk)
  | _ => none

/-- HostEvents: a queue that is served, with a slot that is full, one that is empty, and a base that is no ring; accesses
that pass; a shootdown under way. -/
theorem test_host_states :
    queueServed (hosted 0 5 1 0) 0 2 = some 0 ∧
    (let s := hosted 0 5 1 0
     ((hostRing s 0 (fnOf s 0) 0x240000).map fun x => slotAt s 0 (fnOf s 0) x.2 0) = some .full) ∧
    (let s := hosted 0x80 5 1 0
     ((hostRing s 0 (fnOf s 0) 0x240000).map fun x => slotAt s 0 (fnOf s 0) x.2 0) = some .empty ∧
       (hostRing s 0 (fnOf s 0) 0x240004).isNone = true) ∧
    (let s := hosted 0x80 5 1 0
     fnPart s 0 = some 0 ∧ (fnOf s 0).wbbase + 0x220000 = 0x220000 ∧
       hostAt s 0 (fnOf s 0) needW 0x220000 8 = .ok ⟨0x220000, homeSlice s 0 0x220000 false⟩ ∧
       hostAt s 0 (fnOf s 0) needR 0x220000 8 = .ok ⟨0x220000, homeSlice s 0 0x220000 false⟩ ∧
       hostAt s 0 (fnOf s 0) needRW 0x220000 8 = .ok ⟨0x220000, homeSlice s 0 0x220000 false⟩ ∧
       poisoned s false 0x220000 8 = false) ∧
    (let s := after (.shoot 0 5) opened
     (fnOf s 0).shoot = some 5) ∧ (0x1004 : BitVec 22).toNat % 8 ≠ 0 := by decide +kernel

/-- A swap through window B, a wrap-aware kick, and a shootdown (R329, R331, R332). -/
theorem test_host :
    (let t := after (.swap 0 0x220000 1 9) (hosted 0x80 5 1 0)
     readNat t 0x220000 8 = 9 ∧ (fnOf t 0).answer = toBytes 8 1) ∧
    (queueOf (after (.kick 0 2 0xFFFFFFFF) (hosted 0x80 5 1 0)) 0 2).kick = 1 ∧
    (let t := after (.shootdownDone 0) (after (.shoot 0 5) opened)
     (fnOf t 0).shootdone = true) := by decide +kernel

/-- MailboxEvents: a request of each operation, with its arguments at the ends of their ranges. -/
theorem test_mail_states :
    (∀ x ∈ [(1, 0x200000, 64), (2, 0x200000, 0), (3, 40, 0), (3, 132, 0), (4, 95, 3), (5, 1, 0), (6, 0x220000, 0), (7, 0, 0),
        (7, 256, 0), (8, 255, 0x3FFFF), (9, 0, 0), (0, 0, 0)],
      mailOf (hosted 0 x.1 x.2.1 x.2.2) = some (0, x.1, x.2.1, x.2.2, true)) ∧
    (let s := hosted 0 4 95 3
     partOfDie s (95 / 24) = 0 ∧ (fnOf s 0).mbwait = none ∧ s.power.moving = [] ∧ clusterEmpty s 95 = true ∧
       clusterEmpty { s with g := { s.g with core := 380, rcd := queued } } 95 = false) ∧
    (let s := hosted 0 2 0x200000 0
     regionPath s 0 0 false 0x200000 = some (0x200000 :: [])) ∧
    (hosted 0 7 256 0).boot.fusecnt.toNat < 256 := by decide +kernel

/-- A STRICT request is performed and answered with STATUS 0; an unknown one with 2 and nothing else (R366). -/
theorem test_mail :
    (let t := after (.mailboxStrict 0) (hosted 0 5 0 0)
     t.strict = 14 ∧ readNat t 0x261008 2 = 5 ∧ readNat t 0x26100C 2 = 0 ∧ readByte t 0x261000 &&& 0x80 = 0 ∧
       readNat t 0x250018 4 = 1) ∧
    (let t := after (.mailboxUnknownOp 0) (hosted 0 9 0 0)
     t.strict = 15 ∧ readNat t 0x26100C 2 = 2) := by decide +kernel

/-- BringUpEvents: targets of the fuses below, at and above the counter, the last fuse and one before it, and training. -/
theorem test_boot_states :
    (let s : State := { opened with boot := { opened.boot with fusecnt := 5, fuseGoal := some 7 } }
     (5 : BitVec 9).toNat ≤ s.boot.fusecnt.toNat ∧ s.boot.fuseGoal = some 7 ∧ s.boot.fusecnt.toNat + 1 < (7 : BitVec 9).toNat) ∧
    (let s : State := { opened with boot := { opened.boot with fusecnt := 6, fuseGoal := some 7 } }
     s.boot.fusecnt.toNat + 1 = (7 : BitVec 9).toNat) ∧
    (let s := opened
     s.boot.fusecnt.toNat < (256 : BitVec 9).toNat ∧ (256 : BitVec 9).toNat ≤ 256 ∧ s.boot.fuseGoal = none) ∧
    (opened.ctls[3]).running = false ∧ ((after (.trnctl 3 0x100) opened).ctls[3]).running = true := by decide +kernel

/-- The last fuse takes the counter in force with it; training ends with its result (R370, R371). -/
theorem test_boot :
    (let t := after .fuseBlown { opened with boot := { opened.boot with fusecnt := 6, fuseGoal := some 7 } }
     t.boot.fusecnt = 7 ∧ t.boot.secver = 7 ∧ t.boot.fuseGoal = none) ∧
    (let t := after (.hbmTrainingDone 3 1 2 0 0 0) (after (.trnctl 3 0x100) opened)
     (t.ctls[3]).trnstat.getLsbD 1 = true ∧ bits (t.ctls[3]).trnstat.toNat 2 2 = 2) := by decide +kernel

/-- Port 4 in a state, with its change. -/
def ported (f : Port → Port) : State := onPort opened 4 f

/-- DriftEvents: a port in each state, and a flit that was asked for again already. -/
theorem test_port_states :
    (4 : BitVec 5).toNat < 18 ∧
    (∀ k ∈ [(1 : BitVec 3), 2, 3, 4, 5], ((ported fun q => { q with state := k }).ports.getD 4 Port.reset).state = k) ∧
    ((ported fun q => { q with state := 3, retraining := true }).ports.getD 4 Port.reset).retraining = true ∧
    opened.pacer.gid = 0 ∧ (1 : BitVec 16) ≠ opened.pacer.gid ∧
    (let q := (ported fun q => { q with state := 5, buffer := [(6, []), (7, [1])], asked := 7, tries := 8 }).ports.getD 4 Port.reset
     q.buffer = [(6, [])] ++ (7, [1]) :: [] ∧ q.asked = 7 ∧ 8 ≤ q.tries ∧ q.state = 5) ∧
    (let q := (ported fun q => { q with state := 5, buffer := [(7, [1])], asked := 6 }).ports.getD 4 Port.reset
     q.buffer = [] ++ (7, [1]) :: [] ∧ q.asked ≠ 7) := by decide +kernel

/-- A port comes up with its peer; the ninth request for the same flit makes it retrain (R334, R372). -/
theorem test_port :
    (let t := after (.identExchange 4 9 0) (ported fun q => { q with state := 4 })
     (t.ports.getD 4 Port.reset).state = 5 ∧ (t.ports.getD 4 Port.reset).peer = 9) ∧
    (let t := after (.flitNak 4 7) (ported fun q => { q with state := 5, buffer := [(7, [1])], asked := 7, tries := 8 })
     (t.ports.getD 4 Port.reset).state = 2 ∧ (t.ports.getD 4 Port.reset).retrains = 1) := by decide +kernel

/-- Whether a step goes on. -/
def goesOn : Out → Bool
  | .next _ => true
  | _ => false

/-- EveryStepKeepsTidy: a state in canonical form with a step to take. -/
theorem test_tidy :
    State.reset.tidy = true ∧ (State.reset.withFetchWord 32 0x0382020A).tidy = true ∧
    goesOn (step (State.reset.withFetchWord 32 0x0382020A)) = true := by decide +kernel

set_option maxRecDepth 20000

/-! ### Witnesses: traps, returns, errors and accesses -/

/-- ChecksBeforeEffect: a source in a block that the gallery has not, beside one that the crew owns. -/
theorem test_block_fault :
    let s : State := { opened with g := { opened.g with nblk := 1 } }
    Instr.defect (.add 3 1 9 2) = none ∧ isLane (.add 3 1 9 2) = true ∧ clauseForm (.add 3 1 9 2) s.c = false ∧
    (leastPrivl (.add 3 1 9 2)).1 = 0 ∧ hazards (.add 3 1 9 2) s.c = [] ∧ activeSet s.c ≠ 0 ∧
    Reg.v 9 ∈ readRegs (.add 3 1 9 2) ∧ s.g.nblk ≤ (9 : BitVec 7).toNat / 8 ∧ (2 : BitVec 7).toNat / 8 < s.g.nblk ∧
    (s.g.owner.getD 0 none).map (·.val) = some s.c.att ∧
    (gate (.add 3 1 9 2) s).map (fun t => (t.cause, t.info)) = some (.blkFault, 0x209) := by decide +kernel

/-- A crew of the part without translation whose save record lies at 0x180000, with a handler of its own. -/
def recorded : State :=
  let s := crewWith fun c => { c with save := 0x180000, outm := [⟨.s 5, 3⟩] }
  { s with boot := { s.boot with ftvec := Vector.replicate 4 0x1000 } }

/-- A save record of a crew in the part without translation, past the mask ROM, stays at its place whatever its bytes
become. -/
theorem record_flat {s : State} {base n : Nat} (hs : s.c.save.toNat = base) (hl : 65536 ≤ base)
    (hn : base + n ≤ 0x2800000000) (hd : s.boot.dirbase.getD s.g.rcd.part 0 = 0) (ha : s.g.rcd.asn = 0)
    (hp : s.g.rcd.path = []) : RecordAt s base n where
  place t ht _ k hk := by
    have h : t.boot.dirbase.getD s.g.rcd.part 0 = 0 := by rw [ht]; exact hd
    have h0 : s.c.save ≠ 0 := by
      rintro h
      rw [h] at hs
      simp at hs
      omega
    have hx : regionXlate t s.g.rcd ⟨false, false, false⟩ (s.c.save.toNat + k) =
        .ok ⟨base + k, homeSlice t s.g.rcd.part (base + k) false⟩ := by
      unfold regionXlate Machine.translate
      rw [hs, if_neg (by omega), if_pos (by simpa [ha, hp] using h), if_pos (by simp [inHbm]; omega)]
    rw [savePlace, if_neg h0, hx]
  ram k hk := by
    simp [inRom]
    omega

/-- TrapEntryAsR288: that crew enters its handler once it has drained, and its trap area is written (R292, R293). -/
theorem test_record_trap :
    let d := drain recorded
    recorded.c.bank = false ∧ drained d = true ∧ handlerOf d = 0x1000 ∧ d.lamps = [] ∧
    d.c.save = 0x180000 ∧ d.boot.dirbase.getD d.g.rcd.part 0 = 0 ∧ d.g.rcd.asn = 0 ∧ d.g.rcd.path = [] ∧
    (let u := after (.trap 7) recorded
     readNat u 0x180010 8 = 4 ∧ readNat u 0x180018 8 = 0x10 ∧ readNat u 0x180028 8 = 7 ∧ u.c.outm = []) := by decide +kernel

/-- EveryStepKeepsCrewBounds: the crews after reset, and a word's crew within LIVE. -/
theorem test_bounds :
    (∀ c ∈ State.reset.allCrews, c.privl ≠ 3 ∧ c.stack = [] ∧ c.incs = []) ∧ State.reset.saved = [] ∧
    opened.c.gid = opened.g.gid ∧ opened.c.act &&& ~~~ opened.g.live = 0 ∧ opened.c.stack = [] ∧
    goesOn (exec .nop opened) = true := by decide +kernel

/-- ReturnFromTrap: a return with a save record that can be read, with a block open, and one with a record that cannot. -/
theorem test_return_record :
    let h (p : List Nat) : State := { last with
      c := { last.c with bank := true, privl := 1, trappc := 8, clausef := 0x44003C3, save := 0x180000 }, poison := p }
    let ok (s : State) : Prop := gate .rte s = none ∧ quiet s.c = true ∧ s.c.save ≠ 0 ∧ s.c.trappc.toNat % 4 = 0 ∧
      s.c.trappc.toNat < 2 ^ 57 ∧ clausefBad s.c.clausef.toNat = false ∧ bit s.c.clausef.toNat 22 = true
    ok (h []) ∧ returnLost (h []) = false ∧ ok (h [0x30008]) ∧ returnLost (h [0x30008]) = true ∧
    (after .rte (h [])).c.blk.isSome = true ∧ (after .rte (h [0x30008])).c.status = .halted := by decide +kernel

/-- HeaderOpensItsClause: a header with a trap that was deferred, and a duplicate whose word is answered. -/
theorem test_deferred_states :
    (let s : State := { State.reset with c := { State.reset.c with deferred := [⟨.eccUncorr, 0, 8, 9, true, 0⟩] } }
     gate (.clause 1 0 1 7) s = none ∧ s.c.deferred = ⟨.eccUncorr, 0, 8, 9, true, 0⟩ :: []) ∧
    (let s := crewWith fun c => { c with dups := [⟨0, 0x40, 3, 0x100000⟩] }
     s.c.redq = [] ∧ s.c.dups = [⟨0, 0x40, 3, 0x100000⟩] ∧ s.c.status ≠ .exited ∧ (settleDups s).c.deferred.length = 1) := by
  decide +kernel

/-- SearchMarksResponders: ordered searches whose mask has a gap, and a single-bit error in a register that is compared,
checked and not. -/
theorem test_search_error_states :
    (let s := regs [(5, 0xF0F)]
     ∀ i ∈ [Instr.srch 1 2 2 4 5, .srcha 1 3 2 4 5, .srchr 1 4 2 3 5], gate i s = none ∧ oneRun (getS s.c 5).toNat = false) ∧
    (∀ chk ∈ [(0 : BitVec 1), 1],
      let s : State := { regs [(5, 0xFF0)] with
        c := { (regs [(5, 0xFF0)]).c with srchchk := chk }, g := { opened.g with soft := [(128 * 3 + 2, 6)] } }
      gate (.srch 1 0 2 4 5) s = none ∧ s.g.soft = [(128 * 3 + (2 : BitVec 7).toNat, 6)] ∧ s.g.bad = [] ∧ s.c.bad = [] ∧
        s.c.act.getLsbD 3 = true ∧ 3 < s.g.nthr ∧ s.g.nthr ≤ 2048 ∧
        getM (after (.srch 1 0 2 4 5) s).c 0 1 = if chk = 1 then 0xFFFFFFFF else 0xFFFFFFF7) := by decide +kernel

/-- ResponderStackWords: an entry with an uncorrectable error on top, and one below it. -/
theorem test_bad_stack :
    let s (l : List Nat) := crewWith fun c => { c with stack := [1, 3], badStack := l }
    (gate .pop (s [1]) = none ∧ gate (.else_ 1) (s [1]) = none ∧ (s [1]).c.stack = [1] ++ [3] ∧ 1 ∈ (s [1]).c.badStack) ∧
    1 ∉ (s [0]).c.badStack ∧ (after .pop (s [0])).c.stack = [1] := by decide +kernel

/-- A crew with a contribution to 0x100000 that is not answered, with one word of memory in error, or both. -/
def troubled (q : Bool) (l : List Nat) : State :=
  { aimed with c := { aimed.c with redq := if q then [pending 0] else [] }, poison := l }

/-- LoadsLandTheirValue, StoresAreQueued, AtomicsAtTheHomeSlice: accesses that meet an unanswered object or an uncorrectable
word, one that a store of the crew's own covers, and releases with a reduction open. -/
theorem test_trouble_states :
    (∀ i ∈ [Instr.lds 3 0 1 4 0, .sts 3 1 1 4 0, .ld 3 1 2 0 0, .st 3 1 2 0 0, .atoms 0 1 4 0 1 2, .atoms 0 1 4 0 1 0],
      gate i (troubled true []) = none ∧ gate i (troubled false [0x20000]) = none) ∧
    (pending 0).obj < 0x100000 + 8 ∧ 0x100000 < (pending 0).obj + 16 ∧ (troubled true []).c.redq ≠ [] ∧
    poisoned (atHome (troubled false [0x20000])) false 0x100000 8 = true ∧
    (troubled true []).c.stores = [] ∧ checkGlobal (troubled true []) needRW 0x100000 8 8 = .ok spot ∧
    checkGlobal (troubled false [0x20000]) needRW 0x100000 8 8 = .ok spot ∧
    (let s := { troubled false [0x20000] with c := { aimed.c with stores := [⟨0, [⟨false, 3, 0x100000, toBytes 8 7⟩], [], []⟩] } }
     gate (.lds 3 0 1 4 0) s = none ∧ ownNat s false 0x100000 8 = 7 ∧ ownPoisoned s false 0x100000 8 = false ∧
       (after (.lds 3 0 1 4 0) s).c.land = [⟨0, .scalar 1 7, 0⟩]) ∧
    (after (.lds 3 0 1 4 0) (troubled true [])).c.status = .held ∧
    (after (.lds 3 0 1 4 0) (troubled false [0x20000])).c.deferred.length = 1 := by
  decide +kernel

/-- ReductionsByIndex: an object with an uncorrectable word, and a REDQ with stores before it. -/
theorem test_reduction_trouble :
    gate (.redqs 1 1 4 7) (troubled false [0x20001]) = none ∧
    poisoned (atHome (troubled false [0x20001])) false 0x100000 16 = true ∧
    (let s : State := { aimed with c := { aimed.c with stores := storing.c.stores } }
     gate (.redq 1 1 2 3) s = none ∧ (atHome s).c.stores = [] ∧ readNat (atHome s) 0x100000 2 = 0x0201) := by decide +kernel

/-- MemoryReadAfterWrite: a store of the crew's own under the mask ROM overlay. -/
theorem test_own_store_rom :
    let s : State := crewWith fun c => { c with stores := [⟨0, [⟨false, 3, 0x100, toBytes 4 7⟩], [], []⟩] }
    s.c.stores = [⟨0, [⟨false, 3, 0x100, toBytes 4 7⟩], [], []⟩] ∧ (∀ k : Nat, k < 4 → inRom s (0x100 + k) = true) := by decide +kernel

/-- RelayWords: a window with a front and a back. -/
theorem test_window_states :
    let r : Relay := ⟨0x100000, spot.home, 0, 0, 0, [], [5], [7], []⟩
    (relayed false).relays = [r] ∧ r.back = [(5 : Word), 7].drop r.front.length ∧ r.front.length ≤ 2 ∧
    (∀ i, i < r.front.length → r.front.getD i 0 = rightAgg 2 (([(5 : Word), 7].take r.front.length).drop i)) ∧
    relayBagg (relayed false) 0x100000 = leftAgg 2 r.back ∧
    (applyTo 2 2 r 7 9).1.back = [7, 9] ∧ (applyTo 2 2 r 7 9).1.front = [] := by decide +kernel

/-- The relay of `relayed` with a configuration in its block and another in `s7`. -/
def reconfigured (old : Nat) (new : Word) : State :=
  let s : State := memWith (relayed false) [(0x100000, 8, old)]
  { s with c := setS s.c 7 new }

/-- RelayWords: a block whose storage is to be given up. -/
theorem test_given_up_states :
    let s := reconfigured 15 15
    gate (.wcfg 4 7) s = none ∧ bits (getS s.c 7).toNat 0 4 = 15 ∧ bits (getS s.c 7).toNat 5 11 = 0 ∧
    bits (getS s.c 7).toNat 29 35 = 0 ∧ s.relays = [⟨0x100000, spot.home, 0, 0, 0, [], [5], [7], []⟩] ∧
    relayOper (atHome s) 0x100000 = 15 ∧ (∀ k : Nat, k < 0x30 → inRom s (0x100000 + k) = false) := by decide +kernel

/-- RelayWords: configurations that are refused. -/
theorem test_refused_configurations :
    (∀ x ∈ [(13 : Nat), 14, 0x20, 0x20000001, 2, 0x10010002],
      gate (.wcfg 4 7) (reconfigured 0x40002 (w64 x)) = none) ∧
    relayOper (relayed false) 0x100000 ≠ 15 ∧ relayN (relayed false) 0x100000 ≠ 0 := by decide +kernel

/-- TagAndPublishWords: a crew parked on the tag of a command that completes, and one that does not wait. -/
theorem test_completing_tag :
    let s (p : Bool) : State :=
      let s := tagged 0
      { s with c := { s.c with tagcnt := s.c.tagcnt.set 5 1, status := if p then .parked (.twait true 0x28) else .running } }
    (s true).c.gid = (s true).g.gid ∧ isSaved (s true) (s true).c.gid = false ∧
    (s true).c.status = .parked (.twait true 0x28) ∧ tagCount (tagDown (s true).c (some 5) none) 5 = 0 ∧
    (tagDown (s true).c (some 5) none).tagfail = 0 ∧ (s false).c.status = .running ∧
    (completeTag (s true) 0 (some 5) none).c.status = .running ∧ (completeTag (s true) 0 (some 5) none).c.pc = 4 := by
  decide +kernel

/-! ### Witnesses: engines -/

/-- HoistWords: the engine's own command, another core's, one that fails, one with a parity error, and one that has nothing
under way. -/
theorem test_grant_states :
    let h : HoistCmd := { copying with next := 0, flight := [] }
    let s : State := { hoisting with hoist := [h] }
    (h.core = 0 ∧ h.begun = true ∧ h.waits = none ∧ h.stopped = false ∧ h.next < h.total ∧ frozen s h.uid = false) ∧
    grantFrom s 0 = some h ∧ (total s.hoist fun q => (q.flight.filter (·.2 == 0)).length) < 4 ∧
    (let o : HoistCmd := { h with core := 1 }
     let s : State := { hoisting with hoist := [o] }
     (1 : Nat) ∈ (List.range 4).map (fun i => 0 / 4 * 4 + i) ∧ grantFrom s 0 = some o) ∧
    grantFrom hoisting 0 = none ∧
    (let s : State := { hoisting with hoist := [copying] }
     ((s.hoist.flatMap fun h => (h.flight.filter (·.2 == 0)).map fun f => (h, f))[0]?) = some (copying, (0, 0)) ∧
       0 ∉ copying.spoiled ∧ copying.follow = none ∧ copying.chain = none ∧
       (let mine (h : HoistCmd) : Bool := h.uid == s.c.uid && h.tag == some 3
        (s.hoist.filter fun h => mine h && h.flight != []).length = 1)) ∧
    (let bad : HoistCmd := { copying with op := ⟨0, 0, 0x130000, 0xA000000000, 32, 0⟩ }
     let s : State := { hoisting with hoist := [bad] }
     (match runChunk s (clientOf s 0) bad.op 0 with
       | .error e => decide (e = (.xlate, 0xA000000000))
       | .ok _ => false) = true) ∧
    (0 : Nat) ∈ ({ copying with spoiled := [0] } : HoistCmd).spoiled := by decide +kernel

/-- HoistWords, MatrixWords: what an engine of the foreman sees: memory and the part's own half of a vault. -/
theorem test_sees (lo hi : Nat) :
    (hi ≤ 0xA000000000 → Sees hoisting (clientOf hoisting 0) false lo hi (readByte hoisting)) ∧
    (hi ≤ 0x200000 → Sees ringed (clientOf ringed 0) true lo hi (readVault ringed)) := by
  constructor
  · exact fun h => sees_flat _ _ _ _ rfl rfl rfl h rfl rfl rfl
  · intro h
    refine sees_vault _ _ _ _ rfl fun a _ ha => ⟨?_, by omega, ?_⟩
    · show (if _ then a else a) = a
      split <;> rfl
    · have h1 : bits a 22 7 = 0 := by simp [bits]; omega
      have h2 : bits a 29 2 = 0 := by simp [bits]; omega
      have h3 : bit a 31 = false := by simp [bit]; exact Nat.testBit_lt_two_pow (by omega)
      have h4 : a / 2 ^ 21 = 0 := by omega
      have h5 : clientOf ringed 0 = ⟨ringed.g, 0, true⟩ := rfl
      rw [h5]
      simp only [checkVault, isControl, h1, h2, h3, h4, Nat.mod_one]
      rfl

/-- HoistWords: a copy, a gather and a scatter of two bytes, and planes of one element. -/
theorem test_content_states :
    let op (fn : Nat) (n : Word) : HoistOp := ⟨fn, 0, 0x130000, 0x100000, n, 0x100040⟩
    (op 0 2).span 0 = (0, 2) ∧ (op 1 2).span 0 = (0, 2) ∧ (op 2 2).span 0 = (0, 2) ∧ (op 3 2).span 0 = (0, 2) ∧
    (let o : HoistOp := ⟨4, 2, 0x4000, 0x100000, 0x100000001, 0⟩
     bits o.flags.toNat 0 3 = 2 ∧ bits o.op2.toNat 32 16 = 1 ∧ bits o.op2.toNat 48 7 + 1 = 1 ∧ 3 < o.chunks) ∧
    (∀ x : Nat, x < 2 → (0x100040 : Word).toNat + 4 * ((0 + x) / 2 ^ bits (2 : Word).toNat 32 4) ≤ 0x100044) ∧
    (readBytes hoisting 0x100040 4 = toBytes 4 0 ∧ readBytes hoisting 0x100044 4 = toBytes 4 0) := by decide +kernel

/-- HoistWords: what the indexes of that gather read. -/
theorem test_index_reads :
    engRead hoisting (clientOf hoisting 0) false 0x100040 4 = .ok (hoisting, toBytes 4 0) ∧
    engRead hoisting (clientOf hoisting 0) false 0x100044 4 = .ok (hoisting, toBytes 4 0) :=
  ⟨(test_sees 0x100040 0x100048).1 (by decide) _ _ (by decide) (by decide),
    (test_sees 0x100040 0x100048).1 (by decide) _ _ (by decide) (by decide)⟩

/-- HoistWords: the accesses of an engine pass at each address of two bytes of memory, for reading and, whatever the bytes
become, for writing, and at each of two bytes of a vault. -/
theorem test_engine_accesses :
    let k := clientOf hoisting 0
    (∀ a, 0x100000 ≤ a → a < 0x100002 → ∃ home, Machine.translate hoisting k.g.rcd.part (galAsn k.g) k.foreman false needR a =
      .ok ⟨0x100000 + (a - 0x100000), home⟩) ∧
    (∀ x n, poisoned hoisting false x n = false ∧ inPools hoisting 0 x n = false ∧ inSpill hoisting 0 x n = false ∧
      inRelayStore hoisting x n = false) ∧
    (∀ t : State, t = { hoisting with mem := t.mem, poison := t.poison } →
      (∀ x, x < 2 → ∃ home, Machine.translate t k.g.rcd.part (galAsn k.g) k.foreman true needW (0x100000 + x) =
        .ok ⟨0x100000 + x, home⟩) ∧
      ∀ x n, 0x100000 ≤ x → x + n ≤ 0x100002 → inPools t 0 x n = false ∧ inSpill t 0 x n = false ∧
        inRelayStore t x n = false ∧ inPaceLine t x n = false) ∧
    (∀ a, 0x4000 ≤ a → a < 0x4002 → checkVault hoisting 0 4 2 0 (relocate k.g a) 1 = .ok () ∧ relocate k.g a = a) ∧
    ∀ a n, poisoned hoisting true a n = false := by
  have flat (t : State) (h : t.boot.dirbase.getD 0 0 = 0) (shadow : Bool) (n : Need) (a : Nat) (ha : a < 0xA000000000) :
      Machine.translate t 0 0 true shadow n a = .ok ⟨a, homeSlice t 0 a false⟩ := by
    unfold Machine.translate
    rw [if_neg (by omega), if_pos (by simpa using h), if_pos (by simp [inHbm]; omega)]
  refine ⟨fun a h1 h2 => ⟨homeSlice hoisting 0 a false, ?_⟩, fun x n => ⟨rfl, rfl, rfl, rfl⟩,
    fun t ht => ⟨fun x hx => ⟨homeSlice t 0 (0x100000 + x) false, ?_⟩, fun x n h1 h2 => ?_⟩, fun a h1 h2 => ?_, fun a n => rfl⟩
  · rw [show 0x100000 + (a - 0x100000) = a by omega]
    exact flat hoisting rfl false needR a (by omega)
  · exact flat t (by rw [ht]; rfl) true needW _ (by omega)
  · have hr : t.regions = [] := by rw [ht]; rfl
    have hs : t.relays = [] := by rw [ht]; rfl
    have hp : t.boot.paceword = 0x27FFFFFF00 := by rw [ht]; rfl
    simp [inPools, inSpill, inRelayStore, inPaceLine, hr, hs, hp]
    omega
  · interval_cases a <;> exact ⟨rfl, rfl⟩

/-- A ring with one command in its first slot, and the entry of the engine that looks at it. -/
def posted (f : State → State) : State := f (after (.mma 3 8 0 0) ringed)

/-- Whether the look at the ring admits its command, or skips its slot: the admitted commands, and the ring's CONS. -/
def looked (s : State) : Nat × Nat :=
  let t := lookAtRing s ⟨0, 0, 0x100000, 0, false⟩
  (t.mx.length, readNat t 0x100018 4)

/-- MatrixWords: a slot that is empty, one of no matrix command, one with an uncorrectable word, one with a reserved bit,
one that is admitted, and one that waits for a token, for room, or for passes. -/
theorem test_ring_looks :
    let e : RingEntry := ⟨0, 0, 0x100000, 0, false⟩
    let s := posted id
    e.broken = false ∧ frozen s e.uid = false ∧ (ringOf s (clientOf s 0) e.ring).map (·.1) = some 0x100000 ∧
    ((ringOf s (clientOf s 0) e.ring).bind (·.2)).map (fun r => (r.base, r.cons, r.n, r.k)) = some (0x110000, 0, 1, 7) ∧
    (Machine.translate s 0 0 true false needR 0x110000).toOption.map (·.pa) = some 0x110000 ∧
    poisoned s false 0x110000 72 = false ∧
    looked (posted fun s => writeNat s 0x110000 1 0x80) = (0, 0) ∧ looked s = (1, 1) ∧
    looked (posted fun s => writeNat s 0x110000 1 1) = (0, 1) ∧
    looked (posted fun s => { s with poison := [0x22001] }) = (0, 1) ∧
    looked (posted fun s => writeNat s 0x110030 1 1) = (0, 1) ∧
    looked (posted fun s => { s with tokens := [⟨0, 5, some 7, []⟩] }) = (0, 0) ∧
    looked (posted fun s => { s with mx := [{ clearing with next := 0 }] }) = (1, 0) ∧
    looked (posted fun s => { s with mx := [{ clearing with next := 16 }, { clearing with next := 16 }] }) = (2, 0) := by decide +kernel

/-- MatrixWords: a pass that runs alone, and the bytes that a pass of `MMA` reads lie in the part's own half. -/
theorem test_run_states :
    (let s : State := { ringed with mx := [clearing] }
     s.mx = [clearing] ∧ clearing.running = [0] ∧ clearing.failed = none ∧
       (match runPass s clearing 0 with
         | .ok u => decide (u.mx = [clearing])
         | .error _ => false) = true) ∧
    (let m : MxCmd := { clearing with kind := 0, aaddr := 0x4000, baddr := 0x8000 }
     m.kind ≤ 5 ∧ m.aaddr.toNat + 2048 * 8 * (0 / 16) + 2048 * 8 ≤ 0x200000 ∧
       m.baddr.toNat + 2048 * 8 * (0 / 16) + 2048 * 8 ≤ 0x200000 ∧ (0 / 16 = 0 ∧ m.acc = false)) := by decide +kernel

/-- TokenAndTileWords: a token of another crew, one that stands free for this crew with another behind it, and one that it
does not hold. -/
theorem test_other_tokens :
    (∀ l ∈ [[(⟨0, 5, some 7, []⟩ : Token), ⟨0, 9, some 3, [4]⟩], [⟨0, 5, none, [0, 7]⟩, ⟨0, 9, some 3, [4]⟩]],
      (∀ x ∈ (tiled l).tokens, x.holder.isSome = true ∨ x.waiting ≠ []) ∧ gate (.tktake 4) (tiled l) = none ∧
        gate (.tkgive 4) (tiled l) = none) ∧
    tokenOf (tiled [⟨0, 5, some 7, []⟩]) 0 5 = some ⟨0, 5, some 7, []⟩ ∧ (7 : Nat) ≠ (tiled []).c.uid ∧
    tileBusy (tiled [⟨0, 5, none, [0, 7]⟩]) 0 5 = false ∧
    (let s := tiled [⟨0, 5, some 7, []⟩]
     gate (.mrd 0 3 2 5) s = none ∧ (tokenOf s 0 5).bind (·.holder) ≠ some s.c.uid) ∧
    (let s : State := { tiled [] with c := { (tiled []).c with act := 0 } }
     activeSet s.c = 0 ∧ gate (.mrd 0 3 2 5) s = none ∧ gate (.mwr 1 3 2 5) s = none) := by decide +kernel

/-! ### Witnesses: tasks, collectives, system words -/

/-- TaskWords: a record that passes every check, the path of its region, and who gives each resolved field. -/
theorem test_check_states :
    let s := tasking 0xFFFF 1
    let bs := readBytes s 0x210000 64
    let r := rewrite .spawn s.g.rcd (parseRecord 0x210000 s.part bs)
    poisoned s false 0x210000 64 = false ∧ s.objects = [] ∧
    (match checkRecord s .spawn 0 true [] bs r with
      | .ok q => decide (q.path = [0x200000] ∧ bits (readNat s (0x200000 + 0x28) 8) 48 16 = 0xFFFF)
      | .error _ => false) = true ∧
    regionPath s 0 0 true 0x200000 = some [0x200000] ∧ blockOk s 0x200000 = true ∧
    (∀ k, k < 6 → bit (readNat s (0x200000 + 8) 8) k = false) ∧
    (let t := writeNat s 0x200008 8 0x3F
     ∀ k, k < 6 → bit (readNat t (0x200000 + 8) 8) k = true) := by decide +kernel

/-- TaskWords: a record that is ready at once and counted in its tree cell, one that waits on its dependency cell, and its
release. -/
theorem test_queue_states :
    let s := tasking 0xFFFF 1
    let r : Record := { queued with ready := none, tree := 0x220000 }
    s.lamps = [] ∧ s.redq = [] ∧ r.path ≠ [] ∧ readNat s (r.path.headD 0 + 0x40) 8 = 0 ∧ r.kind ≠ 2 ∧ s.records = [] ∧
    cellAt s r r.tree = some 0x220000 ∧ r.dep = 0 ∧ (∀ k, k < 16 → inRom s (0x220000 + k) = false) ∧
    (∀ b ∈ r.path, 0x220000 + 16 ≤ b ∨ b + 256 ≤ 0x220000) ∧
    (let d : Record := { r with tree := 0, dep := 0x220000, name := 0x210000 }
     d.tree = 0 ∧ cellAt s d d.dep = some 0x220000 ∧ readNat s 0x220000 8 ≠ 0 ∧
     let t : State := { s with records := [d] }
     t.records = [] ++ d :: [] ∧ d.ready = none ∧ cellAt t d d.dep = some 0x220000) := by decide +kernel

/-- The part of `tasking` with a count at 0x220000 and a goal in `s6`. -/
def counted (n goal : Nat) : State :=
  let s := memWith (tasking 0xFFFF 1) [(0x220000, 8, n)]
  { s with c := setS s.c 6 (w64 goal) }

/-- TaskWords: the last arrival at a barrier and an early one, and dependency counts of two and of one. -/
theorem test_cell_states :
    (∀ n ∈ [1, 2], checkGlobal (counted n 3) needRW (getS (counted n 3).c 5).toNat 16 16 =
      .ok ⟨0x220000, homeSlice (counted n 3) 0 0x220000 false⟩ ∧ readNat (atHome (counted n 3)) 0x220000 8 = n) ∧
    (∀ i ∈ [Instr.joindec 5, .depdec 5, .barc 5 6], gate i (counted 2 3) = none) ∧
    (counted 1 3).c.redq = [] ∧ engineBusy (counted 1 3) (counted 1 3).c.uid = false ∧ (counted 1 3).c.gid = (counted 1 3).g.gid ∧
    1 + 1 < (getS (counted 1 3).c 6).toNat ∧ (getS (counted 2 3).c 6).toNat ≤ 2 + 1 ∧
    (∀ k, k < 8 → inRom (counted 1 3) (0x220000 + k) = false) ∧ (atHome (counted 1 3)).lamps = [] := by decide +kernel

/-- An early arrival leaves its count and waits for the next generation (R169). -/
theorem test_early :
    readNat (after (.barc 5 6) (counted 1 3)) 0x220000 8 = 2 ∧ (after (.barc 5 6) (counted 1 3)).c.status = .parked .barc ∧
    readNat (after (.depdec 5) (counted 2 3)) 0x220000 8 = 1 := by decide +kernel
/-- The part of `grouped` whose group has members 0 and 1. -/
def pairGrouped : State := memWith grouped [(0x140010, 8, 3)]

/-- The collective that such a group issues, before any member is heard from. -/
def issuing : State := { performNat pairGrouped 0x140008 8 42 with ids := pairGrouped.ids + 1 }

/-- CollectiveWords: what the issue of a collective reads of this part's own data, and the member that it then waits for. -/
theorem test_issue_states :
    Sees issuing (clientOf issuing 0) false 0x100000 (0x100000 + 2 * 8) (readByte issuing) ∧
    (readNat pairGrouped 0x140008 8 = 41 ∧ readNat pairGrouped 0x140010 32 = 3 ∧ pairGrouped.lamps = [] ∧
     pairGrouped.collNotes = [] ∧ (BitVec.ofNat 256 (readNat pairGrouped 0x140010 32)).getLsbD 1 = true ∧
     1 ≠ pairGrouped.pacer.self.toNat ∧ (collOp pairGrouped 0 0 0 8).src = 0x100000 ∧ (collOp pairGrouped 0 0 0 8).n = 2 ∧
     (collOp pairGrouped 0 0 0 8).size = 8) :=
  ⟨sees_flat issuing (clientOf issuing 0) _ _ rfl rfl rfl (by omega) rfl rfl rfl, by decide +kernel⟩

/-- The collective of members 0 and 1 in which member 0 has sent 5 and 6 under the head `h`. -/
def halfDone (fn : Nat) (pub root : Bool) (rootId : BitVec 8) (d : Word) : Coll :=
  { waitingColl with fn := fn, pub := pub, root := root, rootId := rootId, dest := d, op := 2
                     got := [(0, 5, toBytes 8 5 ++ toBytes 8 6)] }

/-- CollectiveWords: a datum that is one of several missing, one that is the last with another head, and one that is the last
with the same head: of a reduction that writes here, of one that writes elsewhere, of a broadcast, and of one that is
published. -/
theorem test_arrival_states :
    let tell (c : Coll) (head : Word) : Coll := { c with got := c.got ++ [(1, head, toBytes 8 7 ++ toBytes 8 8)] }
    let c := halfDone 0 false false 0 0x130000
    (∀ x ∈ [c], [x] = [] ++ x :: [] ∧ x.members.getLsbD 1 = true ∧ x.gid = 7 ∧ x.seq = 41 ∧
      ∀ y ∈ x.got, y.1 ≠ (1 : BitVec 8)) ∧
    (viewMembers c.members = [0, 1] ∧ (∀ x ∈ (tell { c with members := 7 } 5).got, x.1.toNat ≠ 2) ∧
      viewMembers (7 : BitVec 256) = [0, 1, 2]) ∧
    (0x8000000000000003 : BitVec 64).getLsbD 63 = true ∧ (5 : BitVec 64).getLsbD 63 = false ∧
    ([0, 1] = 0 :: ([] ++ 1 :: []) ∧ ((tell c 6).sent 0).map (·.1) = some 5 ∧ ((tell c 6).sent 1).map (·.1) ≠ some 5) ∧
    (∀ x ∈ [c, halfDone 1 false false 0 0x130000, halfDone 2 false false 0 0x130000, halfDone 0 false true 1 0x130000],
      ∀ k ∈ [0, 1], ((tell x 5).sent k).map (·.1) = some 5 ∧ ((tell x 5).dataOf k).length = x.count * x.esize) ∧
    (halfDone 0 false true 1 0x130000).rootId ≠ pairGrouped.pacer.self ∧ c.root = false ∧
    (match engWrite { pairGrouped with colls := [tell c 5] } (clientOf pairGrouped 0) false [(0x130000, toBytes 8 12 ++ toBytes 8 14)] with
      | .ok u => decide (readNat u 0x130000 8 = 12)
      | .error _ => false) = true ∧
    (let x := halfDone 0 true false 0 0x230000
     let s : State := { tasking 0xFFFF 1 with pubs := [⟨0, 2, 0x200000, 0, 0x400000, 0x600000, false, 0⟩], colls := [tell x 5] }
     (match engWrite s (clientOf s 0) false [(0x230000, toBytes 8 12 ++ toBytes 8 14)] with
      | .ok u => decide ((pubAt u 0 0 0x230000).isSome = true ∧ readNat u 0x630000 8 = 12)
      | .error _ => false) = true) := by decide +kernel

/-- CollectiveWords: a member that no port leads to, one that is silent while a collective waits, and one that an applied
VIEW expels. -/
theorem test_expelled_states :
    (let s : State := { grouped with colls := [waitingColl] }
     s.colls = [waitingColl] ∧ waitingColl.members.getLsbD 1 = true ∧ 1 ≠ s.pacer.self.toNat ∧ (portTo s 1).isNone = true) ∧
    (let s : State := { grouped with colls := [waitingColl], timens := 200000, pacer := { grouped.pacer with view := 3 } }
     s.pacer.view.getLsbD 1 = true ∧ look 0 s.pacer.heard 1 + 200000 ≤ s.timens.toNat) ∧
    (let s : State := { grouped with colls := [waitingColl], pacer := { grouped.pacer with
        view := 3, pending := [⟨1, 40, 0, some 1, false⟩] } }
     s.pacer.view.getLsbD 1 = true ∧ (onPacer s Pacer.applyDue).pacer.view.getLsbD 1 = false ∧
       s.pacer.leaving.isNone = true ∧ s.pacer.leavers = []) := by decide +kernel

/-- A crew with a responder stack of some depth and a bad entry, and an address in `s4`. -/
def stacked (depth : Nat) (bad : List Nat) : State :=
  let s := regs [(4, 0x100000), (1, 0x1004)]
  { s with c := { s.c with stack := List.replicate depth 1, badStack := bad, trappc := 0x1000, clausef := BitVec.ofNat 38 (5 + 15 * 2 ^ 6 + 15 * 2 ^ 10) } }

/-- SystemWords: stacks of seven, of nine and of eight with a bad entry below and above, a step past the word of a trap, in and
out of a clause and a block, and the memory that a move's word reads. -/
theorem test_stack_states :
    (∀ p ∈ [(7, []), (8, [7]), (9, [8])], gate (.rspill 4) (stacked p.1 p.2) = none ∧ (stacked p.1 p.2).c.stack.length = p.1 ∧
      ∀ k, k < 8 → (checkGlobal (stacked p.1 p.2) needW (getS (stacked p.1 p.2).c 4 + w64 (256 * k)).toNat 256 256).isOk = true) ∧
    (gate (.rfill 4) (stacked 9 []) = none ∧ 8 < (stacked 9 []).c.stack.length ∧
      ∀ k, k < 8 → (checkGlobal (stacked 9 []) needR (getS (stacked 9 []).c 4 + w64 (256 * k)).toNat 256 256).isOk = true) ∧
    (gate (.wrsys 1 0x051) (stacked 0 []) = none ∧ getS (stacked 0 []).c 1 = (stacked 0 []).c.trappc + 4 ∧
      bits (stacked 0 []).c.clausef.toNat 0 6 ≠ 0 ∧ bit (stacked 0 []).c.clausef.toNat 22 = false) ∧
    (∀ n ∈ [1, 2], bit (BitVec.ofNat 38 (5 + 2 ^ 22 + n * 2 ^ 26)).toNat 22 = true ∧
      bits (BitVec.ofNat 38 (5 + 2 ^ 22 + n * 2 ^ 26)).toNat 26 4 = n) ∧
    bits (BitVec.ofNat 38 0).toNat 0 6 = 0 := by decide +kernel

/-- A handler that steps past a word of the clause leaves one word fewer (R312). -/
theorem test_step_past :
    bits (after (.wrsys 1 0x051) (stacked 0 [])).c.clausef.toNat 0 6 = 4 := by decide +kernel

/-! ### Witnesses: the distributor, retirement and context moves -/

/-- One record that is ready, on the part of `tasking`. -/
def seated (r : Record) : State := { tasking 0xFFFF 1 with records := [r] }

/-- The part after its record has been placed. -/
def placed (r : Record) : State := after (.placementDecision 0) (seated r)

/-- A record of three granules for core 1 alone, with one crew. -/
def small : Record := { queued with vgran := 3, crews := 1, arrival := 5, name := 0x210000, threads := 33, blocks := 2, place := 0x200 }

/-- The gallery that it becomes. -/
def smallGal : Gallery := (placed small).gals.getLastD (Gallery.foreman 0)

/-- SchedulingEvents: a freed core that is offered first, and a record whose placement has its save records and slots. -/
theorem test_place_states :
    (let s : State := { seated small with freed := [1, 5] }
     let u : State := { s with freed := s.freed.filter (· != 1) }
     s.power.moving = [] ∧ s.spawnq = [] ∧ 1 ∈ s.freed ∧ partOfDie s (dieOfCore 1) = 0 ∧ (∀ k ∈ s.freed, 1 ≤ k) ∧
     ((firstFit u (some 1) (inOrder u 0)).map fun x => x.2.1) = some 1) ∧
    (let s := seated small
     (firstFit s none (inOrder s 0)).isSome = true ∧ small.resume.isNone = true ∧ s.spawnq = [] ∧ s.lamps = [] ∧ s.redq = [] ∧
     (savesFor s small).length = small.crews ∧ small.crews ≤ (freeSlots ((crewsOn s 1).map (·.slot))).length ∧
     0 < small.vgran ∧ ((fitsOn s small 1).map fun v => look 65536 s.halves (v / 2 ^ 21)) = some 65536) ∧
    (let s := placed small
     smallGal.gid = 4 ∧ smallGal.core = 1 ∧ smallGal.vgran = 3 ∧ (s.crews.getLastD s.c).uid = 5 ∧
       (s.crews.getLastD s.c).save = 0x280000) := by decide +kernel

/-- The gallery of `small` saved in an image, with its crew. -/
def imaged (lost : Bool) : SavedContext :=
  ⟨some 0x300000, 0x300000, [], true, 0, { smallGal with image := some 0x300000 }, [((placed small).crews.getLastD State.reset.c)],
    [], [], [], [], [], [], [], lost⟩

/-- The part that holds such a saved context, with a resume record for it. -/
def resuming (lost : Bool) : State := { seated { small with resume := some 4 } with saved := [imaged lost] }

/-- SchedulingEvents: a resume record whose image is good, and one whose image is lost. -/
theorem test_resume_states :
    ∀ lost, (resuming lost).spawnq = [] ∧ (resuming lost).c.gid ≠ 4 ∧ (resuming lost).g.gid = (resuming lost).c.gid ∧
      (∀ h ∈ (resuming lost).gals, h.gid ≠ 4) ∧ (resuming lost).lamps = [] ∧ (resuming lost).redq = [] ∧
      (resuming lost).saved.find? (·.gal.gid == 4) = some (imaged lost) ∧
      contextLost (unqueue (resuming lost) ⟨{ small with resume := some 4 }, []⟩) (imaged lost) = lost := by decide +kernel

/-- A core that a parked gallery of 64 gangs fills, with an image pool, and a record of a higher priority for that core. -/
def crowded (parked : Bool) : State :=
  let s := memWith (placed { small with threads := 2048, blocks := 1, vgran := 0 }) [(0x200078, 8, 0x300000), (0x200080, 8, 0x80000)]
  { s with
    records := [{ small with threads := 32, prio := 5, arrival := 9 }]
    crews := s.crews.map fun c => if c.gid == 4 && parked then { c with status := .parked .barc } else c }

/-- SchedulingEvents: a gallery whose swap-out helps a record that fits nowhere, one that may not be swapped, and the image that
it is written to. -/
theorem test_swap_states :
    (let s := crowded true
     ∃ g ∈ s.allGals, g.gid = 4 ∧ swappable s 0 g = true ∧ (∃ c ∈ inOrder s 0, passes s c = true ∧ placesFor s c.rcd = [] ∧
       g.rcd.prio < c.rcd.prio ∧ fitsAfterSwaps s 0 c g.core = true) ∧
     imagePlace (drainGallery s 4) g = some 0x300000 ∧
     ((imagePages (drainGallery s 4) (fun s n va => regionXlate s g.rcd n va) 0x300000 (imageSize g / 4096)).map (·.length)) = some 48 ∧
     s.c.gid ≠ g.gid ∧ s.g.gid = s.c.gid ∧ g ∈ s.gals ∧ (∀ h ∈ s.gals, h.gid = g.gid → h = g) ∧
     (∀ k ∈ s.allCrews, k.gid = g.gid → k.land = [] ∧ k.stores = [] ∧ k.redq = [] ∧ k.acks = [] ∧ retire k = k) ∧
     (∀ h ∈ s.allCrews, ∀ k ∈ s.allCrews, h.uid = k.uid → h = k) ∧ s.lamps = [] ∧ s.redq = []) ∧
    (∀ g ∈ (crowded false).allGals, swappable (crowded false) 0 g = false) := by decide +kernel

/-- SchedulingEvents: cells of 0, 1 and 2 named as JOIN, as TREE, and by a successor list. -/
theorem test_completion_states :
    (∀ n ∈ [0, 1, 2],
      let s := memWith (tasking 0xFFFF 1) [(0x220000, 8, n), (0x230000, 8, 0x220000)]
      readNat s 0x220000 8 = n ∧ cellAt s { queued with join := 0x220000 } 0x220000 = some 0x220000 ∧
      (n ≠ 0 →
        let u := performNat s 0x220000 8 (n - 1)
        cellAt u { queued with tree := 0x220000 } 0x220000 = some 0x220000 ∧ readNat u 0x220000 8 = n - 1) ∧
      ((regionXlate s { queued with succ := 0x230000 } needR 0x230000).toOption.map (·.pa)) = some 0x230000 ∧
      cellAt s { queued with succ := 0x230000 } (w64 (readNat s 0x230000 8)) = some 0x220000 ∧
      ((regionXlate s { queued with succ := 0x230000 } needR 0x230008).toOption.map (·.pa)) = some 0x230008 ∧
      readNat s 0x230008 8 = 0) ∧
    queued.succ = 0 ∧ queued.join = 0 ∧ queued.tree = 0 := by decide +kernel

/-- SchedulingEvents: a gallery that retires with granules and one save record, and a region block in RAM. -/
theorem test_retire_states :
    let s := placed small
    s.c.gid ≠ smallGal.gid ∧ s.g.gid = s.c.gid ∧ s.lamps = [] ∧ s.redq = [] ∧ smallGal.vgran ≠ 0 ∧
    granulesIn { s with gals := s.gals.filter (·.gid ≠ 4), crews := s.crews.filter (·.gid ≠ 4) } (smallGal.vbase.toNat / 2 ^ 21) = [] ∧
    ((s.allCrews.filter (·.gid == smallGal.gid)).map (·.save)) = [0x280000] ∧ smallGal.rcd.path = [0x200000] ∧
    ((regionXlate s smallGal.rcd ⟨false, false, false⟩ 0x280000).toOption.map (·.pa)) = some 0x280000 ∧
    (∀ x, x < 8 → inRom s (0x280000 + x) = false) ∧ (∀ k, k < 256 → inRom s (0x200000 + k) = false) := by decide +kernel

/-- A save or load of what stands on core 1, in slot 0. -/
def job (load : Bool) (mode : BitVec 2) (core : Nat) (dest : Word) : CtxJob := ⟨0, 0x210000, load, mode, core, smallGal.slot, dest, 0⟩

/-- The part with `small` placed, and a change of its crew. -/
def resident (f : Crew → Crew) : State :=
  let s := placed small
  { s with crews := s.crews.map fun c => if c.gid == 4 then f c else c }

/-- SchedulingEvents: saves that are refused, that wait for their crews, that drain, and that go on in each mode. -/
theorem test_save_states :
    let s := resident id
    (∀ m ∈ [(0 : BitVec 2), 1, 2], (job false m 1 0x310000).mode ≠ 3 ∧ dieOfCore (job false m 1 0x310000).core = jobDie s (job false m 1 0x310000)) ∧
    dieOfCore (job false 0 97 0).core ≠ jobDie s (job false 0 97 0) ∧
    (s.allGals.filter fun g => g.rcd.path != [] && (g.core == 1 && g.slot == smallGal.slot)) = [smallGal] ∧
    (s.allGals.filter fun g => g.rcd.path != [] && (g.core == 2 && g.slot == smallGal.slot)) = [] ∧
    (s.allGals.filter fun g => g.rcd.path != [] && (g.rcd.part == partOfDie s (dieOfCore 1))) = [smallGal] ∧
    gallerySettled s 4 = true ∧ gallerySettled (resident fun c => { c with left := 5 }) 4 = false ∧
    galleryDrained (drainGallery s 4) 4 = true ∧ s.saved = [] ∧ (drainGallery s 4).gal? 4 = some smallGal ∧
    galleryDrained (drainGallery (resident fun c => { c with redq := [pending 100] }) 4) 4 = false ∧
    (drainGallery s 4).tokens = [] ∧ (drainGallery s 4).mx = [] ∧ (drainGallery s 4).rings = [] ∧
    ((imagePages (drainGallery s 4) (clientXlate (clientOf (drainGallery s 4) 0)) 0x310000 (imageSize smallGal / 4096)).map (·.length)) = some 16 ∧
    targetOk (drainGallery s 4) smallGal 2 = true ∧ targetOk (drainGallery s 4) smallGal 96 = false ∧ s.tidy = true ∧
    (let bare := resident fun c => { c with save := 0 }
     let full : State := { bare with gals := bare.gals ++ [{ smallGal with gid := 9, core := 2, nthr := 2048, nblk := 1 }] }
     bare.tidy = true ∧ (migrate (drainGallery bare 4) smallGal 2).isSome = true ∧
       (migrate (drainGallery full 4) smallGal 2).isNone = true) := by decide +kernel

/-- SchedulingEvents: loads of a shadow store that is empty, lost and good, and of an image that is not there, lost, and good,
for a core that is a foreman's, full, and free. -/
theorem test_load_jobs :
    let s (l : List SavedContext) : State := { tasking 0xFFFF 1 with saved := l }
    let shadow (lost : Bool) : SavedContext := { imaged lost with image := none }
    (∀ l ∈ [[], [shadow false], [shadow true], [imaged false], [imaged true]], dieOfCore 1 = jobDie (s l) (job true 0 1 0x300000)) ∧
    (∀ lost, contextLost (s [shadow lost]) (shadow lost) = lost ∧ contextLost (s [imaged lost]) (imaged lost) = lost) ∧
    (∀ lost, ((s [imaged lost]).saved.filter fun v => v.image.isNone && v.part == 0) = [] ∧
      ((s [shadow lost]).saved.filter fun v => v.image.isNone && v.part == 0) = [shadow lost]) ∧
    ((Machine.translate (s []) (clientOf (s []) 0).g.rcd.part (galAsn (clientOf (s []) 0).g) (clientOf (s []) 0).foreman false
      ⟨false, false, false⟩ 0x300000).toOption.map (·.pa)) = some (imaged false).pa ∧
    (fitsOn (s [imaged false]) smallGal.rcd 1).isSome = true ∧ 1 % 96 ≠ 0 ∧ 96 % 96 = 0 ∧
    (fitsOn (crowded true) smallGal.rcd 1).isNone = true ∧
    (let u : State := { s [] with ctx := [job true 0 1 0], c := { (s []).c with status := .moving } }
     u.c.status = .moving ∧ (job true 0 1 0).uid = u.c.uid ∧ ∀ k, k < 16 → inRom u (0x210000 + 0x10 + k) = false) := by decide +kernel

/-! ### Witnesses: signatures -/

/-- A modulus of 529 bits, a prime, in 384 bytes. -/
def signMod : List Byte := toBytes 384 (2 ^ 528 + 381)

/-- A firmware image of one body byte for slot 1, at security version 3, and its signature under that modulus. -/
def signedHead : List Byte :=
  toBytes 4 0x48574647 ++ toBytes 2 0x100 ++ toBytes 2 3 ++ [1] ++ List.replicate 7 0 ++ toBytes 8 1 ++ List.replicate 16 0 ++
  toBytes 32 0x9a4585773ce2ccd7a585c331d60a60d1e3b7d28cbb2ede3bc55445342f12f54b ++ List.replicate 0x38 0 ++ signMod ++
  toBytes 384 0x65a19934c71871999b70ac79a511dd6d83a009cb422c9e0c6177a5013370c1ebff462abfb2efe97630ebc9b683c1db3017f09144f2bfead82f0c4f09e9acef9e8868 ++
  List.replicate 0x80 0

/-- Boot registers whose slot 1 holds the hash of that modulus. -/
def signedBoot : Boot :=
  { Boot.reset with
    keyset := 3, secver := 3
    keyhash := Boot.reset.keyhash.set 1 0x2cdd1a0dd9167febf2a71de30f6a52dd0bb346f3717d951be877f642524e0aa8 }

/-- A key record for slot 2, signed by slot 1. -/
def signedKey (action mod sig : Nat) : List Byte :=
  toBytes 4 0x48574B45 ++ List.replicate 4 0 ++ [2, BitVec.ofNat 8 action, 1] ++ List.replicate 0x75 0 ++ toBytes 384 mod ++
  signMod ++ toBytes 384 sig

/-- BringUpEvents: a key record that enrols a key is accepted. -/
theorem test_key_enrol :
    keyAccepted signedBoot (keyRecord (signedKey 0 5
      0x64dbee2ee4bfc4539de94af07e05b5d27bf4830eba8f21adb293a7f1f8c46aaeeccb702452004af51d07a214d45d3d4f0197bf3b4a8ac56a9c4dafc0575e78f8d035)) = true := by
  decide +kernel
/-- The same for a record that revokes a key. -/
theorem test_key_revoke :
    keyAccepted signedBoot (keyRecord (signedKey 1 0
      0xa26d43c32a3e4659d2583e0132d5899ada2869fadb0c7015f4291046b8b58b074a333227b5bbc0f8a4e1f3fbcd6839a56a825a874e13703060682e4ad5e190e4e533)) = true := by
  decide +kernel

/-! ### Witnesses: the group, power, the host and the ports -/

/-- A member of a group, with every other part behind port 4. -/
def member (self : BitVec 8) (view : BitVec 256) (ceil fw : BitVec 8) : State :=
  { opened with
    routes := (List.range 5).map fun k => (k, 0x10#18), timens := 777777
    ports := opened.ports.setIfInBounds 4
      { Port.reset with state := 5, en := true, recvSeq := 3, buffer := [(1, [1]), (2, [2])] }
    pacer := { opened.pacer with
      self := self, view := view, ceil := ceil, fwlimit := fw, ageing := 132, power := 132, en := true
      limits := [(0, 90), (1, 80), (2, 70)], lap := 4, stamped := 5, seen := 6 } }

/-- PacerEvents: a message to one member and to all; parts that are reached and that are not; a group that takes no part;
a coordinator below the least limit of its view, and a member that is none, each with a proposal; a VIEW that drops a member
and one that keeps them. -/
theorem test_group_states :
    portTo (member 0 3 50 100) 1 = some 4 ∧ portTo (member 0 3 50 100) 9 = none ∧
    opened.pacer.en = false ∧ opened.pacer.leaving = none ∧
    (let s := member 0 3 50 100
     s.pacer.en = true ∧ s.pacer.out = [] ∧ s.pacer.isCoordinator = true ∧ s.pacer.proposal = none ∧ s.pacer.leavers = [] ∧
       s.pacer.view.getLsbD 0 = true ∧ s.pacer.view.getLsbD 1 = true ∧ s.pacer.walkhold = false ∧
       s.pacer.ceil.toNat < ({ s.pacer with limits := store 0 s.pacer.limits 1 90 } : Pacer).least.toNat ∧
       s.pacer.view.getLsbD 1 = true ∧ (1 : BitVec 256).getLsbD 1 = false ∧
       (∀ k, k < 256 → s.pacer.view.getLsbD k = true → (3 : BitVec 256).getLsbD k = true)) ∧
    (let s := member 1 3 50 100
     s.pacer.isCoordinator = false ∧ s.pacer.grouped = true) ∧
    (let p : Pacer := { (member 0 3 50 100).pacer with proposal := some (9, 70, 1) }
     p.proposal = some ((9 : BitVec 64).toNat, 70, 1) ∧ (70 : BitVec 8) ≠ 0 ∧
       ∀ m, m < 256 → p.view.getLsbD m = true → (1 : BitVec 256).getLsbD m = true ∨ m = (1 : BitVec 8).toNat) ∧
    (let p : Pacer := { (member 1 3 50 100).pacer with proposal := some (9, 70, 0), walkhold := true }
     p.proposal = some ((9 : BitVec 64).toNat, 70, 0) ∧ p.isCoordinator = false ∧ p.walkhold = true) := by decide +kernel

/-- PacerEvents: laps that are due: without a number, old, and with a view of this member and of others. -/
theorem test_lap_states :
    (∀ m ∈ [(⟨0, 45, 777777, none, false⟩ : PaceMsg), ⟨4, 60, 1, none, false⟩, ⟨5, 60, 777777, some 5, false⟩,
        ⟨5, 60, 777777, some 6, false⟩],
      let s := member 0 3 50 100
      let p : Pacer := { s.pacer with pending := [m] }
      p.pending = [m] ∧ p.leaving = none ∧ p.leavers = [] ∧ p.out = [] ∧ m.t ≤ s.timens.toNat ∧ p.walkhold = false ∧
        (m.lap = 0 ∨ (0 < m.lap ∧ m.lap ≤ p.lap) ∨
          p.lap < m.lap ∧ (m.mask.map fun k => k.getLsbD p.self.toNat) = some (m.mask == some 5) ∧ m.c.toNat ≤ p.own.toNat)) ∧
    (member 0 3 50 100).lamps = [] ∧ (member 0 3 50 100).redq = [] := by decide +kernel

/-- A limit lowered in a group is announced with a time, and the ceiling stands until then; LEAVE goes to the members
(R347, R350). -/
theorem test_group :
    (let t := after (.fwlimit 0 45) (member 1 3 50 100)
     t.pacer.ceil = 50 ∧ (t.pacer.pending.map fun m => (m.lap, m.c, m.t)) = [(0, 45, 877777)] ∧
       (t.ports.getD 4 Port.reset).buffer.length = 3) ∧
    (let t := after (.paceen 0 0) (member 1 3 50 100)
     t.pacer.en = false ∧ t.pacer.leaving = some 7 ∧ (t.ports.getD 4 Port.reset).buffer.length = 3) := by decide +kernel

/-- PowerEvents: a sensor read too early after a lowering, a window of 64 cool samples, a cluster that is to cool down, one
that cools, and a member of a group with a limit below the ceiling, as a coordinator and not; a part that joins, and one that
leaves at once and later. -/
theorem test_supply_states :
    (let s : State := { opened with power := { opened.power with recheckAt := some 500, loweredAt := 600 } }
     s.power.recheckAt ≠ none ∧ s.timens.toNat < s.power.loweredAt) ∧
    (let s : State := { paced fun p => { p with power := 131 } with
       power := { opened.power with samples := List.replicate 64 (3000, 89) } }
     let w := ((3059, 89) :: s.power.samples).take 64
     w.length = 64 ∧ (w.map (·.1)).sum < 3060 * 64 ∧ (∀ x ∈ w, x.2 < 90) ∧ s.power.raisedAt ≤ s.timens.toNat ∧
       s.pacer.power.toNat < 132) ∧
    (let s : State := { opened with current := [(3, ⟨List.replicate 8 1000000, 125000, false, none⟩)] }
     let r := recordOf s 3
     let mean := (r.past.take 8).sum / 8
     r.cooldown = none ∧ (limitsFor s 3).ballast.toNat ≤ mean ∧ 8 * r.now ≤ mean) ∧
    (let s : State := { opened with current := [(3, ⟨[], 9, false, some (9, 4)⟩)] }
     (recordOf s 3).cooldown = some (9, 4) ∧ 9 ≤ (recordOf s 3).now) ∧
    (∀ self ∈ [(0 : BitVec 8), 1],
      let s := member self 3 90 100
      s.pacer.grouped = true ∧ s.pacer.isCoordinator = (self == 0) ∧ s.pacer.out = [] ∧ s.pacer.en = true ∧
        (after (.fwlimit 0 45) s).pacer.own.toNat < s.pacer.ceil.toNat ∧
        s.pacer.lap + 1 < s.pacer.leavers.foldl (fun a l => max a (l.2 + 1)) s.pacer.nextLap) ∧
    (let p : Pacer := { (member 1 3 90 100).pacer with stamped := 4, seen := 4 }
     p.leavers.foldl (fun a l => max a (l.2 + 1)) p.nextLap ≤ p.lap + 1) ∧
    (let s : State := { member 0 1 90 100 with pacer := { (member 0 1 90 100).pacer with en := false } }
     s.pacer.en = false ∧ s.pacer.out = [] ∧ (1 : BitVec 8) ≠ s.pacer.self ∧ portTo s 1 ≠ none ∧
       ∀ k, k < 1 → k = s.pacer.self.toNat ∨ portTo s k = none) := by decide +kernel

/-- The slot to be consumed of queue 2 of function 0. -/
def headSlot (s : State) : Option Slot := (hostRing s 0 (fnOf s 0) 0x240000).map fun x => slotAt s 0 (fnOf s 0) x.2 0

/-- How the checks of R150 end for a record of the host: with none failing, or with the number of the first that does. -/
def checksEnd (s : State) (bs : List Byte) : Option Nat :=
  match checkRecord s .host 0 false [] bs (parseRecord 0x210000 0 bs) with
  | .ok _ => some 0
  | .error n => some n

/-- HostEvents: slots that cannot be read and that are reserved; records that pass, that fail check 9 and others, with a
region that is reached and one that is not, and one of an object below the counter; accesses past window B and to a page that is not there. -/
theorem test_host_failures :
    headSlot (memWith (hosted 0 5 1 0) [(0x240000, 8, 0x1000000)]) = some .lost ∧ headSlot (hosted 1 5 1 0) = some .bad ∧
    (let s := hosted 0 5 1 0
     let bs := readBytes s 0x210000 64
     let old := bs.set 0x26 0
     let u : State := { s with
       objects := [⟨0x777, 0x200000, 0, 0, 0, 0x300000, 0x100, 0x310000⟩], boot := { s.boot with secver := 5 } }
     checksEnd s bs = some 0 ∧ checksEnd s (bs.set 0x2B 0x77) = some 9 ∧
     checksEnd u old = some 0 ∧ (parseRecord 0x210000 0 old).kind = 0 ∧
       (refusedObject u (parseRecord 0x210000 0 old)).isSome = true ∧
     (∀ b ∈ [bs.set 0 1, (bs.set 0 1).set 0x2B 0x77], (checksEnd s b).any fun n => n != 0 && n != 9) ∧
     (translate s 0 0 false false needR (parseRecord 0x210000 0 (bs.set 0 1)).region.toNat).toOption.isSome = true ∧
     (translate s 0 0 false false needR (parseRecord 0x210000 0 ((bs.set 0 1).set 0x2B 0x77)).region.toNat).toOption.isSome
       = false ∧
     refusedObject s (parseRecord 0x210000 0 bs) = none ∧
     s.lamps = [] ∧ s.redq = [] ∧ (∀ k, k < 4 → inRom s (0x240000 + 24 + k) = false) ∧
     2 ^ (fnOf s 0).wbsize < (2 ^ (fnOf s 0).wbsize - 1) + 2 ∧ fnPart s 0 = some 0 ∧
     (hostAt s 0 (fnOf s 0) needW 0x2000000 8).toOption.isNone = true ∧
     (hostAt s 0 (fnOf s 0) needR 0x2000000 8).toOption.isNone = true) := by decide +kernel

/-- Whether function 0 has a request of 64 bytes, and room for its reply at 0x261000. -/
def replyRoom (s : State) : Bool :=
  match mailAt s 0 with
  | .request m =>
    let u := performNat s (m.cb + 24) 4 ((m.cons + 1) % 2 ^ 32)
    m.h.rspbase.toNat == 0x260000 && m.cb == 0x250000 && m.bs.length == 64 &&
    (match hostXlate u m.part m.h needRW 0x260000 with
     | .ok p => p.pa == 0x260000 && (ringAt u p.pa).any fun r => !r.full &&
         (match hostXlate u m.part m.h needW (r.slot r.prod) with
          | .ok q => q.pa == 0x261000
          | .error _ => false)
     | .error _ => false)
  | _ => false

/-- MailboxEvents: a reserved bit that is set, an argument just out of its range for each operation, a part that may not
give orders for the package, and a reply ring with room. -/
theorem test_mail_refusals :
    (∀ x ∈ [(2, 0x9000000, 0), (3, 39, 0), (3, 133, 0), (4, 96, 3), (4, 95, 4), (5, 2, 0), (7, 257, 0), (8, 256, 0),
        (8, 255, 0x40000)],
      mailOf (hosted 0 x.1 x.2.1 x.2.2) = some (0, x.1, x.2.1, x.2.2, true)) ∧
    mailOf (memWith (hosted 0 5 1 0) [(0x251018, 8, 1)]) = some (0, 5, 1, 1, false) ∧
    (let s := hosted 0 2 0x9000000 0
     regionPath s 0 0 false 0x9000000 = none ∧ regionPath s 0 0 false 0 = none) ∧
    replyRoom (hosted 0 5 1 0) = true ∧
    (∀ k, k < 72 → inRom (hosted 0 5 1 0) (0x261000 + k) = false) ∧
    (∀ k, k < 4 → inRom (hosted 0 5 1 0) (0x260000 + 16 + k) = false ∧ inRom (hosted 0 5 1 0) (0x250000 + 24 + k) = false) := by
  decide +kernel

/-- BringUpEvents: a training run within its 50 ms and one past them, and an image of the length of a header. -/
theorem test_training_limits :
    (let s := after (.trnctl 3 0x100) opened
     (s.ctls[3]).running = true ∧ ¬ (s.ctls[3]).since + 50000000 ≤ s.timens.toNat ∧
       (s.ctls[3]).since + 50000000 ≤ ({ s with timens := 50000000 } : State).timens.toNat) ∧
    0x400 ≤ (List.replicate 0x400 (0 : Byte)).length := by decide +kernel

/-- DriftEvents: a flit that was asked for less than eight times, one that is acknowledged, and one not in the buffer. -/
theorem test_replay_states :
    (let q := (ported fun q => { q with state := 5, buffer := [(6, []), (7, [1])], asked := 7, tries := 7 }).ports.getD 4 Port.reset
     q.buffer = [(6, [])] ++ (7, [1]) :: [] ∧ q.asked = 7 ∧ q.tries < 8 ∧ (∀ y ∈ [((6 : BitVec 12), ([] : List Byte))], y.1 ≠ 7) ∧
       ∀ y ∈ q.buffer, y.1 ≠ 8) ∧
    (let q := (ported fun q => { q with state := 0 }).ports.getD 4 Port.reset
     q.state = 0 ∧ q.state ≠ 5) := by decide +kernel

/-- DriftEvents: a flit on each channel, in order, and of the member's group. -/
theorem test_flit :
    ∀ vc ∈ [0, 1, 2, 3], let f := flitOf 0 1 vc 3 (toBytes 2 0) [7]
      ofBytes ((f.drop 2).take 2) % 4 = vc ∧ ofBytes ((f.drop 2).take 2) / 4 = 3 ∧
      ofBytes ((f.drop 4).take 2) = 0 ∧ ofBytes ((f.drop 16).take 1) = 7 := by decide +kernel

/-- The correction leaves those flits, and their CRC holds. -/
theorem test_flit_holds (vc : Nat) :
    fecFix (flitOf 0 1 vc 3 (toBytes 2 0) [7]) = flitOf 0 1 vc 3 (toBytes 2 0) [7] ∧
    crcHolds (flitOf 0 1 vc 3 (toBytes 2 0) [7]) = true := flit_holds 0 1 vc 3 _ _

/-! ### Witnesses: errors, accesses, orders -/

/-- StepRunsDecodedWord: a word to be fetched from uncorrectable bytes, and a register with a single-bit error that is read. -/
theorem test_fetch_error :
    (let s : State := { opened with c := { opened.c with pc := 0x100000 }, poison := [0x20000] }
     crewXlate s needX 0x100000 = .ok spot ∧ ownedByHw s 0x100000 4 false = false ∧ inRom s 0x100000 = false ∧
       poisoned s false 0x100000 4 = true) ∧
    (let s : State := { opened with g := { opened.g with soft := [(128 * 3 + 2, 6)] } }
     gate (.add 3 1 2 2) s = none ∧ isLane (.add 3 1 2 2) = true ∧ s.c.act.getLsbD 3 = true ∧ Reg.v 2 ∈ readRegs (.add 3 1 2 2) ∧
       (correctRead (.add 3 1 2 2) s).g.soft = [] ∧ (correctRead (.add 3 1 2 2) s).corrected[0] = 1) := by decide +kernel

/-- AccessChecks: addresses that fail for each word: of a mark, of host memory, and of thread 1 alone. -/
theorem test_access_failures :
    (gate (.mload 1 6) aimed = none ∧ gate (.mstore 1 6) aimed = none ∧
      checkGlobal aimed needR 0x100004 256 256 = .error .align ∧ checkGlobal aimed needW 0x100004 256 256 = .error .align) ∧
    (gate (.redqs 1 1 6 7) aimed = none ∧ checkGlobal aimed needRW 0x100004 16 16 = .error .align) ∧
    (let s : State := { aimed with c := setS aimed.c 4 0x8000000000000 }
     gate (.redqs 1 1 4 7) s = none ∧ (checkGlobal s needRW 0x8000000000000 16 16).isOk = true ∧ inHost 0x8000000000000 = true) ∧
    (∀ i ∈ [Instr.atom 1 8 3 0 3, .redq 1 8 3 2, .ldv 3 8 3 0, .stv 3 8 3 0], gate i aimed = none) ∧
    active aimed 1 ∧ (reg aimed 0 3).toNat = 0 ∧ (reg aimed 1 3).toNat = 1 ∧
    checkGlobal aimed needRW 1 8 8 = .error .align ∧ (checkGlobal aimed needRW 0 8 8).isOk = true ∧
    checkGlobal aimed needRW 1 16 16 = .error .align ∧ (checkGlobal aimed needRW 0 16 16).isOk = true ∧
    checkVault aimed 0 0 2 0 1 8 = .error .align ∧ checkVault aimed 0 0 2 0 0 8 = .ok () := by
  and_intros <;> decide +kernel

/-- AccessChecks: addresses of vaults at the ends of each check of R174: beyond the last core, on another partition, not
aligned, of a foreman core, of a half that another address space owns, and of one's own. -/
theorem test_vault_checks :
    let core (n : Nat) : Nat := n * 2 ^ 22
    (∀ a ∈ [2 ^ 31, core 96, core 1 + 1, core 0, core 1, core 95], isControl 0 1 a = false) ∧
    checkVault opened 0 0 1 65536 (2 ^ 31) 8 = .error .xlate ∧ checkVault opened 0 0 1 65536 (core 96) 8 = .error .xlate ∧
    checkVault opened 1 0 1 65536 (core 1) 8 = .error .xlate ∧ checkVault opened 0 0 1 65536 (core 1 + 1) 8 = .error .align ∧
    checkVault opened 0 0 1 65536 (core 0) 8 = .error .perm ∧ checkVault opened 0 0 1 7 (core 1) 8 = .error .perm ∧
    checkVault opened 0 0 1 65536 (core 95) 8 = .ok () := by decide +kernel

/-- LoadsLandTheirValue: a vault load that follows stores of the crew's own to other bytes performs them first (R204). -/
theorem test_vault_order :
    let s : State := { aimed with c := { aimed.c with stores := [⟨0, [⟨true, 0, 0x100010, [9]⟩], [], []⟩] } }
    gate (.ldv 3 8 2 0) s = none ∧ poisoned (performAll s) true 0x100000 8 = false ∧
    readVault (after (.ldv 3 8 2 0) s) 0x100010 = 9 ∧ (after (.ldv 3 8 2 0) s).c.stores = [] := by decide +kernel

/-- FencesAndQueuedReductions, ReductionsByIndex: a fence that waits for a contribution, one that meets an uncorrectable
object, and states without contributions. -/
theorem test_contribution_errors :
    (gate .fenceA (troubled true []) = none ∧ (troubled true []).c.redq ≠ [] ∧
      (after .fenceA (troubled true [])).c.status = .running ∧ (after .fenceA (troubled true [])).c.redq.all (·.fenceA) = true) ∧
    (let s := troubled true [0x20001]
     s.c.redq = [pending 0] ∧ s.c.dups = [] ∧ s.redq = [] ∧ poisoned s false (pending 0).obj 16 = true ∧ s.c.status ≠ .exited ∧
       (after (.redqContribution 0 0) s).c.deferred.length = 1) ∧
    (∀ c ∈ opened.allCrews, c.redq = []) ∧ (performAll storing).c.redq = [] ∧ (performAll storing).c.stores = [] := by decide +kernel

/-- Contributions of one crew to one object are offered in the order of its words: the earlier is accepted (R192). -/
theorem test_contribution_order :
    let s : State := { aimed with c := { aimed.c with redq := [pending 0, { pending 0 with value := 0x4000000000000000 }] } }
    readNat (after (.redqContribution 0 1) s) 0x100000 8 = 0x3FF0000000000000 := by decide +kernel
/-! ### Witnesses: spills, wakes and the publish table -/

/-- A part whose region has a spill area of `n` entries, with the set of the line of `waiting` full of entries of a region. -/
def spilling (n : Nat) (region : Word) (spilled : List Nat) : State :=
  let s := memWith (tasking 0xFFFF 1) [(0x200058, 8, 32 * n)]
  { s with lamps := (List.range 8).map (fun k => { waiting with regno := 7 - k, region := region }) ++
      spilled.map fun i => { waiting with pa := 0x500000, region := 0x200000, spilled := some i } }

/-- WaitsAndWakes: a full set with a place to spill to, for an entry of its region and of another, and with none; every entry
late; and a write that meets the condition of each entry. -/
theorem test_spill_states :
    let ways (s : State) : List LampEntry :=
      s.lamps.filter fun f => f.spilled.isNone && f.home == waiting.home && lampSet f.pa == lampSet waiting.pa
    queued.path = [0x200000] ∧ 8 ≤ (ways (spilling 2 0x200000 [0])).length ∧ 8 ≤ (ways (spilling 2 0x300000 [0])).length ∧
    freeSpill (spilling 2 0x200000 [0]) queued = some 1 ∧ freeSpill (spilling 2 0x200000 [0, 1]) queued = none ∧
    (∃ f ∈ ways (spilling 2 0x200000 [0]), f.region = 0x200000 ∧
      ∀ h ∈ ways (spilling 2 0x200000 [0]), h.region = 0x200000 → h ≠ f → f.regno < h.regno) ∧
    (∀ h ∈ ways (spilling 2 0x300000 [0]), h.region ≠ 0x200000) ∧
    (let s : State := { spilling 2 0x200000 [0] with timens := 1000, sweepAt := 500 }
     s.sweepAt ≤ s.timens.toNat ∧ s.sweeps = [] ∧
       ∀ e ∈ s.lamps, ((e.deadline.map fun t => decide (t ≤ s.sweepAt)).getD false) = true ∧ (s.crew? e.uid).isSome = true) ∧
    (let s : State := { opened with lamps := [{ waiting with y := 0 }] }
     ∀ e ∈ s.lamps, (e.pa / 256 == 0x1000 && lampHolds s e) = true ∧ (s.crew? e.uid).isSome = true) := by decide +kernel

/-- WaitsAndWakes: a crew of a gallery that is swapped out to an image and has no resume record yet. -/
theorem test_saved_wake :
    let s : State := { resuming false with records := [] }
    (s.crew? 5).map (·.gid) = some 4 ∧ s.saved.find? (·.gal.gid == 4) = some (imaged false) ∧ (imaged false).image = some 0x300000 ∧
    (wake s 5 0).records.length = 1 ∧ (∀ v ∈ opened.saved, v.gal.gid ≠ 0) ∧ (opened.crew? 0).isSome = true := by decide +kernel

/-- WaitsAndWakes: the save record of a crew in focus, which stays at its place whatever memory becomes. -/
theorem test_wake_record :
    recorded.crew? recorded.c.uid = some recorded.c ∧ recorded.gal? recorded.c.gid = some recorded.g ∧ recorded.saved = [] ∧
    (∀ k, k < 8 → inRom recorded (0x180000 + k) = false) ∧
    ∀ (st : BitVec 2) (u : State),
      (∃ m, u = { recorded.onCrew recorded.c.uid (fun c => { c with woken := some st }) with mem := m }) →
      ∀ k, k < 8 → savePlace u recorded.g recorded.c.save k = some (0x180000 + k) := by
  refine ⟨rfl, rfl, rfl, by decide +kernel, ?_⟩
  rintro st u ⟨m, rfl⟩ k hk
  have h : ∀ k < 8, regionXlate { recorded.onCrew recorded.c.uid (fun c => { c with woken := some st }) with mem := m }
      recorded.g.rcd ⟨false, false, false⟩ (recorded.c.save.toNat + k) =
        .ok ⟨0x180000 + k, homeSlice recorded 0 (0x180000 + k) false⟩ := by
    intro k hk
    interval_cases k <;> rfl
  rw [savePlace, if_neg (by decide), h k hk]

/-- A part whose publish table has entry 2, and one of another partition. -/
def tabled (privl : BitVec 2) : State :=
  { crewWith fun c => { c with privl := privl } with
    pubs := [⟨0, 2, 0x4000000000000, 0, 0x400000, 0x600000, true, 0⟩, ⟨1, 3, 0x8000000000000, 0, 0, 0, false, 0⟩] }

/-- TagAndPublishWords: an image for each reason of R284, at the end of its range, one with several, and one with none. -/
theorem test_publish_reasons :
    let i : PubImage := pubImage (toBytes 8 0x8000000000000 ++ toBytes 8 0x400000 ++ toBytes 8 0x600000 ++ toBytes 8 0x10000)
    pubReason (tabled 2) 255 i = none ∧ pubReason (tabled 2) 256 i = some 1 ∧
    pubReason (tabled 2) 7 { i with size := 8, vbase := 2 ^ 50, pbase0 := 0, pbase1 := 0, valid := false } = none ∧
    pubReason (tabled 2) 7 { i with size := 9 } = some 2 ∧ pubReason (tabled 2) 7 { i with size := 1, pbase1 := 0x200000 } = some 3 ∧
    pubReason (tabled 2) 7 { i with vbase := 0x4000000000000 } = some 4 ∧
    pubReason (tabled 2) 7 { i with vbase := 0x4000000200000 } = none ∧ pubReason (tabled 2) 2 i = some 5 ∧
    pubReason (tabled 1) 7 { i with asn := 1 } = some 6 ∧ pubReason (tabled 2) 7 { i with asn := 1 } = none ∧
    pubReason (tabled 2) 7 { i with pbase0 := 160 * 2 ^ 32 } = some 7 ∧
    pubReason (tabled 2) 7 { i with pbase0 := 160 * 2 ^ 32 - 2 ^ 21 } = none ∧
    pubReason (tabled 2) 7 { i with rsvd := true } = some 8 ∧ pubReason (tabled 2) 256 { i with size := 9 } = some 1 := by decide +kernel
/-! ### Witnesses: follow-on images, chains, row scales -/

/-- The image of an `MMA` with tag 5 at 0x140000, and the operand group of a command of 32 bytes that names it at `s12`. -/
def following (word0 : Nat) : State :=
  let s := memWith ringed [(0x140000, 8, word0), (0x140008, 8, 0x4000), (0x140010, 8, 0x8000)]
  { s with c := [((12 : BitVec 6), (0x130000 : Word)), (13, 0x150000), (14, 32), (15, 0x140000)].foldl (fun c p => setS c p.1 p.2) s.c }

/-- Its first word. -/
def goodImage : Nat := 3 * 2 ^ 32 + 5 * 2 ^ 48

/-- The image that a command finds, if it passes its checks. -/
def imageOf (s : State) (a : Word) : Option (List Byte) :=
  match followImage (atHome s) (clientOf s 0) s.c.ring a with
  | .ok (_, l) => some l
  | .error _ => none

/-- HoistWords: commands that name an image, one that passes and ones that do not; a ring with a slot, without room, and
broken; and counts with room and without. -/
theorem test_follow_states :
    let s := following goodImage
    let k := clientOf s 0
    let full : State := { s with c := { s.c with tagcnt := s.c.tagcnt.set 5 255 } }
    let broken : State := memWith s [(0x100008, 8, 0)]
    (∀ p ∈ hoistOps s 3 12 0 0 0 0 2, gate p.1 s = none) ∧
    (∀ p ∈ hoistOps s 3 12 0 0 0 0 2, p.2.fn ∈ [0, 4] → opFault p.2 = none ∧ p.2.followAt = 0x140000) ∧ s.c.redq = [] ∧
    (imageOf s 0x140000).map imageTag = some (some 5) ∧ (imageOf (following 0) 0x140000).isNone = true ∧
    (imageOf (following (goodImage + 6)) 0x140000).isNone = true ∧
    (imageOf (following (goodImage + 16)) 0x140000).isNone = true ∧ imageOf s 0xA000000000 = none ∧
    imageOf { s with c := { s.c with ring := none } } 0x140000 = none ∧
    s.c.ring = some 0x100000 ∧ ringRoom s k 0x100000 = true ∧ (ringReserve (atHome s) k 0x100000).2 = some 0 ∧
    (s.hoist.filter fun h => h.core == s.c.core).length < 32 ∧ (∀ j, j < 64 → tagCount s.c j + 2 ≤ 255) ∧
    ¬ tagCount full.c 5 + 1 ≤ 255 ∧ (ringReserve (atHome broken) k 0x100000).2 = none ∧ ringRoom broken k 0x100000 = true := by
  decide +kernel

/-- A command with a follow-on takes its slot and its count at issue, and posts it when its last chunk is performed (R270). -/
theorem test_follow :
    let t := after (.hcopy 3 12 0 0 0) (following goodImage)
    tagCount t.c 3 = 1 ∧ tagCount t.c 5 = 1 ∧ readNat t 0x100010 4 = 1 ∧ readNat t 0x110008 8 = 0 ∧
    (let u := after (.hoistChunkDone 0 0) t
     u.hoist = [] ∧ tagCount u.c 3 = 0 ∧ tagCount u.c 5 = 1 ∧ readNat u 0x110008 8 = goodImage ∧ readNat u 0x110010 8 = 0x4000) := by
  decide +kernel

/-- The image of `following` as a command holds it, with a change of its first word. -/
def held (scl : Bool) (kind : Nat) : Follow :=
  ⟨0x140000, toBytes 8 (goodImage + kind + if scl then 2 ^ 15 else 0) ++ toBytes 8 0x4000 ++ toBytes 8 0x8000 ++ List.replicate 40 0,
    0x100000, 0, some 5⟩

/-- HoistWords: an image without scales, one whose scales can be read, one whose scales cannot, and one of a kind that has
none. -/
theorem test_follow_scales :
    let word (f : Follow) : Nat := ofBytes (f.img.take 8)
    bit (word (held false 0)) 15 = false ∧ bit (word (held true 0)) 15 = true ∧ bits (word (held true 0)) 0 4 ≠ 2 ∧
    bits (word (held true 2)) 0 4 = 2 ∧ (rowScales opened.g 0 0).isNone = true ∧
    (let s : State := { ringed with g := { ringed.g with nthr := 128 } }
     (rowScales (clientOf s 0).g 0 0).map (·.length) = some 128 ∧ rowScales (clientOf s 0).g (8 * s.g.nblk) 0 = none) := by
  decide +kernel

/-- A chain at 0x160000 whose first word is `w`, with its command, of which no step has begun. -/
def chained (w dest follow : Nat) : State :=
  memWith (following goodImage)
    [(0x160000, 8, w), (0x160008, 8, dest), (0x160010, 8, 0x150000), (0x160018, 8, 32), (0x160020, 8, follow)]
def chainCmd : HoistCmd :=
  { copying with chain := some (0x160000, 0), begun := false, next := 0, total := 0, flight := [] }

/-- The word of the chain, and the operation in it. -/
def chainWord (s : State) : List Byte := readBytes s 0x160000 64

/-- HoistWords: the words of a step: good, with an address out of range, with a function or a flag it may not have, with an
image that passes and one that does not; and a step past the last. -/
theorem test_chain_states :
    let s := chained 0 0x130000 0x140000
    (∀ x ∈ [0, 0xA000000000], (engRead s (clientOf s 0) false (0x160000 + x) 64).toOption.isSome = (x == 0)) ∧
    chainWord s = toBytes 8 0 ++ toBytes 8 0x130000 ++ toBytes 8 0x150000 ++ toBytes 8 32 ++ toBytes 8 0x140000 ++ List.replicate 24 0 ∧
    (∀ w ∈ [0, 3, 4 + 2 ^ 8 * 5, 2 ^ 63], chainWordBad (chainWord (chained w 0x130000 0)) = false ∧
      flagsBad (chainOp (chainWord (chained w 0x130000 0))) = false) ∧
    (∀ w ∈ [5, 16, 2 ^ 16, 2 ^ 10, 3 + 2 ^ 9, 4 + 2 ^ 8 * 6, 4 + 2 ^ 13],
      (chainWordBad (chainWord (chained w 0x130000 0)) || flagsBad (chainOp (chainWord (chained w 0x130000 0)))) = true) ∧
    opFault (chainOp (chainWord s)) = none ∧ (opFault (chainOp (chainWord (chained 0 (2 ^ 57) 0)))).isSome = true ∧
    (chainOp (chainWord s)).followAt = 0x140000 ∧ (chainOp (chainWord (chained 0 0x130000 0))).followAt = 0 ∧
    (imageOf (chained 0 0x130000 0x160000) 0x160000).isNone = true ∧
    (let u : State := { s with hoist := [chainCmd] }
     u.hoist = [chainCmd] ∧ clusterOf chainCmd.core = 0 ∧ frozen u chainCmd.uid = false ∧ chainCmd.stopped = false ∧
       chainCmd.waits = none ∧ chainCmd.chain = some (0x160000, 0) ∧ chainCmd.begun = false ∧
       (u.crew? chainCmd.uid).isSome = true ∧
       ((settleHoist u 0).hoist.map fun h => (h.begun, h.total, h.follow.isSome)) = [(true, 1, true)]) := by decide +kernel

/-- The crew of `ringed` in a gallery of 128 threads, with an operand group at `s8` that asks for the row scales in `v1`. -/
def scaling : State :=
  let s : State := { ringed with g := { ringed.g with nthr := 128 } }
  { s with c := setS s.c 11 0x10100000000 }

/-- MatrixWords: operand groups with scales that can be read, and ones that are formed wrong at each field's
end. -/
theorem test_scale_states :
    let s := scaling
    let x (s : State) (i : Nat) : Nat := (getG s.c 8 i).toNat
    let formed (s : State) : Bool := decide (bits (x s 1) 32 16 ≠ 0 ∧ bits (x s 0) 0 32 % 2048 = 0 ∧ bits (x s 1) 0 32 % 2048 = 0 ∧
      bits (x s 0) 32 32 = 0 ∧ bits (x s 1) 48 16 = 0 ∧ bits (x s 2) 7 57 = 0 ∧ bits (x s 3) 41 23 = 0)
    let with_ (r : BitVec 6) (v : Word) : State := { s with c := setS s.c r v }
    gate (.mma 3 8 0 0) s = none ∧ formed s = true ∧ bits (x s 3) 40 1 = 1 ∧ bits (x s 3) 32 7 = 1 ∧ s.c.outm = [] ∧ s.g.bad = [] ∧
    s.c.ring = some 0x100000 ∧ (rowScales s.g 1 0).isSome = true ∧ (ringReserve (atHome s) (clientOf s 0) 0x100000).2 = some 0 ∧
    (let t := after (.mma 3 8 0 0) s
     (t.scales.map fun x => (x.slot, x.vals.length)) = [(0, 128)] ∧ readNat t 0x110008 8 = 0x3000100018500) ∧
    (∀ u ∈ [with_ 8 0x4001, with_ 8 0x100000000, with_ 9 0x8000, with_ 9 0x1000100000000, with_ 10 128, with_ 11 0x20000000000],
      formed u = false) := by decide +kernel

/-- MatrixWords: row scales that are outstanding, and that are in error; a reserved bit of an `MZERO`; and no ring. -/
theorem test_scale_traps :
    let s := scaling
    (let u : State := { s with c := { s.c with outm := [⟨.v 1, 3⟩] } }
     gate (.mma 3 8 0 0) u = none ∧ ∃ o ∈ u.c.outm, o.reg = .v 1) ∧
    (let u : State := { s with g := { s.g with bad := [128 * 5 + 1] } }
     gate (.mma 3 8 0 0) u = none ∧ 128 * 5 + 1 ∈ u.g.bad ∧ ∀ t, t < 5 → 128 * t + 1 ∉ u.g.bad) ∧
    gate (.mzero 3 8 0) { s with c := setS s.c 10 64 } = none ∧ bits (64 : Word).toNat 6 58 ≠ 0 ∧
    (let u : State := { s with c := { s.c with ring := none } }
     gate (.mma 3 8 0 0) u = none ∧ gate (.mzero 3 8 0) u = none ∧ gate (.mfence 3 0) u = none) := by
  decide +kernel

/-- MatrixWords: the head of a ring with scales, and a slot whose scales nothing holds. -/
theorem test_scaled_look :
    let s := after (.mma 3 8 0 0) scaling
    let e : RingEntry := ⟨0, 0, 0x100000, 0, false⟩
    ((lookAtRing s e).mx.map fun m => (m.scl, m.scales.length)) = [(true, 128)] ∧ (lookAtRing s e).scales = [] ∧
    ((lookAtRing { s with scales := [] } e).mx.map fun m => (m.scl, m.scales.length)) = [(true, 128)] := by decide +kernel
/-! ### Witnesses: collectives, spawns that are retried, laps, windows, loads, images -/

/-- CollectiveWords: a group that this part is not in, a destination that runs out of memory, a word that waits, and operand
groups that fail each check of the codes, the addresses and the descriptor. -/
theorem test_collective_failures :
    let with_ (r : BitVec 6) (v : Word) : State := { grouped with c := setS grouped.c r v }
    let o (s : State) (fn : Nat) : CollOp := collOp s fn 0 0 8
    let fails (s : State) (a : Word) (n : Nat) : Option (Cause × Word) := (collFault s needW a 8 n 1).map fun f => (f.cause, f.addr)
    collBad grouped (o grouped 0) 2 = true ∧ collBad grouped (o grouped 0) 1 = false ∧
    collBad (with_ 8 0x100008) (o (with_ 8 0x100008) 0) 1 = true ∧ collBad (with_ 8 0x100010) (o (with_ 8 0x100010) 0) 1 = false ∧
    (let s := with_ 8 0x9FFFFFFFF8
     (groupFault s (o s 0)).isNone = true ∧ collBad s (o s 0) 1 = false ∧
       fails s 0x9FFFFFFFF8 16 = some (.xlate, 0xA000000000)) ∧
    (let s : State := { grouped with c := { grouped.c with redq := [pending 0] } }
     gate (.cred 3 8 0 0 0) s = none ∧ (groupFault s (o s 0)).isNone = true ∧ collBad s (o s 0) 1 = false ∧
       (collFault s needW (o s 0).dest (o s 0).size 16 1).isNone = true ∧ s.c.redq ≠ []) ∧
    fails grouped (w64 (2 ^ 57)) 0 = some (.xlate, w64 (2 ^ 57)) ∧
    fails grouped (w64 (2 ^ 57 - 8)) 16 = some (.xlate, w64 (2 ^ 57 - 8)) ∧
    fails grouped 0x130001 0 = some (.align, 0x130001) ∧
    fails grouped 0x130000 0 = none := by decide +kernel

/-- A crew parked at a `SPAWN` of the record in `s4`, on a region with room or without, and another behind it. -/
def spawning (pend : Nat) : State :=
  let s := memWith (tasking pend 1) [(0x300000, 4, ((encode (.spawn 4)).getD 0).toNat)]
  { s with
    c := { s.c with pc := 0x300000, status := .parked .spawn }, spawnq := [⟨0, [0x200000]⟩, ⟨9, [0x200000]⟩], pendFell := [0x200000] }

/-- Whether a word decodes to an instruction. -/
def decodesTo (w : BitVec 32) (i : Instr) : Bool :=
  match decodeWord w with
  | .ok j => decide (j = i)
  | .error _ => false

/-- SchedulingEvents: spawns parked on a region whose PEND has fallen, their word fetched afresh; contexts with an uncorrectable
word in their image, in their save record, and with none. -/
theorem test_retry_states :
    (∀ pend ∈ [0, 0xFFFF],
      let s := spawning pend
      s.c.gid = s.g.gid ∧ s.power.moving = [] ∧ (∃ b ∈ s.pendFell, b ∈ [0x200000]) ∧
      (match fetch s with
        | .ok w => decodesTo w (.spawn 4)
        | .error _ => false) = true ∧
      enqFull (taskEnqueue s .spawn (getS s.c 4)) = (if pend = 0 then some [0x200000] else none) ∧
      enqOk (taskEnqueue s .spawn (getS s.c 4)) = (pend != 0)) ∧
    (let u := retrySpawns { spawning 0xFFFF with pendFell := [] } [0x200000]
     u.pendFell = [] ∧ u.power.moving = [] ∧ u.c.status = .running ∧ u.records.length = 1) ∧
    (∀ x ∈ (spawning 0).spawnq, ∀ b ∈ [0x400000], b ∉ x.path) ∧
    (let v : SavedContext := { imaged false with pages := [0x300000] }
     contextLost (placed small) v = false ∧ contextLost { placed small with poison := [0x60000] } v = true ∧
       contextLost { placed small with poison := [0x50000] } v = true) := by decide +kernel

/-- PacerEvents: a raise for the least limit and for a hold, and none; two laps that are due together; a lap that ends a
hold and one that does not; a member that leaves another alone; and a group of one. -/
theorem test_raise_states :
    let p := (member 0 3 50 100).pacer
    let heard (p : Pacer) : Pacer := { p with limits := store 0 p.limits 1 90 }
    let up (p : Pacer) : Bool := decide (p.target.toNat < (heard p).least.toNat) || (p.walkhold && p.pending.all fun m => !m.raise)
    up p = true ∧ up { p with ceil := 90 } = false ∧ up { p with ceil := 90, walkhold := true } = true ∧
    up { p with ceil := 90, walkhold := true, pending := [⟨7, 95, 800000, none, true⟩] } = false ∧
    up { p with pending := [⟨7, 95, 800000, none, true⟩] } = false ∧
    ({ p with pending := [⟨7, 95, 800000, none, true⟩, ⟨8, 60, 800000, none, false⟩] } : Pacer).target = 60 ∧
    ({ p with pending := [⟨4, 95, 1, none, true⟩] } : Pacer).target = 50 ∧
    (∀ k, k < 256 → p.view.getLsbD k = true → k = p.self.toNat ∨ k = (1 : BitVec 8).toNat) ∧
    (∀ k, k < 256 → opened.pacer.view.getLsbD k = true → k = 0) ∧ opened.pacer.walkhold = false := by decide +kernel

/-- Of two laps with one time the higher is applied alone; a hold ends with a raise; a member left alone stands at its own
limit (R346, R350, R353). -/
theorem test_laps :
    let s (l : List PaceMsg) (hold : Bool) : State :=
      let s := member 0 3 50 100
      { s with pacer := { s.pacer with pending := l, walkhold := hold, ceil := if hold then 40 else 50 } }
    (let t := after .lapApply (s [⟨5, 60, 777777, some 1, false⟩, ⟨6, 55, 777777, none, false⟩] false)
     t.pacer.ceil = 55 ∧ t.pacer.lap = 6 ∧ t.pacer.view = 3) ∧
    (let t := after .lapApply (s [⟨5, 60, 777777, none, false⟩] true)
     t.pacer.ceil = 40 ∧ t.pacer.walkhold = true) ∧
    (let t := after .lapApply (s [⟨5, 60, 777777, none, true⟩] true)
     t.pacer.ceil = 60 ∧ t.pacer.walkhold = false) ∧
    (let t := after (.leave 1 5) (s [] true)
     t.pacer.view = 1 ∧ t.pacer.ceil = 100 ∧ t.pacer.walkhold = false) := by decide +kernel

/-- PowerEvents: a window whose mean is just above 3,420 W, before and after the time of the last lowering; a limit that rises
below the ceiling, and one that falls. -/
theorem test_mean_states :
    (let s : State := { opened with power := { opened.power with samples := [(3420, 50)], loweredAt := 600 } }
     let w := ((3421, 90) :: s.power.samples).take 64
     3420 * w.length < (w.map (·.1)).sum ∧ s.timens.toNat < s.power.loweredAt ∧ opened.power.loweredAt ≤ opened.timens.toNat) ∧
    (let s := member 1 3 100 70
     look 0 s.pacer.limits s.pacer.self.toNat ≠ 0 ∧
       look 0 s.pacer.limits s.pacer.self.toNat ≤ (after (.fwlimit 0 85) s).pacer.own ∧
       (after (.fwlimit 0 45) s).pacer.own < look 0 s.pacer.limits s.pacer.self.toNat ∧
       (after (.fwlimit 0 45) s).pacer.own.toNat < s.pacer.ceil.toNat) := by decide +kernel

/-- MailboxEvents: a launch record of an object, and a relocation within it, to the text and to the data. -/
theorem test_launch_states :
    let o : ObjHead := { magic := 0, agqver := 0, secv := 0, textsz := 0, datasz := 16, align := 8, nreloc := 1, nlaunch := 1, zero := true }
    let obj (up : Nat) : List Byte := List.replicate 136 0 ++ toBytes 8 5 ++ List.replicate 48 0 ++ toBytes 8 (8 + up * 2 ^ 63) ++
      List.replicate 120 7
    o.launchOff + 64 * (0 + 1) ≤ (obj 0).length ∧ o.dataOff + 8 + 8 ≤ (obj 0).length ∧
    (∀ up ∈ [0, 1], ofBytes (((relocate1 o 0x1000 0x2000 (obj up) 0).drop 136).take 8) = if up = 1 then 0x1005 else 0x2005) ∧
    ((launchBytes o (obj 0) 0x200000 0x9000 0).drop 0x18).take 8 = toBytes 8 0x9000 ∧
    (launchBytes o (obj 0) 0x200000 0x9000 0).getD 0x2F 0 = 0 ∧ (launchBytes o (obj 0) 0x200000 0x9000 0).getD 0x30 0 = 7 := by
  decide +kernel

/-- An object with some text and nothing else. -/
def textOnly (n : Nat) : ObjHead :=
  { magic := 0, agqver := 0, secv := 0, textsz := n, datasz := 0, align := 0, nreloc := 0, nlaunch := 0, zero := true }

/-- A part in which address space 5 has a root table, in which nothing is mapped. -/
def emptySpace : State :=
  memWith { opened with boot := { opened.boot with dirbase := Vector.replicate 4 0x100000 } } [(0x100050, 8, 0x101001)]

/-- Its root table is empty. -/
theorem empty_table (a : Nat) (h1 : 0x101000 ≤ a) (h2 : a < 0x200000) : readByte emptySpace a = 0 := by
  have hm : emptySpace.mem = [(0x100050, 1), (0x100051, 0x10), (0x100052, 0x10),
      (0x27FFFFFF00, 40)] := by decide +kernel
  have hr : inRom emptySpace a = false := by
    have h : ¬ a % 0x2800000000 < 65536 := by omega
    simp [inRom, h]
  rw [readByte, if_neg (by simp [hr]), hm]
  simp only [look]
  rw [if_neg (by omega), if_neg (by omega), if_neg (by omega), if_neg (by omega)]

/-- An entry of it is 0. -/
theorem root_entry (va : Nat) : readNat emptySpace (0x101000 + 8 * bits va 48 9) 8 = 0 := by
  have hb : bits va 48 9 < 512 := Nat.mod_lt _ (by decide)
  simp only [readNat, readBytes]
  rw [empty_table, empty_table, empty_table, empty_table, empty_table, empty_table, empty_table, empty_table]
  · rfl
  all_goals omega

/-- Every page of that address space is free. -/
theorem page_free (part : Nat) (hp : part < 4) (va : Nat) : virtualFree emptySpace part 5 va = true := by
  have hr : ∀ part < 4, rootOf emptySpace part 5 = 0x101000 := by decide +kernel
  have hp : ∀ part < 4, emptySpace.pubs = [] := by decide +kernel
  have hu : unmapped emptySpace va levels 0x101000 = true := by
    simp only [levels, unmapped, root_entry]
    rfl
  rw [virtualFree, hr part ‹_›, hu, pubAt, hp part ‹_›]
  rfl

/-- A section of it that lies below 2^57, apart from others, is free. -/
theorem span_free {part : Nat} (hp : part < 4) {used : List Span} {x : Span} (h : x.base + 4096 * x.pages ≤ 2 ^ 57)
    (hu : used.all x.apart = true) : spanFree emptySpace part 5 used x = true := by
  have h0 : ((List.range x.pages).all fun i => virtualFree emptySpace part 5 (x.base + 4096 * i)) = true :=
    List.all_eq_true.mpr fun _ _ => page_free part hp _
  rw [spanFree, hu, h0, decide_eq_true h]
  rfl

/-- There is room in it for a page, and for a section of no bytes beside any other. -/
theorem room_found {part : Nat} (hp : part < 4) {used : List Span} {align m : Nat} (start : Nat) (hm : m ≤ 4096)
    (ha : Nat.lcm 4096 (max 1 align) = 4096) (hu : m = 0 ∨ used = []) :
    ∃ x, roomFor emptySpace part 5 used align m start = some x := by
  cases h : roomFor emptySpace part 5 used align m start with
  | some x => exact ⟨x, rfl⟩
  | none =>
    have h0 := roomFor_none h 0 (by rw [ha]; omega)
    rw [ha, span_free hp (x := ⟨4096 * 0, (m + 4095) / 4096⟩) (by simp only [Nat.mul_zero]; omega)
      (by rcases hu with rfl | rfl <;> simp [Span.apart])] at h0
    cases h0

/-- MailboxEvents: text that has its place, in a partition with storage for it and in one without, and text longer than the
address space, which has none. -/
theorem test_layout_states (part : Nat) (hp : part < 4) (n : Nat) (hn : n ≤ 4096) :
    (∃ y, layoutOf emptySpace part 5 0x200000 (textOnly n) = some y) ∧
    layoutOf emptySpace part 5 0x200000 (textOnly (2 ^ 58)) = none := by
  constructor
  · obtain ⟨t, ht⟩ := room_found hp (used := []) (align := 4096) (m := (textOnly n).textsz)
      (Config.textBase 0x200000 emptySpace.loads) hn (by decide) (.inr rfl)
    obtain ⟨d, hd⟩ := room_found hp (used := [t]) (align := (textOnly n).align) (m := (textOnly n).datasz)
      (Config.dataBase 0x200000 emptySpace.loads) (Nat.zero_le _)
      (show Nat.lcm 4096 (max 1 0) = 4096 by decide) (.inl rfl)
    obtain ⟨c, hc⟩ := room_found hp (used := [t, d]) (align := 4096) (m := 16 * (textOnly n).nlaunch)
      (Config.treeCells 0x200000 emptySpace.loads) (Nat.zero_le _) (by decide) (.inl rfl)
    exact ⟨⟨t, d, c⟩, by rw [layoutOf, ht]; dsimp only; rw [hd]; dsimp only; rw [hc]; rfl⟩
  · have h : roomFor emptySpace part 5 [] 4096 (textOnly (2 ^ 58)).textsz (Config.textBase 0x200000 emptySpace.loads) = none := by
      cases h : roomFor emptySpace part 5 [] 4096 (textOnly (2 ^ 58)).textsz (Config.textBase 0x200000 emptySpace.loads) with
      | none => rfl
      | some x =>
        obtain ⟨hs, -, -, hx⟩ := roomFor_some h
        have h1 : ¬ x.base + 4096 * x.pages ≤ 2 ^ 57 := by
          rw [hx, show (textOnly (2 ^ 58)).textsz = 2 ^ 58 from rfl]
          omega
        rw [spanFree, decide_eq_false h1] at hs
        cases hs
    rw [layoutOf, h]

/-- A partition without a die has no page to give. -/
theorem no_page (start : Nat) : takePage emptySpace 1 start = none := by
  have h : partDies emptySpace 1 = [] := by decide +kernel
  rw [takePage, h]
  rfl

/-- MailboxEvents: the pages of an object without text are placed; a page of text has no storage in a partition without
a die. -/
theorem test_place_object (y : Layout) (out : List Byte) :
    (y.text.pages = 0 → y.data.pages = 0 → y.cells.pages = 0 →
      placeObject emptySpace 0 5 y (textOnly 0) out = some emptySpace) ∧
    (y.text.pages = 1 → placeObject emptySpace 1 5 y (textOnly 1) out = none) := by
  constructor
  · intro h1 h2 h3
    simp [placeObject, placeSpan, h1, h2, h3, placePages]
  · intro h
    have hr : rootOf emptySpace 1 5 = 0x101000 := by decide +kernel
    simp only [placeObject, placeSpan, h, List.range_one, List.map_cons, List.map_nil, placePages, hr, levels, mapPage, root_entry, no_page]
    rfl

/-- BringUpEvents: a main image that is accepted, one of a security version below the counter, and the start of one
in a vault. The modulus, the hashes and the signature were made outside the model by the algorithms' standards. -/
theorem test_stage_states :
    let s (b : Boot) (body : Byte) : State := { opened with boot := { b with main := signedHead ++ [body], romovl := 0 } }
    (stageBytes (s signedBoot 1) 4 0 0x400).length = 0x400 ∧ stageRefused (s signedBoot 1) 4 = none ∧
    stageRefused (s { signedBoot with secver := 4 } 1) 4 = some 2 ∧
    (stageBytes opened 2 0 0x400).length = 0x400 ∧ opened.c.core < 96 := by decide +kernel

/-! ### Witnesses: edges of a format, order of checks, and uncorrectable words that the hardware reads -/

/-- BitFieldsAndSubElements: 464 lies midway between 448 and 480 and rounds to 448, with NX alone; a greater magnitude
overflows, saturated or not (R85). -/
theorem test_e4m3_midway :
    toE4m3 true (.num true 29 4) = ⟨0xFE, 1⟩ ∧ toE4m3 false (.num false 29 4) = ⟨0x7E, 1⟩ ∧
    toE4m3 true (.num true 465 0) = ⟨0xFE, 5⟩ ∧ toE4m3 false (.num false 465 0) = ⟨0x7F, 5⟩ ∧
    toE4m3 false (.num false 7 6) = ⟨0x7E, 0⟩ := by decide +kernel

/-- LaneConversionAndCrossLaneWords, CollectiveWords: a signalling NaN that meets no operation is written as the canonical
one, and sets NV (R81, R340). -/
theorem test_lone_nan :
    (let s : State := { opened with c := { opened.c with xsub := 1, act := 1 }, g := setV opened.g 0 2 0x7F800001FF800001 }
     gate (.redl 2 1 2 8 0) s = none ∧ reg (after (.redl 2 1 2 8 0) s) 0 1 = 0x7FC000007FC00000 ∧
       (after (.redl 2 1 2 8 0) s).c.xstat = 16) ∧
    credWritten 10 0x7F81 = 0x7FC0 ∧ credWritten 6 0x7F81 = 0x7F81 := by decide +kernel

/-- ChecksBeforeEffect: a target that is misaligned comes before the clause that is not open; one that is outstanding is
left to HAZARD, and so is the scalar of an `MPICK` (R15, R42; log 68). -/
theorem test_check_order :
    (let s : State := { last with c := { setS last.c 1 6 with left := 0 } }
     (gate (.jr 1) s).map (·.cause) = some .align ∧ (gate (.jr 3) s).map (·.cause) = some .clauseForm) ∧
    (let s : State := { last with c := { setS last.c 1 6 with outm := [⟨.s 1, 0⟩] } }
     targetFault (.jr 1) s = none ∧ (gate (.jr 1) s).map (·.cause) = some .hazard ∧
       (gate (.mpick 1 1 1) s).map (·.cause) = some .hazard ∧ gate (.mpick 1 1 2) s = none) := by decide +kernel

/-- ReturnFromTrap: the block that a PBLK_FORM at a header saves with a span of 0 is restored (R292, R293). -/
theorem test_block_without_span :
    clausefBad (15 * 2 ^ 6 + 15 * 2 ^ 10 + 2 ^ 22 + 3 * 2 ^ 26) = false ∧
    clausefBad (2 + 15 * 2 ^ 6 + 15 * 2 ^ 10 + 2 ^ 22 + 3 * 2 ^ 26) = true := by decide +kernel

/-- TrapEntryAsR288: a crew without a handler, whose record names the check and the record that was refused (R296). -/
theorem test_refused_halt :
    let t : TrapReq := ⟨.spawnRefused, 4, 0x210000, 9, false, 0⟩
    let s : State := { opened with boot := { opened.boot with ftvec := Vector.replicate 4 0 } }
    s.c.bank = false ∧ drained (drain s) = true ∧ handlerOf (drain s) = 0 ∧ t.recordDetail = 9 ∧
    t.recordObj = 0x210000 ∧ (takeTrap s t).c.status = .halted := by decide +kernel

/-- FlagsRetireAsWorkLands: a result that met a parity error on its way. -/
theorem test_lost_landing :
    let l : Landing := ⟨0, .lost 3 2 0x100000 8, 0⟩
    (landResult opened l).c.deferred.length = 1 ∧ (landResult opened l).g.v = opened.g.v := by decide +kernel

/-- FencesAndQueuedReductions, AtomicsAtTheHomeSlice, TagAndPublishWords: a contribution that a `FENCE.A` or a `FENCE.R`
follows, which holds a later load or a later write; and a store that waits for one (R219; log 82). -/
theorem test_fenced :
    let s (a r : Bool) : State := { aimed with c := { aimed.c with redq := [{ pending 0 with obj := 0x180000, fenceA := a, fenceR := r }] } }
    (after (.lds 3 0 1 4 0) (s true false)).c.status = .held ∧ (after (.lds 3 0 1 4 0) (s false true)).c.land.length = 1 ∧
    (after (.atoms 0 1 4 0 1 0) (s false true)).c.status = .held ∧
    (let t := after (.sts 3 1 1 4 0) (s false true)
     (t.c.stores.map (·.awaits)) = [[(pending 0).key]] ∧ storesStay t 0x100000 8 = true ∧
       (after (.atoms 0 1 4 0 1 0) t).c.status = .held) := by decide +kernel

/-- ReductionsByIndex: two contributions that lie too far ahead wait at their slice, and a store to NEXT has the first that
came answered before the second (R200, R221; log 82). -/
theorem test_retried :
    let x (k : Nat) : Contribution := { pending 70 with thread := k, seen := some k, value := if k = 1 then 0x3FF0000000000000 else 0x4000000000000000 }
    let s : State := { aimed with c := { aimed.c with redq := [x 2, x 1] } }
    (firstSeen (unblocked (registerWrite s 0x100008 (toBytes 8 70)))).map (·.2.thread) = some 1 ∧
    (let t := performGlobal s 0x100008 (toBytes 8 70)
     readNat t 0x100000 8 = 0x3FF0000000000000 ∧ readNat t 0x100008 8 = 71 ∧ t.c.redq = []) := by decide +kernel

/-- StepRunsDecodedWord, HoistWords: row scales with a single-bit error, which an `MMA` corrects, and a follow-on when it is
posted (R72, R88). -/
theorem test_scale_errors :
    let s : State := { scaling with g := { scaling.g with soft := [(128 * 5 + 1, 6), (128 * 5 + 2, 6)] } }
    (correctRead (.mma 3 8 0 0) s).g.soft = [(128 * 5 + 2, 6)] ∧ (correctRead (.mma 3 8 0 0) s).corrected[0] = 1 ∧
    (s.correct s.g (isRow 1)).g.soft = [(128 * 5 + 2, 6)] ∧
    (let img : List Byte := toBytes 8 (2 ^ 15 + 2 ^ 16 + 2 ^ 32 + 2 ^ 54) ++ List.replicate 56 0
     let f : Follow := ⟨0x120000, img, 0x100000, 0, none⟩
     let h : HoistCmd := { copying with flight := [], follow := some f }
     let u (bad : List Nat) : State := { s with g := { s.g with bad := bad }, hoist := [h] }
     (finishHoist (u []) h).g.soft = [(128 * 5 + 2, 6)] ∧ ((finishHoist (u []) h).scales.map (·.vals.length)) = [128] ∧
       bit (readNat (finishHoist (u []) h) 0x110008 8) 15 = true ∧
       (finishHoist (u [128 * 5 + 1]) h).scales = [] ∧ bits (readNat (finishHoist (u [128 * 5 + 1]) h) 0x110008 8) 0 4 = 7 ∧
       (finishHoist (u [128 * 5 + 1]) h).hoist = []) := by decide +kernel

/-- HoistWords, MatrixWords: a ring whose control block holds an uncorrectable word, for a word, for a step that waits, and
for the engine (R304; log 40); and a slot with a reserved header bit, which fails the tag named in it (R277). -/
theorem test_ring_errors :
    let s : State := { ringed with poison := [0x20000], boot := { ringed.boot with ftvec := Vector.replicate 4 0 } }
    let e : RingEntry := ⟨0, 0, 0x100000, 0, false⟩
    ringSpoiled s (clientOf s 0) 0x100000 = true ∧ s.c.ring = some 0x100000 ∧
    (after (.mfence 3 0) s).c.status = .halted ∧ (takeFollow { s with hoist := [copying] } copying 0x120000 []).hoist = [] ∧
    ((ringOf s (clientOf s 0) 0x100000).map fun x => x.2.isNone) = some true ∧ ((lookAtRing s e).rings.map (·.broken)) = [true] ∧
    (let t : State := writeNat (after (.mzero 3 8 0) ringed) 0x110000 1 1
     tagCount (lookAtRing t e).c 3 = 0 ∧ (lookAtRing t e).c.tagfail = 8) := by decide +kernel

/-- Whether an enqueue meets an uncorrectable word. -/
def enqSpoiled : Enqueued → Option Word
  | .spoiled a => some a
  | _ => none

/-- TaskWords, SchedulingEvents: cells that hold an uncorrectable word, for each word, for an enqueue and for a completion
(R304; log 98). -/
theorem test_cell_errors :
    let s : State := { tasking 0xFFFF 1 with poison := [0x44002], boot := { (tasking 0xFFFF 1).boot with ftvec := Vector.replicate 4 0 } }
    let z : State := { s with c := setS s.c 5 0x220010 }
    (∀ i ∈ [Instr.joindec 5, .depdec 5, .barc 5 6], (after i z).c.status = .halted ∧ gate i z = none) ∧
    (let t := memWith (tasking 0xFFFF 1) [(0x210018, 8, 0), (0x210030, 8, 0x220010)]
     enqSpoiled (taskEnqueue { t with poison := [0x44002] } .spawn 0x210000) = some 0x220010) ∧
    (let r : Record := { queued with tree := 0x220010 }
     enqueueSpoiled s r = some 0x220010 ∧ enqueueSpoiled (tasking 0xFFFF 1) r = none) ∧
    (let t := completeRecord s s.g { queued with join := 0x220010 }
     t.errcnt = s.errcnt + 1 ∧ t.poison = s.poison) ∧
    (let t := completeRecord s s.g { queued with succ := 0x220010 }
     t.errcnt = s.errcnt + 1) := by decide +kernel

/-- CollectiveWords: a word whose descriptor an unanswered reduction meets (R192). -/
theorem test_collective_waits :
    let s : State := { grouped with c := { grouped.c with redq := [{ pending 0 with obj := 0x140010 }] } }
    gate (.cred 3 8 0 0 0) s = none ∧ (groupFault s (collOp s 0 0 0 8)).isNone = true ∧
    (after (.cred 3 8 0 0 0) s).c.status = .held := by decide +kernel

/-- HostEvents, MailboxEvents: slots and records with an uncorrectable word (R304; log 98). -/
theorem test_host_errors :
    (let s : State := { hosted 0 5 1 0 with poison := [0x48201] }
     headSlot s = some .full ∧ ((hostRing s 0 (fnOf s 0) 0x240000).map fun x => slotSpoiled s 0 (fnOf s 0) x.2 0) = some true ∧
       (queueOf (after (.hostQueueConsume 0 2) s) 0 2).cons = 1 ∧ (after (.hostQueueConsume 0 2) s).records = []) ∧
    (let s : State := { hosted 0 5 0 0 with poison := [0x4A201] }
     (mailOf s).isNone = true ∧ (after (.mailboxStrict 0) s).strict = 15 ∧ readNat (after (.mailboxStrict 0) s) 0x250018 4 = 1 ∧
       readNat (after (.mailboxStrict 0) s) 0x260010 4 = 0) := by decide +kernel

/-- NoneWaits: no contribution waits at its slice in the states of these witnesses. -/
theorem test_none_waits :
    ∀ s ∈ [opened, tasking 0xFFFF 1, placed small, hosted 0 5 1 0, member 0 3 50 100, hoisting, ringed], ∀ c ∈ s.allCrews, c.redq = [] := by
  decide +kernel

end Sys2Proof.Tests
end

section
/-!
PROOFS. Memory and vaults, and a crew's own view of them (R1, R19, R362). The laws of the stored maps and of a written
byte stand in the support; here are the numbers read back, and the bytes that a crew's pending stores give it.
-/

namespace Sys2Proof.Proofs

open Sys2Proof Sys2Proof.Machine

/-! ### Runs of bytes -/

/-- Two runs of bytes of one length are equal if they agree at every place; stated with `getD`, as the model reads them. -/
theorem bytes_ext {l m : List Byte} (hl : l.length = m.length) (h : ∀ k, k < l.length → l.getD k 0 = m.getD k 0) : l = m := by
  refine List.ext_getElem hl fun k hk hk' => ?_
  simpa only [List.getD_eq_getElem _ _ hk, List.getD_eq_getElem _ _ hk'] using h k hk

/-- Bytes written outside the mask ROM overlay are read back. -/
theorem readBytes_writeBytes_same (s : State) (pa : Nat) (bs : List Byte)
    (hrom : ∀ k, k < bs.length → inRom s (pa + k) = false) : readBytes (writeBytes s pa bs) pa bs.length = bs := by
  refine bytes_ext (readBytes_length ..) fun k hk => ?_
  rw [readBytes_length] at hk
  rw [readBytes_getD _ _ _ _ hk, readByte_writeBytes, if_pos ⟨by omega, by omega, hrom k hk⟩, Nat.add_sub_cancel_left]

/-- A number written outside the mask ROM overlay is read back, as far as its bytes reach. -/
theorem readNat_writeNat_same (s : State) (pa n x : Nat) (hrom : ∀ k, k < n → inRom s (pa + k) = false) :
    readNat (writeNat s pa n x) pa n = x % 2 ^ (8 * n) := by
  have h := readBytes_writeBytes_same s pa (toBytes n x) (by simpa using hrom)
  rw [toBytes_length] at h
  rw [readNat, writeNat, h, ofBytes_toBytes]

/-- Byte `k` of a number in memory lies `k` places above its lowest byte (R1). -/
theorem bits_readNat (s : State) (pa n k : Nat) (hk : k < n) :
    bits (readNat s pa n) (8 * k) 8 = (readByte s (pa + k)).toNat := by
  rw [readNat, bits_ofBytes _ k (by simpa using hk), readBytes_getD _ _ _ _ hk]

/-! ### The crew's own view of memory -/

/-- A crew with no pending store is given no byte. -/
@[simp] theorem pendingByte_nil (vault : Bool) (a : Nat) : pendingByte [] vault a = none := rfl

/-- The youngest pending store, if it is one write, gives the bytes it covers; the others come from the older stores. -/
theorem pendingByte_youngest {l : List PStore} {q : PStore} {w : WriteAcc} (hq : q.writes = [w]) (vault : Bool) (a : Nat) :
    pendingByte (l ++ [q]) vault a =
      if w.vault = vault ∧ w.addr ≤ a ∧ a < w.addr + w.bytes.length then some (w.bytes.getD (a - w.addr) 0)
      else pendingByte l vault a := by
  simp [pendingByte, hq, List.foldl_append, and_assoc]

@[simp] theorem ownBytes_length (s : State) (vault : Bool) (a n : Nat) : (ownBytes s vault a n).length = n := by
  induction n generalizing a with
  | zero => rfl
  | succ n ih => simp [ownBytes, ih]

/-- A byte of global memory as the crew in focus reads it: what stands there under the mask ROM overlay, else what the
crew's own pending stores give, else what stands there. -/
theorem ownBytes_getD (s : State) (n : Nat) : ∀ a k, k < n → (ownBytes s false a n).getD k 0 =
    if inRom s (a + k) = true then readByte s (a + k)
    else (pendingByte s.c.stores false (a + k)).getD (readByte s (a + k)) := by
  induction n with
  | zero => intro a k h; omega
  | succ n ih =>
    intro a k h
    cases k with
    | zero =>
      rw [ownBytes, List.getD_cons_zero, Nat.add_zero]
      by_cases hr : inRom s a = true
      · simp [hr]
      · cases pendingByte s.c.stores false a <;> simp [hr]
    | succ k => rw [ownBytes, List.getD_cons_succ, ih _ _ (by omega), show a + 1 + k = a + (k + 1) by omega]

/-- Where each byte lies under the mask ROM overlay or is given by no pending store, a crew reads what stands there. -/
theorem ownNat_eq_readNat {s : State} {pa n : Nat}
    (h : ∀ k, k < n → inRom s (pa + k) = true ∨ pendingByte s.c.stores false (pa + k) = none) :
    ownNat s false pa n = readNat s pa n := by
  have hb : ownBytes s false pa n = readBytes s pa n := by
    refine bytes_ext (by simp) fun k hk => ?_
    rw [ownBytes_length] at hk
    rw [ownBytes_getD _ _ _ _ hk, readBytes_getD _ _ _ _ hk]
    rcases h k hk with hr | hp
    · rw [if_pos hr]
    · rw [hp, Option.getD_none, ite_self]
  rw [ownNat, readNat, hb]

/-- Outside the mask ROM overlay, a crew whose youngest pending store is the write of a number reads that number. -/
theorem ownNat_youngest {s : State} {l : List PStore} {q : PStore} {home pa n x : Nat} (hs : s.c.stores = l ++ [q])
    (hq : q.writes = [⟨false, home, pa, toBytes n x⟩]) (hrom : ∀ k, k < n → inRom s (pa + k) = false) :
    ownNat s false pa n = x % 2 ^ (8 * n) := by
  have hb : ownBytes s false pa n = toBytes n x := by
    refine bytes_ext (by simp) fun k hk => ?_
    rw [ownBytes_length] at hk
    have hp : pendingByte s.c.stores false (pa + k) = some ((toBytes n x).getD k 0) := by
      rw [hs, pendingByte_youngest hq, if_pos ⟨rfl, Nat.le_add_right .., by simpa using hk⟩, Nat.add_sub_cancel_left]
    rw [ownBytes_getD _ _ _ _ hk, if_neg (by simp [hrom k hk]), hp, Option.getD_some]
  rw [ownNat, hb, ofBytes_toBytes]

/-- Settles O34: the laws of a written byte, and the bytes that the pending stores give, place by place. -/
theorem memoryReadAfterWrite : Obligations.MemoryReadAfterWrite := by
  unfold Obligations.MemoryReadAfterWrite
  refine ⟨fun s pa a bs => ?bytes, readNat_writeNat_same, bits_readNat, fun s pa n hs => ?noStore,
    fun s l q home pa n x hs hq => ?youngest⟩
  case bytes =>
    exact ⟨readByte_writeBytes bs s pa a, writeBytes_mem bs s pa, writeBytes_wf bs s pa,
      readVault_writeVault bs s pa a, writeVault_vault bs s pa, writeVault_tidy bs s pa⟩
  case noStore => exact ownNat_eq_readNat fun k _ => .inr (by rw [hs, pendingByte_nil])
  case youngest =>
    exact ⟨ownNat_youngest hs hq, fun hrom => ownNat_eq_readNat fun k hk => .inl (hrom k hk)⟩

end Sys2Proof.Proofs
end

section
/-!
PROOFS. The registers of a crew and of its gallery, the jumps to a register, and the clause header (R8 to R15, R43, R54,
R62). What each check of a word answers stands as a lemma of its own, for every word.
-/

namespace Sys2Proof.Proofs
open Sys2Proof Sys2Proof.Machine

set_option Elab.async false

/-! ### The outcome of a word -/

/-- A word that passes the checks of R42 completes with its effect. -/
theorem completes_of_ready {i : Instr} {s : State} {f : State → State} {P : State → Prop}
    (arm : exec i s = issue i s f) (hr : Ready i s) (h : P (f s)) : Completes i s P :=
  ⟨f s, arm.trans (issue_ready hr f), h⟩

/-- A word that a check of R42 stops takes its trap, with no effect of its own. -/
theorem exec_trap {i : Instr} {s : State} {f : State → State} {t : TrapReq}
    (arm : exec i s = issue i s f) (h : gate i s = some t) : exec i s = .next (takeTrap s t) :=
  arm.trans (issue_trap h f)

/-! ### Registers -/

/-- A write of `s0` is discarded (R43). -/
theorem setS_s0 (c : Crew) (x : Word) : setS c 0 x = c := rfl

/-- Thread and register of a place in the map of thread registers (R62). -/
theorem threadKey_inj {t u : Nat} {r q : BitVec 7} (h : 128 * u + q.toNat = 128 * t + r.toNat) : u = t ∧ q = r := by
  have hr := r.isLt
  have hq := q.isLt
  exact ⟨by omega, BitVec.eq_of_toNat_eq (by omega)⟩

/-- A thread register reads what was written last. -/
theorem getV_setV_same (g : Gallery) (t r : Nat) (x : Word) : getV (setV g t r x) t r = x := by
  simp [getV, setV]

/-- The write of a thread register leaves every other register as it was. -/
theorem getV_setV_other (g : Gallery) {t u : Nat} {r q : BitVec 7} (x : Word) (h : ¬ (u = t ∧ q = r)) :
    getV (setV g t r.toNat x) u q.toNat = getV g u q.toNat := by
  have hk : 128 * u + q.toNat ≠ 128 * t + r.toNat := fun e => h (threadKey_inj e)
  simp [getV, setV, hk]

/-- Settles O13: the laws of a written scalar, and of a written thread register. -/
theorem registersReadAfterWrite : Obligations.RegistersReadAfterWrite := by
  unfold Obligations.RegistersReadAfterWrite
  refine ⟨fun c d x => ?scalar, fun g t r x => ⟨getV_setV_same g t r.toNat x, fun u q h => getV_setV_other g x h⟩⟩
  case scalar =>
    have w := scalarWritten_setS c d x
    exact ⟨w.dest, setS_s0 c x, w.others, setS_bank c d x, w.bank⟩

/-! ### Jumps to a register -/

/-- The target of a jump can be looked at: it is neither outstanding nor uncorrectable (R15, R304). -/
def TargetSeen (s : State) (a : BitVec 6) : Prop := (∀ m ∈ s.c.outm, m.reg ≠ .s a) ∧ .s a ∉ s.c.bad

/-- The check of a target that cannot be looked at, or that is in order, raises nothing. -/
theorem targetFault_of_fits {i : Instr} {s : State} {a : BitVec 6} (hi : targetReg i = some a)
    (h : ¬ TargetSeen s a ∨ ((getS s.c a).toNat % 4 = 0 ∧ (getS s.c a).toNat < 2 ^ 57)) : targetFault i s = none := by
  simp only [targetFault, hi]
  split
  · rfl
  · next hs =>
    have seen : TargetSeen s a := by simpa [TargetSeen] using hs
    obtain ⟨h4, hlt⟩ := h.resolve_left (not_not_intro seen)
    rw [if_neg (by simpa using h4), if_neg (by omega)]

/-- The check of a target that can be looked at. -/
theorem targetFault_of_seen {i : Instr} {s : State} {a : BitVec 6} (hi : targetReg i = some a) (h : TargetSeen s a) :
    targetFault i s = if (getS s.c a).toNat % 4 ≠ 0 then some (trapHere s .align (getS s.c a) 0)
      else if 2 ^ 57 ≤ (getS s.c a).toNat then some (trapHere s .xlate (getS s.c a) 0) else none := by
  simp only [targetFault, hi]
  rw [if_neg]
  simpa [TargetSeen] using h

/-- A target that is not 4-aligned raises ALIGN, before every other check of its word (R42, R54). -/
theorem gate_target_align {i : Instr} {s : State} {a : BitVec 6} (hi : targetReg i = some a) (h : TargetSeen s a)
    (h4 : (getS s.c a).toNat % 4 ≠ 0) : gate i s = some (trapHere s .align (getS s.c a) 0) := by
  rw [gate, targetFault_of_seen hi h, if_pos h4, Option.some_or]

/-- A target beyond the address space raises XLATE, before every other check of its word (R42, R54). -/
theorem gate_target_xlate {i : Instr} {s : State} {a : BitVec 6} (hi : targetReg i = some a) (h : TargetSeen s a)
    (h4 : (getS s.c a).toNat % 4 = 0) (hx : 2 ^ 57 ≤ (getS s.c a).toNat) :
    gate i s = some (trapHere s .xlate (getS s.c a) 0) := by
  rw [gate, targetFault_of_seen hi h, if_neg (not_not_intro h4), if_pos hx, Option.some_or]

/-- A jump to a register that is ready, and whose target can be looked at, has a target in order. -/
theorem target_of_ready {i : Instr} {s : State} {a : BitVec 6} (hi : targetReg i = some a) (h : TargetSeen s a)
    (hr : Ready i s) : (getS s.c a).toNat % 4 = 0 ∧ (getS s.c a).toNat < 2 ^ 57 := by
  have hn : targetFault i s = none := (Option.or_eq_none_iff.mp hr).1
  rw [targetFault_of_seen hi h] at hn
  split at hn
  · cases hn
  · split at hn
    · cases hn
    · omega

theorem exec_jr (a : BitVec 6) (s : State) : exec (.jr a) s = issue (.jr a) s fun s => jump s (getS s.c a) := rfl
theorem exec_callr (a : BitVec 6) (s : State) :
    exec (.callr a) s = issue (.callr a) s fun s => jump (link s) (getS s.c a) := rfl
theorem exec_ret (s : State) : exec .ret s = issue .ret s fun s => jump s (getS s.c 63) := rfl

/-- A call's link written, and then its jump. -/
theorem jumpEffect_link (s : State) (a : Word) : JumpEffect s (jump (link s) a) a (setS s.c 63 (s.c.pc + 4)) := by
  refine ⟨?_, ?_, rfl⟩
  · simp [CountsKept, jump, link, retire]
  · simp [jump, link, retire]

/-- The jumps to a register, each with the register that holds its target. -/
theorem registerJump_targetReg {a : BitVec 6} {p : Instr × BitVec 6}
    (hp : p ∈ [(Instr.jr a, a), (.callr a, a), (.ret, 63)]) : targetReg p.1 = some p.2 := by
  simp only [List.mem_cons, List.not_mem_nil, or_false] at hp
  rcases hp with rfl | rfl | rfl <;> rfl

/-- A jump to a register that a check stops takes its trap. -/
theorem exec_registerJump_trap {s : State} {t : TrapReq} {a : BitVec 6} {p : Instr × BitVec 6}
    (hp : p ∈ [(Instr.jr a, a), (.callr a, a), (.ret, 63)]) (h : gate p.1 s = some t) :
    exec p.1 s = .next (takeTrap s t) := by
  simp only [List.mem_cons, List.not_mem_nil, or_false] at hp
  rcases hp with rfl | rfl | rfl
  · exact exec_trap (exec_jr a s) h
  · exact exec_trap (exec_callr a s) h
  · exact exec_trap (exec_ret s) h

/-- Settles O20: the effect of a jump whose target is in order, and the trap of one whose target is not. -/
theorem registerJumpsGoToTheirTarget : Obligations.RegisterJumpsGoToTheirTarget := by
  unfold Obligations.RegisterJumpsGoToTheirTarget
  refine ⟨fun s a => ⟨fun h => ?jr, fun h => ?callr, fun h => ?ret⟩, fun s a p hp hm hb => ?target⟩
  case jr => exact completes_of_ready (exec_jr a s) h (jumpEffect_jump s _)
  case callr => exact completes_of_ready (exec_callr a s) h (jumpEffect_link s _)
  case ret => exact completes_of_ready (exec_ret s) h (jumpEffect_jump s _)
  case target =>
    have hi := registerJump_targetReg hp
    exact ⟨fun h4 => exec_registerJump_trap hp (gate_target_align hi ⟨hm, hb⟩ h4),
      fun h4 hx => exec_registerJump_trap hp (gate_target_xlate hi ⟨hm, hb⟩ h4 hx),
      target_of_ready hi ⟨hm, hb⟩⟩

/-! ### The clause header -/

/-- A header waits where a wait flag is not clear, or a flag that it sets has no room (R12). -/
theorem stalls_iff (c : Crew) (w : BitVec 12) (a b : BitVec 4) : (waiting c w || flagsFull c a b) = true ↔
    ((∃ f, f < 12 ∧ w.getLsbD f = true ∧ flagCount c f ≠ 0) ∨ (a ≠ 15 ∧ flagCount c a.toNat = 15) ∨
      (b ≠ 15 ∧ flagCount c b.toNat + (if a = b then 1 else 0) = 15)) := by
  simp [waiting, flagsFull]

/-- The counts of the flags of a clause that opens: each flag that it sets rises by one (R12). -/
theorem flagCount_openClause (c : Crew) (w : BitVec 12) (a b : BitVec 4) (l : BitVec 5) (f : Nat) :
    flagCount (openClause c w a b l) f =
      flagCount c f + (if a ≠ 15 ∧ a.toNat = f then 1 else 0) + (if b ≠ 15 ∧ b.toNat = f then 1 else 0) := by
  have one (n : Nat) (x : BitVec 4) (isB : Bool) :
      ((if x = 15 then ([] : List FlagInc) else [⟨n, x.toNat, isB⟩]).filter (·.flag == f)).length =
        if x ≠ 15 ∧ x.toNat = f then 1 else 0 := by
    by_cases hx : x = 15
    · rw [if_pos hx, if_neg (by simp [hx])]; rfl
    · by_cases hf : x.toNat = f
      · rw [if_neg hx, if_pos ⟨hx, hf⟩]; simp [hf]
      · rw [if_neg hx, if_neg (by simp [hf])]; simp [hf]
  simp only [flagCount, openClause, List.filter_append, List.length_append, one]

/-- A crew with one duplicate noted and nothing still to be answered has it as its deferred trap (R224). -/
theorem settleDups_one {s : State} {d : DupNote} (hq : s.c.redq = []) (hd : s.c.dups = [d]) (hs : s.c.status ≠ .exited) :
    settleDups s = { s with c := { s.c with dups := [], deferred := s.c.deferred ++
      [⟨.seqDup, 0, d.va, w64 (2 ^ 63 + d.word.toNat % 2 ^ 57), true, 0⟩] } } := by
  simp [settleDups, hq, hd, hs]

/-- What a header does that is ready and has no deferred trap to raise: it waits, or opens its clause (R12). -/
theorem exec_clause {s : State} {w : BitVec 12} {a b : BitVec 4} {l : BitVec 5} (hr : Ready (.clause w a b l) s)
    (hd : s.c.deferred = []) : exec (.clause w a b l) s =
      .next (if waiting s.c w || flagsFull s.c a b then hold s else { s with c := openClause s.c w a b l }) := by
  change execClause w a b l s = _
  rw [execClause, issue_ready hr, hd]

/-- A header with a deferred trap raises it before it takes effect (R224, R304). -/
theorem exec_clause_deferred {s : State} {w : BitVec 12} {a b : BitVec 4} {l : BitVec 5} {x : TrapReq}
    {rest : List TrapReq} (hr : Ready (.clause w a b l) s) (hd : s.c.deferred = x :: rest) :
    exec (.clause w a b l) s = .next (raiseDeferred s x rest) := by
  change execClause w a b l s = _
  rw [execClause, issue_ready hr, hd]

/-- Settles O21: a header with its flags clear opens its clause, one without waits, and a deferred trap comes first. -/
theorem headerOpensItsClause : Obligations.HeaderOpensItsClause := by
  unfold Obligations.HeaderOpensItsClause
  refine ⟨fun s w a b l hr hd hw ha hb => ?opens, fun s w a b l hr hd h => ?waits,
    fun s w a b l x rest hr hd => exec_clause_deferred hr hd, fun s addr thread reg => ?ecc, fun s d => settleDups_one⟩
  case opens =>
    have go : ¬ (waiting s.c w || flagsFull s.c a b) = true := by
      rw [stalls_iff]
      rintro (⟨f, hf, hwf, h0⟩ | ⟨h15, h⟩ | ⟨h15, h⟩)
      · exact h0 (hw f hf hwf)
      · exact ha h15 h
      · exact hb h15 h
    refine ⟨_, (exec_clause hr hd).trans (by rw [if_neg go]), rfl, rfl, rfl, rfl, flagCount_openClause s.c w a b l, ?_, rfl⟩
    simp [openClause]
  case waits => exact ⟨_, (exec_clause hr hd).trans (by rw [if_pos ((stalls_iff s.c w a b).2 h)]), waits_hold s⟩
  case ecc => exact ⟨fun h => by simp [deferEcc, deferEccAt, h], fun h => by simp [deferEcc, deferEccAt, h]⟩

end Sys2Proof.Proofs
end

section
/-!
PROOFS. The fences, the contributions that a `REDQ` queues, and the stores that are performed (R13, R18, R190, R192, R194,
R219, R222, R231): what each condition on the order of a crew's accesses comes to, and what one performed write leaves.
-/

namespace Sys2Proof.Proofs
open Sys2Proof Sys2Proof.Machine

set_option Elab.async false

/-! ### The crew in focus -/

/-- The crew in focus is put into focus: nothing is changed. -/
theorem focus_self {s : State} {uid : Nat} (h : s.c.uid = uid) : s.focus uid = s := by
  rw [State.focus, if_pos h]

/-- An operation on the crew in focus that leaves its name. -/
theorem inFocus_self {s : State} {f : State → State} (h : (f s).c.uid = s.c.uid) : inFocus s s.c.uid f = f s := by
  rw [inFocus, if_pos (by simp [State.allCrews]), focus_self rfl, focus_self h]

/-! ### What the order of a crew's accesses asks for (R192, R194, R219) -/

theorem redqMeets_eq_false (s : State) (pa n : Nat) : redqMeets s pa n = false ↔ Apart s pa n := by
  simp only [redqMeets, Apart, List.any_eq_false, Bool.and_eq_true, decide_eq_true_eq]
  exact forall₂_congr fun x _ => by omega

theorem fenced_eq_false (s : State) (need : Need) : fenced s need = false ↔ Unfenced s need.w := by
  simp [fenced, Unfenced, List.any_eq_false]

theorem storesStay_eq_false (s : State) (pa n : Nat) : storesStay s pa n = false ↔ StoresClear s pa n := by
  simp only [storesStay, StoresClear, List.any_eq_false, List.any_eq_true, not_exists, not_and, Bool.and_eq_true,
    decide_eq_true_eq, Bool.not_eq_true']
  refine forall₂_congr fun p _ => forall₂_congr fun w _ => ?_
  constructor
  · intro h hv
    by_contra hc
    exact h ⟨hv, by omega⟩ (by omega)
  · rintro h ⟨hv, h1⟩ h2
    have := h hv
    omega

/-! ### Lane accesses (R210) -/

theorem mem_laneThreads (s : State) (th : Nat) : th ∈ laneThreads s ↔ active s th := by
  simp [laneThreads, members, active]

/-- A lane access whose threads all pass their checks goes on with their places. -/
theorem laneAccess_ok {s : State} {addr : Nat → Nat} {check : Nat → Except Cause Place} {kind : Nat}
    {go : List (Nat × Nat × Place) → State} {pl : Nat → Place} (h : ∀ th, active s th → check (addr th) = .ok (pl th)) :
    laneAccess s addr check kind go = go ((laneThreads s).map fun t => (t, addr t, pl t)) := by
  have fails : ∀ ts : List Nat, (∀ t ∈ ts, check (addr t) = .ok (pl t)) →
      laneFails (ts.map fun t => (⟨t, addr t, check (addr t)⟩ : LaneAcc)) = [] := by
    intro ts hts
    simp only [laneFails, List.filterMap_eq_nil_iff, List.mem_map]
    rintro _ ⟨t, ht, rfl⟩
    simp [hts t ht]
  have places : ∀ ts : List Nat, (∀ t ∈ ts, check (addr t) = .ok (pl t)) →
      lanePlaces (ts.map fun t => (⟨t, addr t, check (addr t)⟩ : LaneAcc)) = ts.map fun t => (t, addr t, pl t) := by
    intro ts
    induction ts with
    | nil => intro _; rfl
    | cons t ts ih =>
      intro hts
      have rest := ih fun u hu => hts u (List.mem_cons_of_mem _ hu)
      simp only [lanePlaces, List.map_cons, List.filterMap_cons, hts t (List.mem_cons_self ..)] at rest ⊢
      rw [rest]
  have hl : ∀ t ∈ laneThreads s, check (addr t) = .ok (pl t) := fun t ht => h t ((mem_laneThreads s t).1 ht)
  simp only [laneAccess, fails _ hl, places _ hl]

/-- A lane access that has to wait for none of its threads goes on. -/
theorem laneUnless_go {s : State} {addr : Nat → Nat} {pl : Nat → Place} {n : Nat} {waits : State → Nat → Nat → Bool}
    {go : State} (h : ∀ th, active s th → waits s (pl th).pa n = false) :
    laneUnless s ((laneThreads s).map fun t => (t, addr t, pl t)) n waits go = go := by
  rw [laneUnless, if_neg]
  simp only [List.any_map, List.any_eq_true, not_exists, not_and, Bool.not_eq_true]
  exact fun th hth => h th ((mem_laneThreads s th).1 hth)

/-- A lane access that has to wait for some thread holds its crew. -/
theorem laneUnless_wait {s : State} {addr : Nat → Nat} {pl : Nat → Place} {n : Nat} {waits : State → Nat → Nat → Bool}
    {go : State} {th : Nat} (ha : active s th) (h : waits s (pl th).pa n = true) :
    laneUnless s ((laneThreads s).map fun t => (t, addr t, pl t)) n waits go = hold s := by
  rw [laneUnless, if_pos]
  simp only [List.any_map, List.any_eq_true]
  exact ⟨th, (mem_laneThreads s th).2 ha, h⟩

/-! ### Fences and queued reductions -/

theorem exec_fence (s : State) :
    exec .fence s = issue .fence s fun s => if s.c.stores = [] && !unsettled s then done s else hold s := rfl
theorem exec_fenceA (s : State) : exec .fenceA s = issue .fenceA s fun s =>
    done { s with c := { s.c with redq := s.c.redq.map fun x => { x with fenceA := true } } } := rfl
theorem exec_fenceR (s : State) : exec .fenceR s = issue .fenceR s fun s =>
    done { s with c := { s.c with redq := s.c.redq.map fun x => { x with fenceR := true } } } := rfl
theorem exec_ifence (s : State) : exec .ifence s = issue .ifence s fun s => done (performAll s) := rfl

/-- A fence goes on exactly where the crew has nothing pending (R219). -/
theorem fence_goes_iff (s : State) :
    (s.c.stores = [] && !unsettled s) = true ↔ s.c.stores = [] ∧ s.c.redq = [] := by
  simp [unsettled]

/-- The contribution that a `REDQ` queues for a thread (R222). -/
def queuedContribution (s : State) (w : BitVec 1) (d a b : BitVec 7) (pl : Nat → Place) (th : Nat) : Contribution :=
  { clause := s.c.clause, word := s.c.pc, thread := th, va := reg s th a, obj := (pl th).pa, home := (pl th).home
    index := reg s th b, value := (if w = 1 then reg s th d else (reg s th d) &&& 0xFFFFFFFF), f64 := w == 1
    reg := d.toNat, seen := none, fenceA := false, fenceR := false
    awaits := (s.c.redq.filter fun x => x.fenceA || x.fenceR).map fun x => (x.clause, x.word, x.thread) }

/-- The low 32 bits of a word. -/
theorem low32 (x : Word) : w64 (x.toNat % 2 ^ 32) = x &&& 0xFFFFFFFF := by
  apply BitVec.eq_of_toNat_eq
  have h := Nat.and_two_pow_sub_one_eq_mod x.toNat 32
  have hlt : x.toNat % 2 ^ 32 < 2 ^ 64 := by omega
  simp only [w64, BitVec.toNat_ofNat, BitVec.toNat_and, Nat.mod_eq_of_lt hlt]
  exact h.symm

theorem contributionOf_eq (s : State) (w : BitVec 1) (d a b : BitVec 7) (pl : Nat → Place) (th : Nat) :
    contributionOf s th (pl th) (reg s th a).toNat (reg s th b) (reg s th d) (w == 1) d.toNat =
      queuedContribution s w d a b pl th := by
  have va : w64 (reg s th a).toNat = reg s th a := BitVec.ofNat_toNat ..
  by_cases hw : w = 1
  · subst hw
    rw [contributionOf, va]
    rfl
  · simp only [contributionOf, queuedContribution, beq_eq_false_iff_ne.2 hw, va, low32, if_neg hw]
    rfl

/-- The access of a `REDQ` passes where its address does and is not host memory (R222). -/
theorem checkDevice_ok {s : State} {need : Need} {va align n : Nat} {p : Place}
    (h : checkGlobal s need va align n = .ok p) (hh : inHost p.pa = false) : checkDevice s need va align n = .ok p := by
  simp [checkDevice, h, hh]

/-- A `REDQ` that is ready, with the place of each thread: it waits where a store that stays meets an object of it, and
else queues its contributions after the crew's stores. -/
theorem exec_redq {s : State} {w : BitVec 1} {d a b : BitVec 7} {pl : Nat → Place} (hr : Ready (.redq w d a b) s)
    (hp : ∀ th, active s th → checkGlobal s needRW (reg s th a).toNat 16 16 = .ok (pl th) ∧ inHost (pl th).pa = false) :
    exec (.redq w d a b) s = .next (
      laneUnless s ((laneThreads s).map fun t => (t, (reg s t a).toNat, pl t)) 16 storesStay
        (done { performAll s with c := { (performAll s).c with
          redq := (performAll s).c.redq ++ (laneThreads s).map (queuedContribution s w d a b pl) } })) := by
  change execRedq w d a b s = _
  rw [execRedq, issue_ready hr]
  dsimp only
  rw [laneAccess_ok (addr := fun t => (reg s t a).toNat) (check := fun x => checkDevice s needRW x 16 16) (pl := pl)
    fun th ha => checkDevice_ok (hp th ha).1 (hp th ha).2]
  simp only [List.map_map, Function.comp_def, contributionOf_eq]

/-- Settles O41: what each fence asks for, and the contributions of a `REDQ`, thread by thread. -/
theorem fencesAndQueuedReductions : Obligations.FencesAndQueuedReductions := by
  unfold Obligations.FencesAndQueuedReductions
  refine ⟨fun s => ⟨fun hr hs hq => ?goes, fun hr h => ?stalls, fun hr => ?fenceA, fun hr => ?fenceR, fun hr => ?ifence⟩,
    fun s w d a b pl hr hp => ⟨?waits, fun hc => ?queues⟩⟩
  case goes =>
    refine completes_of_ready (exec_fence s) hr ?_
    rw [if_pos ((fence_goes_iff s).2 ⟨hs, hq⟩)]
    exact crewEffect_done s s.c rfl rfl rfl rfl
  case stalls =>
    refine completes_of_ready (exec_fence s) hr ?_
    rw [if_neg (by rw [fence_goes_iff]; tauto)]
    exact waits_hold s
  case fenceA => exact completes_of_ready (exec_fenceA s) hr (crewEffect_done s _ rfl rfl rfl rfl)
  case fenceR => exact completes_of_ready (exec_fenceR s) hr (crewEffect_done s _ rfl rfl rfl rfl)
  case ifence => exact completes_of_ready (exec_ifence s) hr (crewEffect_done (performAll s) _ rfl rfl rfl rfl)
  case waits =>
    rintro ⟨th, ha, hc⟩
    rw [← storesStay_eq_false, Bool.not_eq_false] at hc
    exact ⟨_, (exec_redq hr hp).trans (by rw [laneUnless_wait ha hc]), waits_hold s⟩
  case queues =>
    refine ⟨_, (exec_redq hr hp).trans (by rw [laneUnless_go fun th ha => (storesStay_eq_false ..).2 (hc th ha)]), ?_⟩
    exact crewEffect_done (performAll s) _ rfl rfl rfl rfl

/-! ### Stores performed -/

/-- A write at its home slice, where nothing waits in the Lamproom, no contribution is held and none waits for what is
written: the bytes and the poison that they clear, and nothing else. -/
theorem performGlobal_quiet {s : State} {pa : Nat} {bs : List Byte} (hl : s.lamps = []) (hq : s.redq = [])
    (hn : NoneAwaits s pa bs.length) : performGlobal s pa bs = putBytes s pa bs := by
  have frame : putBytes s pa bs = { s with mem := (putBytes s pa bs).mem, poison := (putBytes s pa bs).poison } := by
    rw [putBytes, writeBytes_mem]
  have hl' : (putBytes s pa bs).lamps = [] := by rw [frame]; exact hl
  have hq' : (putBytes s pa bs).redq = [] := by rw [frame]; exact hq
  have hreg : registerWrite s pa bs = putBytes s pa bs := by
    simp only [registerWrite, hq', if_true]
    rw [relightRun, relightAll, if_pos hl']
  have hm : nextMoved (putBytes s pa bs) pa bs.length = false := by
    rw [frame]
    simp only [nextMoved, State.allCrews, List.any_eq_false, List.any_eq_true, not_exists, not_and]
    intro c hc x hx h
    simp only [Bool.and_eq_true, decide_eq_true_eq, Option.isSome_iff_ne_none] at h
    have := hn c hc x hx h.1.1
    omega
  rw [performGlobal, hreg, hm]
  rfl

/-- The words of memory whose poison a write leaves (R304, R362). -/
theorem mem_putBytes_poison (s : State) (pa : Nat) (bs : List Byte) (k : Nat) :
    k ∈ (putBytes s pa bs).poison ↔
      k ∈ s.poison ∧ ¬ (inRom s (8 * k) = false ∧ pa ≤ 8 * k ∧ 8 * k + 8 ≤ pa + bs.length) := by
  rw [putBytes, writeBytes_mem]
  cases hr : inRom s (8 * k)
  · by_cases h : pa ≤ 8 * k ∧ 8 * k + 8 ≤ pa + bs.length <;> simp [mend, hr, -not_and, ← Bool.decide_and, h]
  · simp [mend, hr]

/-- What a write at its home slice leaves. -/
theorem writePerformed_putBytes {s : State} {w : WriteAcc} (hv : w.vault = false) :
    WritePerformed s (putBytes s w.addr w.bytes) w where
  bytes a := by
    rw [putBytes, readByte_writeBytes]
    simp only [hv, true_and]
    rfl
  vaults a := by
    rw [if_neg (by simp [hv]), putBytes, writeBytes_mem]
    rfl
  poison k := by rw [mem_putBytes_poison]; simp [hv]
  badVault k := by
    rw [putBytes, writeBytes_mem]
    simp [hv]
  rest := by rw [putBytes, writeBytes_mem]

/-- What a write to a vault leaves. -/
theorem writePerformed_vault {s : State} {w : WriteAcc} (hv : w.vault = true) :
    WritePerformed s (writeVault { s with badVault := mend s.badVault w.addr w.bytes.length } w.addr w.bytes) w where
  bytes a := by
    rw [if_neg (by simp [hv]), writeVault_vault]
    rfl
  vaults a := by
    rw [readVault_writeVault]
    simp only [hv, true_and]
    rfl
  poison k := by
    rw [writeVault_vault]
    simp [hv]
  badVault k := by
    rw [writeVault_vault]
    simp [hv, mend, ← Bool.decide_and]
  rest := by rw [writeVault_vault]

/-- What performing one write leaves, where nothing waits for it. -/
theorem writePerformed_performWrite {s : State} {w : WriteAcc} (hl : s.lamps = []) (hq : s.redq = [])
    (hn : w.vault = false → NoneAwaits s w.addr w.bytes.length) : WritePerformed s (performWrite s w) w := by
  cases hv : w.vault
  case false =>
    rw [performWrite, if_neg (by simp [hv]), performGlobal_quiet hl hq (hn hv)]
    exact writePerformed_putBytes hv
  case true =>
    rw [performWrite, if_pos hv]
    exact writePerformed_vault hv

/-- A crew's oldest store, when it waits for nothing, is the first that can be performed. -/
theorem ready_head {c : Crew} {p : PStore} {rest : List PStore} (hs : c.stores = p :: rest) (hb : c.blocks p = false) :
    ∃ more, c.ready = p :: more := by
  simp [Crew.ready, hs, splitStores, hb]

/-- The store of whose first write `performOldest` speaks. -/
theorem performOldest_head {s : State} {p : PStore} {w : WriteAcc} {ws : List WriteAcc} {rest : List PStore}
    (hs : s.c.stores = p :: rest) (hb : s.c.blocks p = false) (hw : p.writes = w :: ws) :
    performOldest s =
      let s1 := performOf p s w
      if ws = [] then { s1 with c := { s1.c with stores := s1.c.stores.erase p, acks := s1.c.acks ++ [p.clause] } }
      else { s1 with c := { s1.c with stores := s1.c.stores.replace p { p with writes := ws } } } := by
  obtain ⟨more, hm⟩ := ready_head hs hb
  simp only [performOldest, hm, hw]

/-- What is left once a crew's oldest write is performed: what the write leaves, and the crew with the rest of its stores,
the acknowledgement on its way after the last write of its word (R13, R190). -/
def OldestPerformed (b : State) (cl : Nat) (w : WriteAcc) (ws : List WriteAcc) (aw : List ContribKey)
    (rest : List PStore) (t : State) : Prop :=
  ∃ u, WritePerformed b u w ∧
    t = { u with c := { u.c with
      stores := if ws = [] then rest else ⟨cl, ws, aw, []⟩ :: rest
      acks := if ws = [] then u.c.acks ++ [cl] else u.c.acks } }

section
variable {s : State} {cl : Nat} {w : WriteAcc} {ws : List WriteAcc} {aw : List ContribKey} {rest : List PStore}
  (hs : s.c.stores = ⟨cl, w :: ws, aw, []⟩ :: rest) (hb : s.c.blocks ⟨cl, w :: ws, aw, []⟩ = false)
include hs hb

/-- A crew's oldest write, performed where nothing waits for it. -/
theorem oldestPerformed_performOldest (hl : s.lamps = []) (hq : s.redq = [])
    (hn : w.vault = false → NoneAwaits s w.addr w.bytes.length) : OldestPerformed s cl w ws aw rest (performOldest s) := by
  have hp : performOf ⟨cl, w :: ws, aw, []⟩ s w = performWrite s w := rfl
  have done := writePerformed_performWrite hl hq hn
  refine ⟨performWrite s w, done, ?_⟩
  rw [performOldest_head hs hb rfl, hp]
  have hst : (performWrite s w).c.stores = ⟨cl, w :: ws, aw, []⟩ :: rest := by rw [done.rest]; exact hs
  by_cases hw : ws = []
  · simp [hw, hst]
  · simp [hw, hst]

/-- The oldest write is performed by an operation that leaves the crew in focus its name. -/
theorem performOldest_uid (hl : s.lamps = []) (hq : s.redq = [])
    (hn : w.vault = false → NoneAwaits s w.addr w.bytes.length) : (performOldest s).c.uid = s.c.uid := by
  obtain ⟨u, hu, ht⟩ := oldestPerformed_performOldest hs hb hl hq hn
  rw [ht, hu.rest]

/-- The oldest write waits for the slow path where the filter bit of its line is set (R231). -/
theorem oldestSlow_head : oldestSlow s = filtered s w := by
  obtain ⟨more, hm⟩ := ready_head hs hb
  simp [oldestSlow, hm]

end

theorem exec_storePerformed (uid : Nat) (s : State) : exec (.storePerformed uid) s =
    .next (if s.slow.contains uid then s else
      inFocus s uid fun s => if oldestSlow s then { s with slow := s.slow ++ [uid] } else performOldest s) := rfl
theorem exec_filterSlowPathWrite (uid : Nat) (s : State) : exec (.filterSlowPathWrite uid) s =
    .next (if s.slow.contains uid then
        inFocus { s with slow := s.slow.filter (· != uid) } uid performOldest else s) := rfl

/-- Settles O38: the oldest write is performed at once, or waits for the slow path and is performed from there. -/
theorem storedBytesAppear : Obligations.StoredBytesAppear := by
  unfold Obligations.StoredBytesAppear
  intro s cl w ws aw rest hs haw hl hq hn
  have hb : s.c.blocks ⟨cl, w :: ws, aw, []⟩ = false := by simpa [Crew.blocks] using haw
  refine ⟨fun hslow hf => ?performed, fun hslow hf => ?held, fun hslow => ?slowPath⟩
  case performed =>
    refine ⟨performOldest s, ?_, oldestPerformed_performOldest hs hb hl hq hn⟩
    rw [exec_storePerformed, if_neg (by simpa using hslow)]
    have e : (if oldestSlow s then { s with slow := s.slow ++ [s.c.uid] } else performOldest s) = performOldest s := by
      rw [oldestSlow_head hs hb, hf]; rfl
    rw [inFocus_self, e]
    rw [e]; exact performOldest_uid hs hb hl hq hn
  case held =>
    refine ⟨_, ?_, rfl⟩
    rw [exec_storePerformed, if_neg (by simpa using hslow), inFocus_self] <;> simp [oldestSlow_head hs hb, hf]
  case slowPath =>
    let b : State := { s with slow := s.slow.filter (· != s.c.uid) }
    refine ⟨performOldest b, ?_, oldestPerformed_performOldest (s := b) hs hb hl hq hn⟩
    rw [exec_filterSlowPathWrite, if_pos (by simpa using hslow)]
    exact congrArg Host.Outcome.next (inFocus_self (s := b) (performOldest_uid (s := b) hs hb hl hq hn))

end Sys2Proof.Proofs
end

section
/-!
PROOFS. The checks of R42 in their order: what each answers where those before it pass, and what TRAPINFO holds.
-/

namespace Sys2Proof.Proofs
open Sys2Proof Sys2Proof.Machine

set_option Elab.async false

/-! ### The checks of R42, one after the other -/

/-- Every word is issued: its arm makes the checks of R42, and then has the word's own effect. -/
theorem exec_word_issues {i : Instr} (hi : i.isWord = true) : ∃ f, ∀ s, exec i s = issue i s f := by
  cases i <;> simp only [Instr.isWord, Bool.false_eq_true] at hi <;> exact ⟨_, fun _ => rfl⟩

/-- A lane word is no jump to a register. -/
theorem targetReg_of_lane {i : Instr} (hi : isLane i = true) : targetReg i = none := by
  unfold targetReg
  split
  case h_4 => rfl
  all_goals cases hi

/-- No lane word is a word whose form speaks of a block. -/
theorem blockForm_of_lane {i : Instr} (c : Crew) (hi : isLane i = true) : blockForm i c = false := by
  unfold blockForm
  split
  · cases hi
  · simp [hi]

/-- Only a jump, call or return to a register has a target to check. -/
theorem targetReg_eq_none {i : Instr} (h : ∀ a, i ≠ .jr a ∧ i ≠ .callr a) (hr : i ≠ .ret) : targetReg i = none := by
  unfold targetReg
  split
  case h_1 a => exact absurd rfl (h a).1
  case h_2 a => exact absurd rfl (h a).2
  case h_3 => exact absurd rfl hr
  case h_4 => rfl

section
variable {i : Instr} {s : State} (ht : targetFault i s = none)
include ht

/-- With its target in order, a word is checked for its form, its privilege and its operands. -/
theorem gate_of_target : gate i s = wordFault i s := by rw [gate, ht, Option.none_or]

theorem gate_illegal (hd : i.defect ≠ none) : gate i s = some (trapAt i s .illegal (((encode i).getD 0).setWidth 64)) := by
  rw [gate_of_target ht, wordFault, if_pos hd]

variable (hd : i.defect = none)
include hd

theorem gate_pblkForm (hb : blockForm i s.c = true) : gate i s = some (trapAt i s .pblkForm 0) := by
  rw [gate_of_target ht, wordFault, if_neg (not_not_intro hd), if_pos hb]

variable (hb : blockForm i s.c = false)
include hb

theorem gate_clauseForm (hc : clauseForm i s.c = true) : gate i s = some (trapAt i s .clauseForm 0) := by
  rw [gate_of_target ht, wordFault, if_neg (not_not_intro hd), if_neg (by simp [hb]), if_pos hc]

variable (hc : clauseForm i s.c = false)
include hc

theorem gate_priv (hp : s.c.privl.toNat < (leastPrivl i).1) :
    gate i s = some (trapHere s .priv 0 (w64 (leastPrivl i).2)) := by
  rw [gate_of_target ht, wordFault, if_neg (not_not_intro hd), if_neg (by simp [hb]), if_neg (by simp [hc]), if_pos hp]

variable (hp : (leastPrivl i).1 ≤ s.c.privl.toNat)
include hp

theorem gate_hazard (hh : hazards i s.c ≠ []) : gate i s =
    some (trapHere s .hazard 0 (w64 (hazardInfo (hazardPick (hazards i s.c).eraseDups s.fresh)))) := by
  rw [gate_of_target ht, wordFault, if_neg (not_not_intro hd), if_neg (by simp [hb]), if_neg (by simp [hc]),
    if_neg (by omega), if_pos hh]

/-- A lane word that passes the first five checks comes to those of its class (R42, step 6). -/
theorem gate_lane (hh : hazards i s.c = []) (hi : isLane i = true) : gate i s = laneGate i s := by
  rw [gate_of_target ht, wordFault, if_neg (not_not_intro hd), if_neg (by simp [hb]), if_neg (by simp [hc]),
    if_neg (by omega), if_neg (not_not_intro hh), if_pos hi]

end

/-- The traps of the checks of R42: those of a target, of the form, of the level, of an operand that is outstanding, and
of the class of the word. -/
inductive GateTrap (i : Instr) (s : State) : TrapReq → Prop
  | target (e : Cause) (x : Word) : e = .align ∨ e = .xlate → GateTrap i s (trapHere s e x 0)
  | form (e : Cause) (info : Word) : e = .illegal ∨ e = .pblkForm ∨ e = .clauseForm → GateTrap i s (trapAt i s e info)
  | priv : GateTrap i s (trapHere s .priv 0 (w64 (leastPrivl i).2))
  | hazard : hazards i s.c ≠ [] →
      GateTrap i s (trapHere s .hazard 0 (w64 (hazardInfo (hazardPick (hazards i s.c).eraseDups s.fresh))))
  | operand (e : Cause) (info : Word) : e = .blkFault ∨ e = .eccUncorr → GateTrap i s (trapHere s e 0 info)

theorem gateTrap_of_target {i : Instr} {s : State} {t : TrapReq} (h : targetFault i s = some t) : GateTrap i s t := by
  unfold targetFault at h
  split at h
  · cases h
  · split at h
    · cases h
    · split at h
      · cases h; exact .target .align _ (.inl rfl)
      · split at h
        · cases h; exact .target .xlate _ (.inr rfl)
        · cases h

theorem gateTrap_of_lane {i : Instr} {s : State} {t : TrapReq} (h : laneGate i s = some t) : GateTrap i s t := by
  unfold laneGate at h
  split at h
  · cases h
  · split at h
    · obtain ⟨x, -, rfl⟩ := Option.map_eq_some_iff.mp h
      exact .operand .eccUncorr _ (.inr rfl)
    · cases h; exact .operand .blkFault _ (.inl rfl)

theorem gateTrap_of_word {i : Instr} {s : State} {t : TrapReq} (h : wordFault i s = some t) : GateTrap i s t := by
  unfold wordFault at h
  split at h
  · cases h; exact .form .illegal _ (.inl rfl)
  split at h
  · cases h; exact .form .pblkForm _ (.inr (.inl rfl))
  split at h
  · cases h; exact .form .clauseForm _ (.inr (.inr rfl))
  split at h
  · cases h; exact .priv
  split at h
  · next hh => cases h; exact .hazard hh
  split at h
  · exact gateTrap_of_lane h
  · obtain ⟨x, -, rfl⟩ := Option.map_eq_some_iff.mp h
    exact .operand .eccUncorr _ (.inr rfl)

/-- What the checks of a word can answer. -/
theorem gateTrap_of_gate {i : Instr} {s : State} {t : TrapReq} (h : gate i s = some t) : GateTrap i s t := by
  rcases Option.or_eq_some_iff.mp h with h | ⟨-, h⟩
  · exact gateTrap_of_target h
  · exact gateTrap_of_word h

theorem leastPrivl_sys {i : Instr} {d : BitVec 6} {n : BitVec 12} (h : i = .rdsys d n ∨ i = .wrsys d n) :
    (leastPrivl i).2 = n.toNat := by
  rcases h with rfl | rfl <;> rfl

/-- A PRIV trap reports the number of a system register, or 0 (R294). -/
theorem leastPrivl_info (i : Instr) : (leastPrivl i).2 = 0 ∨ ∃ d n, i = .rdsys d n ∨ i = .wrsys d n := by
  cases i
  case rdsys d n => exact .inr ⟨d, n, .inl rfl⟩
  case wrsys d n => exact .inr ⟨d, n, .inr rfl⟩
  all_goals exact .inl rfl

/-- The number that a PRIV trap reports has twelve bits (R308). -/
theorem leastPrivl_info_lt (i : Instr) : (leastPrivl i).2 < 2 ^ 12 := by
  rcases leastPrivl_info i with h | ⟨d, n, h⟩
  · rw [h]; exact Nat.two_pow_pos 12
  · rw [leastPrivl_sys h]; exact n.isLt

/-- The register that a HAZARD names is one of the operands that are marked. -/
theorem hazardPick_mem {l : List Reg} (h : l ≠ []) (fresh : Nat) : hazardPick l fresh ∈ l := by
  unfold hazardPick
  split
  · exact List.mem_singleton_self _
  · have hl := List.length_pos_iff.2 h
    have hk : Config.freePick fresh % max 1 l.length < l.length := by
      have := Nat.mod_lt (Config.freePick fresh) (show 0 < max 1 l.length by omega)
      omega
    rw [List.getD_eq_getElem _ _ hk]
    exact List.getElem_mem hk

theorem mem_hazards {i : Instr} {c : Crew} {r : Reg} :
    r ∈ hazards i c ↔ r ∈ readRegs i ++ writtenRegs i ∧ ∃ m ∈ c.outm, m.reg = r := by
  simp [hazards, or_and_right]

/-- Where an operand is outstanding, the HAZARD names one that is. -/
theorem hazardPick_hazards {i : Instr} {c : Crew} (h : hazards i c ≠ []) (fresh : Nat) :
    hazardPick (hazards i c).eraseDups fresh ∈ hazards i c := by
  obtain ⟨r, hr⟩ := List.exists_mem_of_ne_nil _ h
  have hne : (hazards i c).eraseDups ≠ [] := List.ne_nil_of_mem (List.mem_eraseDups.2 hr)
  exact List.mem_eraseDups.1 (hazardPick_mem hne fresh)

/-- TRAPINFO of a HAZARD: the register and its kind (R294). -/
theorem hazardInfo_toNat (r : Reg) : (w64 (hazardInfo r)).toNat = match r with
    | .s n => n.toNat
    | .v n => n.toNat + 2 ^ 8
    | .m n => n.toNat + 2 ^ 9 := by
  cases r <;> simp only [w64, hazardInfo, BitVec.toNat_ofNat] <;> exact Nat.mod_eq_of_lt (by omega)

/-! ### BLK_FAULT (R64, R65) -/

theorem mem_vregs {l : List Reg} {n : Nat} : n ∈ vregs l ↔ ∃ q : BitVec 7, Reg.v q ∈ l ∧ q.toNat = n := by
  simp only [vregs, List.mem_filterMap]
  constructor
  · rintro ⟨r, hr, h⟩
    cases r <;> simp only [Option.some.injEq, reduceCtorEq] at h
    exact ⟨_, hr, h⟩
  · rintro ⟨q, hq, rfl⟩
    exact ⟨_, hq, rfl⟩

/-- The thread register raises BLK_FAULT: it lies at or above block B, or is written without owning its block. -/
def BlockBad (i : Instr) (s : State) (q : BitVec 7) : Prop :=
  (Reg.v q ∈ readRegs i ∧ s.g.nblk ≤ q.toNat / 8) ∨
  (Reg.v q ∈ writtenRegs i ∧ (s.g.nblk ≤ q.toNat / 8 ∨
    (s.g.owner.getD (q.toNat / 8) none).map (·.val) ≠ some s.c.att))

theorem mem_blkFaults {i : Instr} {s : State} {n : Nat} :
    n ∈ blkFaults s.g s.c.att (vregs (readRegs i)) (vregs (writtenRegs i)) ↔ ∃ q, BlockBad i s q ∧ q.toNat = n := by
  simp only [blkFaults, List.mem_append, List.mem_filter, mem_vregs, decide_eq_true_eq, Bool.or_eq_true, bne_iff_ne]
  constructor
  · rintro (⟨⟨q, hq, rfl⟩, h⟩ | ⟨⟨q, hq, rfl⟩, h⟩)
    · exact ⟨q, .inl ⟨hq, h⟩, rfl⟩
    · exact ⟨q, .inr ⟨hq, h⟩, rfl⟩
  · rintro ⟨q, ⟨hq, h⟩ | ⟨hq, h⟩, rfl⟩
    · exact .inl ⟨⟨q, hq, rfl⟩, h⟩
    · exact .inr ⟨⟨q, hq, rfl⟩, h⟩

/-- The least of some numbers, none of them above the start of the search. -/
theorem foldl_min_eq {m : Nat} {l : List Nat} (hle : ∀ x ∈ l, m ≤ x) : ∀ b, m ≤ b → m ∈ l ∨ m = b → l.foldl min b = m := by
  induction l with
  | nil => intro b _ h; simpa [eq_comm] using h
  | cons x l ih =>
    intro b hb h
    have hx := hle x (List.mem_cons_self ..)
    refine ih (fun y hy => hle y (List.mem_cons_of_mem _ hy)) (min b x) (by omega) ?_
    rcases h with h | h
    · rcases List.mem_cons.mp h with rfl | h
      · exact .inr (by omega)
      · exact .inl h
    · exact .inr (by omega)

/-- A lane word with an active thread raises BLK_FAULT of the lowest thread register that may not be used. -/
theorem laneGate_blkFault {i : Instr} {s : State} {r : BitVec 7} (ha : activeSet s.c ≠ 0) (hr : BlockBad i s r)
    (hle : ∀ q, BlockBad i s q → r.toNat ≤ q.toNat) :
    laneGate i s = some ⟨.blkFault, s.c.pc, 0, w64 (r.toNat + 2 ^ (8 + r.toNat / 8)), false, 0⟩ := by
  have hmem := mem_blkFaults.2 ⟨r, hr, rfl⟩
  have hmin : (blkFaults s.g s.c.att (vregs (readRegs i)) (vregs (writtenRegs i))).foldl min 127 = r.toNat := by
    refine foldl_min_eq ?_ 127 (by have := r.isLt; omega) (.inl hmem)
    intro x hx
    obtain ⟨q, hq, rfl⟩ := mem_blkFaults.1 hx
    exact hle q hq
  rw [laneGate, if_neg ha]
  split
  · next he => rw [he] at hmem; cases hmem
  · rw [trapHere, blkInfo, hmin]

/-- Settles O6: each check of R42 in its place, and the words of TRAPINFO. -/
theorem checksBeforeEffect : Obligations.ChecksBeforeEffect := by
  unfold Obligations.ChecksBeforeEffect
  refine ⟨fun s a p hp => ?target, fun i s h hr => targetFault_none s (targetReg_eq_none h hr), fun i s ht => ?order,
    fun i s t hi h => ?trap, fun i c => ?clauseForm, fun i s t h => ?info, fun i s r => ?blkFault⟩
  case target =>
    have hi := registerJump_targetReg hp
    exact ⟨gate_target_align hi, gate_target_xlate hi, targetFault_of_fits hi⟩
  case order =>
    exact ⟨fun hd => ⟨_, gate_illegal ht hd, rfl, rfl⟩, fun hd hb => ⟨_, gate_pblkForm ht hd hb, rfl, rfl⟩,
      fun hd hb hc => ⟨_, gate_clauseForm ht hd hb hc, rfl, rfl⟩, fun hd hb hc hp => ⟨_, gate_priv ht hd hb hc hp, rfl, rfl⟩,
      fun hd hb hc hp hh => ⟨_, gate_hazard ht hd hb hc hp hh, rfl, rfl⟩⟩
  case trap =>
    obtain ⟨f, hf⟩ := exec_word_issues hi
    exact exec_trap (hf s) h
  case clauseForm =>
    cases hi : isClause i <;> simp [clauseForm, hi, or_assoc]
  case info =>
    cases gateTrap_of_gate h with
    | target e x he => rcases he with rfl | rfl <;> exact ⟨nofun, nofun⟩
    | form e x he => rcases he with rfl | rfl | rfl <;> exact ⟨nofun, nofun⟩
    | operand e x he => rcases he with rfl | rfl <;> exact ⟨nofun, nofun⟩
    | priv =>
      have hlt := leastPrivl_info_lt i
      have hn : (w64 (leastPrivl i).2).toNat = (leastPrivl i).2 := Nat.mod_eq_of_lt (by omega)
      exact ⟨fun _ => ⟨rfl, by simpa only [trapHere, hn] using hlt,
        fun d n hd => hn.trans (leastPrivl_sys hd)⟩, nofun⟩
    | hazard hh =>
      obtain ⟨hr, hm⟩ := mem_hazards.1 (hazardPick_hazards hh s.fresh)
      exact ⟨nofun, fun _ => ⟨rfl, _, hr, hm, hazardInfo_toNat _⟩⟩
  case blkFault =>
    intro bad hd hi hc hp hh ha hr hle
    rw [gate_lane (targetFault_none s (targetReg_of_lane hi)) hd (blockForm_of_lane s.c hi) hc (by omega) hh hi]
    exact laneGate_blkFault ha hr hle

end Sys2Proof.Proofs
end

section
/-!
PROOFS. A step: the fetch, the word or the event that it runs, and the correction of single-bit errors (R17, R41, R72,
R304; log 2).
-/

namespace Sys2Proof.Proofs
open Sys2Proof Sys2Proof.Machine

set_option Elab.async false

/-! ### A step with no outside event (log 2) -/

section
variable {s : State} (hi : s.inputs = []) (hd : s.bgTurn = true → due s = none)
include hi hd

/-- Where no event is to come first, a step is the next word of the crew that is granted. -/
theorem step_granted {s1 : State} (hg : granted s = some s1) : step s = runWord { s1 with bgTurn := true } := by
  have hn : (if s.bgTurn then due s else none) = none := by
    split
    · next h => exact hd h
    · rfl
  simp only [step, hi, hn, hg]

variable {s1 : State} (hg : granted s = some s1)
include hg

theorem step_runs_word {w : BitVec 32} {i : Instr} (hf : fetch { s1 with bgTurn := true } = .ok w)
    (hw : decodeWord w = .ok i) : step s = exec i (correctRead i (chargeWord i { s1 with bgTurn := true })) := by
  rw [step_granted hi hd hg, runWord, hf]
  simp only [hw]

theorem step_illegal_word {w : BitVec 32} {why : Reject} (hf : fetch { s1 with bgTurn := true } = .ok w)
    (hw : decodeWord w = .error why) :
    step s = .next (takeTrap { s1 with bgTurn := true } (illegalWord { s1 with bgTurn := true } w)) := by
  rw [step_granted hi hd hg, runWord, hf]
  simp only [hw]

theorem step_fetch_trap {t : TrapReq} (hf : fetch { s1 with bgTurn := true } = .error t) :
    step s = .next (takeTrap { s1 with bgTurn := true } t) := by
  rw [step_granted hi hd hg, runWord, hf]

end

/-! ### Events -/

theorem step_outside {s : State} {e : Instr} {rest : List Instr} (hi : s.inputs = e :: rest) (he : e.isWord = false) :
    step s = exec e (tick (unholdAll { s with inputs := rest })) := by
  simp only [step, hi, he, Bool.false_eq_true, if_false, runEvent]

theorem step_due {s : State} {e : Instr} (hi : s.inputs = []) (hb : s.bgTurn = true) (hd : due s = some e) :
    step s = exec e (tick (unholdAll { s with bgTurn := false })) := by
  simp only [step, hi, hb, if_true, hd, runEvent]

section
variable {s : State} (hi : s.inputs = []) (hg : granted s = none)
include hi hg

theorem step_due_idle {e : Instr} (hb : s.bgTurn = false) (hd : due s = some e) :
    step s = exec e (tick (unholdAll s)) := by
  simp only [step, hi, hb, Bool.false_eq_true, if_false, hg, hd, runEvent]

theorem step_idle (hd : due s = none) : step s = .next (tick (unholdAll s)) := by
  simp only [step, hi, hg, hd, ite_self]

end

/-! ### The fetch (R17) -/

/-- Four bytes of memory as a word, the lowest first (R1). -/
theorem ofNat_readNat_four (s : State) (pa : Nat) : BitVec.ofNat 32 (readNat s pa 4) =
    wordOfBytes (readByte s pa) (readByte s (pa + 1)) (readByte s (pa + 2)) (readByte s (pa + 3)) := by
  simp only [readNat, readBytes, ofBytes, wordOfBytes, Nat.add_assoc, Nat.reduceAdd]
  congr 1
  omega

section
variable {s : State} {p : Place} (hx : crewXlate s needX s.c.pc.toNat = .ok p)
include hx

theorem fetch_owned (ho : ownedByHw s p.pa 4 false = true) : fetch s = .error (trapHere s .perm s.c.pc 0) := by
  simp only [fetch, hx, ho, if_true]

variable (ho : ownedByHw s p.pa 4 false = false)
include ho

theorem fetch_poisoned (hr : inRom s p.pa = false) (hp : poisoned s false p.pa 4 = true) :
    fetch s = .error (trapHere s .eccUncorr s.c.pc 0) := by
  simp [fetch, hx, ho, hr, hp]

/-- The word that is fetched is the four bytes at the place of the pc, the lowest first (R1, R17). -/
theorem fetch_word (h : inRom s p.pa = true ∨ poisoned s false p.pa 4 = false) : fetch s =
    .ok (wordOfBytes (readByte s p.pa) (readByte s (p.pa + 1)) (readByte s (p.pa + 2)) (readByte s (p.pa + 3))) := by
  have hg : (!inRom s p.pa && poisoned s false p.pa 4) = false := by rcases h with h | h <;> simp [h]
  simp only [fetch, hx, ho, hg, Bool.false_eq_true, if_false]
  rw [ofNat_readNat_four]

end

theorem fetch_no_place {s : State} {e : Cause} (hx : crewXlate s needX s.c.pc.toNat = .error e) :
    fetch s = .error (trapHere s e s.c.pc 0) := by
  simp only [fetch, hx]

/-! ### The correction of single-bit errors (R72, R304) -/

/-- A word that is turned away corrects nothing. -/
theorem correctRead_trapped {i : Instr} {s : State} (h : gate i s ≠ none) : correctRead i s = s := by
  rw [correctRead, if_pos (.inr (Option.isSome_iff_ne_none.2 h))]

theorem correctRead_clean {i : Instr} {s : State} (h : s.g.soft = []) : correctRead i s = s := by
  rw [correctRead, if_pos (.inl h)]

/-- The correction changes the errors of the gallery in focus and their count alone. -/
theorem correctRead_frame (i : Instr) (s : State) : correctRead i s =
    { s with g := { s.g with soft := (correctRead i s).g.soft }, corrected := (correctRead i s).corrected } := by
  rw [correctRead]
  split <;> rfl

/-- The errors that a word corrects leave the gallery: those of the thread registers that it reads. -/
theorem mem_correctRead_soft {i : Instr} {s : State} (hr : Ready i s) (e : Nat × Nat) :
    e ∈ (correctRead i s).g.soft ↔ e ∈ s.g.soft ∧ ¬ ∃ x ∈ wordReads i s, 128 * x.1 + x.2 = e.1 := by
  by_cases hs : s.g.soft = []
  · rw [correctRead_clean hs, hs]; simp
  · rw [correctRead, if_neg (by simp [hs, show gate i s = none from hr])]
    simp [List.mem_filter]

/-- Each error that is gone is counted. -/
theorem correctRead_count (i : Instr) (s : State) :
    (correctRead i s).corrected[0] + (correctRead i s).g.soft.length = s.corrected[0] + s.g.soft.length := by
  rw [correctRead]
  split
  · rfl
  · have hp := List.length_eq_length_filter_add (l := s.g.soft)
      fun e => (wordReads i s).any fun x => 128 * x.1 + x.2 == e.1
    simp only [Vector.getElem_set_self]
    omega

/-- A lane word other than a shuffle reads its thread registers in its active threads. -/
theorem wordReads_lane {i : Instr} {s : State} (hi : isLane i = true) (hs : ∀ w d a b m, i ≠ .shfl w d a b m) :
    wordReads i s = (laneThreads s).flatMap fun t => (vregs (readRegs i)).map fun r => (t, r) := by
  unfold wordReads
  split
  case h_4 w d a b m => exact absurd rfl (hs w d a b m)
  case h_5 => rw [if_pos hi]
  all_goals cases hi

/-- The thread registers that a lane word reads, as places among those of its gallery. -/
theorem lane_reads_iff {i : Instr} {s : State} (hi : isLane i = true) (hs : ∀ w d a b m, i ≠ .shfl w d a b m) (k : Nat) :
    (∃ x ∈ wordReads i s, 128 * x.1 + x.2 = k) ↔
      ∃ (th : Nat) (r : BitVec 7), active s th ∧ Reg.v r ∈ readRegs i ∧ k = 128 * th + r.toNat := by
  rw [wordReads_lane hi hs]
  constructor
  · rintro ⟨x, hx, rfl⟩
    obtain ⟨t, ht, hx⟩ := List.mem_flatMap.1 hx
    obtain ⟨n, hn, rfl⟩ := List.mem_map.1 hx
    obtain ⟨q, hq, rfl⟩ := mem_vregs.1 hn
    exact ⟨t, q, (mem_laneThreads s t).1 ht, hq, rfl⟩
  · rintro ⟨th, r, ha, hr, rfl⟩
    exact ⟨(th, r.toNat), List.mem_flatMap.2 ⟨th, (mem_laneThreads s th).2 ha,
      List.mem_map.2 ⟨r.toNat, mem_vregs.2 ⟨r, hr, rfl⟩, rfl⟩⟩, rfl⟩

/-- The row scales that an `MMA` reads, once its checks pass (R72, R88). -/
theorem wordReads_mma {s : State} {t g : BitVec 6} {f : BitVec 4} {n : BitVec 1} {l : List (BitVec 32)}
    (hm : mmaScales s f (getG s.c g 3).toNat = some l) (hl : l ≠ []) (hh : scaleHazard s (getG s.c g 3).toNat = false)
    (hf : mmaForm s g = false) (he : scaleError s (getG s.c g 3).toNat = none) :
    wordReads (.mma t g f n) s = (List.range 128).map fun th => (th, bits (getG s.c g 3).toNat 32 7) := by
  simp [wordReads, mmaReads, hm, hl, hh, hf, he]

theorem bits_lt (x lo len : Nat) : bits x lo len < 2 ^ len := Nat.mod_lt _ (Nat.two_pow_pos len)

/-- The places of the 128 registers of a row. -/
theorem row_places_iff {row : Nat} (hr : row < 128) (k : Nat) :
    (∃ x ∈ (List.range 128).map fun th => (th, row), 128 * x.1 + x.2 = k) ↔ k / 128 < 128 ∧ k % 128 = row := by
  constructor
  · rintro ⟨x, hx, rfl⟩
    obtain ⟨th, hth, rfl⟩ := List.mem_map.1 hx
    have := List.mem_range.1 hth
    omega
  · rintro ⟨h1, h2⟩
    exact ⟨(k / 128, row), List.mem_map.2 ⟨k / 128, List.mem_range.2 h1, rfl⟩, by dsimp only; omega⟩

section
variable {s : State} {g : BitVec 6} (hs : bits (getG s.c g 3).toNat 40 1 = 1)
include hs

/-- The scales of an `MMA` with scales are the row scales of its register (R88). -/
theorem mmaScales_rows {f : BitVec 4} {l : List (BitVec 32)} (h2 : f ≠ 2)
    (hl : rowScales s.g (bits (getG s.c g 3).toNat 32 7) (bits (getG s.c g 3).toNat 39 1) = some l) :
    mmaScales s f (getG s.c g 3).toNat = some l := by
  rw [mmaScales, if_neg (by omega), if_neg h2, hl]

/-- No row scale is uncorrectable where no register of the row is (R304). -/
theorem scaleError_none (hb : ∀ th, th < 128 → 128 * th + bits (getG s.c g 3).toNat 32 7 ∉ s.g.bad) :
    scaleError s (getG s.c g 3).toNat = none := by
  rw [scaleError, if_neg (by omega), Option.map_eq_none_iff, rowBad, List.find?_eq_none]
  intro th hth
  simpa using hb th (List.mem_range.1 hth)

end

/-- The operand fields of an `MMA` that are in order, at a crew that has a ring (R275). -/
theorem mmaForm_false {s : State} {g : BitVec 6} (hring : s.c.ring ≠ none) (hk : bits (getG s.c g 1).toNat 32 16 ≠ 0)
    (ha : bits (getG s.c g 0).toNat 0 32 % 2048 = 0) (hb : bits (getG s.c g 1).toNat 0 32 % 2048 = 0)
    (h0 : bits (getG s.c g 0).toNat 32 32 = 0) (h1 : bits (getG s.c g 1).toNat 48 16 = 0)
    (h2 : bits (getG s.c g 2).toNat 7 57 = 0) (h3 : bits (getG s.c g 3).toNat 41 23 = 0) : mmaForm s g = false := by
  have hr : s.c.ring.isNone = false := by simpa using Option.isSome_iff_ne_none.2 hring
  simp [mmaForm, mmaFieldsOk, hr, hk, ha, hb, h0, h1, h2, h3]

/-- There are 128 row scales. -/
theorem rowScales_ne_nil {g : Gallery} {r half : Nat} {l : List (BitVec 32)} (h : rowScales g r half = some l) : l ≠ [] := by
  unfold rowScales at h
  split at h
  · cases h
  · cases h
    intro hn
    have := congrArg List.length hn
    simp at this

/-- The row-scale register is not outstanding where no mark names it (R15). -/
theorem scaleHazard_false {s : State} {x : Nat} (h : ∀ o ∈ s.c.outm, o.reg ≠ .v (BitVec.ofNat 7 (bits x 32 7))) :
    scaleHazard s x = false := by
  rw [scaleHazard, Bool.and_eq_false_imp]
  intro _
  simpa [List.any_eq_false] using h

/-- Settles O4: what a step adds to the word or the event that it runs. -/
theorem stepRunsDecodedWord : Obligations.StepRunsDecodedWord := by
  unfold Obligations.StepRunsDecodedWord
  refine ⟨fun s s1 w i hi hd hg hf hw => step_runs_word hi hd hg hf hw, fun s p hx => ⟨?word, ?poisoned, ?owned⟩,
    fun s e hx => fetch_no_place hx, fun s s1 hi hd hg => ⟨?illegal, ?fetchTrap⟩, fun s e => ⟨?outside, ?due, ?dueIdle, ?idle⟩,
    fun i s => ⟨?frame, ?clean, ?trapped, ?count, ?mma, ?lane⟩⟩
  case word => exact fetch_word hx
  case poisoned => exact fetch_poisoned hx
  case owned => exact fetch_owned hx
  case illegal => exact fun w why hf hw => step_illegal_word hi hd hg hf hw
  case fetchTrap => exact fun t hf => step_fetch_trap hi hd hg hf
  case outside => exact fun rest hi he => step_outside hi he
  case due => exact fun hi hb hd => step_due hi hb hd
  case dueIdle => exact fun hi hb hg hd => step_due_idle hi hg hb hd
  case idle => exact fun hi hg hd => step_idle hi hg hd
  case frame => exact correctRead_frame i s
  case clean => exact correctRead_clean
  case trapped => exact correctRead_trapped
  case count => exact correctRead_count i s
  case mma =>
    intro tg g f n l x row hi hr ho hring hkb ha hb h0 h1 h2 h3 h40 hf hl hbad e
    subst hi
    have hform : mmaForm s g = false := mmaForm_false hring hkb ha hb h0 h1 h2 h3
    rw [mem_correctRead_soft hr, wordReads_mma (mmaScales_rows h40 hf hl) (rowScales_ne_nil hl) (scaleHazard_false ho) hform
      (scaleError_none h40 hbad), row_places_iff (bits_lt _ _ _)]
  case lane => exact fun hi hs hr e => by rw [mem_correctRead_soft hr, lane_reads_iff hi hs]

end Sys2Proof.Proofs
end

section
/-!
PROOFS. What a step keeps of the crews, and the focus of it: the bounds of every crew (R8, R10, R67), and, where a word
runs, each crew and gallery that has a name (R66, R134).
-/

namespace Sys2Proof.Proofs
open Sys2Proof Sys2Proof.Machine

set_option Elab.async false

/-! ### What a step keeps of the crews -/

/-- What the bounds of R66 and R134 ask of a crew: its name and its gallery's, ACT, and the saved entries. -/
def crewView (c : Crew) : Nat × Nat × ThreadSet × List ThreadSet := (c.uid, c.gid, c.act, c.stack)

/-- The first crew on a core with a name. -/
def crewNamed (s : State) (u : Nat) : Option Crew := s.allCrews.find? (·.uid == u)

/-- The first gallery on a core with a name. -/
def galNamed (s : State) (n : Nat) : Option Gallery := s.allGals.find? (·.gid == n)

/-- Crew `d` is what `c` has become, as far as its bounds go: no count of a flag has risen, and nothing else of them has
changed. -/
structure Crew.Like (c d : Crew) : Prop where
  view : crewView d = crewView c
  privl : d.privl = c.privl
  incs : d.incs.Sublist c.incs

/-- The crew in focus is the same, and each crew has its ACT and its saved entries, each gallery its LIVE. -/
structure Named (s t : State) : Prop where
  crews : ∀ u, (crewNamed t u).map crewView = (crewNamed s u).map crewView
  gals : ∀ n, (galNamed t n).map (·.live) = (galNamed s n).map (·.live)
  uid : t.c.uid = s.c.uid
  gid : s.c.gid = s.g.gid → t.c.gid = t.g.gid

/-- State `t` has the bounds that `s` has, and where `w` holds the crews and the galleries of `s` too. -/
structure Kept (w : Prop) (s t : State) : Prop where
  bounded : s.bounded → t.bounded
  named : w → Named s t

theorem Named.refl (s : State) : Named s s := ⟨fun _ => rfl, fun _ => rfl, rfl, id⟩

theorem Named.trans {r s t : State} (h : Named r s) (k : Named s t) : Named r t :=
  ⟨fun u => (k.crews u).trans (h.crews u), fun n => (k.gals n).trans (h.gals n), k.uid.trans h.uid,
    fun e => k.gid (h.gid e)⟩

theorem Kept.refl (w : Prop) (s : State) : Kept w s s := ⟨id, fun _ => .refl s⟩

theorem Kept.trans {w : Prop} {r s t : State} (h : Kept w r s) (k : Kept w s t) : Kept w r t :=
  ⟨fun b => k.bounded (h.bounded b), fun x => (h.named x).trans (k.named x)⟩

theorem Crew.Like.refl (c : Crew) : Crew.Like c c := ⟨rfl, rfl, .refl _⟩

theorem Crew.Like.trans {c d e : Crew} (h : Crew.Like c d) (k : Crew.Like d e) : Crew.Like c e :=
  ⟨k.view.trans h.view, k.privl.trans h.privl, k.incs.trans h.incs⟩

theorem crewView_stack {c d : Crew} (h : crewView d = crewView c) : d.stack = c.stack := by
  simp only [crewView, Prod.mk.injEq] at h
  exact h.2.2.2

theorem flagCount_sublist {c d : Crew} (h : d.incs.Sublist c.incs) (f : Nat) : flagCount d f ≤ flagCount c f :=
  (h.filter _).length_le

theorem Crew.Like.bounded {c d : Crew} (h : Crew.Like c d) (b : c.Bounded) : d.Bounded where
  privl := by rw [h.privl]; exact b.privl
  depth := by rw [crewView_stack h.view]; exact b.depth
  flags f := (flagCount_sublist h.incs f).trans (b.flags f)

/-! ### The crews of a state -/

/-- A state is bounded exactly where the crew in focus, the others on cores, and those of saved contexts are. -/
theorem bounded_iff (s : State) : s.bounded ↔
    s.c.Bounded ∧ (∀ c ∈ s.crews, c.Bounded) ∧ ∀ v ∈ s.saved, ∀ c ∈ v.crews, c.Bounded := by
  simp only [State.bounded, State.allCrews, List.cons_append, List.mem_cons, List.mem_append, List.mem_flatten,
    List.mem_map]
  constructor
  · intro h
    exact ⟨h _ (.inl rfl), fun c hc => h c (.inr (.inl hc)), fun v hv c hc => h c (.inr (.inr ⟨_, ⟨v, hv, rfl⟩, hc⟩))⟩
  · rintro ⟨h1, h2, h3⟩ c (rfl | hc | ⟨_, ⟨v, hv, rfl⟩, hc⟩)
    · exact h1
    · exact h2 c hc
    · exact h3 v hv c hc

/-- A crew that is changed in focus, within its bounds and with its ACT and its saved entries, and nothing else of the
crews and the galleries. -/
theorem kept_focusCrew {w : Prop} {r s t : State} (h : Kept w r s) (hb : s.c.Bounded → t.c.Bounded)
    (hv : crewView t.c = crewView s.c) (hg : t.g.gid = s.g.gid := by rfl) (hl : t.g.live = s.g.live := by rfl)
    (hc : t.crews = s.crews := by rfl) (hgs : t.gals = s.gals := by rfl) (hs : t.saved = s.saved := by rfl) :
    Kept w r t := by
  refine h.trans ⟨fun b => ?_, fun _ => ⟨fun u => ?_, fun n => ?_, ?_, ?_⟩⟩
  · rw [bounded_iff] at b ⊢
    rw [hc, hs]
    exact ⟨hb b.1, b.2⟩
  · have hu : t.c.uid = s.c.uid := congrArg Prod.fst hv
    simp only [crewNamed, State.allCrews, List.find?_cons, hc, hu]
    split
    · simp [hv]
    · rfl
  · simp only [galNamed, State.allGals, List.find?_cons, hgs, hg]
    split
    · simp [hl]
    · rfl
  · exact congrArg Prod.fst hv
  · intro e
    rw [hg, ← e]
    exact congrArg (·.2.1) hv

/-- An update that leaves the crews what they were but for counts of flags that retire, and the galleries. -/
theorem kept_like {w : Prop} {r s t : State} (h : Kept w r s) (hk : Crew.Like s.c t.c)
    (hg : t.g.gid = s.g.gid := by rfl) (hl : t.g.live = s.g.live := by rfl)
    (hc : t.crews = s.crews := by rfl) (hgs : t.gals = s.gals := by rfl) (hs : t.saved = s.saved := by rfl) :
    Kept w r t :=
  kept_focusCrew h hk.bounded hk.view hg hl hc hgs hs

/-- An update of what the bounds do not speak of. -/
theorem kept_update {w : Prop} {r s t : State} (h : Kept w r s) (hv : crewView t.c = crewView s.c := by rfl)
    (hp : t.c.privl = s.c.privl := by rfl) (hi : t.c.incs = s.c.incs := by rfl)
    (hg : t.g.gid = s.g.gid := by rfl) (hl : t.g.live = s.g.live := by rfl)
    (hc : t.crews = s.crews := by rfl) (hgs : t.gals = s.gals := by rfl) (hs : t.saved = s.saved := by rfl) :
    Kept w r t :=
  kept_like h ⟨hv, hp, hi ▸ .refl _⟩ hg hl hc hgs hs

/-- Operations done one after another. -/
theorem kept_foldl {w : Prop} {α : Type} {f : State → α → State} (hf : ∀ s x, Kept w s (f s x)) {r s : State}
    (l : List α) (h : Kept w r s) : Kept w r (l.foldl f s) := by
  induction l generalizing s with
  | nil => exact h
  | cons x l ih => exact ih (h.trans (hf s x))

/-! ### The focus -/

theorem crewNamed_eq (s : State) (u : Nat) :
    crewNamed s u = if s.c.uid = u then some s.c else s.crews.find? (·.uid == u) := by
  by_cases h : s.c.uid = u <;> simp [crewNamed, State.allCrews, h, beq_eq_false_iff_ne.2]

theorem galNamed_eq (s : State) (n : Nat) :
    galNamed s n = if s.g.gid = n then some s.g else s.gals.find? (·.gid == n) := by
  by_cases h : s.g.gid = n <;> simp [galNamed, State.allGals, h, beq_eq_false_iff_ne.2]

/-- The crew in focus is the first of its name. -/
theorem crewNamed_self (s : State) : crewNamed s s.c.uid = some s.c := by rw [crewNamed_eq, if_pos rfl]

theorem galNamed_self (s : State) : galNamed s s.g.gid = some s.g := by rw [galNamed_eq, if_pos rfl]

/-- A search that a filter of other names does not change. -/
theorem find?_filter_uid {l : List Crew} {u v : Nat} (h : u ≠ v) :
    (l.filter (·.uid != v)).find? (·.uid == u) = l.find? (·.uid == u) := by
  rw [List.find?_filter]
  congr 1
  funext c
  by_cases hc : c.uid = u
  · simp [hc, h]
  · simp [hc]

theorem find?_filter_gid {l : List Gallery} {n m : Nat} (h : n ≠ m) :
    (l.filter (·.gid != m)).find? (·.gid == n) = l.find? (·.gid == n) := by
  rw [List.find?_filter]
  congr 1
  funext g
  by_cases hg : g.gid = n
  · simp [hg, h]
  · simp [hg]

/-- The gallery that comes into focus with a crew of gallery `n`, and those that stand behind it: where the one in focus
has another name and the name is found. -/
def focusGals (s : State) (n : Nat) : Gallery × List Gallery :=
  if s.g.gid = n then (s.g, s.gals) else
  match s.gals.find? (·.gid == n) with
  | none => (s.g, s.gals)
  | some g => (g, s.g :: s.gals.filter (·.gid != n))

/-- A crew that is named and not in focus comes into focus, and its gallery with it. -/
theorem focus_eq {s : State} {uid : Nat} {c : Crew} (hu : s.c.uid ≠ uid) (hc : crewNamed s uid = some c) :
    s.focus uid = { s with
      c := c, crews := s.c :: s.crews.filter (·.uid != uid), g := (focusGals s c.gid).1, gals := (focusGals s c.gid).2 } := by
  rw [crewNamed_eq, if_neg hu] at hc
  rw [State.focus, if_neg hu]
  simp only [hc, focusGals]
  split
  · rfl
  · cases s.gals.find? (·.gid == c.gid) <;> rfl

/-- A crew that is not named does not come into focus. -/
theorem focus_none {s : State} {uid : Nat} (h : crewNamed s uid = none) : s.focus uid = s := by
  rw [crewNamed_eq] at h
  rw [State.focus]
  split
  · rfl
  · next hu =>
    rw [if_neg hu] at h
    simp only [h]

theorem uid_of_crewNamed {s : State} {u : Nat} {c : Crew} (h : crewNamed s u = some c) : c.uid = u := by
  simpa using List.find?_some h

theorem gid_of_galNamed {s : State} {n : Nat} {g : Gallery} (h : galNamed s n = some g) : g.gid = n := by
  simpa using List.find?_some h

/-- The gallery in focus is the one that is named, where there is one. -/
theorem focusGals_named {s : State} {n : Nat} {g : Gallery} (h : galNamed s n = some g) : (focusGals s n).1 = g := by
  rw [galNamed_eq] at h
  rw [focusGals]
  split
  · next hn => rw [if_pos hn] at h; exact Option.some.inj h
  · next hn => rw [if_neg hn] at h; simp only [h]

/-- A crew brought into focus: each crew that is named is the one that was. -/
theorem crewNamed_focus (s : State) (uid u : Nat) : crewNamed (s.focus uid) u = crewNamed s u := by
  by_cases hu : s.c.uid = uid
  · rw [focus_self hu]
  cases hc : crewNamed s uid with
  | none => rw [focus_none hc]
  | some c =>
    rw [focus_eq hu hc, crewNamed_eq, crewNamed_eq s]
    simp only [uid_of_crewNamed hc]
    by_cases h1 : uid = u
    · subst h1
      rw [if_pos rfl, if_neg hu, ← hc, crewNamed_eq, if_neg hu]
    · rw [if_neg h1, List.find?_cons]
      by_cases h2 : s.c.uid = u
      · simp [h2]
      · simp [h2, beq_eq_false_iff_ne.2 h2, find?_filter_uid (Ne.symm h1)]

/-- A crew brought into focus: each gallery that is named is the one that was. -/
theorem galNamed_focus (s : State) (uid n : Nat) : galNamed (s.focus uid) n = galNamed s n := by
  by_cases hu : s.c.uid = uid
  · rw [focus_self hu]
  cases hc : crewNamed s uid with
  | none => rw [focus_none hc]
  | some c =>
    rw [focus_eq hu hc, galNamed_eq, galNamed_eq s]
    simp only [focusGals]
    by_cases hg : s.g.gid = c.gid
    · simp only [if_pos hg]
    · simp only [if_neg hg]
      cases hf : s.gals.find? (·.gid == c.gid) with
      | none => rfl
      | some g =>
        have hgc : g.gid = c.gid := by simpa using List.find?_some hf
        simp only [hgc]
        by_cases h1 : c.gid = n
        · subst h1
          rw [if_pos rfl, if_neg hg, hf]
        · rw [if_neg h1, List.find?_cons]
          by_cases h2 : s.g.gid = n
          · simp [h2]
          · simp [h2, beq_eq_false_iff_ne.2 h2, find?_filter_gid (Ne.symm h1)]

/-- The operation on another crew, and the return: the crew that was in focus is in focus again. -/
theorem named_inFocus {s t : State} {uid : Nat} (hu : s.c.uid ≠ uid) (hc : (crewNamed s uid).isSome)
    (h : Named (s.focus uid) t) : Named s (t.focus s.c.uid) := by
  obtain ⟨c, hc⟩ := Option.isSome_iff_exists.1 hc
  have ht : t.c.uid ≠ s.c.uid := by
    rw [h.uid, focus_eq hu hc]
    exact fun e => hu (e.symm.trans (uid_of_crewNamed hc))
  have crews (u : Nat) : (crewNamed t u).map crewView = (crewNamed s u).map crewView := by
    rw [h.crews, crewNamed_focus]
  have gals (n : Nat) : (galNamed t n).map (·.live) = (galNamed s n).map (·.live) := by
    rw [h.gals, galNamed_focus]
  obtain ⟨d, hd, hv⟩ := Option.map_eq_some_iff.1 ((crews s.c.uid).trans (by rw [crewNamed_self]; rfl))
  have hgid : d.gid = s.c.gid := congrArg (·.2.1) hv
  refine ⟨fun u => ?_, fun n => ?_, ?_, fun e => ?_⟩
  · rw [crewNamed_focus, crews]
  · rw [galNamed_focus, gals]
  · rw [focus_eq ht hd]
    exact uid_of_crewNamed hd
  · obtain ⟨g, hg, -⟩ := Option.map_eq_some_iff.1 ((gals d.gid).trans (by rw [hgid, e, galNamed_self]; rfl))
    rw [focus_eq ht hd]
    show d.gid = (focusGals t d.gid).1.gid
    rw [focusGals_named hg, gid_of_galNamed hg]

theorem bounded_focus {s : State} (uid : Nat) (h : s.bounded) : (s.focus uid).bounded := by
  by_cases hu : s.c.uid = uid
  · rwa [focus_self hu]
  cases hc : crewNamed s uid with
  | none => rwa [focus_none hc]
  | some c =>
    rw [bounded_iff] at h
    obtain ⟨hf, hcs, hsv⟩ := h
    rw [focus_eq hu hc, bounded_iff]
    rw [crewNamed_eq, if_neg hu] at hc
    refine ⟨hcs c (List.mem_of_find?_eq_some hc), fun d hd => ?_, hsv⟩
    rcases List.mem_cons.1 hd with rfl | hd
    · exact hf
    · exact hcs d (List.mem_filter.1 hd).1

theorem kept_inFocus {w : Prop} {f : State → State} (hf : ∀ s, Kept w s (f s)) {r s : State} (uid : Nat)
    (h : Kept w r s) : Kept w r (inFocus s uid f) := by
  refine h.trans ?_
  unfold inFocus
  split
  · next ha =>
    refine ⟨fun b => bounded_focus _ ((hf _).bounded (bounded_focus _ b)), fun x => ?_⟩
    by_cases hu : s.c.uid = uid
    · have n := (hf s).named x
      rw [focus_self hu, focus_self n.uid]
      exact n
    · refine named_inFocus hu ?_ ((hf _).named x)
      rw [crewNamed, List.find?_isSome]
      simpa using ha
  · exact .refl w s

end Sys2Proof.Proofs
end

section
/-!
PROOFS. Each operation that words and events share, and what it keeps of the crews.
-/

namespace Sys2Proof.Proofs
open Sys2Proof Sys2Proof.Machine

set_option Elab.async false

variable {w : Prop} {r s : State}

/-! ### Crews and galleries -/

theorem changeCrew_find? {u uid : Nat} {f : Crew → Crew} (hv : ∀ c, crewView (f c) = crewView c) (l : List Crew) :
    ((changeCrew uid f l).find? (·.uid == u)).map crewView = (l.find? (·.uid == u)).map crewView := by
  have same (c : Crew) : (if c.uid = uid then f c else c).uid = c.uid := by
    split
    · exact congrArg Prod.fst (hv c)
    · rfl
  induction l with
  | nil => rfl
  | cons c l ih =>
    simp only [changeCrew, List.map_cons, List.find?_cons, same] at ih ⊢
    cases c.uid == u with
    | false => exact ih
    | true =>
      refine congrArg some ?_
      split
      · exact hv c
      · rfl

/-- A change of the crew with a name, wherever it is, that keeps its bounds, ACT and the saved entries. -/
theorem kept_onCrew {uid : Nat} {f : Crew → Crew} (hb : ∀ c, c.Bounded → (f c).Bounded)
    (hv : ∀ c, crewView (f c) = crewView c) (h : Kept w r s) : Kept w r (s.onCrew uid f) := by
  unfold State.onCrew
  split
  · exact kept_focusCrew h (hb _) (hv _)
  · have bound (l : List Crew) (hl : ∀ c ∈ l, c.Bounded) : ∀ c ∈ changeCrew uid f l, c.Bounded := by
      intro c hc
      obtain ⟨d, hd, rfl⟩ := List.mem_map.1 hc
      split
      · exact hb d (hl d hd)
      · exact hl d hd
    refine h.trans ⟨fun b => ?_, fun _ => ⟨fun u => ?_, fun _ => rfl, rfl, id⟩⟩
    · rw [bounded_iff] at b ⊢
      obtain ⟨hc, hcs, hsv⟩ := b
      refine ⟨hc, bound _ hcs, fun v hv => ?_⟩
      obtain ⟨v0, h0, rfl⟩ := List.mem_map.1 hv
      exact bound _ (hsv v0 h0)
    · rw [crewNamed_eq, crewNamed_eq s]
      split
      · rfl
      · exact changeCrew_find? hv s.crews

/-- A change of the crew with a name of what the bounds do not speak of. -/
theorem kept_onCrew_like {uid : Nat} {f : Crew → Crew} (hf : ∀ c, Crew.Like c (f c)) (h : Kept w r s) :
    Kept w r (s.onCrew uid f) := kept_onCrew (fun c => (hf c).bounded) (fun c => (hf c).view) h

theorem like_retire (c : Crew) : Crew.Like c (retire c) := ⟨rfl, rfl, List.filter_sublist⟩
theorem like_past (c : Crew) : Crew.Like c c.past := ⟨rfl, rfl, List.filter_sublist⟩

theorem like_setS (c : Crew) (d : BitVec 6) (x : Word) : Crew.Like c (setS c d x) :=
  ⟨by simp [crewView], by simp, by simp⟩

theorem like_setM (c : Crew) (d : BitVec 3) (x : ThreadSet) : Crew.Like c (setM c d x) :=
  ⟨by simp [crewView], by simp, by simp⟩

/-! ### Memory, save records and region blocks -/

theorem kept_writeByte (pa : Nat) (b : Byte) (h : Kept w r s) : Kept w r (writeByte s pa b) := by
  rw [writeByte_mem]; exact kept_update h

theorem kept_writeBytes (pa : Nat) (bs : List Byte) (h : Kept w r s) : Kept w r (writeBytes s pa bs) := by
  rw [writeBytes_mem]; exact kept_update h

theorem kept_writeNat (pa n x : Nat) (h : Kept w r s) : Kept w r (writeNat s pa n x) := kept_writeBytes pa _ h

theorem kept_writeVault (a : Nat) (bs : List Byte) (h : Kept w r s) : Kept w r (writeVault s a bs) := by
  rw [writeVault_vault]; exact kept_update h

theorem kept_savePut (g : Gallery) (save : Word) (bs : List Byte) : ∀ {s : State} (off : Nat), Kept w r s →
    Kept w r (savePut s g save off bs) := by
  induction bs with
  | nil => exact fun off h => h
  | cons b bs ih =>
    intro s off h
    unfold savePut
    refine ih _ ?_
    split
    · exact h
    · exact kept_writeByte _ _ h

theorem kept_saveMend (g : Gallery) (save : Word) (off n : Nat) (h : Kept w r s) : Kept w r (saveMend s g save off n) := by
  unfold saveMend
  split
  · exact h
  · exact kept_update h

theorem kept_putSaveQuiet (uid : Nat) (h : Kept w r s) : Kept w r (putSaveQuiet s uid) := by
  unfold putSaveQuiet
  split
  · exact h
  · split
    · exact h
    · exact kept_saveMend _ _ _ _ (kept_savePut _ _ _ _ h)

theorem kept_syncQuiet (path : List Nat) (h : Kept w r s) : Kept w r (syncQuiet s path) := by
  unfold syncQuiet
  refine kept_foldl (fun s pa => kept_foldl (fun t x => ?_) _ (.refl w s)) _ h
  split
  · exact .refl w t
  · exact kept_writeNat _ _ _ (.refl w t)

theorem kept_enqueueResume (gid : Nat) (h : Kept w r s) : Kept w r (enqueueResume s gid) := by
  unfold enqueueResume
  split
  · exact h
  · split
    · exact h
    · split
      · exact h
      · exact kept_syncQuiet _ (kept_update h)

/-! ### The Lamproom -/

theorem kept_wake (uid : Nat) (st : BitVec 2) (h : Kept w r s) : Kept w r (wake s uid st) := by
  unfold wake
  split
  · exact h
  · exact kept_putSaveQuiet _ (kept_enqueueResume _ (kept_onCrew_like (fun c => ⟨rfl, rfl, .refl _⟩) h))

theorem kept_clearFilters (h : Kept w r s) : Kept w r (clearFilters s) := kept_update h

theorem kept_wakeEntries (hit : LampEntry → Bool) (st : BitVec 2) (h : Kept w r s) : Kept w r (wakeEntries s hit st) :=
  kept_clearFilters (kept_foldl (fun s _ => kept_wake _ _ (.refl w s)) _ (kept_update h))

theorem kept_relightLines (n : Nat) : ∀ {s : State} (l : List Nat), Kept w r s → Kept w r (relightLines n s l) := by
  induction n with
  | zero => intro s l h; cases l <;> exact h
  | succ n ih =>
    intro s l h
    cases l with
    | nil => exact h
    | cons x l => exact ih _ (kept_wakeEntries _ _ h)

theorem kept_relightAll (l : List Nat) (h : Kept w r s) : Kept w r (relightAll s l) := by
  unfold relightAll
  split
  · exact h
  · exact kept_relightLines _ _ h

theorem kept_relightRun (pa n : Nat) (h : Kept w r s) : Kept w r (relightRun s pa n) := kept_relightAll _ h

theorem kept_saveWrite (g : Gallery) (save : Word) (off : Nat) (bs : List Byte) (h : Kept w r s) :
    Kept w r (saveWrite s g save off bs) := by
  have h1 := kept_saveMend g save off bs.length (kept_savePut g save bs off h)
  unfold saveWrite
  dsimp only
  split
  · exact h1
  · exact kept_relightAll _ h1

theorem kept_putSave0 (uid : Nat) (h : Kept w r s) : Kept w r (putSave0 s uid) := by
  unfold putSave0
  split
  · exact h
  · split
    · exact h
    · exact kept_saveWrite _ _ _ _ h

theorem kept_putBytes (pa : Nat) (bs : List Byte) (h : Kept w r s) : Kept w r (putBytes s pa bs) :=
  kept_writeBytes _ _ (kept_update h)

theorem kept_hardwareWrite (pa : Nat) (bs : List Byte) (h : Kept w r s) : Kept w r (hardwareWrite s pa bs) :=
  kept_relightRun _ _ (kept_putBytes _ _ h)

/-! ### Rings, fault records and teardowns -/

theorem kept_setLost (pa : Nat) (h : Kept w r s) : Kept w r (setLost s pa) := by
  unfold setLost
  split
  · exact h
  · exact kept_hardwareWrite _ _ h

theorem kept_countError (h : Kept w r s) : Kept w r (countError s) := kept_update h

theorem kept_dropSlot (xl : State → Need → Nat → Except Cause Place) (cb : Nat) (h : Kept w r s) :
    Kept w r (dropSlot s xl cb) := by
  unfold dropSlot
  split
  · exact kept_countError h
  · exact kept_countError (kept_setLost _ h)

theorem kept_ringPush (xl : State → Need → Nat → Except Cause Place) (cb : Nat) (b : Byte) (p : List Byte)
    (h : Kept w r s) : Kept w r (ringPush s xl cb b p).1 := by
  unfold ringPush
  split
  · exact kept_countError h
  · split
    · exact kept_dropSlot _ _ h
    · split
      · exact kept_countError (kept_setLost _ h)
      · split
        · exact kept_setLost _ h
        · split
          · exact kept_countError (kept_setLost _ h)
          · exact kept_hardwareWrite _ _ (kept_hardwareWrite _ _ (kept_hardwareWrite _ _ h))

theorem kept_dropUnplaced (gone : Record → Bool) (h : Kept w r s) : Kept w r (dropUnplaced s gone) := kept_update h

/-- A crew that a teardown finds in the Lamproom or at a barrier is halted, or woken (R306). -/
theorem kept_tearWaiter (e : LampEntry) (h : Kept w r s) : Kept w r (match s.crew? e.uid with
    | none => s
    | some c =>
      match c.status with
      | .parked .barc => putSaveQuiet (s.onCrew e.uid fun c => { c with status := .halted }) e.uid
      | _ => wake s e.uid 2) := by
  split
  · exact h
  · split
    · exact kept_putSaveQuiet _ (kept_onCrew_like (fun c => ⟨rfl, rfl, .refl _⟩) h)
    · exact kept_wake _ _ h

theorem kept_tearOne (part block : Nat) (h : Kept w r s) : Kept w r (tearOne s part block) := by
  unfold tearOne
  split
  · exact h
  · exact kept_relightAll _ (kept_syncQuiet _ (kept_foldl (fun s v => kept_enqueueResume _ (.refl w s)) _
      (kept_foldl (fun s e => kept_tearWaiter e (.refl w s)) _ (kept_update h))))

theorem kept_tearDomain (q : Record) (h : Kept w r s) : Kept w r (tearDomain s q) := by
  unfold tearDomain
  split
  · exact h
  · split
    · exact kept_tearOne _ _ h
    · exact kept_foldl (fun s q => kept_tearOne _ _ (.refl w s)) _ h

theorem kept_regionFault (q : Record) (f : FaultRec) (h : Kept w r s) : Kept w r (regionFault s q f) := by
  have h1 (ring : Nat) : Kept w r (if ring == 0 then countError s
      else (ringPush s (fun s n va => regionXlate s q n va) ring (BitVec.ofNat 8 f.cause.code) (f.bytes s.timens)).1) := by
    split
    · exact kept_countError h
    · exact kept_ringPush _ _ _ _ h
  unfold regionFault
  split
  · exact h
  · dsimp only
    split
    · exact kept_tearDomain _ (h1 _)
    · exact h1 _

theorem kept_crewFault (uid : Nat) (f : FaultRec) (h : Kept w r s) : Kept w r (crewFault s uid f) := by
  unfold crewFault
  split
  · exact kept_countError h
  · split
    · exact kept_countError h
    · exact kept_regionFault _ _ h

/-! ### Writes and reductions at their slices -/

theorem kept_dropPassed (pa n : Nat) (h : Kept w r s) : Kept w r (dropPassed s pa n) :=
  kept_foldl (fun s _ => kept_regionFault _ _ (.refl w s)) _ (kept_update h)

theorem kept_registerWrite (pa : Nat) (bs : List Byte) (h : Kept w r s) : Kept w r (registerWrite s pa bs) := by
  have h1 := kept_putBytes pa bs h
  refine kept_relightRun _ _ ?_
  split
  · exact h1
  · exact kept_dropPassed _ _ h1

theorem kept_applyHeld (n : Nat) : ∀ {s : State} (obj : Nat), Kept w r s → Kept w r (applyHeld n s obj) := by
  induction n with
  | zero => exact fun obj h => h
  | succ n ih =>
    intro s obj h
    simp only [applyHeld]
    split
    · exact h
    · exact ih _ (kept_registerWrite _ _ (kept_update h))

theorem kept_contribute (x : Contribution) (h : Kept w r s) : Kept w r (contribute s x).1 :=
  contribute_keeps s x (fun q => Kept w r q.1) (fun _ => h) fun _ => kept_applyHeld _ _ (kept_update h)

theorem kept_deferEccAt (a : Word) (t k : Nat) (x : Word) (h : Kept w r s) : Kept w r (deferEccAt s a t k x) := by
  unfold deferEccAt
  dsimp only
  split
  · exact kept_crewFault _ _ h
  · exact kept_update (kept_crewFault s.c.uid _ h)

theorem kept_settleDups (h : Kept w r s) : Kept w r (settleDups s) := by
  unfold settleDups
  refine kept_foldl (fun s d => ?_) _ (kept_update h)
  split
  · exact kept_crewFault _ _ (.refl w s)
  · exact kept_update (.refl w s)

theorem kept_takeAnswer (x : Contribution) (a : Answer) (h : Kept w r s) : Kept w r (takeAnswer x (s, a)) := by
  cases a with
  | accepted => exact kept_update h
  | duplicate => exact kept_update h
  | poisoned => exact kept_deferEccAt _ _ _ _ (kept_update h)
  | tooFar =>
    change Kept w r (if x.seen.isSome then s else refuse s x)
    split
    · exact h
    · exact kept_update h

theorem kept_offer (x : Contribution) (h : Kept w r s) : Kept w r (offer s x) :=
  kept_like (kept_settleDups (kept_takeAnswer x _ (kept_contribute x h))) (like_retire _)

theorem kept_retrySome (n : Nat) : ∀ {s : State}, Kept w r s → Kept w r (retrySome n s) := by
  induction n with
  | zero => exact fun h => h
  | succ n ih =>
    intro s h
    simp only [retrySome]
    split
    · exact h
    · exact ih (kept_inFocus (fun s => kept_offer _ (.refl w s)) _ h)

theorem kept_retryPending (h : Kept w r s) : Kept w r (retryPending s) := kept_retrySome _ h

theorem kept_offerSome (n : Nat) : ∀ {s : State}, Kept w r s → Kept w r (offerSome n s) := by
  induction n with
  | zero => exact fun h => h
  | succ n ih =>
    intro s h
    simp only [offerSome]
    split
    · exact h
    · exact ih (kept_retryPending (kept_offer _ h))

theorem kept_offerAll (h : Kept w r s) : Kept w r (offerAll s) := by
  unfold offerAll
  split
  · exact h
  · exact kept_offerSome _ h

theorem kept_performGlobal (pa : Nat) (bs : List Byte) (h : Kept w r s) : Kept w r (performGlobal s pa bs) :=
  performGlobal_keeps s pa bs (Kept w r) (kept_registerWrite _ _ h) fun _ => kept_retryPending

theorem kept_performNat (pa n x : Nat) (h : Kept w r s) : Kept w r (performNat s pa n x) := kept_performGlobal _ _ h

theorem kept_performWrite (a : WriteAcc) (h : Kept w r s) : Kept w r (performWrite s a) := by
  unfold performWrite
  split
  · exact kept_writeVault _ _ (kept_update h)
  · exact kept_performGlobal _ _ h

theorem kept_performOf (p : PStore) (a : WriteAcc) (h : Kept w r s) : Kept w r (performOf p s a) := by
  unfold performOf
  split
  · exact kept_performWrite _ h
  · exact kept_crewFault _ _ h

theorem kept_performAll (h : Kept w r s) : Kept w r (performAll s) :=
  kept_foldl (fun s p => kept_foldl (fun s a => kept_performOf p a (.refl w s)) _ (.refl w s)) _ (kept_update h)

theorem kept_atHome (h : Kept w r s) : Kept w r (atHome s) := kept_offerAll (kept_performAll h)

/-! ### Landings and the drain -/

@[simp] theorem setVs_gid (g : Gallery) (k : Nat) (l : List (Nat × Word)) : (setVs g k l).gid = g.gid := by
  induction l generalizing g with
  | nil => rfl
  | cons p l ih => exact (ih _).trans rfl

@[simp] theorem setVs_live (g : Gallery) (k : Nat) (l : List (Nat × Word)) : (setVs g k l).live = g.live := by
  induction l generalizing g with
  | nil => rfl
  | cons p l ih => exact (ih _).trans rfl

theorem kept_landResult (l : Landing) (h : Kept w r s) : Kept w r (landResult s l) := by
  have like : Crew.Like s.c { s.c with xstat := s.c.xstat ||| l.xflags } := ⟨rfl, rfl, .refl _⟩
  unfold landResult
  dsimp only
  split
  · exact kept_like h (like.trans (like_setS _ _ _))
  · exact kept_like h (like.trans (like_setM _ _ _))
  · exact kept_like h like (setVs_gid ..) (setVs_live ..)
  · exact kept_deferEccAt _ _ _ _ h

theorem kept_landAll (h : Kept w r s) : Kept w r (landAll s) :=
  kept_foldl (fun s l => kept_landResult l (.refl w s)) _ (kept_update h)

theorem kept_drain (h : Kept w r s) : Kept w r (drain s) := by
  have h1 := kept_performAll (kept_offerAll (kept_performAll (kept_landAll h)))
  unfold drain
  generalize performAll (offerAll (performAll (landAll s))) = s1 at h1 ⊢
  exact kept_like h1 ⟨rfl, rfl, List.filter_sublist⟩

/-! ### Traps -/

theorem kept_haltCrew (f : FaultRec) (h : Kept w r s) : Kept w r (haltCrew s f) := by
  have h1 : Kept w r (putSave0 { s with c := { s.c with status := .halted } } s.c.uid) := kept_putSave0 _ (kept_update h)
  unfold haltCrew
  dsimp only
  split
  · exact kept_update (kept_crewFault _ _ h1)
  · exact kept_crewFault _ _ h1

theorem kept_saveTrap (t : TrapReq) (h : Kept w r s) : Kept w r (saveTrap s t) := by
  unfold saveTrap
  dsimp only
  repeat apply kept_saveWrite
  exact h

/-- A crew without a count of a flag, of an admitted level and with the stack of a crew in bounds. -/
theorem bounded_of_noFlags {c d : Crew} (b : c.Bounded) (hp : d.privl ≠ 3) (hs : d.stack = c.stack) (hi : d.incs = []) :
    d.Bounded where
  privl := hp
  depth := by rw [hs]; exact b.depth
  flags f := by simp [flagCount, hi]

theorem kept_enterTrap (t : TrapReq) (h : Kept w r s) : Kept w r (enterTrap s t) := by
  unfold enterTrap
  dsimp only
  split
  · exact kept_haltCrew _ h
  · have h1 := kept_saveTrap t h
    generalize saveTrap s t = s1 at h1 ⊢
    refine kept_focusCrew h1 (fun b => bounded_of_noFlags b ?_ rfl rfl) rfl
    dsimp only
    split <;> decide

theorem kept_takeTrap (t : TrapReq) (h : Kept w r s) : Kept w r (takeTrap s t) := by
  unfold takeTrap
  split
  · exact kept_haltCrew _ h
  · dsimp only
    split
    · exact kept_enterTrap _ (kept_drain h)
    · exact kept_update (kept_drain h)

theorem kept_scalarFault (e : Cause) (a : Word) (k : Nat) (h : Kept w r s) : Kept w r (scalarFault s e a k) :=
  kept_takeTrap _ h

theorem kept_scalarEcc (a : Word) (k : Nat) (h : Kept w r s) : Kept w r (scalarEcc s a k) := kept_takeTrap _ h

/-! ### How a word ends -/

theorem kept_done (h : Kept w r s) : Kept w r (done s) := kept_like h (like_past _)

theorem kept_doneS (d : BitVec 6) (x : Word) (h : Kept w r s) : Kept w r (doneS s d x) :=
  kept_done (kept_like h (like_setS _ _ _))

theorem kept_doneM (d : BitVec 3) (x : ThreadSet) (h : Kept w r s) : Kept w r (doneM s d x) :=
  kept_done (kept_like h (like_setM _ _ _))

theorem kept_jump (a : Word) (h : Kept w r s) : Kept w r (jump s a) :=
  kept_like h ⟨rfl, rfl, List.filter_sublist⟩

theorem kept_link (h : Kept w r s) : Kept w r (link s) := kept_like h (like_setS s.c 63 (s.c.pc + 4))

theorem kept_hold (h : Kept w r s) : Kept w r (hold s) := kept_update h

theorem kept_park (p : Park) (h : Kept w r s) : Kept w r (park s p) := kept_putSave0 _ (kept_update h)

end Sys2Proof.Proofs
end

section
/-!
PROOFS. The rest of the operations that a word can reach, each with what it keeps of the crews.
-/

namespace Sys2Proof.Proofs
open Sys2Proof Sys2Proof.Machine

set_option Elab.async false

variable {w : Prop} {r s : State}

/-! ### Tags and collectives of a crew -/

theorem like_tagUp (c : Crew) (tag : Option (BitVec 6)) : Crew.Like c (tagUp c tag) := by
  cases tag <;> exact ⟨rfl, rfl, .refl _⟩

theorem like_tagDown (c : Crew) (tag : Option (BitVec 6)) (why : Option (BitVec 8)) : Crew.Like c (tagDown c tag why)
    := by
  unfold tagDown
  split
  · exact .refl c
  · split
    · exact ⟨rfl, rfl, .refl _⟩
    · dsimp only
      split <;> exact ⟨rfl, rfl, .refl _⟩

theorem like_setStat (c : Crew) (id : Nat) (status : BitVec 2) (cause : BitVec 8) (peer : Option (BitVec 8)) :
    Crew.Like c (setStat c id status cause peer) := ⟨rfl, rfl, .refl _⟩

/-! ### Scalar words, searches and accesses -/

theorem kept_scalar2 (d a b : BitVec 6) (f : Word → Word → Word) (h : Kept w r s) : Kept w r (scalar2 s d a b f) :=
  kept_doneS _ _ h

theorem kept_scalarI (d a : BitVec 6) (i : BitVec 9) (f : Word → Word → Word) (h : Kept w r s) :
    Kept w r (scalarI s d a i f) := kept_doneS _ _ h

theorem kept_correctSearched (set : ThreadSet) (vs : List (BitVec 7)) (h : Kept w r s) :
    Kept w r (correctSearched s set vs) := by
  unfold correctSearched
  split
  · exact h
  · extract_lets hit src
    exact kept_update h

theorem kept_search (d c : BitVec 3) (set : ThreadSet) (v : BitVec 7) (vs : List (BitVec 7)) (y : Nat → Word)
    (mask : Word)
    (h : Kept w r s) : Kept w r (search s d c set v vs y mask) := by
  unfold search
  extract_lets high
  split
  · exact kept_takeTrap _ h
  split
  · exact kept_takeTrap _ h
  split
  · exact kept_takeTrap _ h
  · have h1 := kept_correctSearched set vs h
    have like : Crew.Like (correctSearched s set vs).c (setM s.c d (setOf ((members set s.g.nthr).filter fun t =>
        responds c mask (searched s t v) (y t)))) := by
      rw [show (correctSearched s set vs).c = s.c by unfold correctSearched; split <;> rfl]
      exact like_setM _ _ _
    exact kept_done (kept_like h1 like)

theorem kept_placedAccess (need : Need) (addr : Word) (align n kind : Nat) (go : Place → State)
    (hgo : ∀ x0, Kept w r (go x0)) (h : Kept w r s) :
    Kept w r (placedAccess s need addr align n kind go) := by
  unfold placedAccess
  split
  · exact kept_scalarFault _ _ _ h
  · exact hgo _

theorem kept_loadAccess (addr : Word) (align n : Nat) (go : Place → State) (hgo : ∀ x0, Kept w r (go x0))
    (h : Kept w r s) :
    Kept w r (loadAccess s addr align n go) := by
  unfold loadAccess
  refine kept_placedAccess _ _ _ _ _ _ (fun x0 => ?_) h
  split
  · exact kept_hold h
  · exact hgo _

theorem kept_deferEcc (addr : Word) (thread reg : Nat) (h : Kept w r s) : Kept w r (deferEcc s addr thread reg) :=
  kept_deferEccAt _ _ _ _ h

theorem kept_landMark (d : BitVec 3) (x : ThreadSet) (h : Kept w r s) : Kept w r (landMark s d x) :=
  kept_done (kept_update h)

theorem kept_storeAccess (addr : Word) (align n : Nat) (go : Place → State) (hgo : ∀ x0, Kept w r (go x0))
    (h : Kept w r s) :
    Kept w r (storeAccess s addr align n go) := by
  unfold storeAccess
  refine kept_placedAccess _ _ _ _ _ _ (fun x0 => ?_) h
  split
  · exact kept_hold h
  · exact hgo _

theorem kept_queueStore (rel : Bool) (l : List WriteAcc) (h : Kept w r s) : Kept w r (queueStore s rel l) := by
  unfold queueStore
  split
  · exact h
  · exact kept_update h

theorem kept_landScalar (d : BitVec 6) (x : Word) (h : Kept w r s) : Kept w r (landScalar s d x) := by
  unfold landScalar
  split
  · exact kept_done h
  · exact kept_done (kept_update h)

theorem kept_getThread (d : BitVec 6) (q : Nat) (t : Option Nat) (h : Kept w r s) : Kept w r (getThread s d q t) := by
  unfold getThread
  split
  · exact kept_takeTrap _ h
  · split
    · exact kept_landScalar _ _ (kept_update h)
    · split
      · exact kept_takeTrap _ h
      · exact kept_landScalar _ _ h

theorem kept_grantParked (h : Kept w r s) : Kept w r (grantParked s) := by
  refine kept_foldl (fun s x => ?_) _ h
  split
  · exact .refl w s
  · split
    · exact kept_putSave0 _ (kept_onCrew_like like_past (kept_update (.refl w s)))
    · exact .refl w s

theorem kept_raiseDeferred (t : TrapReq) (rest : List TrapReq) (h : Kept w r s) :
    Kept w r (raiseDeferred s t rest) := kept_takeTrap _ (kept_update h)

theorem kept_scalarAccess (need : Need) (addr : Word) (align n kind : Nat) (go : Place → State)
    (hgo : ∀ x0, Kept w r (go x0)) (h : Kept w r s) :
    Kept w r (scalarAccess s need addr align n kind go) := by
  unfold scalarAccess
  refine kept_placedAccess _ _ _ _ _ _ (fun x0 => ?_) h
  split
  · exact kept_hold h
  · exact hgo _

theorem kept_atomicAt (p : BitVec 4) (pa n x cmp : Nat) (h : Kept w r s) : Kept w r (atomicAt s p pa n x cmp).2 := by
  unfold atomicAt
  dsimp only
  split
  · exact h
  · exact kept_performNat _ _ _ h

theorem kept_ackLater (h : Kept w r s) : Kept w r (ackLater s) := by
  unfold ackLater
  split
  · exact h
  · exact kept_update h

theorem kept_deviceAccess (need : Need) (addr : Word) (align n kind : Nat) (go : Place → State)
    (hgo : ∀ x0, Kept w r (go x0)) (h : Kept w r s) :
    Kept w r (deviceAccess s need addr align n kind go) := by
  unfold deviceAccess
  refine kept_scalarAccess _ _ _ _ _ _ (fun x0 => ?_) h
  split
  · exact kept_scalarFault _ _ _ h
  · exact hgo _

/-! ### Waits in the Lamproom and relays -/

theorem kept_setFilter (e : LampEntry) (h : Kept w r s) : Kept w r (setFilter s e) := by
  unfold setFilter
  extract_lets b
  split
  · exact h
  · exact kept_update h

theorem kept_register {t : State} (q : Record) (x : LampEntry) (e : register s q x = some t) (h : Kept w r s) :
    Kept w r t := by
  unfold register at e
  dsimp only at e
  split at e
  · cases e
    exact kept_update h
  · split at e
    · cases e
    · split at e <;> cases e
      · exact kept_setFilter _ (kept_update h)
      · exact kept_setFilter _ (kept_update h)

theorem kept_relayAccess (need : Need) (addr : Word) (go : State → Nat → Place → State)
    (hgo : ∀ s x1 x2, Kept w r s → Kept w r (go s x1 x2)) (h : Kept w r s) :
    Kept w r (relayAccess s need addr go) := by
  unfold relayAccess
  split
  · exact kept_scalarFault _ _ _ h
  · split
    · exact kept_hold h
    · extract_lets s1
      have h1 : Kept w r s1 := kept_atHome h
      split
      · exact kept_scalarEcc _ _ h1
      · exact hgo _ _ _ h1

theorem kept_relayTrap (addr : Word) (h : Kept w r s) : Kept w r (relayTrap s addr) := kept_takeTrap _ h

theorem kept_putRelay (q : Relay) (next total : Nat) (bagg : Word) (h : Kept w r s) :
    Kept w r (putRelay s q next total bagg) := kept_performGlobal _ _ (kept_update h)

theorem kept_relayApply (q : Relay) (c : Word) (next : Nat) (h : Kept w r s) : Kept w r (relayApply s q c next) := by
  unfold relayApply
  extract_lets x
  exact kept_putRelay _ _ _ _ h

theorem kept_relayHeld (n : Nat) : ∀ {s : State} (pa : Nat), Kept w r s → Kept w r (relayHeld n s pa) := by
  induction n with
  | zero => exact fun pa h => h
  | succ n ih =>
    intro s pa h
    simp only [relayHeld]
    split
    · exact h
    · split
      · exact h
      · exact ih _ (kept_relayApply _ _ _ h)

theorem kept_configure (pa cfg : Nat) (h : Kept w r s) : Kept w r (configure s pa cfg) :=
  kept_performGlobal _ _ (kept_performNat _ _ _ h)

theorem kept_freeStorage (q : Relay) (h : Kept w r s) : Kept w r (freeStorage s q) :=
  kept_update (kept_foldl (fun s p => kept_writeBytes _ _ (.refl _ _)) _ h)

theorem kept_releaseRelay (pa : Nat) (h : Kept w r s) : Kept w r (releaseRelay s pa) := by
  unfold releaseRelay
  split
  · exact h
  · exact kept_freeStorage _ (kept_update h)

/-! ### Hoist programs and follow-on images -/

theorem kept_tagWait (all : Bool) (mask : Word) (h : Kept w r s) : Kept w r (tagWait s all mask) := by
  unfold tagWait
  split
  · exact kept_park _ h
  · split
    · exact kept_done h
    · exact kept_takeTrap _ h

theorem kept_opTrap (f : OpFault) (h : Kept w r s) : Kept w r (opTrap s f) := kept_takeTrap _ h

theorem kept_onHoist (id : Nat) (f : HoistCmd → HoistCmd) (h : Kept w r s) : Kept w r (onHoist s id f) :=
  kept_update h

theorem kept_grantOne (core : Nat) (h : Kept w r s) : Kept w r (grantOne s core) := by
  unfold grantOne
  split
  · exact h
  · split
    · exact h
    · exact kept_onHoist _ _ h

theorem kept_grantHoist (cluster : Nat) (h : Kept w r s) : Kept w r (grantHoist s cluster) := by
  unfold grantHoist
  refine kept_foldl (fun s x => ?_) _ h
  exact kept_grantOne _ (.refl _ _)

theorem kept_ringFill (k : Client) (ring : Word) (slot : Nat) (payload : List Byte) (h : Kept w r s) :
    Kept w r (ringFill s k ring slot payload) := by
  unfold ringFill
  split
  · exact kept_countError h
  · exact kept_countError (kept_setLost _ h)
  · split
    · exact kept_countError (kept_setLost _ h)
    · exact kept_performGlobal _ _ (kept_performGlobal _ _ h)

theorem kept_resumeTags (uid : Nat) (h : Kept w r s) : Kept w r (resumeTags s uid) := by
  unfold resumeTags
  split
  · exact h
  · split
    · split
      · exact kept_putSave0 _ (kept_inFocus (fun s => kept_tagWait _ _ (.refl _ _)) _ h)
      · exact h
    · exact h

theorem kept_putTags (uid : Nat) (h : Kept w r s) : Kept w r (putTags s uid) := by
  unfold putTags
  split
  · exact h
  · split
    · exact h
    · split
      · exact h
      · exact kept_saveWrite _ _ _ _ (kept_saveWrite _ _ _ _ h)

theorem kept_completeTag (uid : Nat) (tag : Option (BitVec 6)) (why : Option Cause) (h : Kept w r s) :
    Kept w r (completeTag s uid tag why) := by
  unfold completeTag
  split
  · exact h
  · exact kept_resumeTags _ (kept_putTags _ (kept_onCrew_like (fun c => like_tagDown _ _ _) h))

theorem kept_giveUpFollow (k : Client) (f : Follow) (why : Cause) (h : Kept w r s) :
    Kept w r (giveUpFollow s k f why) := by
  unfold giveUpFollow
  extract_lets c s1
  have h1 : Kept w r s1 := kept_ringFill _ _ _ _ h
  exact kept_completeTag _ _ _ h1

theorem kept_settleExit (uid : Nat) (h : Kept w r s) : Kept w r (settleExit s uid) := by
  unfold settleExit
  split
  · exact h
  · split
    · exact h
    · extract_lets busy s1
      have h1 : Kept w r s1 := kept_update h
      split
      · exact h1
      · exact kept_update h1

theorem kept_endHoist (q : HoistCmd) (why : Option Fail) (h : Kept w r s) : Kept w r (endHoist s q why) := by
  unfold endHoist
  extract_lets s1 s2
  have h11 : Kept w r s1 := kept_update h
  have h2 : Kept w r s2 := by
    unfold s2
    split
    · exact h11
    · exact kept_crewFault _ _ h11
  exact kept_settleExit _ (kept_completeTag _ _ _ h2)

theorem kept_failHoist (q : HoistCmd) (cause : Cause) (addr : Word) (followOn : Bool) (h : Kept w r s) :
    Kept w r (failHoist s q cause addr followOn) := by
  unfold failHoist
  extract_lets k obj s1
  have h11 : Kept w r s1 := by
    unfold s1
    split
    · exact h
    · exact kept_giveUpFollow _ _ _ h
  exact kept_endHoist _ _ h11

theorem kept_ringReserve {t : State} {x : Option Nat} (k : Client) (ring : Word) (e : ringReserve s k ring = (t, x))
    (h : Kept w r s) : Kept w r t := by
  unfold ringReserve at e
  split at e <;> simp only [Prod.mk.injEq] at e <;> obtain ⟨rfl, -⟩ := e
  · exact kept_countError h
  · exact kept_countError (kept_setLost _ h)
  · exact kept_performNat _ _ _ h

theorem kept_takeFollow (q : HoistCmd) (a : Word) (image : List Byte) (h : Kept w r s) :
    Kept w r (takeFollow s q a image) := by
  unfold takeFollow
  extract_lets crew k tag
  split
  · exact kept_failHoist _ _ _ _ h
  · split
    · exact kept_failHoist _ _ _ _ h
    · split
      · exact h
      · split
        next s1 e =>
          exact kept_onHoist _ _ (kept_ringReserve _ _ e h)
        next s1 _ e =>
          exact kept_onHoist _ _ (kept_onCrew_like (fun c => like_tagUp _ _) (kept_ringReserve _ _ e h))

theorem kept_reportDrop (k : Client) (addr : Nat) (h : Kept w r s) : Kept w r (reportDrop s k addr) :=
  kept_crewFault _ _ h

/-- A read of one piece leaves the state, but for a piece that a route drops, which is counted (R304, R333). -/
theorem kept_readPiece (k : Client) (a n : Nat) (p : EngPlace) (h : Kept w r s) : Kept w r (match p with
      | .vault x => (s, vaultBytes s x n)
      | .global x => (s, readBytes s x n)
      | .dropped =>
        let s1 := reportDrop s k a
        ({ s1 with fresh := s1.fresh + 1 }, (List.range n).map (Config.freeByte s.fresh))).1 := by
  split
  · exact h
  · exact h
  · exact kept_update (kept_reportDrop _ _ h)

theorem kept_engReadPieces (k : Client) (vault : Bool) (l : List (Nat × Nat)) : ∀ {s t : State} {bs : List Byte},
    engReadPieces k vault l s = .ok (t, bs) → Kept w r s → Kept w r t := by
  induction l with
  | nil =>
    intro s t bs e h
    simp only [engReadPieces, Except.ok.injEq, Prod.mk.injEq] at e
    exact e.1 ▸ h
  | cons x l ih =>
    obtain ⟨a, n⟩ := x
    intro s t bs e h
    unfold engReadPieces at e
    split at e
    · cases e
    · next p _ =>
      have h1 := kept_readPiece k a n p h
      dsimp only at e
      split at e
      · cases e
      · next e1 =>
        cases e
        exact ih e1 h1

theorem kept_engRead {t : State} {bs : List Byte} (k : Client) (vault : Bool) (a n : Nat)
    (e : engRead s k vault a n = .ok (t, bs)) (h : Kept w r s) : Kept w r t := kept_engReadPieces k vault _ e h

theorem kept_followImage {t : State} {bs : List Byte} (k : Client) (ring : Option Word) (a : Word)
    (e : followImage s k ring a = .ok (t, bs)) (h : Kept w r s) : Kept w r t := by
  unfold followImage at e
  split at e
  · cases e
  · next e1 =>
    dsimp only at e
    split at e
    · cases e
    · cases e
      exact kept_engRead _ _ _ _ e1 h

theorem kept_beginStep (q : HoistCmd) (c : Word) (step : Nat) (h : Kept w r s) : Kept w r (beginStep s q c step) := by
  unfold beginStep
  extract_lets k
  split
  · exact kept_failHoist _ _ _ _ h
  · split
    next e =>
      exact kept_failHoist _ _ _ _ h
    next s1 _ e =>
      extract_lets o start
      split
      · exact kept_failHoist _ _ _ _ (kept_engRead _ _ _ _ e h)
      · split
        · exact kept_failHoist _ _ _ _ (kept_engRead _ _ _ _ e h)
        · split
          · exact kept_onHoist _ _ (kept_engRead _ _ _ _ e h)
          · split
            next e1 =>
              exact kept_failHoist _ _ _ _ (kept_engRead _ _ _ _ e h)
            next s2 _ e1 =>
              exact kept_takeFollow _ _ _ (kept_onHoist _ _ (kept_followImage _ _ _ e1 (kept_engRead _ _ _ _ e h)))

/-- A change of the gallery with a name that keeps its name and LIVE. -/
theorem kept_onGal (gid : Nat) (f : Gallery → Gallery) (hf : ∀ g, (f g).gid = g.gid ∧ (f g).live = g.live)
    (h : Kept w r s) : Kept w r (s.onGal gid f) := by
  unfold State.onGal
  split
  · exact kept_update h (hg := (hf _).1) (hl := (hf _).2)
  · refine h.trans ⟨fun b => ?_, fun _ => ⟨fun _ => rfl, fun n => ?_, rfl, id⟩⟩
    · rw [bounded_iff] at b ⊢
      obtain ⟨hc, hcs, hsv⟩ := b
      refine ⟨hc, hcs, fun v hv => ?_⟩
      obtain ⟨v0, h0, rfl⟩ := List.mem_map.1 hv
      have h1 := hsv v0 h0
      split <;> exact h1
    · rw [galNamed_eq, galNamed_eq s]
      split
      · rfl
      · dsimp only
        induction s.gals with
        | nil => rfl
        | cons g l ih =>
          have hg : (if g.gid = gid then f g else g).gid = g.gid ∧ (if g.gid = gid then f g else g).live = g.live := by
            split
            · exact hf g
            · exact ⟨rfl, rfl⟩
          simp only [List.map_cons, List.find?_cons, hg.1] at ih ⊢
          cases g.gid == n with
          | false => exact ih
          | true => exact congrArg some hg.2

theorem kept_correct (g : Gallery) (hit : Nat → Bool) (h : Kept w r s) : Kept w r (s.correct g hit) := by
  have h1 : Kept w r (s.onGal g.gid fun h => { h with soft := h.soft.filter fun e => !hit e.1 }) :=
    kept_onGal _ _ (fun _ => ⟨rfl, rfl⟩) h
  exact kept_update h1

theorem kept_postFollow {t : State} (k : Client) (f : Follow) (e : postFollow s k f = .ok t) (h : Kept w r s) :
    Kept w r t := by
  have put (vals : List (BitVec 32)) {s : State} (h : Kept w r s) : Kept w r
      (if vals = [] then s else { s with scales := s.scales ++ [⟨f.ring, k.uid, f.slot, vals⟩] }) := by
    split
    · exact h
    · exact kept_update h
  unfold postFollow at e
  dsimp only at e
  split at e
  · cases e
    exact kept_ringFill _ _ _ _ (put _ h)
  · split at e
    · cases e
    · split at e
      · cases e
      · split at e <;> cases e
        exact kept_ringFill _ _ _ _ (put _ (kept_correct _ _ h))

theorem kept_finishHoist (q : HoistCmd) (h : Kept w r s) : Kept w r (finishHoist s q) := by
  have follow {t : State} (e : (match q.follow with
      | none => Except.ok s
      | some f => postFollow s (clientOf s q.uid) f) = .ok t) : Kept w r t := by
    split at e
    · cases e
      exact h
    · exact kept_postFollow _ _ e h
  unfold finishHoist
  extract_lets k
  split
  · exact kept_failHoist _ _ _ _ h
  · next s1 e =>
    have h1 := follow e
    split
    · exact kept_endHoist _ _ h1
    · split
      · exact kept_endHoist _ _ h1
      · exact kept_onHoist _ _ h1

theorem kept_advanceHoist (cluster : Nat) (h : Kept w r s) : Kept w r (advanceHoist s cluster) := by
  unfold advanceHoist
  refine kept_foldl (fun s h0 => ?_) _ h
  split
  · exact .refl _ _
  · split
    · split
      · exact .refl _ _
      · exact kept_takeFollow _ _ _ (.refl _ _)
    · split
      · split
        · exact .refl _ _
        · exact kept_beginStep _ _ _ (.refl _ _)
      · split
        · exact kept_finishHoist _ (.refl _ _)
        · exact .refl _ _
    · split
      · exact kept_finishHoist _ (.refl _ _)
      · exact .refl _ _

theorem kept_settleHoist (cluster : Nat) (h : Kept w r s) : Kept w r (settleHoist s cluster) :=
  kept_grantHoist _ (kept_advanceHoist _ h)

theorem kept_queueHoist (tag : Option (BitVec 6)) (o : HoistOp) (chain : Option (Word × Nat)) (fw : Option Follow)
    (h : Kept w r s) : Kept w r (queueHoist s tag o chain fw) := by
  unfold queueHoist
  extract_lets q c1 c2
  have like : Crew.Like s.c c2 := by
    unfold c2
    split
    · exact like_tagUp _ _
    · exact (like_tagUp _ _).trans (like_tagUp _ _)
  exact kept_settleHoist _ (kept_done (kept_like h like))

theorem kept_moveWord (tag : Option (BitVec 6)) (o : HoistOp) (h : Kept w r s) : Kept w r (moveWord s tag o) := by
  unfold moveWord
  split
  · exact kept_opTrap _ h
  · split
    · exact kept_hold h
    · extract_lets s1 k
      have h1 : Kept w r s1 := kept_atHome h
      split
      · split
        · exact kept_hold h
        · exact kept_queueHoist _ _ _ _ h1
      · split
        next e =>
          exact kept_opTrap _ h
        next s2 _ e =>
          extract_lets ring
          split
          · exact kept_scalarEcc _ _ h
          · split
            · exact kept_hold h
            · split
              next s3 e1 =>
                exact kept_queueHoist _ _ _ _ (kept_ringReserve _ _ e1 (kept_followImage _ _ _ e h1))
              next s3 _ e1 =>
                exact kept_queueHoist _ _ _ _ (kept_ringReserve _ _ e1 (kept_followImage _ _ _ e h1))

/-! ### Matrix commands, tokens and publications -/

theorem kept_mxTrap (h : Kept w r s) : Kept w r (mxTrap s) := kept_takeTrap _ h

theorem kept_postWord (tag : Option (BitVec 6)) (w0 a b ws : Nat) (scales : List (BitVec 32)) (h : Kept w r s) :
    Kept w r (postWord s tag w0 a b ws scales) := by
  unfold postWord
  split
  · exact kept_mxTrap h
  · extract_lets k s1
    have h1 : Kept w r s1 := kept_atHome h
    split
    · exact kept_scalarEcc _ _ h
    · split
      · exact kept_hold h
      · split
        next s2 e =>
          exact kept_done (kept_ringReserve _ _ e h1)
        next s2 _ e =>
          extract_lets s3 s4
          have h3 : Kept w r s3 := by
            unfold s3
            split
            · exact kept_ringReserve _ _ e h1
            · exact kept_update (kept_ringReserve _ _ e h1)
          have h4 : Kept w r s4 := kept_ringFill _ _ _ _ h3
          exact kept_done (kept_like h4 (like_tagUp _ _))

theorem kept_tokenTrap (tile : Nat) (h : Kept w r s) : Kept w r (tokenTrap s tile) := kept_takeTrap _ h

theorem kept_tokenWord (x : Word) (go : Nat → State) (hgo : ∀ x0, Kept w r (go x0)) (h : Kept w r s) :
    Kept w r (tokenWord s x go) := by
  unfold tokenWord
  split
  · exact kept_tokenTrap _ h
  · exact hgo _

theorem kept_putToken (t : Token) (h : Kept w r s) : Kept w r (putToken s t) := kept_update h

theorem kept_publishTrap (va : Word) (h : Kept w r s) : Kept w r (publishTrap s va) := kept_scalarFault _ _ _ h

theorem kept_putEntry (idx : Nat) (i : PubImage) (h : Kept w r s) : Kept w r (putEntry s idx i) := by
  unfold putEntry
  extract_lets rest
  exact kept_update h

/-! ### Records and their queues -/

theorem kept_releasing (act : State → State) (hact : ∀ s, Kept w r s → Kept w r (act s)) (h : Kept w r s) :
    Kept w r (releasing s act) := by
  unfold releasing
  split
  · exact hact _ (kept_atHome h)
  · exact kept_hold h

theorem kept_pushQueue (q : Record) (h : Kept w r s) : Kept w r (pushQueue s q).1 := by
  unfold pushQueue
  dsimp only
  split
  · exact h
  · exact kept_ringPush _ _ _ _ h

theorem kept_knowRegions (part : Nat) (path : List Nat) (h : Kept w r s) : Kept w r (knowRegions s part path) :=
  kept_update h

theorem kept_putRcb (pa off x : Nat) (h : Kept w r s) : Kept w r (putRcb s pa off x) := by
  unfold putRcb
  split
  · exact h
  · exact kept_performNat _ _ _ h

theorem kept_syncRegion (pa : Nat) (h : Kept w r s) : Kept w r (syncRegion s pa) :=
  kept_foldl (fun _ _ => kept_putRcb _ _ _ (.refl _ _)) _ h

theorem kept_makeReady (q : Record) (core pos : Nat) (h : Kept w r s) : Kept w r (makeReady s q core pos) := by
  unfold makeReady
  extract_lets r11 rest s1 s2
  have h1 : Kept w r s1 := kept_update h
  have h2 : Kept w r s2 := by
    unfold s2
    split
    · exact kept_update h1
    · exact kept_update h1
  exact kept_syncRegion _ h2

theorem kept_syncPath (path : List Nat) (h : Kept w r s) : Kept w r (syncPath s path) := by
  unfold syncPath
  refine kept_foldl (fun s x => ?_) _ h
  exact kept_syncRegion _ (.refl _ _)

theorem kept_enterQueue (q : Record) (core : Nat) (h : Kept w r s) : Kept w r (enterQueue s q core) := by
  unfold enterQueue
  extract_lets s1 x q1 src s2 s3
  have h1 : Kept w r s1 := by
    unfold s1
    split
    · exact h
    · split
      · exact kept_performGlobal _ _ h
      · exact kept_performNat _ _ _ h
  have h2 : Kept w r s2 := kept_update (kept_pushQueue _ (kept_knowRegions _ _ h1))
  have h3 : Kept w r s3 := by
    unfold s3
    split
    · exact kept_makeReady _ _ _ h2
    · split
      · exact kept_makeReady _ _ _ h2
      · exact kept_performNat _ _ _ h2
  exact kept_syncPath _ h3

theorem kept_spawnTrap (addr : Word) (n : Nat) (h : Kept w r s) : Kept w r (spawnTrap s addr n) := kept_takeTrap _ h

theorem kept_taskEnqueue {t : State} (x : Enqueuer) (addr : Word) (e : taskEnqueue s x addr = .ok t) (h : Kept w r s) :
    Kept w r t := by
  unfold taskEnqueue at e
  split at e
  · cases e
  dsimp only at e
  split at e
  · cases e
  split at e
  · cases e
  split at e
  · cases e
  split at e
  · cases e
  split at e
  · split at e <;> cases e
    exact kept_enterQueue _ _ h
  · cases e
    exact kept_enterQueue _ _ h

theorem kept_enqueueWord (x : Enqueuer) (addr : Word) (ok below : State → State) (full : State → List Nat → State)
    (hok : ∀ s, Kept w r s → Kept w r (ok s)) (hbelow : ∀ s, Kept w r s → Kept w r (below s))
    (hfull : ∀ s path, Kept w r s → Kept w r (full s path)) (h : Kept w r s) :
    Kept w r (enqueueWord s x addr ok below full) := by
  unfold enqueueWord
  split
  · exact kept_scalarFault _ _ _ h
  · refine kept_releasing _ (fun s hs => ?_) h
    split
    · split
      · exact kept_scalarEcc _ _ hs
      · exact kept_scalarFault _ _ _ hs
    · exact kept_spawnTrap _ _ hs
    · exact hfull _ _ hs
    · exact kept_scalarEcc _ _ hs
    · exact hbelow _ (kept_regionFault _ _ hs)
    · next e => exact hok _ (kept_taskEnqueue _ _ e hs)

theorem kept_parkSpawn (path : List Nat) (h : Kept w r s) : Kept w r (parkSpawn s path) := kept_park _ (kept_update h)

theorem kept_release (cell : Nat) (name : Word) (core pos : Nat) (h : Kept w r s) :
    Kept w r (release s cell name core pos) := by
  unfold release
  split
  · exact h
  · exact kept_makeReady _ _ _ h

theorem kept_decCell {t : State} (pa : Nat) (dep : Bool) (core pos : Nat) (e : decCell s pa dep core pos = some t)
    (h : Kept w r s) : Kept w r t := by
  unfold decCell at e
  dsimp only at e
  split at e
  · cases e
  · split at e <;> cases e
    · exact kept_release _ _ _ _ (kept_performGlobal _ _ h)
    · exact kept_performNat _ _ _ h

theorem kept_decWord (addr : Word) (dep : Bool) (h : Kept w r s) : Kept w r (decWord s addr dep) := by
  unfold decWord
  refine kept_scalarAccess _ _ _ _ _ _ (fun x0 => kept_releasing _ (fun s x => ?_) h) h
  split
  · exact kept_scalarEcc _ _ x
  · split
    next e =>
      exact kept_takeTrap _ x
    next s1 e =>
      exact kept_done (kept_decCell _ _ _ _ e x)

/-! ### Collectives -/

theorem kept_reportDeferred (h : Kept w r s) : Kept w r (reportDeferred s) :=
  kept_foldl (fun s t => kept_crewFault _ _ (.refl _ _)) _ (kept_update h)

theorem kept_dropColl (c : Coll) (h : Kept w r s) : Kept w r (dropColl s c) := kept_update h

theorem kept_settleExits (h : Kept w r s) : Kept w r (settleExits s) :=
  kept_foldl (fun _ _ => kept_settleExit _ (.refl _ _)) _ h

theorem kept_failColl (c : Coll) (cause : Cause) (detail : Nat) (peer : Option (BitVec 8)) (h : Kept w r s) :
    Kept w r (failColl s c cause detail peer) := by
  unfold failColl
  extract_lets s1 s2
  have h1 : Kept w r s1 := kept_crewFault _ _ (kept_dropColl _ h)
  have h2 : Kept w r s2 := kept_onCrew_like (fun c => like_setStat _ _ _ _ _) h1
  exact kept_settleExits (kept_completeTag _ _ _ h2)

theorem kept_engWriteOne (k : Client) (vault : Bool) (q : Nat × List Byte) (h : Kept w r s) :
    Kept w r (engWriteOne k vault s q) := by
  unfold engWriteOne
  split
  · exact h
  · exact kept_performWrite _ h
  · exact kept_performGlobal _ _ h
  · exact kept_reportDrop _ _ h

theorem kept_engWrite {t : State} (k : Client) (vault : Bool) (l : List (Nat × List Byte))
    (e : engWrite s k vault l = .ok t) (h : Kept w r s) : Kept w r t := by
  unfold engWrite at e
  dsimp only at e
  split at e <;> cases e
  exact kept_foldl (fun s p => kept_engWriteOne k vault p (.refl w s)) _ h

theorem kept_completeColl (c : Coll) (h : Kept w r s) : Kept w r (completeColl s c) := by
  have writes {t : State} (e : (if !c.root || c.rootId == s.pacer.self
      then engWrite s (clientOf s c.uid) false [(c.dest.toNat, c.result)] else .ok s) = .ok t) : Kept w r t := by
    split at e
    · exact kept_engWrite _ _ _ e h
    · cases e
      exact h
  unfold completeColl
  split
  · exact kept_failColl _ _ _ _ h
  · extract_lets wr k
    split
    · exact kept_failColl _ _ _ _ h
    · next s1 e =>
      extract_lets entry s2
      have h2 : Kept w r s2 := kept_dropColl _ (writes e)
      clear_value s2 entry
      split
      · exact kept_update h2
      · exact kept_settleExits (kept_completeTag _ _ _ (kept_onCrew_like (fun _ => like_setStat _ _ _ _ _) h2))

theorem kept_advanceColl (c : Coll) (h : Kept w r s) : Kept w r (advanceColl s c) := by
  unfold advanceColl
  split
  · exact kept_completeColl _ h
  · exact h

theorem kept_enterColl (c : Coll) (tag : Option (BitVec 6)) (own : List Byte) (h : Kept w r s) :
    Kept w r (enterColl s c tag own) := by
  unfold enterColl
  extract_lets notes c1 stat s1
  have like : Crew.Like s.c (match tag with
      | none => s.c
      | some t => stat t (tagUp s.c tag)) := by
    split
    · exact .refl _
    · exact (like_tagUp s.c _).trans ⟨rfl, rfl, .refl _⟩
  have h1 : Kept w r s1 := kept_like h like
  split
  · exact kept_failColl _ _ _ _ h1
  · exact kept_advanceColl _ h1

theorem kept_postColl (o : CollOp) (tag : Option (BitVec 6)) (g : Place) (h : Kept w r s) : Kept w r
    (postColl s o tag g) := by
  unfold postColl
  extract_lets seq tmo c src s1 k s2
  have h1 : Kept w r s1 := kept_update (kept_performNat _ _ _ h)
  split
  · next e => exact kept_done (kept_enterColl _ _ _ (kept_engRead _ _ _ _ e h1))
  · have h2 : Kept w r s2 := kept_enterColl _ _ _ (kept_update h1)
    exact kept_done (kept_failColl _ _ _ _ (kept_update h2))

theorem kept_collWord (tag : Option (BitVec 6)) (o : CollOp) (h : Kept w r s) : Kept w r (collWord s tag o) := by
  unfold collWord
  split
  · exact kept_opTrap _ h
  · split
    · exact kept_scalarFault _ _ _ h
    · split
      · exact kept_hold h
      · extract_lets self members
        split
        · exact kept_scalarFault _ _ _ h
        · split
          · exact kept_scalarEcc _ _ h
          · split
            · exact kept_takeTrap _ h
            · split
              · exact kept_opTrap _ h
              · split
                · exact kept_hold h
                · exact kept_postColl _ _ _ (kept_atHome h)

/-! ### System registers -/

theorem kept_sysWrite (n : Nat) (v : Word) (h : Kept w r s) : Kept w r (sysWrite s n v) := by
  unfold sysWrite
  extract_lets c b
  split
  · exact kept_update h
  · exact kept_update h
  · exact kept_update h
  · exact kept_update h
  · exact kept_update h
  · exact kept_update h
  · exact kept_update h
  · exact kept_update h
  · exact kept_update h
  · exact kept_update h
  · exact kept_update h
  · exact kept_update h
  · exact h

/-! ### The return from a trap -/

theorem filter_replicate_length {α : Type} (p : α → Bool) (n : Nat) (a : α) :
    ((List.replicate n a).filter p).length = if p a then n else 0 := by
  rw [List.filter_replicate]
  split <;> simp

/-- The counts that a CLAUSEF gives a crew are of at most two flags, and within the bound of one (R8, R313). -/
theorem flagCount_reopen (c : Crew) (n : Nat) (outm : List OutMark) (m : ThreadSet) (f : Nat) :
    flagCount (reopen c n outm m) f ≤ 15 := by
  have ha : bits n 14 4 < 16 := Nat.mod_lt _ (by decide)
  have hb : bits n 18 4 < 16 := Nat.mod_lt _ (by decide)
  simp only [flagCount, reopen, List.filter_append, List.length_append, filter_replicate_length, secondCount,
    beq_iff_eq]
  by_cases h1 : bits n 6 4 = f <;> by_cases h2 : bits n 10 4 = f <;>
    simp only [h1, h2, ↓reduceIte] <;> (try split_ifs) <;> omega

theorem kept_returnFromTrap (h : Kept w r s) : Kept w r (returnFromTrap s) := by
  have level : (if s.c.privl = 2 then (2 : BitVec 2) else 0) ≠ 3 := by split <;> decide
  unfold returnFromTrap
  extract_lets c own c1
  exact kept_focusCrew h (fun b => (like_retire _).bounded ⟨level, b.depth, fun f => flagCount_reopen c c.clausef.toNat
    (if own then outMarks (saveRead s s.g c.save 0x400 384) else c.outSaved)
    (if own then setFrom (saveRead s s.g c.save 0x1E00 256) else c.blkSaved) f⟩) rfl

/-! ### Lane words -/

theorem kept_spillTrap (cause : Cause) (h : Kept w r s) : Kept w r (spillTrap s cause) := kept_takeTrap _ h

theorem kept_contextWord (a : Word) (load : Bool) (h : Kept w r s) : Kept w r (contextWord s a load) := by
  unfold contextWord
  refine kept_scalarAccess _ _ _ _ _ _ (fun x0 => ?_) h
  split
  · exact kept_scalarEcc _ _ h
  · extract_lets s1 w0 j src
    have h1 : Kept w r s1 := kept_atHome h
    exact kept_update h1

theorem kept_laneWrite (d : BitVec 7) (f : Nat → Word) (h : Kept w r s) : Kept w r (laneWrite s d f) :=
  kept_done (kept_update h (hg := setVs_gid ..) (hl := setVs_live ..))

theorem kept_lane2 (q : Nat) (d a b : BitVec 7) (f : Nat → Nat → Nat) (h : Kept w r s) :
    Kept w r (lane2 s q d a b f) := kept_laneWrite _ _ h

theorem kept_lane1 (q : Nat) (d a : BitVec 7) (f : Nat → Nat) (h : Kept w r s) : Kept w r (lane1 s q d a f) :=
  kept_laneWrite _ _ h

theorem kept_lane3 (q : Nat) (d a b : BitVec 7) (f : Nat → Nat → Nat → Nat) (h : Kept w r s) :
    Kept w r (lane3 s q d a b f) := kept_laneWrite _ _ h

theorem kept_laneFlagged (d : BitVec 7) (f : Nat → FRes) (h : Kept w r s) : Kept w r (laneFlagged s d f) := by
  unfold laneFlagged
  extract_lets rs
  exact kept_done (kept_update h (hg := setVs_gid ..) (hl := setVs_live ..))

theorem kept_laneFp (q : BitVec 2) (d : BitVec 7) (f : Nat → Nat → FRes) (h : Kept w r s) :
    Kept w r (laneFp s q d f) := kept_laneFlagged _ _ h

theorem kept_landLanes (d : BitVec 7) (threads : List Nat) (value : Nat → Option Word) (flags : Nat → Nat)
    (h : Kept w r s) :
    Kept w r (landLanes s d threads value flags) := by
  unfold landLanes
  extract_lets one src
  exact kept_done (kept_update h)

theorem kept_sfu (q : BitVec 2) (d a : BitVec 7) (f : Nat → FRes) (h : Kept w r s) : Kept w r (sfu s q d a f) := by
  unfold sfu
  extract_lets r1
  exact kept_landLanes _ _ _ _ h

theorem kept_tileWord (tile : Nat) {s' : State} (h' : Kept w r s') (h : Kept w r s) :
    Kept w r (tileWord s tile s') := by
  unfold tileWord
  split
  · exact h'
  · exact kept_tokenTrap _ h

theorem kept_setTile (k : Nat) (x : BitVec 32) (h : Kept w r s) : Kept w r (setTile s k x) := kept_update h

theorem kept_laneFault (fails : List (Nat × Nat × Cause)) (kind : Nat) (h : Kept w r s) :
    Kept w r (laneFault s fails kind) := by
  unfold laneFault
  split
  · exact h
  · exact kept_takeTrap _ h

theorem kept_laneAccess (addr : Nat → Nat) (check : Nat → Except Cause Place) (kind : Nat)
    (go : List (Nat × Nat × Place) → State) (hgo : ∀ x0, Kept w r (go x0)) (h : Kept w r s) :
    Kept w r (laneAccess s addr check kind go) := by
  unfold laneAccess
  extract_lets l
  split
  · exact hgo _
  · exact kept_laneFault _ _ h

theorem kept_laneUnless (l : List (Nat × Nat × Place)) (n : Nat) (waits : State → Nat → Nat → Bool) {s' : State}
    (h' : Kept w r s') (h : Kept w r s) :
    Kept w r (laneUnless s l n waits s') := by
  unfold laneUnless
  split
  · exact kept_hold h
  · exact h'

theorem kept_reportPoison (d : BitVec 7) (bad : List (Nat × Nat)) (h : Kept w r s) :
    Kept w r (reportPoison s d bad) := by
  unfold reportPoison
  split
  · exact h
  · exact kept_deferEcc _ _ _ h

/-! ### Boot stages -/

theorem kept_loadBody (stage : Nat) (h : Kept w r s) : Kept w r (loadBody s stage) := by
  unfold loadBody
  extract_lets i
  split
  · exact kept_performGlobal _ _ h
  · exact h

theorem kept_failStage (h : Kept w r s) : Kept w r (failStage s) := kept_update h

theorem find?_map_like {u : Nat} {f : Crew → Crew} (hf : ∀ c, Crew.Like c (f c)) (l : List Crew) :
    ((l.map f).find? (·.uid == u)).map crewView = (l.find? (·.uid == u)).map crewView := by
  induction l with
  | nil => rfl
  | cons c l ih =>
    have hu : (f c).uid = c.uid := congrArg Prod.fst (hf c).view
    simp only [List.map_cons, List.find?_cons, hu]
    cases c.uid == u with
    | false => exact ih
    | true => exact congrArg some (hf c).view

/-- A change of each crew on a core of what the bounds do not speak of. -/
theorem kept_mapCrews {t : State} {f : Crew → Crew} (hf : ∀ c, Crew.Like c (f c)) (h : Kept w r s)
    (hc : t.c = f s.c := by rfl) (hcs : t.crews = s.crews.map f := by rfl) (hg : t.g.gid = s.g.gid := by rfl)
    (hl : t.g.live = s.g.live := by rfl) (hgs : t.gals = s.gals := by rfl) (hs : t.saved = s.saved := by rfl) :
    Kept w r t := by
  have h1 : Kept w r { s with c := f s.c } := kept_like h (hf _)
  refine h1.trans ⟨fun b => ?_, fun _ => ⟨fun u => ?_, fun n => ?_, congrArg Crew.uid hc, fun e => ?_⟩⟩
  · rw [bounded_iff] at b ⊢
    obtain ⟨b1, b2, b3⟩ := b
    rw [hc, hcs, hs]
    refine ⟨b1, fun d hd => ?_, b3⟩
    obtain ⟨c, hm, rfl⟩ := List.mem_map.1 hd
    exact (hf c).bounded (b2 c hm)
  · rw [crewNamed_eq, crewNamed_eq, hc, hcs]
    dsimp only
    split
    · rfl
    · exact find?_map_like hf _
  · rw [galNamed_eq, galNamed_eq, hgs, hg]
    dsimp only
    split
    · exact congrArg some hl
    · rfl
  · rw [hc, hg]
    exact e

theorem like_startAt (entry : Word) (c : Crew) : Crew.Like c (c.startAt entry) := by
  unfold Crew.startAt
  split <;> exact ⟨rfl, rfl, .refl _⟩

theorem kept_startForemen (entry : Word) (h : Kept w r s) : Kept w r (startForemen s entry) :=
  kept_mapCrews (like_startAt entry) h

theorem kept_measure (i : Nat) (h : Kept w r s) : Kept w r (Machine.measure s i) := kept_update h

theorem kept_measureImage (stage : Nat) (i : Image) (body : List Byte) (h : Kept w r s) :
    Kept w r (measureImage s stage i body) := kept_measure _ (kept_update h)

theorem kept_takeImage (stage meas : Nat) (h : Kept w r s) : Kept w r (takeImage s stage meas) := by
  unfold takeImage
  extract_lets i s1
  have h1 : Kept w r s1 := kept_loadBody _ h
  split
  · refine kept_failStage ?_
    split
    · exact h1
    · exact h
  · exact kept_startForemen _ (kept_measureImage _ _ _ h1)

theorem kept_enterStage (stage : Nat) (h : Kept w r s) : Kept w r (enterStage s stage) := by
  unfold enterStage
  split
  · exact kept_performWrite _ h
  · exact kept_takeImage _ _ h
  · exact kept_takeImage _ _ h
  · exact h

theorem kept_bootStage {s' : State} (h' : Kept w r s') (_ : Kept w r s) : Kept w r (bootStage s s') := by
  unfold bootStage
  extract_lets n
  split
  · exact kept_enterStage _ h'
  · exact h'

/-! ### Registers of the control block -/

theorem kept_dropWrite (h : Kept w r s) : Kept w r (dropWrite s) := kept_countError h

theorem kept_onFn (fn : Nat) (f : HostFn → HostFn) (h : Kept w r s) : Kept w r (onFn s fn f) := kept_update h

theorem kept_onQueue (fn q : Nat) (f : HostQueue → HostQueue) (h : Kept w r s) : Kept w r (onQueue s fn q f) :=
  kept_onFn _ _ h

theorem kept_queueWrite (fn q o : Nat) (x : CtlWrite) (h : Kept w r s) : Kept w r (queueWrite s fn q o x) :=
  kept_onQueue _ _ _ h

theorem kept_onPort (p : Nat) (f : Port → Port) (h : Kept w r s) : Kept w r (onPort s p f) := kept_update h

theorem kept_portEnable (p : Nat) (on : Bool) (h : Kept w r s) : Kept w r (portEnable s p on) := kept_onPort _ _ h

theorem kept_portWrite (p o : Nat) (q : CtlWrite) (h : Kept w r s) : Kept w r (portWrite s p o q) := by
  unfold portWrite
  split
  · exact h
  · extract_lets s1
    have h1 : Kept w r s1 := by
      unfold s1
      split
      · exact kept_portEnable _ _ h
      · exact h
    split
    · exact kept_onPort _ _ h1
    · exact h1

theorem kept_routeWrite (v : Viewer) (d : Nat) (q : CtlWrite) (h : Kept w r s) : Kept w r (routeWrite s v d q) := by
  unfold routeWrite
  split
  · exact kept_dropWrite h
  · exact kept_update h

theorem kept_mbenWrite (fn : Nat) (on : Bool) (h : Kept w r s) : Kept w r (mbenWrite s fn on) := kept_onFn _ _ h

theorem kept_mailWrite (fn o : Nat) (q : CtlWrite) (h : Kept w r s) : Kept w r (mailWrite s fn o q) := by
  unfold mailWrite
  split
  · exact kept_onFn _ _ h
  · exact kept_onFn _ _ h
  · exact kept_onFn _ _ h
  · split
    · exact kept_mbenWrite _ _ h
    · exact h

theorem kept_shared (v : Viewer) (o : Nat) (q : CtlWrite) (h : Kept w r s) : Kept w r (ctlWrite.shared s v o q) := by
  unfold ctlWrite.shared
  split
  · exact h
  · split
    · exact kept_onFn _ _ h
    · split
      · exact kept_onFn _ _ h
      · split
        · exact kept_onFn _ _ h
        · split
          · exact kept_queueWrite _ _ _ _ h
          · split
            · exact kept_onFn _ _ h
            · split
              · exact h
              · split
                · exact h
                · split
                  · exact kept_portWrite _ _ _ h
                  · split
                    · exact kept_routeWrite _ _ _ h
                    · split
                      · exact kept_mailWrite _ _ _ h
                      · exact kept_dropWrite h

theorem kept_onCtl (k : Nat) (f : Controller → Controller) (h : Kept w r s) : Kept w r (onCtl s k f) := by
  unfold onCtl
  split
  · exact h
  · exact kept_update h

theorem kept_trnctlWrite (k : Nat) (v : Word) (h : Kept w r s) : Kept w r (trnctlWrite s k v) := kept_onCtl _ _ h

theorem kept_ctlBlockWrite (k o : Nat) (q : CtlWrite) (h : Kept w r s) : Kept w r (ctlBlockWrite s k o q) := by
  unfold ctlBlockWrite
  split
  · exact kept_trnctlWrite _ _ h
  · exact kept_onCtl _ _ h
  · exact h
  · exact kept_dropWrite h

theorem kept_clearRom (die : Nat) (h : Kept w r s) : Kept w r (clearRom s die) := kept_update h

theorem kept_fuseRequest (v : BitVec 9) (h : Kept w r s) : Kept w r (fuseRequest s v) := by
  unfold fuseRequest
  split
  · exact h
  · extract_lets goal src
    exact kept_update h

theorem kept_bootWrite (part die o : Nat) (x : CtlWrite) (h : Kept w r s) : Kept w r (bootWrite s part die o x) := by
  unfold bootWrite
  extract_lets b s1 m
  split
  · have h1 : Kept w r s1 := by
      unfold s1
      split
      · exact kept_clearRom _ h
      · exact h
    exact kept_update h1
  · exact kept_update h
  · exact kept_update h
  · split
    · exact h
    · exact kept_update h
  · exact h
  · exact kept_fuseRequest _ h
  · split
    · exact kept_measure _ h
    · exact h
  · exact h
  · split
    · exact kept_update h
    · split
      · exact h
      · exact kept_dropWrite h

theorem kept_sendFlit (dst vc : Nat) (header payload : List Byte) (h : Kept w r s) :
    Kept w r (sendFlit s dst vc header payload) := by
  unfold sendFlit
  split
  · exact h
  · exact kept_onPort _ _ h

theorem kept_flushPace (h : Kept w r s) : Kept w r (flushPace s) := by
  unfold flushPace
  extract_lets p send
  refine kept_foldl (fun s m => ?_) _ (kept_update h)
  split
  · exact kept_sendFlit _ _ _ _ (.refl _ _)
  · exact kept_foldl (fun s d => kept_sendFlit _ _ _ _ (.refl _ _)) _ (.refl _ _)

theorem kept_setPacer (p : Pacer) (h : Kept w r s) : Kept w r (setPacer s p) := by
  unfold setPacer
  extract_lets s1
  have h1 : Kept w r s1 := kept_update h
  split
  · exact h1
  · exact kept_performNat _ _ _ h1

theorem kept_onPacer (f : Pacer → Nat → Pacer) (h : Kept w r s) : Kept w r (onPacer s f) :=
  kept_flushPace (kept_setPacer _ h)

theorem kept_fwlimitWrite (die : Nat) (v : BitVec 8) (h : Kept w r s) : Kept w r (fwlimitWrite s die v) := by
  unfold fwlimitWrite
  split
  · exact h
  · exact kept_onPacer _ h

theorem kept_setPool (cluster : Nat) (cls : BitVec 2) (h : Kept w r s) : Kept w r (setPool s cluster cls) := by
  unfold setPool
  extract_lets lo src
  exact kept_update h

theorem kept_poolWrite (part k : Nat) (q : Word) (h : Kept w r s) : Kept w r (poolWrite s part k q) := by
  unfold poolWrite
  refine kept_foldl (fun s i => ?_) _ h
  extract_lets cluster
  split
  · exact kept_setPool _ _ (.refl _ _)
  · exact .refl _ _

theorem kept_paceenWrite (die : Nat) (on : Bool) (h : Kept w r s) : Kept w r (paceenWrite s die on) := by
  unfold paceenWrite
  split
  · exact h
  · split
    · exact kept_onPacer _ h
    · extract_lets lap s1
      have h1 : Kept w r s1 := kept_onPacer _ h
      split
      · exact kept_onPacer _ h
      · split
        · exact kept_onPacer _ h1
        · exact h1

theorem kept_powerWrite (part die o : Nat) (x : CtlWrite) (h : Kept w r s) : Kept w r (powerWrite s part die o x) := by
  unfold powerWrite
  extract_lets byte pw limit pc s1
  split
  · exact kept_fwlimitWrite _ _ h
  · split
    · exact h
    · exact kept_update h
  · exact kept_poolWrite _ _ _ h
  · exact kept_poolWrite _ _ _ h
  · exact kept_poolWrite _ _ _ h
  · exact kept_update h
  · exact kept_update h
  · split
    · exact h
    · have h1 : Kept w r s1 := by
        unfold s1
        split
        · exact h
        · exact kept_update h
      exact kept_paceenWrite _ _ h1
  · exact kept_dropWrite h

theorem kept_ctlWrite (v : Viewer) (o : Nat) (q : CtlWrite) (h : Kept w r s) : Kept w r (ctlWrite s v o q) := by
  unfold ctlWrite
  split
  · split
    · exact kept_dropWrite h
    · exact kept_shared _ _ _ h
  · split
    · exact kept_ctlBlockWrite _ _ _ h
    · split
      · exact kept_bootWrite _ _ _ _ h
      · split
        · exact kept_powerWrite _ _ _ _ h
        · exact kept_shared _ _ _ h

theorem kept_ctlStore (v : Viewer) (a n x : Nat) (h : Kept w r s) : Kept w r (ctlStore s v a n x) := by
  unfold ctlStore
  extract_lets o lo old raw
  exact kept_ctlWrite _ _ _ h

theorem kept_atomThreads (p : BitVec 4) (n : Nat) (x cmp : Nat → Nat) (l : List (Nat × Nat × Place)) :
    ∀ {s : State} (got : List (Nat × Word)), Kept w r s → Kept w r (atomThreads p n x cmp l s got).2 := by
  induction l with
  | nil => exact fun got h => h
  | cons y l ih => exact fun got h => ih _ (kept_atomicAt _ _ _ _ _ h)

end Sys2Proof.Proofs
end

section
/-!
PROOFS. The words: each keeps the bounds of the crews, and its own crew within LIVE (R67, R134).
-/

namespace Sys2Proof.Proofs
open Sys2Proof Sys2Proof.Machine

set_option Elab.async false

variable {w : Prop} {r s : State}

/-! ### What an instruction's answer keeps -/

/-- The bounds are kept, and for a crew in focus that stands in its own gallery, that it does and that ACT and the saved
entries lie within LIVE. -/
structure Fits (s t : State) : Prop where
  bounded : s.bounded → t.bounded
  within : s.c.gid = s.g.gid → s.actWithinLive → t.c.gid = t.g.gid ∧ t.actWithinLive

/-- An answer that goes on does so with a state that fits. -/
def Suits (s : State) (o : Out) : Prop := ∀ t, o = .next t → Fits s t

theorem Fits.trans {q t u : State} (h : Fits q t) (k : Fits t u) : Fits q u where
  bounded b := k.bounded (h.bounded b)
  within e a := (h.within e a).elim k.within

/-- Where the crews and the galleries that are named keep what is asked of them, it fits: the gallery in focus is the first
of the name that the crew in focus gives it. -/
theorem Kept.fits {t : State} (h : Kept True s t) : Fits s t where
  bounded := h.bounded
  within e a := by
    obtain ⟨crews, gals, uid, gid⟩ := h.named trivial
    have hv := crews s.c.uid
    rw [crewNamed_self, ← uid, crewNamed_self] at hv
    have view : crewView t.c = crewView s.c := Option.some.inj hv
    simp only [crewView, Prod.mk.injEq] at view
    obtain ⟨-, hg, hact, hstack⟩ := view
    have hl := gals s.g.gid
    rw [galNamed_self, ← e, ← hg, gid e, galNamed_self] at hl
    have live : t.g.live = s.g.live := Option.some.inj hl
    exact ⟨gid e, by rw [hact, live]; exact a.1, by rw [hstack, live]; exact a.2⟩

theorem suits_issue {i : Instr} {f : State → State} (hf : Fits s (f s)) : Suits s (issue i s f) := by
  unfold issue
  split <;> rintro t ⟨⟩
  · exact (kept_takeTrap _ (.refl True s)).fits
  · exact hf

/-- A word whose effect leaves the crews and the galleries what is asked of them. -/
theorem suits_kept {i : Instr} {f : State → State} (hf : ∀ s, Kept True s s → Kept True s (f s)) : Suits s (issue i s f) :=
  suits_issue (hf s (.refl True s)).fits

/-! ### The responder stack -/

/-- A set that lies within LIVE. -/
def Within (live e : ThreadSet) : Prop := e &&& ~~~ live = 0

theorem within_and_live (live e : ThreadSet) : Within live (e &&& live) := by
  rw [Within, BitVec.and_assoc, BitVec.and_not_self]
  exact BitVec.and_zero

theorem Within.and {live e : ThreadSet} (h : Within live e) (x : ThreadSet) : Within live (e &&& x) := by
  rw [Within, BitVec.and_assoc, BitVec.and_comm x, ← BitVec.and_assoc, h]
  exact BitVec.zero_and

theorem within_zero (live : ThreadSet) : Within live 0 := BitVec.zero_and

/-- ACT and the stack of the crew in focus change, with sets within LIVE and a stack within its depth. -/
theorem fits_stack {act : ThreadSet} {stack : List ThreadSet} {bad : List Nat}
    (hact : s.actWithinLive → Within s.g.live act) (hstack : s.actWithinLive → ∀ e ∈ stack, Within s.g.live e)
    (hdepth : s.c.stack.length ≤ 16 → stack.length ≤ 16) :
    Fits s (done { s with c := { s.c with act := act, stack := stack, badStack := bad } }) := by
  refine Fits.trans (t := { s with c := { s.c with act := act, stack := stack, badStack := bad } }) ⟨fun b => ?_,
    fun e a => ⟨e, hact a, hstack a⟩⟩ (kept_done (.refl True _)).fits
  rw [bounded_iff] at b ⊢
  obtain ⟨⟨hp, hd, hf⟩, hrest⟩ := b
  exact ⟨⟨hp, hdepth hd, hf⟩, hrest⟩

theorem fits_pushAct {act : ThreadSet} (hact : s.actWithinLive → Within s.g.live act) : Fits s (pushAct s act) := by
  unfold pushAct
  split
  · exact (kept_takeTrap _ (.refl True s)).fits
  · next hn =>
    refine fits_stack hact (fun a e he => ?_) fun _ => ?_
    · rcases List.mem_append.1 he with he | he
      · exact a.2 e he
      · rw [List.mem_singleton.1 he]
        exact a.1
    · rw [List.length_append, List.length_singleton]
      omega

theorem fits_topEntry {go : ThreadSet → State} (h : ∀ top, s.c.stack.getLast? = some top → Fits s (go top)) :
    Fits s (topEntry s go) := by
  unfold topEntry
  split
  · exact (kept_takeTrap _ (.refl True s)).fits
  · next top e =>
    split
    · exact (kept_takeTrap _ (.refl True s)).fits
    · exact h top e

theorem suits_execPush (a : BitVec 3) : Suits s (execPush a s) := suits_issue (fits_pushAct fun h => Within.and h.1 _)

theorem suits_execPushall : Suits s (execPushall s) :=
  suits_issue (fits_pushAct fun _ => by rw [Within, BitVec.and_not_self])

theorem suits_execPop : Suits s (execPop s) :=
  suits_issue <| fits_topEntry fun _ e => fits_stack (fun h => h.2 _ (List.mem_of_getLast? e))
    (fun h _ he => h.2 _ (List.mem_of_mem_dropLast he)) fun hd => by rw [List.length_dropLast]; omega

theorem suits_execElse (a : BitVec 3) : Suits s (execElse a s) :=
  suits_issue <| fits_topEntry fun _ e => fits_stack (fun h => Within.and (h.2 _ (List.mem_of_getLast? e)) _) (·.2) id

theorem suits_execSetact (a : BitVec 3) : Suits s (execSetact a s) :=
  suits_issue (fits_stack (fun _ => within_and_live _ _) (·.2) id)

theorem suits_execJoin (a : BitVec 3) : Suits s (execJoin a s) := by
  have h : Kept True s { s with c := setM s.c a 0 } := kept_like (.refl True s) (like_setM _ _ _)
  exact suits_issue (h.fits.trans (fits_stack (fun _ => within_and_live _ _) (·.2) id))

theorem suits_execRspill (a : BitVec 6) : Suits s (execRspill a s) := by
  have k : Kept True s s := .refl True s
  refine suits_issue ?_
  split
  · exact (kept_scalarFault _ _ _ k).fits
  split
  · exact (kept_spillTrap _ k).fits
  split
  · exact (kept_hold k).fits
  split
  · exact (kept_takeTrap _ k).fits
  · extract_lets s1
    have h1 : Kept True s s1 := kept_foldl (fun s x => kept_queueStore _ _ (.refl True s)) _ k
    refine h1.fits.trans (fits_stack (·.1) (fun h e he => h.2 e (List.mem_of_mem_drop he)) fun hd => ?_)
    rw [List.length_drop]
    omega

theorem spillPlaces_length {need : Need} {x : Word} {n : Nat} : ∀ {l : List Place}, spillPlaces s need x n = .ok l →
    l.length = n := by
  induction n with
  | zero =>
    intro l e
    cases e
    rfl
  | succ n ih =>
    intro l e
    rw [spillPlaces] at e
    split at e
    · cases e
    · next l0 e0 =>
      dsimp only at e
      split at e <;> cases e
      rw [List.length_append, ih e0, List.length_singleton]

theorem suits_execRfill (a : BitVec 6) : Suits s (execRfill a s) := by
  have k : Kept True s s := .refl True s
  refine suits_issue ?_
  split
  · exact (kept_scalarFault _ _ _ k).fits
  next l e =>
  split
  · exact (kept_spillTrap _ k).fits
  next hn =>
  split
  · exact (kept_hold k).fits
  split
  · exact (kept_scalarEcc _ _ k).fits
  · extract_lets got
    refine fits_stack (·.1) (fun h e he => ?_) fun _ => ?_
    · rcases List.mem_append.1 he with he | he
      · obtain ⟨p, -, rfl⟩ := List.mem_map.1 he
        exact within_and_live _ _
      · exact h.2 e he
    · rw [List.length_append, List.length_map, spillPlaces_length e]
      omega

/-- The threads that leave LIVE leave ACT and the saved entries of each crew of the gallery (R66). -/
theorem fits_leaveLive (x : ThreadSet) : Fits s (leaveLive s x) := by
  have bounded (c : Crew) (h : c.Bounded) :
      (if c.gid = s.g.gid then { c with act := c.act &&& ~~~ x, stack := c.stack.map (· &&& ~~~ x) } else c).Bounded
        := by
    split
    · exact ⟨h.privl, by rw [List.length_map]; exact h.depth, h.flags⟩
    · exact h
  refine ⟨fun b => ?_, fun e a => ?_⟩
  · rw [bounded_iff] at b ⊢
    obtain ⟨hc, hcs, hsv⟩ := b
    refine ⟨bounded _ hc, fun d hd => ?_, fun v hv d hd => ?_⟩
    · obtain ⟨c, hm, rfl⟩ := List.mem_map.1 hd
      exact bounded _ (hcs c hm)
    · obtain ⟨v, hm, rfl⟩ := List.mem_map.1 hv
      obtain ⟨c, hc, rfl⟩ := List.mem_map.1 hd
      exact bounded _ (hsv v hm c hc)
  · have less {e : ThreadSet} (h : Within s.g.live e) : Within (s.g.live &&& ~~~ x) (e &&& ~~~ x) := by
      have hz : e &&& ~~~ x &&& ~~~ (s.g.live &&& ~~~ x) = e &&& ~~~ s.g.live &&& ~~~ x := by
        ext i hi
        simp only [BitVec.getElem_and, BitVec.getElem_not]
        cases e[i] <;> cases x[i] <;> cases s.g.live[i] <;> rfl
      rw [Within, hz, h]
      exact BitVec.zero_and
    simp only [leaveLive, State.onCrewsOf, if_pos e, State.actWithinLive, List.mem_map]
    refine ⟨e, less a.1, ?_⟩
    rintro _ ⟨d, hd, rfl⟩
    exact less (a.2 d hd)

theorem suits_execLexit : Suits s (execLexit s) :=
  suits_issue ((fits_leaveLive _).trans (kept_done (.refl True _)).fits)

theorem suits_execExit : Suits s (execExit s) := by
  refine suits_issue ?_
  split
  · exact (kept_hold (.refl True s)).fits
  · extract_lets s1 owned mine others src1 src2 s2
    have h1 : Kept True s s1 := kept_reportDeferred (.refl True s)
    have h2 : Fits s1 s2 := by
      refine ⟨fun b => ?_, fun e _ => ⟨e, within_zero s1.g.live, fun _ he => absurd he List.not_mem_nil⟩⟩
      rw [bounded_iff] at b ⊢
      obtain ⟨hc, hrest⟩ := b
      exact ⟨⟨hc.privl, Nat.zero_le _, fun _ => Nat.zero_le _⟩, hrest⟩
    exact h1.fits.trans (h2.trans (kept_settleExit _ (kept_grantParked (.refl True _))).fits)

/-! ### The clause header -/

/-- A clause that opens where its flags have room keeps the count of each within its bound (R8, R12). -/
theorem flagCount_openClause_le {c : Crew} {x : BitVec 12} {a b : BitVec 4} {l : BitVec 5} {f : Nat}
    (h : flagCount c f ≤ 15)
    (room : ¬ ((a ≠ 15 ∧ flagCount c a.toNat = 15) ∨
      (b ≠ 15 ∧ flagCount c b.toNat + (if a = b then 1 else 0) = 15))) :
    flagCount (openClause c x a b l) f ≤ 15 := by
  rw [flagCount_openClause]
  rw [not_or, not_and, not_and] at room
  obtain ⟨ra, rb⟩ := room
  by_cases ha : a ≠ 15 ∧ a.toNat = f
  · obtain ⟨ha15, rfl⟩ := ha
    have h1 := ra ha15
    by_cases hb : b ≠ 15 ∧ b.toNat = a.toNat
    · obtain ⟨hb15, hab⟩ := hb
      have h2 := rb hb15
      rw [hab, if_pos (BitVec.eq_of_toNat_eq hab.symm)] at h2
      rw [if_pos ⟨ha15, rfl⟩, if_pos ⟨hb15, hab⟩]
      omega
    · rw [if_pos ⟨ha15, rfl⟩, if_neg hb]
      omega
  · by_cases hb : b ≠ 15 ∧ b.toNat = f
    · obtain ⟨hb15, rfl⟩ := hb
      have h2 := rb hb15
      rw [if_neg (by rintro rfl; exact ha ⟨hb15, rfl⟩)] at h2
      rw [if_neg ha, if_pos ⟨hb15, rfl⟩]
      omega
    · rw [if_neg ha, if_neg hb]
      omega

theorem suits_execClause (x : BitVec 12) (a b : BitVec 4) (l : BitVec 5) : Suits s (execClause x a b l s) := by
  refine suits_issue ?_
  split
  · exact (kept_raiseDeferred _ _ (.refl True s)).fits
  split
  · exact (kept_hold (.refl True s)).fits
  · next hn =>
    have flags (h : s.c.Bounded) (f : Nat) : flagCount (openClause s.c x a b l) f ≤ 15 :=
      flagCount_openClause_le (h.flags f) fun hs => hn ((stalls_iff s.c x a b).2 (.inr hs))
    exact (kept_focusCrew (t := { s with c := openClause s.c x a b l }) (.refl True s)
      (fun c => ⟨c.privl, c.depth, flags c⟩) rfl).fits

/-! ### The other words -/

theorem suits_execMpick (d a : BitVec 3) (ss : BitVec 6) : Suits s (execMpick d a ss s) :=
  suits_kept fun s h => kept_done (kept_like h ((like_setM s.c _ _).trans (like_setS _ _ _)))

theorem like_setS3 (c : Crew) (d e f : BitVec 6) (x y z : Word) :
    Crew.Like c (setS (setS (setS c d x) e y) f z) := (like_setS c d x).trans
      ((like_setS _ e y).trans (like_setS _ f z))

theorem suits_execHprog (t g : BitVec 6) : Suits s (execHprog t g s) := by
  refine suits_kept fun s h => ?_
  extract_lets put
  have hput (a b c : Word) : Kept True s (put a b c) := kept_done (kept_like h (like_setS3 _ _ _ _ _ _ _))
  split
  · exact hput _ _ _
  · exact hput _ _ _

theorem suits_execCstat (t g : BitVec 6) : Suits s (execCstat t g s) := by
  refine suits_kept fun s h => ?_
  extract_lets put
  have hput (a b c : Word) : Kept True s (put a b c) := kept_done (kept_like h (like_setS3 _ _ _ _ _ _ _))
  split
  · exact hput _ _ _
  · exact hput _ _ _

theorem suits_execAtoms (p : BitVec 4) (d a b : BitVec 6) (z : BitVec 1) (o : BitVec 2) :
    Suits s (execAtoms p d a b z o s) := by
  refine suits_kept fun s h => ?_
  extract_lets n s1
  have h1 : Kept True s s1 := kept_atHome h
  refine kept_scalarAccess _ _ _ _ _ _ (fun pl => ?_) h
  split
  · exact kept_hold h
  · split
    · exact kept_scalarEcc _ _ h1
    · exact kept_landScalar _ _ (kept_ackLater (kept_atomicAt _ _ _ _ _ h1))

theorem suits_execAtom (z : BitVec 1) (d a : BitVec 7) (p : BitVec 4) (o : BitVec 2) : Suits s (execAtom z d a p o s)
    := by
  refine suits_kept fun s h => ?_
  extract_lets n s1 cas op
  have h1 : Kept True s s1 := kept_atHome h
  refine kept_laneAccess _ _ _ _ (fun l => kept_laneUnless _ _ _ ?_ h) h
  split
  · exact kept_hold h
  · split
    · exact kept_takeTrap _ h1
    · exact kept_landLanes _ _ _ _ (kept_ackLater (kept_atomThreads _ _ _ _ _ _ h1))

theorem kept_contributed {t : State} {x : Contribution} {a : Answer} (e : contribute s x = (t, a)) (h : Kept w r s) :
    Kept w r t := by
  have h1 := kept_contribute x h
  rwa [e] at h1

theorem suits_execRedqs (f : BitVec 1) (d a b : BitVec 6) : Suits s (execRedqs f d a b s) := by
  refine suits_kept fun s h => ?_
  refine kept_placedAccess _ _ _ _ _ _ (fun p => ?_) h
  split
  · exact kept_scalarFault _ _ _ h
  · split
    · exact kept_hold h
    · extract_lets s1
      have h1 : Kept True s s1 := kept_atHome h
      split
      · next e => exact kept_done (kept_retryPending (kept_contributed e h1))
      · exact kept_hold h1
      · exact kept_scalarEcc _ _ h1
      · exact kept_takeTrap _ h1

/-! ### The words of the shared operations -/

theorem suits_execAluAdd (d a b : BitVec 6) : Suits r (execAluAdd d a b r) := suits_kept fun _ => kept_scalar2 _ _ _ _

theorem suits_execAluSub (d a b : BitVec 6) : Suits r (execAluSub d a b r) := suits_kept fun _ => kept_scalar2 _ _ _ _

theorem suits_execAluAnd (d a b : BitVec 6) : Suits r (execAluAnd d a b r) := suits_kept fun _ => kept_scalar2 _ _ _ _

theorem suits_execAluOr (d a b : BitVec 6) : Suits r (execAluOr d a b r) := suits_kept fun _ => kept_scalar2 _ _ _ _

theorem suits_execAluXor (d a b : BitVec 6) : Suits r (execAluXor d a b r) := suits_kept fun _ => kept_scalar2 _ _ _ _

theorem suits_execAluAndn (d a b : BitVec 6) : Suits r (execAluAndn d a b r) := suits_kept fun _ => kept_scalar2 _ _ _ _

theorem suits_execAluShl (d a b : BitVec 6) : Suits r (execAluShl d a b r) := suits_kept fun _ => kept_scalar2 _ _ _ _

theorem suits_execAluShr (d a b : BitVec 6) : Suits r (execAluShr d a b r) := suits_kept fun _ => kept_scalar2 _ _ _ _

theorem suits_execAluSar (d a b : BitVec 6) : Suits r (execAluSar d a b r) := suits_kept fun _ => kept_scalar2 _ _ _ _

theorem suits_execAluMul (d a b : BitVec 6) : Suits r (execAluMul d a b r) := suits_kept fun _ => kept_scalar2 _ _ _ _

theorem suits_execAluMulhs (d a b : BitVec 6) : Suits r (execAluMulhs d a b r) :=
  suits_kept fun _ => kept_scalar2 _ _ _ _

theorem suits_execAluMulhz (d a b : BitVec 6) : Suits r (execAluMulhz d a b r) :=
  suits_kept fun _ => kept_scalar2 _ _ _ _

theorem suits_execAluMins (d a b : BitVec 6) : Suits r (execAluMins d a b r) := suits_kept fun _ => kept_scalar2 _ _ _ _

theorem suits_execAluMaxs (d a b : BitVec 6) : Suits r (execAluMaxs d a b r) := suits_kept fun _ => kept_scalar2 _ _ _ _

theorem suits_execAluMinz (d a b : BitVec 6) : Suits r (execAluMinz d a b r) := suits_kept fun _ => kept_scalar2 _ _ _ _

theorem suits_execAluMaxz (d a b : BitVec 6) : Suits r (execAluMaxz d a b r) := suits_kept fun _ => kept_scalar2 _ _ _ _

theorem suits_execAluiAddi (d a : BitVec 6) (i : BitVec 9) : Suits r (execAluiAddi d a i r) :=
  suits_kept fun _ => kept_scalarI _ _ _ _

theorem suits_execAluiSubi (d a : BitVec 6) (i : BitVec 9) : Suits r (execAluiSubi d a i r) :=
  suits_kept fun _ => kept_scalarI _ _ _ _

theorem suits_execAluiAndi (d a : BitVec 6) (i : BitVec 9) : Suits r (execAluiAndi d a i r) :=
  suits_kept fun _ => kept_scalarI _ _ _ _

theorem suits_execAluiOri (d a : BitVec 6) (i : BitVec 9) : Suits r (execAluiOri d a i r) :=
  suits_kept fun _ => kept_scalarI _ _ _ _

theorem suits_execAluiXori (d a : BitVec 6) (i : BitVec 9) : Suits r (execAluiXori d a i r) :=
  suits_kept fun _ => kept_scalarI _ _ _ _

theorem suits_execAluiAndni (d a : BitVec 6) (i : BitVec 9) : Suits r (execAluiAndni d a i r) :=
  suits_kept fun _ => kept_scalarI _ _ _ _

theorem suits_execAluiShli (d a : BitVec 6) (i : BitVec 9) : Suits r (execAluiShli d a i r) :=
  suits_kept fun _ => kept_scalarI _ _ _ _

theorem suits_execAluiShri (d a : BitVec 6) (i : BitVec 9) : Suits r (execAluiShri d a i r) :=
  suits_kept fun _ => kept_scalarI _ _ _ _

theorem suits_execAluiSari (d a : BitVec 6) (i : BitVec 9) : Suits r (execAluiSari d a i r) :=
  suits_kept fun _ => kept_scalarI _ _ _ _

theorem suits_execAluiMuli (d a : BitVec 6) (i : BitVec 9) : Suits r (execAluiMuli d a i r) :=
  suits_kept fun _ => kept_scalarI _ _ _ _

theorem suits_execAluiMulhsi (d a : BitVec 6) (i : BitVec 9) : Suits r (execAluiMulhsi d a i r) :=
  suits_kept fun _ => kept_scalarI _ _ _ _

theorem suits_execAluiMulhzi (d a : BitVec 6) (i : BitVec 9) : Suits r (execAluiMulhzi d a i r) :=
  suits_kept fun _ => kept_scalarI _ _ _ _

theorem suits_execAluiMinsi (d a : BitVec 6) (i : BitVec 9) : Suits r (execAluiMinsi d a i r) :=
  suits_kept fun _ => kept_scalarI _ _ _ _

theorem suits_execAluiMaxsi (d a : BitVec 6) (i : BitVec 9) : Suits r (execAluiMaxsi d a i r) :=
  suits_kept fun _ => kept_scalarI _ _ _ _

theorem suits_execAluiMinzi (d a : BitVec 6) (i : BitVec 9) : Suits r (execAluiMinzi d a i r) :=
  suits_kept fun _ => kept_scalarI _ _ _ _

theorem suits_execAluiMaxzi (d a : BitVec 6) (i : BitVec 9) : Suits r (execAluiMaxzi d a i r) :=
  suits_kept fun _ => kept_scalarI _ _ _ _

theorem suits_execDivs (d a b : BitVec 6) : Suits r (execDivs d a b r) := suits_kept fun _ => kept_scalar2 _ _ _ _

theorem suits_execDivz (d a b : BitVec 6) : Suits r (execDivz d a b r) := suits_kept fun _ => kept_scalar2 _ _ _ _

theorem suits_execRems (d a b : BitVec 6) : Suits r (execRems d a b r) := suits_kept fun _ => kept_scalar2 _ _ _ _

theorem suits_execRemz (d a b : BitVec 6) : Suits r (execRemz d a b r) := suits_kept fun _ => kept_scalar2 _ _ _ _

theorem suits_execAlxClz (d a : BitVec 6) : Suits r (execAlxClz d a r) := suits_kept fun _ => kept_doneS _ _

theorem suits_execAlxPopc (d a : BitVec 6) : Suits r (execAlxPopc d a r) := suits_kept fun _ => kept_doneS _ _

theorem suits_execAlxBfx (d a b : BitVec 6) : Suits r (execAlxBfx d a b r) := suits_kept fun _ => kept_scalar2 _ _ _ _

theorem suits_execAlxBfi (d a b : BitVec 6) : Suits r (execAlxBfi d a b r) := suits_kept fun _ => kept_doneS _ _

theorem suits_execCmps (d a b : BitVec 6) (c : BitVec 3) : Suits r (execCmps d a b c r) :=
  suits_kept fun _ => kept_scalar2 _ _ _ _

theorem suits_execAlxMov (d a : BitVec 6) : Suits r (execAlxMov d a r) := suits_kept fun _ => kept_doneS _ _

theorem suits_execSelnz (d a b : BitVec 6) : Suits r (execSelnz d a b r) := suits_kept fun _ => kept_doneS _ _

theorem suits_execMovw (q : BitVec 2) (d : BitVec 6) (i : BitVec 16) : Suits r (execMovw q d i r) :=
  suits_kept fun _ => kept_doneS _ _

theorem suits_execMovwk (q : BitVec 2) (d : BitVec 6) (i : BitVec 16) : Suits r (execMovwk q d i r) :=
  suits_kept fun _ => kept_doneS _ _

theorem suits_execBrc (c : BitVec 4) (a b : BitVec 6) (o : BitVec 9) : Suits r (execBrc c a b o r) := by
  unfold execBrc
  refine suits_kept fun s h => ?_
  split
  · exact kept_jump _ h
  · exact kept_done h

theorem suits_execBr (o : BitVec 25) : Suits r (execBr o r) := suits_kept fun _ => kept_jump _

theorem suits_execCall (o : BitVec 25) : Suits r (execCall o r) := suits_kept fun _ h => kept_jump _ (kept_link h)

theorem suits_execJr (a : BitVec 6) : Suits r (execJr a r) := suits_kept fun _ => kept_jump _

theorem suits_execCallr (a : BitVec 6) : Suits r (execCallr a r) := suits_kept fun _ h => kept_jump _ (kept_link h)

theorem suits_execRet : Suits r (execRet r) := suits_kept fun _ => kept_jump _

theorem suits_execSrch (m c : BitVec 3) (v : BitVec 7) (k n : BitVec 6) : Suits r (execSrch m c v k n r) :=
  suits_kept fun _ => kept_search _ _ _ _ _ _ _

theorem suits_execSrcha (m c : BitVec 3) (v : BitVec 7) (k n : BitVec 6) : Suits r (execSrcha m c v k n r) :=
  suits_kept fun _ => kept_search _ _ _ _ _ _ _

theorem suits_execSrchr (m c : BitVec 3) (v b : BitVec 7) (n : BitVec 5) : Suits r (execSrchr m c v b n r) :=
  suits_kept fun _ => kept_search _ _ _ _ _ _ _

theorem suits_execMand (d a b : BitVec 3) : Suits r (execMand d a b r) := suits_kept fun _ => kept_doneM _ _

theorem suits_execMor (d a b : BitVec 3) : Suits r (execMor d a b r) := suits_kept fun _ => kept_doneM _ _

theorem suits_execMxor (d a b : BitVec 3) : Suits r (execMxor d a b r) := suits_kept fun _ => kept_doneM _ _

theorem suits_execMandn (d a b : BitVec 3) : Suits r (execMandn d a b r) := suits_kept fun _ => kept_doneM _ _

theorem suits_execMnot (d a : BitVec 3) : Suits r (execMnot d a r) := suits_kept fun _ => kept_doneM _ _

theorem suits_execMcopy (d a : BitVec 3) : Suits r (execMcopy d a r) := suits_kept fun _ => kept_doneM _ _

theorem suits_execMclr (d : BitVec 3) : Suits r (execMclr d r) := suits_kept fun _ => kept_doneM _ _

theorem suits_execMgetact (d : BitVec 3) : Suits r (execMgetact d r) := suits_kept fun _ => kept_doneM _ _

theorem suits_execCnt (a : BitVec 3) (d : BitVec 6) : Suits r (execCnt a d r) := suits_kept fun _ => kept_doneS _ _

theorem suits_execFirst (a : BitVec 3) (d : BitVec 6) : Suits r (execFirst a d r) := suits_kept fun _ => kept_doneS _ _

theorem suits_execNext (a : BitVec 3) (d : BitVec 6) : Suits r (execNext a d r) := suits_kept fun _ => kept_doneS _ _

theorem suits_execMset1 (d : BitVec 3) (ss : BitVec 6) : Suits r (execMset1 d ss r) := by
  unfold execMset1
  refine suits_kept fun s h => ?_
  extract_lets i
  exact kept_doneM _ _ h

theorem suits_execMclr1 (d : BitVec 3) (ss : BitVec 6) : Suits r (execMclr1 d ss r) := by
  unfold execMclr1
  refine suits_kept fun s h => ?_
  extract_lets i
  exact kept_doneM _ _ h

theorem suits_execMload (d : BitVec 3) (ss : BitVec 6) : Suits r (execMload d ss r) := by
  unfold execMload
  refine suits_kept fun s h => ?_
  extract_lets a s1
  have h1 : Kept True s s1 := kept_deferEcc _ _ _ h
  refine kept_loadAccess _ _ _ _ (fun x0 => ?_) h
  split
  · exact kept_done (kept_update h1)
  · exact kept_landMark _ _ h

theorem suits_execMstore (a : BitVec 3) (ss : BitVec 6) : Suits r (execMstore a ss r) :=
  suits_kept fun _ h => kept_storeAccess _ _ _ _ (fun _ => kept_done (kept_queueStore _ _ h)) h

theorem suits_execJarv (d : BitVec 3) : Suits r (execJarv d r) := suits_kept fun _ => kept_doneM _ _

theorem suits_execRdepth (d : BitVec 6) : Suits r (execRdepth d r) := suits_kept fun _ => kept_doneS _ _

theorem suits_execGet (d n b : BitVec 6) (q : BitVec 1) : Suits r (execGet d n b q r) := by
  unfold execGet
  refine suits_kept fun s h => ?_
  extract_lets t
  exact kept_getThread _ _ _ h

theorem suits_execPut (d n b : BitVec 6) (q : BitVec 1) : Suits r (execPut d n b q r) := by
  unfold execPut
  refine suits_kept fun s h => ?_
  extract_lets r1 t
  split
  · split
    · exact kept_done (kept_update h)
    · split
      · exact kept_done (kept_update h)
      · exact kept_done (kept_update h)
  · exact kept_takeTrap _ h

theorem suits_execGetf (d n : BitVec 6) (q : BitVec 1) : Suits r (execGetf d n q r) :=
  suits_kept fun _ => kept_getThread _ _ _

theorem suits_execBlkacqW (a : BitVec 6) : Suits r (execBlkacqW a r) := by
  unfold execBlkacqW
  refine suits_kept fun s h => ?_
  extract_lets m src
  split
  · exact kept_takeTrap _ h
  · split
    · exact kept_done (kept_update h)
    · exact kept_park _ (kept_update h)

theorem suits_execBlkacqP (d a : BitVec 6) : Suits r (execBlkacqP d a r) := by
  unfold execBlkacqP
  refine suits_kept fun s h => ?_
  extract_lets m
  split
  · exact kept_takeTrap _ h
  · split
    · exact kept_doneS _ _ (kept_update h)
    · exact kept_doneS _ _ h

theorem suits_execBlkrel (a : BitVec 6) : Suits r (execBlkrel a r) := by
  unfold execBlkrel
  refine suits_kept fun s h => ?_
  extract_lets m
  split
  · exact kept_takeTrap _ h
  · split
    · exact kept_hold h
    · exact kept_done (kept_grantParked (kept_update h))

theorem suits_execBlkq (d : BitVec 6) : Suits r (execBlkq d r) := suits_kept fun _ => kept_doneS _ _

theorem suits_execPblk (m n : BitVec 3) (p : BitVec 8) : Suits r (execPblk m n p r) := by
  unfold execPblk
  refine suits_kept fun s h => ?_
  extract_lets s1 src
  have h1 : Kept True s s1 := kept_done h
  exact kept_update h1

theorem suits_execLds (z : BitVec 2) (o : BitVec 1) (d a : BitVec 6) (i : BitVec 9) : Suits r (execLds z o d a i r) :=
    by
  unfold execLds
  refine suits_kept fun s h => ?_
  extract_lets addr s1
  have h1 : Kept True s s1 := kept_deferEcc _ _ _ h
  refine kept_loadAccess _ _ _ _ (fun x0 => ?_) h
  split
  · refine kept_done ?_
    split
    · exact h1
    · exact kept_update h1
  · exact kept_landScalar _ _ h

theorem suits_execSts (z : BitVec 2) (o : BitVec 1) (d a : BitVec 6) (i : BitVec 9) : Suits r (execSts z o d a i r) :=
  suits_kept fun _ h => kept_storeAccess _ _ _ _ (fun _ => kept_done (kept_queueStore _ _ h)) h

theorem suits_execFence : Suits r (execFence r) := by
  unfold execFence
  refine suits_kept fun s h => ?_
  split
  · exact kept_done h
  · exact kept_hold h

theorem suits_execFenceA : Suits r (execFenceA r) := suits_kept fun _ h => kept_done (kept_update h)

theorem suits_execFenceR : Suits r (execFenceR r) := suits_kept fun _ h => kept_done (kept_update h)

theorem suits_execIfence : Suits r (execIfence r) := suits_kept fun _ h => kept_done (kept_performAll h)

theorem suits_execWaitu (c : BitVec 3) (d a b : BitVec 6) (q x : BitVec 1) : Suits r (execWaitu c d a b q x r) := by
  unfold execWaitu
  refine suits_kept fun s h => ?_
  extract_lets size s1 y
  have h1 : Kept True s s1 := kept_atHome h
  refine kept_deviceAccess _ _ _ _ _ _ (fun x0 => ?_) h
  split
  · exact kept_scalarEcc _ _ h1
  · split
    · exact kept_doneS _ _ h1
    · split
      · exact kept_doneS _ _ h1
      · split
        next e =>
          exact kept_doneS _ _ h1
        next s2 e =>
          exact kept_park _ (kept_register _ _ e h1)

theorem suits_execWacc (a b : BitVec 6) : Suits r (execWacc a b r) := by
  unfold execWacc
  refine suits_kept fun s h => ?_
  refine kept_relayAccess _ _ _ (fun s x1 x2 hs => ?_) h
  split
  · exact kept_relayTrap _ hs
  · split
    · exact kept_relayTrap _ hs
    · exact kept_done (kept_relayApply _ _ _ hs)

theorem suits_execWaccq (a b : BitVec 6) : Suits r (execWaccq a b r) := by
  unfold execWaccq
  refine suits_kept fun s h => ?_
  refine kept_relayAccess _ _ _ (fun s x1 x2 hs => ?_) h
  split
  · exact kept_relayTrap _ hs
  · extract_lets i d r1
    split
    · exact kept_relayTrap _ hs
    · split
      · exact kept_takeTrap _ hs
      · split
        · exact kept_hold hs
        · exact kept_done (kept_relayHeld _ _ (kept_update hs))

theorem suits_execWqry (d a : BitVec 6) : Suits r (execWqry d a r) := by
  unfold execWqry
  refine suits_kept fun s h => ?_
  refine kept_relayAccess _ _ _ (fun s x1 x2 hs => ?_) h
  split
  · exact kept_relayTrap _ hs
  · exact kept_doneS _ _ hs

theorem suits_execWcfg (a b : BitVec 6) : Suits r (execWcfg a b r) := by
  unfold execWcfg
  refine suits_kept fun s h => ?_
  refine kept_relayAccess _ _ _ (fun s x1 x2 hs => ?_) h
  extract_lets cfg op w free base s1
  have h1 : Kept True _ s1 := kept_releaseRelay _ hs
  split
  · exact kept_relayTrap _ hs
  · split
    · exact kept_done (kept_configure _ _ (kept_releaseRelay _ hs))
    · split
      · exact kept_scalarFault _ _ _ hs
      · extract_lets r1
        exact kept_done (kept_configure _ _ (kept_update h1))

theorem suits_execWclr (a : BitVec 6) : Suits r (execWclr a r) := by
  unfold execWclr
  refine suits_kept fun s h => ?_
  refine kept_relayAccess _ _ _ (fun s x1 x2 hs => kept_done (kept_performGlobal _ _ (kept_update ?_))) h
  exact kept_update hs

theorem suits_execWlen (d a : BitVec 6) : Suits r (execWlen d a r) := by
  unfold execWlen
  refine suits_kept fun s h => ?_
  refine kept_relayAccess _ _ _ (fun s x1 x2 hs => ?_) h
  split
  · exact kept_relayTrap _ hs
  · exact kept_doneS _ _ hs

theorem suits_execTwaitany (a : BitVec 6) : Suits r (execTwaitany a r) := suits_kept fun _ => kept_tagWait _ _

theorem suits_execTwaitall (a : BitVec 6) : Suits r (execTwaitall a r) := suits_kept fun _ => kept_tagWait _ _

theorem suits_execTfirst (d a : BitVec 6) : Suits r (execTfirst d a r) := suits_kept fun _ => kept_doneS _ _

theorem suits_execTclr (a : BitVec 6) : Suits r (execTclr a r) := suits_kept fun _ h => kept_done (kept_update h)

theorem suits_execTrdy (d : BitVec 6) : Suits r (execTrdy d r) := suits_kept fun _ => kept_doneS _ _

theorem suits_execHcopy (q g : BitVec 6) (n y x : BitVec 1) : Suits r (execHcopy q g n y x r) :=
  suits_kept fun _ => kept_moveWord _ _

theorem suits_execHgath (q g : BitVec 6) (n y x : BitVec 1) : Suits r (execHgath q g n y x r) :=
  suits_kept fun _ => kept_moveWord _ _

theorem suits_execHscat (q g : BitVec 6) (n y x : BitVec 1) : Suits r (execHscat q g n y x r) :=
  suits_kept fun _ => kept_moveWord _ _

theorem suits_execHfill (q g : BitVec 6) (n x : BitVec 1) : Suits r (execHfill q g n x r) :=
  suits_kept fun _ => kept_moveWord _ _

theorem suits_execHplane (x g : BitVec 6) (n y q : BitVec 1) (f : BitVec 3) : Suits r (execHplane x g n y q f r) :=
  suits_kept fun _ => kept_moveWord _ _

theorem suits_execHchain (q g : BitVec 6) (n : BitVec 1) : Suits r (execHchain q g n r) := by
  unfold execHchain
  refine suits_kept fun s h => ?_
  extract_lets c
  split
  · exact kept_opTrap _ h
  · split
    · exact kept_hold h
    · exact kept_queueHoist _ _ _ _ (kept_atHome h)

theorem suits_execHstop (q : BitVec 6) (n : BitVec 1) : Suits r (execHstop q n r) := by
  unfold execHstop
  refine suits_kept fun s h => ?_
  extract_lets s1
  have h1 : Kept True s s1 := kept_update h
  split
  · exact kept_hold h1
  · exact kept_done h1

theorem suits_execHresume (q : BitVec 6) (n : BitVec 1) : Suits r (execHresume q n r) := by
  unfold execHresume
  refine suits_kept fun s h => ?_
  extract_lets s1
  have h1 : Kept True s s1 := kept_update h
  exact kept_settleHoist _ (kept_done h1)

theorem suits_execMma (q g : BitVec 6) (f : BitVec 4) (n : BitVec 1) : Suits r (execMma q g f n r) := by
  unfold execMma
  refine suits_kept fun s h => ?_
  extract_lets x0 x1 x2 x3
  split
  · exact kept_takeTrap _ h
  · split
    · exact kept_mxTrap h
    · split
      · exact kept_mxTrap h
      · split
        · exact kept_takeTrap _ h
        · exact kept_postWord _ _ _ _ _ _ h

theorem suits_execMzero (q g : BitVec 6) (n : BitVec 1) : Suits r (execMzero q g n r) := by
  unfold execMzero
  refine suits_kept fun s h => ?_
  extract_lets x
  split
  · exact kept_mxTrap h
  · exact kept_postWord _ _ _ _ _ _ h

theorem suits_execMring (g : BitVec 6) : Suits r (execMring g r) := by
  unfold execMring
  refine suits_kept fun s h => ?_
  extract_lets ring out src
  refine kept_placedAccess _ _ _ _ _ _ (fun x0 => ?_) h
  split
  · exact kept_hold h
  · split
    · exact kept_scalarEcc _ _ h
    · extract_lets w1
      split
      · exact kept_mxTrap h
      · split
        · exact kept_doneS _ _ h
        · exact kept_doneS _ _ (kept_update h)

theorem suits_execMfence (q : BitVec 6) (n : BitVec 1) : Suits r (execMfence q n r) :=
  suits_kept fun _ => kept_postWord _ _ _ _ _ _

theorem suits_execMdetach : Suits r (execMdetach r) := by
  unfold execMdetach
  refine suits_kept fun s h => ?_
  split
  · exact kept_done h
  · split
    · exact kept_hold h
    · exact kept_done (kept_update h)

theorem suits_execTktake (a : BitVec 6) : Suits r (execTktake a r) := by
  unfold execTktake
  refine suits_kept fun s h => ?_
  refine kept_tokenWord _ _ (fun x0 => ?_) h
  extract_lets cluster t known t1 s1
  have h1 : Kept True s s1 := kept_putToken _ h
  split
  · exact kept_done h
  · split
    · split
      · exact kept_done h1
      · exact kept_hold h1
    · refine kept_hold ?_
      split
      · exact h
      · exact kept_putToken _ h

theorem suits_execTkgive (a : BitVec 6) : Suits r (execTkgive a r) := by
  unfold execTkgive
  refine suits_kept fun s h => ?_
  refine kept_tokenWord _ _ (fun x0 => ?_) h
  split
  · split
    · exact kept_done (kept_putToken _ h)
    · exact kept_tokenTrap _ h
  · exact kept_tokenTrap _ h

theorem suits_execTkqry (d a : BitVec 6) : Suits r (execTkqry d a r) := by
  unfold execTkqry
  refine suits_kept fun s h => ?_
  refine kept_tokenWord _ _ (fun x0 => ?_) h
  extract_lets t who
  exact kept_doneS _ _ h

theorem suits_execPublish (a : BitVec 6) : Suits r (execPublish a r) := by
  unfold execPublish
  refine suits_kept fun s h => ?_
  extract_lets va s1 src
  have h1 : Kept True s s1 := kept_atHome h
  split
  · exact kept_publishTrap _ h
  · split
    · exact kept_hold h
    · exact kept_update h1

theorem suits_execPubqry (d a : BitVec 6) : Suits r (execPubqry d a r) := suits_kept fun _ => kept_doneS _ _

theorem suits_execPubset (a b : BitVec 6) : Suits r (execPubset a b r) := by
  unfold execPubset
  refine suits_kept fun s h => ?_
  extract_lets addr
  refine kept_scalarAccess _ _ _ _ _ _ (fun x0 => ?_) h
  split
  · exact kept_scalarEcc _ _ h
  · extract_lets i
    split
    · exact kept_takeTrap _ h
    · exact kept_done (kept_putEntry _ _ h)

theorem suits_execSpawn (a : BitVec 6) : Suits r (execSpawn a r) := by
  unfold execSpawn
  refine suits_kept fun s h => ?_
  refine kept_enqueueWord _ _ _ _ _ (fun s hs => kept_done ?_) (fun s hs => kept_done ?_)
    (fun s path hs => kept_parkSpawn _ ?_) h
  · exact hs
  · exact hs
  · exact hs

theorem suits_execSpawnNb (d a : BitVec 6) : Suits r (execSpawnNb d a r) := by
  unfold execSpawnNb
  refine suits_kept fun s h => ?_
  refine kept_enqueueWord _ _ _ _ _ (fun s hs => kept_doneS _ _ ?_) (fun s hs => kept_done ?_)
    (fun s path hs => kept_doneS _ _ ?_) h
  · exact hs
  · exact hs
  · exact hs

theorem suits_execSpawng (a : BitVec 6) : Suits r (execSpawng a r) := by
  unfold execSpawng
  refine suits_kept fun s h => ?_
  refine kept_enqueueWord _ _ _ _ _ (fun s hs => kept_done ?_) (fun s hs => kept_done ?_)
    (fun s path hs => kept_parkSpawn _ ?_) h
  · exact hs
  · exact hs
  · exact hs

theorem suits_execJoindec (a : BitVec 6) : Suits r (execJoindec a r) := suits_kept fun _ => kept_decWord _ _

theorem suits_execDepdec (a : BitVec 6) : Suits r (execDepdec a r) := suits_kept fun _ => kept_decWord _ _

theorem suits_execLaunch (d a : BitVec 6) : Suits r (execLaunch d a r) := by
  unfold execLaunch
  refine suits_kept fun s h => ?_
  refine kept_enqueueWord _ _ _ _ _ (fun s hs => kept_doneS _ _ ?_) (fun s hs => kept_doneS _ _ ?_)
    (fun s path hs => kept_doneS _ _ ?_) h
  · exact hs
  · exact hs
  · exact hs

theorem suits_execBarc (a b : BitVec 6) : Suits r (execBarc a b r) := by
  unfold execBarc
  refine suits_kept fun s h => ?_
  extract_lets addr n
  refine kept_scalarAccess _ _ _ _ _ _ (fun x0 => kept_releasing _ (fun s hs => ?_) h) h
  split
  · exact kept_scalarEcc _ _ hs
  · extract_lets g c s1 e
    have h1 : Kept True _ s1 := kept_performNat _ _ _ hs
    split
    · exact kept_done (kept_performGlobal _ _ hs)
    · split
      next s2 e1 =>
        exact kept_park _ (kept_register _ _ e1 h1)
      next e1 =>
        exact kept_park _ (kept_update h1)

theorem suits_execCred (x g : BitVec 6) (n q p : BitVec 1) : Suits r (execCred x g n q p r) :=
  suits_kept fun _ => kept_collWord _ _

theorem suits_execCgath (x g : BitVec 6) (n q p : BitVec 1) : Suits r (execCgath x g n q p r) :=
  suits_kept fun _ => kept_collWord _ _

theorem suits_execCbcast (q g : BitVec 6) (n p : BitVec 1) : Suits r (execCbcast q g n p r) :=
  suits_kept fun _ => kept_collWord _ _

theorem suits_execRdsys (d : BitVec 6) (n : BitVec 12) : Suits r (execRdsys d n r) := suits_kept fun _ => kept_doneS _ _

theorem suits_execWrsys (d : BitVec 6) (n : BitVec 12) : Suits r (execWrsys d n r) := by
  unfold execWrsys
  refine suits_kept fun s h => ?_
  extract_lets v
  split
  · exact kept_takeTrap _ h
  · split
    · exact kept_takeTrap _ h
    · exact kept_done (kept_sysWrite _ _ h)

theorem suits_execTrap (n : BitVec 12) : Suits r (execTrap n r) := suits_kept fun _ => kept_takeTrap _

theorem suits_execRte : Suits r (execRte r) := by
  unfold execRte
  refine suits_kept fun s h => ?_
  split
  · exact kept_hold h
  · split
    · exact kept_haltCrew _ h
    · split
      · exact kept_haltCrew _ h
      · exact kept_returnFromTrap h

theorem suits_execBkpt (n : BitVec 12) : Suits r (execBkpt n r) := suits_kept fun _ => kept_takeTrap _

theorem suits_execYield : Suits r (execYield r) := suits_kept fun _ h => kept_done (kept_update h)

theorem suits_execNop : Suits r (execNop r) := suits_kept fun _ => kept_done

theorem suits_execHalt : Suits r (execHalt r) := suits_kept fun _ => kept_haltCrew _

theorem suits_execCtxsave (a : BitVec 6) : Suits r (execCtxsave a r) := suits_kept fun _ => kept_contextWord _ _

theorem suits_execCtxload (a : BitVec 6) : Suits r (execCtxload a r) := suits_kept fun _ => kept_contextWord _ _

theorem suits_execAdd (q : BitVec 2) (d a b : BitVec 7) : Suits r (execAdd q d a b r) :=
  suits_kept fun _ => kept_lane2 _ _ _ _ _

theorem suits_execAddi (q : BitVec 2) (d a : BitVec 7) (i : BitVec 9) : Suits r (execAddi q d a i r) :=
  suits_kept fun _ => kept_lane1 _ _ _ _

theorem suits_execSub (q : BitVec 2) (d a b : BitVec 7) : Suits r (execSub q d a b r) :=
  suits_kept fun _ => kept_lane2 _ _ _ _ _

theorem suits_execMul (q : BitVec 2) (d a b : BitVec 7) : Suits r (execMul q d a b r) :=
  suits_kept fun _ => kept_lane2 _ _ _ _ _

theorem suits_execMulh (q : BitVec 2) (d a b : BitVec 7) (m : BitVec 1) : Suits r (execMulh q d a b m r) :=
  suits_kept fun _ => kept_lane2 _ _ _ _ _

theorem suits_execMad (q : BitVec 2) (d a b : BitVec 7) : Suits r (execMad q d a b r) :=
  suits_kept fun _ => kept_lane3 _ _ _ _ _

theorem suits_execAddsat (q : BitVec 2) (d a b : BitVec 7) (m : BitVec 1) : Suits r (execAddsat q d a b m r) :=
  suits_kept fun _ => kept_lane2 _ _ _ _ _

theorem suits_execSubsat (q : BitVec 2) (d a b : BitVec 7) (m : BitVec 1) : Suits r (execSubsat q d a b m r) :=
  suits_kept fun _ => kept_lane2 _ _ _ _ _

theorem suits_execMin (q : BitVec 2) (d a b : BitVec 7) (m : BitVec 1) : Suits r (execMin q d a b m r) :=
  suits_kept fun _ => kept_lane2 _ _ _ _ _

theorem suits_execMax (q : BitVec 2) (d a b : BitVec 7) (m : BitVec 1) : Suits r (execMax q d a b m r) :=
  suits_kept fun _ => kept_lane2 _ _ _ _ _

theorem suits_execAbs (q : BitVec 2) (d a : BitVec 7) : Suits r (execAbs q d a r) :=
  suits_kept fun _ => kept_lane1 _ _ _ _

theorem suits_execNeg (q : BitVec 2) (d a : BitVec 7) : Suits r (execNeg q d a r) :=
  suits_kept fun _ => kept_lane1 _ _ _ _

theorem suits_execNot (q : BitVec 2) (d a : BitVec 7) : Suits r (execNot q d a r) :=
  suits_kept fun _ => kept_lane1 _ _ _ _

theorem suits_execClz (q : BitVec 2) (d a : BitVec 7) : Suits r (execClz q d a r) :=
  suits_kept fun _ => kept_lane1 _ _ _ _

theorem suits_execPopc (q : BitVec 2) (d a : BitVec 7) : Suits r (execPopc q d a r) :=
  suits_kept fun _ => kept_lane1 _ _ _ _

theorem suits_execBrev (q : BitVec 2) (d a : BitVec 7) : Suits r (execBrev q d a r) :=
  suits_kept fun _ => kept_lane1 _ _ _ _

theorem suits_execMov (q : BitVec 2) (d a : BitVec 7) : Suits r (execMov q d a r) :=
  suits_kept fun _ => kept_lane1 _ _ _ _

theorem suits_execAnd (q : BitVec 2) (d a b : BitVec 7) : Suits r (execAnd q d a b r) :=
  suits_kept fun _ => kept_lane2 _ _ _ _ _

theorem suits_execOr (q : BitVec 2) (d a b : BitVec 7) : Suits r (execOr q d a b r) :=
  suits_kept fun _ => kept_lane2 _ _ _ _ _

theorem suits_execXor (q : BitVec 2) (d a b : BitVec 7) : Suits r (execXor q d a b r) :=
  suits_kept fun _ => kept_lane2 _ _ _ _ _

theorem suits_execAndn (q : BitVec 2) (d a b : BitVec 7) : Suits r (execAndn q d a b r) :=
  suits_kept fun _ => kept_lane2 _ _ _ _ _

theorem suits_execShl (q : BitVec 2) (d a b : BitVec 7) : Suits r (execShl q d a b r) :=
  suits_kept fun _ => kept_lane2 _ _ _ _ _

theorem suits_execShr (q : BitVec 2) (d a b : BitVec 7) : Suits r (execShr q d a b r) :=
  suits_kept fun _ => kept_lane2 _ _ _ _ _

theorem suits_execSar (q : BitVec 2) (d a b : BitVec 7) : Suits r (execSar q d a b r) :=
  suits_kept fun _ => kept_lane2 _ _ _ _ _

theorem suits_execShli (q : BitVec 2) (d a : BitVec 7) (i : BitVec 9) : Suits r (execShli q d a i r) :=
  suits_kept fun _ => kept_lane1 _ _ _ _

theorem suits_execShri (q : BitVec 2) (d a : BitVec 7) (i : BitVec 9) : Suits r (execShri q d a i r) :=
  suits_kept fun _ => kept_lane1 _ _ _ _

theorem suits_execSari (q : BitVec 2) (d a : BitVec 7) (i : BitVec 9) : Suits r (execSari q d a i r) :=
  suits_kept fun _ => kept_lane1 _ _ _ _

theorem suits_execMovi (q : BitVec 2) (d : BitVec 7) (i : BitVec 9) : Suits r (execMovi q d i r) :=
  suits_kept fun _ => kept_laneWrite _ _

theorem suits_execBcast (q : BitVec 2) (d : BitVec 7) (ss : BitVec 6) : Suits r (execBcast q d ss r) :=
  suits_kept fun _ => kept_laneWrite _ _

theorem suits_execCmp (q : BitVec 2) (d a b : BitVec 7) (m : BitVec 2) : Suits r (execCmp q d a b m r) :=
  suits_kept fun _ => kept_lane2 _ _ _ _ _

theorem suits_execCmpz (q : BitVec 2) (d a b : BitVec 7) (m : BitVec 2) : Suits r (execCmpz q d a b m r) :=
  suits_kept fun _ => kept_lane2 _ _ _ _ _

theorem suits_execFcmp (q : BitVec 2) (d a b : BitVec 7) (m : BitVec 2) : Suits r (execFcmp q d a b m r) :=
  suits_kept fun _ => kept_laneFp _ _ _

theorem suits_execBfx (q : BitVec 2) (d a b : BitVec 7) (m : BitVec 1) : Suits r (execBfx q d a b m r) :=
  suits_kept fun _ => kept_laneWrite _ _

theorem suits_execBfi (q : BitVec 2) (d a b : BitVec 7) : Suits r (execBfi q d a b r) :=
  suits_kept fun _ => kept_laneWrite _ _

theorem suits_execPack (q : BitVec 2) (d a b : BitVec 7) (m : BitVec 2) : Suits r (execPack q d a b m r) :=
  suits_kept fun _ => kept_laneWrite _ _

theorem suits_execUnpk (q : BitVec 2) (d a : BitVec 7) (m : BitVec 2) : Suits r (execUnpk q d a m r) :=
  suits_kept fun _ => kept_laneWrite _ _

theorem suits_execAndi (q : BitVec 2) (d a : BitVec 7) (i : BitVec 9) : Suits r (execAndi q d a i r) :=
  suits_kept fun _ => kept_lane1 _ _ _ _

theorem suits_execXori (q : BitVec 2) (d a : BitVec 7) (i : BitVec 9) : Suits r (execXori q d a i r) :=
  suits_kept fun _ => kept_lane1 _ _ _ _

theorem suits_execFadd (q : BitVec 2) (d a b : BitVec 7) (m : BitVec 2) : Suits r (execFadd q d a b m r) :=
  suits_kept fun _ => kept_laneFp _ _ _

theorem suits_execFsub (q : BitVec 2) (d a b : BitVec 7) (m : BitVec 2) : Suits r (execFsub q d a b m r) :=
  suits_kept fun _ => kept_laneFp _ _ _

theorem suits_execFmul (q : BitVec 2) (d a b : BitVec 7) (m : BitVec 2) : Suits r (execFmul q d a b m r) :=
  suits_kept fun _ => kept_laneFp _ _ _

theorem suits_execFfma (q : BitVec 2) (d a b : BitVec 7) (m : BitVec 2) : Suits r (execFfma q d a b m r) :=
  suits_kept fun _ => kept_laneFp _ _ _

theorem suits_execFmin (q : BitVec 2) (d a b : BitVec 7) : Suits r (execFmin q d a b r) :=
  suits_kept fun _ => kept_laneFp _ _ _

theorem suits_execFmax (q : BitVec 2) (d a b : BitVec 7) : Suits r (execFmax q d a b r) :=
  suits_kept fun _ => kept_laneFp _ _ _

theorem suits_execFabs (q : BitVec 2) (d a : BitVec 7) : Suits r (execFabs q d a r) :=
  suits_kept fun _ => kept_laneFp _ _ _

theorem suits_execFneg (q : BitVec 2) (d a : BitVec 7) : Suits r (execFneg q d a r) :=
  suits_kept fun _ => kept_laneFp _ _ _

theorem suits_execFrcp (q : BitVec 2) (d a : BitVec 7) : Suits r (execFrcp q d a r) :=
  suits_kept fun _ => kept_sfu _ _ _ _

theorem suits_execFrsq (q : BitVec 2) (d a : BitVec 7) : Suits r (execFrsq q d a r) :=
  suits_kept fun _ => kept_sfu _ _ _ _

theorem suits_execFsqrt (q : BitVec 2) (d a : BitVec 7) (m : BitVec 2) : Suits r (execFsqrt q d a m r) :=
  suits_kept fun _ => kept_sfu _ _ _ _

theorem suits_execFex2 (q : BitVec 2) (d a : BitVec 7) : Suits r (execFex2 q d a r) :=
  suits_kept fun _ => kept_sfu _ _ _ _

theorem suits_execFlg2 (q : BitVec 2) (d a : BitVec 7) : Suits r (execFlg2 q d a r) :=
  suits_kept fun _ => kept_sfu _ _ _ _

theorem suits_execFsin (q : BitVec 2) (d a : BitVec 7) : Suits r (execFsin q d a r) :=
  suits_kept fun _ => kept_sfu _ _ _ _

theorem suits_execFcos (q : BitVec 2) (d a : BitVec 7) : Suits r (execFcos q d a r) :=
  suits_kept fun _ => kept_sfu _ _ _ _

theorem suits_execFflr (q : BitVec 2) (d a : BitVec 7) : Suits r (execFflr q d a r) :=
  suits_kept fun _ => kept_laneFp _ _ _

theorem suits_execFceil (q : BitVec 2) (d a : BitVec 7) : Suits r (execFceil q d a r) :=
  suits_kept fun _ => kept_laneFp _ _ _

theorem suits_execFtrunc (q : BitVec 2) (d a : BitVec 7) : Suits r (execFtrunc q d a r) :=
  suits_kept fun _ => kept_laneFp _ _ _

theorem suits_execFrint (q : BitVec 2) (d a : BitVec 7) (m : BitVec 2) : Suits r (execFrint q d a m r) :=
  suits_kept fun _ => kept_laneFp _ _ _

theorem suits_execCvt (v a : BitVec 7) (src dst : BitVec 3) (q : BitVec 1) (m : BitVec 2) : Suits r
    (execCvt v a src dst q m r) :=
  suits_kept fun _ => kept_laneFlagged _ _

theorem suits_execQscale (b q : BitVec 2) (d a : BitVec 7) (v : BitVec 6) : Suits r (execQscale b q d a v r) :=
  suits_kept fun _ => kept_laneFlagged _ _

theorem suits_execQscale8 (b : BitVec 1) (q : BitVec 2) (d a : BitVec 7) (v : BitVec 6) : Suits r
    (execQscale8 b q d a v r) :=
  suits_kept fun _ => kept_laneFlagged _ _

theorem suits_execMrd (q : BitVec 1) (d a : BitVec 7) (x : BitVec 6) : Suits r (execMrd q d a x r) := by
  unfold execMrd
  refine suits_kept fun s h => ?_
  refine kept_tileWord _ ?_ h
  extract_lets key
  split
  · exact kept_takeTrap _ h
  · exact kept_landLanes _ _ _ _ h

theorem suits_execMwr (q : BitVec 1) (d a : BitVec 7) (y : BitVec 6) : Suits r (execMwr q d a y r) := by
  unfold execMwr
  refine suits_kept fun s h => ?_
  refine kept_tileWord _ ?_ h
  extract_lets key
  refine kept_done (kept_foldl (fun s1 x => ?_) _ h)
  extract_lets v s2
  have h2 : Kept True s1 s2 := kept_setTile _ _ (.refl _ _)
  split
  · exact kept_setTile _ _ h2
  · exact h2

theorem suits_execSpec (q : BitVec 2) (d : BitVec 7) (c : BitVec 2) : Suits r (execSpec q d c r) :=
  suits_kept fun _ => kept_laneWrite _ _

theorem suits_execShfl (q : BitVec 2) (d a b : BitVec 7) (m : BitVec 2) : Suits r (execShfl q d a b m r) := by
  unfold execShfl
  refine suits_kept fun s h => ?_
  split
  · exact kept_takeTrap _ h
  · exact kept_laneFlagged _ _ h

theorem suits_execRedl (q : BitVec 2) (d a p : BitVec 7) (m : BitVec 2) : Suits r (execRedl q d a p m r) :=
  suits_kept fun _ => kept_laneFlagged _ _

theorem suits_execScanl (q : BitVec 2) (d a p : BitVec 7) (m : BitVec 2) : Suits r (execScanl q d a p m r) :=
  suits_kept fun _ => kept_laneFlagged _ _

theorem suits_execLd (z : BitVec 2) (d a : BitVec 7) (q : BitVec 1) (f : BitVec 6) : Suits r (execLd z d a q f r) :=
    by
  unfold execLd
  refine suits_kept fun s h => ?_
  extract_lets n
  refine kept_laneAccess _ _ _ _ (fun _ => kept_laneUnless _ _ _ ?_ h) h
  extract_lets bad
  exact kept_landLanes _ _ _ _ (kept_reportPoison _ _ h)

theorem suits_execSt (z : BitVec 2) (d a : BitVec 7) (q : BitVec 1) (f : BitVec 6) : Suits r (execSt z d a q f r) :=
    by
  unfold execSt
  refine suits_kept fun s h => ?_
  extract_lets n
  exact kept_laneAccess _ _ _ _ (fun _ => kept_laneUnless _ _ _ (kept_done (kept_queueStore _ _ h)) h) h

theorem suits_execLdv (z : BitVec 2) (d a : BitVec 7) (f : BitVec 6) : Suits r (execLdv z d a f r) := by
  unfold execLdv
  refine suits_kept fun s h => ?_
  extract_lets n s1
  have h1 : Kept True s s1 := kept_performAll h
  refine kept_laneAccess _ _ _ _ (fun _ => kept_laneUnless _ _ _ ?_ h) h
  extract_lets bad
  exact kept_landLanes _ _ _ _ (kept_reportPoison _ _ h1)

theorem suits_execStv (z : BitVec 2) (d a : BitVec 7) (f : BitVec 6) : Suits r (execStv z d a f r) := by
  unfold execStv
  refine suits_kept fun s h => ?_
  extract_lets n v
  refine kept_laneAccess _ _ _ _ (fun x0 => ?_) h
  extract_lets l ctl vlt s1
  have h1 : Kept True s s1 := kept_queueStore _ _ h
  split
  · exact kept_done h1
  · split
    · exact kept_hold h
    · exact kept_bootStage (kept_done (kept_foldl (fun s1 x => kept_ctlStore _ _ _ _ (.refl _ _)) _ (kept_atHome h1))) h

theorem suits_execRedq (q : BitVec 1) (d a b : BitVec 7) : Suits r (execRedq q d a b r) := by
  unfold execRedq
  refine suits_kept fun s h => ?_
  refine kept_laneAccess _ _ _ _ (fun _ => kept_laneUnless _ _ _ ?_ h) h
  extract_lets l1 s1 src
  have h1 : Kept True s s1 := kept_performAll h
  exact kept_done (kept_update h1)

/-- Every word keeps the bounds of the crews, and its crew within LIVE. -/
theorem exec_word_fits {i : Instr} (hi : i.isWord = true) : Suits s (exec i s) := by
  cases i
  case aluAdd => exact suits_execAluAdd _ _ _
  case aluSub => exact suits_execAluSub _ _ _
  case aluAnd => exact suits_execAluAnd _ _ _
  case aluOr => exact suits_execAluOr _ _ _
  case aluXor => exact suits_execAluXor _ _ _
  case aluAndn => exact suits_execAluAndn _ _ _
  case aluShl => exact suits_execAluShl _ _ _
  case aluShr => exact suits_execAluShr _ _ _
  case aluSar => exact suits_execAluSar _ _ _
  case aluMul => exact suits_execAluMul _ _ _
  case aluMulhs => exact suits_execAluMulhs _ _ _
  case aluMulhz => exact suits_execAluMulhz _ _ _
  case aluMins => exact suits_execAluMins _ _ _
  case aluMaxs => exact suits_execAluMaxs _ _ _
  case aluMinz => exact suits_execAluMinz _ _ _
  case aluMaxz => exact suits_execAluMaxz _ _ _
  case aluiAddi => exact suits_execAluiAddi _ _ _
  case aluiSubi => exact suits_execAluiSubi _ _ _
  case aluiAndi => exact suits_execAluiAndi _ _ _
  case aluiOri => exact suits_execAluiOri _ _ _
  case aluiXori => exact suits_execAluiXori _ _ _
  case aluiAndni => exact suits_execAluiAndni _ _ _
  case aluiShli => exact suits_execAluiShli _ _ _
  case aluiShri => exact suits_execAluiShri _ _ _
  case aluiSari => exact suits_execAluiSari _ _ _
  case aluiMuli => exact suits_execAluiMuli _ _ _
  case aluiMulhsi => exact suits_execAluiMulhsi _ _ _
  case aluiMulhzi => exact suits_execAluiMulhzi _ _ _
  case aluiMinsi => exact suits_execAluiMinsi _ _ _
  case aluiMaxsi => exact suits_execAluiMaxsi _ _ _
  case aluiMinzi => exact suits_execAluiMinzi _ _ _
  case aluiMaxzi => exact suits_execAluiMaxzi _ _ _
  case divs => exact suits_execDivs _ _ _
  case divz => exact suits_execDivz _ _ _
  case rems => exact suits_execRems _ _ _
  case remz => exact suits_execRemz _ _ _
  case alxClz => exact suits_execAlxClz _ _
  case alxPopc => exact suits_execAlxPopc _ _
  case alxBfx => exact suits_execAlxBfx _ _ _
  case alxBfi => exact suits_execAlxBfi _ _ _
  case cmps => exact suits_execCmps _ _ _ _
  case alxMov => exact suits_execAlxMov _ _
  case selnz => exact suits_execSelnz _ _ _
  case movw => exact suits_execMovw _ _ _
  case movwk => exact suits_execMovwk _ _ _
  case brc => exact suits_execBrc _ _ _ _
  case br => exact suits_execBr _
  case call => exact suits_execCall _
  case jr => exact suits_execJr _
  case callr => exact suits_execCallr _
  case ret => exact suits_execRet
  case srch => exact suits_execSrch _ _ _ _ _
  case srcha => exact suits_execSrcha _ _ _ _ _
  case srchr => exact suits_execSrchr _ _ _ _ _
  case mand => exact suits_execMand _ _ _
  case mor => exact suits_execMor _ _ _
  case mxor => exact suits_execMxor _ _ _
  case mandn => exact suits_execMandn _ _ _
  case mnot => exact suits_execMnot _ _
  case mcopy => exact suits_execMcopy _ _
  case mclr => exact suits_execMclr _
  case mgetact => exact suits_execMgetact _
  case cnt => exact suits_execCnt _ _
  case first => exact suits_execFirst _ _
  case next => exact suits_execNext _ _
  case mpick => exact suits_execMpick _ _ _
  case mset1 => exact suits_execMset1 _ _
  case mclr1 => exact suits_execMclr1 _ _
  case mload => exact suits_execMload _ _
  case mstore => exact suits_execMstore _ _
  case push => exact suits_execPush _
  case pop => exact suits_execPop
  case else_ => exact suits_execElse _
  case jarv => exact suits_execJarv _
  case join => exact suits_execJoin _
  case setact => exact suits_execSetact _
  case pushall => exact suits_execPushall
  case rdepth => exact suits_execRdepth _
  case get => exact suits_execGet _ _ _ _
  case put => exact suits_execPut _ _ _ _
  case getf => exact suits_execGetf _ _ _
  case blkacqW => exact suits_execBlkacqW _
  case blkacqP => exact suits_execBlkacqP _ _
  case blkrel => exact suits_execBlkrel _
  case blkq => exact suits_execBlkq _
  case pblk => exact suits_execPblk _ _ _
  case clause => exact suits_execClause _ _ _ _
  case lds => exact suits_execLds _ _ _ _ _
  case sts => exact suits_execSts _ _ _ _ _
  case atoms => exact suits_execAtoms _ _ _ _ _ _
  case fence => exact suits_execFence
  case fenceA => exact suits_execFenceA
  case fenceR => exact suits_execFenceR
  case ifence => exact suits_execIfence
  case waitu => exact suits_execWaitu _ _ _ _ _ _
  case wacc => exact suits_execWacc _ _
  case waccq => exact suits_execWaccq _ _
  case wqry => exact suits_execWqry _ _
  case wcfg => exact suits_execWcfg _ _
  case wclr => exact suits_execWclr _
  case wlen => exact suits_execWlen _ _
  case redqs => exact suits_execRedqs _ _ _ _
  case twaitany => exact suits_execTwaitany _
  case twaitall => exact suits_execTwaitall _
  case tfirst => exact suits_execTfirst _ _
  case tclr => exact suits_execTclr _
  case trdy => exact suits_execTrdy _
  case hcopy => exact suits_execHcopy _ _ _ _ _
  case hgath => exact suits_execHgath _ _ _ _ _
  case hscat => exact suits_execHscat _ _ _ _ _
  case hfill => exact suits_execHfill _ _ _ _
  case hplane => exact suits_execHplane _ _ _ _ _ _
  case hchain => exact suits_execHchain _ _ _
  case hstop => exact suits_execHstop _ _
  case hresume => exact suits_execHresume _ _
  case hprog => exact suits_execHprog _ _
  case mma => exact suits_execMma _ _ _ _
  case mzero => exact suits_execMzero _ _ _
  case mring => exact suits_execMring _
  case mfence => exact suits_execMfence _ _
  case mdetach => exact suits_execMdetach
  case tktake => exact suits_execTktake _
  case tkgive => exact suits_execTkgive _
  case tkqry => exact suits_execTkqry _ _
  case publish => exact suits_execPublish _
  case pubqry => exact suits_execPubqry _ _
  case pubset => exact suits_execPubset _ _
  case spawn => exact suits_execSpawn _
  case spawnNb => exact suits_execSpawnNb _ _
  case spawng => exact suits_execSpawng _
  case joindec => exact suits_execJoindec _
  case depdec => exact suits_execDepdec _
  case launch => exact suits_execLaunch _ _
  case barc => exact suits_execBarc _ _
  case exit => exact suits_execExit
  case cred => exact suits_execCred _ _ _ _ _
  case cgath => exact suits_execCgath _ _ _ _ _
  case cbcast => exact suits_execCbcast _ _ _ _
  case cstat => exact suits_execCstat _ _
  case rdsys => exact suits_execRdsys _ _
  case wrsys => exact suits_execWrsys _ _
  case trap => exact suits_execTrap _
  case rte => exact suits_execRte
  case bkpt => exact suits_execBkpt _
  case yield => exact suits_execYield
  case nop => exact suits_execNop
  case halt => exact suits_execHalt
  case rspill => exact suits_execRspill _
  case rfill => exact suits_execRfill _
  case ctxsave => exact suits_execCtxsave _
  case ctxload => exact suits_execCtxload _
  case add => exact suits_execAdd _ _ _ _
  case addi => exact suits_execAddi _ _ _ _
  case sub => exact suits_execSub _ _ _ _
  case mul => exact suits_execMul _ _ _ _
  case mulh => exact suits_execMulh _ _ _ _ _
  case mad => exact suits_execMad _ _ _ _
  case addsat => exact suits_execAddsat _ _ _ _ _
  case subsat => exact suits_execSubsat _ _ _ _ _
  case min => exact suits_execMin _ _ _ _ _
  case max => exact suits_execMax _ _ _ _ _
  case abs => exact suits_execAbs _ _ _
  case neg => exact suits_execNeg _ _ _
  case not => exact suits_execNot _ _ _
  case clz => exact suits_execClz _ _ _
  case popc => exact suits_execPopc _ _ _
  case brev => exact suits_execBrev _ _ _
  case mov => exact suits_execMov _ _ _
  case and => exact suits_execAnd _ _ _ _
  case or => exact suits_execOr _ _ _ _
  case xor => exact suits_execXor _ _ _ _
  case andn => exact suits_execAndn _ _ _ _
  case shl => exact suits_execShl _ _ _ _
  case shr => exact suits_execShr _ _ _ _
  case sar => exact suits_execSar _ _ _ _
  case shli => exact suits_execShli _ _ _ _
  case shri => exact suits_execShri _ _ _ _
  case sari => exact suits_execSari _ _ _ _
  case movi => exact suits_execMovi _ _ _
  case bcast => exact suits_execBcast _ _ _
  case cmp => exact suits_execCmp _ _ _ _ _
  case cmpz => exact suits_execCmpz _ _ _ _ _
  case fcmp => exact suits_execFcmp _ _ _ _ _
  case bfx => exact suits_execBfx _ _ _ _ _
  case bfi => exact suits_execBfi _ _ _ _
  case pack => exact suits_execPack _ _ _ _ _
  case unpk => exact suits_execUnpk _ _ _ _
  case andi => exact suits_execAndi _ _ _ _
  case xori => exact suits_execXori _ _ _ _
  case fadd => exact suits_execFadd _ _ _ _ _
  case fsub => exact suits_execFsub _ _ _ _ _
  case fmul => exact suits_execFmul _ _ _ _ _
  case ffma => exact suits_execFfma _ _ _ _ _
  case fmin => exact suits_execFmin _ _ _ _
  case fmax => exact suits_execFmax _ _ _ _
  case fabs => exact suits_execFabs _ _ _
  case fneg => exact suits_execFneg _ _ _
  case frcp => exact suits_execFrcp _ _ _
  case frsq => exact suits_execFrsq _ _ _
  case fsqrt => exact suits_execFsqrt _ _ _ _
  case fex2 => exact suits_execFex2 _ _ _
  case flg2 => exact suits_execFlg2 _ _ _
  case fsin => exact suits_execFsin _ _ _
  case fcos => exact suits_execFcos _ _ _
  case fflr => exact suits_execFflr _ _ _
  case fceil => exact suits_execFceil _ _ _
  case ftrunc => exact suits_execFtrunc _ _ _
  case frint => exact suits_execFrint _ _ _ _
  case cvt => exact suits_execCvt _ _ _ _ _ _
  case qscale => exact suits_execQscale _ _ _ _ _
  case qscale8 => exact suits_execQscale8 _ _ _ _ _
  case mrd => exact suits_execMrd _ _ _ _
  case mwr => exact suits_execMwr _ _ _ _
  case spec => exact suits_execSpec _ _ _
  case shfl => exact suits_execShfl _ _ _ _ _
  case redl => exact suits_execRedl _ _ _ _ _
  case scanl => exact suits_execScanl _ _ _ _ _
  case ld => exact suits_execLd _ _ _ _ _
  case st => exact suits_execSt _ _ _ _ _
  case ldv => exact suits_execLdv _ _ _ _
  case stv => exact suits_execStv _ _ _ _
  case atom => exact suits_execAtom _ _ _ _ _
  case redq => exact suits_execRedq _ _ _ _
  case lexit => exact suits_execLexit
  all_goals cases hi

end Sys2Proof.Proofs
end

section
/-!
PROOFS. The operations of events, with crews that come, go and are read from save records, and the grant of a word (log 13).
-/

namespace Sys2Proof.Proofs
open Sys2Proof Sys2Proof.Machine

set_option Elab.async false

variable {w : Prop} {r s : State}

/-! ### What events keep: the bounds alone -/

/-- Bounds that are kept whatever crews come and go. -/
theorem kept_bounds {t : State} (h : Kept False r s) (hb : s.bounded → t.bounded) : Kept False r t :=
  ⟨fun b => hb (h.bounded b), nofun⟩

/-- Crews come, go and change on the cores and in the saved contexts: each that is new is in bounds where the first
  state
is. -/
theorem kept_crewsChange {t : State} (h : Kept False r s) (hc : t.c = s.c)
    (hcs : r.bounded → ∀ d ∈ t.crews, d ∈ s.crews ∨ d.Bounded)
    (hsv : r.bounded → ∀ v ∈ t.saved, v ∈ s.saved ∨ ∀ d ∈ v.crews, d.Bounded) : Kept False r t := by
  refine ⟨fun b => ?_, nofun⟩
  have hs := h.bounded b
  rw [bounded_iff] at hs ⊢
  obtain ⟨h1, h2, h3⟩ := hs
  rw [hc]
  refine ⟨h1, fun d hd => ?_, fun v hv => ?_⟩
  · exact (hcs b d hd).elim (h2 d) id
  · exact (hsv b v hv).elim (h3 v) id

/-- The crews on the cores come, go and change. -/
theorem kept_onCores {t : State} (h : Kept False r s) (hcs : r.bounded → ∀ d ∈ t.crews, d ∈ s.crews ∨ d.Bounded)
    (hc : t.c = s.c := by rfl) (hs : t.saved = s.saved := by rfl) : Kept False r t :=
  kept_crewsChange h hc hcs fun _ _ hv => .inl (hs ▸ hv)

theorem kept_focus (uid : Nat) (h : Kept False r s) : Kept False r (s.focus uid) := kept_bounds h (bounded_focus uid)

/-- Bounds of a crew that differs from one in bounds in its level and its stack. -/
theorem Crew.Bounded.change {c d : Crew} (b : c.Bounded) (hp : d.privl ≠ 3) (hd : d.stack.length ≤ 16)
    (hi : d.incs = c.incs := by rfl) : d.Bounded where
  privl := hp
  depth := hd
  flags f := by
    rw [flagCount, hi]
    exact b.flags f

theorem bounded_of_mem_allCrews {c : Crew} (b : s.bounded) (hc : c ∈ s.allCrews) : c.Bounded :=
  b c (List.mem_append_left _ hc)

theorem bounded_of_mem_saved {v : SavedContext} {c : Crew} (b : s.bounded) (hv : v ∈ s.saved) (hc : c ∈ v.crews) :
    c.Bounded := ((bounded_iff s).1 b).2.2 v hv c hc

theorem Crew.Bounded.reopened {c : Crew} (b : c.Bounded) {n : Nat} {outm : List OutMark} {m : ThreadSet} :
    (reopen c n outm m).Bounded := ⟨b.privl, b.depth, flagCount_reopen c n outm m⟩

/-- What stands in a save record is read so that the bounds hold (log 13). -/
theorem bounded_readContext (g : Gallery) {c : Crew} (b : c.Bounded) : (readContext s g c).Bounded := by
  have level (m : Nat) : savedLevel m ≠ 3 := by
    have hm : bits m 0 2 < 4 := Nat.mod_lt _ (by decide)
    unfold savedLevel
    split
    · decide
    · next hn =>
      intro e
      have e1 := congrArg BitVec.toNat e
      rw [BitVec.toNat_ofNat] at e1
      change bits m 0 2 % 4 = 3 at e1
      omega
  unfold readContext
  split
  · exact b
  · extract_lets word set mode depth c1 src
    have hd : c1.stack.length ≤ 16 := by
      show ((List.range depth).map _).length ≤ 16
      rw [List.length_map, List.length_range]
      exact Nat.min_le_left _ _
    have b1 : c1.Bounded := Crew.Bounded.change b (level mode) hd
    split
    · exact Crew.Bounded.change b1 b1.privl b1.depth
    · exact Crew.Bounded.change (Crew.Bounded.reopened b1 (n := (word 0x30).toNat)
        (outm := outMarks (saveRead s g c.save 0x400 384)) (m := set 0x1E00)) b1.privl b1.depth

theorem like_resumeCrew (c : Crew) : Crew.Like c (resumeCrew c) := by
  unfold resumeCrew
  split
  · exact (like_setS c _ _).trans ((like_past _).trans ⟨rfl, rfl, .refl _⟩)
  · exact (like_past c).trans ⟨rfl, rfl, .refl _⟩
  · exact ⟨rfl, rfl, .refl _⟩
  · exact ⟨rfl, rfl, .refl _⟩

theorem bounded_newCrews {q : Record} {gid core uid : Nat} {live : ThreadSet} {slots : List Nat} {saves : List Word}
    {c : Crew} (hc : c ∈ newCrews q gid core uid live slots saves) : c.Bounded := by
  obtain ⟨⟨⟨slot, save⟩, i⟩, -, rfl⟩ := List.mem_map.1 hc
  have level : (0 : BitVec 2) ≠ 3 := by decide
  exact ⟨level, Nat.zero_le _, fun _ => Nat.zero_le _⟩

theorem bounded_moveCrews {cs : List Crew} {core : Nat} {c : Crew} (b : ∀ c ∈ cs, c.Bounded)
    (hc : c ∈ moveCrews s cs core) : c.Bounded := by
  obtain ⟨⟨d, k⟩, hm, rfl⟩ := List.mem_map.1 hc
  have hd := b d (List.of_mem_zip hm).1
  exact ⟨hd.privl, hd.depth, hd.flags⟩

theorem bounded_seatCrews {l : List Crew} : ∀ {used : List Nat} {out cs : List Crew}, seatCrews l used out = some cs →
    (∀ c ∈ l, c.Bounded) → (∀ c ∈ out, c.Bounded) → ∀ c ∈ cs, c.Bounded := by
  induction l with
  | nil =>
    intro used out cs e _ ho
    cases e
    exact ho
  | cons d l ih =>
    intro used out cs e hl ho
    rw [seatCrews] at e
    split at e
    · cases e
    · refine ih e (fun c hc => hl c (List.mem_cons_of_mem _ hc)) fun c hc => ?_
      rcases List.mem_append.1 hc with hc | hc
      · exact ho c hc
      · rw [List.mem_singleton.1 hc]
        have hd := (like_resumeCrew d).bounded (hl d List.mem_cons_self)
        exact ⟨hd.privl, hd.depth, hd.flags⟩

/-- A crew that is no longer held. -/
theorem like_unhold (s : State) (c : Crew) : Crew.Like c (unhold s c) := by
  unfold unhold
  split
  · exact ⟨rfl, rfl, .refl _⟩
  · exact .refl c

theorem like_count (y : Cycle) (c : Crew) : Crew.Like c (y.count c) := by
  unfold Cycle.count
  split
  · exact .refl c
  · dsimp only
    split <;> exact ⟨rfl, rfl, .refl _⟩

theorem kept_onCrewsOf (gid : Nat) {f : Crew → Crew} (hf : ∀ c, Crew.Like c (f c)) (h : Kept False r s) :
    Kept False r (s.onCrewsOf gid f) := by
  have like (c : Crew) : Crew.Like c (if c.gid = gid then f c else c) := by
    split
    · exact hf c
    · exact .refl c
  refine kept_bounds h fun b => ?_
  rw [bounded_iff] at b ⊢
  obtain ⟨h1, h2, h3⟩ := b
  refine ⟨(like _).bounded h1, fun d hd => ?_, fun v hv d hd => ?_⟩
  · obtain ⟨c, hm, rfl⟩ := List.mem_map.1 hd
    exact (like c).bounded (h2 c hm)
  · obtain ⟨v, hm, rfl⟩ := List.mem_map.1 hv
    obtain ⟨c, hc, rfl⟩ := List.mem_map.1 hd
    exact (like c).bounded (h3 v hm c hc)

/-! ### Stores, placements and saves -/

theorem kept_performOldest (h : Kept False r s) : Kept False r (performOldest s) := by
  unfold performOldest
  split
  · exact h
  · split
    · exact kept_update h
    · extract_lets s1 src
      have h1 : Kept False r s1 := kept_performOf _ _ h
      split
      · exact kept_update h1
      · exact kept_update h1

theorem kept_stayParked (uid : Nat) (path : List Nat) (h : Kept False r s) : Kept False r (stayParked s uid path) :=
  kept_update h

theorem kept_retrySaved (v : SavedContext) (c : Crew) (h : Kept False r s) : Kept False r (retrySaved s v c) := by
  have h1 : Kept False r (putSave0 (enqueueResume s c.gid) c.uid) := kept_putSave0 _ (kept_enqueueResume _ h)
  unfold retrySaved
  extract_lets resume t
  split
  · split
    · exact kept_stayParked _ _ h
    · exact h1
  · exact h1

theorem kept_retrySpawn (q : SpawnWait) (h : Kept False r s) : Kept False r (retrySpawn s q) := by
  unfold retrySpawn
  extract_lets gone
  split
  · split
    · exact kept_update h
    · exact kept_retrySaved _ _ h
  · refine kept_inFocus (fun s => ?_) _ h
    split
    · exact kept_takeTrap _ (kept_update (.refl _ _))
    · exact kept_update (kept_update (.refl _ _))
    · split
      next e =>
        exact kept_stayParked _ _ (.refl _ _)
      next s1 e =>
        exact kept_putSave0 _ (kept_done (kept_update (kept_taskEnqueue _ _ e (.refl _ _))))
      next e =>
        exact kept_takeTrap _ (kept_update (.refl _ _))
      next e =>
        exact kept_takeTrap _ (kept_update (.refl _ _))
      next e =>
        exact kept_takeTrap _ (kept_update (.refl _ _))
      next e =>
        exact .refl _ _

theorem kept_retrySpawns (path : List Nat) (h : Kept False r s) : Kept False r (retrySpawns s path) := by
  unfold retrySpawns
  refine kept_foldl (fun s x => ?_) _ h
  exact kept_retrySpawn _ (.refl _ _)

theorem kept_retryFallen (h : Kept False r s) : Kept False r (retryFallen s) := kept_retrySpawns _ (kept_update h)

theorem kept_settleMoves (h : Kept False r s) : Kept False r (settleMoves s) :=
  kept_foldl (fun s m => kept_setPool _ _ (.refl _ _)) _ (kept_update h)

theorem kept_syncQueue (q : Record) (h : Kept False r s) : Kept False r (syncQueue s q) := by
  unfold syncQueue
  split
  · exact h
  · extract_lets ahead least
    split
    · exact h
    · exact kept_performNat _ _ _ h

theorem kept_unqueue (c : Candidate) (h : Kept False r s) : Kept False r (unqueue s c) := by
  unfold unqueue
  extract_lets mine
  exact kept_syncQueue _ (kept_update h)

theorem kept_bindHalf (vbase asn : Nat) (h : Kept False r s) : Kept False r (bindHalf s vbase asn) := by
  unfold bindHalf
  extract_lets key
  split
  · exact h
  · exact kept_update h

theorem kept_markSaves (q : Record) (saves : List Word) (x : Nat) (h : Kept False r s) :
    Kept False r (markSaves s q saves x) := by
  unfold markSaves
  refine kept_foldl (fun s a => ?_) _ h
  split
  · exact .refl _ _
  · exact kept_performNat _ _ _ (.refl _ _)

theorem kept_placeNew (c : Candidate) (core vbase : Nat) (h : Kept False r s) : Kept False r (placeNew s c core vbase)
    := by
  unfold placeNew
  extract_lets q saves gid slot slots g s1 src s2
  have h1 : Kept False r s1 := by
    unfold s1
    refine kept_unqueue _ ?_
    split
    · exact h
    · exact kept_bindHalf _ _ h
  have h2 : Kept False r s2 := kept_onCores h1 fun _ d hd => (List.mem_append.1 hd).imp id bounded_newCrews
  exact kept_syncPath _ (kept_markSaves _ _ _ h2)

theorem kept_fillGranules (vbase vgran : Nat) (l : Sparse Byte) (h : Kept False r s) :
    Kept False r (fillGranules s vbase vgran l) := by
  unfold fillGranules
  extract_lets s1
  have h1 : Kept False r s1 := kept_update h
  exact kept_foldl (fun s e => kept_update (.refl _ _)) _ h1

theorem kept_resumeTagWaits (l : List Crew) (h : Kept False r s) : Kept False r (resumeTagWaits s l) :=
  kept_foldl (fun _ _ => kept_resumeTags _ (.refl _ _)) _ h

theorem kept_putSaves (l : List Crew) (h : Kept False r s) : Kept False r (putSaves s l) :=
  kept_foldl (fun _ _ => kept_putSave0 _ (.refl _ _)) _ h

theorem kept_notify (g : Gallery) (h : Kept False r s) : Kept False r (notify s g) := by
  unfold notify
  split
  · exact kept_regionFault _ _ h
  · exact h

theorem kept_restoreImage (v : SavedContext) (core vbase : Nat) (hv : r.bounded → ∀ c ∈ v.crews, c.Bounded)
    (h : Kept False r s) : Kept False r (restoreImage s v core vbase) := by
  unfold restoreImage
  extract_lets slot slots src g cs s1 s2 s3
  have hcs (b : r.bounded) (d : Crew) (hd : d ∈ cs) : d.Bounded := by
    obtain ⟨⟨c, k⟩, hm, rfl⟩ := List.mem_map.1 hd
    have hc := bounded_readContext (s := s) v.gal (hv b c (List.of_mem_zip hm).1)
    exact (like_resumeCrew _).bounded ⟨hc.privl, hc.depth, hc.flags⟩
  have h1 : Kept False r s1 := by
    unfold s1
    split
    · exact h
    · exact kept_fillGranules _ _ _ (kept_bindHalf _ _ h)
  have h2 : Kept False r s2 := kept_crewsChange h1 rfl (fun b d hd => (List.mem_append.1 hd).imp id (hcs b d))
    fun _ _ hw => .inl (List.mem_filter.1 hw).1
  have h3 : Kept False r s3 := kept_resumeTagWaits _ (kept_putSaves _ h2)
  split
  · exact kept_notify _ (kept_syncPath _ h3)
  · exact kept_syncPath _ h3

theorem kept_placeResume (c : Candidate) (gid core vbase : Nat) (h : Kept False r s) :
    Kept False r (placeResume s c gid core vbase) := by
  unfold placeResume
  extract_lets s1
  have h1 : Kept False r s1 := kept_unqueue _ h
  split
  · exact h1
  · next v e =>
    split
    · exact kept_regionFault _ _ h1
    · exact kept_restoreImage _ _ _
        (fun b _ hc => bounded_of_mem_saved (h1.bounded b) (List.mem_of_find?_eq_some e) hc) h1

theorem kept_place (c : Candidate) (core vbase : Nat) (h : Kept False r s) : Kept False r (place s c core vbase) := by
  unfold place
  extract_lets s1
  have h1 : Kept False r s1 := by
    unfold s1
    split
    · exact kept_placeNew _ _ _ h
    · exact kept_placeResume _ _ _ _ h
  exact kept_retrySpawns _ h1

theorem kept_drainCrew (uid : Nat) (h : Kept False r s) : Kept False r (drainCrew s uid) :=
  kept_inFocus (fun _ => kept_drain (.refl _ _)) _ h

theorem kept_drainGallery (gid : Nat) (h : Kept False r s) : Kept False r (drainGallery s gid) :=
  kept_foldl (fun _ _ => kept_drainCrew _ (.refl _ _)) _ h

theorem kept_writeContext (g : Gallery) (c : Crew) (h : Kept False r s) : Kept False r (writeContext s g c) := by
  unfold writeContext
  extract_lets put here s1 s2 s3 s4 s5
  have h1 : Kept False r s1 := by
    unfold s1
    split
    · exact kept_saveWrite _ _ _ _ h
    · exact kept_saveWrite _ _ _ _ (kept_saveWrite _ _ _ _ (kept_saveWrite _ _ _ _ (kept_saveWrite _ _ _ _ h)))
  have h2 : Kept False r s2 := kept_saveWrite _ _ _ _ (kept_saveWrite _ _ _ _ h1)
  have h3 : Kept False r s3 := kept_saveWrite _ _ _ _ h2
  have h4 : Kept False r s4 := kept_saveWrite _ _ _ _ h3
  have h5 : Kept False r s5 := kept_saveWrite _ _ _ _ (kept_saveWrite _ _ _ _ h4)
  exact kept_saveWrite _ _ _ _ h5

theorem kept_awayFrom (gid : Nat) (h : Kept False r s) : Kept False r (awayFrom s gid) := by
  unfold awayFrom
  split
  · exact h
  · split
    · exact h
    · exact kept_focus _ h

theorem kept_unbindHalf (vgran vbase : Nat) (h : Kept False r s) : Kept False r (unbindHalf s vgran vbase) := by
  unfold unbindHalf
  extract_lets key
  split
  · exact h
  · exact kept_update h

theorem kept_removeGallery (g : Gallery) (h : Kept False r s) : Kept False r (removeGallery s g) := by
  unfold removeGallery
  extract_lets s1 s2
  have h1 : Kept False r s1 := kept_awayFrom _ h
  have h2 : Kept False r s2 := kept_onCores h1 fun _ d hd => .inl (List.mem_filter.1 hd).1
  exact kept_unbindHalf _ _ h2

theorem kept_saveImage (g : Gallery) (image : Nat) (pages : List Nat) (pooled : Bool) (h : Kept False r s) :
    Kept False r (saveImage s g image pages pooled) := by
  unfold saveImage
  extract_lets pa cs mine s1 v s2 s3 s4
  have h1 : Kept False r s1 := kept_foldl (fun s c => kept_writeContext _ _ (.refl _ _)) _ h
  have h2 : Kept False r s2 := kept_removeGallery _ h1
  have hcs (b : r.bounded) (d : Crew) (hd : d ∈ cs) : d.Bounded :=
    bounded_of_mem_allCrews (h.bounded b) (List.mem_filter.1 hd).1
  have h3 : Kept False r s3 := by
    refine kept_crewsChange h2 rfl (fun _ _ hd => .inl hd) fun b x hx => ?_
    rcases List.mem_append.1 hx with hx | hx
    · exact .inl (List.mem_filter.1 hx).1
    · rw [List.mem_singleton.1 hx]
      exact .inr (hcs b)
  have h4 : Kept False r s4 := by
    unfold s4
    split
    · exact kept_enqueueResume _ h3
    · exact h3
  exact kept_notify _ (kept_syncPath _ (kept_putSaves _ h4))

theorem kept_writeImage (pages : List Nat) (h : Kept False r s) : Kept False r (writeImage s pages) :=
  kept_update (kept_foldl (fun t x => kept_putBytes _ _ (.refl _ _)) _ h)

theorem kept_swapOut (g : Gallery) (h : Kept False r s) : Kept False r (swapOut s g) := by
  have h1 : Kept False r (drainGallery s g.gid) := kept_drainGallery _ h
  unfold swapOut
  dsimp only
  generalize drainGallery s g.gid = s1 at h1 ⊢
  cases s1.gal? g.gid with
  | none => exact h
  | some g1 =>
    cases imagePlace s1 g with
    | none => exact h
    | some a =>
      dsimp only
      split
      · exact h
      · exact kept_saveImage _ _ _ _ (kept_writeImage _ h1)

theorem kept_swapFor {t : State} (part : Nat) (e : swapFor s part = some t) (h : Kept False r s) : Kept False r t := by
  unfold swapFor at e
  obtain ⟨g, -, rfl⟩ := Option.map_eq_some_iff.1 e
  exact kept_swapOut _ h

theorem kept_placementDecision (part : Nat) (h : Kept False r s) : Kept False r (placementDecision s part) := by
  unfold placementDecision
  extract_lets s1 core s2 order
  have h1 : Kept False r s1 := kept_retryFallen (kept_settleMoves h)
  have h2 : Kept False r s2 := by
    unfold s2
    cases core with
    | none => exact h1
    | some k => exact kept_update h1
  split
  · exact h2
  · split
    · exact kept_place _ _ _ h2
    · split
      · exact kept_place _ _ _ h2
      · cases e : swapFor s2 part with
        | none => exact h2
        | some t => exact kept_swapFor _ e h2

/-! ### Completion -/

theorem kept_completionEcc (g : Gallery) (q : Record) (addr : Word) (pos : Nat) (h : Kept False r s) :
    Kept False r (completionEcc s g q addr pos) := by
  unfold completionEcc
  extract_lets c
  exact kept_regionFault _ _ h

theorem kept_underflow (g : Gallery) (q : Record) (cell : Word) (pos : Nat) (h : Kept False r s) :
    Kept False r (underflow s g q cell pos) := by
  unfold underflow
  extract_lets c
  exact kept_regionFault _ _ h

theorem kept_completeDec (g : Gallery) (q : Record) (cell : Word) (pos : Nat) (h : Kept False r s) :
    Kept False r (completeDec s g q cell pos) := by
  unfold completeDec
  split
  · exact h
  · split
    · exact kept_completionEcc _ _ _ _ h
    · split
      · exact kept_underflow _ _ _ _ h
      · next e => exact kept_decCell _ _ _ _ e h

theorem kept_completeSuccs (g : Gallery) (q : Record) (n : Nat) : ∀ {s : State} (i : Nat), Kept False r s →
    Kept False r (completeSuccs g q n i s) := by
  induction n with
  | zero => exact fun i h => h
  | succ n ih =>
    intro s i h
    unfold completeSuccs
    split
    · exact h
    · extract_lets a
      split
      · exact kept_completionEcc _ _ _ _ h
      · split
        · exact h
        · exact ih _ (kept_completeDec _ _ _ _ h)

theorem kept_completeRecord (g : Gallery) (q : Record) (h : Kept False r s) :
    Kept False r (completeRecord s g q) := by
  unfold completeRecord
  extract_lets s1 s2 s3
  have h1 : Kept False r s1 := kept_completeDec _ _ _ _ h
  have h2 : Kept False r s2 := by
    unfold s2
    split
    · exact h1
    · exact kept_completeSuccs _ _ _ _ h1
  have h3 : Kept False r s3 := kept_completeDec _ _ _ _ h2
  split
  · exact h3
  · split
    · exact kept_performNat _ _ _ h3
    · exact h3

theorem kept_retireGallery (g : Gallery) (h : Kept False r s) : Kept False r (retireGallery s g) := by
  unfold retireGallery
  extract_lets cs mine s1 s2
  have h1 : Kept False r s1 := kept_removeGallery _ h
  have h2 : Kept False r s2 := kept_update h1
  exact kept_syncPath _ (kept_markSaves _ _ _ h2)

theorem kept_completeGallery (g : Gallery) (h : Kept False r s) : Kept False r (completeGallery s g) := by
  unfold completeGallery
  extract_lets rs s1
  have h1 : Kept False r s1 := by
    unfold s1
    split
    · exact h
    · exact kept_foldl (fun s r => kept_completeRecord _ _ (.refl _ _)) _ h
  exact kept_retireGallery _ h1

/-! ### Hoist chunks and matrix passes -/

theorem kept_rowReads (k : Client) (vs : Bool) (n : Nat) (l : List Nat) : ∀ {s t : State} {out : List (List Byte)},
    rowReads k vs n l s = .ok (t, out) → Kept w r s → Kept w r t := by
  induction l with
  | nil =>
    intro s t out e h
    cases e
    exact h
  | cons a l ih =>
    intro s t out e h
    rw [rowReads] at e
    split at e
    · cases e
    · next e1 =>
      split at e
      · cases e
      · next e2 =>
        cases e
        exact ih e2 (kept_engRead _ _ _ _ e1 h)

theorem kept_planeReads {t : State} {ws : List (Nat × List Byte)} (k : Client) (o : HoistOp) (i : Nat)
    (e : planeReads s k o i = .ok (t, ws)) (h : Kept w r s) : Kept w r t := by
  unfold planeReads at e
  dsimp only at e
  generalize (if o.fmt = 1 then _ else _ : List Nat) = addrs at e
  split at e
  · cases e
  · next e1 =>
    cases e
    exact kept_rowReads _ _ _ _ e1 h

theorem kept_indexedReads (k : Client) (o : HoistOp) (l : List (Nat × Nat × Nat)) : ∀ {s t : State} {n : Nat}
    {ws : List (Nat × List Byte)}, indexedReads k o l n s = .ok (t, ws) → Kept w r s → Kept w r t := by
  induction l with
  | nil =>
    intro s t n ws e h
    cases e
    exact h
  | cons x l ih =>
    intro s t n ws e h
    unfold indexedReads at e
    split at e
    · cases e
    next e1 =>
    dsimp only at e
    split at e
    · cases e
    next e2 =>
    split at e
    · cases e
    next e3 =>
    cases e
    exact ih e3 (kept_engRead _ _ _ _ e2 (kept_engRead _ _ _ _ e1 h))

theorem kept_chunkReads {t : State} {ws : List (Nat × List Byte)} (k : Client) (o : HoistOp) (i : Nat)
    (e : chunkReads s k o i = .ok (t, ws)) (h : Kept w r s) : Kept w r t := by
  unfold chunkReads at e
  dsimp only at e
  split at e
  · split at e
    · cases e
    · next e1 =>
      cases e
      exact kept_engRead _ _ _ _ e1 h
  split at e
  · cases e
    exact h
  split at e
  · exact kept_planeReads _ _ _ e h
  split at e
  · cases e
  · next e1 =>
    have h1 := kept_indexedReads _ _ _ e1 h
    split at e <;> cases e
    · exact kept_update h1
    · exact h1

theorem kept_runChunk {t : State} (k : Client) (o : HoistOp) (i : Nat) (e : runChunk s k o i = .ok t) (h : Kept w r s) :
    Kept w r t := by
  unfold runChunk at e
  split at e
  · cases e
  · next e1 => exact kept_engWrite _ _ _ e (kept_chunkReads _ _ _ e1 h)

theorem kept_endMx (m : MxCmd) (h : Kept False r s) : Kept False r (endMx s m) := by
  unfold endMx
  extract_lets s1 s2
  have h1 : Kept False r s1 := kept_update h
  have h2 : Kept False r s2 := by
    unfold s2
    split
    · exact h1
    · exact kept_crewFault _ _ h1
  exact kept_completeTag _ _ _ h2

theorem kept_passTokens (h : Kept False r s) : Kept False r (passTokens s) := kept_update h

theorem kept_settleMx (h : Kept False r s) : Kept False r (settleMx s) := by
  unfold settleMx
  extract_lets s1
  have h1 : Kept False r s1 := by
    unfold s1
    refine kept_foldl (fun s m0 => ?_) _ h
    split
    · exact .refl _ _
    · split
      · exact kept_endMx _ (.refl _ _)
      · exact .refl _ _
  exact kept_settleExits (kept_passTokens h1)

theorem kept_dropScales (e : RingEntry) (slot : Nat) (h : Kept False r s) : Kept False r (dropScales s e slot) :=
  kept_update h

theorem kept_takeSlot (pa cons : Nat) (h : Kept False r s) : Kept False r (takeSlot s pa cons) :=
  kept_performNat _ _ _ h

theorem kept_skipSlot (e : RingEntry) (pa cons : Nat) (cause : Cause) (addr : Word) (tag : Option (BitVec 6))
    (h : Kept False r s) :
    Kept False r (skipSlot s e pa cons cause addr tag) := by
  unfold skipSlot
  extract_lets s1
  have h1 : Kept False r s1 := kept_dropScales _ _ (kept_takeSlot _ _ h)
  exact kept_completeTag _ _ _ (kept_crewFault _ _ h1)

theorem kept_scalesOf (x : RingEntry) (slot : Nat) (h : Kept w r s) : Kept w r (scalesOf s x slot).2 := by
  unfold scalesOf
  split
  · exact kept_update h
  · exact kept_update h

theorem kept_admitRecord (x : RingEntry) (pa cons : Nat) (slotVa : Word) (bs : List Byte) (h : Kept False r s) :
    Kept False r (admitRecord s x pa cons slotVa bs) := by
  have h1 : Kept False r (takeSlot s pa cons) := kept_takeSlot _ _ h
  have h2 : Kept False r (if (img bs 0 15 1 == 1) = true then scalesOf (takeSlot s pa cons) x cons
      else ([], takeSlot s pa cons)).2 := by
    split
    · exact kept_scalesOf _ _ h1
    · exact h1
  unfold admitRecord
  dsimp only
  exact kept_update h2

theorem kept_lookAtRing (e : RingEntry) (h : Kept False r s) : Kept False r (lookAtRing s e) := by
  unfold lookAtRing
  extract_lets k
  split
  · exact h
  · split
    · exact h
    · exact kept_crewFault _ _ (kept_update h)
    · extract_lets slotVa
      split
      · exact h
      · extract_lets head bs kind
        split
        · exact h
        · split
          · exact kept_skipSlot _ _ _ _ _ _ h
          · split
            · exact kept_skipSlot _ _ _ _ _ _ h
            · split
              · exact kept_skipSlot _ _ _ _ _ _ h
              · split
                · exact h
                · exact kept_admitRecord _ _ _ _ _ h

theorem kept_onMx (id : Nat) (f : MxCmd → MxCmd) (h : Kept False r s) : Kept False r (onMx s id f) := kept_update h

theorem kept_chargeCluster (cluster n : Nat) (h : Kept False r s) : Kept False r (chargeCluster s cluster n) := by
  unfold chargeCluster
  split
  · exact h
  · extract_lets r1
    exact kept_update h

theorem kept_readPlanes {t : State} {out : List (List Byte)} (k : Client) (kind addr row n : Nat)
    (e : readPlanes s k kind addr row n = .ok (t, out)) (h : Kept w r s) : Kept w r t := kept_rowReads _ _ _ _ e h

theorem kept_runPass {t : State} (m : MxCmd) (n : Nat) (e : runPass s m n = .ok t) (h : Kept w r s) : Kept w r t := by
  unfold runPass at e
  extract_lets strip block key k size first at e
  split at e
  · obtain rfl := Except.ok.inj e
    exact kept_foldl (fun _ _ => kept_setTile _ _ (.refl _ _)) _ h
  split at e
  · cases e
  next e1 =>
  split at e
  · cases e
  next e2 =>
  have h2 := kept_readPlanes _ _ _ _ _ e2 (kept_readPlanes _ _ _ _ _ e1 h)
  split at e
  · cases e
  obtain rfl := Except.ok.inj e
  exact kept_foldl (fun _ _ => kept_setTile _ _ (.refl _ _)) _ h2

theorem kept_flip (part idx : Nat) (h : Kept w r s) : Kept w r (Machine.flip s part idx) := kept_update h

/-! ### Context jobs and teardowns -/

theorem kept_finishJob (j : CtxJob) (status : Nat) (h : Kept False r s) : Kept False r (finishJob s j status) := by
  unfold finishJob
  extract_lets s1 s2
  have h1 : Kept False r s1 := kept_update h
  have h2 : Kept False r s2 := kept_performNat _ _ _ (kept_performNat _ _ _ h1)
  refine kept_onCrew_like (fun c => ?_) h2
  split
  · exact like_past c
  · exact .refl c

theorem kept_loseContext (v : SavedContext) (h : Kept False r s) : Kept False r (loseContext s v) :=
  kept_regionFault _ _ h

theorem kept_readmit (cluster : Nat) (m : MxCmd) (h : Kept False r s) : Kept False r (readmit cluster s m) := by
  unfold readmit
  extract_lets entry
  exact kept_update h

theorem kept_attachRing (cluster : Nat) (e : RingEntry) (h : Kept False r s) :
    Kept False r (attachRing cluster s e) := by
  unfold attachRing
  split
  · exact h
  · exact kept_update h

theorem kept_putWork (v : SavedContext) (core : Nat) (h : Kept False r s) : Kept False r (putWork s v core) := by
  unfold putWork
  extract_lets cluster s1 s2 tiles s3
  have h1 : Kept False r s1 := by
    unfold s1
    refine kept_foldl (fun s x => ?_) _ (kept_foldl (fun s x => ?_) _ h)
    · exact kept_readmit _ _ (.refl _ _)
    · exact kept_attachRing _ _ (.refl _ _)
  have h2 : Kept False r s2 := kept_update h1
  have h3 : Kept False r s3 := kept_update h2
  exact kept_update h3

theorem kept_restoreShadow {t : State} (v : SavedContext) (hv : r.bounded → ∀ c ∈ v.crews, c.Bounded)
    (e : restoreShadow s v = some t) (h : Kept False r s) : Kept False r t := by
  unfold restoreShadow at e
  dsimp only at e
  split at e
  · cases e
  split at e
  · next cs _ hcs =>
    cases e
    refine kept_syncPath _ (kept_resumeTagWaits _ (kept_putSaves _ (kept_putWork _ _
      (kept_crewsChange h rfl (fun b d hd => ?_) fun _ _ hw => .inl (List.mem_filter.1 hw).1))))
    refine (List.mem_append.1 hd).imp id (bounded_seatCrews hcs (fun c hc => ?_)
      (fun _ hc => absurd hc List.not_mem_nil) d)
    obtain ⟨c, hm, rfl⟩ := List.mem_map.1 hc
    exact bounded_readContext _ (hv b c hm)
  · cases e

theorem kept_restoreAll (l : List SavedContext) : ∀ {s t : State}, (r.bounded → ∀ v ∈ l, ∀ c ∈ v.crews, c.Bounded) →
    restoreAll l s = some t → Kept False r s → Kept False r t := by
  induction l with
  | nil =>
    intro s t _ e h
    cases e
    exact h
  | cons v l ih =>
    intro s t hl e h
    rw [restoreAll] at e
    split at e
    · cases e
    · next e1 =>
      exact ih (fun b v hv => hl b v (List.mem_cons_of_mem _ hv)) e
        (kept_restoreShadow v (fun b => hl b v List.mem_cons_self) e1 h)

theorem kept_loadJob (j : CtxJob) (h : Kept False r s) : Kept False r (loadJob s j) := by
  unfold loadJob
  extract_lets part vs lost
  split
  · exact kept_finishJob _ _ h
  split
  · split
    · exact kept_finishJob _ _ h
    split
    · exact kept_finishJob _ _ (kept_foldl (fun _ _ => kept_loseContext _ (.refl _ _)) _ h)
    split
    · exact kept_finishJob _ _ h
    · next e =>
      exact kept_finishJob _ _ (kept_restoreAll _
        (fun b v hv _ hc => bounded_of_mem_saved (h.bounded b) (List.mem_filter.1 hv).1 hc) e h)
  · split
    · exact kept_finishJob _ _ h
    next v e =>
    split
    · exact kept_finishJob _ _ (kept_loseContext _ h)
    split
    · exact kept_finishJob _ _ h
    split
    · exact kept_finishJob _ _ h
    · exact kept_finishJob _ _ (kept_restoreImage _ _ _
        (fun b _ hc => bounded_of_mem_saved (h.bounded b) (List.mem_of_find?_eq_some e) hc) (kept_dropUnplaced _ h))

theorem kept_setTiles (base : Nat) (x : Nat → BitVec 32) (n : Nat) (l : List Nat) (h : Kept w r s) :
    Kept w r { l.foldl (fun t k => setTile t (base + k) (x k)) s with fresh := n } :=
  kept_update (kept_foldl (fun _ _ => kept_setTile _ _ (.refl _ _)) l h)

theorem kept_spoilTile (cluster tile : Nat) (h : Kept w r s) : Kept w r (spoilTile s cluster tile) :=
  kept_setTiles _ _ _ _ h

theorem kept_takeWork (g : Gallery) (h : Kept False r s) : Kept False r (takeWork s g).2 :=
  kept_passTokens (kept_foldl (fun _ _ => kept_spoilTile _ _ (.refl _ _)) _ (kept_update h))

theorem kept_saveShadow (g0 : Gallery) (h : Kept False r s) : Kept False r (saveShadow s g0) := by
  unfold saveShadow
  split
  · exact h
  · next g _ =>
    have h0 : Kept False r ((s.allCrews.filter (·.gid == g.gid)).foldl (fun s c => writeContext s g c) s) :=
      kept_foldl (fun _ _ => kept_writeContext _ _ (.refl _ _)) _ h
    dsimp only
    generalize (s.allCrews.filter (·.gid == g.gid)).foldl (fun s c => writeContext s g c) s = s0 at h0 ⊢
    have h1 : Kept False r (awayFrom (takeWork s0 g).2 g.gid) := kept_awayFrom _ (kept_takeWork _ h0)
    refine kept_putSaves _ (kept_syncPath _ (kept_crewsChange h1 rfl (fun _ d hd => .inl (List.mem_filter.1 hd).1)
      fun b v hv => (List.mem_append.1 hv).imp id fun hv d hd => ?_))
    rw [List.mem_singleton.1 hv] at hd
    exact bounded_of_mem_allCrews (h0.bounded b) (List.mem_filter.1 hd).1

theorem kept_saveToImage (j : CtxJob) (g : Gallery) (h : Kept False r s) : Kept False r (saveToImage s j g) := by
  unfold saveToImage
  extract_lets mine
  split
  · exact kept_finishJob _ _ h
  · split
    · exact kept_finishJob _ _ h
    · exact kept_finishJob _ _ (kept_saveImage _ _ _ _ (kept_writeImage _ h))

theorem kept_migrate {t : State} (g : Gallery) (target : Nat) (e : migrate s g target = some t) (h : Kept False r s) :
    Kept False r t := by
  have hcs (b : r.bounded) : ∀ c ∈ s.allCrews.filter (·.gid == g.gid), c.Bounded :=
    fun c hc => bounded_of_mem_allCrews (h.bounded b) (List.mem_filter.1 hc).1
  have h0 : Kept False r ((s.allCrews.filter (·.gid == g.gid)).foldl (fun s c => writeContext s g c) s) :=
    kept_foldl (fun _ _ => kept_writeContext _ _ (.refl _ _)) _ h
  unfold migrate at e
  dsimp only at e
  generalize (s.allCrews.filter (·.gid == g.gid)).foldl (fun s c => writeContext s g c) s = s0 at h0 e
  generalize hq : (if (clusterOf g.core == clusterOf target) = true then
      (({ (takeWork s0 g).1 with mx := [], tokens := [], rings := [], tiles := [], badTiles := [] } : SavedContext),
        { s0 with hoist := s0.hoist.filter fun h => !isOf s0 g.gid h.uid }) else takeWork s0 g) = q at e
  obtain ⟨v, s1⟩ := q
  have h1 : Kept False r s1 := by
    split at hq <;> cases hq
    · exact kept_update h0
    · exact kept_takeWork _ h0
  split at e
  · cases e
  split at e
  · cases e
  · cases e
    have h2 : Kept False r (removeGallery s1 g) := kept_removeGallery _ h1
    refine kept_notify _ (kept_syncPath _ (kept_putWork _ _ (kept_onCores ?_ fun b d hd =>
      (List.mem_append.1 hd).imp id (bounded_moveCrews (hcs b)))))
    split
    · exact h2
    · exact kept_fillGranules _ _ _ (kept_bindHalf _ _ h2)

theorem kept_saveJob (j : CtxJob) (h : Kept False r s) : Kept False r (saveJob s j) := by
  unfold saveJob
  extract_lets gs s1 target
  have h1 : Kept False r s1 := kept_foldl (fun s g => kept_drainGallery _ (.refl _ _)) _ h
  split
  · exact kept_finishJob _ _ h
  split
  · exact kept_finishJob _ _ h
  split
  · exact kept_finishJob _ _ h
  split
  · exact h
  split
  · exact h1
  split
  · exact kept_finishJob _ _ (kept_foldl (fun _ _ => kept_saveShadow _ (.refl _ _)) _ h1)
  split
  · exact kept_finishJob _ _ h1
  split
  · exact kept_saveToImage _ _ h1
  split
  · exact kept_finishJob _ _ h1
  split
  · exact kept_finishJob _ _ h1
  · next e => exact kept_finishJob _ _ (kept_migrate _ _ e h1)

theorem kept_tearGallery (g0 : Gallery) (h : Kept False r s) : Kept False r (tearGallery s g0) := by
  unfold tearGallery
  split
  · exact h
  · next g _ =>
    extract_lets s1 held mine s2 s3 s4 saves
    have like (c : Crew) : Crew.Like c (if c.status = .exited then c else { c with status := .halted }) := by
      split
      · exact .refl c
      · exact ⟨rfl, rfl, .refl _⟩
    have h1 : Kept False r s1 := kept_onCrewsOf _ like h
    have h2 : Kept False r s2 := kept_update h1
    have h3 : Kept False r s3 := kept_foldl (fun s t => kept_spoilTile _ _ (.refl _ _)) _ h2
    have h4 : Kept False r s4 := kept_crewsChange h3 rfl (fun _ _ hd => .inl hd) fun _ _ hv => .inl
      (List.mem_filter.1 hv).1
    split
    · exact kept_syncPath _ (kept_unbindHalf _ _ (kept_markSaves _ _ _ h4))
    · exact kept_settleMx (kept_retireGallery _ (kept_update h3))

theorem kept_dropRecords (t : Teardown) (h : Kept False r s) : Kept False r (dropRecords s t) := kept_dropUnplaced _ h

/-! ### Links and pacing -/

theorem kept_timeoutColl (c : Coll) (h : Kept False r s) : Kept False r (timeoutColl s c) := kept_failColl _ _ _ _ h

theorem kept_onMember (f : Pacer → Nat → Pacer) (h : Kept False r s) : Kept False r (onMember s f) := by
  unfold onMember
  split
  · exact kept_onPacer _ h
  · exact h

/-- A message of pacing changes the pacer alone, or counts an error (R345 to R353). -/
theorem kept_paceMessage {t : State} (src : BitVec 8) (bs : List Byte) (e : paceMessage src bs s = .next t)
    (h : Kept False r s) : Kept False r t := by
  unfold paceMessage at e
  dsimp only at e
  split at e <;> cases e
  case h_11 =>
    split
    · exact kept_countError h
    · exact h
  all_goals exact kept_onMember _ h

theorem kept_acceptFlit (flit : List Byte) (h : Kept False r s) : Kept False r (acceptFlit s flit) := by
  unfold acceptFlit
  split
  · split
    · next e => exact kept_paceMessage _ _ e h
    · exact h
  · exact h

theorem kept_receiveFlit (p : Nat) (flit : List Byte) (h : Kept False r s) : Kept False r (receiveFlit s p flit) := by
  unfold receiveFlit
  extract_lets q word seq
  split
  · exact h
  · split
    · exact kept_onPort _ _ h
    · split
      · exact kept_onPort _ _ h
      · split
        · exact h
        · exact kept_acceptFlit _ (kept_onPort _ _ h)

theorem kept_silentRecord (peer : BitVec 8) (x : Nat × Nat) (h : Kept False r s) :
    Kept False r (silentRecord peer s x) := by
  unfold silentRecord
  split
  · exact h
  · exact kept_regionFault _ _ h

theorem kept_trip (h : Kept False r s) : Kept False r (trip s) := by
  unfold trip
  extract_lets s1 src
  have h1 : Kept False r s1 := kept_onPacer _ h
  exact kept_update h1

/-! ### The host and its mailbox -/

theorem kept_onRecord (cluster : Nat) (f : CurrentRecord → CurrentRecord) (h : Kept False r s) :
    Kept False r (onRecord s cluster f) := kept_update h

theorem kept_fnFault (part : Nat) (q : HostFn) (f : FaultRec) (h : Kept False r s) :
    Kept False r (fnFault s part q f) := by
  unfold fnFault
  split
  · exact kept_countError h
  · exact kept_ringPush _ _ _ _ h

theorem kept_advanceQueue (fn q cb : Nat) (h : Kept False r s) : Kept False r (advanceQueue s fn q cb) := by
  unfold advanceQueue
  extract_lets n
  exact kept_onQueue _ _ _ (kept_performNat _ _ _ h)

theorem kept_refusalRecord (asn : Nat) (q : Record) (f : FaultRec) (h : Kept False r s) :
    Kept False r (refusalRecord s asn q f) := by
  unfold refusalRecord
  split
  · exact kept_countError h
  · exact kept_regionFault _ _ h

theorem kept_hostEnqueue (part fn : Nat) (name : Word) (bs : List Byte) (h : Kept False r s) :
    Kept False r (hostEnqueue s part fn name bs) := by
  unfold hostEnqueue
  extract_lets h1 asn r1
  split
  · extract_lets f
    split
    · exact kept_fnFault _ _ _ h
    · exact kept_refusalRecord _ _ _ h
  · split
    · exact kept_regionFault _ _ h
    · exact kept_regionFault _ _ h
    · exact kept_enterQueue _ _ h

theorem kept_consumeQueue (fn q : Nat) (h : Kept False r s) : Kept False r (consumeQueue s fn q) := by
  unfold consumeQueue
  split
  · exact h
  · extract_lets h1 x s1 i
    have h11 : Kept False r s1 := kept_onQueue _ _ _ h
    split
    · exact h11
    · split
      · exact h11
      · exact h
      · exact kept_fnFault _ _ _ (kept_advanceQueue _ _ _ h)
      · exact kept_refusalRecord _ _ _ (kept_advanceQueue _ _ _ h)
      · exact kept_advanceQueue _ _ _ (kept_hostEnqueue _ _ _ _ h)

theorem kept_hostFail (part : Nat) (q : HostFn) (cause : Cause) (va n : Nat) (h : Kept False r s) :
    Kept False r (hostFail s part q cause va n) := by
  unfold hostFail
  extract_lets f owner
  clear_value owner
  cases owner with
  | none => exact kept_fnFault _ _ _ h
  | some q => exact kept_regionFault _ _ h

theorem kept_windowWrite (fn : Nat) (off : Word) (data : List Byte) (h : Kept False r s) :
    Kept False r (windowWrite s fn off data) := by
  have put (l : List (Place × Nat)) : ∀ {q : State × List Byte}, Kept False r q.1 → Kept False r
      (l.foldl (fun (acc : State × List Byte) x => (performGlobal acc.1 x.1.pa (acc.2.take x.2), acc.2.drop x.2)) q).1
        := by
    induction l with
    | nil => exact id
    | cons x l ih => exact fun hq => ih (kept_performGlobal _ _ hq)
  unfold windowWrite
  split
  · exact h
  · dsimp only
    split
    · exact kept_hostFail _ _ _ _ _ h
    · exact put _ h

theorem kept_answer (fn : Nat) (bs : List Byte) (abort : Bool) (h : Kept False r s) :
    Kept False r (answer s fn bs abort) := kept_onFn _ _ h

theorem kept_windowRead (fn : Nat) (off : Word) (n : Nat) (h : Kept False r s) :
    Kept False r (windowRead s fn off n) := by
  unfold windowRead
  split
  · exact h
  · extract_lets h1
    split
    · exact kept_answer _ _ _ (kept_hostFail _ _ _ _ _ h)
    · exact kept_answer _ _ _ h

theorem kept_windowAtomic (fn : Nat) (off : Word) (p : BitVec 4) (n : Nat) (x cmp : Word) (h : Kept False r s) :
    Kept False r (windowAtomic s fn off p n x cmp) := by
  unfold windowAtomic
  split
  · exact h
  · extract_lets q a fail
    have hfail (e : Cause) : Kept False r (fail e) := kept_answer _ _ _ (kept_hostFail _ _ _ _ _ h)
    split
    · exact hfail _
    · split
      · exact hfail _
      · exact kept_answer _ _ _ (kept_atomicAt _ _ _ _ _ h)

theorem kept_finishMail (m : Request) (status detail : Nat) (results : List Byte) (h : Kept False r s) :
    Kept False r (finishMail s m status detail results) := by
  unfold finishMail
  extract_lets s1 s2
  have h1 : Kept False r s1 := kept_performNat _ _ _ h
  have h2 : Kept False r s2 := kept_ringPush _ _ _ _ h1
  exact kept_onFn _ _ h2

/-- The state of the part where a request is answered, or waits. -/
def answeredState : Answered → State
  | .wait s => s
  | .reply s _ _ _ => s

theorem kept_serveMail (fn : Nat) (mine : Nat → Bool) {act : State → Request → Answered}
    (hact : ∀ m, Kept False r (answeredState (act s m))) (h : Kept False r s) : Kept False r (serveMail s fn mine act)
      := by
  unfold serveMail
  split
  · exact h
  · exact kept_onFn _ _ h
  · exact kept_fnFault _ _ _ (kept_performNat _ _ _ h)
  · next m _ =>
    split
    · exact h
    · have h1 := hact m
      split
      · next e =>
        rw [e] at h1
        exact kept_onFn _ _ h1
      · next e =>
        rw [e] at h1
        exact kept_finishMail _ _ _ _ h1

theorem kept_simple (h : Kept False r s) : Kept False r (answeredState (simple s)) := h

theorem kept_guarded (ok : Bool) (m : Request) {go : Answered} (hgo : Kept False r (answeredState go))
    (h : Kept False r s) : Kept False r (answeredState (guarded ok m s go)) := by
  unfold guarded
  split
  · exact hgo
  · exact h

theorem kept_mapPage (part asn va perms : Nat) (l : List (Nat × Nat)) : ∀ {s t : State} {tbl pa : Nat},
    mapPage part asn va perms l tbl s = some (t, pa) → Kept w r s → Kept w r t := by
  induction l with
  | nil => exact fun e => by cases e
  | cons x l ih =>
    intro s t tbl pa e h
    cases l with
    | nil =>
      obtain ⟨pa, -, e⟩ := Option.map_eq_some_iff.1 e
      cases e
      exact kept_performNat _ _ _ h
    | cons y l =>
      unfold mapPage at e
      dsimp only at e
      split at e
      · exact ih e h
      · split at e
        · cases e
        · exact ih e (kept_performNat _ _ _ h)

theorem kept_placePages (part asn perms : Nat) (l : List (Nat × List Byte)) : ∀ {s t : State},
    placePages part asn perms l s = some t → Kept w r s → Kept w r t := by
  induction l with
  | nil =>
    intro s t e h
    cases e
    exact h
  | cons x l ih =>
    intro s t e h
    unfold placePages at e
    split at e
    · cases e
    · next e1 => exact ih e (kept_performGlobal _ _ (kept_mapPage _ _ _ _ _ e1 h))

theorem kept_placeSpan {t : State} (part asn perms : Nat) (x : Span) (bs : List Byte)
    (e : placeSpan s part asn perms x bs = some t) (h : Kept w r s) : Kept w r t := kept_placePages _ _ _ _ e h

theorem kept_placeObject {t : State} (part asn : Nat) (y : Layout) (o : ObjHead) (out : List Byte)
    (e : placeObject s part asn y o out = some t) (h : Kept w r s) : Kept w r t := by
  obtain ⟨s2, e2, e3⟩ := Option.bind_eq_some_iff.1 e
  obtain ⟨s1, e1, e2⟩ := Option.bind_eq_some_iff.1 e2
  exact kept_placeSpan _ _ _ _ _ e3 (kept_placeSpan _ _ _ _ _ e2 (kept_placeSpan _ _ _ _ _ e1 h))

theorem kept_enqueueLaunches (m : Request) (y : Layout) (o : ObjHead) (out : List Byte) (h : Kept False r s) :
    Kept False r (enqueueLaunches s m y o out) := kept_foldl (fun _ _ => kept_hostEnqueue _ _ _ _ (.refl _ _)) _ h

theorem kept_loadObject (m : Request) (o : ObjHead) (obj : List Byte) (asn : Nat) (h : Kept False r s) :
    Kept False r (answeredState (loadObject s m o obj asn)) := by
  unfold loadObject
  dsimp only
  split
  · exact h
  · split
    · exact h
    · next e => exact kept_enqueueLaunches _ _ _ _ (kept_update (kept_placeObject _ _ _ _ _ e h))

theorem kept_loadRequest (m : Request) (h : Kept False r s) : Kept False r (answeredState (loadRequest s m)) := by
  unfold loadRequest
  dsimp only
  split
  · exact h
  split
  · exact h
  split
  · exact h
  split
  · exact kept_regionFault _ _ h
  split
  · exact h
  · exact kept_loadObject _ _ _ _ h

/-! ### Fuses, ports, time and the grant -/

theorem kept_blowFuse (h : Kept False r s) : Kept False r (blowFuse s) := by
  unfold blowFuse
  split
  · exact h
  · extract_lets n src
    split
    · exact kept_update h
    · exact kept_update h

theorem kept_endTraining (k : Nat) (fail : Bool) (phase spares eyes : Nat) (lanemap : Word) (h : Kept False r s) :
    Kept False r (endTraining s k fail phase spares eyes lanemap) := by
  unfold endTraining
  split
  · exact h
  · split
    · exact h
    · extract_lets failed s1 src
      have h1 : Kept False r s1 := kept_onCtl _ _ h
      split
      · exact kept_update h1
      · exact h1

theorem kept_moveFrom (p : Nat) (state next : BitVec 3) (h : Kept False r s) :
    Kept False r (moveFrom s p state next) := kept_onPort _ _ h

theorem kept_expireTraining (h : Kept False r s) : Kept False r (expireTraining s) := by
  unfold expireTraining
  extract_lets pick
  refine kept_foldl (fun t k => ?_) _ h
  split
  · exact kept_endTraining _ _ _ _ _ _ (.refl _ _)
  · exact .refl _ _

theorem kept_tick (h : Kept False r s) : Kept False r (tick s) := by
  unfold tick
  extract_lets n src
  have like (c : Crew) : Crew.Like c { c with cycles := c.cycles + n } := ⟨rfl, rfl, .refl _⟩
  exact kept_expireTraining (kept_mapCrews like h)

theorem kept_unholdAll (h : Kept False r s) : Kept False r (unholdAll s) := kept_mapCrews (like_unhold s) h

theorem kept_grantOnly (c : Crew) (h : Kept False r s) : Kept False r (grantOnly s c) :=
  kept_update (kept_focus c.uid h)

theorem kept_grantCycle (y : Cycle) (l : List Crew) (h : Kept False r s) : Kept False r (grantCycle s y l) := by
  unfold grantCycle
  extract_lets s1
  have h1 : Kept False r s1 := kept_mapCrews (like_count y) h
  clear_value s1
  split
  · exact kept_update (kept_focus _ h1)
  · exact kept_focus _ h1
  · exact kept_focus _ h1
  · split
    · exact h1
    · exact kept_focus _ h1

theorem kept_nextGrant {t : State} (e : nextGrant s = some t) (h : Kept False r s) : Kept False r t := by
  unfold nextGrant at e
  split at e
  · cases e
    exact kept_update (kept_focus _ h)
  split at e
  · cases e
  · cases e
    exact kept_grantOnly _ h
  · dsimp only at e
    split at e <;> cases e
    · exact kept_grantOnly _ h
    · exact kept_grantCycle _ _ h

theorem kept_retryHeld (h : Kept False r s) : Kept False r (retryHeld s) := by
  unfold retryHeld
  split
  · exact h
  · refine kept_bounds h fun b => ?_
    rw [bounded_iff] at b ⊢
    obtain ⟨h1, h2, h3⟩ := b
    refine ⟨h1, fun d hd => ?_, h3⟩
    obtain ⟨c, hm, rfl⟩ := List.mem_map.1 hd
    exact (like_unhold s c).bounded (h2 c hm)

theorem kept_granted {t : State} (e : granted s = some t) (h : Kept False r s) : Kept False r t := by
  rw [granted, Option.map_eq_some_iff] at e
  obtain ⟨u, hu, rfl⟩ := e
  exact kept_tick (kept_nextGrant hu (kept_retryHeld h))

theorem kept_correctRead (i : Instr) (h : Kept False r s) : Kept False r (correctRead i s) := by
  unfold correctRead
  split
  · exact h
  · extract_lets reads hit src
    exact kept_update h

theorem kept_chargeWord (i : Instr) (h : Kept False r s) : Kept False r (chargeWord i s) := by
  unfold chargeWord
  split
  · exact h
  · extract_lets n s1 heavy
    have h1 : Kept False r s1 := kept_chargeCluster _ _ h
    split
    · exact h1
    · exact kept_update h1

end Sys2Proof.Proofs
end

section
/-!
PROOFS. The events and the step: the bounds of the crews (R8, R10, R67).
-/

namespace Sys2Proof.Proofs
open Sys2Proof Sys2Proof.Machine

set_option Elab.async false

variable {r s : State}

/-! ### Events -/

/-- An answer that goes on does so with the bounds kept. -/
def Bounds (s : State) (o : Out) : Prop := ∀ t, o = .next t → Kept False s t

theorem bounds_next {t : State} (h : Kept False s s → Kept False s t) : Bounds s (.next t) := by
  rintro _ ⟨⟩
  exact h (.refl False s)

theorem bounded_foreman (die : Nat) : (Crew.foreman die).Bounded := by
  have level : (2 : BitVec 2) ≠ 3 := by decide
  exact ⟨level, Nat.zero_le _, fun _ => Nat.zero_le _⟩

theorem bounded_reset : State.reset.bounded := by
  rw [bounded_iff]
  refine ⟨bounded_foreman 0, fun c hc => ?_, fun v hv => absurd hv List.not_mem_nil⟩
  have hm : c ∈ [Crew.foreman 1, Crew.foreman 2, Crew.foreman 3] := hc
  simp only [List.mem_cons, List.not_mem_nil, or_false] at hm
  rcases hm with rfl | rfl | rfl
  · exact bounded_foreman 1
  · exact bounded_foreman 2
  · exact bounded_foreman 3

theorem kept_afterReset (h : Kept False r s) : Kept False r (afterReset s) :=
  kept_bounds h fun _ => (kept_update (.refl False State.reset)).bounded bounded_reset

theorem like_wakeCrew (c : Crew) : Crew.Like c (wakeCrew c) := by
  unfold wakeCrew
  split
  · exact (like_setS c _ _).trans ((like_past _).trans ⟨rfl, rfl, .refl _⟩)
  · exact (like_past c).trans ⟨rfl, rfl, .refl _⟩
  · exact .refl c

theorem like_flipDone (c : Crew) : Crew.Like c (flipDone c) := by
  unfold flipDone
  split
  · exact like_past c
  · exact .refl c

theorem bounds_execSliceAnswer (uid pick : Nat) : Bounds r (execSliceAnswer uid pick r) := by
  refine bounds_next fun h => kept_inFocus (fun s => ?_) _ h
  split
  · exact .refl _ _
  · next rest _ =>
    have like : Crew.Like s.c { s.c with acks := rest } := ⟨rfl, rfl, .refl _⟩
    exact kept_like (.refl _ _) (like.trans (like_retire _))

theorem bounds_execCrewWakeResume (uid : Nat) : Bounds r (execCrewWakeResume uid r) := by
  refine bounds_next fun h => ?_
  split
  · exact kept_putSave0 _ (kept_onCrew_like like_wakeCrew h)
  · exact h

theorem bounds_execPromotionEnd (cluster pick : Nat) : Bounds r (execPromotionEnd cluster pick r) := by
  refine bounds_next fun h => ?_
  split
  · exact kept_settleMx h
  · next m n _ =>
    have pass {t : State} (e : (if m.failed.isSome then Except.ok r else runPass r m n) = .ok t) : Kept False r t := by
      split at e
      · cases e
        exact h
      · exact kept_runPass _ _ e h
    dsimp only
    split
    · next e => exact kept_settleMx (kept_onMx _ _ (pass e))
    · exact kept_settleMx (kept_onMx _ _ h)

theorem bounds_execPublishFlip (pick : Nat) : Bounds r (execPublishFlip pick r) := by
  refine bounds_next fun h => ?_
  split
  · exact h
  · extract_lets s1
    have h1 : Kept False r s1 := kept_flip _ _ (kept_update h)
    clear_value s1
    split
    · exact kept_onCrew_like like_flipDone h1
    · exact kept_settleExits (kept_completeTag _ _ _ (kept_onCrew_like (fun c => like_setStat _ _ _ _ _) h1))

theorem bounds_execMailboxLoad (fn : BitVec 2) : Bounds r (execMailboxLoad fn r) :=
  bounds_next fun h => kept_serveMail _ _ (fun m => kept_guarded _ m (kept_loadRequest m h) h) h

theorem bounds_execMailboxTear (fn : BitVec 2) : Bounds r (execMailboxTear fn r) := by
  refine bounds_next fun h => kept_serveMail _ _ (fun m => ?_) h
  split
  · exact h
  · exact kept_guarded _ m (kept_performNat _ _ _ h) h

theorem bounds_execMailboxLimit (fn : BitVec 2) : Bounds r (execMailboxLimit fn r) :=
  bounds_next fun h => kept_serveMail _ _ (fun m => kept_guarded _ m (kept_fwlimitWrite _ _ h) h) h

theorem bounds_execMailboxPool (fn : BitVec 2) : Bounds r (execMailboxPool fn r) := by
  refine bounds_next fun h => kept_serveMail _ _ (fun m => ?_) h
  extract_lets cluster ok src s1 s2
  have h1 : Kept False r s1 := by
    unfold s1
    split
    · exact h
    · exact kept_update h
  have h2 : Kept False r s2 := kept_settleMoves h1
  refine kept_guarded _ m ?_ h
  split
  · exact h2
  · exact h2

theorem bounds_execMailboxStrict (fn : BitVec 2) : Bounds r (execMailboxStrict fn r) := by
  refine bounds_next fun h => kept_serveMail _ _ (fun m => ?_) h
  have h1 (x : BitVec 4) : Kept False r { r with strict := x } := kept_update h
  exact kept_guarded _ m (kept_simple (h1 _)) h

theorem bounds_execMailboxEnrol (fn : BitVec 2) : Bounds r (execMailboxEnrol fn r) := by
  refine bounds_next fun h => kept_serveMail _ _ (fun m => kept_guarded _ m ?_ h) h
  split
  · exact h
  · split
    · exact h
    · next b _ =>
      have h1 : Kept False r { r with boot := b } := kept_update h
      exact kept_simple h1

theorem bounds_execMailboxFuse (fn : BitVec 2) : Bounds r (execMailboxFuse fn r) := by
  refine bounds_next fun h => kept_serveMail _ _ (fun m => ?_) h
  extract_lets v s1
  have h1 : Kept False r s1 := by
    unfold s1
    split
    · exact h
    · exact kept_fuseRequest _ h
  refine kept_guarded _ m ?_ h
  split
  · exact h1
  · exact h1

theorem bounds_execMailboxRoute (fn : BitVec 2) : Bounds r (execMailboxRoute fn r) := by
  refine bounds_next fun h => kept_serveMail _ _ (fun m => ?_) h
  have h1 (x : Sparse (BitVec 18)) : Kept False r { r with routes := x } := kept_update h
  exact kept_guarded _ m (kept_simple (h1 _)) h

theorem bounds_execMailboxUnknownOp (fn : BitVec 2) : Bounds r (execMailboxUnknownOp fn r) :=
  bounds_next fun h => kept_serveMail _ _ (fun _ => h) h

theorem bounds_execLossOfPower : Bounds r (execLossOfPower r) :=
  bounds_next fun h => kept_mapCrews (f := fun c => { c with status := .halted }) (fun _ => ⟨rfl, rfl, .refl _⟩)
    (kept_afterReset h)

theorem bounds_execBranchResolution (uid : Nat) : Bounds r (execBranchResolution uid r) := bounds_next fun h => h

theorem bounds_execLongLatencyLanding (uid pick : Nat) : Bounds r (execLongLatencyLanding uid pick r) := by
  refine bounds_next fun h => ?_
  refine kept_inFocus (fun s => ?_) _ h
  split
  · exact .refl _ _
  · extract_lets src s1
    have h1 : Kept False s s1 := kept_landResult _ (kept_update (.refl _ _))
    exact kept_like h1 (like_retire _)

theorem bounds_execStorePerformed (uid : Nat) : Bounds r (execStorePerformed uid r) := by
  refine bounds_next fun h => ?_
  split
  · exact h
  · refine kept_inFocus (fun s => ?_) _ h
    split
    · exact kept_update (.refl _ _)
    · exact kept_performOldest (.refl _ _)

theorem bounds_execFilterSlowPathWrite (uid : Nat) : Bounds r (execFilterSlowPathWrite uid r) := by
  refine bounds_next fun h => ?_
  split
  · exact kept_inFocus (fun s => kept_performOldest (.refl _ _)) _ (kept_update h)
  · exact h

theorem bounds_execDeadlineSweep : Bounds r (execDeadlineSweep r) := by
  refine bounds_next fun h => ?_
  split
  · exact h
  · extract_lets late out s1 ready s2
    have h1 : Kept False r s1 := kept_wakeEntries _ _ h
    have h2 : Kept False r s2 := kept_foldl (fun s e => kept_wake _ _ (.refl _ _)) _ (kept_update h1)
    split
    · exact h2
    · exact kept_relightAll _ h2

theorem bounds_execRedqContribution (uid pick : Nat) : Bounds r (execRedqContribution uid pick r) :=
  bounds_next fun h => kept_retryPending (kept_inFocus (fun _ => kept_offerSome _ (.refl _ _)) _ h)

theorem bounds_execTrapEntry (uid : Nat) : Bounds r (execTrapEntry uid r) := by
  refine bounds_next fun h => ?_
  refine kept_inFocus (fun s => ?_) _ h
  split
  · extract_lets s1
    have h1 : Kept False s s1 := kept_drain (.refl _ _)
    split
    · exact kept_enterTrap _ h1
    · exact h1
  · exact .refl _ _

theorem bounds_execPlacementDecision (part : BitVec 2) : Bounds r (execPlacementDecision part r) :=
  bounds_next fun h => kept_placementDecision _ h

theorem bounds_execRecordCompletion (gid : Nat) : Bounds r (execRecordCompletion gid r) := by
  refine bounds_next fun h => ?_
  split
  · exact h
  · split
    · exact kept_completeGallery _ h
    · exact h

theorem bounds_execLaneGangTimeout : Bounds r (execLaneGangTimeout r) := by
  refine bounds_next fun h => ?_
  exact kept_update h

theorem bounds_execHoistChunkDone (core pick : Nat) : Bounds r (execHoistChunkDone core pick r) := by
  refine bounds_next fun h => ?_
  split
  · exact kept_settleHoist _ h
  · extract_lets h1 s1 s2
    have h11 : Kept False r s1 := kept_onHoist _ _ h
    have h2 : Kept False r s2 := by
      unfold s2
      split
      · exact kept_failHoist _ _ _ _ h11
      · split
        next e =>
          exact kept_failHoist _ _ _ _ h11
        next s3 e =>
          exact kept_runChunk _ _ _ e h11
    exact kept_settleHoist _ h2

theorem bounds_execRingSlotAdmit (cluster entry : Nat) : Bounds r (execRingSlotAdmit cluster entry r) := by
  refine bounds_next fun h => ?_
  split
  · exact h
  · exact kept_settleMx (kept_lookAtRing _ h)

theorem bounds_execStripPassGrant (cluster : Nat) : Bounds r (execStripPassGrant cluster r) := by
  refine bounds_next fun h => ?_
  split
  · exact h
  · extract_lets s1
    have h1 : Kept False r s1 := kept_onMx _ _ h
    split
    · exact h1
    · exact kept_chargeCluster _ _ h1

theorem bounds_execShootdownDone (fn : BitVec 2) : Bounds r (execShootdownDone fn r) :=
  bounds_next fun h => kept_onFn _ _ h

theorem bounds_execContextSaveDone : Bounds r (execContextSaveDone r) := by
  refine bounds_next fun h => ?_
  refine kept_foldl (fun s j => ?_) _ h
  split
  · exact kept_loadJob _ (.refl _ _)
  · exact kept_saveJob _ (.refl _ _)

theorem bounds_execTeardown (part : BitVec 2) (region : BitVec 64) (asn : BitVec 16) : Bounds r
    (execTeardown part region asn r) := by
  refine bounds_next fun h => ?_
  split
  · exact h
  · extract_lets w
    refine kept_tearOne _ _ ?_
    split
    · exact h
    · exact kept_performNat _ _ _ h

theorem bounds_execTeardownGraceExpiry (pick : Nat) : Bounds r (execTeardownGraceExpiry pick r) := by
  refine bounds_next fun h => ?_
  split
  · exact h
  · extract_lets gs s1
    have h1 : Kept False r s1 := by
      unfold s1
      refine kept_syncPath _ (kept_foldl (fun s x => ?_) _ (kept_dropRecords _ h))
      exact kept_tearGallery _ (.refl _ _)
    split
    · exact h
    · exact kept_update h1

theorem bounds_execCollectiveDataArrival (member : BitVec 8) (gid : BitVec 16) (seq head : BitVec 64)
    (data : List (BitVec 8)) : Bounds r (execCollectiveDataArrival member gid seq head data r) := by
  refine bounds_next fun h => ?_
  split
  · exact kept_update h
  · split
    · exact kept_failColl _ _ _ _ h
    · split
      · exact h
      · extract_lets c1
        exact kept_advanceColl _ (kept_update h)

theorem bounds_execCollTimeout (pick : Nat) : Bounds r (execCollTimeout pick r) := by
  refine bounds_next fun h => ?_
  split
  · exact h
  · split
    · exact kept_timeoutColl _ h
    · exact h

theorem bounds_execFlitReceive (port : BitVec 5) (flit : List (BitVec 8)) : Bounds r (execFlitReceive port flit r) :=
  bounds_next fun h => kept_receiveFlit _ _ h

theorem bounds_execFlitNak (port : BitVec 5) (seq : BitVec 12) : Bounds r (execFlitNak port seq r) :=
  bounds_next fun h => kept_onPort _ _ h

theorem bounds_execHeartTimer : Bounds r (execHeartTimer r) := by
  refine bounds_next fun h => ?_
  split
  · exact h
  · exact kept_onPacer _ h

theorem bounds_execHeart (src : BitVec 8) (lap : BitVec 64) (c : BitVec 8) : Bounds r (execHeart src lap c r) :=
  bounds_next fun h => kept_onMember _ h

theorem bounds_execLower (src c : BitVec 8) (q : BitVec 64) : Bounds r (execLower src c q r) :=
  bounds_next fun h => kept_onMember _ h

theorem bounds_execCeil (lap : BitVec 64) (c : BitVec 8) (q : BitVec 64) (mask : BitVec 256) : Bounds r
    (execCeil lap c q mask r) :=
  bounds_next fun h => kept_onMember _ h

theorem bounds_execBreach (src c : BitVec 8) : Bounds r (execBreach src c r) := bounds_next fun h => kept_onMember _ h

theorem bounds_execPropose (src : BitVec 8) (lap : BitVec 64) (c : BitVec 8) : Bounds r (execPropose src lap c r) :=
  bounds_next fun h => kept_onMember _ h

theorem bounds_execGrant (src : BitVec 8) (lap : BitVec 64) : Bounds r (execGrant src lap r) :=
  bounds_next fun h => kept_onMember _ h

theorem bounds_execDeny (src : BitVec 8) (lap : BitVec 64) (c : BitVec 8) : Bounds r (execDeny src lap c r) :=
  bounds_next fun h => kept_onMember _ h

theorem bounds_execJoinMsg (src c : BitVec 8) : Bounds r (execJoinMsg src c r) := bounds_next fun h => kept_onMember _ h

theorem bounds_execLeave (src : BitVec 8) (lap : BitVec 64) : Bounds r (execLeave src lap r) :=
  bounds_next fun h => kept_onMember _ h

theorem bounds_execView (src : BitVec 8) (lap : BitVec 64) (c : BitVec 8) (q : BitVec 64) (mask : BitVec 256) :
    Bounds r (execView src lap c q mask r) :=
  bounds_next fun h => kept_onMember _ h

theorem bounds_execUnknownPacerType (src type : BitVec 8) : Bounds r (execUnknownPacerType src type r) := by
  refine bounds_next fun h => ?_
  split
  · exact kept_countError h
  · exact h

theorem bounds_execLapApply : Bounds r (execLapApply r) := by
  refine bounds_next fun h => ?_
  refine kept_foldl (fun s x => ?_) _ (kept_onPacer _ h)
  exact kept_timeoutColl _ (.refl _ _)

theorem bounds_execPeerSilent (peer : BitVec 8) : Bounds r (execPeerSilent peer r) := by
  refine bounds_next fun h => ?_
  split
  · exact h
  · extract_lets s1
    have h1 : Kept False r s1 := by
      unfold s1
      refine kept_foldl (fun s x => ?_) _ (kept_onPacer _ h)
      exact kept_silentRecord _ _ (.refl _ _)
    refine kept_foldl (fun s x => ?_) _ h1
    exact kept_timeoutColl _ (.refl _ _)

theorem bounds_execEmergencyTrip : Bounds r (execEmergencyTrip r) := bounds_next fun h => kept_trip h

theorem bounds_execTripRecheck (degrees : Nat) : Bounds r (execTripRecheck degrees r) := by
  refine bounds_next fun h => ?_
  split
  · exact h
  · split
    · exact h
    · split
      · exact kept_trip h
      · exact kept_update h

theorem bounds_execPowerSample (watts degrees : Nat) : Bounds r (execPowerSample watts degrees r) := by
  refine bounds_next fun h => ?_
  split
  · exact kept_trip (kept_update h)
  · split
    · exact kept_onPacer _ (kept_update (kept_update h))
    · split
      · exact kept_onPacer _ (kept_update (kept_update h))
      · exact kept_update h

theorem bounds_execIntervalEnd (cluster : Nat) : Bounds r (execIntervalEnd cluster r) :=
  bounds_next fun h => kept_onRecord _ _ h

theorem bounds_execCooldownStep (cluster : Nat) : Bounds r (execCooldownStep cluster r) :=
  bounds_next fun h => kept_onRecord _ _ h

theorem bounds_execAgeingMeasure (limit : BitVec 8) (days : BitVec 32) (slower : List (Nat × BitVec 2)) : Bounds r
    (execAgeingMeasure limit days slower r) := by
  refine bounds_next fun h => ?_
  exact kept_onPacer _ (kept_update h)

theorem bounds_execHbmScrub (corrected : Nat) (poisoned : List Nat) : Bounds r (execHbmScrub corrected poisoned r) := by
  refine bounds_next fun h => ?_
  exact kept_update h

theorem bounds_execKick (fn : BitVec 2) (q : BitVec 6) (v : BitVec 32) : Bounds r (execKick fn q v r) :=
  bounds_next fun h => kept_onQueue _ _ _ h

theorem bounds_execHostQueueConsume (fn : BitVec 2) (q : BitVec 6) : Bounds r (execHostQueueConsume fn q r) :=
  bounds_next fun h => kept_consumeQueue _ _ h

theorem bounds_execWindowBWrite (fn : BitVec 2) (off : BitVec 64) (data : List (BitVec 8)) : Bounds r
    (execWindowBWrite fn off data r) :=
  bounds_next fun h => kept_windowWrite _ _ _ h

theorem bounds_execWindowBRead (fn : BitVec 2) (off : BitVec 64) (len : Nat) : Bounds r (execWindowBRead fn off len r)
    :=
  bounds_next fun h => kept_windowRead _ _ _ h

theorem bounds_execFetchadd (fn : BitVec 2) (off : BitVec 64) (wide : BitVec 1) (x : BitVec 64) : Bounds r
    (execFetchadd fn off wide x r) :=
  bounds_next fun h => kept_windowAtomic _ _ _ _ _ _ h

theorem bounds_execSwap (fn : BitVec 2) (off : BitVec 64) (wide : BitVec 1) (x : BitVec 64) : Bounds r
    (execSwap fn off wide x r) :=
  bounds_next fun h => kept_windowAtomic _ _ _ _ _ _ h

theorem bounds_execCas (fn : BitVec 2) (off : BitVec 64) (wide : BitVec 1) (cmp x : BitVec 64) : Bounds r
    (execCas fn off wide cmp x r) :=
  bounds_next fun h => kept_windowAtomic _ _ _ _ _ _ h

theorem bounds_execShoot (fn : BitVec 2) (asn : BitVec 16) : Bounds r (execShoot fn asn r) :=
  bounds_next fun h => kept_onFn _ _ h

theorem bounds_execReqkick (fn : BitVec 2) (v : BitVec 32) : Bounds r (execReqkick fn v r) :=
  bounds_next fun h => kept_onFn _ _ h

theorem bounds_execFusereq (v : BitVec 9) : Bounds r (execFusereq v r) := bounds_next fun h => kept_fuseRequest _ h

theorem bounds_execFuseBlown : Bounds r (execFuseBlown r) := bounds_next fun h => kept_blowFuse h

theorem bounds_execMeasgo (die : BitVec 2) (i : BitVec 3) : Bounds r (execMeasgo die i r) :=
  bounds_next fun h => kept_measure _ h

theorem bounds_execRomovlClear (die : BitVec 2) : Bounds r (execRomovlClear die r) :=
  bounds_next fun h => kept_clearRom _ h

theorem bounds_execResetRelease : Bounds r (execResetRelease r) := bounds_next fun h => kept_afterReset h

theorem bounds_execTrnctl (k : BitVec 3) (v : BitVec 64) : Bounds r (execTrnctl k v r) :=
  bounds_next fun h => kept_trnctlWrite _ _ h

theorem bounds_execHbmTrainingDone (k : BitVec 3) (fail : BitVec 1) (phase : BitVec 2) (spares : BitVec 4)
    (eyes : BitVec 16) (lanemap : BitVec 64) : Bounds r (execHbmTrainingDone k fail phase spares eyes lanemap r) :=
  bounds_next fun h => kept_endTraining _ _ _ _ _ _ h

theorem bounds_execFwlimit (die : BitVec 2) (v : BitVec 8) : Bounds r (execFwlimit die v r) :=
  bounds_next fun h => kept_fwlimitWrite _ _ h

theorem bounds_execPaceen (die : BitVec 2) (on : BitVec 1) : Bounds r (execPaceen die on r) :=
  bounds_next fun h => kept_paceenWrite _ _ h

theorem bounds_execPortEn (port : BitVec 5) (on : BitVec 1) : Bounds r (execPortEn port on r) :=
  bounds_next fun h => kept_portEnable _ _ h

theorem bounds_execPortRetrain (port : BitVec 5) : Bounds r (execPortRetrain port r) :=
  bounds_next fun h => kept_onPort _ _ h

theorem bounds_execSignalDetect (port : BitVec 5) : Bounds r (execSignalDetect port r) :=
  bounds_next fun h => kept_moveFrom _ _ _ h

theorem bounds_execDetectTimeout (port : BitVec 5) : Bounds r (execDetectTimeout port r) :=
  bounds_next fun h => kept_moveFrom _ _ _ h

theorem bounds_execEqualiseDone (port : BitVec 5) : Bounds r (execEqualiseDone port r) :=
  bounds_next fun h => kept_moveFrom _ _ _ h

theorem bounds_execAlignLock (port : BitVec 5) : Bounds r (execAlignLock port r) :=
  bounds_next fun h => kept_moveFrom _ _ _ h

theorem bounds_execIdentExchange (port : BitVec 5) (peer : BitVec 8) (gid : BitVec 16) : Bounds r
    (execIdentExchange port peer gid r) :=
  bounds_next fun h => kept_onPort _ _ h

theorem bounds_execRetrainTimeout (port : BitVec 5) : Bounds r (execRetrainTimeout port r) :=
  bounds_next fun h => kept_onPort _ _ h

theorem bounds_execRegisterWrite (fn : BitVec 2) (off : BitVec 22) (v : BitVec 64) : Bounds r
    (execRegisterWrite fn off v r) := by
  refine bounds_next fun h => ?_
  split
  · exact h
  · split
    · exact kept_dropWrite h
    · exact kept_ctlStore _ _ _ _ h

theorem bounds_execEnable (fn : BitVec 2) (q : BitVec 6) (on : BitVec 1) : Bounds r (execEnable fn q on r) :=
  bounds_next fun h => kept_onQueue _ _ _ h

theorem bounds_execMben (fn : BitVec 2) (on : BitVec 1) : Bounds r (execMben fn on r) :=
  bounds_next fun h => kept_mbenWrite _ _ h

/-- Every event keeps the bounds. -/
theorem exec_event_bounds {i : Instr} (hi : i.isWord = false) : Bounds s (exec i s) := by
  cases i
  case branchResolution uid => exact bounds_execBranchResolution uid
  case longLatencyLanding => exact bounds_execLongLatencyLanding _ _
  case storePerformed => exact bounds_execStorePerformed _
  case sliceAnswer => exact bounds_execSliceAnswer _ _
  case filterSlowPathWrite => exact bounds_execFilterSlowPathWrite _
  case crewWakeResume => exact bounds_execCrewWakeResume _
  case deadlineSweep => exact bounds_execDeadlineSweep
  case redqContribution => exact bounds_execRedqContribution _ _
  case trapEntry => exact bounds_execTrapEntry _
  case placementDecision => exact bounds_execPlacementDecision _
  case recordCompletion => exact bounds_execRecordCompletion _
  case laneGangTimeout => exact bounds_execLaneGangTimeout
  case hoistChunkDone => exact bounds_execHoistChunkDone _ _
  case ringSlotAdmit => exact bounds_execRingSlotAdmit _ _
  case stripPassGrant => exact bounds_execStripPassGrant _
  case promotionEnd => exact bounds_execPromotionEnd _ _
  case publishFlip => exact bounds_execPublishFlip _
  case shootdownDone => exact bounds_execShootdownDone _
  case contextSaveDone => exact bounds_execContextSaveDone
  case teardown => exact bounds_execTeardown _ _ _
  case teardownGraceExpiry => exact bounds_execTeardownGraceExpiry _
  case collectiveDataArrival => exact bounds_execCollectiveDataArrival _ _ _ _ _
  case collTimeout => exact bounds_execCollTimeout _
  case flitReceive => exact bounds_execFlitReceive _ _
  case flitNak => exact bounds_execFlitNak _ _
  case heartTimer => exact bounds_execHeartTimer
  case heart => exact bounds_execHeart _ _ _
  case lower => exact bounds_execLower _ _ _
  case ceil _ _ _ mask => exact bounds_execCeil _ _ _ mask
  case breach => exact bounds_execBreach _ _
  case propose => exact bounds_execPropose _ _ _
  case grant => exact bounds_execGrant _ _
  case deny => exact bounds_execDeny _ _ _
  case joinMsg => exact bounds_execJoinMsg _ _
  case leave => exact bounds_execLeave _ _
  case view => exact bounds_execView _ _ _ _ _
  case unknownPacerType src _ => exact bounds_execUnknownPacerType src _
  case lapApply => exact bounds_execLapApply
  case peerSilent => exact bounds_execPeerSilent _
  case emergencyTrip => exact bounds_execEmergencyTrip
  case tripRecheck => exact bounds_execTripRecheck _
  case powerSample => exact bounds_execPowerSample _ _
  case intervalEnd => exact bounds_execIntervalEnd _
  case cooldownStep => exact bounds_execCooldownStep _
  case ageingMeasure => exact bounds_execAgeingMeasure _ _ _
  case hbmScrub => exact bounds_execHbmScrub _ _
  case kick => exact bounds_execKick _ _ _
  case hostQueueConsume => exact bounds_execHostQueueConsume _ _
  case windowBWrite => exact bounds_execWindowBWrite _ _ _
  case windowBRead => exact bounds_execWindowBRead _ _ _
  case fetchadd => exact bounds_execFetchadd _ _ _ _
  case swap => exact bounds_execSwap _ _ _ _
  case cas => exact bounds_execCas _ _ _ _ _
  case shoot => exact bounds_execShoot _ _
  case reqkick => exact bounds_execReqkick _ _
  case mailboxLoad => exact bounds_execMailboxLoad _
  case mailboxTear => exact bounds_execMailboxTear _
  case mailboxLimit => exact bounds_execMailboxLimit _
  case mailboxPool => exact bounds_execMailboxPool _
  case mailboxStrict => exact bounds_execMailboxStrict _
  case mailboxEnrol => exact bounds_execMailboxEnrol _
  case mailboxFuse => exact bounds_execMailboxFuse _
  case mailboxRoute => exact bounds_execMailboxRoute _
  case mailboxUnknownOp => exact bounds_execMailboxUnknownOp _
  case fusereq => exact bounds_execFusereq _
  case fuseBlown => exact bounds_execFuseBlown
  case measgo die _ => exact bounds_execMeasgo die _
  case romovlClear => exact bounds_execRomovlClear _
  case resetRelease => exact bounds_execResetRelease
  case trnctl => exact bounds_execTrnctl _ _
  case hbmTrainingDone => exact bounds_execHbmTrainingDone _ _ _ _ _ _
  case fwlimit => exact bounds_execFwlimit _ _
  case paceen => exact bounds_execPaceen _ _
  case portEn => exact bounds_execPortEn _ _
  case portRetrain => exact bounds_execPortRetrain _
  case signalDetect => exact bounds_execSignalDetect _
  case detectTimeout => exact bounds_execDetectTimeout _
  case equaliseDone => exact bounds_execEqualiseDone _
  case alignLock => exact bounds_execAlignLock _
  case identExchange => exact bounds_execIdentExchange _ _ _
  case retrainTimeout => exact bounds_execRetrainTimeout _
  case registerWrite => exact bounds_execRegisterWrite _ _ _
  case lossOfPower => exact bounds_execLossOfPower
  case enable => exact bounds_execEnable _ _ _
  case mben => exact bounds_execMben _ _
  all_goals cases hi

/-! ### Steps -/

theorem exec_bounds (i : Instr) : Bounds s (exec i s) := by
  cases hi : i.isWord with
  | false => exact exec_event_bounds hi
  | true => exact fun t e => kept_bounds (.refl False s) (exec_word_fits hi t e).bounded

theorem kept_runEvent {t : State} {i : Instr} (e : runEvent i s = .next t) (h : Kept False r s) : Kept False r t :=
  (kept_tick (kept_unholdAll h)).trans (exec_bounds i t e)

theorem kept_runWord {t : State} (e : runWord s = .next t) (h : Kept False r s) : Kept False r t := by
  unfold runWord at e
  split at e
  · cases e
    exact kept_takeTrap _ h
  split at e
  · exact (kept_correctRead _ (kept_chargeWord _ h)).trans (exec_bounds _ t e)
  · cases e
    exact kept_takeTrap _ h

/-- Every step keeps the bounds: it is an event's arm, a word's, a trap of a fetch, or time that goes by. -/
theorem kept_step {t : State} (e : step s = .next t) : Kept False s t := by
  have h : Kept False s s := .refl False s
  unfold step at e
  split at e
  · split at e
    · cases e
    · exact kept_runEvent e (kept_update h)
  split at e
  · exact kept_runEvent e (kept_update h)
  split at e
  · next hg => exact kept_runWord e (kept_update (kept_granted hg h))
  split at e
  · exact kept_runEvent e h
  · rw [← Host.Outcome.next.inj e]
    exact kept_tick (kept_unholdAll h)

/-- Settles O9: each operation of the model keeps the bounds of the crews, and each that a word can reach the crews
  and the
galleries that are named, but for the words of the responder stack, whose sets lie within LIVE. -/
theorem everyStepKeepsCrewBounds : Obligations.EveryStepKeepsCrewBounds :=
  ⟨fun _ _ b e => (kept_step e).bounded b, bounded_reset, fun _ _ t hi hg ha e => (exec_word_fits hi t e).within
    hg ha⟩

end Sys2Proof.Proofs
end

section
/-!
PROOFS. The results that land, the acknowledgements, and the counts of flags that retire (R13, R21, R71, R115, R388).
-/

namespace Sys2Proof.Proofs
open Sys2Proof Sys2Proof.Machine

set_option Elab.async false

/-! ### Results that land (R71, R115) -/

/-- A run of writes of one register in several threads leaves every other register as it was. -/
theorem getV_setVs_other {r q : BitVec 7} {th : Nat} {l : List (Nat × Word)} (h : q ≠ r ∨ ∀ x, (th, x) ∉ l) :
    ∀ g : Gallery, getV (setVs g r.toNat l) th q.toNat = getV g th q.toNat := by
  induction l with
  | nil => exact fun g => rfl
  | cons p l ih =>
    intro g
    have hp : ¬ (th = p.1 ∧ q = r) := by
      rintro ⟨rfl, rfl⟩
      rcases h with h | h
      · exact h rfl
      · exact h p.2 (List.mem_cons_self ..)
    have hl : q ≠ r ∨ ∀ x, (th, x) ∉ l := h.imp_right fun h x hx => h x (List.mem_cons_of_mem _ hx)
    exact (ih hl _).trans (getV_setV_other g p.2 hp)

/-- A run of writes of one register, one for each thread, leaves in each thread what was written there. -/
theorem getV_setVs_mem {r : BitVec 7} {th : Nat} {x : Word} {l : List (Nat × Word)} (hn : (l.map (·.1)).Nodup)
    (h : (th, x) ∈ l) : ∀ g : Gallery, getV (setVs g r.toNat l) th r.toNat = x := by
  induction l with
  | nil => cases h
  | cons p l ih =>
    intro g
    obtain ⟨hp, hn⟩ := List.nodup_cons.1 hn
    rcases List.mem_cons.1 h with rfl | h
    · have others : r ≠ r ∨ ∀ y, (th, y) ∉ l := .inr fun y hy => hp (List.mem_map.2 ⟨_, hy, rfl⟩)
      exact (getV_setVs_other others _).trans (getV_setV_same g th r.toNat x)
    · exact ih hn h _

/-- The landing of a gang's results writes each of its threads, and no other register (R71). -/
theorem landResult_gang {s : State} {l : Landing} {r : BitVec 7} {xs : List (Nat × Word)} (hl : l.dest = .gang r xs)
    (hn : (xs.map (·.1)).Nodup) : (landResult s l).c = { s.c with xstat := s.c.xstat ||| l.xflags } ∧
      (∀ th x, (th, x) ∈ xs → reg (landResult s l) th r = x) ∧
      (∀ th (q : BitVec 7), (q ≠ r ∨ ∀ x, (th, x) ∉ xs) → reg (landResult s l) th q = reg s th q) := by
  simp only [landResult, hl, reg, true_and]
  exact ⟨fun th x hx => getV_setVs_mem hn hx s.g, fun th q h => getV_setVs_other h s.g⟩

/-- A result that lands leaves the crew in focus its name. -/
theorem landResult_uid (s : State) (l : Landing) : (landResult s l).c.uid = s.c.uid :=
  ((kept_landResult (w := True) l (.refl _ s)).named trivial).uid

/-! ### Counts that retire (R13) -/

/-- The counts of a crew's flags that stay: of the clause that is open, of setA with a result still to land, and of setB
with a store, an answer or a contribution still to come. -/
theorem mem_retire (c : Crew) (i : FlagInc) : i ∈ (retire c).incs ↔ i ∈ c.incs ∧
    ((i.clause = c.clause ∧ 0 < c.left) ∨ (i.isB = false ∧ ∃ l ∈ c.land, l.clause = i.clause) ∨
     (i.isB = true ∧ ((∃ p ∈ c.stores, p.clause = i.clause) ∨ i.clause ∈ c.acks ∨ ∃ x ∈ c.redq, x.clause = i.clause))) := by
  cases hb : i.isB <;> simp [retire, List.mem_filter, hb, or_assoc]

/-! ### The events -/

/-- The element behind `old` is taken out of a list. -/
theorem pluck_append {α : Type} (old : List α) (x : α) (more : List α) :
    pluck (old ++ x :: more) old.length = some (x, old ++ more) := by
  simp [pluck]

theorem exec_longLatencyLanding (uid pick : Nat) (s : State) : exec (.longLatencyLanding uid pick) s =
    .next (inFocus s uid fun s =>
      match pluck s.c.land pick with
      | none => s
      | some (l, rest) =>
        let s1 := landResult { s with c := { s.c with land := rest } } l
        { s1 with c := retire s1.c }) := rfl

theorem exec_sliceAnswer (uid pick : Nat) (s : State) : exec (.sliceAnswer uid pick) s =
    .next (inFocus s uid fun s =>
      match pluck s.c.acks pick with
      | none => s
      | some (_, rest) => { s with c := retire { s.c with acks := rest } }) := rfl

/-- Settles O39: what each landing writes, which counts retire, and the events by which this comes about. -/
theorem flagsRetireAsWorkLands : Obligations.FlagsRetireAsWorkLands := by
  unfold Obligations.FlagsRetireAsWorkLands
  refine ⟨fun s l => ⟨fun r x h => ?scalar, fun r x h => ?mark, fun r xs h hn => landResult_gang h hn,
      fun th r addr word h => ?lost⟩,
    mem_retire, fun c => rfl, fun s old l more h => ?landing, fun s old k more h => ?answer, fun s n => ⟨s, rfl, rfl⟩⟩
  case scalar => simp only [landResult, h]
  case mark => simp only [landResult, h]
  case lost => simp only [landResult, h]
  case landing =>
    refine ⟨_, ?_, rfl⟩
    rw [exec_longLatencyLanding, inFocus_self]
    · simp only [h, pluck_append]
    · simp only [h, pluck_append]
      exact landResult_uid _ l
  case answer =>
    refine ⟨_, ?_, rfl⟩
    rw [exec_sliceAnswer, inFocus_self] <;> simp only [h, pluck_append]
    rfl

end Sys2Proof.Proofs
end

section
/-!
PROOFS. A lane load of the vault by a crew that is in focus without its gallery: what the crew performs first changes the
gallery in focus, and with it the number of gangs.
-/

namespace Sys2Proof.Proofs
open Sys2Proof Sys2Proof.Machine

set_option Elab.async false

/-! ### A vault load of a crew whose gallery is not in focus

An `LDV` settles its threads, and then performs the crew's stores. Where such a store lets a contribution of another crew
be answered, that crew comes into focus and goes; upon the return the gallery in focus is the one that the crew names. In a
state whose gallery in focus is another, the threads after the stores are not those that the word has loaded for. -/

/-- A crew of gallery 9 at a word of its clause, with one store pending: a byte of NEXT of the object at 0x100000. -/
def strayLoader : Crew :=
  { Crew.foreman 0 with
    gid := 9, left := 1, setA := 0, act := 0xFFFFFFFFFFFFFFFF, stores := [⟨0, [⟨false, 0, 0x100008, [0]⟩], [], []⟩] }

/-- A crew of gallery 0 whose contribution to that object waits at its slice, and is a duplicate when it is retried. -/
def strayWaiter : Crew :=
  { Crew.foreman 1 with
    gid := 0
    redq := [⟨0, 0, 0, 0, 0x100000, 0, 0xFFFFFFFFFFFFFFFF, 0, false, 0, some 0, false, false, []⟩] }

/-- The two crews, with gallery 0, of 32 threads, in focus, and gallery 9, of 64, behind it. -/
def strayState : State :=
  { State.reset with c := strayLoader, crews := [strayWaiter], gals := [{ Gallery.foreman 1 with gid := 9, nthr := 64 }] }

/-- The `LDV` of v0 at v0 is ready, and loads from vault address 0, which the crew may read. -/
theorem strayState_ldv_ready :
    gate (.ldv 0 0 0 0) strayState = none ∧ relocate strayState.g 0 = 0 ∧
    checkVault strayState strayState.part (dieOfCore strayState.c.core) strayState.c.privl.toNat (galAsn strayState.g) 0 1 =
      .ok () ∧
    isControl (dieOfCore strayState.c.core) strayState.c.privl.toNat 0 = false ∧
    poisoned (performAll strayState) true 0 1 = false ∧ strayState.c.redq = [] ∧ strayState.c.staying = [] := by
  decide +kernel

/-- The number of results that the word leaves to land: one gang's, where two gangs are active once its stores are
performed. -/
theorem strayState_ldv_landings :
    (match exec (.ldv 0 0 0 0) strayState with
      | .next t => t.c.land.length
      | _ => 0) = 1 ∧
    ((performAll strayState).c.land ++ gangLandings (performAll strayState) 0 fun _ => 0).length = 2 := by
  decide +kernel

/-- The results still to land after a long-latency word. -/
theorem land_of_longEffect {s t : State} {r : Reg} {ls : List Landing} (h : LongEffect s t r ls) :
    t.c.land = s.c.land ++ ls := by
  rw [h.crew]; rfl

/-- The number of landings of a lane word does not depend on the values that land. -/
theorem gangLandings_length (s : State) (d : BitVec 7) (x y : Nat → Word) :
    (gangLandings s d x).length = (gangLandings s d y).length := by
  simp [gangLandings]

/-- Refutes O36: in `strayState` an `LDV` lands the results of one gang, where the threads after its stores, of which the
statement speaks, are those of two. -/
theorem not_loadsLandTheirValue : ¬ Obligations.LoadsLandTheirValue := by
  unfold Obligations.LoadsLandTheirValue
  rintro ⟨-, -, -, ldv, -⟩
  obtain ⟨hr, hreloc, hcheck, hctl, hpois, hredq, hstay⟩ := strayState_ldv_ready
  obtain ⟨hone, htwo⟩ := strayState_ldv_landings
  obtain ⟨t, ht, eff⟩ := ldv strayState 0 0 0 0 (fun _ => 0) hr fun th _ =>
    ⟨hreloc.symm, hcheck, hctl, hpois, by simp [Unfenced, hredq], by simp [hstay]⟩
  simp only [ht] at hone
  have hlen := congrArg List.length (land_of_longEffect eff)
  rw [hone, List.length_append, gangLandings_length _ _ _ fun _ => 0, ← List.length_append, htwo] at hlen
  cases hlen

end Sys2Proof.Proofs
end

section
/-!
PROOFS. The decoder and the encoder (R24 to R41). That an encoded word decodes stands in the support, instruction by
instruction; here is that a word which decodes is the encoding of what it decodes to, cell by cell: each field that is read
and each field that is checked is the difference of two numbers of bits above a place, and these add up to the word.
-/

namespace Sys2Proof.Proofs
open Sys2Proof Sys2Proof.Machine

/-- Settles O2, instruction by instruction; an event has no word. -/
theorem encodeThenDecodeIsIdentity : Obligations.EncodeThenDecodeIsIdentity := by
  intro i
  cases i with
  | aluAdd a b c => exact Laws.RoundTrip.aluAdd a b c | aluSub a b c => exact Laws.RoundTrip.aluSub a b c
  | aluAnd a b c => exact Laws.RoundTrip.aluAnd a b c | aluOr a b c => exact Laws.RoundTrip.aluOr a b c
  | aluXor a b c => exact Laws.RoundTrip.aluXor a b c | aluAndn a b c => exact Laws.RoundTrip.aluAndn a b c
  | aluShl a b c => exact Laws.RoundTrip.aluShl a b c | aluShr a b c => exact Laws.RoundTrip.aluShr a b c
  | aluSar a b c => exact Laws.RoundTrip.aluSar a b c | aluMul a b c => exact Laws.RoundTrip.aluMul a b c
  | aluMulhs a b c => exact Laws.RoundTrip.aluMulhs a b c | aluMulhz a b c => exact Laws.RoundTrip.aluMulhz a b c
  | aluMins a b c => exact Laws.RoundTrip.aluMins a b c | aluMaxs a b c => exact Laws.RoundTrip.aluMaxs a b c
  | aluMinz a b c => exact Laws.RoundTrip.aluMinz a b c | aluMaxz a b c => exact Laws.RoundTrip.aluMaxz a b c
  | aluiAddi a b c => exact Laws.RoundTrip.aluiAddi a b c | aluiSubi a b c => exact Laws.RoundTrip.aluiSubi a b c
  | aluiAndi a b c => exact Laws.RoundTrip.aluiAndi a b c | aluiOri a b c => exact Laws.RoundTrip.aluiOri a b c
  | aluiXori a b c => exact Laws.RoundTrip.aluiXori a b c | aluiAndni a b c => exact Laws.RoundTrip.aluiAndni a b c
  | aluiShli a b c => exact Laws.RoundTrip.aluiShli a b c | aluiShri a b c => exact Laws.RoundTrip.aluiShri a b c
  | aluiSari a b c => exact Laws.RoundTrip.aluiSari a b c | aluiMuli a b c => exact Laws.RoundTrip.aluiMuli a b c
  | aluiMulhsi a b c => exact Laws.RoundTrip.aluiMulhsi a b c
  | aluiMulhzi a b c => exact Laws.RoundTrip.aluiMulhzi a b c
  | aluiMinsi a b c => exact Laws.RoundTrip.aluiMinsi a b c | aluiMaxsi a b c => exact Laws.RoundTrip.aluiMaxsi a b c
  | aluiMinzi a b c => exact Laws.RoundTrip.aluiMinzi a b c | aluiMaxzi a b c => exact Laws.RoundTrip.aluiMaxzi a b c
  | divs a b c => exact Laws.RoundTrip.divs a b c | divz a b c => exact Laws.RoundTrip.divz a b c
  | rems a b c => exact Laws.RoundTrip.rems a b c | remz a b c => exact Laws.RoundTrip.remz a b c
  | alxClz a b => exact Laws.RoundTrip.alxClz a b | alxPopc a b => exact Laws.RoundTrip.alxPopc a b
  | alxBfx a b c => exact Laws.RoundTrip.alxBfx a b c | alxBfi a b c => exact Laws.RoundTrip.alxBfi a b c
  | cmps a b c d => exact Laws.RoundTrip.cmps a b c d | alxMov a b => exact Laws.RoundTrip.alxMov a b
  | selnz a b c => exact Laws.RoundTrip.selnz a b c | movw a b c => exact Laws.RoundTrip.movw a b c
  | movwk a b c => exact Laws.RoundTrip.movwk a b c | brc a b c d => exact Laws.RoundTrip.brc a b c d
  | br a => exact Laws.RoundTrip.br a | call a => exact Laws.RoundTrip.call a | jr a => exact Laws.RoundTrip.jr a
  | callr a => exact Laws.RoundTrip.callr a | ret => exact Laws.RoundTrip.ret
  | srch a b c d e => exact Laws.RoundTrip.srch a b c d e | srcha a b c d e => exact Laws.RoundTrip.srcha a b c d e
  | srchr a b c d e => exact Laws.RoundTrip.srchr a b c d e | mand a b c => exact Laws.RoundTrip.mand a b c
  | mor a b c => exact Laws.RoundTrip.mor a b c | mxor a b c => exact Laws.RoundTrip.mxor a b c
  | mandn a b c => exact Laws.RoundTrip.mandn a b c | mnot a b => exact Laws.RoundTrip.mnot a b
  | mcopy a b => exact Laws.RoundTrip.mcopy a b | mclr a => exact Laws.RoundTrip.mclr a
  | mgetact a => exact Laws.RoundTrip.mgetact a | cnt a b => exact Laws.RoundTrip.cnt a b
  | first a b => exact Laws.RoundTrip.first a b | next a b => exact Laws.RoundTrip.next a b
  | mpick a b c => exact Laws.RoundTrip.mpick a b c | mset1 a b => exact Laws.RoundTrip.mset1 a b
  | mclr1 a b => exact Laws.RoundTrip.mclr1 a b | mload a b => exact Laws.RoundTrip.mload a b
  | mstore a b => exact Laws.RoundTrip.mstore a b | push a => exact Laws.RoundTrip.push a
  | pop => exact Laws.RoundTrip.pop | else_ a => exact Laws.RoundTrip.else_ a | jarv a => exact Laws.RoundTrip.jarv a
  | join a => exact Laws.RoundTrip.join a | setact a => exact Laws.RoundTrip.setact a
  | pushall => exact Laws.RoundTrip.pushall | rdepth a => exact Laws.RoundTrip.rdepth a
  | get a b c d => exact Laws.RoundTrip.get a b c d | put a b c d => exact Laws.RoundTrip.put a b c d
  | getf a b c => exact Laws.RoundTrip.getf a b c | blkacqW a => exact Laws.RoundTrip.blkacqW a
  | blkacqP a b => exact Laws.RoundTrip.blkacqP a b | blkrel a => exact Laws.RoundTrip.blkrel a
  | blkq a => exact Laws.RoundTrip.blkq a | pblk a b c => exact Laws.RoundTrip.pblk a b c
  | clause a b c d => exact Laws.RoundTrip.clause a b c d | lds a b c d e => exact Laws.RoundTrip.lds a b c d e
  | sts a b c d e => exact Laws.RoundTrip.sts a b c d e | atoms a b c d e f => exact Laws.RoundTrip.atoms a b c d e f
  | fence => exact Laws.RoundTrip.fence | fenceA => exact Laws.RoundTrip.fenceA
  | fenceR => exact Laws.RoundTrip.fenceR | ifence => exact Laws.RoundTrip.ifence
  | waitu a b c d e f => exact Laws.RoundTrip.waitu a b c d e f | wacc a b => exact Laws.RoundTrip.wacc a b
  | waccq a b => exact Laws.RoundTrip.waccq a b | wqry a b => exact Laws.RoundTrip.wqry a b
  | wcfg a b => exact Laws.RoundTrip.wcfg a b | wclr a => exact Laws.RoundTrip.wclr a
  | wlen a b => exact Laws.RoundTrip.wlen a b | redqs a b c d => exact Laws.RoundTrip.redqs a b c d
  | twaitany a => exact Laws.RoundTrip.twaitany a | twaitall a => exact Laws.RoundTrip.twaitall a
  | tfirst a b => exact Laws.RoundTrip.tfirst a b | tclr a => exact Laws.RoundTrip.tclr a
  | trdy a => exact Laws.RoundTrip.trdy a | hcopy a b c d e => exact Laws.RoundTrip.hcopy a b c d e
  | hgath a b c d e => exact Laws.RoundTrip.hgath a b c d e | hscat a b c d e => exact Laws.RoundTrip.hscat a b c d e
  | hfill a b c d => exact Laws.RoundTrip.hfill a b c d
  | hplane a b c d e f => exact Laws.RoundTrip.hplane a b c d e f | hchain a b c => exact Laws.RoundTrip.hchain a b c
  | hstop a b => exact Laws.RoundTrip.hstop a b | hresume a b => exact Laws.RoundTrip.hresume a b
  | hprog a b => exact Laws.RoundTrip.hprog a b | mma a b c d => exact Laws.RoundTrip.mma a b c d
  | mzero a b c => exact Laws.RoundTrip.mzero a b c | mring a => exact Laws.RoundTrip.mring a
  | mfence a b => exact Laws.RoundTrip.mfence a b | mdetach => exact Laws.RoundTrip.mdetach
  | tktake a => exact Laws.RoundTrip.tktake a | tkgive a => exact Laws.RoundTrip.tkgive a
  | tkqry a b => exact Laws.RoundTrip.tkqry a b | publish a => exact Laws.RoundTrip.publish a
  | pubqry a b => exact Laws.RoundTrip.pubqry a b | pubset a b => exact Laws.RoundTrip.pubset a b
  | spawn a => exact Laws.RoundTrip.spawn a | spawnNb a b => exact Laws.RoundTrip.spawnNb a b
  | spawng a => exact Laws.RoundTrip.spawng a | joindec a => exact Laws.RoundTrip.joindec a
  | depdec a => exact Laws.RoundTrip.depdec a | launch a b => exact Laws.RoundTrip.launch a b
  | barc a b => exact Laws.RoundTrip.barc a b | exit => exact Laws.RoundTrip.exit
  | cred a b c d e => exact Laws.RoundTrip.cred a b c d e | cgath a b c d e => exact Laws.RoundTrip.cgath a b c d e
  | cbcast a b c d => exact Laws.RoundTrip.cbcast a b c d | cstat a b => exact Laws.RoundTrip.cstat a b
  | rdsys a b => exact Laws.RoundTrip.rdsys a b | wrsys a b => exact Laws.RoundTrip.wrsys a b
  | trap a => exact Laws.RoundTrip.trap a | rte => exact Laws.RoundTrip.rte | bkpt a => exact Laws.RoundTrip.bkpt a
  | yield => exact Laws.RoundTrip.yield | nop => exact Laws.RoundTrip.nop | halt => exact Laws.RoundTrip.halt
  | rspill a => exact Laws.RoundTrip.rspill a | rfill a => exact Laws.RoundTrip.rfill a
  | ctxsave a => exact Laws.RoundTrip.ctxsave a | ctxload a => exact Laws.RoundTrip.ctxload a
  | add a b c d => exact Laws.RoundTrip.add a b c d | addi a b c d => exact Laws.RoundTrip.addi a b c d
  | sub a b c d => exact Laws.RoundTrip.sub a b c d | mul a b c d => exact Laws.RoundTrip.mul a b c d
  | mulh a b c d e => exact Laws.RoundTrip.mulh a b c d e | mad a b c d => exact Laws.RoundTrip.mad a b c d
  | addsat a b c d e => exact Laws.RoundTrip.addsat a b c d e
  | subsat a b c d e => exact Laws.RoundTrip.subsat a b c d e | min a b c d e => exact Laws.RoundTrip.min a b c d e
  | max a b c d e => exact Laws.RoundTrip.max a b c d e | abs a b c => exact Laws.RoundTrip.abs a b c
  | neg a b c => exact Laws.RoundTrip.neg a b c | not a b c => exact Laws.RoundTrip.not a b c
  | clz a b c => exact Laws.RoundTrip.clz a b c | popc a b c => exact Laws.RoundTrip.popc a b c
  | brev a b c => exact Laws.RoundTrip.brev a b c | mov a b c => exact Laws.RoundTrip.mov a b c
  | and a b c d => exact Laws.RoundTrip.and a b c d | or a b c d => exact Laws.RoundTrip.or a b c d
  | xor a b c d => exact Laws.RoundTrip.xor a b c d | andn a b c d => exact Laws.RoundTrip.andn a b c d
  | shl a b c d => exact Laws.RoundTrip.shl a b c d | shr a b c d => exact Laws.RoundTrip.shr a b c d
  | sar a b c d => exact Laws.RoundTrip.sar a b c d | shli a b c d => exact Laws.RoundTrip.shli a b c d
  | shri a b c d => exact Laws.RoundTrip.shri a b c d | sari a b c d => exact Laws.RoundTrip.sari a b c d
  | movi a b c => exact Laws.RoundTrip.movi a b c | bcast a b c => exact Laws.RoundTrip.bcast a b c
  | cmp a b c d e => exact Laws.RoundTrip.cmp a b c d e | cmpz a b c d e => exact Laws.RoundTrip.cmpz a b c d e
  | fcmp a b c d e => exact Laws.RoundTrip.fcmp a b c d e | bfx a b c d e => exact Laws.RoundTrip.bfx a b c d e
  | bfi a b c d => exact Laws.RoundTrip.bfi a b c d | pack a b c d e => exact Laws.RoundTrip.pack a b c d e
  | unpk a b c d => exact Laws.RoundTrip.unpk a b c d | andi a b c d => exact Laws.RoundTrip.andi a b c d
  | xori a b c d => exact Laws.RoundTrip.xori a b c d | fadd a b c d e => exact Laws.RoundTrip.fadd a b c d e
  | fsub a b c d e => exact Laws.RoundTrip.fsub a b c d e | fmul a b c d e => exact Laws.RoundTrip.fmul a b c d e
  | ffma a b c d e => exact Laws.RoundTrip.ffma a b c d e | fmin a b c d => exact Laws.RoundTrip.fmin a b c d
  | fmax a b c d => exact Laws.RoundTrip.fmax a b c d | fabs a b c => exact Laws.RoundTrip.fabs a b c
  | fneg a b c => exact Laws.RoundTrip.fneg a b c | frcp a b c => exact Laws.RoundTrip.frcp a b c
  | frsq a b c => exact Laws.RoundTrip.frsq a b c | fsqrt a b c d => exact Laws.RoundTrip.fsqrt a b c d
  | fex2 a b c => exact Laws.RoundTrip.fex2 a b c | flg2 a b c => exact Laws.RoundTrip.flg2 a b c
  | fsin a b c => exact Laws.RoundTrip.fsin a b c | fcos a b c => exact Laws.RoundTrip.fcos a b c
  | fflr a b c => exact Laws.RoundTrip.fflr a b c | fceil a b c => exact Laws.RoundTrip.fceil a b c
  | ftrunc a b c => exact Laws.RoundTrip.ftrunc a b c | frint a b c d => exact Laws.RoundTrip.frint a b c d
  | cvt a b c d e f => exact Laws.RoundTrip.cvt a b c d e f
  | qscale a b c d e => exact Laws.RoundTrip.qscale a b c d e
  | qscale8 a b c d e => exact Laws.RoundTrip.qscale8 a b c d e | mrd a b c d => exact Laws.RoundTrip.mrd a b c d
  | mwr a b c d => exact Laws.RoundTrip.mwr a b c d | spec a b c => exact Laws.RoundTrip.spec a b c
  | shfl a b c d e => exact Laws.RoundTrip.shfl a b c d e | redl a b c d e => exact Laws.RoundTrip.redl a b c d e
  | scanl a b c d e => exact Laws.RoundTrip.scanl a b c d e | ld a b c d e => exact Laws.RoundTrip.ld a b c d e
  | st a b c d e => exact Laws.RoundTrip.st a b c d e | ldv a b c d => exact Laws.RoundTrip.ldv a b c d
  | stv a b c d => exact Laws.RoundTrip.stv a b c d | atom a b c d e => exact Laws.RoundTrip.atom a b c d e
  | redq a b c d => exact Laws.RoundTrip.redq a b c d | lexit => exact Laws.RoundTrip.lexit
  | _ => exact nofun

/-- Settles O1, each worked word by evaluating the decoder. -/
theorem workedEncodingsDecode : Obligations.WorkedEncodingsDecode := by
  unfold Obligations.WorkedEncodingsDecode
  exact ⟨by decide, by decide, by decide, by decide, by decide, by decide, by decide, ⟨_, rfl⟩, ⟨_, rfl⟩⟩

/-! ### What decodes is the encoding of what it decodes to -/

/-- Every instruction that an answer of the decoder gives is a well-formed word whose encoding is `w`. -/
def EncodesBack (w : BitVec 32) (r : Except Reject Instr) : Prop :=
  ∀ i, r = .ok i → i.isWord = true ∧ i.defect = none ∧ encode i = some w

/-- The number in the bits of a word from bit `k` upward. -/
def above (w : BitVec 32) (k : Nat) : Nat := w.toNat / 2 ^ k

theorem above_split (w : BitVec 32) (lo len : Nat) :
    above w lo = above w (lo + len) * 2 ^ len + w.toNat / 2 ^ lo % 2 ^ len := by
  rw [above, above, pow_add, ← Nat.div_div_eq_div_mul, Nat.div_add_mod']

theorem above_zero (w : BitVec 32) : above w 0 = w.toNat := by
  rw [above, pow_zero, Nat.div_one]

theorem encodesBack_error (w : BitVec 32) (why : Reject) : EncodesBack w (.error why) := nofun

theorem encodesBack_need {w : BitVec 32} {lo len v : Nat} {why : Reject} {k : Except Reject Instr}
    (h : above w lo = above w (lo + len) * 2 ^ len + v → EncodesBack w k) :
    EncodesBack w (need (fixed w lo len v) why k) := fun i hi =>
  let ⟨hb, hk⟩ := need_inv hi
  h (beq_iff_eq.mp hb ▸ above_split w lo len) i hk

theorem encodesBack_accept {w : BitVec 32} {i : Instr} {n : Nat} (hw : i.isWord = true)
    (he : encode i = some (BitVec.ofNat 32 n)) (hn : n + 0 = above w 0) : EncodesBack w (accept i) := by
  intro j hj
  obtain ⟨rfl, hd⟩ := accept_inv hj
  rw [Nat.add_zero, above_zero] at hn
  exact ⟨hw, hd, by rw [he, hn, BitVec.ofNat_toNat, BitVec.setWidth_eq]⟩

/-- A field of `w` put into place is the difference of two numbers above. -/
theorem put_fld_add {w : BitVec 32} {acc lo len r n : Nat}
    (h : acc + (above w lo * 2 ^ lo + r) = n + above w (lo + len) * 2 ^ (lo + len)) :
    put acc (fld w lo len) lo + r = n := by
  rw [above_split w lo len, add_mul, mul_assoc, ← pow_add, Nat.add_comm len] at h
  rw [put, fld, BitVec.toNat_ofNat]
  omega

/-- The scalar and jump cells. -/
theorem encodesBack_scalarCells (w : BitVec 32) :
    (above w 25 = 0x40 → EncodesBack w (decodeAlu w)) ∧
    (above w 25 = 0x41 → EncodesBack w (decodeAlui w)) ∧
    (above w 25 = 0x42 → EncodesBack w (decodeAlx w)) ∧
    (above w 25 = 0x47 → EncodesBack w (decodeJmp w)) := by
  have hs := above_split w 21 4
  unfold decodeAlu decodeAlui decodeAlx decodeJmp
  refine ⟨fun h => ?_, fun h => ?_, fun h => ?_, fun h => ?_⟩
  all_goals split <;> rename_i e <;> try rw [e] at hs
  any_goals exact encodesBack_error _ _
  all_goals
    repeat refine encodesBack_need fun _ => ?_
    refine encodesBack_accept rfl rfl ?_
    repeat refine put_fld_add ?_
    simp only [Nat.reduceAdd, Nat.reducePow] at *
    omega

/-- The mark, responder-stack, transfer and block cells. -/
theorem encodesBack_markCells (w : BitVec 32) :
    (above w 25 = 0x4b → EncodesBack w (decodeMark w)) ∧
    (above w 25 = 0x4c → EncodesBack w (decodeRstk w)) ∧
    (above w 25 = 0x4d → EncodesBack w (decodeXfer w)) ∧
    (above w 25 = 0x4e → EncodesBack w (decodeBlk w)) := by
  have hs := above_split w 21 4
  have hm := above_split w 12 3
  unfold decodeMark decodeRstk decodeXfer decodeBlk
  refine ⟨fun h => ?_, fun h => ?_, fun h => ?_, fun h => ?_⟩
  all_goals split <;> rename_i e <;> try rw [e] at hs
  have hm := above_split w 12 3
  any_goals split <;> rename_i e <;> try rw [e] at hm
  any_goals exact encodesBack_error _ _
  all_goals
    repeat refine encodesBack_need fun _ => ?_
    refine encodesBack_accept rfl rfl ?_
    repeat refine put_fld_add ?_
    simp only [Nat.reduceAdd, Nat.reducePow] at *
    omega

/-- The fence, Relay, tag, token and publish cells. -/
theorem encodesBack_sharedCells (w : BitVec 32) :
    (above w 25 = 0x54 → EncodesBack w (decodeFence w)) ∧
    (above w 25 = 0x56 → EncodesBack w (decodeRelay w)) ∧
    (above w 25 = 0x58 → EncodesBack w (decodeTag w)) ∧
    (above w 25 = 0x5b → EncodesBack w (decodeToken w)) ∧
    (above w 25 = 0x5c → EncodesBack w (decodePub w)) := by
  have hs := above_split w 21 4
  unfold decodeFence decodeRelay decodeTag decodeToken decodePub
  refine ⟨fun h => ?_, fun h => ?_, fun h => ?_, fun h => ?_, fun h => ?_⟩
  all_goals split <;> rename_i e <;> try rw [e] at hs
  any_goals exact encodesBack_error _ _
  all_goals
    repeat refine encodesBack_need fun _ => ?_
    refine encodesBack_accept rfl rfl ?_
    repeat refine put_fld_add ?_
    simp only [Nat.reduceAdd, Nat.reducePow] at *
    omega

/-- The task and system cells. -/
theorem encodesBack_taskCells (w : BitVec 32) :
    (above w 25 = 0x5d → EncodesBack w (decodeTask w)) ∧
    (above w 25 = 0x5f → EncodesBack w (decodeSys w)) := by
  have hs := above_split w 21 4
  unfold decodeTask decodeSys
  refine ⟨fun h => ?_, fun h => ?_⟩
  all_goals split <;> rename_i e <;> try rw [e] at hs
  any_goals exact encodesBack_error _ _
  all_goals
    repeat refine encodesBack_need fun _ => ?_
    refine encodesBack_accept rfl rfl ?_
    repeat refine put_fld_add ?_
    simp only [Nat.reduceAdd, Nat.reducePow] at *
    omega

/-- The engine and collective cells. -/
theorem encodesBack_engineCells (w : BitVec 32) :
    (above w 25 = 0x59 → EncodesBack w (decodeHoist w)) ∧
    (above w 25 = 0x5a → EncodesBack w (decodeMx w)) ∧
    (above w 25 = 0x5e → EncodesBack w (decodeColl w)) := by
  have hs := above_split w 9 4
  unfold decodeHoist decodeMx decodeColl
  refine ⟨fun h => ?_, fun h => ?_, fun h => ?_⟩
  all_goals split <;> rename_i e <;> try rw [e] at hs
  any_goals exact encodesBack_error _ _
  all_goals
    repeat refine encodesBack_need fun _ => ?_
    refine encodesBack_accept rfl rfl ?_
    repeat refine put_fld_add ?_
    simp only [Nat.reduceAdd, Nat.reducePow] at *
    omega

/-- The lane cells. -/
theorem encodesBack_laneCells (w : BitVec 32) :
    (above w 25 = 0xa → EncodesBack w (decodeUna w)) ∧
    (above w 25 = 0x26 → EncodesBack w (decodeFun w)) := by
  have hs := above_split w 2 7
  unfold decodeUna decodeFun
  refine ⟨fun h => ?_, fun h => ?_⟩
  all_goals split <;> rename_i e <;> try rw [e] at hs
  any_goals exact encodesBack_error _ _
  all_goals
    repeat refine encodesBack_need fun _ => ?_
    refine encodesBack_accept rfl rfl ?_
    repeat refine put_fld_add ?_
    simp only [Nat.reduceAdd, Nat.reducePow] at *
    omega

/-- The lane set. -/
theorem encodesBack_lane (w : BitVec 32) (h : above w 31 = 0) : EncodesBack w (decodeLane w) := by
  obtain ⟨hUna, hFun⟩ := encodesBack_laneCells w
  have hs := above_split w 25 6
  unfold decodeLane
  split <;> rename_i e <;> rw [h] at hs <;> try rw [e] at hs
  case h_11 => exact hUna hs
  case h_39 => exact hFun hs
  any_goals exact encodesBack_error _ _
  all_goals
    repeat refine encodesBack_need fun _ => ?_
    refine encodesBack_accept rfl rfl ?_
    repeat refine put_fld_add ?_
    simp only [Nat.reduceAdd, Nat.reducePow] at *
    omega

/-- The cell MOVW. -/
theorem encodesBack_movw (w : BitVec 32) (h : above w 25 = 0x43) : EncodesBack w (decodeMovw w) := by
  have hs := above_split w 0 1
  unfold decodeMovw
  split <;> rename_i e <;> try rw [e] at hs
  any_goals exact encodesBack_error _ _
  all_goals
    refine encodesBack_accept rfl rfl ?_
    repeat refine put_fld_add ?_
    simp only [Nat.reduceAdd, Nat.reducePow] at *
    omega

/-- The uniform set. -/
theorem encodesBack_uniform (w : BitVec 32) (h : above w 31 = 1) : EncodesBack w (decodeUniform w) := by
  obtain ⟨hAlu, hAlui, hAlx, hJmp⟩ := encodesBack_scalarCells w
  obtain ⟨hMark, hRstk, hXfer, hBlk⟩ := encodesBack_markCells w
  obtain ⟨hFence, hRelay, hTag, hToken, hPub⟩ := encodesBack_sharedCells w
  obtain ⟨hTask, hSys⟩ := encodesBack_taskCells w
  obtain ⟨hHoist, hMx, hColl⟩ := encodesBack_engineCells w
  have hs := above_split w 25 6
  unfold decodeUniform
  split <;> rename_i e <;> rw [h] at hs <;> try rw [e] at hs
  case h_1 => exact hAlu hs
  case h_2 => exact hAlui hs
  case h_3 => exact hAlx hs
  case h_4 => exact encodesBack_movw w hs
  case h_8 => exact hJmp hs
  case h_12 => exact hMark hs
  case h_13 => exact hRstk hs
  case h_14 => exact hXfer hs
  case h_15 => exact hBlk hs
  case h_21 => exact hFence hs
  case h_23 => exact hRelay hs
  case h_25 => exact hTag hs
  case h_26 => exact hHoist hs
  case h_27 => exact hMx hs
  case h_28 => exact hToken hs
  case h_29 => exact hPub hs
  case h_30 => exact hTask hs
  case h_31 => exact hColl hs
  case h_32 => exact hSys hs
  any_goals exact encodesBack_error _ _
  all_goals
    repeat refine encodesBack_need fun _ => ?_
    refine encodesBack_accept rfl rfl ?_
    repeat refine put_fld_add ?_
    simp only [Nat.reduceAdd, Nat.reducePow] at *
    omega

/-- Settles O3: cell by cell, the fields that the decoder reads and the bits that it checks are together the word. -/
theorem decodedWordEncodesBack : Obligations.DecodedWordEncodesBack := by
  intro w i hi
  unfold decodeWord at hi
  split at hi <;> rename_i h
  · exact encodesBack_lane w h i hi
  · exact encodesBack_uniform w (by unfold above; omega) i hi

end Sys2Proof.Proofs
end

section
/-!
PROOFS. That every instruction and every event answers a next state (R41, R288, R289; logs 2 and 45), which words pass all
the checks of R42, and the predicate block (R32 to R34).
-/

namespace Sys2Proof.Proofs
open Sys2Proof Sys2Proof.Machine

/-! ### Every instruction and every event goes on -/

/-- An event answers a next state, whatever its arguments (log 45). -/
theorem exec_event_next {e : Instr} (he : e.isWord = false) (s : State) : ∃ t, exec e s = .next t := by
  cases e <;> simp only [Instr.isWord, Bool.true_eq_false] at he <;> exact ⟨_, rfl⟩

theorem exec_next (i : Instr) (s : State) : ∃ t, exec i s = .next t := by
  cases hi : i.isWord with
  | false => exact exec_event_next hi s
  | true =>
    obtain ⟨f, hf⟩ := exec_word_issues hi
    rw [hf]
    exact issue_next i s f

theorem runWord_next (s : State) : ∃ t, runWord s = .next t := by
  unfold runWord
  split
  · exact ⟨_, rfl⟩
  · split
    · exact exec_next _ _
    · exact ⟨_, rfl⟩

/-- A step with no outside event waiting goes on. -/
theorem step_next {s : State} (h : s.inputs = []) : ∃ t, step s = .next t := by
  simp only [step, h]
  split
  · exact exec_next _ _
  · split
    · exact runWord_next _
    · split
      · exact exec_next _ _
      · exact ⟨_, rfl⟩

/-- Settles O5: a word is issued, an event has its effect, and a step runs the one or the other. -/
theorem nothingStopsTheMachine : Obligations.NothingStopsTheMachine := by
  unfold Obligations.NothingStopsTheMachine
  refine ⟨exec_next, fun s => ?_⟩
  rcases h : s.inputs with _ | ⟨e, rest⟩
  · exact .inl (step_next h)
  · cases he : e.isWord with
    | true => exact .inr ⟨by simp only [step, h, he, if_true], e, rest, rfl, he⟩
    | false => exact .inl (step_outside h he ▸ exec_next _ _)

/-! ### Words that pass every check of R42 -/

theorem blockForm_false {i : Instr} {c : Crew} (hp : ∀ m n p, i ≠ .pblk m n p) (hb : c.blk = none) :
    blockForm i c = false := by
  unfold blockForm
  split
  · exact absurd rfl (hp _ _ _)
  · simp [hb]

/-- A word that is no header stands in its clause where a word may (R14, R16). -/
theorem clauseForm_false {i : Instr} {c : Crew} (hc : isClause i = false) (hl : 0 < c.left)
    (ht : isTransfer i = true → c.left = 1) (ha : isLong i = true → c.setA ≠ 15) : clauseForm i c = false := by
  have hl' : c.left ≠ 0 := Nat.ne_of_gt hl
  rw [clauseForm, hc]
  simpa [hl'] using ⟨ht, ha⟩

theorem isClause_of_lane {i : Instr} (hi : isLane i = true) : isClause i = false := by
  unfold isClause
  split
  · cases hi
  · rfl

theorem hazards_nil {i : Instr} {c : Crew}
    (h : ∀ r, r ∈ readRegs i ++ writtenRegs i → ∀ m, m ∈ c.outm → m.reg ≠ r) : hazards i c = [] := by
  rw [hazards, List.filter_eq_nil_iff]
  intro r hr
  simpa using h r hr

/-- The operands that a word's own checks need are among those it reads. -/
theorem firstRegs_subset (i : Instr) : firstRegs i ⊆ readRegs i := by
  unfold firstRegs
  split <;> simp [readRegs]

theorem lateRegs_subset (i : Instr) : lateRegs i ⊆ readRegs i := by
  unfold lateRegs
  split <;> simp [readRegs]

theorem eccAt_none {s : State} {set : ThreadSet} {l : List Reg} (hc : ∀ r ∈ l, r ∉ s.c.bad) (hg : s.g.bad = []) :
    eccAt s set l = none := by
  unfold eccAt
  split
  · rfl
  · dsimp only
    split
    next x hx =>
      obtain ⟨r, hr, hx⟩ := List.exists_of_findSome?_eq_some hx
      rw [if_neg (by simpa using hc r hr)] at hx
      cases hx
    next => simp [List.findSome?_eq_none_iff, hg]

/-- A word that reads no register with an uncorrectable error meets none (R304). -/
theorem eccOf_none {i : Instr} {s : State} {set : ThreadSet} (hc : ∀ r, r ∈ readRegs i → r ∉ s.c.bad) (hg : s.g.bad = []) :
    eccOf i s set = none := by
  unfold eccOf
  rw [eccAt_none (fun r hr => hc r (firstRegs_subset i hr)) hg, eccAt_none (fun r hr => hc r (lateRegs_subset i hr)) hg]
  simp

/-- A lane word whose thread registers all lie below block B, and which writes blocks of its crew, raises no BLK_FAULT. -/
theorem blkFaults_nil {i : Instr} {s : State} (h : ∀ q, ¬ BlockBad i s q) :
    blkFaults s.g s.c.att (vregs (readRegs i)) (vregs (writtenRegs i)) = [] := by
  rw [List.eq_nil_iff_forall_not_mem]
  intro n hn
  obtain ⟨q, hq, -⟩ := mem_blkFaults.1 hn
  exact h q hq

/-- A word that passes the checks of R42 one after the other, down to that of its class, is ready. -/
theorem ready_of_checks {i : Instr} {s : State} (ht : targetFault i s = none) (hd : i.defect = none)
    (hb : blockForm i s.c = false) (hc : clauseForm i s.c = false) (hp : (leastPrivl i).1 ≤ s.c.privl.toNat)
    (hh : hazards i s.c = []) (hclass : (if isLane i then laneGate i s else (eccOf i s 0).map (eccTrap s)) = none) :
    Ready i s := by
  rw [Ready, gate_of_target ht, wordFault, if_neg (not_not_intro hd), if_neg (by simp [hb]), if_neg (by simp [hc]),
    if_neg (by omega), if_neg (not_not_intro hh), hclass]

/-- A word whose target, if it has one, may be gone to raises nothing for it (R54). -/
theorem targetFault_of_targets {i : Instr} {s : State}
    (h : ∀ a, i = .jr a ∨ i = .callr a ∨ (i = .ret ∧ a = 63) → (getS s.c a).toNat % 4 = 0 ∧ (getS s.c a).toNat < 2 ^ 57) :
    targetFault i s = none := by
  cases ht : targetReg i with
  | none => exact targetFault_none s ht
  | some a =>
    refine targetFault_of_fits ht (.inr (h a ?_))
    unfold targetReg at ht
    split at ht <;> cases ht
    · exact .inl rfl
    · exact .inr (.inl rfl)
    · exact .inr (.inr ⟨rfl, rfl⟩)

/-- Settles O7: the checks of R42, one after the other, raise nothing. -/
theorem readyWords : Obligations.ReadyWords := by
  unfold Obligations.ReadyWords
  refine ⟨fun i s hd hl hcl hpb hblk hleft ht ha hp hm hbad hg hjr => ?uniform,
    fun i s hd hl hleft ha hp ht hm hr hw hbad hg => ?lane⟩
  case uniform =>
    refine ready_of_checks (targetFault_of_targets hjr) hd (blockForm_false hpb hblk) (clauseForm_false hcl hleft ht ha) hp
      (hazards_nil hm) ?_
    rw [hl, eccOf_none hbad hg]
    rfl
  case lane =>
    refine ready_of_checks (targetFault_none s (targetReg_of_lane hl)) hd (blockForm_of_lane s.c hl)
      (clauseForm_false (isClause_of_lane hl) hleft ht ha) (by omega) (hazards_nil hm) ?_
    have hblk : ∀ q, ¬ BlockBad i s q := by
      rintro q (⟨hq, hn⟩ | ⟨hq, hn | ho⟩)
      · exact absurd (hr q hq) (by omega)
      · exact absurd (hw q hq).1 (by omega)
      · exact ho (hw q hq).2
    rw [hl, if_pos rfl, laneGate, blkFaults_nil hblk, eccOf_none (by simp [hbad]) hg]
    exact ite_self _

/-! ### Predicate blocks (R32, R33) -/

theorem exec_pblk (m n : BitVec 3) (p : BitVec 8) (s : State) : exec (.pblk m n p) s = issue (.pblk m n p) s fun s =>
    { done s with c := { (done s).c with blk := some ⟨mark s m, m, n.toNat + 1, p⟩ } } := rfl

/-- Settles O33: the block opens with its mark read, and each of its words steps it on. -/
theorem predicateBlocks : Obligations.PredicateBlocks := by
  unfold Obligations.PredicateBlocks
  intro s m n p
  refine ⟨fun hr _ => ?opens, fun b hb => ?within, fun hb => ?outside, fun b hb => ?steps, fun b hb => ?ends⟩
  case opens => exact completes_of_ready (exec_pblk m n p s) hr ⟨rfl, rfl, rfl, rfl, rfl, rfl⟩
  case within => simp only [activeSet, hb]
  case outside => simp only [activeSet, hb]
  case steps => simp only [blockStep, if_neg (Nat.not_le_of_gt hb)]
  case ends => simp only [blockStep, if_pos hb]

end Sys2Proof.Proofs
end

section
/-!
PROOFS. The lane words (R68, R82, R97 to R111, R120 to R124): what a lane word changes, whatever it writes; the integer
words of one register, an immediate, a scalar and three registers; and the conversions, scalings and cross-lane words.
-/

namespace Sys2Proof.Proofs
open Sys2Proof Sys2Proof.Machine

/-! ### What a lane word changes (R68, R82) -/

/-- A run of writes of one register changes the registers and their errors alone. -/
theorem setVs_frame (k : Nat) (l : List (Nat × Word)) : ∀ g : Gallery, setVs g k l =
    { g with v := (setVs g k l).v, bad := (setVs g k l).bad, soft := (setVs g k l).soft } := by
  induction l with
  | nil => exact fun g => rfl
  | cons p l ih => exact fun g => ih (setV g p.1 k p.2)

theorem setVs_bad_subset (k : Nat) (l : List (Nat × Word)) : ∀ g : Gallery, (setVs g k l).bad ⊆ g.bad := by
  induction l with
  | nil => exact fun g _ h => h
  | cons p l ih => exact fun g _ h => (List.mem_filter.1 (ih (setV g p.1 k p.2) h)).1

theorem setVs_soft_subset (k : Nat) (l : List (Nat × Word)) : ∀ g : Gallery, (setVs g k l).soft ⊆ g.soft := by
  induction l with
  | nil => exact fun g _ h => h
  | cons p l ih => exact fun g _ h => (List.mem_filter.1 (ih (setV g p.1 k p.2) h)).1

/-- The values of the active threads, each with its thread. -/
def laneValues (s : State) (x : Nat → Word) : List (Nat × Word) := (laneThreads s).map fun t => (t, x t)

theorem laneValues_threads (s : State) (x : Nat → Word) : (laneValues s x).map (·.1) = laneThreads s := by
  simp [laneValues, Function.comp_def]

theorem laneThreads_nodup (s : State) : (laneThreads s).Nodup := List.nodup_range.filter _

/-- The register of every active thread is written, and no other. -/
theorem lanesWritten_setVs {s t : State} {d : BitVec 7} {x : Nat → Word} (h : t.g = setVs s.g d.toNat (laneValues s x)) :
    LanesWritten s t d x where
  dest th ha := by
    rw [reg, h]
    exact getV_setVs_mem ((laneValues_threads s x).symm ▸ laneThreads_nodup s)
      (List.mem_map.2 ⟨th, (mem_laneThreads s th).2 ha, rfl⟩) _
  others th r hn := by
    rw [reg, h]
    refine getV_setVs_other ?_ _
    by_cases hr : r = d
    · refine .inr fun y hy => hn ⟨(mem_laneThreads s th).1 ?_, hr⟩
      rw [← laneValues_threads s x]
      exact List.mem_map.2 ⟨_, hy, rfl⟩
    · exact .inl hr

/-- A lane word that writes `x` and raises `flags`. -/
theorem laneEffect_done (s : State) (d : BitVec 7) (x : Nat → Word) (flags : Nat) :
    LaneEffect s (done { s with c := raise s.c flags, g := setVs s.g d.toNat (laneValues s x) }) d x
      (BitVec.ofNat 10 flags) where
  ended := (crewEffect_done s (raise s.c flags) rfl rfl rfl rfl).ended
  written := lanesWritten_setVs rfl
  xstat := rfl
  crew := rfl
  gallery := setVs_frame ..
  errors _ hk := setVs_bad_subset _ _ _ hk
  soft _ he := setVs_soft_subset _ _ _ he
  rest := rfl

theorem raise_zero (c : Crew) : raise c 0 = c := by simp [raise]

theorem laneEffect_laneWrite (s : State) (d : BitVec 7) (x : Nat → Word) : LaneEffect s (laneWrite s d x) d x 0 := by
  have h := laneEffect_done s d x 0
  rw [raise_zero] at h
  exact h

theorem laneEffect_laneFlagged (s : State) (d : BitVec 7) (f : Nat → FRes) :
    LaneEffect s (laneFlagged s d f) d (fun th => w64 (f th).bits) (BitVec.ofNat 10 (flagsOf ((laneThreads s).map f))) := by
  have h := laneEffect_done s d (fun th => w64 (f th).bits) (flagsOf ((laneThreads s).map f))
  have hf : laneFlagged s d f = done { s with
      c := raise s.c (flagsOf ((laneThreads s).map f))
      g := setVs s.g d.toNat (laneValues s fun th => w64 (f th).bits) } := by
    simp only [laneFlagged, laneValues, List.map_map, Function.comp_def]
  exact hf ▸ h

/-- A word that passes the checks of R42 completes with the effect of its arm. -/
theorem completes_of_arm {i : Instr} {f : State → State} {s : State} {P : State → Prop}
    (arm : ∀ s, exec i s = issue i s f) (hr : Ready i s) (h : P (f s)) : Completes i s P :=
  completes_of_ready (arm s) hr h

/-- A word whose effect is to write `x` in every active thread, where that is `y`. -/
theorem laneEffect_of_eq {s t : State} {d : BitVec 7} {x y : Nat → Word} (ht : t = laneWrite s d x) (h : x = y) :
    LaneEffect s t d y 0 :=
  ht ▸ h ▸ laneEffect_laneWrite s d x

/-- A word whose effect is to write the results `f` in every active thread and to gather their flags, where they are `g`. -/
theorem laneEffect_of_results {s t : State} {d : BitVec 7} {f g : Nat → FRes} (ht : t = laneFlagged s d f) (h : f = g) :
    LaneEffect s t d (fun th => w64 (g th).bits) (BitVec.ofNat 10 (flagsOf ((laneThreads s).map g))) :=
  ht ▸ h ▸ laneEffect_laneFlagged s d f

/-! ### The integer functions of a sub-element (R100 to R107) -/

theorem wrap_natCast (w x : Nat) : wrap w x = x % 2 ^ w := by
  rw [wrap, show ((2 : Int) ^ w) = ((2 ^ w : Nat) : Int) by push_cast; rfl, ← Int.natCast_mod, Int.toNat_natCast]

theorem addSub_eq (w a b : Nat) : addSub w a b = (a + b) % 2 ^ w := by
  rw [addSub, ← Int.natCast_add, wrap_natCast]

theorem madSub_eq (w a b d : Nat) : madSub w a b d = (a * b + d) % 2 ^ w := by
  rw [madSub, ← Int.natCast_mul, ← Int.natCast_add, wrap_natCast]

theorem negSub_eq {w a : Nat} (h : a < 2 ^ w) : negSub w a = (2 ^ w - a) % 2 ^ w := by
  rw [← wrap_natCast, negSub, wrap, wrap, Nat.cast_sub h.le, Nat.cast_pow, Nat.cast_ofNat, Int.sub_eq_add_neg,
    Int.add_emod_left]

/-- An unsigned number saturated to a width. -/
theorem satZ_natCast (w x : Nat) : satZ w x = min (2 ^ w - 1) x := by
  have hw : 0 < 2 ^ w := Nat.two_pow_pos w
  have hmin : min ((2 : Int) ^ w - 1) (max 0 (x : Int)) = ((min (2 ^ w - 1) x : Nat) : Int) := by
    rw [max_eq_right (Int.natCast_nonneg x), Nat.cast_min, Nat.cast_sub hw, Nat.cast_pow, Nat.cast_ofNat, Nat.cast_one]
  rw [satZ, hmin, wrap_natCast, Nat.mod_eq_of_lt (by omega)]

theorem sub_lt (w : Nat) (x : Word) (j : Nat) : sub w x j < 2 ^ w := bits_lt ..

theorem bits_zero (x len : Nat) : bits x 0 len = x % 2 ^ len := by rw [bits, pow_zero, Nat.div_one]

theorem bfxSub_eq (m : BitVec 1) (w a : Nat) (c : Word) : bfxSub m w a c =
    let len := min (c.toNat / 2 ^ 8 % 2 ^ 7) (w - c.toNat % 64)
    if w ≤ c.toNat % 64 ∨ len = 0 then 0
    else if m = 0 then a / 2 ^ (c.toNat % 64) % 2 ^ len
      else wrap w (signed len (a / 2 ^ (c.toNat % 64) % 2 ^ len)) := by
  simp only [bfxSub, fieldPos, bits_zero, Bool.or_eq_true, decide_eq_true_eq, beq_iff_eq]
  rfl

theorem bfiSub_eq (w d a : Nat) (c : Word) : bfiSub w d a c =
    if w ≤ c.toNat % 64 then d
    else insertBits d a (c.toNat % 64) (min (c.toNat / 2 ^ 8 % 2 ^ 7) (w - c.toNat % 64)) := by
  simp only [bfiSub, fieldPos, bits_zero]
  rfl

/-- Settles O23: each word writes its function of the operands that the threads hold. -/
theorem laneUnaryImmediateWords : Obligations.LaneUnaryImmediateWords := by
  unfold Obligations.LaneUnaryImmediateWords
  intro s w d a b i q m k n im per pos len
  simp only [List.forall_mem_cons, List.not_mem_nil, IsEmpty.forall_iff, implies_true, and_true]
  refine ⟨?addi, ?andi, ?xori, ?shli, ?shri, ?sari, ?abs, ?neg, ?not, ?clz, ?popc, ?brev, ?mov, ?movi, ?bcast, ?spec, ?mad,
    ?bfx, ?bfi, ?pack, ?unpk⟩ <;>
    (intro hr; refine completes_of_arm (fun _ => rfl) hr ?_; refine laneEffect_of_eq rfl ?_)
  case addi => simp only [addSub_eq]; rfl
  case abs => simp only [absSub, wrap_natCast]; rfl
  case neg => simp only [negSub_eq (sub_lt ..)]; rfl
  case mad => simp only [madSub_eq]; rfl
  case bfx => simp only [bfxSub_eq]; rfl
  case bfi => simp only [bfiSub_eq]; rfl
  case pack => simp only [packWord, satZ_natCast]; rfl
  all_goals rfl

/-! ### Sub-elements put into a register (R27, R68) -/

/-- The number that `n` sub-elements of width `w` make up. -/
def subSum (w : Nat) (f : Nat → Nat) (n : Nat) : Nat := (List.range n).foldl (fun a j => a + f j % 2 ^ w * 2 ^ (w * j)) 0

theorem subSum_succ (w : Nat) (f : Nat → Nat) (n : Nat) :
    subSum w f (n + 1) = subSum w f n + f n % 2 ^ w * 2 ^ (w * n) := by
  simp only [subSum, List.range_succ, List.foldl_append, List.foldl_cons, List.foldl_nil]

theorem subSum_lt (w : Nat) (f : Nat → Nat) (n : Nat) : subSum w f n < 2 ^ (w * n) := by
  induction n with
  | zero => exact Nat.two_pow_pos _
  | succ n ih =>
    have hd : f n % 2 ^ w + 1 ≤ 2 ^ w := Nat.mod_lt _ (Nat.two_pow_pos w)
    calc subSum w f (n + 1) < (f n % 2 ^ w + 1) * 2 ^ (w * n) := by rw [subSum_succ, Nat.add_mul, Nat.one_mul]; omega
      _ ≤ 2 ^ w * 2 ^ (w * n) := Nat.mul_le_mul_right _ hd
      _ = 2 ^ (w * (n + 1)) := by rw [← pow_add, Nat.mul_succ, Nat.add_comm]

theorem bits_subSum {w : Nat} {f : Nat → Nat} {j n : Nat} (h : j < n) : bits (subSum w f n) (w * j) w = f j % 2 ^ w := by
  induction n with
  | zero => omega
  | succ n ih =>
    rw [subSum_succ, bits]
    rcases Nat.lt_succ_iff_lt_or_eq.1 h with hj | rfl
    · obtain ⟨k, rfl⟩ := Nat.exists_eq_add_of_lt hj
      rw [← ih hj, bits, show w * (j + k + 1) = w * j + (w + w * k) by ring, pow_add, pow_add, Nat.mul_left_comm,
        Nat.add_mul_div_left _ _ (Nat.two_pow_pos _), Nat.mul_left_comm, Nat.add_mul_mod_self_left]
    · rw [Nat.add_mul_div_right _ _ (Nat.two_pow_pos _), Nat.div_eq_of_lt (subSum_lt w f j), Nat.zero_add, Nat.mod_mod]

/-- The sub-elements that a register is put together from are read back from it (R27, R68). -/
theorem sub_joinSubs {w : Nat} {f : Nat → Nat} {j : Nat} (h : j < 64 / w) : sub w (joinSubs w f) j = f j % 2 ^ w := by
  have hlt : subSum w f (64 / w) < 2 ^ 64 :=
    (subSum_lt w f _).trans_le (Nat.pow_le_pow_right (by omega) (Nat.mul_div_le 64 w))
  rw [sub, show (joinSubs w f).toNat = subSum w f (64 / w) from (BitVec.toNat_ofNat ..).trans (Nat.mod_eq_of_lt hlt)]
  exact bits_subSum h

/-! ### Results with flags (R82) -/

theorem bit_or (x y k : Nat) : bit (x ||| y) k = (bit x k || bit y k) := Nat.testBit_or x y k

/-- A flag is set by the union of some results if one of them sets it. -/
theorem bit_flagsOf {l : List FRes} {k : Nat} : bit (flagsOf l) k = true ↔ ∃ r ∈ l, bit r.flags k = true := by
  have go : ∀ a, bit (l.foldl (fun a r => a ||| r.flags) a) k = true ↔ bit a k = true ∨ ∃ r ∈ l, bit r.flags k = true := by
    induction l with
    | nil => simp
    | cons r l ih =>
      intro a
      rw [List.foldl_cons, ih, bit_or, Bool.or_eq_true, or_assoc, List.exists_mem_cons_iff]
  rw [flagsOf, go 0, show bit 0 k = false from Nat.zero_testBit k]
  simp

theorem sub_packResults {n : Nat} {l : List FRes} {j : Nat} (h : j < 64 / n) :
    sub n (w64 (packResults n l).bits) j = (l.getD j ⟨0, 0⟩).bits % 2 ^ n := by
  rw [packResults, w64, BitVec.ofNat_toNat, BitVec.setWidth_eq, sub_joinSubs h]

/-! ### Conversions, shuffles, reductions and scans (R40, R93, R94, R109 to R111, R120 to R124) -/

theorem cvtWidth_eq (c : BitVec 3) : cvtWidth c.toNat = [32, 32, 16, 16, 32, 64, 8, 64].getD c.toNat 0 := by
  revert c; decide

theorem cvtDecode_eq (c : BitVec 3) (x : Nat) : cvtDecode c.toNat x = match c.toNat with
    | 0 => .int (signed 32 x)
    | 1 => .int x
    | 2 => .flt (bf16.value x)
    | 3 => .flt (fp16.value x)
    | 4 => .flt (fp32.value x)
    | 5 => .flt (fp64.value x)
    | 6 => .flt (e4m3Value x)
    | _ => .int (signed 64 x) := by
  have hc := c.isLt
  generalize c.toNat = k at hc
  interval_cases k <;> rfl

/-- A node of the tree over twice as many lanes (R93). -/
theorem redNode_eq (f : Nat → Nat → FRes) (x y : Option FRes) : redNode f x y = match x, y with
    | some l, some r => some ⟨(f l.bits r.bits).bits, (f l.bits r.bits).flags ||| l.flags ||| r.flags⟩
    | some l, none => some l
    | none, r => r := by
  cases x <;> cases y <;> rfl

/-- A scan goes on to the next value (R94). -/
theorem redSeq_append {f : Nat → Nat → FRes} {l : List Nat} {r : FRes} (h : redSeq f l = some r) (y : Nat) :
    redSeq f (l ++ [y]) = some ⟨(f r.bits y).bits, (f r.bits y).flags ||| r.flags⟩ := by
  cases l with
  | nil => cases h
  | cons x l =>
    cases h
    simp only [List.cons_append, redSeq, List.foldl_append, List.foldl_cons, List.foldl_nil]

theorem redWidth_eq (w : BitVec 2) (o : BitVec 7) :
    redWidth w o = if 8 ≤ o.toNat then [16, 16, 32, 64].getD w.toNat 0 else 8 * 2 ^ w.toNat := by
  have hw : (fmtOf w).width = [16, 16, 32, 64].getD w.toNat 0 := by revert w; decide
  simp only [redWidth, redFloat, hw, widthOf, decide_eq_true_eq]

/-- An integer reduction is over the elements of the width of its word. -/
theorem widthOf_redWidth {w : BitVec 2} {o : BitVec 7} (h : o.toNat < 8) : widthOf w = redWidth w o := by
  rw [redWidth_eq, if_neg (by omega), widthOf]

theorem redIdentity_eq (w : BitVec 2) (o : BitVec 7) : redIdentity w o = match o.toNat with
    | 1 => 2 ^ (redWidth w o - 1) - 1
    | 2 => 2 ^ (redWidth w o - 1)
    | 3 => 2 ^ redWidth w o - 1
    | 5 => 2 ^ redWidth w o - 1
    | 9 => (fmtOf w).nan
    | 10 => (fmtOf w).nan
    | _ => 0 := by
  have hw := @widthOf_redWidth w o
  unfold redIdentity
  split <;> rename_i h <;> simp only [h] at hw ⊢
  case h_1 => rw [hw (by omega)]
  case h_2 => rw [hw (by omega)]
  case h_3 => rw [hw (by omega)]
  case h_4 => rw [hw (by omega)]

theorem redStep_eq (w m : BitVec 2) (o : BitVec 7) (y z : Nat) : redStep w o m y z = match o.toNat with
    | 0 => ⟨(y + z) % 2 ^ redWidth w o, 0⟩
    | 1 => ⟨if signed (redWidth w o) y ≤ signed (redWidth w o) z then y else z, 0⟩
    | 2 => ⟨if signed (redWidth w o) z ≤ signed (redWidth w o) y then y else z, 0⟩
    | 3 => ⟨min y z, 0⟩
    | 4 => ⟨max y z, 0⟩
    | 5 => ⟨y &&& z, 0⟩
    | 6 => ⟨y ||| z, 0⟩
    | 7 => ⟨y ^^^ z, 0⟩
    | 8 => (fmtOf w).add m y z
    | 9 => (fmtOf w).minmax false y z
    | _ => (fmtOf w).minmax true y z := by
  have hw := @widthOf_redWidth w o
  unfold redStep
  split <;> rename_i h <;> simp only [h] at hw ⊢
  case h_1 => rw [addSub_eq, hw (by omega)]
  case h_2 => rw [minSub, hw (by omega)]; rfl
  case h_3 => rw [maxSub, hw (by omega)]; rfl
  case h_4 => simp only [minSub, valueBy, Nat.min_def]; simp
  case h_5 => simp only [maxSub, valueBy, max_comm y, Nat.max_def]; simp

/-- Where the lanes of a subgroup are a power of two, the members up to a thread are those of the places up to its own. -/
theorem scan_members {x t : Nat} (hx : 0 < x) (g : Nat → Option Nat) :
    (List.range x).filterMap (fun k => if subBase x t + k ≤ t then g (subBase x t + k) else none) =
      (List.range (t % 32 % x + 1)).filterMap fun k => g (t - t % 32 % x + k) := by
  have hr : t % 32 % x < x := Nat.mod_lt _ hx
  have hle : t % 32 % x ≤ t := (Nat.mod_le _ _).trans (Nat.mod_le _ _)
  rw [subBase]
  generalize t % 32 % x = r at hr hle ⊢
  obtain ⟨n, rfl⟩ := Nat.exists_eq_add_of_le (Nat.succ_le_of_lt hr)
  rw [List.range_add, List.filterMap_append, List.filterMap_map]
  have hin : ∀ k ∈ List.range (r + 1), (if t - r + k ≤ t then g (t - r + k) else none) = g (t - r + k) := by
    intro k hk
    rw [if_pos (by have := List.mem_range.1 hk; omega)]
  have hout : ∀ k ∈ List.range n,
      ((fun k => if t - r + k ≤ t then g (t - r + k) else none) ∘ fun k => r.succ + k) k = none := by
    intro k _
    exact if_neg (by dsimp only; omega)
  rw [List.filterMap_congr hin, List.filterMap_eq_nil_iff.2 hout, List.append_nil]

/-- The source of a shuffle (R110). -/
theorem shflSource_eq (m : BitVec 2) (x t k : Nat) : shflSource m x t k =
    if (match m.toNat with
      | 0 => decide (x ≤ k)
      | 1 => decide (x ≤ k)
      | 2 => decide (t % 32 % x < k)
      | _ => decide (x ≤ t % 32 % x + k)) then none
    else some (t / 32 * 32 + match m.toNat with
      | 0 => t % 32 - t % 32 % x + k
      | 1 => t % 32 ^^^ k
      | 2 => t % 32 - k
      | _ => t % 32 + k) := by
  have hm := m.isLt
  unfold shflSource
  generalize m.toNat = c at hm
  interval_cases c <;> simp only [decide_eq_true_eq, Nat.mul_comm 32, Nat.add_assoc]

theorem elim_ite_none {α β : Type} (c : Bool) (u : α) (x : β) (f : α → β) :
    (if c then none else some u : Option α).elim x f = if c then x else f u := by
  cases c <;> rfl

/-- A sub-element of a shuffle, by its source (R110). -/
theorem shflSub_eq (s : State) (w : Nat) (a b : BitVec 7) (m : BitVec 2) (t j : Nat) : shflSub s w a b m t j =
    (shflSource m s.c.xsub.toNat t (sub w (reg s t b) j)).elim ⟨sub w (reg s t a) j, 256⟩
      fun u => if s.g.live.getLsbD u then ⟨sub w (reg s u a) j, 0⟩ else ⟨0, 512⟩ := by
  unfold shflSub
  cases shflSource m s.c.xsub.toNat t (sub w (reg s t b) j) <;> rfl

/-- Settles O25: the results that each word writes, the tree and the sequence of a reduction, and what its operators are. -/
theorem laneConversionAndCrossLaneWords : Obligations.LaneConversionAndCrossLaneWords := by
  unfold Obligations.LaneConversionAndCrossLaneWords
  refine ⟨?words, fun f leaf k i => ⟨rfl, redNode_eq ..⟩, fun f v y l r => ⟨rfl, rfl, fun h => redSeq_append h y⟩,
    fun w m o => ⟨redWidth_eq w o, redIdentity_eq w o, fun y z _ _ => redStep_eq w m o y z⟩,
    fun n _ l j k => ⟨sub_packResults, bit_flagsOf, bit_flagsOf⟩⟩
  intro s w m bq qq d a b o src dst u b1 v n x width decode shuffled member written
  have hwritten : redWritten w o = written := by
    funext r
    simp only [redWritten, redFloat, decide_eq_true_eq, FFmt.written]
    dsimp only [written]
    split
    · cases (fmtOf w).value r.bits <;> rfl
    · rfl
  simp only [List.forall_mem_cons, List.not_mem_nil, IsEmpty.forall_iff, implies_true, and_true]
  refine ⟨?cvt, ?qscale, ?qscale8, ?shfl, ?redl, ?scanl⟩ <;>
    (intro hb hx hr; refine completes_of_arm (fun _ => rfl) hr ?_)
  case cvt =>
    refine laneEffect_of_results rfl ?_
    simp only [cvtResults, cvtWidth_eq, cvtDecode_eq]
    rfl
  case qscale => exact laneEffect_of_results rfl rfl
  case qscale8 => exact laneEffect_of_results rfl rfl
  case shfl =>
    have hsub : shflSub s (widthOf w) a b m = shuffled := by
      funext t j
      rw [shflSub_eq, shflSource_eq, elim_ite_none]
      rfl
    refine laneEffect_of_results (by simp only [shflBad, if_pos (hb trivial)]; rfl) ?_
    rw [hsub]
    rfl
  case redl => exact laneEffect_of_results rfl (by rw [hwritten]; rfl)
  case scanl =>
    refine laneEffect_of_results rfl ?_
    have hx0 : 0 < s.c.xsub.toNat := by
      have := hx trivial
      simp only [List.mem_cons, List.not_mem_nil, or_false] at this
      omega
    rw [hwritten]
    funext t
    simp only [scan_members hx0]
    rfl

end Sys2Proof.Proofs
end

section
/-!
PROOFS. The operations that a word or an event can reach keep memory, the vaults and the tiles in canonical form; those of
Machine/Ops.lean stand in the support (MEMORY, log 5).
-/

namespace Sys2Proof.Proofs
open Sys2Proof Sys2Proof.Machine

set_option Elab.async false

variable {s : State}

/-- An update of what the canonical form does not rest on. -/
theorem tidy_update {t : State} (h : s.tidy = true) (hm : t.mem = s.mem := by rfl) (hv : t.vault = s.vault := by rfl)
    (ht : t.tiles = s.tiles := by rfl) : t.tidy = true := tidy_of_eq h hm hv ht

theorem tidy_done (h : s.tidy = true) : (done s).tidy = true := tidy_update h
theorem tidy_doneS (d : BitVec 6) (x : Word) (h : s.tidy = true) : (doneS s d x).tidy = true := tidy_update h
theorem tidy_doneM (d : BitVec 3) (x : ThreadSet) (h : s.tidy = true) : (doneM s d x).tidy = true := tidy_update h
theorem tidy_jump (a : Word) (h : s.tidy = true) : (jump s a).tidy = true := tidy_update h
theorem tidy_link (h : s.tidy = true) : (link s).tidy = true := tidy_update h
theorem tidy_hold (h : s.tidy = true) : (hold s).tidy = true := tidy_update h
theorem tidy_dropUnplaced (gone : Record → Bool) (h : s.tidy = true) : (dropUnplaced s gone).tidy = true := tidy_update h

theorem tidy_atHome (h : s.tidy = true) : (atHome s).tidy = true := tidy_offerAll _ (tidy_performAll _ h)

theorem tidy_scalarFault (e : Cause) (a : Word) (k : Nat) (h : s.tidy = true) : (scalarFault s e a k).tidy = true :=
  tidy_takeTrap _ _ h

theorem tidy_scalarEcc (a : Word) (k : Nat) (h : s.tidy = true) : (scalarEcc s a k).tidy = true := tidy_takeTrap _ _ h

/-! ### Tags and collectives of a crew -/

/-! ### Scalar words, searches and accesses -/

theorem tidy_scalar2 (d a b : BitVec 6) (f : Word → Word → Word) (h : s.tidy = true) : (scalar2 s d a b f).tidy = true :=
  tidy_doneS _ _ h

theorem tidy_scalarI (d a : BitVec 6) (i : BitVec 9) (f : Word → Word → Word) (h : s.tidy = true) :
    (scalarI s d a i f).tidy = true := tidy_doneS _ _ h

theorem tidy_correctSearched (set : ThreadSet) (vs : List (BitVec 7)) (h : s.tidy = true) :
    (correctSearched s set vs).tidy = true := by
  unfold correctSearched
  split
  · exact h
  · extract_lets hit src
    exact tidy_update h

theorem tidy_search (d c : BitVec 3) (set : ThreadSet) (v : BitVec 7) (vs : List (BitVec 7)) (y : Nat → Word)
    (mask : Word)
    (h : s.tidy = true) : (search s d c set v vs y mask).tidy = true := by
  unfold search
  extract_lets high
  split
  · exact tidy_takeTrap _ _ h
  split
  · exact tidy_takeTrap _ _ h
  split
  · exact tidy_takeTrap _ _ h
  · exact tidy_done (tidy_update (tidy_correctSearched set vs h))

theorem tidy_placedAccess (need : Need) (addr : Word) (align n kind : Nat) (go : Place → State)
    (hgo : ∀ x0, (go x0).tidy = true) (h : s.tidy = true) :
    (placedAccess s need addr align n kind go).tidy = true := by
  unfold placedAccess
  split
  · exact tidy_scalarFault _ _ _ h
  · exact hgo _

theorem tidy_loadAccess (addr : Word) (align n : Nat) (go : Place → State) (hgo : ∀ x0, (go x0).tidy = true)
    (h : s.tidy = true) :
    (loadAccess s addr align n go).tidy = true := by
  unfold loadAccess
  refine tidy_placedAccess _ _ _ _ _ _ (fun x0 => ?_) h
  split
  · exact tidy_hold h
  · exact hgo _

theorem tidy_deferEcc (addr : Word) (thread reg : Nat) (h : s.tidy = true) : (deferEcc s addr thread reg).tidy = true :=
  tidy_deferEccAt _ _ _ _ _ h

theorem tidy_landMark (d : BitVec 3) (x : ThreadSet) (h : s.tidy = true) : (landMark s d x).tidy = true :=
  tidy_done (tidy_update h)

theorem tidy_storeAccess (addr : Word) (align n : Nat) (go : Place → State) (hgo : ∀ x0, (go x0).tidy = true)
    (h : s.tidy = true) :
    (storeAccess s addr align n go).tidy = true := by
  unfold storeAccess
  refine tidy_placedAccess _ _ _ _ _ _ (fun x0 => ?_) h
  split
  · exact tidy_hold h
  · exact hgo _

theorem tidy_queueStore (rel : Bool) (l : List WriteAcc) (h : s.tidy = true) : (queueStore s rel l).tidy = true := by
  unfold queueStore
  split
  · exact h
  · exact tidy_update h

theorem tidy_landScalar (d : BitVec 6) (x : Word) (h : s.tidy = true) : (landScalar s d x).tidy = true := by
  unfold landScalar
  split
  · exact tidy_done h
  · exact tidy_done (tidy_update h)

theorem tidy_getThread (d : BitVec 6) (q : Nat) (t : Option Nat) (h : s.tidy = true) : (getThread s d q t).tidy = true := by
  unfold getThread
  split
  · exact tidy_takeTrap _ _ h
  · split
    · exact tidy_landScalar _ _ (tidy_update h)
    · split
      · exact tidy_takeTrap _ _ h
      · exact tidy_landScalar _ _ h

theorem tidy_grantParked (h : s.tidy = true) : (grantParked s).tidy = true := by
  refine tidy_foldl _ (fun s x h => ?_) _ _ h
  split
  · exact h
  · split
    · exact tidy_putSave0 _ _ (tidy_onCrew _ _ _ (tidy_update h))
    · exact h

theorem tidy_raiseDeferred (t : TrapReq) (rest : List TrapReq) (h : s.tidy = true) :
    (raiseDeferred s t rest).tidy = true := tidy_takeTrap _ _ (tidy_update h)

theorem tidy_scalarAccess (need : Need) (addr : Word) (align n kind : Nat) (go : Place → State)
    (hgo : ∀ x0, (go x0).tidy = true) (h : s.tidy = true) :
    (scalarAccess s need addr align n kind go).tidy = true := by
  unfold scalarAccess
  refine tidy_placedAccess _ _ _ _ _ _ (fun x0 => ?_) h
  split
  · exact tidy_hold h
  · exact hgo _

theorem tidy_atomicAt (p : BitVec 4) (pa n x cmp : Nat) (h : s.tidy = true) : (atomicAt s p pa n x cmp).2.tidy = true := by
  unfold atomicAt
  dsimp only
  split
  · exact h
  · exact tidy_performNat _ _ _ _ h

theorem tidy_ackLater (h : s.tidy = true) : (ackLater s).tidy = true := by
  unfold ackLater
  split
  · exact h
  · exact tidy_update h

theorem tidy_deviceAccess (need : Need) (addr : Word) (align n kind : Nat) (go : Place → State)
    (hgo : ∀ x0, (go x0).tidy = true) (h : s.tidy = true) :
    (deviceAccess s need addr align n kind go).tidy = true := by
  unfold deviceAccess
  refine tidy_scalarAccess _ _ _ _ _ _ (fun x0 => ?_) h
  split
  · exact tidy_scalarFault _ _ _ h
  · exact hgo _

/-! ### Waits in the Lamproom and relays -/

theorem tidy_setFilter (e : LampEntry) (h : s.tidy = true) : (setFilter s e).tidy = true := by
  unfold setFilter
  extract_lets b
  split
  · exact h
  · exact tidy_update h

theorem tidy_register {t : State} (q : Record) (x : LampEntry) (e : register s q x = some t) (h : s.tidy = true) :
    t.tidy = true := by
  unfold register at e
  dsimp only at e
  split at e
  · cases e
    exact tidy_update h
  · split at e
    · cases e
    · split at e <;> cases e
      · exact tidy_setFilter _ (tidy_update h)
      · exact tidy_setFilter _ (tidy_update h)

theorem tidy_relayAccess (need : Need) (addr : Word) (go : State → Nat → Place → State)
    (hgo : ∀ s x1 x2, s.tidy = true → (go s x1 x2).tidy = true) (h : s.tidy = true) :
    (relayAccess s need addr go).tidy = true := by
  unfold relayAccess
  split
  · exact tidy_scalarFault _ _ _ h
  · split
    · exact tidy_hold h
    · extract_lets s1
      have h1 : s1.tidy = true := tidy_atHome h
      split
      · exact tidy_scalarEcc _ _ h1
      · exact hgo _ _ _ h1

theorem tidy_relayTrap (addr : Word) (h : s.tidy = true) : (relayTrap s addr).tidy = true := tidy_takeTrap _ _ h

theorem tidy_putRelay (q : Relay) (next total : Nat) (bagg : Word) (h : s.tidy = true) :
    (putRelay s q next total bagg).tidy = true := tidy_performGlobal _ _ _ (tidy_update h)

theorem tidy_relayApply (q : Relay) (c : Word) (next : Nat) (h : s.tidy = true) : (relayApply s q c next).tidy = true := by
  unfold relayApply
  extract_lets x
  exact tidy_putRelay _ _ _ _ h

theorem tidy_relayHeld (n : Nat) : ∀ {s : State} (pa : Nat), s.tidy = true → (relayHeld n s pa).tidy = true := by
  induction n with
  | zero => exact fun pa h => h
  | succ n ih =>
    intro s pa h
    simp only [relayHeld]
    split
    · exact h
    · split
      · exact h
      · exact ih _ (tidy_relayApply _ _ _ h)

theorem tidy_configure (pa cfg : Nat) (h : s.tidy = true) : (configure s pa cfg).tidy = true :=
  tidy_performGlobal _ _ _ (tidy_performNat _ _ _ _ h)

theorem tidy_freeStorage (q : Relay) (h : s.tidy = true) : (freeStorage s q).tidy = true :=
  tidy_update (tidy_foldl _ (fun s p h => tidy_writeBytes _ _ _ h) _ _ h)

theorem tidy_releaseRelay (pa : Nat) (h : s.tidy = true) : (releaseRelay s pa).tidy = true := by
  unfold releaseRelay
  split
  · exact h
  · exact tidy_freeStorage _ (tidy_update h)

/-! ### Hoist programs and follow-on images -/

theorem tidy_tagWait (all : Bool) (mask : Word) (h : s.tidy = true) : (tagWait s all mask).tidy = true := by
  unfold tagWait
  split
  · exact tidy_park _ _ h
  · split
    · exact tidy_done h
    · exact tidy_takeTrap _ _ h

theorem tidy_opTrap (f : OpFault) (h : s.tidy = true) : (opTrap s f).tidy = true := tidy_takeTrap _ _ h

theorem tidy_onHoist (id : Nat) (f : HoistCmd → HoistCmd) (h : s.tidy = true) : (onHoist s id f).tidy = true :=
  tidy_update h

theorem tidy_grantOne (core : Nat) (h : s.tidy = true) : (grantOne s core).tidy = true := by
  unfold grantOne
  split
  · exact h
  · split
    · exact h
    · exact tidy_onHoist _ _ h

theorem tidy_grantHoist (cluster : Nat) (h : s.tidy = true) : (grantHoist s cluster).tidy = true := by
  unfold grantHoist
  exact tidy_foldl _ (fun s x h => tidy_grantOne _ h) _ _ h

theorem tidy_ringFill (k : Client) (ring : Word) (slot : Nat) (payload : List Byte) (h : s.tidy = true) :
    (ringFill s k ring slot payload).tidy = true := by
  unfold ringFill
  split
  · exact tidy_countError _ h
  · exact tidy_countError _ (tidy_setLost _ _ h)
  · split
    · exact tidy_countError _ (tidy_setLost _ _ h)
    · exact tidy_performGlobal _ _ _ (tidy_performGlobal _ _ _ h)

theorem tidy_resumeTags (uid : Nat) (h : s.tidy = true) : (resumeTags s uid).tidy = true := by
  unfold resumeTags
  split
  · exact h
  · split
    · split
      · exact tidy_putSave0 _ _ (tidy_inFocus _ _ _ h (fun s h => tidy_tagWait _ _ h))
      · exact h
    · exact h

theorem tidy_putTags (uid : Nat) (h : s.tidy = true) : (putTags s uid).tidy = true := by
  unfold putTags
  split
  · exact h
  · split
    · exact h
    · split
      · exact h
      · exact tidy_saveWrite _ _ _ _ _ (tidy_saveWrite _ _ _ _ _ h)

theorem tidy_completeTag (uid : Nat) (tag : Option (BitVec 6)) (why : Option Cause) (h : s.tidy = true) :
    (completeTag s uid tag why).tidy = true := by
  unfold completeTag
  split
  · exact h
  · exact tidy_resumeTags _ (tidy_putTags _ (tidy_onCrew _ _ _ h))

theorem tidy_giveUpFollow (k : Client) (f : Follow) (why : Cause) (h : s.tidy = true) :
    (giveUpFollow s k f why).tidy = true := by
  unfold giveUpFollow
  extract_lets c s1
  have h1 : s1.tidy = true := tidy_ringFill _ _ _ _ h
  exact tidy_completeTag _ _ _ h1

theorem tidy_settleExit (uid : Nat) (h : s.tidy = true) : (settleExit s uid).tidy = true := by
  unfold settleExit
  split
  · exact h
  · split
    · exact h
    · extract_lets busy s1
      have h1 : s1.tidy = true := tidy_update h
      split
      · exact h1
      · exact tidy_update h1

theorem tidy_endHoist (q : HoistCmd) (why : Option Fail) (h : s.tidy = true) : (endHoist s q why).tidy = true := by
  unfold endHoist
  extract_lets s1 s2
  have h11 : s1.tidy = true := tidy_update h
  have h2 : s2.tidy = true := by
    unfold s2
    split
    · exact h11
    · exact tidy_crewFault _ _ _ h11
  exact tidy_settleExit _ (tidy_completeTag _ _ _ h2)

theorem tidy_failHoist (q : HoistCmd) (cause : Cause) (addr : Word) (followOn : Bool) (h : s.tidy = true) :
    (failHoist s q cause addr followOn).tidy = true := by
  unfold failHoist
  extract_lets k obj s1
  have h11 : s1.tidy = true := by
    unfold s1
    split
    · exact h
    · exact tidy_giveUpFollow _ _ _ h
  exact tidy_endHoist _ _ h11

theorem tidy_ringReserve {t : State} {x : Option Nat} (k : Client) (ring : Word) (e : ringReserve s k ring = (t, x))
    (h : s.tidy = true) : t.tidy = true := by
  unfold ringReserve at e
  split at e <;> simp only [Prod.mk.injEq] at e <;> obtain ⟨rfl, -⟩ := e
  · exact tidy_countError _ h
  · exact tidy_countError _ (tidy_setLost _ _ h)
  · exact tidy_performNat _ _ _ _ h

theorem tidy_takeFollow (q : HoistCmd) (a : Word) (image : List Byte) (h : s.tidy = true) :
    (takeFollow s q a image).tidy = true := by
  unfold takeFollow
  extract_lets crew k tag
  split
  · exact tidy_failHoist _ _ _ _ h
  · split
    · exact tidy_failHoist _ _ _ _ h
    · split
      · exact h
      · split
        next s1 e =>
          exact tidy_onHoist _ _ (tidy_ringReserve _ _ e h)
        next s1 _ e =>
          exact tidy_onHoist _ _ (tidy_onCrew _ _ _ (tidy_ringReserve _ _ e h))

theorem tidy_reportDrop (k : Client) (addr : Nat) (h : s.tidy = true) : (reportDrop s k addr).tidy = true :=
  tidy_crewFault _ _ _ h

/-- A read of one piece leaves the state, but for a piece that a route drops, which is counted (R304, R333). -/
theorem tidy_readPiece (k : Client) (a n : Nat) (p : EngPlace) (h : s.tidy = true) : (match p with
      | .vault x => (s, vaultBytes s x n)
      | .global x => (s, readBytes s x n)
      | .dropped =>
        let s1 := reportDrop s k a
        ({ s1 with fresh := s1.fresh + 1 }, (List.range n).map (Config.freeByte s.fresh))).1.tidy = true := by
  split
  · exact h
  · exact h
  · exact tidy_update (tidy_reportDrop _ _ h)

theorem tidy_engReadPieces (k : Client) (vault : Bool) (l : List (Nat × Nat)) : ∀ {s t : State} {bs : List Byte},
    engReadPieces k vault l s = .ok (t, bs) → s.tidy = true → t.tidy = true := by
  induction l with
  | nil =>
    intro s t bs e h
    simp only [engReadPieces, Except.ok.injEq, Prod.mk.injEq] at e
    exact e.1 ▸ h
  | cons x l ih =>
    obtain ⟨a, n⟩ := x
    intro s t bs e h
    unfold engReadPieces at e
    split at e
    · cases e
    · next p _ =>
      have h1 := tidy_readPiece k a n p h
      dsimp only at e
      split at e
      · cases e
      · next e1 =>
        cases e
        exact ih e1 h1

theorem tidy_engRead {t : State} {bs : List Byte} (k : Client) (vault : Bool) (a n : Nat)
    (e : engRead s k vault a n = .ok (t, bs)) (h : s.tidy = true) : t.tidy = true := tidy_engReadPieces k vault _ e h

theorem tidy_followImage {t : State} {bs : List Byte} (k : Client) (ring : Option Word) (a : Word)
    (e : followImage s k ring a = .ok (t, bs)) (h : s.tidy = true) : t.tidy = true := by
  unfold followImage at e
  split at e
  · cases e
  · next e1 =>
    dsimp only at e
    split at e
    · cases e
    · cases e
      exact tidy_engRead _ _ _ _ e1 h

theorem tidy_beginStep (q : HoistCmd) (c : Word) (step : Nat) (h : s.tidy = true) : (beginStep s q c step).tidy = true := by
  unfold beginStep
  extract_lets k
  split
  · exact tidy_failHoist _ _ _ _ h
  · split
    next e =>
      exact tidy_failHoist _ _ _ _ h
    next s1 _ e =>
      extract_lets o start
      split
      · exact tidy_failHoist _ _ _ _ (tidy_engRead _ _ _ _ e h)
      · split
        · exact tidy_failHoist _ _ _ _ (tidy_engRead _ _ _ _ e h)
        · split
          · exact tidy_onHoist _ _ (tidy_engRead _ _ _ _ e h)
          · split
            next e1 =>
              exact tidy_failHoist _ _ _ _ (tidy_engRead _ _ _ _ e h)
            next s2 _ e1 =>
              exact tidy_takeFollow _ _ _ (tidy_onHoist _ _ (tidy_followImage _ _ _ e1 (tidy_engRead _ _ _ _ e h)))

/-- A change of the gallery with a name that keeps its name and LIVE. -/


theorem tidy_correct (g : Gallery) (hit : Nat → Bool) (h : s.tidy = true) : (s.correct g hit).tidy = true :=
  tidy_update (tidy_onGal s g.gid (fun h => { h with soft := h.soft.filter fun e => !hit e.1 }) h)

theorem tidy_postFollow {t : State} (k : Client) (f : Follow) (e : postFollow s k f = .ok t) (h : s.tidy = true) :
    t.tidy = true := by
  have put (vals : List (BitVec 32)) {s : State} (h : s.tidy = true) : (if vals = [] then s
      else { s with scales := s.scales ++ [⟨f.ring, k.uid, f.slot, vals⟩] }).tidy = true := by
    split
    · exact h
    · exact tidy_update h
  unfold postFollow at e
  dsimp only at e
  split at e
  · cases e
    exact tidy_ringFill _ _ _ _ (put _ h)
  · split at e
    · cases e
    · split at e
      · cases e
      · split at e <;> cases e
        exact tidy_ringFill _ _ _ _ (put _ (tidy_correct _ _ h))

theorem tidy_finishHoist (q : HoistCmd) (h : s.tidy = true) : (finishHoist s q).tidy = true := by
  have follow {t : State} (e : (match q.follow with
      | none => Except.ok s
      | some f => postFollow s (clientOf s q.uid) f) = .ok t) : t.tidy = true := by
    split at e
    · cases e
      exact h
    · exact tidy_postFollow _ _ e h
  unfold finishHoist
  extract_lets k
  split
  · exact tidy_failHoist _ _ _ _ h
  · next s1 e =>
    have h1 := follow e
    split
    · exact tidy_endHoist _ _ h1
    · split
      · exact tidy_endHoist _ _ h1
      · exact tidy_onHoist _ _ h1

theorem tidy_advanceHoist (cluster : Nat) (h : s.tidy = true) : (advanceHoist s cluster).tidy = true := by
  unfold advanceHoist
  refine tidy_foldl _ (fun s h0 h => ?_) _ _ h
  split
  · exact h
  · split
    · split
      · exact h
      · exact tidy_takeFollow _ _ _ h
    · split
      · split
        · exact h
        · exact tidy_beginStep _ _ _ h
      · split
        · exact tidy_finishHoist _ h
        · exact h
    · split
      · exact tidy_finishHoist _ h
      · exact h

theorem tidy_settleHoist (cluster : Nat) (h : s.tidy = true) : (settleHoist s cluster).tidy = true :=
  tidy_grantHoist _ (tidy_advanceHoist _ h)

theorem tidy_queueHoist (tag : Option (BitVec 6)) (o : HoistOp) (chain : Option (Word × Nat)) (fw : Option Follow)
    (h : s.tidy = true) : (queueHoist s tag o chain fw).tidy = true := by
  unfold queueHoist
  extract_lets q c1 c2
  exact tidy_settleHoist _ (tidy_done (tidy_update h))

theorem tidy_moveWord (tag : Option (BitVec 6)) (o : HoistOp) (h : s.tidy = true) : (moveWord s tag o).tidy = true := by
  unfold moveWord
  split
  · exact tidy_opTrap _ h
  · split
    · exact tidy_hold h
    · extract_lets s1 k
      have h1 : s1.tidy = true := tidy_atHome h
      split
      · split
        · exact tidy_hold h
        · exact tidy_queueHoist _ _ _ _ h1
      · split
        next e =>
          exact tidy_opTrap _ h
        next s2 _ e =>
          extract_lets ring
          split
          · exact tidy_scalarEcc _ _ h
          · split
            · exact tidy_hold h
            · split
              next s3 e1 =>
                exact tidy_queueHoist _ _ _ _ (tidy_ringReserve _ _ e1 (tidy_followImage _ _ _ e h1))
              next s3 _ e1 =>
                exact tidy_queueHoist _ _ _ _ (tidy_ringReserve _ _ e1 (tidy_followImage _ _ _ e h1))

/-! ### Matrix commands, tokens and publications -/

theorem tidy_mxTrap (h : s.tidy = true) : (mxTrap s).tidy = true := tidy_takeTrap _ _ h

theorem tidy_postWord (tag : Option (BitVec 6)) (w0 a b ws : Nat) (scales : List (BitVec 32)) (h : s.tidy = true) :
    (postWord s tag w0 a b ws scales).tidy = true := by
  unfold postWord
  split
  · exact tidy_mxTrap h
  · extract_lets k s1
    have h1 : s1.tidy = true := tidy_atHome h
    split
    · exact tidy_scalarEcc _ _ h
    · split
      · exact tidy_hold h
      · split
        next s2 e =>
          exact tidy_done (tidy_ringReserve _ _ e h1)
        next s2 _ e =>
          extract_lets s3 s4
          have h3 : s3.tidy = true := by
            unfold s3
            split
            · exact tidy_ringReserve _ _ e h1
            · exact tidy_update (tidy_ringReserve _ _ e h1)
          have h4 : s4.tidy = true := tidy_ringFill _ _ _ _ h3
          exact tidy_done (tidy_update h4)

theorem tidy_tokenTrap (tile : Nat) (h : s.tidy = true) : (tokenTrap s tile).tidy = true := tidy_takeTrap _ _ h

theorem tidy_tokenWord (x : Word) (go : Nat → State) (hgo : ∀ x0, (go x0).tidy = true) (h : s.tidy = true) :
    (tokenWord s x go).tidy = true := by
  unfold tokenWord
  split
  · exact tidy_tokenTrap _ h
  · exact hgo _

theorem tidy_putToken (t : Token) (h : s.tidy = true) : (putToken s t).tidy = true := tidy_update h

theorem tidy_publishTrap (va : Word) (h : s.tidy = true) : (publishTrap s va).tidy = true := tidy_scalarFault _ _ _ h

theorem tidy_putEntry (idx : Nat) (i : PubImage) (h : s.tidy = true) : (putEntry s idx i).tidy = true := by
  unfold putEntry
  extract_lets rest
  exact tidy_update h

/-! ### Records and their queues -/

theorem tidy_releasing (act : State → State) (hact : ∀ s, s.tidy = true → (act s).tidy = true) (h : s.tidy = true) :
    (releasing s act).tidy = true := by
  unfold releasing
  split
  · exact hact _ (tidy_atHome h)
  · exact tidy_hold h

theorem tidy_pushQueue (q : Record) (h : s.tidy = true) : (pushQueue s q).1.tidy = true := by
  unfold pushQueue
  dsimp only
  split
  · exact h
  · exact tidy_ringPush _ _ _ _ _ h

theorem tidy_knowRegions (part : Nat) (path : List Nat) (h : s.tidy = true) : (knowRegions s part path).tidy = true :=
  tidy_update h

theorem tidy_putRcb (pa off x : Nat) (h : s.tidy = true) : (putRcb s pa off x).tidy = true := by
  unfold putRcb
  split
  · exact h
  · exact tidy_performNat _ _ _ _ h

theorem tidy_syncRegion (pa : Nat) (h : s.tidy = true) : (syncRegion s pa).tidy = true :=
  tidy_foldl _ (fun _ _ h => tidy_putRcb _ _ _ h) _ _ h

theorem tidy_makeReady (q : Record) (core pos : Nat) (h : s.tidy = true) : (makeReady s q core pos).tidy = true := by
  unfold makeReady
  extract_lets r11 rest s1 s2
  have h1 : s1.tidy = true := tidy_update h
  have h2 : s2.tidy = true := by
    unfold s2
    split
    · exact tidy_update h1
    · exact tidy_update h1
  exact tidy_syncRegion _ h2

theorem tidy_syncPath (path : List Nat) (h : s.tidy = true) : (syncPath s path).tidy = true := by
  unfold syncPath
  exact tidy_foldl _ (fun s x h => tidy_syncRegion _ h) _ _ h

theorem tidy_enterQueue (q : Record) (core : Nat) (h : s.tidy = true) : (enterQueue s q core).tidy = true := by
  unfold enterQueue
  extract_lets s1 x q1 src s2 s3
  have h1 : s1.tidy = true := by
    unfold s1
    split
    · exact h
    · split
      · exact tidy_performGlobal _ _ _ h
      · exact tidy_performNat _ _ _ _ h
  have h2 : s2.tidy = true := tidy_update (tidy_pushQueue _ (tidy_knowRegions _ _ h1))
  have h3 : s3.tidy = true := by
    unfold s3
    split
    · exact tidy_makeReady _ _ _ h2
    · split
      · exact tidy_makeReady _ _ _ h2
      · exact tidy_performNat _ _ _ _ h2
  exact tidy_syncPath _ h3

theorem tidy_spawnTrap (addr : Word) (n : Nat) (h : s.tidy = true) : (spawnTrap s addr n).tidy = true := tidy_takeTrap _ _ h

theorem tidy_taskEnqueue {t : State} (x : Enqueuer) (addr : Word) (e : taskEnqueue s x addr = .ok t) (h : s.tidy = true) :
    t.tidy = true := by
  unfold taskEnqueue at e
  split at e
  · cases e
  dsimp only at e
  split at e
  · cases e
  split at e
  · cases e
  split at e
  · cases e
  split at e
  · cases e
  split at e
  · split at e <;> cases e
    exact tidy_enterQueue _ _ h
  · cases e
    exact tidy_enterQueue _ _ h

theorem tidy_enqueueWord (x : Enqueuer) (addr : Word) (ok below : State → State) (full : State → List Nat → State)
    (hok : ∀ s, s.tidy = true → (ok s).tidy = true) (hbelow : ∀ s, s.tidy = true → (below s).tidy = true)
    (hfull : ∀ s path, s.tidy = true → (full s path).tidy = true) (h : s.tidy = true) :
    (enqueueWord s x addr ok below full).tidy = true := by
  unfold enqueueWord
  split
  · exact tidy_scalarFault _ _ _ h
  · refine tidy_releasing _ (fun s hs => ?_) h
    split
    · split
      · exact tidy_scalarEcc _ _ hs
      · exact tidy_scalarFault _ _ _ hs
    · exact tidy_spawnTrap _ _ hs
    · exact hfull _ _ hs
    · exact tidy_scalarEcc _ _ hs
    · exact hbelow _ (tidy_regionFault _ _ _ hs)
    · next e => exact hok _ (tidy_taskEnqueue _ _ e hs)

theorem tidy_parkSpawn (path : List Nat) (h : s.tidy = true) : (parkSpawn s path).tidy = true := tidy_park _ _ (tidy_update h)

theorem tidy_release (cell : Nat) (name : Word) (core pos : Nat) (h : s.tidy = true) :
    (release s cell name core pos).tidy = true := by
  unfold release
  split
  · exact h
  · exact tidy_makeReady _ _ _ h

theorem tidy_decCell {t : State} (pa : Nat) (dep : Bool) (core pos : Nat) (e : decCell s pa dep core pos = some t)
    (h : s.tidy = true) : t.tidy = true := by
  unfold decCell at e
  dsimp only at e
  split at e
  · cases e
  · split at e <;> cases e
    · exact tidy_release _ _ _ _ (tidy_performGlobal _ _ _ h)
    · exact tidy_performNat _ _ _ _ h

theorem tidy_decWord (addr : Word) (dep : Bool) (h : s.tidy = true) : (decWord s addr dep).tidy = true := by
  unfold decWord
  refine tidy_scalarAccess _ _ _ _ _ _ (fun x0 => tidy_releasing _ (fun s x => ?_) h) h
  split
  · exact tidy_scalarEcc _ _ x
  · split
    next e =>
      exact tidy_takeTrap _ _ x
    next s1 e =>
      exact tidy_done (tidy_decCell _ _ _ _ e x)

/-! ### Collectives -/

theorem tidy_reportDeferred (h : s.tidy = true) : (reportDeferred s).tidy = true :=
  tidy_foldl _ (fun s t h => tidy_crewFault _ _ _ h) _ _ (tidy_update h)

theorem tidy_dropColl (c : Coll) (h : s.tidy = true) : (dropColl s c).tidy = true := tidy_update h

theorem tidy_settleExits (h : s.tidy = true) : (settleExits s).tidy = true :=
  tidy_foldl _ (fun _ _ h => tidy_settleExit _ h) _ _ h

theorem tidy_failColl (c : Coll) (cause : Cause) (detail : Nat) (peer : Option (BitVec 8)) (h : s.tidy = true) :
    (failColl s c cause detail peer).tidy = true := by
  unfold failColl
  extract_lets s1 s2
  have h1 : s1.tidy = true := tidy_crewFault _ _ _ (tidy_dropColl _ h)
  have h2 : s2.tidy = true := tidy_onCrew _ _ _ h1
  exact tidy_settleExits (tidy_completeTag _ _ _ h2)

theorem tidy_engWriteOne (k : Client) (vault : Bool) (q : Nat × List Byte) (h : s.tidy = true) :
    (engWriteOne k vault s q).tidy = true := by
  unfold engWriteOne
  split
  · exact h
  · exact tidy_performWrite _ _ h
  · exact tidy_performGlobal _ _ _ h
  · exact tidy_reportDrop _ _ h

theorem tidy_engWrite {t : State} (k : Client) (vault : Bool) (l : List (Nat × List Byte))
    (e : engWrite s k vault l = .ok t) (h : s.tidy = true) : t.tidy = true := by
  unfold engWrite at e
  dsimp only at e
  split at e <;> cases e
  exact tidy_foldl _ (fun s p h => tidy_engWriteOne k vault p h) _ _ h

theorem tidy_completeColl (c : Coll) (h : s.tidy = true) : (completeColl s c).tidy = true := by
  have writes {t : State} (e : (if !c.root || c.rootId == s.pacer.self
      then engWrite s (clientOf s c.uid) false [(c.dest.toNat, c.result)] else .ok s) = .ok t) : t.tidy = true := by
    split at e
    · exact tidy_engWrite _ _ _ e h
    · cases e
      exact h
  unfold completeColl
  split
  · exact tidy_failColl _ _ _ _ h
  · extract_lets wr k
    split
    · exact tidy_failColl _ _ _ _ h
    · next s1 e =>
      extract_lets entry s2
      have h2 : s2.tidy = true := tidy_dropColl _ (writes e)
      clear_value s2 entry
      split
      · exact tidy_update h2
      · exact tidy_settleExits (tidy_completeTag _ _ _ (tidy_onCrew _ _ _ h2))

theorem tidy_advanceColl (c : Coll) (h : s.tidy = true) : (advanceColl s c).tidy = true := by
  unfold advanceColl
  split
  · exact tidy_completeColl _ h
  · exact h

theorem tidy_enterColl (c : Coll) (tag : Option (BitVec 6)) (own : List Byte) (h : s.tidy = true) :
    (enterColl s c tag own).tidy = true := by
  unfold enterColl
  extract_lets notes c1 stat s1
  have h1 : s1.tidy = true := tidy_update h
  split
  · exact tidy_failColl _ _ _ _ h1
  · exact tidy_advanceColl _ h1

theorem tidy_postColl (o : CollOp) (tag : Option (BitVec 6)) (g : Place) (h : s.tidy = true) :
    (postColl s o tag g).tidy = true := by
  unfold postColl
  extract_lets seq tmo c src s1 k s2
  have h1 : s1.tidy = true := tidy_update (tidy_performNat _ _ _ _ h)
  split
  · next e => exact tidy_done (tidy_enterColl _ _ _ (tidy_engRead _ _ _ _ e h1))
  · have h2 : s2.tidy = true := tidy_enterColl _ _ _ (tidy_update h1)
    exact tidy_done (tidy_failColl _ _ _ _ (tidy_update h2))

theorem tidy_collWord (tag : Option (BitVec 6)) (o : CollOp) (h : s.tidy = true) : (collWord s tag o).tidy = true := by
  unfold collWord
  split
  · exact tidy_opTrap _ h
  · split
    · exact tidy_scalarFault _ _ _ h
    · split
      · exact tidy_hold h
      · extract_lets self members
        split
        · exact tidy_scalarFault _ _ _ h
        · split
          · exact tidy_scalarEcc _ _ h
          · split
            · exact tidy_takeTrap _ _ h
            · split
              · exact tidy_opTrap _ h
              · split
                · exact tidy_hold h
                · exact tidy_postColl _ _ _ (tidy_atHome h)

/-! ### System registers -/

theorem tidy_sysWrite (n : Nat) (v : Word) (h : s.tidy = true) : (sysWrite s n v).tidy = true := by
  unfold sysWrite
  extract_lets c b
  split
  · exact tidy_update h
  · exact tidy_update h
  · exact tidy_update h
  · exact tidy_update h
  · exact tidy_update h
  · exact tidy_update h
  · exact tidy_update h
  · exact tidy_update h
  · exact tidy_update h
  · exact tidy_update h
  · exact tidy_update h
  · exact tidy_update h
  · exact h

/-! ### The return from a trap -/

theorem tidy_returnFromTrap (h : s.tidy = true) : (returnFromTrap s).tidy = true := tidy_update h

/-! ### Lane words -/

theorem tidy_spillTrap (cause : Cause) (h : s.tidy = true) : (spillTrap s cause).tidy = true := tidy_takeTrap _ _ h

theorem tidy_contextWord (a : Word) (load : Bool) (h : s.tidy = true) : (contextWord s a load).tidy = true := by
  unfold contextWord
  refine tidy_scalarAccess _ _ _ _ _ _ (fun x0 => ?_) h
  split
  · exact tidy_scalarEcc _ _ h
  · extract_lets s1 w0 j src
    have h1 : s1.tidy = true := tidy_atHome h
    exact tidy_update h1

theorem tidy_laneWrite (d : BitVec 7) (f : Nat → Word) (h : s.tidy = true) : (laneWrite s d f).tidy = true :=
  tidy_update h

theorem tidy_lane2 (q : Nat) (d a b : BitVec 7) (f : Nat → Nat → Nat) (h : s.tidy = true) :
    (lane2 s q d a b f).tidy = true := tidy_laneWrite _ _ h

theorem tidy_lane1 (q : Nat) (d a : BitVec 7) (f : Nat → Nat) (h : s.tidy = true) : (lane1 s q d a f).tidy = true :=
  tidy_laneWrite _ _ h

theorem tidy_lane3 (q : Nat) (d a b : BitVec 7) (f : Nat → Nat → Nat → Nat) (h : s.tidy = true) :
    (lane3 s q d a b f).tidy = true := tidy_laneWrite _ _ h

theorem tidy_laneFlagged (d : BitVec 7) (f : Nat → FRes) (h : s.tidy = true) : (laneFlagged s d f).tidy = true :=
  tidy_update h

theorem tidy_laneFp (q : BitVec 2) (d : BitVec 7) (f : Nat → Nat → FRes) (h : s.tidy = true) :
    (laneFp s q d f).tidy = true := tidy_laneFlagged _ _ h

theorem tidy_landLanes (d : BitVec 7) (threads : List Nat) (value : Nat → Option Word) (flags : Nat → Nat)
    (h : s.tidy = true) :
    (landLanes s d threads value flags).tidy = true := by
  unfold landLanes
  extract_lets one src
  exact tidy_done (tidy_update h)

theorem tidy_sfu (q : BitVec 2) (d a : BitVec 7) (f : Nat → FRes) (h : s.tidy = true) : (sfu s q d a f).tidy = true := by
  unfold sfu
  extract_lets r1
  exact tidy_landLanes _ _ _ _ h

theorem tidy_tileWord (tile : Nat) {s' : State} (h' : s'.tidy = true) (h : s.tidy = true) :
    (tileWord s tile s').tidy = true := by
  unfold tileWord
  split
  · exact h'
  · exact tidy_tokenTrap _ h

theorem tidy_setTile (k : Nat) (x : BitVec 32) (h : s.tidy = true) : (setTile s k x).tidy = true := by
  obtain ⟨hm, hv, ht⟩ := (tidy_iff s).1 h
  exact (tidy_iff _).2 ⟨hm, hv, tidy_store 0 _ _ _ ht⟩

theorem tidy_laneFault (fails : List (Nat × Nat × Cause)) (kind : Nat) (h : s.tidy = true) :
    (laneFault s fails kind).tidy = true := by
  unfold laneFault
  split
  · exact h
  · exact tidy_takeTrap _ _ h

theorem tidy_laneAccess (addr : Nat → Nat) (check : Nat → Except Cause Place) (kind : Nat)
    (go : List (Nat × Nat × Place) → State) (hgo : ∀ x0, (go x0).tidy = true) (h : s.tidy = true) :
    (laneAccess s addr check kind go).tidy = true := by
  unfold laneAccess
  extract_lets l
  split
  · exact hgo _
  · exact tidy_laneFault _ _ h

theorem tidy_laneUnless (l : List (Nat × Nat × Place)) (n : Nat) (waits : State → Nat → Nat → Bool) {s' : State}
    (h' : s'.tidy = true) (h : s.tidy = true) :
    (laneUnless s l n waits s').tidy = true := by
  unfold laneUnless
  split
  · exact tidy_hold h
  · exact h'

theorem tidy_reportPoison (d : BitVec 7) (bad : List (Nat × Nat)) (h : s.tidy = true) :
    (reportPoison s d bad).tidy = true := by
  unfold reportPoison
  split
  · exact h
  · exact tidy_deferEcc _ _ _ h

/-! ### Boot stages -/

theorem tidy_loadBody (stage : Nat) (h : s.tidy = true) : (loadBody s stage).tidy = true := by
  unfold loadBody
  extract_lets i
  split
  · exact tidy_performGlobal _ _ _ h
  · exact h

theorem tidy_failStage (h : s.tidy = true) : (failStage s).tidy = true := tidy_update h

/-- A change of each crew on a core of what the bounds do not speak of. -/


theorem tidy_startForemen (entry : Word) (h : s.tidy = true) : (startForemen s entry).tidy = true := tidy_update h

theorem tidy_measure (i : Nat) (h : s.tidy = true) : (Machine.measure s i).tidy = true := tidy_update h

theorem tidy_measureImage (stage : Nat) (i : Image) (body : List Byte) (h : s.tidy = true) :
    (measureImage s stage i body).tidy = true := tidy_measure _ (tidy_update h)

theorem tidy_takeImage (stage meas : Nat) (h : s.tidy = true) : (takeImage s stage meas).tidy = true := by
  unfold takeImage
  extract_lets i s1
  have h1 : s1.tidy = true := tidy_loadBody _ h
  split
  · refine tidy_failStage ?_
    split
    · exact h1
    · exact h
  · exact tidy_startForemen _ (tidy_measureImage _ _ _ h1)

theorem tidy_enterStage (stage : Nat) (h : s.tidy = true) : (enterStage s stage).tidy = true := by
  unfold enterStage
  split
  · exact tidy_performWrite _ _ h
  · exact tidy_takeImage _ _ h
  · exact tidy_takeImage _ _ h
  · exact h

theorem tidy_bootStage {s' : State} (h' : s'.tidy = true) (_ : s.tidy = true) : (bootStage s s').tidy = true := by
  unfold bootStage
  extract_lets n
  split
  · exact tidy_enterStage _ h'
  · exact h'

/-! ### Registers of the control block -/

theorem tidy_dropWrite (h : s.tidy = true) : (dropWrite s).tidy = true := tidy_countError _ h

theorem tidy_onFn (fn : Nat) (f : HostFn → HostFn) (h : s.tidy = true) : (onFn s fn f).tidy = true := tidy_update h

theorem tidy_onQueue (fn q : Nat) (f : HostQueue → HostQueue) (h : s.tidy = true) : (onQueue s fn q f).tidy = true :=
  tidy_onFn _ _ h

theorem tidy_queueWrite (fn q o : Nat) (x : CtlWrite) (h : s.tidy = true) : (queueWrite s fn q o x).tidy = true :=
  tidy_onQueue _ _ _ h

theorem tidy_onPort (p : Nat) (f : Port → Port) (h : s.tidy = true) : (onPort s p f).tidy = true := tidy_update h

theorem tidy_portEnable (p : Nat) (on : Bool) (h : s.tidy = true) : (portEnable s p on).tidy = true := tidy_onPort _ _ h

theorem tidy_portWrite (p o : Nat) (q : CtlWrite) (h : s.tidy = true) : (portWrite s p o q).tidy = true := by
  unfold portWrite
  split
  · exact h
  · extract_lets s1
    have h1 : s1.tidy = true := by
      unfold s1
      split
      · exact tidy_portEnable _ _ h
      · exact h
    split
    · exact tidy_onPort _ _ h1
    · exact h1

theorem tidy_routeWrite (v : Viewer) (d : Nat) (q : CtlWrite) (h : s.tidy = true) : (routeWrite s v d q).tidy = true := by
  unfold routeWrite
  split
  · exact tidy_dropWrite h
  · exact tidy_update h

theorem tidy_mbenWrite (fn : Nat) (on : Bool) (h : s.tidy = true) : (mbenWrite s fn on).tidy = true := tidy_onFn _ _ h

theorem tidy_mailWrite (fn o : Nat) (q : CtlWrite) (h : s.tidy = true) : (mailWrite s fn o q).tidy = true := by
  unfold mailWrite
  split
  · exact tidy_onFn _ _ h
  · exact tidy_onFn _ _ h
  · exact tidy_onFn _ _ h
  · split
    · exact tidy_mbenWrite _ _ h
    · exact h

theorem tidy_shared (v : Viewer) (o : Nat) (q : CtlWrite) (h : s.tidy = true) : (ctlWrite.shared s v o q).tidy = true := by
  unfold ctlWrite.shared
  split
  · exact h
  · split
    · exact tidy_onFn _ _ h
    · split
      · exact tidy_onFn _ _ h
      · split
        · exact tidy_onFn _ _ h
        · split
          · exact tidy_queueWrite _ _ _ _ h
          · split
            · exact tidy_onFn _ _ h
            · split
              · exact h
              · split
                · exact h
                · split
                  · exact tidy_portWrite _ _ _ h
                  · split
                    · exact tidy_routeWrite _ _ _ h
                    · split
                      · exact tidy_mailWrite _ _ _ h
                      · exact tidy_dropWrite h

theorem tidy_onCtl (k : Nat) (f : Controller → Controller) (h : s.tidy = true) : (onCtl s k f).tidy = true := by
  unfold onCtl
  split
  · exact h
  · exact tidy_update h

theorem tidy_trnctlWrite (k : Nat) (v : Word) (h : s.tidy = true) : (trnctlWrite s k v).tidy = true := tidy_onCtl _ _ h

theorem tidy_ctlBlockWrite (k o : Nat) (q : CtlWrite) (h : s.tidy = true) : (ctlBlockWrite s k o q).tidy = true := by
  unfold ctlBlockWrite
  split
  · exact tidy_trnctlWrite _ _ h
  · exact tidy_onCtl _ _ h
  · exact h
  · exact tidy_dropWrite h

theorem tidy_clearRom (die : Nat) (h : s.tidy = true) : (clearRom s die).tidy = true := tidy_update h

theorem tidy_fuseRequest (v : BitVec 9) (h : s.tidy = true) : (fuseRequest s v).tidy = true := by
  unfold fuseRequest
  split
  · exact h
  · extract_lets goal src
    exact tidy_update h

theorem tidy_bootWrite (part die o : Nat) (x : CtlWrite) (h : s.tidy = true) : (bootWrite s part die o x).tidy = true := by
  unfold bootWrite
  extract_lets b s1 m
  split
  · have h1 : s1.tidy = true := by
      unfold s1
      split
      · exact tidy_clearRom _ h
      · exact h
    exact tidy_update h1
  · exact tidy_update h
  · exact tidy_update h
  · split
    · exact h
    · exact tidy_update h
  · exact h
  · exact tidy_fuseRequest _ h
  · split
    · exact tidy_measure _ h
    · exact h
  · exact h
  · split
    · exact tidy_update h
    · split
      · exact h
      · exact tidy_dropWrite h

theorem tidy_sendFlit (dst vc : Nat) (header payload : List Byte) (h : s.tidy = true) :
    (sendFlit s dst vc header payload).tidy = true := by
  unfold sendFlit
  split
  · exact h
  · exact tidy_onPort _ _ h

theorem tidy_flushPace (h : s.tidy = true) : (flushPace s).tidy = true := by
  unfold flushPace
  extract_lets p send
  refine tidy_foldl _ (fun s m h => ?_) _ _ (tidy_update h)
  split
  · exact tidy_sendFlit _ _ _ _ h
  · exact tidy_foldl _ (fun s d h => tidy_sendFlit _ _ _ _ h) _ _ h

theorem tidy_setPacer (p : Pacer) (h : s.tidy = true) : (setPacer s p).tidy = true := by
  unfold setPacer
  extract_lets s1
  have h1 : s1.tidy = true := tidy_update h
  split
  · exact h1
  · exact tidy_performNat _ _ _ _ h1

theorem tidy_onPacer (f : Pacer → Nat → Pacer) (h : s.tidy = true) : (onPacer s f).tidy = true :=
  tidy_flushPace (tidy_setPacer _ h)

theorem tidy_fwlimitWrite (die : Nat) (v : BitVec 8) (h : s.tidy = true) : (fwlimitWrite s die v).tidy = true := by
  unfold fwlimitWrite
  split
  · exact h
  · exact tidy_onPacer _ h

theorem tidy_setPool (cluster : Nat) (cls : BitVec 2) (h : s.tidy = true) : (setPool s cluster cls).tidy = true := by
  unfold setPool
  extract_lets lo src
  exact tidy_update h

theorem tidy_poolWrite (part k : Nat) (q : Word) (h : s.tidy = true) : (poolWrite s part k q).tidy = true := by
  unfold poolWrite
  refine tidy_foldl _ (fun s i h => ?_) _ _ h
  extract_lets cluster
  split
  · exact tidy_setPool _ _ h
  · exact h

theorem tidy_paceenWrite (die : Nat) (on : Bool) (h : s.tidy = true) : (paceenWrite s die on).tidy = true := by
  unfold paceenWrite
  split
  · exact h
  · split
    · exact tidy_onPacer _ h
    · extract_lets lap s1
      have h1 : s1.tidy = true := tidy_onPacer _ h
      split
      · exact tidy_onPacer _ h
      · split
        · exact tidy_onPacer _ h1
        · exact h1

theorem tidy_powerWrite (part die o : Nat) (x : CtlWrite) (h : s.tidy = true) : (powerWrite s part die o x).tidy = true := by
  unfold powerWrite
  extract_lets byte pw limit pc s1
  split
  · exact tidy_fwlimitWrite _ _ h
  · split
    · exact h
    · exact tidy_update h
  · exact tidy_poolWrite _ _ _ h
  · exact tidy_poolWrite _ _ _ h
  · exact tidy_poolWrite _ _ _ h
  · exact tidy_update h
  · exact tidy_update h
  · split
    · exact h
    · have h1 : s1.tidy = true := by
        unfold s1
        split
        · exact h
        · exact tidy_update h
      exact tidy_paceenWrite _ _ h1
  · exact tidy_dropWrite h

theorem tidy_ctlWrite (v : Viewer) (o : Nat) (q : CtlWrite) (h : s.tidy = true) : (ctlWrite s v o q).tidy = true := by
  unfold ctlWrite
  split
  · split
    · exact tidy_dropWrite h
    · exact tidy_shared _ _ _ h
  · split
    · exact tidy_ctlBlockWrite _ _ _ h
    · split
      · exact tidy_bootWrite _ _ _ _ h
      · split
        · exact tidy_powerWrite _ _ _ _ h
        · exact tidy_shared _ _ _ h

theorem tidy_ctlStore (v : Viewer) (a n x : Nat) (h : s.tidy = true) : (ctlStore s v a n x).tidy = true := by
  unfold ctlStore
  extract_lets o lo old raw
  exact tidy_ctlWrite _ _ _ h

theorem tidy_atomThreads (p : BitVec 4) (n : Nat) (x cmp : Nat → Nat) (l : List (Nat × Nat × Place)) :
    ∀ {s : State} (got : List (Nat × Word)), s.tidy = true → (atomThreads p n x cmp l s got).2.tidy = true := by
  induction l with
  | nil => exact fun got h => h
  | cons y l ih => exact fun got h => ih _ (tidy_atomicAt _ _ _ _ _ h)


end Sys2Proof.Proofs

end

section
/-!
PROOFS. The words: each keeps memory, the vaults and the tiles in canonical form (MEMORY, log 5).
-/

namespace Sys2Proof.Proofs
open Sys2Proof Sys2Proof.Machine

set_option Elab.async false

variable {s : State}

/-- From a state in canonical form an answer goes on to one in canonical form. -/
def Tidies (s : State) (o : Out) : Prop := s.tidy = true → ∀ t, o = .next t → t.tidy = true

theorem tidies_issue {i : Instr} {f : State → State} (hf : ∀ s, s.tidy = true → (f s).tidy = true) :
    Tidies s (issue i s f) := fun h _ e => tidy_issue h (hf s) e

theorem tidies_of_arm {i : Instr} {f : State → State} (arm : ∀ s, exec i s = issue i s f)
    (hf : ∀ s, s.tidy = true → (f s).tidy = true) : Tidies s (exec i s) := arm s ▸ tidies_issue hf

/-! ### The responder stack -/

theorem tidy_pushAct (act : ThreadSet) (h : s.tidy = true) : (pushAct s act).tidy = true := by
  unfold pushAct
  split
  · exact tidy_takeTrap _ _ h
  · exact tidy_done (tidy_update h)

theorem tidy_topEntry (go : ThreadSet → State) (hgo : ∀ top, (go top).tidy = true) (h : s.tidy = true) :
    (topEntry s go).tidy = true := by
  unfold topEntry
  split
  · exact tidy_takeTrap _ _ h
  · split
    · exact tidy_takeTrap _ _ h
    · exact hgo _

theorem tidies_execRspill (a : BitVec 6) : Tidies s (execRspill a s) := by
  refine tidies_issue fun s h => ?_
  split
  · exact tidy_scalarFault _ _ _ h
  split
  · exact tidy_spillTrap _ h
  split
  · exact tidy_hold h
  split
  · exact tidy_takeTrap _ _ h
  · exact tidy_done (tidy_update (tidy_foldl _ (fun s _ h => tidy_queueStore _ _ h) _ _ h))

theorem tidies_execRfill (a : BitVec 6) : Tidies s (execRfill a s) := by
  refine tidies_issue fun s h => ?_
  split
  · exact tidy_scalarFault _ _ _ h
  split
  · exact tidy_spillTrap _ h
  split
  · exact tidy_hold h
  split
  · exact tidy_scalarEcc _ _ h
  · exact tidy_done (tidy_update h)

theorem tidy_leaveLive (x : ThreadSet) (h : s.tidy = true) : (leaveLive s x).tidy = true :=
  tidy_update h

theorem tidies_execExit : Tidies s (execExit s) := by
  refine tidies_issue fun s h => ?_
  split
  · exact tidy_hold h
  · exact tidy_settleExit _ (tidy_grantParked (tidy_update (tidy_reportDeferred h)))

/-! ### The clause header -/

theorem tidies_execClause (x : BitVec 12) (a b : BitVec 4) (l : BitVec 5) : Tidies s (execClause x a b l s) := by
  refine tidies_issue fun s h => ?_
  split
  · exact tidy_raiseDeferred _ _ h
  split
  · exact tidy_hold h
  · exact tidy_update h

theorem tidies_execHprog (t g : BitVec 6) : Tidies s (execHprog t g s) := by
  refine tidies_issue fun s h => ?_
  extract_lets put
  have hput (a b c : Word) : (put a b c).tidy = true := tidy_done (tidy_update h)
  split
  · exact hput _ _ _
  · exact hput _ _ _

theorem tidies_execCstat (t g : BitVec 6) : Tidies s (execCstat t g s) := by
  refine tidies_issue fun s h => ?_
  extract_lets put
  have hput (a b c : Word) : (put a b c).tidy = true := tidy_done (tidy_update h)
  split
  · exact hput _ _ _
  · exact hput _ _ _

theorem tidies_execAtoms (p : BitVec 4) (d a b : BitVec 6) (z : BitVec 1) (o : BitVec 2) :
    Tidies s (execAtoms p d a b z o s) := by
  refine tidies_issue fun s h => ?_
  extract_lets n s1
  have h1 : s1.tidy = true := tidy_atHome h
  refine tidy_scalarAccess _ _ _ _ _ _ (fun pl => ?_) h
  split
  · exact tidy_hold h
  · split
    · exact tidy_scalarEcc _ _ h1
    · exact tidy_landScalar _ _ (tidy_ackLater (tidy_atomicAt _ _ _ _ _ h1))

theorem tidies_execAtom (z : BitVec 1) (d a : BitVec 7) (p : BitVec 4) (o : BitVec 2) : Tidies s (execAtom z d a p o s) := by
  refine tidies_issue fun s h => ?_
  extract_lets n s1 cas op
  have h1 : s1.tidy = true := tidy_atHome h
  refine tidy_laneAccess _ _ _ _ (fun l => tidy_laneUnless _ _ _ ?_ h) h
  split
  · exact tidy_hold h
  · split
    · exact tidy_takeTrap _ _ h1
    · exact tidy_landLanes _ _ _ _ (tidy_ackLater (tidy_atomThreads _ _ _ _ _ _ h1))

theorem tidies_execRedqs (f : BitVec 1) (d a b : BitVec 6) : Tidies s (execRedqs f d a b s) := by
  refine tidies_issue fun s h => ?_
  refine tidy_placedAccess _ _ _ _ _ _ (fun p => ?_) h
  split
  · exact tidy_scalarFault _ _ _ h
  · split
    · exact tidy_hold h
    · extract_lets s1
      have h1 : s1.tidy = true := tidy_atHome h
      split
      · next e => exact tidy_done (tidy_retryPending _ (tidy_contribute h1 e))
      · exact tidy_hold h1
      · exact tidy_scalarEcc _ _ h1
      · exact tidy_takeTrap _ _ h1

/-! ### The words of the shared operations -/

theorem tidies_execBrc (c : BitVec 4) (a b : BitVec 6) (o : BitVec 9) : Tidies s (execBrc c a b o s) := by
  refine tidies_issue fun s h => ?_
  split
  · exact tidy_jump _ h
  · exact tidy_done h

theorem tidies_execMset1 (d : BitVec 3) (ss : BitVec 6) : Tidies s (execMset1 d ss s) := by
  refine tidies_issue fun s h => ?_
  extract_lets i
  exact tidy_doneM _ _ h

theorem tidies_execMclr1 (d : BitVec 3) (ss : BitVec 6) : Tidies s (execMclr1 d ss s) := by
  refine tidies_issue fun s h => ?_
  extract_lets i
  exact tidy_doneM _ _ h

theorem tidies_execMload (d : BitVec 3) (ss : BitVec 6) : Tidies s (execMload d ss s) := by
  refine tidies_issue fun s h => ?_
  extract_lets a s1
  have h1 : s1.tidy = true := tidy_deferEcc _ _ _ h
  refine tidy_loadAccess _ _ _ _ (fun x0 => ?_) h
  split
  · exact tidy_done (tidy_update h1)
  · exact tidy_landMark _ _ h

theorem tidies_execGet (d n b : BitVec 6) (q : BitVec 1) : Tidies s (execGet d n b q s) := by
  refine tidies_issue fun s h => ?_
  extract_lets t
  exact tidy_getThread _ _ _ h

theorem tidies_execPut (d n b : BitVec 6) (q : BitVec 1) : Tidies s (execPut d n b q s) := by
  refine tidies_issue fun s h => ?_
  extract_lets r1 t
  split
  · split
    · exact tidy_done (tidy_update h)
    · split
      · exact tidy_done (tidy_update h)
      · exact tidy_done (tidy_update h)
  · exact tidy_takeTrap _ _ h

theorem tidies_execBlkacqW (a : BitVec 6) : Tidies s (execBlkacqW a s) := by
  refine tidies_issue fun s h => ?_
  extract_lets m src
  split
  · exact tidy_takeTrap _ _ h
  · split
    · exact tidy_done (tidy_update h)
    · exact tidy_park _ _ (tidy_update h)

theorem tidies_execBlkacqP (d a : BitVec 6) : Tidies s (execBlkacqP d a s) := by
  refine tidies_issue fun s h => ?_
  extract_lets m
  split
  · exact tidy_takeTrap _ _ h
  · split
    · exact tidy_doneS _ _ (tidy_update h)
    · exact tidy_doneS _ _ h

theorem tidies_execBlkrel (a : BitVec 6) : Tidies s (execBlkrel a s) := by
  refine tidies_issue fun s h => ?_
  extract_lets m
  split
  · exact tidy_takeTrap _ _ h
  · split
    · exact tidy_hold h
    · exact tidy_done (tidy_grantParked (tidy_update h))

theorem tidies_execPblk (m n : BitVec 3) (p : BitVec 8) : Tidies s (execPblk m n p s) := by
  refine tidies_issue fun s h => ?_
  extract_lets s1 src
  have h1 : s1.tidy = true := tidy_done h
  exact tidy_update h1

theorem tidies_execLds (z : BitVec 2) (o : BitVec 1) (d a : BitVec 6) (i : BitVec 9) : Tidies s (execLds z o d a i s) :=
    by
  refine tidies_issue fun s h => ?_
  extract_lets addr s1
  have h1 : s1.tidy = true := tidy_deferEcc _ _ _ h
  refine tidy_loadAccess _ _ _ _ (fun x0 => ?_) h
  split
  · refine tidy_done ?_
    split
    · exact h1
    · exact tidy_update h1
  · exact tidy_landScalar _ _ h

theorem tidies_execFence : Tidies s (execFence s) := by
  refine tidies_issue fun s h => ?_
  split
  · exact tidy_done h
  · exact tidy_hold h

theorem tidies_execWaitu (c : BitVec 3) (d a b : BitVec 6) (q x : BitVec 1) : Tidies s (execWaitu c d a b q x s) := by
  refine tidies_issue fun s h => ?_
  extract_lets size s1 y
  have h1 : s1.tidy = true := tidy_atHome h
  refine tidy_deviceAccess _ _ _ _ _ _ (fun x0 => ?_) h
  split
  · exact tidy_scalarEcc _ _ h1
  · split
    · exact tidy_doneS _ _ h1
    · split
      · exact tidy_doneS _ _ h1
      · split
        next e =>
          exact tidy_doneS _ _ h1
        next s2 e =>
          exact tidy_park _ _ (tidy_register _ _ e h1)

theorem tidies_execWacc (a b : BitVec 6) : Tidies s (execWacc a b s) := by
  refine tidies_issue fun s h => ?_
  refine tidy_relayAccess _ _ _ (fun s x1 x2 hs => ?_) h
  split
  · exact tidy_relayTrap _ hs
  · split
    · exact tidy_relayTrap _ hs
    · exact tidy_done (tidy_relayApply _ _ _ hs)

theorem tidies_execWaccq (a b : BitVec 6) : Tidies s (execWaccq a b s) := by
  refine tidies_issue fun s h => ?_
  refine tidy_relayAccess _ _ _ (fun s x1 x2 hs => ?_) h
  split
  · exact tidy_relayTrap _ hs
  · extract_lets i d r1
    split
    · exact tidy_relayTrap _ hs
    · split
      · exact tidy_takeTrap _ _ hs
      · split
        · exact tidy_hold hs
        · exact tidy_done (tidy_relayHeld _ _ (tidy_update hs))

theorem tidies_execWqry (d a : BitVec 6) : Tidies s (execWqry d a s) := by
  refine tidies_issue fun s h => ?_
  refine tidy_relayAccess _ _ _ (fun s x1 x2 hs => ?_) h
  split
  · exact tidy_relayTrap _ hs
  · exact tidy_doneS _ _ hs

theorem tidies_execWcfg (a b : BitVec 6) : Tidies s (execWcfg a b s) := by
  refine tidies_issue fun s h => ?_
  refine tidy_relayAccess _ _ _ (fun s x1 x2 hs => ?_) h
  extract_lets cfg op w free base s1
  have h1 : s1.tidy = true := tidy_releaseRelay _ hs
  split
  · exact tidy_relayTrap _ hs
  · split
    · exact tidy_done (tidy_configure _ _ (tidy_releaseRelay _ hs))
    · split
      · exact tidy_scalarFault _ _ _ hs
      · extract_lets r1
        exact tidy_done (tidy_configure _ _ (tidy_update h1))

theorem tidies_execWclr (a : BitVec 6) : Tidies s (execWclr a s) := by
  refine tidies_issue fun s h => ?_
  refine tidy_relayAccess _ _ _ (fun s x1 x2 hs => tidy_done (tidy_performGlobal _ _ _ (tidy_update ?_))) h
  exact tidy_update hs

theorem tidies_execWlen (d a : BitVec 6) : Tidies s (execWlen d a s) := by
  refine tidies_issue fun s h => ?_
  refine tidy_relayAccess _ _ _ (fun s x1 x2 hs => ?_) h
  split
  · exact tidy_relayTrap _ hs
  · exact tidy_doneS _ _ hs

theorem tidies_execHchain (q g : BitVec 6) (n : BitVec 1) : Tidies s (execHchain q g n s) := by
  refine tidies_issue fun s h => ?_
  extract_lets c
  split
  · exact tidy_opTrap _ h
  · split
    · exact tidy_hold h
    · exact tidy_queueHoist _ _ _ _ (tidy_atHome h)

theorem tidies_execHstop (q : BitVec 6) (n : BitVec 1) : Tidies s (execHstop q n s) := by
  refine tidies_issue fun s h => ?_
  extract_lets s1
  have h1 : s1.tidy = true := tidy_update h
  split
  · exact tidy_hold h1
  · exact tidy_done h1

theorem tidies_execHresume (q : BitVec 6) (n : BitVec 1) : Tidies s (execHresume q n s) := by
  refine tidies_issue fun s h => ?_
  extract_lets s1
  have h1 : s1.tidy = true := tidy_update h
  exact tidy_settleHoist _ (tidy_done h1)

theorem tidies_execMma (q g : BitVec 6) (f : BitVec 4) (n : BitVec 1) : Tidies s (execMma q g f n s) := by
  refine tidies_issue fun s h => ?_
  extract_lets x0 x1 x2 x3
  split
  · exact tidy_takeTrap _ _ h
  · split
    · exact tidy_mxTrap h
    · split
      · exact tidy_mxTrap h
      · split
        · exact tidy_takeTrap _ _ h
        · exact tidy_postWord _ _ _ _ _ _ h

theorem tidies_execMzero (q g : BitVec 6) (n : BitVec 1) : Tidies s (execMzero q g n s) := by
  refine tidies_issue fun s h => ?_
  extract_lets x
  split
  · exact tidy_mxTrap h
  · exact tidy_postWord _ _ _ _ _ _ h

theorem tidies_execMring (g : BitVec 6) : Tidies s (execMring g s) := by
  refine tidies_issue fun s h => ?_
  extract_lets ring out src
  refine tidy_placedAccess _ _ _ _ _ _ (fun x0 => ?_) h
  split
  · exact tidy_hold h
  · split
    · exact tidy_scalarEcc _ _ h
    · extract_lets w1
      split
      · exact tidy_mxTrap h
      · split
        · exact tidy_doneS _ _ h
        · exact tidy_doneS _ _ (tidy_update h)

theorem tidies_execMdetach : Tidies s (execMdetach s) := by
  refine tidies_issue fun s h => ?_
  split
  · exact tidy_done h
  · split
    · exact tidy_hold h
    · exact tidy_done (tidy_update h)

theorem tidies_execTktake (a : BitVec 6) : Tidies s (execTktake a s) := by
  refine tidies_issue fun s h => ?_
  refine tidy_tokenWord _ _ (fun x0 => ?_) h
  extract_lets cluster t known t1 s1
  have h1 : s1.tidy = true := tidy_putToken _ h
  split
  · exact tidy_done h
  · split
    · split
      · exact tidy_done h1
      · exact tidy_hold h1
    · refine tidy_hold ?_
      split
      · exact h
      · exact tidy_putToken _ h

theorem tidies_execTkgive (a : BitVec 6) : Tidies s (execTkgive a s) := by
  refine tidies_issue fun s h => ?_
  refine tidy_tokenWord _ _ (fun x0 => ?_) h
  split
  · split
    · exact tidy_done (tidy_putToken _ h)
    · exact tidy_tokenTrap _ h
  · exact tidy_tokenTrap _ h

theorem tidies_execTkqry (d a : BitVec 6) : Tidies s (execTkqry d a s) := by
  refine tidies_issue fun s h => ?_
  refine tidy_tokenWord _ _ (fun x0 => ?_) h
  extract_lets t who
  exact tidy_doneS _ _ h

theorem tidies_execPublish (a : BitVec 6) : Tidies s (execPublish a s) := by
  refine tidies_issue fun s h => ?_
  extract_lets va s1 src
  have h1 : s1.tidy = true := tidy_atHome h
  split
  · exact tidy_publishTrap _ h
  · split
    · exact tidy_hold h
    · exact tidy_update h1

theorem tidies_execPubset (a b : BitVec 6) : Tidies s (execPubset a b s) := by
  refine tidies_issue fun s h => ?_
  extract_lets addr
  refine tidy_scalarAccess _ _ _ _ _ _ (fun x0 => ?_) h
  split
  · exact tidy_scalarEcc _ _ h
  · extract_lets i
    split
    · exact tidy_takeTrap _ _ h
    · exact tidy_done (tidy_putEntry _ _ h)

theorem tidies_execSpawn (a : BitVec 6) : Tidies s (execSpawn a s) := by
  refine tidies_issue fun s h => ?_
  refine tidy_enqueueWord _ _ _ _ _ (fun s hs => tidy_done ?_) (fun s hs => tidy_done ?_)
    (fun s path hs => tidy_parkSpawn _ ?_) h
  · exact hs
  · exact hs
  · exact hs

theorem tidies_execSpawnNb (d a : BitVec 6) : Tidies s (execSpawnNb d a s) := by
  refine tidies_issue fun s h => ?_
  refine tidy_enqueueWord _ _ _ _ _ (fun s hs => tidy_doneS _ _ ?_) (fun s hs => tidy_done ?_)
    (fun s path hs => tidy_doneS _ _ ?_) h
  · exact hs
  · exact hs
  · exact hs

theorem tidies_execSpawng (a : BitVec 6) : Tidies s (execSpawng a s) := by
  refine tidies_issue fun s h => ?_
  refine tidy_enqueueWord _ _ _ _ _ (fun s hs => tidy_done ?_) (fun s hs => tidy_done ?_)
    (fun s path hs => tidy_parkSpawn _ ?_) h
  · exact hs
  · exact hs
  · exact hs

theorem tidies_execLaunch (d a : BitVec 6) : Tidies s (execLaunch d a s) := by
  refine tidies_issue fun s h => ?_
  refine tidy_enqueueWord _ _ _ _ _ (fun s hs => tidy_doneS _ _ ?_) (fun s hs => tidy_doneS _ _ ?_)
    (fun s path hs => tidy_doneS _ _ ?_) h
  · exact hs
  · exact hs
  · exact hs

theorem tidies_execBarc (a b : BitVec 6) : Tidies s (execBarc a b s) := by
  refine tidies_issue fun s h => ?_
  extract_lets addr n
  refine tidy_scalarAccess _ _ _ _ _ _ (fun x0 => tidy_releasing _ (fun s hs => ?_) h) h
  split
  · exact tidy_scalarEcc _ _ hs
  · extract_lets g c s1 e
    have h1 : s1.tidy = true := tidy_performNat _ _ _ _ hs
    split
    · exact tidy_done (tidy_performGlobal _ _ _ hs)
    · split
      next s2 e1 =>
        exact tidy_park _ _ (tidy_register _ _ e1 h1)
      next e1 =>
        exact tidy_park _ _ (tidy_update h1)

theorem tidies_execWrsys (d : BitVec 6) (n : BitVec 12) : Tidies s (execWrsys d n s) := by
  refine tidies_issue fun s h => ?_
  extract_lets v
  split
  · exact tidy_takeTrap _ _ h
  · split
    · exact tidy_takeTrap _ _ h
    · exact tidy_done (tidy_sysWrite _ _ h)

theorem tidies_execRte : Tidies s (execRte s) := by
  refine tidies_issue fun s h => ?_
  split
  · exact tidy_hold h
  · split
    · exact tidy_haltCrew _ _ h
    · split
      · exact tidy_haltCrew _ _ h
      · exact tidy_returnFromTrap h

theorem tidies_execMrd (q : BitVec 1) (d a : BitVec 7) (x : BitVec 6) : Tidies s (execMrd q d a x s) := by
  refine tidies_issue fun s h => ?_
  refine tidy_tileWord _ ?_ h
  extract_lets key
  split
  · exact tidy_takeTrap _ _ h
  · exact tidy_landLanes _ _ _ _ h

theorem tidies_execMwr (q : BitVec 1) (d a : BitVec 7) (y : BitVec 6) : Tidies s (execMwr q d a y s) := by
  refine tidies_issue fun s h => ?_
  refine tidy_tileWord _ ?_ h
  extract_lets key
  refine tidy_done (tidy_foldl _ (fun s1 x h => ?_) _ _ h)
  extract_lets v s2
  have h2 : s2.tidy = true := tidy_setTile _ _ h
  split
  · exact tidy_setTile _ _ h2
  · exact h2

theorem tidies_execShfl (q : BitVec 2) (d a b : BitVec 7) (m : BitVec 2) : Tidies s (execShfl q d a b m s) := by
  refine tidies_issue fun s h => ?_
  split
  · exact tidy_takeTrap _ _ h
  · exact tidy_laneFlagged _ _ h

theorem tidies_execLd (z : BitVec 2) (d a : BitVec 7) (q : BitVec 1) (f : BitVec 6) : Tidies s (execLd z d a q f s) :=
    by
  refine tidies_issue fun s h => ?_
  extract_lets n
  refine tidy_laneAccess _ _ _ _ (fun _ => tidy_laneUnless _ _ _ ?_ h) h
  extract_lets bad
  exact tidy_landLanes _ _ _ _ (tidy_reportPoison _ _ h)

theorem tidies_execSt (z : BitVec 2) (d a : BitVec 7) (q : BitVec 1) (f : BitVec 6) : Tidies s (execSt z d a q f s) :=
    by
  refine tidies_issue fun s h => ?_
  extract_lets n
  exact tidy_laneAccess _ _ _ _ (fun _ => tidy_laneUnless _ _ _ (tidy_done (tidy_queueStore _ _ h)) h) h

theorem tidies_execLdv (z : BitVec 2) (d a : BitVec 7) (f : BitVec 6) : Tidies s (execLdv z d a f s) := by
  refine tidies_issue fun s h => ?_
  extract_lets n s1
  have h1 : s1.tidy = true := tidy_performAll _ h
  refine tidy_laneAccess _ _ _ _ (fun _ => tidy_laneUnless _ _ _ ?_ h) h
  extract_lets bad
  exact tidy_landLanes _ _ _ _ (tidy_reportPoison _ _ h1)

theorem tidies_execStv (z : BitVec 2) (d a : BitVec 7) (f : BitVec 6) : Tidies s (execStv z d a f s) := by
  refine tidies_issue fun s h => ?_
  extract_lets n v
  refine tidy_laneAccess _ _ _ _ (fun x0 => ?_) h
  extract_lets l ctl vlt s1
  have h1 : s1.tidy = true := tidy_queueStore _ _ h
  split
  · exact tidy_done h1
  · split
    · exact tidy_hold h
    · exact tidy_bootStage (tidy_done (tidy_foldl _ (fun s1 x h => tidy_ctlStore _ _ _ _ h) _ _ (tidy_atHome h1))) h

theorem tidies_execRedq (q : BitVec 1) (d a b : BitVec 7) : Tidies s (execRedq q d a b s) := by
  refine tidies_issue fun s h => ?_
  refine tidy_laneAccess _ _ _ _ (fun _ => tidy_laneUnless _ _ _ ?_ h) h
  extract_lets l1 s1 src
  have h1 : s1.tidy = true := tidy_performAll _ h
  exact tidy_done (tidy_update h1)

/-! ### Every word -/

/-- Every word keeps the canonical form. -/
theorem exec_word_tidies {i : Instr} (hi : i.isWord = true) : Tidies s (exec i s) := by
  cases i
  case aluAdd | aluSub | aluAnd | aluOr | aluXor | aluAndn | aluShl | aluShr | aluSar | aluMul | aluMulhs |
      aluMulhz | aluMins | aluMaxs | aluMinz | aluMaxz | divs | divz | rems | remz | alxBfx | cmps =>
    exact tidies_of_arm (fun _ => rfl) fun _ => tidy_scalar2 _ _ _ _
  case aluiAddi | aluiSubi | aluiAndi | aluiOri | aluiXori | aluiAndni | aluiShli | aluiShri | aluiSari | aluiMuli
      | aluiMulhsi | aluiMulhzi | aluiMinsi | aluiMaxsi | aluiMinzi | aluiMaxzi =>
    exact tidies_of_arm (fun _ => rfl) fun _ => tidy_scalarI _ _ _ _
  case alxClz | alxPopc | alxBfi | alxMov | selnz | movw | movwk | cnt | first | next | rdepth | blkq | tfirst |
      trdy | pubqry | rdsys =>
    exact tidies_of_arm (fun _ => rfl) fun _ => tidy_doneS _ _
  case br | jr | ret => exact tidies_of_arm (fun _ => rfl) fun _ => tidy_jump _
  case call | callr => exact tidies_of_arm (fun _ => rfl) fun _ h => tidy_jump _ (tidy_link h)
  case srch | srcha | srchr => exact tidies_of_arm (fun _ => rfl) fun _ => tidy_search _ _ _ _ _ _ _
  case mand | mor | mxor | mandn | mnot | mcopy | mclr | mgetact | jarv =>
    exact tidies_of_arm (fun _ => rfl) fun _ => tidy_doneM _ _
  case mstore | sts =>
    exact tidies_of_arm (fun _ => rfl) fun _ h => tidy_storeAccess _ _ _ _ (fun _ => tidy_done (tidy_queueStore _ _ h)) h
  case getf => exact tidies_of_arm (fun _ => rfl) fun _ => tidy_getThread _ _ _
  case fenceA | fenceR | tclr | yield | setact | join | mpick =>
    exact tidies_of_arm (fun _ => rfl) fun _ h => tidy_done (tidy_update h)
  case ifence => exact tidies_of_arm (fun _ => rfl) fun _ h => tidy_done (tidy_performAll _ h)
  case twaitany | twaitall => exact tidies_of_arm (fun _ => rfl) fun _ => tidy_tagWait _ _
  case hcopy | hgath | hscat | hfill | hplane => exact tidies_of_arm (fun _ => rfl) fun _ => tidy_moveWord _ _
  case mfence => exact tidies_of_arm (fun _ => rfl) fun _ => tidy_postWord _ _ _ _ _ _
  case joindec | depdec => exact tidies_of_arm (fun _ => rfl) fun _ => tidy_decWord _ _
  case cred | cgath | cbcast => exact tidies_of_arm (fun _ => rfl) fun _ => tidy_collWord _ _
  case trap | bkpt => exact tidies_of_arm (fun _ => rfl) fun _ => tidy_takeTrap _ _
  case nop => exact tidies_of_arm (fun _ => rfl) fun _ => tidy_done
  case halt => exact tidies_of_arm (fun _ => rfl) fun _ => tidy_haltCrew _ _
  case ctxsave | ctxload => exact tidies_of_arm (fun _ => rfl) fun _ => tidy_contextWord _ _
  case add | sub | mul | mulh | addsat | subsat | min | max | and | or | xor | andn | shl | shr | sar | cmp | cmpz
      =>
    exact tidies_of_arm (fun _ => rfl) fun _ => tidy_lane2 _ _ _ _ _
  case addi | abs | neg | not | clz | popc | brev | mov | shli | shri | sari | andi | xori =>
    exact tidies_of_arm (fun _ => rfl) fun _ => tidy_lane1 _ _ _ _
  case mad => exact tidies_of_arm (fun _ => rfl) fun _ => tidy_lane3 _ _ _ _ _
  case movi | bcast | bfx | bfi | pack | unpk | spec =>
    exact tidies_of_arm (fun _ => rfl) fun _ => tidy_laneWrite _ _
  case fcmp | fadd | fsub | fmul | ffma | fmin | fmax | fabs | fneg | fflr | fceil | ftrunc | frint =>
    exact tidies_of_arm (fun _ => rfl) fun _ => tidy_laneFp _ _ _
  case frcp | frsq | fsqrt | fex2 | flg2 | fsin | fcos =>
    exact tidies_of_arm (fun _ => rfl) fun _ => tidy_sfu _ _ _ _
  case cvt | qscale | qscale8 | redl | scanl => exact tidies_of_arm (fun _ => rfl) fun _ => tidy_laneFlagged _ _
  case push | pushall => exact tidies_of_arm (fun _ => rfl) fun _ => tidy_pushAct _
  case pop | else_ =>
    exact tidies_of_arm (fun _ => rfl) fun _ h => tidy_topEntry _ (fun _ => tidy_done (tidy_update h)) h
  case lexit => exact tidies_of_arm (fun _ => rfl) fun _ h => tidy_done (tidy_leaveLive _ h)
  case rspill => exact tidies_execRspill _
  case rfill => exact tidies_execRfill _
  case exit => exact tidies_execExit
  case clause => exact tidies_execClause _ _ _ _
  case hprog => exact tidies_execHprog _ _
  case cstat => exact tidies_execCstat _ _
  case atoms => exact tidies_execAtoms _ _ _ _ _ _
  case atom => exact tidies_execAtom _ _ _ _ _
  case redqs => exact tidies_execRedqs _ _ _ _
  case brc => exact tidies_execBrc _ _ _ _
  case mset1 => exact tidies_execMset1 _ _
  case mclr1 => exact tidies_execMclr1 _ _
  case mload => exact tidies_execMload _ _
  case get => exact tidies_execGet _ _ _ _
  case put => exact tidies_execPut _ _ _ _
  case blkacqW => exact tidies_execBlkacqW _
  case blkacqP => exact tidies_execBlkacqP _ _
  case blkrel => exact tidies_execBlkrel _
  case pblk => exact tidies_execPblk _ _ _
  case lds => exact tidies_execLds _ _ _ _ _
  case fence => exact tidies_execFence
  case waitu => exact tidies_execWaitu _ _ _ _ _ _
  case wacc => exact tidies_execWacc _ _
  case waccq => exact tidies_execWaccq _ _
  case wqry => exact tidies_execWqry _ _
  case wcfg => exact tidies_execWcfg _ _
  case wclr => exact tidies_execWclr _
  case wlen => exact tidies_execWlen _ _
  case hchain => exact tidies_execHchain _ _ _
  case hstop => exact tidies_execHstop _ _
  case hresume => exact tidies_execHresume _ _
  case mma => exact tidies_execMma _ _ _ _
  case mzero => exact tidies_execMzero _ _ _
  case mring => exact tidies_execMring _
  case mdetach => exact tidies_execMdetach
  case tktake => exact tidies_execTktake _
  case tkgive => exact tidies_execTkgive _
  case tkqry => exact tidies_execTkqry _ _
  case publish => exact tidies_execPublish _
  case pubset => exact tidies_execPubset _ _
  case spawn => exact tidies_execSpawn _
  case spawnNb => exact tidies_execSpawnNb _ _
  case spawng => exact tidies_execSpawng _
  case launch => exact tidies_execLaunch _ _
  case barc => exact tidies_execBarc _ _
  case wrsys => exact tidies_execWrsys _ _
  case rte => exact tidies_execRte
  case mrd => exact tidies_execMrd _ _ _ _
  case mwr => exact tidies_execMwr _ _ _ _
  case shfl => exact tidies_execShfl _ _ _ _ _
  case ld => exact tidies_execLd _ _ _ _ _
  case st => exact tidies_execSt _ _ _ _ _
  case ldv => exact tidies_execLdv _ _ _ _
  case stv => exact tidies_execStv _ _ _ _
  case redq => exact tidies_execRedq _ _ _ _
  all_goals exact absurd hi Bool.false_ne_true

end Sys2Proof.Proofs

end

section
/-!
PROOFS. The operations of events keep memory, the vaults and the tiles in canonical form (MEMORY, log 5).
-/

namespace Sys2Proof.Proofs
open Sys2Proof Sys2Proof.Machine

set_option Elab.async false

variable {s : State}

/-- A change of the vaults alone that keeps their form. -/
theorem tidy_changeVault {t : State} (h : s.tidy = true) (k : tidy 0 s.vault = true → tidy 0 t.vault = true)
    (hm : t.mem = s.mem := by rfl) (ht : t.tiles = s.tiles := by rfl) : t.tidy = true := by
  obtain ⟨hmem, hvault, htiles⟩ := (tidy_iff s).1 h
  exact (tidy_iff t).2 ⟨hm ▸ hmem, k hvault, ht ▸ htiles⟩

/-- A change of the tiles alone that keeps their form. -/
theorem tidy_changeTiles {t : State} (h : s.tidy = true) (k : tidy 0 s.tiles = true → tidy 0 t.tiles = true)
    (hm : t.mem = s.mem := by rfl) (hv : t.vault = s.vault := by rfl) : t.tidy = true := by
  obtain ⟨hmem, hvault, htiles⟩ := (tidy_iff s).1 h
  exact (tidy_iff t).2 ⟨hm ▸ hmem, hv ▸ hvault, k htiles⟩


theorem tidy_performOldest (h : s.tidy = true) : (performOldest s).tidy = true := by
  unfold performOldest
  split
  · exact h
  · split
    · exact tidy_update h
    · extract_lets s1 src
      have h1 : s1.tidy = true := tidy_performOf _ _ _ h
      split
      · exact tidy_update h1
      · exact tidy_update h1

theorem tidy_stayParked (uid : Nat) (path : List Nat) (h : s.tidy = true) : (stayParked s uid path).tidy = true :=
  tidy_update h

theorem tidy_retrySaved (v : SavedContext) (c : Crew) (h : s.tidy = true) : (retrySaved s v c).tidy = true := by
  have h1 : (putSave0 (enqueueResume s c.gid) c.uid).tidy = true := tidy_putSave0 _ _ (tidy_enqueueResume _ _ h)
  unfold retrySaved
  extract_lets resume t
  split
  · split
    · exact tidy_stayParked _ _ h
    · exact h1
  · exact h1

theorem tidy_retrySpawn (q : SpawnWait) (h : s.tidy = true) : (retrySpawn s q).tidy = true := by
  unfold retrySpawn
  extract_lets gone
  split
  · split
    · exact tidy_update h
    · exact tidy_retrySaved _ _ h
  · refine tidy_inFocus _ _ _ h (fun s h => ?_)
    split
    · exact tidy_takeTrap _ _ (tidy_update h)
    · exact tidy_update (tidy_update h)
    · split
      next e =>
        exact tidy_stayParked _ _ h
      next s1 e =>
        exact tidy_putSave0 _ _ (tidy_done (tidy_update (tidy_taskEnqueue _ _ e h)))
      next e =>
        exact tidy_takeTrap _ _ (tidy_update h)
      next e =>
        exact tidy_takeTrap _ _ (tidy_update h)
      next e =>
        exact tidy_takeTrap _ _ (tidy_update h)
      next e =>
        exact h

theorem tidy_retrySpawns (path : List Nat) (h : s.tidy = true) : (retrySpawns s path).tidy = true := by
  unfold retrySpawns
  exact tidy_foldl _ (fun s x h => tidy_retrySpawn _ h) _ _ h

theorem tidy_retryFallen (h : s.tidy = true) : (retryFallen s).tidy = true := tidy_retrySpawns _ (tidy_update h)

theorem tidy_settleMoves (h : s.tidy = true) : (settleMoves s).tidy = true :=
  tidy_foldl _ (fun s m h => tidy_setPool _ _ h) _ _ (tidy_update h)

theorem tidy_syncQueue (q : Record) (h : s.tidy = true) : (syncQueue s q).tidy = true := by
  unfold syncQueue
  split
  · exact h
  · extract_lets ahead least
    split
    · exact h
    · exact tidy_performNat _ _ _ _ h

theorem tidy_unqueue (c : Candidate) (h : s.tidy = true) : (unqueue s c).tidy = true := by
  unfold unqueue
  extract_lets mine
  exact tidy_syncQueue _ (tidy_update h)

theorem tidy_bindHalf (vbase asn : Nat) (h : s.tidy = true) : (bindHalf s vbase asn).tidy = true := by
  unfold bindHalf
  extract_lets key
  split
  · exact h
  · exact tidy_changeVault h fun hv => tidy_filter 0 _ _ hv

theorem tidy_markSaves (q : Record) (saves : List Word) (x : Nat) (h : s.tidy = true) :
    (markSaves s q saves x).tidy = true := by
  unfold markSaves
  refine tidy_foldl _ (fun s a h => ?_) _ _ h
  split
  · exact h
  · exact tidy_performNat _ _ _ _ h

theorem tidy_placeNew (c : Candidate) (core vbase : Nat) (h : s.tidy = true) : (placeNew s c core vbase).tidy = true := by
  unfold placeNew
  extract_lets q saves gid slot slots g s1 src s2
  have h1 : s1.tidy = true := by
    unfold s1
    refine tidy_unqueue _ ?_
    split
    · exact h
    · exact tidy_bindHalf _ _ h
  have h2 : s2.tidy = true := tidy_update h1
  exact tidy_syncPath _ (tidy_markSaves _ _ _ h2)

theorem tidy_fillGranules (vbase vgran : Nat) (l : Sparse Byte) (h : s.tidy = true) :
    (fillGranules s vbase vgran l).tidy = true := by
  unfold fillGranules
  extract_lets s1
  have h1 : s1.tidy = true := tidy_changeVault h fun hv => tidy_filter 0 _ _ hv
  exact tidy_foldl _ (fun s e h => tidy_changeVault h fun hv => tidy_store 0 _ _ _ hv) _ _ h1

theorem tidy_resumeTagWaits (l : List Crew) (h : s.tidy = true) : (resumeTagWaits s l).tidy = true :=
  tidy_foldl _ (fun _ _ h => tidy_resumeTags _ h) _ _ h

theorem tidy_putSaves (l : List Crew) (h : s.tidy = true) : (putSaves s l).tidy = true :=
  tidy_foldl _ (fun _ _ h => tidy_putSave0 _ _ h) _ _ h

theorem tidy_notify (g : Gallery) (h : s.tidy = true) : (notify s g).tidy = true := by
  unfold notify
  split
  · exact tidy_regionFault _ _ _ h
  · exact h

theorem tidy_restoreImage (v : SavedContext) (core vbase : Nat)
    (h : s.tidy = true) : (restoreImage s v core vbase).tidy = true := by
  unfold restoreImage
  extract_lets slot slots src g cs s1 s2 s3
  have h1 : s1.tidy = true := by
    unfold s1
    split
    · exact h
    · exact tidy_fillGranules _ _ _ (tidy_bindHalf _ _ h)
  have h2 : s2.tidy = true := tidy_update h1
  have h3 : s3.tidy = true := tidy_resumeTagWaits _ (tidy_putSaves _ h2)
  split
  · exact tidy_notify _ (tidy_syncPath _ h3)
  · exact tidy_syncPath _ h3

theorem tidy_placeResume (c : Candidate) (gid core vbase : Nat) (h : s.tidy = true) :
    (placeResume s c gid core vbase).tidy = true := by
  unfold placeResume
  extract_lets s1
  have h1 : s1.tidy = true := tidy_unqueue _ h
  split
  · exact h1
  · split
    · exact tidy_regionFault _ _ _ h1
    · exact tidy_restoreImage _ _ _ h1

theorem tidy_place (c : Candidate) (core vbase : Nat) (h : s.tidy = true) : (place s c core vbase).tidy = true := by
  unfold place
  extract_lets s1
  have h1 : s1.tidy = true := by
    unfold s1
    split
    · exact tidy_placeNew _ _ _ h
    · exact tidy_placeResume _ _ _ _ h
  exact tidy_retrySpawns _ h1

theorem tidy_drainCrew (uid : Nat) (h : s.tidy = true) : (drainCrew s uid).tidy = true :=
  tidy_inFocus _ _ _ h (fun _ h => tidy_drain _ h)

theorem tidy_drainGallery (gid : Nat) (h : s.tidy = true) : (drainGallery s gid).tidy = true :=
  tidy_foldl _ (fun _ _ h => tidy_drainCrew _ h) _ _ h

theorem tidy_writeContext (g : Gallery) (c : Crew) (h : s.tidy = true) : (writeContext s g c).tidy = true := by
  unfold writeContext
  extract_lets put here s1 s2 s3 s4 s5
  have h1 : s1.tidy = true := by
    unfold s1
    split
    · exact tidy_saveWrite _ _ _ _ _ h
    · exact tidy_saveWrite _ _ _ _ _ (tidy_saveWrite _ _ _ _ _ (tidy_saveWrite _ _ _ _ _ (tidy_saveWrite _ _ _ _ _ h)))
  have h2 : s2.tidy = true := tidy_saveWrite _ _ _ _ _ (tidy_saveWrite _ _ _ _ _ h1)
  have h3 : s3.tidy = true := tidy_saveWrite _ _ _ _ _ h2
  have h4 : s4.tidy = true := tidy_saveWrite _ _ _ _ _ h3
  have h5 : s5.tidy = true := tidy_saveWrite _ _ _ _ _ (tidy_saveWrite _ _ _ _ _ h4)
  exact tidy_saveWrite _ _ _ _ _ h5

theorem tidy_awayFrom (gid : Nat) (h : s.tidy = true) : (awayFrom s gid).tidy = true := by
  unfold awayFrom
  split
  · exact h
  · split
    · exact h
    · exact tidy_focus _ _ h

theorem tidy_unbindHalf (vgran vbase : Nat) (h : s.tidy = true) : (unbindHalf s vgran vbase).tidy = true := by
  unfold unbindHalf
  extract_lets key
  split
  · exact h
  · exact tidy_update h

theorem tidy_removeGallery (g : Gallery) (h : s.tidy = true) : (removeGallery s g).tidy = true := by
  unfold removeGallery
  extract_lets s1 s2
  have h1 : s1.tidy = true := tidy_awayFrom _ h
  have h2 : s2.tidy = true := tidy_update h1
  exact tidy_unbindHalf _ _ h2

theorem tidy_saveImage (g : Gallery) (image : Nat) (pages : List Nat) (pooled : Bool) (h : s.tidy = true) :
    (saveImage s g image pages pooled).tidy = true := by
  unfold saveImage
  extract_lets pa cs mine s1 v s2 s3 s4
  have h1 : s1.tidy = true := tidy_foldl _ (fun s c h => tidy_writeContext _ _ h) _ _ h
  have h2 : s2.tidy = true := tidy_removeGallery _ h1
  have h3 : s3.tidy = true := tidy_update h2
  have h4 : s4.tidy = true := by
    unfold s4
    split
    · exact tidy_enqueueResume _ _ h3
    · exact h3
  exact tidy_notify _ (tidy_syncPath _ (tidy_putSaves _ h4))

theorem tidy_writeImage (pages : List Nat) (h : s.tidy = true) : (writeImage s pages).tidy = true :=
  tidy_update (tidy_foldl _ (fun t x h => tidy_putBytes _ _ _ h) _ _ h)

theorem tidy_swapOut (g : Gallery) (h : s.tidy = true) : (swapOut s g).tidy = true := by
  have h1 : (drainGallery s g.gid).tidy = true := tidy_drainGallery _ h
  unfold swapOut
  dsimp only
  generalize drainGallery s g.gid = s1 at h1 ⊢
  cases s1.gal? g.gid with
  | none => exact h
  | some g1 =>
    cases imagePlace s1 g with
    | none => exact h
    | some a =>
      dsimp only
      split
      · exact h
      · exact tidy_saveImage _ _ _ _ (tidy_writeImage _ h1)

theorem tidy_swapFor {t : State} (part : Nat) (e : swapFor s part = some t) (h : s.tidy = true) : t.tidy = true := by
  unfold swapFor at e
  obtain ⟨g, -, rfl⟩ := Option.map_eq_some_iff.1 e
  exact tidy_swapOut _ h

theorem tidy_placementDecision (part : Nat) (h : s.tidy = true) : (placementDecision s part).tidy = true := by
  unfold placementDecision
  extract_lets s1 core s2 order
  have h1 : s1.tidy = true := tidy_retryFallen (tidy_settleMoves h)
  have h2 : s2.tidy = true := by
    unfold s2
    cases core with
    | none => exact h1
    | some k => exact tidy_update h1
  split
  · exact h2
  · split
    · exact tidy_place _ _ _ h2
    · split
      · exact tidy_place _ _ _ h2
      · cases e : swapFor s2 part with
        | none => exact h2
        | some t => exact tidy_swapFor _ e h2

/-! ### Completion -/

theorem tidy_completionEcc (g : Gallery) (q : Record) (addr : Word) (pos : Nat) (h : s.tidy = true) :
    (completionEcc s g q addr pos).tidy = true := by
  unfold completionEcc
  extract_lets c
  exact tidy_regionFault _ _ _ h

theorem tidy_underflow (g : Gallery) (q : Record) (cell : Word) (pos : Nat) (h : s.tidy = true) :
    (underflow s g q cell pos).tidy = true := by
  unfold underflow
  extract_lets c
  exact tidy_regionFault _ _ _ h

theorem tidy_completeDec (g : Gallery) (q : Record) (cell : Word) (pos : Nat) (h : s.tidy = true) :
    (completeDec s g q cell pos).tidy = true := by
  unfold completeDec
  split
  · exact h
  · split
    · exact tidy_completionEcc _ _ _ _ h
    · split
      · exact tidy_underflow _ _ _ _ h
      · next e => exact tidy_decCell _ _ _ _ e h

theorem tidy_completeSuccs (g : Gallery) (q : Record) (n : Nat) : ∀ {s : State} (i : Nat), s.tidy = true →
    (completeSuccs g q n i s).tidy = true := by
  induction n with
  | zero => exact fun i h => h
  | succ n ih =>
    intro s i h
    unfold completeSuccs
    split
    · exact h
    · extract_lets a
      split
      · exact tidy_completionEcc _ _ _ _ h
      · split
        · exact h
        · exact ih _ (tidy_completeDec _ _ _ _ h)

theorem tidy_completeRecord (g : Gallery) (q : Record) (h : s.tidy = true) :
    (completeRecord s g q).tidy = true := by
  unfold completeRecord
  extract_lets s1 s2 s3
  have h1 : s1.tidy = true := tidy_completeDec _ _ _ _ h
  have h2 : s2.tidy = true := by
    unfold s2
    split
    · exact h1
    · exact tidy_completeSuccs _ _ _ _ h1
  have h3 : s3.tidy = true := tidy_completeDec _ _ _ _ h2
  split
  · exact h3
  · split
    · exact tidy_performNat _ _ _ _ h3
    · exact h3

theorem tidy_retireGallery (g : Gallery) (h : s.tidy = true) : (retireGallery s g).tidy = true := by
  unfold retireGallery
  extract_lets cs mine s1 s2
  have h1 : s1.tidy = true := tidy_removeGallery _ h
  have h2 : s2.tidy = true := tidy_update h1
  exact tidy_syncPath _ (tidy_markSaves _ _ _ h2)

theorem tidy_completeGallery (g : Gallery) (h : s.tidy = true) : (completeGallery s g).tidy = true := by
  unfold completeGallery
  extract_lets rs s1
  have h1 : s1.tidy = true := by
    unfold s1
    split
    · exact h
    · exact tidy_foldl _ (fun s r h => tidy_completeRecord _ _ h) _ _ h
  exact tidy_retireGallery _ h1

/-! ### Hoist chunks and matrix passes -/

theorem tidy_rowReads (k : Client) (vs : Bool) (n : Nat) (l : List Nat) : ∀ {s t : State} {out : List (List Byte)},
    rowReads k vs n l s = .ok (t, out) → s.tidy = true → t.tidy = true := by
  induction l with
  | nil =>
    intro s t out e h
    cases e
    exact h
  | cons a l ih =>
    intro s t out e h
    rw [rowReads] at e
    split at e
    · cases e
    · next e1 =>
      split at e
      · cases e
      · next e2 =>
        cases e
        exact ih e2 (tidy_engRead _ _ _ _ e1 h)

theorem tidy_planeReads {t : State} {ws : List (Nat × List Byte)} (k : Client) (o : HoistOp) (i : Nat)
    (e : planeReads s k o i = .ok (t, ws)) (h : s.tidy = true) : t.tidy = true := by
  unfold planeReads at e
  dsimp only at e
  generalize (if o.fmt = 1 then _ else _ : List Nat) = addrs at e
  split at e
  · cases e
  · next e1 =>
    cases e
    exact tidy_rowReads _ _ _ _ e1 h

theorem tidy_indexedReads (k : Client) (o : HoistOp) (l : List (Nat × Nat × Nat)) : ∀ {s t : State} {n : Nat}
    {ws : List (Nat × List Byte)}, indexedReads k o l n s = .ok (t, ws) → s.tidy = true → t.tidy = true := by
  induction l with
  | nil =>
    intro s t n ws e h
    cases e
    exact h
  | cons x l ih =>
    intro s t n ws e h
    unfold indexedReads at e
    split at e
    · cases e
    next e1 =>
    dsimp only at e
    split at e
    · cases e
    next e2 =>
    split at e
    · cases e
    next e3 =>
    cases e
    exact ih e3 (tidy_engRead _ _ _ _ e2 (tidy_engRead _ _ _ _ e1 h))

theorem tidy_chunkReads {t : State} {ws : List (Nat × List Byte)} (k : Client) (o : HoistOp) (i : Nat)
    (e : chunkReads s k o i = .ok (t, ws)) (h : s.tidy = true) : t.tidy = true := by
  unfold chunkReads at e
  dsimp only at e
  split at e
  · split at e
    · cases e
    · next e1 =>
      cases e
      exact tidy_engRead _ _ _ _ e1 h
  split at e
  · cases e
    exact h
  split at e
  · exact tidy_planeReads _ _ _ e h
  split at e
  · cases e
  · next e1 =>
    have h1 := tidy_indexedReads _ _ _ e1 h
    split at e <;> cases e
    · exact tidy_update h1
    · exact h1

theorem tidy_runChunk {t : State} (k : Client) (o : HoistOp) (i : Nat) (e : runChunk s k o i = .ok t)
    (h : s.tidy = true) : t.tidy = true := by
  unfold runChunk at e
  split at e
  · cases e
  · next e1 => exact tidy_engWrite _ _ _ e (tidy_chunkReads _ _ _ e1 h)

theorem tidy_endMx (m : MxCmd) (h : s.tidy = true) : (endMx s m).tidy = true := by
  unfold endMx
  extract_lets s1 s2
  have h1 : s1.tidy = true := tidy_update h
  have h2 : s2.tidy = true := by
    unfold s2
    split
    · exact h1
    · exact tidy_crewFault _ _ _ h1
  exact tidy_completeTag _ _ _ h2

theorem tidy_passTokens (h : s.tidy = true) : (passTokens s).tidy = true := tidy_update h

theorem tidy_settleMx (h : s.tidy = true) : (settleMx s).tidy = true := by
  unfold settleMx
  extract_lets s1
  have h1 : s1.tidy = true := by
    unfold s1
    refine tidy_foldl _ (fun s m0 h => ?_) _ _ h
    split
    · exact h
    · split
      · exact tidy_endMx _ h
      · exact h
  exact tidy_settleExits (tidy_passTokens h1)

theorem tidy_dropScales (e : RingEntry) (slot : Nat) (h : s.tidy = true) : (dropScales s e slot).tidy = true :=
  tidy_update h

theorem tidy_takeSlot (pa cons : Nat) (h : s.tidy = true) : (takeSlot s pa cons).tidy = true :=
  tidy_performNat _ _ _ _ h

theorem tidy_skipSlot (e : RingEntry) (pa cons : Nat) (cause : Cause) (addr : Word) (tag : Option (BitVec 6))
    (h : s.tidy = true) :
    (skipSlot s e pa cons cause addr tag).tidy = true := by
  unfold skipSlot
  extract_lets s1
  have h1 : s1.tidy = true := tidy_dropScales _ _ (tidy_takeSlot _ _ h)
  exact tidy_completeTag _ _ _ (tidy_crewFault _ _ _ h1)

theorem tidy_scalesOf (x : RingEntry) (slot : Nat) (h : s.tidy = true) : (scalesOf s x slot).2.tidy = true := by
  unfold scalesOf
  split
  · exact tidy_update h
  · exact tidy_update h

theorem tidy_admitRecord (x : RingEntry) (pa cons : Nat) (slotVa : Word) (bs : List Byte) (h : s.tidy = true) :
    (admitRecord s x pa cons slotVa bs).tidy = true := by
  have h1 : (takeSlot s pa cons).tidy = true := tidy_takeSlot _ _ h
  have h2 : (if (img bs 0 15 1 == 1) = true then scalesOf (takeSlot s pa cons) x cons
      else ([], takeSlot s pa cons)).2.tidy = true := by
    split
    · exact tidy_scalesOf _ _ h1
    · exact h1
  unfold admitRecord
  dsimp only
  exact tidy_update h2

theorem tidy_lookAtRing (e : RingEntry) (h : s.tidy = true) : (lookAtRing s e).tidy = true := by
  unfold lookAtRing
  extract_lets k
  split
  · exact h
  · split
    · exact h
    · exact tidy_crewFault _ _ _ (tidy_update h)
    · extract_lets slotVa
      split
      · exact h
      · extract_lets head bs kind
        split
        · exact h
        · split
          · exact tidy_skipSlot _ _ _ _ _ _ h
          · split
            · exact tidy_skipSlot _ _ _ _ _ _ h
            · split
              · exact tidy_skipSlot _ _ _ _ _ _ h
              · split
                · exact h
                · exact tidy_admitRecord _ _ _ _ _ h

theorem tidy_onMx (id : Nat) (f : MxCmd → MxCmd) (h : s.tidy = true) : (onMx s id f).tidy = true := tidy_update h

theorem tidy_chargeCluster (cluster n : Nat) (h : s.tidy = true) : (chargeCluster s cluster n).tidy = true := by
  unfold chargeCluster
  split
  · exact h
  · extract_lets r1
    exact tidy_update h

theorem tidy_readPlanes {t : State} {out : List (List Byte)} (k : Client) (kind addr row n : Nat)
    (e : readPlanes s k kind addr row n = .ok (t, out)) (h : s.tidy = true) : t.tidy = true := tidy_rowReads _ _ _ _ e h

theorem tidy_runPass {t : State} (m : MxCmd) (n : Nat) (e : runPass s m n = .ok t) (h : s.tidy = true) :
    t.tidy = true := by
  unfold runPass at e
  extract_lets strip block key k size first at e
  split at e
  · obtain rfl := Except.ok.inj e
    exact tidy_foldl _ (fun _ _ h => tidy_setTile _ _ h) _ _ h
  split at e
  · cases e
  next e1 =>
  split at e
  · cases e
  next e2 =>
  have h2 := tidy_readPlanes _ _ _ _ _ e2 (tidy_readPlanes _ _ _ _ _ e1 h)
  split at e
  · cases e
  obtain rfl := Except.ok.inj e
  exact tidy_foldl _ (fun _ _ h => tidy_setTile _ _ h) _ _ h2

theorem tidy_flip (part idx : Nat) (h : s.tidy = true) : (Machine.flip s part idx).tidy = true := tidy_update h

/-! ### Context jobs and teardowns -/

theorem tidy_finishJob (j : CtxJob) (status : Nat) (h : s.tidy = true) : (finishJob s j status).tidy = true := by
  unfold finishJob
  extract_lets s1 s2
  have h1 : s1.tidy = true := tidy_update h
  have h2 : s2.tidy = true := tidy_performNat _ _ _ _ (tidy_performNat _ _ _ _ h1)
  exact tidy_onCrew _ _ _ h2

theorem tidy_loseContext (v : SavedContext) (h : s.tidy = true) : (loseContext s v).tidy = true :=
  tidy_regionFault _ _ _ h

theorem tidy_readmit (cluster : Nat) (m : MxCmd) (h : s.tidy = true) : (readmit cluster s m).tidy = true := by
  unfold readmit
  extract_lets entry
  exact tidy_update h

theorem tidy_attachRing (cluster : Nat) (e : RingEntry) (h : s.tidy = true) :
    (attachRing cluster s e).tidy = true := by
  unfold attachRing
  split
  · exact h
  · exact tidy_update h

theorem tidy_putWork (v : SavedContext) (core : Nat) (h : s.tidy = true) : (putWork s v core).tidy = true := by
  unfold putWork
  extract_lets cluster s1 s2 tiles s3
  have h1 : s1.tidy = true := by
    unfold s1
    refine tidy_foldl _ (fun s x h => ?_) _ _ (tidy_foldl _ (fun s x h => ?_) _ _ h)
    · exact tidy_readmit _ _ h
    · exact tidy_attachRing _ _ h
  have h2 : s2.tidy = true := tidy_update h1
  have h3 : s3.tidy = true := tidy_changeTiles h2 fun ht => tidy_filter 0 _ _ ht
  exact tidy_changeTiles h3 fun ht => tidy_foldl_store 0 _ _ _ _ ht

theorem tidy_restoreShadow {t : State} (v : SavedContext) (e : restoreShadow s v = some t) (h : s.tidy = true) :
    t.tidy = true := by
  unfold restoreShadow at e
  dsimp only at e
  split at e
  · cases e
  split at e
  · cases e
    exact tidy_syncPath _ (tidy_resumeTagWaits _ (tidy_putSaves _ (tidy_putWork _ _ (tidy_update h))))
  · cases e

theorem tidy_restoreAll (l : List SavedContext) : ∀ {s t : State},
    restoreAll l s = some t → s.tidy = true → t.tidy = true := by
  induction l with
  | nil =>
    intro s t e h
    cases e
    exact h
  | cons v l ih =>
    intro s t e h
    rw [restoreAll] at e
    split at e
    · cases e
    · next e1 =>
      exact ih e (tidy_restoreShadow v e1 h)

theorem tidy_loadJob (j : CtxJob) (h : s.tidy = true) : (loadJob s j).tidy = true := by
  unfold loadJob
  extract_lets part vs lost
  split
  · exact tidy_finishJob _ _ h
  split
  · split
    · exact tidy_finishJob _ _ h
    split
    · exact tidy_finishJob _ _ (tidy_foldl _ (fun _ _ h => tidy_loseContext _ h) _ _ h)
    split
    · exact tidy_finishJob _ _ h
    · next e =>
      exact tidy_finishJob _ _ (tidy_restoreAll _ e h)
  · split
    · exact tidy_finishJob _ _ h
    next v e =>
    split
    · exact tidy_finishJob _ _ (tidy_loseContext _ h)
    split
    · exact tidy_finishJob _ _ h
    split
    · exact tidy_finishJob _ _ h
    · exact tidy_finishJob _ _ (tidy_restoreImage _ _ _ (tidy_dropUnplaced _ h))

theorem tidy_setTiles (base : Nat) (x : Nat → BitVec 32) (n : Nat) (l : List Nat) (h : s.tidy = true) :
    State.tidy { l.foldl (fun t k => setTile t (base + k) (x k)) s with fresh := n } = true :=
  tidy_update (tidy_foldl _ (fun _ _ h => tidy_setTile _ _ h) _ _ h)

theorem tidy_spoilTile (cluster tile : Nat) (h : s.tidy = true) : (spoilTile s cluster tile).tidy = true :=
  tidy_setTiles _ _ _ _ h

theorem tidy_takeWork (g : Gallery) (h : s.tidy = true) : (takeWork s g).2.tidy = true :=
  tidy_passTokens (tidy_foldl _ (fun _ _ h => tidy_spoilTile _ _ h) _ _ (tidy_update h))

theorem tidy_saveShadow (g0 : Gallery) (h : s.tidy = true) : (saveShadow s g0).tidy = true := by
  unfold saveShadow
  split
  · exact h
  · next g _ =>
    have h0 : ((s.allCrews.filter (·.gid == g.gid)).foldl (fun s c => writeContext s g c) s).tidy = true :=
      tidy_foldl _ (fun _ _ h => tidy_writeContext _ _ h) _ _ h
    dsimp only
    generalize (s.allCrews.filter (·.gid == g.gid)).foldl (fun s c => writeContext s g c) s = s0 at h0 ⊢
    have h1 : (awayFrom (takeWork s0 g).2 g.gid).tidy = true := tidy_awayFrom _ (tidy_takeWork _ h0)
    exact tidy_putSaves _ (tidy_syncPath _ (tidy_update h1))

theorem tidy_saveToImage (j : CtxJob) (g : Gallery) (h : s.tidy = true) : (saveToImage s j g).tidy = true := by
  unfold saveToImage
  extract_lets mine
  split
  · exact tidy_finishJob _ _ h
  · split
    · exact tidy_finishJob _ _ h
    · exact tidy_finishJob _ _ (tidy_saveImage _ _ _ _ (tidy_writeImage _ h))

theorem tidy_migrate {t : State} (g : Gallery) (target : Nat) (e : migrate s g target = some t) (h : s.tidy = true) :
    t.tidy = true := by
  have h0 : ((s.allCrews.filter (·.gid == g.gid)).foldl (fun s c => writeContext s g c) s).tidy = true :=
    tidy_foldl _ (fun _ _ h => tidy_writeContext _ _ h) _ _ h
  unfold migrate at e
  dsimp only at e
  generalize (s.allCrews.filter (·.gid == g.gid)).foldl (fun s c => writeContext s g c) s = s0 at h0 e
  generalize hq : (if (clusterOf g.core == clusterOf target) = true then
      (({ (takeWork s0 g).1 with mx := [], tokens := [], rings := [], tiles := [], badTiles := [] } : SavedContext),
        { s0 with hoist := s0.hoist.filter fun h => !isOf s0 g.gid h.uid }) else takeWork s0 g) = q at e
  obtain ⟨v, s1⟩ := q
  have h1 : s1.tidy = true := by
    split at hq <;> cases hq
    · exact tidy_update h0
    · exact tidy_takeWork _ h0
  split at e
  · cases e
  split at e
  · cases e
  · cases e
    have h2 : (removeGallery s1 g).tidy = true := tidy_removeGallery _ h1
    refine tidy_notify _ (tidy_syncPath _ (tidy_putWork _ _ (tidy_update ?_)))
    split
    · exact h2
    · exact tidy_fillGranules _ _ _ (tidy_bindHalf _ _ h2)

theorem tidy_saveJob (j : CtxJob) (h : s.tidy = true) : (saveJob s j).tidy = true := by
  unfold saveJob
  extract_lets gs s1 target
  have h1 : s1.tidy = true := tidy_foldl _ (fun s g h => tidy_drainGallery _ h) _ _ h
  split
  · exact tidy_finishJob _ _ h
  split
  · exact tidy_finishJob _ _ h
  split
  · exact tidy_finishJob _ _ h
  split
  · exact h
  split
  · exact h1
  split
  · exact tidy_finishJob _ _ (tidy_foldl _ (fun _ _ h => tidy_saveShadow _ h) _ _ h1)
  split
  · exact tidy_finishJob _ _ h1
  split
  · exact tidy_saveToImage _ _ h1
  split
  · exact tidy_finishJob _ _ h1
  split
  · exact tidy_finishJob _ _ h1
  · next e => exact tidy_finishJob _ _ (tidy_migrate _ _ e h1)

theorem tidy_tearGallery (g0 : Gallery) (h : s.tidy = true) : (tearGallery s g0).tidy = true := by
  unfold tearGallery
  split
  · exact h
  · next g _ =>
    extract_lets s1 held mine s2 s3 s4 saves
    have h1 : s1.tidy = true := tidy_onCrewsOf _ _ _ h
    have h2 : s2.tidy = true := tidy_update h1
    have h3 : s3.tidy = true := tidy_foldl _ (fun s t h => tidy_spoilTile _ _ h) _ _ h2
    have h4 : s4.tidy = true := tidy_update h3
    split
    · exact tidy_syncPath _ (tidy_unbindHalf _ _ (tidy_markSaves _ _ _ h4))
    · exact tidy_settleMx (tidy_retireGallery _ (tidy_update h3))

theorem tidy_dropRecords (t : Teardown) (h : s.tidy = true) : (dropRecords s t).tidy = true := tidy_dropUnplaced _ h

/-! ### Links and pacing -/

theorem tidy_timeoutColl (c : Coll) (h : s.tidy = true) : (timeoutColl s c).tidy = true := tidy_failColl _ _ _ _ h

theorem tidy_onMember (f : Pacer → Nat → Pacer) (h : s.tidy = true) : (onMember s f).tidy = true := by
  unfold onMember
  split
  · exact tidy_onPacer _ h
  · exact h

/-- A message of pacing changes the pacer alone, or counts an error (R345 to R353). -/
theorem tidy_paceMessage {t : State} (src : BitVec 8) (bs : List Byte) (e : paceMessage src bs s = .next t)
    (h : s.tidy = true) : t.tidy = true := by
  unfold paceMessage at e
  dsimp only at e
  split at e <;> cases e
  case h_11 =>
    split
    · exact tidy_countError _ h
    · exact h
  all_goals exact tidy_onMember _ h

theorem tidy_acceptFlit (flit : List Byte) (h : s.tidy = true) : (acceptFlit s flit).tidy = true := by
  unfold acceptFlit
  split
  · split
    · next e => exact tidy_paceMessage _ _ e h
    · exact h
  · exact h

theorem tidy_receiveFlit (p : Nat) (flit : List Byte) (h : s.tidy = true) : (receiveFlit s p flit).tidy = true := by
  unfold receiveFlit
  extract_lets q word seq
  split
  · exact h
  · split
    · exact tidy_onPort _ _ h
    · split
      · exact tidy_onPort _ _ h
      · split
        · exact h
        · exact tidy_acceptFlit _ (tidy_onPort _ _ h)

theorem tidy_silentRecord (peer : BitVec 8) (x : Nat × Nat) (h : s.tidy = true) :
    (silentRecord peer s x).tidy = true := by
  unfold silentRecord
  split
  · exact h
  · exact tidy_regionFault _ _ _ h

theorem tidy_trip (h : s.tidy = true) : (trip s).tidy = true := by
  unfold trip
  extract_lets s1 src
  have h1 : s1.tidy = true := tidy_onPacer _ h
  exact tidy_update h1

/-! ### The host and its mailbox -/

theorem tidy_onRecord (cluster : Nat) (f : CurrentRecord → CurrentRecord) (h : s.tidy = true) :
    (onRecord s cluster f).tidy = true := tidy_update h

theorem tidy_fnFault (part : Nat) (q : HostFn) (f : FaultRec) (h : s.tidy = true) :
    (fnFault s part q f).tidy = true := by
  unfold fnFault
  split
  · exact tidy_countError _ h
  · exact tidy_ringPush _ _ _ _ _ h

theorem tidy_advanceQueue (fn q cb : Nat) (h : s.tidy = true) : (advanceQueue s fn q cb).tidy = true := by
  unfold advanceQueue
  extract_lets n
  exact tidy_onQueue _ _ _ (tidy_performNat _ _ _ _ h)

theorem tidy_refusalRecord (asn : Nat) (q : Record) (f : FaultRec) (h : s.tidy = true) :
    (refusalRecord s asn q f).tidy = true := by
  unfold refusalRecord
  split
  · exact tidy_countError _ h
  · exact tidy_regionFault _ _ _ h

theorem tidy_hostEnqueue (part fn : Nat) (name : Word) (bs : List Byte) (h : s.tidy = true) :
    (hostEnqueue s part fn name bs).tidy = true := by
  unfold hostEnqueue
  extract_lets h1 asn r1
  split
  · extract_lets f
    split
    · exact tidy_fnFault _ _ _ h
    · exact tidy_refusalRecord _ _ _ h
  · split
    · exact tidy_regionFault _ _ _ h
    · exact tidy_regionFault _ _ _ h
    · exact tidy_enterQueue _ _ h

theorem tidy_consumeQueue (fn q : Nat) (h : s.tidy = true) : (consumeQueue s fn q).tidy = true := by
  unfold consumeQueue
  split
  · exact h
  · extract_lets h1 x s1 i
    have h11 : s1.tidy = true := tidy_onQueue _ _ _ h
    split
    · exact h11
    · split
      · exact h11
      · exact h
      · exact tidy_fnFault _ _ _ (tidy_advanceQueue _ _ _ h)
      · exact tidy_refusalRecord _ _ _ (tidy_advanceQueue _ _ _ h)
      · exact tidy_advanceQueue _ _ _ (tidy_hostEnqueue _ _ _ _ h)

theorem tidy_hostFail (part : Nat) (q : HostFn) (cause : Cause) (va n : Nat) (h : s.tidy = true) :
    (hostFail s part q cause va n).tidy = true := by
  unfold hostFail
  extract_lets f owner
  clear_value owner
  cases owner with
  | none => exact tidy_fnFault _ _ _ h
  | some q => exact tidy_regionFault _ _ _ h

theorem tidy_windowWrite (fn : Nat) (off : Word) (data : List Byte) (h : s.tidy = true) :
    (windowWrite s fn off data).tidy = true := by
  have put (l : List (Place × Nat)) : ∀ {q : State × List Byte}, q.1.tidy = true →
      (l.foldl (fun (acc : State × List Byte) x =>
        (performGlobal acc.1 x.1.pa (acc.2.take x.2), acc.2.drop x.2)) q).1.tidy = true := by
    induction l with
    | nil => exact id
    | cons x l ih => exact fun hq => ih (tidy_performGlobal _ _ _ hq)
  unfold windowWrite
  split
  · exact h
  · dsimp only
    split
    · exact tidy_hostFail _ _ _ _ _ h
    · exact put _ h

theorem tidy_answer (fn : Nat) (bs : List Byte) (abort : Bool) (h : s.tidy = true) :
    (answer s fn bs abort).tidy = true := tidy_onFn _ _ h

theorem tidy_windowRead (fn : Nat) (off : Word) (n : Nat) (h : s.tidy = true) :
    (windowRead s fn off n).tidy = true := by
  unfold windowRead
  split
  · exact h
  · extract_lets h1
    split
    · exact tidy_answer _ _ _ (tidy_hostFail _ _ _ _ _ h)
    · exact tidy_answer _ _ _ h

theorem tidy_windowAtomic (fn : Nat) (off : Word) (p : BitVec 4) (n : Nat) (x cmp : Word) (h : s.tidy = true) :
    (windowAtomic s fn off p n x cmp).tidy = true := by
  unfold windowAtomic
  split
  · exact h
  · extract_lets q a fail
    have hfail (e : Cause) : (fail e).tidy = true := tidy_answer _ _ _ (tidy_hostFail _ _ _ _ _ h)
    split
    · exact hfail _
    · split
      · exact hfail _
      · exact tidy_answer _ _ _ (tidy_atomicAt _ _ _ _ _ h)

theorem tidy_finishMail (m : Request) (status detail : Nat) (results : List Byte) (h : s.tidy = true) :
    (finishMail s m status detail results).tidy = true := by
  unfold finishMail
  extract_lets s1 s2
  have h1 : s1.tidy = true := tidy_performNat _ _ _ _ h
  have h2 : s2.tidy = true := tidy_ringPush _ _ _ _ _ h1
  exact tidy_onFn _ _ h2

theorem tidy_serveMail (fn : Nat) (mine : Nat → Bool) {act : State → Request → Answered}
    (hact : ∀ m, (answeredState (act s m)).tidy = true) (h : s.tidy = true) : (serveMail s fn mine act).tidy = true := by
  unfold serveMail
  split
  · exact h
  · exact tidy_onFn _ _ h
  · exact tidy_fnFault _ _ _ (tidy_performNat _ _ _ _ h)
  · next m _ =>
    split
    · exact h
    · have h1 := hact m
      split
      · next e =>
        rw [e] at h1
        exact tidy_onFn _ _ h1
      · next e =>
        rw [e] at h1
        exact tidy_finishMail _ _ _ _ h1

theorem tidy_simple (h : s.tidy = true) : (answeredState (simple s)).tidy = true := h

theorem tidy_guarded (ok : Bool) (m : Request) {go : Answered} (hgo : (answeredState go).tidy = true)
    (h : s.tidy = true) : (answeredState (guarded ok m s go)).tidy = true := by
  unfold guarded
  split
  · exact hgo
  · exact h

theorem tidy_mapPage (part asn va perms : Nat) (l : List (Nat × Nat)) : ∀ {s t : State} {tbl pa : Nat},
    mapPage part asn va perms l tbl s = some (t, pa) → s.tidy = true → t.tidy = true := by
  induction l with
  | nil => exact fun e => by cases e
  | cons x l ih =>
    intro s t tbl pa e h
    cases l with
    | nil =>
      obtain ⟨pa, -, e⟩ := Option.map_eq_some_iff.1 e
      cases e
      exact tidy_performNat _ _ _ _ h
    | cons y l =>
      unfold mapPage at e
      dsimp only at e
      split at e
      · exact ih e h
      · split at e
        · cases e
        · exact ih e (tidy_performNat _ _ _ _ h)

theorem tidy_placePages (part asn perms : Nat) (l : List (Nat × List Byte)) : ∀ {s t : State},
    placePages part asn perms l s = some t → s.tidy = true → t.tidy = true := by
  induction l with
  | nil =>
    intro s t e h
    cases e
    exact h
  | cons x l ih =>
    intro s t e h
    unfold placePages at e
    split at e
    · cases e
    · next e1 => exact ih e (tidy_performGlobal _ _ _ (tidy_mapPage _ _ _ _ _ e1 h))

theorem tidy_placeSpan {t : State} (part asn perms : Nat) (x : Span) (bs : List Byte)
    (e : placeSpan s part asn perms x bs = some t) (h : s.tidy = true) : t.tidy = true := tidy_placePages _ _ _ _ e h

theorem tidy_placeObject {t : State} (part asn : Nat) (y : Layout) (o : ObjHead) (out : List Byte)
    (e : placeObject s part asn y o out = some t) (h : s.tidy = true) : t.tidy = true := by
  obtain ⟨s2, e2, e3⟩ := Option.bind_eq_some_iff.1 e
  obtain ⟨s1, e1, e2⟩ := Option.bind_eq_some_iff.1 e2
  exact tidy_placeSpan _ _ _ _ _ e3 (tidy_placeSpan _ _ _ _ _ e2 (tidy_placeSpan _ _ _ _ _ e1 h))

theorem tidy_enqueueLaunches (m : Request) (y : Layout) (o : ObjHead) (out : List Byte) (h : s.tidy = true) :
    (enqueueLaunches s m y o out).tidy = true := tidy_foldl _ (fun _ _ h => tidy_hostEnqueue _ _ _ _ h) _ _ h

theorem tidy_loadObject (m : Request) (o : ObjHead) (obj : List Byte) (asn : Nat) (h : s.tidy = true) :
    (answeredState (loadObject s m o obj asn)).tidy = true := by
  unfold loadObject
  dsimp only
  split
  · exact h
  · split
    · exact h
    · next e => exact tidy_enqueueLaunches _ _ _ _ (tidy_update (tidy_placeObject _ _ _ _ _ e h))

theorem tidy_loadRequest (m : Request) (h : s.tidy = true) : (answeredState (loadRequest s m)).tidy = true := by
  unfold loadRequest
  dsimp only
  split
  · exact h
  split
  · exact h
  split
  · exact h
  split
  · exact tidy_regionFault _ _ _ h
  split
  · exact h
  · exact tidy_loadObject _ _ _ _ h

/-! ### Fuses, ports, time and the grant -/

theorem tidy_blowFuse (h : s.tidy = true) : (blowFuse s).tidy = true := by
  unfold blowFuse
  split
  · exact h
  · extract_lets n src
    split
    · exact tidy_update h
    · exact tidy_update h

theorem tidy_endTraining (k : Nat) (fail : Bool) (phase spares eyes : Nat) (lanemap : Word) (h : s.tidy = true) :
    (endTraining s k fail phase spares eyes lanemap).tidy = true := by
  unfold endTraining
  split
  · exact h
  · split
    · exact h
    · extract_lets failed s1 src
      have h1 : s1.tidy = true := tidy_onCtl _ _ h
      split
      · exact tidy_update h1
      · exact h1

theorem tidy_moveFrom (p : Nat) (state next : BitVec 3) (h : s.tidy = true) :
    (moveFrom s p state next).tidy = true := tidy_onPort _ _ h

theorem tidy_expireTraining (h : s.tidy = true) : (expireTraining s).tidy = true := by
  unfold expireTraining
  extract_lets pick
  refine tidy_foldl _ (fun t k h => ?_) _ _ h
  split
  · exact tidy_endTraining _ _ _ _ _ _ h
  · exact h

theorem tidy_tick (h : s.tidy = true) : (tick s).tidy = true := by
  unfold tick
  extract_lets n src
  exact tidy_expireTraining (tidy_update h)

theorem tidy_unholdAll (h : s.tidy = true) : (unholdAll s).tidy = true := tidy_update h

theorem tidy_grantOnly (c : Crew) (h : s.tidy = true) : (grantOnly s c).tidy = true :=
  tidy_update (tidy_focus _ c.uid h)

theorem tidy_grantCycle (y : Cycle) (l : List Crew) (h : s.tidy = true) : (grantCycle s y l).tidy = true := by
  unfold grantCycle
  extract_lets s1
  have h1 : s1.tidy = true := tidy_update h
  clear_value s1
  split
  · exact tidy_update (tidy_focus _ _ h1)
  · exact tidy_focus _ _ h1
  · exact tidy_focus _ _ h1
  · split
    · exact h1
    · exact tidy_focus _ _ h1

theorem tidy_nextGrant {t : State} (e : nextGrant s = some t) (h : s.tidy = true) : t.tidy = true := by
  unfold nextGrant at e
  split at e
  · cases e
    exact tidy_update (tidy_focus _ _ h)
  split at e
  · cases e
  · cases e
    exact tidy_grantOnly _ h
  · dsimp only at e
    split at e <;> cases e
    · exact tidy_grantOnly _ h
    · exact tidy_grantCycle _ _ h

theorem tidy_retryHeld (h : s.tidy = true) : (retryHeld s).tidy = true := by
  unfold retryHeld
  split
  · exact h
  · exact tidy_update h

theorem tidy_granted {t : State} (e : granted s = some t) (h : s.tidy = true) : t.tidy = true := by
  rw [granted, Option.map_eq_some_iff] at e
  obtain ⟨u, hu, rfl⟩ := e
  exact tidy_tick (tidy_nextGrant hu (tidy_retryHeld h))

theorem tidy_correctRead (i : Instr) (h : s.tidy = true) : (correctRead i s).tidy = true := by
  unfold correctRead
  split
  · exact h
  · extract_lets reads hit src
    exact tidy_update h

theorem tidy_chargeWord (i : Instr) (h : s.tidy = true) : (chargeWord i s).tidy = true := by
  unfold chargeWord
  split
  · exact h
  · extract_lets n s1 heavy
    have h1 : s1.tidy = true := tidy_chargeCluster _ _ h
    split
    · exact h1
    · exact tidy_update h1
end Sys2Proof.Proofs

end

section
/-!
PROOFS. The events and the step keep memory, the vaults and the tiles in canonical form (MEMORY, log 5).
-/

namespace Sys2Proof.Proofs
open Sys2Proof Sys2Proof.Machine

set_option Elab.async false

variable {s : State}

/-! ### Events -/

theorem tidies_next {t : State} (h : s.tidy = true → t.tidy = true) : Tidies s (.next t) := by
  rintro hs _ ⟨⟩
  exact h hs

theorem tidies_answer {i : Instr} {t : State} (arm : exec i s = .next t) (h : s.tidy = true → t.tidy = true) :
    Tidies s (exec i s) := arm ▸ tidies_next h

theorem tidy_reset : State.reset.tidy = true := rfl

theorem tidy_afterReset (s : State) : (afterReset s).tidy = true := tidy_update tidy_reset

theorem tidies_execSliceAnswer (uid pick : Nat) : Tidies s (execSliceAnswer uid pick s) := by
  refine tidies_next fun h => tidy_inFocus _ _ _ h (fun s h => ?_)
  split
  · exact h
  · exact tidy_update h

theorem tidies_execCrewWakeResume (uid : Nat) : Tidies s (execCrewWakeResume uid s) := by
  refine tidies_next fun h => ?_
  split
  · exact tidy_putSave0 _ _ (tidy_onCrew _ _ _ h)
  · exact h

theorem tidies_execPromotionEnd (cluster pick : Nat) : Tidies s (execPromotionEnd cluster pick s) := by
  refine tidies_next fun h => ?_
  split
  · exact tidy_settleMx h
  · next m n _ =>
    have pass {t : State} (e : (if m.failed.isSome then Except.ok s else runPass s m n) = .ok t) : t.tidy = true := by
      split at e
      · cases e
        exact h
      · exact tidy_runPass _ _ e h
    dsimp only
    split
    · next e => exact tidy_settleMx (tidy_onMx _ _ (pass e))
    · exact tidy_settleMx (tidy_onMx _ _ h)

theorem tidies_execPublishFlip (pick : Nat) : Tidies s (execPublishFlip pick s) := by
  refine tidies_next fun h => ?_
  split
  · exact h
  · extract_lets s1
    have h1 : s1.tidy = true := tidy_flip _ _ (tidy_update h)
    clear_value s1
    split
    · exact tidy_onCrew _ _ _ h1
    · exact tidy_settleExits (tidy_completeTag _ _ _ (tidy_onCrew _ _ _ h1))

theorem tidies_execMailboxTear (fn : BitVec 2) : Tidies s (execMailboxTear fn s) := by
  refine tidies_next fun h => tidy_serveMail _ _ (fun m => ?_) h
  split
  · exact h
  · exact tidy_guarded _ m (tidy_performNat _ _ _ _ h) h

theorem tidies_execMailboxPool (fn : BitVec 2) : Tidies s (execMailboxPool fn s) := by
  refine tidies_next fun h => tidy_serveMail _ _ (fun m => ?_) h
  extract_lets cluster ok src s1 s2
  have h1 : s1.tidy = true := by
    unfold s1
    split
    · exact h
    · exact tidy_update h
  have h2 : s2.tidy = true := tidy_settleMoves h1
  refine tidy_guarded _ m ?_ h
  split
  · exact h2
  · exact h2

theorem tidies_execMailboxStrict (fn : BitVec 2) : Tidies s (execMailboxStrict fn s) := by
  refine tidies_next fun h => tidy_serveMail _ _ (fun m => ?_) h
  have h1 (x : BitVec 4) : State.tidy { s with strict := x } = true := tidy_update h
  exact tidy_guarded _ m (tidy_simple (h1 _)) h

theorem tidies_execMailboxEnrol (fn : BitVec 2) : Tidies s (execMailboxEnrol fn s) := by
  refine tidies_next fun h => tidy_serveMail _ _ (fun m => tidy_guarded _ m ?_ h) h
  split
  · exact h
  · split
    · exact h
    · next b _ =>
      have h1 : State.tidy { s with boot := b } = true := tidy_update h
      exact tidy_simple h1

theorem tidies_execMailboxFuse (fn : BitVec 2) : Tidies s (execMailboxFuse fn s) := by
  refine tidies_next fun h => tidy_serveMail _ _ (fun m => ?_) h
  extract_lets v s1
  have h1 : s1.tidy = true := by
    unfold s1
    split
    · exact h
    · exact tidy_fuseRequest _ h
  refine tidy_guarded _ m ?_ h
  split
  · exact h1
  · exact h1

theorem tidies_execMailboxRoute (fn : BitVec 2) : Tidies s (execMailboxRoute fn s) := by
  refine tidies_next fun h => tidy_serveMail _ _ (fun m => ?_) h
  have h1 (x : Sparse (BitVec 18)) : State.tidy { s with routes := x } = true := tidy_update h
  exact tidy_guarded _ m (tidy_simple (h1 _)) h

theorem tidies_execLongLatencyLanding (uid pick : Nat) : Tidies s (execLongLatencyLanding uid pick s) := by
  refine tidies_next fun h => tidy_inFocus _ _ _ h fun s h => ?_
  split
  · exact h
  · extract_lets src s1
    have h1 : s1.tidy = true := tidy_landResult _ _ (tidy_update h)
    exact tidy_update h1

theorem tidies_execStorePerformed (uid : Nat) : Tidies s (execStorePerformed uid s) := by
  refine tidies_next fun h => ?_
  split
  · exact h
  · refine tidy_inFocus _ _ _ h (fun s h => ?_)
    split
    · exact tidy_update h
    · exact tidy_performOldest h

theorem tidies_execFilterSlowPathWrite (uid : Nat) : Tidies s (execFilterSlowPathWrite uid s) := by
  refine tidies_next fun h => ?_
  split
  · exact tidy_inFocus _ _ _ (tidy_update h) (fun s h => tidy_performOldest h)
  · exact h

theorem tidies_execDeadlineSweep : Tidies s (execDeadlineSweep s) := by
  refine tidies_next fun h => ?_
  split
  · exact h
  · extract_lets late out s1 ready s2
    have h1 : s1.tidy = true := tidy_wakeEntries _ _ _ h
    have h2 : s2.tidy = true := tidy_foldl _ (fun s e h => tidy_wake _ _ _ h) _ _ (tidy_update h1)
    split
    · exact h2
    · exact tidy_relightAll _ _ h2

theorem tidies_execTrapEntry (uid : Nat) : Tidies s (execTrapEntry uid s) := by
  refine tidies_next fun h => tidy_inFocus _ _ _ h fun s h => ?_
  split
  · extract_lets s1
    have h1 : s1.tidy = true := tidy_drain _ h
    split
    · exact tidy_enterTrap _ _ h1
    · exact h1
  · exact h

theorem tidies_execRecordCompletion (gid : Nat) : Tidies s (execRecordCompletion gid s) := by
  refine tidies_next fun h => ?_
  split
  · exact h
  · split
    · exact tidy_completeGallery _ h
    · exact h

theorem tidies_execHoistChunkDone (core pick : Nat) : Tidies s (execHoistChunkDone core pick s) := by
  refine tidies_next fun h => ?_
  split
  · exact tidy_settleHoist _ h
  · extract_lets h1 s1 s2
    have h11 : s1.tidy = true := tidy_onHoist _ _ h
    have h2 : s2.tidy = true := by
      unfold s2
      split
      · exact tidy_failHoist _ _ _ _ h11
      · split
        next e =>
          exact tidy_failHoist _ _ _ _ h11
        next s3 e =>
          exact tidy_runChunk _ _ _ e h11
    exact tidy_settleHoist _ h2

theorem tidies_execRingSlotAdmit (cluster entry : Nat) : Tidies s (execRingSlotAdmit cluster entry s) := by
  refine tidies_next fun h => ?_
  split
  · exact h
  · exact tidy_settleMx (tidy_lookAtRing _ h)

theorem tidies_execStripPassGrant (cluster : Nat) : Tidies s (execStripPassGrant cluster s) := by
  refine tidies_next fun h => ?_
  split
  · exact h
  · extract_lets s1
    have h1 : s1.tidy = true := tidy_onMx _ _ h
    split
    · exact h1
    · exact tidy_chargeCluster _ _ h1

theorem tidies_execContextSaveDone : Tidies s (execContextSaveDone s) := by
  refine tidies_next fun h => ?_
  refine tidy_foldl _ (fun s j h => ?_) _ _ h
  split
  · exact tidy_loadJob _ h
  · exact tidy_saveJob _ h

theorem tidies_execTeardown (part : BitVec 2) (region : BitVec 64) (asn : BitVec 16) : Tidies s
    (execTeardown part region asn s) := by
  refine tidies_next fun h => ?_
  split
  · exact h
  · extract_lets w
    refine tidy_tearOne _ _ _ ?_
    split
    · exact h
    · exact tidy_performNat _ _ _ _ h

theorem tidies_execTeardownGraceExpiry (pick : Nat) : Tidies s (execTeardownGraceExpiry pick s) := by
  refine tidies_next fun h => ?_
  split
  · exact h
  · extract_lets gs s1
    have h1 : s1.tidy = true := by
      unfold s1
      refine tidy_syncPath _ (tidy_foldl _ (fun s x h => ?_) _ _ (tidy_dropRecords _ h))
      exact tidy_tearGallery _ h
    split
    · exact h
    · exact tidy_update h1

theorem tidies_execCollectiveDataArrival (member : BitVec 8) (gid : BitVec 16) (seq head : BitVec 64)
    (data : List (BitVec 8)) : Tidies s (execCollectiveDataArrival member gid seq head data s) := by
  refine tidies_next fun h => ?_
  split
  · exact tidy_update h
  · split
    · exact tidy_failColl _ _ _ _ h
    · split
      · exact h
      · extract_lets c1
        exact tidy_advanceColl _ (tidy_update h)

theorem tidies_execCollTimeout (pick : Nat) : Tidies s (execCollTimeout pick s) := by
  refine tidies_next fun h => ?_
  split
  · exact h
  · split
    · exact tidy_timeoutColl _ h
    · exact h

theorem tidies_execHeartTimer : Tidies s (execHeartTimer s) := by
  refine tidies_next fun h => ?_
  split
  · exact h
  · exact tidy_onPacer _ h

theorem tidies_execUnknownPacerType (src type : BitVec 8) : Tidies s (execUnknownPacerType src type s) := by
  refine tidies_next fun h => ?_
  split
  · exact tidy_countError _ h
  · exact h

theorem tidies_execLapApply : Tidies s (execLapApply s) := by
  refine tidies_next fun h => ?_
  exact tidy_foldl _ (fun s x h => tidy_timeoutColl _ h) _ _ (tidy_onPacer _ h)

theorem tidies_execPeerSilent (peer : BitVec 8) : Tidies s (execPeerSilent peer s) := by
  refine tidies_next fun h => ?_
  split
  · exact h
  · extract_lets s1
    have h1 : s1.tidy = true := by
      unfold s1
      refine tidy_foldl _ (fun s x h => ?_) _ _ (tidy_onPacer _ h)
      exact tidy_silentRecord _ _ h
    exact tidy_foldl _ (fun s x h => tidy_timeoutColl _ h) _ _ h1

theorem tidies_execTripRecheck (degrees : Nat) : Tidies s (execTripRecheck degrees s) := by
  refine tidies_next fun h => ?_
  split
  · exact h
  · split
    · exact h
    · split
      · exact tidy_trip h
      · exact tidy_update h

theorem tidies_execPowerSample (watts degrees : Nat) : Tidies s (execPowerSample watts degrees s) := by
  refine tidies_next fun h => ?_
  split
  · exact tidy_trip (tidy_update h)
  · split
    · exact tidy_onPacer _ (tidy_update (tidy_update h))
    · split
      · exact tidy_onPacer _ (tidy_update (tidy_update h))
      · exact tidy_update h

theorem tidies_execRegisterWrite (fn : BitVec 2) (off : BitVec 22) (v : BitVec 64) : Tidies s
    (execRegisterWrite fn off v s) := by
  refine tidies_next fun h => ?_
  split
  · exact h
  · split
    · exact tidy_dropWrite h
    · exact tidy_ctlStore _ _ _ _ h

/-- Every event keeps the canonical form. -/
theorem exec_event_tidies {i : Instr} (hi : i.isWord = false) : Tidies s (exec i s) := by
  cases i
  case mailboxLoad =>
    exact tidies_answer rfl fun h => tidy_serveMail _ _ (fun m => tidy_guarded _ m (tidy_loadRequest m h) h) h
  case mailboxLimit =>
    exact tidies_answer rfl fun h => tidy_serveMail _ _ (fun m => tidy_guarded _ m (tidy_fwlimitWrite _ _ h) h) h
  case mailboxUnknownOp => exact tidies_answer rfl fun h => tidy_serveMail _ _ (fun _ => h) h
  case branchResolution => exact tidies_answer rfl fun h => h
  case redqContribution =>
    exact tidies_answer rfl fun h => tidy_retryPending _ (tidy_inFocus _ _ _ h (fun _ h => tidy_offerSome _ _ h))
  case placementDecision => exact tidies_answer rfl fun h => tidy_placementDecision _ h
  case laneGangTimeout | hbmScrub => exact tidies_answer rfl fun h => tidy_update h
  case shootdownDone | shoot | reqkick => exact tidies_answer rfl fun h => tidy_onFn _ _ h
  case flitReceive => exact tidies_answer rfl fun h => tidy_receiveFlit _ _ h
  case flitNak | portRetrain | identExchange | retrainTimeout => exact tidies_answer rfl fun h => tidy_onPort _ _ h
  case heart | lower | ceil | breach | propose | grant | deny | joinMsg | leave | view =>
    exact tidies_answer rfl fun h => tidy_onMember _ h
  case emergencyTrip => exact tidies_answer rfl fun h => tidy_trip h
  case intervalEnd | cooldownStep => exact tidies_answer rfl fun h => tidy_onRecord _ _ h
  case ageingMeasure => exact tidies_answer rfl fun h => tidy_onPacer _ (tidy_update h)
  case kick | enable => exact tidies_answer rfl fun h => tidy_onQueue _ _ _ h
  case hostQueueConsume => exact tidies_answer rfl fun h => tidy_consumeQueue _ _ h
  case windowBWrite => exact tidies_answer rfl fun h => tidy_windowWrite _ _ _ h
  case windowBRead => exact tidies_answer rfl fun h => tidy_windowRead _ _ _ h
  case fetchadd | swap | cas => exact tidies_answer rfl fun h => tidy_windowAtomic _ _ _ _ _ _ h
  case fusereq => exact tidies_answer rfl fun h => tidy_fuseRequest _ h
  case fuseBlown => exact tidies_answer rfl fun h => tidy_blowFuse h
  case measgo => exact tidies_answer rfl fun h => tidy_measure _ h
  case romovlClear => exact tidies_answer rfl fun h => tidy_clearRom _ h
  case trnctl => exact tidies_answer rfl fun h => tidy_trnctlWrite _ _ h
  case hbmTrainingDone => exact tidies_answer rfl fun h => tidy_endTraining _ _ _ _ _ _ h
  case fwlimit => exact tidies_answer rfl fun h => tidy_fwlimitWrite _ _ h
  case paceen => exact tidies_answer rfl fun h => tidy_paceenWrite _ _ h
  case portEn => exact tidies_answer rfl fun h => tidy_portEnable _ _ h
  case signalDetect | detectTimeout | equaliseDone | alignLock =>
    exact tidies_answer rfl fun h => tidy_moveFrom _ _ _ h
  case mben => exact tidies_answer rfl fun h => tidy_mbenWrite _ _ h
  case lossOfPower => exact tidies_answer rfl fun _ => tidy_update (tidy_afterReset s)
  case resetRelease => exact tidies_answer rfl fun _ => tidy_afterReset s
  case sliceAnswer => exact tidies_execSliceAnswer _ _
  case crewWakeResume => exact tidies_execCrewWakeResume _
  case promotionEnd => exact tidies_execPromotionEnd _ _
  case publishFlip => exact tidies_execPublishFlip _
  case mailboxTear => exact tidies_execMailboxTear _
  case mailboxPool => exact tidies_execMailboxPool _
  case mailboxStrict => exact tidies_execMailboxStrict _
  case mailboxEnrol => exact tidies_execMailboxEnrol _
  case mailboxFuse => exact tidies_execMailboxFuse _
  case mailboxRoute => exact tidies_execMailboxRoute _
  case longLatencyLanding => exact tidies_execLongLatencyLanding _ _
  case storePerformed => exact tidies_execStorePerformed _
  case filterSlowPathWrite => exact tidies_execFilterSlowPathWrite _
  case deadlineSweep => exact tidies_execDeadlineSweep
  case trapEntry => exact tidies_execTrapEntry _
  case recordCompletion => exact tidies_execRecordCompletion _
  case hoistChunkDone => exact tidies_execHoistChunkDone _ _
  case ringSlotAdmit => exact tidies_execRingSlotAdmit _ _
  case stripPassGrant => exact tidies_execStripPassGrant _
  case contextSaveDone => exact tidies_execContextSaveDone
  case teardown => exact tidies_execTeardown _ _ _
  case teardownGraceExpiry => exact tidies_execTeardownGraceExpiry _
  case collectiveDataArrival => exact tidies_execCollectiveDataArrival _ _ _ _ _
  case collTimeout => exact tidies_execCollTimeout _
  case heartTimer => exact tidies_execHeartTimer
  case unknownPacerType src type => exact tidies_execUnknownPacerType src type
  case lapApply => exact tidies_execLapApply
  case peerSilent => exact tidies_execPeerSilent _
  case tripRecheck => exact tidies_execTripRecheck _
  case powerSample => exact tidies_execPowerSample _ _
  case registerWrite => exact tidies_execRegisterWrite _ _ _
  all_goals exact absurd hi.symm Bool.false_ne_true

/-! ### Steps -/

theorem exec_tidies (i : Instr) : Tidies s (exec i s) := by
  cases hi : i.isWord with
  | false => exact exec_event_tidies hi
  | true => exact exec_word_tidies hi

theorem tidy_runEvent {t : State} {i : Instr} (e : runEvent i s = .next t) (h : s.tidy = true) : t.tidy = true :=
  exec_tidies i (tidy_tick (tidy_unholdAll h)) t e

theorem tidy_runWord {t : State} (e : runWord s = .next t) (h : s.tidy = true) : t.tidy = true := by
  unfold runWord at e
  split at e
  · cases e
    exact tidy_takeTrap _ _ h
  split at e
  · exact exec_tidies _ (tidy_correctRead _ (tidy_chargeWord _ h)) t e
  · cases e
    exact tidy_takeTrap _ _ h

/-- A step is an event's arm, a word's, a trap of a fetch, or time that goes by; each keeps the canonical form. -/
theorem tidy_step {t : State} (h : s.tidy = true) (e : step s = .next t) : t.tidy = true := by
  unfold step at e
  split at e
  · split at e
    · cases e
    · exact tidy_runEvent e (tidy_update h)
  split at e
  · exact tidy_runEvent e (tidy_update h)
  split at e
  · next hg => exact tidy_runWord e (tidy_update (tidy_granted hg h))
  split at e
  · exact tidy_runEvent e h
  · rw [← Host.Outcome.next.inj e]
    exact tidy_tick (tidy_unholdAll h)

/-- Settles O60: every operation of the model keeps the canonical form, and a step is made of them. -/
theorem everyStepKeepsTidy : Obligations.EveryStepKeepsTidy := fun _ _ h e => tidy_step h e

end Sys2Proof.Proofs

end

section
/-!
PROOFS. The rounded quotient of a significand by a power of two, in the four modes (R80).
-/

namespace Sys2Proof.Proofs
open Sys2Proof Sys2Proof.Machine

set_option Elab.async false

section
variable {K : Type*} [Field K] [LinearOrder K] [IsStrictOrderedRing K]

/-- The significand `m`, with a remainder below its last bit when `sticky` holds, stands for the number `y`. -/
structure Stands (m : Nat) (sticky : Bool) (y : K) : Prop where
  le : (m : K) ≤ y
  lt : y < m + 1
  exact_iff : sticky = false ↔ y = m

/-- `x` is the magnitude `a` rounded among numbers `u` apart: to nearest, away from zero, or toward zero (R80). -/
structure Rounded (mode : BitVec 2) (neg : Bool) (a x u : K) (even : Prop) : Prop where
  near : mode = 0 → |x - a| ≤ u / 2 ∧ (|x - a| = u / 2 → even)
  up : awayFromZero mode neg = true → a ≤ x ∧ x < a + u
  down : mode ≠ 0 → awayFromZero mode neg = false → x ≤ a ∧ a < x + u

theorem mode_cases (mode : BitVec 2) (neg : Bool) :
    mode = 0 ∨ (mode ≠ 0 ∧ awayFromZero mode neg = true) ∨ (mode ≠ 0 ∧ awayFromZero mode neg = false) := by
  by_cases h : mode = 0
  · exact .inl h
  · cases h' : awayFromZero mode neg
    · exact .inr (.inr ⟨h, rfl⟩)
    · exact .inr (.inl ⟨h, rfl⟩)

theorem Rounded.lt_add {mode : BitVec 2} {neg : Bool} {a x u : K} {p : Prop} (h : Rounded mode neg a x u p) (hu : 0 < u) :
    x < a + u := by
  rcases mode_cases mode neg with h0 | ⟨h0, h1⟩ | ⟨h0, h1⟩
  · have := (abs_le.1 (h.near h0).1).2
    linarith
  · exact (h.up h1).2
  · linarith [(h.down h0 h1).1]

theorem Rounded.lt_add' {mode : BitVec 2} {neg : Bool} {a x u : K} {p : Prop} (h : Rounded mode neg a x u p) (hu : 0 < u) :
    a < x + u := by
  rcases mode_cases mode neg with h0 | ⟨h0, h1⟩ | ⟨h0, h1⟩
  · have := (abs_le.1 (h.near h0).1).1
    linarith
  · linarith [(h.up h1).1]
  · exact (h.down h0 h1).2

/-- The scale of a rounding is free. -/
theorem Rounded.mul {mode : BitVec 2} {neg : Bool} {a x u : K} {p : Prop} (h : Rounded mode neg a x u p) {c : K}
    (hc : 0 < c) : Rounded mode neg (a * c) (x * c) (u * c) p where
  near h0 := by
    obtain ⟨h1, h2⟩ := h.near h0
    rw [← sub_mul, abs_mul, abs_of_pos hc, mul_div_right_comm]
    exact ⟨mul_le_mul_of_nonneg_right h1 hc.le, fun e => h2 (mul_right_cancel₀ hc.ne' e)⟩
  up h0 := by
    obtain ⟨h1, h2⟩ := h.up h0
    rw [← add_mul]
    exact ⟨mul_le_mul_of_nonneg_right h1 hc.le, mul_lt_mul_of_pos_right h2 hc⟩
  down h0 h1 := by
    obtain ⟨h1, h2⟩ := h.down h0 h1
    rw [← add_mul]
    exact ⟨mul_le_mul_of_nonneg_right h1 hc.le, mul_lt_mul_of_pos_right h2 hc⟩

end

/-! ### The quotient by a power of two -/

theorem roundsUp_exact (mode : BitVec 2) (neg : Bool) (n : Nat) : roundsUp mode neg n .lt false = false := by
  unfold roundsUp
  split <;> rfl

theorem roundsUp_zero (neg : Bool) (n : Nat) (half : Ordering) (x : Bool) :
    roundsUp 0 neg n half x = (half == .gt || (half == .eq && n % 2 == 1)) := by
  cases half <;> rfl

theorem roundsUp_directed {mode : BitVec 2} (h : mode ≠ 0) (neg : Bool) (n : Nat) (half : Ordering) (x : Bool) :
    roundsUp mode neg n half x = (x && awayFromZero mode neg) := by
  have : mode = 1 ∨ mode = 2 ∨ mode = 3 := by revert h; revert mode; decide
  rcases this with rfl | rfl | rfl <;> cases x <;> cases neg <;> rfl

theorem roundShift_of_nonpos (mode : BitVec 2) (neg : Bool) (m : Nat) {shift : Int} (h : shift ≤ 0) :
    roundShift mode neg m false shift = (m * 2 ^ (-shift).toNat, false) := by
  simp [roundShift, h, roundsUp_exact]

/-- What the rounded quotient of `2 * m + 1` or `2 * m` by `4 * b` is. -/
structure Quotient (mode : BitVec 2) (neg : Bool) (m s b n : Nat) : Prop where
  near : mode = 0 → 2 * (b * n) ≤ m + b ∧ m + s ≤ 2 * (b * n) + b ∧
    (s = 0 → 2 * (b * n) = m + b ∨ m = 2 * (b * n) + b → n % 2 = 0)
  up : awayFromZero mode neg = true → m + s ≤ 2 * (b * n) ∧ 2 * (b * n) < m + s + 2 * b
  down : mode ≠ 0 → awayFromZero mode neg = false → 2 * (b * n) ≤ m ∧ m + 1 ≤ 2 * (b * n) + 2 * b

section
variable {mode : BitVec 2} {neg : Bool} {m s b n : Nat}

theorem Quotient.of_near (h : mode = 0) (hn : 2 * (b * n) ≤ m + b ∧ m + s ≤ 2 * (b * n) + b ∧
    (s = 0 → 2 * (b * n) = m + b ∨ m = 2 * (b * n) + b → n % 2 = 0)) : Quotient mode neg m s b n :=
  ⟨fun _ => hn, fun h1 => absurd h1 (by rw [h]; exact Bool.false_ne_true), fun h0 => absurd h h0⟩

theorem Quotient.of_up (h : mode ≠ 0) (h1 : awayFromZero mode neg = true)
    (hn : m + s ≤ 2 * (b * n) ∧ 2 * (b * n) < m + s + 2 * b) : Quotient mode neg m s b n :=
  ⟨fun h0 => absurd h0 h, fun _ => hn, fun _ h2 => absurd (h2.symm.trans h1) Bool.false_ne_true⟩

theorem Quotient.of_down (h : mode ≠ 0) (h1 : awayFromZero mode neg = false)
    (hn : 2 * (b * n) ≤ m ∧ m + 1 ≤ 2 * (b * n) + 2 * b) : Quotient mode neg m s b n :=
  ⟨fun h0 => absurd h0 h, fun h2 => absurd (h1.symm.trans h2) Bool.false_ne_true, fun _ _ => hn⟩

end

/-- When a quotient by `4 * b` with the remainder `r` is rounded up (R80). -/
theorem roundsUp_iff (mode : BitVec 2) (neg : Bool) (n b r : Nat) :
    roundsUp mode neg n (compare (2 * r) (4 * b)) (r != 0) = true ↔
      if mode = 0 then 2 * b < r ∨ (r = 2 * b ∧ n % 2 = 1) else r ≠ 0 ∧ awayFromZero mode neg = true := by
  by_cases h0 : mode = 0
  · subst h0
    rw [roundsUp_zero, if_pos rfl]
    rcases lt_trichotomy (2 * r) (4 * b) with h | h | h
    · simp [compare_lt_iff_lt.2 h, show ¬ 2 * b < r by omega, show r ≠ 2 * b by omega]
    · simp [show r = 2 * b by omega, show 2 * (2 * b) = 4 * b by omega]
    · simp [compare_gt_iff_gt.2 h, show 2 * b < r by omega]
  · rw [roundsUp_directed h0, if_neg h0]
    simp

theorem quotient_roundShift (mode : BitVec 2) (neg : Bool) (m : Nat) (sticky : Bool) (j : Nat) :
    Quotient mode neg m sticky.toNat (2 ^ j) (roundShift mode neg m sticky (j + 1 : Nat)).1 ∧
    ((roundShift mode neg m sticky (j + 1 : Nat)).2 = false ↔
      m = 2 * (2 ^ j * (roundShift mode neg m sticky (j + 1 : Nat)).1) ∧ sticky = false) := by
  have hk : 2 ^ (j + 1 + 1) = 4 * 2 ^ j := by ring
  have hs : (if sticky then 1 else 0) = sticky.toNat := by cases sticky <;> rfl
  have hs1 : sticky.toNat ≤ 1 := Bool.toNat_le sticky
  have hb : 0 < 2 ^ j := Nat.two_pow_pos j
  have hs0 : sticky = false ↔ sticky.toNat = 0 := by cases sticky <;> decide
  simp only [roundShift, show ¬ ((j + 1 : Nat) : Int) ≤ 0 by omega, if_false, Int.toNat_natCast, hk, hs, hs0,
    bne_eq_false_iff_eq, roundsUp_iff]
  generalize 2 ^ j = b at hb ⊢
  have hd := Nat.div_add_mod (2 * m + sticky.toNat) (4 * b)
  have hr := Nat.mod_lt (2 * m + sticky.toNat) (show 0 < 4 * b by omega)
  generalize (2 * m + sticky.toNat) / (4 * b) = n0 at hd ⊢
  generalize (2 * m + sticky.toNat) % (4 * b) = r at hd hr ⊢
  generalize sticky.toNat = s at hd hs1 ⊢
  rw [show 4 * b * n0 = 4 * (b * n0) by ring] at hd
  have hp1 : b * (n0 + 1) = b * n0 + b := by ring
  rcases mode_cases mode neg with h0 | ⟨h0, h1⟩ | ⟨h0, h1⟩
  · simp only [if_pos h0]
    split
    · rw [hp1]
      exact ⟨.of_near h0 (by rw [hp1]; omega), by omega⟩
    · exact ⟨.of_near h0 (by rw [add_zero]; omega), by rw [add_zero]; omega⟩
  · simp only [if_neg h0, h1, and_true]
    split
    · exact ⟨.of_up h0 h1 (by rw [hp1]; omega), by rw [hp1]; omega⟩
    · exact ⟨.of_up h0 h1 (by rw [add_zero]; omega), by rw [add_zero]; omega⟩
  · simp only [if_neg h0, h1, Bool.false_eq_true, and_false, if_false, add_zero]
    exact ⟨.of_down h0 h1 (by omega), by omega⟩

section
variable {K : Type*} [Field K] [LinearOrder K] [IsStrictOrderedRing K]

theorem stands_exact (m : Nat) : Stands m false (m : K) := ⟨le_rfl, lt_add_one _, by simp⟩

/-- A number that the significand stands for lies no farther up than the remainder allows. -/
theorem Stands.le_add {m : Nat} {sticky : Bool} {y : K} (h : Stands m sticky y) : y ≤ (m : K) + sticky.toNat := by
  cases sticky with
  | false => simp [h.exact_iff.1 rfl]
  | true => simpa using h.lt.le

/-- A whole number that a significand stands for is the significand, without a remainder. -/
theorem Stands.eq_nat {m k : Nat} {sticky : Bool} (h : Stands m sticky (k : K)) : m = k ∧ sticky = false := by
  have h1 : m ≤ k := by exact_mod_cast h.le
  have h2 : k < m + 1 := by exact_mod_cast h.lt
  obtain rfl : m = k := by omega
  exact ⟨rfl, h.exact_iff.2 rfl⟩

theorem Quotient.rounded {mode : BitVec 2} {neg sticky : Bool} {m b n : Nat} {y : K}
    (q : Quotient mode neg m sticky.toNat b n) (h : Stands m sticky y) :
    Rounded mode neg y (2 * (b * n) : K) (2 * b : K) (n % 2 = 0) := by
  have hle := h.le
  have hadd := h.le_add
  refine ⟨fun h0 => ?_, fun h1 => ?_, fun h0 h1 => ?_⟩
  · obtain ⟨h1, h2, h3⟩ := q.near h0
    have h1' : 2 * (b * n : K) ≤ m + b := by exact_mod_cast h1
    have h2' : (m : K) + sticky.toNat ≤ 2 * (b * n) + b := by exact_mod_cast h2
    rw [show (2 * b : K) / 2 = b by ring]
    refine ⟨abs_le.2 ⟨by linarith, by linarith⟩, fun e => ?_⟩
    have whole : (∃ k : Nat, y = k) → n % 2 = 0 := by
      rintro ⟨k, rfl⟩
      obtain ⟨rfl, rfl⟩ := h.eq_nat
      refine h3 rfl ?_
      rcases abs_choice (2 * (b * n : K) - (m : K)) with e' | e' <;> rw [e'] at e
      · left
        have : 2 * (b * n : K) = m + b := by linarith
        exact_mod_cast this
      · right
        have : (m : K) = 2 * (b * n) + b := by linarith
        exact_mod_cast this
    rcases abs_choice (2 * (b * n : K) - y) with e' | e' <;> rw [e'] at e
    · refine whole ⟨2 * (b * n) - b, ?_⟩
      have hy : y = 2 * (b * n) - b := by linarith
      have hb : b ≤ 2 * (b * n) := by
        have : (0 : K) ≤ 2 * (b * n) - b := hy ▸ (Nat.cast_nonneg m).trans hle
        have : (b : K) ≤ 2 * (b * n) := by linarith
        exact_mod_cast this
      rw [hy, Nat.cast_sub hb]
      push_cast
      ring
    · exact whole ⟨2 * (b * n) + b, by push_cast; linarith⟩
  · obtain ⟨h1, h2⟩ := q.up h1
    have h1' : (m : K) + sticky.toNat ≤ 2 * (b * n) := by exact_mod_cast h1
    refine ⟨by linarith, ?_⟩
    cases sticky with
    | false =>
      have h2' : 2 * (b * n : K) < m + 2 * b := by exact_mod_cast h2
      linarith
    | true =>
      have h2' : 2 * (b * n : K) ≤ m + 2 * b := by
        have : 2 * (b * n) ≤ m + 2 * b := by simp at h2; omega
        exact_mod_cast this
      have : (m : K) < y := lt_of_le_of_ne hle fun e => absurd (h.exact_iff.2 e.symm) (by decide)
      linarith
  · obtain ⟨h1, h2⟩ := q.down h0 h1
    have h1' : 2 * (b * n : K) ≤ m := by exact_mod_cast h1
    have h2' : (m : K) + 1 ≤ 2 * (b * n) + 2 * b := by exact_mod_cast h2
    exact ⟨by linarith, by linarith [h.lt]⟩

/-- The rounded quotient of a significand by a power of two, and whether it was inexact (R80). -/
theorem rounded_roundShift {mode : BitVec 2} {neg sticky : Bool} {m : Nat} {shift : Int} {y : K} (h : Stands m sticky y)
    (hs : sticky = true → 0 < shift) :
    let n := (roundShift mode neg m sticky shift).1
    Rounded mode neg y (n * 2 ^ shift : K) (2 ^ shift) (n % 2 = 0) ∧
    ((roundShift mode neg m sticky shift).2 = false ↔ (n * 2 ^ shift : K) = y) := by
  intro n
  rcases le_or_gt shift 0 with hle | hpos
  · obtain rfl : sticky = false := by
      cases sticky with
      | false => rfl
      | true => exact absurd (hs rfl) (by omega)
    have hn : (n * 2 ^ shift : K) = y := by
      have e : shift = -((-shift).toNat : Int) := by omega
      rw [h.exact_iff.1 rfl, show n = m * 2 ^ (-shift).toNat by simp [n, roundShift_of_nonpos mode neg m hle]]
      conv_lhs => rw [e]
      push_cast
      rw [zpow_neg, zpow_natCast, neg_neg, Int.toNat_natCast, mul_assoc, mul_inv_cancel₀ (by positivity), mul_one]
    have hu : (0 : K) < 2 ^ shift := by positivity
    rw [roundShift_of_nonpos mode neg m hle, hn]
    refine ⟨⟨fun _ => ?_, fun _ => ⟨le_rfl, by linarith⟩, fun _ _ => ⟨le_rfl, by linarith⟩⟩, by simp⟩
    rw [sub_self, abs_zero]
    exact ⟨by linarith, fun e => by linarith⟩
  · obtain ⟨j, hj⟩ : ∃ j : Nat, shift = (j + 1 : Nat) := ⟨(shift - 1).toNat, by omega⟩
    obtain ⟨q, hq⟩ := quotient_roundShift mode neg m sticky j
    subst hj
    have hu : (2 : K) ^ ((j + 1 : Nat) : Int) = 2 * (2 ^ j : Nat) := by rw [zpow_natCast, pow_succ]; push_cast; ring
    have hx : (n * 2 ^ ((j + 1 : Nat) : Int) : K) = 2 * ((2 ^ j : Nat) * n) := by rw [hu]; ring
    rw [hx, hu]
    refine ⟨q.rounded h, hq.trans ⟨fun ⟨e, hs⟩ => ?_, fun e => ?_⟩⟩
    · rw [h.exact_iff.1 hs]
      exact_mod_cast e.symm
    · have e' : ((2 * (2 ^ j * n) : Nat) : K) = y := by push_cast at e ⊢; exact e
      rw [← e'] at h
      exact h.eq_nat

end

end Sys2Proof.Proofs

end

section
/-!
PROOFS. The parts of a rounding: its binade, its last bit, its significand and its pattern without the sign (R80).
-/

namespace Sys2Proof.Proofs
open Sys2Proof Sys2Proof.Machine

set_option Elab.async false

/-! ### Formats -/

/-- What the proofs use of the sizes of the four formats (R79). -/
structure Sized (f : FFmt) : Prop where
  ebits : 2 ≤ f.ebits
  mbits : 7 ≤ f.mbits
  narrow : f.mbits ≤ 52
  range : f.mbits + 2 ≤ 2 ^ (f.ebits - 1)
  exponents : 2 ^ (f.ebits - 1) + f.mbits ≤ 2 ^ (f.mbits + 1)

theorem sized_of_mem {f : FFmt} (h : f ∈ [bf16, fp16, fp32, fp64]) : Sized f := by
  simp only [List.mem_cons, List.not_mem_nil, or_false] at h
  rcases h with rfl | rfl | rfl | rfl <;> constructor <;> decide

variable {f : FFmt}

/-- The bias as a natural number. -/
def biasNat (f : FFmt) : Nat := 2 ^ (f.ebits - 1) - 1

theorem bias_eq (f : FFmt) : f.bias = (biasNat f : Int) := by
  have := Nat.one_le_two_pow (n := f.ebits - 1)
  unfold FFmt.bias biasNat
  push_cast [Nat.cast_sub this]
  rfl

theorem emin_eq (f : FFmt) : f.emin = 1 - (biasNat f : Int) := by rw [FFmt.emin, bias_eq]

theorem Sized.bias_pos (h : Sized f) : f.mbits + 1 ≤ biasNat f := by
  have := h.range
  unfold biasNat
  omega

theorem Sized.emax_eq (h : Sized f) : f.emax = 2 * biasNat f + 1 := by
  have h2 : 2 ^ f.ebits = 2 * 2 ^ (f.ebits - 1) := by
    rw [← pow_succ', Nat.sub_add_cancel (by have := h.ebits; omega)]
  have := Nat.one_le_two_pow (n := f.ebits - 1)
  unfold FFmt.emax biasNat
  omega

/-! ### The parts of a rounding -/

/-- How many binades above the lowest a number lies; the subnormal range counts as the lowest. -/
def level (f : FFmt) (m : Nat) (e : Int) : Nat := (topExp m e - f.emin).toNat

/-- The exponent of the last bit of a rounded number. -/
def quantum (f : FFmt) (m : Nat) (e : Int) : Int := f.emin + level f m e - f.mbits

theorem quantum_eq (f : FFmt) (m : Nat) (e : Int) : max (topExp m e) f.emin - f.mbits = quantum f m e := by
  unfold quantum level
  omega

/-- The rounded significand. -/
def roundedSig (f : FFmt) (mode : BitVec 2) (neg : Bool) (m : Nat) (e : Int) (sticky : Bool) : Nat :=
  (roundShift mode neg m sticky (quantum f m e - e)).1

/-- A rounding is inexact. -/
def isInexact (f : FFmt) (mode : BitVec 2) (neg : Bool) (m : Nat) (e : Int) (sticky : Bool) : Bool :=
  (roundShift mode neg m sticky (quantum f m e - e)).2

/-- A number rounded with an unbounded exponent lies below the least normal value. -/
def isTiny (f : FFmt) (mode : BitVec 2) (neg : Bool) (m : Nat) (e : Int) (sticky : Bool) : Bool :=
  decide (topExp m e < f.emin) && !(topExp m e + 1 == f.emin &&
    (roundShift mode neg m sticky (topExp m e - f.mbits - e)).1 == 2 ^ (f.mbits + 1))

/-- The pattern of a rounded number without its sign; from the pattern of infinity on, the rounding overflows. -/
def roundedBody (f : FFmt) (mode : BitVec 2) (neg : Bool) (m : Nat) (e : Int) (sticky : Bool) : Nat :=
  level f m e * 2 ^ f.mbits + roundedSig f mode neg m e sticky

/-- The result of an overflow (R80, R82). -/
def overflowed (f : FFmt) (mode : BitVec 2) (neg : Bool) : FRes :=
  ⟨if mode = 0 ∨ awayFromZero mode neg = true then f.inf neg else f.largest neg, 5⟩

/-- A rounding is the rounded pattern, or the result of an overflow where that pattern is too great (R80). -/
theorem round_eq (h : Sized f) {mode : BitVec 2} {neg : Bool} {m : Nat} {e : Int} {sticky : Bool} (hm : 0 < m)
    (hn : roundedSig f mode neg m e sticky ≤ 2 * 2 ^ f.mbits)
    (hl : level f m e = 0 ∨ 2 ^ f.mbits ≤ roundedSig f mode neg m e sticky) :
    f.round mode neg m e sticky = if f.emax * 2 ^ f.mbits ≤ roundedBody f mode neg m e sticky then overflowed f mode neg
      else ⟨f.zero neg + roundedBody f mode neg m e sticky,
        (if isTiny f mode neg m e sticky && isInexact f mode neg m e sticky then 2 else 0) +
        (if isInexact f mode neg m e sticky then 1 else 0)⟩ := by
  have hp := Nat.two_pow_pos f.mbits
  have hb := h.bias_pos
  have hq : quantum f m e = 1 - (biasNat f : Int) + level f m e - f.mbits := by rw [quantum, emin_eq]
  have h2 : 2 ^ (f.mbits + 1) = 2 * 2 ^ f.mbits := pow_succ' _ _
  unfold FFmt.round
  rw [if_neg (by simp [hm.ne'])]
  simp only [quantum_eq]
  unfold roundedBody isTiny isInexact
  unfold roundedSig at hn hl ⊢
  rw [h.emax_eq, bias_eq]
  generalize roundShift mode neg m sticky (quantum f m e - e) = p at hn hl ⊢
  generalize roundShift mode neg m sticky (topExp m e - f.mbits - e) = p1
  obtain ⟨n, ix⟩ := p
  obtain ⟨n1, ix1⟩ := p1
  rw [hq, h2]
  dsimp only at hn hl ⊢
  generalize 2 ^ f.mbits = P at hp hn hl
  generalize level f m e = L at hl
  generalize biasNat f = B at hb
  have hmul (k : Nat) : (2 * B + 1) * P ≤ k * P ↔ 2 * B + 1 ≤ k := Nat.mul_le_mul_right_iff hp
  have mul_le {k l : Nat} (hk : k ≤ l) : k * P ≤ l * P := Nat.mul_le_mul_right P hk
  refine if_congr ?_ ?_ ?_
  · rw [Bool.and_eq_true, decide_eq_true_eq, decide_eq_true_eq]
    by_cases h2P : n = 2 * P
    · rw [if_pos h2P, if_pos h2P, h2P, show L * P + 2 * P = (L + 2) * P by ring, hmul]
      omega
    · rw [if_neg h2P, if_neg h2P]
      constructor
      · rintro ⟨h3, h4⟩
        have := mul_le (show 2 * B ≤ L by omega)
        rw [show (2 * B + 1) * P = 2 * B * P + P by ring]
        omega
      · intro h3
        have hPn : P ≤ n := by
          rcases hl with rfl | hl
          · have := mul_le (show 1 ≤ 2 * B + 1 by omega)
            omega
          · exact hl
        refine ⟨hPn, ?_⟩
        by_contra h4
        have := mul_le (show L + 2 ≤ 2 * B + 1 by omega)
        rw [show (L + 2) * P = L * P + 2 * P by ring] at this
        omega
  · have : mode = 0 ∨ mode = 1 ∨ mode = 2 ∨ mode = 3 := by revert mode; decide
    rcases this with rfl | rfl | rfl | rfl <;> cases neg <;> rfl
  · have hbody : (if (if n = 2 * P then P else n) < P then if n = 2 * P then P else n
        else (((if n = 2 * P then 1 - (B : Int) + L - f.mbits + 1 else 1 - B + L - f.mbits) + f.mbits + B).toNat - 1) * P +
          if n = 2 * P then P else n) = L * P + n := by
      by_cases h2P : n = 2 * P
      · rw [if_pos h2P, if_pos h2P, if_neg (lt_irrefl P),
          show (1 - (B : Int) + L - f.mbits + 1 + f.mbits + B).toNat - 1 = L + 1 by omega, h2P]
        ring
      · rw [if_neg h2P, if_neg h2P, show (1 - (B : Int) + L - f.mbits + f.mbits + B).toNat - 1 = L by omega]
        split
        · next hlt =>
          rcases hl with rfl | hl
          · omega
          · omega
        · rfl
    rw [hbody]
    rfl

/-! ### The size of a rounded number -/

/-- A significand with a remainder is longer than the format's. -/
def Precise (f : FFmt) (m : Nat) (sticky : Bool) : Prop := sticky = true → f.mbits < m.log2

theorem precise_exact (f : FFmt) (m : Nat) : Precise f m false := fun h => absurd h Bool.false_ne_true

theorem top_le_quantum (f : FFmt) (m : Nat) (e : Int) : topExp m e - f.mbits ≤ quantum f m e := by
  unfold quantum level
  omega

theorem quantum_of_level_pos {m : Nat} {e : Int} (h : level f m e ≠ 0) : quantum f m e = topExp m e - f.mbits := by
  unfold quantum level at *
  omega

section
variable {K : Type*} [Field K] [LinearOrder K] [IsStrictOrderedRing K] {m : Nat} {sticky : Bool} {y : K} {mode : BitVec 2}
  {neg : Bool}

theorem Stands.top_le (h : Stands m sticky y) (hm : 0 < m) (e : Int) : (2 : K) ^ topExp m e ≤ y * 2 ^ e := by
  have h1 : ((2 ^ m.log2 : Nat) : K) ≤ y := le_trans (by exact_mod_cast Nat.log2_self_le hm.ne') h.le
  rw [topExp, add_comm, zpow_add₀ two_ne_zero, zpow_natCast]
  push_cast at h1
  exact mul_le_mul_of_nonneg_right h1 (by positivity)

theorem Stands.lt_top (h : Stands m sticky y) (e : Int) : y * 2 ^ e < (2 : K) ^ (topExp m e + 1) := by
  have h1 : m + 1 ≤ 2 ^ (m.log2 + 1) := Nat.lt_log2_self
  have h2 : (m : K) + 1 ≤ 2 ^ (m.log2 + 1) := by exact_mod_cast h1
  have h3 : (topExp m e + 1 : Int) = ((m.log2 + 1 : Nat) : Int) + e := by rw [topExp]; push_cast; ring
  rw [h3, zpow_add₀ two_ne_zero, zpow_natCast]
  exact mul_lt_mul_of_pos_right (h.lt.trans_le h2) (by positivity)

/-- A quotient by a power of two at least as great as a last bit, in the scale of the number. -/
theorem rounded_at (h : Stands m sticky y) (hp : Precise f m sticky) {e q : Int} (hq : topExp m e - f.mbits ≤ q) :
    let n := (roundShift mode neg m sticky (q - e)).1
    Rounded mode neg (y * 2 ^ e) (n * 2 ^ q : K) (2 ^ q) (n % 2 = 0) ∧
    ((roundShift mode neg m sticky (q - e)).2 = false ↔ (n * 2 ^ q : K) = y * 2 ^ e) := by
  intro n
  obtain ⟨h1, h2⟩ := rounded_roundShift (mode := mode) (neg := neg) h (shift := q - e) fun hs => by
    have := hp hs
    unfold topExp at hq
    omega
  have he : (0 : K) < 2 ^ e := by positivity
  have hx (x : K) : x * 2 ^ (q - e) * 2 ^ e = x * 2 ^ q := by
    rw [mul_assoc, ← zpow_add₀ two_ne_zero, sub_add_cancel]
  have h3 := h1.mul he
  rw [hx, ← zpow_add₀ two_ne_zero, sub_add_cancel] at h3
  refine ⟨h3, h2.trans ?_⟩
  rw [← hx, mul_left_inj' he.ne']

theorem rounded_sig (h : Stands m sticky y) (hp : Precise f m sticky) (e : Int) :
    Rounded mode neg (y * 2 ^ e) (roundedSig f mode neg m e sticky * 2 ^ quantum f m e : K) (2 ^ quantum f m e)
      (roundedSig f mode neg m e sticky % 2 = 0) ∧
    (isInexact f mode neg m e sticky = false ↔ (roundedSig f mode neg m e sticky * 2 ^ quantum f m e : K) = y * 2 ^ e) :=
  rounded_at h hp (top_le_quantum f m e)

end

/-- The number half a unit up stands for a significand with a remainder. -/
theorem exists_stands (m : Nat) (sticky : Bool) : ∃ y : ℚ, Stands m sticky y := by
  cases sticky with
  | false => exact ⟨m, stands_exact m⟩
  | true => exact ⟨m + 1 / 2, by linarith, by linarith, by simp⟩

variable {m : Nat} {sticky : Bool} {mode : BitVec 2} {neg : Bool}

theorem sig_le (hp : Precise f m sticky) (e : Int) : roundedSig f mode neg m e sticky ≤ 2 * 2 ^ f.mbits := by
  obtain ⟨y, h⟩ := exists_stands m sticky
  obtain ⟨h1, -⟩ := rounded_sig (mode := mode) (neg := neg) h hp e
  have hu : (0 : ℚ) < 2 ^ quantum f m e := by positivity
  have h2 := h1.lt_add hu
  have h3 : y * 2 ^ e < 2 * 2 ^ f.mbits * 2 ^ quantum f m e := by
    refine (h.lt_top e).trans_le ?_
    rw [← pow_succ', ← zpow_natCast, ← zpow_add₀ two_ne_zero]
    refine zpow_le_zpow_right₀ one_le_two ?_
    have := top_le_quantum f m e
    push_cast
    omega
  have h4 : (roundedSig f mode neg m e sticky : ℚ) * 2 ^ quantum f m e < (2 * 2 ^ f.mbits + 1) * 2 ^ quantum f m e := by linarith
  have h5 : (roundedSig f mode neg m e sticky : ℚ) < 2 * 2 ^ f.mbits + 1 := lt_of_mul_lt_mul_right h4 hu.le
  exact Nat.lt_succ_iff.1 (by exact_mod_cast h5)

theorem le_sig (hm : 0 < m) (hp : Precise f m sticky) {e : Int} (ht : f.emin ≤ topExp m e) :
    2 ^ f.mbits ≤ roundedSig f mode neg m e sticky := by
  obtain ⟨y, h⟩ := exists_stands m sticky
  obtain ⟨h1, -⟩ := rounded_sig (mode := mode) (neg := neg) h hp e
  have hu : (0 : ℚ) < 2 ^ quantum f m e := by positivity
  have h2 := h1.lt_add' hu
  have h3 : 2 ^ f.mbits * 2 ^ quantum f m e ≤ y * 2 ^ e := by
    refine le_trans (le_of_eq ?_) (h.top_le hm e)
    rw [← zpow_natCast, ← zpow_add₀ two_ne_zero]
    congr 1
    unfold quantum level
    omega
  have h4 : (2 ^ f.mbits : ℚ) * 2 ^ quantum f m e < (roundedSig f mode neg m e sticky + 1) * 2 ^ quantum f m e := by linarith
  have h5 : (2 ^ f.mbits : ℚ) < roundedSig f mode neg m e sticky + 1 := lt_of_mul_lt_mul_right h4 hu.le
  exact Nat.lt_succ_iff.1 (by exact_mod_cast h5)

theorem level_zero_or_le_sig (hm : 0 < m) (hp : Precise f m sticky) (e : Int) :
    level f m e = 0 ∨ 2 ^ f.mbits ≤ roundedSig f mode neg m e sticky := by
  by_cases h : level f m e = 0
  · exact .inl h
  · refine .inr (le_sig hm hp ?_)
    unfold level at h
    omega

/-- A rounding, by its parts. -/
theorem round_parts (h : Sized f) (hm : 0 < m) (hp : Precise f m sticky) (e : Int) :
    f.round mode neg m e sticky = if f.emax * 2 ^ f.mbits ≤ roundedBody f mode neg m e sticky then overflowed f mode neg
      else ⟨f.zero neg + roundedBody f mode neg m e sticky,
        (if isTiny f mode neg m e sticky && isInexact f mode neg m e sticky then 2 else 0) +
        (if isInexact f mode neg m e sticky then 1 else 0)⟩ :=
  round_eq h hm (sig_le hp e) (level_zero_or_le_sig hm hp e)

end Sys2Proof.Proofs

end

section
/-!
PROOFS. The patterns of a format: sign, exponent field and fraction, and the values they are (R79).
-/

namespace Sys2Proof.Proofs
open Sys2Proof Sys2Proof.Machine

set_option Elab.async false

variable {f : FFmt}

/-! ### Patterns -/

/-- The value of the pattern `b` of a format without its sign, with a sign (R79). -/
def unsignedValue (f : FFmt) (neg : Bool) (b : Nat) : FVal :=
  if b / 2 ^ f.mbits = f.emax then
    if b % 2 ^ f.mbits = 0 then .inf neg else .nan (decide (b % 2 ^ f.mbits < 2 ^ (f.mbits - 1)))
  else if b / 2 ^ f.mbits = 0 then .num neg (b % 2 ^ f.mbits) (f.emin - f.mbits)
  else .num neg (2 ^ f.mbits + b % 2 ^ f.mbits) (f.emin - f.mbits + (b / 2 ^ f.mbits - 1 : Nat))

theorem zero_eq (f : FFmt) (neg : Bool) : f.zero neg = neg.toNat * 2 ^ (f.ebits + f.mbits) := by
  cases neg <;> simp [FFmt.zero]

theorem inf_eq (f : FFmt) (neg : Bool) : f.inf neg = f.zero neg + f.emax * 2 ^ f.mbits := rfl

theorem two_pow_width (f : FFmt) : 2 ^ f.width = 2 * 2 ^ (f.ebits + f.mbits) := by
  rw [FFmt.width, add_assoc, pow_add, pow_one]

theorem value_zero_add {neg : Bool} {b : Nat} (hb : b < 2 ^ (f.ebits + f.mbits)) :
    f.value (f.zero neg + b) = unsignedValue f neg b := by
  have hp := Nat.two_pow_pos f.mbits
  have hw : 2 ^ (f.ebits + f.mbits) = 2 ^ f.mbits * 2 ^ f.ebits := by rw [add_comm, pow_add]
  have h1 : (f.zero neg + b) % 2 ^ f.mbits = b % 2 ^ f.mbits := by
    rw [zero_eq, hw, show neg.toNat * (2 ^ f.mbits * 2 ^ f.ebits) = 2 ^ f.mbits * (neg.toNat * 2 ^ f.ebits) by ring,
      Nat.mul_add_mod]
  have h2 : (f.zero neg + b) / 2 ^ f.mbits % 2 ^ f.ebits = b / 2 ^ f.mbits := by
    rw [zero_eq, hw, show neg.toNat * (2 ^ f.mbits * 2 ^ f.ebits) = 2 ^ f.mbits * (2 ^ f.ebits * neg.toNat) by ring,
      Nat.mul_add_div hp, Nat.mul_add_mod]
    exact Nat.mod_eq_of_lt (Nat.div_lt_of_lt_mul (hw ▸ hb))
  have h3 : (f.zero neg + b) / 2 ^ (f.ebits + f.mbits) % 2 = neg.toNat := by
    rw [zero_eq, mul_comm, Nat.mul_add_div (Nat.two_pow_pos _), Nat.div_eq_of_lt hb]
    cases neg <;> rfl
  have h4 : (neg.toNat == 1) = neg := by cases neg <;> rfl
  unfold FFmt.value unsignedValue
  simp only [h1, h2, h3, h4]

/-- Every pattern is a sign and the rest. -/
theorem exists_pattern {x : Nat} (hx : x < 2 ^ f.width) :
    ∃ (neg : Bool) (b : Nat), b < 2 ^ (f.ebits + f.mbits) ∧ x = f.zero neg + b := by
  rw [two_pow_width] at hx
  by_cases h : x < 2 ^ (f.ebits + f.mbits)
  · exact ⟨false, x, h, by simp [zero_eq]⟩
  · exact ⟨true, x - 2 ^ (f.ebits + f.mbits), by omega, by simp [zero_eq]; omega⟩

theorem emax_mul_lt (f : FFmt) : f.emax * 2 ^ f.mbits + 2 ^ f.mbits = 2 ^ (f.ebits + f.mbits) := by
  have := Nat.two_pow_pos f.ebits
  rw [FFmt.emax, pow_add, ← Nat.succ_mul, Nat.succ_eq_add_one, Nat.sub_add_cancel this]

/-- The significand of a finite pattern. -/
def sigOf (f : FFmt) (b : Nat) : Nat := if b / 2 ^ f.mbits = 0 then b % 2 ^ f.mbits else 2 ^ f.mbits + b % 2 ^ f.mbits

/-- The exponent of the last bit of a finite pattern. -/
def expOf (f : FFmt) (b : Nat) : Int := f.emin - f.mbits + (b / 2 ^ f.mbits - 1 : Nat)

theorem unsignedValue_of_lt {neg : Bool} {b : Nat} (hb : b < f.emax * 2 ^ f.mbits) :
    unsignedValue f neg b = .num neg (sigOf f b) (expOf f b) := by
  have h := Nat.div_lt_of_lt_mul (mul_comm f.emax _ ▸ hb)
  unfold unsignedValue sigOf expOf
  rw [if_neg h.ne]
  split
  · next h0 => simp [h0]
  · rfl

theorem value_of_lt {neg : Bool} {b : Nat} (hb : b < f.emax * 2 ^ f.mbits) :
    f.value (f.zero neg + b) = .num neg (sigOf f b) (expOf f b) := by
  have := emax_mul_lt f
  have := Nat.two_pow_pos f.mbits
  rw [value_zero_add (by omega), unsignedValue_of_lt hb]

theorem value_inf (f : FFmt) (neg : Bool) : f.value (f.inf neg) = .inf neg := by
  have := emax_mul_lt f
  have hp := Nat.two_pow_pos f.mbits
  rw [inf_eq, value_zero_add (by omega), unsignedValue, Nat.mul_div_cancel _ hp, if_pos rfl, Nat.mul_mod_left, if_pos rfl]

theorem Sized.quiet (h : Sized f) : 2 * 2 ^ (f.mbits - 1) = 2 ^ f.mbits := by
  rw [← pow_succ', Nat.sub_add_cancel (by have := h.mbits; omega)]

theorem value_nan (h : Sized f) : f.value f.nan = .nan false := by
  have := emax_mul_lt f
  have hq := h.quiet
  have hp := Nat.two_pow_pos (f.mbits - 1)
  have e : f.nan = f.zero false + (f.emax * 2 ^ f.mbits + 2 ^ (f.mbits - 1)) := by simp [FFmt.nan, zero_eq]
  rw [e, value_zero_add (by omega), unsignedValue, mul_comm, Nat.mul_add_div (Nat.two_pow_pos _),
    Nat.div_eq_of_lt (by omega), add_zero, if_pos rfl, Nat.mul_add_mod, Nat.mod_eq_of_lt (by omega), if_neg (by omega)]
  simp

theorem largest_eq (h : Sized f) (neg : Bool) : f.largest neg = f.zero neg + (f.emax * 2 ^ f.mbits - 1) := by
  have : 0 < f.emax * 2 ^ f.mbits := by rw [h.emax_eq]; positivity
  unfold FFmt.largest
  omega

/-- The number that a rounded pattern is. -/
theorem sigOf_mul_expOf (l : Nat) {n : Nat} (hn : n ≤ 2 * 2 ^ f.mbits) (hl : l = 0 ∨ 2 ^ f.mbits ≤ n) :
    (sigOf f (l * 2 ^ f.mbits + n) : ℚ) * 2 ^ expOf f (l * 2 ^ f.mbits + n) = n * 2 ^ (f.emin + l - f.mbits : Int) := by
  have hp := Nat.two_pow_pos f.mbits
  have key (k j : Nat) (hj : j < 2 ^ f.mbits) : (k * 2 ^ f.mbits + j) / 2 ^ f.mbits = k ∧
      (k * 2 ^ f.mbits + j) % 2 ^ f.mbits = j := by
    rw [mul_comm, Nat.mul_add_div hp, Nat.mul_add_mod, Nat.div_eq_of_lt hj, Nat.mod_eq_of_lt hj]
    exact ⟨rfl, rfl⟩
  unfold sigOf expOf
  rcases Nat.lt_or_ge n (2 ^ f.mbits) with h | h
  · obtain rfl : l = 0 := hl.resolve_right (by omega)
    obtain ⟨h1, h2⟩ := key 0 n h
    rw [h1, h2, if_pos rfl]
    simp
  rcases Nat.lt_or_ge n (2 * 2 ^ f.mbits) with h' | h'
  · obtain ⟨h1, h2⟩ := key (l + 1) (n - 2 ^ f.mbits) (by omega)
    rw [show l * 2 ^ f.mbits + n = (l + 1) * 2 ^ f.mbits + (n - 2 ^ f.mbits) by rw [add_mul]; omega, h1, h2,
      if_neg (Nat.succ_ne_zero l), show 2 ^ f.mbits + (n - 2 ^ f.mbits) = n by omega, Nat.add_sub_cancel]
    congr 2
    ring
  · obtain rfl : n = 2 * 2 ^ f.mbits := by omega
    obtain ⟨h1, h2⟩ := key (l + 2) 0 hp
    rw [show l * 2 ^ f.mbits + 2 * 2 ^ f.mbits = (l + 2) * 2 ^ f.mbits + 0 by ring, h1, h2, if_neg (by omega)]
    rw [show (f.emin - f.mbits + (l + 2 - 1 : Nat) : Int) = (f.emin + l - f.mbits) + 1 by
        push_cast [show l + 2 - 1 = l + 1 by omega]; ring,
      zpow_add₀ two_ne_zero]
    push_cast
    ring

/-- The last bit of a rounded pattern is that of its significand. -/
theorem pattern_parity (h : Sized f) (neg : Bool) (l n : Nat) : (f.zero neg + (l * 2 ^ f.mbits + n)) % 2 = n % 2 := by
  obtain ⟨k, hk⟩ : ∃ k, f.mbits = k + 1 := ⟨f.mbits - 1, by have := h.mbits; omega⟩
  rw [zero_eq, hk, show neg.toNat * 2 ^ (f.ebits + (k + 1)) + (l * 2 ^ (k + 1) + n) =
    2 * (neg.toNat * 2 ^ (f.ebits + k) + l * 2 ^ k) + n by ring, Nat.mul_add_mod]

/-! ### Results that are a pattern of the format -/

/-- A pattern of the format, and the canonical NaN if it is one (R81). -/
def Canonical (f : FFmt) (x : Nat) : Prop := x < 2 ^ f.width ∧ ((f.value x).isNan = true → x = f.nan)

theorem canonical_zero_add {neg : Bool} {b : Nat} (hb : b ≤ f.emax * 2 ^ f.mbits) : Canonical f (f.zero neg + b) := by
  have := emax_mul_lt f
  have hp := Nat.two_pow_pos f.mbits
  refine ⟨?_, fun hn => ?_⟩
  · rw [two_pow_width, zero_eq]
    have := Nat.mul_le_mul_right (2 ^ (f.ebits + f.mbits)) (Bool.toNat_le neg)
    omega
  · rcases hb.lt_or_eq with hb | rfl
    · rw [value_of_lt hb] at hn
      exact absurd hn Bool.false_ne_true
    · rw [← inf_eq, value_inf] at hn
      exact absurd hn Bool.false_ne_true

theorem canonical_inf (f : FFmt) (neg : Bool) : Canonical f (f.inf neg) := canonical_zero_add le_rfl

theorem canonical_zero (f : FFmt) (neg : Bool) : Canonical f (f.zero neg) := canonical_zero_add (Nat.zero_le _)

theorem canonical_nan (h : Sized f) : Canonical f f.nan := by
  refine ⟨?_, fun _ => rfl⟩
  have := emax_mul_lt f
  have := h.quiet
  rw [two_pow_width, FFmt.nan]
  have := Nat.two_pow_pos (f.mbits - 1)
  omega

theorem canonical_overflowed (h : Sized f) (mode : BitVec 2) (neg : Bool) :
    Canonical f (overflowed f mode neg).bits := by
  unfold overflowed
  dsimp only
  split
  · exact canonical_inf f neg
  · rw [largest_eq h]
    exact canonical_zero_add (Nat.sub_le _ _)

theorem canonical_round (h : Sized f) {mode : BitVec 2} {neg : Bool} {m : Nat} {e : Int} {sticky : Bool} (hp : Precise f m sticky)
    (hm : 0 < m ∨ sticky = false) : Canonical f (f.round mode neg m e sticky).bits := by
  rcases Nat.eq_zero_or_pos m with rfl | hm0
  · obtain rfl : sticky = false := hm.resolve_left (lt_irrefl 0)
    exact canonical_zero f neg
  · rw [round_parts h hm0 hp]
    split
    · exact canonical_overflowed h mode neg
    · exact canonical_zero_add (by omega)

end Sys2Proof.Proofs

end

section
/-!
PROOFS. A number is rounded once, with the flags of R82 (R80).
-/

namespace Sys2Proof.Proofs
open Sys2Proof Sys2Proof.Machine

set_option Elab.async false

variable {f : FFmt} {m : Nat} {sticky : Bool} {mode : BitVec 2} {neg : Bool} {y : ℚ}

/-! ### A number with a sign -/

/-- A magnitude with a sign. -/
def signedRat (neg : Bool) (a : ℚ) : ℚ := (if neg then -1 else 1) * a

theorem abs_signedRat (neg : Bool) {a : ℚ} (ha : 0 ≤ a) : |signedRat neg a| = a := by
  cases neg <;> simp [signedRat, abs_of_nonneg ha]

theorem signedRat_inj {a b : ℚ} : signedRat neg a = signedRat neg b ↔ a = b := by
  cases neg <;> simp [signedRat]

theorem signedRat_sub (neg : Bool) (a b : ℚ) : signedRat neg a - signedRat neg b = signedRat neg (a - b) := by
  unfold signedRat
  ring

theorem rat_num (neg : Bool) (m : Nat) (e : Int) : (FVal.num neg m e).rat = signedRat neg (m * 2 ^ e) := by
  unfold FVal.rat signedRat
  ring

/-- A rounding of the magnitude is a rounding of the number (R80). -/
theorem Rounded.nearest {a x u : ℚ} {even : Prop} (h : Rounded mode neg a x u even) (ha : 0 ≤ a) (hx : 0 ≤ x) :
    Nearest mode (signedRat neg a) (signedRat neg x) u even where
  rne h0 := by
    have e : |signedRat neg x - signedRat neg a| = |x - a| := by
      rw [signedRat_sub]
      cases neg <;> simp [signedRat, abs_sub_comm]
    rw [e]
    exact h.near h0
  rtz h0 := by
    rw [abs_signedRat neg ha, abs_signedRat neg hx]
    exact h.down (by rw [h0]; decide) (by rw [h0]; cases neg <;> rfl)
  rup h0 := by
    subst h0
    cases neg with
    | false =>
      obtain ⟨h1, h2⟩ := h.up rfl
      exact ⟨by simpa [signedRat] using h1, by simpa [signedRat] using h2⟩
    | true =>
      obtain ⟨h1, h2⟩ := h.down (by decide) rfl
      exact ⟨by simpa [signedRat] using h1, by simp only [signedRat, if_true]; linarith⟩
  rdn h0 := by
    subst h0
    cases neg with
    | true =>
      obtain ⟨h1, h2⟩ := h.up rfl
      exact ⟨by simpa [signedRat] using h1, by simp only [signedRat, if_true]; linarith⟩
    | false =>
      obtain ⟨h1, h2⟩ := h.down (by decide) rfl
      exact ⟨by simpa [signedRat] using h1, by simpa [signedRat] using h2⟩

/-! ### The binade of a number -/

theorem log_of_stands (h : Stands m sticky y) (hm : 0 < m) (e : Int) : Int.log 2 (y * 2 ^ e) = topExp m e := by
  have h1 := h.top_le hm e
  have h2 := h.lt_top e
  have hpos : 0 < y * 2 ^ e := lt_of_lt_of_le (by positivity) h1
  refine le_antisymm ?_ ?_
  · have := (Int.lt_zpow_iff_log_lt (b := 2) one_lt_two hpos).1 (by exact_mod_cast h2)
    omega
  · exact (Int.zpow_le_iff_le_log (b := 2) one_lt_two hpos).1 (by exact_mod_cast h1)

theorem Stands.pos (h : Stands m sticky y) (hm : 0 < m) (e : Int) : 0 < y * 2 ^ e :=
  lt_of_lt_of_le (by positivity) (h.top_le hm e)

theorem spacing_of_stands (h : Stands m sticky y) (hm : 0 < m) (e : Int) :
    f.spacing (signedRat neg (y * 2 ^ e)) = 2 ^ quantum f m e := by
  rw [FFmt.spacing, abs_signedRat neg (h.pos hm e).le, log_of_stands h hm, quantum_eq]

/-! ### Overflow -/

/-- The bound of an overflow for a magnitude `a`, where the greatest binade has `P` significands `U` apart (R80). -/
def PastGreatest (mode : BitVec 2) (neg : Bool) (P : Nat) (U a : ℚ) : Prop :=
  if mode = 0 then (2 * P - 1) * U + U / 2 ≤ a
  else if awayFromZero mode neg then (2 * P - 1) * U < a else 2 * P * U ≤ a

theorem two_pow_bias_succ (f : FFmt) : (2 : ℚ) ^ (f.bias + 1) = 2 * (2 ^ f.mbits : Nat) * 2 ^ (f.bias - f.mbits) := by
  push_cast
  rw [← pow_succ', ← zpow_natCast, ← zpow_add₀ two_ne_zero]
  congr 1
  push_cast
  ring

theorem greatest_eq (f : FFmt) : f.greatest = (2 * (2 ^ f.mbits : Nat) - 1) * 2 ^ (f.bias - f.mbits) := by
  rw [FFmt.greatest, pow_succ']
  push_cast
  rfl

theorem tooBig_signedRat (f : FFmt) {a : ℚ} (ha : 0 ≤ a) :
    f.tooBig mode neg (signedRat neg a) ↔ PastGreatest mode neg (2 ^ f.mbits) (2 ^ (f.bias - f.mbits)) a := by
  rw [FFmt.tooBig, PastGreatest, abs_signedRat neg ha, greatest_eq, two_pow_bias_succ]

section
variable {P : Nat} {U a : ℚ}

theorem pastGreatest_of_le (hU : 0 < U) (h : 2 * P * U ≤ a) : PastGreatest mode neg P U a := by
  unfold PastGreatest
  rw [sub_mul]
  split
  · linarith
  · split
    · linarith
    · exact h

theorem not_pastGreatest_of_lt (hU : 0 < U) (hP : 0 < P) (h : a < P * U) : ¬ PastGreatest mode neg P U a := by
  have h1 : (1 : ℚ) ≤ P := by exact_mod_cast hP
  have h2 : U ≤ P * U := le_mul_of_one_le_left hU.le h1
  unfold PastGreatest
  rw [sub_mul, show 2 * (P : ℚ) * U = 2 * (P * U) by ring]
  split
  · linarith
  · split
    · linarith
    · linarith

/-- In the greatest binade a number overflows that is rounded up to the next power of two. -/
theorem pastGreatest_iff {n : Nat} (hU : 0 < U) (ha : a < 2 * P * U) (hr : Rounded mode neg a (n * U) U (n % 2 = 0)) :
    PastGreatest mode neg P U a ↔ 2 * P ≤ n := by
  have above (h : 2 * P ≤ n) : 2 * P * U ≤ n * U := mul_le_mul_of_nonneg_right (by exact_mod_cast h) hU.le
  have below (h : ¬ 2 * P ≤ n) : n * U ≤ (2 * P - 1) * U := by
    have h1 : (n : ℚ) + 1 ≤ 2 * P := by exact_mod_cast (show n + 1 ≤ 2 * P by omega)
    exact mul_le_mul_of_nonneg_right (by linarith) hU.le
  unfold PastGreatest
  rcases mode_cases mode neg with h0 | ⟨h0, h1⟩ | ⟨h0, h1⟩
  · obtain ⟨hnear, htie⟩ := hr.near h0
    obtain ⟨hlow, hhigh⟩ := abs_le.1 hnear
    rw [if_pos h0]
    refine ⟨fun hle => ?_, fun h => ?_⟩
    · by_contra h
      have h2 := below h
      have heq : (n : ℚ) * U = (2 * P - 1) * U := by linarith
      have hodd : n + 1 = 2 * P := by
        have : (n : ℚ) + 1 = 2 * P := by linarith [mul_right_cancel₀ hU.ne' heq]
        exact_mod_cast this
      have := htie (by rw [abs_of_nonpos (by linarith)]; linarith)
      omega
    · linarith [above h]
  · obtain ⟨hlow, hhigh⟩ := hr.up h1
    rw [if_neg h0, if_pos h1]
    refine ⟨fun hlt => ?_, fun h => ?_⟩
    · by_contra h
      linarith [below h]
    · linarith [above h]
  · obtain ⟨hlow, hhigh⟩ := hr.down h0 h1
    rw [if_neg h0, if_neg (by simp [h1])]
    exact ⟨fun hle => by linarith, fun h => by linarith [above h]⟩

end

/-- A number overflows where its rounded pattern is that of infinity or greater. -/
theorem tooBig_iff (h : Sized f) (hy : Stands m sticky y) (hm : 0 < m) (hp : Precise f m sticky) (e : Int) :
    f.tooBig mode neg (signedRat neg (y * 2 ^ e)) ↔ f.emax * 2 ^ f.mbits ≤ roundedBody f mode neg m e sticky := by
  obtain ⟨hr, -⟩ := rounded_sig (mode := mode) (neg := neg) hy hp e
  have hn := sig_le (mode := mode) (neg := neg) hp e
  have hl := level_zero_or_le_sig (mode := mode) (neg := neg) hm hp e
  have htop := hy.top_le hm e
  have hlt := hy.lt_top e
  have hb := h.bias_pos
  have hmin := emin_eq f
  have hbias := bias_eq f
  have hU : (0 : ℚ) < 2 ^ (f.bias - f.mbits) := by positivity
  have hlev : level f m e = (topExp m e - f.emin).toNat := rfl
  rw [tooBig_signedRat f (hy.pos hm e).le, roundedBody, h.emax_eq]
  rcases lt_trichotomy (level f m e) (2 * biasNat f - 1) with hL | hL | hL
  · have ha : y * 2 ^ e < (2 ^ f.mbits : Nat) * 2 ^ (f.bias - f.mbits) := by
      push_cast
      rw [← zpow_natCast, ← zpow_add₀ two_ne_zero]
      exact hlt.trans_le (zpow_le_zpow_right₀ one_le_two (by omega))
    refine iff_of_false (not_pastGreatest_of_lt hU (Nat.two_pow_pos _) ha) ?_
    have h3 := Nat.mul_le_mul_right (2 ^ f.mbits) (show level f m e + 3 ≤ 2 * biasNat f + 1 by omega)
    rw [add_mul] at h3
    have := Nat.two_pow_pos f.mbits
    omega
  · have hq : quantum f m e = f.bias - f.mbits := by
      rw [quantum, hL]
      omega
    have ha : y * 2 ^ e < 2 * (2 ^ f.mbits : Nat) * 2 ^ (f.bias - f.mbits) := by
      rw [← two_pow_bias_succ]
      exact hlt.trans_le (zpow_le_zpow_right₀ one_le_two (by omega))
    rw [hq] at hr
    rw [pastGreatest_iff hU ha hr, show 2 * biasNat f + 1 = level f m e + 2 by omega, add_mul]
    omega
  · have ha : 2 * (2 ^ f.mbits : Nat) * 2 ^ (f.bias - f.mbits) ≤ y * 2 ^ e := by
      rw [← two_pow_bias_succ]
      exact (zpow_le_zpow_right₀ one_le_two (by omega)).trans htop
    refine iff_of_true (pastGreatest_of_le hU ha) ?_
    have := Nat.mul_le_mul_right (2 ^ f.mbits) (show 2 * biasNat f ≤ level f m e by omega)
    have := hl.resolve_left (by omega)
    rw [add_mul]
    omega

/-! ### The rounding of an exact number -/

/-- A rounding that does not overflow is the number that its significand and its last bit give. -/
theorem value_body (hm : 0 < m) (hp : Precise f m sticky) {e : Int}
    (hb : roundedBody f mode neg m e sticky < f.emax * 2 ^ f.mbits) :
    ∃ n k, f.value (f.zero neg + roundedBody f mode neg m e sticky) = .num neg n k ∧
      (n : ℚ) * 2 ^ k = roundedSig f mode neg m e sticky * 2 ^ quantum f m e :=
  ⟨_, _, value_of_lt hb, sigOf_mul_expOf _ (sig_le hp e) (level_zero_or_le_sig hm hp e)⟩

theorem bit_flags (p q : Bool) : bit ((if p then 2 else 0) + (if q then 1 else 0)) 0 = q ∧
    bit ((if p then 2 else 0) + (if q then 1 else 0)) 1 = p ∧
    bit ((if p then 2 else 0) + (if q then 1 else 0)) 2 = false ∧ (if p then 2 else 0) + (if q then 1 else 0) < 8 := by
  cases p <;> cases q <;> decide

theorem top_lt_emin (h : Stands m sticky y) (hm : 0 < m) {e : Int}
    (hle : y * 2 ^ e + 2 ^ quantum f m e / 2 ≤ 2 ^ f.emin) : topExp m e < f.emin := by
  by_contra hc
  have h1 : (2 : ℚ) ^ f.emin ≤ 2 ^ topExp m e := zpow_le_zpow_right₀ one_le_two (by omega)
  have h2 := h.top_le hm e
  have h3 : (0 : ℚ) < 2 ^ quantum f m e := by positivity
  linarith

/-- A number at least half a unit below the least normal one is tiny after rounding (R82). -/
theorem tiny_of_le (h : Stands m sticky y) (hm : 0 < m) (hp : Precise f m sticky) {e : Int}
    (hle : y * 2 ^ e + 2 ^ quantum f m e / 2 ≤ 2 ^ f.emin) : isTiny f mode neg m e sticky = true := by
  have htop := top_lt_emin h hm hle
  have hq : quantum f m e = f.emin - f.mbits := by
    unfold quantum level
    omega
  unfold isTiny
  rw [decide_eq_true htop, Bool.true_and, Bool.not_eq_true', Bool.and_eq_false_iff]
  by_contra hc
  rw [not_or, Bool.not_eq_false, Bool.not_eq_false, beq_iff_eq, beq_iff_eq] at hc
  obtain ⟨h1, h2⟩ := hc
  obtain ⟨hr, -⟩ := rounded_at (mode := mode) (neg := neg) h hp (e := e) (q := topExp m e - f.mbits) le_rfl
  rw [h2] at hr
  have h3 := hr.lt_add (by positivity)
  have h4 : ((2 ^ (f.mbits + 1) : Nat) : ℚ) * 2 ^ (topExp m e - f.mbits) = 2 ^ f.emin := by
    push_cast
    rw [← zpow_natCast, ← zpow_add₀ two_ne_zero]
    congr 1
    push_cast
    omega
  have h5 : (2 : ℚ) ^ quantum f m e / 2 = 2 ^ (topExp m e - f.mbits) := by
    rw [hq, show (f.emin - f.mbits : Int) = (topExp m e - f.mbits) + 1 by omega, zpow_add₀ two_ne_zero]
    ring
  rw [h4] at h3
  linarith

/-- A number is rounded once, with its flags (R80, R82). -/
theorem roundedOnce_round (h : Sized f) (hy : Stands m sticky y) (hm : 0 < m) (hp : Precise f m sticky) (e : Int) :
    RoundedOnce f mode neg (signedRat neg (y * 2 ^ e)) (f.round mode neg m e sticky) := by
  have hbig := tooBig_iff (mode := mode) (neg := neg) h hy hm hp e
  have ha := hy.pos hm e
  rw [round_parts h hm hp]
  by_cases hc : f.emax * 2 ^ f.mbits ≤ roundedBody f mode neg m e sticky
  · rw [if_pos hc]
    have htoo := hbig.2 hc
    have h4 : ¬ |signedRat neg (y * 2 ^ e)| + f.spacing (signedRat neg (y * 2 ^ e)) / 2 ≤ 2 ^ f.emin := by
      rw [abs_signedRat neg ha.le, spacing_of_stands hy hm]
      intro hle
      have htop := top_lt_emin hy hm hle
      have hl : level f m e = 0 := by
        unfold level
        omega
      have hn := sig_le (mode := mode) (neg := neg) hp e
      have hb := h.bias_pos
      have := Nat.mul_le_mul_right (2 ^ f.mbits) (show 3 ≤ 2 * biasNat f + 1 by omega)
      have := Nat.two_pow_pos f.mbits
      rw [roundedBody, hl, h.emax_eq] at hc
      omega
    have b0 : bit 5 0 = true := by decide
    have b1 : ¬ bit 5 1 = true := by decide
    have b2 : bit 5 2 = true := by decide
    exact ⟨⟨fun _ => rfl, fun hn => absurd htoo hn⟩, (by decide : 5 < 8), iff_of_true b2 htoo, iff_of_true b0 (.inr htoo),
      fun hf => absurd hf b1, fun _ hle => absurd hle h4⟩
  · rw [if_neg hc]
    have hnot := mt hbig.1 hc
    obtain ⟨hr, hi⟩ := rounded_sig (mode := mode) (neg := neg) hy hp e
    obtain ⟨n, k, hv, hnk⟩ := value_body hm hp (by omega : roundedBody f mode neg m e sticky < f.emax * 2 ^ f.mbits)
    obtain ⟨b0, b1, b2, b8⟩ := bit_flags (isTiny f mode neg m e sticky && isInexact f mode neg m e sticky)
      (isInexact f mode neg m e sticky)
    refine ⟨⟨fun hy => absurd hy hnot, fun _ => ⟨n, k, hv, ?_⟩⟩, b8, ?_, ?_, fun hf => ?_, fun hf hle => ?_⟩
    · rw [rat_num, hnk, spacing_of_stands hy hm, roundedBody, pattern_parity h]
      exact hr.nearest ha.le (by positivity)
    · rw [b2]
      exact iff_of_false Bool.false_ne_true hnot
    · rw [b0, hv, rat_num, hnk, ne_eq, signedRat_inj, ← hi, Bool.not_eq_false, or_iff_left hnot]
    · rw [b1, Bool.and_eq_true] at hf
      obtain ⟨ht, hx⟩ := hf
      rw [b0, abs_signedRat neg ha.le]
      refine ⟨hx, (hy.lt_top e).trans_le (zpow_le_zpow_right₀ one_le_two ?_)⟩
      unfold isTiny at ht
      rw [Bool.and_eq_true, decide_eq_true_eq] at ht
      omega
    · rw [abs_signedRat neg ha.le, spacing_of_stands hy hm] at hle
      rw [b0] at hf
      rw [b1, hf, tiny_of_le hy hm hp hle, Bool.and_true]

end Sys2Proof.Proofs

end

section
/-!
PROOFS. Numbers that a format has are rounded to themselves, and sums and products are rounded exactly (R80, R116).
-/

namespace Sys2Proof.Proofs
open Sys2Proof Sys2Proof.Machine

set_option Elab.async false

variable {f : FFmt} {mode : BitVec 2} {neg : Bool}

/-! ### Numbers that a format has -/

theorem le_greatest (f : FFmt) : (2 : ℚ) ^ f.bias ≤ f.greatest := by
  have h1 : (1 : ℚ) ≤ 2 ^ f.mbits := one_le_pow₀ one_le_two
  have h2 : (2 : ℚ) ^ f.bias = 2 ^ f.mbits * 2 ^ (f.bias - f.mbits) := by
    rw [← zpow_natCast, ← zpow_add₀ two_ne_zero]
    congr 1
    ring
  rw [FFmt.greatest, h2, pow_succ']
  exact mul_le_mul_of_nonneg_right (by linarith) (by positivity)

theorem greatest_lt (f : FFmt) : f.greatest < 2 ^ (f.bias + 1) := by
  have : (2 : ℚ) ^ (f.bias + 1) = 2 ^ (f.mbits + 1) * 2 ^ (f.bias - f.mbits) := by
    rw [← zpow_natCast, ← zpow_add₀ two_ne_zero]
    congr 1
    push_cast
    ring
  rw [FFmt.greatest, this]
  exact mul_lt_mul_of_pos_right (by linarith) (by positivity)

theorem not_tooBig_of_le {v : ℚ} (h : |v| ≤ f.greatest) : ¬ f.tooBig mode neg v := by
  have hU : (0 : ℚ) < 2 ^ (f.bias - f.mbits) := by positivity
  have h2 := greatest_lt f
  unfold FFmt.tooBig
  split
  · linarith
  · split
    · exact not_lt.2 h
    · linarith

/-- A number that the format has is rounded to itself. -/
theorem round_exact (h : Sized f) {m j : Nat} {e E : Int} (hm : 0 < m) (ha : (m : ℚ) * 2 ^ e = j * 2 ^ E)
    (hj : j < 2 ^ (f.mbits + 1)) (hE : f.emin - f.mbits ≤ E) (hle : (m : ℚ) * 2 ^ e ≤ f.greatest) :
    ∃ n k, f.value (f.round mode neg m e false).bits = .num neg n k ∧ (n : ℚ) * 2 ^ k = m * 2 ^ e ∧
      (f.round mode neg m e false).flags = 0 := by
  have hy := stands_exact (K := ℚ) m
  have hp := precise_exact f m
  have hpos := hy.pos hm e
  have hc : ¬ f.emax * 2 ^ f.mbits ≤ roundedBody f mode neg m e false := by
    rw [← tooBig_iff h hy hm hp e]
    exact not_tooBig_of_le (by rwa [abs_signedRat neg hpos.le])
  have hq : quantum f m e ≤ E := by
    have h1 : (2 : ℚ) ^ topExp m e < 2 ^ ((f.mbits + 1 : Nat) + E) := by
      refine (hy.top_le hm e).trans_lt ?_
      rw [ha, zpow_add₀ two_ne_zero, zpow_natCast]
      exact mul_lt_mul_of_pos_right (by exact_mod_cast hj) (by positivity)
    have h2 := (zpow_lt_zpow_iff_right₀ (one_lt_two (α := ℚ))).1 h1
    push_cast at h2
    unfold quantum level
    omega
  obtain ⟨hr, hi⟩ := rounded_sig (mode := mode) (neg := neg) hy hp e
  have hu : (0 : ℚ) < 2 ^ quantum f m e := by positivity
  have hJ : (m : ℚ) * 2 ^ e = (j * 2 ^ (E - quantum f m e).toNat : Nat) * 2 ^ quantum f m e := by
    rw [ha]
    push_cast
    rw [mul_assoc, ← zpow_natCast, ← zpow_add₀ two_ne_zero]
    congr 2
    omega
  have hn : (roundedSig f mode neg m e false : ℚ) * 2 ^ quantum f m e = m * 2 ^ e := by
    have h1 := hr.lt_add hu
    have h2 := hr.lt_add' hu
    rw [hJ] at h1 h2 ⊢
    have h1' : (roundedSig f mode neg m e false : ℚ) < (j * 2 ^ (E - quantum f m e).toNat : Nat) + 1 :=
      lt_of_mul_lt_mul_right (by linarith) hu.le
    have h2' : ((j * 2 ^ (E - quantum f m e).toNat : Nat) : ℚ) < roundedSig f mode neg m e false + 1 :=
      lt_of_mul_lt_mul_right (by linarith) hu.le
    have h1'' := Nat.lt_succ_iff.1 (by exact_mod_cast h1')
    have h2'' := Nat.lt_succ_iff.1 (by exact_mod_cast h2')
    rw [le_antisymm h1'' h2'']
  obtain ⟨n, k, hv, hnk⟩ := value_body (mode := mode) (neg := neg) hm hp (e := e) (by omega)
  rw [round_parts h hm hp, if_neg hc]
  refine ⟨n, k, hv, hnk.trans hn, ?_⟩
  rw [hi.2 hn]
  simp

/-! ### Sums -/

theorem rat_addExact (na : Bool) (ma : Nat) (ea : Int) (nb : Bool) (mb : Nat) (eb : Int) :
    ((addExact na ma ea nb mb eb).1 : ℚ) * 2 ^ (addExact na ma ea nb mb eb).2 =
      (FVal.num na ma ea).rat + (FVal.num nb mb eb).rat := by
  have shift (m : Nat) {e : Int} (he : min ea eb ≤ e) : (m : ℚ) * 2 ^ (e - min ea eb).toNat * 2 ^ min ea eb = m * 2 ^ e := by
    rw [mul_assoc, ← zpow_natCast, ← zpow_add₀ two_ne_zero]
    congr 2
    omega
  have ha := shift ma (min_le_left ea eb)
  have hb := shift mb (min_le_right ea eb)
  unfold addExact
  rw [rat_num, rat_num, ← ha, ← hb]
  cases na <;> cases nb <;> simp [signedRat] <;> ring

theorem signedRat_natAbs (z e : Int) : signedRat (decide (z < 0)) ((z.natAbs : ℚ) * 2 ^ e) = z * 2 ^ e := by
  have hz : ((z.natAbs : Int) : ℚ) = |(z : ℚ)| := by rw [Int.natCast_natAbs]; push_cast; rfl
  rw [Int.cast_natCast] at hz
  rw [hz]
  by_cases h : z < 0
  · have : (z : ℚ) < 0 := by exact_mod_cast h
    simp [signedRat, h, abs_of_neg this]
  · have : (0 : ℚ) ≤ z := by exact_mod_cast not_lt.1 h
    simp [signedRat, h, abs_of_nonneg this]

theorem mul_zpow_neg_iff (z e : Int) : (z : ℚ) * 2 ^ e < 0 ↔ z < 0 := by
  have : (0 : ℚ) < 2 ^ e := by positivity
  rw [mul_neg_iff]
  simp [this, this.not_gt]

theorem mul_zpow_eq_zero_iff (z e : Int) : (z : ℚ) * 2 ^ e = 0 ↔ z = 0 := by
  have : (2 : ℚ) ^ e ≠ 0 := by positivity
  simp [this]

theorem roundedOnce_exact (h : Sized f) {m : Nat} (hm : 0 < m) (e : Int) :
    RoundedOnce f mode neg (FVal.num neg m e).rat (f.round mode neg m e false) := by
  rw [rat_num]
  exact roundedOnce_round h (stands_exact m) hm (precise_exact f m) e

theorem sum_num (mode : BitVec 2) (na nb : Bool) (ma mb : Nat) (ea eb : Int) :
    f.sum mode (.num na ma ea) (.num nb mb eb) =
      if (addExact na ma ea nb mb eb).1 = 0 then ⟨f.zero (if na = nb then na else mode == 3), 0⟩
      else f.round mode (decide ((addExact na ma ea nb mb eb).1 < 0)) (addExact na ma ea nb mb eb).1.natAbs
        (addExact na ma ea nb mb eb).2 false := by
  have : (mode == 3) = (mode.toNat == 3) := by revert mode; decide
  rw [this]
  rfl

theorem isExactly_sum (h : Sized f) (mode : BitVec 2) (na nb : Bool) (ma mb : Nat) (ea eb : Int) :
    IsExactly f mode ((FVal.num na ma ea).rat + (FVal.num nb mb eb).rat) (if na = nb then na else mode == 3)
      (f.sum mode (.num na ma ea) (.num nb mb eb)) := by
  rw [← rat_addExact, sum_num, IsExactly]
  generalize (addExact na ma ea nb mb eb).1 = z
  generalize (addExact na ma ea nb mb eb).2 = e
  by_cases hz : z = 0
  · rw [if_pos hz, if_pos ((mul_zpow_eq_zero_iff z e).2 hz)]
  · rw [if_neg hz, if_neg (mt (mul_zpow_eq_zero_iff z e).1 hz), show decide ((z : ℚ) * 2 ^ e < 0) = decide (z < 0) by
      rw [decide_eq_decide, mul_zpow_neg_iff]]
    have := roundedOnce_exact h (mode := mode) (neg := decide (z < 0)) (Int.natAbs_pos.2 hz) e
    rwa [rat_num, signedRat_natAbs] at this

theorem rat_neg (n : Bool) (m : Nat) (e : Int) : (FVal.num n m e).neg.rat = -(FVal.num n m e).rat := by
  cases n <;> simp [FVal.neg, FVal.rat]

theorem rat_mul (na nb : Bool) (ma mb : Nat) (ea eb : Int) :
    (FVal.num (na != nb) (ma * mb) (ea + eb)).rat = (FVal.num na ma ea).rat * (FVal.num nb mb eb).rat := by
  rw [FVal.rat, FVal.rat, FVal.rat, zpow_add₀ two_ne_zero]
  cases na <;> cases nb <;> push_cast <;> simp <;> ring

theorem rat_eq_zero_iff (n : Bool) (m : Nat) (e : Int) : (FVal.num n m e).rat = 0 ↔ m = 0 := by
  have : (2 : ℚ) ^ e ≠ 0 := by positivity
  cases n <;> simp [FVal.rat, this]

theorem rat_neg_iff {n : Bool} {m : Nat} (e : Int) (hm : 0 < m) : (FVal.num n m e).rat < 0 ↔ n = true := by
  have : (0 : ℚ) < m * 2 ^ e := by positivity
  cases n
  · simp [FVal.rat, this.le]
  · simp [FVal.rat, this]

theorem isExactly_ofVal (h : Sized f) (mode : BitVec 2) (n : Bool) (m : Nat) (e : Int) :
    IsExactly f mode (FVal.num n m e).rat n (f.round mode n m e false) := by
  unfold IsExactly
  rcases Nat.eq_zero_or_pos m with rfl | hm
  · rw [if_pos ((rat_eq_zero_iff n 0 e).2 rfl)]
    rfl
  · rw [if_neg (by rw [rat_eq_zero_iff]; omega), show decide ((FVal.num n m e).rat < 0) = n by
      rw [Bool.eq_iff_iff, decide_eq_true_iff, rat_neg_iff e hm]]
    exact roundedOnce_exact h hm e

end Sys2Proof.Proofs

end

section
/-!
PROOFS. The operations on patterns: exact operands, NaNs and infinities, and canonical results (R81, R116, R119).
-/

namespace Sys2Proof.Proofs
open Sys2Proof Sys2Proof.Machine

set_option Elab.async false

variable {f : FFmt} {mode : BitVec 2} {a b d : Nat}

/-! ### Sums and products of patterns -/

theorem isExactly_add (h : Sized f) {na nb : Bool} {ma mb : Nat} {ea eb : Int} (ha : f.value a = .num na ma ea)
    (hb : f.value b = .num nb mb eb) :
    IsExactly f mode ((FVal.num na ma ea).rat + (FVal.num nb mb eb).rat) (if na = nb then na else mode == 3)
      (f.add mode a b) := by
  rw [FFmt.add, ha, hb]
  exact isExactly_sum h mode na nb ma mb ea eb

theorem isExactly_sub (h : Sized f) {na nb : Bool} {ma mb : Nat} {ea eb : Int} (ha : f.value a = .num na ma ea)
    (hb : f.value b = .num nb mb eb) :
    IsExactly f mode ((FVal.num na ma ea).rat - (FVal.num nb mb eb).rat) (if na ≠ nb then na else mode == 3)
      (f.sub mode a b) := by
  rw [FFmt.sub, ha, hb, sub_eq_add_neg, ← rat_neg, show (if na ≠ nb then na else mode == 3) =
    if na = !nb then na else mode == 3 by cases na <;> cases nb <;> rfl]
  exact isExactly_sum h mode na (!nb) ma mb ea eb

theorem mul_num {na nb : Bool} {ma mb : Nat} {ea eb : Int} (ha : f.value a = .num na ma ea)
    (hb : f.value b = .num nb mb eb) : f.mul mode a b = f.round mode (na != nb) (ma * mb) (ea + eb) false := by
  rw [FFmt.mul, ha, hb]
  exact congrArg (FRes.mk _) (Nat.or_zero _)

theorem isExactly_mul (h : Sized f) {na nb : Bool} {ma mb : Nat} {ea eb : Int} (ha : f.value a = .num na ma ea)
    (hb : f.value b = .num nb mb eb) :
    IsExactly f mode ((FVal.num na ma ea).rat * (FVal.num nb mb eb).rat) (na != nb) (f.mul mode a b) := by
  rw [mul_num ha hb, ← rat_mul]
  exact isExactly_ofVal h mode _ _ _

theorem isExactly_fma (h : Sized f) {na nb nd : Bool} {ma mb md : Nat} {ea eb ed : Int} (ha : f.value a = .num na ma ea)
    (hb : f.value b = .num nb mb eb) (hd : f.value d = .num nd md ed) :
    IsExactly f mode ((FVal.num na ma ea).rat * (FVal.num nb mb eb).rat + (FVal.num nd md ed).rat)
      (if (na != nb) = nd then nd else mode == 3) (f.fma mode a b d) := by
  have e : f.fma mode a b d = f.sum mode (.num (na != nb) (ma * mb) (ea + eb)) (.num nd md ed) := by
    rw [FFmt.fma, ha, hb, hd]
    exact congrArg (FRes.mk _) (Nat.or_zero _)
  rw [e, ← rat_mul, show (if (na != nb) = nd then nd else mode == 3) = if (na != nb) = nd then (na != nb) else mode == 3 by
    split <;> simp_all]
  exact isExactly_sum h mode _ nd _ md _ ed

/-! ### NaNs and infinities -/

theorem nan_of_isNan {x : FVal} (h : x.isNan = true) : ∃ g, x = .nan g ∧ x.isSig = g := by
  cases x with
  | nan g => exact ⟨g, rfl, rfl⟩
  | inf => exact absurd h Bool.false_ne_true
  | num => exact absurd h Bool.false_ne_true

theorem sum_nan {x y : FVal} (h : x.isNan = true ∨ y.isNan = true) :
    f.sum mode x y = ⟨f.nan, nvOf (x.isSig || y.isSig)⟩ := by
  unfold FFmt.sum
  rw [if_pos (by simpa using h)]

theorem isNan_neg (x : FVal) : x.neg.isNan = x.isNan := by cases x <;> rfl

theorem isSig_neg (x : FVal) : x.neg.isSig = x.isSig := by cases x <;> rfl

theorem add_nan (h : (f.value a).isNan = true ∨ (f.value b).isNan = true) :
    f.add mode a b = ⟨f.nan, nvOf ((f.value a).isSig || (f.value b).isSig)⟩ := sum_nan h

theorem sub_nan (h : (f.value a).isNan = true ∨ (f.value b).isNan = true) :
    f.sub mode a b = ⟨f.nan, nvOf ((f.value a).isSig || (f.value b).isSig)⟩ := by
  rw [← isSig_neg (f.value b)]
  exact sum_nan (by rwa [isNan_neg])

theorem mul_nan (h : (f.value a).isNan = true ∨ (f.value b).isNan = true) :
    f.mul mode a b = ⟨f.nan, nvOf ((f.value a).isSig || (f.value b).isSig)⟩ := by
  unfold FFmt.mul FVal.mul
  rw [if_pos (by simpa using h)]
  exact congrArg (FRes.mk _) (Nat.zero_or _)

theorem add_inf_inf {p q : Bool} (ha : f.value a = .inf p) (hb : f.value b = .inf q) :
    f.add mode a b = if p = q then ⟨f.inf p, 0⟩ else ⟨f.nan, 16⟩ := by
  rw [FFmt.add, ha, hb]
  rfl

theorem sub_inf_inf {p q : Bool} (ha : f.value a = .inf p) (hb : f.value b = .inf q) :
    f.sub mode a b = if p = q then ⟨f.nan, 16⟩ else ⟨f.inf p, 0⟩ := by
  rw [FFmt.sub, ha, hb]
  cases p <;> cases q <;> rfl

theorem mul_inf_inf {p q : Bool} (ha : f.value a = .inf p) (hb : f.value b = .inf q) :
    f.mul mode a b = ⟨f.inf (p != q), 0⟩ := by
  have hx : (FVal.inf p).mul (.inf q) = (.inf (p != q), 0) := rfl
  rw [FFmt.mul, ha, hb, hx]
  exact congrArg (FRes.mk _) (Nat.or_zero _)

theorem add_inf_num {p q : Bool} {m : Nat} {e : Int} (ha : f.value a = .inf p) (hb : f.value b = .num q m e) :
    f.add mode a b = ⟨f.inf p, 0⟩ ∧ f.sub mode a b = ⟨f.inf p, 0⟩ ∧ f.add mode b a = ⟨f.inf p, 0⟩ ∧
      f.sub mode b a = ⟨f.inf (!p), 0⟩ := by
  unfold FFmt.add FFmt.sub
  rw [ha, hb]
  exact ⟨rfl, rfl, rfl, rfl⟩

theorem mul_inf_num {p q : Bool} {m : Nat} {e : Int} (ha : f.value a = .inf p) (hb : f.value b = .num q m e) :
    f.mul mode a b = (if m = 0 then ⟨f.nan, 16⟩ else ⟨f.inf (p != q), 0⟩) ∧
    f.mul mode b a = (if m = 0 then ⟨f.nan, 16⟩ else ⟨f.inf (p != q), 0⟩) := by
  have hx : (FVal.inf p).mul (.num q m e) = if m = 0 then (.nan false, 16) else (.inf (p != q), 0) := rfl
  have hy : (FVal.num q m e).mul (.inf p) = if m = 0 then (.nan false, 16) else (.inf (q != p), 0) := rfl
  unfold FFmt.mul
  rw [ha, hb, hx, hy, show (q != p) = (p != q) by cases p <;> cases q <;> rfl]
  by_cases hm : m = 0
  · rw [if_pos hm, if_pos hm]
    exact ⟨congrArg (FRes.mk _) (Nat.zero_or _), congrArg (FRes.mk _) (Nat.zero_or _)⟩
  · rw [if_neg hm, if_neg hm]
    exact ⟨congrArg (FRes.mk _) (Nat.or_zero _), congrArg (FRes.mk _) (Nat.or_zero _)⟩

/-! ### Results are canonical -/

theorem canonical_ofVal (h : Sized f) (mode : BitVec 2) (x : FVal) : Canonical f (f.ofVal mode x).bits := by
  cases x with
  | nan => exact canonical_nan h
  | inf n => exact canonical_inf f n
  | num n m e => exact canonical_round h (precise_exact f m) (.inr rfl)

theorem canonical_sum (h : Sized f) (mode : BitVec 2) (x y : FVal) : Canonical f (f.sum mode x y).bits := by
  cases hn : x.isNan || y.isNan with
  | true =>
    rw [sum_nan (by simpa using hn)]
    exact canonical_nan h
  | false =>
    cases x with
    | nan => exact absurd hn (by simp [FVal.isNan])
    | inf p =>
      cases y with
      | nan => exact absurd hn (by simp [FVal.isNan])
      | inf q =>
        change Canonical f (if p = q then (⟨f.inf p, 0⟩ : FRes) else ⟨f.nan, flagNV⟩).bits
        split
        · exact canonical_inf f p
        · exact canonical_nan h
      | num => exact canonical_inf f p
    | num na ma ea =>
      cases y with
      | nan => exact absurd hn (by simp [FVal.isNan])
      | inf q => exact canonical_inf f q
      | num nb mb eb =>
        rw [sum_num]
        split
        · exact canonical_zero f _
        · exact canonical_round h (precise_exact f _) (.inr rfl)

theorem canonical_minmax (h : Sized f) (w : Bool) (ha : a < 2 ^ f.width) (hb : b < 2 ^ f.width) :
    Canonical f (f.minmax w a b).bits := by
  have of_num {x : Nat} (hx : x < 2 ^ f.width) (hn : ¬ (f.value x).isNan = true) : Canonical f x :=
    ⟨hx, fun h => absurd h hn⟩
  unfold FFmt.minmax
  dsimp only
  split
  · exact canonical_nan h
  next h0 =>
  rw [Bool.and_eq_true] at h0
  split
  next h1 => exact of_num hb fun h2 => h0 ⟨h1, h2⟩
  next h1 =>
  split
  · exact of_num ha h1
  next h2 =>
  split
  · exact of_num hb h2
  · exact of_num ha h1

/-- The pattern of a number or an infinity, without its sign. -/
theorem le_of_not_nan {neg : Bool} (hb : b < 2 ^ (f.ebits + f.mbits)) (h : (unsignedValue f neg b).isNan = false) :
    b ≤ f.emax * 2 ^ f.mbits := by
  by_contra hc
  have hp := Nat.two_pow_pos f.mbits
  have he := emax_mul_lt f
  have h1 : b / 2 ^ f.mbits = f.emax := by
    refine Nat.div_eq_of_lt_le (by omega) ?_
    rw [Nat.succ_mul]
    omega
  have h2 : b % 2 ^ f.mbits ≠ 0 := by
    intro h0
    have := Nat.div_add_mod b (2 ^ f.mbits)
    rw [h1, h0, mul_comm] at this
    omega
  rw [unsignedValue, if_pos h1, if_neg h2] at h
  exact absurd h (by simp [FVal.isNan])

/-! ### FABS and FNEG -/

theorem signOp_nan {g negate : Bool} (h : f.value a = .nan g) : f.signOp negate a = ⟨f.nan, nvOf g⟩ := by
  unfold FFmt.signOp
  rw [h]

/-- The sign of a pattern that is no NaN is cleared or changed, and nothing else. -/
theorem signOp_zero_add {neg negate : Bool} (hb : b < 2 ^ (f.ebits + f.mbits))
    (h : (f.value (f.zero neg + b)).isNan = false) :
    f.signOp negate (f.zero neg + b) = ⟨f.zero (negate && !neg) + b, 0⟩ := by
  have h1 : (f.zero neg + b) % 2 ^ (f.ebits + f.mbits) = b := by
    rw [zero_eq, mul_comm, Nat.mul_add_mod, Nat.mod_eq_of_lt hb]
  have h2 : (f.zero neg + b) / 2 ^ (f.ebits + f.mbits) % 2 = neg.toNat := by
    rw [zero_eq, mul_comm, Nat.mul_add_div (Nat.two_pow_pos _), Nat.div_eq_of_lt hb]
    cases neg <;> rfl
  unfold FFmt.signOp
  dsimp only
  rw [h1, h2]
  split
  next e =>
    rw [e] at h
    exact absurd h (by simp [FVal.isNan])
  · cases negate <;> cases neg <;> simp [zero_eq]

theorem unsignedValue_neg (neg : Bool) (b : Nat) : (unsignedValue f neg b).neg = unsignedValue f (!neg) b := by
  unfold unsignedValue
  split
  · split <;> rfl
  · split <;> rfl

theorem isNeg_unsignedValue {neg : Bool} (h : (unsignedValue f neg b).isNan = false) :
    (unsignedValue f neg b).isNeg = neg := by
  unfold unsignedValue at h ⊢
  split
  · next h1 =>
    rw [if_pos h1] at h
    split
    · rfl
    · next h2 =>
      rw [if_neg h2] at h
      exact absurd h (by simp [FVal.isNan])
  · split <;> rfl

theorem value_signOp (ha : a < 2 ^ f.width) (h : (f.value a).isNan = false) :
    f.value (f.signOp true a).bits = (f.value a).neg ∧
    f.value (f.signOp false a).bits = (if (f.value a).isNeg then (f.value a).neg else f.value a) ∧
    (f.signOp true a).flags = 0 ∧ (f.signOp false a).flags = 0 := by
  obtain ⟨neg, b, hb, rfl⟩ := exists_pattern ha
  rw [signOp_zero_add hb h, signOp_zero_add hb h]
  rw [value_zero_add hb] at h
  simp only [value_zero_add hb, isNeg_unsignedValue h, unsignedValue_neg]
  cases neg <;> simp

theorem canonical_signOp (h : Sized f) (negate : Bool) (ha : a < 2 ^ f.width) :
    Canonical f (f.signOp negate a).bits := by
  cases hn : (f.value a).isNan with
  | true =>
    obtain ⟨g, e, -⟩ := nan_of_isNan hn
    rw [signOp_nan e]
    exact canonical_nan h
  | false =>
    obtain ⟨neg, b, hb, rfl⟩ := exists_pattern ha
    rw [signOp_zero_add hb hn]
    rw [value_zero_add hb] at hn
    exact canonical_zero_add (le_of_not_nan hb hn)

end Sys2Proof.Proofs

end

section
/-!
PROOFS. The order of values, minimumNumber, maximumNumber and the comparisons (R81, R117, R118).
-/

namespace Sys2Proof.Proofs
open Sys2Proof Sys2Proof.Machine

set_option Elab.async false

variable {f : FFmt} {mode : BitVec 2} {a b : Nat} {x y : FVal}

/-! ### The order of values -/

theorem ext_num (n : Bool) (m : Nat) (e : Int) :
    (FVal.num n m e).ext = (((FVal.num n m e).rat : WithTop ℚ) : WithBot (WithTop ℚ)) := rfl

theorem cmp_num (na nb : Bool) (ma mb : Nat) (ea eb : Int) :
    (FVal.num na ma ea).cmp (.num nb mb eb) = cmp (FVal.num na ma ea).rat (FVal.num nb mb eb).rat := by
  have h := rat_addExact na ma ea (!nb) mb eb
  have hn : (FVal.num (!nb) mb eb).rat = -(FVal.num nb mb eb).rat := rat_neg nb mb eb
  rw [hn] at h
  have hc : (FVal.num na ma ea).cmp (.num nb mb eb) = compare (addExact na ma ea (!nb) mb eb).1 0 := rfl
  have hpos : (0 : ℚ) < 2 ^ (addExact na ma ea (!nb) mb eb).2 := by positivity
  rw [hc]
  generalize (addExact na ma ea (!nb) mb eb).1 = z at *
  generalize (2 : ℚ) ^ (addExact na ma ea (!nb) mb eb).2 = c at *
  rcases lt_trichotomy z 0 with hz | hz | hz
  · have : (z : ℚ) * c < 0 := mul_neg_of_neg_of_pos (by exact_mod_cast hz) hpos
    rw [compare_lt_iff_lt.2 hz, LT.lt.cmp_eq_lt (by linarith)]
  · rw [hz] at h ⊢
    rw [compare_eq_iff_eq.2 rfl, Eq.cmp_eq_eq (by simp at h; linarith)]
  · have : 0 < (z : ℚ) * c := mul_pos (by exact_mod_cast hz) hpos
    rw [compare_gt_iff_gt.2 hz, LT.lt.cmp_eq_gt (by linarith)]

theorem bot_lt_num (n : Bool) (m : Nat) (e : Int) : (FVal.inf true).ext < (FVal.num n m e).ext := WithBot.bot_lt_coe _

theorem num_lt_top (n : Bool) (m : Nat) (e : Int) : (FVal.num n m e).ext < (FVal.inf false).ext :=
  WithBot.coe_lt_coe.2 (WithTop.coe_lt_top _)

theorem bot_lt_top_ext : (FVal.inf true).ext < (FVal.inf false).ext := WithBot.bot_lt_coe _

theorem ext_num_lt (na nb : Bool) (ma mb : Nat) (ea eb : Int) :
    (FVal.num na ma ea).ext < (FVal.num nb mb eb).ext ↔ (FVal.num na ma ea).rat < (FVal.num nb mb eb).rat := by
  rw [ext_num, ext_num, WithBot.coe_lt_coe, WithTop.coe_lt_coe]

theorem ext_num_eq (na nb : Bool) (ma mb : Nat) (ea eb : Int) :
    (FVal.num na ma ea).ext = (FVal.num nb mb eb).ext ↔ (FVal.num na ma ea).rat = (FVal.num nb mb eb).rat := by
  rw [ext_num, ext_num, WithBot.coe_inj, WithTop.coe_inj]

/-- The comparison of the model is that of the extended line. -/
theorem cmp_ext (hx : x.isNan = false) (hy : y.isNan = false) : x.cmp y = cmp x.ext y.ext := by
  cases x with
  | nan => exact absurd hx (by simp [FVal.isNan])
  | inf p =>
    cases y with
    | nan => exact absurd hy (by simp [FVal.isNan])
    | inf q =>
      cases p <;> cases q
      · exact (Eq.cmp_eq_eq rfl).symm
      · exact bot_lt_top_ext.cmp_eq_gt.symm
      · exact bot_lt_top_ext.cmp_eq_lt.symm
      · exact (Eq.cmp_eq_eq rfl).symm
    | num nb mb eb =>
      cases p
      · exact (num_lt_top nb mb eb).cmp_eq_gt.symm
      · exact (bot_lt_num nb mb eb).cmp_eq_lt.symm
  | num na ma ea =>
    cases y with
    | nan => exact absurd hy (by simp [FVal.isNan])
    | inf q =>
      cases q
      · exact (num_lt_top na ma ea).cmp_eq_lt.symm
      · exact (bot_lt_num na ma ea).cmp_eq_gt.symm
    | num nb mb eb =>
      rw [cmp_num]
      rcases lt_trichotomy (FVal.num na ma ea).rat (FVal.num nb mb eb).rat with h | h | h
      · rw [h.cmp_eq_lt, ((ext_num_lt na nb ma mb ea eb).2 h).cmp_eq_lt]
      · rw [Eq.cmp_eq_eq h, Eq.cmp_eq_eq ((ext_num_eq na nb ma mb ea eb).2 h)]
      · rw [h.cmp_eq_gt, ((ext_num_lt nb na mb ma eb ea).2 h).cmp_eq_gt]

/-- One value is less than another, -0 below +0 (R81). -/
def Less (u v : FVal) : Prop := u.ext < v.ext ∨ (u.ext = v.ext ∧ u.isNeg = true ∧ v.isNeg = false)

theorem below_iff (hx : x.isNan = false) (hy : y.isNan = false) : x.below y = true ↔ Less x y := by
  unfold FVal.below Less
  rw [cmp_ext hx hy]
  rcases lt_trichotomy x.ext y.ext with h | h | h
  · rw [h.cmp_eq_lt]
    exact iff_of_true rfl (.inl h)
  · rw [Eq.cmp_eq_eq h]
    simp [h]
  · rw [h.cmp_eq_gt]
    exact iff_of_false Bool.false_ne_true fun hc => hc.elim (fun h' => h.not_gt h') fun h' => h.ne' h'.1

theorem Less.asymm (h : Less x y) : ¬ Less y x := by
  rintro (h' | ⟨h1, h2, h3⟩)
  · rcases h with h | ⟨h, -⟩
    · exact h.not_gt h'
    · exact h'.ne' h
  · rcases h with h | ⟨-, h4, h5⟩
    · exact h.ne' h1
    · rw [h4] at h3
      exact absurd h3 (by simp)

/-! ### A pattern is given by its value -/

theorem sigOf_lt (f : FFmt) (b : Nat) : sigOf f b < 2 * 2 ^ f.mbits := by
  have := Nat.mod_lt b (Nat.two_pow_pos f.mbits)
  unfold sigOf
  split <;> omega

/-- Patterns of the same magnitude are the same. -/
theorem pattern_inj {b c : Nat} (h : (sigOf f b : ℚ) * 2 ^ expOf f b = sigOf f c * 2 ^ expOf f c) : b = c := by
  wlog hle : b / 2 ^ f.mbits - 1 ≤ c / 2 ^ f.mbits - 1 generalizing b c
  · exact (this h.symm (by omega)).symm
  have hp := Nat.two_pow_pos f.mbits
  have hb := sigOf_lt f b
  have hs : sigOf f b = sigOf f c * 2 ^ ((c / 2 ^ f.mbits - 1) - (b / 2 ^ f.mbits - 1)) := by
    have hu : (0 : ℚ) < 2 ^ expOf f b := by positivity
    have he : expOf f c = ((c / 2 ^ f.mbits - 1 - (b / 2 ^ f.mbits - 1) : Nat) : Int) + expOf f b := by
      unfold expOf
      omega
    rw [he, zpow_add₀ two_ne_zero, zpow_natCast, ← mul_assoc] at h
    exact_mod_cast mul_right_cancel₀ hu.ne' h
  have hbm := Nat.mod_lt b hp
  have hcm := Nat.mod_lt c hp
  have hbd := Nat.div_add_mod b (2 ^ f.mbits)
  have hcd := Nat.div_add_mod c (2 ^ f.mbits)
  rcases hle.lt_or_eq with hlt | heq
  · exfalso
    have h1 : 2 ^ f.mbits ≤ sigOf f c := by
      unfold sigOf
      rw [if_neg (by omega)]
      omega
    have h2 : 2 ≤ 2 ^ (c / 2 ^ f.mbits - 1 - (b / 2 ^ f.mbits - 1)) := Nat.le_self_pow (by omega) 2
    have h3 := Nat.mul_le_mul h1 h2
    omega
  · rw [heq, Nat.sub_self, pow_zero, mul_one] at hs
    have hdiv : b / 2 ^ f.mbits = c / 2 ^ f.mbits := by
      unfold sigOf at hs
      generalize b / 2 ^ f.mbits = i at *
      generalize c / 2 ^ f.mbits = j at *
      split at hs <;> split at hs <;> omega
    have hmod : b % 2 ^ f.mbits = c % 2 ^ f.mbits := by
      unfold sigOf at hs
      rw [hdiv] at hs
      split at hs <;> omega
    rw [← hbd, ← hcd, hdiv, hmod]

theorem unsignedValue_emax (f : FFmt) (neg : Bool) : unsignedValue f neg (f.emax * 2 ^ f.mbits) = .inf neg := by
  have := emax_mul_lt f
  have := Nat.two_pow_pos f.mbits
  rw [← value_inf f, inf_eq, value_zero_add (show f.emax * 2 ^ f.mbits < 2 ^ (f.ebits + f.mbits) by omega)]

/-- Patterns of the same sign and place on the extended line are the same. -/
theorem value_ext_inj (ha : a < 2 ^ f.width) (hb : b < 2 ^ f.width) (hx : (f.value a).isNan = false)
    (hy : (f.value b).isNan = false) (he : (f.value a).ext = (f.value b).ext)
    (hn : (f.value a).isNeg = (f.value b).isNeg) : a = b := by
  obtain ⟨p, b1, hb1, rfl⟩ := exists_pattern ha
  obtain ⟨q, b2, hb2, rfl⟩ := exists_pattern hb
  rw [value_zero_add hb1] at hx he hn
  rw [value_zero_add hb2] at hy he hn
  rw [isNeg_unsignedValue hx, isNeg_unsignedValue hy] at hn
  subst hn
  congr 1
  rcases (le_of_not_nan hb1 hx).lt_or_eq with h1 | rfl <;> rcases (le_of_not_nan hb2 hy).lt_or_eq with h2 | rfl
  · rw [unsignedValue_of_lt h1, unsignedValue_of_lt h2, ext_num_eq, rat_num, rat_num, signedRat_inj] at he
    exact pattern_inj he
  · rw [unsignedValue_of_lt h1, unsignedValue_emax] at he
    cases p
    · exact absurd he (num_lt_top _ _ _).ne
    · exact absurd he (bot_lt_num _ _ _).ne'
  · rw [unsignedValue_of_lt h2, unsignedValue_emax] at he
    cases p
    · exact absurd he (num_lt_top _ _ _).ne'
    · exact absurd he (bot_lt_num _ _ _).ne
  · rfl

/-! ### minimumNumber, maximumNumber and the comparisons -/

theorem minmax_num (w : Bool) (hx : (f.value a).isNan = false) (hy : (f.value b).isNan = false) :
    f.minmax w a b = ⟨if (f.value b).below (f.value a) != w then b else a, 0⟩ := by
  have hs {v : FVal} (h : v.isNan = false) : v.isSig = false := by
    cases v with
    | nan => exact absurd h (by simp [FVal.isNan])
    | inf => rfl
    | num => rfl
  unfold FFmt.minmax
  simp only [hx, hy, hs hx, hs hy, Bool.and_self, Bool.or_self, Bool.false_eq_true, if_false]
  split <;> rfl

theorem minmax_less (ha : a < 2 ^ f.width) (hb : b < 2 ^ f.width) (hx : (f.value a).isNan = false)
    (hy : (f.value b).isNan = false) :
    (Less (f.value a) (f.value b) → f.minmax false a b = ⟨a, 0⟩ ∧ f.minmax true a b = ⟨b, 0⟩) ∧
    (Less (f.value b) (f.value a) → f.minmax false a b = ⟨b, 0⟩ ∧ f.minmax true a b = ⟨a, 0⟩) ∧
    (¬ Less (f.value a) (f.value b) → ¬ Less (f.value b) (f.value a) →
      a = b ∧ f.minmax false a b = ⟨a, 0⟩ ∧ f.minmax true a b = ⟨a, 0⟩) := by
  rw [minmax_num false hx hy, minmax_num true hx hy]
  have hiff := below_iff hy hx
  refine ⟨fun h => ?_, fun h => ?_, fun h1 h2 => ?_⟩
  · rw [Bool.eq_false_iff.2 (mt hiff.1 h.asymm)]
    exact ⟨rfl, rfl⟩
  · rw [hiff.2 h]
    exact ⟨rfl, rfl⟩
  · have hab : a = b := by
      unfold Less at h1 h2
      push Not at h1 h2
      obtain ⟨h1, h3⟩ := h1
      obtain ⟨h2, h4⟩ := h2
      have he := le_antisymm h2 h1
      refine value_ext_inj ha hb hx hy he ?_
      have h3 := h3 he
      have h4 := h4 he.symm
      cases hp : (f.value a).isNeg <;> cases hq : (f.value b).isNeg <;> simp_all
    subst hab
    simp

theorem minmax_nan (w : Bool) (h : (f.value a).isNan = true ∨ (f.value b).isNan = true) :
    f.minmax w a b = ⟨if (f.value a).isNan = false then a else if (f.value b).isNan = false then b else f.nan,
      nvOf ((f.value a).isSig || (f.value b).isSig)⟩ := by
  unfold FFmt.minmax
  cases hx : (f.value a).isNan <;> cases hy : (f.value b).isNan
  · simp [hx, hy] at h
  all_goals simp [hx, hy]

theorem rel_num (hx : (f.value a).isNan = false) (hy : (f.value b).isNan = false) :
    f.rel 0 a b = (decide ((f.value a).ext = (f.value b).ext), 0) ∧
    f.rel 1 a b = (decide ((f.value a).ext ≠ (f.value b).ext), 0) ∧
    f.rel 2 a b = (decide ((f.value a).ext < (f.value b).ext), 0) ∧
    f.rel 3 a b = (decide ((f.value a).ext ≤ (f.value b).ext), 0) := by
  unfold FFmt.rel
  simp only [hx, hy, Bool.or_self, Bool.false_eq_true, if_false, cmp_ext hx hy]
  rcases lt_trichotomy (f.value a).ext (f.value b).ext with h | h | h
  · rw [h.cmp_eq_lt]
    simp [h, h.ne, h.le]
  · rw [Eq.cmp_eq_eq h]
    simp [h]
  · rw [h.cmp_eq_gt]
    simp [h.ne', h.not_gt, h.not_ge]

theorem rel_nan (m : BitVec 2) (h : (f.value a).isNan = true ∨ (f.value b).isNan = true) :
    f.rel m a b = (m == 1, if 2 ≤ m.toNat then 16 else nvOf ((f.value a).isSig || (f.value b).isSig)) := by
  unfold FFmt.rel
  dsimp only
  rw [if_pos (by simpa using h), show (m.toNat == 1) = (m == 1) by revert m; decide]
  rfl

end Sys2Proof.Proofs

end

section
/-!
PROOFS. The fields of a pattern and the integral roundings (R79, R96, R119).
-/

namespace Sys2Proof.Proofs
open Sys2Proof Sys2Proof.Machine

set_option Elab.async false

variable {f : FFmt} {mode : BitVec 2} {neg : Bool} {a b : Nat}

/-! ### The fields of a pattern (R79) -/

theorem bit_eq_decide (x i : Nat) : bit x i = (x / 2 ^ i % 2 == 1) := by
  rw [bit, Nat.testBit_eq_decide_div_mod_eq]
  rfl

theorem bit_mod (x : Nat) {i n : Nat} (h : i < n) : bit (x % 2 ^ n) i = bit x i := by
  rw [bit, Nat.testBit_mod_two_pow, decide_eq_true h, Bool.true_and, bit]

theorem value_of_top (h : Sized f) {x : Nat} (hx : bits x f.mbits f.ebits = 2 ^ f.ebits - 1) :
    f.value x = if bits x 0 f.mbits = 0 then .inf (bit x (f.ebits + f.mbits)) else .nan (!bit x (f.mbits - 1)) := by
  have hs : decide (x % 2 ^ f.mbits < 2 ^ (f.mbits - 1)) = !bit x (f.mbits - 1) := by
    have hq := h.quiet
    have hlt := Nat.mod_lt x (Nat.two_pow_pos f.mbits)
    rw [← bit_mod x (show f.mbits - 1 < f.mbits by have := h.mbits; omega), bit_eq_decide]
    generalize x % 2 ^ f.mbits = r at *
    by_cases hr : r < 2 ^ (f.mbits - 1)
    · rw [Nat.div_eq_of_lt hr, decide_eq_true hr]
      rfl
    · rw [Nat.div_eq_of_lt_le (k := 1) (by omega) (by omega), decide_eq_false hr]
      rfl
  have hx' : x / 2 ^ f.mbits % 2 ^ f.ebits = f.emax := hx
  unfold FFmt.value bits
  simp only [hx', if_true, hs, bit_eq_decide, pow_zero, Nat.div_one]

theorem value_of_not_top {x : Nat} (hx : bits x f.mbits f.ebits ≠ 2 ^ f.ebits - 1) :
    ∃ m e, f.value x = .num (bit x (f.ebits + f.mbits)) m e ∧
      (FVal.num (bit x (f.ebits + f.mbits)) m e).rat = (if bit x (f.ebits + f.mbits) then -1 else 1) *
        (if bits x f.mbits f.ebits = 0 then (bits x 0 f.mbits : ℚ) / 2 ^ f.mbits * 2 ^ (1 - f.bias)
         else (1 + (bits x 0 f.mbits : ℚ) / 2 ^ f.mbits) * 2 ^ ((bits x f.mbits f.ebits : Int) - f.bias)) := by
  have hx' : x / 2 ^ f.mbits % 2 ^ f.ebits ≠ f.emax := hx
  have hP : (2 : ℚ) ^ f.mbits ≠ 0 := by positivity
  have hfrac : bits x 0 f.mbits = x % 2 ^ f.mbits := by rw [bits, pow_zero, Nat.div_one]
  have hv : f.value x = if x / 2 ^ f.mbits % 2 ^ f.ebits = 0 then
        .num (bit x (f.ebits + f.mbits)) (x % 2 ^ f.mbits) (f.emin - f.mbits)
      else .num (bit x (f.ebits + f.mbits)) (2 ^ f.mbits + x % 2 ^ f.mbits)
        (f.emin - f.mbits + (x / 2 ^ f.mbits % 2 ^ f.ebits - 1 : Nat)) := by
    unfold FFmt.value
    simp only [if_neg hx', bit_eq_decide]
  rw [hfrac, hv, bits]
  generalize x / 2 ^ f.mbits % 2 ^ f.ebits = ex
  generalize x % 2 ^ f.mbits = r
  split
  · refine ⟨_, _, rfl, ?_⟩
    rw [rat_num, signedRat, FFmt.emin, zpow_sub₀ two_ne_zero, zpow_natCast]
    ring
  · next h0 =>
    refine ⟨_, _, rfl, ?_⟩
    have he : f.emin - f.mbits + (ex - 1 : Nat) = ((ex : Int) - f.bias) - f.mbits := by
      rw [FFmt.emin]
      omega
    rw [rat_num, signedRat, he, zpow_sub₀ two_ne_zero, zpow_natCast]
    push_cast
    field_simp

/-! ### Roundings to an integer (R96, R119, R83) -/

/-- The integer that a rounding gives, with its sign. -/
def signedInt (neg : Bool) (n : Nat) : Int := if neg then -(n : Int) else n

theorem cast_signedInt (neg : Bool) (n : Nat) : (signedInt neg n : ℚ) = signedRat neg n := by
  cases neg <;> simp [signedInt, signedRat]

theorem even_signedInt {n : Nat} (h : n % 2 = 0) : Even (signedInt neg n) := by
  have : Even (n : Int) := (Int.even_coe_nat n).2 (Nat.even_iff.2 h)
  cases neg
  · exact this
  · exact this.neg

theorem rounded_roundInt (mode : BitVec 2) (neg : Bool) (m : Nat) (e : Int) :
    Rounded mode neg ((m : ℚ) * 2 ^ e) (roundInt mode neg m e).1 1 ((roundInt mode neg m e).1 % 2 = 0) ∧
    ((roundInt mode neg m e).2 = false ↔ ((roundInt mode neg m e).1 : ℚ) = m * 2 ^ e) := by
  obtain ⟨h1, h2⟩ := rounded_roundShift (K := ℚ) (mode := mode) (neg := neg) (stands_exact m) (shift := -e)
    fun h => absurd h Bool.false_ne_true
  have he : (0 : ℚ) < 2 ^ e := by positivity
  have hc (x : ℚ) : x * 2 ^ (-e) * 2 ^ e = x := by rw [mul_assoc, ← zpow_add₀ two_ne_zero]; simp
  have h3 := h1.mul he
  rw [hc, ← zpow_add₀ two_ne_zero, neg_add_cancel, zpow_zero] at h3
  refine ⟨h3, h2.trans ?_⟩
  rw [← mul_left_inj' he.ne', hc]
  rfl

/-- A number rounded to an integer (R96). -/
theorem nearest_roundInt (mode : BitVec 2) (neg : Bool) (m : Nat) (e : Int) :
    Nearest mode (FVal.num neg m e).rat (signedInt neg (roundInt mode neg m e).1) 1
      (Even (signedInt neg (roundInt mode neg m e).1)) ∧
    ((roundInt mode neg m e).2 = false ↔ (signedInt neg (roundInt mode neg m e).1 : ℚ) = (FVal.num neg m e).rat) := by
  obtain ⟨h1, h2⟩ := rounded_roundInt mode neg m e
  rw [rat_num, cast_signedInt, signedRat_inj]
  have h3 := h1.nearest (by positivity) (Nat.cast_nonneg _)
  exact ⟨⟨fun h => ⟨(h3.rne h).1, fun e => even_signedInt ((h3.rne h).2 e)⟩, h3.rtz, h3.rup, h3.rdn⟩, h2⟩

/-- The directed roundings to an integer. -/
theorem nearest_floor {v : ℚ} {z : Int} {even : Prop} (h : Nearest mode v z 1 even) :
    (mode = 2 → z = ⌈v⌉) ∧ (mode = 3 → z = ⌊v⌋) := by
  refine ⟨fun h0 => ?_, fun h0 => ?_⟩
  · obtain ⟨h1, h2⟩ := h.rup h0
    exact (Int.ceil_eq_iff.2 ⟨by linarith, h1⟩).symm
  · obtain ⟨h1, h2⟩ := h.rdn h0
    exact (Int.floor_eq_iff.2 ⟨h1, h2⟩).symm

theorem toward_zero {a : ℚ} {n : Nat} (ha : 0 ≤ a) (h : Nearest 1 (signedRat neg a) (signedRat neg n) 1 (n % 2 = 0)) :
    signedRat neg n = if neg then (⌈signedRat neg a⌉ : ℚ) else ⌊signedRat neg a⌋ := by
  obtain ⟨h1, h2⟩ := h.rtz rfl
  rw [abs_signedRat neg ha, abs_signedRat neg (Nat.cast_nonneg n)] at h1 h2
  cases neg
  · have : ⌊signedRat false a⌋ = (n : Int) := Int.floor_eq_iff.2 ⟨by simpa [signedRat] using h1, by simpa [signedRat] using h2⟩
    rw [if_neg Bool.false_ne_true, this]
    simp [signedRat]
  · have : ⌈signedRat true a⌉ = -(n : Int) := by
      refine Int.ceil_eq_iff.2 ⟨?_, ?_⟩ <;>
      · simp only [signedRat, if_true]
        push_cast
        linarith
    rw [if_pos rfl, this]
    simp [signedRat]

/-! ### Integral roundings of patterns -/

theorem two_pow_mbits_le (h : Sized f) : (2 : ℚ) ^ f.mbits ≤ f.greatest := by
  refine le_trans ?_ (le_greatest f)
  rw [bias_eq, ← zpow_natCast]
  refine zpow_le_zpow_right₀ one_le_two ?_
  have := h.bias_pos
  omega

/-- No finite pattern is more than the greatest number. -/
theorem sigOf_le_greatest (h : Sized f) (hb : b < f.emax * 2 ^ f.mbits) :
    (sigOf f b : ℚ) * 2 ^ expOf f b ≤ f.greatest := by
  have hd : b / 2 ^ f.mbits < 2 * biasNat f + 1 := h.emax_eq ▸ Nat.div_lt_of_lt_mul (mul_comm f.emax _ ▸ hb)
  have hs : (sigOf f b : ℚ) ≤ 2 ^ (f.mbits + 1) - 1 := by
    have := sigOf_lt f b
    have h1 : sigOf f b + 1 ≤ 2 ^ (f.mbits + 1) := by rw [pow_succ']; omega
    have h2 : (sigOf f b : ℚ) + 1 ≤ 2 ^ (f.mbits + 1) := by exact_mod_cast h1
    linarith
  have he : expOf f b ≤ f.bias - f.mbits := by
    have := h.bias_pos
    rw [expOf, emin_eq, bias_eq]
    omega
  exact mul_le_mul hs (zpow_le_zpow_right₀ one_le_two he) (by positivity)
    (by have := one_le_pow₀ (n := f.mbits + 1) (one_le_two (α := ℚ)); linarith)

theorem expOf_ge (f : FFmt) (b : Nat) : f.emin - f.mbits ≤ expOf f b := by
  unfold expOf
  omega

theorem value_zero (h : Sized f) (neg : Bool) : ∃ k, f.value (f.zero neg) = .num neg 0 k := by
  have hlt : 0 < f.emax * 2 ^ f.mbits := by rw [h.emax_eq]; positivity
  refine ⟨expOf f 0, ?_⟩
  rw [← Nat.add_zero (f.zero neg), value_of_lt hlt]
  simp [sigOf]

/-- What a number pattern is. -/
theorem num_pattern {m : Nat} {e : Int} (ha : a < 2 ^ f.width) (hv : f.value a = .num neg m e) :
    ∃ b, b < f.emax * 2 ^ f.mbits ∧ m = sigOf f b ∧ e = expOf f b := by
  obtain ⟨p, b, hb, rfl⟩ := exists_pattern ha
  rw [value_zero_add hb] at hv
  rcases (le_of_not_nan (neg := p) hb (by rw [hv]; rfl)).lt_or_eq with h1 | rfl
  · rw [unsignedValue_of_lt h1] at hv
    cases hv
    exact ⟨b, h1, rfl, rfl⟩
  · rw [unsignedValue_emax] at hv
    cases hv

/-- The integer nearest to a pattern is a number of the format. -/
theorem value_roundInt (h : Sized f) (mode : BitVec 2) {m : Nat} {e : Int} (ha : a < 2 ^ f.width)
    (hv : f.value a = .num neg m e) :
    ∃ n k, f.value (f.round 0 neg (roundInt mode neg m e).1 0 false).bits = .num neg n k ∧
      (n : ℚ) * 2 ^ k = (roundInt mode neg m e).1 := by
  obtain ⟨b, hb, rfl, rfl⟩ := num_pattern ha hv
  obtain ⟨hr, -⟩ := rounded_roundInt mode neg (sigOf f b) (expOf f b)
  have hlt := hr.lt_add one_pos
  have hle := sigOf_le_greatest h hb
  rcases Nat.eq_zero_or_pos (roundInt mode neg (sigOf f b) (expOf f b)).1 with h0 | hpos
  · rw [h0]
    obtain ⟨k, hk⟩ := value_zero h neg
    exact ⟨0, k, hk, by simp⟩
  have key : ∃ (j : Nat) (E : Int), (((roundInt mode neg (sigOf f b) (expOf f b)).1 : ℚ) * 2 ^ (0 : Int) = j * 2 ^ E) ∧
      j < 2 ^ (f.mbits + 1) ∧ f.emin - f.mbits ≤ E ∧
      ((roundInt mode neg (sigOf f b) (expOf f b)).1 : ℚ) * 2 ^ (0 : Int) ≤ f.greatest := by
    rcases le_or_gt 0 (expOf f b) with he | he
    · have hn : (roundInt mode neg (sigOf f b) (expOf f b)).1 = sigOf f b * 2 ^ (expOf f b).toNat := by
        rw [roundInt, roundShift_of_nonpos mode neg _ (by omega), neg_neg]
      have hq : ((roundInt mode neg (sigOf f b) (expOf f b)).1 : ℚ) = sigOf f b * 2 ^ expOf f b := by
        rw [hn]
        push_cast
        rw [← zpow_natCast, Int.toNat_of_nonneg he]
      rw [zpow_zero, mul_one, hq]
      refine ⟨sigOf f b, expOf f b, rfl, ?_, expOf_ge f b, hle⟩
      have := sigOf_lt f b
      rw [pow_succ']
      omega
    · have h1 : (2 : ℚ) ^ expOf f b ≤ 2 ^ (-1 : Int) := zpow_le_zpow_right₀ one_le_two (by omega)
      have h2 : (sigOf f b : ℚ) < 2 * 2 ^ f.mbits := by exact_mod_cast sigOf_lt f b
      have h3 : (sigOf f b : ℚ) * 2 ^ expOf f b < 2 ^ f.mbits := by
        calc (sigOf f b : ℚ) * 2 ^ expOf f b ≤ sigOf f b * 2 ^ (-1 : Int) := mul_le_mul_of_nonneg_left h1 (Nat.cast_nonneg _)
          _ < 2 ^ f.mbits := by norm_num; linarith
      have h4 : ((roundInt mode neg (sigOf f b) (expOf f b)).1 : ℚ) < 2 ^ f.mbits + 1 := by linarith
      have h5 : (roundInt mode neg (sigOf f b) (expOf f b)).1 ≤ 2 ^ f.mbits := Nat.lt_succ_iff.1 (by exact_mod_cast h4)
      refine ⟨_, 0, rfl, ?_, ?_, ?_⟩
      · have := Nat.two_pow_pos f.mbits
        rw [pow_succ']
        omega
      · have := h.bias_pos
        rw [emin_eq]
        omega
      · rw [zpow_zero, mul_one]
        exact le_trans (by exact_mod_cast h5) (two_pow_mbits_le h)
  obtain ⟨j, E, h1, h2, h3, h4⟩ := key
  obtain ⟨n, k, hnk, he, -⟩ := round_exact (mode := 0) (neg := neg) h hpos h1 h2 h3 h4
  exact ⟨n, k, hnk, by rw [he, zpow_zero, mul_one]⟩

theorem integral_num {m : Nat} {e : Int} (hv : f.value a = .num neg m e) (nx : Bool) :
    f.integral mode nx a = ⟨(f.round 0 neg (roundInt mode neg m e).1 0 false).bits,
      if nx && (roundInt mode neg m e).2 then flagNX else 0⟩ := by
  unfold FFmt.integral
  rw [hv]

theorem integral_special (mode : BitVec 2) (nx : Bool) :
    (∀ g, f.value a = .nan g → f.integral mode nx a = ⟨f.nan, nvOf g⟩) ∧
    (∀ p, f.value a = .inf p → f.integral mode nx a = ⟨f.inf p, 0⟩) := by
  refine ⟨fun g h => ?_, fun p h => ?_⟩ <;> · unfold FFmt.integral; rw [h]

theorem canonical_integral (h : Sized f) (mode : BitVec 2) (nx : Bool) (a : Nat) :
    Canonical f (f.integral mode nx a).bits := by
  cases hv : f.value a with
  | nan g => rw [(integral_special mode nx).1 g hv]; exact canonical_nan h
  | inf p => rw [(integral_special mode nx).2 p hv]; exact canonical_inf f p
  | num p m e => rw [integral_num hv]; exact canonical_round h (precise_exact f _) (.inr rfl)

theorem integral_rounds (h : Sized f) {m : Nat} {e : Int} (ha : a < 2 ^ f.width) (hv : f.value a = .num neg m e)
    (nx : Bool) : ∃ n k, f.value (f.integral mode nx a).bits = .num neg n k ∧
      let x := (FVal.num neg m e).rat
      let r := (FVal.num neg n k).rat
      (∃ z : ℤ, r = z ∧ (mode = 0 → |r - x| ≤ 1 / 2 ∧ (|r - x| = 1 / 2 → Even z))) ∧
      (mode = 1 → r = if neg then (⌈x⌉ : ℚ) else ⌊x⌋) ∧ (mode = 2 → r = ⌈x⌉) ∧ (mode = 3 → r = ⌊x⌋) ∧
      (f.integral mode nx a).flags = if nx = true ∧ r ≠ x then 1 else 0 := by
  obtain ⟨n, k, hnk, hn⟩ := value_roundInt h mode ha hv
  obtain ⟨hr, hi⟩ := nearest_roundInt mode neg m e
  obtain ⟨hr', -⟩ := rounded_roundInt mode neg m e
  have hz : (FVal.num neg n k).rat = signedInt neg (roundInt mode neg m e).1 := by rw [rat_num, hn, cast_signedInt]
  rw [integral_num hv]
  refine ⟨n, k, hnk, ⟨_, hz, fun h0 => ?_⟩, fun h0 => ?_, fun h0 => ?_, fun h0 => ?_, ?_⟩
  · rw [hz]
    exact hr.rne h0
  · subst h0
    rw [hz, cast_signedInt, rat_num]
    exact toward_zero (by positivity) (hr'.nearest (by positivity) (Nat.cast_nonneg _))
  · rw [hz, ((nearest_floor hr).1 h0)]
  · rw [hz, ((nearest_floor hr).2 h0)]
  · refine if_congr ?_ rfl rfl
    rw [Bool.and_eq_true, hz, ne_eq, ← hi, Bool.not_eq_false]

end Sys2Proof.Proofs

end

section
/-!
PROOFS. The special functions: flags, the reciprocal, and the logarithm of a power of two (R96).
-/

namespace Sys2Proof.Proofs
open Sys2Proof Sys2Proof.Machine

set_option Elab.async false

variable {f : FFmt} {mode : BitVec 2} {neg : Bool} {a : Nat}

/-! ### The flags of the special functions (R96) -/

theorem and_flagOF (n : Nat) : n &&& flagOF = if bit n 2 then 4 else 0 := by
  rw [show flagOF = 2 ^ 2 by rfl, Nat.and_two_pow, bit]
  cases n.testBit 2 <;> rfl

theorem sfuFlags_bits (f : FFmt) (r : FRes) : (f.sfuFlags r).bits = r.bits := rfl

theorem sfuFlags_flags (f : FFmt) (r : FRes) :
    bit (f.sfuFlags r).flags 2 = bit r.flags 2 ∧ bit (f.sfuFlags r).flags 0 = false := by
  have h : (f.sfuFlags r).flags = (if bit r.flags 2 then 4 else 0) +
      if r.bits / 2 ^ f.mbits % 2 ^ f.ebits = 0 then 2 else 0 := by rw [← and_flagOF]; rfl
  rw [h]
  have key (p q : Bool) : bit ((if p then 4 else 0) + if q then 2 else 0) 2 = p ∧
      bit ((if p then 4 else 0) + if q then 2 else 0) 0 = false := by cases p <;> cases q <;> decide
  have := key (bit r.flags 2) (decide (r.bits / 2 ^ f.mbits % 2 ^ f.ebits = 0))
  simpa only [decide_eq_true_eq] using this

/-- A result of a special function: a canonical pattern, never marked inexact. -/
structure Special (f : FFmt) (r : FRes) : Prop where
  canonical : Canonical f r.bits
  noNX : bit r.flags 0 = false

theorem special_nan (h : Sized f) : Special f ⟨f.nan, 16⟩ := ⟨canonical_nan h, (by decide : bit 16 0 = false)⟩

theorem special_nvOf (h : Sized f) (g : Bool) : Special f ⟨f.nan, nvOf g⟩ :=
  ⟨canonical_nan h, (by cases g <;> decide : bit (nvOf g) 0 = false)⟩

theorem special_of_canonical {x : Nat} (h : Canonical f x) : Special f ⟨x, 0⟩ := ⟨h, (by decide : bit 0 0 = false)⟩

theorem special_dz (f : FFmt) (p : Bool) : Special f ⟨f.inf p, 8⟩ := ⟨canonical_inf f p, (by decide : bit 8 0 = false)⟩

theorem special_ite {c : Prop} [Decidable c] {r q : FRes} (hr : Special f r) (hq : Special f q) :
    Special f (if c then r else q) := by
  split
  · exact hr
  · exact hq

theorem special_sfuFlags {r : FRes} (h : Canonical f r.bits) : Special f (f.sfuFlags r) := ⟨h, (sfuFlags_flags f r).2⟩

theorem special_round (h : Sized f) {m : Nat} {e : Int} : Special f (f.sfuFlags (f.round 0 neg m e false)) :=
  special_sfuFlags (canonical_round h (precise_exact f m) (.inr rfl))

theorem special_enclosed (h : Sized f) (bounds : Nat → Machine.Bounds) (last : Nat) (ps : List Nat) :
    Special f (f.enclosed bounds last ps) := by
  induction ps with
  | nil => exact special_round h
  | cons p ps ih =>
    unfold FFmt.enclosed
    dsimp only
    split
    · exact special_round h
    · exact ih

/-- One is a number of every format. -/
theorem round_one (h : Sized f) : ∃ n k, f.value (f.round 0 false 1 0 false).bits = .num false n k ∧
    (FVal.num false n k).rat = 1 ∧ (f.round 0 false 1 0 false).flags = 0 := by
  have hb := h.bias_pos
  have h1 : (1 : ℚ) ≤ 2 ^ f.mbits := one_le_pow₀ one_le_two
  obtain ⟨n, k, hv, he, hf⟩ := round_exact (mode := 0) (neg := false) h (m := 1) (j := 1) (e := 0) (E := 0) one_pos
    rfl (Nat.one_lt_two_pow (Nat.succ_ne_zero _)) (by rw [emin_eq]; omega) (by simpa using h1.trans (two_pow_mbits_le h))
  exact ⟨n, k, hv, by rw [rat_num, he]; simp [signedRat], hf⟩

theorem special_one (h : Sized f) : Special f (f.round 0 false 1 0 false) := by
  obtain ⟨n, k, -, -, hf⟩ := round_one h
  exact ⟨canonical_round h (precise_exact f 1) (.inr rfl), by rw [hf]; decide⟩

/-! ### The reciprocal -/

theorem stands_div (n : Nat) {m : Nat} (hm : 0 < m) : Stands (n / m) (n % m != 0) ((n : ℚ) / m) := by
  have hm' : (0 : ℚ) < m := by exact_mod_cast hm
  have hd : (m : ℚ) * (n / m : Nat) + (n % m : Nat) = n := by exact_mod_cast Nat.div_add_mod n m
  have hlt : ((n % m : Nat) : ℚ) < m := by exact_mod_cast Nat.mod_lt n hm
  have h0 : (0 : ℚ) ≤ (n % m : Nat) := Nat.cast_nonneg _
  refine ⟨(le_div_iff₀ hm').2 (by linarith), (div_lt_iff₀ hm').2 (by linarith), ?_⟩
  rw [bne_eq_false_iff_eq, div_eq_iff hm'.ne', ← @Nat.cast_eq_zero ℚ]
  constructor <;> intro h <;> linarith

theorem precise_of_le (h : Sized f) {q : Nat} (hq : 2 ^ 59 ≤ q) (sticky : Bool) : 0 < q ∧ Precise f q sticky := by
  have h1 : 59 ≤ q.log2 := (Nat.le_log2 (by omega)).2 hq
  have := h.narrow
  exact ⟨by omega, fun _ => by omega⟩

theorem rcp_num {m : Nat} {e : Int} (hv : f.value a = .num neg m e) (hm : 0 < m) :
    f.rcp a = f.sfuFlags (f.round 0 neg (2 ^ (m.log2 + 60) / m) (-e - (m.log2 + 60 : Nat)) (2 ^ (m.log2 + 60) % m != 0)) := by
  unfold FFmt.rcp
  rw [hv]
  dsimp only
  rw [if_neg hm.ne', rcpParts]

theorem le_rcp {m : Nat} (hm : 0 < m) : 2 ^ 59 ≤ 2 ^ (m.log2 + 60) / m := by
  rw [Nat.le_div_iff_mul_le hm]
  have : m < 2 ^ (m.log2 + 1) := Nat.lt_log2_self
  calc 2 ^ 59 * m ≤ 2 ^ 59 * 2 ^ (m.log2 + 1) := Nat.mul_le_mul_left _ this.le
    _ = 2 ^ (m.log2 + 60) := by rw [← pow_add]; congr 1; omega

theorem roundedOnce_rcp (h : Sized f) {m : Nat} {e : Int} (hm : 0 < m) :
    RoundedOnce f mode neg (1 / (FVal.num neg m e).rat)
      (f.round mode neg (2 ^ (m.log2 + 60) / m) (-e - (m.log2 + 60 : Nat)) (2 ^ (m.log2 + 60) % m != 0)) := by
  obtain ⟨hq, hp⟩ := precise_of_le h (le_rcp hm) (2 ^ (m.log2 + 60) % m != 0)
  have key := roundedOnce_round (mode := mode) (neg := neg) h (stands_div (2 ^ (m.log2 + 60)) hm) hq hp
    (-e - (m.log2 + 60 : Nat))
  have hm' : (m : ℚ) ≠ 0 := by exact_mod_cast hm.ne'
  have he : (1 / (FVal.num neg m e).rat) =
      signedRat neg (((2 ^ (m.log2 + 60) : Nat) : ℚ) / m * 2 ^ (-e - (m.log2 + 60 : Nat) : Int)) := by
    have h2 : (2 : ℚ) ^ e ≠ 0 := by positivity
    rw [rat_num, zpow_sub₀ two_ne_zero, zpow_neg, zpow_natCast]
    push_cast
    cases neg <;> simp only [signedRat] <;> field_simp <;> simp
  rw [he]
  exact key

theorem special_rcp (h : Sized f) (a : Nat) : Special f (f.rcp a) := by
  cases hv : f.value a with
  | nan g => unfold FFmt.rcp; rw [hv]; exact special_nvOf h g
  | inf p => unfold FFmt.rcp; rw [hv]; exact special_of_canonical (canonical_zero f p)
  | num p m e =>
    rcases Nat.eq_zero_or_pos m with rfl | hm
    · unfold FFmt.rcp; rw [hv]; exact special_dz f p
    · rw [rcp_num hv hm]
      obtain ⟨hq, hp⟩ := precise_of_le h (le_rcp hm) (2 ^ (m.log2 + 60) % m != 0)
      exact special_sfuFlags (canonical_round h hp (.inl hq))

theorem rcp_rounds (h : Sized f) {m : Nat} {e : Int} (hv : f.value a = .num neg m e) (hm : 0 < m) :
    RoundsTo f 0 neg (1 / (FVal.num neg m e).rat) (f.rcp a).bits ∧
    (bit (f.rcp a).flags 2 = true ↔ f.tooBig 0 neg (1 / (FVal.num neg m e).rat)) := by
  have key := roundedOnce_rcp (mode := 0) (neg := neg) (e := e) h hm
  rw [rcp_num hv hm, (sfuFlags_flags f _).1]
  exact ⟨key.bits, key.overflow⟩

/-! ### The other functions -/

theorem special_exp2 (h : Sized f) (a : Nat) : Special f (f.exp2 a) := by
  unfold FFmt.exp2
  split
  · exact special_nvOf h _
  · exact special_ite (special_of_canonical (canonical_zero f _)) (special_of_canonical (canonical_inf f _))
  · exact special_ite (special_one h) (special_ite (special_round h) (special_ite (special_one h)
      (special_ite (special_round h) (special_enclosed h _ _ _))))

theorem special_log2 (h : Sized f) (a : Nat) : Special f (f.log2 a) := by
  unfold FFmt.log2
  split
  · exact special_nvOf h _
  · exact special_ite (special_nan h) (special_of_canonical (canonical_inf f _))
  · exact special_ite (special_dz f _) (special_ite (special_nan h) (special_ite
      (special_of_canonical (canonical_round h (precise_exact f _) (.inr rfl))) (special_enclosed h _ _ _)))

theorem special_trig (h : Sized f) (cosine : Bool) (a : Nat) : Special f (f.trig cosine a) := by
  unfold FFmt.trig
  split
  · exact special_nvOf h _
  · exact special_nan h
  · exact special_ite (special_ite (special_one h) (special_of_canonical (canonical_zero f _))) (special_ite
      (special_ite (special_one h) (special_enclosed h _ _ _)) (special_enclosed h _ _ _))

/-- Where the positive numbers of a format lie. -/
theorem num_range (h : Sized f) {m : Nat} {e : Int} (ha : a < 2 ^ f.width) (hv : f.value a = .num neg m e) (hm : 0 < m) :
    (2 : ℚ) ^ (f.emin - f.mbits : Int) ≤ m * 2 ^ e ∧ (m : ℚ) * 2 ^ e < 2 ^ (f.bias + 1) := by
  obtain ⟨b, hb, rfl, rfl⟩ := num_pattern ha hv
  constructor
  · calc (2 : ℚ) ^ (f.emin - f.mbits : Int) ≤ 1 * 2 ^ expOf f b := by
          rw [one_mul]
          exact zpow_le_zpow_right₀ one_le_two (expOf_ge f b)
      _ ≤ sigOf f b * 2 ^ expOf f b := mul_le_mul_of_nonneg_right (by exact_mod_cast hm) (by positivity)
  · exact (sigOf_le_greatest h hb).trans_lt (greatest_lt f)

/-- The logarithm of a power of two is exact (R96). -/
theorem log2_two_pow (h : Sized f) {m : Nat} {e k : Int} (ha : a < 2 ^ f.width) (hv : f.value a = .num false m e)
    (hm : 0 < m) (hk : (FVal.num false m e).rat = 2 ^ k) :
    (f.value (f.log2 a).bits).rat = k ∧ (f.log2 a).flags = 0 := by
  have hk' : (m : ℚ) * 2 ^ e = 2 ^ k := by rw [← hk, rat_num]; simp [signedRat]
  have htop : topExp m e = k := by
    rw [← log_of_stands (stands_exact m) hm e, hk']
    exact Int.log_zpow one_lt_two k
  have hpow : m = 2 ^ m.log2 := by
    have h1 : (m : ℚ) = 2 ^ (k - e) := by
      have : (2 : ℚ) ^ e ≠ 0 := by positivity
      rw [zpow_sub₀ two_ne_zero, ← hk', mul_div_cancel_right₀ _ this]
    have h2 : k - e = (m.log2 : Int) := by rw [← htop, topExp]; ring
    rw [h2, zpow_natCast] at h1
    exact_mod_cast h1
  have hlog : f.log2 a = ⟨(f.roundSigned (topExp m e) 0).bits, 0⟩ := by
    unfold FFmt.log2
    rw [hv]
    dsimp only
    rw [if_neg hm.ne', if_neg Bool.false_ne_true, if_pos hpow]
  rw [hlog, htop]
  refine ⟨?_, rfl⟩
  unfold FFmt.roundSigned
  dsimp only
  have hrange : k.natAbs < 2 ^ (f.mbits + 1) := by
    obtain ⟨hlow, hhigh⟩ := num_range h ha hv hm
    rw [hk'] at hlow hhigh
    have hlow := (zpow_le_zpow_iff_right₀ (one_lt_two (α := ℚ))).1 hlow
    have hhigh := (zpow_lt_zpow_iff_right₀ (one_lt_two (α := ℚ))).1 hhigh
    have := h.exponents
    have := h.bias_pos
    rw [emin_eq] at hlow
    rw [bias_eq] at hhigh
    unfold biasNat at *
    omega
  rcases eq_or_ne k 0 with rfl | hk0
  · obtain ⟨j, hj⟩ := value_zero h false
    change (f.value (f.zero false)).rat = _
    rw [hj]
    simp [FVal.rat]
  have hbias := h.bias_pos
  obtain ⟨n, j, hv2, he2, -⟩ := round_exact (mode := 0) (neg := decide (k < 0)) h (m := k.natAbs) (e := 0) (E := 0)
    (Int.natAbs_pos.2 hk0) rfl hrange (by rw [emin_eq]; omega) (by
      rw [zpow_zero, mul_one]
      refine le_trans ?_ (le_greatest f)
      rw [bias_eq, zpow_natCast]
      calc (k.natAbs : ℚ) ≤ 2 ^ (f.mbits + 1) := by exact_mod_cast hrange.le
        _ ≤ 2 ^ biasNat f := pow_le_pow_right₀ one_le_two hbias)
  rw [hv2, rat_num, he2, signedRat_natAbs]
  simp

end Sys2Proof.Proofs

end

section
/-!
PROOFS. The square root and its reciprocal: integer roots with a remainder, rounded once (R96).
-/

namespace Sys2Proof.Proofs
open Sys2Proof Sys2Proof.Machine

set_option Elab.async false

variable {f : FFmt} {mode : BitVec 2} {a : Nat}

/-! ### The integer square root -/

theorem isqrtFrom_spec (n : Nat) : ∀ (k r : Nat), r * r ≤ n → n < (r + 2 ^ (k + 1)) * (r + 2 ^ (k + 1)) →
    isqrtFrom n k r * isqrtFrom n k r ≤ n ∧ n < (isqrtFrom n k r + 1) * (isqrtFrom n k r + 1)
  | 0, r, hle, hlt => by
    unfold isqrtFrom
    split
    · next h => exact ⟨h, by simpa [add_assoc] using hlt⟩
    · next h => exact ⟨hle, by omega⟩
  | k + 1, r, hle, hlt => by
    unfold isqrtFrom
    split
    · next h =>
      refine isqrtFrom_spec n k _ h ?_
      rwa [show r + 2 ^ (k + 1) + 2 ^ (k + 1) = r + 2 ^ (k + 1 + 1) by ring]
    · next h => exact isqrtFrom_spec n k r hle (by omega)

theorem isqrt_spec (n : Nat) : isqrt n * isqrt n ≤ n ∧ n < (isqrt n + 1) * (isqrt n + 1) := by
  refine isqrtFrom_spec n _ 0 (by simp) ?_
  have h1 : n < 2 ^ (n.log2 + 1) := Nat.lt_log2_self
  rw [zero_add, ← pow_add]
  exact h1.trans_le (Nat.pow_le_pow_right two_pos (by omega))

theorem le_isqrt {n k : Nat} (h : k * k ≤ n) : k ≤ isqrt n := by
  by_contra hc
  have := Nat.mul_le_mul (show isqrt n + 1 ≤ k by omega) (show isqrt n + 1 ≤ k by omega)
  have := (isqrt_spec n).2
  omega

/-- An integer square root with its remainder stands for the root. -/
theorem stands_sqrt (n d : Nat) (hd : 0 < d) :
    Stands (isqrt (n / d)) (isqrt (n / d) * isqrt (n / d) * d != n) √((n : ℝ) / d) := by
  obtain ⟨h1, h2⟩ := isqrt_spec (n / d)
  generalize isqrt (n / d) = r at *
  have hd' : (0 : ℝ) < d := by exact_mod_cast hd
  have h3 : r * r * d ≤ n := (Nat.le_div_iff_mul_le hd).1 h1
  have h4 : n < (r + 1) * (r + 1) * d := (Nat.div_lt_iff_lt_mul hd).1 h2
  have h3' : (r : ℝ) * r * d ≤ n := by exact_mod_cast h3
  have h4' : (n : ℝ) < (r + 1) * (r + 1) * d := by exact_mod_cast h4
  refine ⟨Real.le_sqrt_of_sq_le ((le_div_iff₀ hd').2 (by rw [sq]; exact h3')), ?_, ?_⟩
  · rw [Real.sqrt_lt' (by positivity), div_lt_iff₀ hd', sq]
    exact h4'
  · rw [bne_eq_false_iff_eq, Real.sqrt_eq_iff_mul_self_eq (by positivity) (Nat.cast_nonneg r), div_eq_iff hd'.ne']
    constructor
    · intro h
      exact_mod_cast h.symm
    · intro h
      exact_mod_cast h.symm

/-! ### Roundings in the normal range -/

/-- In the normal range the spacing at a number is at least that of any lower binade, and at most the number. -/
theorem spacing_bounds {r : ℚ} {t : Int} (ht : (2 : ℚ) ^ t ≤ r) (hlow : f.emin ≤ t) :
    (2 : ℚ) ^ (t - f.mbits) ≤ f.spacing r ∧ f.spacing r ≤ r := by
  have hpos : 0 < r := lt_of_lt_of_le (by positivity) ht
  have hlog := (Int.zpow_le_iff_le_log (b := 2) one_lt_two hpos).1 (by exact_mod_cast ht)
  have hself := Int.zpow_log_le_self (b := 2) one_lt_two hpos
  rw [FFmt.spacing, abs_of_pos hpos]
  refine ⟨zpow_le_zpow_right₀ one_le_two (by omega), le_trans (zpow_le_zpow_right₀ one_le_two ?_) (by exact_mod_cast hself)⟩
  omega

/-- A rounding of a positive number well within the normal range: no overflow, no underflow. -/
theorem round_normal (h : Sized f) {m : Nat} {e : Int} {sticky : Bool} {y : ℝ} (hy : Stands m sticky y) (hm : 0 < m)
    (hp : Precise f m sticky) (hlow : f.emin ≤ topExp m e) (hhigh : topExp m e < f.bias) :
    ∃ n k, f.value (f.round mode false m e sticky).bits = .num false n k ∧
      ∃ (u : ℚ) (even : Prop), 0 < u ∧ u ≤ f.spacing (FVal.num false n k).rat ∧
        f.spacing (FVal.num false n k).rat ≤ (FVal.num false n k).rat ∧
        Rounded mode false (y * 2 ^ e) ((FVal.num false n k).rat : ℝ) (u : ℝ) even ∧
        (f.round mode false m e sticky).flags = if ((FVal.num false n k).rat : ℝ) = y * 2 ^ e then 0 else 1 := by
  have hl := le_sig (mode := mode) (neg := false) hm hp hlow
  have hn := sig_le (mode := mode) (neg := false) hp e
  have hb := h.bias_pos
  have hq : quantum f m e = topExp m e - f.mbits := by
    unfold quantum level
    omega
  have hbody : roundedBody f mode false m e sticky < f.emax * 2 ^ f.mbits := by
    have hlev : level f m e + 2 ≤ 2 * biasNat f := by
      rw [bias_eq] at hhigh
      unfold level
      rw [emin_eq]
      omega
    have := Nat.mul_le_mul_right (2 ^ f.mbits) hlev
    have := Nat.two_pow_pos f.mbits
    rw [roundedBody, h.emax_eq]
    rw [add_mul] at *
    omega
  obtain ⟨n, k, hv, hnk⟩ := value_body hm hp hbody
  obtain ⟨hr, hi⟩ := rounded_sig (mode := mode) (neg := false) hy hp e
  have hrat : (FVal.num false n k).rat = roundedSig f mode false m e sticky * 2 ^ quantum f m e := by
    rw [rat_num, hnk]
    simp [signedRat]
  have hspace : (2 : ℚ) ^ (topExp m e - f.mbits) ≤ f.spacing (FVal.num false n k).rat ∧
      f.spacing (FVal.num false n k).rat ≤ (FVal.num false n k).rat := by
    refine spacing_bounds ?_ hlow
    rw [hrat, show topExp m e = (f.mbits : Int) + quantum f m e by rw [hq]; ring, zpow_add₀ two_ne_zero, zpow_natCast]
    exact mul_le_mul_of_nonneg_right (by exact_mod_cast hl) (by positivity)
  rw [round_parts h hm hp, if_neg (by omega)]
  refine ⟨n, k, hv, 2 ^ quantum f m e, roundedSig f mode false m e sticky % 2 = 0, by positivity, ?_, ?_, ?_, ?_⟩
  · exact hq ▸ hspace.1
  · exact hspace.2
  · rw [hrat]
    push_cast
    exact hr
  · rw [hrat]
    push_cast
    have ht : isTiny f mode false m e sticky = false := by
      unfold isTiny
      rw [decide_eq_false (by omega), Bool.false_and]
    rw [ht, Bool.false_and, if_neg Bool.false_ne_true, zero_add]
    by_cases hx : isInexact f mode false m e sticky = false
    · rw [hx, if_pos (hi.1 hx), if_neg Bool.false_ne_true]
    · rw [if_neg (mt hi.2 hx), if_pos (by simpa using hx)]

/-! ### The square root -/

/-- A number whose exponent is made even. -/
def evenSig (m : Nat) (e : Int) : Nat := if e % 2 != 0 then 2 * m else m

def evenExp (e : Int) : Int := if e % 2 != 0 then e - 1 else e

theorem evenSig_mul (m : Nat) (e : Int) : (evenSig m e : ℝ) * (2 ^ (evenExp e / 2)) ^ 2 = m * 2 ^ e := by
  have h2 : evenExp e / 2 * 2 = evenExp e := by
    unfold evenExp
    by_cases h : e % 2 = 0
    · simp only [h]
      norm_num
      omega
    · simp only [bne_iff_ne, ne_eq, h, not_false_eq_true, if_true]
      omega
  rw [← zpow_natCast, ← zpow_mul, Nat.cast_ofNat, h2]
  unfold evenSig evenExp
  split
  · rw [show e = (e - 1) + 1 by ring, zpow_add₀ two_ne_zero]
    push_cast
    ring_nf
  · rfl

theorem evenSig_pos {m : Nat} (hm : 0 < m) (e : Int) : 0 < evenSig m e := by
  unfold evenSig
  split <;> omega

theorem sqrt_num {m : Nat} {e : Int} (hv : f.value a = .num false m e) (hm : 0 < m) :
    f.sqrt mode a = f.round mode false (isqrt (evenSig m e * 4 ^ 60)) (evenExp e / 2 - 60)
      (isqrt (evenSig m e * 4 ^ 60) * isqrt (evenSig m e * 4 ^ 60) != evenSig m e * 4 ^ 60) := by
  unfold FFmt.sqrt
  rw [hv]
  dsimp only
  rw [if_neg hm.ne', if_neg Bool.false_ne_true, sqrtParts]
  rfl

theorem le_evenSig_mul {m : Nat} (hm : 0 < m) (e : Int) : 2 ^ 59 ≤ isqrt (evenSig m e * 4 ^ 60) := by
  refine le_isqrt ?_
  have := evenSig_pos hm e
  omega

theorem canonical_sqrt (h : Sized f) (a : Nat) : Canonical f (f.sqrt mode a).bits := by
  cases hv : f.value a with
  | nan g => unfold FFmt.sqrt; rw [hv]; exact canonical_nan h
  | inf p =>
    unfold FFmt.sqrt
    rw [hv]
    cases p
    · exact canonical_inf f false
    · exact canonical_nan h
  | num p m e =>
    rcases Nat.eq_zero_or_pos m with rfl | hm
    · unfold FFmt.sqrt; rw [hv]; exact canonical_zero f p
    cases p
    · rw [sqrt_num hv hm]
      obtain ⟨hq, hp⟩ := precise_of_le h (le_evenSig_mul hm e) _
      exact canonical_round h hp (.inl hq)
    · unfold FFmt.sqrt
      rw [hv]
      dsimp only
      rw [if_neg hm.ne']
      exact canonical_nan h

theorem real_range (h : Sized f) {neg : Bool} {m : Nat} {e : Int} (ha : a < 2 ^ f.width) (hv : f.value a = .num neg m e)
    (hm : 0 < m) : (2 : ℝ) ^ (f.emin - f.mbits : Int) ≤ m * 2 ^ e ∧ (m : ℝ) * 2 ^ e < 2 ^ (f.bias + 1) := by
  obtain ⟨h1, h2⟩ := num_range h ha hv hm
  have h1' := (Rat.cast_le (K := ℝ)).2 h1
  have h2' := (Rat.cast_lt (K := ℝ)).2 h2
  push_cast at h1' h2'
  exact ⟨h1', h2'⟩

theorem sq_zpow (t : Int) : ((2 : ℝ) ^ t) ^ 2 = 2 ^ (2 * t) := by
  rw [← zpow_natCast, ← zpow_mul, mul_comm]
  rfl

/-- What a rounded root says of the squares: `w` is the spacing at the result. -/
theorem root_bounds {s : ℝ} {x r u w : ℚ} {even : Prop} (hs : s ^ 2 = x) (hs0 : 0 < s) (hu : 0 < u) (hle : u ≤ w) (hw : w ≤ r)
    (hr : Rounded mode false s (r : ℝ) (u : ℝ) even) :
    0 < r ∧ (mode = 0 → (r - w / 2) ^ 2 ≤ x ∧ x ≤ (r + w / 2) ^ 2) ∧
    (mode = 1 ∨ mode = 3 → r ^ 2 ≤ x ∧ x < (r + w) ^ 2) ∧ (mode = 2 → (r - w) ^ 2 < x ∧ x ≤ r ^ 2) := by
  have hle' : (u : ℝ) ≤ w := by exact_mod_cast hle
  have hw' : (w : ℝ) ≤ r := by exact_mod_cast hw
  have hu' : (0 : ℝ) < u := by exact_mod_cast hu
  have lower {y : ℚ} (h0 : 0 ≤ (y : ℝ)) (h1 : (y : ℝ) ≤ s) : y ^ 2 ≤ x := by
    have := pow_le_pow_left₀ h0 h1 2
    rw [hs] at this
    exact_mod_cast this
  have lower' {y : ℚ} (h0 : 0 ≤ (y : ℝ)) (h1 : (y : ℝ) < s) : y ^ 2 < x := by
    have := pow_lt_pow_left₀ h1 h0 two_ne_zero
    rw [hs] at this
    exact_mod_cast this
  have upper {y : ℚ} (h1 : s ≤ (y : ℝ)) : x ≤ y ^ 2 := by
    have := pow_le_pow_left₀ hs0.le h1 2
    rw [hs] at this
    exact_mod_cast this
  have upper' {y : ℚ} (h1 : s < (y : ℝ)) : x < y ^ 2 := by
    have := pow_lt_pow_left₀ h1 hs0.le two_ne_zero
    rw [hs] at this
    exact_mod_cast this
  refine ⟨by linarith, fun h0 => ?_, fun h0 => ?_, fun h0 => ?_⟩
  · obtain ⟨h1, h2⟩ := abs_le.1 (hr.near h0).1
    exact ⟨lower (by push_cast; linarith) (by push_cast; linarith), upper (by push_cast; linarith)⟩
  · obtain ⟨h1, h2⟩ := hr.down (by rcases h0 with rfl | rfl <;> decide) (by rcases h0 with rfl | rfl <;> rfl)
    exact ⟨lower (by linarith) h1, upper' (by push_cast; linarith)⟩
  · obtain ⟨h1, h2⟩ := hr.up (by rw [h0]; rfl)
    exact ⟨lower' (by push_cast; linarith) (by push_cast; linarith), upper h1⟩

/-- The square root is the exact one rounded once (R96). -/
theorem sqrt_rounds (h : Sized f) {m : Nat} {e : Int} (ha : a < 2 ^ f.width) (hv : f.value a = .num false m e)
    (hm : 0 < m) :
    ∃ n k, f.value (f.sqrt mode a).bits = .num false n k ∧
      let x := (FVal.num false m e).rat
      let r := (FVal.num false n k).rat
      let u := f.spacing r
      0 < r ∧ (mode = 0 → (r - u / 2) ^ 2 ≤ x ∧ x ≤ (r + u / 2) ^ 2) ∧
      (mode = 1 ∨ mode = 3 → r ^ 2 ≤ x ∧ x < (r + u) ^ 2) ∧
      (mode = 2 → (r - u) ^ 2 < x ∧ x ≤ r ^ 2) ∧ (f.sqrt mode a).flags = if r ^ 2 = x then 0 else 1 := by
  have hx : (FVal.num false m e).rat = m * 2 ^ e := by simp [FVal.rat]
  obtain ⟨hxlow, hxhigh⟩ := real_range h ha hv hm
  obtain ⟨hq, hp⟩ := precise_of_le h (le_evenSig_mul hm e)
    (isqrt (evenSig m e * 4 ^ 60) * isqrt (evenSig m e * 4 ^ 60) != evenSig m e * 4 ^ 60)
  have hst := stands_sqrt (evenSig m e * 4 ^ 60) 1 one_pos
  rw [Nat.div_one, mul_one, Nat.cast_one, div_one] at hst
  have hb := h.bias_pos
  have hmb := h.mbits
  have hsq : (√((evenSig m e * 4 ^ 60 : Nat) : ℝ) * 2 ^ (evenExp e / 2 - 60)) ^ 2 = m * 2 ^ e := by
    rw [mul_pow, Real.sq_sqrt (Nat.cast_nonneg _), zpow_sub₀ two_ne_zero, div_pow]
    push_cast
    rw [← evenSig_mul m e]
    field_simp
    norm_num
  have htop := hst.top_le hq (evenExp e / 2 - 60)
  have hlt := hst.lt_top (evenExp e / 2 - 60)
  have hs0 := lt_of_lt_of_le (show (0 : ℝ) < 2 ^ topExp (isqrt (evenSig m e * 4 ^ 60)) (evenExp e / 2 - 60) by positivity) htop
  have hlow : f.emin ≤ topExp (isqrt (evenSig m e * 4 ^ 60)) (evenExp e / 2 - 60) := by
    by_contra hc
    have h1 := hlt.trans_le (zpow_le_zpow_right₀ (one_le_two (α := ℝ)) (show _ ≤ f.emin by omega))
    have h2 := pow_lt_pow_left₀ h1 hs0.le two_ne_zero
    rw [hsq, sq_zpow] at h2
    have h3 := (zpow_lt_zpow_iff_right₀ (one_lt_two (α := ℝ))).1 (hxlow.trans_lt h2)
    rw [emin_eq] at h3
    omega
  have hhigh : topExp (isqrt (evenSig m e * 4 ^ 60)) (evenExp e / 2 - 60) < f.bias := by
    by_contra hc
    have h1 := (zpow_le_zpow_right₀ (one_le_two (α := ℝ)) (not_lt.1 hc)).trans htop
    have h2 := pow_le_pow_left₀ (by positivity) h1 2
    rw [hsq, sq_zpow] at h2
    have h3 := (zpow_lt_zpow_iff_right₀ (one_lt_two (α := ℝ))).1 (h2.trans_lt hxhigh)
    rw [bias_eq] at h3
    omega
  obtain ⟨n, k, hnk, u, even, hu, hle, hsp, hr, hf⟩ := round_normal (mode := mode) h hst hq hp hlow hhigh
  have hsq' : (√((evenSig m e * 4 ^ 60 : Nat) : ℝ) * 2 ^ (evenExp e / 2 - 60)) ^ 2 = ((FVal.num false m e).rat : ℝ) := by
    rw [hsq, hx]
    push_cast
    rfl
  obtain ⟨h1, h2, h3, h4⟩ := root_bounds hsq' hs0 hu hle hsp hr
  rw [sqrt_num hv hm]
  refine ⟨n, k, hnk, h1, h2, h3, h4, ?_⟩
  rw [hf]
  refine if_congr ?_ rfl rfl
  rw [← pow_left_inj₀ (by exact_mod_cast h1.le) hs0.le two_ne_zero, hsq']
  exact_mod_cast Iff.rfl

/-! ### The reciprocal square root -/

theorem rsqrt_num {m : Nat} {e : Int} (hv : f.value a = .num false m e) (hm : 0 < m) :
    f.rsqrt a = f.sfuFlags (f.round 0 false (isqrt (4 ^ ((evenSig m e).log2 + 60) / evenSig m e))
      (-(evenExp e / 2) - ((evenSig m e).log2 + 60 : Nat))
      (isqrt (4 ^ ((evenSig m e).log2 + 60) / evenSig m e) * isqrt (4 ^ ((evenSig m e).log2 + 60) / evenSig m e) *
        evenSig m e != 4 ^ ((evenSig m e).log2 + 60))) := by
  unfold FFmt.rsqrt
  rw [hv]
  dsimp only
  rw [if_neg hm.ne', if_neg Bool.false_ne_true, rsqrtParts]
  rfl

theorem le_rsqrt {m : Nat} (hm : 0 < m) : 2 ^ 59 ≤ isqrt (4 ^ (m.log2 + 60) / m) := by
  refine le_isqrt ?_
  rw [Nat.le_div_iff_mul_le hm]
  have h1 : m < 2 ^ (m.log2 + 1) := Nat.lt_log2_self
  calc 2 ^ 59 * 2 ^ 59 * m ≤ 2 ^ 59 * 2 ^ 59 * 2 ^ (m.log2 + 1) := Nat.mul_le_mul_left _ h1.le
    _ ≤ 4 ^ (m.log2 + 60) := by
        rw [show (4 : Nat) = 2 ^ 2 by rfl, ← pow_mul, ← pow_add, ← pow_add]
        exact Nat.pow_le_pow_right two_pos (by omega)

theorem special_rsqrt (h : Sized f) (a : Nat) : Special f (f.rsqrt a) := by
  cases hv : f.value a with
  | nan g => unfold FFmt.rsqrt; rw [hv]; exact special_nvOf h g
  | inf p =>
    unfold FFmt.rsqrt
    rw [hv]
    exact special_ite (special_nan h) (special_of_canonical (canonical_zero f _))
  | num p m e =>
    rcases Nat.eq_zero_or_pos m with rfl | hm
    · unfold FFmt.rsqrt; rw [hv]; exact special_dz f p
    cases p
    · rw [rsqrt_num hv hm]
      obtain ⟨hq, hp⟩ := precise_of_le h (le_rsqrt (evenSig_pos hm e)) _
      exact special_sfuFlags (canonical_round h hp (.inl hq))
    · unfold FFmt.rsqrt
      rw [hv]
      dsimp only
      rw [if_neg hm.ne']
      exact special_nan h

/-- The reciprocal of the square root is the exact one rounded once to nearest (R96). -/
theorem rsqrt_rounds (h : Sized f) {m : Nat} {e : Int} (ha : a < 2 ^ f.width) (hv : f.value a = .num false m e)
    (hm : 0 < m) :
    ∃ n k, f.value (f.rsqrt a).bits = .num false n k ∧
      let x := (FVal.num false m e).rat
      let r := (FVal.num false n k).rat
      let u := f.spacing r
      0 < r ∧ (r - u / 2) ^ 2 * x ≤ 1 ∧ 1 ≤ (r + u / 2) ^ 2 * x := by
  have hx : (FVal.num false m e).rat = m * 2 ^ e := by simp [FVal.rat]
  obtain ⟨hxlow, hxhigh⟩ := real_range h ha hv hm
  have hM := evenSig_pos hm e
  have hst := stands_sqrt (4 ^ ((evenSig m e).log2 + 60)) (evenSig m e) hM
  obtain ⟨hq, hp⟩ := precise_of_le h (le_rsqrt hM)
    (isqrt (4 ^ ((evenSig m e).log2 + 60) / evenSig m e) * isqrt (4 ^ ((evenSig m e).log2 + 60) / evenSig m e) *
        evenSig m e != 4 ^ ((evenSig m e).log2 + 60))
  have hb := h.bias_pos
  have hmb := h.mbits
  have hxpos : (0 : ℝ) < m * 2 ^ e := lt_of_lt_of_le (by positivity) hxlow
  have hM' : (evenSig m e : ℝ) ≠ 0 := by exact_mod_cast hM.ne'
  have hsq : (√(((4 ^ ((evenSig m e).log2 + 60) : Nat) : ℝ) / evenSig m e) *
      2 ^ (-(evenExp e / 2) - ((evenSig m e).log2 + 60 : Nat) : Int)) ^ 2 = 1 / (m * 2 ^ e) := by
    rw [mul_pow, Real.sq_sqrt (by positivity), ← evenSig_mul m e, zpow_sub₀ two_ne_zero, zpow_neg, div_pow, zpow_natCast,
      ← pow_mul, mul_comm _ 2, pow_mul]
    push_cast
    field_simp
    norm_num
  generalize hE : (-(evenExp e / 2) - ((evenSig m e).log2 + 60 : Nat) : Int) = E at *
  generalize hR : isqrt (4 ^ ((evenSig m e).log2 + 60) / evenSig m e) = R at *
  have htop := hst.top_le hq E
  have hlt := hst.lt_top E
  have hs0 := lt_of_lt_of_le (show (0 : ℝ) < 2 ^ topExp R E by positivity) htop
  have hlow : f.emin ≤ topExp R E := by
    by_contra hc
    have h1 := hlt.trans_le (zpow_le_zpow_right₀ (one_le_two (α := ℝ)) (show _ ≤ f.emin by omega))
    have h2 := pow_lt_pow_left₀ h1 hs0.le two_ne_zero
    rw [hsq, sq_zpow, div_lt_iff₀ hxpos] at h2
    have h3 : (2 : ℝ) ^ (0 : Int) < 2 ^ (2 * f.emin + (f.bias + 1)) := by
      rw [zpow_zero, zpow_add₀ two_ne_zero]
      exact h2.trans (mul_lt_mul_of_pos_left hxhigh (by positivity))
    have h4 := (zpow_lt_zpow_iff_right₀ (one_lt_two (α := ℝ))).1 h3
    rw [emin_eq, bias_eq] at h4
    omega
  have hhigh : topExp R E < f.bias := by
    by_contra hc
    have h1 := (zpow_le_zpow_right₀ (one_le_two (α := ℝ)) (not_lt.1 hc)).trans htop
    have h2 := pow_le_pow_left₀ (by positivity) h1 2
    rw [hsq, sq_zpow, le_div_iff₀ hxpos] at h2
    have h3 : (2 : ℝ) ^ (2 * f.bias + (f.emin - f.mbits)) ≤ 2 ^ (0 : Int) := by
      rw [zpow_zero, zpow_add₀ two_ne_zero]
      exact le_trans (mul_le_mul_of_nonneg_left hxlow (by positivity)) h2
    have h4 := (zpow_le_zpow_iff_right₀ (one_lt_two (α := ℝ))).1 h3
    rw [emin_eq, bias_eq] at h4
    omega
  obtain ⟨n, k, hnk, u, even, hu, hle, hsp, hr, -⟩ := round_normal (mode := 0) h hst hq hp hlow hhigh
  have hxq : 0 < (FVal.num false m e).rat := by
    rw [hx]
    positivity
  have hsq' : (√(((4 ^ ((evenSig m e).log2 + 60) : Nat) : ℝ) / evenSig m e) * 2 ^ E) ^ 2 =
      ((1 / (FVal.num false m e).rat : ℚ) : ℝ) := by
    rw [hsq, hx]
    push_cast
    rfl
  obtain ⟨h1, h2, -, -⟩ := root_bounds hsq' hs0 hu hle hsp hr
  obtain ⟨h3, h4⟩ := h2 rfl
  rw [rsqrt_num hv hm, sfuFlags_bits, hR, hE]
  exact ⟨n, k, hnk, h1, (le_div_iff₀ hxq).1 h3, (div_le_iff₀ hxq).1 h4⟩

end Sys2Proof.Proofs

end

section
/-!
PROOFS. Conversions, E4M3, NB4, and the bits of inserted fields and of reversals (R27, R49, R51, R83 to R86, R101).
-/

namespace Sys2Proof.Proofs
open Sys2Proof Sys2Proof.Machine

set_option Elab.async false

variable {mode : BitVec 2} {neg : Bool}

/-! ### Conversions (R83, R122) -/

/-- An integer as a pattern of a width. -/
def intPattern (w : Nat) (z : Int) : Nat := (z % 2 ^ w).toNat

/-- The integer formats by their codes: bounds and width. -/
def intFormats : List (Nat × Int × Int × Nat) :=
  [(0, -2 ^ 31, 2 ^ 31 - 1, 32), (1, 0, 2 ^ 32 - 1, 32), (7, -2 ^ 63, 2 ^ 63 - 1, 64)]

theorem intFormat_eq {p : Nat × Int × Int × Nat} (hp : p ∈ intFormats) :
    (p.1 == 0 || p.1 == 1 || p.1 == 7) = true ∧ intBounds p.1 = (p.2.1, p.2.2.1) ∧ cvtWidth p.1 = p.2.2.2 ∧
      p.2.1 ≤ p.2.2.1 := by
  simp only [intFormats, List.mem_cons, List.not_mem_nil, or_false] at hp
  rcases hp with rfl | rfl | rfl <;> decide

theorem convert_int_int {p : Nat × Int × Int × Nat} (hp : p ∈ intFormats) (mode : BitVec 2) (sat : Bool) (z : Int) :
    convert p.1 mode sat (.int z) = ⟨intPattern p.2.2.2 (if sat then min p.2.2.1 (max p.2.1 z) else z), 0⟩ := by
  obtain ⟨h1, h2, h3, -⟩ := intFormat_eq hp
  unfold convert
  dsimp only
  rw [if_pos h1, h2, h3]
  cases sat <;> rfl

theorem convert_int_nan {p : Nat × Int × Int × Nat} (hp : p ∈ intFormats) (mode : BitVec 2) (sat g : Bool) :
    convert p.1 mode sat (.flt (.nan g)) = ⟨0, 16⟩ := by
  obtain ⟨h1, -⟩ := intFormat_eq hp
  unfold convert
  dsimp only
  rw [if_pos h1]
  rfl

theorem clampTo_eq {lo hi z : Int} (w : Nat) (h : lo ≤ hi) :
    clampTo (lo, hi) w z = intPattern w (if z < lo then lo else if hi < z then hi else z) := by
  unfold clampTo intPattern
  congr 2
  dsimp only
  split
  · omega
  · split <;> omega

theorem convert_int_inf {p : Nat × Int × Int × Nat} (hp : p ∈ intFormats) (mode : BitVec 2) (sat neg : Bool) :
    convert p.1 mode sat (.flt (.inf neg)) = ⟨intPattern p.2.2.2 (if neg then p.2.1 else p.2.2.1), 16⟩ := by
  obtain ⟨h1, h2, h3, h4⟩ := intFormat_eq hp
  unfold convert
  dsimp only
  rw [if_pos h1, h2, h3, clampTo_eq _ h4]
  cases neg
  · simp [h4.not_gt, flagNV]
  · simp [h4.not_gt, flagNV]

theorem convert_int_num {p : Nat × Int × Int × Nat} (hp : p ∈ intFormats) (mode : BitVec 2) (sat neg : Bool) (m : Nat)
    (e : Int) :
    ∃ z : Int, Nearest mode (FVal.num neg m e).rat z 1 (Even z) ∧
      convert p.1 mode sat (.flt (.num neg m e)) =
        if z < p.2.1 then ⟨intPattern p.2.2.2 p.2.1, 16⟩ else if p.2.2.1 < z then ⟨intPattern p.2.2.2 p.2.2.1, 16⟩
        else ⟨intPattern p.2.2.2 z, if (z : ℚ) = (FVal.num neg m e).rat then 0 else 1⟩ := by
  obtain ⟨h1, h2, h3, h4⟩ := intFormat_eq hp
  obtain ⟨hr, hi⟩ := nearest_roundInt mode neg m e
  refine ⟨_, hr, ?_⟩
  unfold convert
  dsimp only
  rw [if_pos h1, h2, h3, clampTo_eq _ h4]
  change (⟨_, if (decide (signedInt neg (roundInt mode neg m e).1 < p.2.1) ||
    decide (p.2.2.1 < signedInt neg (roundInt mode neg m e).1)) = true then flagNV
    else if (roundInt mode neg m e).2 = true then flagNX else 0⟩ : FRes) = _
  have hx : (if (roundInt mode neg m e).2 = true then flagNX else 0) =
      if (signedInt neg (roundInt mode neg m e).1 : ℚ) = (FVal.num neg m e).rat then 0 else 1 := by
    by_cases hz : (roundInt mode neg m e).2 = false
    · rw [hz, if_pos (hi.1 hz)]
      rfl
    · rw [if_neg (mt hi.2 hz), if_pos (by simpa using hz)]
      rfl
  rw [hx]
  change (⟨intPattern _ (if signedInt neg (roundInt mode neg m e).1 < p.2.1 then _ else
    if p.2.2.1 < signedInt neg (roundInt mode neg m e).1 then _ else signedInt neg (roundInt mode neg m e).1), _⟩ : FRes) = _
  generalize signedInt neg (roundInt mode neg m e).1 = z
  by_cases hlo : z < p.2.1
  · simp [hlo, flagNV]
  · by_cases hhi : p.2.2.1 < z
    · simp [hlo, hhi, flagNV]
    · simp [hlo, hhi]

/-- The floating-point formats by their codes. -/
def floatFormats : List (Nat × FFmt) := [(2, bf16), (3, fp16), (4, fp32), (5, fp64)]

theorem convert_float {p : Nat × FFmt} (hp : p ∈ floatFormats) (mode : BitVec 2) (sat : Bool) :
    (∀ z : Int, convert p.1 mode sat (.int z) = p.2.round mode (decide (z < 0)) z.natAbs 0 false) ∧
    (∀ g, convert p.1 mode sat (.flt (.nan g)) = ⟨p.2.nan, if g then 16 else 0⟩) ∧
    (∀ neg, convert p.1 mode sat (.flt (.inf neg)) = ⟨p.2.inf neg, 0⟩) ∧
    (∀ neg m e, convert p.1 mode sat (.flt (.num neg m e)) =
      let r := p.2.round mode neg m e false
      if sat = true ∧ bit r.flags 2 = true then ⟨p.2.largest neg, r.flags⟩ else r) := by
  have hfmt : (p.1 == 0 || p.1 == 1 || p.1 == 7) = false ∧ p.1 ≠ 6 ∧ cvtFmt p.1 = p.2 := by
    simp only [floatFormats, List.mem_cons, List.not_mem_nil, or_false] at hp
    rcases hp with rfl | rfl | rfl | rfl <;> exact ⟨rfl, by decide, rfl⟩
  obtain ⟨h1, h2, h3⟩ := hfmt
  have hof (n : Nat) : (n &&& flagOF != 0) = bit n 2 := by
    rw [and_flagOF]
    cases bit n 2 <;> rfl
  unfold convert
  simp only [h1, h2, h3, Bool.false_eq_true, if_false, hof, Bool.and_eq_true]
  exact ⟨fun _ => trivial, fun _ => rfl, fun _ => rfl, fun _ _ _ => rfl⟩

/-! ### E4M3 and NB4 (R84 to R86) -/

/-- The sizes of E4M3; its greatest pattern is one of a number but for the last significand (R84). -/
def e4m3 : FFmt := ⟨4, 3⟩

theorem toE4m3_eq {m : Nat} {e : Int} (sat : Bool) (hm : 0 < m) :
    toE4m3 sat (.num neg m e) =
      if 127 ≤ roundedBody e4m3 0 neg m e false then ⟨if sat then (if neg then 0xFE else 0x7E) else 0x7F, 5⟩
      else ⟨(if neg then 128 else 0) + roundedBody e4m3 0 neg m e false,
        (if isInexact e4m3 0 neg m e false && decide (roundedSig e4m3 0 neg m e false < 8) then 2 else 0) +
        (if isInexact e4m3 0 neg m e false then 1 else 0)⟩ := by
  have hn := sig_le (mode := 0) (neg := neg) (precise_exact e4m3 m) e
  have hl := level_zero_or_le_sig (mode := 0) (neg := neg) hm (precise_exact e4m3 m) e
  have hq0 : max (topExp m e) (-6) - 3 = quantum e4m3 m e := quantum_eq e4m3 m e
  have hq : quantum e4m3 m e = level e4m3 m e - 9 := by
    have : e4m3.emin = -6 := by decide
    rw [quantum, this, show e4m3.mbits = 3 by rfl]
    omega
  rw [show (2 ^ e4m3.mbits : Nat) = 8 by rfl] at hn hl
  unfold toE4m3
  dsimp only
  rw [if_neg hm.ne']
  simp only [hq0]
  unfold roundedBody isInexact
  unfold roundedSig at *
  generalize roundShift 0 neg m false (quantum e4m3 m e - e) = p at *
  obtain ⟨n, ix⟩ := p
  rw [hq, show (2 ^ e4m3.mbits : Nat) = 8 by rfl]
  dsimp only at hn hl ⊢
  generalize level e4m3 m e = L at *
  refine if_congr ?_ ?_ ?_
  · rw [Bool.and_eq_true, Bool.or_eq_true, Bool.and_eq_true, decide_eq_true_iff, decide_eq_true_iff, beq_iff_eq, beq_iff_eq]
    split <;> omega
  · cases sat <;> cases neg <;> rfl
  · have h8 : decide ((if n = 16 then 8 else n) < 8) = decide (n < 8) := by
      rw [decide_eq_decide]
      split <;> omega
    rw [h8]
    congr 2
    split <;> split <;> omega

theorem e4m3Value_add : ∀ (neg : Bool) (b : Nat), b < 127 →
    e4m3Value ((if neg then 128 else 0) + b) = .num neg (sigOf e4m3 b) (expOf e4m3 b) := by
  decide

/-- A number is above 464 where its rounding reaches the pattern of NaN (R85). -/
theorem e4m3_overflows {m : Nat} (e : Int) (hm : 0 < m) :
    464 < (m : ℚ) * 2 ^ e ↔ 127 ≤ roundedBody e4m3 0 neg m e false := by
  have hy := stands_exact (K := ℚ) m
  obtain ⟨hr, -⟩ := rounded_sig (mode := 0) (neg := neg) hy (precise_exact e4m3 m) e
  have hn := sig_le (mode := 0) (neg := neg) (precise_exact e4m3 m) e
  have hl := level_zero_or_le_sig (mode := 0) (neg := neg) hm (precise_exact e4m3 m) e
  have htop := hy.top_le hm e
  have hlt := hy.lt_top e
  have hmin : e4m3.emin = -6 := by decide
  have hP : (2 ^ e4m3.mbits : Nat) = 8 := rfl
  rw [hP] at hn hl
  unfold roundedBody
  rw [hP]
  rcases lt_trichotomy (level e4m3 m e) 14 with hL | hL | hL
  · have ha : (m : ℚ) * 2 ^ e < 2 ^ (8 : Int) := by
      refine hlt.trans_le (zpow_le_zpow_right₀ one_le_two ?_)
      unfold level at hL
      omega
    refine iff_of_false ?_ (by omega)
    norm_num at ha
    linarith
  · have hq : (2 : ℚ) ^ quantum e4m3 m e = 32 := by
      rw [quantum, hL, hmin, show e4m3.mbits = 3 by rfl]
      norm_num
    rw [hq] at hr
    obtain ⟨h1, h2⟩ := hr.near rfl
    obtain ⟨h3, h4⟩ := abs_le.1 h1
    rw [hL]
    generalize roundedSig e4m3 0 neg m e false = n at *
    generalize (m : ℚ) * 2 ^ e = a at *
    constructor
    · intro h
      by_contra hc
      have : (n : ℚ) ≤ 14 := by exact_mod_cast (show n ≤ 14 by omega)
      linarith
    · intro h
      have h15 : (15 : ℚ) ≤ n := by exact_mod_cast (show 15 ≤ n by omega)
      refine lt_of_le_of_ne (by linarith) fun he => ?_
      have hn15 : n = 15 := by
        have : (n : ℚ) ≤ 15 := by linarith
        have : n ≤ 15 := by exact_mod_cast this
        omega
      have := h2 (by rw [hn15, ← he]; norm_num)
      omega
  · have ha : (2 : ℚ) ^ (9 : Int) ≤ m * 2 ^ e := by
      refine le_trans (zpow_le_zpow_right₀ one_le_two ?_) htop
      unfold level at hL
      omega
    refine iff_of_true ?_ (by omega)
    norm_num at ha
    linarith

/-- The conversion to E4M3 rounds to nearest; above 464 it overflows (R85). -/
theorem toE4m3_rounds (sat : Bool) {m : Nat} (e : Int) (hm : 0 < m) :
    let v := (FVal.num neg m e).rat
    let u : ℚ := 2 ^ (max (Int.log 2 |v|) (-6) - 3)
    let r := toE4m3 sat (.num neg m e)
    (464 < |v| → r = ⟨if sat then (if neg then 0xFE else 0x7E) else 0x7F, 5⟩) ∧
    (|v| ≤ 464 → ∃ n k, e4m3Value r.bits = .num neg n k ∧
      Nearest 0 v (FVal.num neg n k).rat u (r.bits % 2 = 0) ∧
      (bit r.flags 0 = true ↔ (FVal.num neg n k).rat ≠ v) ∧ r.flags < 4) := by
  intro v u r
  have hy := stands_exact (K := ℚ) m
  have hp := precise_exact e4m3 m
  have ha := hy.pos hm e
  have hv : v = signedRat neg (m * 2 ^ e) := rat_num neg m e
  have habs : |v| = m * 2 ^ e := by rw [hv, abs_signedRat neg ha.le]
  have hu : u = 2 ^ quantum e4m3 m e := by
    have := quantum_eq e4m3 m e
    rw [show e4m3.emin = -6 by decide, show e4m3.mbits = 3 by rfl] at this
    change (2 : ℚ) ^ (max (Int.log 2 |v|) (-6) - 3) = _
    rw [habs, log_of_stands hy hm, ← this]
    rfl
  obtain ⟨hr, hi⟩ := rounded_sig (mode := 0) (neg := neg) hy hp e
  have hnk := sigOf_mul_expOf (f := e4m3) (level e4m3 m e) (sig_le (mode := 0) (neg := neg) hp e)
    (level_zero_or_le_sig (mode := 0) (neg := neg) hm hp e)
  have hbig := e4m3_overflows (neg := neg) e hm
  have hr' : r = _ := toE4m3_eq sat hm
  rw [hr', habs, hbig]
  refine ⟨fun h => if_pos h, fun h => ?_⟩
  rw [← not_lt, hbig] at h
  rw [if_neg h]
  have hrat : (FVal.num neg (sigOf e4m3 (roundedBody e4m3 0 neg m e false)) (expOf e4m3 (roundedBody e4m3 0 neg m e false))).rat =
      signedRat neg (roundedSig e4m3 0 neg m e false * 2 ^ quantum e4m3 m e) := by
    rw [rat_num]
    exact congrArg _ hnk
  refine ⟨_, _, e4m3Value_add neg _ (by omega), ?_, ?_, ?_⟩
  · have hpar : ((if neg then 128 else 0) + roundedBody e4m3 0 neg m e false) % 2 = roundedSig e4m3 0 neg m e false % 2 := by
      rw [roundedBody, show (2 ^ e4m3.mbits : Nat) = 8 by rfl]
      split <;> omega
    rw [hrat, hv, hu]
    dsimp only
    rw [hpar]
    exact hr.nearest ha.le (by positivity)
  · rw [hrat, hv, ne_eq, signedRat_inj, ← hi, Bool.not_eq_false]
    dsimp only
    cases isInexact e4m3 0 neg m e false <;> cases decide (roundedSig e4m3 0 neg m e false < 8) <;> decide
  · dsimp only
    split <;> split <;> decide

theorem toE4m3_special (sat : Bool) :
    (∀ g, toE4m3 sat (.nan g) = ⟨0x7F, if g then 16 else 0⟩) ∧
    (∀ neg, toE4m3 sat (.inf neg) = ⟨if sat then (if neg then 0xFE else 0x7E) else 0x7F, 16⟩) ∧
    (∀ neg e, toE4m3 sat (.num neg 0 e) = ⟨if neg then 0x80 else 0, 0⟩) := ⟨fun _ => rfl, fun _ => rfl, fun _ _ => rfl⟩

theorem rat_e4m3Value (x : Nat) :
    let s : ℚ := if bit x 7 then -1 else 1
    let m := bits x 0 3
    let e := bits x 3 4
    (e = 15 ∧ m = 7 → e4m3Value x = .nan false) ∧
    (e = 0 → (e4m3Value x).rat = s * m * 2 ^ (-9 : Int)) ∧
    (e ≠ 0 → ¬ (e = 15 ∧ m = 7) → (e4m3Value x).rat = s * (1 + m / 8) * 2 ^ ((e : Int) - 7)) := by
  intro s m e
  have hm : x % 8 = m := by simp [m, bits]
  have he : x / 8 % 16 = e := rfl
  have hs : (x / 128 % 2 == 1) = bit x 7 := (bit_eq_decide x 7).symm
  have hv : e4m3Value x = if e = 15 ∧ m = 7 then .nan false else if e = 0 then .num (bit x 7) m (-9)
      else .num (bit x 7) (8 + m) ((e : Int) - 10) := by
    unfold e4m3Value
    simp only [hm, he, hs, Bool.and_eq_true, decide_eq_true_eq, beq_iff_eq]
  rw [hv]
  refine ⟨fun h => if_pos h, fun h => ?_, fun h h' => ?_⟩
  · rw [if_neg (by omega), if_pos h]
    rfl
  · rw [if_neg h', if_neg h, FVal.rat, show (e : Int) - 10 = ((e : Int) - 7) - 3 by ring, zpow_sub₀ two_ne_zero]
    push_cast
    simp only [s]
    ring

theorem rat_nb4Value (nib e mu : Nat) :
    (e = 255 → nb4Value nib e mu = .nan false) ∧
    (e ≠ 255 → (nb4Value nib e mu).rat = (if bit nib 3 then -1 else 1) * bits nib 0 3 * 2 ^ ((e : Int) - 127 - mu)) := by
  have hm : bits nib 0 3 = nib % 8 := by simp [bits]
  have hs : bit nib 3 = (nib / 8 % 2 == 1) := bit_eq_decide nib 3
  unfold nb4Value
  rw [hm, hs]
  refine ⟨fun h => if_pos h, fun h => ?_⟩
  rw [if_neg h]
  split
  · next h0 => simp [h0, FVal.rat]
  · rfl

/-! ### Bits (R27, R49, R51, R101) -/

theorem bit_two_pow_mul_add (a : Nat) {b i : Nat} (h : b < 2 ^ i) (k : Nat) :
    bit (2 ^ i * a + b) k = if k < i then bit b k else bit a (k - i) := Nat.testBit_two_pow_mul_add a h k

/-- The bits of a number with a field replaced (R49, R51). -/
theorem bit_insertBits (d a pos len k : Nat) :
    bit (insertBits d a pos len) k = if pos ≤ k ∧ k < pos + len then bit a (k - pos) else bit d k := by
  have hp := Nat.two_pow_pos pos
  have hl := Nat.two_pow_pos len
  have h1 := Nat.div_add_mod d (2 ^ pos)
  have h2 := Nat.div_add_mod (d / 2 ^ pos) (2 ^ len)
  have hlow := Nat.mod_lt d hp
  have hmid := Nat.mod_lt (d / 2 ^ pos) hl
  have hnew := Nat.mod_lt a hl
  have hd : d = 2 ^ pos * (2 ^ len * (d / 2 ^ pos / 2 ^ len) + d / 2 ^ pos % 2 ^ len) + d % 2 ^ pos := by rw [h2, h1]
  have hins : insertBits d a pos len =
      2 ^ pos * (2 ^ len * (d / 2 ^ pos / 2 ^ len) + a % 2 ^ len) + d % 2 ^ pos := by
    have e1 : insertBits d a pos len = d - d / 2 ^ pos % 2 ^ len * 2 ^ pos + a % 2 ^ len * 2 ^ pos := by
      rw [insertBits, bits, bits, pow_zero, Nat.div_one]
    rw [e1]
    conv_lhs => enter [1, 1]; rw [hd]
    rw [mul_add, mul_add, mul_comm (d / 2 ^ pos % 2 ^ len), mul_comm (a % 2 ^ len)]
    omega
  rw [hins]
  conv_rhs => enter [3, 1]; rw [hd]
  rw [bit_two_pow_mul_add _ hlow, bit_two_pow_mul_add _ hlow, bit_two_pow_mul_add _ hnew, bit_two_pow_mul_add _ hmid]
  by_cases hk : k < pos
  · rw [if_pos hk, if_pos hk, if_neg (by omega)]
  · rw [if_neg hk, if_neg hk]
    by_cases hk' : k - pos < len
    · rw [if_pos hk', if_pos (by omega), bit_mod a hk']
    · rw [if_neg hk', if_neg hk', if_neg (by omega)]

/-- The bits of a number reversed, up to bit `n`. -/
def reversed (w a n : Nat) : Nat := (List.range n).foldl (fun r i => r + bitAt (bit a i) (w - 1 - i)) 0

theorem reversed_succ (w a n : Nat) : reversed w a (n + 1) = reversed w a n + bitAt (bit a n) (w - 1 - n) := by
  rw [reversed, List.range_succ, List.foldl_append]
  rfl

theorem bit_bitAt (b : Bool) (i k : Nat) : bit (bitAt b i) k = (b && decide (i = k)) := by
  cases b
  · simp [bitAt, bit]
  · simp [bitAt, bit, Nat.testBit_two_pow]

theorem reversed_spec (w a : Nat) : ∀ n, n ≤ w → 2 ^ (w - n) ∣ reversed w a n ∧
    ∀ k, k < w → bit (reversed w a n) k = (decide (w - n ≤ k) && bit a (w - 1 - k))
  | 0, _ => ⟨Dvd.dvd.trans (dvd_zero _) (dvd_refl 0), fun k hk => by
      rw [decide_eq_false (by omega), Bool.false_and]
      exact Nat.zero_testBit k⟩
  | n + 1, hn => by
    obtain ⟨⟨q, hq⟩, ih⟩ := reversed_spec w a n (by omega)
    have hj : w - n = (w - 1 - n) + 1 := by omega
    have hlt : bitAt (bit a n) (w - 1 - n) < 2 ^ (w - n) := by
      have := Nat.two_pow_pos (w - n)
      rw [bitAt]
      split
      · exact Nat.pow_lt_pow_right one_lt_two (by omega)
      · exact this
    rw [reversed_succ]
    refine ⟨?_, fun k hk => ?_⟩
    · rw [show w - (n + 1) = w - 1 - n by omega]
      refine Nat.dvd_add ?_ ?_
      · rw [hq, hj, pow_succ, mul_assoc]
        exact dvd_mul_right _ _
      · rw [bitAt]
        split
        · exact dvd_refl _
        · exact dvd_zero _
    · have ihk := ih k hk
      rw [hq] at ihk ⊢
      rw [bit_two_pow_mul_add _ hlt, bit_bitAt]
      rw [← Nat.add_zero (2 ^ (w - n) * q), bit_two_pow_mul_add _ (Nat.two_pow_pos _)] at ihk
      by_cases hkn : k < w - n
      · rw [if_pos hkn]
        by_cases he : w - 1 - n = k
        · rw [decide_eq_true he, decide_eq_true (by omega), Bool.and_true, Bool.true_and, show w - 1 - k = n by omega]
        · rw [decide_eq_false he, decide_eq_false (by omega), Bool.and_false, Bool.false_and]
      · rw [if_neg hkn] at ihk ⊢
        rw [ihk, decide_eq_true (by omega), decide_eq_true (by omega)]

theorem bit_brevSub (w x : Nat) {k : Nat} (hk : k < w) : bit (brevSub w x) k = bit x (w - 1 - k) := by
  have := (reversed_spec w x w le_rfl).2 k hk
  rwa [Nat.sub_self, decide_eq_true (Nat.zero_le k), Bool.true_and] at this

end Sys2Proof.Proofs

end

section
/-!
PROOFS. What the operations on numbers give, put together (R79 to R86, R96, R116 to R122).
-/

namespace Sys2Proof.Proofs
open Sys2Proof Sys2Proof.Machine

set_option Elab.async false

variable {f : FFmt} {mode : BitVec 2} {a b d : Nat}

/-! ### The clauses on one format -/

theorem canonical_results (h : Sized f) (mode : BitVec 2) (ha : a < 2 ^ f.width) (hb : b < 2 ^ f.width) :
    ∀ r ∈ [f.add mode a b, f.sub mode a b, f.mul mode a b, f.fma mode a b d, f.minmax false a b, f.minmax true a b,
      f.integral mode true a, f.signOp false a, f.signOp true a, f.rcp a, f.rsqrt a, f.sqrt mode a, f.exp2 a, f.log2 a,
      f.trig false a, f.trig true a], Canonical f r.bits := by
  simp only [List.forall_mem_cons]
  exact ⟨canonical_sum h _ _ _, canonical_sum h _ _ _, canonical_ofVal h _ _, canonical_sum h _ _ _,
    canonical_minmax h false ha hb, canonical_minmax h true ha hb, canonical_integral h mode true a, canonical_signOp h false ha,
    canonical_signOp h true ha, (special_rcp h a).canonical, (special_rsqrt h a).canonical, canonical_sqrt h a,
    (special_exp2 h a).canonical, (special_log2 h a).canonical, (special_trig h false a).canonical,
    (special_trig h true a).canonical, fun _ h => absurd h List.not_mem_nil⟩

theorem unary_nan {g : Bool} (hv : f.value a = .nan g) :
    ∀ r ∈ [f.integral mode true a, f.signOp false a, f.signOp true a, f.rcp a, f.rsqrt a, f.sqrt mode a, f.exp2 a, f.log2 a,
      f.trig false a, f.trig true a], r = ⟨f.nan, nvOf g⟩ := by
  unfold FFmt.integral FFmt.signOp FFmt.rcp FFmt.rsqrt FFmt.sqrt FFmt.exp2 FFmt.log2 FFmt.trig
  rw [hv]
  simp

theorem unary_inf {p : Bool} (hv : f.value a = .inf p) :
    f.integral mode true a = ⟨f.inf p, 0⟩ ∧ f.rcp a = ⟨f.zero p, 0⟩ ∧
    f.rsqrt a = (if p then ⟨f.nan, 16⟩ else ⟨f.zero false, 0⟩) ∧
    f.sqrt mode a = (if p then ⟨f.nan, 16⟩ else ⟨f.inf false, 0⟩) ∧
    f.exp2 a = (if p then ⟨f.zero false, 0⟩ else ⟨f.inf false, 0⟩) ∧
    f.log2 a = (if p then ⟨f.nan, 16⟩ else ⟨f.inf false, 0⟩) ∧
    f.trig false a = ⟨f.nan, 16⟩ ∧ f.trig true a = ⟨f.nan, 16⟩ := by
  unfold FFmt.integral FFmt.rcp FFmt.rsqrt FFmt.sqrt FFmt.exp2 FFmt.log2 FFmt.trig
  rw [hv]
  exact ⟨rfl, rfl, rfl, rfl, rfl, rfl, rfl, rfl⟩

theorem unary_zero (h : Sized f) {p : Bool} {e : Int} (hv : f.value a = .num p 0 e) :
    f.rcp a = ⟨f.inf p, 8⟩ ∧ f.rsqrt a = ⟨f.inf p, 8⟩ ∧ f.sqrt mode a = ⟨f.zero p, 0⟩ ∧
    f.log2 a = ⟨f.inf true, 8⟩ ∧ f.trig false a = ⟨f.zero p, 0⟩ ∧
    (∀ r ∈ [f.exp2 a, f.trig true a], (f.value r.bits).rat = 1 ∧ r.flags = 0) := by
  obtain ⟨n, k, hnk, hone, hflags⟩ := round_one h
  have hexp : f.exp2 a = f.round 0 false 1 0 false := by
    unfold FFmt.exp2
    rw [hv]
    exact if_pos rfl
  have hcos : f.trig true a = f.round 0 false 1 0 false := by
    unfold FFmt.trig
    rw [hv]
    exact if_pos rfl
  rw [hexp, hcos]
  unfold FFmt.rcp FFmt.rsqrt FFmt.sqrt FFmt.log2 FFmt.trig
  rw [hv]
  refine ⟨rfl, rfl, rfl, rfl, rfl, fun r hr => ?_⟩
  obtain rfl : r = f.round 0 false 1 0 false := by simpa using hr
  rw [hnk]
  exact ⟨hone, hflags⟩

theorem unary_negative {m : Nat} {e : Int} (hv : f.value a = .num true m e) (hm : 0 < m) :
    ∀ r ∈ [f.rsqrt a, f.sqrt mode a, f.log2 a], r = ⟨f.nan, 16⟩ := by
  unfold FFmt.rsqrt FFmt.sqrt FFmt.log2
  rw [hv]
  simp [hm.ne', flagNV]

theorem never_inexact (h : Sized f) (a : Nat) :
    ∀ r ∈ [f.rcp a, f.rsqrt a, f.exp2 a, f.log2 a, f.trig false a, f.trig true a], bit r.flags 0 = false := by
  simp only [List.forall_mem_cons]
  exact ⟨(special_rcp h a).noNX, (special_rsqrt h a).noNX, (special_exp2 h a).noNX, (special_log2 h a).noNX,
    (special_trig h false a).noNX, (special_trig h true a).noNX, fun _ h => absurd h List.not_mem_nil⟩

/-- The parameters of a format and the values of its patterns (R79). -/
theorem format_fields (h : Sized f) {eb mb nan top : Nat} {bias : Int} (he : f.ebits = eb) (hm : f.mbits = mb)
    (hbias : f.bias = bias) (hnan : f.nan = nan) (htop : f.emax * 2 ^ f.mbits = top + 1) :
    f.width = 1 + eb + mb ∧ f.emin = 1 - bias ∧ f.nan = nan ∧
    (∀ neg : Bool, let s := if neg then 2 ^ (eb + mb) else 0
      f.largest neg = top + s ∧ f.inf neg = top + 1 + s ∧ f.zero neg = s) ∧
    ∀ x, x < 2 ^ f.width →
      let frac := bits x 0 mb
      let ex := bits x mb eb
      let neg := bit x (eb + mb)
      (ex = 2 ^ eb - 1 → f.value x = if frac = 0 then .inf neg else .nan (!bit x (mb - 1))) ∧
      (ex ≠ 2 ^ eb - 1 → ∃ m e, f.value x = .num neg m e ∧ (FVal.num neg m e).rat = (if neg then -1 else 1) *
        (if ex = 0 then (frac : ℚ) / 2 ^ mb * 2 ^ (1 - bias) else (1 + (frac : ℚ) / 2 ^ mb) * 2 ^ ((ex : Int) - bias))) := by
  subst he hm hbias
  refine ⟨rfl, rfl, hnan, fun neg => ?_, fun x _ => ⟨value_of_top h, value_of_not_top⟩⟩
  rw [largest_eq h, inf_eq, htop]
  unfold FFmt.zero
  exact ⟨by omega, by omega, rfl⟩

/-- Settles O18: a rounding is a rounded quotient by a power of two, laid out as a pattern; what each operation gives follows
from the exact number that it rounds. -/
theorem bitFieldsAndSubElements : Obligations.BitFieldsAndSubElements := by
  refine ⟨bit_insertBits, fun w f j h => sub_joinSubs h, fun w x k h => bit_brevSub _ x h, ?_, fun f hf => ?_,
    fun mode sat => ?_, fun x _ => rat_e4m3Value x, fun nib e mu _ _ _ => rat_nb4Value nib e mu⟩
  · simp only [List.forall_mem_cons]
    exact ⟨format_fields (sized_of_mem (by simp)) rfl rfl rfl rfl rfl, format_fields (sized_of_mem (by simp)) rfl rfl rfl rfl rfl,
      format_fields (sized_of_mem (by simp)) rfl rfl rfl rfl rfl, format_fields (sized_of_mem (by simp)) rfl rfl rfl rfl rfl,
      fun _ h => absurd h List.not_mem_nil⟩
  · have h := sized_of_mem hf
    refine ⟨fun mode neg m e hm => ⟨roundedOnce_exact h hm e, rfl, rfl⟩,
      fun mode a b d na nb nd ma mb md ea eb ed ha hb hd =>
        ⟨isExactly_add h ha hb, isExactly_sub h ha hb, isExactly_mul h ha hb, isExactly_fma h ha hb hd⟩,
      fun mode a b d ha hb hd => ?_⟩
    refine ⟨canonical_results h mode ha hb, fun hn => ?_, fun hn => ?_, fun p q hx hy => ?_, fun p q m e hx hy => ?_,
      fun hx hy => ?_, fun hn => ?_, fun hx => value_signOp ha hx, fun p hx => unary_inf hx, fun p e hx => unary_zero h hx,
      fun m e hx hm => unary_negative hx hm, fun p m e hx hm => ?_, fun m e hx hm => ?_,
      fun p m e hx nx => ?_⟩
    · simp only [List.forall_mem_cons]
      exact ⟨add_nan hn, sub_nan hn, mul_nan hn, fun _ h => absurd h List.not_mem_nil⟩
    · obtain ⟨g, hg, hs⟩ := nan_of_isNan hn
      rw [hs]
      exact unary_nan hg
    · exact ⟨add_inf_inf hx hy, sub_inf_inf hx hy, mul_inf_inf hx hy⟩
    · obtain ⟨h1, h2, h3, h4⟩ := add_inf_num (mode := mode) hx hy
      obtain ⟨h5, h6⟩ := mul_inf_num (mode := mode) hx hy
      refine ⟨h1, h2, h3, h4, fun r hr => ?_⟩
      rw [h5, h6] at hr
      simpa using hr
    · obtain ⟨h1, h2, h3⟩ := minmax_less ha hb hx hy
      exact ⟨h1, h2, h3, rel_num hx hy⟩
    · exact ⟨fun m => rel_nan m hn, fun w => minmax_nan w hn⟩
    · obtain ⟨h1, h2⟩ := rcp_rounds h hx hm
      rw [← hx] at h1 h2
      exact ⟨h1, h2, never_inexact h a⟩
    · have h1 := sqrt_rounds (mode := mode) h ha hx hm
      have h2 := rsqrt_rounds h ha hx hm
      rw [← hx] at h1 h2
      exact ⟨h1, h2, fun k hk => log2_two_pow h ha hx hm (hx ▸ hk)⟩
    · have h1 := integral_rounds (mode := mode) h ha hx nx
      rwa [← hx] at h1
  · obtain ⟨h1, h2, h3⟩ := toE4m3_special sat
    refine ⟨fun p hp => ⟨convert_int_int hp mode sat, convert_int_nan hp mode sat, convert_int_inf hp mode sat,
      convert_int_num hp mode sat⟩, fun p hp => convert_float hp mode sat, fun _ => rfl, fun _ => rfl, h1, h2, h3,
      fun neg m e hm => toE4m3_rounds sat e hm⟩

end Sys2Proof.Proofs

end

section
/-!
PROOFS. The scalar words and the relative transfers of control (R43 to R53): what each function of the model is, in the
terms of the spec, and the one frame that all these words share.
-/

namespace Sys2Proof.Proofs
open Sys2Proof Sys2Proof.Machine

/-! ### Scalar results (R43) -/

/-- A word whose effect is to write the scalar `x` and to end, where that is `y`. -/
theorem completes_scalar {i : Instr} {f : State → State} {s : State} {d : BitVec 6} {x y : Word}
    (arm : ∀ s, exec i s = issue i s f) (hf : f s = doneS s d x) (h : x = y) (hr : Ready i s) :
    Completes i s fun t => ScalarEffect s t d y :=
  completes_of_arm arm hr (hf ▸ h ▸ scalarEffect_doneS s d x)

/-! ### The functions of ALU and ALUI (R46) -/

theorem add_eq_ofNat (x y : Word) : x + y = BitVec.ofNat 64 (x.toNat + y.toNat) :=
  BitVec.eq_of_toNat_eq (by rw [BitVec.toNat_add, BitVec.toNat_ofNat])

theorem mul_eq_ofNat (x y : Word) : x * y = BitVec.ofNat 64 (x.toNat * y.toNat) :=
  BitVec.eq_of_toNat_eq (by rw [BitVec.toNat_mul, BitVec.toNat_ofNat])

theorem sar64_eq (x y : Word) : sar64 x y =
    if 64 ≤ y.toNat then (if x.msb then BitVec.allOnes 64 else 0) else x.sshiftRight y.toNat := by
  rw [sar64, BitVec.msb_eq_getLsbD_last]

/-- Settles O14: each word writes its function of the two registers, and the words have one frame. -/
theorem aluWritesItsResult : Obligations.AluWritesItsResult := by
  unfold Obligations.AluWritesItsResult
  intro s d a b x y
  simp only [List.forall_mem_cons, List.not_mem_nil, IsEmpty.forall_iff, implies_true, and_true]
  refine ⟨?add, ?sub, ?and, ?or, ?xor, ?andn, ?shl, ?shr, ?sar, ?mul, ?mulhs, ?mulhz, ?mins, ?maxs, ?minz, ?maxz⟩
  case add => exact completes_scalar (fun _ => rfl) rfl (add_eq_ofNat x y)
  case mul => exact completes_scalar (fun _ => rfl) rfl (mul_eq_ofNat x y)
  case sar => exact completes_scalar (fun _ => rfl) rfl (sar64_eq x y)
  all_goals exact completes_scalar (fun _ => rfl) rfl rfl

/-- Settles O15: each word writes its function of the register and the immediate. -/
theorem aluiWritesItsResult : Obligations.AluiWritesItsResult := by
  unfold Obligations.AluiWritesItsResult
  intro s d a i x y
  simp only [List.forall_mem_cons, List.not_mem_nil, IsEmpty.forall_iff, implies_true, and_true]
  refine ⟨?add, ?sub, ?and, ?or, ?xor, ?andn, ?shl, ?shr, ?sar, ?mul, ?mulhs, ?mulhz, ?mins, ?maxs, ?minz, ?maxz⟩
  case add => exact completes_scalar (fun _ => rfl) rfl (add_eq_ofNat x y)
  case mul => exact completes_scalar (fun _ => rfl) rfl (mul_eq_ofNat x y)
  case sar => exact completes_scalar (fun _ => rfl) rfl (sar64_eq x y)
  all_goals exact completes_scalar (fun _ => rfl) rfl rfl

/-! ### Division (R48) -/

theorem divs64_eq (x y : Word) : divs64 x y =
    if y = 0 then BitVec.allOnes 64 else if x = 0x8000000000000000 ∧ y = BitVec.allOnes 64 then x
    else BitVec.ofInt 64 (x.toInt.tdiv y.toInt) := by
  simp only [divs64, Bool.and_eq_true, decide_eq_true_eq, beq_iff_eq]

/-- The remainder that the model takes from the quotient has the sign of the dividend. -/
theorem rems64_eq (x y : Word) : rems64 x y =
    if y = 0 then x else if x = 0x8000000000000000 ∧ y = BitVec.allOnes 64 then 0
    else BitVec.ofInt 64 (x.toInt.tmod y.toInt) := by
  simp only [rems64, Bool.and_eq_true, decide_eq_true_eq, beq_iff_eq, Int.tmod_def]

theorem remz64_eq (x y : Word) : remz64 x y = if y = 0 then x else BitVec.ofNat 64 (x.toNat % y.toNat) := by
  rw [remz64, w64, ← Nat.mod_eq_sub_mul_div]

/-- Settles O16: the quotients and the remainders, with the zero divisor and the overflow. -/
theorem divisionAsR48 : Obligations.DivisionAsR48 := by
  unfold Obligations.DivisionAsR48
  intro s d a b x y least
  simp only [List.forall_mem_cons, List.not_mem_nil, IsEmpty.forall_iff, implies_true, and_true]
  refine ⟨?divz, ?remz, ?divs, ?rems⟩
  case divz => exact completes_scalar (fun _ => rfl) rfl rfl
  case remz => exact completes_scalar (fun _ => rfl) rfl (remz64_eq x y)
  case divs => exact completes_scalar (fun _ => rfl) rfl (divs64_eq x y)
  case rems => exact completes_scalar (fun _ => rfl) rfl (rems64_eq x y)

/-! ### Bits, comparisons and moves (R49 to R51) -/

theorem clzAt_toNat (x : Word) : clzAt 64 x.toNat = if x = 0 then 64 else 63 - x.toNat.log2 := by
  rw [clzAt]
  exact if_congr (BitVec.toNat_eq (y := 0)).symm rfl rfl

theorem bfx64_eq (x y : Word) : bfx64 x y =
    let pos := y.toNat % 64
    BitVec.ofNat 64 (x.toNat / 2 ^ pos % 2 ^ Nat.min (y.toNat / 256 % 128) (64 - pos)) := by
  simp only [bfx64, fieldPos, bits_zero]
  rfl

theorem bfi64_eq (d x y : Word) : bfi64 d x y =
    let pos := y.toNat % 64
    BitVec.ofNat 64 (insertBits d.toNat x.toNat pos (Nat.min (y.toNat / 256 % 128) (64 - pos))) := by
  simp only [bfi64, fieldPos, bits_zero]
  rfl

theorem bne_eq (x y : Word) : (x != y) = decide (x ≠ y) := by simp only [bne, beq_eq_decide, ne_eq, decide_not]

theorem relCmps_eq (c : BitVec 3) (x y : Word) : relCmps c x y = match c.toNat with
    | 0 => decide (x = y)
    | 1 => decide (x ≠ y)
    | 2 => decide (x.toInt < y.toInt)
    | 3 => decide (x.toInt ≤ y.toInt)
    | 4 => decide (x.toNat < y.toNat)
    | _ => decide (x.toNat ≤ y.toNat) := by
  simp only [relCmps, bne_eq, beq_eq_decide] <;> rfl

/-- A halfword put into a register of zeros. -/
theorem putHalf_zero (h : BitVec 2) (i : BitVec 16) : putHalf 0 h i = BitVec.ofNat 64 (i.toNat * 2 ^ (16 * h.toNat)) := by
  simp [putHalf, insertBits, bits, w64, Nat.mod_eq_of_lt i.isLt]

/-- Settles O17: each word writes its function of the registers or the immediate. -/
theorem alxAndMovwWriteTheirResult : Obligations.AlxAndMovwWriteTheirResult := by
  unfold Obligations.AlxAndMovwWriteTheirResult
  intro s d a b c h i x y old pos len
  simp only [List.forall_mem_cons, List.not_mem_nil, IsEmpty.forall_iff, implies_true, and_true]
  refine ⟨?clz, ?popc, ?bfx, ?bfi, ?cmps, ?mov, ?selnz, ?movw, ?movwk⟩
  case clz => exact completes_scalar (fun _ => rfl) rfl (congrArg w64 (clzAt_toNat x))
  case bfx => exact completes_scalar (fun _ => rfl) rfl (bfx64_eq x y)
  case bfi => exact completes_scalar (fun _ => rfl) rfl (bfi64_eq old x y)
  case cmps =>
    exact completes_scalar (fun _ => rfl) rfl (congrArg (fun p : Bool => if p then (1 : Word) else 0) (relCmps_eq c x y))
  case movw => exact completes_scalar (fun _ => rfl) rfl (putHalf_zero h i)
  all_goals exact completes_scalar (fun _ => rfl) rfl rfl

/-! ### Relative transfers (R52, R53) -/

theorem relBrc_eq (x y : Word) :
    (relBrc 0 x y = decide (x = y)) ∧ (relBrc 1 x y = decide (x ≠ y)) ∧
    (relBrc 2 x y = decide (x.toInt < y.toInt)) ∧ (relBrc 3 x y = decide (y.toInt ≤ x.toInt)) ∧
    (relBrc 4 x y = decide (x.toNat < y.toNat)) ∧ (relBrc 5 x y = decide (y.toNat ≤ x.toNat)) ∧
    (relBrc 6 x y = decide (x = 0)) ∧ (relBrc 7 x y = decide (x ≠ 0)) :=
  ⟨beq_eq_decide x y, bne_eq x y, rfl, rfl, rfl, rfl, beq_eq_decide x 0, bne_eq x 0⟩

theorem exec_brc (c : BitVec 4) (a b : BitVec 6) (o : BitVec 9) (s : State) :
    exec (.brc c a b o) s = issue (.brc c a b o) s fun s =>
      if relBrc (c.setWidth 3) (getS s.c a) (getS s.c b) then jump s (relTarget s o) else done s := rfl

/-- Settles O19: a branch that is taken jumps, one that is not ends as any word does, and a call writes its link first. -/
theorem branchesGoToTheirTarget : Obligations.BranchesGoToTheirTarget := by
  unfold Obligations.BranchesGoToTheirTarget
  refine ⟨fun s c a b o k => ⟨fun hr ht => ?taken, fun hr hf => ?untaken, fun hr => ?br, fun hr => ?call⟩, relBrc_eq⟩
  case taken =>
    refine completes_of_ready (exec_brc c a b o s) hr ?_
    rw [if_pos ht]
    exact jumpEffect_jump s _
  case untaken =>
    refine completes_of_ready (exec_brc c a b o s) hr ?_
    rw [if_neg (by simp [hf])]
    exact crewEffect_done s s.c rfl rfl rfl rfl
  case br => exact completes_of_arm (fun _ => rfl) hr (jumpEffect_jump s _)
  case call => exact completes_of_arm (fun _ => rfl) hr (jumpEffect_link s _)

end Sys2Proof.Proofs
end

section
/-!
PROOFS. The checks of a memory access (R57, R174): their order, and the trap of the word that fails one (R210, R295).
-/

namespace Sys2Proof.Proofs
open Sys2Proof Sys2Proof.Machine

/-! ### The checks of one access (R57, R174) -/

section
variable (s : State) (need : Need) {va align : Nat} (n : Nat)

theorem checkGlobal_high (h : 2 ^ 57 ≤ va) : checkGlobal s need va align n = .error .xlate := by
  rw [checkGlobal, if_pos h]

theorem checkGlobal_misaligned (h : va < 2 ^ 57) (ha : va % align ≠ 0) :
    checkGlobal s need va align n = .error .align := by
  rw [checkGlobal, if_neg (Nat.not_le.2 h), if_pos ha]

/-- An aligned address in range is translated, and then meets the storage that the hardware owns. -/
theorem checkGlobal_aligned (h : va < 2 ^ 57) (ha : va % align = 0) : checkGlobal s need va align n =
    (crewXlate s need va).bind fun p => if ownedByHw s p.pa n need.w then .error .perm else .ok p := by
  rw [checkGlobal, if_neg (Nat.not_le.2 h), if_neg (not_not_intro ha)]
  cases crewXlate s need va <;> rfl

end

section
variable {s : State} {part die privl asn a n : Nat} (hc : isControl die privl a = false)
include hc

/-- A vault address outside the control block that names no vault of the part's own dies. -/
theorem checkVault_xlate (h : bit a 31 = true ∨ 95 < bits a 22 7 ∨ partOfDie s (bits a 29 2) ≠ part) :
    checkVault s part die privl asn a n = .error .xlate := by
  rw [checkVault, if_neg (by simp [hc]), if_pos]
  simpa [or_assoc] using h

variable (hb : bit a 31 = false) (hv : bits a 22 7 ≤ 95) (hp : partOfDie s (bits a 29 2) = part)
include hb hv hp

/-- The checks that are left where the address names a vault of the part's own dies. -/
theorem checkVault_named : checkVault s part die privl asn a n =
    if a % n ≠ 0 then .error .align
    else if bits a 22 7 == 0 && decide (privl < 2) then .error .perm
    else if look 65536 s.halves (a / 2 ^ 21) ≠ asn then .error .perm
    else .ok () := by
  rw [checkVault, if_neg (by simp [hc]), if_neg]
  simpa [hb, hp] using hv

theorem checkVault_misaligned (ha : a % n ≠ 0) : checkVault s part die privl asn a n = .error .align := by
  rw [checkVault_named hc hb hv hp, if_pos ha]

/-- Vault 0 of a die is the foreman core's. -/
theorem checkVault_foreman (ha : a % n = 0) (h0 : bits a 22 7 = 0) (hf : privl < 2) :
    checkVault s part die privl asn a n = .error .perm := by
  rw [checkVault_named hc hb hv hp, if_neg (not_not_intro ha), if_pos (by simp [h0, hf])]

/-- The half of the vault has to be bound to the address space. -/
theorem checkVault_bound (ha : a % n = 0) (h : bits a 22 7 ≠ 0 ∨ 2 ≤ privl) : checkVault s part die privl asn a n =
    if look 65536 s.halves (a / 2 ^ 21) = asn then .ok () else .error .perm := by
  have hn : (bits a 22 7 == 0 && decide (privl < 2)) = false := by
    rcases h with h | h
    · simp [h]
    · simp [Nat.not_lt.2 h]
  rw [checkVault_named hc hb hv hp, if_neg (not_not_intro ha), hn, if_neg Bool.false_ne_true, ite_not]

end

/-! ### Scalar accesses (R57, R295) -/

theorem placedAccess_error {s : State} {need : Need} {addr : Word} {align n kind : Nat} {go : Place → State} {e : Cause}
    (h : checkGlobal s need addr.toNat align n = .error e) :
    placedAccess s need addr align n kind go = scalarFault s e addr kind := by
  rw [placedAccess, h]

theorem placedAccess_ok {s : State} {need : Need} {addr : Word} {align n kind : Nat} {go : Place → State} {p : Place}
    (h : checkGlobal s need addr.toNat align n = .ok p) : placedAccess s need addr align n kind go = go p := by
  rw [placedAccess, h]

theorem scalarInfo_load : scalarInfo 0 = w64 (2 ^ 12 + 2 ^ 26) := by rw [scalarInfo, Nat.zero_mul, Nat.add_zero]

theorem scalarInfo_store : scalarInfo 1 = w64 (2 ^ 12 + 2 ^ 24 + 2 ^ 26) := by rw [scalarInfo, Nat.one_mul]

theorem scalarInfo_both : scalarInfo 2 = w64 (2 ^ 12 + 2 ^ 25 + 2 ^ 26) := by rw [scalarInfo, ← Nat.pow_succ']

/-- A word with one access that fails its check takes the trap of that check, with no effect of its own. -/
theorem exec_scalarFault {i : Instr} {s : State} {f : State → State} {need : Need} {addr : Word} {align n kind : Nat}
    {go : Place → State} {e : Cause} {info : Word} (arm : ∀ s, exec i s = issue i s f)
    (hf : f s = placedAccess s need addr align n kind go) (hi : scalarInfo kind = info) (hr : Ready i s)
    (he : checkGlobal s need addr.toNat align n = .error e) :
    exec i s = .next (takeTrap s ⟨e, s.c.pc, addr, info, false, 0⟩) := by
  rw [arm, issue_ready hr, hf, placedAccess_error he, ← hi]
  rfl

/-- A `REDQS` whose place is in host memory has no right to it (R223). -/
theorem exec_redqs_host {s : State} {f : BitVec 1} {d a b : BitVec 6} {p : Place} (hr : Ready (.redqs f d a b) s)
    (hp : checkGlobal s needRW (getS s.c a).toNat 16 16 = .ok p) (hh : inHost p.pa = true) :
    exec (.redqs f d a b) s =
      .next (takeTrap s ⟨.perm, s.c.pc, getS s.c a, w64 (2 ^ 12 + 2 ^ 25 + 2 ^ 26), false, 0⟩) := by
  change execRedqs f d a b s = _
  rw [execRedqs, issue_ready hr]
  dsimp only
  rw [placedAccess_ok hp, if_pos hh, ← scalarInfo_both]
  rfl

/-! ### Lane accesses (R210, R295) -/

/-- The cause that a check answers, if it fails. -/
def failure : Except Cause Place → Option Cause
  | .error e => some e
  | .ok _ => none

/-- What a thread adds to the failing threads of a lane access. -/
def threadFailure (addr : Nat → Nat) (cause : Nat → Option Cause) (t : Nat) : Option (Nat × Nat × Cause) :=
  (cause t).map fun e => (t, addr t, e)

theorem laneFails_map (addr : Nat → Nat) (check : Nat → Except Cause Place) (ts : List Nat) :
    laneFails (ts.map fun t => (⟨t, addr t, check (addr t)⟩ : LaneAcc)) =
      ts.filterMap (threadFailure addr fun t => failure (check (addr t))) := by
  rw [laneFails, List.filterMap_map]
  refine List.filterMap_congr fun t _ => ?_
  dsimp only [Function.comp_apply, threadFailure]
  cases check (addr t) <;> rfl

theorem length_threadFailures (addr : Nat → Nat) (cause : Nat → Option Cause) (ts : List Nat) :
    (ts.filterMap (threadFailure addr cause)).length = (ts.filter fun t => (cause t).isSome).length := by
  simp only [List.length_filterMap_eq_countP, List.countP_eq_length_filter, threadFailure, Option.isSome_map]

/-- In an ascending list, what a function gives first is what it gives for the lowest member that it gives anything for. -/
theorem filterMap_eq_cons_of_lowest {α : Type} {f : Nat → Option α} {ts : List Nat} {th : Nat} {x : α}
    (hs : ts.Pairwise (· < ·)) (hm : th ∈ ts) (hx : f th = some x) (hl : ∀ u ∈ ts, u < th → f u = none) :
    ∃ rest, ts.filterMap f = x :: rest := by
  obtain ⟨l, m, rfl⟩ := List.append_of_mem hm
  have hlow : ∀ u ∈ l, u < th := fun u hu => (List.pairwise_append.1 hs).2.2 u hu th (List.mem_cons_self ..)
  have hnil : l.filterMap f = [] :=
    List.filterMap_eq_nil_iff.2 fun u hu => hl u (List.mem_append_left _ hu) (hlow u hu)
  exact ⟨m.filterMap f, by rw [List.filterMap_append, hnil, List.nil_append, List.filterMap_cons_some hx]⟩

theorem laneThreads_ascending (s : State) : (laneThreads s).Pairwise (· < ·) := List.pairwise_lt_range.filter _

/-- A lane access whose check fails for some thread takes the trap of the lowest such thread, with their number. -/
theorem laneAccess_fault {s : State} {addr : Nat → Nat} {check : Nat → Except Cause Place} {kind : Nat}
    {go : List (Nat × Nat × Place) → State} {cause : Nat → Option Cause} {th : Nat} {e : Cause}
    (hc : ∀ t, failure (check (addr t)) = cause t) (ha : active s th) (he : cause th = some e)
    (hl : ∀ u, u < th → active s u → cause u = none) :
    laneAccess s addr check kind go = takeTrap s (trapHere s e (w64 (addr th))
      (w64 (th + 2 ^ 12 * ((laneThreads s).filter fun t => (cause t).isSome).length + 2 ^ 24 * kind))) := by
  have hcause : (fun t => failure (check (addr t))) = cause := funext hc
  have hfirst : threadFailure addr cause th = some (th, addr th, e) := by rw [threadFailure, he, Option.map_some]
  have hlow : ∀ u ∈ laneThreads s, u < th → threadFailure addr cause u = none := fun u hu hlt => by
    rw [threadFailure, hl u hlt ((mem_laneThreads s u).1 hu), Option.map_none]
  obtain ⟨rest, hrest⟩ := filterMap_eq_cons_of_lowest (laneThreads_ascending s) ((mem_laneThreads s th).2 ha) hfirst hlow
  have hlen := length_threadFailures addr cause (laneThreads s)
  rw [hrest] at hlen
  simp only [laneAccess, laneFails_map, hcause, hrest, laneFault, hlen]

/-- A lane word whose access fails takes the trap of the lowest failing thread, with no effect of its own. -/
theorem exec_laneFault {i : Instr} {s : State} {f : State → State} {addr : Nat → Nat}
    {check : Nat → Except Cause Place} {kind : Nat} {go : List (Nat × Nat × Place) → State}
    {cause : Nat → Option Cause} {th : Nat} {e : Cause} (arm : ∀ s, exec i s = issue i s f)
    (hf : f s = laneAccess s addr check kind go) (hc : ∀ t, failure (check (addr t)) = cause t) (hr : Ready i s)
    (ha : active s th) (he : cause th = some e) (hl : ∀ u, u < th → active s u → cause u = none) :
    exec i s = .next (takeTrap s ⟨e, s.c.pc, w64 (addr th),
      w64 (th + 2 ^ 12 * ((laneThreads s).filter fun t => (cause t).isSome).length + 2 ^ 24 * kind), false, 0⟩) := by
  rw [arm, issue_ready hr, hf, laneAccess_fault hc ha he hl]
  rfl

theorem failure_checkGlobal (s : State) (need : Need) (va align n : Nat) : failure (checkGlobal s need va align n) =
    match checkGlobal s need va align n with
    | .error e => some e
    | .ok _ => none := by
  cases checkGlobal s need va align n <;> rfl

theorem failure_checkDevice (s : State) (need : Need) (va align n : Nat) : failure (checkDevice s need va align n) =
    match checkGlobal s need va align n with
    | .error e => some e
    | .ok p => if inHost p.pa then some .perm else none := by
  rw [checkDevice]
  cases checkGlobal s need va align n with
  | error e => rfl
  | ok p => cases h : inHost p.pa <;> simp [h, failure]

theorem failure_vaultCheck (s : State) (n x : Nat) : failure (vaultCheck s n x) =
    match checkVault s s.part (dieOfCore s.c.core) s.c.privl.toNat (galAsn s.g) (relocate s.g x) n with
    | .error e => some e
    | .ok _ => none := by
  rw [vaultCheck]
  cases checkVault s s.part (dieOfCore s.c.core) s.c.privl.toNat (galAsn s.g) (relocate s.g x) n <;> rfl

/-- Settles O35: each check where those before it pass, and the trap of a scalar and of a lane access that fails one. -/
theorem accessChecks : Obligations.AccessChecks := by
  unfold Obligations.AccessChecks
  refine ⟨fun s need va align n => ⟨checkGlobal_high s need n, checkGlobal_misaligned s need n, ?refused, ?owned⟩,
    fun s z o' o z1 q d a b i e => ⟨?lds, ?sts, ?atoms⟩, fun s m f d a b e => ⟨?mload, ?mstore, ?redqs⟩, ?lanes,
    fun s part die privl asn a n => ?vault⟩
  case vault =>
    intro c hc
    exact ⟨checkVault_xlate hc, fun hb hv hp => ⟨checkVault_misaligned hc hb hv hp,
      checkVault_foreman hc hb hv hp, checkVault_bound hc hb hv hp⟩⟩
  case refused =>
    intro h ha e he
    rw [checkGlobal_aligned s need n h ha, he]
    rfl
  case owned =>
    intro h ha p hp
    rw [checkGlobal_aligned s need n h ha, hp]
    rfl
  case lds => exact exec_scalarFault (fun _ => rfl) rfl scalarInfo_load
  case sts => exact exec_scalarFault (fun _ => rfl) rfl scalarInfo_store
  case atoms => exact exec_scalarFault (fun _ => rfl) rfl scalarInfo_both
  case mload => exact exec_scalarFault (fun _ => rfl) rfl scalarInfo_load
  case mstore => exact exec_scalarFault (fun _ => rfl) rfl scalarInfo_store
  case redqs =>
    rintro hr (he | ⟨rfl, p, hp, hh⟩)
    · exact exec_scalarFault (fun _ => rfl) rfl scalarInfo_both hr he
    · exact exec_redqs_host hr hp hh
  case lanes =>
    intro s z o z1 r w q d a b f th e n m at_ far near global device vault
    simp only [List.forall_mem_cons, List.not_mem_nil, IsEmpty.forall_iff, implies_true, and_true]
    refine ⟨?ld, ?st, ?atom, ?redq, ?ldv, ?stv⟩ <;> intro hr ha he hl
    case ld => exact exec_laneFault (addr := far) (kind := 0) (fun _ => rfl) rfl (fun _ => failure_checkGlobal ..) hr ha he hl
    case st => exact exec_laneFault (addr := far) (kind := 1) (fun _ => rfl) rfl (fun _ => failure_checkGlobal ..) hr ha he hl
    case atom => exact exec_laneFault (addr := at_) (kind := 2) (fun _ => rfl) rfl (fun _ => failure_checkGlobal ..) hr ha he hl
    case redq =>
      exact exec_laneFault (addr := at_) (kind := 2) (fun _ => rfl) rfl (fun _ => failure_checkDevice ..) hr ha he hl
    case ldv => exact exec_laneFault (addr := near) (kind := 3) (fun _ => rfl) rfl (fun _ => failure_vaultCheck ..) hr ha he hl
    case stv => exact exec_laneFault (addr := near) (kind := 3) (fun _ => rfl) rfl (fun _ => failure_vaultCheck ..) hr ha he hl

end Sys2Proof.Proofs
end

section
/-!
PROOFS. The stores of a crew: what is queued at issue (R57, R132, R190, R193, R210), and what of the queue can be performed
(R191, R192, R194, R219).
-/

namespace Sys2Proof.Proofs
open Sys2Proof Sys2Proof.Machine

/-! ### Stores at issue (R57, R190) -/

/-- The stores that a word queues before it ends. -/
theorem storeEffect_done (s : State) (rel : Bool) (ws : List WriteAcc) :
    StoreEffect s (done (queueStore s rel ws)) rel ws := by
  by_cases h : ws = []
  · have e := crewEffect_done s s.c rfl rfl rfl rfl
    rw [queueStore, if_pos h]
    exact ⟨e.ended, by rw [if_pos h]; rfl, rfl⟩
  · have e := crewEffect_done s { s.c with stores := s.c.stores ++ [⟨s.c.clause, ws, awaited s rel, []⟩] } rfl rfl rfl rfl
    rw [queueStore, if_neg h]
    exact ⟨e.ended, by rw [if_neg h]; rfl, rfl⟩

section
variable {s : State} {addr : Word} {align n : Nat} {go : Place → State} {p : Place}
  (hp : checkGlobal s needW addr.toNat align n = .ok p)
include hp

theorem storeAccess_go (ha : Apart s p.pa n) : storeAccess s addr align n go = go p := by
  rw [storeAccess, placedAccess_ok hp, (redqMeets_eq_false ..).2 ha]
  rfl

theorem storeAccess_wait (ha : ¬ Apart s p.pa n) : storeAccess s addr align n go = hold s := by
  rw [← redqMeets_eq_false, Bool.not_eq_false] at ha
  rw [storeAccess, placedAccess_ok hp, if_pos ha]

end

theorem exec_sts (z : BitVec 2) (o : BitVec 1) (d a : BitVec 6) (i : BitVec 9) (s : State) :
    exec (.sts z o d a i) s = issue (.sts z o d a i) s fun s =>
      storeAccess s (getS s.c a + i.signExtend 64 * BitVec.ofNat 64 (2 ^ z.toNat)) (2 ^ z.toNat) (2 ^ z.toNat) fun p =>
        done (queueStore s (o == 1) [⟨false, p.home, p.pa, toBytes (2 ^ z.toNat) (getS s.c d).toNat⟩]) := rfl

theorem exec_mstore (m : BitVec 3) (a : BitVec 6) (s : State) :
    exec (.mstore m a) s = issue (.mstore m a) s fun s =>
      storeAccess s (getS s.c a) 256 256 fun p =>
        done (queueStore s false [⟨false, p.home, p.pa, setBytes (mark s m)⟩]) := rfl

/-! ### The highest thread of a place (R193) -/

/-- Of the ascending threads `ts`, those whose place no higher one names. -/
def highestOf (ts : List Nat) (pa : Nat → Nat) : List Nat :=
  ts.filter fun th => !ts.any fun u => decide (th < u) && pa u == pa th

theorem highestOf_cons {t : Nat} {ts : List Nat} (hs : (t :: ts).Pairwise (· < ·)) (pa : Nat → Nat) :
    highestOf (t :: ts) pa = if ts.any fun u => pa u == pa t then highestOf ts pa else t :: highestOf ts pa := by
  have hlow : ∀ u ∈ ts, t < u := (List.pairwise_cons.1 hs).1
  have head : ((t :: ts).any fun u => decide (t < u) && pa u == pa t) = ts.any fun u => pa u == pa t := by
    rw [List.any_cons, decide_eq_false (Nat.lt_irrefl t), Bool.false_and, Bool.false_or]
    rw [Bool.eq_iff_iff, List.any_eq_true, List.any_eq_true]
    exact exists_congr fun u => and_congr_right fun hu => by rw [decide_eq_true (hlow u hu), Bool.true_and]
  have tail : ∀ th ∈ ts, ((t :: ts).any fun u => decide (th < u) && pa u == pa th) =
      ts.any fun u => decide (th < u) && pa u == pa th := fun th hth => by
    rw [List.any_cons, decide_eq_false (Nat.lt_asymm (hlow th hth)), Bool.false_and, Bool.false_or]
  have rest : ts.filter (fun th => !(t :: ts).any fun u => decide (th < u) && pa u == pa th) = highestOf ts pa :=
    List.filter_congr fun th hth => by rw [tail th hth]
  rw [highestOf, List.filter_cons, head, rest]
  cases ts.any fun u => pa u == pa t <;> rfl

/-- The accesses of a lane store that write are those of the highest thread of each place. -/
theorem lastWriters_map {ts : List Nat} (hs : ts.Pairwise (· < ·)) (addr : Nat → Nat) (pl : Nat → Place) :
    lastWriters (ts.map fun t => (t, addr t, pl t)) =
      (highestOf ts fun t => (pl t).pa).map fun t => (t, addr t, pl t) := by
  induction ts with
  | nil => rfl
  | cons t ts ih =>
    have any : ((ts.map fun t => (t, addr t, pl t)).any fun y => y.2.2.pa == (pl t).pa) =
        ts.any fun u => (pl u).pa == (pl t).pa := List.any_map
    rw [List.map_cons, lastWriters, ih (List.pairwise_cons.1 hs).2, highestOf_cons hs, any]
    split <;> rfl

/-! ### Lane accesses at issue (R192, R210) -/

/-- A load, but for what it does once it has not to wait. -/
theorem exec_ld (z : BitVec 2) (d a : BitVec 7) (r : BitVec 1) (f : BitVec 6) :
    ∃ go : State → List (Nat × Nat × Place) → State, ∀ s, exec (.ld z d a r f) s = issue (.ld z d a r f) s fun s =>
      laneAccess s (fun t => ((reg s t a).toNat + f.toNat * 2 ^ z.toNat) % 2 ^ 64)
        (fun x => checkGlobal s needR x (2 ^ z.toNat) (2 ^ z.toNat)) 0 fun l =>
          laneUnless s l (2 ^ z.toNat) (fun s pa n => redqMeets s pa n || fenced s needR) (go s l) :=
  ⟨_, fun _ => rfl⟩

theorem exec_st (z : BitVec 2) (d a : BitVec 7) (r : BitVec 1) (f : BitVec 6) (s : State) :
    exec (.st z d a r f) s = issue (.st z d a r f) s fun s =>
      laneAccess s (fun t => ((reg s t a).toNat + f.toNat * 2 ^ z.toNat) % 2 ^ 64)
        (fun x => checkGlobal s needW x (2 ^ z.toNat) (2 ^ z.toNat)) 1 fun l =>
          laneUnless s l (2 ^ z.toNat) redqMeets (done (queueStore s (r == 1) ((lastWriters l).map fun x =>
            ⟨false, x.2.2.home, x.2.2.pa, toBytes (2 ^ z.toNat) (reg s x.1 d).toNat⟩))) := rfl

/-- A load waits where its bytes meet a reduction that is still to be answered, or a fence stands before it. -/
theorem loadWaits_eq_false (s : State) (pa n : Nat) :
    (redqMeets s pa n || fenced s needR) = false ↔ Apart s pa n ∧ Unfenced s false := by
  rw [Bool.or_eq_false_iff, redqMeets_eq_false, fenced_eq_false]
  rfl

theorem vaultCheck_ok {s : State} {n x a : Nat} (ha : a = relocate s.g x)
    (h : checkVault s s.part (dieOfCore s.c.core) s.c.privl.toNat (galAsn s.g) a n = .ok ()) :
    vaultCheck s n x = .ok ⟨a, 0⟩ := by
  subst ha
  rw [vaultCheck, h]

/-- A store to the vaults that no thread aims at the control block queues its writes. -/
theorem exec_stv {s : State} {z : BitVec 2} {d a : BitVec 7} {f : BitVec 6} {va : Nat → Nat} (hr : Ready (.stv z d a f) s)
    (hp : ∀ th, active s th → vaultCheck s (Machine.sizeOf z) (vaultAddr s a z f th) = .ok ⟨va th, 0⟩)
    (hc : ∀ th, active s th → controlAt s (va th) = false) :
    exec (.stv z d a f) s = .next (done (queueStore s false ((highestOf (laneThreads s) va).map fun th =>
      ⟨true, 0, va th, toBytes (Machine.sizeOf z) (reg s th d).toNat⟩))) := by
  have hno : ∀ x ∈ (highestOf (laneThreads s) va).map fun t => (t, vaultAddr s a z f t, (⟨va t, 0⟩ : Place)),
      controlAt s x.2.2.pa = false := by
    intro x hx
    obtain ⟨th, hth, rfl⟩ := List.mem_map.1 hx
    exact hc th ((mem_laneThreads s th).1 (List.mem_filter.1 hth).1)
  change execStv z d a f s = _
  rw [execStv, issue_ready hr]
  dsimp only
  rw [laneAccess_ok hp, lastWriters_map (laneThreads_ascending s),
    if_pos (List.filter_eq_nil_iff.2 fun x hx => by simp [hno x hx]), List.filter_eq_self.2 fun x hx => by simp [hno x hx], List.map_map]
  rfl

/-! ### What of the queue can be performed (R191, R192, R194, R219) -/

theorem blocks_iff (c : Crew) (p : PStore) : c.blocks p = true ↔ ∃ x ∈ c.redq, x.key ∈ p.awaits := by
  simp [Crew.blocks]

theorem blocks_eq_false (c : Crew) (p : PStore) : c.blocks p = false ↔ ∀ x ∈ c.redq, x.key ∉ p.awaits := by
  simp [Crew.blocks]

theorem meets_iff (p q : PStore) : p.meets q = true ↔ ∃ w ∈ p.writes, ∃ x ∈ q.writes,
    w.vault = x.vault ∧ w.addr < x.addr + x.bytes.length ∧ x.addr < w.addr + w.bytes.length := by
  simp [PStore.meets, WriteAcc.meets, and_assoc]

/-- A queue is split at its older part first. -/
theorem splitStores_append (c : Crew) (l m : List PStore) : ∀ stay, splitStores c stay (l ++ m) =
    ((splitStores c stay l).1 ++ (splitStores c (splitStores c stay l).2 m).1,
      (splitStores c (splitStores c stay l).2 m).2) := by
  induction l with
  | nil => exact fun stay => rfl
  | cons p l ih =>
    intro stay
    rw [List.cons_append, splitStores, splitStores]
    split
    · exact ih _
    · simp only [ih stay, List.cons_append]

/-- What stays goes on to stay. -/
theorem subset_splitStores (c : Crew) (l : List PStore) : ∀ stay, stay ⊆ (splitStores c stay l).2 := by
  induction l with
  | nil => exact fun stay => List.Subset.refl stay
  | cons p l ih =>
    intro stay
    rw [splitStores]
    split
    · exact List.Subset.trans (List.subset_append_left ..) (ih _)
    · exact ih stay

/-- Nothing stays but what stood in the queue. -/
theorem splitStores_subset (c : Crew) (l : List PStore) : ∀ stay, (splitStores c stay l).2 ⊆ stay ++ l := by
  induction l with
  | nil => exact fun stay => List.subset_append_left ..
  | cons p l ih =>
    intro stay
    rw [splitStores]
    split
    · simpa using ih (stay ++ [p])
    · exact List.Subset.trans (ih stay) ((List.sublist_cons_self p l).append_left stay).subset

/-- A store of the queue that waits for a contribution stays. -/
theorem mem_splitStores_of_blocks {c : Crew} {l : List PStore} {q : PStore} (hq : q ∈ l) (hb : c.blocks q = true) (stay) :
    q ∈ (splitStores c stay l).2 := by
  obtain ⟨l1, l2, rfl⟩ := List.append_of_mem hq
  rw [splitStores_append, splitStores, if_pos (by simp [hb])]
  exact subset_splitStores c l2 _ (List.mem_append_right _ (List.mem_singleton_self q))

section
variable {c : Crew} {p : PStore} {old more : List PStore} (hs : c.stores = old ++ p :: more)
include hs

/-- A store stays where it waits for a contribution, or meets an older one that stays. -/
theorem mem_staying (h : c.blocks p = true ∨ ∃ q ∈ (splitStores c [] old).2, p.meets q = true) : p ∈ c.staying := by
  rw [Crew.staying, hs, splitStores_append, splitStores, if_pos (by simpa using h)]
  exact subset_splitStores c more _ (List.mem_append_right _ (List.mem_singleton_self p))

/-- A store can be performed where it waits for nothing and meets no older one that stays. -/
theorem mem_ready (hb : c.blocks p = false) (hm : ∀ q ∈ (splitStores c [] old).2, p.meets q = false) : p ∈ c.ready := by
  rw [Crew.ready, hs, splitStores_append, splitStores, if_neg (by simpa [hb] using hm)]
  exact List.mem_append_right _ (List.mem_cons_self ..)

theorem mem_ready_or_staying : p ∈ c.ready ∨ p ∈ c.staying := by
  by_cases h : c.blocks p = true ∨ ∃ q ∈ (splitStores c [] old).2, p.meets q = true
  · exact .inr (mem_staying hs h)
  · refine .inl (mem_ready hs (by simpa using fun hb => h (.inl hb)) fun q hq => ?_)
    simpa using fun hm => h (.inr ⟨q, hq, hm⟩)

end

/-- Where no store waits for a contribution, all can be performed. -/
theorem ready_of_no_awaits {c : Crew} (h : ∀ q ∈ c.stores, ∀ x ∈ c.redq, x.key ∉ q.awaits) :
    c.ready = c.stores ∧ c.staying = [] := by
  rw [Crew.ready, Crew.staying, splitStores_free c _ fun q hq => (blocks_eq_false c q).2 (h q hq)]
  exact ⟨rfl, rfl⟩

/-! ### One write of a store (R304) -/

theorem performOf_clean {p : PStore} {w : WriteAcc} (s : State) (h : ∀ e ∈ p.spoiled, e.1 ≠ w.addr) :
    performOf p s w = performWrite s w := by
  have hn : p.spoiled.find? (·.1 == w.addr) = none := List.find?_eq_none.2 fun e he => by simpa using h e he
  rw [performOf, hn]

theorem performOf_spoiled {p : PStore} {w : WriteAcc} {va : Word} (s : State) (h : p.spoiled = [(w.addr, va)]) :
    performOf p s w = crewFault s s.c.uid { cause := .eccUncorr, addr := va } := by
  have hn : p.spoiled.find? (·.1 == w.addr) = some (w.addr, va) := by rw [h, List.find?_cons_of_pos (by simp)]
  rw [performOf, hn]

/-- Settles O37: what each store queues, and which stores of the queue can be performed. -/
theorem storesAreQueued : Obligations.StoresAreQueued := by
  unfold Obligations.StoresAreQueued
  refine ⟨fun s z o d a i p => ?sts, fun s m a p hr hp ha => ?mstore, fun s z d a r f pl => ?st,
    fun s z d a r f pl => ?lanesWait, fun s z d a f va => ?stv, fun c p old more hs => ?queue,
    fun s p w => ⟨performOf_clean s, fun va => performOf_spoiled s⟩⟩
  case sts =>
    intro n hr hp
    refine ⟨fun ha => completes_of_arm (exec_sts z o d a i) hr ?_,
      fun ha => completes_of_arm (exec_sts z o d a i) hr ?_⟩
    · rw [storeAccess_go hp ha]
      exact storeEffect_done ..
    · rw [storeAccess_wait hp ha]
      exact waits_hold s
  case mstore =>
    refine completes_of_arm (exec_mstore m a) hr ?_
    rw [storeAccess_go hp ha]
    exact storeEffect_done ..
  case st =>
    intro n hr hp
    refine completes_of_arm (exec_st z d a r f) hr ?_
    rw [laneAccess_ok fun th ha => (hp th ha).1, laneUnless_go fun th ha => (redqMeets_eq_false ..).2 (hp th ha).2,
      lastWriters_map (laneThreads_ascending s), List.map_map]
    exact storeEffect_done ..
  case lanesWait =>
    simp only [List.forall_mem_cons, List.not_mem_nil, IsEmpty.forall_iff, implies_true, and_true]
    refine ⟨?ld, ?st⟩ <;> rintro hr hp ⟨th, ha, hw⟩
    case ld =>
      obtain ⟨go, arm⟩ := exec_ld z d a r f
      refine completes_of_arm arm hr ?_
      have hwait : (redqMeets s (pl th).pa (2 ^ z.toNat) || fenced s needR) = true := by
        rw [← Bool.not_eq_false, loadWaits_eq_false]
        simpa using hw
      rw [laneAccess_ok hp, laneUnless_wait ha hwait]
      exact waits_hold s
    case st =>
      refine completes_of_arm (exec_st z d a r f) hr ?_
      have hwait : redqMeets s (pl th).pa (2 ^ z.toNat) = true := by
        rw [← Bool.not_eq_false, redqMeets_eq_false]
        simpa using hw
      rw [laneAccess_ok hp, laneUnless_wait ha hwait]
      exact waits_hold s
  case stv =>
    intro n hr hp
    exact ⟨_, exec_stv hr (fun th ha => vaultCheck_ok (hp th ha).1 (hp th ha).2.1) fun th ha => (hp th ha).2.2,
      storeEffect_done ..⟩
  case queue =>
    intro meets
    refine ⟨mem_ready_or_staying hs, ready_of_no_awaits, fun h => mem_staying hs (.inl ((blocks_iff c p).2 h)),
      fun q hq hb hm => mem_staying hs (.inr ⟨q, ?_, (meets_iff p q).2 hm⟩), fun hb hm => ?_⟩
    · exact mem_splitStores_of_blocks hq ((blocks_iff c q).2 hb) []
    · refine mem_ready hs ((blocks_eq_false c p).2 hb) fun q hq => ?_
      have hold : q ∈ old := by simpa using splitStores_subset c old [] hq
      rw [← Bool.not_eq_true, meets_iff]
      rintro ⟨w, hw, x, hx, h⟩
      exact hm q hold w hw x hx h

end Sys2Proof.Proofs
end

section
/-!
PROOFS. What a gallery's threads run on other units, and what is asked of all of them at once: the words of the SFU (R114,
R115), the end of threads (R66, R108), and the searches (R125 to R129).
-/

namespace Sys2Proof.Proofs
open Sys2Proof Sys2Proof.Machine

/-! ### The words of the SFU (R71, R114, R115) -/

/-- Results that land gang by gang, each thread with a value. -/
theorem longEffect_landLanes (s : State) (d : BitVec 7) (threads : List Nat) (x : Nat → Word) (flags : Nat → Nat) :
    LongEffect s (landLanes s d threads (fun t => some (x t)) flags) (.v d) ((gangsOf threads).map fun g =>
      ⟨s.c.clause, .gang d ((threads.filter fun t => t / 32 == g).map fun t => (t, x t)),
        BitVec.ofNat 10 ((threads.filter fun t => t / 32 == g).foldl (fun a t => a ||| flags t) 0)⟩) := by
  simp only [landLanes, Option.map_some, List.filterMap_eq_map']
  have e := crewEffect_done s { markOut s.c (.v d) with land := s.c.land ++ (gangsOf threads).map fun g =>
    ⟨s.c.clause, .gang d ((threads.filter fun t => t / 32 == g).map fun t => (t, x t)),
      BitVec.ofNat 10 ((threads.filter fun t => t / 32 == g).foldl (fun a t => a ||| flags t) 0)⟩ } rfl rfl rfl rfl
  exact ⟨e.ended, rfl, rfl⟩

/-- Settles O26: each word of the SFU has its function of the operands land gang by gang. -/
theorem sfuWordsLandLater : Obligations.SfuWordsLandLater := by
  unfold Obligations.SfuWordsLandLater
  intro s w d a m k
  simp only [List.forall_mem_cons, List.not_mem_nil, IsEmpty.forall_iff, implies_true, and_true]
  refine ⟨?frcp, ?frsq, ?fsqrt, ?fex2, ?flg2, ?fsin, ?fcos⟩ <;>
    exact fun hr => completes_of_arm (fun _ => rfl) hr (longEffect_landLanes ..)

/-! ### The end of threads (R66, R108) -/

theorem exec_lexit (s : State) : exec .lexit s = issue .lexit s fun s => done (leaveLive s (activeSet s.c)) := rfl

/-- Settles O27: the threads leave LIVE, and every crew of the gallery. -/
theorem lexitEndsThreads : Obligations.LexitEndsThreads := by
  unfold Obligations.LexitEndsThreads
  intro s hr hg
  refine completes_of_arm exec_lexit hr ?_
  have hc : (leaveLive s (activeSet s.c)).c =
      { s.c with act := s.c.act &&& ~~~ activeSet s.c, stack := s.c.stack.map (· &&& ~~~ activeSet s.c) } := if_pos hg
  exact ⟨rfl, congrArg Crew.act hc, congrArg Crew.stack hc, rfl, rfl, (congrArg Crew.base hc :), (congrArg Crew.marks hc :),
    rfl, rfl, rfl⟩

/-! ### The fields that a mask selects (R126) -/

/-- The mask of a field: `w` ones from bit `lo` on. -/
def runMask (lo w : Nat) : Nat := (2 ^ w - 1) * 2 ^ lo

/-- The number of a field's mask, without a factor. -/
theorem runMask_eq_sub (lo w : Nat) : runMask lo w = 2 ^ (lo + w) - 2 ^ lo := by
  rw [runMask, Nat.sub_mul, Nat.one_mul, ← pow_add, Nat.add_comm w]

theorem bit_runMask (lo w k : Nat) : bit (runMask lo w) k = decide (lo ≤ k ∧ k < lo + w) := by
  rw [bit, runMask, Nat.testBit_mul_two_pow, Nat.testBit_two_pow_sub_one, Bool.eq_iff_iff]
  simp only [Bool.and_eq_true, decide_eq_true_eq]
  omega

section
variable {lo w : Nat} (hw : 0 < w)
include hw

theorem runMask_pos : 0 < runMask lo w :=
  Nat.mul_pos (Nat.sub_pos_of_lt (Nat.one_lt_two_pow hw.ne')) (Nat.two_pow_pos lo)

theorem highBit_runMask : highBit (runMask lo w) = lo + w - 1 := by
  have hlt : 2 ^ lo ≤ 2 ^ (lo + w - 1) := Nat.pow_le_pow_right (by omega) (by omega)
  have hd : 2 ^ (lo + w) = 2 * 2 ^ (lo + w - 1) := by rw [← pow_succ']; congr 1; omega
  rw [highBit, Nat.log2_eq_iff (runMask_pos hw).ne', runMask_eq_sub, show lo + w - 1 + 1 = lo + w by omega]
  have := Nat.two_pow_pos lo
  omega

theorem lowBit_runMask (h : lo + w ≤ 64) : lowBit (runMask lo w) = lo := by
  have hf : (List.range 64).find? (bit (runMask lo w)) = some lo := by
    rw [List.find?_range_eq_some]
    refine ⟨by simpa [bit_runMask] using hw, List.mem_range.2 (by omega), fun j hj => ?_⟩
    simp [bit_runMask, hj]
  rw [lowBit, List.headD_eq_head?_getD, List.head?_filter, hf, Option.getD_some]

end

/-- A mask is one run of ones exactly where it is the mask of a field (R126). -/
theorem oneRun_iff {m : Nat} (hm : m < 2 ^ 64) :
    oneRun m = true ↔ ∃ lo w, lo + w ≤ 64 ∧ 0 < w ∧ m = (2 ^ w - 1) * 2 ^ lo := by
  constructor
  · intro h
    simp only [oneRun, Bool.and_eq_true, bne_iff_ne, beq_iff_eq] at h
    obtain ⟨h0, h⟩ := h
    have hl : 2 ^ lowBit m < 2 ^ (highBit m + 1) := by omega
    have hlt : lowBit m < highBit m + 1 := (Nat.pow_lt_pow_iff_right (by omega)).1 hl
    have hh : highBit m < 64 := (Nat.log2_lt h0).2 hm
    refine ⟨lowBit m, highBit m + 1 - lowBit m, by omega, by omega, ?_⟩
    rw [← runMask, runMask_eq_sub, Nat.add_sub_cancel' hlt.le]
    exact h
  · rintro ⟨lo, w, hb, hw, rfl⟩
    have hne := (runMask_pos (lo := lo) hw).ne'
    change oneRun (runMask lo w) = true
    rw [oneRun, highBit_runMask hw, lowBit_runMask hw hb, show lo + w - 1 + 1 = lo + w by omega, ← runMask_eq_sub]
    simp [hne]

/-! ### What responds (R126) -/

/-- Two words agree under a mask where their bits do. -/
theorem and_mask_eq_iff (mask x y : Word) :
    x &&& mask = y &&& mask ↔ ∀ k, k < 64 → mask.getLsbD k = true → x.getLsbD k = y.getLsbD k := by
  rw [BitVec.eq_of_getLsbD_eq_iff]
  refine forall_congr' fun k => forall_congr' fun hk => ?_
  cases hm : mask.getLsbD k <;> simp [hm]

theorem responds_equal (mask x y : Word) :
    responds 0 mask x y = true ↔ ∀ k, k < 64 → mask.getLsbD k = true → x.getLsbD k = y.getLsbD k := by
  rw [← and_mask_eq_iff]
  exact beq_iff_eq

theorem responds_unequal (mask x y : Word) :
    responds 1 mask x y = true ↔ ∃ k, k < 64 ∧ mask.getLsbD k = true ∧ x.getLsbD k ≠ y.getLsbD k := by
  have e : responds 1 mask x y = true ↔ x &&& mask ≠ y &&& mask := bne_iff_ne
  rw [e, ne_eq, and_mask_eq_iff]
  push Not
  rfl

/-- The ordered searches compare the field that their mask selects. -/
theorem responds_ordered {mask : Word} {lo w : Nat} (hb : lo + w ≤ 64) (hw : 0 < w)
    (hm : mask.toNat = (2 ^ w - 1) * 2 ^ lo) (x y : Word) :
    let f (z : Word) : Nat := z.toNat / 2 ^ lo % 2 ^ w
    (responds 2 mask x y = decide (signed w (f x) < signed w (f y))) ∧
    (responds 3 mask x y = decide (signed w (f y) ≤ signed w (f x))) ∧
    (responds 4 mask x y = decide (f x < f y)) ∧ (responds 5 mask x y = decide (f y ≤ f x)) := by
  have hlo : lowBit mask.toNat = lo := hm ▸ lowBit_runMask hw hb
  have hhi : highBit mask.toNat - lo + 1 = w := by
    have := highBit_runMask (lo := lo) hw
    rw [hm, ← runMask]
    omega
  simp only [responds, hlo, hhi]
  exact ⟨rfl, rfl, rfl, rfl⟩

/-! ### The set that a search writes (R125, R126) -/

theorem getLsbD_setOf (l : List Nat) {th : Nat} (h : th < 2048) : (setOf l).getLsbD th = true ↔ th ∈ l := by
  have go : ∀ a : ThreadSet, (l.foldl (fun a t => a ||| BitVec.ofNat 2048 (2 ^ t)) a).getLsbD th = true ↔
      a.getLsbD th = true ∨ th ∈ l := by
    induction l with
    | nil => simp
    | cons t l ih =>
      intro a
      have ht : (BitVec.ofNat 2048 (2 ^ t)).getLsbD th = decide (t = th) := by
        rw [BitVec.getLsbD_ofNat, Nat.testBit_two_pow, decide_eq_true h, Bool.true_and]
      rw [List.foldl_cons, ih, BitVec.getLsbD_or, Bool.or_eq_true, ht, decide_eq_true_eq, List.mem_cons, or_assoc,
        eq_comm (a := t)]
  rw [Machine.setOf, go 0]
  simp

theorem mem_members (set : ThreadSet) (n th : Nat) : th ∈ members set n ↔ th < n ∧ set.getLsbD th = true := by
  simp [members]

/-- The threads of a set that respond, below NTHR, as a search compares their registers. -/
def responders (s : State) (c : BitVec 3) (set : ThreadSet) (v : BitVec 7) (y : Nat → Word) (mask : Word) : ThreadSet :=
  Machine.setOf ((members set s.g.nthr).filter fun t => responds c mask (searched s t v) (y t))

theorem getLsbD_responders (s : State) (c : BitVec 3) (set : ThreadSet) (v : BitVec 7) (y : Nat → Word) (mask : Word)
    {th : Nat} (h : th < 2048) : (responders s c set v y mask).getLsbD th = true ↔
      th < s.g.nthr ∧ set.getLsbD th = true ∧ responds c mask (searched s th v) (y th) = true := by
  rw [responders, getLsbD_setOf _ h, List.mem_filter, mem_members, and_assoc]

/-- No word compared stands above the blocks of the gallery. -/
theorem highRegs_nil {s : State} {vs : List (BitVec 7)} (h : ∀ v ∈ vs, v.toNat / 8 < s.g.nblk) :
    vs.filter (fun v => decide (s.g.nblk ≤ v.toNat / 8)) = [] := by
  rw [List.filter_eq_nil_iff]
  intro v hv
  simpa using h v hv

theorem eccAt_clean {s : State} (hg : s.g.bad = []) (hc : s.c.bad = []) (set : ThreadSet) (reads : List Reg) :
    eccAt s set reads = none := by
  simp [eccAt, hg, hc]

section
variable {s : State} {d c : BitVec 3} {set : ThreadSet} {v : BitVec 7} {vs : List (BitVec 7)} {y : Nat → Word} {mask : Word}
  (hv : ∀ v ∈ vs, v.toNat / 8 < s.g.nblk)
include hv

/-- An ordered search whose mask is not one run of ones takes its trap (R126, R294). -/
theorem search_badMask (hc : 2 ≤ c.toNat) (hm : oneRun mask.toNat = false) :
    search s d c set v vs y mask = takeTrap s ⟨.srchMask, s.c.pc, 0, mask, false, 0⟩ := by
  simp only [search, highRegs_nil hv]
  rw [if_neg (by simp), if_pos (by simp [ordered, hc, hm])]
  rfl

/-- A search whose mask is in order, over registers with no uncorrectable error, marks the responders. -/
theorem search_marks (hm : ordered c = true → oneRun mask.toNat = true) (hg : s.g.bad = []) (hb : s.c.bad = []) :
    search s d c set v vs y mask = done { correctSearched s set vs with
      c := setM s.c d (responders s c set v y mask) } := by
  simp only [search, highRegs_nil hv]
  rw [if_neg (by simp), if_neg (by simpa using hm)]
  simp only [eccAt_clean hg hb, ite_self]
  rfl

end

/-! ### Single-bit errors in the registers compared (R72, R304) -/

/-- A register with no error reads the same however it is searched. -/
theorem searched_clean {s : State} (hg : s.g.bad = []) (hs : s.g.soft = []) (t : Nat) (v : BitVec 7) :
    searched s t v = reg s t v := by
  simp [searched, planeReg, hg, hs]

theorem correctSearched_clean {s : State} (hs : s.g.soft = []) (set : ThreadSet) (vs : List (BitVec 7)) :
    correctSearched s set vs = s := by
  rw [correctSearched, if_pos (.inl hs)]

theorem correctSearched_unchecked {s : State} (h : s.c.srchchk = 0) (set : ThreadSet) (vs : List (BitVec 7)) :
    correctSearched s set vs = s := by
  rw [correctSearched, if_pos (.inr h)]

section
variable {s : State} {v : BitVec 7} {slot plane : Nat} (hs : s.g.soft = [(128 * slot + v.toNat, plane)])
include hs

/-- One register with a single-bit error: a checked search reads its word, an unchecked one the word with the bit turned. -/
theorem searched_soft (hg : s.g.bad = []) (t : Nat) : searched s t v =
    if t = slot ∧ s.c.srchchk ≠ 1 then reg s t v ^^^ BitVec.ofNat 64 (2 ^ plane) else reg s t v := by
  by_cases hc : s.c.srchchk = 1
  · simp [searched, hc]
  · have hk : (128 * slot + v.toNat == 128 * t + v.toNat) = decide (t = slot) := by
      rw [Bool.eq_iff_iff, beq_iff_eq, decide_eq_true_eq]
      omega
    rw [searched, if_neg hc, planeReg, if_neg (by simp [hg]), hs]
    by_cases ht : t = slot
    · rw [if_pos ⟨ht, hc⟩]
      simp [ht, w64]
    · rw [if_neg fun h => ht h.1]
      simp [hk, ht]

/-- A checked search puts the one error of the words that it compares right, and counts it. -/
theorem correctSearched_soft (hc : s.c.srchchk = 1) {set : ThreadSet} (hin : set.getLsbD slot = true) :
    correctSearched s set [v] = { s with
      g := { s.g with soft := [] }, corrected := s.corrected.set 0 (s.corrected[0] + 1) } := by
  have hlt := v.isLt
  have hq : (128 * slot + v.toNat) / 128 = slot := by omega
  have hr : (128 * slot + v.toNat) % 128 = v.toNat := by omega
  rw [correctSearched, if_neg (by simp [hs, hc])]
  simp [hs, hq, hr, hin]

end

theorem exec_srch (m c : BitVec 3) (v : BitVec 7) (k n : BitVec 6) (s : State) : exec (.srch m c v k n) s =
    issue (.srch m c v k n) s fun s => search s m c s.c.act v [v] (fun _ => getS s.c k) (getS s.c n) := rfl
theorem exec_srcha (m c : BitVec 3) (v : BitVec 7) (k n : BitVec 6) (s : State) : exec (.srcha m c v k n) s =
    issue (.srcha m c v k n) s fun s => search s m c s.g.live v [v] (fun _ => getS s.c k) (getS s.c n) := rfl
theorem exec_srchr (m c : BitVec 3) (v b : BitVec 7) (n : BitVec 5) (s : State) : exec (.srchr m c v b n) s =
    issue (.srchr m c v b n) s fun s =>
      search s m c s.c.act v [v, b] (fun t => searched s t b) (getS s.c (n.setWidth 6)) := rfl

/-- A search writes its mark and ends: the state is the one with the errors put right that it has met. -/
theorem crewEffect_marked (u : State) {s : State} (d : BitVec 3) (x : ThreadSet) (hc : u.c = s.c) :
    CrewEffect u (done { u with c := setM s.c d x }) (setM s.c d x) :=
  hc ▸ crewEffect_done u (setM u.c d x) (by simp) (by simp) (by simp) (by simp)

/-- A search over registers without an error. -/
theorem search_clean {s : State} {d c : BitVec 3} {set : ThreadSet} {v : BitVec 7} {vs : List (BitVec 7)}
    {y z : Nat → Word} {mask : Word} (hv : ∀ v ∈ vs, v.toNat / 8 < s.g.nblk) (hg : s.g.bad = []) (hb : s.c.bad = [])
    (hs : s.g.soft = []) (hm : ordered c = true → oneRun mask.toNat = true) (hy : y = z) :
    ∃ x : ThreadSet, CrewEffect s (search s d c set v vs y mask) (setM s.c d x) ∧
      ∀ th, th < 2048 → (x.getLsbD th = true ↔
        th < s.g.nthr ∧ set.getLsbD th = true ∧ responds c mask (reg s th v) (z th) = true) := by
  subst hy
  rw [search_marks hv hm hg hb, correctSearched_clean hs]
  refine ⟨_, crewEffect_marked s d _ rfl, fun th h => ?_⟩
  rw [getLsbD_responders (h := h), searched_clean hg hs]

/-- Settles O28: what a search writes, what responds, and what single-bit errors and a mask with a gap lead to. -/
theorem searchMarksResponders : Obligations.SearchMarksResponders := by
  unfold Obligations.SearchMarksResponders
  refine ⟨?marks, fun mask x y => ⟨responds_equal mask x y, responds_unequal mask x y⟩,
    fun m => oneRun_iff m.isLt, fun mask x y lo w hb hw hm => responds_ordered hb hw hm x y, ?badMask, ?soft⟩
  case marks =>
    intro s m c v b k n q hv hb hg hc hs
    have one : ∀ r ∈ [v], r.toNat / 8 < s.g.nblk := List.forall_mem_singleton.2 hv
    have two : ∀ r ∈ [v, b], r.toNat / 8 < s.g.nblk := List.forall_mem_cons.2 ⟨hv, List.forall_mem_singleton.2 hb⟩
    simp only [List.forall_mem_cons, List.not_mem_nil, IsEmpty.forall_iff, implies_true, and_true]
    refine ⟨fun hr hm => ?srch, fun hr hm => ?srcha, fun hr hm => ?srchr⟩
    case srch => exact completes_of_arm (exec_srch m c v k n) hr (search_clean one hg hc hs hm rfl)
    case srcha => exact completes_of_arm (exec_srcha m c v k n) hr (search_clean one hg hc hs hm rfl)
    case srchr =>
      exact completes_of_arm (exec_srchr m c v b q) hr (search_clean two hg hc hs hm
        (funext fun t => searched_clean hg hs t b))
  case badMask =>
    intro s m c v b k n q hv hb hc
    have one : ∀ r ∈ [v], r.toNat / 8 < s.g.nblk := List.forall_mem_singleton.2 hv
    have two : ∀ r ∈ [v, b], r.toNat / 8 < s.g.nblk := List.forall_mem_cons.2 ⟨hv, List.forall_mem_singleton.2 hb⟩
    simp only [List.forall_mem_cons, List.not_mem_nil, IsEmpty.forall_iff, implies_true, and_true]
    refine ⟨fun hm hr => ?srch, fun hm hr => ?srcha, fun hm hr => ?srchr⟩
    case srch => rw [exec_srch, issue_ready hr, search_badMask one hc hm]
    case srcha => rw [exec_srcha, issue_ready hr, search_badMask one hc hm]
    case srchr => rw [exec_srchr, issue_ready hr, search_badMask two hc hm]
  case soft =>
    intro s m c v k n slot plane hv hg hb _ hs hin _ _ hr hm read
    refine completes_of_arm (exec_srch m c v k n) hr ?_
    rw [search_marks (List.forall_mem_singleton.2 hv) (fun ho => hm (by simpa [ordered] using ho)) hg hb]
    refine ⟨responders s c s.c.act v (fun _ => getS s.c k) (getS s.c n), fun th h => ?_, fun h0 => ?_, fun h1 => ?_⟩
    · rw [getLsbD_responders (h := h), searched_soft hs hg]
    · rw [correctSearched_unchecked h0]
      exact crewEffect_marked s m _ rfl
    · rw [correctSearched_soft hs h1 hin]
      exact crewEffect_marked { s with
        g := { s.g with soft := [] }, corrected := s.corrected.set 0 (s.corrected[0] + 1) } m _ rfl

end Sys2Proof.Proofs
end
section
/-!
PROOFS. What the operations that words and events share leave of the galleries and of the distributor's queues: where each
gallery stands, on a core or in a saved context, and the spawns that are parked; and, but for a fault that tears its region
down, the regions, the teardowns and the gangs that form (R155, R165, R296, R306).
-/

namespace Sys2Proof.Proofs
open Sys2Proof Sys2Proof.Machine

set_option Elab.async false

/-- Where a gallery stands and what it is of: its name, its core and granules, its threads, its image and its record. -/
def galPlace (g : Gallery) : Nat × Nat × BitVec 32 × ThreadSet × Option Nat × Record :=
  (g.gid, g.core, g.vbase, g.live, g.image, g.rcd)

/-- The part goes on from `s` to `t` with each gallery where it stands and each parked spawn in its place, and where `w`
holds with its regions, its teardowns and its gangs. -/
structure Calm (w : Prop) (s t : State) : Prop where
  spawnq : t.spawnq = s.spawnq
  gals : ∀ n, (galNamed t n).map galPlace = (galNamed s n).map galPlace
  saved : t.saved.map (·.gal) = s.saved.map (·.gal)
  regions : t.regions = s.regions
  tears : w → t.tears = s.tears
  forming : w → t.forming = s.forming

variable {w : Prop} {r s : State}

theorem Calm.refl (w : Prop) (s : State) : Calm w s s := ⟨rfl, fun _ => rfl, rfl, rfl, fun _ => rfl, fun _ => rfl⟩

theorem Calm.trans {t : State} (h : Calm w r s) (k : Calm w s t) : Calm w r t :=
  ⟨k.spawnq.trans h.spawnq, fun n => (k.gals n).trans (h.gals n), k.saved.trans h.saved, k.regions.trans h.regions,
    fun x => (k.tears x).trans (h.tears x), fun x => (k.forming x).trans (h.forming x)⟩

/-- An update of what none of this speaks of. -/
theorem calm_update {t : State} (h : Calm w r s) (hq : t.spawnq = s.spawnq := by rfl)
    (hg : galPlace t.g = galPlace s.g := by rfl) (hgs : t.gals = s.gals := by rfl)
    (hs : t.saved.map (·.gal) = s.saved.map (·.gal) := by rfl) (hr : t.regions = s.regions := by rfl)
    (ht : w → t.tears = s.tears := by exact fun _ => rfl) (hf : w → t.forming = s.forming := by exact fun _ => rfl) :
    Calm w r t := by
  refine h.trans ⟨hq, fun n => ?_, hs, hr, ht, hf⟩
  have hid : t.g.gid = s.g.gid := congrArg Prod.fst hg
  rw [galNamed_eq, galNamed_eq s, hgs, hid]
  split
  · exact congrArg some hg
  · rfl

/-- Operations done one after another. -/
theorem calm_foldl {α : Type} {f : State → α → State} (hf : ∀ s x, Calm w s (f s x)) (l : List α) {r s : State}
    (h : Calm w r s) : Calm w r (l.foldl f s) := by
  induction l generalizing s with
  | nil => exact h
  | cons x l ih => exact ih (h.trans (hf s x))

/-! ### The focus, and single crews -/

theorem calm_focus (uid : Nat) (h : Calm w r s) : Calm w r (s.focus uid) := by
  have hg (n : Nat) : (galNamed (s.focus uid) n).map galPlace = (galNamed s n).map galPlace := by rw [galNamed_focus]
  by_cases hu : s.c.uid = uid
  · rwa [focus_self hu]
  cases hc : crewNamed s uid with
  | none => rwa [focus_none hc]
  | some c =>
    rw [focus_eq hu hc] at hg ⊢
    exact h.trans ⟨rfl, hg, rfl, rfl, fun _ => rfl, fun _ => rfl⟩

theorem calm_inFocus {f : State → State} (hf : ∀ s, Calm w s (f s)) (uid : Nat) (h : Calm w r s) :
    Calm w r (inFocus s uid f) := by
  unfold inFocus
  split
  · exact calm_focus _ ((calm_focus _ h).trans (hf _))
  · exact h

theorem calm_onCrew (uid : Nat) (f : Crew → Crew) (h : Calm w r s) : Calm w r (s.onCrew uid f) := by
  unfold State.onCrew
  split
  · exact calm_update h
  · exact calm_update h (hs := by simp)

/-! ### Memory, save records and region blocks -/

theorem calm_writeBytes (pa : Nat) (bs : List Byte) (h : Calm w r s) : Calm w r (writeBytes s pa bs) := by
  rw [writeBytes_mem]; exact calm_update h

theorem calm_writeVault (a : Nat) (bs : List Byte) (h : Calm w r s) : Calm w r (writeVault s a bs) := by
  rw [writeVault_vault]; exact calm_update h

theorem calm_savePut (g : Gallery) (save : Word) (bs : List Byte) : ∀ {s : State} (off : Nat), Calm w r s →
    Calm w r (savePut s g save off bs) := by
  induction bs with
  | nil => exact fun off h => h
  | cons b bs ih =>
    intro s off h
    unfold savePut
    refine ih _ ?_
    split
    · exact h
    · rw [writeByte_mem]; exact calm_update h

theorem calm_saveMend (g : Gallery) (save : Word) (off n : Nat) (h : Calm w r s) : Calm w r (saveMend s g save off n) := by
  unfold saveMend
  split
  · exact h
  · exact calm_update h

theorem calm_putSaveQuiet (uid : Nat) (h : Calm w r s) : Calm w r (putSaveQuiet s uid) := by
  unfold putSaveQuiet
  split
  · exact h
  · split
    · exact h
    · exact calm_saveMend _ _ _ _ (calm_savePut _ _ _ _ h)

theorem calm_syncQuiet (path : List Nat) (h : Calm w r s) : Calm w r (syncQuiet s path) := by
  unfold syncQuiet
  refine calm_foldl (fun s pa => calm_foldl (fun t x => ?_) _ (.refl w s)) _ h
  split
  · exact .refl w t
  · exact calm_writeBytes _ _ (.refl w t)

theorem calm_enqueueResume (gid : Nat) (h : Calm w r s) : Calm w r (enqueueResume s gid) := by
  unfold enqueueResume
  split
  · exact h
  · split
    · exact h
    · split
      · exact h
      · exact calm_syncQuiet _ (calm_update h)

/-! ### The Lamproom -/

theorem calm_wake (uid : Nat) (st : BitVec 2) (h : Calm w r s) : Calm w r (wake s uid st) := by
  unfold wake
  split
  · exact h
  · exact calm_putSaveQuiet _ (calm_enqueueResume _ (calm_onCrew _ _ h))

theorem calm_clearFilters (h : Calm w r s) : Calm w r (clearFilters s) := calm_update h

theorem calm_wakeEntries (hit : LampEntry → Bool) (st : BitVec 2) (h : Calm w r s) : Calm w r (wakeEntries s hit st) :=
  calm_clearFilters (calm_foldl (fun s _ => calm_wake _ _ (.refl w s)) _ (calm_update h))

theorem calm_relightLines (n : Nat) : ∀ {s : State} (l : List Nat), Calm w r s → Calm w r (relightLines n s l) := by
  induction n with
  | zero => intro s l h; cases l <;> exact h
  | succ n ih =>
    intro s l h
    cases l with
    | nil => exact h
    | cons x l => exact ih _ (calm_wakeEntries _ _ h)

theorem calm_relightAll (l : List Nat) (h : Calm w r s) : Calm w r (relightAll s l) := by
  unfold relightAll
  split
  · exact h
  · exact calm_relightLines _ _ h

theorem calm_saveWrite (g : Gallery) (save : Word) (off : Nat) (bs : List Byte) (h : Calm w r s) :
    Calm w r (saveWrite s g save off bs) := by
  have h1 := calm_saveMend g save off bs.length (calm_savePut g save bs off h)
  unfold saveWrite
  dsimp only
  split
  · exact h1
  · exact calm_relightAll _ h1

theorem calm_putSave0 (uid : Nat) (h : Calm w r s) : Calm w r (putSave0 s uid) := by
  unfold putSave0
  split
  · exact h
  · split
    · exact h
    · exact calm_saveWrite _ _ _ _ h

theorem calm_putBytes (pa : Nat) (bs : List Byte) (h : Calm w r s) : Calm w r (putBytes s pa bs) :=
  calm_writeBytes _ _ (calm_update h)

theorem calm_hardwareWrite (pa : Nat) (bs : List Byte) (h : Calm w r s) : Calm w r (hardwareWrite s pa bs) :=
  calm_relightAll _ (calm_putBytes _ _ h)

/-! ### Rings, teardowns and fault records -/

theorem calm_setLost (pa : Nat) (h : Calm w r s) : Calm w r (setLost s pa) := by
  unfold setLost
  split
  · exact h
  · exact calm_hardwareWrite _ _ h

theorem calm_countError (h : Calm w r s) : Calm w r (countError s) := calm_update h

theorem calm_ringPush (xl : State → Need → Nat → Except Cause Place) (cb : Nat) (b : Byte) (p : List Byte)
    (h : Calm w r s) : Calm w r (ringPush s xl cb b p).1 := by
  unfold ringPush
  split
  · exact calm_countError h
  · split
    · unfold dropSlot
      split
      · exact calm_countError h
      · exact calm_countError (calm_setLost _ h)
    · split
      · exact calm_countError (calm_setLost _ h)
      · split
        · exact calm_setLost _ h
        · split
          · exact calm_countError (calm_setLost _ h)
          · exact calm_hardwareWrite _ _ (calm_hardwareWrite _ _ (calm_hardwareWrite _ _ h))

/-- A crew that a teardown finds in the Lamproom or at a barrier is halted, or woken (R306). -/
theorem calm_tearWaiter (e : LampEntry) (h : Calm w r s) : Calm w r (match s.crew? e.uid with
    | none => s
    | some c =>
      match c.status with
      | .parked .barc => putSaveQuiet (s.onCrew e.uid fun c => { c with status := .halted }) e.uid
      | _ => wake s e.uid 2) := by
  split
  · exact h
  · split
    · exact calm_putSaveQuiet _ (calm_onCrew _ _ h)
    · exact calm_wake _ _ h

/-- A region that is torn down is listed, if it is not already, and nothing else is listed or struck off (R306). -/
theorem tearOne_calm (s : State) (part block : Nat) : ∃ q,
    Calm True q (tearOne s part block) ∧ q.spawnq = s.spawnq ∧ q.g = s.g ∧ q.gals = s.gals ∧ q.saved = s.saved ∧
      q.regions = s.regions ∧ ∃ x ∈ q.tears, x.part = part ∧ x.region = w64 block := by
  unfold tearOne
  split
  · next hx =>
    refine ⟨s, .refl _ s, rfl, rfl, rfl, rfl, rfl, ?_⟩
    simpa using hx
  · extract_lets mine src s1 hit paths s2 out s3 s4
    have h3 : Calm True s2 s3 := calm_foldl (fun s e => calm_tearWaiter e (.refl _ s)) _ (.refl _ s2)
    have h4 : Calm True s2 s4 := calm_syncQuiet _ (calm_foldl (fun s v => calm_enqueueResume _ (.refl _ s)) _ h3)
    refine ⟨s2, calm_relightAll _ h4, rfl, rfl, rfl, rfl, rfl, ⟨part, w64 block, s.timens.toNat + 100000⟩, ?_, rfl, rfl⟩
    exact List.mem_append_right _ (List.mem_singleton.2 rfl)

theorem calm_tearOne (hw : ¬ w) (part block : Nat) (h : Calm w r s) : Calm w r (tearOne s part block) := by
  obtain ⟨q, ⟨hq, hg, hs, hr, -, -⟩, eq, eg, egs, es, er, -⟩ := tearOne_calm s part block
  exact (calm_update h eq (eg ▸ rfl) egs (es ▸ rfl) er (absurd · hw) (absurd · hw)).trans
    ⟨hq, hg, hs, hr, (absurd · hw), (absurd · hw)⟩

theorem calm_tearDomain (hw : ¬ w) (q : Record) (h : Calm w r s) : Calm w r (tearDomain s q) := by
  unfold tearDomain
  split
  · exact h
  · split
    · exact calm_tearOne hw _ _ h
    · exact calm_foldl (fun s q => calm_tearOne hw _ _ (.refl w s)) _ h

/-- A fault record; one that is FATAL tears its domain down. -/
theorem calm_regionFault (q : Record) (f : FaultRec) (h : Calm w r s) (hf : w → f.fatal = false := by exact fun _ => rfl) :
    Calm w r (regionFault s q f) := by
  have h1 (ring : Nat) : Calm w r (if ring == 0 then countError s
      else (ringPush s (fun s n va => regionXlate s q n va) ring (BitVec.ofNat 8 f.cause.code) (f.bytes s.timens)).1) := by
    split
    · exact calm_countError h
    · exact calm_ringPush _ _ _ _ h
  unfold regionFault
  split
  · exact h
  · dsimp only
    split
    · next ht => exact calm_tearDomain (fun x => by simp [hf x] at ht) _ (h1 _)
    · exact h1 _

theorem calm_crewFault (uid : Nat) (f : FaultRec) (h : Calm w r s) (hf : w → f.fatal = false := by exact fun _ => rfl) :
    Calm w r (crewFault s uid f) := by
  unfold crewFault
  split
  · exact calm_countError h
  · split
    · exact calm_countError h
    · exact calm_regionFault _ _ h hf

/-! ### Writes and reductions at their slices -/

theorem calm_dropPassed (pa n : Nat) (h : Calm w r s) : Calm w r (dropPassed s pa n) := by
  unfold dropPassed
  exact calm_foldl (fun s _ => calm_regionFault _ _ (.refl w s)) _ (calm_update h)

theorem calm_registerWrite (pa : Nat) (bs : List Byte) (h : Calm w r s) : Calm w r (registerWrite s pa bs) := by
  have h1 := calm_putBytes pa bs h
  refine calm_relightAll _ ?_
  split
  · exact h1
  · exact calm_dropPassed _ _ h1

theorem calm_applyHeld (n : Nat) : ∀ {s : State} (obj : Nat), Calm w r s → Calm w r (applyHeld n s obj) := by
  induction n with
  | zero => exact fun obj h => h
  | succ n ih =>
    intro s obj h
    simp only [applyHeld]
    split
    · exact h
    · exact ih _ (calm_registerWrite _ _ (calm_update h))

theorem calm_contribute (x : Contribution) (h : Calm w r s) : Calm w r (contribute s x).1 :=
  contribute_keeps s x (fun q => Calm w r q.1) (fun _ => h) fun _ => calm_applyHeld _ _ (calm_update h)

theorem calm_deferEccAt (a : Word) (t k : Nat) (x : Word) (h : Calm w r s) : Calm w r (deferEccAt s a t k x) := by
  have h1 : Calm w r (crewFault s s.c.uid
      { cause := .eccUncorr, addr := a, obj := w64 (t + 2 ^ 16 * k), pc := x }) := calm_crewFault _ _ h
  unfold deferEccAt
  dsimp only
  split
  · exact h1
  · exact calm_update h1

theorem calm_settleDups (h : Calm w r s) : Calm w r (settleDups s) := by
  unfold settleDups
  refine calm_foldl (fun s d => ?_) _ (calm_update h)
  split
  · exact calm_crewFault _ _ (.refl w s)
  · exact calm_update (.refl w s)

theorem calm_takeAnswer (x : Contribution) (a : Answer) (h : Calm w r s) : Calm w r (takeAnswer x (s, a)) := by
  cases a with
  | accepted => exact calm_update h
  | duplicate => exact calm_update h
  | poisoned => exact calm_deferEccAt _ _ _ _ (calm_update h)
  | tooFar =>
    change Calm w r (if x.seen.isSome then s else refuse s x)
    split
    · exact h
    · exact calm_update h

theorem calm_offer (x : Contribution) (h : Calm w r s) : Calm w r (offer s x) :=
  calm_update (calm_settleDups (calm_takeAnswer x _ (calm_contribute x h)))

theorem calm_retryPending (h : Calm w r s) : Calm w r (retryPending s) := by
  unfold retryPending
  generalize total s.allCrews (·.redq.length) = n
  induction n generalizing s with
  | zero => exact h
  | succ n ih =>
    simp only [retrySome]
    split
    · exact h
    · exact ih (calm_inFocus (fun s => calm_offer _ (.refl w s)) _ h)

theorem calm_offerAll (h : Calm w r s) : Calm w r (offerAll s) := by
  unfold offerAll
  split
  · exact h
  · next hne =>
    clear hne
    generalize s.c.redq.length = n
    induction n generalizing s with
    | zero => exact h
    | succ n ih =>
      simp only [offerSome]
      split
      · exact h
      · exact ih (calm_retryPending (calm_offer _ h))

theorem calm_performGlobal (pa : Nat) (bs : List Byte) (h : Calm w r s) : Calm w r (performGlobal s pa bs) :=
  performGlobal_keeps s pa bs (Calm w r) (calm_registerWrite _ _ h) fun _ => calm_retryPending

theorem calm_performAll (h : Calm w r s) : Calm w r (performAll s) := by
  refine calm_foldl (fun s p => calm_foldl (fun s a => ?_) _ (.refl w s)) _ (calm_update h)
  unfold performOf
  split
  · unfold performWrite
    split
    · exact calm_writeVault _ _ (calm_update (.refl w s))
    · exact calm_performGlobal _ _ (.refl w s)
  · exact calm_crewFault _ _ (.refl w s)

/-- The words of region blocks that the hardware keeps (R145). -/
theorem calm_syncPath (path : List Nat) (h : Calm w r s) : Calm w r (syncPath s path) := by
  refine calm_foldl (fun s pa => calm_foldl (fun t x => ?_) _ (.refl w s)) _ h
  unfold putRcb
  split
  · exact .refl w t
  · exact calm_performGlobal _ _ (.refl w t)

/-! ### Traps, and crews that wait on tags (R278, R288, R291) -/

theorem calm_drain (h : Calm w r s) : Calm w r (drain s) := by
  have hl : Calm w r (landAll s) := by
    refine calm_foldl (fun s l => ?_) _ (calm_update h)
    unfold landResult
    dsimp only
    split
    · exact calm_update (.refl w s)
    · exact calm_update (.refl w s)
    · exact calm_update (.refl w s) (hg := by simp only [galPlace]; rw [setVs_frame])
    · exact calm_deferEccAt _ _ _ _ (.refl w s)
  have h1 := calm_performAll (calm_offerAll (calm_performAll hl))
  unfold drain
  generalize performAll (offerAll (performAll (landAll s))) = s1 at h1 ⊢
  exact calm_update h1

theorem calm_haltCrew (f : FaultRec) (h : Calm w r s) (hf : w → f.fatal = false) : Calm w r (haltCrew s f) := by
  have h1 : Calm w r (putSave0 { s with c := { s.c with status := .halted } } s.c.uid) := calm_putSave0 _ (calm_update h)
  unfold haltCrew
  generalize putSave0 { s with c := { s.c with status := .halted } } s.c.uid = s1 at h1 ⊢
  have h2 : Calm w r (crewFault s1 s1.c.uid { f with halted := true }) := calm_crewFault _ _ h1 hf
  dsimp only
  split
  · exact calm_update h2
  · exact h2

theorem calm_enterTrap (t : TrapReq) (h : Calm w r s) : Calm w r (enterTrap s t) := by
  unfold enterTrap
  dsimp only
  split
  · exact calm_haltCrew _ h fun _ => rfl
  · have h1 : Calm w r (saveTrap s t) := by
      unfold saveTrap
      dsimp only
      repeat apply calm_saveWrite
      exact h
    generalize saveTrap s t = s1 at h1 ⊢
    exact calm_update h1

/-- A trap; in a handler it is a DOUBLE, which tears the domain down. -/
theorem calm_takeTrap (hw : ¬ w) (t : TrapReq) (h : Calm w r s) : Calm w r (takeTrap s t) := by
  unfold takeTrap
  split
  · exact calm_haltCrew _ h (absurd · hw)
  · dsimp only
    split
    · exact calm_enterTrap _ (calm_drain h)
    · have h1 := calm_drain h
      generalize drain s = s1 at h1 ⊢
      exact calm_update h1

theorem calm_resumeTags (hw : ¬ w) (uid : Nat) (h : Calm w r s) : Calm w r (resumeTags s uid) := by
  unfold resumeTags
  split
  · exact h
  · split
    · split
      · refine calm_putSave0 _ (calm_inFocus (fun s => ?_) _ h)
        unfold tagWait
        split
        · exact calm_putSave0 _ (calm_update (.refl w s))
        · split
          · exact calm_update (.refl w s)
          · exact calm_takeTrap hw _ (.refl w s)
      · exact h
    · exact h

/-- A PREEMPT record, if the region asks for one (R290). -/
theorem calm_notify (g : Gallery) (h : Calm w r s) : Calm w r (notify s g) := by
  unfold notify
  split
  · exact calm_regionFault _ _ h
  · exact h

end Sys2Proof.Proofs
end
section
/-!
PROOFS. The writes that the hardware makes where nothing waits, neither in the Lamproom nor at a slice: of region blocks, save
records and rings, and of fault records. They change memory, its poison, ERRCNT and what is held at the slices (R145, R188,
R190, R293, R296).
-/

namespace Sys2Proof.Proofs
open Sys2Proof Sys2Proof.Machine

set_option Elab.async false

/-- Nothing waits in the Lamproom, and no contribution at its slice. -/
structure Still (s : State) : Prop where
  lamps : s.lamps = []
  none : NoneWaits s

/-- State `t` differs from `s` in what is written to memory and told in fault records, and in nothing else. -/
def Told (s t : State) : Prop := t = { s with mem := t.mem, poison := t.poison, errcnt := t.errcnt, redq := t.redq }

variable {s t u : State}

theorem Told.refl (s : State) : Told s s := rfl

theorem Told.trans (h : Told s t) (k : Told t u) : Told s u := by
  rw [Told, h] at k
  exact k

/-- What does not rest on memory and on fault records is as it was. -/
theorem Told.same {α : Type} (h : Told s t) (f : State → α)
    (hf : ∀ m p e q, f { s with mem := m, poison := p, errcnt := e, redq := q } = f s := by exact fun _ _ _ _ => rfl) :
    f t = f s := by
  rw [h]
  exact hf ..

theorem Still.told (h : Still s) (k : Told s t) : Still t where
  lamps := (k.same State.lamps).trans h.lamps
  none := by
    unfold NoneWaits
    rw [k.same State.allCrews]
    exact h.none

/-- Other fields do not matter to what waits. -/
theorem Still.update (h : Still s) (hc : t.allCrews ⊆ s.allCrews) (hl : t.lamps = s.lamps := by rfl) : Still t where
  lamps := hl.trans h.lamps
  none c hc' := h.none c (hc hc')

theorem told_foldl {α : Type} {f : State → α → State} (hf : ∀ s x, Still s → Told s (f s x)) (l : List α) :
    ∀ {s : State}, Still s → Told s (l.foldl f s) := by
  induction l with
  | nil => exact fun _ => .refl _
  | cons x l ih => exact fun h => (hf _ x h).trans (ih (h.told (hf _ x h)))

/-! ### Bytes -/

theorem told_putBytes (s : State) (pa : Nat) (bs : List Byte) : Told s (putBytes s pa bs) := by
  rw [putBytes, writeBytes_mem]
  rfl

theorem relightAll_still (h : Still s) (l : List Nat) : relightAll s l = s := if_pos h.lamps

theorem hardwareWrite_still (h : Still s) (pa : Nat) (bs : List Byte) : hardwareWrite s pa bs = putBytes s pa bs :=
  relightAll_still (h.told (told_putBytes s pa bs)) _

theorem told_hardwareWrite (h : Still s) (pa : Nat) (bs : List Byte) : Told s (hardwareWrite s pa bs) :=
  hardwareWrite_still h pa bs ▸ told_putBytes s pa bs

/-! ### Rings and fault records (R188, R296) -/

theorem told_setLost (h : Still s) (pa : Nat) : Told s (setLost s pa) := by
  unfold setLost
  split
  · exact .refl s
  · exact told_hardwareWrite h _ _

theorem told_countError (h : Told s t) : Told s (countError t) := h.trans rfl

theorem told_ringPush (h : Still s) (xl : State → Need → Nat → Except Cause Place) (cb : Nat) (b : Byte) (p : List Byte) :
    Told s (ringPush s xl cb b p).1 := by
  unfold ringPush
  split
  · exact told_countError (.refl s)
  · split
    · unfold dropSlot
      split
      · exact told_countError (.refl s)
      · exact told_countError (told_setLost h _)
    · split
      · exact told_countError (told_setLost h _)
      · split
        · exact told_setLost h _
        · split
          · exact told_countError (told_setLost h _)
          · have h1 := told_hardwareWrite h
            exact ((h1 _ _).trans (told_hardwareWrite (h.told (h1 _ _)) _ _)).trans
              (told_hardwareWrite ((h.told (h1 _ _)).told (told_hardwareWrite (h.told (h1 _ _)) _ _)) _ _)

/-- A fault record that is not FATAL. -/
theorem told_regionFault (h : Still s) (q : Record) (f : FaultRec) (hf : f.fatal = false) : Told s (regionFault s q f) := by
  unfold regionFault
  split
  · exact .refl s
  · dsimp only
    rw [if_neg (by simp [hf])]
    split
    · exact told_countError (.refl s)
    · exact told_ringPush h _ _ _ _

/-- A PREEMPT record, if the region asks for one (R290). -/
theorem told_notify (h : Still s) (g : Gallery) : Told s (notify s g) := by
  unfold notify
  split
  · exact told_regionFault h _ _ rfl
  · exact .refl s

/-! ### Writes at a home slice (R190, R225) -/

theorem told_dropPassed (h : Still s) (pa n : Nat) : Told s (dropPassed s pa n) := by
  have h1 (l : List HeldContribution) : Told s { s with redq := l } := rfl
  unfold dropPassed
  exact (h1 _).trans (told_foldl (fun _ _ h => told_regionFault h _ _ rfl) _ (h.told (h1 _)))

theorem told_registerWrite (h : Still s) (pa : Nat) (bs : List Byte) : Told s (registerWrite s pa bs) := by
  have h1 := told_putBytes s pa bs
  have h2 : Told s (if (putBytes s pa bs).redq = [] then putBytes s pa bs
      else dropPassed (putBytes s pa bs) pa bs.length) := by
    split
    · exact h1
    · exact h1.trans (told_dropPassed (h.told h1) _ _)
  unfold registerWrite relightRun
  rw [relightAll_still (h.told h2)]
  exact h2

theorem nextMoved_still (h : Still s) (pa n : Nat) : nextMoved s pa n = false := by
  simp only [nextMoved, List.any_eq_false, List.any_eq_true, not_exists, not_and]
  intro c hc x hx
  simp [h.none c hc x hx]

theorem told_performGlobal (h : Still s) (pa : Nat) (bs : List Byte) : Told s (performGlobal s pa bs) := by
  have h1 := told_registerWrite h pa bs
  unfold performGlobal
  dsimp only
  rwa [nextMoved_still (h.told h1), if_neg Bool.false_ne_true]

/-- Where no contribution is held either, a write at a home slice is its bytes, and the poison that they clear. -/
theorem performGlobal_still (h : Still s) (hq : s.redq = []) (pa : Nat) (bs : List Byte) :
    performGlobal s pa bs = putBytes s pa bs :=
  performGlobal_quiet h.lamps hq fun c hc x hx hn => absurd (h.none c hc x hx) hn

theorem told_putRcb (h : Still s) (pa off x : Nat) : Told s (putRcb s pa off x) := by
  unfold putRcb
  split
  · exact .refl s
  · exact told_performGlobal h _ _

theorem told_syncRegion (h : Still s) (pa : Nat) : Told s (syncRegion s pa) :=
  told_foldl (fun _ _ h => told_putRcb h _ _ _) _ h

theorem told_syncPath (h : Still s) (path : List Nat) : Told s (syncPath s path) :=
  told_foldl (fun _ _ h => told_syncRegion h _) _ h

/-- CONS of a task queue (R145). -/
theorem told_syncQueue (h : Still s) (r : Record) : Told s (syncQueue s r) := by
  unfold syncQueue
  split
  · exact .refl s
  · dsimp only
    split
    · exact .refl s
    · exact told_performGlobal h _ _

/-! ### Save records (R293) -/

theorem told_markSaves (h : Still s) (r : Record) (saves : List Word) (x : Nat) : Told s (markSaves s r saves x) := by
  refine told_foldl (fun s a h => ?_) _ h
  split
  · exact .refl s
  · exact told_performGlobal h _ _

theorem told_savePut (g : Gallery) (save : Word) (bs : List Byte) : ∀ (s : State) (off : Nat),
    Told s (savePut s g save off bs) := by
  induction bs with
  | nil => exact fun s _ => .refl s
  | cons b bs ih =>
    intro s off
    unfold savePut
    refine Told.trans ?_ (ih _ _)
    split
    · exact .refl s
    · rw [writeByte_mem]; rfl

theorem told_saveMend (s : State) (g : Gallery) (save : Word) (off n : Nat) : Told s (saveMend s g save off n) := by
  unfold saveMend
  split
  · exact .refl s
  · rfl

theorem told_saveWrite (h : Still s) (g : Gallery) (save : Word) (off : Nat) (bs : List Byte) :
    Told s (saveWrite s g save off bs) := by
  have h1 := (told_savePut g save bs s off).trans (told_saveMend _ g save off bs.length)
  unfold saveWrite
  dsimp only
  rwa [if_pos (h.told h1).lamps]

theorem told_putSave0 (h : Still s) (uid : Nat) : Told s (putSave0 s uid) := by
  unfold putSave0
  split
  · exact .refl s
  · split
    · exact .refl s
    · exact told_saveWrite h _ _ _ _

theorem told_putSaves (h : Still s) (l : List Crew) : Told s (putSaves s l) :=
  told_foldl (fun _ _ h => told_putSave0 h _) _ h

/-- Parts of a save record written one after the other. -/
theorem told_saveWrites (h : Still s) (k : Told s t) (g : Gallery) (save : Word) (off : Nat) (bs : List Byte) :
    Told s (saveWrite t g save off bs) := k.trans (told_saveWrite (h.told k) ..)

theorem told_writeContext (h : Still s) (g : Gallery) (c : Crew) : Told s (writeContext s g c) := by
  unfold writeContext
  dsimp only
  repeat apply told_saveWrites h
  split
  · exact told_saveWrite h ..
  · repeat apply told_saveWrites h
    exact .refl s

theorem told_writeContexts (h : Still s) (g : Gallery) (l : List Crew) :
    Told s (l.foldl (fun s c => writeContext s g c) s) :=
  told_foldl (fun _ _ h => told_writeContext h g _) _ h

end Sys2Proof.Proofs
end
section
/-!
PROOFS. The distributor: the order of candidates, where the first of them fits, the retry of parked spawns, and which
gallery is swapped out (R151, R154 to R156, R165, R300).
-/

namespace Sys2Proof.Proofs
open Sys2Proof Sys2Proof.Machine

set_option Elab.async false

/-! ### Changes of pool, freed cores, spawns (R156, R165, R355) -/

/-- Clusters that are to change pool and still hold a gallery leave everything as it is (R355). -/
theorem settleMoves_full {s : State} (h : ∀ m ∈ s.power.moving, clusterEmpty s m.1 = false) : settleMoves s = s := by
  have none : s.power.moving.filter (fun m => clusterEmpty s m.1) = [] :=
    List.filter_eq_nil_iff.2 fun m hm => by simp [h m hm]
  have all : s.power.moving.filter (fun m => !clusterEmpty s m.1) = s.power.moving :=
    List.filter_eq_self.2 fun m hm => by simp [h m hm]
  rw [settleMoves, none, all]
  rfl

/-- With no spawn parked below the blocks of a path, none is retried (R165). -/
theorem retrySpawns_of_none {s : State} {path : List Nat} (h : ∀ x ∈ s.spawnq, ∀ b ∈ path, b ∉ x.path) :
    retrySpawns s path = s := by
  have e : s.spawnq.filter (fun w => w.path.any path.contains) = [] := by
    rw [List.filter_eq_nil_iff]
    intro x hx
    simpa using fun b hb hp => h x hx b hp hb
  rw [retrySpawns, e, List.foldl_nil]

/-- Spawns parked below a path are retried in the order in which they parked. -/
theorem retrySpawns_pair {s : State} {path : List Nat} {w x : SpawnWait} (hq : s.spawnq = [w, x])
    (hw : ∃ b ∈ path, b ∈ w.path) (hx : ∃ b ∈ path, b ∈ x.path) :
    retrySpawns s path = retrySpawn (retrySpawn s w) x := by
  have below {y : SpawnWait} (h : ∃ b ∈ path, b ∈ y.path) : y.path.any path.contains = true := by
    obtain ⟨b, hp, hy⟩ := h
    exact List.any_eq_true.2 ⟨b, hy, by simpa using hp⟩
  simp [retrySpawns, hq, below hw, below hx]

theorem retryFallen_none {s : State} (h : s.pendFell = []) : retryFallen s = s := by
  rw [retryFallen, h, retrySpawns_of_none (by simp), ← h]

theorem foldl_min_le (l : List Nat) (a : Nat) : l.foldl min a ≤ a ∧ ∀ k ∈ l, l.foldl min a ≤ k := by
  induction l generalizing a with
  | nil => simp
  | cons b l ih =>
    obtain ⟨h1, h2⟩ := ih (min a b)
    rw [List.foldl_cons, List.forall_mem_cons]
    exact ⟨h1.trans (min_le_left a b), h1.trans (min_le_right a b), h2⟩

theorem foldl_min_mem (l : List Nat) (a : Nat) : l.foldl min a ∈ a :: l := by
  induction l generalizing a with
  | nil => simp
  | cons b l ih =>
    rcases List.mem_cons.1 (ih (min a b)) with h | h
    · rw [List.foldl_cons, h]
      rcases min_choice a b with e | e <;> simp [e]
    · exact List.mem_cons_of_mem _ (List.mem_cons_of_mem _ h)

/-- The freed core that is offered first is the lowest of its partition (log 85). -/
theorem freedCore_least {s : State} {part core : Nat} (hm : core ∈ s.freed) (hp : partOfDie s (dieOfCore core) = part)
    (hl : ∀ k ∈ s.freed, partOfDie s (dieOfCore k) = part → core ≤ k) : freedCore s part = some core := by
  have hmem (k : Nat) : k ∈ s.freed.filter (fun k => partOfDie s (dieOfCore k) == part) ↔
      k ∈ s.freed ∧ partOfDie s (dieOfCore k) = part := by simp
  unfold freedCore
  split
  · next e => simpa [e] using (hmem core).2 ⟨hm, hp⟩
  · next a l e =>
    have hin := foldl_min_mem l a
    rw [← e, hmem] at hin
    have hle : l.foldl min a ≤ core := by
      have hc := (hmem core).2 ⟨hm, hp⟩
      rw [e] at hc
      rcases List.mem_cons.1 hc with rfl | h
      · exact (foldl_min_le l core).1
      · exact (foldl_min_le l a).2 core h
    exact congrArg some (le_antisymm hle (hl _ hin.1 hin.2))

/-! ### The decision (R155, R156) -/

theorem exec_placementDecision (part : BitVec 2) (s : State) :
    exec (.placementDecision part) s = .next (placementDecision s part.toNat) := rfl

section
variable {s : State} {part : BitVec 2} (hm : ∀ m ∈ s.power.moving, clusterEmpty s m.1 = false)
include hm

/-- Parked spawns are retried before anything else; a decision of the state that this leaves answers the same (R165). -/
theorem exec_placementDecision_retry (hu : (retrySpawns { s with pendFell := [] } s.pendFell).pendFell = [])
    (hmu : ∀ m ∈ (retrySpawns { s with pendFell := [] } s.pendFell).power.moving,
      clusterEmpty (retrySpawns { s with pendFell := [] } s.pendFell) m.1 = false) :
    exec (.placementDecision part) s =
      exec (.placementDecision part) (retrySpawns { s with pendFell := [] } s.pendFell) := by
  have e : retryFallen (settleMoves (retrySpawns { s with pendFell := [] } s.pendFell)) = retryFallen (settleMoves s) := by
    rw [settleMoves_full hmu, retryFallen_none hu, settleMoves_full hm]
    rfl
  simp only [exec_placementDecision, placementDecision, e]

variable (hp : s.pendFell = [])
include hp

/-- The freed core is refilled with the first candidate that fits there (R156). -/
theorem placementDecision_refill {core v : Nat} {c : Candidate} (hf : core ∈ s.freed)
    (hd : partOfDie s (dieOfCore core) = part.toNat)
    (hl : ∀ k ∈ s.freed, partOfDie s (dieOfCore k) = part.toNat → core ≤ k)
    (hfit : firstFit { s with freed := s.freed.filter (· != core) } (some core)
      (inOrder { s with freed := s.freed.filter (· != core) } part.toNat) = some (c, core, v)) :
    placementDecision s part.toNat = place { s with freed := s.freed.filter (· != core) } c core v := by
  have hne : inOrder { s with freed := s.freed.filter (· != core) } part.toNat ≠ [] := by
    intro h
    rw [h] at hfit
    cases hfit
  simp only [placementDecision, settleMoves_full hm, retryFallen_none hp, freedCore_least hf hd hl, if_neg hne,
    Option.bind_some, hfit]

/-- With no freed core the first candidate that fits goes to the emptiest core, or a gallery is swapped out (R155, R300). -/
theorem placementDecision_open (hf : freedCore s part.toNat = none) (hne : inOrder s part.toNat ≠ []) :
    placementDecision s part.toNat = match firstFit s none (inOrder s part.toNat) with
      | some (c, k, v) => place s c k v
      | none => (swapFor s part.toNat).getD s := by
  simp only [placementDecision, settleMoves_full hm, retryFallen_none hp, hf, if_neg hne, Option.bind_none] <;> rfl

end

/-! ### Where a candidate fits (R155) -/

/-- The emptiest of some places is one of them, and none holds fewer galleries. -/
theorem emptiest_some (s : State) {l : List (Nat × Nat)} (h : l ≠ []) :
    ∃ x ∈ l, emptiest s l = some x ∧ ∀ y ∈ l, (galsOn s x.1).length ≤ (galsOn s y.1).length := by
  induction l with
  | nil => exact absurd rfl h
  | cons x l ih =>
    by_cases hl : l = []
    · subst hl
      exact ⟨x, by simp, rfl, by simp⟩
    · obtain ⟨y, hy, he, hmin⟩ := ih hl
      simp only [emptiest, he, List.forall_mem_cons]
      split
      · next hlt => exact ⟨y, List.mem_cons_of_mem _ hy, rfl, hlt.le, hmin⟩
      · next hge => exact ⟨x, List.mem_cons_self .., rfl, le_rfl, fun z hz => (not_lt.1 hge).trans (hmin z hz)⟩

/-- The place of a candidate on the emptiest core, if it passes and fits anywhere. -/
def openPlace (s : State) (c : Candidate) : Option (Nat × Nat) :=
  if passes s c then emptiest s (placesFor s c.rcd) else none

theorem openPlace_eq_none {s : State} {c : Candidate} :
    openPlace s c = none ↔ passes s c = false ∨ placesFor s c.rcd = [] := by
  unfold openPlace
  by_cases hp : passes s c = true
  · rw [if_pos hp]
    by_cases hl : placesFor s c.rcd = []
    · simp [hl, emptiest]
    · obtain ⟨x, -, he, -⟩ := emptiest_some s hl
      simp [he, hl, hp]
  · simp [hp]

theorem openPlace_eq_some {s : State} {c : Candidate} {x : Nat × Nat} (h : openPlace s c = some x) :
    passes s c = true ∧ x ∈ placesFor s c.rcd ∧
      ∀ y ∈ placesFor s c.rcd, (galsOn s x.1).length ≤ (galsOn s y.1).length := by
  have hsome : ¬ (passes s c = false ∨ placesFor s c.rcd = []) := by
    rw [← openPlace_eq_none, h]
    nofun
  obtain ⟨hp, hl⟩ := not_or.1 hsome
  rw [Bool.not_eq_false] at hp
  obtain ⟨y, hy, he, hmin⟩ := emptiest_some s hl
  rw [openPlace, if_pos hp, he] at h
  cases h
  exact ⟨hp, hy, hmin⟩

theorem firstFit_cons (s : State) (c : Candidate) (l : List Candidate) : firstFit s none (c :: l) =
    match openPlace s c with
    | some x => some (c, x.1, x.2)
    | none => firstFit s none l := by
  unfold openPlace
  cases hp : passes s c with
  | false => simp [firstFit, hp]
  | true => cases he : emptiest s (placesFor s c.rcd) <;> simp [firstFit, hp, he]

/-- The candidate that is placed is the first that passes and fits, on a core with the fewest galleries. -/
theorem firstFit_some {s : State} {l : List Candidate} {c : Candidate} {k v : Nat}
    (h : firstFit s none l = some (c, k, v)) :
    ∃ before after, l = before ++ c :: after ∧ passes s c = true ∧ (k, v) ∈ placesFor s c.rcd ∧
      (∀ x ∈ before, passes s x = false ∨ placesFor s x.rcd = []) ∧
      ∀ y ∈ placesFor s c.rcd, (galsOn s k).length ≤ (galsOn s y.1).length := by
  induction l with
  | nil => cases h
  | cons d l ih =>
    rw [firstFit_cons] at h
    cases hd : openPlace s d with
    | some x =>
      rw [hd] at h
      cases h
      obtain ⟨hp, hx, hmin⟩ := openPlace_eq_some hd
      exact ⟨[], l, rfl, hp, hx, by simp, hmin⟩
    | none =>
      rw [hd] at h
      obtain ⟨before, after, rfl, hp, hk, hb, hmin⟩ := ih h
      exact ⟨d :: before, after, rfl, hp, hk, List.forall_mem_cons.2 ⟨openPlace_eq_none.1 hd, hb⟩, hmin⟩

/-! ### Which gallery is swapped out (R300) -/

theorem swapBefore_iff (a b : Gallery) : swapBefore a b = true ↔
    a.rcd.prio < b.rcd.prio ∨ (a.rcd.prio = b.rcd.prio ∧ a.since ≤ b.since) := by
  simp [swapBefore]

theorem swapBefore_total (a b : Gallery) (h : swapBefore a b ≠ true) : swapBefore b a = true := by
  rw [ne_eq, swapBefore_iff] at h
  rw [swapBefore_iff]
  omega

theorem swapBefore_trans {a b c : Gallery} (h : swapBefore a b = true) (k : swapBefore b c = true) :
    swapBefore a c = true := by
  rw [swapBefore_iff] at h k ⊢
  omega

theorem mem_swapInsert (g x : Gallery) (l : List Gallery) : x ∈ swapInsert g l ↔ x = g ∨ x ∈ l := by
  induction l with
  | nil => simp [swapInsert]
  | cons h l ih =>
    unfold swapInsert
    split
    · simp
    · simp only [List.mem_cons, ih]
      tauto

/-- Galleries in the order in which they are swapped out. -/
def SwapOrdered (l : List Gallery) : Prop := l.Pairwise fun a b => swapBefore a b = true

theorem swapOrdered_insert (g : Gallery) {l : List Gallery} (h : SwapOrdered l) : SwapOrdered (swapInsert g l) := by
  induction l with
  | nil => exact List.pairwise_singleton ..
  | cons a l ih =>
    obtain ⟨ha, hl⟩ := List.pairwise_cons.1 h
    unfold swapInsert
    split
    · next hg =>
      refine List.pairwise_cons.2 ⟨?_, h⟩
      exact List.forall_mem_cons.2 ⟨hg, fun b hb => swapBefore_trans hg (ha b hb)⟩
    · next hg =>
      refine List.pairwise_cons.2 ⟨fun b hb => ?_, ih hl⟩
      rcases (mem_swapInsert g b l).1 hb with rfl | hb
      · exact swapBefore_total _ _ hg
      · exact ha b hb

theorem mem_swapSort (x : Gallery) (l : List Gallery) : x ∈ l.foldr swapInsert [] ↔ x ∈ l := by
  induction l with
  | nil => simp
  | cons g l ih => rw [List.foldr_cons, mem_swapInsert, ih, List.mem_cons]

theorem swapOrdered_sort (l : List Gallery) : SwapOrdered (l.foldr swapInsert []) := by
  induction l with
  | nil => exact List.Pairwise.nil
  | cons g l ih => exact swapOrdered_insert g ih

/-- The first gallery in the order of which a test holds: no other of which it holds stands before it. -/
theorem find?_swapSort {l : List Gallery} {p : Gallery → Bool} {g : Gallery}
    (h : (l.foldr swapInsert []).find? p = some g) :
    g ∈ l ∧ p g = true ∧ ∀ x ∈ l, p x = true → x = g ∨ swapBefore g x = true := by
  obtain ⟨hp, before, after, e, hb⟩ := List.find?_eq_some_iff_append.1 h
  have hord := swapOrdered_sort l
  rw [e] at hord
  have hafter := (List.pairwise_cons.1 (List.pairwise_append.1 hord).2.1).1
  refine ⟨(mem_swapSort g l).1 (by simp [e]), hp, fun x hx hpx => ?_⟩
  rw [← mem_swapSort, e, List.mem_append, List.mem_cons] at hx
  rcases hx with hx | rfl | hx
  · exact absurd (hb x hx) (by simp [hpx])
  · exact .inl rfl
  · exact .inr (hafter x hx)

/-- Swapping the gallery out helps a record of higher priority that passes and fits nowhere (R300; log 32). -/
def SwapHelps (s : State) (part : Nat) (g : Gallery) : Prop :=
  swappable s part g = true ∧ ∃ c ∈ inOrder s part, passes s c = true ∧
    placesFor s c.rcd = [] ∧ g.rcd.prio < c.rcd.prio ∧ fitsAfterSwaps s part c g.core = true

theorem swapHelps_iff (s : State) (part : Nat) (g : Gallery) : SwapHelps s part g ↔ swappable s part g = true ∧
    (((inOrder s part).filter fun c => passes s c && placesFor s c.rcd == []).any fun c =>
      decide (g.rcd.prio < c.rcd.prio) && fitsAfterSwaps s part c g.core) = true := by
  simp only [SwapHelps, List.any_eq_true, List.mem_filter, Bool.and_eq_true, beq_iff_eq, decide_eq_true_eq, and_assoc]

theorem swapFor_none {s : State} {part : Nat} (h : swapFor s part = none) {g : Gallery} (hg : g ∈ s.allGals) :
    ¬ SwapHelps s part g := by
  rw [swapHelps_iff]
  rintro ⟨hs, hany⟩
  rw [swapFor, Option.map_eq_none_iff, List.find?_eq_none] at h
  exact h g ((mem_swapSort ..).2 (List.mem_filter.2 ⟨hg, hs⟩)) hany

theorem swapFor_some {s t : State} {part : Nat} (h : swapFor s part = some t) :
    ∃ g ∈ s.allGals, SwapHelps s part g ∧ t = swapOut s g ∧ ∀ h ∈ s.allGals, SwapHelps s part h →
      g.rcd.prio < h.rcd.prio ∨ (g.rcd.prio = h.rcd.prio ∧ g.since ≤ h.since) := by
  obtain ⟨g, hg, rfl⟩ := Option.map_eq_some_iff.1 h
  obtain ⟨hm, hp, hmin⟩ := find?_swapSort hg
  obtain ⟨hin, hs⟩ := List.mem_filter.1 hm
  refine ⟨g, hin, (swapHelps_iff ..).2 ⟨hs, hp⟩, rfl, fun x hx hh => ?_⟩
  obtain ⟨hxs, hxp⟩ := (swapHelps_iff ..).1 hh
  rcases hmin x (List.mem_filter.2 ⟨hx, hxs⟩) hxp with rfl | h
  · exact .inr ⟨rfl, le_rfl⟩
  · exact (swapBefore_iff ..).1 h

/-- A crew that a swap-out may take off its core: parked in `WAITU`, `BARC` or `SPAWN`, with nothing of its own under way
(R300, R314). -/
def SwapStopped (s : State) (c : Crew) : Prop :=
  c.bank = false ∧ c.redq = [] ∧ engineBusy s c.uid = false ∧ (∀ t ∈ s.tokens, t.holder ≠ some c.uid) ∧ c.ring = none ∧
    ((∃ d, c.status = .parked (.waitu d)) ∨ c.status = .parked .barc ∨ c.status = .parked .spawn)

/-- The test of a status in `swappable`. -/
def parkedForSwap : Status → Bool
  | .parked (.waitu _) => true
  | .parked .barc => true
  | .parked .spawn => true
  | _ => false

theorem parkedForSwap_iff (x : Status) : parkedForSwap x = true ↔
    (∃ d, x = .parked (.waitu d)) ∨ x = .parked .barc ∨ x = .parked .spawn := by
  cases x with
  | parked p => cases p <;> simp [parkedForSwap]
  | _ => simp [parkedForSwap]

theorem swappable_eq (s : State) (part : Nat) (g : Gallery) : swappable s part g =
    (g.rcd.path != [] && g.rcd.part == part && !g.torn && !bit (rcbField s g.rcd 0x88 8) 1 && (imagePlace s g).isSome &&
      s.allCrews.filter (·.gid == g.gid) != [] && (s.allCrews.filter (·.gid == g.gid)).all fun c =>
        !c.bank && c.redq == [] && !engineBusy s c.uid && !(s.tokens.any (·.holder == some c.uid)) && c.ring.isNone &&
          parkedForSwap c.status) := rfl

theorem filter_gid_ne_nil (l : List Crew) (gid : Nat) :
    l.filter (·.gid == gid) ≠ [] ↔ ∃ c ∈ l, c.gid = gid := by
  simp [List.filter_eq_nil_iff]

theorem swappable_iff (s : State) (part : Nat) (g : Gallery) : swappable s part g = true ↔
    g.rcd.path ≠ [] ∧ g.rcd.part = part ∧ g.torn = false ∧
    bit (rcbField s g.rcd 0x88 8) 1 = false ∧ imagePlace s g ≠ none ∧ (∃ c ∈ s.allCrews, c.gid = g.gid) ∧
    ∀ c ∈ s.allCrews, c.gid = g.gid → SwapStopped s c := by
  simp only [swappable_eq, Bool.and_eq_true, bne_iff_ne, beq_iff_eq, Bool.not_eq_true', Option.isSome_iff_ne_none,
    List.all_eq_true, List.mem_filter, and_imp, and_assoc, filter_gid_ne_nil, parkedForSwap_iff, SwapStopped,
    Option.isNone_iff_eq_none, List.any_eq_false, ne_eq]

end Sys2Proof.Proofs
end
section
/-!
PROOFS. Words that the hardware writes where nothing waits: the words of a region block that it keeps (R145), and the
STATUS and NS of a context move (R318, R319).
-/

namespace Sys2Proof.Proofs
open Sys2Proof Sys2Proof.Machine

set_option Elab.async false

/-- Nothing waits in the Lamproom or at a slice, and no contribution is held. -/
structure Silent (s : State) : Prop where
  still : Still s
  redq : s.redq = []

/-- State `t` differs from `s` in memory and its poison alone. -/
def Poked (s t : State) : Prop := t = { s with mem := t.mem, poison := t.poison }

variable {s t u : State}

theorem Poked.refl (s : State) : Poked s s := rfl

theorem Poked.trans (h : Poked s t) (k : Poked t u) : Poked s u := by
  rw [Poked, h] at k
  exact k

theorem Poked.told (h : Poked s t) : Told s t := by
  rw [Poked] at h
  rw [Told, h]

theorem Poked.inRom (h : Poked s t) (a : Nat) : inRom t a = inRom s a := by
  rw [h]
  rfl

theorem Silent.poked (h : Silent s) (k : Poked s t) : Silent t :=
  ⟨h.still.told k.told, by rw [k]; exact h.redq⟩

theorem poked_putBytes (s : State) (pa : Nat) (bs : List Byte) : Poked s (putBytes s pa bs) := by
  rw [putBytes, writeBytes_mem]
  rfl

theorem performNat_silent (h : Silent s) (pa n x : Nat) : performNat s pa n x = putBytes s pa (toBytes n x) :=
  performGlobal_still h.still h.redq pa _

theorem poked_performNat (h : Silent s) (pa n x : Nat) : Poked s (performNat s pa n x) :=
  performNat_silent h pa n x ▸ poked_putBytes ..

theorem readByte_performNat (h : Silent s) (pa n x a : Nat) : readByte (performNat s pa n x) a =
    if pa ≤ a ∧ a < pa + n ∧ inRom s a = false then (toBytes n x).getD (a - pa) 0 else readByte s a := by
  rw [performNat_silent h, putBytes, readByte_writeBytes, toBytes_length]
  rfl

/-- A number in memory is that of its bytes. -/
theorem readNat_congr {pa n : Nat} (h : ∀ k, k < n → readByte t (pa + k) = readByte s (pa + k)) :
    readNat t pa n = readNat s pa n := by
  rw [readNat, readNat]
  refine congrArg ofBytes (bytes_ext (by simp) fun k hk => ?_)
  rw [readBytes_length] at hk
  rw [readBytes_getD _ _ _ _ hk, readBytes_getD _ _ _ _ hk, h k hk]

theorem readByte_performNat_apart (h : Silent s) {pa n x a : Nat} (ha : a < pa ∨ pa + n ≤ a) :
    readByte (performNat s pa n x) a = readByte s a := by
  rw [readByte_performNat h, if_neg (by omega)]

theorem readNat_performNat_apart (h : Silent s) {pa n x a m : Nat} (ha : a + m ≤ pa ∨ pa + n ≤ a) :
    readNat (performNat s pa n x) a m = readNat s a m :=
  readNat_congr fun k hk => readByte_performNat_apart h (by omega)

theorem readNat_performNat_same (h : Silent s) {pa n x : Nat} (hrom : ∀ k, k < n → inRom s (pa + k) = false) :
    readNat (performNat s pa n x) pa n = x % 2 ^ (8 * n) := by
  rw [performNat_silent h]
  exact readNat_writeNat_same _ pa n x hrom

/-! ### The words of a region block (R145) -/

/-- A word of a region block holds a value, written there or found there. -/
theorem poked_putRcb (h : Silent s) (pa off x : Nat) : Poked s (putRcb s pa off x) := by
  unfold putRcb
  split
  · exact .refl s
  · exact poked_performNat h ..

theorem readByte_putRcb_apart (h : Silent s) {pa off x a : Nat} (ha : a < pa + off ∨ pa + off + 8 ≤ a) :
    readByte (putRcb s pa off x) a = readByte s a := by
  unfold putRcb
  split
  · rfl
  · exact readByte_performNat_apart h ha

theorem readNat_putRcb_apart (h : Silent s) {pa off off' x : Nat} (ha : off' + 8 ≤ off ∨ off + 8 ≤ off') :
    readNat (putRcb s pa off x) (pa + off') 8 = readNat s (pa + off') 8 :=
  readNat_congr fun k hk => readByte_putRcb_apart h (by omega)

theorem readNat_putRcb_same (h : Silent s) {pa off x : Nat} (hrom : ∀ k, k < 8 → inRom s (pa + off + k) = false)
    (hx : x < 2 ^ 64) : readNat (putRcb s pa off x) (pa + off) 8 = x := by
  unfold putRcb
  split
  · next e => exact e
  · rw [readNat_performNat_same h hrom]
    exact Nat.mod_eq_of_lt hx

/-- Words written at one place after another of a region block. -/
theorem poked_putRcbs (pa : Nat) (l : List (Nat × Nat)) : ∀ {s : State}, Silent s →
    Poked s (l.foldl (fun t x => putRcb t pa x.1 x.2) s) := by
  induction l with
  | nil => exact fun _ => .refl _
  | cons x l ih =>
    intro s h
    have p := poked_putRcb h pa x.1 x.2
    rw [List.foldl_cons]
    exact p.trans (ih (h.poked p))

theorem poked_syncRegion (h : Silent s) (pa : Nat) : Poked s (syncRegion s pa) := by
  unfold syncRegion
  exact poked_putRcbs pa _ h

/-- The fourth word, of the save records in use and the images of the region's pool (R290, R300). -/
def poolWord (s : State) (pa : Nat) : Nat :=
  bits (usedSave s pa) 0 16 + 2 ^ 16 * bits (total (imagesOf s pa) (·.2) / 65536) 0 32

/-- The name of the oldest ready record of a region, or 0. -/
def oldestName (s : State) (pa : Nat) : Nat :=
  match oldest s pa with
  | some r => r.name.toNat
  | none => 0

/-- What is resident in a region and pending for it. -/
def residentWord (s : State) (pa : Nat) : Nat :=
  bits (usedReg s pa) 0 16 + 2 ^ 16 * bits (usedVlt s pa) 0 16 + 2 ^ 32 * bits (usedGal s pa) 0 16 +
    2 ^ 48 * bits (pendOf s pa) 0 16

theorem syncRegion_eq (s : State) (pa : Nat) : syncRegion s pa =
    putRcb (putRcb (putRcb (putRcb s pa 0xC0 (residentWord s pa)) pa 0xC8 (bits (usedTok s pa) 0 16)) pa 0xD0
      (oldestName s pa)) pa 0xD8 (poolWord s pa) := by
  simp only [syncRegion, regionWords, List.foldl_cons, List.foldl_nil, residentWord, oldestName, poolWord] <;>
    rfl

/-- A region block is brought up to date: three of its words, and the bytes outside of all four. -/
theorem syncRegion_words (h : Silent s) {b : Nat} (hrom : ∀ k, k < 256 → inRom s (b + k) = false) :
    readNat (syncRegion s b) (b + 0xC0) 8 = residentWord s b ∧
    readNat (syncRegion s b) (b + 0xC8) 8 = bits (usedTok s b) 0 16 ∧
    readNat (syncRegion s b) (b + 0xD0) 8 = oldestName s b ∧
    ∀ a, a < b + 0xC0 ∨ b + 0xE0 ≤ a → readByte (syncRegion s b) a = readByte s a := by
  have hname : oldestName s b < 2 ^ 64 := by
    unfold oldestName
    split
    · exact BitVec.isLt _
    · norm_num
  have h1 := bits_lt (usedReg s b) 0 16
  have h2 := bits_lt (usedVlt s b) 0 16
  have h3 := bits_lt (usedGal s b) 0 16
  have h4 := bits_lt (pendOf s b) 0 16
  have h5 := bits_lt (usedTok s b) 0 16
  have hres : residentWord s b < 2 ^ 64 := by unfold residentWord; omega
  rw [syncRegion_eq]
  generalize residentWord s b = x0 at hres ⊢
  generalize bits (usedTok s b) 0 16 = x1 at h5 ⊢
  generalize oldestName s b = x2 at hname ⊢
  generalize poolWord s b = x3
  have p0 := poked_putRcb h b 0xC0 x0
  have k0 := h.poked p0
  have p1 := poked_putRcb k0 b 0xC8 x1
  have k1 := k0.poked p1
  have p2 := poked_putRcb k1 b 0xD0 x2
  have k2 := k1.poked p2
  have rom {u : State} (p : Poked s u) (off : Nat) (ho : off + 8 ≤ 256) (k : Nat) (hk : k < 8) :
      inRom u (b + off + k) = false := by
    rw [p.inRom, Nat.add_assoc]
    exact hrom _ (by omega)
  refine ⟨?_, ?_, ?_, fun a ha => ?_⟩
  · rw [readNat_putRcb_apart k2 (by omega), readNat_putRcb_apart k1 (by omega), readNat_putRcb_apart k0 (by omega),
      readNat_putRcb_same h (rom (.refl s) _ (by omega)) hres]
  · rw [readNat_putRcb_apart k2 (by omega), readNat_putRcb_apart k1 (by omega),
      readNat_putRcb_same k0 (rom p0 _ (by omega)) (by omega)]
  · rw [readNat_putRcb_apart k2 (by omega), readNat_putRcb_same k1 (rom (p0.trans p1) _ (by omega)) hname]
  · rw [readByte_putRcb_apart k2 (by omega), readByte_putRcb_apart k1 (by omega), readByte_putRcb_apart k0 (by omega),
      readByte_putRcb_apart h (by omega)]

/-! ### What the words count -/

theorem total_eq_sum {α : Type} (l : List α) (f : α → Nat) : total l f = (l.map f).sum := by
  have from_ (a : Nat) : l.foldl (fun a x => a + f x) a = a + (l.map f).sum := by
    induction l generalizing a with
    | nil => rfl
    | cons x l ih => rw [List.foldl_cons, ih, List.map_cons, List.sum_cons, Nat.add_assoc]
  rw [total, from_, Nat.zero_add]

theorem under_eq (s : State) (pa : Nat) :
    under s pa = s.allGals.filter fun g => g.rcd.path != [] && g.rcd.path.contains pa := by
  simp only [under, residents, List.filter_filter, Bool.and_comm]

theorem usedTok_eq (s : State) (pa : Nat) : usedTok s pa =
    (((s.allGals.filter fun g => g.rcd.path != [] && g.rcd.path.contains pa) ++
      (s.saved.map (·.gal)).filter fun g => g.rcd.path.contains pa).map (·.rcd.mtok)).sum := by
  rw [usedTok, total_eq_sum, unretired, List.filter_append, ← under_eq]
  rfl

/-- The earliest of some records is one of them, and none was enqueued before it. -/
theorem earliest_some {l : List Record} {r : Record} (h : earliest l = some r) :
    r ∈ l ∧ ∀ q ∈ l, r.arrival ≤ q.arrival := by
  induction l generalizing r with
  | nil => cases h
  | cons a l ih =>
    rw [earliest] at h
    split at h
    · next he =>
      cases h
      cases l with
      | nil => simp
      | cons b l =>
        rw [earliest] at he
        split at he
        · cases he
        · split at he <;> cases he
    · next q he =>
      obtain ⟨hq, hmin⟩ := ih he
      split at h
      · next hle =>
        cases h
        exact ⟨List.mem_cons_self .., List.forall_mem_cons.2 ⟨le_rfl, fun x hx => hle.trans (hmin x hx)⟩⟩
      · next hlt =>
        cases h
        exact ⟨List.mem_cons_of_mem _ hq, List.forall_mem_cons.2 ⟨by omega, hmin⟩⟩

theorem earliest_none {l : List Record} (h : earliest l = none) : l = [] := by
  cases l with
  | nil => rfl
  | cons a l =>
    rw [earliest] at h
    split at h
    · cases h
    · split at h <;> cases h

/-- A ready record of a region of its own, and not of a region below. -/
def readyOf (b : Nat) (r : Record) : Prop := r.block = b ∧ r.path ≠ [] ∧ r.ready.isSome = true

theorem mem_oldestOf (s : State) (b : Nat) (r : Record) :
    r ∈ (unplaced s).filter (fun r => r.block == b && r.path != [] && r.ready.isSome) ↔
      r ∈ (unplaced s).filter (fun r => r.path.contains b) ∧ readyOf b r := by
  simp only [List.mem_filter, Bool.and_eq_true, beq_iff_eq, bne_iff_ne, readyOf, List.contains_iff_mem, and_assoc]
  refine and_congr_right fun _ => ⟨fun h => ⟨?_, h⟩, fun h => h.2⟩
  obtain ⟨hb, hp, -⟩ := h
  cases e : r.path with
  | nil => exact absurd e hp
  | cons x l => simp [← hb, Record.block, e]

theorem oldestName_of_first {s : State} {b : Nat} {r : Record} (hr : r ∈ (unplaced s).filter (fun r => r.path.contains b))
    (hb : readyOf b r)
    (hf : ∀ q ∈ (unplaced s).filter (fun r => r.path.contains b), readyOf b q → q ≠ r → r.arrival < q.arrival) :
    oldestName s b = r.name.toNat := by
  have hin := (mem_oldestOf s b r).2 ⟨hr, hb⟩
  unfold oldestName oldest
  split
  · next q hq =>
    obtain ⟨hmem, hmin⟩ := earliest_some hq
    obtain ⟨hqw, hqb⟩ := (mem_oldestOf s b q).1 hmem
    have : q = r := by
      by_contra hne
      exact absurd (hf q hqw hqb hne) (not_lt.2 (hmin r hin))
    rw [this]
  · next hq =>
    rw [earliest_none hq] at hin
    cases hin

theorem oldestName_of_none {s : State} {b : Nat}
    (h : ∀ r ∈ (unplaced s).filter (fun r => r.path.contains b), r.block = b → r.ready = none) : oldestName s b = 0 := by
  unfold oldestName oldest
  split
  · next q hq =>
    obtain ⟨hqw, hqb, -, hqr⟩ := (mem_oldestOf s b q).1 (earliest_some hq).1
    rw [h q hqw hqb] at hqr
    cases hqr
  · rfl

/-- The fields of the first word (R145). -/
theorem residentWord_fields (s : State) (b : Nat) :
    bits (residentWord s b) 0 16 = usedReg s b % 2 ^ 16 ∧ bits (residentWord s b) 16 16 = usedVlt s b % 2 ^ 16 ∧
    bits (residentWord s b) 32 16 = usedGal s b % 2 ^ 16 ∧ bits (residentWord s b) 48 16 = pendOf s b % 2 ^ 16 := by
  simp only [bits, residentWord]
  omega

/-! ### The end of a context move (R318, R319) -/

section
variable {j : CtxJob} (h : Silent s) (hj : j.uid = s.c.uid) (hm : s.c.status = .moving)
include h hj hm

theorem finishJob_eq (status : Nat) : finishJob s j status =
    { performNat (performNat { s with ctx := s.ctx.filter (· != j) } (j.block + 0x10) 8 status) (j.block + 0x18) 8
        (s.timens - j.start).toNat with c := s.c.past } := by
  have h0 : Silent { s with ctx := s.ctx.filter (· != j) } := ⟨h.still.update (List.Subset.refl _), h.redq⟩
  have p0 := poked_performNat h0 (j.block + 0x10) 8 status
  have p1 := poked_performNat (h0.poked p0) (j.block + 0x18) 8 (s.timens - j.start).toNat
  have hc := (p0.trans p1).told.same State.c
  unfold finishJob State.onCrew
  dsimp only
  rw [hc, if_pos hj.symm, if_pos hm]

theorem finishJob_silent (hrom : ∀ k, k < 16 → inRom s (j.block + 0x10 + k) = false) (status : Nat) :
    let t := finishJob s j status
    WordEnded s.c t.c ∧ readNat t (j.block + 0x10) 8 = status % 2 ^ 64 ∧
    readNat t (j.block + 0x18) 8 = (s.timens - j.start).toNat ∧
    (∀ a, a < j.block + 0x10 ∨ j.block + 0x20 ≤ a → readByte t a = readByte s a) ∧ t.ctx = s.ctx.filter (· != j) ∧
    t = { s with c := s.c.withEnd t.c, ctx := t.ctx, mem := t.mem, poison := t.poison } := by
  intro t
  have ht : t = _ := finishJob_eq h hj hm status
  have h0 : Silent { s with ctx := s.ctx.filter (· != j) } := ⟨h.still.update (List.Subset.refl _), h.redq⟩
  have p0 := poked_performNat h0 (j.block + 0x10) 8 status
  have h1 := h0.poked p0
  have p1 := poked_performNat h1 (j.block + 0x18) 8 (s.timens - j.start).toNat
  have rom (k : Nat) (hk : k < 8) : inRom s (j.block + 0x18 + k) = false := by
    have := hrom (8 + k) (by omega)
    rwa [← Nat.add_assoc] at this
  have bytes (a : Nat) : readByte t a = readByte (performNat (performNat { s with ctx := s.ctx.filter (· != j) }
      (j.block + 0x10) 8 status) (j.block + 0x18) 8 (s.timens - j.start).toNat) a := by
    rw [ht]
    rfl
  refine ⟨?_, ?_, ?_, fun a ha => ?_, ?_, ?_⟩
  · rw [ht]
    exact wordEnded_past s.c
  · rw [readNat_congr fun k _ => bytes _, readNat_performNat_apart h1 (by omega),
      readNat_performNat_same h0 fun k hk => hrom k (by omega)]
  · rw [readNat_congr fun k _ => bytes _,
      readNat_performNat_same h1 fun k hk => (p0.inRom _).trans (rom k hk)]
    exact Nat.mod_eq_of_lt (BitVec.isLt _)
  · rw [bytes, readByte_performNat_apart h1 (by omega), readByte_performNat_apart h0 (by omega)]
    rfl
  · rw [ht]
    exact (p0.trans p1).told.same State.ctx
  · have p := p0.trans p1
    rw [ht]
    generalize performNat (performNat { s with ctx := s.ctx.filter (· != j) } (j.block + 0x10) 8 status) (j.block + 0x18) 8
      (s.timens - j.start).toNat = u at p
    rw [p]
    rfl

end

end Sys2Proof.Proofs
end
section
/-!
PROOFS. Events of the distributor and of context moves: trap entry after a drain, the launch of gangs, the completion of a
gallery, teardown and its grace, and what `CTXSAVE` and `CTXLOAD` come to (R151 to R153, R288, R299, R306, R319).
-/

namespace Sys2Proof.Proofs
open Sys2Proof Sys2Proof.Machine

set_option Elab.async false

variable {s : State}

/-! ### Trap entry (R288, R291) -/

theorem uid_drain (s : State) : (drain s).c.uid = s.c.uid := ((kept_drain (.refl True s)).named trivial).uid

theorem uid_enterTrap (s : State) (q : TrapReq) : (enterTrap s q).c.uid = s.c.uid :=
  ((kept_enterTrap q (.refl True s)).named trivial).uid

/-- A crew that drains enters its handler once it has. -/
def enterDrained (s : State) : State :=
  match s.c.status with
  | .draining t => if drained (drain s) then enterTrap (drain s) t else drain s
  | _ => s

theorem exec_trapEntry (uid : Nat) (s : State) : exec (.trapEntry uid) s = .next (inFocus s uid enterDrained) := rfl

theorem enterDrained_of_draining {q : TrapReq} (h : s.c.status = .draining q) :
    enterDrained s = if drained (drain s) then enterTrap (drain s) q else drain s := by
  rw [enterDrained, h]

theorem exec_trapEntry_focus {q : TrapReq} (h : s.c.status = .draining q) : exec (.trapEntry s.c.uid) s =
    .next (if drained (drain s) then enterTrap (drain s) q else drain s) := by
  rw [exec_trapEntry, inFocus_self, enterDrained_of_draining h]
  rw [enterDrained_of_draining h]
  split
  · rw [uid_enterTrap, uid_drain]
  · rw [uid_drain]

theorem takeTrap_drained (hd : drained (drain s) = true) (hb : s.c.bank = false) (q : TrapReq) :
    takeTrap s q = enterTrap (drain s) q := by
  rw [takeTrap, hb, if_neg Bool.false_ne_true]
  exact if_pos hd

/-! ### Teardown (R306) -/

theorem exec_teardown {part : BitVec 2} {region : BitVec 64} {asn : BitVec 16} {p : Place}
    (h : translate s part.toNat asn.toNat false false ⟨false, false, false⟩ region.toNat = .ok p) :
    ∃ u, exec (.teardown part region asn) s = .next (tearOne u part.toNat p.pa) :=
  ⟨if bit (readNat s (p.pa + 0x88) 8) 2 then s else performNat s (p.pa + 0x88) 8 (readNat s (p.pa + 0x88) 8 + 4), by
    change execTeardown part region asn s = _
    rw [execTeardown, h]⟩

/-- A region that is torn down is listed. -/
theorem tearOne_listed (s : State) (part block : Nat) :
    ∃ x ∈ (tearOne s part block).tears, x.part = part ∧ x.region = w64 block := by
  obtain ⟨q, hq, -, -, -, -, -, hx⟩ := tearOne_calm s part block
  rwa [hq.tears trivial]

theorem mem_dropForming (l : List Gang) (gone : Record → Bool) (r : Record) :
    r ∈ (((l.map fun f => { f with records := f.records.filter fun r => !gone r }).filter fun f =>
      f.records != []).map (·.records)).flatten ↔ r ∈ (l.map (·.records)).flatten ∧ gone r = false := by
  simp only [List.mem_flatten, List.mem_map, List.mem_filter, bne_iff_ne, ne_eq]
  constructor
  · rintro ⟨_, ⟨f, ⟨⟨f0, hf0, rfl⟩, -⟩, rfl⟩, hr⟩
    obtain ⟨hr, hg⟩ := List.mem_filter.1 hr
    exact ⟨⟨_, ⟨f0, hf0, rfl⟩, hr⟩, by simpa using hg⟩
  · rintro ⟨⟨_, ⟨f0, hf0, rfl⟩, hr⟩, hg⟩
    have hin : r ∈ f0.records.filter fun r => !gone r := List.mem_filter.2 ⟨hr, by simp [hg]⟩
    exact ⟨_, ⟨_, ⟨⟨f0, hf0, rfl⟩, List.ne_nil_of_mem hin⟩, rfl⟩, hin⟩

theorem mem_dropRecords (s : State) (gone : Record → Bool) (r : Record) :
    r ∈ (dropUnplaced s gone).records ↔ r ∈ s.records ∧ gone r = false := by
  simp [dropUnplaced]

/-- PEND of a block has fallen where a record below it is dropped; spawns parked on it are tried again (R165, R306). -/
theorem mem_pendFell (s : State) (gone : Record → Bool) (b : Nat) : b ∈ (dropUnplaced s gone).pendFell ↔
    b ∈ s.pendFell ∨ ((∃ r ∈ unplaced s, gone r = true ∧ b ∈ r.path) ∧ ∃ w ∈ s.spawnq, b ∈ w.path) := by
  simp only [dropUnplaced, List.mem_append, List.mem_filter, List.mem_eraseDups, List.mem_flatMap, List.any_eq_true,
    List.contains_iff_mem, and_assoc]

theorem dropUnplaced_frame (s : State) (gone : Record → Bool) : dropUnplaced s gone =
    { s with records := (dropUnplaced s gone).records, forming := (dropUnplaced s gone).forming,
             pendFell := (dropUnplaced s gone).pendFell } := rfl

theorem tornBy_iff (x : Teardown) (r : Record) :
    tornBy x r = true ↔ r.part = x.part ∧ r.path ≠ [] ∧ w64 r.block = x.region := by
  simp [tornBy, and_assoc]

theorem tornBy_false_iff (x : Teardown) (r : Record) :
    tornBy x r = false ↔ ¬ (r.part = x.part ∧ r.path ≠ [] ∧ w64 r.block = x.region) := by
  rw [← tornBy_iff, Bool.not_eq_true]

theorem still_dropRecords (h : Still s) (x : Teardown) : Still (dropRecords s x) := h.update (List.Subset.refl _)

/-- The end of a teardown of which nothing is left. -/
def endTeardown (s : State) (x : Teardown) : State :=
  { syncPath (dropRecords s x) (tornPaths s x) with
    tears := s.tears.filter (· != x), regions := s.regions.filter fun r => !(r.1 == x.part && w64 r.2 == x.region) }

theorem exec_teardownGraceExpiry {old more : List Teardown} {x : Teardown} (h : s.tears = old ++ x :: more) :
    exec (.teardownGraceExpiry old.length) s = .next (
      if s.timens.toNat < x.ends || !((tornGals s x).all fun g => (s.allCrews.filter (·.gid == g.gid)).all (atStop s)) then s
      else
        let s1 := syncPath ((tornGals s x).foldl tearGallery (dropRecords s x)) (tornPaths s x)
        { s1 with
          tears := s1.tears.filter (· != x)
          regions := s1.regions.filter fun r => !(r.1 == x.part && w64 r.2 == x.region) }) := by
  have hx : s.tears[old.length]? = some x := by simp [h]
  change execTeardownGraceExpiry old.length s = _
  rw [execTeardownGraceExpiry, hx]

theorem teardownGraceExpiry_over {old more : List Teardown} {x : Teardown} (h : s.tears = old ++ x :: more)
    (hg : tornGals s x = []) (he : x.ends ≤ s.timens.toNat) :
    exec (.teardownGraceExpiry old.length) s = .next (endTeardown s x) := by
  have c := calm_syncPath (tornPaths s x) (.refl True (dropRecords s x))
  rw [exec_teardownGraceExpiry h, hg, if_neg (by simpa using he)]
  simp only [List.foldl_nil, c.tears trivial, c.regions]
  rfl

theorem teardownGraceExpiry_early {old more : List Teardown} {x : Teardown} (h : s.tears = old ++ x :: more)
    (he : s.timens.toNat < x.ends) : exec (.teardownGraceExpiry old.length) s = .next s := by
  rw [exec_teardownGraceExpiry h, if_pos (by simp [he])]

theorem endTeardown_records (h : Still s) (x : Teardown) : (endTeardown s x).records = (dropRecords s x).records :=
  (told_syncPath (still_dropRecords h x) _).same State.records

theorem endTeardown_forming (s : State) (x : Teardown) : (endTeardown s x).forming = (dropRecords s x).forming :=
  (calm_syncPath (tornPaths s x) (.refl True (dropRecords s x))).forming trivial

/-! ### Completion (R152, R153) -/

theorem exec_recordCompletion {g : Gallery} (h : s.gal? g.gid = some g) :
    exec (.recordCompletion g.gid) s = .next (if completable s g then completeGallery s g else s) := by
  change execRecordCompletion g.gid s = _
  rw [execRecordCompletion, h]

/-! ### Context moves (R299, R304, R319) -/

theorem exec_contextSaveDone (s : State) :
    exec .contextSaveDone s = .next (s.ctx.foldl (fun s j => if j.load then loadJob s j else saveJob s j) s) := rfl

theorem exec_contextSaveDone_one {j : CtxJob} (h : s.ctx = [j]) :
    exec .contextSaveDone s = .next (if j.load then loadJob s j else saveJob s j) := by
  rw [exec_contextSaveDone, h]
  rfl

theorem saveLost_iff (s : State) (g : Gallery) (c : Crew) : saveLost s g c = true ↔
    c.save ≠ 0 ∧ ∃ off ∈ [0, 4096], ∃ p, regionXlate s g.rcd ⟨false, false, false⟩ (c.save.toNat + off) = .ok p ∧
      poisoned s false p.pa 4096 = true := by
  simp only [saveLost, Bool.and_eq_true, bne_iff_ne, List.any_eq_true]
  refine and_congr_right fun _ => exists_congr fun off => and_congr_right fun _ => ?_
  cases regionXlate s g.rcd ⟨false, false, false⟩ (c.save.toNat + off) with
  | error e => simp
  | ok p => simp

theorem contextLost_iff (s : State) (v : SavedContext) : contextLost s v = true ↔ v.lost = true ∨
    (∃ pa ∈ v.pages, poisoned s false pa 4096 = true) ∨ ∃ k ∈ v.crews, saveLost s v.gal k = true := by
  simp only [contextLost, Bool.or_eq_true, List.any_eq_true, or_assoc]

theorem targetOk_iff (s : State) (g : Gallery) (target : Nat) : targetOk s g target = true ↔
    target < 384 ∧ target % 96 ≠ 0 ∧ partOfDie s (target / 96) = g.rcd.part := by
  simp [targetOk, dieOfCore, and_assoc]

theorem gallerySettled_iff (s : State) (gid : Nat) : gallerySettled s gid = true ↔
    (∀ k ∈ s.allCrews, k.gid = gid → atStop s k = true) ∧
    (∀ h ∈ s.hoist, isOf s gid h.uid = true → h.flight = [] ∧
      ¬ (h.begun = true ∧ h.waits = none ∧ h.stopped = false ∧ h.total ≤ h.next)) ∧
    ∀ m ∈ s.mx, isOf s gid m.uid = true → m.running = [] := by
  have imp (a b : Bool) : (!a || b) = true ↔ (a = true → b = true) := by cases a <;> simp
  simp only [gallerySettled, Bool.and_eq_true, List.all_eq_true, List.mem_filter, imp, beq_iff_eq, and_imp, and_assoc]
  refine and_congr_right fun _ => and_congr_left fun _ => forall₃_congr fun h _ _ => and_congr_right fun _ => ?_
  simp only [Bool.not_eq_true', ← Bool.not_eq_true, Bool.and_eq_true, decide_eq_true_eq, Option.isNone_iff_eq_none,
    and_assoc]

end Sys2Proof.Proofs
end
section
/-!
PROOFS. The steps of a completion (R153, R304, R324).
-/

namespace Sys2Proof.Proofs
open Sys2Proof Sys2Proof.Machine

set_option Elab.async false

variable {s u : State} {g : Gallery} {r : Record} {cell n : Nat}

/-! ### Cells (R153, R167) -/

/-- The count of a dependency cell falls: at 0 the cell gives up its name, below 0 it cannot fall. -/
theorem decCell_dep (h : readNat s cell 8 = n) (core pos : Nat) : decCell s cell true core pos =
    if n = 0 then none
    else if n = 1 then some (release (performGlobal s cell (toBytes 8 0 ++ toBytes 8 0)) cell
      (w64 (readNat s (cell + 8) 8)) core pos)
    else some (performNat s cell 8 (n - 1)) := by
  simp only [decCell, h, Bool.true_and, beq_iff_eq]

theorem decCell_plain (h : readNat s cell 8 = n) (core pos : Nat) : decCell s cell false core pos =
    if n = 0 then none else some (performNat s cell 8 (n - 1)) := by
  simp only [decCell, h, Bool.false_and, Bool.false_eq_true, if_false]

theorem cellAt_zero (s : State) (r : Record) : cellAt s r 0 = none := rfl

theorem cellAt_ne_zero {a : Word} (h : cellAt s r a = some cell) : a ≠ 0 := by
  rintro rfl
  cases h

theorem cellSpoiled_plain (s : State) (pa : Nat) : cellSpoiled s pa false = poisoned s false pa 8 := by
  simp [cellSpoiled]

theorem cellSpoiled_dep (h : readNat s cell 8 = n) (hs : poisoned s false cell 8 = false)
    (h1 : n = 1 → poisoned s false (cell + 8) 8 = false) : cellSpoiled s cell true = false := by
  simp only [cellSpoiled, h, hs, Bool.true_and, Bool.false_or, Bool.and_eq_false_iff, beq_eq_false_iff_ne]
  exact (em (n = 1)).elim (fun e => .inr (h1 e)) .inl

/-! ### One decrement of a completion -/

theorem completeDec_zero (s : State) (g : Gallery) (r : Record) (pos : Nat) : completeDec s g r 0 pos = s := rfl

/-- The decrement at position 0 or 5, of a join cell or of a spawn-tree cell. -/
theorem completeDec_plain {a : Word} {pos : Nat} (hp : pos = 0 ∨ pos = 5) (hc : cellAt s r a = some cell)
    (h : readNat s cell 8 = n) : completeDec s g r a pos =
      if poisoned s false cell 8 = true then completionEcc s g r a pos
      else if n = 0 then underflow s g r a pos else performNat s cell 8 (n - 1) := by
  have hd : (decide (0 < pos) && decide (pos < 5)) = false := by rcases hp with rfl | rfl <;> rfl
  simp only [completeDec, hc, hd, cellSpoiled_plain, decCell_plain h]
  by_cases hn : n = 0 <;> simp [hn]

/-- The decrement of a successor's dependency cell. -/
theorem completeDec_dep {a : Word} {pos : Nat} (hp : 0 < pos ∧ pos < 5) (hc : cellAt s r a = some cell)
    (h : readNat s cell 8 = n) (hn : n ≠ 0) (hs : cellSpoiled s cell true = false) : completeDec s g r a pos =
      if n = 1 then release (performGlobal s cell (toBytes 8 0 ++ toBytes 8 0)) cell
        (w64 (readNat s (cell + 8) 8)) g.core pos
      else performNat s cell 8 (n - 1) := by
  have hd : (decide (0 < pos) && decide (pos < 5)) = true := by simp [hp]
  simp only [completeDec, hc, hd, hs, decCell_dep h, if_neg hn, Bool.false_eq_true, if_false]
  by_cases h1 : n = 1 <;> simp [h1]

/-! ### Successors -/

theorem completeSuccs_spoiled {p : Place} {m i : Nat} (hx : regionXlate s r needR (r.succ.toNat + 8 * (i - 1)) = .ok p)
    (hs : poisoned s false p.pa 8 = true) :
    completeSuccs g r (m + 1) i s = completionEcc s g r (r.succ + w64 (8 * (i - 1))) i := by
  simp only [completeSuccs, hx, hs, if_true]

theorem completeSuccs_end {p : Place} {m i : Nat} (hx : regionXlate s r needR (r.succ.toNat + 8 * (i - 1)) = .ok p)
    (hs : poisoned s false p.pa 8 = false) (h : readNat s p.pa 8 = 0) : completeSuccs g r (m + 1) i s = s := by
  simp only [completeSuccs, hx, hs, h]
  rfl

theorem completeSuccs_step {p : Place} {m i : Nat} (hx : regionXlate s r needR (r.succ.toNat + 8 * (i - 1)) = .ok p)
    (hs : poisoned s false p.pa 8 = false) (ha : w64 (readNat s p.pa 8) ≠ 0) : completeSuccs g r (m + 1) i s =
      completeSuccs g r m (i + 1) (completeDec s g r (w64 (readNat s p.pa 8)) i) := by
  simp only [completeSuccs, hx, hs, if_neg ha, Bool.false_eq_true, if_false]

/-! ### The completion of a record -/

theorem completeRecord_join (hs : r.succ = 0) (ht : r.tree = 0) :
    completeRecord s g r = completeDec s g r r.join 0 := by
  simp only [completeRecord, hs, ht, if_true, completeDec_zero, cellAt_zero]

theorem completeRecord_succs (hj : r.join = 0) (ht : r.tree = 0) (hs : r.succ ≠ 0) :
    completeRecord s g r = completeSuccs g r 4 1 s := by
  simp only [completeRecord, hj, ht, if_neg hs, completeDec_zero, cellAt_zero]

/-- The spawn-tree cell is decremented, and its completion word written where it falls to 0. -/
theorem completeRecord_tree (hs : r.succ = 0) (hj : r.join = 0) (hc : cellAt s r r.tree = some cell)
    (h : readNat s cell 8 = n) (hp : poisoned s false cell 8 = false) (hn : n ≠ 0)
    (hu : u = performNat s cell 8 (n - 1)) (hcu : cellAt u r r.tree = some cell) (hnu : readNat u cell 8 = n - 1)
    (hpu : poisoned u false cell 8 = false) :
    completeRecord s g r = if n = 1 then performNat u (cell + 8) 8 1 else u := by
  have hd : completeDec s g r r.tree 5 = u := by
    rw [completeDec_plain (.inr rfl) hc h, hp, if_neg Bool.false_ne_true, if_neg hn, hu]
  have h1 : n - 1 = 0 ↔ n = 1 := by omega
  simp only [completeRecord, hs, hj, if_true, completeDec_zero, hd, hcu, hnu, hpu, Bool.not_false, Bool.and_true,
    decide_eq_true_eq, h1]

theorem completeRecord_first (hj : r.join = 0) (ht : r.tree = 0) (hs : r.succ ≠ 0) {p : Place}
    (hx : regionXlate s r needR r.succ.toNat = .ok p) (hp : poisoned s false p.pa 8 = true) :
    completeRecord s g r = completionEcc s g r r.succ 1 := by
  have z : r.succ + w64 (8 * (1 - 1)) = r.succ := BitVec.add_zero _
  rw [completeRecord_succs hj ht hs, completeSuccs_spoiled hx hp, z]

theorem completeRecord_one (hj : r.join = 0) (ht : r.tree = 0) (hs : r.succ ≠ 0) {p q : Place}
    (hx : regionXlate s r needR r.succ.toNat = .ok p) (hp : poisoned s false p.pa 8 = false)
    (hc : cellAt s r (w64 (readNat s p.pa 8)) = some cell) (h : readNat s cell 8 = n) (hn : n ≠ 0)
    (hd : cellSpoiled s cell true = false)
    (hu : u = (if n = 1 then release (performGlobal s cell (toBytes 8 0 ++ toBytes 8 0)) cell
      (w64 (readNat s (cell + 8) 8)) g.core 1 else performNat s cell 8 (n - 1)))
    (hy : regionXlate u r needR (r.succ.toNat + 8) = .ok q) (hq : poisoned u false q.pa 8 = false)
    (hz : readNat u q.pa 8 = 0) : completeRecord s g r = u := by
  have e : completeDec s g r (w64 (readNat s p.pa 8)) 1 = u := by
    rw [completeDec_dep ⟨by omega, by omega⟩ hc h hn hd, hu]
  rw [completeRecord_succs hj ht hs, completeSuccs_step hx hp (cellAt_ne_zero hc), e]
  exact completeSuccs_end hy hq hz

end Sys2Proof.Proofs
end
section
/-!
PROOFS. What a context move comes to: the cases of a save and of a restore (R299, R319; logs 39 and 46).
-/

namespace Sys2Proof.Proofs
open Sys2Proof Sys2Proof.Machine

set_option Elab.async false

variable {s : State} {j : CtxJob}

/-- The galleries that a move names. -/
def jobGals (s : State) (j : CtxJob) : List Gallery := s.allGals.filter (jobNames s j)

/-- The state in which every gallery that a move names is drained. -/
def jobDrained (s : State) (j : CtxJob) : State := (jobGals s j).foldl (fun s g => drainGallery s g.gid) s

theorem jobGals_eq (hl : j.load = false) : jobGals s j = s.allGals.filter fun g => g.rcd.path != [] &&
    if j.mode = 1 then g.rcd.part == partOfDie s (dieOfCore j.core) else g.core == j.core && g.slot == j.gslot := by
  unfold jobGals
  congr 1
  funext g
  rw [jobNames, hl]
  rfl

theorem jobDrained_eq (hl : j.load = false) : jobDrained s j = (s.allGals.filter fun g => g.rcd.path != [] &&
    if j.mode = 1 then g.rcd.part == partOfDie s (dieOfCore j.core) else g.core == j.core && g.slot == j.gslot).foldl
      (fun s g => drainGallery s g.gid) s := by
  rw [jobDrained, jobGals_eq hl]

theorem shadows_ne_nil (s : State) (part : Nat) : shadows s part ≠ [] ↔ ∃ v ∈ s.saved, v.image = none ∧ v.part = part := by
  simp [shadows, List.filter_eq_nil_iff]

/-! ### A save -/

/-- What a save does once all that it names has stopped and drained. -/
def saveMoved (s : State) (j : CtxJob) : State :=
  if j.mode = 1 then finishJob ((jobGals s j).foldl saveShadow (jobDrained s j)) j 0
  else
    match ((jobGals s j).head?).bind fun g => (jobDrained s j).gal? g.gid with
    | none => finishJob (jobDrained s j) j 1
    | some g =>
      if j.mode = 0 then saveToImage (jobDrained s j) j g
      else
        let target := bits j.dest.toNat 0 9
        if !targetOk (jobDrained s j) g target then finishJob (jobDrained s j) j 2
        else
          match migrate (jobDrained s j) g target with
          | none => finishJob (jobDrained s j) j 4
          | some s2 => finishJob s2 j 0

theorem saveJob_eq (s : State) (j : CtxJob) : saveJob s j =
    if j.mode = 3 || dieOfCore j.core ≠ jobDie s j then finishJob s j 2
    else if jobGals s j = [] then finishJob s j (if j.mode = 1 then 0 else 1)
    else if j.mode = 1 && shadows s (partOfDie s (dieOfCore j.core)) != [] then finishJob s j 2
    else if !(jobGals s j).all (fun g => gallerySettled s g.gid) then s
    else if !(jobGals s j).all (fun g => galleryDrained (jobDrained s j) g.gid) then jobDrained s j
    else saveMoved s j := rfl

theorem saveJob_refused (h : j.mode = 3 ∨ dieOfCore j.core ≠ jobDie s j) : saveJob s j = finishJob s j 2 := by
  rw [saveJob_eq, if_pos (by simpa using h)]

section
variable (hm : j.mode ≠ 3) (hd : dieOfCore j.core = jobDie s j)
include hm hd

theorem saveJob_none (hg : jobGals s j = []) : saveJob s j = finishJob s j (if j.mode = 1 then 0 else 1) := by
  rw [saveJob_eq, if_neg (by simpa [hd] using hm), if_pos hg]

variable (hg : jobGals s j ≠ [])
include hg

theorem saveJob_shadowed (h1 : j.mode = 1) (hs : shadows s (partOfDie s (dieOfCore j.core)) ≠ []) :
    saveJob s j = finishJob s j 2 := by
  rw [saveJob_eq, if_neg (by simpa [hd] using hm), if_neg hg, if_pos (by simp [h1, hs])]

variable (hs : j.mode = 1 → ¬ shadows s (partOfDie s (dieOfCore j.core)) ≠ [])
include hs

theorem saveJob_ready : saveJob s j =
    if !(jobGals s j).all (fun g => gallerySettled s g.gid) then s
    else if !(jobGals s j).all (fun g => galleryDrained (jobDrained s j) g.gid) then jobDrained s j
    else saveMoved s j := by
  rw [saveJob_eq, if_neg (by simpa [hd] using hm), if_neg hg, if_neg (by simpa using hs)]

theorem saveJob_unsettled (h : ∃ g ∈ jobGals s j, gallerySettled s g.gid = false) : saveJob s j = s := by
  rw [saveJob_ready hm hd hg hs, if_pos (by simpa using h)]

variable (h : ∀ g ∈ jobGals s j, gallerySettled s g.gid = true)
include h

theorem saveJob_undrained (k : ∃ g ∈ jobGals s j, galleryDrained (jobDrained s j) g.gid = false) :
    saveJob s j = jobDrained s j := by
  rw [saveJob_ready hm hd hg hs, if_neg (by simpa using h), if_pos (by simpa using k)]

theorem saveJob_drained (k : ∀ g ∈ jobGals s j, galleryDrained (jobDrained s j) g.gid = true) :
    saveJob s j = saveMoved s j := by
  rw [saveJob_ready hm hd hg hs, if_neg (by simpa using h), if_neg (by simpa using k)]

end

theorem saveMoved_shadow (h : j.mode = 1) :
    saveMoved s j = finishJob ((jobGals s j).foldl saveShadow (jobDrained s j)) j 0 := if_pos h

section
variable {g h : Gallery} {rest : List Gallery} (hgs : jobGals s j = h :: rest)
  (hg : (jobDrained s j).gal? h.gid = some g)
include hgs hg

theorem saveMoved_one (h1 : j.mode ≠ 1) : saveMoved s j =
    if j.mode = 0 then saveToImage (jobDrained s j) j g
    else if !targetOk (jobDrained s j) g (j.dest.toNat % 512) then finishJob (jobDrained s j) j 2
    else match migrate (jobDrained s j) g (j.dest.toNat % 512) with
      | none => finishJob (jobDrained s j) j 4
      | some s2 => finishJob s2 j 0 := by
  have hb : bits j.dest.toNat 0 9 = j.dest.toNat % 512 := by simp [bits]
  have hfind : ((jobGals s j).head?).bind (fun g => (jobDrained s j).gal? g.gid) = some g := by
    rw [hgs]
    exact hg
  simp only [saveMoved, if_neg h1, hfind, hb]

theorem saveMoved_image (h0 : j.mode = 0) : saveMoved s j = saveToImage (jobDrained s j) j g := by
  rw [saveMoved_one hgs hg (by rw [h0]; decide), if_pos h0]

theorem saveMoved_migrate (h2 : j.mode = 2) : saveMoved s j =
    if !targetOk (jobDrained s j) g (j.dest.toNat % 512) then finishJob (jobDrained s j) j 2
    else match migrate (jobDrained s j) g (j.dest.toNat % 512) with
      | none => finishJob (jobDrained s j) j 4
      | some s2 => finishJob s2 j 0 := by
  rw [saveMoved_one hgs hg (by rw [h2]; decide), if_neg (by rw [h2]; decide)]

end

/-- A gallery with a token, an admitted command or a ring cannot be saved to an image (R319). -/
def HoldsWork (s : State) (g : Gallery) : Prop :=
  (∃ t ∈ s.tokens, ∃ u, t.holder = some u ∧ isOf s g.gid u = true) ∨ (∃ m ∈ s.mx, isOf s g.gid m.uid = true) ∨
    ∃ e ∈ s.rings, isOf s g.gid e.uid = true

theorem saveToImage_test (s : State) (j : CtxJob) (g : Gallery) :
    ((s.tokens.any fun t => (t.holder.map (isOf s g.gid)).getD false) || (s.mx.any fun m => isOf s g.gid m.uid) ||
      (s.rings.any fun e => isOf s g.gid e.uid) || j.dest.toNat % 65536 != 0) = true ↔
      HoldsWork s g ∨ j.dest.toNat % 65536 ≠ 0 := by
  have hold (t : Token) : (t.holder.map (isOf s g.gid)).getD false = true ↔
      ∃ u, t.holder = some u ∧ isOf s g.gid u = true := by cases t.holder <;> simp
  simp only [Bool.or_eq_true, List.any_eq_true, bne_iff_ne, hold, HoldsWork, or_assoc]

theorem saveToImage_refused {g : Gallery} (h : HoldsWork s g ∨ j.dest.toNat % 65536 ≠ 0) :
    saveToImage s j g = finishJob s j 2 := if_pos ((saveToImage_test s j g).2 h)

theorem saveToImage_saved {g : Gallery} {l : List Nat} (h : ¬ (HoldsWork s g ∨ j.dest.toNat % 65536 ≠ 0))
    (hl : imagePages s (clientXlate (clientOf s j.uid)) j.dest.toNat (imageSize g / 4096) = some l) :
    saveToImage s j g = finishJob (saveImage (writeImage s l) g j.dest.toNat l false) j 0 := by
  refine (if_neg fun e => h ((saveToImage_test s j g).1 e)).trans ?_
  rw [hl]

/-! ### A restore -/

/-- The saved context that a restore of mode 0 names. -/
def namedContext (s : State) (j : CtxJob) (v : SavedContext) : Bool :=
  v.image.isSome && v.part == partOfDie s (dieOfCore j.core) && imageAt s j == some v.pa

theorem loadJob_refused (h : 2 ≤ j.mode.toNat ∨ dieOfCore j.core ≠ jobDie s j) : loadJob s j = finishJob s j 2 := by
  rw [loadJob]
  exact if_pos (by simpa using h)

section
variable (hd : dieOfCore j.core = jobDie s j)
include hd

theorem loadJob_shadows (h1 : j.mode = 1) : loadJob s j =
    if shadows s (partOfDie s (dieOfCore j.core)) = [] then finishJob s j 1
    else if (shadows s (partOfDie s (dieOfCore j.core))).filter (contextLost s) ≠ [] then
      finishJob (((shadows s (partOfDie s (dieOfCore j.core))).filter (contextLost s)).foldl loseContext s) j 3
    else match restoreAll (shadows s (partOfDie s (dieOfCore j.core))) s with
      | none => finishJob s j 4
      | some s1 => finishJob s1 j 0 := by
  rw [loadJob]
  exact (if_neg (by simp [h1, hd])).trans (if_pos h1)

theorem loadJob_image (h0 : j.mode = 0) : loadJob s j =
    match s.saved.find? (namedContext s j) with
    | none => finishJob s j 1
    | some v =>
      if contextLost s v then finishJob (loseContext s v) j 3
      else if j.core % 96 = 0 then finishJob s j 2
      else
        match fitsOn s v.gal.rcd j.core with
        | none => finishJob s j 4
        | some vbase =>
          finishJob (restoreImage (dropUnplaced s fun r => r.resume == some v.gal.gid) v j.core vbase) j 0 := by
  rw [loadJob]
  exact (if_neg (by simp [h0, hd])).trans (if_neg (by rw [h0]; decide))

end

end Sys2Proof.Proofs
end
section
/-!
PROOFS. Word 0 of the save record of the crew in focus brought up to date, and the retry of a parked spawn (R165, R231, R293).
-/

namespace Sys2Proof.Proofs
open Sys2Proof Sys2Proof.Machine

set_option Elab.async false

variable {s t : State}

theorem crew?_self (s : State) : s.crew? s.c.uid = some s.c := by simp [State.crew?, State.allCrews]

theorem gal?_self (s : State) : s.gal? s.g.gid = some s.g := by simp [State.gal?, State.allGals]

theorem putSave0_self (h : s.c.gid = s.g.gid) :
    putSave0 s s.c.uid = saveWrite s s.g s.c.save 0 (toBytes 8 (saveWord0 s s.c)) := by
  unfold putSave0
  simp only [crew?_self, h, gal?_self]

theorem saveWord0_lt (s : State) (c : Crew) : saveWord0 s c < 2 ^ 64 := by
  have hb (b : Bool) (k : Nat) : bitAt b k ≤ 2 ^ k := by cases b <;> simp [bitAt]
  have hk : pkind c.status ≤ 5 := by unfold pkind; split <;> omega
  have h5 := hb (pkind c.status != 0) 5
  have h4 := hb (s.records.any fun r => r.resume == some c.gid) 4
  have h3 := hb (isSaved s c.gid) 3
  have h0 := hb c.woken.isSome 0
  have hw := (c.woken.getD 0).isLt
  unfold saveWord0
  omega

/-! ### A record that does not move while it is written (R293; log 20) -/

/-- The first `n` bytes of a save record lie from `base` on, whatever they become. -/
def RecordStays (s : State) (g : Gallery) (save : Word) (base n : Nat) : Prop :=
  ∀ t, Poked s t → (∀ a, a < base ∨ base + n ≤ a → readByte t a = readByte s a) →
    ∀ k, k < n → savePlace t g save k = some (base + k)

variable {g : Gallery} {save : Word} {base n : Nat}

theorem recordStays_of_recordAt (h : RecordAt s base n) : RecordStays s s.g s.c.save base n := fun t ht ha k hk =>
  h.place t (by rw [Poked] at ht; rw [ht]) ha k hk

theorem RecordStays.place (h : RecordStays s g save base n) {k : Nat} (hk : k < n) :
    savePlace s g save k = some (base + k) := h s (.refl s) (fun _ _ => rfl) k hk

theorem RecordStays.poked (h : RecordStays s g save base n) (k : Poked s t)
    (hb : ∀ a, a < base ∨ base + n ≤ a → readByte t a = readByte s a) : RecordStays t g save base n :=
  fun u hu ha => h u (k.trans hu) fun a hn => (ha a hn).trans (hb a hn)

theorem poked_writeByte (s : State) (pa : Nat) (b : Byte) : Poked s (writeByte s pa b) := by
  rw [writeByte_mem]
  rfl

/-- Bytes written to such a record stand one after the other. -/
theorem savePut_eq (bs : List Byte) : ∀ {s : State} (off : Nat), RecordStays s g save base n → off + bs.length ≤ n →
    savePut s g save off bs = writeBytes s (base + off) bs := by
  induction bs with
  | nil => exact fun off _ _ => rfl
  | cons b bs ih =>
    intro s off h hn
    rw [List.length_cons] at hn
    have h1 : RecordStays (writeByte s (base + off) b) g save base n :=
      h.poked (poked_writeByte ..) fun a ha => by rw [readByte_writeByte, if_neg (by omega)]
    rw [savePut, h.place (by omega), writeBytes, Nat.add_assoc]
    exact ih _ h1 (by omega)

theorem poked_savePut (g : Gallery) (save : Word) (bs : List Byte) : ∀ (s : State) (off : Nat),
    Poked s (savePut s g save off bs) := by
  induction bs with
  | nil => exact fun s _ => .refl s
  | cons b bs ih =>
    intro s off
    unfold savePut
    refine Poked.trans ?_ (ih _ _)
    split
    · exact .refl s
    · exact poked_writeByte ..

theorem poked_saveMend (s : State) (g : Gallery) (save : Word) (off n : Nat) : Poked s (saveMend s g save off n) := by
  unfold saveMend
  split
  · exact .refl s
  · rfl

theorem readByte_saveMend (s : State) (g : Gallery) (save : Word) (off n a : Nat) :
    readByte (saveMend s g save off n) a = readByte s a := by
  unfold saveMend
  split <;> rfl

/-! ### A crew without a save record -/

theorem savePlace_zero (s : State) (g : Gallery) (off : Nat) : savePlace s g 0 off = none := rfl

theorem savePut_zero (s : State) (g : Gallery) (bs : List Byte) : ∀ off, savePut s g 0 off bs = s := by
  induction bs with
  | nil => exact fun _ => rfl
  | cons b bs ih => exact fun off => ih (off + 1)

theorem saveMend_zero (s : State) (g : Gallery) (off n : Nat) : saveMend s g 0 off n = s := by
  unfold saveMend
  split
  · rfl
  · have none_covers (w : Nat) : ((List.range (n / 8)).any fun i =>
        savePlace s g 0 (8 * ((off + 7) / 8) + 8 * i) == some (8 * w) &&
          decide (8 * ((off + 7) / 8) + 8 * i + 8 ≤ off + n)) = false := List.any_eq_false.2 fun i _ => nofun
    simp only [none_covers, Bool.not_false, Bool.or_true, List.filter_true]

theorem saveWrite_zero (s : State) (g : Gallery) (off : Nat) (bs : List Byte) : saveWrite s g 0 off bs = s := by
  have hl : ((List.range bs.length).filterMap fun i => (savePlace s g 0 (off + i)).map (· / 256)).eraseDups = [] := by
    simp only [savePlace_zero]
    simp [List.eraseDups]
  unfold saveWrite
  simp only [savePut_zero, saveMend_zero, hl]
  split
  · rfl
  · unfold relightAll
    split
    · rfl
    · rw [List.length_nil]
      cases lineBound s 0 <;> rfl

/-! ### Entries of the Lamproom that concern other crews (R231) -/

/-- The crew in focus is as it was, and no entry has come to the Lamproom. -/
structure Bystander (s t : State) : Prop where
  c : t.c = s.c
  lamps : t.lamps ⊆ s.lamps

theorem Bystander.refl (s : State) : Bystander s s := ⟨rfl, List.Subset.refl _⟩

theorem Bystander.trans {u : State} (h : Bystander s t) (k : Bystander t u) : Bystander s u :=
  ⟨k.c.trans h.c, fun _ hx => h.lamps (k.lamps hx)⟩

theorem bystander_poked (h : Poked s t) : Bystander s t := by
  rw [h]
  exact ⟨rfl, List.Subset.refl _⟩

theorem poked_writeBytes (s : State) (pa : Nat) (bs : List Byte) : Poked s (writeBytes s pa bs) := by
  rw [writeBytes_mem]
  rfl

theorem poked_foldl {α : Type} {f : State → α → State} (hf : ∀ s x, Poked s (f s x)) (l : List α) (s : State) :
    Poked s (l.foldl f s) := by
  induction l generalizing s with
  | nil => exact .refl s
  | cons x l ih => exact (hf s x).trans (ih _)

theorem poked_syncQuiet (s : State) (path : List Nat) : Poked s (syncQuiet s path) := by
  unfold syncQuiet
  refine poked_foldl (fun s pa => poked_foldl (fun t x => ?_) _ s) path s
  split
  · exact .refl t
  · exact poked_writeBytes ..

theorem bystander_putSaveQuiet (s : State) (uid : Nat) : Bystander s (putSaveQuiet s uid) := by
  unfold putSaveQuiet
  split
  · exact .refl s
  · split
    · exact .refl s
    · exact bystander_poked ((poked_savePut ..).trans (poked_saveMend ..))

theorem bystander_enqueueResume (s : State) (gid : Nat) : Bystander s (enqueueResume s gid) := by
  unfold enqueueResume
  split
  · exact .refl s
  · split
    · exact .refl s
    · split
      · exact .refl s
      · exact ⟨(bystander_poked (poked_syncQuiet ..)).c, (bystander_poked (poked_syncQuiet ..)).lamps⟩

theorem bystander_wake {uid : Nat} (h : s.c.uid ≠ uid) (st : BitVec 2) : Bystander s (wake s uid st) := by
  unfold wake
  split
  · exact .refl s
  · refine .trans ?_ ((bystander_enqueueResume ..).trans (bystander_putSaveQuiet ..))
    rw [State.onCrew, if_neg h]
    exact ⟨rfl, List.Subset.refl _⟩

theorem mem_lampInsert (e x : LampEntry) (l : List LampEntry) : x ∈ lampInsert e l ↔ x = e ∨ x ∈ l := by
  induction l with
  | nil => simp [lampInsert]
  | cons f l ih =>
    unfold lampInsert
    split
    · simp
    · simp only [List.mem_cons, ih]
      tauto

theorem mem_lampSort (x : LampEntry) (l : List LampEntry) : x ∈ l.foldr lampInsert [] ↔ x ∈ l := by
  induction l with
  | nil => simp
  | cons e l ih => rw [List.foldr_cons, mem_lampInsert, ih, List.mem_cons]

theorem bystander_wakes (st : BitVec 2) (l : List LampEntry) : ∀ {s : State}, (∀ e ∈ l, e.uid ≠ s.c.uid) →
    Bystander s (l.foldl (fun s e => wake s e.uid st) s) := by
  induction l with
  | nil => exact fun _ => .refl _
  | cons e l ih =>
    intro s h
    have h1 := bystander_wake (s := s) (h e (by simp)).symm st
    rw [List.foldl_cons]
    exact h1.trans (ih fun x hx => h1.c ▸ h x (List.mem_cons_of_mem _ hx))

/-- No entry of the crew in focus stands in the Lamproom. -/
def NoOwnEntry (s : State) : Prop := ∀ e ∈ s.lamps, e.uid ≠ s.c.uid

theorem NoOwnEntry.bystander (h : NoOwnEntry s) (k : Bystander s t) : NoOwnEntry t := fun e he =>
  k.c ▸ h e (k.lamps he)

theorem bystander_wakeEntries (h : NoOwnEntry s) (hit : LampEntry → Bool) (st : BitVec 2) :
    Bystander s (wakeEntries s hit st) := by
  have h0 : Bystander s { s with lamps := s.lamps.filter fun e => !hit e } := ⟨rfl, List.filter_subset_self ..⟩
  refine h0.trans (.trans (bystander_wakes st _ fun e he => ?_) ⟨rfl, List.Subset.refl _⟩)
  exact h e (List.mem_filter.1 ((mem_lampSort ..).1 he)).1

theorem bystander_relightLines (n : Nat) : ∀ {s : State} (l : List Nat), NoOwnEntry s → Bystander s (relightLines n s l) := by
  induction n with
  | zero => intro s l h; cases l <;> exact .refl s
  | succ n ih =>
    intro s l h
    cases l with
    | nil => exact .refl s
    | cons x l =>
      have h1 : Bystander s (relight s x) := bystander_wakeEntries h _ _
      exact h1.trans (ih _ (h.bystander h1))

theorem bystander_relightAll (h : NoOwnEntry s) (l : List Nat) : Bystander s (relightAll s l) := by
  unfold relightAll
  split
  · exact .refl s
  · exact bystander_relightLines _ _ h

theorem bystander_saveWrite (h : NoOwnEntry s) (g : Gallery) (save : Word) (off : Nat) (bs : List Byte) :
    Bystander s (saveWrite s g save off bs) := by
  have h1 : Bystander s (saveMend (savePut s g save off bs) g save off bs.length) :=
    bystander_poked ((poked_savePut ..).trans (poked_saveMend ..))
  unfold saveWrite
  dsimp only
  split
  · exact h1
  · exact h1.trans (bystander_relightAll (h.bystander h1) _)

/-! ### Lines on which no entry waits -/

/-- State `t` differs from `s` in the filters of the Lamproom alone. -/
def Refiltered (s t : State) : Prop := t = { s with filter := t.filter }

/-- The entries of a line on which none waits: only the filters of spilled entries are set afresh. -/
theorem refiltered_relight {line : Nat} (h : ∀ e ∈ s.lamps, e.pa / 256 ≠ line) : Refiltered s (relight s line) := by
  have hout : s.lamps.filter (fun e => e.pa / 256 == line && lampHolds s e) = [] :=
    List.filter_eq_nil_iff.2 fun e he => by simp [h e he]
  have hin : s.lamps.filter (fun e => !(e.pa / 256 == line && lampHolds s e)) = s.lamps :=
    List.filter_eq_self.2 fun e he => by simp [h e he]
  unfold relight wakeEntries
  rw [hout, hin]
  rfl

theorem refiltered_relightLines (n : Nat) : ∀ {s : State} (l : List Nat),
    (∀ x ∈ l, ∀ e ∈ s.lamps, e.pa / 256 ≠ x) → Refiltered s (relightLines n s l) := by
  induction n with
  | zero => intro s l h; cases l <;> rfl
  | succ n ih =>
    intro s l h
    cases l with
    | nil => rfl
    | cons x l =>
      obtain ⟨hx, hl⟩ := List.forall_mem_cons.1 h
      have h1 := refiltered_relight hx
      have hout : s.lamps.filter (fun e => e.pa / 256 == x && lampHolds s e) = [] :=
        List.filter_eq_nil_iff.2 fun e he => by simp [hx e he]
      have h2 : Refiltered (relight s x) (relightLines n (relight s x) l) := ih l (by rw [h1]; exact hl)
      rw [relightLines]
      simp only [hout, if_true, List.append_nil]
      rw [Refiltered] at h1 h2 ⊢
      rw [h2, h1]

theorem refiltered_relightAll {l : List Nat} (h : ∀ x ∈ l, ∀ e ∈ s.lamps, e.pa / 256 ≠ x) :
    Refiltered s (relightAll s l) := by
  unfold relightAll
  split
  · rfl
  · exact refiltered_relightLines _ _ h

/-! ### Word 0 -/

theorem saveWrite_word (h : RecordAt s base 8)
    (hl : ∀ e ∈ s.lamps, e.pa / 256 ≠ base / 256 ∧ e.pa / 256 ≠ (base + 7) / 256) {x : Nat} (hx : x < 2 ^ 64) :
    let t := saveWrite s s.g s.c.save 0 (toBytes 8 x)
    readNat t base 8 = x ∧ (∀ a, a < base ∨ base + 8 ≤ a → readByte t a = readByte s a) ∧
    t = { s with mem := t.mem, poison := t.poison, filter := t.filter } := by
  intro t
  have hput : savePut s s.g s.c.save 0 (toBytes 8 x) = writeBytes s base (toBytes 8 x) := by
    rw [savePut_eq _ 0 (recordStays_of_recordAt h) (by simp), Nat.add_zero]
  let s1 := saveMend (writeBytes s base (toBytes 8 x)) s.g s.c.save 0 8
  have hp : Poked s s1 := (poked_writeBytes ..).trans (poked_saveMend ..)
  have hbyte (a : Nat) : readByte s1 a = readByte (writeBytes s base (toBytes 8 x)) a := readByte_saveMend ..
  have hout (a : Nat) (ha : a < base ∨ base + 8 ≤ a) : readByte s1 a = readByte s a := by
    rw [hbyte, readByte_writeBytes, if_neg (by simp; omega)]
  have hin : readNat s1 base 8 = x := by
    rw [readNat_congr fun k _ => hbyte _]
    exact (readNat_writeNat_same s base 8 x h.ram).trans (Nat.mod_eq_of_lt hx)
  have hplace := (recordStays_of_recordAt h).poked hp hout
  have ht : Refiltered s1 t := by
    have e : t = if s1.lamps = [] then s1 else
        relightAll s1 (((List.range 8).filterMap fun i => (savePlace s1 s.g s.c.save (0 + i)).map (· / 256)).eraseDups) := by
      simp only [t, saveWrite, hput, toBytes_length]
      rfl
    rw [e]
    split
    · rfl
    · refine refiltered_relightAll fun line hline e he => ?_
      obtain ⟨i, hi, hm⟩ := List.mem_filterMap.1 (List.mem_eraseDups.1 hline)
      rw [Nat.zero_add, hplace.place (List.mem_range.1 hi), Option.map_some, Option.some.injEq] at hm
      have hi8 := List.mem_range.1 hi
      obtain ⟨h0, h7⟩ := hl e (by rw [hp] at he; exact he)
      omega
  have hb (a : Nat) : readByte t a = readByte s1 a := by rw [ht]; rfl
  refine ⟨(readNat_congr fun k _ => hb _).trans hin, fun a ha => (hb a).trans (hout a ha), ?_⟩
  rw [Refiltered, hp] at ht
  rw [ht]

/-- Word 0 of the save record of the crew in focus brought up to date. -/
theorem saveWordPut_putSave0 (h : s.c.gid = s.g.gid) : SaveWordPut s (putSave0 s s.c.uid) := by
  rw [putSave0_self h]
  exact {
    none := fun h0 => by rw [h0, saveWrite_zero]
    quiet := fun hl => by
      have hp : Poked s (saveMend (savePut s s.g s.c.save 0 (toBytes 8 (saveWord0 s s.c))) s.g s.c.save 0
          (toBytes 8 (saveWord0 s s.c)).length) := (poked_savePut ..).trans (poked_saveMend ..)
      unfold saveWrite
      dsimp only
      rw [if_pos (by rw [hp]; exact hl)]
      exact hp
    crew := fun hn => (bystander_saveWrite hn ..).c
    word := fun base hr hl => saveWrite_word hr hl (saveWord0_lt s s.c) }

/-! ### The retry of a parked spawn (R165) -/

/-- A spawn that is no longer parked. -/
def unparked (s : State) (w : SpawnWait) : State := { s with spawnq := s.spawnq.filter (·.uid != w.uid) }

/-- What the retry of a spawn of the crew in focus does. -/
def retryHere (s : State) (w : SpawnWait) (e : Enqueuer) (a : BitVec 6) : State :=
  match taskEnqueue s e (getS s.c a) with
  | .full path => stayParked s w.uid path
  | .ok s1 => putSave0 (done (unparked s1 w)) w.uid
  | .fault c => takeTrap (unparked s w) (trapHere s c (getS s.c a) (if c = .eccUncorr then 0 else scalarInfo 0))
  | .refused n => takeTrap (unparked s w) (trapHere s .spawnRefused (getS s.c a) (w64 n))
  | .spoiled a => takeTrap (unparked s w) (trapHere s .eccUncorr a 0)
  | .belowFuse _ _ => s

variable {w : SpawnWait} {a : BitVec 6} {e : Enqueuer}

theorem uid_takeTrap_unparked (s : State) (w : SpawnWait) (q : TrapReq) : (takeTrap (unparked s w) q).c.uid = s.c.uid :=
  ((kept_takeTrap q (kept_update (.refl True s))).named trivial).uid

theorem uid_retryHere (s : State) (w : SpawnWait) (e : Enqueuer) (a : BitVec 6) : (retryHere s w e a).c.uid = s.c.uid := by
  unfold retryHere
  split
  · rfl
  · next s1 h1 =>
    have k : Kept True s (done (unparked s1 w)) := kept_done (kept_update (kept_taskEnqueue _ _ h1 (.refl True s)))
    exact ((kept_putSave0 _ k).named trivial).uid
  · exact uid_takeTrap_unparked s w _
  · exact uid_takeTrap_unparked s w _
  · exact uid_takeTrap_unparked s w _
  · rfl

theorem retrySpawn_here (hw : w.uid = s.c.uid) (h : spawnWord s = .ok (some (e, a))) :
    retrySpawn s w = retryHere s w e a := by
  have hin : ¬ (!s.allCrews.any (·.uid == w.uid)) = true := by simp [State.allCrews, hw]
  unfold retrySpawn
  dsimp only
  rw [if_neg hin, hw, inFocus_self]
  · simp only [h]
    rw [← hw]
    rfl
  · simp only [h]
    rw [← hw]
    exact (uid_retryHere s w e a).trans hw.symm

end Sys2Proof.Proofs
end
section
/-!
PROOFS. A new gallery on a core: its state and that of its crews, the records that leave the queue, and the half that is
bound (R62, R65, R157, R175, R293).
-/

namespace Sys2Proof.Proofs
open Sys2Proof Sys2Proof.Machine

set_option Elab.async false

/-- What a map holds once its entries outside of a set of keys are gone. -/
theorem look_filter_keys {α : Type} (d : α) (m : Sparse α) (p : Nat → Bool) (j : Nat) :
    look d (m.filter fun e => p e.1) j = if p j then look d m j else d := by
  induction m with
  | nil => simp [look]
  | cons e m ih =>
    obtain ⟨i, x⟩ := e
    by_cases hij : i = j
    · subst hij
      by_cases hp : p i <;> simp [look, hp, ih]
    · by_cases hp : p i <;> simp [look, hp, hij, ih]

variable {s : State} {c : Candidate} {core v : Nat}

/-! ### Its registers and blocks (R62, R65) -/

theorem look_lanes (lanes : List Record) : ∀ (i : Nat) (m : Sparse Word) (th n : Nat), n < 128 →
    look 0 ((lanes.zipIdx i).foldl (fun m x => store 0 m (128 * x.2) x.1.arg) m) (128 * th + n) =
      if n = 0 ∧ i ≤ th ∧ th < i + lanes.length then ((lanes[th - i]?).map (·.arg)).getD 0 else look 0 m (128 * th + n) := by
  induction lanes with
  | nil => intro i m th n hn; rw [if_neg (by simp)]; rfl
  | cons r lanes ih =>
    intro i m th n hn
    rw [List.zipIdx_cons, List.foldl_cons, ih _ _ _ _ hn, look_store, List.length_cons]
    by_cases h : n = 0 ∧ th = i
    · obtain ⟨rfl, rfl⟩ := h
      simp
    · rw [if_neg (show ¬ 128 * th + n = 128 * i by omega)]
      by_cases h1 : n = 0 ∧ i + 1 ≤ th ∧ th < i + 1 + lanes.length
      · rw [if_pos h1, if_pos (by omega), show th - i = (th - (i + 1)) + 1 by omega, List.getElem?_cons_succ]
      · rw [if_neg h1, if_neg (by omega)]

/-- Thread `th` of a lane gang starts with the argument of its record in `v0` (R151). -/
theorem newGallery_v (r : Record) (lanes : List Record) (gid core slot vbase since : Nat) {th n : Nat} (hn : n < 128) :
    look 0 (newGallery r lanes gid core slot vbase since).v (128 * th + n) =
      if n = 0 then ((lanes[th]?).map (·.arg)).getD 0 else 0 := by
  have h := look_lanes lanes 0 [] th n hn
  rw [newGallery, h]
  by_cases h0 : n = 0
  · by_cases hl : th < lanes.length
    · simp [h0, hl]
    · rw [if_neg (by omega), if_pos h0, List.getElem?_eq_none (by omega)]
      rfl
  · rw [if_neg (by omega), if_neg h0]
    rfl

theorem newGallery_owner (r : Record) (lanes : List Record) (gid core slot vbase since : Nat) (b : Fin 16) :
    (newGallery r lanes gid core slot vbase since).owner[b] = if b.val < r.blocks then some 0 else none := by
  simp [newGallery]

/-- The crews of a new gallery, one for each attach slot. -/
theorem newCrews_eq (r : Record) (gid core uid : Nat) (live : ThreadSet) {slots : List Nat} {saves : List Word}
    (hs : r.crews ≤ slots.length) (hw : saves.length = r.crews) :
    newCrews r gid core uid live (slots.take r.crews) saves = (List.range r.crews).map fun i =>
      newCrew r (uid + i) gid core (slots.getD i 0) i live (saves.getD i 0) := by
  refine List.ext_getElem (by simp [newCrews, hw]; omega) fun i hi hj => ?_
  have hir : i < r.crews := by simpa using hj
  have h1 : i < slots.length := by omega
  have h2 : i < saves.length := by omega
  simp [newCrews, h1, h2]

/-! ### The half that is bound (R157, R175) -/

theorem bindHalf_frame (s : State) (v asn : Nat) : bindHalf s v asn =
    { s with halves := (bindHalf s v asn).halves, vault := (bindHalf s v asn).vault,
             badVault := (bindHalf s v asn).badVault } := by
  unfold bindHalf
  dsimp only
  split <;> rfl

/-- Only the half of the vault base is bound. -/
theorem bindHalf_other (s : State) (v asn : Nat) {k : Nat} (hk : k ≠ v / 2 ^ 21) :
    look 65536 (bindHalf s v asn).halves k = look 65536 s.halves k := by
  unfold bindHalf
  dsimp only
  split
  · rfl
  · exact (look_store ..).trans (if_neg hk)

/-- A half newly bound is that of the ASN, and reads as zero. -/
theorem bindHalf_free {s : State} {v : Nat} (asn : Nat) (h : look 65536 s.halves (v / 2 ^ 21) = 65536) :
    look 65536 (bindHalf s v asn).halves (v / 2 ^ 21) = asn ∧
      ∀ x, x < 2 ^ 21 → readVault (bindHalf s v asn) (v / 2 ^ 21 * 2 ^ 21 + x) = 0 := by
  unfold bindHalf
  dsimp only
  rw [if_neg (not_not.2 h)]
  refine ⟨(look_store ..).trans (if_pos rfl), fun x hx => ?_⟩
  have hk : (v / 2 ^ 21 * 2 ^ 21 + x) / 2 ^ 21 = v / 2 ^ 21 := by omega
  rw [readVault, look_filter_keys 0 s.vault fun e => e / 2 ^ 21 != v / 2 ^ 21]
  exact if_neg (by rw [hk]; simp)

/-! ### Placing it -/

/-- The records of a candidate. -/
def ofCandidate (c : Candidate) (r : Record) : Bool := r.arrival == c.rcd.arrival || c.lanes.any (·.arrival == r.arrival)

/-- The ready queue without the records of a candidate. -/
def dequeued (s : State) (c : Candidate) : State :=
  { s with
    records := s.records.filter fun r => !ofCandidate c r
    forming := (s.forming.map fun f => { f with records := f.records.filter fun r => !ofCandidate c r }).filter fun f =>
      f.records != [] }

theorem unqueue_eq (s : State) (c : Candidate) : unqueue s c = syncQueue (dequeued s c) c.rcd := rfl

theorem ofCandidate_false_iff (c : Candidate) (q : Record) : (!ofCandidate c q) = true ↔
    q.arrival ≠ c.rcd.arrival ∧ ∀ l ∈ c.lanes, q.arrival ≠ l.arrival := by
  rw [Bool.not_eq_true', ofCandidate, Bool.or_eq_false_iff, beq_eq_false_iff_ne, List.any_eq_false]
  refine and_congr_right fun _ => forall₂_congr fun l _ => ?_
  rw [beq_iff_eq]
  exact ne_comm

theorem mem_dequeued (s : State) (c : Candidate) (q : Record) : q ∈ (dequeued s c).records ↔
    q ∈ s.records ∧ q.arrival ≠ c.rcd.arrival ∧ ∀ l ∈ c.lanes, q.arrival ≠ l.arrival := by
  rw [dequeued, List.mem_filter, ofCandidate_false_iff]

/-- The half of a candidate's granules bound. -/
def bound (s : State) (c : Candidate) (v : Nat) : State := if c.rcd.vgran = 0 then s else bindHalf s v c.rcd.asn

theorem bound_frame (s : State) (c : Candidate) (v : Nat) : bound s c v =
    { s with halves := (bound s c v).halves, vault := (bound s c v).vault, badVault := (bound s c v).badVault } := by
  unfold bound
  split
  · rfl
  · exact bindHalf_frame ..

theorem bound_other (s : State) (c : Candidate) (v : Nat) {k : Nat} (hk : k ≠ v / 2 ^ 21) :
    look 65536 (bound s c v).halves k = look 65536 s.halves k := by
  unfold bound
  split
  · rfl
  · exact bindHalf_other _ _ _ hk

/-- The gallery and the crews of a candidate that is placed. -/
def placedGal (s : State) (c : Candidate) (core v : Nat) : Gallery :=
  newGallery c.rcd c.lanes s.ids core ((freeSlots ((galsOn s core).map (·.slot))).headD 0) v s.arrivals

def placedCrews (s : State) (c : Candidate) (core v : Nat) : List Crew :=
  newCrews c.rcd s.ids core (s.ids + 1) (placedGal s c core v).live
    ((freeSlots ((crewsOn s core).map (·.slot))).take c.rcd.crews) (savesFor s c.rcd)

/-- A new gallery on its core, before its save records are marked and its region blocks brought up to date. -/
def seated (s : State) (c : Candidate) (core v : Nat) : State :=
  { unqueue (bound s c v) c with
    gals := (unqueue (bound s c v) c).gals ++ [placedGal s c core v]
    crews := (unqueue (bound s c v) c).crews ++ placedCrews s c core v
    ids := s.ids + 1 + c.rcd.crews, arrivals := (unqueue (bound s c v) c).arrivals + 1
    boot := { (unqueue (bound s c v) c).boot with placed := true } }

theorem placeNew_eq (s : State) (c : Candidate) (core v : Nat) : placeNew s c core v =
    syncPath (markSaves (seated s c core v) c.rcd (savesFor s c.rcd) (2 ^ 63)) c.rcd.path := rfl

theorem redq_placedCrews (s : State) (c : Candidate) (core v : Nat) {k : Crew} (hk : k ∈ placedCrews s c core v) :
    k.redq = [] := by
  obtain ⟨x, -, rfl⟩ := List.mem_map.1 hk
  rfl

section
variable (h : Still s)
include h

theorem still_dequeued : Still (dequeued (bound s c v) c) := by
  refine h.update ?_ (by rw [dequeued, bound_frame])
  rw [dequeued, bound_frame]
  exact List.Subset.refl _

theorem told_unqueue : Told (dequeued (bound s c v) c) (unqueue (bound s c v) c) := told_syncQueue (still_dequeued h) _

/-- What the removal of the records from the queue leaves of the state in which the half is bound. -/
theorem unqueue_same {α : Type} (f : State → α)
    (hf : ∀ m p e q, f { dequeued (bound s c v) c with mem := m, poison := p, errcnt := e, redq := q } =
      f (dequeued (bound s c v) c) := by exact fun _ _ _ _ => rfl) :
    f (unqueue (bound s c v) c) = f (dequeued (bound s c v) c) := by
  have k := told_unqueue (c := c) (v := v) h
  rw [Told] at k
  rw [k]
  exact hf ..

theorem unqueue_bound_frame : unqueue (bound s c v) c = { s with
    mem := (unqueue (bound s c v) c).mem, poison := (unqueue (bound s c v) c).poison
    errcnt := (unqueue (bound s c v) c).errcnt, redq := (unqueue (bound s c v) c).redq
    records := (dequeued (bound s c v) c).records, forming := (dequeued (bound s c v) c).forming
    halves := (bound s c v).halves, vault := (bound s c v).vault, badVault := (bound s c v).badVault } := by
  have k := told_unqueue (c := c) (v := v) h
  have b := bound_frame s c v
  generalize unqueue (bound s c v) c = q at k ⊢
  rw [k]
  unfold dequeued
  generalize bound s c v = w at b ⊢
  rw [b]

theorem still_seated : Still (seated s c core v) where
  lamps := (unqueue_same h State.lamps).trans ((still_dequeued h).lamps)
  none k hk := by
    have hc : (unqueue (bound s c v) c).allCrews = (dequeued (bound s c v) c).allCrews := unqueue_same h State.allCrews
    have hk' : k ∈ (unqueue (bound s c v) c).allCrews ++ placedCrews s c core v := hk
    rcases List.mem_append.1 hk' with hk | hk
    · rw [hc] at hk
      exact (still_dequeued h).none k hk
    · rw [redq_placedCrews s c core v hk]
      nofun

theorem told_placeNew : Told (seated s c core v) (placeNew s c core v) := by
  have k := told_markSaves (still_seated (c := c) (core := core) (v := v) h) c.rcd (savesFor s c.rcd) (2 ^ 63)
  rw [placeNew_eq]
  exact k.trans (told_syncPath ((still_seated h).told k) _)

variable (hr : c.rcd.resume = none) (hq : s.spawnq = [])
include hr hq

theorem place_new : place s c core v = placeNew s c core v := by
  have hs : (placeNew s c core v).spawnq = [] := by
    rw [(told_placeNew h).same State.spawnq]
    refine (unqueue_same h State.spawnq).trans ?_
    rw [dequeued, bound_frame]
    exact hq
  unfold place
  rw [hr]
  exact retrySpawns_of_none (by rw [hs]; simp)

/-- A field of the state in which the gallery is seated. -/
theorem place_new_same {α : Type} (f : State → α)
    (hf : ∀ t : State, ∀ m p e q, f { t with mem := m, poison := p, errcnt := e, redq := q } = f t := by
      exact fun _ _ _ _ _ => rfl) : f (place s c core v) = f (seated s c core v) := by
  rw [place_new h hr hq]
  exact (told_placeNew h).same f (hf _)

end

end Sys2Proof.Proofs
end
section
/-!
PROOFS. A gallery brought back from its image: it stands on its core, and its saved context is gone (R301, R304).
-/

namespace Sys2Proof.Proofs
open Sys2Proof Sys2Proof.Machine

set_option Elab.async false

variable {s t : State}

/-! ### What a move of granules leaves -/

theorem fillGranules_frame (s : State) (vbase vgran : Nat) (l : Sparse Byte) : fillGranules s vbase vgran l =
    { s with vault := (fillGranules s vbase vgran l).vault } := by
  have fold (l : Sparse Byte) : ∀ u : State, l.foldl (fun s e => { s with vault := store 0 s.vault (vbase + e.1) e.2 }) u =
      { u with vault := (l.foldl (fun s e => { s with vault := store 0 s.vault (vbase + e.1) e.2 }) u).vault } := by
    induction l with
    | nil => exact fun _ => rfl
    | cons e l ih =>
      intro u
      rw [List.foldl_cons, ih]
  unfold fillGranules
  dsimp only
  rw [fold]

/-- The crew in focus is the same in name and gallery, and its gallery is in focus. -/
theorem gid_focus (h : Named s t) (hg : s.c.gid = s.g.gid) : t.g.gid = s.g.gid := by
  have hc := h.crews s.c.uid
  rw [crewNamed_self, ← h.uid, crewNamed_self, Option.map_some, Option.map_some, Option.some.injEq] at hc
  simp only [crewView, Prod.mk.injEq] at hc
  rw [← h.gid hg, hc.2.1, hg]

/-! ### The gallery on its core -/

/-- The gallery of a saved context on a core. -/
def restoredGal (s : State) (x : SavedContext) (core vbase : Nat) : Gallery :=
  { x.gal with
    core := core, slot := (freeSlots ((galsOn s core).map (·.slot))).headD 0, vbase := BitVec.ofNat 32 vbase
    reloc := addReloc x.gal vbase, image := none, since := s.arrivals }

def restoredCrews (s : State) (x : SavedContext) (core : Nat) : List Crew :=
  (x.crews.zip (freeSlots ((crewsOn s core).map (·.slot)))).map fun (c, k) =>
    resumeCrew { (readContext s x.gal c) with core := core, slot := k }

/-- The granules of a saved context in its half. -/
def refilled (s : State) (x : SavedContext) (vbase : Nat) : State :=
  if x.gal.vgran = 0 then s else fillGranules (bindHalf s vbase x.gal.rcd.asn) vbase x.gal.vgran x.vault

theorem refilled_frame (s : State) (x : SavedContext) (vbase : Nat) : refilled s x vbase =
    { s with halves := (refilled s x vbase).halves, vault := (refilled s x vbase).vault,
             badVault := (refilled s x vbase).badVault } := by
  unfold refilled
  split
  · rfl
  · rw [fillGranules_frame, bindHalf_frame]

/-- The gallery, its crews and its hoist commands on their core, before the words that tell of it are written. -/
def restored (s : State) (x : SavedContext) (core vbase : Nat) : State :=
  { refilled s x vbase with
    saved := (refilled s x vbase).saved.filter (·.gal.gid != x.gal.gid)
    gals := (refilled s x vbase).gals ++ [restoredGal s x core vbase]
    crews := (refilled s x vbase).crews ++ restoredCrews s x core
    hoist := (refilled s x vbase).hoist ++ x.hoist.map fun h => { h with core := core }
    spawnq := (refilled s x vbase).spawnq.filter fun w =>
      !(restoredCrews s x core).any fun c => c.uid == w.uid && c.status == .running
    arrivals := (refilled s x vbase).arrivals + 1 }

theorem restoreImage_eq (s : State) (x : SavedContext) (core vbase : Nat) : restoreImage s x core vbase =
    if x.gal.core ≠ core then
      notify (syncPath (resumeTagWaits (putSaves (restored s x core vbase) (restoredCrews s x core))
        (restoredCrews s x core)) x.gal.rcd.path) (restoredGal s x core vbase)
    else syncPath (resumeTagWaits (putSaves (restored s x core vbase) (restoredCrews s x core))
      (restoredCrews s x core)) x.gal.rcd.path := rfl

theorem refilled_same {α : Type} (s : State) (x : SavedContext) (vbase : Nat) (f : State → α)
    (hf : ∀ h v b, f { s with halves := h, vault := v, badVault := b } = f s := by exact fun _ _ _ => rfl) :
    f (refilled s x vbase) = f s := by
  rw [refilled_frame]
  exact hf ..

/-- The words that tell of a restored gallery leave each gallery in its place. -/
theorem calm_restoreImage (s : State) (x : SavedContext) (core vbase : Nat) :
    Calm False (restored s x core vbase) (restoreImage s x core vbase) := by
  have h1 : Calm False (restored s x core vbase) (putSaves (restored s x core vbase) (restoredCrews s x core)) :=
    calm_foldl (fun s k => calm_putSave0 _ (.refl _ s)) _ (.refl _ _)
  have h2 := calm_foldl (f := fun s (k : Crew) => resumeTags s k.uid) (fun s k => calm_resumeTags id _ (.refl False s))
    (restoredCrews s x core) h1
  have h3 := calm_syncPath x.gal.rcd.path h2
  rw [restoreImage_eq]
  split
  · exact calm_notify _ h3
  · exact h3

theorem named_restoreImage (s : State) (x : SavedContext) (core vbase : Nat) :
    Named (restored s x core vbase) (restoreImage s x core vbase) := by
  have h1 : Kept True (restored s x core vbase) (putSaves (restored s x core vbase) (restoredCrews s x core)) :=
    kept_foldl (fun s k => kept_putSave0 _ (.refl _ s)) _ (.refl _ _)
  have h2 := kept_foldl (f := fun s (k : Crew) => resumeTags s k.uid) (fun s k => kept_resumeTags _ (.refl True s))
    (restoredCrews s x core) h1
  have h3 := kept_syncPath x.gal.rcd.path h2
  have h4 : Kept True (restored s x core vbase) (restoreImage s x core vbase) := by
    rw [restoreImage_eq]
    split
    · unfold notify
      split
      · exact kept_regionFault _ _ h3
      · exact h3
    · exact h3
  exact h4.named trivial

section
variable {x : SavedContext} (hc : s.c.gid ≠ x.gal.gid) (hg : s.g.gid = s.c.gid) (hn : ∀ h ∈ s.gals, h.gid ≠ x.gal.gid)
include hc hg hn

theorem galNamed_restored (core vbase : Nat) :
    galNamed (restored s x core vbase) x.gal.gid = some (restoredGal s x core vbase) := by
  have hgs : (restored s x core vbase).gals = s.gals ++ [restoredGal s x core vbase] :=
    congrArg (· ++ [_]) (refilled_same s x vbase State.gals)
  have hgf : (restored s x core vbase).g = s.g := refilled_same s x vbase State.g
  have hfind : s.gals.find? (·.gid == x.gal.gid) = none := List.find?_eq_none.2 fun h hh => by simpa using hn h hh
  rw [galNamed_eq, hgs, hgf, if_neg (by rw [hg]; exact hc), List.find?_append, hfind]
  simp [restoredGal]

/-- The gallery that is brought back stands on its core. -/
theorem restoreImage_stands (core vbase : Nat) : ∃ g ∈ (restoreImage s x core vbase).gals,
    galPlace g = galPlace (restoredGal s x core vbase) := by
  have hp := (calm_restoreImage s x core vbase).gals x.gal.gid
  rw [galNamed_restored hc hg hn, Option.map_some] at hp
  obtain ⟨g, hgn, hgp⟩ := Option.map_eq_some_iff.1 hp
  refine ⟨g, ?_, hgp⟩
  have hne : (restoreImage s x core vbase).g.gid ≠ x.gal.gid := by
    have hgf : (restored s x core vbase).g = s.g := refilled_same s x vbase State.g
    have hcf : (restored s x core vbase).c = s.c := refilled_same s x vbase State.c
    rw [gid_focus (named_restoreImage s x core vbase) (by rw [hgf, hcf, hg]), hgf, hg]
    exact hc
  rw [galNamed_eq, if_neg hne] at hgn
  exact List.mem_of_find?_eq_some hgn

end

/-- Its saved context is gone. -/
theorem restoreImage_saved (s : State) (x : SavedContext) (core vbase : Nat) :
    ∀ y ∈ (restoreImage s x core vbase).saved, y.gal.gid ≠ x.gal.gid := by
  intro y hy
  have hm : y.gal ∈ (restored s x core vbase).saved.map (·.gal) := by
    rw [← (calm_restoreImage s x core vbase).saved]
    exact List.mem_map_of_mem hy
  obtain ⟨z, hz, hzy⟩ := List.mem_map.1 hm
  have hne := (List.mem_filter.1 hz).2
  rw [← hzy]
  simpa using hne

theorem spawnq_restoreImage (hq : s.spawnq = []) (x : SavedContext) (core vbase : Nat) :
    (restoreImage s x core vbase).spawnq = [] := by
  rw [(calm_restoreImage s x core vbase).spawnq]
  have h : (refilled s x vbase).spawnq = [] := (refilled_same s x vbase State.spawnq).trans hq
  unfold restored
  dsimp only
  rw [h, List.filter_nil]

/-! ### Placing a resume record (R301, R304) -/

section
variable {c : Candidate} {core v gid : Nat} {x : SavedContext} (h : Still s) (hr : c.rcd.resume = some gid)
  (hq : s.spawnq = []) (hx : s.saved.find? (·.gal.gid == gid) = some x)
include h

theorem told_unqueue_self : Told (dequeued s c) (unqueue s c) := by
  have h0 : Still (dequeued s c) := h.update (List.Subset.refl _)
  rw [unqueue_eq]
  exact told_syncQueue h0 c.rcd

include hx

theorem placeResume_eq : placeResume s c gid core v =
    if contextLost (unqueue s c) x then
      regionFault (unqueue s c) x.gal.rcd { cause := .ctxLost, fatal := true, obj := w64 (x.image.getD 0) }
    else restoreImage (unqueue s c) x core v := by
  have hs : (unqueue s c).saved = s.saved := (told_unqueue_self h).same State.saved
  simp only [placeResume, hs, hx]

include hr hq in
theorem place_resume : place s c core v = placeResume s c gid core v := by
  have hs : (unqueue s c).spawnq = [] := ((told_unqueue_self h).same State.spawnq).trans hq
  have hp : (placeResume s c gid core v).spawnq = [] := by
    rw [placeResume_eq h hx]
    split
    · rw [(calm_regionFault (w := False) _ _ (.refl _ (unqueue s c)) nofun).spawnq, hs]
    · exact spawnq_restoreImage hs x core v
  unfold place
  rw [hr]
  exact retrySpawns_of_none (by rw [hp]; simp)

end

end Sys2Proof.Proofs
end
section
/-!
PROOFS. Swapping a gallery out, its crews drained with nothing left of theirs to be performed (R291, R299, R300).
-/

namespace Sys2Proof.Proofs
open Sys2Proof Sys2Proof.Machine

set_option Elab.async false

variable {s t u : State}

/-! ### A drain that has nothing to do -/

/-- Nothing of the crew is still to land, to be performed or to be acknowledged. -/
structure Empty (k : Crew) : Prop where
  land : k.land = []
  stores : k.stores = []
  redq : k.redq = []
  acks : k.acks = []
  counts : retire k = k

theorem drain_empty (h : Empty s.c) : drain s = s := by
  obtain ⟨hl, hs, hr, ha, hc⟩ := h
  have hland : landAll s = s := by
    have e : { s.c with land := [] } = s.c := by rw [← hl]
    rw [landAll, hl, List.foldl_nil, e]
  have e : { s.c with acks := [] } = s.c := by rw [← ha]
  rw [drain, hland, performAll_nil s hs, offerAll_nil s hr, performAll_nil s hs, e, hc]

/-! ### The focus on another crew and back -/

/-- The same crews and galleries by name, in another order; what stands twice under one name may stand there once. -/
structure Reordered (s t : State) : Prop where
  frame : t = { s with crews := t.crews, gals := t.gals }
  crews : t.allCrews ⊆ s.allCrews
  gals : t.allGals ⊆ s.allGals
  crewNamed : ∀ u, crewNamed t u = crewNamed s u
  galNamed : ∀ n, galNamed t n = galNamed s n

theorem Reordered.refl (s : State) : Reordered s s :=
  ⟨rfl, List.Subset.refl _, List.Subset.refl _, fun _ => rfl, fun _ => rfl⟩

theorem Reordered.trans (h : Reordered s t) (k : Reordered t u) : Reordered s u where
  frame := by
    have e := k.frame
    rw [h.frame] at e
    exact e
  crews _ hx := h.crews (k.crews hx)
  gals _ hx := h.gals (k.gals hx)
  crewNamed n := (k.crewNamed n).trans (h.crewNamed n)
  galNamed n := (k.galNamed n).trans (h.galNamed n)

theorem Reordered.same {α : Type} (h : Reordered s t) (f : State → α)
    (hf : ∀ c g, f { s with crews := c, gals := g } = f s := by exact fun _ _ => rfl) : f t = f s := by
  rw [h.frame]
  exact hf ..

theorem mem_crewNamed {n : Nat} {k : Crew} (h : crewNamed s n = some k) : k ∈ s.allCrews := List.mem_of_find?_eq_some h

theorem focusGals_subset (s : State) (n : Nat) : (focusGals s n).1 :: (focusGals s n).2 ⊆ s.allGals := by
  intro x hx
  rw [focusGals] at hx
  split at hx
  · exact hx
  · split at hx
    · exact hx
    · next g hg =>
      rcases List.mem_cons.1 hx with rfl | hx
      · exact List.mem_cons_of_mem _ (List.mem_of_find?_eq_some hg)
      · rcases List.mem_cons.1 hx with rfl | hx
        · exact List.mem_cons_self ..
        · exact List.mem_cons_of_mem _ (List.mem_filter.1 hx).1

theorem focus_crews_subset {uid : Nat} : (s.focus uid).allCrews ⊆ s.allCrews := by
  by_cases hu : s.c.uid = uid
  · rw [focus_self hu]
    exact List.Subset.refl _
  cases hc : crewNamed s uid with
  | none =>
    rw [focus_none hc]
    exact List.Subset.refl _
  | some c =>
    rw [focus_eq hu hc]
    intro x hx
    rcases List.mem_cons.1 hx with rfl | hx
    · exact mem_crewNamed hc
    · rcases List.mem_cons.1 hx with rfl | hx
      · exact List.mem_cons_self ..
      · exact List.mem_cons_of_mem _ (List.mem_filter.1 hx).1

theorem focus_gals_subset {uid : Nat} : (s.focus uid).allGals ⊆ s.allGals := by
  by_cases hu : s.c.uid = uid
  · rw [focus_self hu]
    exact List.Subset.refl _
  cases hc : crewNamed s uid with
  | none =>
    rw [focus_none hc]
    exact List.Subset.refl _
  | some c =>
    rw [focus_eq hu hc]
    exact focusGals_subset s c.gid

/-- The focus on a named crew and back. -/
theorem reordered_focus (hg : s.g.gid = s.c.gid) {uid : Nat} {k : Crew} (hu : s.c.uid ≠ uid) (hk : crewNamed s uid = some k) :
    Reordered s ((s.focus uid).focus s.c.uid) where
  frame := by
    have hu' : (s.focus uid).c.uid ≠ s.c.uid := by
      rw [focus_eq hu hk]
      exact fun e => hu ((uid_of_crewNamed hk).symm.trans e).symm
    have hc' : crewNamed (s.focus uid) s.c.uid = some s.c := (crewNamed_focus ..).trans (crewNamed_self s)
    have hg' : galNamed (s.focus uid) s.c.gid = some s.g := by rw [galNamed_focus, ← hg, galNamed_self]
    rw [focus_eq hu' hc', focusGals_named hg', focus_eq hu hk]
  crews _ hx := focus_crews_subset (focus_crews_subset hx)
  gals _ hx := focus_gals_subset (focus_gals_subset hx)
  crewNamed n := (crewNamed_focus ..).trans (crewNamed_focus ..)
  galNamed n := (galNamed_focus ..).trans (galNamed_focus ..)

/-! ### A gallery none of whose crews has anything left -/

/-- The crews of a gallery that is not in focus: each has a name of its own, and nothing left to be performed. -/
structure Stopped (s : State) (gid : Nat) : Prop where
  away : s.c.gid ≠ gid
  focus : s.g.gid = s.c.gid
  empty : ∀ k ∈ s.allCrews, k.gid = gid → Empty k
  names : ∀ h ∈ s.allCrews, ∀ k ∈ s.allCrews, h.uid = k.uid → h = k

theorem Stopped.reordered {gid : Nat} (h : Stopped s gid) (k : Reordered s t) : Stopped t gid where
  away := by rw [k.same State.c]; exact h.away
  focus := by rw [k.same State.c, k.same State.g]; exact h.focus
  empty x hx := h.empty x (k.crews hx)
  names x hx y hy := h.names x (k.crews hx) y (k.crews hy)

/-- The crews of such a gallery are those of their names. -/
theorem Stopped.named {gid : Nat} (h : Stopped s gid) {k : Crew} (hk : k ∈ s.allCrews) : crewNamed s k.uid = some k := by
  cases hc : crewNamed s k.uid with
  | none =>
    rw [crewNamed, List.find?_eq_none] at hc
    exact absurd (beq_self_eq_true _) (hc k hk)
  | some d => exact congrArg some (h.names d (mem_crewNamed hc) k hk (uid_of_crewNamed hc))

theorem Stopped.mem_iff {gid : Nat} (h : Stopped s gid) (k : Reordered s t) (c : Crew) : c ∈ t.allCrews ↔ c ∈ s.allCrews :=
  ⟨fun hc => k.crews hc, fun hc => mem_crewNamed ((k.crewNamed c.uid).trans (h.named hc))⟩

theorem reordered_drainCrew {gid : Nat} (h : Stopped s gid) {k : Crew} (hk : k ∈ s.allCrews) (hg : k.gid = gid) :
    Reordered s (drainCrew s k.uid) := by
  have hu : s.c.uid ≠ k.uid := by
    intro e
    have := h.names s.c (List.mem_cons_self ..) k hk e
    exact h.away (by rw [this]; exact hg)
  have hc := h.named hk
  have hd : drain (s.focus k.uid) = s.focus k.uid := by
    refine drain_empty ?_
    rw [focus_eq hu hc]
    exact h.empty k hk hg
  have hin : (s.allCrews.any fun c => c.uid == k.uid) = true := List.any_eq_true.2 ⟨k, hk, beq_self_eq_true _⟩
  rw [drainCrew, inFocus, if_pos hin, hd]
  exact reordered_focus h.focus hu hc

theorem reordered_drains {gid : Nat} (l : List Crew) : ∀ {s : State}, Stopped s gid →
    (∀ k ∈ l, k ∈ s.allCrews ∧ k.gid = gid) → Reordered s (l.foldl (fun s c => drainCrew s c.uid) s) := by
  induction l with
  | nil => exact fun _ _ => .refl _
  | cons k l ih =>
    intro s h hl
    obtain ⟨⟨hk, hg⟩, hl⟩ := List.forall_mem_cons.1 hl
    have r := reordered_drainCrew h hk hg
    rw [List.foldl_cons]
    exact r.trans (ih (h.reordered r) fun x hx => ⟨(h.mem_iff r x).2 (hl x hx).1, (hl x hx).2⟩)

theorem reordered_drainGallery {gid : Nat} (h : Stopped s gid) : Reordered s (drainGallery s gid) := by
  unfold drainGallery
  exact reordered_drains _ h fun k hk => by simpa using List.mem_filter.1 hk

/-! ### Removing a gallery -/

theorem unbindHalf_frame (s : State) (vgran vbase : Nat) : unbindHalf s vgran vbase =
    { s with halves := (unbindHalf s vgran vbase).halves } := by
  unfold unbindHalf
  dsimp only
  split <;> rfl

theorem removeGallery_eq {g : Gallery} (h : s.c.gid ≠ g.gid) : removeGallery s g =
    unbindHalf { s with crews := s.crews.filter (·.gid != g.gid), gals := s.gals.filter (·.gid != g.gid) } g.vgran
      g.vbase.toNat := by
  have e : awayFrom s g.gid = s := if_pos h
  rw [removeGallery, e]

/-- The gallery and its crews are gone, the half that they leave empty is unbound, and nothing else is changed. -/
theorem removeGallery_frame {g : Gallery} (h : s.c.gid ≠ g.gid) : removeGallery s g =
    { s with crews := s.crews.filter (·.gid != g.gid), gals := s.gals.filter (·.gid != g.gid),
             halves := (removeGallery s g).halves } := by
  rw [removeGallery_eq h, unbindHalf_frame]

/-! ### The image (R299) -/

theorem enqueueResume_frame (s : State) (gid : Nat) : enqueueResume s gid =
    { s with records := (enqueueResume s gid).records, arrivals := (enqueueResume s gid).arrivals,
             mem := (enqueueResume s gid).mem, poison := (enqueueResume s gid).poison } := by
  unfold enqueueResume
  split
  · rfl
  · split
    · rfl
    · split
      · rfl
      · rw [poked_syncQuiet _ _]

theorem poked_writeImage (s : State) (l : List Nat) : ∃ q, Poked s q ∧ writeImage s l = { q with fresh := s.fresh + 1 } := by
  refine ⟨_, poked_foldl (fun t (x : Nat × Nat) => poked_putBytes t x.1
    ((List.range 4096).map fun i => Config.freeByte s.fresh (4096 * x.2 + i))) l.zipIdx s, rfl⟩

/-- The saved context of a gallery in an image. -/
def imageContext (s : State) (g : Gallery) (a : Nat) (l : List Nat) (pooled : Bool) : SavedContext :=
  let cs := s.allCrews.filter (·.gid == g.gid)
  { image := some a, pa := l.headD 0, pages := l, pooled := pooled, part := g.rcd.part, gal := { g with image := some a }
    crews := cs, hoist := s.hoist.filter fun h => cs.any (·.uid == h.uid), mx := [], tokens := [], rings := [], tiles := []
    badTiles := [], vault := granuleBytes s g, lost := false }

/-- What the move of a gallery to its image leaves of the crews and the galleries on cores, the freed cores and the saved
contexts. -/
structure Imaged (s : State) (g : Gallery) (a : Nat) (l : List Nat) (pooled : Bool) (t : State) : Prop where
  crew : t.c = s.c
  gal : t.g = s.g
  crews : t.crews = s.crews.filter (·.gid != g.gid)
  gals : t.gals = s.gals.filter (·.gid != g.gid)
  freed : t.freed = s.freed
  lamps : t.lamps = s.lamps
  saved : imageContext s g a l pooled ∈ t.saved

theorem Imaged.told {g : Gallery} {a : Nat} {l : List Nat} {pooled : Bool} (h : Imaged s g a l pooled t) (k : Told t u) :
    Imaged s g a l pooled u where
  crew := (k.same State.c).trans h.crew
  gal := (k.same State.g).trans h.gal
  crews := (k.same State.crews).trans h.crews
  gals := (k.same State.gals).trans h.gals
  freed := (k.same State.freed).trans h.freed
  lamps := (k.same State.lamps).trans h.lamps
  saved := (k.same State.saved) ▸ h.saved

theorem Imaged.crews_subset {g : Gallery} {a : Nat} {l : List Nat} {pooled : Bool} (h : Imaged s g a l pooled t) :
    t.allCrews ⊆ s.allCrews := by
  intro x hx
  rw [State.allCrews, h.crew, h.crews] at hx
  rcases List.mem_cons.1 hx with rfl | hx
  · exact List.mem_cons_self ..
  · exact List.mem_cons_of_mem _ (List.mem_filter.1 hx).1

/-- The gallery off its core and in its image, before what is left to be written. -/
def imaged (s : State) (g : Gallery) (a : Nat) (l : List Nat) (pooled : Bool) : State :=
  let cs := s.allCrews.filter (·.gid == g.gid)
  let s2 := removeGallery (cs.foldl (fun s c => writeContext s g c) s) g
  { s2 with
    saved := s2.saved.filter (fun w => w.image.isNone || w.pa != l.headD 0) ++ [imageContext s g a l pooled]
    hoist := s2.hoist.filter fun h => !cs.any (·.uid == h.uid)
    tokens := (s2.tokens.map fun t => { t with waiting := t.waiting.filter fun u => !cs.any (·.uid == u) }).filter fun t =>
      t.holder.isSome || t.waiting != [] }

theorem saveImage_eq (s : State) (g : Gallery) (a : Nat) (l : List Nat) (pooled : Bool) : saveImage s g a l pooled =
    notify (syncPath (putSaves (if (s.allCrews.filter (·.gid == g.gid)).any (·.woken.isSome)
      then enqueueResume (imaged s g a l pooled) g.gid else imaged s g a l pooled) (s.allCrews.filter (·.gid == g.gid)))
      g.rcd.path) g := rfl

theorem imaged_imaged (h : Still s) {g : Gallery} (hg : s.c.gid ≠ g.gid) (a : Nat) (l : List Nat) (pooled : Bool) :
    Imaged s g a l pooled (imaged s g a l pooled) := by
  have k := told_writeContexts h g (s.allCrews.filter (·.gid == g.gid))
  have hc : ((s.allCrews.filter (·.gid == g.gid)).foldl (fun s c => writeContext s g c) s).c.gid ≠ g.gid := by
    rw [k.same State.c]
    exact hg
  have e := removeGallery_frame hc
  unfold imaged
  dsimp only
  generalize (s.allCrews.filter (·.gid == g.gid)).foldl (fun s c => writeContext s g c) s = q at k e ⊢
  rw [e, k]
  exact ⟨rfl, rfl, rfl, rfl, rfl, rfl, List.mem_append_right _ (List.mem_singleton.2 rfl)⟩

theorem imaged_saveImage (h : Still s) {g : Gallery} (hg : s.c.gid ≠ g.gid) (a : Nat) (l : List Nat) (pooled : Bool) :
    Imaged s g a l pooled (saveImage s g a l pooled) := by
  have h1 := imaged_imaged h hg a l pooled
  have h2 : Imaged s g a l pooled (if (s.allCrews.filter (·.gid == g.gid)).any (·.woken.isSome)
      then enqueueResume (imaged s g a l pooled) g.gid else imaged s g a l pooled) := by
    split
    · rw [enqueueResume_frame]
      exact ⟨h1.crew, h1.gal, h1.crews, h1.gals, h1.freed, h1.lamps, h1.saved⟩
    · exact h1
  rw [saveImage_eq]
  generalize (if (s.allCrews.filter (·.gid == g.gid)).any (·.woken.isSome)
      then enqueueResume (imaged s g a l pooled) g.gid else imaged s g a l pooled) = q at h2 ⊢
  have hq : Still q := h.update h2.crews_subset h2.lamps
  have k1 := told_putSaves hq (s.allCrews.filter (·.gid == g.gid))
  have k2 := k1.trans (told_syncPath (hq.told k1) g.rcd.path)
  exact h2.told (k2.trans (told_notify (hq.told k2) g))

/-! ### The swap (R300) -/

section
variable {g : Gallery} {a : Nat} {l : List Nat} (hs : Stopped s g.gid) (hg : g ∈ s.gals)
  (hn : ∀ h ∈ s.gals, h.gid = g.gid → h = g)
include hs hg hn

theorem galNamed_one : galNamed s g.gid = some g := by
  rw [galNamed_eq, if_neg (by rw [hs.focus]; exact hs.away)]
  cases hf : s.gals.find? (·.gid == g.gid) with
  | none =>
    rw [List.find?_eq_none] at hf
    exact absurd (beq_self_eq_true _) (hf g hg)
  | some x => exact congrArg some (hn x (List.mem_of_find?_eq_some hf) (by simpa using List.find?_some hf))

variable (hp : imagePlace (drainGallery s g.gid) g = some a)
  (hl : imagePages (drainGallery s g.gid) (fun s n va => regionXlate s g.rcd n va) a (imageSize g / 4096) = some l)
include hp hl

theorem swapOut_eq : swapOut s g = saveImage (writeImage (drainGallery s g.gid) l) g a l true := by
  have hgal : (drainGallery s g.gid).gal? g.gid = some g := by
    have h := ((reordered_drainGallery hs).galNamed g.gid).trans (galNamed_one hs hg hn)
    rw [State.gal?, List.find?_append]
    rw [Proofs.galNamed] at h
    rw [h]
    rfl
  unfold swapOut
  dsimp only
  rw [hgal]
  simp only [hp, hl]

variable (h : Still s)
include h

theorem imaged_swapOut : ∃ q, (∀ c, c ∈ q.allCrews ↔ c ∈ s.allCrews) ∧ q.c = s.c ∧ q.g = s.g ∧ q.freed = s.freed ∧
    q.vault = s.vault ∧ Imaged q g a l true (swapOut s g) := by
  have r := reordered_drainGallery hs
  obtain ⟨q, hq, e⟩ := poked_writeImage (drainGallery s g.gid) l
  have fields {α : Type} (f : State → α) (h1 : ∀ m p, f { drainGallery s g.gid with mem := m, poison := p } =
      f (drainGallery s g.gid)) : f q = f (drainGallery s g.gid) := by
    rw [hq]
    exact h1 ..
  have hc : q.c = s.c := (fields State.c fun _ _ => rfl).trans (r.same State.c)
  have hcs : q.allCrews = (drainGallery s g.gid).allCrews := fields State.allCrews fun _ _ => rfl
  have hs1 : Still (drainGallery s g.gid) := h.update r.crews (r.same State.lamps)
  have hq1 : Still (writeImage (drainGallery s g.gid) l) := by
    rw [e]
    exact (hs1.told hq.told).update (List.Subset.refl _)
  refine ⟨writeImage (drainGallery s g.gid) l, ?_, ?_, ?_, ?_, ?_, ?_⟩
  · intro c
    rw [e]
    change c ∈ q.allCrews ↔ _
    rw [hcs]
    exact hs.mem_iff r c
  · rw [e]
    exact hc
  · rw [e]
    exact (fields State.g fun _ _ => rfl).trans (r.same State.g)
  · rw [e]
    exact (fields State.freed fun _ _ => rfl).trans (r.same State.freed)
  · rw [e]
    exact (fields State.vault fun _ _ => rfl).trans (r.same State.vault)
  · rw [swapOut_eq hs hg hn hp hl]
    refine imaged_saveImage hq1 ?_ a l true
    rw [e]
    change q.c.gid ≠ g.gid
    rw [hc]
    exact hs.away

end

end Sys2Proof.Proofs
end
section
/-!
PROOFS. The retirement of a gallery (R156, R157, R293).
-/

namespace Sys2Proof.Proofs
open Sys2Proof Sys2Proof.Machine

set_option Elab.async false

variable {s t : State}

/-! ### Translation rests on memory, the boot state and the publish table -/

section
variable (hm : t.mem = s.mem) (hb : t.boot = s.boot)
include hm hb

theorem readByte_of_mem (a : Nat) : readByte t a = readByte s a := by
  unfold readByte inRom
  rw [hm, hb]

theorem readNat_of_mem (a n : Nat) : readNat t a n = readNat s a n := readNat_congr fun _ _ => readByte_of_mem hm hb _

theorem walk_of_mem (va : Nat) (l : List (Nat × Nat)) : ∀ tbl, walk t va l tbl = walk s va l tbl := by
  induction l with
  | nil => exact fun _ => rfl
  | cons x l ih =>
    intro tbl
    rw [walk, walk, readNat_of_mem hm hb]
    simp only [ih]

omit hm in
theorem partOfDie_of_boot (die : Nat) : partOfDie t die = partOfDie s die := by
  unfold partOfDie
  rw [hb]

omit hm in
theorem homeSlice_of_boot (part pa : Nat) (l : Bool) : homeSlice t part pa l = homeSlice s part pa l := by
  unfold homeSlice partDies
  simp only [partOfDie_of_boot hb]

omit hm in
theorem pageOk_of_boot (part base log : Nat) : pageOk t part base log = pageOk s part base log := by
  unfold pageOk
  rw [partOfDie_of_boot hb]

theorem translate_of_mem (hp : t.pubs = s.pubs) (part asn : Nat) (foreman shadow : Bool) (need : Need) (va : Nat) :
    translate t part asn foreman shadow need va = translate s part asn foreman shadow need va := by
  have hpub : pubAt t part asn va = pubAt s part asn va := by rw [pubAt, hp, pubAt]
  unfold Machine.translate
  simp only [hb, hpub, readNat_of_mem hm hb, walk_of_mem hm hb, homeSlice_of_boot hb,
    pageOk_of_boot hb, partOfDie_of_boot hb]

end

/-! ### What a retirement frees (R156) -/

/-- The names of the crews of a gallery. -/
def ownName (s : State) (gid uid : Nat) : Bool := (s.allCrews.filter (·.gid == gid)).any (·.uid == uid)

theorem ownName_iff (s : State) (gid uid : Nat) : ownName s gid uid = true ↔
    ∃ k ∈ s.allCrews, k.uid = uid ∧ k.gid = gid := by
  simp only [ownName, List.any_eq_true, List.mem_filter, beq_iff_eq, and_assoc]
  exact exists_congr fun k => and_congr_right fun _ => and_comm

theorem not_ownName_iff (s : State) (gid uid : Nat) : (!ownName s gid uid) = true ↔
    ¬ ∃ k ∈ s.allCrews, k.uid = uid ∧ k.gid = gid := by
  rw [← ownName_iff, Bool.not_eq_true', Bool.not_eq_true]

/-- The tokens without the crews of a gallery. -/
def freeTokens (s : State) (gid : Nat) : List Token :=
  (s.tokens.map fun t => { t with
    holder := if (t.holder.map (ownName s gid)).getD false then none else t.holder
    waiting := t.waiting.filter fun u => !ownName s gid u }).filter fun t => t.holder.isSome || t.waiting != []

theorem freeTokens_free (s : State) (gid : Nat) : ∀ x ∈ freeTokens s gid,
    (∀ u, x.holder = some u → ownName s gid u ≠ true) ∧ ∀ u ∈ x.waiting, (!ownName s gid u) = true := by
  intro x hx
  obtain ⟨y, -, rfl⟩ := List.mem_map.1 (List.mem_filter.1 hx).1
  refine ⟨fun u hu => ?_, fun u hu => (List.mem_filter.1 hu).2⟩
  dsimp only at hu
  split at hu
  · cases hu
  · next hn =>
    intro ho
    rw [hu] at hn
    exact hn ho

/-- A gallery off its core, with what it held freed, before its save records and region blocks are written. -/
def vacated (s : State) (g : Gallery) : State :=
  { removeGallery s g with
    freed := if (removeGallery s g).freed.contains g.core then (removeGallery s g).freed
      else (removeGallery s g).freed ++ [g.core]
    rings := (removeGallery s g).rings.filter fun e => !ownName s g.gid e.uid
    scales := (removeGallery s g).scales.filter fun e => !ownName s g.gid e.uid
    spawnq := (removeGallery s g).spawnq.filter fun w => !ownName s g.gid w.uid
    lamps := (removeGallery s g).lamps.filter fun e => !ownName s g.gid e.uid
    tokens := ((removeGallery s g).tokens.map fun t => { t with
      holder := if (t.holder.map (ownName s g.gid)).getD false then none else t.holder
      waiting := t.waiting.filter fun u => !ownName s g.gid u }).filter fun t => t.holder.isSome || t.waiting != [] }

theorem retireGallery_eq (s : State) (g : Gallery) : retireGallery s g =
    syncPath (markSaves (vacated s g) g.rcd (((s.allCrews.filter (·.gid == g.gid)).map (·.save)).filter (· != 0)) 0)
      g.rcd.path := rfl

/-- What is changed of a state from which a gallery retires. -/
theorem vacated_eq {g : Gallery} (hc : s.c.gid ≠ g.gid) : vacated s g = { s with
    crews := s.crews.filter (·.gid != g.gid), gals := s.gals.filter (·.gid != g.gid)
    halves := (removeGallery s g).halves
    freed := if s.freed.contains g.core then s.freed else s.freed ++ [g.core]
    rings := s.rings.filter fun e => !ownName s g.gid e.uid
    scales := s.scales.filter fun e => !ownName s g.gid e.uid
    spawnq := s.spawnq.filter fun w => !ownName s g.gid w.uid
    lamps := s.lamps.filter fun e => !ownName s g.gid e.uid
    tokens := freeTokens s g.gid } := by
  have e := removeGallery_frame hc
  unfold vacated
  generalize removeGallery s g = q at e ⊢
  rw [e]
  rfl

theorem mem_freed (s : State) (core k : Nat) :
    k ∈ (if s.freed.contains core then s.freed else s.freed ++ [core]) ↔ k ∈ s.freed ∨ k = core := by
  split
  · next h =>
    refine ⟨.inl, fun hk => hk.elim id ?_⟩
    rintro rfl
    simpa using h
  · simp

/-- A half of which no gallery holds a granule any more is bound to no ASN (R157). -/
theorem removeGallery_half {g : Gallery} (hc : s.c.gid ≠ g.gid) (hv : g.vgran ≠ 0)
    (he : granulesIn { s with gals := s.gals.filter (·.gid != g.gid), crews := s.crews.filter (·.gid != g.gid) }
      (g.vbase.toNat / 2 ^ 21) = []) : look 65536 (removeGallery s g).halves (g.vbase.toNat / 2 ^ 21) = 65536 := by
  have hb : granulesIn { s with crews := s.crews.filter (·.gid != g.gid), gals := s.gals.filter (·.gid != g.gid) }
      (g.vbase.toNat / 2 ^ 21) = [] := he
  rw [removeGallery_eq hc]
  unfold unbindHalf
  dsimp only
  rw [hb, if_neg (by simp [hv])]
  exact (look_store 65536 s.halves _ _ 65536).trans (if_pos rfl)

section
variable {g : Gallery} (h : Silent s) (hc : s.c.gid ≠ g.gid)
include h hc

theorem silent_vacated : Silent (vacated s g) := by
  rw [vacated_eq hc]
  refine ⟨h.still.update ?_ ?_, h.redq⟩
  · intro x hx
    rcases List.mem_cons.1 hx with rfl | hx
    · exact List.mem_cons_self ..
    · exact List.mem_cons_of_mem _ (List.mem_filter.1 hx).1
  · dsimp only
    rw [h.still.lamps]
    rfl

theorem told_retireGallery : Told (vacated s g) (retireGallery s g) := by
  have hv := (silent_vacated h hc).still
  have k := told_markSaves hv g.rcd (((s.allCrews.filter (·.gid == g.gid)).map (·.save)).filter (· != 0)) 0
  rw [retireGallery_eq]
  exact k.trans (told_syncPath (hv.told k) _)

/-- A field that rests neither on memory nor on fault records. -/
theorem retireGallery_same {α : Type} (f : State → α)
    (hf : ∀ t : State, ∀ m p e q, f { t with mem := m, poison := p, errcnt := e, redq := q } = f t := by
      exact fun _ _ _ _ _ => rfl) : f (retireGallery s g) = f (vacated s g) := (told_retireGallery h hc).same f (hf _)

theorem retireGallery_half (hv : g.vgran ≠ 0)
    (he : granulesIn { s with gals := (retireGallery s g).gals, crews := (retireGallery s g).crews }
      (g.vbase.toNat / 2 ^ 21) = []) : look 65536 (retireGallery s g).halves (g.vbase.toNat / 2 ^ 21) = 65536 := by
  have e := vacated_eq hc
  have hgs : (retireGallery s g).gals = s.gals.filter (·.gid != g.gid) := by
    rw [retireGallery_same h hc State.gals, e]
  have hcs : (retireGallery s g).crews = s.crews.filter (·.gid != g.gid) := by
    rw [retireGallery_same h hc State.crews, e]
  rw [hgs, hcs] at he
  rw [retireGallery_same h hc State.halves, e]
  exact removeGallery_half hc hv he

end

/-! ### Its save records (R293) -/

theorem readByte_syncRegion_apart (h : Silent s) {b a : Nat} (ha : a < b + 0xC0 ∨ b + 0xE0 ≤ a) :
    readByte (syncRegion s b) a = readByte s a := by
  rw [syncRegion_eq]
  generalize residentWord s b = x0
  generalize bits (usedTok s b) 0 16 = x1
  generalize oldestName s b = x2
  generalize poolWord s b = x3
  have k0 := h.poked (poked_putRcb h b 0xC0 x0)
  have k1 := k0.poked (poked_putRcb k0 b 0xC8 x1)
  have k2 := k1.poked (poked_putRcb k1 b 0xD0 x2)
  rw [readByte_putRcb_apart k2 (by omega), readByte_putRcb_apart k1 (by omega), readByte_putRcb_apart k0 (by omega),
    readByte_putRcb_apart h (by omega)]

theorem syncPath_one (s : State) (b : Nat) : syncPath s [b] = syncRegion s b := by
  rw [syncPath, List.foldl_cons, List.foldl_nil]

/-- One save record is marked. -/
theorem markSaves_one {r : Record} {a : Word} {p : Place} (h : regionXlate s r ⟨false, false, false⟩ a.toNat = .ok p)
    (x : Nat) : markSaves s r [a] x = performNat s p.pa 8 x := by
  simp only [markSaves, List.foldl_cons, List.foldl_nil, h]

/-- The save record of the one crew of a retired gallery is free again. -/
theorem retireGallery_record {g : Gallery} (h : Silent s) (hc : s.c.gid ≠ g.gid) {k : Crew} {b : Nat} {p : Place}
    (hk : s.allCrews.filter (·.gid == g.gid) = [k]) (hs : k.save ≠ 0) (hb : g.rcd.path = [b])
    (hx : regionXlate s g.rcd ⟨false, false, false⟩ k.save.toNat = .ok p) (hp : p.pa + 8 ≤ b ∨ b + 256 ≤ p.pa)
    (hrom : ∀ x, x < 8 → inRom s (p.pa + x) = false) : readNat (retireGallery s g) p.pa 8 = 0 := by
  have hv := silent_vacated h hc
  have e := vacated_eq hc
  have hxv : regionXlate (vacated s g) g.rcd ⟨false, false, false⟩ k.save.toNat = .ok p := by
    rw [← hx]
    exact translate_of_mem (by rw [e]) (by rw [e]) (by rw [e]) ..
  have hromv (x : Nat) (hx : x < 8) : inRom (vacated s g) (p.pa + x) = false := by
    rw [e]
    exact hrom x hx
  have hsaves : ((s.allCrews.filter (·.gid == g.gid)).map (·.save)).filter (· != 0) = [k.save] := by
    rw [hk]
    simpa using hs
  rw [retireGallery_eq, hsaves, markSaves_one hxv, hb, syncPath_one]
  rw [readNat_congr fun x hx => readByte_syncRegion_apart (hv.poked (poked_performNat hv ..)) (by omega),
    readNat_performNat_same hv hromv]
  exact Nat.zero_mod _

end Sys2Proof.Proofs
end
section
/-!
PROOFS. The migration of a gallery: it and its crews stand on the target, and its granules hold what they held (R302, R321).
-/

namespace Sys2Proof.Proofs
open Sys2Proof Sys2Proof.Machine

set_option Elab.async false

variable {s t u : State}

/-! ### Granules moved -/

/-- The keys of a map in canonical form rise. -/
theorem pairwise_of_tidyFrom {α : Type} [DecidableEq α] (d : α) (m : Sparse α) : ∀ lo, tidyFrom d lo m = true →
    (∀ e ∈ m, lo ≤ e.1) ∧ m.Pairwise fun a b => a.1 < b.1 := by
  induction m with
  | nil => exact fun _ _ => ⟨nofun, .nil⟩
  | cons e m ih =>
    intro lo h
    obtain ⟨j, x⟩ := e
    simp only [tidyFrom, Bool.and_eq_true, decide_eq_true_eq] at h
    obtain ⟨⟨hlo, -⟩, hm⟩ := h
    obtain ⟨hle, hp⟩ := ih _ hm
    exact ⟨List.forall_mem_cons.2 ⟨hlo, fun e he => by have := hle e he; omega⟩,
      List.pairwise_cons.2 ⟨fun e he => hle e he, hp⟩⟩

/-- Entries stored at a base: each place holds what the map holds there, or what was there before. -/
theorem look_storeAll {α : Type} [DecidableEq α] (d : α) (base : Nat) (l : Sparse α) : ∀ (m : Sparse α) (x : Nat),
    l.Pairwise (fun a b => a.1 < b.1) → look d m (base + x) = d →
    look d (l.foldl (fun m e => store d m (base + e.1) e.2) m) (base + x) = look d l x := by
  induction l with
  | nil => exact fun m x _ h => h
  | cons e l ih =>
    intro m x hp h
    obtain ⟨j, y⟩ := e
    obtain ⟨hj, hp⟩ := List.pairwise_cons.1 hp
    rw [List.foldl_cons]
    by_cases hx : j = x
    · subst hx
      have away (l : Sparse α) (m : Sparse α) (hl : ∀ e ∈ l, e.1 ≠ j) :
          look d (l.foldl (fun m e => store d m (base + e.1) e.2) m) (base + j) = look d m (base + j) := by
        induction l generalizing m with
        | nil => rfl
        | cons e l ih2 =>
          obtain ⟨he, hl⟩ := List.forall_mem_cons.1 hl
          rw [List.foldl_cons, ih2 _ hl, look_store, if_neg (by omega)]
      rw [away l _ fun e he => (hj e he).ne', look_store, if_pos rfl, look, if_pos rfl]
    · rw [ih _ x hp (by rw [look_store, if_neg (by omega)]; exact h), look, if_neg hx]

/-- The bytes of a gallery's granules, by offset. -/
theorem look_granules (m : Sparse Byte) (lo n : Nat) {x : Nat} (hx : x < n) :
    look 0 ((m.filter fun e => decide (lo ≤ e.1) && decide (e.1 < lo + n)).map fun e => (e.1 - lo, e.2)) x =
      look 0 m (lo + x) := by
  induction m with
  | nil => rfl
  | cons e m ih =>
    obtain ⟨i, y⟩ := e
    by_cases hin : lo ≤ i ∧ i < lo + n
    · simp only [List.filter_cons, hin, decide_true, Bool.and_true, if_true, List.map_cons, look, ih]
      by_cases hi : i = lo + x
      · rw [if_pos hi, if_pos (by omega)]
      · rw [if_neg hi, if_neg (by omega)]
    · have hf : (decide (lo ≤ i) && decide (i < lo + n)) = false := by
        simpa only [Bool.and_eq_false_iff, decide_eq_false_iff_not, not_and_or] using hin
      simp only [List.filter_cons, hf, Bool.false_eq_true, if_false, look, ih]
      rw [if_neg (by omega)]

theorem pairwise_granules {m : Sparse Byte} (h : m.Pairwise fun a b => a.1 < b.1) (lo n : Nat) :
    ((m.filter fun e => decide (lo ≤ e.1) && decide (e.1 < lo + n)).map fun e => (e.1 - lo, e.2)).Pairwise
      fun a b => a.1 < b.1 := by
  rw [List.pairwise_map]
  refine (h.filter _).imp_of_mem fun {a b} ha _ hab => ?_
  have := (List.mem_filter.1 ha).2
  simp only [Bool.and_eq_true, decide_eq_true_eq] at this
  dsimp only
  omega

theorem fillGranules_vault (s : State) (vbase vgran : Nat) (l : Sparse Byte) : (fillGranules s vbase vgran l).vault =
    l.foldl (fun m e => store 0 m (vbase + e.1) e.2)
      (s.vault.filter fun e => !(decide (vbase ≤ e.1) && decide (e.1 < vbase + 16384 * vgran))) := by
  have fold (l : Sparse Byte) : ∀ u : State,
      (l.foldl (fun s e => { s with vault := store 0 s.vault (vbase + e.1) e.2 }) u).vault =
        l.foldl (fun m e => store 0 m (vbase + e.1) e.2) u.vault := by
    induction l with
    | nil => exact fun _ => rfl
    | cons e l ih => exact fun u => ih _
  exact fold l _

/-- Granules filled with those of a gallery hold what they held. -/
theorem readVault_fillGranules {vbase : Nat} (hv : tidy 0 s.vault = true) (g : Gallery) {x : Nat} (hx : x < 16384 * g.vgran) :
    readVault (fillGranules u vbase g.vgran (granuleBytes s g)) (vbase + x) = readVault s (g.vbase.toNat + x) := by
  have hp := (pairwise_of_tidyFrom 0 s.vault 0 hv).2
  rw [readVault, fillGranules_vault, granuleBytes, look_storeAll 0 vbase _ _ x (pairwise_granules hp _ _), look_granules _ _ _ hx]
  · rfl
  · rw [look_filter_keys 0 u.vault fun e => !(decide (vbase ≤ e) && decide (e < vbase + 16384 * g.vgran))]
    exact if_neg (by simp; omega)

/-- The vault base that a footprint gets on a core is an address of the vaults. -/
theorem vaultFit_lt {core v asn b : Nat} (hc : core < 384) (h : vaultFit s core v asn = some b) : b < 2 ^ 32 := by
  unfold vaultFit at h
  split at h
  · cases h
    norm_num
  · obtain ⟨⟨owner, half⟩, hx, hb⟩ := List.mem_filterMap.1 (List.mem_of_mem_head? h)
    have hhalf : half ≤ 1 := by
      simp only [List.mem_cons, Prod.mk.injEq, List.not_mem_nil, or_false] at hx
      omega
    dsimp only at hb
    split at hb
    · obtain ⟨i, hi, rfl⟩ := Option.map_eq_some_iff.1 hb
      have hlt := List.mem_range.1 (List.mem_of_find?_eq_some hi)
      unfold halfKey
      omega
    · cases hb

theorem fitsOn_lt {r : Record} {core b : Nat} (hc : core < 384) (h : fitsOn s r core = some b) : b < 2 ^ 32 := by
  unfold fitsOn at h
  dsimp only at h
  split at h
  · cases h
  split at h
  · cases h
  split at h
  · cases h
  split at h
  · cases h
  exact vaultFit_lt hc h

/-! ### Engine work taken and put down (R302, R322) -/

/-- State `t` differs from `s` in engine work alone. -/
def Reworked (s t : State) : Prop := t = { s with
  hoist := t.hoist, mx := t.mx, rings := t.rings, tokens := t.tokens, tiles := t.tiles, badTiles := t.badTiles,
  ids := t.ids, fresh := t.fresh }

theorem Reworked.refl (s : State) : Reworked s s := rfl

theorem Reworked.trans (h : Reworked s t) (k : Reworked t u) : Reworked s u := by
  rw [Reworked, h] at k
  exact k

theorem Reworked.same {α : Type} (h : Reworked s t) (f : State → α)
    (hf : ∀ a b c d e i j k, f { s with
      hoist := a, mx := b, rings := c, tokens := d, tiles := e, badTiles := i, ids := j, fresh := k } = f s := by
        exact fun _ _ _ _ _ _ _ _ => rfl) : f t = f s := by
  rw [h]
  exact hf ..

theorem reworked_foldl {α : Type} {f : State → α → State} (hf : ∀ s x, Reworked s (f s x)) (l : List α) (s : State) :
    Reworked s (l.foldl f s) := by
  induction l generalizing s with
  | nil => exact .refl s
  | cons x l ih => exact (hf s x).trans (ih _)

theorem reworked_setTile (s : State) (k : Nat) (x : BitVec 32) : Reworked s (setTile s k x) := rfl

theorem reworked_setTiles (base : Nat) (x : Nat → BitVec 32) (n : Nat) (l : List Nat) (s : State) :
    Reworked s { l.foldl (fun t k => setTile t (base + k) (x k)) s with fresh := n } :=
  (reworked_foldl (fun t k => reworked_setTile t (base + k) (x k)) l s).trans rfl

theorem reworked_spoilTile (s : State) (cluster tile : Nat) : Reworked s (spoilTile s cluster tile) :=
  reworked_setTiles _ _ _ _ s

theorem reworked_passTokens (h : Reworked s t) : Reworked s (passTokens t) := h.trans rfl

theorem reworked_spoilTiles (cluster : Nat) (l : List Nat) (h : Reworked s t) :
    Reworked s (l.foldl (fun s t => spoilTile s cluster t) t) :=
  h.trans (reworked_foldl (fun s t => reworked_spoilTile s cluster t) l t)

theorem reworked_takeWork (s : State) (g : Gallery) : Reworked s (takeWork s g).2 :=
  reworked_passTokens (reworked_spoilTiles _ _ rfl)

theorem reworked_attachRing (cluster : Nat) (s : State) (e : RingEntry) : Reworked s (attachRing cluster s e) := by
  unfold attachRing
  split <;> rfl

theorem reworked_putWork (s : State) (v : SavedContext) (core : Nat) : Reworked s (putWork s v core) := by
  have h1 := reworked_foldl (reworked_attachRing (clusterOf core)) v.rings s
  have h2 := h1.trans (reworked_foldl (f := readmit (clusterOf core)) (fun _ _ => rfl) v.mx _)
  unfold putWork
  dsimp only
  generalize v.mx.foldl (readmit (clusterOf core)) (v.rings.foldl (attachRing (clusterOf core)) s) = q at h2 ⊢
  exact h2.trans rfl

/-! ### The migration -/

/-- The gallery without its engine work, which travels, and its engine work where it does. -/
def uprooted (s : State) (g : Gallery) (target : Nat) : SavedContext × State :=
  let s0 := (s.allCrews.filter (·.gid == g.gid)).foldl (fun s c => writeContext s g c) s
  if clusterOf g.core == clusterOf target then
    (({ (takeWork s0 g).1 with mx := [], tokens := [], rings := [], tiles := [], badTiles := [] } : SavedContext),
      { s0 with hoist := s0.hoist.filter fun h => !isOf s0 g.gid h.uid })
  else takeWork s0 g

/-- The gallery as it stands on the target. -/
def movedGal (s : State) (g : Gallery) (target vbase : Nat) : Gallery :=
  { g with
    core := target, slot := (freeSlots ((galsOn s target).map (·.slot))).headD 0, vbase := BitVec.ofNat 32 vbase
    reloc := addReloc g vbase }

/-- The gallery and its crews on the target, before its engine work is put down. -/
def settled (s1 : State) (g : Gallery) (cs : List Crew) (target vbase : Nat) : State :=
  let s2 := removeGallery s1 g
  let s3 := if g.vgran = 0 then s2 else fillGranules (bindHalf s2 vbase g.rcd.asn) vbase g.vgran (granuleBytes s1 g)
  { s3 with gals := s3.gals ++ [movedGal s2 g target vbase], crews := s3.crews ++ moveCrews s2 cs target }

theorem migrate_some {g : Gallery} {target : Nat} (h : migrate s g target = some t) : ∃ vbase,
    fitsOn (removeGallery (uprooted s g target).2 g) g.rcd target = some vbase ∧
    t = notify (syncPath (putWork (settled (uprooted s g target).2 g (s.allCrews.filter (·.gid == g.gid)) target vbase)
      (uprooted s g target).1 target) g.rcd.path) (movedGal (removeGallery (uprooted s g target).2 g) g target vbase) := by
  have e : migrate s g target = match fitsOn (removeGallery (uprooted s g target).2 g) g.rcd target with
      | none => none
      | some vbase =>
        if !workFits (removeGallery (uprooted s g target).2 g) (uprooted s g target).1 (clusterOf target) then none
        else some (notify (syncPath (putWork (settled (uprooted s g target).2 g (s.allCrews.filter (·.gid == g.gid)) target
          vbase) (uprooted s g target).1 target) g.rcd.path) (movedGal (removeGallery (uprooted s g target).2 g) g target
          vbase)) := rfl
  rw [e] at h
  split at h
  · cases h
  · next vbase hv =>
    split at h
    · cases h
    · exact ⟨vbase, hv, (Option.some.inj h).symm⟩

/-- What the preparation of a migration leaves. -/
theorem uprooted_same (h : Still s) (g : Gallery) (target : Nat) : ∃ q, Told s q ∧ Reworked q (uprooted s g target).2 := by
  refine ⟨_, told_writeContexts h g (s.allCrews.filter (·.gid == g.gid)), ?_⟩
  unfold uprooted
  dsimp only
  split
  · rfl
  · exact reworked_takeWork _ g

section
variable {g : Gallery} {target vbase : Nat}

theorem mem_moveCrews (s : State) (cs : List Crew) (target : Nat) {k : Crew} (hk : k ∈ moveCrews s cs target) :
    k.core = target := by
  obtain ⟨x, -, rfl⟩ := List.mem_map.1 hk
  rfl

theorem redq_moveCrews (s : State) {cs : List Crew} (target : Nat) {k : Crew} (hk : k ∈ moveCrews s cs target) :
    ∃ c ∈ cs, k.redq = c.redq := by
  obtain ⟨x, hx, rfl⟩ := List.mem_map.1 hk
  exact ⟨x.1, (List.of_mem_zip hx).1, rfl⟩

theorem settled_frame {s1 : State} (hc : s1.c.gid ≠ g.gid) (cs : List Crew) : settled s1 g cs target vbase = { s1 with
    gals := s1.gals.filter (·.gid != g.gid) ++ [movedGal (removeGallery s1 g) g target vbase]
    crews := s1.crews.filter (·.gid != g.gid) ++ moveCrews (removeGallery s1 g) cs target
    halves := (settled s1 g cs target vbase).halves, vault := (settled s1 g cs target vbase).vault
    badVault := (settled s1 g cs target vbase).badVault } := by
  have e := removeGallery_frame hc
  unfold settled
  dsimp only
  generalize moveCrews (removeGallery s1 g) cs target = new
  generalize movedGal (removeGallery s1 g) g target vbase = g1
  generalize removeGallery s1 g = q at e ⊢
  split
  · rw [e]
  · rw [fillGranules_frame, bindHalf_frame, e]

/-- The granules on the target hold what they held. -/
theorem settled_vault {s1 : State} (hv : tidy 0 s1.vault = true) (cs : List Crew) {x : Nat} (hx : x < 16384 * g.vgran) :
    readVault (settled s1 g cs target vbase) (vbase + x) = readVault s1 (g.vbase.toNat + x) := by
  have hn : g.vgran ≠ 0 := by rintro e; rw [e] at hx; omega
  have e : (settled s1 g cs target vbase).vault =
      (fillGranules (bindHalf (removeGallery s1 g) vbase g.rcd.asn) vbase g.vgran (granuleBytes s1 g)).vault := by
    unfold settled
    dsimp only
    rw [if_neg hn]
  rw [readVault, e]
  exact readVault_fillGranules hv g hx

end

section
variable {g : Gallery} {target : Nat} (h : Still s) (hc : s.c.gid ≠ g.gid) (hm : migrate s g target = some t)
include h hc hm

/-- A migration, up to memory, fault records and engine work, puts the gallery and its crews on the target. -/
theorem migrate_settled : ∃ s1 vbase, s1.vault = s.vault ∧ s1.c.gid ≠ g.gid ∧
    (∃ s2, fitsOn s2 g.rcd target = some vbase) ∧
    ∃ q, q = settled s1 g (s.allCrews.filter (·.gid == g.gid)) target vbase ∧ t.crews = q.crews ∧ t.gals = q.gals ∧
      t.vault = q.vault := by
  obtain ⟨vbase, hv, rfl⟩ := migrate_some hm
  obtain ⟨q, k, w⟩ := uprooted_same h g target
  generalize uprooted s g target = v at hv w ⊢
  have hcs : v.2.allCrews = s.allCrews := (w.same State.allCrews).trans (k.same State.allCrews)
  have hc1 : v.2.c.gid ≠ g.gid := by
    rw [w.same State.c, k.same State.c]
    exact hc
  refine ⟨v.2, vbase, (w.same State.vault).trans (k.same State.vault), hc1, ⟨_, hv⟩, _, rfl, ?_⟩
  have hframe := settled_frame (target := target) (vbase := vbase) hc1 (s.allCrews.filter (·.gid == g.gid))
  have hq : Still (settled v.2 g (s.allCrews.filter (·.gid == g.gid)) target vbase) := by
    constructor
    · rw [hframe]
      exact (w.same State.lamps).trans ((k.same State.lamps).trans h.lamps)
    · intro x hx
      rw [hframe] at hx
      rcases List.mem_cons.1 hx with rfl | hx
      · exact h.none _ (hcs ▸ List.mem_cons_self ..)
      · rcases List.mem_append.1 hx with hx | hx
        · exact h.none _ (hcs ▸ List.mem_cons_of_mem _ (List.mem_filter.1 hx).1)
        · obtain ⟨y, hy, e⟩ := redq_moveCrews _ _ hx
          rw [e]
          exact h.none y (List.mem_filter.1 hy).1
  have w1 := reworked_putWork (settled v.2 g (s.allCrews.filter (·.gid == g.gid)) target vbase) v.1 target
  have hw : Still (putWork (settled v.2 g (s.allCrews.filter (·.gid == g.gid)) target vbase) v.1 target) := by
    refine hq.update ?_ (w1.same State.lamps)
    rw [w1.same State.allCrews]
    exact List.Subset.refl _
  have k1 := told_syncPath hw g.rcd.path
  have k2 := k1.trans (told_notify (hw.told k1) (movedGal (removeGallery v.2 g) g target vbase))
  exact ⟨(k2.same State.crews).trans (w1.same State.crews), (k2.same State.gals).trans (w1.same State.gals),
    (k2.same State.vault).trans (w1.same State.vault)⟩

/-- After a migration the crews stand on the target, and the gallery with its granules. -/
theorem migrate_moves (ht : target < 384) (hv : tidy 0 s.vault = true) :
    (∀ k ∈ t.crews, k.gid = g.gid → k.core = target) ∧ ∃ h ∈ t.gals, h.core = target ∧
      h = { g with core := target, slot := h.slot, vbase := h.vbase, reloc := h.reloc } ∧
      ∀ x, x < 16384 * g.vgran → readVault t (h.vbase.toNat + x) = readVault s (g.vbase.toNat + x) := by
  obtain ⟨s1, vbase, hs1, hc1, ⟨s2, hfit⟩, q, rfl, hcrews, hgals, hvault⟩ := migrate_settled h hc hm
  have hframe := settled_frame (target := target) (vbase := vbase) hc1 (s.allCrews.filter (·.gid == g.gid))
  have hb : (BitVec.ofNat 32 vbase).toNat = vbase := by
    rw [BitVec.toNat_ofNat]
    exact Nat.mod_eq_of_lt (fitsOn_lt ht hfit)
  refine ⟨fun k hk hg => ?_, movedGal (removeGallery s1 g) g target vbase, ?_, rfl, rfl, fun x hx => ?_⟩
  · rw [hcrews, hframe] at hk
    rcases List.mem_append.1 hk with hk | hk
    · have := (List.mem_filter.1 hk).2
      simp [hg] at this
    · exact mem_moveCrews _ _ _ hk
  · rw [hgals, hframe]
    exact List.mem_append_right _ (List.mem_singleton.2 rfl)
  · have e : (movedGal (removeGallery s1 g) g target vbase).vbase.toNat = vbase := hb
    have hs : readVault s1 (g.vbase.toNat + x) = readVault s (g.vbase.toNat + x) := by rw [readVault, hs1, readVault]
    rw [e, ← hs, readVault, hvault]
    exact settled_vault (hs1 ▸ hv) _ hx

end

end Sys2Proof.Proofs
end
section
/-!
PROOFS. The events of the distributor and of context moves, clause by clause.
-/

namespace Sys2Proof.Proofs
open Sys2Proof Sys2Proof.Machine

set_option Elab.async false

/-- Settles O52: each event from what its operation does; where nothing waits, the writes that tell of it change memory
alone. -/
theorem schedulingEvents : Obligations.SchedulingEvents := by
  unfold Obligations.SchedulingEvents
  refine ⟨fun s q hq => ⟨fun hd => ?entered, fun hd => ?stillDrains⟩, fun s => ?gangs, ?refill, ?openCores, ?retried, ?spawns,
    ?spawn, ?lost, fun s l c k v h => firstFit_some h, ?placed, ?resumed, fun s part => ⟨fun h g hg => swapFor_none h hg,
      fun t h => swapFor_some h, fun g => swappable_iff s part g⟩, ?swapped, ?completed, ?cells, ?retired, ?block, ?torn,
    ?graceOver, ?moves, ?saves, ?migrated, ?loads, ?dropped, ?finished⟩
  case entered =>
    refine ⟨_, exec_trapEntry_focus hq, ?_⟩
    rw [if_pos hd]
    exact ⟨rfl, fun hb => (takeTrap_drained hd hb q).symm⟩
  case stillDrains =>
    exact ⟨_, exec_trapEntry_focus hq, by rw [if_neg (by simp [hd])]⟩
  case gangs =>
    refine ⟨_, rfl, ?_⟩
    congr 2
    funext f
    split <;> rfl
  case refill =>
    intro s part core hm hp hf hd hl u c v hfit
    exact ⟨_, exec_placementDecision part s, placementDecision_refill hm hp hf hd hl hfit⟩
  case openCores =>
    intro s part hm hp hf hne
    have e := placementDecision_open hm hp hf hne
    refine ⟨fun c k v h => ⟨_, exec_placementDecision part s, ?_⟩, fun h => ⟨_, exec_placementDecision part s, ?_⟩⟩
    · rw [e, h]
    · rw [e, h]
  case retried =>
    intro s part hm u hu hmu
    exact exec_placementDecision_retry hm hu hmu
  case spawns =>
    exact fun s path w => ⟨retrySpawns_of_none, fun x hq hw hx => retrySpawns_pair hq hw hx⟩
  case spawn =>
    intro s w word a e hg hw hf hd gone
    have hword : spawnWord s = .ok (some (e, a)) := by
      rcases hd with ⟨hd, rfl⟩ | ⟨hd, rfl⟩ <;> simp only [spawnWord, hf, hd]
    rw [retrySpawn_here hw hword]
    refine ⟨fun path h => ?_, fun u h => ?_, fun x h => ?_⟩
    · rw [retryHere, h, hw]
      rfl
    · have k : Kept True s (done (gone u)) := kept_done (kept_update (kept_taskEnqueue _ _ h (.refl True s)))
      obtain ⟨-, -, huid, hgid⟩ := k.named trivial
      refine ⟨done (gone u), crewEffect_done (gone u) u.c rfl rfl rfl rfl, ?_⟩
      rw [retryHere, h, hw, ← huid]
      exact saveWordPut_putSave0 (hgid hg)
    · rw [retryHere, h]
      rfl
  case lost =>
    intro s v
    simp only [contextLost_iff, saveLost_iff]
  case placed =>
    intro s c core v hr hq hl hrq hn r saves slots live t hsv hsl
    have h : Still s := ⟨hl, hn⟩
    have e := unqueue_bound_frame (c := c) (v := v) h
    have records : t.records = (dequeued (bound s c v) c).records := by
      rw [place_new_same h hr hq State.records, seated, e]
    have halves : t.halves = (bound s c v).halves := by rw [place_new_same h hr hq State.halves, seated, e]
    have vault : t.vault = (bound s c v).vault := by rw [place_new_same h hr hq State.vault, seated, e]
    refine ⟨?_, ?_, ?_, ?_, ⟨placedGal s c core v, ?_, rfl, fun th n hn => newGallery_v _ _ _ _ _ _ _ hn,
      newGallery_owner _ _ _ _ _ _ _⟩, ?_, fun q => ?_, fun hv hf => ?_, fun k hk => ?_⟩
    · rw [place_new_same h hr hq State.c, seated, e]
    · rw [place_new_same h hr hq State.g, seated, e]
    · rw [place_new_same h hr hq State.freed, seated, e]
    · rw [place_new_same h hr hq State.saved, seated, e]
    · rw [place_new_same h hr hq State.gals, seated, e]
    · rw [place_new_same h hr hq State.crews, seated, e]
      exact congrArg (s.crews ++ ·) (newCrews_eq r s.ids core (s.ids + 1) live hsl hsv)
    · rw [records, mem_dequeued, bound_frame]
    · have hb : bound s c v = bindHalf s v r.asn := if_neg hv.ne'
      obtain ⟨ho, hz⟩ := bindHalf_free r.asn hf
      refine ⟨by rw [halves, hb]; exact ho, fun x hx => ?_⟩
      rw [readVault, vault, hb]
      exact hz x hx
    · rw [halves]
      exact bound_other s c v hk
  case resumed =>
    intro s c core v gid x hr hq hc hg hn hl hrq hnw s1 t hx
    have h : Still s := ⟨hl, hnw⟩
    have e : t = _ := (place_resume h hr hq hx).trans (placeResume_eq h hx)
    obtain rfl : x.gal.gid = gid := by simpa using List.find?_some hx
    have k := told_unqueue_self (c := c) h
    refine ⟨fun hlost => by rw [e, if_pos hlost], fun hkept => ?_⟩
    rw [e, if_neg (by rw [hkept]; exact Bool.false_ne_true)]
    refine ⟨restoreImage_saved _ x core v, ?_⟩
    obtain ⟨g, hgs, hp⟩ := restoreImage_stands (s := unqueue s c) (x := x) (by rw [k.same State.c]; exact hc)
      (by rw [k.same State.c, k.same State.g]; exact hg) (by rw [k.same State.gals]; exact hn) core v
    simp only [galPlace, restoredGal, Prod.mk.injEq] at hp
    exact ⟨g, hgs, hp⟩
  case swapped =>
    intro s g a l hc hg hl hrq hnw hempty hgs hone hnames hp hpages t
    have hs : Stopped s g.gid := ⟨hc, hg, fun k hk hkg => by
      obtain ⟨h1, h2, h3, h4, h5⟩ := hempty k hk hkg
      exact ⟨h1, h2, h3, h4, h5⟩, hnames⟩
    obtain ⟨q, hcrews, hqc, hqg, hfreed, hvault, him⟩ := imaged_swapOut hs hgs hone hp hpages ⟨hl, hnw⟩
    refine ⟨fun h hh => ?_, fun k hk => ?_, him.freed.trans hfreed, imageContext q g a l true, him.saved, rfl, rfl, rfl, rfl,
      rfl, fun k => ?_, ?_, rfl, rfl⟩
    · rw [State.allGals, him.gal, him.gals, hqg] at hh
      rcases List.mem_cons.1 hh with rfl | hh
      · rw [hg]
        exact hc
      · simpa using (List.mem_filter.1 hh).2
    · rw [State.allCrews, him.crew, him.crews, hqc] at hk
      rcases List.mem_cons.1 hk with rfl | hk
      · exact hc
      · simpa using (List.mem_filter.1 hk).2
    · rw [← hcrews k]
      simp [imageContext]
    · simp only [imageContext, granuleBytes, hvault]
  case completed =>
    intro s g hg
    refine ⟨fun h => ⟨_, exec_recordCompletion hg, if_pos h⟩, fun h => ⟨_, exec_recordCompletion hg, if_neg (by simp [h])⟩⟩
  case cells =>
    intro s g r cell n core pos hn
    refine ⟨decCell_dep hn core pos, decCell_plain hn core pos, ?_⟩
    intro last spoiled sound
    have unsound {u : State} {pa : Nat} (h : ¬ sound u pa) : poisoned u false pa 8 = true := by simpa [sound] using h
    refine ⟨fun hs ht hc => ⟨fun h => ?_, fun h => ?_⟩, fun hs hj hc hp hne => ?_, fun p hj ht hs hx h => ?_,
      fun p q u hj ht hs hx hp hc hne hd hd1 hu hy hq hz => ?_⟩
    · rw [completeRecord_join hs ht, completeDec_plain (.inl rfl) hc hn, if_pos (unsound h)]
      rfl
    · rw [completeRecord_join hs ht, completeDec_plain (.inl rfl) hc hn, if_neg (by rw [h]; exact Bool.false_ne_true)]
    · intro u hcu hnu hpu
      exact completeRecord_tree hs hj hc hn hp hne rfl hcu hnu hpu
    · exact completeRecord_first hj ht hs hx (unsound h)
    · exact completeRecord_one hj ht hs hx hp hc hn hne (cellSpoiled_dep hn hd hd1) hu hy hq hz
  case retired =>
    intro s g hc hg hl hrq hnw t mine
    have h : Silent s := ⟨⟨hl, hnw⟩, hrq⟩
    have e := vacated_eq hc
    have tokens : t.tokens = freeTokens s g.gid := by rw [retireGallery_same h hc State.tokens, e]
    refine ⟨?_, ?_, ?_, ?_, fun k => ?_, ?_, ?_, fun x => ?_, fun x => ?_, fun x => ?_, fun x hx => ?_,
      retireGallery_half h hc, fun k b p hk hs hb hx hp hrom => retireGallery_record h hc hk hs hb hx hp hrom⟩
    · rw [retireGallery_same h hc State.gals, e]
      exact List.filter_congr fun x _ => by by_cases hx : x.gid = g.gid <;> simp [hx]
    · rw [retireGallery_same h hc State.crews, e]
      exact List.filter_congr fun x _ => by by_cases hx : x.gid = g.gid <;> simp [hx]
    · rw [retireGallery_same h hc State.c, e]
    · rw [retireGallery_same h hc State.g, e]
    · rw [retireGallery_same h hc State.freed, e, mem_freed]
    · rw [retireGallery_same h hc State.saved, e]
    · rw [retireGallery_same h hc State.records, e]
    · rw [retireGallery_same h hc State.rings, e, List.mem_filter, not_ownName_iff]
    · rw [retireGallery_same h hc State.scales, e, List.mem_filter, not_ownName_iff]
    · rw [retireGallery_same h hc State.spawnq, e, List.mem_filter, not_ownName_iff]
    · rw [tokens] at hx
      obtain ⟨hholder, hwaiting⟩ := freeTokens_free s g.gid x hx
      exact ⟨fun u hu hm => hholder u hu ((ownName_iff ..).2 hm), fun u hu => (not_ownName_iff ..).1 (hwaiting u hu)⟩
  case block =>
    intro s b hl hrq hnw hrom t word below waiting
    have h : Silent s := ⟨⟨hl, hnw⟩, hrq⟩
    obtain ⟨hres, htok, hold, hout⟩ := syncRegion_words h hrom
    change word 0xC0 = _ at hres
    change word 0xC8 = _ at htok
    change word 0xD0 = _ at hold
    obtain ⟨h0, h1, h2, h3⟩ := residentWord_fields s b
    have hbelow : under s b = below := under_eq s b
    refine ⟨?_, ?_, ?_, ?_, ?_, fun r hr hb hp hd hf => ?_, fun hn => ?_, hout, poked_syncRegion h b⟩
    · rw [hres, h0, usedReg, total_eq_sum, hbelow]
      rfl
    · rw [hres, h1, usedVlt, total_eq_sum, hbelow]
    · rw [hres, h2, usedGal, hbelow]
    · rw [hres, h3]
      rfl
    · rw [htok, usedTok_eq, bits, pow_zero, Nat.div_one]
    · rw [hold]
      exact oldestName_of_first hr ⟨hb, hp, hd⟩ fun q hq hqb hne => by
        obtain ⟨h1, h2, h3⟩ := hqb
        exact hf q hq h1 h2 h3 hne
    · rw [hold]
      exact oldestName_of_none hn
  case torn =>
    intro s part region asn p h
    obtain ⟨u, hu⟩ := exec_teardown h
    exact ⟨_, hu, tearOne_listed u part.toNat p.pa⟩
  case graceOver =>
    intro s old more x hx hg
    refine ⟨fun he => ⟨endTeardown s x, teardownGraceExpiry_over hx hg he, rfl, fun hl hn r => ?_, fun r => ?_⟩,
      fun he => ⟨s, teardownGraceExpiry_early hx he, rfl⟩⟩
    · rw [endTeardown_records ⟨hl, hn⟩, dropRecords, mem_dropRecords, tornBy_false_iff]
    · rw [endTeardown_forming, ← tornBy_false_iff]
      exact mem_dropForming s.forming (tornBy x) r
  case moves =>
    intro s j hj
    exact ⟨fun hl => ⟨_, exec_contextSaveDone_one hj, by simp [hl]⟩, fun hl => ⟨_, exec_contextSaveDone_one hj, by simp [hl]⟩⟩
  case saves =>
    intro s j part shadow gs s1 ready hl
    have hgs : jobGals s j = gs := jobGals_eq hl
    have hs1 : jobDrained s j = s1 := jobDrained_eq hl
    have hsh : shadows s part ≠ [] ↔ shadow := shadows_ne_nil s part
    clear_value s1
    clear_value gs
    subst hgs hs1
    have free (hr : ready) : j.mode = 1 → ¬ shadows s part ≠ [] := fun h1 => hsh.not.2 (hr.2.2.2 h1)
    refine ⟨saveJob_refused, saveJob_none, fun h1 hd hg hs => saveJob_shadowed (by rw [h1]; decide) hd hg h1 (hsh.2 hs),
      fun hr h => ?_, fun hr h k => ?_, fun hr h k => ?_⟩
    · obtain ⟨hm, hd, hg, -⟩ := id hr
      exact saveJob_unsettled hm hd hg (free hr) h
    · obtain ⟨hm, hd, hg, -⟩ := id hr
      exact saveJob_undrained hm hd hg (free hr) h k
    · obtain ⟨hm, hd, hg, -⟩ := id hr
      rw [saveJob_drained hm hd hg (free hr) h k]
      refine ⟨saveMoved_shadow, fun g h rest hgs hgal => ⟨fun h0 hw => ?_, fun h0 ht hmx hrg hal l hpg => ?_,
        fun h2 ht => ?_, fun h2 ht hmig => ?_, fun u h2 ht hmig => ?_⟩⟩
      · rw [saveMoved_image hgs hgal h0]
        exact saveToImage_refused (by simpa only [HoldsWork, or_assoc] using hw)
      · rw [saveMoved_image hgs hgal h0]
        refine saveToImage_saved ?_ hpg
        rintro ((⟨t, hin, u, hu, ho⟩ | ⟨m, hin, ho⟩ | ⟨e, hin, ho⟩) | hne)
        · rw [ht t hin u hu] at ho
          cases ho
        · rw [hmx m hin] at ho
          cases ho
        · rw [hrg e hin] at ho
          cases ho
        · exact hne hal
      · rw [saveMoved_migrate hgs hgal h2, if_pos (by simp [ht])]
      · rw [saveMoved_migrate hgs hgal h2, if_neg (by simp [ht]), hmig]
      · rw [saveMoved_migrate hgs hgal h2, if_neg (by simp [ht]), hmig]
  case migrated =>
    intro s g target
    exact ⟨targetOk_iff s g target, gallerySettled_iff s g.gid, fun t hm ht hc hg hl hrq hn hv => by
      simp only [State.tidy, Bool.and_eq_true] at hv
      exact migrate_moves ⟨hl, hn⟩ hc hm ht hv.1.2⟩
  case loads =>
    intro s j part vs here place mine
    have hmine : namedContext s j = mine := rfl
    refine ⟨loadJob_refused, fun h1 hd hv => ?_, fun h1 hd hv => ?_, fun h1 hd hv hk => ?_, fun h0 hd hv => ?_,
      fun v h0 hd hv => ?_⟩
    · exact (loadJob_shadows hd h1).trans (if_pos hv)
    · obtain ⟨v, hin, hlost⟩ := hv
      have hf : vs.filter (contextLost s) ≠ [] := List.ne_nil_of_mem (List.mem_filter.2 ⟨hin, hlost⟩)
      exact (loadJob_shadows hd h1).trans ((if_neg (List.ne_nil_of_mem hin)).trans (if_pos hf))
    · have hf : ¬ vs.filter (contextLost s) ≠ [] := not_not.2 (List.filter_eq_nil_iff.2 fun v hin => by simp [hk v hin])
      exact (loadJob_shadows hd h1).trans ((if_neg hv).trans (if_neg hf))
    · rw [loadJob_image hd h0, hmine, List.find?_eq_none.2 fun v hin => by simp [hv v hin]]
    · have e := loadJob_image hd h0
      rw [hmine, hv] at e
      refine ⟨fun hlost => ?_, fun hkept h96 => ?_, fun hkept h96 hfit => ?_, fun b hkept h96 hfit => ?_⟩
      · exact e.trans (if_pos hlost)
      · exact e.trans ((if_neg (by simp [hkept])).trans (if_pos h96))
      · refine e.trans ((if_neg (by simp [hkept])).trans ((if_neg h96).trans ?_))
        rw [hfit]
      · refine e.trans ((if_neg (by simp [hkept])).trans ((if_neg h96).trans ?_))
        rw [hfit]
  case dropped =>
    intro s gone t forming
    exact ⟨mem_dropRecords s gone, mem_dropForming s.forming gone, mem_pendFell s gone, dropUnplaced_frame s gone⟩
  case finished =>
    intro s j status hl hrq hn hj hm hrom
    exact finishJob_silent ⟨⟨hl, hn⟩, hrq⟩ hj hm hrom status

end Sys2Proof.Proofs
end
section
/-!
PROOFS. The floating-point lane words (R82, R113, R116 to R119).
-/

namespace Sys2Proof.Proofs
open Sys2Proof Sys2Proof.Machine

/-- A floating-point word writes the results of its function, element by element, and gathers their flags. -/
theorem laneEffect_laneFp {s t : State} {w : BitVec 2} {d : BitVec 7} {f : Nat → Nat → FRes} (ht : t = laneFp s w d f) :
    let r (th : Nat) : FRes := packResults (fmtOf w).width (subResults (fmtOf w).width (f th))
    LaneEffect s t d (fun th => w64 (r th).bits) (BitVec.ofNat 10 (flagsOf ((laneThreads s).map r))) :=
  laneEffect_of_results ht rfl

/-- Settles O24: each word writes its function of the elements that the threads hold. -/
theorem laneFloatWords : Obligations.LaneFloatWords := by
  unfold Obligations.LaneFloatWords
  intro s w d a b m k x y z
  simp only [List.forall_mem_cons, List.not_mem_nil, IsEmpty.forall_iff, implies_true, and_true]
  refine ⟨?fadd, ?fsub, ?fmul, ?ffma, ?fmin, ?fmax, ?fcmp, ?fabs, ?fneg, ?fflr, ?fceil, ?ftrunc, ?frint⟩ <;>
    exact fun hr => completes_of_arm (fun _ => rfl) hr (laneEffect_laneFp rfl)

end Sys2Proof.Proofs
end
section
/-!
PROOFS. What the writes, the fault records and the wakes of the hardware leave as it stands: the collectives that the part
has issued, and its Pacer member (R188, R190, R232, R288, R296, R306).
-/

namespace Sys2Proof.Proofs
open Sys2Proof Sys2Proof.Machine

set_option Elab.async false

/-- The collectives that the part has issued, and its Pacer member. -/
def peering (s : State) : List Coll × Pacer := (s.colls, s.pacer)

variable {s : State}

theorem colls_of_peering {s t : State} (h : peering t = peering s) : t.colls = s.colls := congrArg Prod.fst h

theorem pacer_of_peering {s t : State} (h : peering t = peering s) : t.pacer = s.pacer := congrArg Prod.snd h

/-- Operations done one after another. -/
theorem peering_foldl {α : Type} {f : State → α → State} (hf : ∀ s x, peering (f s x) = peering s) (l : List α) :
    ∀ s, peering (l.foldl f s) = peering s := by
  induction l with
  | nil => exact fun _ => rfl
  | cons x l ih => exact fun s => (ih _).trans (hf s x)

/-! ### The focus, and single crews -/

@[simp] theorem peering_focus (s : State) (uid : Nat) : peering (s.focus uid) = peering s := by
  unfold State.focus
  split
  · rfl
  · split
    · rfl
    · dsimp only
      split
      · rfl
      · split <;> rfl

theorem peering_inFocus {f : State → State} (hf : ∀ s, peering (f s) = peering s) (s : State) (uid : Nat) :
    peering (inFocus s uid f) = peering s := by
  unfold inFocus
  split
  · simp [hf]
  · rfl

@[simp] theorem peering_onCrew (s : State) (uid : Nat) (f : Crew → Crew) : peering (s.onCrew uid f) = peering s := by
  unfold State.onCrew
  split <;> rfl

/-! ### Memory, save records and region blocks -/

@[simp] theorem peering_writeBytes (s : State) (pa : Nat) (bs : List Byte) : peering (writeBytes s pa bs) = peering s := by
  rw [writeBytes_mem]; rfl

@[simp] theorem peering_writeVault (s : State) (a : Nat) (bs : List Byte) : peering (writeVault s a bs) = peering s := by
  rw [writeVault_vault]; rfl

@[simp] theorem peering_savePut (g : Gallery) (save : Word) (bs : List Byte) : ∀ (s : State) (off : Nat),
    peering (savePut s g save off bs) = peering s := by
  induction bs with
  | nil => exact fun _ _ => rfl
  | cons b bs ih =>
    intro s off
    unfold savePut
    rw [ih]
    split
    · rfl
    · rw [writeByte_mem]; rfl

@[simp] theorem peering_saveMend (s : State) (g : Gallery) (save : Word) (off n : Nat) :
    peering (saveMend s g save off n) = peering s := by
  unfold saveMend
  split <;> rfl

@[simp] theorem peering_putSaveQuiet (s : State) (uid : Nat) : peering (putSaveQuiet s uid) = peering s := by
  unfold putSaveQuiet
  split
  · rfl
  · split <;> simp

@[simp] theorem peering_syncQuiet (s : State) (path : List Nat) : peering (syncQuiet s path) = peering s := by
  unfold syncQuiet
  refine peering_foldl (fun s pa => peering_foldl (fun t x => ?_) _ s) _ s
  split
  · rfl
  · exact peering_writeBytes ..

@[simp] theorem peering_enqueueResume (s : State) (gid : Nat) : peering (enqueueResume s gid) = peering s := by
  unfold enqueueResume
  split
  · rfl
  · split
    · rfl
    · split
      · rfl
      · exact peering_syncQuiet ..

/-! ### The Lamproom -/

@[simp] theorem peering_wake (s : State) (uid : Nat) (st : BitVec 2) : peering (wake s uid st) = peering s := by
  unfold wake
  split <;> simp

theorem peering_clearFilters (s : State) : peering (clearFilters s) = peering s := rfl

@[simp] theorem peering_wakeEntries (s : State) (hit : LampEntry → Bool) (st : BitVec 2) :
    peering (wakeEntries s hit st) = peering s :=
  (peering_clearFilters _).trans (peering_foldl (fun _ _ => peering_wake ..) _ _)

@[simp] theorem peering_relightLines (n : Nat) : ∀ (s : State) (l : List Nat), peering (relightLines n s l) = peering s := by
  induction n with
  | zero => intro s l; cases l <;> rfl
  | succ n ih =>
    intro s l
    cases l with
    | nil => rfl
    | cons x l => exact (ih _ _).trans (peering_wakeEntries ..)

@[simp] theorem peering_relightAll (s : State) (l : List Nat) : peering (relightAll s l) = peering s := by
  unfold relightAll
  split <;> simp

@[simp] theorem peering_saveWrite (s : State) (g : Gallery) (save : Word) (off : Nat) (bs : List Byte) :
    peering (saveWrite s g save off bs) = peering s := by
  unfold saveWrite
  dsimp only
  split <;> simp

@[simp] theorem peering_putSave0 (s : State) (uid : Nat) : peering (putSave0 s uid) = peering s := by
  unfold putSave0
  split
  · rfl
  · split <;> simp

@[simp] theorem peering_putBytes (s : State) (pa : Nat) (bs : List Byte) : peering (putBytes s pa bs) = peering s :=
  peering_writeBytes ..

@[simp] theorem peering_hardwareWrite (s : State) (pa : Nat) (bs : List Byte) :
    peering (hardwareWrite s pa bs) = peering s :=
  (peering_relightAll ..).trans (peering_putBytes ..)

/-! ### Rings, teardowns and fault records -/

@[simp] theorem peering_setLost (s : State) (pa : Nat) : peering (setLost s pa) = peering s := by
  unfold setLost
  split <;> simp

@[simp] theorem peering_countError (s : State) : peering (countError s) = peering s := rfl

@[simp] theorem peering_ringPush (s : State) (xl : State → Need → Nat → Except Cause Place) (cb : Nat) (b : Byte)
    (p : List Byte) : peering (ringPush s xl cb b p).1 = peering s := by
  unfold ringPush
  split
  · rfl
  · split
    · unfold dropSlot
      split <;> simp
    · split
      · simp
      · split
        · simp
        · split <;> simp

@[simp] theorem peering_tearOne (s : State) (part block : Nat) : peering (tearOne s part block) = peering s := by
  unfold tearOne
  split
  · rfl
  · extract_lets mine src s1 hit paths s2 out s3 s4
    have h3 : peering s3 = peering s := peering_foldl (fun s e => by
      split
      · rfl
      · split <;> simp) _ _
    have h4 : peering s4 = peering s3 :=
      (peering_syncQuiet ..).trans (peering_foldl (fun _ _ => peering_enqueueResume ..) _ _)
    rw [peering_relightAll, h4, h3]

@[simp] theorem peering_tearDomain (s : State) (q : Record) : peering (tearDomain s q) = peering s := by
  unfold tearDomain
  split
  · rfl
  · split
    · simp
    · exact peering_foldl (fun _ _ => peering_tearOne ..) _ s

@[simp] theorem peering_regionFault (s : State) (q : Record) (f : FaultRec) : peering (regionFault s q f) = peering s := by
  have h1 (ring : Nat) : peering (if ring == 0 then countError s
      else (ringPush s (fun s n va => regionXlate s q n va) ring (BitVec.ofNat 8 f.cause.code) (f.bytes s.timens)).1) =
      peering s := by
    split <;> simp
  unfold regionFault
  split
  · rfl
  · dsimp only
    split
    · exact (peering_tearDomain ..).trans (h1 _)
    · exact h1 _

@[simp] theorem peering_crewFault (s : State) (uid : Nat) (f : FaultRec) : peering (crewFault s uid f) = peering s := by
  unfold crewFault
  split
  · rfl
  · split <;> simp

/-! ### Writes and reductions at their slices -/

@[simp] theorem peering_registerWrite (s : State) (pa : Nat) (bs : List Byte) :
    peering (registerWrite s pa bs) = peering s := by
  have h1 : peering (dropPassed (putBytes s pa bs) pa bs.length) = peering (putBytes s pa bs) :=
    peering_foldl (fun s h => peering_regionFault ..) _ _
  unfold registerWrite relightRun
  rw [peering_relightAll]
  split <;> simp [h1]

@[simp] theorem peering_applyHeld (n : Nat) : ∀ (s : State) (obj : Nat), peering (applyHeld n s obj) = peering s := by
  induction n with
  | zero => exact fun _ _ => rfl
  | succ n ih =>
    intro s obj
    simp only [applyHeld]
    split
    · rfl
    · rw [ih, peering_registerWrite]; rfl

@[simp] theorem peering_contribute (s : State) (x : Contribution) : peering (contribute s x).1 = peering s :=
  contribute_keeps s x (fun q => peering q.1 = peering s) (fun _ => rfl) fun n => peering_applyHeld n _ _

@[simp] theorem peering_deferEccAt (s : State) (a : Word) (t k : Nat) (x : Word) :
    peering (deferEccAt s a t k x) = peering s := by
  have h1 (f : FaultRec) : peering (crewFault s s.c.uid f) = peering s := peering_crewFault ..
  unfold deferEccAt
  dsimp only
  split
  · exact h1 _
  · exact h1 _

@[simp] theorem peering_settleDups (s : State) : peering (settleDups s) = peering s := by
  unfold settleDups
  refine peering_foldl (fun s d => ?_) _ _
  split
  · exact peering_crewFault ..
  · rfl

@[simp] theorem peering_takeAnswer (x : Contribution) (q : State × Answer) : peering (takeAnswer x q) = peering q.1 := by
  obtain ⟨s, a⟩ := q
  cases a with
  | accepted => rfl
  | duplicate => rfl
  | poisoned => exact peering_deferEccAt ..
  | tooFar =>
    change peering (if x.seen.isSome then s else refuse s x) = peering s
    split <;> rfl

@[simp] theorem peering_offer (s : State) (x : Contribution) : peering (offer s x) = peering s :=
  (peering_settleDups _).trans ((peering_takeAnswer ..).trans (peering_contribute ..))

@[simp] theorem peering_retryPending (s : State) : peering (retryPending s) = peering s := by
  unfold retryPending
  generalize total s.allCrews (·.redq.length) = n
  induction n generalizing s with
  | zero => rfl
  | succ n ih =>
    simp only [retrySome]
    split
    · rfl
    · rw [ih, peering_inFocus fun s => peering_offer s _]

@[simp] theorem peering_offerAll (s : State) : peering (offerAll s) = peering s := by
  unfold offerAll
  split
  · rfl
  · next hne =>
    clear hne
    generalize s.c.redq.length = n
    induction n generalizing s with
    | zero => rfl
    | succ n ih =>
      simp only [offerSome]
      split
      · rfl
      · rw [ih, peering_retryPending, peering_offer]

@[simp] theorem peering_performGlobal (s : State) (pa : Nat) (bs : List Byte) :
    peering (performGlobal s pa bs) = peering s :=
  performGlobal_keeps s pa bs (fun t => peering t = peering s) (peering_registerWrite ..)
    fun t h => (peering_retryPending t).trans h

@[simp] theorem peering_performNat (s : State) (pa n x : Nat) : peering (performNat s pa n x) = peering s :=
  peering_performGlobal ..

@[simp] theorem peering_performAll (s : State) : peering (performAll s) = peering s := by
  refine peering_foldl (fun s p => peering_foldl (fun s a => ?_) _ s) _ _
  unfold performOf
  split
  · unfold performWrite
    split
    · exact peering_writeVault ..
    · exact peering_performGlobal ..
  · exact peering_crewFault ..

/-! ### Traps, and crews that wait on tags (R278, R288, R291) -/

@[simp] theorem peering_drain (s : State) : peering (drain s) = peering s := by
  have hl : peering (landAll s) = peering s := by
    refine peering_foldl (fun s l => ?_) _ _
    unfold landResult
    dsimp only
    split
    · rfl
    · rfl
    · rfl
    · exact peering_deferEccAt ..
  have h1 : peering (performAll (offerAll (performAll (landAll s)))) = peering s := by simp [hl]
  exact h1

@[simp] theorem peering_haltCrew (s : State) (f : FaultRec) : peering (haltCrew s f) = peering s := by
  have h1 : peering (putSave0 { s with c := { s.c with status := .halted } } s.c.uid) = peering s := peering_putSave0 ..
  unfold haltCrew
  generalize putSave0 { s with c := { s.c with status := .halted } } s.c.uid = s1 at h1 ⊢
  dsimp only
  split <;> exact (peering_crewFault ..).trans h1

@[simp] theorem peering_enterTrap (s : State) (t : TrapReq) : peering (enterTrap s t) = peering s := by
  unfold enterTrap
  dsimp only
  split
  · simp
  · have h1 : peering (saveTrap s t) = peering s := by
      simp only [saveTrap, peering_saveWrite]
    simpa only [peering] using h1

@[simp] theorem peering_takeTrap (s : State) (t : TrapReq) : peering (takeTrap s t) = peering s := by
  unfold takeTrap
  split
  · simp
  · dsimp only
    split
    · simp
    · exact peering_drain s

@[simp] theorem peering_resumeTags (s : State) (uid : Nat) : peering (resumeTags s uid) = peering s := by
  unfold resumeTags
  split
  · rfl
  · split
    · split
      · refine (peering_putSave0 ..).trans (peering_inFocus (fun s => ?_) s uid)
        unfold tagWait
        split
        · exact peering_putSave0 ..
        · split
          · rfl
          · exact peering_takeTrap ..
      · rfl
    · rfl

/-- A command that completes on its tag (R244, R245). -/
@[simp] theorem peering_completeTag (s : State) (uid : Nat) (tag : Option (BitVec 6)) (why : Option Cause) :
    peering (completeTag s uid tag why) = peering s := by
  have hp (s : State) : peering (putTags s uid) = peering s := by
    unfold putTags
    split
    · rfl
    · split
      · rfl
      · split <;> simp
  unfold completeTag
  split
  · rfl
  · simp [hp]

@[simp] theorem peering_settleExits (s : State) : peering (settleExits s) = peering s := by
  refine peering_foldl (fun s c => ?_) _ s
  unfold settleExit
  split
  · rfl
  · split
    · rfl
    · dsimp only
      split <;> rfl

end Sys2Proof.Proofs
end
section
/-!
PROOFS. The checks of a collective word in their order, and what the word comes to (R57, R192, R219, R337, R338; log 44).
-/

namespace Sys2Proof.Proofs
open Sys2Proof Sys2Proof.Machine

/-! ### A run of bytes, page by page (R57) -/

/-- The address at which page `i` of a run of bytes from `a` is checked. -/
def pageStart (a i : Nat) : Nat := if i = 0 then a else 4096 * (a / 4096 + i)

theorem runFault_none {s : State} {need : Need} {a n : Nat}
    (h : ∀ i, i < n → ∃ p, crewXlate s need (pageStart a i) = .ok p) : runFault s need a n = none := by
  induction n with
  | zero => rfl
  | succ n ih =>
    obtain ⟨p, hp⟩ := h n n.lt_succ_self
    rw [pageStart] at hp
    simp only [runFault, ih fun i hi => h i (by omega), hp]

/-- The first page that does not translate is reported. -/
theorem runFault_first {s : State} {need : Need} {a n i : Nat} {e : Cause} (hi : i < n)
    (he : crewXlate s need (pageStart a i) = .error e)
    (h : ∀ j, j < i → ∃ p, crewXlate s need (pageStart a j) = .ok p) :
    runFault s need a n = some (e, pageStart a i) := by
  induction n with
  | zero => omega
  | succ n ih =>
    rcases Nat.lt_succ_iff_lt_or_eq.1 hi with hlt | rfl
    · simp only [runFault, ih hlt]
    · rw [pageStart] at he ⊢
      simp only [runFault, runFault_none h, he]

theorem scalarInfo_eq (kind : Nat) : scalarInfo kind = w64 (2 ^ 12 + 2 ^ 24 * kind + 2 ^ 26) := by
  rw [scalarInfo, Nat.mul_comm kind]

section
variable {s : State} {need : Need} {a : Word} {align n kind : Nat}

theorem collFault_far (h : 2 ^ 57 ≤ a.toNat ∨ 2 ^ 57 < a.toNat + n) :
    collFault s need a align n kind = some ⟨.xlate, a, scalarInfo kind⟩ := by
  rw [collFault, if_pos (by simpa using h)]

theorem collFault_align (hf : ¬ (2 ^ 57 ≤ a.toNat ∨ 2 ^ 57 < a.toNat + n)) (h : a.toNat % align ≠ 0) :
    collFault s need a align n kind = some ⟨.align, a, scalarInfo kind⟩ := by
  rw [collFault, if_neg (by simpa using hf), if_pos h]

theorem collFault_pages (hf : ¬ (2 ^ 57 ≤ a.toNat ∨ 2 ^ 57 < a.toNat + n)) (h : a.toNat % align = 0) :
    collFault s need a align n kind =
      (runFault s need a.toNat (pagesOf a.toNat n)).map fun x => ⟨x.1, w64 x.2, scalarInfo kind⟩ := by
  rw [collFault, if_neg (by simpa using hf), if_neg (by simpa using h)]

end

/-! ### The operand group (R337, R338) -/

/-- The operator of a reduction, or the element size of the others, is none that the manual gives. -/
def badCode (o : CollOp) : Prop := (o.fn = 0 ∧ 11 ≤ o.op) ∨ (o.fn ≠ 0 ∧ 13 ≤ o.e)

theorem badCode_iff {o : CollOp} : badCode o ↔ (o.fn = 0 ∧ 10 < o.op) ∨ (o.fn ≠ 0 ∧ 12 < o.e) := Iff.rfl

theorem groupFault_code {s : State} {o : CollOp} (h : badCode o) : groupFault s o = some ⟨.collForm, o.desc, 0⟩ := by
  rw [groupFault, if_pos]
  simpa using badCode_iff.1 h

theorem groupFault_addresses {s : State} {o : CollOp} (h : ¬ badCode o) : groupFault s o =
    [collFault s needW o.dest o.size 0 1, collFault s needR o.src o.size (o.reads s.pacer.self.toNat) 0,
      collFault s needRW o.desc 64 64 2].findSome? id := by
  rw [groupFault, if_neg]
  · dsimp only
    cases collFault s needW o.dest o.size 0 1 <;>
      cases collFault s needR o.src o.size (o.reads s.pacer.self.toNat) 0 <;>
        cases collFault s needRW o.desc 64 64 2 <;> rfl
  · simpa using mt badCode_iff.2 h

theorem reads_eq (o : CollOp) (self : Nat) :
    o.reads self = if o.fn = 2 ∧ o.rootId ≠ self then 0 else o.n * o.size := by
  simp only [CollOp.reads, Bool.and_eq_true, decide_eq_true_eq, bne_iff_ne]

theorem writes_eq (o : CollOp) (self members : Nat) : o.writes self members =
    if o.root = true ∧ o.rootId ≠ self then 0 else o.n * o.size * (if o.fn = 1 then members else 1) := by
  simp only [CollOp.writes, Bool.and_eq_true, bne_iff_ne]

/-- The bytes that a collective publishes lie in no one entry (R338). -/
theorem pubHolds_eq_false {s : State} {a n : Nat} : pubHolds s a n = false ↔
    0 < n ∧ ∀ p, pubAt s s.part (galAsn s.g) a = some p → p.vbase + 2 ^ (21 + p.size) < a + n := by
  unfold pubHolds
  cases pubAt s s.part (galAsn s.g) a <;> simp [Nat.pos_iff_ne_zero]

theorem collBad_iff (s : State) (o : CollOp) (members : BitVec 256) :
    let w := o.writes s.pacer.self.toNat (viewMembers members).length
    let r := o.reads s.pacer.self.toNat
    collBad s o members = true ↔ members.getLsbD s.pacer.self.toNat = false ∨ members.getLsbD o.rootId = false ∨ 2 ^ 36 < w ∨
      (0 < w ∧ 0 < r ∧ o.dest.toNat < o.src.toNat + r ∧ o.src.toNat < o.dest.toNat + w) ∨
      (o.pub = true ∧ 0 < w ∧ ∀ p, pubAt s s.part (galAsn s.g) o.dest.toNat = some p →
        p.vbase + 2 ^ (21 + p.size) < o.dest.toNat + w) := by
  simp only [collBad, rangesMeet, Bool.or_eq_true, Bool.and_eq_true, Bool.not_eq_true', decide_eq_true_eq, bne_iff_ne,
    pubHolds_eq_false, Nat.pos_iff_ne_zero, or_assoc, and_assoc]

/-! ### The word -/

/-- A crew that can read some bytes meets no uncorrectable word there (R19, R304). -/
theorem ownPoisoned_of_readable {s : State} {vault : Bool} {a n : Nat} (h : Readable s vault a n) :
    ownPoisoned s vault a n = false := by
  simp only [ownPoisoned, List.any_eq_false, Bool.and_eq_true, decide_eq_true_eq, not_and, Bool.not_eq_true',
    Bool.not_eq_false]
  rintro k hk ⟨⟨hn, ha⟩, hr⟩
  rcases h k hk hn ha with ⟨rfl, hrom⟩ | ⟨p, hp, w, hw, rfl, h1, h2⟩
  · simp [hrom] at hr
  · simp only [pendingWhole, List.any_eq_true]
    exact ⟨w, List.mem_flatten.2 ⟨p.writes, List.mem_map.2 ⟨p, hp, rfl⟩, hw⟩, by simp [h1, h2]⟩

/-- A word that passes its checks counts one more on its tag (R244). -/
theorem tagsFree_one (c : Crew) (tag : Option (BitVec 6)) :
    tagsFree c [tag] = true ↔ ∀ k, tag = some k → tagCount c k.toNat < 255 := by
  cases tag with
  | none => simp [tagsFree]
  | some k => simp [tagsFree]

theorem unsettled_eq_false (s : State) : unsettled s = false ↔ s.c.redq = [] := by simp [unsettled]

section
variable {s : State} {o : CollOp} {tag : Option (BitVec 6)} {pl : Place} {f : OpFault}

/-- What a collective word comes to whose descriptor it can look at: the checks of R338 that it tells, and the issue. -/
def collRead (s : State) (tag : Option (BitVec 6)) (o : CollOp) (pl : Place) : State :=
  let members : BitVec 256 := BitVec.ofNat 256 (ownNat s false (pl.pa + 0x10) 32)
  if collBad s o members then takeTrap s (trapHere s .collForm o.desc 0)
  else
    match collFault s needW o.dest o.size (o.writes s.pacer.self.toNat (viewMembers members).length) 1 with
    | some f => opTrap s f
    | none => if unsettled s || !collRoom s || !tagsFree s.c [tag] then hold s else postColl (atHome s) o tag pl

theorem collWord_fault (h : groupFault s o = some f) :
    collWord s tag o = takeTrap s ⟨f.cause, s.c.pc, f.addr, f.info, false, 0⟩ := by
  simp only [collWord, h, opTrap, trapHere]

theorem collWord_waits (h : groupFault s o = none) (hx : crewXlate s needRW o.desc.toNat = .ok pl)
    (hw : ∃ x ∈ s.c.redq, (x.obj < pl.pa + 64 ∧ pl.pa < x.obj + 16) ∨ x.fenceA = true) : collWord s tag o = hold s := by
  have hb : (redqMeets s pl.pa 64 || fenced s needR) = true := by
    obtain ⟨x, hx, hm | hf⟩ := hw
    · exact Bool.or_eq_true_iff.2 (.inl (List.any_eq_true.2 ⟨x, hx, by simpa using hm⟩))
    · exact Bool.or_eq_true_iff.2 (.inr (List.any_eq_true.2 ⟨x, hx, by simp [hf]⟩))
  simp only [collWord, h, hx, hb, if_true]

theorem collWord_reads (h : groupFault s o = none) (hx : crewXlate s needRW o.desc.toNat = .ok pl) (ha : Apart s pl.pa 64)
    (hf : Unfenced s false) (ho : ownedByHw s pl.pa 64 true = false) (hr : Readable s false pl.pa 64) :
    collWord s tag o = collRead s tag o pl := by
  have h1 : redqMeets s pl.pa 64 = false := (redqMeets_eq_false ..).2 ha
  have h2 : fenced s needR = false := (fenced_eq_false ..).2 hf
  simp only [collWord, h, hx, h1, h2, ho, ownPoisoned_of_readable hr, Bool.or_self, Bool.false_eq_true, if_false]
  rfl

/-- Without a reduction of the crew under way no access of it has one to wait for. -/
theorem collWord_reads_nil (h : groupFault s o = none) (hx : crewXlate s needRW o.desc.toNat = .ok pl) (hq : s.c.redq = [])
    (ho : ownedByHw s pl.pa 64 true = false) (hr : Readable s false pl.pa 64) : collWord s tag o = collRead s tag o pl :=
  collWord_reads h hx (by simp [Apart, hq]) (by simp [Unfenced, hq]) ho hr

end

/-- A ready collective word has the effect of its operand group. -/
theorem exec_collective {s : State} {t g : BitVec 6} {n r p : BitVec 1} {q : Instr × CollOp}
    (hq : q ∈ [(Instr.cred t g n r p, collOp s 0 r p g), (.cgath t g n r p, collOp s 1 r p g),
      (.cbcast t g n p, collOp s 2 0 p g)]) (hr : Ready q.1 s) : exec q.1 s = .next (collWord s (tagOf t n) q.2) := by
  simp only [List.mem_cons, List.not_mem_nil, or_false] at hq
  rcases hq with rfl | rfl | rfl
  · exact (show exec (.cred t g n r p) s = issue (.cred t g n r p) s fun s => collWord s (tagOf t n) (collOp s 0 r p g) from
      rfl).trans (issue_ready hr _)
  · exact (show exec (.cgath t g n r p) s = issue (.cgath t g n r p) s fun s => collWord s (tagOf t n) (collOp s 1 r p g) from
      rfl).trans (issue_ready hr _)
  · exact (show exec (.cbcast t g n p) s = issue (.cbcast t g n p) s fun s => collWord s (tagOf t n) (collOp s 2 0 p g) from
      rfl).trans (issue_ready hr _)

section
variable {s : State} {o : CollOp} {tag : Option (BitVec 6)} {pl : Place}

theorem collRead_form (h : collBad s o (BitVec.ofNat 256 (ownNat s false (pl.pa + 0x10) 32)) = true) :
    collRead s tag o pl = takeTrap s ⟨.collForm, s.c.pc, o.desc, 0, false, 0⟩ := by
  simp only [collRead, h, if_true, trapHere]

variable (hb : collBad s o (BitVec.ofNat 256 (ownNat s false (pl.pa + 0x10) 32)) = false)
include hb

theorem collRead_fault {f : OpFault} (h : collFault s needW o.dest o.size (o.writes s.pacer.self.toNat
      (viewMembers (BitVec.ofNat 256 (ownNat s false (pl.pa + 0x10) 32))).length) 1 = some f) :
    collRead s tag o pl = takeTrap s ⟨f.cause, s.c.pc, f.addr, f.info, false, 0⟩ := by
  simp only [collRead, hb, h, Bool.false_eq_true, if_false, opTrap, trapHere]

variable (hf : collFault s needW o.dest o.size (o.writes s.pacer.self.toNat
  (viewMembers (BitVec.ofNat 256 (ownNat s false (pl.pa + 0x10) 32))).length) 1 = none)
include hf

/-- The word waits for the crew's reductions, for room at the engine and for a count on its tag (R244, R336, R339). -/
theorem collRead_waits (h : s.c.redq ≠ [] ∨ 64 ≤ (s.colls.filter fun c => c.die == dieOfCore s.c.core).length ∨
    ∃ k, tag = some k ∧ 255 ≤ tagCount s.c k.toNat) : collRead s tag o pl = hold s := by
  have hw : (unsettled s || !collRoom s || !tagsFree s.c [tag]) = true := by
    rcases h with h | h | ⟨k, hk, hc⟩
    · simp [unsettled, h]
    · simp [collRoom, Nat.not_lt.2 h]
    · have : tagsFree s.c [tag] = false := by
        rw [Bool.eq_false_iff, Ne, tagsFree_one]
        exact fun h => Nat.not_lt.2 hc (h k hk)
      simp [this]
  simp only [collRead, hb, hf, hw, Bool.false_eq_true, if_false, if_true]

theorem collRead_posts (hq : s.c.redq = []) (hr : (s.colls.filter fun c => c.die == dieOfCore s.c.core).length < 64)
    (ht : ∀ k, tag = some k → tagCount s.c k.toNat < 255) : collRead s tag o pl = postColl (atHome s) o tag pl := by
  have hw : (unsettled s || !collRoom s || !tagsFree s.c [tag]) = false := by
    simp [(unsettled_eq_false s).2 hq, collRoom, hr, (tagsFree_one ..).2 ht]
  simp only [collRead, hb, hf, hw, Bool.false_eq_true, if_false]

end

end Sys2Proof.Proofs
end
section
/-!
PROOFS. The issue of a collective, the fold of a reduction, and what the data of the members come to (R81, R336, R339 to
R343; logs 38 and 44).
-/

namespace Sys2Proof.Proofs
open Sys2Proof Sys2Proof.Machine

/-! ### The issue (R336, R339) -/

/-- The collective of a crew that its tag names last (R343). -/
def noteColl (c : Crew) (tag : Option (BitVec 6)) (id : Nat) (seq : Word) : Crew :=
  match tag with
  | none => c
  | some k => { tagUp c (some k) with colls := (c.colls.filter (·.tag != k)) ++ [⟨id, k, 1, 0, none, seq⟩] }

theorem mem_viewMembers (v : BitVec 256) (m : Nat) : m ∈ viewMembers v ↔ v.getLsbD m = true := by
  simp only [viewMembers, List.mem_filter, List.mem_range, and_iff_right_iff_imp]
  exact fun h => BitVec.lt_of_getLsbD h

/-- A member is missing until it is heard from. -/
theorem sent_isNone (c : Coll) (m : Nat) : (c.sent m).isNone = true ↔ ∀ x ∈ c.got, x.1.toNat ≠ m := by
  unfold Coll.sent
  split
  · next h => simpa [List.find?_eq_none] using h
  · next x h =>
    simp only [Option.isNone_some, Bool.false_eq_true, false_iff, not_forall, not_not]
    exact ⟨x, List.mem_of_find?_eq_some h, by simpa using List.find?_some h⟩

theorem missing_eq_nil (c : Coll) : c.missing = [] ↔ ∀ k ∈ viewMembers c.members, ∃ x ∈ c.got, x.1.toNat = k := by
  simp only [Coll.missing, List.filter_eq_nil_iff, sent_isNone, not_forall, not_not, exists_prop]

/-- A collective of which nothing has arrived, and which has another member, waits for that member's data. -/
theorem enterColl_waits {s : State} {c : Coll} {tag : Option (BitVec 6)} (own : List Byte)
    (hn : ∀ x ∈ s.collNotes, x.gid ≠ c.gid ∨ x.seq ≠ c.seq)
    (hm : ∃ m, c.members.getLsbD m = true ∧ m ≠ s.pacer.self.toNat) :
    enterColl s c tag own = { s with
      colls := s.colls ++ [{ c with got := [(s.pacer.self, c.head, own)] }], c := noteColl s.c tag c.id c.seq } := by
  have hnotes : notesFor s c.gid c.seq = [] := by
    simp only [notesFor, List.filter_eq_nil_iff, Bool.and_eq_true, beq_iff_eq, not_and_or]
    exact hn
  have hkeep : (s.collNotes.filter fun x => !(x.gid == c.gid && x.seq == c.seq)) = s.collNotes := by
    refine List.filter_eq_self.2 fun x hx => ?_
    simpa only [Bool.not_eq_true', Bool.and_eq_false_iff, beq_eq_false_iff_ne] using hn x hx
  have hmiss : ({ c with got := [(s.pacer.self, c.head, own)] } : Coll).missing ≠ [] := by
    obtain ⟨m, hin, hne⟩ := hm
    refine fun h => hne ?_
    obtain ⟨x, hx, hxm⟩ := (missing_eq_nil _).1 h m ((mem_viewMembers ..).2 hin)
    rw [List.mem_singleton.1 hx] at hxm
    exact hxm.symm
  cases tag <;>
    · simp only [enterColl, hnotes, List.filter_nil, List.map_nil, List.findSome?_nil, advanceColl, if_neg hmiss, hkeep]
      rfl

/-- The collective that a checked word issues, with its own data `own` (R337, R339). -/
def issuedColl (s : State) (o : CollOp) (tag : Option (BitVec 6)) (pl : Place) (own : List Byte) : Coll :=
  let tmo := readNat s (pl.pa + 4) 4
  { id := s.ids, die := dieOfCore s.c.core, uid := s.c.uid, tag := tag, fn := o.fn, pub := o.pub, root := o.root
    dest := o.dest, op := o.op, count := o.n, esize := o.size, rootId := BitVec.ofNat 8 o.rootId, desc := o.desc
    gid := BitVec.ofNat 16 (readNat s pl.pa 2), seq := w64 (readNat s (pl.pa + 8) 8)
    members := BitVec.ofNat 256 (readNat s (pl.pa + 0x10) 32), head := w64 (o.head % 2 ^ 48)
    got := [(s.pacer.self, w64 (o.head % 2 ^ 48), own)], issued := s.timens, tmo := if tmo = 0 then 1000 else tmo }

/-- SEQ of the descriptor taken and risen by one (R339). -/
def seqTaken (s : State) (pl : Place) : State :=
  { performNat s (pl.pa + 8) 8 ((readNat s (pl.pa + 8) 8 + 1) % 2 ^ 64) with ids := s.ids + 1 }

theorem told_seqTaken {s : State} (h : Still s) (pl : Place) :
    Told s (performNat s (pl.pa + 8) 8 ((readNat s (pl.pa + 8) 8 + 1) % 2 ^ 64)) := told_performGlobal h ..

/-- A word whose operand is read enters its collective with the data (R339). -/
theorem postColl_read {s s2 : State} {o : CollOp} {tag : Option (BitVec 6)} {pl : Place} {own : List Byte}
    (h : engRead (seqTaken s pl) ⟨(seqTaken s pl).g, (seqTaken s pl).c.uid, (seqTaken s pl).c.privl == 2⟩ false o.src.toNat
      (o.reads (seqTaken s pl).pacer.self.toNat) = .ok (s2, own)) :
    postColl s o tag pl = done (enterColl s2 { issuedColl s o tag pl own with got := [] } tag own) := by
  unfold postColl
  extract_lets seq tmo c src s1 k
  have h1 : engRead s1 k false o.src.toNat (o.reads s1.pacer.self.toNat) = .ok (s2, own) := h
  have hc : c = { issuedColl s o tag pl own with got := [] } := by
    simp only [c, issuedColl, bits_zero]
    rfl
  rw [h1, hc]

/-- A word that reads its operand, of whose collective nothing has arrived, and which waits for another member. -/
theorem postColl_waits {s : State} {o : CollOp} {tag : Option (BitVec 6)} {pl : Place} {r : Nat → Byte} (hs : Still s)
    (hr : Sees (seqTaken s pl) ⟨(seqTaken s pl).g, (seqTaken s pl).c.uid, (seqTaken s pl).c.privl == 2⟩ false o.src.toNat
      (o.src.toNat + o.reads s.pacer.self.toNat) r)
    (hn : ∀ x ∈ s.collNotes, x.gid ≠ BitVec.ofNat 16 (readNat s pl.pa 2) ∨ x.seq ≠ w64 (readNat s (pl.pa + 8) 8))
    (hm : ∃ m, (BitVec.ofNat 256 (readNat s (pl.pa + 0x10) 32)).getLsbD m = true ∧ m ≠ s.pacer.self.toNat) :
    postColl s o tag pl =
      let own := (List.range (o.reads s.pacer.self.toNat)).map fun x => r (o.src.toNat + x)
      done { seqTaken s pl with
        colls := (seqTaken s pl).colls ++ [issuedColl s o tag pl own]
        c := noteColl (seqTaken s pl).c tag s.ids (w64 (readNat s (pl.pa + 8) 8)) } := by
  have ht := told_seqTaken hs pl
  have hp : (seqTaken s pl).pacer.self = s.pacer.self := ht.same (·.pacer.self)
  have hnotes : (seqTaken s pl).collNotes = s.collNotes := ht.same State.collNotes
  have hread := hr o.src.toNat (o.reads s.pacer.self.toNat) le_rfl le_rfl
  rw [postColl_read (by rw [hp]; exact hread), enterColl_waits]
  · rw [hp]
    rfl
  · rw [hnotes]
    exact hn
  · rw [hp]
    exact hm

theorem noteColl_ended (s : State) (colls : List Coll) (tag : Option (BitVec 6)) (id : Nat) (seq : Word) :
    CrewEffect { s with colls := colls } (done { s with colls := colls, c := noteColl s.c tag id seq })
      (noteColl s.c tag id seq) := by
  cases tag <;> exact crewEffect_done { s with colls := colls } _ rfl rfl rfl rfl

/-! ### The fold of a reduction (R81, R340) -/

theorem signed64_eq_toInt {a : Nat} (h : a < 2 ^ 64) : signed 64 a = (w64 a).toInt := by
  simp only [signed, w64, BitVec.toInt, BitVec.toNat_ofNat, Nat.mod_eq_of_lt h]
  split <;> split <;> omega

theorem credSize_eq (op : Nat) : credSize op = [4, 8, 8, 4, 4, 8, 8, 8, 8, 8, 2].getD op 8 := by
  by_cases h : op < 11
  · interval_cases op <;> rfl
  · obtain ⟨n, rfl⟩ := Nat.exists_eq_add_of_le (Nat.not_lt.1 h)
    rw [Nat.add_comm]
    rfl

theorem collOp_size_eq (o : CollOp) :
    o.size = if o.fn = 0 then [4, 8, 8, 4, 4, 8, 8, 8, 8, 8, 2].getD o.op 8 else 2 ^ o.e := by
  rw [CollOp.size, credSize_eq]

/-- Operators other than those on floating-point values write what the fold gives. -/
theorem credWritten_integer {op : Nat} (h : op ∉ [0, 1, 3, 4, 10]) (a : Nat) : credWritten op a = a := by
  simp only [List.mem_cons, List.not_mem_nil, or_false, not_or] at h
  obtain ⟨h0, h1, h3, h4, h10⟩ := h
  unfold credWritten
  split
  case h_6 => rfl
  all_goals contradiction

theorem credOp_max {a b : Nat} (ha : a < 2 ^ 64) (hb : b < 2 ^ 64) :
    (w64 (credOp 5 a b)).toInt = max (w64 a).toInt (w64 b).toInt := by
  change (w64 (if signed 64 b ≤ signed 64 a then a else b)).toInt = _
  rw [signed64_eq_toInt ha, signed64_eq_toInt hb]
  split
  · next h => rw [max_eq_left h]
  · next h => rw [max_eq_right (not_le.1 h).le]

theorem credOp_min {a b : Nat} (ha : a < 2 ^ 64) (hb : b < 2 ^ 64) :
    (w64 (credOp 6 a b)).toInt = min (w64 a).toInt (w64 b).toInt := by
  change (w64 (if signed 64 a ≤ signed 64 b then a else b)).toInt = _
  rw [signed64_eq_toInt ha, signed64_eq_toInt hb]
  split
  · next h => rw [min_eq_left h]
  · next h => rw [min_eq_right (not_le.1 h).le]

/-! ### One collective of the list -/

section
variable {s : State} {old more : List Coll} {c d : Coll}

/-- The collective that a datum is for is the first of its group and its number. -/
theorem find_coll (ho : ∀ x ∈ old, x.gid ≠ c.gid ∨ x.seq ≠ c.seq) :
    (old ++ c :: more).find? (fun x => x.gid == c.gid && x.seq == c.seq) = some c := by
  have h0 : old.find? (fun x => x.gid == c.gid && x.seq == c.seq) = none := by
    simpa only [List.find?_eq_none, Bool.and_eq_true, beq_iff_eq, not_and_or] using ho
  rw [List.find?_append, h0, List.find?_cons]
  simp

variable (hid : ∀ x ∈ old ++ more, x.id ≠ c.id)
include hid

theorem map_coll (d : Coll) : (old ++ c :: more).map (fun x => if x.id = c.id then d else x) = old ++ d :: more := by
  have other {l : List Coll} (hl : ∀ x ∈ l, x ∈ old ++ more) : l.map (fun x => if x.id = c.id then d else x) = l :=
    (List.map_congr_left fun x hx => if_neg (hid x (hl x hx))).trans (List.map_id' l)
  rw [List.map_append, List.map_cons, if_pos rfl, other fun _ => List.mem_append_left _,
    other fun _ => List.mem_append_right _]

theorem filter_coll (hd : d.id = c.id) : (old ++ d :: more).filter (·.id != c.id) = old ++ more := by
  have other {l : List Coll} (hl : ∀ x ∈ l, x ∈ old ++ more) : l.filter (·.id != c.id) = l :=
    List.filter_eq_self.2 fun x hx => bne_iff_ne.2 (hid x (hl x hx))
  rw [List.filter_append, List.filter_cons_of_neg (by simp [hd]), other fun _ => List.mem_append_left _,
    other fun _ => List.mem_append_right _]

theorem dropColl_eq (hd : d.id = c.id) : dropColl { s with colls := old ++ d :: more } d = { s with colls := old ++ more } := by
  simp only [dropColl, hd, filter_coll hid hd]

end

theorem dropColl_others (s : State) (c : Coll) :
    dropColl s c = { s with colls := s.colls.filter fun x => x.id ≠ c.id } := by
  have h : (fun x : Coll => x.id != c.id) = fun x => decide (x.id ≠ c.id) := by
    funext x
    rw [decide_not]
    rfl
  rw [dropColl, h]

/-- CSTAT of a crew as its collective of the id `id` ends (R343). -/
def collStat (s : State) (uid id : Nat) (status : BitVec 2) (cause : BitVec 8) (peer : Option (BitVec 8)) : State :=
  s.onCrew uid fun k => setStat k id status cause peer

/-- What is left of a collective that fails: its record, what `CSTAT` reads, and its tag (R342). -/
theorem failColl_eq (s : State) (c : Coll) (cause : Cause) (detail : Nat) (peer : Option (BitVec 8)) :
    failColl s c cause detail peer = settleExits (completeTag (collStat (crewFault (dropColl s c) c.uid
      { cause := cause, detail := detail, obj := c.desc, tag := c.tag, peer := (peer.getD 0).toNat }) c.uid c.id 3
        (BitVec.ofNat 8 cause.code) peer) c.uid c.tag (some cause)) := rfl

theorem colls_failColl (s : State) (c : Coll) (cause : Cause) (detail : Nat) (peer : Option (BitVec 8)) :
    (failColl s c cause detail peer).colls = s.colls.filter (·.id != c.id) :=
  colls_of_peering (s := dropColl s c) (by simp [failColl])

/-! ### A complete collective (R339 to R342) -/

section
variable {c : Coll}

/-- The lowest member whose values are not the lowest member's. -/
theorem differing_first {first : Word} {bad least : Nat} {same later : List Nat}
    (hms : viewMembers c.members = least :: (same ++ bad :: later)) (hl : (c.sent least).map (·.1) = some first)
    (hs : ∀ k ∈ same, (c.sent k).map (·.1) = some first) (hb : (c.sent bad).map (·.1) ≠ some first) :
    c.differing = some bad := by
  have h0 : same.find? (fun k => ((c.sent k).map fun x => x.1) != some first) = none := by
    simpa only [List.find?_eq_none, bne_iff_ne, not_not] using hs
  simp only [Coll.differing, hms, hl, List.find?_append, h0, List.find?_cons]
  rw [show (((c.sent bad).map fun x => x.1) != some first) = true from bne_iff_ne.2 hb]
  rfl

theorem differing_none {first : Word} (h : ∀ k ∈ viewMembers c.members, (c.sent k).map (·.1) = some first) :
    c.differing = none := by
  unfold Coll.differing
  split
  · rfl
  · next m l hms =>
    rw [hms] at h
    rw [h m (List.mem_cons_self ..)]
    simpa only [List.find?_eq_none, bne_iff_ne, not_not] using fun k hk => h k (List.mem_cons_of_mem _ hk)

/-- Data of the length that the collective is for are taken as they are. -/
theorem take_data {l : List Byte} {n : Nat} (h : l.length = n) : (l ++ List.replicate n 0).take n = l := by
  rw [List.take_append_of_le_length h.ge, List.take_of_length_le h.le]

/-- The bytes that a collective gives whose members have sent what it is for. -/
theorem result_eq (hne : viewMembers c.members ≠ [])
    (hd : ∀ k ∈ viewMembers c.members, c.fn = 2 ∧ k ≠ c.rootId.toNat ∨ (c.dataOf k).length = c.count * c.esize)
    (hroot : c.fn = 2 → c.members.getLsbD c.rootId.toNat = true) : c.result =
      if c.fn = 2 then c.dataOf c.rootId.toNat
      else if c.fn = 1 then (viewMembers c.members).flatMap c.dataOf
      else (List.range c.count).flatMap fun j => toBytes c.esize (credWritten c.op
        (((viewMembers c.members).drop 1).foldl (fun x k => credOp c.op x (c.elem k j))
          (c.elem ((viewMembers c.members).headD 0) j))) := by
  unfold Coll.result
  split
  · next h =>
    refine take_data ?_
    rcases hd _ ((mem_viewMembers ..).2 (hroot h)) with ⟨-, hk⟩ | hl
    · exact absurd rfl hk
    · exact hl
  · next h =>
    split
    · refine List.flatMap_congr fun k hk => take_data ?_
      rcases hd k hk with ⟨h2, -⟩ | hl
      · exact absurd h2 h
      · exact hl
    · cases hms : viewMembers c.members with
      | nil => exact absurd hms hne
      | cons m l => rfl

end

theorem completeColl_differs {s : State} {c : Coll} {m : Nat} (h : c.differing = some m) :
    completeColl s c = failColl s c .collForm m none := by
  simp only [completeColl, h]

section
variable {s u : State} {c : Coll} (h : c.differing = none)
  (hw : if c.root = true ∧ c.rootId ≠ s.pacer.self then u = s
    else engWrite s (clientOf s c.uid) false [(c.dest.toNat, c.result)] = .ok u)
include h hw

/-- A member that is not the root of a collective with ROOT writes nothing (R340, R341). -/
theorem completeColl_written : completeColl s c =
    match (if c.pub then pubAt u (clientOf s c.uid).g.rcd.part (galAsn (clientOf s c.uid).g) c.dest.toNat else none) with
      | some p => { dropColl u c with flips := (dropColl u c).flips ++ [⟨p.part, p.idx, c.uid, some (c.tag, c.id)⟩] }
      | none => settleExits (completeTag (collStat (dropColl u c) c.uid c.id 2 0 none) c.uid c.tag none) := by
  have hr : (if (!c.root || c.rootId == s.pacer.self) = true
      then engWrite s (clientOf s c.uid) false [(c.dest.toNat, c.result)] else .ok s) = .ok u := by
    by_cases hc : c.root = true ∧ c.rootId ≠ s.pacer.self
    · rw [if_pos hc] at hw
      simp [hc, hw]
    · rw [if_neg hc] at hw
      rw [if_pos, hw]
      by_cases hroot : c.root = true
      · simpa [hroot] using hc
      · simp [hroot]
  simp only [completeColl, h, hr]
  rfl

end

/-! ### Data that arrive (R342; logs 38 and 44) -/

theorem arrival_unissued {s : State} {gid : BitVec 16} {seq : BitVec 64} (m : BitVec 8) (head : BitVec 64)
    (data : List (BitVec 8)) (h : ∀ c ∈ s.colls, c.gid ≠ gid ∨ c.seq ≠ seq) :
    exec (.collectiveDataArrival m gid seq head data) s = .next { s with collNotes := s.collNotes ++ [⟨gid, seq,
      if head.getLsbD 63 = true then some (.collTimeout, head.setWidth 8) else none, m, head, data⟩] } := by
  have h0 : s.colls.find? (fun c => c.gid == gid && c.seq == seq) = none := by
    simpa only [List.find?_eq_none, Bool.and_eq_true, beq_iff_eq, not_and_or] using h
  change execCollectiveDataArrival m gid seq head data s = _
  simp only [execCollectiveDataArrival, h0, failureHead]
  split <;> rfl

section
variable {s : State} {c : Coll} {m : BitVec 8} {head : BitVec 64} {data : List (BitVec 8)}
  (hf : s.colls.find? (fun x => x.gid == c.gid && x.seq == c.seq) = some c)
include hf

theorem arrival_failure (h : head.getLsbD 63 = true) : exec (.collectiveDataArrival m c.gid c.seq head data) s =
    .next (failColl s c .collTimeout 0 (some (head.setWidth 8))) := by
  change execCollectiveDataArrival m c.gid c.seq head data s = _
  simp only [execCollectiveDataArrival, hf, failureHead, h, if_true]

theorem arrival_data (h : head.getLsbD 63 = false) (hm : c.members.getLsbD m.toNat = true) (hn : ∀ x ∈ c.got, x.1 ≠ m) :
    exec (.collectiveDataArrival m c.gid c.seq head data) s =
      let c1 := { c with got := c.got ++ [(m, head, data)] }
      .next (advanceColl { s with colls := s.colls.map fun x => if x.id = c.id then c1 else x } c1) := by
  have hs : (c.sent m.toNat).isSome = false := by
    rw [← Option.not_isNone, (sent_isNone c m.toNat).2 fun x hx e => hn x hx (BitVec.eq_of_toNat_eq e)]
    rfl
  change execCollectiveDataArrival m c.gid c.seq head data s = _
  simp only [execCollectiveDataArrival, hf, failureHead, h, hm, hs, Bool.false_eq_true, if_false, Bool.not_true, Bool.or_self]

end

/-! ### Collectives whose time is over, and members that fall silent (R342, R353) -/

theorem collOver_iff (s : State) (c : Coll) : collOver s c = true ↔ c.issued.toNat + 1000 * c.tmo ≤ s.timens.toNat ∨
    ∃ m, c.members.getLsbD m = true ∧ m ≠ s.pacer.self.toNat ∧ portTo s m = none := by
  simp only [collOver, unreachable, Bool.or_eq_true, decide_eq_true_eq, List.any_eq_true, mem_viewMembers, Bool.and_eq_true,
    bne_iff_ne, Option.isNone_iff_eq_none]

theorem missing_eq (c : Coll) :
    c.missing = (viewMembers c.members).filter fun m => c.got.all fun x => x.1.toNat != m := by
  refine List.filter_congr fun m _ => Bool.eq_iff_iff.2 ?_
  rw [sent_isNone]
  simp only [List.all_eq_true, bne_iff_ne]

/-- The one collective that the part has issued leaves the list as it times out. -/
theorem colls_timeout_alone {s : State} {c : Coll} {p : Coll → Bool} (h : s.colls = [c]) (hp : p c = true) :
    ((s.colls.filter p).foldl timeoutColl s).colls = [] := by
  rw [h, List.filter_cons_of_pos hp, List.filter_nil, List.foldl_cons, List.foldl_nil]
  simp [timeoutColl, colls_failColl, h]

/-- Messages that are sent leave the collectives, and the member but for what it sends. -/
theorem peering_onPacer (s : State) (f : Pacer → Nat → Pacer) :
    peering (onPacer s f) = (s.colls, { f s.pacer s.timens.toNat with out := [] }) := by
  have hsend (s : State) (dst vc : Nat) (h p : List Byte) : peering (sendFlit s dst vc h p) = peering s := by
    unfold sendFlit
    split <;> rfl
  have hset : peering (setPacer s (f s.pacer s.timens.toNat)) = (s.colls, f s.pacer s.timens.toNat) := by
    unfold setPacer
    dsimp only
    split
    · rfl
    · exact peering_performNat ..
  unfold onPacer flushPace
  refine (peering_foldl (fun s m => ?_) _ _).trans ?_
  · split
    · exact hsend ..
    · exact peering_foldl (fun s d => hsend ..) _ s
  · have hcolls : (setPacer s (f s.pacer s.timens.toNat)).colls = s.colls := congrArg Prod.fst hset
    have hpacer : (setPacer s (f s.pacer s.timens.toNat)).pacer = f s.pacer s.timens.toNat := congrArg Prod.snd hset
    simp only [peering, hcolls, hpacer]

theorem silentNow_of {s : State} {m : BitVec 8} (hm : m ≠ s.pacer.self) (hv : s.pacer.view.getLsbD m.toNat = true)
    (ht : look 0 s.pacer.heard m.toNat + 200000 ≤ s.timens.toNat) : silentNow s m.toNat = true := by
  have hne : m.toNat ≠ s.pacer.self.toNat := fun e => hm (BitVec.eq_of_toNat_eq e)
  simp only [silentNow, hv, ht, bne_iff_ne.2 hne, decide_true, Bool.true_or, Bool.and_self]

theorem exec_peerSilent {s : State} {m : BitVec 8} (h : silentNow s m.toNat = true) :
    exec (.peerSilent m) s = .next (
      let s1 := (collRegions s).foldl (silentRecord m) (onPacer s fun p now => p.silence m.toNat now)
      (s1.colls.filter fun c => c.members.getLsbD m.toNat).foldl timeoutColl s1) := by
  change execPeerSilent m s = _
  rw [execPeerSilent, h]
  rfl

/-- The records of a silence (R353). -/
theorem peering_silentRecords (m : BitVec 8) (l : List (Nat × Nat)) (s : State) :
    peering (l.foldl (silentRecord m) s) = peering s := by
  refine peering_foldl (fun s x => ?_) l s
  unfold silentRecord
  split
  · rfl
  · exact peering_regionFault ..

/-- What the member holds once a peer has fallen silent (R353). -/
structure HeldAtWalk (p : Pacer) (view : BitVec 256) : Prop where
  ceil : p.ceil = 40
  hold : p.walkhold = true
  view : p.view = view

theorem heldAtWalk_conclude {p : Pacer} {v : BitVec 256} (h : HeldAtWalk p v) (now : Nat) : HeldAtWalk (p.conclude now) v := by
  unfold Pacer.conclude
  split
  · exact h
  · split
    · exact h
    · split <;> exact ⟨h.ceil, h.hold, h.view⟩

theorem heldAtWalk_silence (p : Pacer) (peer now : Nat) :
    HeldAtWalk (p.silence peer now) (p.view &&& ~~~ memberBit peer) := by
  unfold Pacer.silence
  extract_lets view p1 p2 p3
  split
  · exact ⟨rfl, rfl, rfl⟩
  · exact heldAtWalk_conclude (heldAtWalk_conclude ⟨rfl, rfl, rfl⟩ now) now

theorem getLsbD_without (v : BitVec 256) (m : BitVec 8) : (v &&& ~~~ memberBit m.toNat).getLsbD m.toNat = false := by
  simp only [BitVec.getLsbD_and, BitVec.getLsbD_not, memberBit, BitVec.getLsbD_ofNat, Nat.testBit_two_pow_self, m.isLt,
    decide_true, Bool.and_self, Bool.not_true, Bool.and_false]

theorem exec_lapApply (s : State) : exec .lapApply s = .next (
    ((onPacer s Pacer.applyDue).colls.filter fun c =>
      (s.pacer.expelled (onPacer s Pacer.applyDue).pacer).any fun m => c.members.getLsbD m).foldl timeoutColl
        (onPacer s Pacer.applyDue)) := rfl

theorem mem_expelled {p q : Pacer} {m : BitVec 8} (hl : p.leaving = none) (hp : p.view.getLsbD m.toNat = true)
    (hq : q.view.getLsbD m.toNat = false) (hn : ∀ l ∈ p.leavers, l.1 ≠ m) : m.toNat ∈ p.expelled q := by
  simp only [Pacer.expelled, hl, Option.isSome_none, Bool.false_and, Bool.false_eq_true, if_false, List.mem_filter,
    mem_viewMembers, hp, hq, Bool.not_false, Bool.true_and, true_and, Bool.not_eq_true', List.any_eq_false, beq_iff_eq]
  exact fun l hin e => hn l hin (BitVec.eq_of_toNat_eq e)

end Sys2Proof.Proofs
end
section
/-!
PROOFS. The collective words put together (R336 to R343, R353).
-/

namespace Sys2Proof.Proofs
open Sys2Proof Sys2Proof.Machine

/-- What `CSTAT` writes to its three registers (R343). -/
theorem cstat_effect (s : State) (g : BitVec 6) (a b c : Word) :
    CrewEffect s (done { s with
      c := setS (setS (setS s.c g a) (BitVec.ofNat 6 (g.toNat + 1)) b) (BitVec.ofNat 6 (g.toNat + 2)) c })
      (setS (setS (setS s.c g a) (BitVec.ofNat 6 (g.toNat + 1)) b) (BitVec.ofNat 6 (g.toNat + 2)) c) :=
  crewEffect_done s _ (by simp) (by simp) (by simp) (by simp)

/-- A collective whose members' data are all there and agree, and whose result is written: it is told, or published
(R342). -/
theorem completeColl_ends {s u : State} {c : Coll} (h : c.differing = none)
    (hw : if c.root = true ∧ c.rootId ≠ s.pacer.self then u = s
      else engWrite s (clientOf s c.uid) false [(c.dest.toNat, c.result)] = .ok u) :
    (c.pub = false → completeColl s c = settleExits (completeTag (collStat (dropColl u c) c.uid c.id 2 0 none) c.uid c.tag none)) ∧
    (∀ e, c.pub = true → pubAt u (clientOf s c.uid).g.rcd.part (galAsn (clientOf s c.uid).g) c.dest.toNat = some e →
      completeColl s c = { dropColl u c with flips := (dropColl u c).flips ++ [⟨e.part, e.idx, c.uid, some (c.tag, c.id)⟩] }) := by
  refine ⟨fun hp => ?_, fun e hp he => ?_⟩
  · rw [completeColl_written h hw, hp]
    rfl
  · rw [completeColl_written h hw, if_pos hp, he]

/-- Settles O50: the checks of a collective word one after the other, its issue, and what data, time and silence come to. -/
theorem collectiveWords : Obligations.CollectiveWords := by
  unfold Obligations.CollectiveWords
  refine ⟨?words, ?group, ?addresses, ?issue, ?fold, ?arrives, ?cstat, fun s m gid seq head data h => ⟨_, arrival_unissued m head data h, rfl⟩,
    ?time, ?silent, ?walk⟩
  case words =>
    intro s t g n r p pl tag q hq
    refine ⟨fun f hr hf => ?_, fun hr hf hx hw => ?_, ?_, ?_⟩
    · rw [exec_collective hq hr, collWord_fault hf]
    · exact ⟨_, (exec_collective hq hr).trans (congrArg _ (collWord_waits hf hx hw)), waits_hold s⟩
    · intro hr hf hx ha hu ho hread members written
      have e : exec q.1 s = .next (collRead s tag q.2 pl) :=
        (exec_collective hq hr).trans (congrArg _ (collWord_reads hf hx ha hu ho hread))
      exact ⟨fun hb => e.trans (congrArg _ (collRead_form hb)), fun f hb hd => e.trans (congrArg _ (collRead_fault hb hd)),
        fun hb hd hw => ⟨_, e.trans (congrArg _ (collRead_waits hb hd hw)), waits_hold s⟩⟩
    · intro hr hf hx ho hread members hb hd hnil hroom ht
      exact (exec_collective hq hr).trans (congrArg _ ((collWord_reads_nil hf hx hnil ho hread).trans
        (collRead_posts hb hd hnil hroom ht)))
  case group =>
    intro s o self read first bad
    refine ⟨groupFault_code, fun h => ?_, ?_⟩
    · rw [groupFault_addresses h, reads_eq]
    · intro members written
      refine ⟨writes_eq .., ?_⟩
      have h := collBad_iff s o members
      simp only [writes_eq, reads_eq] at h
      exact h
  case addresses =>
    intro s need a align n kind _ info far pages page
    have hi : info = scalarInfo kind := (scalarInfo_eq kind).symm
    rw [hi]
    refine ⟨collFault_far, collFault_align, fun hf ha => ⟨fun i e hlt he h => ?_, fun h => ?_⟩⟩
    · rw [collFault_pages hf ha]
      exact congrArg (Option.map _) (runFault_first hlt he h)
    · rw [collFault_pages hf ha]
      exact congrArg (Option.map _) (runFault_none h)
  case issue =>
    intro s o tag pl r self seq tmo n s1 c hl hw hsees hn hm
    have hread : o.reads self.toNat = n := reads_eq o self.toNat
    have hs1 : s1 = seqTaken s pl := rfl
    have hc : c = issuedColl s o tag pl ((List.range n).map fun x => r (o.src.toNat + x)) := rfl
    have hpost := postColl_waits (tag := tag) ⟨hl, hw⟩ (by rw [hread]; exact hsees) hn hm
    rw [hread] at hpost
    clear_value c s1
    subst hs1 hc
    rw [hpost]
    have e := noteColl_ended (seqTaken s pl) ((seqTaken s pl).colls ++
      [issuedColl s o tag pl ((List.range n).map fun x => r (o.src.toNat + x))]) tag s.ids (w64 seq)
    generalize seqTaken s pl = u at e ⊢
    cases tag <;> exact e
  case fold =>
    intro a b unit
    refine ⟨collOp_size_eq, ?_, fun op h => credWritten_integer h a, ⟨rfl, rfl, rfl, rfl, rfl⟩,
      fun ha hb => ⟨addSub_eq 64 a b, rfl, rfl, rfl, credOp_max ha hb, credOp_min ha hb⟩⟩
    have h32 : fp32.nan = 0x7FC00000 := rfl
    have h64 : fp64.nan = 0x7FF8000000000000 := rfl
    have hb16 : bf16.nan = 0x7FC0 := rfl
    simp only [List.forall_mem_cons, List.not_mem_nil, IsEmpty.forall_iff, implies_true, credWritten, FFmt.canon,
      h32, h64, hb16, and_self]
  case arrives =>
    intro s old more c m head data c1 s1 gone ms stat fails value hs hold hid
    have hfind : s.colls.find? (fun x => x.gid == c.gid && x.seq == c.seq) = some c := hs ▸ find_coll hold
    have hdrop (u : State) (d : Coll) (hu : u = { s with colls := old ++ d :: more }) (hd : d.id = c.id) :
        dropColl u d = gone := hu ▸ dropColl_eq hid hd
    have hs1 : ({ s with colls := s.colls.map fun x => if x.id = c.id then c1 else x } : State) = s1 := by
      rw [hs, map_coll hid c1]
    refine ⟨fun h63 => ⟨_, arrival_failure hfind h63, ?_⟩, fun h63 hm hnew => ?_⟩
    · rw [failColl_eq, hdrop s c (by rw [← hs]) rfl]
      rfl
    have e : exec (.collectiveDataArrival m c.gid c.seq head data) s = .next (advanceColl s1 c1) :=
      (arrival_data hfind h63 hm hnew).trans (congrArg (fun u => Host.Outcome.next (advanceColl u c1)) hs1)
    refine ⟨fun hmiss => ⟨_, e, ?_⟩, fun hall => ?_⟩
    · refine if_neg fun h => ?_
      obtain ⟨k, hk, hne⟩ := hmiss
      obtain ⟨x, hx, hxk⟩ := (missing_eq_nil c1).1 h k hk
      exact hne x hx hxk
    have hc : advanceColl s1 c1 = completeColl s1 c1 := if_pos ((missing_eq_nil c1).2 hall)
    rw [hc] at e
    refine ⟨fun bad first least same later hms hl hsame hb => ⟨_, e, ?_⟩, ?_⟩
    · rw [completeColl_differs (differing_first (c := c1) hms hl hsame hb), failColl_eq, hdrop s1 c1 rfl rfl]
      rfl
    · intro h hagree hlen bytes k u hu hroot
      have hne : ms ≠ [] := List.ne_nil_of_mem ((mem_viewMembers c.members m.toNat).2 hm)
      have hres : c1.result = bytes := result_eq hne hlen hroot
      obtain ⟨htold, hpub⟩ := completeColl_ends (s := s1) (u := u) (differing_none hagree) (by rw [hres]; exact hu)
      refine ⟨_, e, ?_⟩
      beta_reduce
      intro v
      have hv : dropColl u c1 = v := dropColl_others u c1
      rw [hv] at htold hpub
      exact ⟨htold, hpub⟩
  case cstat =>
    intro s t g hr
    refine completes_of_ready (show exec (.cstat t g) s = execCstat t g s from rfl) hr ?_
    dsimp only
    cases s.c.colls.find? (·.tag == t) with
    | none => exact cstat_effect ..
    | some x =>
      have hpeer : (x.peer.getD 0).toNat + bitAt x.peer.isSome 8 = match x.peer with
          | none => 0
          | some m => m.toNat + 2 ^ 8 := by cases x.peer <;> rfl
      dsimp only
      rw [hpeer]
      exact cstat_effect ..
  case time =>
    intro s old more c hs hover hid
    have hget : s.colls[old.length]? = some c := by simp [hs]
    have hrun : exec (.collTimeout old.length) s = .next (timeoutColl s c) := by
      change execCollTimeout old.length s = _
      simp only [execCollTimeout, hget, (collOver_iff s c).2 hover, if_true]
    have hdrop : dropColl s c = { s with colls := old ++ more } := by
      have := dropColl_eq (s := s) hid (d := c) rfl
      rwa [← hs] at this
    refine ⟨_, hrun, ?_, ?_⟩
    · rw [timeoutColl, colls_failColl, hs, filter_coll hid rfl]
    · rw [timeoutColl, failColl_eq, hdrop, missing_eq]
      rfl
  case silent =>
    intro s c m hs hin hm hv
    refine ⟨fun ht => ⟨_, exec_peerSilent (silentNow_of hm hv ht), colls_timeout_alone ?_ hin⟩, fun hgone hl hn =>
      ⟨_, exec_lapApply s, colls_timeout_alone (c := c) ?_ ?_⟩⟩
    · rw [colls_of_peering (peering_silentRecords ..)]
      exact (congrArg Prod.fst (peering_onPacer ..)).trans hs
    · exact (congrArg Prod.fst (peering_onPacer ..)).trans hs
    · exact List.any_eq_true.2 ⟨m.toNat, mem_expelled hl hv hgone hn, hin⟩
  case walk =>
    intro s m hs hm hv ht
    refine ⟨_, exec_peerSilent (silentNow_of hm hv ht), ?_⟩
    have hp := peering_onPacer s fun p now => p.silence m.toNat now
    have hcolls : ((collRegions s).foldl (silentRecord m) (onPacer s fun p now => p.silence m.toNat now)).colls = [] :=
      (colls_of_peering (peering_silentRecords ..)).trans ((congrArg Prod.fst hp).trans hs)
    have hpacer := (pacer_of_peering (peering_silentRecords m (collRegions s) _)).trans (congrArg Prod.snd hp)
    obtain ⟨hceil, hhold, hview⟩ := heldAtWalk_silence s.pacer m.toNat s.timens.toNat
    simp only [hcolls, List.filter_nil, List.foldl_nil, hpacer, hceil, hhold, hview, getLsbD_without, true_and]

end Sys2Proof.Proofs
end
section
/-!
PROOFS. The rounding of a matrix sum with its sticky bit (R90): to nearest, a remainder counts as any number of further bits
below the last do.
-/

namespace Sys2Proof.Proofs
open Sys2Proof Sys2Proof.Machine

/-! ### A remainder below the last bit -/

/-- A quotient of an odd number by a multiple of 4 is that of the number with a bit more, and lies on the same side of the
half. -/
theorem odd_quotient (m w : Nat) (hw : 0 < w) :
    (4 * m + 1) / (8 * w) = (2 * m + 1) / (4 * w) ∧
    compare (2 * ((4 * m + 1) % (8 * w))) (8 * w) = compare (2 * ((2 * m + 1) % (4 * w))) (4 * w) := by
  obtain ⟨q, r, hr, hm⟩ : ∃ q r, r < 2 * w ∧ m = 2 * w * q + r :=
    ⟨m / (2 * w), m % (2 * w), Nat.mod_lt _ (by omega), (Nat.div_add_mod _ _).symm⟩
  have e1 : 4 * m + 1 = (4 * r + 1) + 8 * w * q := by rw [hm]; ring
  have e2 : 2 * m + 1 = (2 * r + 1) + 4 * w * q := by rw [hm]; ring
  rw [e1, e2, Nat.add_mul_div_left _ _ (by omega), Nat.add_mul_div_left _ _ (by omega), Nat.add_mul_mod_self_left,
    Nat.add_mul_mod_self_left, Nat.div_eq_of_lt (by omega), Nat.div_eq_of_lt (by omega), Nat.mod_eq_of_lt (by omega),
    Nat.mod_eq_of_lt (by omega)]
  refine ⟨rfl, ?_⟩
  rcases Nat.lt_or_ge r w with h | h
  · rw [compare_lt_iff_lt.2 (by omega), compare_lt_iff_lt.2 (by omega)]
  · rw [compare_gt_iff_gt.2 (by omega), compare_gt_iff_gt.2 (by omega)]

/-- A significand with a remainder is rounded to nearest as it is with a zero bit put below its last. -/
theorem roundShift_double (neg : Bool) (m : Nat) (s : Int) :
    (roundShift 0 neg (2 * m) true (s + 1)).1 = (roundShift 0 neg m true s).1 := by
  have below (n : Nat) : ((Ordering.lt == Ordering.gt) || (Ordering.lt == Ordering.eq) && n % 2 == 1) = false := rfl
  rcases lt_trichotomy s 0 with hs | rfl | hs
  · have h2 : (-s).toNat = (-(s + 1)).toNat + 1 := by omega
    simp only [roundShift, if_pos hs.le, if_pos (show s + 1 ≤ 0 by omega), roundsUp_zero, h2, pow_succ, below,
      Bool.false_eq_true, if_false, Nat.add_zero]
    ring
  · have hq : (2 * (2 * m) + 1) / 4 = m := by omega
    have hr : (2 * (2 * m) + 1) % 4 = 1 := by omega
    have hc : compare (2 * 1) 4 = Ordering.lt := rfl
    simp [roundShift, hq, hr, hc]
  · obtain ⟨k, rfl⟩ : ∃ k : Nat, s = (k : Int) + 1 := ⟨(s - 1).toNat, by omega⟩
    obtain ⟨hq, hc⟩ := odd_quotient m (2 ^ k) (Nat.two_pow_pos k)
    have e1 : 2 ^ (((k : Int) + 1 + 1).toNat + 1) = 8 * 2 ^ k := by
      rw [show ((k : Int) + 1 + 1).toNat + 1 = k + 3 by omega, pow_add, mul_comm]
      rfl
    have e2 : 2 ^ (((k : Int) + 1).toNat + 1) = 4 * 2 ^ k := by
      rw [show ((k : Int) + 1).toNat + 1 = k + 2 by omega, pow_add, mul_comm]
      rfl
    simp only [roundShift, if_neg (show ¬ (k : Int) + 1 ≤ 0 by omega), if_neg (show ¬ (k : Int) + 1 + 1 ≤ 0 by omega), e1, e2,
      roundsUp_zero, if_true, show 2 * (2 * m) = 4 * m by ring, hq, hc]

theorem log2_double {m : Nat} (hm : 0 < m) : (2 * m).log2 = m.log2 + 1 := by
  rw [Nat.log2_eq_log_two, Nat.log2_eq_log_two, mul_comm, Nat.log_mul_base one_lt_two hm.ne']

/-- The leading exponent of a number stays as a zero bit is put below its last. -/
theorem topExp_double {m : Nat} (hm : 0 < m) (e : Int) : topExp (2 * m) (e - 1) = topExp m e := by
  rw [topExp, topExp, log2_double hm]
  push_cast
  ring

/-- A number with a remainder is rounded to nearest as it is with a zero bit put below its last (R90). -/
theorem round_double (f : FFmt) (neg : Bool) {m : Nat} (hm : 0 < m) (e : Int) :
    (f.round 0 neg (2 * m) (e - 1) true).bits = (f.round 0 neg m e true).bits := by
  have hs (q : Int) : (roundShift 0 neg (2 * m) true (q - (e - 1))).1 = (roundShift 0 neg m true (q - e)).1 := by
    rw [show q - (e - 1) = q - e + 1 by ring, roundShift_double]
  unfold FFmt.round
  simp only [topExp_double hm, Bool.not_true, Bool.and_false, Bool.false_eq_true, if_false, apply_ite FRes.bits, hs]

theorem round_scaled (f : FFmt) (neg : Bool) {m : Nat} (hm : 0 < m) (e : Int) (k : Nat) :
    (f.round 0 neg (2 ^ k * m) (e - k) true).bits = (f.round 0 neg m e true).bits := by
  induction k with
  | zero => simp
  | succ k ih =>
    rw [← ih, ← round_double f neg (by positivity) (e - k), pow_succ', mul_assoc]
    push_cast
    rw [sub_sub]

/-- A significand with a remainder and enough zero bits below its last is longer than the format's. -/
theorem precise_scaled (f : FFmt) {m : Nat} (hm : 0 < m) (sticky : Bool) : Precise f (2 ^ (f.mbits + 1) * m) sticky := by
  intro _
  have h : 2 ^ (f.mbits + 1) ≤ 2 ^ (f.mbits + 1) * m := Nat.le_mul_of_pos_right _ hm
  exact (Nat.le_log2 (by positivity)).2 h

/-- A number whose remainder is small enough is rounded to nearest as its significand says with the sticky bit (R90). -/
theorem roundsTo_sticky {f : FFmt} (h : Sized f) (neg : Bool) {m : Nat} (hm : 0 < m) (e : Int) {x : ℚ} (hx : 0 < x)
    (hd : x < 2 ^ (e - (f.mbits + 1 : Nat))) :
    RoundsTo f 0 neg (signedRat neg (m * 2 ^ e + x)) (f.round 0 neg m e true).bits := by
  have hp : (0 : ℚ) < 2 ^ (e - (f.mbits + 1 : Nat)) := by positivity
  have hy : Stands (2 ^ (f.mbits + 1) * m) true (((2 ^ (f.mbits + 1) * m : Nat) : ℚ) + x / 2 ^ (e - (f.mbits + 1 : Nat))) := by
    have h0 : 0 < x / 2 ^ (e - (f.mbits + 1 : Nat)) := by positivity
    have h1 : x / 2 ^ (e - (f.mbits + 1 : Nat)) < 1 := (div_lt_one hp).2 hd
    exact ⟨by linarith, by linarith, iff_of_false (by decide) (by linarith)⟩
  have hv : (((2 ^ (f.mbits + 1) * m : Nat) : ℚ) + x / 2 ^ (e - (f.mbits + 1 : Nat))) * 2 ^ (e - (f.mbits + 1 : Nat)) =
      m * 2 ^ e + x := by
    rw [add_mul, div_mul_cancel₀ _ hp.ne', zpow_sub₀ two_ne_zero, zpow_natCast]
    push_cast
    field_simp
  have := (roundedOnce_round h (mode := 0) (neg := neg) hy (by positivity) (precise_scaled f hm true)
    (e - (f.mbits + 1 : Nat))).bits
  rwa [hv, round_scaled f neg hm] at this

theorem sized_fp32 : Sized fp32 := sized_of_mem (by simp)

/-- A sum in units of 2^lsb is rounded with its sticky bit (R90). -/
theorem roundsSticky_roundSticky (z lsb : Int) (st : Bool) : RoundsSticky (z * 2 ^ lsb) st (roundSticky z lsb st) := by
  have hz0 := mul_zpow_eq_zero_iff z lsb
  have hneg : decide ((z : ℚ) * 2 ^ lsb < 0) = decide (z < 0) := decide_eq_decide.2 (mul_zpow_neg_iff z lsb)
  refine ⟨fun h => if_pos (hz0.1 h), fun h hst => ?_, fun h hst => ⟨2 ^ (lsb - (fp32.mbits + 1 : Nat)), by positivity, ?_⟩⟩
  all_goals have hz : z ≠ 0 := mt hz0.2 h
  all_goals rw [hneg, roundSticky, if_neg hz, hst]
  · have := (roundedOnce_exact sized_fp32 (mode := 0) (neg := decide (z < 0)) (Int.natAbs_pos.2 hz) lsb).bits
    rwa [rat_num, signedRat_natAbs] at this
  · intro x hx hd
    have := roundsTo_sticky sized_fp32 (decide (z < 0)) (Int.natAbs_pos.2 hz) lsb hx hd
    convert this using 1
    have hs := signedRat_natAbs z lsb
    by_cases hlt : z < 0
    · simp only [hlt, decide_true, mul_zpow_neg_iff, if_true, signedRat] at hs ⊢
      linarith
    · simp only [hlt, decide_false, mul_zpow_neg_iff, if_false, signedRat, Bool.false_eq_true] at hs ⊢
      linarith

/-- A rounded sum is an FP32 pattern. -/
theorem roundSticky_lt (z lsb : Int) (st : Bool) : roundSticky z lsb st < 2 ^ 32 := by
  unfold roundSticky
  split
  · decide
  · next hz =>
    have hm := Int.natAbs_pos.2 hz
    cases st with
    | false => exact (canonical_round sized_fp32 (precise_exact _ _) (.inr rfl)).1
    | true =>
      rw [← round_scaled fp32 _ hm lsb (fp32.mbits + 1)]
      exact (canonical_round sized_fp32 (precise_scaled fp32 hm true) (.inl (by positivity))).1

end Sys2Proof.Proofs
end
section
/-!
PROOFS. The sums of a matrix pass: the products of a block in their window, and the promotion of their sum to the tile element
(R89, R90, R92).
-/

namespace Sys2Proof.Proofs
open Sys2Proof Sys2Proof.Machine

/-! ### Numbers with their lower bits removed -/

/-- The number that a sign, a magnitude and an exponent are. -/
def ratOf (x : Exact) : ℚ := (FVal.num x.neg x.m x.e).rat

theorem ratOf_eq (x : Exact) : ratOf x = signedRat x.neg (x.m * 2 ^ x.e) := rat_num ..

theorem ratOf_eq_zero_iff (x : Exact) : ratOf x = 0 ↔ x.m = 0 := rat_eq_zero_iff ..

theorem ratOf_neg_iff (x : Exact) (h : x.m ≠ 0) : decide (ratOf x < 0) = x.neg := by
  rw [Bool.eq_iff_iff, decide_eq_true_iff]
  exact rat_neg_iff x.e (Nat.pos_of_ne_zero h)

theorem ratOf_exactOf (z lsb : Int) : ratOf (exactOf z lsb) = z * 2 ^ lsb := (ratOf_eq _).trans (signedRat_natAbs z lsb)

theorem cutAt_signedRat (neg : Bool) {a : ℚ} (ha : 0 ≤ a) (lsb : Int) :
    cutAt (signedRat neg a) lsb = signedRat neg (⌊a / 2 ^ lsb⌋ * 2 ^ lsb) := by
  rw [cutAt, abs_signedRat neg ha]
  rcases ha.eq_or_lt with rfl | hpos
  · simp [signedRat]
  · cases neg <;> simp [signedRat, hpos, hpos.le]

/-- The magnitude of a number in units of 2^lsb. -/
theorem magnitude_in_units (m : Nat) (e lsb : Int) : (m : ℚ) * 2 ^ e / 2 ^ lsb =
    if 0 ≤ e - lsb then ((m * 2 ^ (e - lsb).toNat : Nat) : ℚ) else (m : ℚ) / (2 ^ (-(e - lsb)).toNat : Nat) := by
  rw [mul_div_assoc, ← zpow_sub₀ two_ne_zero]
  split
  · next h =>
    push_cast
    rw [← zpow_natCast, Int.toNat_of_nonneg h]
  · next h =>
    push_cast
    rw [← zpow_natCast, Int.toNat_of_nonneg (by omega), zpow_neg, div_inv_eq_mul]

/-- What is left of a number as its lower bits are removed, and whether any were (R89, R90). -/
theorem cut_eq (x : Exact) (lsb : Int) : ((x.cut lsb).1 : ℚ) * 2 ^ lsb = cutAt (ratOf x) lsb ∧
    ((x.cut lsb).2 = true ↔ cutAt (ratOf x) lsb ≠ ratOf x) := by
  obtain ⟨neg, m, e⟩ := x
  have hp : (0 : ℚ) < 2 ^ lsb := by positivity
  have hu := magnitude_in_units m e lsb
  obtain ⟨q, ha⟩ : ∃ q : ℚ, (m : ℚ) * 2 ^ e = q * 2 ^ lsb := ⟨_, (div_mul_cancel₀ _ hp.ne').symm⟩
  rw [ratOf_eq, cutAt_signedRat _ (by positivity)]
  dsimp only
  rw [ha, mul_div_cancel_right₀ _ hp.ne'] at hu ⊢
  rw [ne_eq, signedRat_inj, mul_left_inj' hp.ne']
  have sign (n : Nat) : ((if neg then -(n : Int) else n : Int) : ℚ) * 2 ^ lsb = signedRat neg (((n : Int) : ℚ) * 2 ^ lsb) := by
    cases neg <;> simp [signedRat]
  unfold Exact.cut
  dsimp only
  rw [sign, signedRat_inj, mul_left_inj' hp.ne', Bool.and_eq_true, decide_eq_true_eq, bne_iff_ne, Int.cast_inj]
  by_cases hk : 0 ≤ e - lsb
  · rw [if_pos hk] at hu ⊢
    rw [hu, Int.floor_natCast]
    exact ⟨rfl, iff_of_false (fun h => absurd h.1 (not_lt.2 hk)) (by simp)⟩
  · rw [if_neg hk] at hu ⊢
    have hd : ((2 ^ (-(e - lsb)).toNat : Nat) : ℚ) ≠ 0 := by positivity
    rw [hu, Rat.floor_natCast_div_natCast, ← Int.natCast_div, Int.cast_natCast, eq_div_iff hd, ← Nat.cast_mul, Nat.cast_inj (R := ℚ),
      ← Nat.dvd_iff_div_mul_eq, Nat.dvd_iff_mod_eq_zero]
    exact ⟨rfl, and_iff_right (not_le.1 hk)⟩

/-- The leading exponent of a number that is not 0. -/
theorem log_ratOf {x : Exact} (h : x.m ≠ 0) : Int.log 2 |ratOf x| = x.top := by
  have hm := Nat.pos_of_ne_zero h
  rw [ratOf_eq, abs_signedRat _ (by positivity)]
  exact log_of_stands (stands_exact x.m) hm x.e

/-- The greatest leading exponent of some numbers that are not 0. -/
theorem topOf_spec (l : List Exact) :
    (topOf l = none → ∀ v ∈ l.map ratOf, v = 0) ∧ ∀ t, topOf l = some t → IsTop (l.map ratOf) t := by
  induction l with
  | nil => exact ⟨fun _ v hv => absurd hv List.not_mem_nil, fun t h => absurd h (by simp [topOf])⟩
  | cons x l ih =>
    obtain ⟨ih0, ih1⟩ := ih
    by_cases hx : x.m = 0
    · have h0 := (ratOf_eq_zero_iff x).2 hx
      simp only [topOf, if_pos hx]
      refine ⟨fun h => List.forall_mem_cons.2 ⟨h0, ih0 h⟩, fun t h => ?_⟩
      obtain ⟨⟨v, hv, hne, hlog⟩, hall⟩ := ih1 t h
      exact ⟨⟨v, List.mem_cons_of_mem _ hv, hne, hlog⟩, List.forall_mem_cons.2 ⟨fun h => absurd h0 h, hall⟩⟩
    · have h0 := mt (ratOf_eq_zero_iff x).1 hx
      have hlog := log_ratOf hx
      simp only [topOf, if_neg hx]
      cases ht : topOf l with
      | none =>
        refine ⟨fun h => absurd h (by simp), fun t h => ?_⟩
        obtain rfl := Option.some.inj h
        exact ⟨⟨_, List.mem_cons_self, h0, hlog⟩,
          List.forall_mem_cons.2 ⟨fun _ => hlog.le, fun v hv hne => absurd (ih0 ht v hv) hne⟩⟩
      | some u =>
        refine ⟨fun h => absurd h (by simp), fun t h => ?_⟩
        obtain rfl := Option.some.inj h
        obtain ⟨⟨v, hv, hne, hvl⟩, hall⟩ := ih1 u ht
        refine ⟨?_, List.forall_mem_cons.2 ⟨fun _ => hlog.le.trans (le_max_left ..), fun w hw hne =>
          (hall w hw hne).trans (le_max_right ..)⟩⟩
        rcases le_total x.top u with hle | hle
        · exact ⟨v, List.mem_cons_of_mem _ hv, hne, by rw [max_eq_right hle, hvl]⟩
        · exact ⟨_, List.mem_cons_self, h0, by rw [max_eq_left hle, hlog]⟩

theorem isTop_unique {l : List ℚ} {e t : ℤ} (h : IsTop l e) (k : IsTop l t) : e = t := by
  obtain ⟨⟨v, hv, hne, hlog⟩, hall⟩ := h
  obtain ⟨⟨w, hw, hne', hlog'⟩, hall'⟩ := k
  exact le_antisymm (hlog ▸ hall' v hv hne) (hlog' ▸ hall w hw hne')

/-- Where some numbers have a greatest power of two, it is the one that is found. -/
theorem topOf_of_isTop {l : List Exact} {e : ℤ} (h : IsTop (l.map ratOf) e) : topOf l = some e := by
  obtain ⟨h0, h1⟩ := topOf_spec l
  cases ht : topOf l with
  | none =>
    obtain ⟨⟨v, hv, hne, -⟩, -⟩ := h
    exact absurd (h0 ht v hv) hne
  | some t => rw [isTop_unique h (h1 t ht)]

/-- The sum of some numbers in a window, and whether any bit was removed (R89, R90). -/
theorem sumCut_eq (l : List Exact) (lsb : Int) :
    ((sumCut l lsb).1 : ℚ) * 2 ^ lsb = ((l.map ratOf).map fun v => cutAt v lsb).sum ∧
    ((sumCut l lsb).2 = true ↔ ∃ v ∈ l.map ratOf, cutAt v lsb ≠ v) := by
  unfold sumCut
  dsimp only
  suffices h : ∀ a : Int × Bool,
      ((l.foldl (fun a x => (a.1 + (x.cut lsb).1, a.2 || (x.cut lsb).2)) a).1 : ℚ) * 2 ^ lsb =
        a.1 * 2 ^ lsb + ((l.map ratOf).map fun v => cutAt v lsb).sum ∧
      ((l.foldl (fun a x => (a.1 + (x.cut lsb).1, a.2 || (x.cut lsb).2)) a).2 = true ↔
        a.2 = true ∨ ∃ v ∈ l.map ratOf, cutAt v lsb ≠ v) by
    obtain ⟨h1, h2⟩ := h (0, false)
    exact ⟨by simpa using h1, by simpa using h2⟩
  induction l with
  | nil => simp
  | cons x l ih =>
    intro a
    obtain ⟨h1, h2⟩ := cut_eq x lsb
    obtain ⟨ih1, ih2⟩ := ih (a.1 + (x.cut lsb).1, a.2 || (x.cut lsb).2)
    rw [List.foldl_cons, ih1, ih2]
    refine ⟨?_, ?_⟩
    · rw [List.map_cons, List.map_cons, List.sum_cons, ← h1]
      push_cast
      ring
    · rw [Bool.or_eq_true, h2, or_assoc, List.map_cons, List.exists_mem_cons_iff]

/-! ### The products of a block (R92) -/

/-- A value is finite. -/
def IsFinite (v : FVal) : Prop := v.isNan = false ∧ v.isInf = false

/-- The product of two values is a NaN (R92). -/
def WrongProduct (p : FVal × FVal) : Prop :=
  p.1.isNan = true ∨ p.2.isNan = true ∨ (p.1.isInf = true ∧ p.2.rat = 0 ∧ IsFinite p.2) ∨
    (p.2.isInf = true ∧ p.1.rat = 0 ∧ IsFinite p.1)

/-- The product of two values is an infinity of a sign, where it is no NaN (R92). -/
def EndlessProduct (p : FVal × FVal) (neg : Bool) : Prop :=
  (p.1.isInf = true ∨ p.2.isInf = true) ∧ (p.1.isNeg != p.2.isNeg) = neg

/-- The product of two values. -/
def product (p : FVal × FVal) : FVal := (p.1.mul p.2).1

theorem exists_num_of_isFinite {v : FVal} (h : IsFinite v) : ∃ n m e, v = .num n m e := by
  obtain ⟨hn, hi⟩ := h
  cases v with
  | nan g => exact absurd hn (by simp [FVal.isNan])
  | inf n => exact absurd hi (by simp [FVal.isInf])
  | num n m e => exact ⟨n, m, e, rfl⟩

/-- The product of two finite values. -/
theorem product_num (na nb : Bool) (ma mb : Nat) (ea eb : Int) :
    product (.num na ma ea, .num nb mb eb) = .num (na != nb) (ma * mb) (ea + eb) := rfl

theorem product_inf_inf (na nb : Bool) : product (.inf na, .inf nb) = .inf (na != nb) := rfl

theorem product_inf_num (na nb : Bool) (m : Nat) (e : Int) :
    product (.inf na, .num nb m e) = if m = 0 then .nan false else .inf (na != nb) :=
  apply_ite Prod.fst (m = 0) (FVal.nan false, flagNV) (FVal.inf (na != nb), 0)

theorem product_num_inf (na nb : Bool) (m : Nat) (e : Int) :
    product (.num na m e, .inf nb) = if m = 0 then .nan false else .inf (na != nb) :=
  apply_ite Prod.fst (m = 0) (FVal.nan false, flagNV) (FVal.inf (na != nb), 0)

/-- Which products are a NaN, and which an infinity (R92). -/
theorem product_special (p : FVal × FVal) : ((product p).isNan = true ↔ WrongProduct p) ∧
    ∀ neg, product p = .inf neg ↔ ¬ WrongProduct p ∧ EndlessProduct p neg := by
  obtain ⟨a, b⟩ := p
  cases a with
  | nan g => exact ⟨iff_of_true rfl (.inl rfl), fun neg => iff_of_false nofun fun h => h.1 (.inl rfl)⟩
  | inf na =>
    cases b with
    | nan g => exact ⟨iff_of_true rfl (.inr (.inl rfl)), fun neg => iff_of_false nofun fun h => h.1 (.inr (.inl rfl))⟩
    | inf nb =>
      rw [product_inf_inf]
      simp [WrongProduct, EndlessProduct, IsFinite, FVal.isNan, FVal.isInf, FVal.isNeg]
    | num nb m e =>
      rw [product_inf_num]
      by_cases hm : m = 0 <;>
        simp [WrongProduct, EndlessProduct, IsFinite, FVal.isNan, FVal.isInf, FVal.isNeg, rat_eq_zero_iff, hm]
  | num na m e =>
    cases b with
    | nan g => exact ⟨iff_of_true rfl (.inr (.inl rfl)), fun neg => iff_of_false nofun fun h => h.1 (.inr (.inl rfl))⟩
    | inf nb =>
      rw [product_num_inf]
      by_cases hm : m = 0 <;>
        simp [WrongProduct, EndlessProduct, IsFinite, FVal.isNan, FVal.isInf, FVal.isNeg, rat_eq_zero_iff, hm]
    | num nb k f =>
      rw [product_num]
      simp [WrongProduct, EndlessProduct, FVal.isNan, FVal.isInf]

/-! ### The sum of a block (R89, R92) -/

/-- The sign of a value that is an infinity. -/
def infinite : FVal → Option Bool
  | .inf s => some s
  | _ => none

/-- The number of a value that is finite. -/
def finite : FVal → Option Exact
  | .num s m e => some ⟨s, m, e⟩
  | _ => none

theorem infinite_eq_some {v : FVal} {s : Bool} : infinite v = some s ↔ v = .inf s := by cases v <;> simp [infinite]

/-- The sum of the finite products of a block in their window (R89). -/
def windowSum (xs : List Exact) : BlockSum :=
  match topOf xs with
  | none => .fin ⟨false, 0, 0⟩ false
  | some t => .fin (exactOf (sumCut xs (t - 104)).1 (t - 104)) (sumCut xs (t - 104)).2

theorem blockSum_eq (a b : List FVal) : blockSum a b =
    if ((a.zip b).map product).any FVal.isNan then .nan
    else match ((a.zip b).map product).filterMap infinite with
      | s :: l => if l.any (· != s) then .nan else .inf s
      | [] => windowSum (((a.zip b).map product).filterMap finite) := rfl

variable {a b : List FVal}

theorem any_product_isNan : ((a.zip b).map product).any FVal.isNan = true ↔ ∃ p ∈ a.zip b, WrongProduct p := by
  simp [(product_special _).1]

theorem blockSum_wrong (h : ∃ p ∈ a.zip b, WrongProduct p) : blockSum a b = .nan :=
  (blockSum_eq a b).trans (if_pos (any_product_isNan.2 h))

/-- The infinities among the products of a block without a NaN. -/
theorem mem_infinities (h : ∀ p ∈ a.zip b, ¬ WrongProduct p) (neg : Bool) :
    neg ∈ ((a.zip b).map product).filterMap infinite ↔ ∃ p ∈ a.zip b, EndlessProduct p neg := by
  simp only [List.mem_filterMap, List.mem_map, infinite_eq_some]
  constructor
  · rintro ⟨v, ⟨p, hp, rfl⟩, hv⟩
    exact ⟨p, hp, (((product_special p).2 neg).1 hv).2⟩
  · rintro ⟨p, hp, he⟩
    exact ⟨_, ⟨p, hp, rfl⟩, ((product_special p).2 neg).2 ⟨h p hp, he⟩⟩

theorem blockSum_right (h : ∀ p ∈ a.zip b, ¬ WrongProduct p) : blockSum a b =
    match ((a.zip b).map product).filterMap infinite with
      | s :: l => if l.any (· != s) then .nan else .inf s
      | [] => windowSum (((a.zip b).map product).filterMap finite) :=
  (blockSum_eq a b).trans (if_neg (mt any_product_isNan.1 (by simpa using h)))

/-- Infinities of both signs make the sum a NaN (R92). -/
theorem blockSum_mixed (ht : ∃ p ∈ a.zip b, EndlessProduct p true) (hf : ∃ p ∈ a.zip b, EndlessProduct p false) :
    blockSum a b = .nan := by
  by_cases hw : ∃ p ∈ a.zip b, WrongProduct p
  · exact blockSum_wrong hw
  · have h : ∀ p ∈ a.zip b, ¬ WrongProduct p := by simpa using hw
    rw [blockSum_right h]
    have h1 := (mem_infinities h true).2 ht
    have h2 := (mem_infinities h false).2 hf
    cases hl : ((a.zip b).map product).filterMap infinite with
    | nil => exact absurd (hl ▸ h1) List.not_mem_nil
    | cons s l =>
      rw [hl] at h1 h2
      refine if_pos (List.any_eq_true.2 ⟨!s, ?_, by cases s <;> rfl⟩)
      cases s
      · exact (List.mem_cons.1 h1).resolve_left (by decide)
      · exact (List.mem_cons.1 h2).resolve_left (by decide)

/-- Infinities of one sign make the sum that infinity (R92). -/
theorem blockSum_endless (h : ∀ p ∈ a.zip b, ¬ WrongProduct p) {neg : Bool} (hn : ∃ p ∈ a.zip b, EndlessProduct p neg)
    (ho : ∀ p ∈ a.zip b, ¬ EndlessProduct p !neg) : blockSum a b = .inf neg := by
  rw [blockSum_right h]
  have h1 := (mem_infinities h neg).2 hn
  have h2 : ∀ s ∈ ((a.zip b).map product).filterMap infinite, s = neg := by
    intro s hs
    obtain ⟨p, hp, he⟩ := (mem_infinities h s).1 hs
    by_contra hne
    exact ho p hp (by rwa [← Bool.eq_not_of_ne hne])
  cases hl : ((a.zip b).map product).filterMap infinite with
  | nil => exact absurd (hl ▸ h1) List.not_mem_nil
  | cons s l =>
    rw [hl] at h2
    obtain ⟨rfl, h3⟩ := List.forall_mem_cons.1 h2
    exact if_neg (by simpa using h3)

/-- Finite products are summed in their window (R89). -/
theorem blockSum_finite (h : ∀ v ∈ a ++ b, IsFinite v) : ∃ x st, blockSum a b = .fin x st ∧
    BlockSummed ((a.zip b).map fun p => p.1.rat * p.2.rat) (ratOf x) st := by
  have num {p : FVal × FVal} (hp : p ∈ a.zip b) : ∃ x, product p = .num x.neg x.m x.e ∧ ratOf x = p.1.rat * p.2.rat := by
    obtain ⟨na, ma, ea, h1⟩ := exists_num_of_isFinite (h p.1 (List.mem_append_left _ (List.of_mem_zip hp).1))
    obtain ⟨nb, mb, eb, h2⟩ := exists_num_of_isFinite (h p.2 (List.mem_append_right _ (List.of_mem_zip hp).2))
    obtain ⟨u, v⟩ := p
    obtain ⟨rfl, rfl⟩ : u = _ ∧ v = _ := ⟨h1, h2⟩
    exact ⟨⟨na != nb, ma * mb, ea + eb⟩, rfl, rat_mul ..⟩
  have hw : ∀ p ∈ a.zip b, ¬ WrongProduct p := fun p hp hw => by
    obtain ⟨x, hx, -⟩ := num hp
    have := (product_special p).1.2 hw
    rw [hx] at this
    exact absurd this (by simp [FVal.isNan])
  have hi : ((a.zip b).map product).filterMap infinite = [] := by
    rw [List.filterMap_eq_nil_iff, List.forall_mem_map]
    intro p hp
    obtain ⟨x, hx, -⟩ := num hp
    rw [hx]
    rfl
  have hr : (((a.zip b).map product).filterMap finite).map ratOf = (a.zip b).map fun p => p.1.rat * p.2.rat := by
    generalize a.zip b = l at num
    induction l with
    | nil => rfl
    | cons p l ih =>
      obtain ⟨x, hx, hxr⟩ := num List.mem_cons_self
      rw [List.map_cons, List.filterMap_cons_some (b := x) (by rw [hx]; rfl), List.map_cons, hxr,
        ih fun hp => num (List.mem_cons_of_mem _ hp), List.map_cons]
  rw [blockSum_right hw, hi, ← hr]
  generalize ((a.zip b).map product).filterMap finite = xs
  obtain ⟨h0, h1⟩ := topOf_spec xs
  unfold windowSum
  cases ht : topOf xs with
  | none =>
    exact ⟨_, _, rfl, fun _ => ⟨(ratOf_eq_zero_iff _).2 rfl, rfl⟩, fun e ⟨⟨v, hv, hne, _⟩, _⟩ => absurd (h0 ht v hv) hne⟩
  | some t =>
    refine ⟨_, _, rfl, fun hz => ?_, fun e he => ?_⟩
    · obtain ⟨⟨v, hv, hne, -⟩, -⟩ := h1 t ht
      exact absurd (hz v hv) hne
    · obtain rfl := isTop_unique he (h1 t ht)
      rw [ratOf_exactOf]
      exact sumCut_eq xs (e - 104)

end Sys2Proof.Proofs
end
section
/-!
PROOFS. The promotion of a block sum to its tile element (R90 to R92).
-/

namespace Sys2Proof.Proofs
open Sys2Proof Sys2Proof.Machine

theorem signBit_eq (v : FVal) : v.signBit = v.isNeg := by cases v <;> rfl

variable {x : BlockSum} {sa sb : FVal} {old : Nat}

/-! ### Special values (R92) -/

/-- A NaN makes the element one (R92). -/
theorem promote_nan (h : sa.isNan = true ∨ sb.isNan = true ∨ (fp32.value old).isNan = true ∨ x = .nan) :
    promote x sa sb old = fp32.nan := by
  unfold promote
  by_cases hn : (sa.isNan || sb.isNan || (fp32.value old).isNan) = true
  · exact if_pos hn
  · dsimp only
    rw [if_neg hn]
    simp only [Bool.or_eq_true, not_or] at hn
    obtain ⟨⟨h1, h2⟩, h3⟩ := hn
    rw [((h.resolve_left h1).resolve_left h2).resolve_left h3]

/-- The choice between the NaN and an infinity. -/
theorem nan_or_inf {α : Type} (p q i n m : Bool) (u v : α) : (if (p || q) = true then u else if (i && n != m) = true then u else v) =
    if p = true ∨ q = true ∨ (i = true ∧ n ≠ m) then u else v := by
  cases p <;> cases q <;> simp

section
variable (ha : sa.isNan = false) (hb : sb.isNan = false) (hc : (fp32.value old).isNan = false)
include ha hb hc

/-- An infinite sum times the scales, added to the element (R92). -/
theorem promote_inf (neg : Bool) : promote (.inf neg) sa sb old =
    if sa.isZero ∨ sb.isZero ∨ ((fp32.value old).isInf = true ∧ (fp32.value old).isNeg ≠ xor neg (xor sa.isNeg sb.isNeg))
    then fp32.nan else fp32.inf (xor neg (xor sa.isNeg sb.isNeg)) := by
  unfold promote
  simp only [ha, hb, hc, signBit_eq, Bool.or_false, Bool.false_eq_true, if_false, nan_or_inf]

/-- A finite sum times an infinite scale, added to the element (R92). -/
theorem promote_inf_scale {x : Exact} (st : Bool) (h : sa.isInf = true ∨ sb.isInf = true) : promote (.fin x st) sa sb old =
    if ratOf x = 0 ∨ sa.isZero ∨ sb.isZero ∨ ((fp32.value old).isInf = true ∧
      (fp32.value old).isNeg ≠ xor (decide (ratOf x < 0)) (xor sa.isNeg sb.isNeg))
    then fp32.nan else fp32.inf (xor (decide (ratOf x < 0)) (xor sa.isNeg sb.isNeg)) := by
  unfold promote
  have hi : (sa.isInf || sb.isInf) = true := by simpa using h
  simp only [ha, hb, hc, signBit_eq, Bool.or_false, Bool.false_eq_true, if_false, hi, if_true, ratOf_eq_zero_iff]
  by_cases hx : x.m = 0
  · simp [hx]
  · simp only [hx, ratOf_neg_iff x hx, decide_false, Bool.false_or, false_or, nan_or_inf]

end

/-- A finite sum leaves an infinite element as it is (R92). -/
theorem promote_inf_old {x : Exact} (st : Bool) (ha : IsFinite sa) (hb : IsFinite sb)
    (hc : (fp32.value old).isInf = true) : promote (.fin x st) sa sb old = old := by
  obtain ⟨na, ma, ea, rfl⟩ := exists_num_of_isFinite ha
  obtain ⟨nb, mb, eb, rfl⟩ := exists_num_of_isFinite hb
  cases hv : fp32.value old with
  | nan g => rw [hv] at hc; cases hc
  | num n m e => rw [hv] at hc; cases hc
  | inf n =>
    unfold promote
    rw [hv]
    rfl

/-! ### Finite values (R90) -/

/-- A finite sum with finite scales, added to a finite element in the window of 128 bits (R90). -/
theorem promoted_promote (x : Exact) (st : Bool) (ha : IsFinite sa) (hb : IsFinite sb) (hc : IsFinite (fp32.value old)) :
    Promoted (ratOf x * sa.rat * sb.rat) st old (fp32.value old).rat (promote (.fin x st) sa sb old) := by
  obtain ⟨na, ma, ea, rfl⟩ := exists_num_of_isFinite ha
  obtain ⟨nb, mb, eb, rfl⟩ := exists_num_of_isFinite hb
  obtain ⟨nc, mc, ec, hv⟩ := exists_num_of_isFinite hc
  have hy : ratOf x * (FVal.num na ma ea).rat * (FVal.num nb mb eb).rat =
      ratOf ⟨xor x.neg (xor na nb), x.m * ma * mb, x.e + ea + eb⟩ := by
    rw [mul_assoc, ← rat_mul na nb]
    refine (rat_mul x.neg (na != nb) x.m (ma * mb) x.e (ea + eb)).symm.trans ?_
    rw [← mul_assoc, ← add_assoc]
    rfl
  have hp : promote (.fin x st) (.num na ma ea) (.num nb mb eb) old =
      let y : Exact := ⟨xor x.neg (xor na nb), x.m * ma * mb, x.e + ea + eb⟩
      if y.m = 0 && !st then old
      else match topOf [y, ⟨nc, mc, ec⟩] with
        | none => 0
        | some l => roundSticky (sumCut [y, ⟨nc, mc, ec⟩] (l - 126)).1 (l - 126)
          (st || (sumCut [y, ⟨nc, mc, ec⟩] (l - 126)).2) := by
    unfold promote
    rw [hv]
    rfl
  rw [hp, hv, hy]
  clear hp hy
  generalize (⟨xor x.neg (xor na nb), x.m * ma * mb, x.e + ea + eb⟩ : Exact) = y
  have hz : (FVal.num nc mc ec).rat = ratOf ⟨nc, mc, ec⟩ := rfl
  rw [hz]
  generalize (⟨nc, mc, ec⟩ : Exact) = z
  dsimp only
  refine ⟨fun h0 hst => if_pos (by simp [(ratOf_eq_zero_iff y).1 h0, hst]), fun h0 hc0 hst => ?_, fun e he hne => ?_⟩
  · rw [if_neg (by simp [hst])]
    simp [topOf, (ratOf_eq_zero_iff y).1 h0, (ratOf_eq_zero_iff z).1 hc0]
  · rw [if_neg (by simpa [← ratOf_eq_zero_iff, or_iff_not_imp_left] using hne), topOf_of_isTop (l := [y, z]) he]
    obtain ⟨hs, hr⟩ := sumCut_eq [y, z] (e - 126)
    have hsum : cutAt (ratOf y) (e - 126) + cutAt (ratOf z) (e - 126) = ((sumCut [y, z] (e - 126)).1 : ℚ) * 2 ^ (e - 126) := by
      rw [hs]
      simp
    have hst : (st || decide (cutAt (ratOf y) (e - 126) ≠ ratOf y) || decide (cutAt (ratOf z) (e - 126) ≠ ratOf z)) =
        (st || (sumCut [y, z] (e - 126)).2) := by
      rw [Bool.or_assoc]
      congr 1
      rw [Bool.eq_iff_iff, hr]
      simp
    rw [hsum, hst]
    exact roundsSticky_roundSticky ..

/-- A promoted element is an FP32 pattern. -/
theorem promote_lt (x : BlockSum) (sa sb : FVal) (h : old < 2 ^ 32) : promote x sa sb old < 2 ^ 32 := by
  have hnan : fp32.nan < 2 ^ 32 := by decide
  have hinf : ∀ n, fp32.inf n < 2 ^ 32 := by decide
  unfold promote
  dsimp only
  split
  · exact hnan
  cases x with
  | nan => exact hnan
  | inf s =>
    dsimp only
    rw [nan_or_inf]
    split
    · exact hnan
    · exact hinf _
  | fin x st =>
    dsimp only
    split
    · rw [nan_or_inf]
      split
      · exact hnan
      · exact hinf _
    · split
      · split
        · exact h
        · split
          · decide
          · exact roundSticky_lt ..
      · exact h

/-! ### A block promoted (R89 to R92) -/

section
variable {a b : List FVal}

theorem promote_block_nan (h : (∃ p ∈ a.zip b, WrongProduct p) ∨
    (∃ p ∈ a.zip b, EndlessProduct p true) ∧ (∃ p ∈ a.zip b, EndlessProduct p false) ∨ sa.isNan = true ∨ sb.isNan = true ∨
    (fp32.value old).isNan = true) : promote (blockSum a b) sa sb old = 0x7FC00000 := by
  rcases h with hw | ⟨ht, hf⟩ | ha | hb | hc
  · exact promote_nan (.inr (.inr (.inr (blockSum_wrong hw))))
  · exact promote_nan (.inr (.inr (.inr (blockSum_mixed ht hf))))
  · exact promote_nan (.inl ha)
  · exact promote_nan (.inr (.inl hb))
  · exact promote_nan (.inr (.inr (.inl hc)))

theorem promote_block_finite (h : ∀ v ∈ a ++ b, IsFinite v) (ha : sa.isNan = false) (hb : sb.isNan = false)
    (hc : (fp32.value old).isNan = false) :
    ∃ x st, BlockSummed ((a.zip b).map fun p => p.1.rat * p.2.rat) x st ∧
      (sa.isInf = true ∨ sb.isInf = true → promote (blockSum a b) sa sb old =
        if x = 0 ∨ sa.isZero ∨ sb.isZero ∨ ((fp32.value old).isInf = true ∧
          (fp32.value old).isNeg ≠ xor (decide (x < 0)) (xor sa.isNeg sb.isNeg))
        then 0x7FC00000 else fp32.inf (xor (decide (x < 0)) (xor sa.isNeg sb.isNeg))) ∧
      (IsFinite sa → IsFinite sb → (fp32.value old).isInf = true → promote (blockSum a b) sa sb old = old) ∧
      (IsFinite sa → IsFinite sb → IsFinite (fp32.value old) →
        Promoted (x * sa.rat * sb.rat) st old (fp32.value old).rat (promote (blockSum a b) sa sb old)) := by
  obtain ⟨x, st, hx, hs⟩ := blockSum_finite h
  rw [hx]
  exact ⟨ratOf x, st, hs, promote_inf_scale ha hb hc st, promote_inf_old st, promoted_promote x st⟩

end

/-- The sum of the products of a row and a column of integers (R91). -/
theorem promoteInt_eq (a b : List Nat) (c : Nat) : promoteInt a b c =
    ((signed 32 c + ((a.zip b).map fun (x : Nat × Nat) => signed 8 x.1 * signed 8 x.2).sum) % 2 ^ 32).toNat := by
  have h : ∀ (l : List (Nat × Nat)) (t : Int), l.foldl (fun t (x, y) => t + signed 8 x * signed 8 y) t =
      t + (l.map fun x => signed 8 x.1 * signed 8 x.2).sum := by
    intro l
    induction l with
    | nil => simp
    | cons x l ih =>
      intro t
      rw [List.foldl_cons, ih, List.map_cons, List.sum_cons, add_assoc]
  rw [promoteInt, h, zero_add]
  rfl

theorem promoteInt_lt (a b : List Nat) (c : Nat) : promoteInt a b c < 2 ^ 32 := by
  unfold promoteInt wrap
  dsimp only
  omega

end Sys2Proof.Proofs
end
section
/-!
PROOFS. A pass of the matrix engine: what it reads of the plane-sets and what it writes to its strip (R251, R254 to R257).
-/

namespace Sys2Proof.Proofs
open Sys2Proof Sys2Proof.Machine

/-! ### Writes of tile elements (R186) -/

/-- A state whose tile elements alone are others. -/
def Tiled (s t : State) : Prop := t = { s with tiles := t.tiles, badTiles := t.badTiles }

section
variable {α : Type} (key : α → Nat) (val : α → BitVec 32)

theorem tiled_setTiles (l : List α) : ∀ s, Tiled s (l.foldl (fun s a => setTile s (key a) (val a)) s) := by
  induction l with
  | nil => exact fun s => rfl
  | cons a l ih =>
    intro s
    rw [List.foldl_cons, Tiled, ih]
    rfl

theorem getTile_setTile (s : State) (k j : Nat) (x : BitVec 32) :
    getTile (setTile s k x) j = if j = k then x else getTile s j := look_store ..

/-- An element that no write names is left as it is. -/
theorem getTile_setTiles_other (l : List α) {k : Nat} (h : ∀ a ∈ l, key a ≠ k) : ∀ s,
    getTile (l.foldl (fun s a => setTile s (key a) (val a)) s) k = getTile s k := by
  induction l with
  | nil => exact fun s => rfl
  | cons a l ih =>
    obtain ⟨ha, hl⟩ := List.forall_mem_cons.1 h
    intro s
    rw [List.foldl_cons, ih hl, getTile_setTile, if_neg ha.symm]

/-- An element takes the value that every write of it has. -/
theorem getTile_setTiles (l : List α) {k : Nat} {x : BitVec 32} (h : ∀ a ∈ l, key a = k → val a = x)
    (hk : ∃ a ∈ l, key a = k) : ∀ s, getTile (l.foldl (fun s a => setTile s (key a) (val a)) s) k = x := by
  induction l with
  | nil => simp at hk
  | cons a l ih =>
    obtain ⟨ha, hl⟩ := List.forall_mem_cons.1 h
    intro s
    rw [List.foldl_cons]
    by_cases hx : ∃ b ∈ l, key b = k
    · exact ih hl hx _
    · rw [getTile_setTiles_other key val l (by simpa using hx), getTile_setTile]
      obtain rfl : key a = k := by simpa [hx] using hk
      rw [if_pos rfl, ha rfl]

end

theorem tileKey_inj {c t i j i' j' : Nat} (hj : j < 128) (hj' : j' < 128) (h : tileKey c t i j = tileKey c t i' j') :
    i = i' ∧ j = j' := by
  unfold tileKey at h
  omega

/-! ### Clearing a strip (R254, R257) -/

/-- The strip that a pass writes. -/
def stripKey (m : MxCmd) (pass i j : Nat) : Nat := tileKey m.cluster m.tile (8 * (pass % 16) + i) j

theorem stripKey_inj {m : MxCmd} {pass i j i' j' : Nat} (hj : j < 128) (hj' : j' < 128)
    (h : stripKey m pass i j = stripKey m pass i' j') : i = i' ∧ j = j' := by
  obtain ⟨h1, h2⟩ := tileKey_inj hj hj' h
  exact ⟨by omega, h2⟩

theorem runPass_mzero (s : State) {m : MxCmd} (pass : Nat) (h : m.kind = 6) : runPass s m pass = .ok
    ((List.range 1024).foldl (fun s x => setTile s (stripKey m pass (x / 128) (x % 128)) 0) s) := if_pos h

/-- A pass of `MZERO` clears its strip and nothing else. -/
theorem mzero_clears (s : State) {m : MxCmd} (pass : Nat) (h : m.kind = 6) : ∃ u, runPass s m pass = .ok u ∧
    (∀ i j, i < 8 → j < 128 → getTile u (stripKey m pass i j) = 0) ∧
    (∀ key, (∀ i j, i < 8 → j < 128 → key ≠ stripKey m pass i j) → getTile u key = getTile s key) ∧ Tiled s u := by
  refine ⟨_, runPass_mzero s pass h, fun i j hi hj => ?_, fun key hk => ?_, tiled_setTiles _ _ _ s⟩
  · refine getTile_setTiles _ _ _ (fun _ _ _ => rfl) ⟨128 * i + j, List.mem_range.2 (by omega), ?_⟩ s
    rw [show (128 * i + j) / 128 = i by omega, show (128 * i + j) % 128 = j by omega]
  · refine getTile_setTiles_other _ _ _ (fun x hx => ?_) s
    have := List.mem_range.1 hx
    exact (hk _ _ (by omega) (by omega)).symm

/-! ### The operands of a pass (R251, R252) -/

/-- Rows of bytes that an engine sees (R251). -/
theorem rowReads_sees {s : State} {k : Client} {vs : Bool} {lo hi n : Nat} {r : Nat → Byte} (h : Sees s k vs lo hi r)
    (l : List Nat) (hl : ∀ a ∈ l, lo ≤ a ∧ a + n ≤ hi) :
    rowReads k vs n l s = .ok (s, l.map fun a => (List.range n).map fun x => r (a + x)) := by
  induction l with
  | nil => rfl
  | cons a l ih =>
    obtain ⟨⟨h1, h2⟩, hl⟩ := List.forall_mem_cons.1 hl
    rw [rowReads, h a n h1 h2]
    dsimp only
    rw [ih hl]
    rfl

/-- A bit of a number of some bytes. -/
theorem bit_ofBytes {bs : List Byte} {k : Nat} (h : k / 8 < bs.length) :
    bit (ofBytes bs) k = (bs.getD (k / 8) 0).getLsbD (k % 8) := by
  rw [BitVec.getLsbD, ← bits_ofBytes bs _ h, bits, Nat.testBit_mod_two_pow, Nat.testBit_div_two_pow, bit,
    decide_eq_true (Nat.mod_lt _ (by omega)), Bool.true_and]
  congr 1
  omega

/-- The bytes of `n` rows from row `row` of the planes of a plane-set. -/
def planeBytes (planes at_ row n : Nat) (r : Nat → Byte) : List (List Byte) :=
  (List.range planes).map fun i => (List.range (16 * n)).map fun x => r (at_ + 2048 * i + 16 * row + x)

theorem zipIdx_map_range {α : Type} (n : Nat) (f : Nat → α) :
    ((List.range n).map f).zipIdx = (List.range n).map fun i => (f i, i) :=
  List.ext_getElem (by simp) (by simp)

theorem total_range_reflect (n : Nat) (f : Nat → Nat) : (total (List.range n) fun i => f (n - 1 - i)) = total (List.range n) f := by
  rw [total_eq_sum, total_eq_sum]
  exact Finset.sum_range_reflect f n

/-- The codes of a row are its elements' (R251, R252). -/
theorem rowCodes_planeBytes (planes at_ row n : Nat) (r : Nat → Byte) {i : Nat} (hi : i < n) :
    rowCodes (planeBytes planes at_ row n r) i = (List.range 128).map fun x => planeCode planes at_ r (row + i) x := by
  have hlen : (planeBytes planes at_ row n r).length = planes := by simp [planeBytes]
  unfold rowCodes
  dsimp only
  refine List.map_congr_left fun x hx => ?_
  have hx := List.mem_range.1 hx
  have hbit (b : Nat) : bit (ofBytes ((((List.range (16 * n)).map fun x => r (at_ + 2048 * b + 16 * row + x)).drop
      (16 * i)).take 16)) x = (r (at_ + 2048 * b + 16 * (row + i) + x / 8)).getLsbD (x % 8) := by
    have h16 : x / 8 < 16 := by omega
    have hin : 16 * i + x / 8 < 16 * n := by omega
    rw [bit_ofBytes (by simp; omega)]
    congr 1
    rw [List.getD_eq_getElem?_getD, List.getElem?_take_of_lt h16, List.getElem?_drop, List.getElem?_map,
      List.getElem?_range hin]
    simp only [Option.map_some, Option.getD_some]
    congr 1
    omega
  rw [hlen, planeBytes, List.map_map, zipIdx_map_range, List.foldl_map, planeCode, ← total_range_reflect]
  simp only [Function.comp_apply, hbit]
  change total (List.range planes) _ = _
  rw [total_eq_sum, total_eq_sum]
  refine congrArg List.sum (List.map_congr_left fun b hb => ?_)
  have := List.mem_range.1 hb
  rw [show planes - 1 - (planes - 1 - b) = b by omega]
  rfl

theorem planesOf_eq {kind : Nat} (h : kind ≤ 5) : planesOf kind = [8, 13, 8, 16, 16, 32].getD kind 0 := by
  interval_cases kind <;> rfl

theorem readPlanes_sees {s : State} {k : Client} {kind at_ row n : Nat} {r : Nat → Byte}
    (h : Sees s k true at_ (at_ + 2048 * planesOf kind) r) (hr : row + n ≤ 128) :
    readPlanes s k kind at_ row n = .ok (s, planeBytes (planesOf kind) at_ row n r) := by
  rw [readPlanes, rowReads_sees h]
  · rw [List.map_map]
    rfl
  · intro a ha
    obtain ⟨i, hi, rfl⟩ := List.mem_map.1 ha
    have := List.mem_range.1 hi
    omega

/-! ### A pass of `MMA` (R254, R257) -/

/-- What a pass writes to an element of its strip, from its row, its column and the element before (R89 to R92). -/
def stripValue (m : MxCmd) (strip i : Nat) (row col : List Nat) (old : Nat) : Nat :=
  if m.kind = 2 then promoteInt row col old
  else promote (blockSum (row.map (mxValue m.kind)) (col.map (mxValue m.kind)))
    (fp32.value (if m.scl then (m.scales.getD (8 * strip + i) 0).toNat else one32))
    (fp32.value (if m.scl then m.wscale.toNat else one32)) old

theorem stripValue_lt (m : MxCmd) (strip i : Nat) (row col : List Nat) {old : Nat} (h : old < 2 ^ 32) :
    stripValue m strip i row col old < 2 ^ 32 := by
  unfold stripValue
  split
  · exact promoteInt_lt ..
  · exact promote_lt _ _ _ h

theorem getD_map_range {α : Type} (f : Nat → α) (d : α) {i n : Nat} (h : i < n) : ((List.range n).map f).getD i d = f i := by
  rw [List.getD_eq_getElem?_getD, List.getElem?_map, List.getElem?_range h]
  rfl

/-- The values of a strip, one for each of its elements. -/
theorem mem_stripValues (m : MxCmd) (strip : Nat) (row col : Nat → List Nat) (old : Nat → Nat → Nat) (v : Nat × Nat × Nat) :
    v ∈ stripValues m strip ((List.range 8).map row) ((List.range 128).map col) old ↔
      v.1 < 8 ∧ v.2.1 < 128 ∧ v.2.2 = stripValue m strip v.1 (row v.1) (col v.2.1) (old v.1 v.2.1) := by
  obtain ⟨i, j, x⟩ := v
  have hv {i j : Nat} (hi : i < 8) (hj : j < 128) : (if m.kind = 2
      then promoteInt (((List.range 8).map row).getD i []) (((List.range 128).map col).getD j []) (old i j)
      else promote (blockSum ((((List.range 8).map row).getD i []).map (mxValue m.kind))
        ((((List.range 128).map col).map fun col => col.map (mxValue m.kind)).getD j []))
        (fp32.value (if m.scl then (m.scales.getD (8 * strip + i) 0).toNat else one32))
        (fp32.value (if m.scl then m.wscale.toNat else one32)) (old i j)) = stripValue m strip i (row i) (col j) (old i j) := by
    rw [List.map_map, getD_map_range _ _ hi, getD_map_range _ _ hj, getD_map_range _ _ hj]
    rfl
  simp only [stripValues, List.mem_flatMap, List.mem_map, List.mem_range, Prod.mk.injEq]
  constructor
  · rintro ⟨i, hi, j, hj, rfl, rfl, rfl⟩
    exact ⟨hi, hj, hv hi hj⟩
  · rintro ⟨hi, hj, rfl⟩
    exact ⟨i, hi, j, hj, rfl, rfl, hv hi hj⟩

/-- The first pass of a strip starts from 0 where the command does not accumulate (R257). -/
def startsAtZero (m : MxCmd) (pass : Nat) : Prop := pass / 16 = 0 ∧ m.acc = false

/-- The element that a pass adds to. -/
def oldElement (s : State) (m : MxCmd) (pass i j : Nat) : Nat :=
  if (pass / 16 == 0 && !m.acc) = true then 0 else (getTile s (stripKey m pass i j)).toNat

theorem startsAtZero_iff (m : MxCmd) (pass : Nat) : (pass / 16 == 0 && !m.acc) = true ↔ startsAtZero m pass := by
  simp [startsAtZero]

theorem oldElement_lt (s : State) (m : MxCmd) (pass i j : Nat) : oldElement s m pass i j < 2 ^ 32 := by
  unfold oldElement
  split
  · decide
  · exact BitVec.isLt _

/-- The tile after a pass whose operands' rows and columns have these codes. -/
def passTiles (s : State) (m : MxCmd) (pass : Nat) (row col : Nat → List Nat) : State :=
  (stripValues m (pass % 16) ((List.range 8).map row) ((List.range 128).map col) (oldElement s m pass)).foldl
    (fun s v => setTile s (stripKey m pass v.1 v.2.1) (BitVec.ofNat 32 v.2.2)) s

theorem getTile_passTiles_other (s : State) (m : MxCmd) (pass : Nat) (row col : Nat → List Nat) {x : Nat}
    (hx : ∀ i j, i < 8 → j < 128 → x ≠ stripKey m pass i j) : getTile (passTiles s m pass row col) x = getTile s x := by
  refine getTile_setTiles_other _ _ _ (fun v hv => ?_) s
  obtain ⟨hi, hj, -⟩ := (mem_stripValues ..).1 hv
  exact (hx _ _ hi hj).symm

theorem getTile_passTiles (s : State) (m : MxCmd) (pass : Nat) (row col : Nat → List Nat) {i j : Nat} (hi : i < 8) (hj : j < 128) :
    (getTile (passTiles s m pass row col) (stripKey m pass i j)).toNat =
      stripValue m (pass % 16) i (row i) (col j) (oldElement s m pass i j) := by
  rw [passTiles, getTile_setTiles (x := BitVec.ofNat 32 (stripValue m (pass % 16) i (row i) (col j) (oldElement s m pass i j)))]
  · rw [BitVec.toNat_ofNat, Nat.mod_eq_of_lt (stripValue_lt _ _ _ _ _ (oldElement_lt ..))]
  · rintro ⟨i', j', x⟩ hv hkey
    obtain ⟨hi', hj', hx⟩ := (mem_stripValues ..).1 hv
    obtain ⟨rfl, rfl⟩ := stripKey_inj hj' hj hkey
    exact congrArg _ hx
  · exact ⟨(i, j, stripValue m (pass % 16) i (row i) (col j) (oldElement s m pass i j)), (mem_stripValues ..).2 ⟨hi, hj, rfl⟩, rfl⟩

/-- A pass whose operands are read and whose strip has no parity error writes its strip (R257). -/
theorem runPass_mma {s : State} {m : MxCmd} {pass : Nat} {a b : List (List Byte)} (hk : m.kind ≠ 6)
    (ha : readPlanes s (clientOf s m.uid) m.kind (m.aaddr.toNat + 2048 * planesOf m.kind * (pass / 16)) (8 * (pass % 16)) 8 = .ok (s, a))
    (hb : readPlanes s (clientOf s m.uid) m.kind (m.baddr.toNat + 2048 * planesOf m.kind * (pass / 16)) 0 128 = .ok (s, b))
    (hbad : ¬ startsAtZero m pass → ∀ i j, i < 8 → j < 128 → stripKey m pass i j ∉ s.badTiles) :
    runPass s m pass = .ok (passTiles s m pass (rowCodes a) (rowCodes b)) := by
  have hgood : (!(pass / 16 == 0 && !m.acc) &&
      (List.range 1024).any fun x => s.badTiles.contains (stripKey m pass (x / 128) (x % 128))) = false := by
    by_cases hf : startsAtZero m pass
    · rw [(startsAtZero_iff m pass).2 hf]
      rfl
    · refine Bool.and_eq_false_imp.2 fun _ => List.any_eq_false.2 fun x hx => ?_
      have hx := List.mem_range.1 hx
      simpa using hbad hf (x / 128) (x % 128) (by omega) (by omega)
  rw [runPass, if_neg hk]
  dsimp only
  rw [ha]
  dsimp only
  rw [hb]
  exact if_neg (by rw [Bool.not_eq_true]; exact hgood)

/-- A pass of `MMA` adds to its strip what its block of the plane-sets gives (R89 to R92, R254, R257). -/
theorem mma_adds {s : State} {m : MxCmd} {pass : Nat} {ra rb : Nat → Byte} {atA atB : Nat} (hk : m.kind ≠ 6)
    (hA : atA = m.aaddr.toNat + 2048 * planesOf m.kind * (pass / 16)) (hB : atB = m.baddr.toNat + 2048 * planesOf m.kind * (pass / 16))
    (ha : Sees s (clientOf s m.uid) true atA (atA + 2048 * planesOf m.kind) ra)
    (hb : Sees s (clientOf s m.uid) true atB (atB + 2048 * planesOf m.kind) rb)
    (hbad : ¬ startsAtZero m pass → ∀ i j, i < 8 → j < 128 → stripKey m pass i j ∉ s.badTiles) :
    ∃ u, runPass s m pass = .ok u ∧ Tiled s u ∧
      (∀ x, (∀ i j, i < 8 → j < 128 → x ≠ stripKey m pass i j) → getTile u x = getTile s x) ∧
      ∀ i j old, i < 8 → j < 128 → (startsAtZero m pass → old = 0) →
        (¬ startsAtZero m pass → old = (getTile s (stripKey m pass i j)).toNat) →
        (getTile u (stripKey m pass i j)).toNat = stripValue m (pass % 16) i
          ((List.range 128).map fun x => planeCode (planesOf m.kind) atA ra (8 * (pass % 16) + i) x)
          ((List.range 128).map fun x => planeCode (planesOf m.kind) atB rb j x) old := by
  subst hA hB
  refine ⟨_, runPass_mma hk (readPlanes_sees ha (by omega)) (readPlanes_sees hb (by omega)) hbad, tiled_setTiles _ _ _ s,
    fun x hx => getTile_passTiles_other s m pass _ _ hx, fun i j old hi hj hnew hold => ?_⟩
  have hvalue : oldElement s m pass i j = old := by
    unfold oldElement
    split
    · next hf => exact (hnew ((startsAtZero_iff m pass).1 hf)).symm
    · next hf => exact (hold (mt (startsAtZero_iff m pass).2 hf)).symm
  rw [getTile_passTiles s m pass _ _ hi hj, rowCodes_planeBytes _ _ _ _ _ hi, rowCodes_planeBytes _ _ _ _ _ hj, hvalue, zero_add]

end Sys2Proof.Proofs
end
section
/-!
PROOFS. The matrix engine's choice of a pass, and the end of one (R256, R257).
-/

namespace Sys2Proof.Proofs
open Sys2Proof Sys2Proof.Machine

/-! ### The order of commands (R256) -/

/-- One command comes no later than another: priority, then admission, then entry. -/
def Before (m q : MxCmd) : Prop := q.prio.toNat < m.prio.toNat ∨
  (m.prio = q.prio ∧ (m.order < q.order ∨ (m.order = q.order ∧ m.entry ≤ q.entry)))

theorem mxBefore_iff (m q : MxCmd) : mxBefore m q = true ↔ Before m q := by
  simp [mxBefore, Before]

theorem Before.refl (m : MxCmd) : Before m m := .inr ⟨rfl, .inr ⟨rfl, le_rfl⟩⟩

theorem Before.total (m q : MxCmd) : Before m q ∨ Before q m := by
  unfold Before
  rcases lt_trichotomy m.prio.toNat q.prio.toNat with h | h | h
  · exact .inr (.inl h)
  · have := BitVec.eq_of_toNat_eq h
    rw [this]
    simp only [true_and]
    omega
  · exact .inl (.inl h)

theorem Before.trans {m q r : MxCmd} (h : Before m q) (k : Before q r) : Before m r := by
  unfold Before at *
  rcases h with h | ⟨h, h'⟩ <;> rcases k with k | ⟨k, k'⟩
  · exact .inl (k.trans h)
  · exact .inl (k ▸ h)
  · exact .inl (h ▸ k)
  · exact .inr ⟨h.trans k, by omega⟩

/-- A command is put into its place as an insertion into a sorted list does it. -/
theorem mxInsert_eq (m : MxCmd) (l : List MxCmd) : mxInsert m l = l.orderedInsert (fun a b => mxBefore a b = true) m := by
  induction l with
  | nil => rfl
  | cons q l ih => rw [mxInsert, ih, List.orderedInsert_cons]

theorem mxSort_eq (l : List MxCmd) : l.foldr mxInsert [] = l.insertionSort fun a b => mxBefore a b = true := by
  induction l with
  | nil => rfl
  | cons q l ih => rw [List.foldr_cons, ih, mxInsert_eq, List.insertionSort_cons]

theorem mem_mxSort (m : MxCmd) (l : List MxCmd) : m ∈ l.foldr mxInsert [] ↔ m ∈ l := by
  rw [mxSort_eq, List.mem_insertionSort]

theorem mxSort_ordered (l : List MxCmd) : (l.foldr mxInsert []).Pairwise Before := by
  have htotal : Std.Total fun a b : MxCmd => mxBefore a b = true :=
    ⟨fun a b => by simpa only [mxBefore_iff] using Before.total a b⟩
  have htrans : IsTrans MxCmd fun a b => mxBefore a b = true :=
    ⟨fun a b c => by simpa only [mxBefore_iff] using Before.trans⟩
  rw [mxSort_eq]
  exact (List.pairwise_insertionSort (fun a b : MxCmd => mxBefore a b = true) l).imp fun h => (mxBefore_iff _ _).1 h

/-- What is found first in a sorted list comes before whatever else could be found. -/
theorem find?_mxSort {l : List MxCmd} {p : MxCmd → Bool} {m : MxCmd} (h : (l.foldr mxInsert []).find? p = some m) :
    m ∈ l ∧ p m = true ∧ ∀ q ∈ l, p q = true → Before m q := by
  obtain ⟨hp, as, bs, heq, has⟩ := List.find?_eq_some_iff_append.1 h
  have hord := mxSort_ordered l
  have hmem := fun q => mem_mxSort q l
  rw [heq] at hord hmem
  refine ⟨(hmem m).1 (by simp), hp, fun q hq hpq => ?_⟩
  have hrest := (List.pairwise_append.1 hord).2.1
  rcases List.mem_append.1 ((hmem q).2 hq) with hqa | hqb
  · exact absurd hpq (by simpa using has q hqa)
  · rcases List.mem_cons.1 hqb with rfl | hqb
    · exact Before.refl q
    · exact (List.pairwise_cons.1 hrest).1 q hqb

/-! ### The pass granted next (R256) -/

/-- A command of a cluster whose next pass may be granted (R256, R258). -/
def MayRun (s : State) (cluster : Nat) (m : MxCmd) : Prop :=
  m ∈ s.mx.filter (fun m => m.cluster == cluster) ∧ poolAllows s m = true ∧ frozen s m.uid = false ∧
    m.next < (if m.kind = 6 then 16 else if m.kind = 7 then 0 else 16 * m.kb) ∧ (m.next < 16 ∨ m.next - 16 ∈ m.done) ∧
    ∀ q ∈ s.mx.filter (fun m => m.cluster == cluster), q.tile = m.tile → q.kind ≠ 7 → q.order < m.order →
      q.stripOver (m.next % 16) = true

theorem mayRun_iff (s : State) (cluster : Nat) (m : MxCmd) :
    MayRun s cluster m ↔ m ∈ mxOf s cluster ∧ (eligible s m && poolAllows s m) = true := by
  unfold MayRun mxOf
  refine and_congr_right fun hm => ?_
  obtain ⟨-, hc⟩ := List.mem_filter.1 hm
  have hc : m.cluster = cluster := by simpa using hc
  have hfront (q : MxCmd) : (!(q.tile == m.tile && q.kind != 7 && decide (q.order < m.order)) || q.stripOver (m.next % 16)) = true ↔
      (q.tile = m.tile → q.kind ≠ 7 → q.order < m.order → q.stripOver (m.next % 16) = true) := by
    by_cases h1 : q.tile = m.tile <;> by_cases h2 : q.kind = 7 <;> by_cases h3 : q.order < m.order <;> simp [h1, h2, h3]
  have htotal : m.total = if m.kind = 6 then 16 else if m.kind = 7 then 0 else 16 * m.kb := rfl
  simp only [← htotal, eligible, mxOf, hc, Bool.and_eq_true, Bool.or_eq_true, Bool.not_eq_true', decide_eq_true_eq,
    List.all_eq_true, List.contains_iff_mem, hfront, and_assoc]
  tauto

/-- The pass that a free slice takes is that of the command which comes before every other that may run (R256). -/
theorem nextPass_some {s : State} {cluster : Nat} {m : MxCmd} (h : nextPass s cluster = some m) :
    total (mxOf s cluster) (·.running.length) < 8 ∧ MayRun s cluster m ∧ ∀ q, MayRun s cluster q → Before m q := by
  unfold nextPass at h
  split at h
  · cases h
  · next hfull =>
    obtain ⟨hm, hp, hall⟩ := find?_mxSort h
    exact ⟨not_le.1 hfull, (mayRun_iff s cluster m).2 ⟨hm, hp⟩, fun q hq =>
      hall q ((mayRun_iff s cluster q).1 hq).1 ((mayRun_iff s cluster q).1 hq).2⟩

/-- No pass is taken where every slice is in use or no command may run. -/
theorem nextPass_none {s : State} {cluster : Nat} (h : nextPass s cluster = none) :
    8 ≤ total (mxOf s cluster) (·.running.length) ∨ ∀ q, ¬ MayRun s cluster q := by
  unfold nextPass at h
  split at h
  · next hfull => exact .inl hfull
  · refine .inr fun q hq => ?_
    obtain ⟨hm, hp⟩ := (mayRun_iff s cluster q).1 hq
    exact List.find?_eq_none.1 h q ((mem_mxSort q _).2 hm) hp

/-- A grant advances the command and charges the cluster for its pass (R256). -/
theorem stripPassGrant_completes {s : State} {cluster : Nat} {m : MxCmd} (h : nextPass s cluster = some m) :
    Completes (.stripPassGrant cluster) s fun t => (∀ q, q ∈ s.mx → q.id ≠ m.id → q ∈ t.mx) ∧
      (m ∈ s.mx → { m with next := m.next + 1, running := m.running ++ [m.next] } ∈ t.mx) ∧
      t = { s with mx := t.mx, current := t.current } := by
  have hrun : exec (.stripPassGrant cluster) s = .next
      (if m.kind = 6 then onMx s m.id fun m => { m with next := m.next + 1, running := m.running ++ [m.next] }
        else chargeCluster (onMx s m.id fun m => { m with next := m.next + 1, running := m.running ++ [m.next] }) cluster
          (512 * planesRead m.kind)) := by
    change execStripPassGrant cluster s = _
    rw [execStripPassGrant, h]
  have hgranted {t : State} (ht : t = { onMx s m.id fun m => { m with next := m.next + 1, running := m.running ++ [m.next] } with
      current := t.current }) : (∀ q, q ∈ s.mx → q.id ≠ m.id → q ∈ t.mx) ∧
      (m ∈ s.mx → { m with next := m.next + 1, running := m.running ++ [m.next] } ∈ t.mx) ∧
      t = { s with mx := t.mx, current := t.current } := by
    rw [ht]
    exact ⟨fun q hq hne => List.mem_map.2 ⟨q, hq, if_neg hne⟩, fun hm => List.mem_map.2 ⟨m, hm, if_pos rfl⟩, rfl⟩
  refine ⟨_, hrun, hgranted ?_⟩
  split
  · rfl
  · unfold chargeCluster
    split <;> rfl

/-! ### The end of a pass (R257) -/

/-- The only pass that runs on a cluster is promoted. -/
theorem promotionEnd_completes {s u : State} {m : MxCmd} {pass : Nat} (hs : s.mx = [m]) (hr : m.running = [pass])
    (hf : m.failed = none) (hu : runPass s m pass = .ok u) (hmx : u.mx = [m]) :
    Completes (.promotionEnd m.cluster 0) s fun t => t = settleMx { u with
      mx := [{ m with running := [], done := m.done.filter (fun y => y % 16 != pass % 16) ++ [pass] }] } := by
  have hpick : ((mxOf s m.cluster).flatMap fun m => m.running.map fun n => (m, n))[0]? = some (m, pass) := by
    simp [mxOf, hs, hr]
  refine ⟨_, ?_, rfl⟩
  change execPromotionEnd m.cluster 0 s = _
  rw [execPromotionEnd, hpick]
  simp [hf, hu, onMx, hmx, hr]

end Sys2Proof.Proofs
end
section
/-!
PROOFS. The head of a matrix ring: what the engine makes of the slot it finds there (R188, R255, R277).
-/

namespace Sys2Proof.Proofs
open Sys2Proof Sys2Proof.Machine

/-! ### The fields of a slot (R187, R273) -/

/-- Some of the bytes that are read. -/
theorem readBytes_part (s : State) (pa : Nat) {n off len : Nat} (h : off + len ≤ n) :
    ((readBytes s pa n).drop off).take len = readBytes s (pa + off) len := by
  refine List.ext_getElem (by simp; omega) fun i h1 h2 => ?_
  have hi : i < len := by simpa using h2
  have ha := readBytes_getD s n pa (off + i) (by omega)
  have hb := readBytes_getD s len (pa + off) i hi
  rw [List.getD_eq_getElem _ _ (by simp; omega)] at ha hb
  rw [List.getElem_take, List.getElem_drop, ha, hb, add_assoc]

/-- A field of the 64 bytes of a slot is one of a word of memory. -/
theorem img_readBytes (s : State) (pa lo len : Nat) {off : Nat} (h : off + 8 ≤ 64) :
    img (readBytes s pa 64) off lo len = bits (readNat s (pa + off) 8) lo len := by
  rw [img, readBytes_part s pa h, readNat]

theorem bits_one_eq (x i : Nat) : (bits x i 1 == 1) = bit x i := by rw [bits, pow_one, bit_eq_decide]

/-- The tag that a slot names (R273). -/
theorem recordTag_readBytes (s : State) (pa : Nat) : recordTag (readBytes s pa 64) =
    if bit (readNat s (pa + 0) 8) 54 then none else some (BitVec.ofNat 6 (bits (readNat s (pa + 0) 8) 48 6)) := by
  rw [recordTag, imageTag, img_readBytes _ _ _ _ (by decide), img_readBytes _ _ _ _ (by decide)]
  refine if_congr ?_ rfl rfl
  rw [← bits_one_eq, beq_iff_eq]

theorem ofBytes_eq_zero_iff (bs : List Byte) : ofBytes bs = 0 ↔ ∀ b ∈ bs, b = 0 := by
  induction bs with
  | nil => simp [ofBytes]
  | cons b bs ih =>
    rw [ofBytes, List.forall_mem_cons, ← ih, BitVec.toNat_eq]
    change _ ↔ b.toNat = 0 ∧ _
    omega

theorem forall_mem_readBytes (s : State) (pa n : Nat) (p : Byte → Prop) :
    (∀ b ∈ readBytes s pa n, p b) ↔ ∀ x, x < n → p (readByte s (pa + x)) := by
  simp [readBytes_eq]

theorem readNat_eq_zero_iff (s : State) (pa n : Nat) : readNat s pa n = 0 ↔ ∀ x, x < n → readByte s (pa + x) = 0 :=
  (ofBytes_eq_zero_iff _).trans (forall_mem_readBytes s pa n (· = 0))

/-- The last three words of a slot are zero where each of their bytes is. -/
theorem reserved_words (s : State) (pa : Nat) : (((readBytes s pa 64).drop 0x28).take 24).all (· == 0) =
    (readNat s (pa + 0x28) 8 == 0 && readNat s (pa + 0x30) 8 == 0 && readNat s (pa + 0x38) 8 == 0) := by
  rw [readBytes_part s pa (by decide), Bool.eq_iff_iff, List.all_eq_true]
  simp only [beq_iff_eq, Bool.and_eq_true, forall_mem_readBytes, readNat_eq_zero_iff]
  constructor
  · intro h
    refine ⟨⟨fun x hx => h x (by omega), fun x hx => ?_⟩, fun x hx => ?_⟩
    · have := h (8 + x) (by omega)
      rwa [show pa + 40 + (8 + x) = pa + 48 + x by omega] at this
    · have := h (16 + x) (by omega)
      rwa [show pa + 40 + (16 + x) = pa + 56 + x by omega] at this
  · rintro ⟨⟨h1, h2⟩, h3⟩ x hx
    rcases Nat.lt_or_ge x 8 with h | h
    · exact h1 x h
    rcases Nat.lt_or_ge x 16 with h' | h'
    · have := h2 (x - 8) (by omega)
      rwa [show pa + 48 + (x - 8) = pa + 40 + x by omega] at this
    · have := h3 (x - 16) (by omega)
      rwa [show pa + 56 + (x - 16) = pa + 40 + x by omega] at this

/-- The bits of a slot that must be zero are zero (R273). -/
theorem mxReservedOk_readBytes (s : State) (pa : Nat) : mxReservedOk (readBytes s pa 64) =
    (bits (readNat s (pa + 0) 8) 4 4 == 0 && bits (readNat s (pa + 0) 8) 27 5 == 0 && bits (readNat s (pa + 0) 8) 55 9 == 0 &&
      bits (readNat s (pa + 8) 8) 32 32 == 0 && bits (readNat s (pa + 0x10) 8) 32 32 == 0 &&
      bits (readNat s (pa + 0x18) 8) 32 32 == 0 && bits (readNat s (pa + 0x20) 8) 15 49 == 0 &&
      readNat s (pa + 0x28) 8 == 0 && readNat s (pa + 0x30) 8 == 0 && readNat s (pa + 0x38) 8 == 0) := by
  have himg {off : Nat} (h : off + 8 ≤ 64) (lo len : Nat) := img_readBytes s pa lo len h
  rw [mxReservedOk, reserved_words, himg (by decide), himg (by decide), himg (by decide), himg (by decide), himg (by decide),
    himg (by decide), himg (by decide), Bool.eq_iff_iff]
  simp only [Bool.and_eq_true, and_assoc]
  exact ⟨fun ⟨h1, h2, h3, h⟩ => ⟨h3, h2, h1, h⟩, fun ⟨h3, h2, h1, h⟩ => ⟨h1, h2, h3, h⟩⟩

/-- The header of a slot is a byte. -/
theorem readNat_one (s : State) (pa : Nat) : readNat s pa 1 = (readByte s pa).toNat := by
  simp [readNat, readBytes, ofBytes]

theorem header_phase (s : State) (pa : Nat) : (readByte s pa).getLsbD 7 = bit (readNat s pa 1) 7 := by
  rw [readNat_one]
  rfl

theorem header_reserved (s : State) (pa : Nat) : (readByte s pa &&& 0x7F != 0) = true ↔ bits (readNat s pa 1) 0 7 ≠ 0 := by
  rw [readNat_one, bits_zero, bne_iff_ne, ne_eq, BitVec.toNat_eq, BitVec.toNat_and]
  exact not_congr (by rw [show (0x7F : Byte).toNat = 2 ^ 7 - 1 from rfl, Nat.and_two_pow_sub_one_eq_mod]; rfl)

/-! ### What is found at the head (R188, R255) -/

/-- A broken control block ends the consumption (R188; log 40). -/
theorem lookAtRing_broken {s : State} {e : RingEntry} {pa : Nat} (hb : e.broken = false) (hf : frozen s e.uid = false)
    (hr : ringOf s (clientOf s e.uid) e.ring = some (pa, none)) :
    lookAtRing s e = crewFault { s with rings := s.rings.map fun x => if x = e then { e with broken := true } else x } e.uid
      { cause := if poisoned s false pa 32 then .eccUncorr else .mxForm, obj := e.ring } := by
  have hs : ringSpoiled s (clientOf s e.uid) e.ring = poisoned s false pa 32 := by rw [ringSpoiled, hr]
  rw [lookAtRing]
  simp only [hb, hf, hr, hs, Bool.or_self, Bool.false_eq_true, if_false]

/-- A ring that is attached and in order, with the place of the slot at its head. -/
structure AtHead (s : State) (e : RingEntry) (pa : Nat) (r : Ring) (q : Place) : Prop where
  sound : e.broken = false
  runs : frozen s e.uid = false
  ring : ringOf s (clientOf s e.uid) e.ring = some (pa, some r)
  small : r.slot r.cons < 2 ^ 64
  place : translate s (clientOf s e.uid).g.rcd.part (galAsn (clientOf s e.uid).g) (clientOf s e.uid).foreman false needR
    (r.slot r.cons) = .ok q

section
variable {s : State} {e : RingEntry} {pa : Nat} {r : Ring} {q : Place} (h : AtHead s e pa r q)
include h

theorem lookAtRing_head : lookAtRing s e =
    if (readByte s q.pa).getLsbD 7 != r.phase r.cons then s
    else if readByte s q.pa &&& 0x7F != 0 then
      skipSlot s e pa r.cons .illegal (w64 (r.slot r.cons)) (recordTag (readBytes s (q.pa + 8) 64))
    else if poisoned s false q.pa 72 then
      skipSlot s e pa r.cons .eccUncorr (w64 (r.slot r.cons)) (recordTag (readBytes s (q.pa + 8) 64))
    else if 8 ≤ img (readBytes s (q.pa + 8) 64) 0 0 4 || !mxReservedOk (readBytes s (q.pa + 8) 64) then
      skipSlot s e pa r.cons .mxForm (w64 (r.slot r.cons)) (recordTag (readBytes s (q.pa + 8) 64))
    else if !admissible s e (img (readBytes s (q.pa + 8) 64) 0 0 4) (img (readBytes s (q.pa + 8) 64) 0 8 6) then s
    else admitRecord s e pa r.cons (w64 (r.slot r.cons)) (readBytes s (q.pa + 8) 64) := by
  have hva : (w64 (r.slot r.cons)).toNat = r.slot r.cons := by
    rw [w64, BitVec.toNat_ofNat, Nat.mod_eq_of_lt h.small]
  rw [lookAtRing]
  simp only [h.sound, h.runs, h.ring, hva, h.place, Bool.or_self, Bool.false_eq_true, if_false]

/-- A slot that is not yet written is left (R187). -/
theorem lookAtRing_unwritten (hp : bit (readNat s q.pa 1) 7 ≠ r.phase r.cons) : lookAtRing s e = s := by
  rw [lookAtRing_head h, header_phase, if_pos (bne_iff_ne.2 hp)]

section
variable (hp : bit (readNat s q.pa 1) 7 = r.phase r.cons)
include hp

/-- A header with a reserved bit set is skipped (R188). -/
theorem lookAtRing_illegal (hr : bits (readNat s q.pa 1) 0 7 ≠ 0) : lookAtRing s e =
    skipSlot s e pa r.cons .illegal (w64 (r.slot r.cons)) (recordTag (readBytes s (q.pa + 8) 64)) := by
  rw [lookAtRing_head h, header_phase, if_neg (by simp [hp]), if_pos ((header_reserved s q.pa).2 hr)]

section
variable (hr : bits (readNat s q.pa 1) 0 7 = 0)
include hr

/-- A slot whose bytes are uncorrectable is skipped (log 40). -/
theorem lookAtRing_uncorrectable (hx : poisoned s false q.pa 72 = true) : lookAtRing s e =
    skipSlot s e pa r.cons .eccUncorr (w64 (r.slot r.cons)) (recordTag (readBytes s (q.pa + 8) 64)) := by
  rw [lookAtRing_head h, header_phase, if_neg (by simp [hp]), if_neg (mt (header_reserved s q.pa).1 (not_not.2 hr)), if_pos hx]

variable (hx : poisoned s false q.pa 72 = false)
include hx

/-- A slot that is none of a matrix command is skipped (R277). -/
theorem lookAtRing_form (hk : 8 ≤ bits (readNat s (q.pa + 8 + 0) 8) 0 4 ∨ mxReservedOk (readBytes s (q.pa + 8) 64) = false) :
    lookAtRing s e = skipSlot s e pa r.cons .mxForm (w64 (r.slot r.cons)) (recordTag (readBytes s (q.pa + 8) 64)) := by
  rw [lookAtRing_head h, header_phase, if_neg (by simp [hp]), if_neg (mt (header_reserved s q.pa).1 (not_not.2 hr)),
    if_neg (by simp [hx]), if_pos (by rw [img_readBytes _ _ _ _ (by decide)]; simpa using hk)]

variable (hk : bits (readNat s (q.pa + 8 + 0) 8) 0 4 < 8) (hm : mxReservedOk (readBytes s (q.pa + 8) 64) = true)
include hk hm

/-- A command is admitted once its turn has come (R255, R259, R276). -/
theorem lookAtRing_command : lookAtRing s e =
    if admissible s e (bits (readNat s (q.pa + 8 + 0) 8) 0 4) (bits (readNat s (q.pa + 8 + 0) 8) 8 6) then
      admitRecord s e pa r.cons (w64 (r.slot r.cons)) (readBytes s (q.pa + 8) 64) else s := by
  have himg (lo len : Nat) := img_readBytes s (q.pa + 8) lo len (off := 0) (by decide)
  rw [lookAtRing_head h, header_phase, if_neg (by simp [hp]), if_neg (mt (header_reserved s q.pa).1 (not_not.2 hr)),
    if_neg (by simp [hx]), himg, himg, if_neg (by simp [hm, hk])]
  cases admissible s e (bits (readNat s (q.pa + 8 + 0) 8) 0 4) (bits (readNat s (q.pa + 8 + 0) 8) 8 6) <;> rfl

end
end
end

/-! ### Admission (R255, R259, R276) -/

/-- A command may be admitted (R255, R259, R276; log 81). -/
theorem admissible_iff (s : State) (e : RingEntry) (kind tile : Nat) : admissible s e kind tile = true ↔
    (∀ m ∈ s.mx.filter fun m => m.uid == e.uid, m.total ≤ m.next) ∧
    ((s.mx.filter fun m => m.uid == e.uid).filter fun m => m.kind != 7).length ≤ 1 ∧
    (kind ≠ 7 → ∀ x ∈ s.tokens, x.cluster ≠ e.cluster ∨ x.tile ≠ tile) := by
  have htok : (tokenOf s e.cluster tile).isNone = true ↔ ∀ x ∈ s.tokens, x.cluster ≠ e.cluster ∨ x.tile ≠ tile := by
    rw [Option.isNone_iff_eq_none, tokenOf, List.find?_eq_none]
    refine forall₂_congr fun x _ => ?_
    by_cases h1 : x.cluster = e.cluster <;> by_cases h2 : x.tile = tile <;> simp [h1, h2]
  simp only [admissible, Bool.and_eq_true, Bool.or_eq_true, List.all_eq_true, decide_eq_true_eq, htok, beq_iff_eq, and_assoc]
  refine and_congr_right fun _ => and_congr_right fun _ => ?_
  exact ⟨fun h hk => h.resolve_left hk, fun h => or_iff_not_imp_left.2 h⟩

theorem ofNat_bits_zero (n x : Nat) : BitVec.ofNat n (bits x 0 n) = BitVec.ofNat n x := by
  rw [bits_zero]
  exact BitVec.eq_of_toNat_eq (by simp)

/-- The row scales of a command: those that were read when it was posted; of a slot that no word posted, free ones (R88;
log 4). -/
def slotScales (w : State) (e : RingEntry) (slot : Nat) : List (BitVec 32) × State :=
  let mineAt (x : Scales) : Bool := x.ring == e.ring && x.uid == e.uid && x.slot == slot
  match w.scales.find? mineAt with
  | some x => (x.vals, { w with scales := w.scales.filter fun x => !mineAt x })
  | none => ((List.range 128).map (Config.freeTile w.fresh), { w with fresh := w.fresh + 1 })

/-- A command under way as its slot describes it (R255, R273). -/
theorem admitRecord_readBytes (s : State) (e : RingEntry) (pa cons base : Nat) (slotVa : Word) :
    let word (off : Nat) : Nat := readNat s (base + off) 8
    let w := performNat s (pa + 24) 4 (cons + 1)
    let p := if bit (word 0) 15 = false then ([], w) else slotScales w e cons
    admitRecord s e pa cons slotVa (readBytes s base 64) = { p.2 with
      ids := p.2.ids + 1
      mx := p.2.mx ++ [{ id := p.2.ids, cluster := e.cluster, entry := e.entry, ring := e.ring, slotVa := slotVa, uid := e.uid
                         kind := bits (word 0) 0 4
                         tag := if bit (word 0) 54 then none else some (BitVec.ofNat 6 (bits (word 0) 48 6))
                         prio := BitVec.ofNat 3 (bits (word 0) 24 3), kb := bits (word 0) 32 16
                         acc := bit (word 0) 14, tile := bits (word 0) 8 6, scl := bit (word 0) 15
                         aaddr := BitVec.ofNat 32 (word 8), baddr := BitVec.ofNat 32 (word 0x10)
                         wscale := BitVec.ofNat 32 (word 0x18), scales := p.1, order := p.2.ids, next := 0, running := []
                         done := [], failed := none }] } := by
  have himg {off : Nat} (h : off + 8 ≤ 64) (lo len : Nat) := img_readBytes s base lo len h
  have hp (b : Bool) : (if b = true then scalesOf (performNat s (pa + 24) 4 (cons + 1)) e cons
        else ([], performNat s (pa + 24) 4 (cons + 1))) =
      if b = false then ([], performNat s (pa + 24) 4 (cons + 1)) else slotScales (performNat s (pa + 24) 4 (cons + 1)) e cons := by
    generalize performNat s (pa + 24) 4 (cons + 1) = w
    cases b <;> rfl
  unfold admitRecord takeSlot
  rw [recordTag_readBytes, himg (off := 0) (by decide), himg (off := 0) (by decide), himg (off := 0) (by decide),
    himg (off := 0) (by decide), himg (off := 0) (by decide), himg (off := 0) (by decide), himg (off := 8) (by decide),
    himg (off := 0x10) (by decide), himg (off := 0x18) (by decide), bits_one_eq, bits_one_eq, ofNat_bits_zero, ofNat_bits_zero,
    ofNat_bits_zero]
  dsimp only
  rw [hp]

end Sys2Proof.Proofs
end
section
/-!
PROOFS. The MX words: the checks of a command, its posting to the crew's ring, and the rings themselves (R88, R273 to R277).
-/

namespace Sys2Proof.Proofs
open Sys2Proof Sys2Proof.Machine

/-! ### Posting (R188, R275, R276) -/

/-- The crew in focus as the client of its ring. -/
def ringClient (s : State) : Client := ⟨s.g, s.c.uid, s.c.privl == 2⟩

/-- A ring has a slot for a command of the crew, and a count on its tag. -/
def RingFree (s : State) (tag : Option (BitVec 6)) (ring : Word) : Prop :=
  s.c.redq = [] ∧ ringRoom s (ringClient s) ring = true ∧ ∀ j, tag = some j → tagCount s.c j.toNat < 255

theorem ringFree_iff (s : State) (tag : Option (BitVec 6)) (ring : Word) :
    (unsettled s || !ringRoom s (ringClient s) ring || !tagsFree s.c [tag]) = false ↔ RingFree s tag ring := by
  rw [Bool.or_eq_false_iff, Bool.or_eq_false_iff, unsettled_eq_false, Bool.not_eq_false', Bool.not_eq_false', tagsFree_one, and_assoc]
  rfl

/-- The slot of a ring filled with a command of the crew (R273). -/
def posted (s s2 : State) (tag : Option (BitVec 6)) (ring : Word) (slot w0 a b ws : Nat) : State :=
  ringFill s2 (ringClient s) ring slot (mxRecord (mxWord0 w0 tag s.c.prio) (relocate s.g a) (relocate s.g b) ws (crewId s.c))

section
variable {s : State} {tag : Option (BitVec 6)} {ring : Word} {w0 a b ws : Nat} {scales : List (BitVec 32)}

theorem postWord_detached (h : s.c.ring = none) : postWord s tag w0 a b ws scales = mxTrap s := by rw [postWord, h]

variable (hring : s.c.ring = some ring)
include hring

theorem postWord_spoiled (h : ringSpoiled s (ringClient s) ring ≠ false) :
    postWord s tag w0 a b ws scales = takeTrap s ⟨.eccUncorr, s.c.pc, ring, 0, false, 0⟩ := by
  rw [postWord, hring]
  exact if_pos (Bool.not_eq_false _ ▸ h)

variable (hs : ringSpoiled s (ringClient s) ring = false)
include hs

theorem postWord_waits (h : ¬ RingFree s tag ring) : postWord s tag w0 a b ws scales = hold s := by
  rw [← ringFree_iff, Bool.not_eq_false] at h
  rw [postWord, hring]
  exact (if_neg (Bool.not_eq_true _ ▸ hs)).trans (if_pos h)

/-- A command is posted, with its row scales, and its tag is raised. -/
theorem postWord_posts {s2 : State} {slot : Nat} (hf : RingFree s tag ring)
    (hr : ringReserve (atHome s) (ringClient s) ring = (s2, some slot)) : postWord s tag w0 a b ws scales =
      let v := posted s (if scales = [] then s2 else { s2 with scales := s2.scales ++ [⟨ring, s.c.uid, slot, scales⟩] }) tag ring
        slot w0 a b ws
      done { v with c := tagUp v.c tag } := by
  rw [postWord, hring]
  refine (if_neg (Bool.not_eq_true _ ▸ hs)).trans ((if_neg (Bool.not_eq_true _ ▸ (ringFree_iff ..).2 hf)).trans ?_)
  dsimp only
  rw [show ringReserve (atHome s) ⟨s.g, s.c.uid, s.c.privl == 2⟩ ring = _ from hr]
  rfl

end

/-- A word that raises a tag and ends. -/
theorem crewEffect_tagUp (v : State) (tag : Option (BitVec 6)) : CrewEffect v (done { v with c := tagUp v.c tag }) (tagUp v.c tag) := by
  refine crewEffect_done v _ ?_ ?_ ?_ ?_ <;> cases tag <;> rfl

/-! ### The words (R88, R275, R276) -/

theorem exec_mzero {s : State} {t g : BitVec 6} {n : BitVec 1} (hr : Ready (.mzero t g n) s)
    (h : bits (getG s.c g 2).toNat 6 58 = 0) : exec (.mzero t g n) s = .next
      (postWord s (tagOf t n) (6 + 2 ^ 8 * bits (getG s.c g 2).toNat 0 6) 0 0 0 []) := by
  change execMzero t g n s = _
  rw [execMzero, issue_ready hr]
  exact congrArg _ (if_neg (not_not.2 h))

theorem exec_mzero_form {s : State} {t g : BitVec 6} {n : BitVec 1} (hr : Ready (.mzero t g n) s)
    (h : s.c.ring = none ∨ bits (getG s.c g 2).toNat 6 58 ≠ 0) : exec (.mzero t g n) s = .next (mxTrap s) := by
  change execMzero t g n s = _
  rw [execMzero, issue_ready hr]
  refine congrArg _ (ite_eq_left_iff.2 fun h0 => postWord_detached (h.resolve_right h0))

theorem exec_mfence {s : State} {t : BitVec 6} {n : BitVec 1} (hr : Ready (.mfence t n) s) :
    exec (.mfence t n) s = .next (postWord s (tagOf t n) 7 0 0 0 []) := by
  change execMfence t n s = _
  rw [execMfence, issue_ready hr]

/-- The operand fields of an `MMA` are in order (R275). -/
def OperandsFormed (s : State) (g : BitVec 6) : Prop :=
  bits (getG s.c g 1).toNat 32 16 ≠ 0 ∧ bits (getG s.c g 0).toNat 0 32 % 2048 = 0 ∧ bits (getG s.c g 1).toNat 0 32 % 2048 = 0 ∧
    bits (getG s.c g 0).toNat 32 32 = 0 ∧ bits (getG s.c g 1).toNat 48 16 = 0 ∧ bits (getG s.c g 2).toNat 7 57 = 0 ∧
    bits (getG s.c g 3).toNat 41 23 = 0

theorem mmaForm_eq_false_iff (s : State) (g : BitVec 6) : mmaForm s g = false ↔ s.c.ring ≠ none ∧ OperandsFormed s g := by
  refine ⟨fun h => ?_, fun ⟨hr, h1, h2, h3, h4, h5, h6, h7⟩ => mmaForm_false hr h1 h2 h3 h4 h5 h6 h7⟩
  simp only [mmaForm, mmaFieldsOk, Bool.or_eq_false_iff, Bool.not_eq_false', Bool.and_eq_true, bne_iff_ne, beq_iff_eq,
    bne_eq_false_iff_eq, Option.isNone_eq_false_iff, Option.isSome_iff_ne_none] at h
  obtain ⟨⟨⟨⟨⟨hr, ⟨h1, h2⟩, h3⟩, h4⟩, h5⟩, h6⟩, h7⟩ := h
  exact ⟨hr, h1, h2, h3, h4, h5, h6, h7⟩

/-- The row-scale register that an `MMA` names. -/
def scaleReg (s : State) (g : BitVec 6) : BitVec 7 := BitVec.ofNat 7 (bits (getG s.c g 3).toNat 32 7)

theorem scaleReg_toNat (s : State) (g : BitVec 6) : (scaleReg s g).toNat = bits (getG s.c g 3).toNat 32 7 :=
  (BitVec.toNat_ofNat ..).trans (Nat.mod_eq_of_lt (bits_lt ..))

/-- The row-scale register is outstanding (R15, R88). -/
theorem scaleHazard_iff (s : State) (g : BitVec 6) : scaleHazard s (getG s.c g 3).toNat = true ↔
    bits (getG s.c g 3).toNat 40 1 = 1 ∧ ∃ o ∈ s.c.outm, o.reg = .v (scaleReg s g) := by
  simp [scaleHazard, scaleReg]

section
variable {s : State} {t g : BitVec 6} {f : BitVec 4} {n : BitVec 1} (hr : Ready (.mma t g f n) s)
include hr

theorem exec_mma_hazard (h1 : bits (getG s.c g 3).toNat 40 1 = 1) (ho : ∃ o ∈ s.c.outm, o.reg = .v (scaleReg s g)) :
    exec (.mma t g f n) s =
      .next (takeTrap s ⟨.hazard, s.c.pc, 0, w64 ((scaleReg s g).toNat + 2 ^ 8), false, 0⟩) := by
  change execMma t g f n s = _
  rw [execMma, issue_ready hr]
  exact congrArg _ (if_pos ((scaleHazard_iff s g).2 ⟨h1, ho⟩))

variable (hh : bits (getG s.c g 3).toNat 40 1 = 1 → ∀ o ∈ s.c.outm, o.reg ≠ .v (scaleReg s g))
include hh

/-- What an `MMA` does whose row-scale register is not outstanding (R88, R275). -/
theorem exec_mma : exec (.mma t g f n) s = .next (if mmaForm s g then mxTrap s
    else match mmaScales s f (getG s.c g 3).toNat with
      | none => mxTrap s
      | some scales => match scaleError s (getG s.c g 3).toNat with
        | some e => takeTrap s (eccTrap s e)
        | none => postWord s (tagOf t n)
            (f.toNat + 2 ^ 8 * bits (getG s.c g 2).toNat 0 6 + 2 ^ 14 * bits (getG s.c g 2).toNat 6 1 +
              2 ^ 15 * bits (getG s.c g 3).toNat 40 1 + 2 ^ 16 * bits (getG s.c g 3).toNat 32 7 +
              2 ^ 23 * bits (getG s.c g 3).toNat 39 1 + 2 ^ 32 * bits (getG s.c g 1).toNat 32 16)
            (bits (getG s.c g 0).toNat 0 32) (bits (getG s.c g 1).toNat 0 32) (bits (getG s.c g 3).toNat 0 32) scales) := by
  change execMma t g f n s = _
  rw [execMma, issue_ready hr]
  refine congrArg _ (if_neg fun h => ?_)
  obtain ⟨h1, o, ho, hreg⟩ := (scaleHazard_iff s g).1 h
  exact hh h1 o ho hreg

theorem exec_mma_form (h : s.c.ring = none ∨ ¬ OperandsFormed s g ∨ (bits (getG s.c g 3).toNat 40 1 = 1 ∧
    (f = 2 ∨ rowScales s.g (bits (getG s.c g 3).toNat 32 7) (bits (getG s.c g 3).toNat 39 1) = none))) :
    exec (.mma t g f n) s = .next (mxTrap s) := by
  rw [exec_mma hr hh]
  refine congrArg _ (ite_eq_left_iff.2 fun hf => ?_)
  obtain ⟨hring, hformed⟩ := (mmaForm_eq_false_iff s g).1 (Bool.not_eq_true _ ▸ hf)
  obtain ⟨h1, h2⟩ := (h.resolve_left hring).resolve_left (not_not.2 hformed)
  have hm : mmaScales s f (getG s.c g 3).toNat = none := by
    rw [mmaScales, if_neg (by omega)]
    exact ite_eq_left_iff.2 fun hf2 => h2.resolve_left hf2
  rw [hm]

variable (hring : s.c.ring ≠ none) (hf : OperandsFormed s g)
include hring hf

/-- An `MMA` without scales is posted as it stands (R275). -/
theorem exec_mma_unscaled (h0 : bits (getG s.c g 3).toNat 40 1 = 0) : exec (.mma t g f n) s = .next (postWord s (tagOf t n)
    (f.toNat + 2 ^ 8 * bits (getG s.c g 2).toNat 0 6 + 2 ^ 14 * bits (getG s.c g 2).toNat 6 1 +
      2 ^ 16 * bits (getG s.c g 3).toNat 32 7 + 2 ^ 23 * bits (getG s.c g 3).toNat 39 1 +
      2 ^ 32 * bits (getG s.c g 1).toNat 32 16)
    (bits (getG s.c g 0).toNat 0 32) (bits (getG s.c g 1).toNat 0 32) (bits (getG s.c g 3).toNat 0 32) []) := by
  rw [exec_mma hr hh, if_neg (Bool.not_eq_true _ ▸ (mmaForm_eq_false_iff s g).2 ⟨hring, hf⟩), mmaScales, if_pos h0]
  dsimp only
  rw [scaleError, if_pos h0, h0, Nat.mul_zero, Nat.add_zero]

variable (h1 : bits (getG s.c g 3).toNat 40 1 = 1) (h2 : f ≠ 2) {l : List (BitVec 32)}
  (hl : rowScales s.g (bits (getG s.c g 3).toNat 32 7) (bits (getG s.c g 3).toNat 39 1) = some l)
include h1 h2 hl

/-- An `MMA` whose row scales hold an uncorrectable error takes its trap (R304). -/
theorem exec_mma_uncorrectable {th : Nat} (hth : th < 128) (hb : 128 * th + (scaleReg s g).toNat ∈ s.g.bad)
    (hfirst : ∀ u, u < th → 128 * u + (scaleReg s g).toNat ∉ s.g.bad) : exec (.mma t g f n) s =
      .next (takeTrap s ⟨.eccUncorr, s.c.pc, 0, w64 (th + 2 ^ 16 * (scaleReg s g).toNat), false, 0⟩) := by
  rw [scaleReg_toNat] at hb hfirst ⊢
  have he : scaleError s (getG s.c g 3).toNat = some (th, bits (getG s.c g 3).toNat 32 7) := by
    rw [scaleError, if_neg (by omega), rowBad, List.find?_range_eq_some.2
      ⟨by simpa using hb, List.mem_range.2 hth, fun u hu => by simpa using hfirst u hu⟩]
    rfl
  rw [exec_mma hr hh, if_neg (Bool.not_eq_true _ ▸ (mmaForm_eq_false_iff s g).2 ⟨hring, hf⟩), mmaScales_rows h1 h2 hl, he]
  rfl

/-- An `MMA` with scales is posted with the row scales that it reads (R88). -/
theorem exec_mma_scaled (hgood : ∀ th, th < 128 → 128 * th + (scaleReg s g).toNat ∉ s.g.bad) :
    exec (.mma t g f n) s = .next (postWord s (tagOf t n)
      (f.toNat + 2 ^ 8 * bits (getG s.c g 2).toNat 0 6 + 2 ^ 14 * bits (getG s.c g 2).toNat 6 1 + 2 ^ 15 +
        2 ^ 16 * bits (getG s.c g 3).toNat 32 7 + 2 ^ 23 * bits (getG s.c g 3).toNat 39 1 +
        2 ^ 32 * bits (getG s.c g 1).toNat 32 16)
      (bits (getG s.c g 0).toNat 0 32) (bits (getG s.c g 1).toNat 0 32) (bits (getG s.c g 3).toNat 0 32) l) := by
  rw [scaleReg_toNat] at hgood
  rw [exec_mma hr hh, if_neg (Bool.not_eq_true _ ▸ (mmaForm_eq_false_iff s g).2 ⟨hring, hf⟩), mmaScales_rows h1 h2 hl,
    scaleError_none h1 hgood, h1, Nat.mul_one]

end

/-! ### Row scales (R88) -/

theorem rowScales_none {g : Gallery} {r : Nat} (half : Nat) (h : g.nthr < 128 ∨ g.nblk ≤ r / 8) : rowScales g r half = none :=
  if_pos (by simpa using h)

theorem rowScales_some {g : Gallery} {r : Nat} (half : Nat) (ht : 128 ≤ g.nthr) (hb : r / 8 < g.nblk) :
    ∃ l, rowScales g r half = some l ∧ l.length = 128 ∧
      ∀ i, i < 128 → (l.getD i 0).toNat = (getV g i r).toNat / 2 ^ (32 * half) % 2 ^ 32 := by
  refine ⟨_, if_neg (by simpa using ⟨ht, hb⟩), by simp, fun i hi => ?_⟩
  rw [getD_map_range _ _ hi, BitVec.toNat_ofNat, bits, Nat.mod_mod]

/-! ### Rings (R277) -/

theorem homeWaits_needR_eq_false {s : State} {pa n : Nat} (h : Unhindered s false pa n) : homeWaits s needR pa n = false := by
  rw [homeWaits, (redqMeets_eq_false ..).2 h.apart, (fenced_eq_false s needR).2 h.unfenced, (storesStay_eq_false ..).2 h.stores]
  rfl

/-- Where no word is uncorrectable, none is to the crew (R19, R304). -/
theorem ownPoisoned_eq_false {s : State} {vault : Bool} {a n : Nat} (h : poisoned s vault a n = false) :
    ownPoisoned s vault a n = false := by
  rw [poisoned, List.any_eq_false] at h
  refine List.any_eq_false.2 fun w hw hx => h w hw ?_
  rw [Bool.and_eq_true] at hx
  exact hx.1

section
variable {s : State} {g : BitVec 6} {p : Place} (hr : Ready (.mring g) s)
  (hp : checkGlobal s needRW (getS s.c g).toNat 32 32 = .ok p) (hx : poisoned s false p.pa 32 = false)
  (hu : Unhindered s false p.pa 32) (hn : s.c.ring = none) (h7 : bits (ownNat s false (p.pa + 8) 8) 8 5 = 7)
  (h1 : 1 ≤ bits (ownNat s false (p.pa + 8) 8) 0 5) (h16 : bits (ownNat s false (p.pa + 8) 8) 0 5 ≤ 16)
include hr hp hx hu hn h7 h1 h16

/-- A ring is attached where its control block is that of a matrix ring and the cluster has an entry free (R277). -/
theorem exec_mring_attached {i : Nat} (hi : freeEntry s (clusterOf s.c.core) = some i) : exec (.mring g) s = .next (doneS { s with
    c := { s.c with ring := some (getS s.c g) }
    rings := s.rings ++ [⟨clusterOf s.c.core, i, getS s.c g, s.c.uid, false⟩] } (BitVec.ofNat 6 (g.toNat + 1)) 0) := by
  change execMring g s = _
  rw [execMring, issue_ready hr]
  dsimp only
  rw [placedAccess_ok hp, if_neg (by simp [homeWaits_needR_eq_false hu]), if_neg (by simp [ownPoisoned_eq_false hx]),
    if_neg (by simp [h7, h16, hn]; omega), hi]

/-- Without a free entry the word says so (R277). -/
theorem exec_mring_full (hi : freeEntry s (clusterOf s.c.core) = none) :
    exec (.mring g) s = .next (doneS s (BitVec.ofNat 6 (g.toNat + 1)) 1) := by
  change execMring g s = _
  rw [execMring, issue_ready hr]
  dsimp only
  rw [placedAccess_ok hp, if_neg (by simp [homeWaits_needR_eq_false hu]), if_neg (by simp [ownPoisoned_eq_false hx]),
    if_neg (by simp [h7, h16, hn]; omega), hi]

end

section
variable {s : State} (hr : Ready .mdetach s)
include hr

theorem exec_mdetach : exec .mdetach s = .next
    (if s.c.ring.isNone then done s
      else if ringBusy s then hold s
      else done { s with
        c := { s.c with ring := none }
        rings := s.rings.filter (·.uid != s.c.uid), scales := s.scales.filter (·.uid != s.c.uid) }) := by
  change execMdetach s = _
  rw [execMdetach, issue_ready hr]

theorem exec_mdetach_detached (h : s.c.ring = none) : exec .mdetach s = .next (done s) := by
  rw [exec_mdetach hr, if_pos (by simp [h])]

theorem exec_mdetach_busy (h : s.c.ring ≠ none) (hb : ringBusy s = true) : exec .mdetach s = .next (hold s) := by
  rw [exec_mdetach hr, if_neg (by simpa using h), if_pos hb]

/-- A ring is given up once nothing of it is under way (R277). -/
theorem exec_mdetach_idle (h : s.c.ring ≠ none) (hb : ringBusy s = false) : exec .mdetach s = .next (done { s with
    c := { s.c with ring := none }
    rings := s.rings.filter (·.uid != s.c.uid), scales := s.scales.filter (·.uid != s.c.uid) }) := by
  rw [exec_mdetach hr, if_neg (by simpa using h), if_neg (by simp [hb])]

end

end Sys2Proof.Proofs
end
section
/-!
PROOFS. The MX words and the matrix engine put together (R88 to R92, R188, R254 to R257, R273 to R277).
-/

namespace Sys2Proof.Proofs
open Sys2Proof Sys2Proof.Machine

/-- A command posted and its tag raised, as the word ends. -/
theorem completes_posted {i : Instr} {s s2 : State} {tag : Option (BitVec 6)} {ring : Word} {slot w0 a b ws : Nat}
    {scales : List (BitVec 32)} (hx : exec i s = .next (postWord s tag w0 a b ws scales)) (hring : s.c.ring = some ring)
    (hs : ringSpoiled s (ringClient s) ring = false) (hf : RingFree s tag ring)
    (hr : ringReserve (atHome s) (ringClient s) ring = (s2, some slot)) :
    Completes i s fun u =>
      let v := posted s (if scales = [] then s2 else { s2 with scales := s2.scales ++ [⟨ring, s.c.uid, slot, scales⟩] }) tag ring
        slot w0 a b ws
      CrewEffect v u (tagUp v.c tag) :=
  ⟨_, hx, postWord_posts hring hs hf hr ▸ crewEffect_tagUp _ tag⟩

theorem completes_held {i : Instr} {s : State} (hx : exec i s = .next (hold s)) : Completes i s fun u => Waits s u :=
  ⟨_, hx, waits_hold s⟩

/-- Settles O47: the words by their checks, the engine by what it finds and chooses, and the sums by their windows. -/
theorem matrixWords : Obligations.MatrixWords := by
  refine ⟨?posts, ?checks, fun g r half => ⟨rowScales_none half, rowScales_some half⟩, ?rings, ?entry,
    fun s e pa hb hf hr => lookAtRing_broken hb hf hr, ?head, fun s cluster m h => stripPassGrant_completes h,
    fun s cluster => ⟨fun m h => nextPass_some h, fun h => nextPass_none h⟩,
    fun s u m pass hs hr hf hu hm => promotionEnd_completes hs hr hf hu hm, fun s m pass h => mzero_clears s pass h, ?add,
    promoteInt_eq, fun x => ⟨rfl, rfl, rfl, rfl, rfl⟩, ?sums⟩
  case posts =>
    intro s s2 t g f n ring slot tag k x hring hs hq hroom htag hres
    have free : RingFree s tag ring := ⟨hq, hroom, htag⟩
    refine List.forall_mem_cons.2 ⟨fun hr hc => ?_, List.forall_mem_cons.2 ⟨fun hr hc => ?_,
      List.forall_mem_cons.2 ⟨fun hr hc => ?_, fun p hp => absurd hp List.not_mem_nil⟩⟩⟩
    · obtain ⟨h1, h2, h3, h4, h5, h6, h7, h0⟩ := hc
      have hx := exec_mma_unscaled hr (fun h => absurd h (by rw [h0]; decide)) (by rw [hring]; nofun)
        ⟨h1, h2, h3, h4, h5, h6, h7⟩ h0
      have := completes_posted hx hring hs free hres
      exact this
    · have := completes_posted (exec_mzero hr hc) hring hs free hres
      exact this
    · have := completes_posted (exec_mfence hr) hring hs free hres
      exact this
  case checks =>
    intro s s2 t g f n tag k x reg scales formed scaled form free sound
    have unscaled (h : ¬ scaled) : bits (getG s.c g 3).toNat 40 1 = 0 := by
      have := bits_lt (getG s.c g 3).toNat 40 1
      have : bits (getG s.c g 3).toNat 40 1 ≠ 1 := h
      omega
    have mma {ring : Word} (hring : s.c.ring = some ring) (hr : Ready (.mma t g f n) s) (hf : formed) (h : ¬ scaled) :=
      exec_mma_unscaled hr (fun k => absurd k h) (by rw [hring]; nofun) hf (unscaled h)
    refine ⟨fun hr hh h => exec_mma_form hr hh h, fun hr h1 ho => exec_mma_hazard hr h1 ho,
      fun ring l th hr hh hring hf h1 h2 hl hth hb hfirst => exec_mma_uncorrectable hr (fun _ => hh) (by rw [hring]; nofun) hf h1 h2
        hl hth hb hfirst, fun ring l slot hr hh hring hf h1 h2 hl hg hs hfree hres => ?_, fun hr h => exec_mzero_form hr h,
      fun hr h => (exec_mfence hr).trans (congrArg _ (postWord_detached h)), fun ring hring hs => ⟨fun hr hf h => ?_,
        fun hr h0 => ?_, fun hr => ?_⟩, fun ring hring hs hfree => ⟨fun hr hf h => ?_, fun hr h0 => ?_, fun hr => ?_⟩⟩
    · have := completes_posted (exec_mma_scaled hr (fun _ => hh) (by rw [hring]; nofun) hf h1 h2 hl hg) hring hs hfree hres
      rwa [if_neg (rowScales_ne_nil hl)] at this
    · exact (mma hring hr hf h).trans (congrArg _ (postWord_spoiled hring hs))
    · exact (exec_mzero hr h0).trans (congrArg _ (postWord_spoiled hring hs))
    · exact (exec_mfence hr).trans (congrArg _ (postWord_spoiled hring hs))
    · exact completes_held ((mma hring hr hf h).trans (congrArg _ (postWord_waits hring hs hfree)))
    · exact completes_held ((exec_mzero hr h0).trans (congrArg _ (postWord_waits hring hs hfree)))
    · exact completes_held ((exec_mfence hr).trans (congrArg _ (postWord_waits hring hs hfree)))
  case rings =>
    intro s g p ring out
    refine ⟨fun hr hp hx hu hn h7 h1 h16 => ⟨fun i hi => ?_, fun hi => ?_⟩, fun hr h => ?_, fun hr h hb => ?_, fun hr h hb => ?_⟩
    · exact ⟨_, exec_mring_attached hr hp hx hu hn h7 h1 h16 hi, scalarEffect_doneS _ _ _⟩
    · exact ⟨_, exec_mring_full hr hp hx hu hn h7 h1 h16 hi, scalarEffect_doneS _ _ _⟩
    · exact ⟨_, exec_mdetach_detached hr h, crewEffect_done s s.c rfl rfl rfl rfl⟩
    · exact completes_held (exec_mdetach_busy hr h hb)
    · exact ⟨_, exec_mdetach_idle hr h hb, crewEffect_done { s with
        rings := s.rings.filter (·.uid != s.c.uid), scales := s.scales.filter (·.uid != s.c.uid) } _ rfl rfl rfl rfl⟩
  case entry =>
    intro s e he
    refine ⟨settleMx (lookAtRing s e), ?_, rfl⟩
    change execRingSlotAdmit e.cluster e.entry s = _
    rw [execRingSlotAdmit, he]
  case head =>
    intro s e pa r q k va head word kind tag reserved skipped mine hb hf hr hva hq
    have h : AtHead s e pa r q := ⟨hb, hf, hr, hva, hq⟩
    have hskip (why : Cause) : skipSlot s e pa r.cons why (w64 (r.slot r.cons)) (recordTag (readBytes s (q.pa + 8) 64)) =
        skipped why tag := by
      rw [recordTag_readBytes]
      rfl
    have hres : mxReservedOk (readBytes s (q.pa + 8) 64) = reserved := mxReservedOk_readBytes s _
    refine ⟨fun hp => lookAtRing_unwritten h hp, fun hp => ⟨fun hx => (lookAtRing_illegal h hp hx).trans (hskip _),
      fun h0 hx => (lookAtRing_uncorrectable h hp h0 hx).trans (hskip _),
      fun h0 hx hk => (lookAtRing_form h hp h0 hx (hres ▸ hk)).trans (hskip _), fun h0 hx hk hm => ?_⟩⟩
    have hcmd := lookAtRing_command h hp h0 hx hk (hres.trans hm)
    refine ⟨fun hwait => hcmd.trans (if_neg fun ha => ?_), fun h1 h2 h3 =>
      (hcmd.trans (if_pos ((admissible_iff ..).2 ⟨h1, h2, h3⟩))).trans ?_⟩
    · obtain ⟨h1, h2, h3⟩ := (admissible_iff ..).1 ha
      rcases hwait with ⟨m, hm, hlt⟩ | hlen | ⟨hk7, x, hx, hc, ht⟩
      · exact absurd (h1 m hm) (not_le.2 hlt)
      · exact absurd hlen (not_le.2 (Nat.lt_succ_of_le h2))
      · exact (h3 hk7 x hx).elim (fun hne => hne hc) fun hne => hne ht
    · exact admitRecord_readBytes s e pa r.cons (q.pa + 8) (w64 va)
  case add =>
    intro s m pass ra rb planes k atA atB row col key first sa sb hk ha hb hbad
    have hplanes : planes = planesOf m.kind := (planesOf_eq hk).symm
    clear_value planes
    subst hplanes
    obtain ⟨u, hu, htiled, hother, hstrip⟩ := mma_adds (m := m) (pass := pass) (by omega) rfl rfl ha hb hbad
    exact ⟨u, hu, htiled, hother, hstrip⟩
  case sums =>
    intro a b sa sb old c r fin wrong endless sign hlen hold
    refine ⟨fun h => promote_block_nan h, fun hw ha hb hc neg hn ho => ?_, fun h ha hb hc => promote_block_finite h ha hb hc⟩
    exact (congrArg (fun x => promote x sa sb old) (blockSum_endless hw hn ho)).trans (promote_inf ha hb hc neg)

end Sys2Proof.Proofs
end
